-- ==== Sys2Proof/Word.lean ====
section
/-!
DEFINITION. The words of the block and the sparse tables that hold numbered things.
-/
namespace Sys2Proof

/-- A byte. -/
abbrev Byte := BitVec 8
/-- A register of R15. -/
abbrev W32 := BitVec 32
/-- A 64-bit quantity: two registers of R15, a scalar register of R134. -/
abbrev W64 := BitVec 64

/-- Numbered things: pairs of a number and a value, numbers strictly rising, no pair whose value is the
one an unlisted number has. Memory is a table of bytes, the form of `Host.Cell`. -/
abbrev Tbl (α : Type) := List (Nat × α)

end Sys2Proof
end

