-- ==== Sys2Proof/Syntax.lean ====
section
/-!
DEFINITION. The commands of the block: one constructor of `Instr` for each row of spec/opcode_table.json,
with the operands the row's rule gives it. The table gives no bits, so a command is never a word.
-/
namespace Sys2Proof

/-- The two register apertures of R11: BAR0 holds the manager registers, BAR2 the VAI pages. -/
inductive Bar where
  | bar0 | bar2
deriving DecidableEq, Repr

/-- Completion status on OCPL (R33): successful, unsupported request, completer abort. -/
inductive CplStatus where
  | sc | ur | ca
deriving DecidableEq, Repr

/-- The clocks of R70. -/
inductive Clock where
  | mc (n : Nat) | array | mesh | ctrl | host | port | refclk
deriving DecidableEq, Repr

/-- The requests an engine sends on MREQ (R51). -/
inductive MreqOp where
  | read | write | add | fadd | cas | tsig
deriving DecidableEq, Repr

/-- JTAG instructions (R63, R64): the two every mode answers, and the debug instructions. -/
inductive TapIr where
  | idcode | bypass | debug
deriving DecidableEq, Repr

/-- MCTP control messages of R658. -/
inductive MctpControl where
  | setEid (eid : Nat) | getEid | getVersion | getTypes | getUuid | other
deriving DecidableEq, Repr

/-- The numeric sensors of R658; `reserved` is any other sensor number. -/
inductive PldmSensor where
  | power | volts (rail : Nat) | amps (rail : Nat) | temp (stack : Nat) | rate | state | beatLock | reserved
deriving DecidableEq, Repr

/-- Bytes a step reads from host memory, which lies outside the block, and whether their completion
was in error or poisoned (R33). A step that reads nothing from the host ignores them. -/
structure HostData where
  bytes  : List Byte
  poison : Bool
deriving DecidableEq, Repr

/-- What the code of one 64-byte codeword of a tier found at a read (R271, R273): an address in it, how many symbols were in
error (0: the on-die ECC of the stack reports a correction), and whether it was read from a line of the near-tier cache. -/
structure MemError where
  addr   : Nat
  syms   : Nat
  cached : Bool
deriving DecidableEq, Repr

/-- What the SECDED code of a local store found in one 8-byte word (R98): its address, and whether two bits were wrong, which
it cannot correct, or one. -/
structure LsError where
  addr : Nat
  two  : Bool
deriving DecidableEq, Repr

/-- A flit of R322: the link header of R323, the fifteen 16-byte units of its body, the four reserved bytes, and the
CRC-32C it carries. -/
structure Flit where
  lhdr  : W64
  units : List (List Byte)
  rsvd  : W32
  crc   : W32
deriving DecidableEq, Repr

/-- A TRAIN ordered set (R324): node ID, mode, active lanes, free credits of each VC, next expected SEQ, FRESH. -/
structure TrainSet where
  node     : Nat
  mode     : Nat
  lanes    : Nat
  credits  : List Nat
  expected : Nat
  fresh    : Bool
deriving DecidableEq, Repr

/-- A BEAT ordered set (R376): beat value, offset in PORT cycles, distance, master node ID. -/
structure BeatSet where
  value    : Nat
  offset   : Nat
  distance : Nat
  master   : Nat
deriving DecidableEq, Repr

/-- A frame on an Ethernet-mode port (R357, R358): MAC addresses, EtherType, IEEE 802.1Q tag or none, the IPv6 header's
traffic class, next header, hop limit and addresses, the UDP ports and whether the checksum is right; then the transport
header and the packets in wire form. -/
structure EthFrame where
  dmac    : Nat
  smac    : Nat
  etype   : Nat
  tagged  : Bool
  tclass  : Nat
  next    : Nat
  hop     : Nat
  ip      : Nat
  dstIp   : Nat
  sport   : Nat
  dport   : Nat
  sumOk   : Bool
  psn     : Nat
  ackPsn  : Nat
  ackOnly : Bool
  ceEcho  : Bool
  nak     : Bool
  packets : List (List Byte)
deriving DecidableEq, Repr

/-- A unit with a power state (R681). -/
inductive PowerUnit where
  | array (p : Nat) | stack (n : Nat) | sector (n : Nat) | block
deriving DecidableEq, Repr

/-- How an SPDM request reaches the responder: the DOE pipe or the security mailbox (R736). -/
inductive SpdmPath where
  | doe | mailbox
deriving DecidableEq, Repr

/-- What the debug port asks for (R10, R150): bytes of the local-store debug view, or the pre-emption of physical array p. -/
inductive DebugReq where
  | read (addr len : Nat) | preempt (p : Nat)
deriving DecidableEq, Repr

/-- The level inputs of the host attach port's sidebands (R28): link up, Max_Payload_Size, Max_Read_Request_Size, DOE abort. -/
structure HapPins where
  up    : Bool := false
  mps   : BitVec 3 := 0
  mrrs  : BitVec 3 := 0
  abort : Bool := false
deriving DecidableEq, Repr

/-- The commands. An array instruction names the logical array that executes the word at its program counter, what
the code of the local store finds in the words it reads, and, for an instruction that a full save can stop half-way (R153), how many of its
steps, groups or granules are done before the next command. What a code or a link check finds has a default, that all is well, and so has
the number: the whole instruction. -/
inductive Instr where
  /-- COLD_RESET_RELEASE (R665). Release of COLD_RST_N starts the CSB and the start-up phases. -/
  | coldResetRelease
  /-- COLD_RESET_ASSERT (R78). Assertion of COLD_RST_N loses all block state except what is already in the boot flash. -/
  | coldResetAssert
  /-- IREQ_READY_ASSERT (R35). One millisecond after cold-reset release, the block asserts IREQ ready and answers host accesses. -/
  | ireqReadyAssert
  /-- BAR4_READ (R37). A host IREQ read of the far-tier window returns memory, or all ones during a block reset or above the far tier. -/
  | bar4Read (off len tag : Nat) (ecc : List MemError)
  /-- BAR4_WRITE (R34). A host IREQ write to the far-tier window stores its data, poison-marked when EP is set, or is discarded. -/
  | bar4Write (off : Nat) (data : List Byte) (ep : Bool)
  /-- CMEM_REQUEST (R38). A CXL.mem request on CMEM accesses device memory at 64-byte granularity under the BAR4 map. -/
  | cmemRequest (write : Bool) (addr tag : Nat) (data : List Byte) (poison : Bool) (ecc : List MemError := [])
  /-- BAR_ACCESS_MALFORMED (R17). A BAR0 or BAR2 access of the wrong size or alignment returns all ones, discards its data and is logged as CE. -/
  | barAccessMalformed (bar : Bar) (write : Bool) (off size tag : Nat) (ep : Bool)
  /-- REGISTER_WRITE (R14). A write to a register with no behaviour of its own updates its RW fields, ignoring RO and locked RWL fields. -/
  | registerWrite (bar : Bar) (off : Nat) (val : W32) (ep : Bool)
  /-- LOW_WORD_READ (R16). A read of the low word of a 64-bit register latches the high word for that requester. -/
  | lowWordRead (bar : Bar) (req off : Nat)
  /-- RC_FIELD_READ (R20). A read of a read-clear field returns its value and clears it, keeping events of the same cycle. -/
  | rcFieldRead (bar : Bar) (req off : Nat)
  /-- OCPL_COMPLETION (R33). A completion for a block read of host memory delivers its data, poisoned on UR, CA or EP. -/
  | ocplCompletion (tag : Nat) (status : CplStatus) (ep : Bool) (data : List Byte)
  /-- OREQ_COMPLETION_TIMEOUT (R33). A completion timeout for an OREQ read lands all-ones poisoned data at the destination. -/
  | oreqCompletionTimeout (tag : Nat)
  /-- HAP_LINK_DOWN (R28, R36). The sideband inputs of the host attach port change to `pins`. Deassertion of HAP_LINK_UP after READY
  is a B-class fault. -/
  | hapLinkDown (pins : HapPins := {})
  /-- HAP_FLR (R36). An HAP_FLR pulse after READY is a B-class fault. -/
  | hapFlr
  /-- DOE_MESSAGE (R736). An SPDM data object on the DOE pipe is passed to the CSB responder, or discarded while abort is asserted. -/
  | doeMessage (data : List Byte)
  /-- CLOCK_LOSS (R70). A clock monitor detects a lost clock, giving a B-class fault, port retraining or a stop, by clock. -/
  | clockLoss (clk : Clock)
  /-- MC_CLOCK_WAIT_EXPIRY (R70). 500 ms after release a stack still without its MC clock is marked absent and start-up continues. -/
  | mcClockWaitExpiry
  /-- PHY_UPDATE_REQUEST (R41). A PHY-initiated update or PHY-master request is granted by the memory controller within 2 us. -/
  | phyUpdateRequest (n : Nat) (master : Bool)
  /-- EAP_DONE (R54). An engine's DONE frees its issue tag and completes the task, or is discarded when stale. -/
  | eapDone (e : Nat) (tag : W64) (status : Byte) (cycles : W32)
  /-- EAP_MREQ (R53). An engine memory request is translated in its task's context and performed, with errors on MRSP. -/
  | eapMreq (e : Nat) (tag : W64) (op : MreqOp) (va : W64) (len : Nat) (data : List Byte) (host : HostData) (mem : List MemError := [])
  /-- CANCEL_ACK (R55). An engine's acknowledge of CANCEL at a block reset ends the tag's outstanding state. -/
  | cancelAck (e : Nat) (tag : W64)
  /-- CANCEL_TIMEOUT (R55). A CANCEL left unanswered for 1 ms outside a block reset is a B-class fault. -/
  | cancelTimeout (e : Nat) (tag : W64)
  /-- EAP_FATAL (R57). Assertion of an engine's FATAL line is a B-class fault. -/
  | eapFatal (e : Nat)
  /-- BLK_LOCK (R85). Writing 1 to BLK_LOCK makes the BLK unit's RWL fields read-only until cold reset. -/
  | blkLock (val : W32)
  /-- FAB_LOCK (R382). Writing 1 to FAB_LOCK makes the FAB unit's RWL fields read-only until cold reset. -/
  | fabLock (val : W32)
  /-- THROTTLE_ASSERT (R79). THROTTLE_REQ_N going low drives the block to the throttle floor within 1 us. -/
  | throttleAssert
  /-- THROTTLE_RELEASE (R79). THROTTLE_REQ_N going high returns the block to the CPB's rate within 2 us. -/
  | throttleRelease
  /-- TELEMETRY_FRAME (R81). A regulator's 32-bit frame updates the CPB's sum of rail currents, or is discarded if its rail mismatches. -/
  | telemetryFrame (n : Nat) (frame : W32)
  /-- TELEMETRY_CHANNEL_LOST (R81). A telemetry channel silent for 100 us is treated as lost, logged, and replaced by the power model. -/
  | telemetryChannelLost (n : Nat)
  /-- BEAT_IN_EDGE (R694). A rising edge on BEAT_IN marks a beat boundary or a 1PPS pulse for a master using that source. -/
  | beatInEdge
  /-- BEAT_BOUNDARY (R691). The beat counter rises by one and every beat-driven test and BEAT_OUT pulse takes place. -/
  | beatBoundary
  /-- TAP_INSTRUCTION (R63). A JTAG instruction is executed by the block's TAP, limited to IDCODE and BYPASS in confidential mode. -/
  | tapInstruction (ir : TapIr)
  /-- MCTP_CONTROL_MESSAGE (R658). An MCTP control message to the CMB sets or reports its endpoint ID, version, types or UUID. -/
  | mctpControlMessage (msg : MctpControl)
  /-- PLDM_REQUEST (R658). A PLDM Type 0 or Type 2 request to the CMB is answered with block-wide sensor data. -/
  | pldmRequest (type : Nat) (sensor : PldmSensor)
  /-- ACC_PARITY_ERROR (R99). A parity error in the accumulators or vector registers is a B-class fault. -/
  | accParityError (p : Nat)
  /-- LOCKSTEP_MISMATCH (R99). A mismatch between an array's decode and its shadow copy is a B-class fault. -/
  | lockstepMismatch (p : Nat)
  /-- NOP (R136). The array retires an instruction that does nothing. -/
  | nop (l : Nat) (ecc : List LsError := [])
  /-- END (R139). The array completes its task once every store is acknowledged and every atomic has returned. -/
  | endTask (l : Nat) (ecc : List LsError := [])
  /-- BR (R136). The array branches unconditionally. -/
  | br (l : Nat) (ecc : List LsError := [])
  /-- BRC (R136). The array branches when its tested condition holds. -/
  | brc (l : Nat) (ecc : List LsError := [])
  /-- CALL (R136). The array pushes a return address on its call stack and branches. -/
  | call (l : Nat) (ecc : List LsError := [])
  /-- RET (R136). The array returns to the address on top of its call stack. -/
  | ret (l : Nat) (ecc : List LsError := [])
  /-- LOOP (R136). The array starts or continues a hardware loop. -/
  | loop (l : Nat) (ecc : List LsError := [])
  /-- CHEAP (R151). At a cheap point with a pre-emption pending and a well-formed entry, the array takes a cheap save. -/
  | cheap (l : Nat) (ecc : List LsError := [])
  /-- RDFLAG (R116). The array reads its task's sticky flags. -/
  | rdflag (l : Nat) (ecc : List LsError := [])
  /-- CLRFLAG (R116). The array clears sticky flags of its task. -/
  | clrflag (l : Nat) (ecc : List LsError := [])
  /-- ADDI (R136). The array adds an immediate to a scalar register. -/
  | addi (l : Nat) (ecc : List LsError := [])
  /-- ADD (R136). The array adds two scalar registers. -/
  | add (l : Nat) (ecc : List LsError := [])
  /-- SUB (R136). The array subtracts two scalar registers. -/
  | sub (l : Nat) (ecc : List LsError := [])
  /-- MUL (R136). The array multiplies two scalar registers. -/
  | mul (l : Nat) (ecc : List LsError := [])
  /-- SHL (R136). The array shifts a scalar register left. -/
  | shl (l : Nat) (ecc : List LsError := [])
  /-- SHR (R136). The array shifts a scalar register right. -/
  | shr (l : Nat) (ecc : List LsError := [])
  /-- AND (R136). The array forms the bitwise and of two scalar registers. -/
  | and (l : Nat) (ecc : List LsError := [])
  /-- OR (R136). The array forms the bitwise or of two scalar registers. -/
  | or (l : Nat) (ecc : List LsError := [])
  /-- MOVI (R136). The array moves an immediate into a register. -/
  | movi (l : Nat) (ecc : List LsError := [])
  /-- MOVHI (R136). The array moves an immediate into the high part of a register. -/
  | movhi (l : Nat) (ecc : List LsError := [])
  /-- CMP (R136). The array compares two scalar registers and sets condition bits. -/
  | cmp (l : Nat) (ecc : List LsError := [])
  /-- FOP (R136). The array performs an FP32 scalar operation selected by MOD. -/
  | fop (l : Nat) (ecc : List LsError := [])
  /-- GCFG (R108). The array sets the grid's operand formats, refusing pairs outside one class. -/
  | gcfg (l : Nat) (ecc : List LsError := [])
  /-- GZERO (R112). The array clears the grid accumulators to start a tile. -/
  | gzero (l : Nat) (ecc : List LsError := [])
  /-- GLOAD (R112). The array preloads the accumulators from the local store. -/
  | gload (l : Nat) (ecc : List LsError := [])
  /-- GSTEP (R95). The grid runs IMM multiply-accumulate steps over operands from the local store. -/
  | gstep (l : Nat) (ecc : List LsError) (n : Nat := 2 ^ 32)
  /-- DRAIN (R111). The array drains the accumulators through the vector unit into the local store. -/
  | drain (l : Nat) (ecc : List LsError := []) (n : Nat := 2 ^ 32)
  /-- VEC_FP32_OP (R121). The vector unit performs an FP32 arithmetic operation across 64 lanes. -/
  | vecFp32Op (l : Nat) (ecc : List LsError := [])
  /-- VEC_INT32_OP (R121). The vector unit performs a wrapping INT32 operation across 64 lanes. -/
  | vecInt32Op (l : Nat) (ecc : List LsError := [])
  /-- VLD (R141). The array loads a vector register from a 256-byte-aligned local-store address. -/
  | vld (l : Nat) (ecc : List LsError)
  /-- VST (R141). The array stores a vector register to a 256-byte-aligned local-store address. -/
  | vst (l : Nat) (ecc : List LsError := [])
  /-- CVT (R113). The vector unit converts FP32 values to a target format with rounding and saturation. -/
  | cvt (l : Nat) (ecc : List LsError := [])
  /-- QBLK (R115). The vector unit quantises 32 FP32 values into one block with a shared scale. -/
  | qblk (l : Nat) (ecc : List LsError := [])
  /-- QT2 (R117). The vector unit converts FP32 weights to T2 codes against a threshold. -/
  | qt2 (l : Nat) (ecc : List LsError := [])
  /-- DEQ (R136). The vector unit dequantises packed elements to FP32. -/
  | deq (l : Nat) (ecc : List LsError := [])
  /-- LOAD (R138). The array issues a read of whole granules from a virtual address into the local store and stalls. -/
  | load (l : Nat) (ecc : List LsError := [])
  /-- STORE (R138). The array issues a write of whole granules from the local store to a virtual address. -/
  | store (l : Nat) (ecc : List LsError := []) (n : Nat := 2 ^ 32)
  /-- LOADS (R138). The array issues a strided read into the local store and stalls. -/
  | loads (l : Nat) (ecc : List LsError := [])
  /-- STORES (R138). The array issues a strided write from the local store. -/
  | stores (l : Nat) (ecc : List LsError := []) (n : Nat := 2 ^ 32)
  /-- OPENWIN (R143). The task opens or replaces its inbound window for outside writes. -/
  | openwin (l : Nat) (ecc : List LsError := [])
  /-- CLOSEWIN (R143). The task closes its inbound window. -/
  | closewin (l : Nat) (ecc : List LsError := [])
  /-- FENCE (R131). The array stalls until every store is acknowledged and every atomic has returned. -/
  | fence (l : Nat) (ecc : List LsError := [])
  /-- SIGNAL (R534). The array adds a signed value to a tally word, locally or by TSIG, and wakes waiters. -/
  | signal (l : Nat) (ecc : List LsError := [])
  /-- WAIT (R535). The array arms a wait on a tally word and tests it against a comparand. -/
  | wait (l : Nat) (ecc : List LsError := [])
  /-- TAKEWAIT (R536). The array arms a take-wait that subtracts an amount when the word holds enough. -/
  | takewait (l : Nat) (ecc : List LsError := [])
  /-- BARRIER (R548). The task arrives at a barrier channel and waits for the generation to complete. -/
  | barrier (l : Nat) (ecc : List LsError := [])
  /-- ATOM (R540). The array issues a 64-bit add, fetch-add or compare-and-swap on memory. -/
  | atom (l : Nat) (ecc : List LsError := []) (mem : List MemError := [])
  /-- ENQ (R465). A task enqueues a task record on a queue of its context and receives a status and SEQ. -/
  | enq (l : Nat) (ecc : List LsError := [])
  /-- ALLOC (R574). A task allocates contiguous memory from its context's heap at the first permitted level. -/
  | alloc (l : Nat) (ecc : List LsError := [])
  /-- FREE (R575). A task unmaps an allocation from its heap, invalidates it and drops a reference. -/
  | free (l : Nat) (ecc : List LsError := [])
  /-- HPUSH (R482). A task pushes a buffer handle onto a handoff queue and signals its tally word. -/
  | hpush (l : Nat) (ecc : List LsError := [])
  /-- HPOP (R483). A task pops a handle from a handoff queue, optionally delivering the buffer into its window. -/
  | hpop (l : Nat) (ecc : List LsError := [])
  /-- PTEST (R485). A task tests whether a local-store granule carries the poison mark. -/
  | ptest (l : Nat) (ecc : List LsError := [])
  /-- LOAD_COMPLETE (R130). The last byte of a load lands in the local store and the array resumes. -/
  | loadComplete (l : Nat) (ecc : List MemError)
  /-- STORE_ACK (R131). A store acknowledgement arrives, lowering the array's count and releasing a pending FENCE or END. -/
  | storeAck (l : Nat)
  /-- ATOM_REPLY (R131). The result of an atomic returns to the array and the instruction retires. -/
  | atomReply (l : Nat)
  /-- TASK_START (R133). An array starts the next entry of its task queue, loading code and clearing state on a change of context, or begins a restore. -/
  | taskStart (l : Nat) (host : HostData)
  /-- GRACE_EXPIRY (R151). GRACE_AC cycles after a request the array takes a full save at the current instruction. -/
  | graceExpiry (l : Nat)
  /-- SAVE_COMPLETE (R157). A save finishes copying its record and frees the array. -/
  | saveComplete (l : Nat) (ecc : List LsError := [])
  /-- RESTORE_COMPLETE (R159). A restore finishes and the task resumes execution. -/
  | restoreComplete (l : Nat) (ecc : List MemError := [])
  /-- WAIT_TIMEOUT (R538). An armed wait or take-wait is withdrawn after its timeout without release. -/
  | waitTimeout (l : Nat)
  /-- LOOKUP (R199). An LCE starts a lookup batch, resolving owners, sorting, merging and fetching runs per window. -/
  | lookup (n : Nat) (host : HostData)
  /-- RUN_FETCH_DATA (R200). A fetched run or granule returns to the LCE and its rows are pooled into their bags. -/
  | runFetchData (n : Nat) (key : Nat) (ecc : List MemError)
  /-- UPDATE (R224). An LCE applies update records, each as one indivisible write of a row and its cached copy. -/
  | update (n : Nat) (host : HostData)
  /-- EPOCH_FENCE (R228). An LCE starts an epoch fence for a domain, optionally reloading descriptors. -/
  | epochFence (n : Nat) (host : HostData)
  /-- EPOCH_FENCE_COMPLETE (R228). When every earlier accepted update is applied and acknowledged, the fence sets FENCED and completes. -/
  | epochFenceComplete (n : Nat)
  /-- LKP_PART (R342). A part of a remote-lookup sub-batch arrives; the owner starts the sub-batch when all parts are in. -/
  | lkpPart (p : Nat)
  /-- LKP_RSP (R217). A reply part from an owner is combined into the origin's bags, or dropped if stale. -/
  | lkpRsp (p : Nat)
  /-- REMOTE_LOOKUP_TIMEOUT (R219). A sub-batch reply missing after TMO_US poisons its bags and lets the batch complete. -/
  | remoteLookupTimeout (sub : Nat)
  /-- SKETCH_DECAY (R211). Every DECAY intervals all frequency-sketch counters are halved. -/
  | sketchDecay (p : Nat)
  /-- HRC_CONFIG_WRITE (R214). A write to LCE_HRC_p changes a partition's hot-row cache and empties it within 1 ms. -/
  | hrcConfigWrite (p : Nat) (val : W32)
  /-- LCE_INTERNAL_ERROR (R230). An uncorrectable error in an LCE's internal state is a B-class fault. -/
  | lceInternalError (n : Nat)
  /-- NEAR_TIER_MODE_WRITE (R254). A write to MC_NT_CFG requests a near-tier mode change, refused or applied step by step. -/
  | nearTierModeWrite (val : W32)
  /-- NEAR_TIER_STEP_ZEROED (R254). A step changing role finishes zeroing and starts serving as scratch or cache. -/
  | nearTierStepZeroed
  /-- CACHE_INVALIDATION_DONE (R253). A cache invalidation completes and the affected slices or cache serve again. -/
  | cacheInvalidationDone
  /-- PATROL_READ (R274). Patrol reads a codeword, corrects and rewrites it, and counts errors toward retirement. -/
  | patrolRead (addr : Nat) (syms : Option Nat)
  /-- GRANULE_MOVE_DONE (R277). After the copy and translation rewrite, firmware posts the retirement notice to the manager. -/
  | granuleMoveDone (old : Nat)
  /-- REFRESH (R259). The controller issues a scheduled per-bank refresh in a reserved run time. -/
  | refresh (c : Nat)
  /-- STACK_TEMP_READ (R259). The CPB reads each stack's temperature every 1 ms. -/
  | stackTempRead (temps : List Nat)
  /-- MC_INTERNAL_ERROR (R273). An uncorrectable error in a controller queue, remap state or save-pool bookkeeping is B-class. -/
  | mcInternalError (c : Nat)
  /-- RUN_TIME (R291). In each 8 ns run time a pseudo-channel issues a queued run of the dealt or borrowing regulator, or the pip expires. -/
  | runTime (c : Nat)
  /-- RG_CFG_WRITE (R293). A write to RG_CFG_r is refused or takes effect at the next round boundary. -/
  | rgCfgWrite (r : Nat) (val : W32)
  /-- TG_START (R309). Writing START starts a traffic-generator run, or is refused by the channel's state. -/
  | tgStart (c : Nat)
  /-- TG_STOP (R310). Writing STOP ends a generator run at the next codeword boundary. -/
  | tgStop (c : Nat) (faults : List (Nat × Nat) := [])
  /-- TG_RUN_DONE (R311). A generator run finishes its granules, leaving error counts and the first error address. -/
  | tgRunDone (c : Nat) (faults : List (Nat × Nat))
  /-- FLIT_RECEIVE (R328). A port accepts the next expected intact flit, or discards it and sends one NAK. -/
  | flitReceive (p : Nat) (flit : Flit) (cor : Nat := 0) (unc : Nat := 0)
  /-- ACK_TIMEOUT (R328). ACK not advancing for 20 us with flits outstanding puts the port into RETRAINING. -/
  | ackTimeout (p : Nat)
  /-- TRAIN_SET (R369). A TRAIN ordered set decides whether the link keeps or loses state and re-announces credits. -/
  | trainSet (p : Nat) (set : TrainSet) (good : Nat := 0xFF) (intact : Bool := true)
  /-- DEGRADE_SET (R366). A DEGRADE set names the surviving half on which the port resumes at four lanes. -/
  | degradeSet (p : Nat) (high : Bool) (intact : Bool := true)
  /-- BEAT_ORDERED_SET (R376). A BEAT set sets the follower's beat boundary and distance and is passed on downstream. -/
  | beatOrderedSet (p : Nat) (set : BeatSet) (intact : Bool := true)
  /-- DELAY_REQ_SEND (R324). Every 1,024 beats and at each training the port sends DELAY_REQ. -/
  | delayReqSend (p t1 : Nat)
  /-- DELAY_REQ (R377). A received DELAY_REQ is answered with DELAY_RSP carrying interface timestamps. -/
  | delayReq (p t1 t2 t3 : Nat) (intact : Bool := true)
  /-- DELAY_RSP (R377). A received DELAY_RSP gives the link delay from four timestamps. -/
  | delayRsp (p t1 t2 t3 t4 : Nat) (intact : Bool := true)
  /-- READ_REQUEST (R338). An inbound READ passing a window is performed at the point of coherence and answered. -/
  | readRequest (p : Nat) (ecc : List MemError := [])
  /-- WRITE_REQUEST (R338). An inbound WRITE passing a window is performed and acknowledged after reaching coherence. -/
  | writeRequest (p : Nat)
  /-- WRITE_LS (R341). An inbound WRITE_LS writes into the named task's inbound window, or is refused. -/
  | writeLs (p : Nat)
  /-- ADD_REQUEST (R339). An inbound ADD performs a 64-bit add at the point of coherence. -/
  | addRequest (p : Nat) (ecc : List MemError := [])
  /-- FADD (R339). An inbound FADD performs a fetch-add and returns the old value. -/
  | fadd (p : Nat) (ecc : List MemError := [])
  /-- CAS (R339). An inbound CAS performs compare-and-swap and returns the old value. -/
  | cas (p : Nat) (ecc : List MemError := [])
  /-- TSIG (R340). An inbound TSIG adds to a tally word, wakes waiters and is acknowledged. -/
  | tsig (p : Nat)
  /-- FWMSG (R337). An inbound steward message from a valid node is taken and acknowledged. -/
  | fwmsg (p : Nat)
  /-- READ_RSP (R344). A read response delivers data, poisoned or faulted by its status, to the origin. -/
  | readRsp (p : Nat)
  /-- ACK_RESPONSE (R344). An ACK completes a write, atomic or TSIG at the origin, or reports its failure. -/
  | ackResponse (p : Nat)
  /-- ATOM_RSP (R344). An ATOM_RSP returns the old value of a remote atomic to the origin. -/
  | atomRsp (p : Nat)
  /-- RESERVED_OPC_DISCARD (R330). A packet with a reserved OPC is discarded and logged as CE. -/
  | reservedOpcDiscard (p : Nat)
  /-- PACKET_FORWARD (R350). A packet for another node is forwarded by its route entry, or answered or dropped. -/
  | packetForward (p : Nat)
  /-- REQUEST_TIMEOUT (R345). A request with no response after REQ_TMO counts as lost. -/
  | requestTimeout (tag : Nat)
  /-- ETHERNET_FRAME (R358). An Ethernet-mode frame is taken in PSN order, acknowledged, NAKed or dropped. -/
  | ethernetFrame (p : Nat) (frame : EthFrame) (cor : Nat := 0) (unc : Nat := 0)
  /-- RETRANSMIT_TIMEOUT (R358). After RTO without progress the sender resends, and after RETRY_MAX the peer is down. -/
  | retransmitTimeout (k : Nat)
  /-- RATE_RECOVERY (R360). After 10 us without a CE echo the sender raises its rate to a peer by 1/64 of the port rate. -/
  | rateRecovery (k : Nat)
  /-- PTP_MESSAGE (R695). A PTP message on an Ethernet-mode port is timestamped and used by the slave clock. -/
  | ptpMessage (p : Nat) (event : Bool := true) (sent : Bool := false) (stamp : Nat := 0)
  /-- LANE_FAILURE (R365). A lane fails and the port degrades in place or enters RETRAINING. -/
  | laneFailure (p lane : Nat)
  /-- HOLD_TIMEOUT (R369). A port in RETRAINING past HOLD_MS loses its state and trains fresh with GEN raised. -/
  | holdTimeout (p : Nat)
  /-- PORT_TRAINING_RETRY (R319). Firmware retries training of a port not yet UP once per second. -/
  | portTrainingRetry (p : Nat)
  /-- PORT_MODE_WRITE (R385). A MODE write takes the port down with state lost and trains it fresh. -/
  | portModeWrite (p : Nat) (val : W32)
  /-- PORT_RETRAIN (R368). RETRAIN or LANES_REQ 1 retrains the port with its state kept. -/
  | portRetrain (p : Nat) (val : W32)
  /-- FLOW_PORT_CHANGE (R353). Once none of a flow's requests remains on the old port, the flow moves to its new port. -/
  | flowPortChange (dst ch : Nat)
  /-- BEAT_UPSTREAM_LOSS (R380). Loss of the upstream port moves the beat to the next best port or to holdover. -/
  | beatUpstreamLoss
  /-- FABRIC_TABLE_ERROR (R374). An uncorrectable error in a replay buffer, header, credit counter or fabric table is B-class. -/
  | fabricTableError (p : Nat) (data : Option (Nat × Nat) := none)
  /-- SG_CREATE (R399). The guest driver creates a sequence group in RUNNING with generation 0. -/
  | sgCreate (v : Nat) (host : HostData)
  /-- SG_RESTART (R399). The guest driver restarts a group in RUNNING with the generation raised. -/
  | sgRestart (v : Nat) (host : HostData)
  /-- SG_DESTROY (R424). The guest driver removes a sequence group. -/
  | sgDestroy (v : Nat)
  /-- STEP_GATE (R400). A gate task becomes ready and waits for its stage to open and its tally conditions to hold. -/
  | stepGate (seq : Nat) (host : HostData)
  /-- GATE_EXPIRY (R402). A gate not open by E(n) completes DONE_POISONED and breaks the group. -/
  | gateExpiry (seq : Nat)
  /-- KV_PASS (R405). A KV_PASS task goes to a step mover and waits for its send stage. -/
  | kvPass (seq : Nat) (host : HostData)
  /-- KV_PASS_COPY_START (R406). At O(SEND_STAGE) the mover starts copying in one flow, then signals the destination tally word. -/
  | kvPassCopyStart (seq : Nat) (host : HostData)
  /-- BATCH_EDIT (R412). The leader applies JOIN and LEAVE records to the next batch in record order. -/
  | batchEdit (seq : Nat) (host : HostData)
  /-- DB_SQ_TAIL (R439). A submission doorbell is accepted and publishes commands, or is discarded and counted. -/
  | dbSqTail (v q : Nat) (val : W32)
  /-- DB_CQ_HEAD (R440). A completion-head doorbell frees ring room and lets a held entry be written. -/
  | dbCqHead (v q : Nat) (val : W32)
  /-- DB_ARM (R441). An arm doorbell asks for one event record when the queue has or gets an entry. -/
  | dbArm (v q : Nat) (val : W32)
  /-- QUEUE_CREATE (R438). The guest driver creates a queue from a descriptor in a context. -/
  | queueCreate (v : Nat) (host : HostData)
  /-- QUEUE_DESTROY (R436). The guest driver removes a queue. -/
  | queueDestroy (v : Nat)
  /-- QUEUE_RESUME (R442). A STOPPED queue becomes READY, re-performing or skipping its head command. -/
  | queueResume (v : Nat)
  /-- NOP_COMMAND (R445). A NOP command completes at acceptance or after earlier commands when ordered. -/
  | nopCommand (q : Nat) (host : HostData)
  /-- TASK (R447). A TASK command is accepted and its task sent to dispatch. -/
  | task (q : Nat) (host : HostData)
  /-- LAUNCH (R456). A LAUNCH takes a patch snapshot and starts a stored graph. -/
  | launch (q : Nat) (host : HostData)
  /-- PATCH (R461). A PATCH writes patch values into a free buffer of a graph, or stops the queue with BUSY. -/
  | patch (q : Nat) (host recs : HostData)
  /-- WAIT_COMMAND (R469). A WAIT holds later commands until the fence reaches its value or an error is set. -/
  | waitCommand (q : Nat) (host : HostData)
  /-- SIGNAL_COMMAND (R470). A SIGNAL command is accepted and waits for the conditions of its performance. -/
  | signalCommand (q : Nat) (host : HostData)
  /-- SIGNAL_PERFORM (R470). Once earlier commands have completed, the SIGNAL raises the fence, writes its mirror and releases waits. -/
  | signalPerform (q : Nat)
  /-- GRAPH_REGISTER (R455). The guest driver copies a validated graph image into a context's graph store. -/
  | graphRegister (v : Nat) (host : HostData)
  /-- GRAPH_RELEASE (R451). The guest driver drops a graph handle. -/
  | graphRelease (v : Nat)
  /-- FENCE_CREATE (R467). The guest driver creates a fence with value, mirror and EVENT bit. -/
  | fenceCreate (v : Nat)
  /-- FENCE_DESTROY (R578). The guest driver drops a fence's creation reference. -/
  | fenceDestroy (v : Nat)
  /-- FENCE_SIGNAL (R657). The guest driver signals a fence or sets its error word. -/
  | fenceSignal (v : Nat)
  /-- FENCE_QUERY (R657). The guest driver reads a fence's value, error word and ignored-signal count. -/
  | fenceQuery (v : Nat)
  /-- HQ_CREATE (R480). The guest driver binds a handoff queue to a context with its pool and tally word. -/
  | hqCreate (v : Nat)
  /-- HQ_DESTROY (R657). The guest driver unbinds a handoff queue whose handles are all home. -/
  | hqDestroy (v : Nat)
  /-- COMPLETION_ENTRY_WRITE (R475). Once the work's writes are issued and acknowledged, the block writes its completion entry or holds it. -/
  | completionEntryWrite (q : Nat)
  /-- QUEUE_LOAD (R493). Firmware loads a queue that needs a slot into a free slot of its partition. -/
  | queueLoad (q slot : Nat)
  /-- QUEUE_UNLOAD (R492). Firmware unloads a resident queue that no longer needs its slot or has been outranked. -/
  | queueUnload (q : Nat)
  /-- WALKER_BIND (R494). A started LAUNCH binds to a graph walker with room and issues its root nodes. -/
  | walkerBind (launch walker : Nat)
  /-- DISPATCH (R496). A ready task goes to the sequencer, LCE, front end, step mover or EAP that its type names. -/
  | dispatch (seq : Nat)
  /-- TASK_STEAL (R499). A sequencer with an idle array takes a ready task from the fullest sequencer of its partition. -/
  | taskSteal (k : Nat)
  /-- TURN_BOUNDARY (R501). A new turn begins; sequencers requeue unstarted lower-rank entries and raise pre-emption requests. -/
  | turnBoundary (p : Nat)
  /-- ROUND_BOUNDARY (R502). A new round begins; pending rate, turn, round and schedule changes take effect and pips are dealt. -/
  | roundBoundary
  /-- WATCHDOG_EXPIRY (R512). A task whose counted time reaches WDOG_MS ends with FAULT_TIMEOUT. -/
  | watchdogExpiry (seq : Nat)
  /-- DEADLOCK_SCAN (R515). Every SCAN_BEATS firmware finds cycles of fence waits and breaks the newest WAIT with STALEMATE. -/
  | deadlockScan (rings : List (Nat × HostData))
  /-- TURN_TABLE_COMMIT (R506). Setting COMMIT checks the shadow turn table and activates it at the next round boundary. -/
  | turnTableCommit (p : Nat) (val : W32)
  /-- ROUND_LENGTH_WRITE (R507). A write of ROUND_BEATS_M1 is refused or takes effect at the next round boundary. -/
  | roundLengthWrite (val : W32)
  /-- PART_SCHED_WRITE (R524). A write of FE_PART_CFG_p sets schedule mode and best-effort classes at the next round boundary. -/
  | partSchedWrite (p : Nat) (val : W32)
  /-- TW_SET (R542). The guest driver replaces a tally word's value and wakes waiters. -/
  | twSet (v : Nat)
  /-- TW_GET (R656). The guest driver reads a tally word's value. -/
  | twGet (v : Nat)
  /-- BARRIER_BIND (R547). The guest driver binds a barrier channel to a context with a COUNT. -/
  | barrierBind (v : Nat)
  /-- BARRIER_UNBIND (R547). The guest driver releases a barrier channel's binding. -/
  | barrierUnbind (v : Nat)
  /-- CTX_CREATE (R562). The manager creates a context with its root, heap, domain and save area. -/
  | ctxCreate
  /-- CTX_DESTROY (R581). A context is fenced and torn down, its tasks ended and its references dropped. -/
  | ctxDestroy (box : Nat)
  /-- TEARDOWN_DRAIN_EXPIRY (R582). Requests still outstanding after DRAIN_US are settled as under TAG. -/
  | teardownDrainExpiry (c : Nat)
  /-- OBJECT_DESTROY (R579). Firmware destroys a DYING object and releases its resources. -/
  | objectDestroy
  /-- ALLOCATION_ZEROED (R579). A dead allocation's zeroing ends and its memory returns to the VAI's free pool. -/
  | allocationZeroed (a : Nat)
  /-- XLAT_INVAL (R571). The guest driver drops cached translations of a range and waits for their transfers. -/
  | xlatInval (v : Nat)
  /-- MEM_ALLOC (R776). The guest driver allocates memory in a context's heap. -/
  | memAlloc (v : Nat)
  /-- MEM_LOOKUP (R776). The guest driver finds the allocation and block-local base of a virtual address. -/
  | memLookup (v : Nat)
  /-- MEM_SHARE (R776). The guest driver maps an allocation into another context of the same VAI. -/
  | memShare (v : Nat)
  /-- MEM_UNMAP (R776). The guest driver unmaps an allocation from a named context. -/
  | memUnmap (v : Nat)
  /-- MEM_REF (R776). The guest driver takes a host reference on an allocation. -/
  | memRef (v : Nat)
  /-- MEM_UNREF (R776). The guest driver drops a host reference on an allocation. -/
  | memUnref (v : Nat)
  /-- VAI_CREATE (R593). The manager creates a VAI in a partition with its PASID and classes. -/
  | vaiCreate
  /-- VAI_DESTROY (R595). The manager revokes a VAI's grants and frees it, scrubbing a confidential partition. -/
  | vaiDestroy
  /-- VAI_GRANT (R599). The manager grants or revokes one kind of resource of a running VAI. -/
  | vaiGrant
  /-- REVOKE_ZEROED (R601). A revoked item finishes zeroing and returns to its pool. -/
  | revokeZeroed (scratch : Bool) (k : Nat)
  /-- PART_SCRATCH (R596). The manager sets a partition's near-tier scratch grant. -/
  | partScratch
  /-- RECONFIG (R608). The manager changes the layout or confidential bits in one transaction. -/
  | reconfig
  /-- RECONFIG_DRAIN_EXPIRY (R609). Non-array tasks still running after DRAIN_MS are cancelled as under TAG. -/
  | reconfigDrainExpiry
  /-- SCRUB_COMPLETE (R757). After the memory steps of a scrub end, the CSB checks counts, raises SEQ and records the receipt. -/
  | scrubComplete (p : Nat)
  /-- MIG_START (R612). The manager clears both logs and starts migration logging for a VAI. -/
  | migStart
  /-- MIG_STOP (R612). The manager ends migration logging for a VAI. -/
  | migStop
  /-- MIG_HARVEST (R614). The manager copies and clears a device or host dirty log into host memory. -/
  | migHarvest
  /-- VAI_PAUSE (R616). The manager stops a VAI, saving its array tasks to the far tier. -/
  | vaiPause
  /-- VAI_RESUME (R616). The manager resumes a paused VAI. -/
  | vaiResume
  /-- MIG_STATE_SAVE (R617). The manager writes a paused VAI's state image into host memory. -/
  | migStateSave
  /-- MIG_STATE_LOAD (R618). The manager loads a state image into an empty target VAI with identical grants. -/
  | migStateLoad (host : HostData)
  /-- MB_POST (R650). Writing POST in IDLE posts a mailbox message, or the write is discarded. -/
  | mbPost (box : Nat) (val : W32)
  /-- MAILBOX_TAKE (R650). The serving processor takes a posted message, copies its words and runs the command. -/
  | mailboxTake (box : Nat)
  /-- MB_ACK_RELEASE (R650). Writing 1 to VALID releases a DONE mailbox to IDLE. -/
  | mbAckRelease (box : Nat) (val : W32)
  /-- EVENT_RECORD_WRITE (R630). The controller selects a pending source, writes its record into the target queue and sends MSI-X. -/
  | eventRecordWrite (target : Nat)
  /-- HOLDOFF_EXPIRY (R632). A hold-off group's interval ends and its pending sources may be selected again. -/
  | holdoffExpiry (g : Nat)
  /-- PENDING_CLEAR (R628). Writing 1 to PENDING clears a source's arrival counter. -/
  | pendingClear (n : Nat)
  /-- SWSET (R628). Writing 1 to SWSET counts one software arrival on a source. -/
  | swset (n : Nat)
  /-- IC_SYNC (R639). A read of IC_SYNC is answered only after records whose selection began have been written. -/
  | icSync (req : Nat)
  /-- SOURCE_CONFIG_WRITE (R638). A write to IC_SRC_CFG_n sets a source's mask, group and level. -/
  | sourceConfigWrite (n : Nat) (val : W32)
  /-- EVENT_QUEUE_HEAD_WRITE (R636). A write to an event queue's HEAD frees room and may send its MSI-X message. -/
  | eventQueueHeadWrite (target : Nat) (val : W32)
  /-- HEARTBEAT (R652). Every 64 beats a running processor raises its heartbeat count. -/
  | heartbeat (proc : Nat)
  /-- STEWARD_HANG (R713). A running steward whose heartbeat has not risen for 10 ms is a B-class event. -/
  | stewardHang (sw : Nat)
  /-- CSB_IMAGE_CHECK (R662). The CSB checks a read image's header, signature, digest, SVN and version. -/
  | csbImageCheck
  /-- STRATA_BOND_TEST (R50). At cold start the block checks strata identity, tests bonds and assigns spare bank groups. -/
  | strataBondTest (match0 match1 : Bool) (fail0 fail1 bad : List Nat)
  /-- STACK_TRAINING (R315). Firmware trains all stacks in phases and maps out failing pseudo-channels. -/
  | stackTraining (failed : List Nat) (chans : List (Nat × Nat)) (step : Nat := 1) (samples : Nat := 0)
  /-- PORT_TRAINING_TIMEOUT (R666). 800 ms into port training, start-up continues without ports not yet up. -/
  | portTrainingTimeout
  /-- REPORT_READY (R665). The block sets locks, writes READY_MS and raises source 36. -/
  | reportReady (ms : Nat)
  /-- RECOVERY_GO (R668). Writing GO in RECOVERY fetches an image from host memory and checks it. -/
  | recoveryGo (val : W32)
  /-- FW_STAGE (R673). The manager copies and checks a new firmware image into a far-tier chunk. -/
  | fwStage (host : HostData)
  /-- FW_HANDOVER (R674). The manager requests the handover of one steward to the staged image. -/
  | fwHandover
  /-- HANDOVER_START (R674). At the next round boundary the steward stops taking messages and the CSB loads the new image. -/
  | handoverStart
  /-- HANDOVER_COMPLETE (R674). The steward resumes on the new image and posts notice 0x07 with bit 8 set. -/
  | handoverComplete
  /-- HANDOVER_TIMEOUT (R675). A steward not resumed within 2 ms is reloaded from flash and the handover fails. -/
  | handoverTimeout
  /-- FW_COMMIT (R675). The manager has the CSB write the staged image to flash. -/
  | fwCommit
  /-- FLASH_WRITE_DONE (R675). The flash write finishes with the header written last. -/
  | flashWriteDone
  /-- FW_ABORT (R673). The manager discards a staged image before any steward runs it. -/
  | fwAbort
  /-- ARRAY_SWAP (R678). A logical array is moved to a tested reserve array by a full save and remap. -/
  | arraySwap (own : Option Nat)
  /-- SECTOR_OFFLINE (R679). A sector is emptied of work and taken out of service. -/
  | sectorOffline
  /-- SECTOR_ONLINE (R680). A sector's arrays are self-tested and the sector takes tasks again. -/
  | sectorOnline
  /-- ARRAY_GATE (R681). An array idle for 64 ac enters ARRAY-GATED. -/
  | arrayGate (p : Nat)
  /-- STACK_SELF_REFRESH_ENTRY (R681). A stack idle for STACK_IDLE enters self-refresh when the limits allow. -/
  | stackSelfRefreshEntry (n : Nat)
  /-- SECTOR_DOZE_ENTRY (R681). A sector idle for DOZE_IDLE enters SECTOR-DOZE when the limits allow. -/
  | sectorDozeEntry (n : Nat)
  /-- BLOCK_REST_ENTRY (R681). The block enters BLOCK-REST after REST_IDLE_MS with every unit resting. -/
  | blockRestEntry
  /-- WAKE_COMPLETE (R685). A unit finishes its exit latency and the waiting request proceeds. -/
  | wakeComplete (u : PowerUnit)
  /-- PREWAKE (R686). The CPB starts a unit's exit ahead of a known event so it is active at its beat. -/
  | prewake (u : PowerUnit)
  /-- VAI_WAKE_TOL (R684). The manager changes a VAI's wake tolerance within 1 beat. -/
  | vaiWakeTol
  /-- CPB_RATE_CHOICE (R688). Every 10 us the CPB chooses the ARRAY rate under RATE_MAX and CAP_W, for the load that it expects. -/
  | cpbRateChoice (load : Nat)
  /-- BEAT_SET (R694). The manager loads a beat value on the master at the next boundary as a jump. -/
  | beatSet
  /-- MASTER_ELECTION (R692). After 16 beats of listening, a candidate hearing no BEAT set becomes beat master. -/
  | masterElection
  /-- BEAT_SOURCE_LOSS (R696). A master missing its edges or pulses for 2 beats enters HOLDOVER on REFCLK. -/
  | beatSourceLoss
  /-- LEDGER_SNAPSHOT (R699). Every LEDGER_ROUNDS-th round boundary the block captures the conserved quantities and writes entries. -/
  | ledgerSnapshot
  /-- LEDGER_HEAD_WRITE (R702). A write to PM_LED_HEAD frees ledger room and lets held entries be written. -/
  | ledgerHeadWrite (val : W32)
  /-- QUEUE_RESET (R706). A Q-class fault resets the guilty queue, ending its work and cancelling its signals. -/
  | queueReset (q : Nat)
  /-- QUEUE_RESET_SETTLED (R706). After the queue's requests are settled, entries are written and the queue enters STOPPED. -/
  | queueResetSettled (q : Nat)
  /-- BLOCK_RESET (R709). A B-class event stops issue, raises generations and resets the compute plane. -/
  | blockReset
  /-- BLOCK_RESET_DRAIN_EXPIRY (R714). Local requests still outstanding after BR_DRAIN_US are abandoned as under TAG. -/
  | blockResetDrainExpiry
  /-- RESET_SEQUENCE_END (R711). The reset sequence ends and the stewards begin context restore. -/
  | resetSequenceEnd
  /-- CONTEXT_RESTORE (R711). A steward finishes restoring one context, writing its entries, mirrors and notices. -/
  | contextRestore (sw : Nat)
  /-- MESH_FATAL_ERROR (R703). An uncorrectable mesh header or credit error, or a silent mesh port, is B-class. -/
  | meshFatalError
  /-- BRESET (R730). Writing BRESET raises a B-class event of type 0x27. -/
  | breset (val : W32)
  /-- REINSTATE (R718). Writing REINSTATE clears the reset count and performs one block reset to leave out of service. -/
  | reinstate (val : W32)
  /-- DUMP_CLR (R730). Writing DUMP_CLR clears the flash dump and log copy. -/
  | dumpClr (val : W32)
  /-- DUMP_COPY (R732). Writing COPY starts copying the selected crash dump to the host buffer. -/
  | dumpCopy (val : W32)
  /-- DUMP_COPY_DONE (R732). The dump copy ends, or fails when the dump is absent or a write is refused. -/
  | dumpCopyDone (refused : Bool)
  /-- DUMP_FLASH_COPY (R728). After restore firmware copies the log and dump to flash unless an uncleared dump is there. -/
  | dumpFlashCopy
  /-- ERR_LOG_HEAD_WRITE (R731). A write to ERR_LOG_HEAD closes consumed records or is discarded. -/
  | errLogHeadWrite (val : W32)
  /-- GET_MEASUREMENTS (R739). The SPDM responder returns measurements built when the request arrives. -/
  | getMeasurements (via : SpdmPath) (msg : List Byte)
  /-- KEY_EXCHANGE (R738). The SPDM responder opens a session, or answers Busy with 16 open. -/
  | keyExchange (via : SpdmPath) (msg : List Byte)
  /-- END_SESSION (R738). The SPDM responder closes a session and erases its keys. -/
  | endSession (via : SpdmPath) (session : Nat)
  /-- SPDM_MESSAGE (R737). The SPDM responder answers another request within its offered capabilities. -/
  | spdmMessage (via : SpdmPath) (msg : List Byte)
  /-- SESSION_HEARTBEAT_TIMEOUT (R738). A session with no traffic for a heartbeat period ends. -/
  | sessionHeartbeatTimeout (session : Nat)
  /-- SEAL_BIND (R745). A session binds a confidential partition and derives its first key generation. -/
  | sealBind (via : SpdmPath) (session : Nat) (words : List W32)
  /-- SEAL_WINDOW (R745). A session sets a context's seal window and metadata base. -/
  | sealWindow (via : SpdmPath) (session : Nat) (words : List W32)
  /-- SEAL_ROTATE (R746). A session moves a partition to the next key generation. -/
  | sealRotate (via : SpdmPath) (session : Nat) (words : List W32)
  /-- SEAL_UNBIND (R753). A session unbinds a partition and the CSB erases its keys. -/
  | sealUnbind (via : SpdmPath) (session : Nat) (words : List W32)
  /-- SPDM_XFER (R740). The manager passes an SPDM request through the security mailbox. -/
  | spdmXfer (host : HostData)
  /-- ATTEST_REPORT (R740). The CSB writes a signed attestation report over a nonce buffer. -/
  | attestReport (host : HostData)
  /-- SCRUB_RECEIPT (R740). The CSB writes the signed receipt of a partition's last scrub. -/
  | scrubReceipt (host : HostData)
  /-- REMOTE_UPDATE_RECORDS (R223). Update records forwarded by another block's LCE arrive at the owner, which checks its own descriptor and applies them in the order sent. -/
  | remoteUpdateRecords (p : Nat)
  /-- HOT_ROW_CACHE_EMPTIED (R214). A partition's hot-row cache finishes emptying and lookups are again served from it. -/
  | hotRowCacheEmptied (p : Nat)
  /-- ARRAY_SELF_TEST_DONE (R678). The 50 us self-test of a reserve array, or of a sector's arrays at SECTOR_ONLINE, ends and the swap or return to service proceeds. -/
  | arraySelfTestDone (p : Nat) (pass : Bool)
  /-- SYSTEM_CALL_REPLY (R153). The reply to an ENQ, ALLOC, FREE, HPUSH or HPOP returns to the array and the instruction retires. -/
  | systemCallReply (l : Nat)
  /-- DUMP_FLASH_COPY_DONE (R728). The background copy of the collector log and crash dump to flash finishes and the flash dump becomes complete. -/
  | dumpFlashCopyDone
  /-- DEBUG_PORT_ACCESS (R744). An access on the debug port reads the local-store debug view or makes a debugger request, setting DEBUG_USED, and is refused in confidential mode. -/
  | debugPortAccess (req : DebugReq)
  /-- MSIX_VECTOR_UNMASK (R637). A write that unmasks an MSI-X vector in the BAR0 table sends the message held pending for it. -/
  | msixVectorUnmask (v : Nat) (val : W32)
  /-- MAX_STATE_WRITE (R764). A write of MAX_STATE in PM_CFG takes effect at once and every unit in a deeper power state leaves it. -/
  | maxStateWrite (val : W32)
deriving DecidableEq, Repr

end Sys2Proof
end

