-- ==== Sys2Proof/Decode.lean ====
section
/-!
DEFINITION. Commands as words. spec/opcode_table.json gives no row any bits: a command is a register access, a protocol
event or a pin event, never a word. So no word spells a command.
-/
namespace Sys2Proof

/-- The command that a word of `nbits` bits spells by the bits of the opcode table: none, since no row has bits. -/
def decodeTableWord (_nbits _w : Nat) : Option Instr := none

end Sys2Proof
end

