-- ==== Sys2Proof/Config.lean ====
section
/-!
DEFINITION. What the specification leaves open: free values without a body, and the cryptographic
functions, which the model uses and never computes.
-/
namespace Sys2Proof

/-- A value the specification does not state, fresh at every index (State.freeCtr): nothing constrains it. -/
opaque Config.freeNat : Nat → Nat

/-- The set of the near-tier cache in which a line lies (R249 gives no function). -/
opaque Config.cacheSet : Nat → Nat

/-- The counters a row has in the four rows of the frequency sketch (R211 gives no hash). -/
opaque Config.sketchSlot : Nat → Nat → Nat

/-- The set of the hot-row cache of a row key (R210 gives no function). -/
opaque Config.hrcSet : Nat → Nat

/-- Requester ID, IDO, NS and traffic class of the block's OREQ headers (R27 gives no values). -/
opaque Config.requesterId : Nat
opaque Config.oreqIdo : Bool
opaque Config.oreqNs : Bool
opaque Config.oreqTc : Nat

/-- What firmware's PTP slave clock computes from the timestamps of event messages (R364, R695): by a number of its own and the last
timestamp. -/
opaque Config.ptpClock : Nat → Nat → Nat

/-- The UDP source port hash of a flow (R357 gives no function). -/
opaque Config.flowHash : Nat → Nat → Nat → Nat

/-- Which of the values within the bound of R121 the vector unit returns: by function (0 reciprocal, 1 reciprocal square
root, 2 exponential, 3 logarithm) and operand. -/
opaque Config.ulpPick : Nat → W32 → Nat

/-- SHA-384 (FIPS 180-4), uninterpreted. -/
opaque Config.sha384 : List Byte → List Byte
/-- The identity-key signature of R733, uninterpreted. -/
opaque Config.sign : List Byte → List Byte
/-- Whether a signature verifies under the firmware key of R662. -/
opaque Config.fwVerify : List Byte → List Byte → Bool
/-- AES-256-GCM sealing of a unit: key number, IV, additional data, plaintext (R748): ciphertext and tag. -/
opaque Config.gcmSeal : Nat → Nat → List Byte → List Byte → List Byte × List Byte
/-- AES-256-GCM opening of a unit: key number, IV, additional data, ciphertext, tag; none when the tag fails. -/
opaque Config.gcmOpen : Nat → Nat → List Byte → List Byte → List Byte → Option (List Byte)
/-- The key derived for a session, direction, partition and generation (R746). -/
opaque Config.sealKey : Nat → Bool → Nat → Nat → Nat
/-- The CSB's boot ROM (R739). -/
opaque Config.csbRom : List Byte
/-- The identity public key of the block (R733, R741). -/
opaque Config.idKey : List Byte
/-- The UUID of the management endpoint (R658). -/
opaque Config.uuid : List Byte
/-- The manufacturer field of IDCODE, set by integration strap (R63). -/
opaque Config.maker : Nat
/-- The certificate chain of slot 0 (R734). -/
opaque Config.certChain : List Byte
/-- The body of an SPDM response other than those the specification gives (SPDM 1.3, DMTF). -/
opaque Config.spdmBody : List Byte → Nat → List Byte
/-- Whether a bank still has a spare row after so many repairs (R275 gives no number of spare rows). -/
opaque Config.spareRow : Nat → Nat → Bool
/-- The key by which the order drawn from a seed ranks the granules of a run (R308 gives no function). -/
opaque Config.tgOrder : Nat → Nat → Nat

/-- The block power in W that the CPB predicts for a step of the ARRAY clock: from the load it expects, the measured power and the step
(R688 gives no function). -/
opaque Config.ratePower : Nat → Nat → Nat → Nat

/-- The bank group of a 256-byte block of the near tier (R248 gives no hash). -/
opaque Config.bankGroup : Nat → Nat

end Sys2Proof
end

