-- ==== Sys2Proof/Machine/Table.lean ====
section
/-!
DEFINITION. Sparse tables, bit fields and little-endian bytes: what every unit is written with.
-/
namespace Sys2Proof.Machine
open Sys2Proof

/-- The value of number `i`; an unlisted number has the value `d`. -/
def tget {α : Type} (d : α) (t : Tbl α) (i : Nat) : α :=
  match t with
  | [] => d
  | (k, v) :: r => if k = i then v else tget d r i

/-- Give number `i` the value `v`, keeping numbers rising and no pair of value `d`. -/
def tset {α : Type} [DecidableEq α] (d : α) (t : Tbl α) (i : Nat) (v : α) : Tbl α :=
  match t with
  | [] => if v = d then [] else [(i, v)]
  | (k, w) :: r =>
    if k < i then (k, w) :: tset d r i v
    else if k = i then (if v = d then r else (i, v) :: r)
    else if v = d then (k, w) :: r else (i, v) :: (k, w) :: r

/-- Change the value of number `i`. -/
def tmod {α : Type} [DecidableEq α] (d : α) (t : Tbl α) (i : Nat) (f : α → α) : Tbl α :=
  tset d t i (f (tget d t i))

/-- The canonical form of a table: numbers strictly rising, no pair of value `d`. -/
def twf {α : Type} [DecidableEq α] (d : α) (t : Tbl α) : Bool :=
  match t with
  | [] => true
  | (k, v) :: r => decide (v ≠ d) && r.all (fun q => decide (k < q.1)) && twf d r

/-- Insert into a rising list without repeats. -/
def sinsert (i : Nat) (l : List Nat) : List Nat :=
  match l with
  | [] => [i]
  | k :: r => if k < i then k :: sinsert i r else if k = i then k :: r else i :: k :: r

/-- Remove every occurrence. -/
def sremove (i : Nat) (l : List Nat) : List Nat := l.filter (fun k => decide (k ≠ i))

/-- The numbers of a list other than those of another. -/
def sdiff (l m : List Nat) : List Nat := l.filter (fun k => !m.contains k)

/-- Replace element `i` of a list. -/
def lset {α : Type} (l : List α) (i : Nat) (v : α) : List α :=
  match l, i with
  | [], _ => []
  | _ :: r, 0 => v :: r
  | x :: r, i + 1 => x :: lset r i v

/-- Bits [lo + n - 1 : lo] of a number. -/
def field (x lo n : Nat) : Nat := (x >>> lo) % 2 ^ n

/-- Bit `i` of a number. -/
def bit (x i : Nat) : Bool := field x i 1 = 1

/-- 1 for true, 0 for false. -/
def b2n (b : Bool) : Nat := if b then 1 else 0

/-- A 32-bit word from a number, modulo 2^32. -/
def w32 (x : Nat) : W32 := BitVec.ofNat 32 x
/-- A 64-bit word from a number, modulo 2^64. -/
def w64 (x : Nat) : W64 := BitVec.ofNat 64 x

/-- A signed value in `n` bits. -/
def sext (x n : Nat) : Int := if x < 2 ^ (n - 1) then (x : Int) else (x : Int) - (2 ^ n : Nat)

/-- A counter of `n` bits that saturates. -/
def sat (n x : Nat) : Nat := min x (2 ^ n - 1)

/-- The low `n` bytes of a number, least significant first. -/
def leBytes (n x : Nat) : List Byte :=
  match n with
  | 0 => []
  | n + 1 => BitVec.ofNat 8 (x % 256) :: leBytes n (x / 256)

/-- The number that bytes spell, least significant first. -/
def leNat (l : List Byte) : Nat :=
  match l with
  | [] => 0
  | b :: r => b.toNat + 256 * leNat r

/-- Bytes [lo + n - 1 : lo] of a record, as a little-endian number. -/
def fieldAt (l : List Byte) (lo n : Nat) : Nat := leNat ((l.drop lo).take n)

/-- Byte `i` of a record, 0 beyond its end. -/
def byteAt (l : List Byte) (i : Nat) : Nat := (l.getD i 0).toNat

/-- Whether bytes [lo + n - 1 : lo] of a record are all zero. -/
def zeroAt (l : List Byte) (lo n : Nat) : Bool := ((l.drop lo).take n).all (fun b => b == 0)

/-- A record filled with zero bytes to `n` bytes. -/
def padTo (l : List Byte) (n : Nat) : List Byte := l.take n ++ List.replicate (n - l.length) 0

/-- Cut a list into pieces of `k` (at most `n` of them). -/
def chunks {α : Type} (k : Nat) (n : Nat) (l : List α) : List (List α) :=
  match n with
  | 0 => []
  | n + 1 => match l with
    | [] => []
    | x :: r => (x :: r).take k :: chunks k n ((x :: r).drop k)

/-- The number of pieces of `k` that hold `n` things. -/
def ceilDiv (n k : Nat) : Nat := (n + k - 1) / k

/-- `x` rounded down to a multiple of `k`. -/
def alignDown (x k : Nat) : Nat := x / k * k

/-- The least element under a key, the earlier of equal ones; none of an empty list. -/
def minBy {α : Type} (key : α → Nat) (l : List α) : Option α :=
  match l with
  | [] => none
  | x :: r => match minBy key r with
    | none => some x
    | some y => if key x ≤ key y then some x else some y

/-- The first number below `n`, from `i` on, that satisfies `p`. -/
def firstFrom (p : Nat → Bool) (i : Nat) (n : Nat) : Option Nat :=
  match n with
  | 0 => none
  | n + 1 => if p i then some i else firstFrom p (i + 1) n

/-- The numbers of a table whose values satisfy a test. -/
def keysOf {α : Type} (t : Tbl α) (p : α → Bool) : List Nat := (t.filter (fun e => p e.2)).map (fun e => e.1)

end Sys2Proof.Machine
end

