-- ==== Sys2Proof/Machine/Float.lean ====
section
/-!
DEFINITION. The number formats of chapter 2: decoding, exact arithmetic on what they decode to, one rounding
back, and the operations of the vector unit.
-/
namespace Sys2Proof.Machine
open Sys2Proof

/-- What an element decodes to: a NaN (`quiet` or signalling), an infinity, or the exact number ±m × 2^e. -/
inductive Num where
  | nan (quiet : Bool)
  | inf (neg : Bool)
  | fin (neg : Bool) (m : Nat) (e : Int)
deriving DecidableEq, Repr

/-- The element formats of R100, and the T2 code of R101. -/
inductive Fmt where
  | e2m1 | e2m3 | e3m2 | e4m3 | e5m2 | mxint8 | int8 | int4 | fp16 | bf16 | fp32 | t2
deriving DecidableEq, Repr

/-- Width in bits (R100, R101). -/
def Fmt.bits : Fmt → Nat
  | .t2 => 2 | .e2m1 => 4 | .int4 => 4 | .e2m3 => 6 | .e3m2 => 6
  | .e4m3 => 8 | .e5m2 => 8 | .mxint8 => 8 | .int8 => 8 | .fp16 => 16 | .bf16 => 16 | .fp32 => 32

/-- Fraction bits of a floating format. -/
def Fmt.mant : Fmt → Nat
  | .e2m1 => 1 | .e2m3 => 3 | .e3m2 => 2 | .e4m3 => 3 | .e5m2 => 2 | .fp16 => 10 | .bf16 => 7 | .fp32 => 23
  | .mxint8 => 0 | .int8 => 0 | .int4 => 0 | .t2 => 0

/-- Exponent bias of a floating format. -/
def Fmt.bias : Fmt → Nat
  | .e2m1 => 1 | .e2m3 => 1 | .e3m2 => 3 | .e4m3 => 7 | .e5m2 => 15 | .fp16 => 15 | .bf16 => 127 | .fp32 => 127
  | .mxint8 => 0 | .int8 => 0 | .int4 => 0 | .t2 => 0

/-- A two's complement format. -/
def Fmt.isInt : Fmt → Bool
  | .mxint8 => true | .int8 => true | .int4 => true | _ => false

/-- A format whose top exponent holds infinities and NaNs, as IEEE 754 lays down. -/
def Fmt.ieee : Fmt → Bool
  | .e5m2 => true | .fp16 => true | .bf16 => true | .fp32 => true | _ => false

/-- The code of the largest finite magnitude of a floating format. -/
def Fmt.maxCode : Fmt → Nat
  | .e2m1 => 0x7 | .e2m3 => 0x1F | .e3m2 => 0x1F | .e4m3 => 0x7E | .e5m2 => 0x7B
  | .fp16 => 0x7BFF | .bf16 => 0x7F7F | .fp32 => 0x7F7FFFFF
  | .mxint8 => 127 | .int8 => 127 | .int4 => 7 | .t2 => 0

/-- The canonical NaN of R120, for the formats that have one. -/
def Fmt.nanCode : Fmt → Nat
  | .e4m3 => 0x7F | .e5m2 => 0x7E | .fp16 => 0x7E00 | .bf16 => 0x7FC0 | .fp32 => 0x7FC00000
  | _ => 0

/-- Whether a NaN can be written in the format. -/
def Fmt.hasNan (f : Fmt) : Bool := f.ieee || f == .e4m3

/-- Exponent of the lowest bit of a subnormal. -/
def Fmt.lsb (f : Fmt) : Int := 1 - (f.bias : Int) - (f.mant : Int)

/-- The value of a code (R100, R101; a reserved T2 code is 0 by R102). -/
def decodeNum (f : Fmt) (c : Nat) : Num :=
  match f with
  | .t2 => if c % 4 = 1 then .fin false 1 0 else if c % 4 = 3 then .fin true 1 0 else .fin false 0 0
  | .int8 | .int4 | .mxint8 =>
    let x := sext (c % 2 ^ f.bits) f.bits
    .fin (decide (x < 0)) x.natAbs (if f = .mxint8 then -6 else 0)
  | _ =>
    let neg := bit c (f.bits - 1)
    let mag := c % 2 ^ (f.bits - 1)
    let m := mag % 2 ^ f.mant
    let e := mag / 2 ^ f.mant
    let top := 2 ^ (f.bits - 1 - f.mant) - 1
    if f.ieee && e == top then
      if m = 0 then .inf neg else .nan (bit m (f.mant - 1))
    else if f == .e4m3 && mag == 0x7F then .nan true
    else if e = 0 then .fin neg m f.lsb
    else .fin neg (m + 2 ^ f.mant) (f.lsb + ((e : Int) - 1))

/-- m × 2^e as a multiple of 2^q, rounded to nearest with ties to even, or toward zero when `rz`. -/
def roundAt (rz : Bool) (m : Nat) (e q : Int) : Nat :=
  if q ≤ e then m <<< (e - q).toNat
  else
    let k := (q - e).toNat
    let n := m >>> k
    let r := m % 2 ^ k
    if rz then n
    else if r * 2 > 2 ^ k then n + 1
    else if r * 2 = 2 ^ k then n + n % 2
    else n

/-- The magnitude code of m × 2^e in a floating format, rounded to its precision as if the exponent range had no
upper end (R114): the code may lie beyond `maxCode`. -/
def roundCode (f : Fmt) (rz : Bool) (m : Nat) (e : Int) : Nat :=
  if m = 0 then 0
  else
    let q0 : Int := e + (Nat.log2 m : Int) - (f.mant : Int)
    let q : Int := if q0 < f.lsb then f.lsb else q0
    let n := roundAt rz m e q
    if n < 2 ^ f.mant then n
    else (q - f.lsb + 1).toNat * 2 ^ f.mant + (n - 2 ^ f.mant)

/-- A result and the flags it raises (R116). -/
structure Res where
  code     : Nat
  invalid  : Bool := false
  overflow : Bool := false
deriving DecidableEq, Repr

/-- The code with sign of a magnitude code. -/
def signed (f : Fmt) (neg : Bool) (mag : Nat) : Nat := mag + (if neg then 2 ^ (f.bits - 1) else 0)

/-- The code of the largest finite value of a sign; the two's complement formats reach one further below zero. -/
def maxOf (f : Fmt) (neg : Bool) : Nat :=
  if f.isInt then (if neg then 2 ^ (f.bits - 1) else f.maxCode) else signed f neg f.maxCode

/-- Conversion of a number to a format (R113, R114, R120). -128, -8 and -2.0 fit INT8, INT4 and MXINT8, and SAT turns an infinity
converted to FP32 into the largest finite value with OVERFLOW: DESIGN CHOICE (log entry 132), R114 states neither. -/
def convert (f : Fmt) (rz satBit : Bool) (x : Num) : Res :=
  match x with
  | .nan q => if f.hasNan then { code := f.nanCode, invalid := !q } else { code := 0, invalid := true }
  | .inf neg =>
    if f.ieee && !satBit then { code := signed f neg (f.maxCode + 1) }
    else { code := maxOf f neg, overflow := true }
  | .fin neg m e =>
    if f.isInt then
      let n := roundAt rz m e (if f = .mxint8 then -6 else 0)
      let top := if neg then 2 ^ (f.bits - 1) else f.maxCode
      if n > top then { code := maxOf f neg, overflow := true }
      else { code := if neg then (2 ^ f.bits - n) % 2 ^ f.bits else n }
    else
      let c := roundCode f rz m e
      if c > f.maxCode then
        { code := if f.ieee && !satBit then signed f neg (f.maxCode + 1) else maxOf f neg, overflow := true }
      else { code := signed f neg c }

/-- Whether a number is a signalling NaN. -/
def Num.snan : Num → Bool
  | .nan q => !q
  | _ => false

/-- Whether a number is a NaN. -/
def Num.isNan : Num → Bool
  | .nan _ => true
  | _ => false

/-- Negation. -/
def Num.negate : Num → Num
  | .nan q => .nan q
  | .inf n => .inf (!n)
  | .fin n m e => .fin (!n) m e

/-- Exact product; none where IEEE 754 gives an invalid operation. -/
def numMul (a b : Num) : Option Num :=
  match a, b with
  | .nan _, _ => some (.nan true)
  | _, .nan _ => some (.nan true)
  | .inf n, .inf k => some (.inf (n != k))
  | .inf n, .fin k m _ => if m = 0 then none else some (.inf (n != k))
  | .fin n m _, .inf k => if m = 0 then none else some (.inf (n != k))
  | .fin n m e, .fin k m' e' => some (.fin (n != k) (m * m') (e + e'))

/-- The signed integer of ±m × 2^e in units of 2^q, for q at or below e. -/
def scaled (neg : Bool) (m : Nat) (e q : Int) : Int :=
  let v : Nat := m <<< (e - q).toNat
  if neg then -(v : Int) else (v : Int)

/-- Exact sum; none where IEEE 754 gives an invalid operation. A zero sum of unlike signs is +0 (ties to even, R119). -/
def numAdd (a b : Num) : Option Num :=
  match a, b with
  | .nan _, _ => some (.nan true)
  | _, .nan _ => some (.nan true)
  | .inf n, .inf k => if n = k then some (.inf n) else none
  | .inf n, .fin _ _ _ => some (.inf n)
  | .fin _ _ _, .inf k => some (.inf k)
  | .fin n m e, .fin k m' e' =>
    let q := if e ≤ e' then e else e'
    let v := scaled n m e q + scaled k m' e' q
    if v = 0 then some (.fin (n && k) 0 q) else some (.fin (decide (v < 0)) v.natAbs q)

/-- The FP32 result of an exact operation: an invalid operation gives the canonical NaN and INVALID; a signalling
operand raises INVALID (R119, R120). -/
def fp32Of (snan : Bool) (x : Option Num) : Res :=
  match x with
  | none => { code := Fmt.nanCode .fp32, invalid := true }
  | some y => let r := convert .fp32 false false y
    { r with invalid := snan || r.invalid }

/-- FP32 decoded. -/
def f32 (w : W32) : Num := decodeNum .fp32 w.toNat

/-- FP32 addition with one rounding (R121). -/
def fadd32 (a b : W32) : Res := fp32Of ((f32 a).snan || (f32 b).snan) (numAdd (f32 a) (f32 b))

/-- FP32 multiplication with one rounding (R121). -/
def fmul32 (a b : W32) : Res := fp32Of ((f32 a).snan || (f32 b).snan) (numMul (f32 a) (f32 b))

/-- FP32 fused multiply-add, a × b + c with one rounding (R121). A NaN addend gives NaN, and INVALID only where an operand
is signalling (R116). -/
def ffma32 (a b c : W32) : Res :=
  fp32Of ((f32 a).snan || (f32 b).snan || (f32 c).snan)
    (if (f32 c).isNan then some (.nan true)
     else match numMul (f32 a) (f32 b) with
       | none => none
       | some p => numAdd p (f32 c))

/-- An order key of a non-NaN FP32 code: rising with the value, -0 below +0. -/
def f32Key (w : W32) : Nat := if w.toNat < 2 ^ 31 then 2 ^ 31 + w.toNat else 2 ^ 32 - 1 - w.toNat

/-- Minimum and maximum (R121): a NaN operand gives NaN (R119). -/
def fminmax32 (big : Bool) (a b : W32) : Res :=
  if (f32 a).isNan || (f32 b).isNan then
    { code := Fmt.nanCode .fp32, invalid := (f32 a).snan || (f32 b).snan }
  else
    let le := decide (f32Key a ≤ f32Key b)
    { code := (if le != big then a else b).toNat }

/-- Compare: kind 0 equal, 1 less, 2 less or equal, 3 unordered. Zeros of either sign are equal; a NaN makes the
first three false. -/
def fcmp32 (kind : Nat) (a b : W32) : Bool :=
  let nan := (f32 a).isNan || (f32 b).isNan
  let z := decide (a.toNat % 2 ^ 31 = 0) && decide (b.toNat % 2 ^ 31 = 0)
  match kind with
  | 0 => !nan && (z || a == b)
  | 1 => !nan && !z && decide (f32Key a < f32Key b)
  | 2 => !nan && (z || decide (f32Key a ≤ f32Key b))
  | _ => nan

/-- Integer square root by bits, `n` of them: the largest r with r × r at most x. -/
def isqrtFrom (x : Nat) (n r : Nat) : Nat :=
  match n with
  | 0 => r
  | n + 1 =>
    let t := r + 2 ^ n
    isqrtFrom x n (if t * t ≤ x then t else r)

/-- The magnitude code within `k` ulp of a result (R121) that lies at code `c` when `exact` and above `c`, below `c + 1`,
otherwise: number `pick` of those that there are, an ulp being the step of the codes (log entry 20). -/
def withinUlp (k c : Nat) (exact : Bool) (pick : Nat) : Nat :=
  let lo := if exact then c - k else c + 1 - k
  min (lo + pick % (c + k + 1 - lo)) (Fmt.maxCode .fp32)

/-- A result that the vector unit computes within `k` ulp: ±m × 2^e when `exact`, a number between it and the next FP32 code
otherwise; beyond the FP32 range it overflows (R119). -/
def near32 (k pick : Nat) (neg : Bool) (m : Nat) (e : Int) (exact : Bool) : Res :=
  let c := roundCode .fp32 true m e
  if c > Fmt.maxCode .fp32 then { code := signed .fp32 neg (Fmt.maxCode .fp32 + 1), overflow := true }
  else { code := signed .fp32 neg (withinUlp k c exact pick) }

/-- Reciprocal (R121). -/
def frecip32 (x : W32) : Res :=
  match f32 x with
  | .nan q => { code := Fmt.nanCode .fp32, invalid := !q }
  | .inf n => { code := signed .fp32 n 0 }
  | .fin n m e =>
    if m = 0 then { code := signed .fp32 n (Fmt.maxCode .fp32 + 1), overflow := true }
    else near32 1 (Config.ulpPick 0 x) n (2 ^ 60 / m) (-60 - e) (decide (2 ^ 60 % m = 0))

/-- Reciprocal square root (R121). -/
def frsqrt32 (x : W32) : Res :=
  match f32 x with
  | .nan q => { code := Fmt.nanCode .fp32, invalid := !q }
  | .inf false => { code := 0 }
  | .inf true => { code := Fmt.nanCode .fp32, invalid := true }
  | .fin n m e =>
    if m = 0 then { code := signed .fp32 n (Fmt.maxCode .fp32 + 1), overflow := true }
    else if n then { code := Fmt.nanCode .fp32, invalid := true }
    else
      let odd := decide (e % 2 ≠ 0)
      let m' := if odd then 2 * m else m
      let e' : Int := if odd then e - 1 else e
      let y := 2 ^ 120 / m'
      let r := isqrtFrom y 64 0
      near32 1 (Config.ulpPick 1 x) false r (-60 - e' / 2) (decide (r * r = y) && decide (2 ^ 120 % m' = 0))

/-- 2 to a fraction, as `t` × 2^-96: `fr` holds the fraction's bits not yet used, of `n` that are left, in 64 bits; `c` is the
factor of the bit before, 2^(2^-i), in units of 2^-96. -/
def exp2Frac (n c t fr : Nat) : Nat :=
  match n with
  | 0 => t
  | n + 1 =>
    let c := isqrtFrom (c <<< 96) 98 0
    exp2Frac n c (if bit fr 63 then (t * c) >>> 96 else t) (2 * fr % 2 ^ 64)

/-- Base-2 exponential within 2 ulp (R121): 2^x is exact at an integer and lies between FP32 values elsewhere. -/
def fexp2 (x : W32) : Res :=
  match f32 x with
  | .nan q => { code := Fmt.nanCode .fp32, invalid := !q }
  | .inf n => { code := if n then 0 else Fmt.maxCode .fp32 + 1 }
  | .fin n m e =>
    let v : Int := if 0 ≤ e + 64 then scaled n m e (-64) else (if n then -(m : Int) else (m : Int)) >>> (-(e + 64)).toNat
    let i := v >>> 64
    let fr := (v - i * 2 ^ 64).toNat
    let exact := decide (fr = 0) && (decide (0 ≤ e + 64) || decide (m = 0))
    let pick := Config.ulpPick 2 x
    if 200 < i then { code := Fmt.maxCode .fp32 + 1, overflow := true }
    else if i < -200 then { code := withinUlp 2 0 false pick }
    else if exact then near32 2 pick false 1 i true
    else near32 2 pick false (2 * exp2Frac 64 (2 ^ 97) (2 ^ 96) fr + 1) (i - 97) false

/-- The next `n` bits of the base-2 logarithm of `y` × 2^-128, which lies from 1 up to 2, behind the bits `acc`. -/
def log2Frac (n y acc : Nat) : Nat :=
  match n with
  | 0 => acc
  | n + 1 =>
    let z := (y * y) >>> 128
    if z ≥ 2 ^ 129 then log2Frac n (z / 2) (2 * acc + 1) else log2Frac n z (2 * acc)

/-- Base-2 logarithm within 2 ulp (R121): exact at a power of two, between FP32 values elsewhere. A negative operand gives
NaN with INVALID, a zero minus infinity (log entry 36). -/
def flog2 (x : W32) : Res :=
  match f32 x with
  | .nan q => { code := Fmt.nanCode .fp32, invalid := !q }
  | .inf n => if n then { code := Fmt.nanCode .fp32, invalid := true } else { code := Fmt.maxCode .fp32 + 1 }
  | .fin n m e =>
    let k := Nat.log2 m
    let pick := Config.ulpPick 3 x
    if m = 0 then { code := signed .fp32 true (Fmt.maxCode .fp32 + 1), overflow := true }
    else if n then { code := Fmt.nanCode .fp32, invalid := true }
    else if m = 2 ^ k then
      let v := e + (k : Int)
      near32 2 pick (decide (v < 0)) v.natAbs 0 true
    else
      let v : Int := (e + (k : Int)) * 2 ^ 64 + (log2Frac 64 (m <<< (128 - k)) 0 : Nat)
      near32 2 pick (decide (v < 0)) (if v < 0 then 2 * (v.natAbs - 1) + 1 else 2 * v.natAbs + 1) (-65) false

/-- The E8M0 scale of a block (R103): none for the NaN code. -/
def scaleOf (c : Nat) : Option Int := if c % 256 = 0xFF then none else some ((c % 256 : Nat) - 127 : Int)

/-- Emax of R115. -/
def Fmt.emax : Fmt → Int
  | .e2m1 => 2 | .e2m3 => 2 | .e3m2 => 4 | .e4m3 => 8 | .e5m2 => 15 | _ => 0

/-- ⌊log2⌋ of m × 2^e, m not 0. -/
def floorLog2 (m : Nat) (e : Int) : Int := (Nat.log2 m : Int) + e

/-- Quantise 32 FP32 values to one block (R115): the scale code and the element codes, with the flags. -/
def quantBlock (f : Fmt) (rz satBit : Bool) (xs : List W32) : Nat × List Res :=
  let ns := xs.map f32
  if ns.any Num.isNan then (0xFF, ns.map (fun n => match n with
    | .nan q => { code := 0, invalid := !f.hasNan || !q }
    | _ => { code := 0 }))
  else
    let mag := (xs.map (fun w => w.toNat % 2 ^ 31)).foldl max 0
    if mag = 0 then (0x00, xs.map (fun w => convert f rz satBit (f32 w)))
    else
      let a := if mag ≥ 0x7F800000 then 0x7F7FFFFF else mag
      let x : Int := match decodeNum .fp32 a with
        | .fin _ m e => floorLog2 m e - f.emax
        | _ => 0
      let x : Int := if x < -127 then -127 else if x > 127 then 127 else x
      ((x + 127).toNat, ns.map (fun n => match n with
        | .fin s m e => convert f rz satBit (.fin s m (e - x))
        | .inf s => { code := maxOf f s, overflow := true }
        | .nan _ => { code := 0 }))

/-- A T2 code against a threshold (R117). -/
def t2Of (t x : W32) : Nat :=
  if fcmp32 1 t x then 1
  else if fcmp32 1 x (t ^^^ 0x80000000#32) then 3
  else 0

end Sys2Proof.Machine
end

