-- ==== Sys2Proof/Machine/State.lean ====
section
/-!
DEFINITION. The state of the block as plain data, unit by unit, and the block in cold reset. Numbered things are
sparse tables (`Tbl`) whose unlisted entries hold the reset value. The default of every field is its reset value;
where the specification gives none, INVENTORY.md names the log entry.
-/
namespace Sys2Proof.Machine
open Sys2Proof

/-- Why a step stops the machine. No meaning of this model raises one: every command of the table has an effect. -/
inductive Fault where
  /-- Raised by no step; kept because the interface asks for a type of faults. Safe: a fault never stands for an effect. -/
  | none
deriving DecidableEq, Repr

/-- Why a step has no meaning. -/
inductive Refusal where
  /-- Raised by the dispatch for a command whose meaning is not written. Safe: nothing is proved of its effect. -/
  | notModelled (mnemonic : String)
deriving DecidableEq, Repr

/-! ## Status codes -/

/-- The status codes of R22; `raw` is a code that R22 does not name (a fence error word may hold one). -/
inductive Status where
  | done | donePoisoned | faultAddress | faultFormat | faultTimeout | stalemate | abandoned | cancelled
  | blockReset | denied | busy | raw (code : Nat)
deriving DecidableEq, Repr

/-! ## The boundary -/

/-- The issue tag of R52 while it is outstanding (R54): `cancelled` after CANCEL. `reset` is 1 when a block reset raised that
CANCEL and awaits no DONE, and 2 once the engine has acknowledged it: the tag is no longer outstanding, and a later DONE is
discarded without logging (R55). -/
structure EapTag where
  eap       : Nat
  queue     : Nat
  ctx       : Nat
  gen       : Nat
  seq       : Nat
  cancelled : Bool
  reset     : Nat
deriving DecidableEq, Repr

/-- The last frame of a telemetry channel (R80) and whether the channel counts as lost (R81). -/
structure TelChannel where
  rail  : Nat := 0
  volts : Nat := 0
  amps  : Nat := 0
  lost  : Bool := false
  map   : Nat := 0                   -- its byte of TEL_MAP (R663): bit 7 in use, [3:0] RAIL
deriving DecidableEq, Repr

/-- The boundary unit: pins, start-up state, clocks, EAP tags, telemetry. -/
structure Blk where
  coldLow    : Bool := true          -- COLD_RST_N is low
  stopped    : Bool := false         -- REFCLK was lost (R70)
  bootState  : Nat := 0              -- BLK_BOOT_STAT STATE
  cause      : Nat := 0              -- BLK_BOOT_STAT CAUSE
  readyMs    : Nat := 0              -- BLK_BOOT_STAT READY_MS
  phase      : Nat := 0              -- start-up phase of R665 in progress
  ireqReady  : Bool := false
  linkUp     : Bool := false         -- HAP_LINK_UP
  mps        : Nat := 0
  mrrs       : Nat := 0
  doeAbort   : Bool := false
  throttle   : Bool := false         -- THROTTLE_REQ_N is low
  ctrlLock   : Bool := false
  meshLock   : Bool := false
  arrayLock  : Bool := false
  hostOk     : Bool := false
  portOk     : Bool := false
  mcOk       : List Nat := []        -- stacks whose MC clock is within 5 per cent, rising
  hiLatch    : List (Nat × Nat × W32) := []   -- (requester, address of the low word, high word) of R16
  eapTags    : List EapTag := []
  eapWait    : List (Nat × Nat) := []         -- (EAP, SEQ) waiting in ready order (R60)
  tel        : Tbl TelChannel := []
  strataOk   : Bool := false
  bgFailed0  : List Nat := []        -- failed bank groups of stratum 0, replaced by spares (R50)
  bgFailed1  : List Nat := []
  phyHold    : List Nat := []        -- stacks whose PHY holds a granted update (R41)
deriving DecidableEq, Repr

/-! ## Packets (R329) -/

/-- A packet: the header of R329, field by field, and its data. `len` is LEN of a READ, which carries no data. -/
structure Packet where
  opc      : Nat
  level    : Nat := 0
  ch       : Nat := 0
  lost     : Bool := false
  src      : Nat
  dst      : Nat
  tag      : Nat := 0
  gen      : Nat := 0
  status   : Nat := 0
  pmask    : Nat := 0
  deadline : Nat := 0
  arg      : Nat := 0
  operand  : Nat := 0
  len      : Nat := 0
  data     : List Byte := []
deriving DecidableEq, Repr

/-! ## What the block puts on its ports -/

/-- The other fields of an OREQ header (R27): length in doublewords, first and last byte enables, requester ID, IDO, NS and traffic
class. -/
structure OreqHdr where
  dwords    : Nat
  firstBe   : Nat
  lastBe    : Nat
  requester : Nat
  ido       : Bool
  ns        : Bool
  tc        : Nat
deriving DecidableEq, Repr

/-- A message the block sends. `ports.out` lists them in the order they leave. -/
inductive Out where
  | icpl (tag : Nat) (data : List Byte) (ep : Bool)
  | icplFault (tag : Nat)                                        -- read answered with an error completion
  | regRead (req : Nat) (data : W32)
  | cmemRsp (tag : Nat) (data : List Byte) (poison : Bool)
  | oreqWrite (addr : Nat) (pasid : Option Nat) (ro ep : Bool) (data : List Byte) (hdr : OreqHdr)
  | oreqRead (tag addr : Nat) (pasid : Option Nat) (len : Nat) (hdr : OreqHdr)
  | msix (vector : Nat) (addr : Nat) (data : W32)
  | flit (p : Nat) (f : Flit)
  | train (p : Nat) (t : TrainSet)
  | degrade (p : Nat) (high : Bool)
  | beatOrdered (p : Nat) (b : BeatSet)
  | delayReq (p t1 : Nat)
  | delayRsp (p t1 t2 t3 : Nat)
  | frame (p link : Nat) (peer : Nat) (f : EthFrame)
  | ptp (p : Nat) (stamp : Nat)                                 -- a PTP message for firmware, with its time if it is an event
  | eapIssue (e : Nat) (tag : Nat) (record : List Byte)
  | eapRsp (e : Nat) (tag : Nat) (status : Status) (data : List Byte)
  | eapCancel (e : Nat) (tag : Nat)
  | doe (data : List Byte)
  | tap (data : List Byte)
  | mctp (data : List Byte)
  | pldm (value : Nat) (ok : Bool)
  | debug (data : List Byte)
  | beatOut
  | phyGrant (n : Nat)
  | selfRefresh (n : Nat) (enter : Bool)
  | refresh (c : Nat)
  | dfiInit (n : Nat)                                            -- DFI initialisation of stack n (R40, R315)
deriving DecidableEq, Repr

/-- What an outstanding OREQ read is for, when a step rather than an operand supplies its bytes. -/
inductive ReadUse where
  | load (l : Nat)                        -- a task's load (R138)
  | stage                                 -- discarded
  | recovery                              -- the recovery image (R668)
  | dropped (late : Bool) (q : Nat)       -- abandoned: consumed without effect; `late`: counted in LATE (R583); q: the
                                          -- queue whose reset waits for it, 0x3FF for none
deriving DecidableEq, Repr

/-- An outstanding OREQ read. -/
structure OreqRead where
  tag  : Nat
  addr : Nat
  len  : Nat
  ctx  : Option Nat
  pasid : Option Nat := none         -- the PASID it carries (R594)
  use  : ReadUse
  dest : Nat
  sent : Bool := true                     -- false while 4,096 reads are outstanding and it waits (R30)
  crypt : Option (Nat × Nat) := none -- of a sealed unit: its number, and the place in unit and metadata (R749)
deriving DecidableEq, Repr

/-- A sealed unit that is being read (R749): the address and bytes wanted, where they go, and the 512 bytes and 32 of metadata that
have come; `bad`: some came with EP, `err`: or with an error. -/
structure SealRead where
  id   : Nat
  ctx  : Nat
  va   : Nat
  n    : Nat
  dest : Nat
  buf  : List Byte := List.replicate 544 0
  bad  : Bool := false
  err  : Bool := false
deriving DecidableEq, Repr

structure Ports where
  out      : List Out := []
  oreq     : List OreqRead := []
  oreqTag  : Nat := 0
  units    : List SealRead := []
  unitCtr  : Nat := 0
  hostCe   : List Nat := []     -- contexts whose first poisoned host completion has been logged (R33)
deriving DecidableEq, Repr

/-! ## The error collector (R719-R732) -/

/-- A collector record of R722. -/
structure ErrRec where
  kind       : Nat
  index      : Nat
  type       : Nat
  cls        : Nat
  conf       : Bool
  suppressed : Nat
  first      : Nat
  last       : Nat
  detail     : Nat
deriving DecidableEq, Repr

structure Err where
  recs      : Tbl ErrRec := []       -- record k of the log, by k (R731)
  head      : Nat := 0               -- ERR_LOG_HEAD
  tail      : Nat := 0               -- ERR_LOG_TAIL
  lost      : Nat := 0               -- ERR_LOG_LOST
  state     : Nat := 0               -- ERR_STAT STATE
  lastType  : Nat := 0
  resets    : Nat := 0
  recentAt  : List Nat := []         -- beats of the resets begun within the window (R716)
  lastBr    : Nat := 0
  bPending  : Option Nat := none     -- a B-class event of this type awaits its block reset
  hungSteward : Option Nat := none   -- the steward that the reset reloads (R713)
  reinstating : Bool := false        -- the reset under way is that of REINSTATE (R718)
  drained   : Bool := true           -- the requests the reset lets finish are settled (R714)
  dump      : List Byte := []        -- the store (R725)
  copyFailed : Bool := false         -- the last copy failed (DUMP_STATE 0x3)
  copying   : Bool := false          -- COPY
  fromFlash : Bool := false          -- the source of the copy under way
  flashCopying : Bool := false       -- the copy of R728 under way
  offer     : Bool := false          -- a restore has ended since the last capture: R728 is due
  toRestore : List Nat := []         -- contexts that await restore (R711), rising
deriving DecidableEq, Repr

/-! ## The interrupt controller (R624-R646) -/

/-- An interrupt source: MASK, GROUP, LEVEL, arrivals, software mark. -/
structure Src where
  mask  : Bool := true
  group : Nat := 0
  level : Nat := 0x80
  count : Nat := 0
  sw    : Bool := false
deriving DecidableEq, Repr

/-- A notice that firmware holds (R634): the host queue (0 manager, 1 + v VAI v), its code and detail. -/
structure Notice where
  queue  : Nat
  code   : Nat
  detail : Nat
deriving DecidableEq, Repr

structure Ic where
  src      : Tbl Src := []
  notices  : List Notice := []
  held     : List Nat := []          -- hold-off groups whose interval runs (R632)
  written  : Nat := 0                -- IC_SYNC WRITTEN
  mqTail   : Nat := 0
  pba      : List Nat := []          -- vectors whose message is pending behind their mask (R637)
  banked   : Tbl Nat := []           -- arrivals of the banked sources, 32 * processor + source (R625)
  stewardQ : List (Nat × Nat) := []  -- records written to steward s or the CSB (4): (processor, source)
  handling : Tbl (List Nat) := []    -- the sources each processor handles, the running handler first (R631)
deriving DecidableEq, Repr

/-! ## Mailboxes (R647-R655): 0-255 VAI mailboxes, 256 manager, 257 security -/

inductive BoxState where
  | idle | posted | taken | done
deriving DecidableEq, Repr

structure Box where
  words    : List W32 := List.replicate 8 0
  reply    : List W32 := List.replicate 8 0
  state    : BoxState := .idle
  discards : Nat := 0
  valid    : Bool := false
  replyLen : Nat := 0
  token    : Nat := 0
  ret      : Nat := 0
  taken    : List W32 := []          -- the words the processor copied (R650)
deriving DecidableEq, Repr

/-- A steward, or the CSB processor: PSTATE and heartbeat. -/
structure Proc where
  pstate : Nat := 0
  heart  : Nat := 0
deriving DecidableEq, Repr

structure Mbx where
  box  : Tbl Box := []
  proc : Tbl Proc := []              -- stewards 0-3, the CSB at 4
deriving DecidableEq, Repr

/-! ## The front end: queues, commands, tasks, graphs (chapters 9 to 13) -/

/-- Queue states of R442. -/
inductive QState where
  | unused | ready | stopped | resetting | fenced | busy
deriving DecidableEq, Repr

/-- An accepted command that has not completed. `id` rises in acceptance order. `own` is the status of its own work
once that has ended; tasks joined to it (R466) name it. -/
structure CmdEnt where
  id      : Nat
  code    : Nat
  pos     : Option Nat               -- ring position; none for a device-enqueued task
  flags   : Nat
  tag     : W32
  gen     : Nat
  start   : Nat
  own     : Option Status := none
  seq     : Option Nat := none       -- SEQ of the task of a TASK command, once issued
  fence   : Nat := 0                 -- fence handle of a WAIT or SIGNAL
  value   : W64 := 0
  graph   : Nat := 0                 -- graph handle of a LAUNCH or PATCH
  recVa   : Nat := 0                 -- RECORDS_VA of a PATCH
  count   : Nat := 0
  launch  : Nat := 0
  cycles  : Nat := 0
  age     : Nat := 0                 -- beat of acceptance (R515)
deriving DecidableEq, Repr

/-- A completion entry (R473) that is due and not yet written. -/
structure Cqe where
  cmd    : Nat
  status : Status
  flags  : Nat
  gen    : Nat
  code   : Nat
  tag    : W32
  start  : Nat
  fin    : Nat
  cycles : Nat
  pos    : Nat
  ring   : Nat                       -- ring position for Q_FAULT_POS
deriving DecidableEq, Repr

/-- What made a queue guilty: the status, the ring position for Q_FAULT_POS. -/
structure Guilt where
  status : Status
  pos    : Nat
deriving DecidableEq, Repr

structure Queue where
  state      : QState := .unused
  prior      : QState := .unused     -- the state to which a BUSY queue returns (R608)
  vai        : Nat := 0
  ctx        : Nat := 0
  idx        : Nat := 0
  sqVa       : Nat := 0
  cqVa       : Nat := 0
  sqLog      : Nat := 0
  cqLog      : Nat := 0
  depth      : Nat := 0
  global     : Bool := false
  cls        : Nat := 0
  gen        : Nat := 0
  lastStatus : Nat := 0
  sqHead     : Nat := 0
  sqTail     : Nat := 0
  cqTail     : Nat := 0
  cqHead     : Nat := 0
  faultPos   : Nat := 0
  drops      : Nat := 0
  armed      : Bool := false
  cqFull     : Bool := false
  cmds       : List CmdEnt := []     -- accepted, not completed, oldest first
  held       : Option CmdEnt := none -- the copied head command that holds the queue: WAIT, stopped WAIT or PATCH
  heldDone   : Bool := false         -- the held command has completed and waits only for QUEUE_RESUME
  due        : List Cqe := []        -- entries due, in order of completion
  guilty     : Option Guilt := none
  ended      : List Cqe := []        -- entries of step 5 of R706, written after step 4
  published  : List (Nat × Nat) := []   -- doorbells that publish unaccepted commands: tail and beat, oldest first (R492)
  homing     : List (Nat × Nat) := []   -- (queue of the task, handle) that return home at step 5 of R706
  created    : Bool := false         -- the creation reference is held (R577)
  launchHead : Bool := false         -- the head command was read and is a LAUNCH that waits at acceptance (R458, R491)
deriving DecidableEq, Repr

/-- Where a task is. -/
inductive Place where
  | front                            -- accepted, not yet at a unit
  | ready                            -- dispatched; stays in the front end (STEP_GATE, BATCH_EDIT)
  | eapWait (e : Nat)
  | eap (e : Nat)
  | lsq (k : Nat)                    -- ready at a local sequencer
  | entry (l : Nat)                  -- in an array's task queue, not started
  | running (l : Nat)
  | saving (l : Nat)
  | saved (k : Nat)                  -- a saved task, kept by sequencer k
  | restoring (l : Nat)
  | lceQueue (n : Nat)
  | lce (n : Nat)
  | gate                             -- a STEP_GATE whose wait is armed
  | mover (m : Nat)                  -- a KV_PASS at step mover m, waiting or copying
deriving DecidableEq, Repr

/-- A live task. `node` names the launch and node it is, `joined` and `enqd` say how R466 holds it, `taint` that it runs
with every store marked (R487), `early` a status
it must end with and the report type of its fault, 0 for none (R53, R344). -/
structure Task where
  seq     : Nat
  ty      : Nat
  queue   : Nat
  ctx     : Nat
  gen     : Nat
  cmd     : Nat
  node    : Option (Nat × Nat) := none
  joined  : Bool := false
  enqd    : Bool := false
  record  : List Byte
  taint   : Bool := false
  poisoned : Bool := false
  early   : Option (Status × Nat) := none
  wrap    : Option Status := none    -- how it ends once its result record is acknowledged
  group   : Option Nat := none       -- the sequence group its descriptor names, once that has been read
  place   : Place := .front
  start   : Nat := 0
  ran     : Nat := 0                 -- beats for which the watchdog has timed it (R512)
  startL  : Nat := 0                 -- logical array on which it started (R196, R341)
  handles : List Nat := []
  staged  : Bool := false
  ready   : Nat := 0                 -- order in which it became ready
deriving DecidableEq, Repr

/-- A node of a stored graph (R453). -/
structure Node where
  record : List Byte
  preds  : Nat
  succ   : List Nat
  taint  : Bool
deriving DecidableEq, Repr

/-- A patch point (R454). -/
structure PatchPoint where
  node   : Nat
  offset : Nat
  patch  : Nat
deriving DecidableEq, Repr

/-- A stored graph with its two patch buffers (R459). -/
structure Graph where
  live    : Bool := false
  gen     : Nat := 0
  ctx     : Nat := 0
  nodes   : List Node := []
  points  : List PatchPoint := []
  buf0    : List W64 := []
  buf1    : List W64 := []
  cur     : Bool := false            -- false: buffer 0 is current
  refs    : Nat := 0
  created : Bool := false
  bytes   : Nat := 0
  place   : Nat := 0                 -- where its store lies in the VAI's far-tier grant (R600)
deriving DecidableEq, Repr

inductive NodeState where
  | waiting (n : Nat)                -- predecessors left
  | issued (seq : Nat)
  | ended
  | cancelled
deriving DecidableEq, Repr

/-- A launch in flight. -/
structure Launch where
  id      : Nat
  queue   : Nat
  cmd     : Nat
  graph   : Nat
  buf     : Bool                     -- the patch buffer it holds (R460)
  walker  : Option Nat := none
  nodes   : List NodeState := []
  bad     : Option Status := none
  poison  : Bool := false
  taint   : List Nat := []           -- nodes that run tainted (R487)
  cycles  : Nat := 0
deriving DecidableEq, Repr

structure Fence where
  live    : Bool := false
  gen     : Nat := 0
  vai     : Nat := 0
  ctx     : Nat := 0
  value   : W64 := 0
  err     : Nat := 0
  ignored : Nat := 0
  mirror  : Nat := 0
  event   : Bool := false
  refs    : Nat := 0
  created : Bool := false
  orphan  : Bool := false            -- the owning context is gone (R580)
deriving DecidableEq, Repr

/-- A handoff queue (R480). -/
structure Hq where
  granted : Bool := false
  vai     : Nat := 0
  bound   : Bool := false
  ctx     : Nat := 0
  pool    : Nat := 0
  bufLog  : Nat := 0
  count   : Nat := 0
  tw      : Option Nat := none
  items   : List Nat := []
deriving DecidableEq, Repr

/-- A context (R560, R585, R586). States: 0 free, 1 live, 2 fenced, 3 dying. -/
structure Ctx where
  state   : Nat := 0
  gen     : Nat := 0
  hgen    : Nat := 0                 -- GEN of its handle
  vai     : Nat := 0
  part    : Nat := 0
  root    : Nat := 0
  heapVa  : Nat := 0
  heapGib : Nat := 0
  domain  : Option Nat := none
  saveAt  : Nat := 0
  refs    : Nat := 0
  created : Bool := false
  fva     : Nat := 0
  kind    : Nat := 0
  source  : Nat := 0
  count   : Nat := 0
  late    : Nat := 0
  settling : Bool := false           -- step 4 of R581 has not ended
  tables  : List Nat := []           -- table pages of its heap (R573)
deriving DecidableEq, Repr

/-- An allocation of a heap (R574-R578). -/
structure Alloc where
  live    : Bool := false
  gen     : Nat := 0
  vai     : Nat := 0
  base    : Nat := 0
  size    : Nat := 0
  page    : Nat := 0                 -- bytes of its pages
  maps    : List (Nat × Nat) := []   -- (context, virtual address)
  host    : Nat := 0                 -- host references
  dying   : Bool := false
  zeroing : Bool := false            -- destroyed, its memory being zeroed (R579)
  moved   : List (Nat × Nat) := []   -- granules whose data firmware has moved (R277): old, new
deriving DecidableEq, Repr

/-- A VAI (R429-R431, R592, R621). State 0 unassigned, 1 active, 2 busy, 3 paused. -/
structure Vai where
  state    : Nat := 0
  restoring : Bool := false          -- awaits restore after a block reset (R711)
  part     : Nat := 0xF
  pasid    : Nat := 0
  classes  : Nat := 0
  classesNext : Option Nat := none   -- the mask that the next round boundary puts in force (R602)
  contexts : Nat := 0
  queues   : Nat := 0
  fences   : Nat := 0
  wakeTol  : Nat := 0
  log      : Bool := false           -- migration logging is on (R612)
  overflow : Bool := false
  hostLog  : List Nat := []          -- dirty host pages
  devLog   : List Nat := []          -- dirty 64 KiB pieces, by block-local address / 64 KiB
  drops    : Nat := 0
  evTail   : Nat := 0
  cycles   : Nat := 0                -- the counters of R755, true values
  runs     : Nat := 0
  rows     : Nat := 0
  latched  : Nat := 0                -- the values last latched at a round boundary (R755)
  latchedRuns : Nat := 0
  latchedRows : Nat := 0
deriving DecidableEq, Repr

structure Slot where
  valid : Bool := false
  queue : Nat := 0x3FF
  part  : Nat := 0xF
  since : Nat := 0
deriving DecidableEq, Repr

/-- The schedule of a partition: what is in force, and what the next round boundary puts in force. -/
structure Part where
  fair     : Bool := true
  beMask   : Nat := 0
  cfgNext  : Option (Bool × Nat) := none
  commit   : Option (List Nat) := none   -- the entries of the commit that is pending
  result   : Nat := 0
  turn     : Nat := 0
  countM1  : Nat := 0
  turnAt   : Nat := 0                -- beat at which the turn in force began
  scrFirst : Nat := 0                -- scratch grant of R596
  scrCount : Nat := 0
  used     : Tbl Nat := []           -- array cycles used in this round, by class (R500)
deriving DecidableEq, Repr

/-- The reconfiguration under way (R604-R611): its step, new layout, and how tasks end. -/
structure Reconf where
  parts   : Nat
  conf    : Nat
  tag     : Bool
  step    : Nat
  scrub   : List Nat                 -- partitions still to be scrubbed
deriving DecidableEq, Repr

/-- An owner of a granted or zeroing item; `scrub p`: it is being zeroed by the scrub of partition p. -/
inductive Own where
  | free
  | vai (v : Nat)
  | zeroing
  | scrub (p : Nat)
deriving DecidableEq, Repr

/-- A unit that caches translations (R570, R571). -/
inductive XlUnit where
  | array (l : Nat) | sector (n : Nat) | eap (e : Nat) | front
deriving DecidableEq, Repr

/-- A translation that a unit's cache holds (R570): the leaf entry and its level are 4 × entry + level. -/
structure TlbEnt where
  unit : XlUnit
  ctx  : Nat
  gen  : Nat
  page : Nat
  leaf : Nat
deriving DecidableEq, Repr

structure Fe where
  q        : Tbl Queue := []
  tasks    : List Task := []
  seqCtr   : Nat := 0
  cmdCtr   : Nat := 0
  readyCtr : Nat := 0
  graphs   : Tbl Graph := []
  launches : List Launch := []
  launchCtr : Nat := 0
  fences   : Tbl Fence := []
  hq       : Tbl Hq := []
  ctx      : Tbl Ctx := []
  allocs   : Tbl Alloc := []
  tlb      : List TlbEnt := []       -- the translation caches, oldest entry first (R570)
  slot     : Tbl Slot := []
  rrSlot   : Nat := 0                -- partition to which a floating slot, and walker, was given last (R490)
  rrWalk   : Nat := 0
  vai      : Tbl Vai := []
  part     : Tbl Part := []
  parts    : Nat := 1                -- FE_LAYOUT PARTS
  conf     : Nat := 0                -- FE_LAYOUT CONF
  reconf   : Option Reconf := none
  reconfResult : Nat := 0
  touched  : Nat := 0
  scrubbing : List Nat := []         -- partitions being scrubbed
  ftOwn    : Tbl Own := []
  scrOwn   : Tbl Own := []
  round    : Nat := 0x3FF            -- ROUND_NOW_M1
  roundNext : Option Nat := none
  roundRes : Nat := 0
  broken   : Nat := 0
  lastBroken : Nat := 0x3FF
  pausing  : List Nat := []          -- VAIs whose VAI_PAUSE waits for its last task
  dying    : List (Bool × Nat) := [] -- objects in order of death (R579): contexts, and allocations (true)
deriving DecidableEq, Repr

/-! ## Tally words and barriers (chapter 11) -/

/-- A wait armed by logical array `l`: on word `idx`, a WAIT with its condition and comparand, or a TAKEWAIT. -/
structure TwWait where
  l     : Nat
  phys  : Nat
  idx   : Nat
  take  : Bool
  cond  : Nat
  arg   : W32
deriving DecidableEq, Repr

/-- A barrier channel (R547, R558). State 0 unbound, 1 open, 2 broken. -/
structure Bar where
  granted : Bool := false
  vai     : Nat := 0
  state   : Nat := 0
  ctx     : Nat := 0
  countM1 : Nat := 0
  gen     : Nat := 0
  arrived : Nat := 0
  waiters : List Nat := []           -- SEQ of the tasks that arrived and wait
deriving DecidableEq, Repr

structure Tw where
  val   : Tbl W32 := []
  last  : Tbl (Nat × Nat) := []      -- (KIND, ID) of TW_LAST
  waits : List TwWait := []          -- in arming order
  grant : Tbl Nat := []              -- 0 none, else 1 + VAI
  bar   : Tbl Bar := []
deriving DecidableEq, Repr

/-! ## The fabric (chapter 7) -/

/-- A packet that waits at a port to leave: `src`: the receive buffer that it still occupies, its port and virtual channel there
(R326); `own`: a request of this block, whose deadline is set when it is first sent (R346). -/
structure Waiting where
  pkt : Packet
  src : Option (Nat × Nat) := none
  own : Bool := false
deriving DecidableEq, Repr

/-- A port. States: 0 DOWN, 1 TRAINING, 2 UP, 3 DEGRADED, 4 RETRAINING, 5 REFUSED. -/
structure Port where
  state    : Nat := 0
  lanes    : Nat := 0                -- LANE_OK
  gen      : Nat := 0
  partner  : Nat := 0xFFF
  high     : Bool := false           -- the half a degraded port uses
  active   : Nat := 0                -- lanes in use, or announced while the port trains
  asked    : Bool := false           -- a retrain that R368's writes asked for is under way
  txSeq    : Nat := 0                -- SEQ of the next data flit
  acked    : Nat := 0                -- SEQ of the last flit acknowledged, plus 1
  rxSeq    : Nat := 0                -- next expected SEQ
  replay   : List Flit := []         -- oldest first
  nakSent  : Bool := false
  nakFor   : Nat := 0
  nakCount : Nat := 0
  kept     : Bool := true            -- while RETRAINING: state is kept so far
  paused   : Bool := false           -- flits are stopped for a lane degrade (R366)
  credits  : List Nat := List.replicate 8 0    -- held by this sender, per VC
  owed     : List Nat := List.replicate 8 0    -- units sent whose credits have not come back
  give     : List Nat := List.replicate 8 0    -- credits to return
  conf     : List Nat := List.replicate 8 0    -- the partner's configured credits, per VC (R327)
  wait     : List Nat := List.replicate 8 0    -- flit times that each VC has waited (R354)
  h0       : Nat := 10240            -- split in force
  hn       : Nat := 2048
  part     : List Byte := []         -- bytes of a packet not yet whole
  rx       : List Packet := []       -- received packets, oldest first
  txq      : List Waiting := []      -- packets that wait for credit or room, oldest first
  tx       : Nat := 0
  rxCnt    : Nat := 0
  replayed : Nat := 0
  fecCor   : Nat := 0
  fecUnc   : Nat := 0
  crcErr   : Nat := 0
  drop     : Nat := 0
  retrain  : Nat := 0
  delay    : Nat := 0                -- measured link delay
  reqAt    : Option Nat := none      -- beat of the last DELAY_REQ since the port last trained
  ptpAt    : Nat := 0                -- time of the last PTP event message at the interface (R364)
  txLat    : Nat := 0                -- SerDes latencies of R46
  rxLat    : Nat := 0
  distance : Nat := 0xFF             -- distance the partner advertises
  master   : Nat := 0xFFF
  logged   : Bool := false           -- the training failure of R319 has been logged
deriving DecidableEq, Repr

/-- What an outstanding remote request serves at the origin. -/
inductive ReqUse where
  | load (l : Nat) (dest : Nat)      -- an array's load: local-store address
  | store (l : Nat)
  | atom (l : Nat)
  | signal (l : Nat)                 -- a SIGNAL with REMOTE
  | eap (e : Nat) (tag : Nat) (wr : Bool)   -- an engine's request, by issue tag
  | sub (n seq : Nat)                -- a sub-batch of LCE n (R216)
  | result (seq : Nat)               -- the result record of a task
  | kvData (seq : Nat)
  | kvSignal (seq : Nat)
  | table (g m k : Nat)              -- a table write of R416 to member m at serving step k
  | tableSignal (g m : Nat)
  | mirror
  | update (q cmd : Nat)             -- a forwarded update record (R223), or a write that outlives its engine task
  | ctl                              -- a piece of control data of the front end, an LCE, a mover or an array's start
  | dropped (late : Bool) (q : Nat)  -- abandoned by its owner: no effect; as in ReadUse
deriving DecidableEq, Repr

/-- What a piece of control data at another node has come to (R344). -/
inductive FetchRes where
  | waiting
  | data (bytes : List Byte) (mask : Nat)
  | refused (st : Status)
deriving DecidableEq, Repr

/-- A piece of control data that a command reads at another node (R347): whose it is, the context, the global address, the length, the
tag of its READ and what became of it. The command goes on when all its pieces are there. -/
structure Fetch where
  key  : Nat
  ctx  : Nat
  addr : Nat
  len  : Nat
  tag  : Nat
  res  : FetchRes := .waiting
deriving DecidableEq, Repr

/-- An outstanding remote request (R344): `gen` is the generation of the port it left by. -/
structure Req where
  tag  : Nat
  gen  : Nat
  port : Nat
  link : Nat := 0                    -- link of a two-link port (R352)
  dst  : Nat
  ch   : Nat
  opc  : Nat
  len  : Nat
  use  : ReqUse
  seq  : Nat                         -- task, 0 when none
  ctx  : Nat
deriving DecidableEq, Repr

/-- A frame that its peer has not acknowledged: the port it left by, and whether its requests have been counted as lost. -/
structure SentFrame where
  psn  : Nat
  port : Nat
  pkts : List Packet
  lost : Bool := false
deriving DecidableEq, Repr

/-- An Ethernet peer connection (R358-R360). -/
structure Peer where
  psn      : Nat := 0
  expected : Nat := 0
  unacked  : List SentFrame := []    -- oldest first
  timeouts : Nat := 0
  down     : Bool := false
  rate     : Nat := 64               -- in 1/64 of the port rate
  ceEcho   : Bool := false
  halved   : Nat := 0                -- beat at which the rate was last halved
  kept     : List (Nat × List Packet) := []    -- responses kept by PSN (R359)
deriving DecidableEq, Repr

structure Fab where
  port    : Tbl Port := []
  reqs    : List Req := []
  tagCtr  : Nat := 0
  fetches : List Fetch := []
  heldTx  : List (Nat × Packet) := []       -- requests of a flow that waits for its old port (R353), and their use order
  peer    : Tbl Peer := []
deriving DecidableEq, Repr

/-! ## Arrays (chapters 2 and 3) -/

/-- What the instruction in progress waits for. -/
inductive Stall where
  | none
  | load (pieces : List (Nat × Nat × Nat))     -- LOAD or LOADS: block-local address, local address, bytes to land
  | fence
  | ending                           -- END (R139)
  | atom (dst : Nat) (res : Option W64)
  | signal (dst : Nat)               -- SIGNAL with REMOTE (R534)
  | wait (dst : Nat)                 -- a WAIT or TAKEWAIT that is armed
  | barrier (dst : Nat) (chan : Nat)
  | sys (dst : Nat) (res : W64)      -- the reply of a system call
deriving DecidableEq, Repr

/-- A pending pre-emption request: `now` for grace 0 (R151). -/
structure Preempt where
  now : Bool
deriving DecidableEq, Repr

/-- A physical array: the control state of R163, the stores of R94 and what it is doing. -/
structure Arr where
  task     : Option Nat := none      -- SEQ of the task it executes
  lastCtx  : Option Nat := none
  pc       : Nat := 0
  codeLs   : Nat := 0
  codeLen  : Nat := 0
  invalid  : Bool := false           -- sticky flags of R116
  overflow : Bool := false
  isat     : Bool := false
  nanScale : Bool := false
  t2rsvd   : Bool := false
  cond     : Bool := false           -- the condition BRC tests
  saveGen  : Nat := 0
  liveIdx  : Nat := 0
  window   : Option (Nat × Nat) := none        -- start and bytes of the open inbound window
  loops    : Tbl W64 := []
  stack    : List Nat := []
  a        : Tbl W64 := []
  s        : Tbl W64 := []
  p        : Tbl W64 := []           -- by number, p0 not stored
  v        : Tbl W32 := []           -- lane i of vn at 64 n + i
  acc      : Tbl W32 := []           -- cell (i, j) at 80 i + j
  ls       : Tbl Byte := []
  lsPoison : List Nat := []          -- poisoned granules, rising
  vPoison  : List Nat := []          -- marked vector registers
  pPoison  : List Nat := []          -- marked predicate registers (R98)
  tilePoison : Bool := false
  fmtA     : Nat := 0
  fmtB     : Nat := 0
  progress : Nat := 0                -- of the instruction at the program counter: steps, groups or granules done (R153)
  replay   : Bool := false           -- that instruction is a transfer which a save cancelled or cut short (R153, R163)
  stall    : Stall := .none
  stores   : Nat := 0                -- unacknowledged stores (R131)
  storesDue : Nat := 0               -- of these, the ones whose data is written, so that STORE_ACK may come
  preempt  : Option Preempt := none
  saving   : Option Bool := none     -- a save in progress: true for cheap
  heldPre  : Option Preempt := none  -- a request that came during a restore (R152)
  queue    : List Nat := []          -- task-queue entries not started
  restore  : Bool := false           -- the task it holds is being restored
  gated    : Bool := false           -- ARRAY-GATED (R681)
  started  : Nat := 0                -- order of task starts (R510)
  rank1    : Bool := false           -- its task was started or restored at rank 1 in this turn (R510)
deriving DecidableEq, Repr

/-- Physical array p: ROLE, LOGICAL, CE_COUNT (R127), and the self-test it runs (R678). -/
structure PhysArr where
  role    : Nat := 0
  logical : Nat := 0x3FF
  ce      : Nat := 0
  testing : Bool := false            -- its self-test runs (R678, R680)
deriving DecidableEq, Repr

/-- An inbound write that a save holds at the mesh port (R157): its window offset, its data and the marks of its pieces. -/
structure HeldWrite where
  off  : Nat
  data : List Byte
  bad  : List Bool
deriving DecidableEq, Repr

/-- A save record (R157): the header (task, kind, S, live-table index), where its bytes lie, and the control state. The local store, the
vector registers and the accumulators lie in its bytes only. It is allocated when the save begins (step 2) and `done` once the copy ends. -/
structure SaveRec where
  seq     : Nat
  ctx     : Nat
  queue   : Nat
  gen     : Nat
  part    : Nat
  phys    : Nat
  cheap   : Bool
  size    : Nat
  pool    : Bool
  units   : List Nat := []           -- its 64 KiB units of the save pool, in order
  slot    : Nat                      -- its slot of the context's far-tier save area, when it lies there
  base    : Nat := 0                 -- the far-tier address of that slot
  entry   : Option (List Byte) := none         -- the live-range entry of a cheap save (R145)
  done    : Bool := false
  held    : List HeldWrite := []     -- inbound writes that wait for step 5
  st      : Arr
  latched : Option (Nat × Bool) := none        -- a barrier release: generation and condition (R153)
deriving DecidableEq, Repr

/-- A reserve-array swap under way (R678): the logical array, the old physical array, the reserve that is tested or takes over
(none when no reserve is left, R91), and whether firmware began it by itself rather than for ARRAY_SWAP. -/
structure Swap where
  l   : Nat
  old : Nat
  new : Option Nat
  own : Bool
deriving DecidableEq, Repr

structure Arrs where
  lmap     : Tbl Nat := []           -- 1 + physical array of a logical one, 0 when not backed
  phys     : Tbl PhysArr := []
  st       : Tbl Arr := []           -- by physical array
  saves    : List SaveRec := []
  cheap    : Nat := 0                -- ARR_SAVE_CHEAP, FULL, SPILL
  full     : Nat := 0
  spill    : Nat := 0
  poolPeak : Nat := 0                -- in 64 KiB units
  startCtr : Nat := 0
  pool     : Tbl Byte := []          -- the save pool (R164), by offset in its 512 MiB
  poolMarks : List Nat := []         -- its granules with the poison mark, rising
  swaps    : List Swap := []
deriving DecidableEq, Repr

/-! ## Memory (chapter 5) and its regulators and test engines (chapter 6) -/

/-- A stack: MC_STACK_STAT STATE (0 not started, 1 training, 2 in service, 3 self-refresh, 4 absent, 5 failed). -/
structure Stack where
  state : Nat := 0
  temp  : Nat := 0
deriving DecidableEq, Repr

/-- A pseudo-channel (R286): 0 in service, 1 retiring, 2 mapped out, 3 absent. -/
structure Chan where
  state   : Nat := 0
  ce      : Nat := 0
  retired : Nat := 0
deriving DecidableEq, Repr

/-- A traffic generator (R312-R314): 0 idle, 1 running, 2 done, 3 stopped. -/
structure Tg where
  state  : Nat := 0
  result : Nat := 0
  errors : Nat := 0
  err    : Nat := 0
  done   : Nat := 0                  -- MC_TG_DONE of the last run
  pos    : Nat := 0                  -- codewords done of the run under way
  opened : Bool := false             -- its page is open
  first  : Option Nat := none        -- position of the first codeword in error
deriving DecidableEq, Repr

structure Mem where
  cells    : Tbl Byte := []          -- far tier and near-tier scratch, by block-local address
  poison   : List Nat := []          -- 64-byte granules with the poison mark, rising
  retired  : List Nat := []          -- retired 4 KiB granules, rising
  moves    : List (Nat × Nat) := []  -- granule moves under way (R277): old, new
  granCe   : Tbl Nat := []           -- corrected codewords per granule in this patrol period
  spares   : Tbl Nat := []           -- spare rows used by post-package repair, by bank: 64 * pseudo-channel + bank
  cache    : List (Nat × Nat × Nat) := []      -- near-tier cache lines held, least recent first: line, set, step
  steps    : Nat := 0                -- MC_NT_STAT SCRATCH_STEPS
  divided  : Bool := true            -- MC_NT_STAT CACHE_DIVIDED
  ntState  : Nat := 0
  ntResult : Nat := 0
  ntNext   : Option (Nat × Bool) := none       -- the mode requested (R254)
  changing : List Nat := []          -- steps being zeroed for their new role
  inval    : List Nat := []          -- slices being invalidated
  stack    : Tbl Stack := []
  chan     : Tbl Chan := []
  ftCap    : Nat := 0
  ftRetired : Nat := 0
  runs     : Tbl Nat := []           -- MC_RUNS_n
  groups   : Tbl Nat := []           -- MC_GROUPS_n
  tg       : Tbl Tg := []
  train    : Nat := 0                -- the phase of stack training that has ended (R315)
  trainBad : List Nat := []          -- pseudo-channels that failed it, rising (R316)
deriving DecidableEq, Repr

/-- Whose transfer a queued run belongs to. -/
inductive RunOwner where
  | array (l : Nat) | lce (n : Nat) | mover (m : Nat) | front | firmware
  | eap (e id : Nat) | host (id : Nat) | fabric (id : Nat) | update (id : Nat) | copy (m id : Nat)   -- an answer of number id waits for them
deriving DecidableEq, Repr

/-- A queued run: its page, whether it is a partial write (two pips), and whether the first of the two is spent. -/
structure Run where
  owner : RunOwner
  page  : Nat
  part  : Bool
  half  : Bool := false
  refresh : Bool := false            -- not a run but a refresh of a bank (R259, R261)
deriving DecidableEq, Repr

/-- The queue of one regulator on one pseudo-channel; `page` is the open page plus 1, `begun` whether a run of the
group has issued. -/
structure RunQ where
  runs  : List Run := []
  page  : Nat := 0
  begun : Bool := false
deriving DecidableEq, Repr

/-- An answer that waits until the runs of its request have issued (R295): on MRSP, to the host, to a fabric request, or the end
of a task. -/
inductive Answer where
  | eap (e tag : Nat) (st : Status) (data : List Byte) (write : Bool) (owner : Option (Nat × Nat))
  | icpl (tag : Nat) (data : List Byte) (ep : Bool)
  | cmem (tag : Nat) (data : List Byte) (poison : Bool)
  | fab (q : Packet) (status mask operand : Nat) (data : List Byte)
  | task (seq : Nat) (st : Status)
  | kv (seq : Nat) (st : Status)
deriving DecidableEq, Repr

/-- A regulator (R302, R303): what is in force, the change pending, and the counters. -/
structure Reg where
  state    : Nat := 0
  result   : Nat := 0
  rate     : Nat := 0
  borrow   : Bool := false
  bmax     : Nat := 0
  next     : Option (Nat × Bool × Nat) := none
  spent    : Nat := 0
  lent     : Nat := 0
  borrowed : Nat := 0
  expired  : Nat := 0
  dealt    : Nat := 0                -- cumulative pips dealt, for the ledger (R698)
deriving DecidableEq, Repr

structure Rg where
  reg   : Tbl Reg := []              -- 0 to 12; the deal's u is 13
  deal  : List Nat := List.replicate 124 13
  queue : Tbl RunQ := []             -- by 14 * pseudo-channel + regulator; 13 is patrol, refresh and scans
  slot  : Tbl Nat := []              -- the next run time of each pseudo-channel in this beat
  taken : Tbl Nat := []              -- run times borrowed in this beat, by 14 * pseudo-channel + regulator
  rr    : Tbl Nat := []              -- the last borrower on each pseudo-channel
  gap   : Bool := false              -- this is a gap beat (R305)
  held  : List (Nat × Answer) := []  -- answers that wait for the runs of their number
  reqs  : Nat := 0                   -- the next number
  gapBeats : Nat := 0
deriving DecidableEq, Repr

/-! ## Lookup engines (chapter 4) -/

/-- One use of a distinct row: the bag, the weight, and for concatenation the slot. -/
structure RowUse where
  bag    : Nat
  weight : W32
  slot   : Nat
deriving DecidableEq, Repr

/-- A distinct row of the window in work: where it lies, its width, and the runs (or granules) not yet returned. -/
structure LkRow where
  table : Nat
  loc   : Nat
  addr  : Nat
  width : Nat
  fmt   : Nat
  dim   : Nat
  hrc   : Bool                       -- HRC_ALLOW
  hit   : Option (List Byte × Bool)  -- the copy read from the hot-row cache, with its mark
  wait  : List Nat                   -- keys of RUN_FETCH_DATA not yet returned
  bad   : Bool                       -- a returned run was uncorrectable or marked
  uses  : List RowUse
deriving DecidableEq, Repr

/-- An entry of a batch not yet taken into a window (R193); `slot` is its slot for concatenation. -/
structure LkEntry where
  row    : Nat
  table  : Nat
  bag    : Nat
  weight : W32
  slot   : Nat
deriving DecidableEq, Repr

/-- What a batch is: a LOOKUP task, or a sub-batch that this block owes to another (R216), with the fields its reply
repeats. -/
inductive BatchKind where
  | task (seq : Nat)
  | sub (src tag gen ch arg : Nat)
deriving DecidableEq, Repr

/-- A lookup batch in progress on an LCE. -/
structure Batch where
  kind    : BatchKind
  ctx     : Nat
  domain  : Nat
  desc    : List Byte                -- the descriptor of R192
  pool    : Nat
  dim     : Nat                      -- DIM of the first table named
  dims    : Tbl Nat := []            -- 1 + DIM of each bag that has an entry (R208)
  window  : Nat                      -- entries per sort window
  rest    : List LkEntry             -- entries of the windows to come
  rows    : List LkRow := []         -- the window in work
  acc     : Tbl W32 := []            -- accumulators: element e of bag b at 2^32 b + e
  count   : Tbl Nat := []            -- entries pooled per bag
  slots   : List Nat := []           -- slots that have an entry (concatenation), 64 b + slot, rising
  poison  : List Nat := []           -- poisoned bags, rising
  subs    : List Nat := []           -- tags of the sub-batches sent and not answered
  distinct : Nat := 0
  runs    : Nat := 0
  hits    : Nat := 0
  remote  : Nat := 0
  overflow : Bool := false
  invalid : Bool := false
  oor     : Bool := false
  timeout : Bool := false
  fail    : Option Status := none
deriving DecidableEq, Repr

/-- Work queued at an LCE in arrival order. -/
inductive LceJob where
  | task (seq : Nat)
  | sub (src tag : Nat)
deriving DecidableEq, Repr

/-- An LCE: STATE (0 not started, 1 idle or busy, 3 offline), its queue, its batches, its counters (R236). -/
structure Lce1 where
  state    : Nat := 0
  queue    : List LceJob := []
  active   : List Batch := []
  entries  : Nat := 0
  distinct : Nat := 0
  runs     : Nat := 0
  hits     : Nat := 0
  subOut   : Nat := 0
  subIn    : Nat := 0
  cached   : List (Nat × Nat × List Byte × List Nat) := []   -- domain, table, descriptor, shard list (R190)
deriving DecidableEq, Repr

/-- A lookup domain bound on the block (R182): its context, its directory, FENCED. -/
structure Domain where
  id     : Nat
  ctx    : Nat
  dir    : Nat                       -- address of its table directory
  fenced : Nat := 0
deriving DecidableEq, Repr

/-- The key of a row in a hot-row cache (R210). -/
structure HotRow where
  domain : Nat
  table  : Nat
  loc    : Nat
deriving DecidableEq, Repr

/-- A copy of a row in a hot-row cache (R209, R213): its bytes and its mark. -/
structure HotCopy where
  key  : HotRow
  data : List Byte
  bad  : Bool := false
deriving DecidableEq, Repr

/-- The hot-row cache of a partition: copies held, least recently used first, its frequency sketch, and the beat of the last
halving of the sketch. -/
structure Hrc where
  rows     : List HotCopy := []
  decayed  : Nat := 0
  sketch   : Tbl Nat := []           -- counter i of row j of domain share d
  emptying : Bool := false
deriving DecidableEq, Repr

/-- A sub-batch sent to an owner: its LCE, batch, the bags it touches, and the reply parts received, each behind the byte
of its PMASK. -/
structure SubOut where
  tag   : Nat
  node  : Nat
  lce   : Nat
  seq   : Nat
  bags  : List Nat
  flags : Nat := 0                   -- OVERFLOW (bit 0) and INVALID (bit 1) of the owner
  parts : Tbl (List Byte) := []
deriving DecidableEq, Repr

/-- The parts of a sub-batch that arrive from an origin. -/
structure SubIn where
  src    : Nat
  tag    : Nat
  gen    : Nat
  domain : Nat
  ch     : Nat
  id     : Nat                       -- the origin's sub-batch ID, ARG[31:16]
  total  : Nat
  parts  : Tbl (List Byte) := []
deriving DecidableEq, Repr

/-- An EPOCH_FENCE in progress (R228), and the update tasks it waits for. -/
structure EpochWait where
  lce    : Nat
  seq    : Nat
  domain : Nat
  epoch  : Nat
  reload : Bool
deriving DecidableEq, Repr

/-- Accepted updates whose forwarded records are not all acknowledged: task, domain, epoch, records outstanding. -/
structure UpdWait where
  seq    : Nat
  domain : Nat
  epoch  : Nat
  left   : Nat
deriving DecidableEq, Repr

structure Lce where
  unit    : Tbl Lce1 := []
  domains : List Domain := []
  hrc     : Tbl Hrc := []
  subs    : List SubOut := []
  subIn   : List SubIn := []
  fences  : List EpochWait := []
  updates : List UpdWait := []
  updIn   : List (Nat × Nat × List Byte) := []   -- forwarded records not yet whole: source, key, bytes
deriving DecidableEq, Repr

/-! ## Sequence groups (chapter 8) -/

/-- An entry of the leader's next batch (R410). `age` counts the tables in which it was quarantined, `order` the
joins, `given` the events of earlier steps (R422). -/
structure BatchEnt where
  seqId : Nat := 0
  state : Nat := 0
  param : Nat := 0
  age   : Nat := 0
  order : Nat := 0
  given : Nat := 0
deriving DecidableEq, Repr

/-- A sequence group on this member. -/
structure Group where
  live    : Bool := false
  ctx     : Nat := 0
  vai     : Nat := 0
  desc    : List Byte := []
  members : List Byte := []
  gen     : Nat := 0
  broken  : Bool := false
  step    : Nat := 0                 -- number of the next serving step
  batch   : Tbl BatchEnt := []
  joins   : Nat := 0
deriving DecidableEq, Repr

/-- A STEP_GATE that waits (R400). -/
structure Gate where
  seq   : Nat
  desc  : List Byte
deriving DecidableEq, Repr

/-- A KV_PASS at a step mover: writes and signal outstanding (R406). -/
structure Kv where
  seq     : Nat
  mover   : Nat
  desc    : List Byte
  node    : Nat := 0xFFF             -- the node of its destination
  started : Bool := false
  todo    : List (Nat × Nat × List Byte) := []  -- WRITEs that wait for the source: address, PMASK, data
  left    : Nat := 0                 -- acknowledgements of WRITEs outstanding
  signal  : Bool := false            -- the TSIG has been sent
  poisoned : Bool := false
  fail    : Option (Status × Bool) := none     -- a status, and whether the loss leaves the queue innocent
deriving DecidableEq, Repr

structure Sg where
  group : Tbl Group := []
  gates : List Gate := []
  kv    : List Kv := []
  tables : List (Nat × Nat × Nat × Nat) := []   -- tables being distributed: group, member, step, acknowledgements left
deriving DecidableEq, Repr

/-! ## Firmware, flash and fuses (chapter 15) -/

/-- What flash holds (R660, R668, R725): an image with its header, the dump copy, whether the dump was cleared. -/
structure Flash where
  image    : List Byte := []
  params   : List Byte := []         -- the boot parameters (R663)
  dump     : List Byte := []
  dumpDone : Bool := false           -- the dump image is complete
  log      : List Byte := []         -- the copy of the collector log (R728)
  sfdp     : Bool := true            -- the flash answers with a valid size
deriving DecidableEq, Repr

/-- The fuses that a rule names: the anti-rollback count, failed arrays, identity, production, debug (R87, R662, R733). -/
structure Fuses where
  svn        : Nat := 0
  failed     : List Nat := []        -- failed physical arrays, rising
  serial     : Nat := 0
  production : Bool := false
  debugOff   : Bool := false
deriving DecidableEq, Repr

/-- A sector's tests: the arrays still to be tested and those that failed (R679, R680). -/
structure SectorRun where
  state : Nat := 0                   -- 0 online, 1 going offline, 2 offline, 3 testing
  tests : List Nat := []
  bad   : List Nat := []
deriving DecidableEq, Repr

structure Fw where
  upd      : Nat := 0                -- UPD of R672
  newOn    : Nat := 0                -- NEW_ON
  chunk    : Nat := 0                -- the far-tier chunk that holds the staged image
  staged   : List Byte := []         -- the staged image
  running  : List Byte := []         -- the image that runs
  hand     : Option (Nat × Nat) := none        -- the steward whose handover is asked for, and how far it is: 0 asked, 1 the
                                               -- round boundary has come, 2 HANDOVER_START has come
  recovery : List Byte := []         -- the recovery image that arrived (R668)
  recovering : Bool := false         -- GO was written and the reads are under way
  writing  : Option Nat := none      -- a flash write under way: 0 of WRITE_FLASH, 1 of FW_COMMIT
  flash    : Flash := {}
  fuses    : Fuses := {}
  sector   : Tbl SectorRun := []
deriving DecidableEq, Repr

/-! ## Power, beat, ledger (chapter 16) -/

structure Pm where
  beat     : Nat := 0
  lock     : Nat := 0
  master   : Bool := false
  upstream : Nat := 0xF
  distance : Nat := 0xFF
  node     : Nat := 0xFFF            -- MASTER_NODE
  jumps    : Nat := 0
  offset   : Nat := 0
  next     : Option Nat := none      -- the value that the next boundary loads
  jump     : Bool := false           -- that load is a jump (R693)
  src      : Nat := 0                -- SRC and CANDIDATE in force since the last boundary (R764)
  cand     : Bool := false
  listen   : Option Nat := none      -- from READY on: 0-15 beats waited for a port, 16-32 beats listened, plus 16 (R692)
  missed   : Nat := 0                -- pulses of the followed source missed in a row
  pulses   : Nat := 0
  rate     : Nat := 0                -- RATE_NOW
  thrPin   : Bool := false
  thrCap   : Bool := false
  thrLast  : Nat := 0
  throttled : Bool := false          -- the round has been throttled (R690)
  power    : Nat := 0
  block    : Nat := 0                -- PM_STAT BLOCK_STATE
  sector   : Tbl Nat := []           -- PM_SECT_STAT STATE
  energy   : Tbl Nat := []           -- counters by partition
  energyBlk : Nat := 0
  tail     : Nat := 0                -- PM_LED_TAIL
  snap     : Nat := 0
  lost     : Nat := 0
  held     : List (List Byte) := []  -- ledger records that wait (R701)
  overflow : Bool := false
  totals   : Tbl Nat := []           -- regulator totals at the last snapshot
  rounds   : Nat := 0                -- rounds begun, for LED_CFG
  waking   : List PowerUnit := []    -- units whose exit the CPB has started ahead of an event (R686)
  skip     : Bool := false           -- a jump has cut the round in progress (R693)
  cut      : Bool := false           -- a jump cut the last round: it gives no snapshot
  done     : List Nat := []          -- what this beat has brought: 0 round, 1 scan, 2 snapshot, 32 + n heartbeat
deriving DecidableEq, Repr

/-! ## The confidential security block (chapter 18) and the management bus -/

/-- A key binding: session, partition, key generation, the counter of the units sealed. -/
structure Binding where
  session : Nat
  part    : Nat
  gen     : Nat
  counter : Nat := 0
deriving DecidableEq, Repr

/-- A seal window of a context. -/
structure Window where
  ctx  : Nat
  base : Nat
  size : Nat
  metaAt : Nat
deriving DecidableEq, Repr

/-- What a completed scrub left for its receipt (R760). -/
structure Receipt where
  trigger : Nat
  seq     : Nat
  start   : Nat
  finish  : Nat
  chunks  : Nat
  units   : Nat
deriving DecidableEq, Repr

/-- A partition's scrub (R756-R763), and the receipt of the last one completed. -/
structure Scrub where
  state   : Nat := 0
  step    : Nat := 0
  seq     : Nat := 0
  trigger : Nat := 0
  start   : Nat := 0
  vai     : Option Nat := none       -- the VAI that the partition held when the scrub began
  receipt : Option Receipt := none
deriving DecidableEq, Repr

structure Csb where
  debugUsed : Bool := false
  sessions  : List Nat := []
  next      : Nat := 1
  bindings  : List Binding := []
  gens      : List (Nat × Nat × Nat) := []     -- session, partition, last generation used
  windows   : List Window := []
  scrub     : Tbl Scrub := []
deriving DecidableEq, Repr

structure Cmb where
  eid : Nat := 0
deriving DecidableEq, Repr

/-! ## The whole block -/

/-- The block, its command queue, and the index of the next free value (the model's own field). -/
structure State where
  blk     : Blk := {}
  regs    : Tbl W32 := []            -- the register file, by offset in BAR0; unlisted: its reset value
  mem     : Mem := {}
  rg      : Rg := {}
  arr     : Arrs := {}
  lce     : Lce := {}
  fab     : Fab := {}
  sg      : Sg := {}
  fe      : Fe := {}
  tw      : Tw := {}
  ic      : Ic := {}
  mbx     : Mbx := {}
  fw      : Fw := {}
  pm      : Pm := {}
  err     : Err := {}
  csb     : Csb := {}
  cmb     : Cmb := {}
  ports   : Ports := {}
  freeCtr : Nat := 0
  pending : List Instr := []
deriving DecidableEq, Repr

/-- The block in cold reset (R76): every register at its reset value, memory with nothing listed, no command waiting. -/
def State.reset : State := {}

end Sys2Proof.Machine
end

