-- ==== Sys2Proof/Machine/RegMap.lean ====
section
/-!
DEFINITION. The registers that hold a value of their own: offset, reset value and the bits that a plain write changes.
Registers whose write has a command of its own have an empty mask here; status registers are computed (Registers.lean).
-/
namespace Sys2Proof.Machine
open Sys2Proof

/-- A family of registers: `count` of them, `stride` apart from BAR0 offset `base`; reset value; bits that a plain write
changes (`rw`); bits that it changes until the unit's lock is set (`rwl`), the unit being FAB when `fab` and BLK otherwise. -/
structure RegRow where
  base   : Nat
  stride : Nat := 4
  count  : Nat := 1
  reset  : Nat := 0
  rw     : Nat := 0
  rwl    : Nat := 0
  fab    : Bool := false
deriving DecidableEq, Repr

/-- All bits of a register. -/
def allBits : Nat := 0xFFFFFFFF

/-- BLK, FE and ARR (R1, R2, R58, R83, R171, R518-R528, R584, R671). -/
def regRowsA : List RegRow := [
  { base := 0x0, reset := 0x02010000 },
  { base := 0x4, reset := 0x300 },
  { base := 0x8, reset := 0xFF025000 },
  { base := 0x10 },
  { base := 0x20, count := 4, rwl := 0xBF00FFFF },
  { base := 0x30, rw := 0x40001FFF },
  { base := 0x34, count := 2, rw := allBits },
  { base := 0x100000, reset := 0x3FF },
  { base := 0x100008, reset := 0x64, rw := 0xFFFF },
  { base := 0x10000C, reset := 0x03E80032, rw := allBits },
  { base := 0x100014, reset := 0x3E8, rw := 0x8000FFFF },
  { base := 0x101000, stride := 0x400, count := 12, reset := 0x80000000 },
  { base := 0x101008, stride := 0x400, count := 12, rw := 0x3F },
  { base := 0x101010, stride := 0x400, count := 12, reset := 0x11111111, rw := allBits },
  { base := 0x101014, stride := 0x400, count := 12, reset := 0x11111111, rw := allBits },
  { base := 0x402000, reset := 0x17700001, rw := 0xFFFF0003 }]

/-- LCE, MC, RG and the generators (R237, R239, R280, R283, R301, R312, R314). -/
def regRowsB : List RegRow := [
  { base := 0x801000, stride := 0x10, count := 12, reset := 0x02200040 },
  { base := 0x802000, reset := 0x07D00001, rw := 0xFFFF0001 },
  { base := 0xA00000, reset := 0x100 },
  { base := 0xA00010, reset := 0x18080001, rw := 0xFF0F0001 },
  { base := 0xA04000, stride := 0x40, count := 13 },
  { base := 0xA10000, stride := 0x40, count := 768, reset := 0x580, rw := 0xFE0 },
  { base := 0xA10008, stride := 0x40, count := 768, rw := allBits },
  { base := 0xA1000C, stride := 0x40, count := 768, reset := 0x50000, rw := allBits },
  { base := 0xA10010, stride := 0x40, count := 768, reset := 1, rw := allBits }]

/-- FAB (R381-R392). -/
def regRowsC : List RegRow := [
  { base := 0xC00000, reset := 0xFFF, rwl := 0xFFF, fab := true },
  { base := 0xC00004 },
  { base := 0xC00008, reset := 0xD8058800, rw := 0xFFFFFF00 },
  { base := 0xC0000C, reset := 0x00C80A0A, rw := allBits },
  { base := 0xC01000, stride := 0x100, count := 8, reset := 0x20000000, rw := 0x38000000 },
  { base := 0xC01008, stride := 0x100, count := 8, reset := 0x28000800, rw := allBits },
  { base := 0xC10000, count := 4096, rw := 0xFFC003FF },
  { base := 0xC20000, stride := 0x10, count := 256, rw := allBits },
  { base := 0xC20004, stride := 0x10, count := 256, rw := allBits },
  { base := 0xC20008, stride := 0x10, count := 256, rw := 0xFF000000 },
  { base := 0xC2000C, stride := 0x10, count := 256, reset := 0x000F0000, rw := 0xFC0FFFFF }]

/-- IC, PM, ERR, the debug region, and the event-queue words of BAR2 kept above BAR0 (R431, R643-R646, R731). -/
def regRowsD : List RegRow := [
  { base := 0xE04000, count := 64, rw := 0xFFF },
  { base := 0xE04100, reset := 0x4924 },
  { base := 0xE04200, count := 3, rw := allBits },
  { base := 0xE0420C },
  { base := 0x1100000, reset := 0x800A1432, rw := 0x00FFFFFF },
  { base := 0x1100004, reset := 0xF28B4000, rw := 0xFFFFFC00 },
  { base := 0x1100200, rw := 0xF0000000 },
  { base := 0x1100300, count := 3, rw := allBits },
  { base := 0x110030C },
  { base := 0x1100314, reset := 0x00010000, rw := 0xFFFF0000 },
  { base := 0x1200000, reset := 0x04028014, rw := 0x8FFFC0FF },
  { base := 0x1200020, count := 2, rw := allBits },
  { base := 0x1200028, rw := 0x40000000 },
  { base := 0x1400000, count := 0x40000, rw := allBits },
  { base := 0x4000200, stride := 0x10000, count := 256, rw := allBits },
  { base := 0x4000204, stride := 0x10000, count := 256, rw := allBits },
  { base := 0x4000208, stride := 0x10000, count := 256, rw := allBits },
  { base := 0x400020C, stride := 0x10000, count := 256 }]

/-- Whether a row holds the register at `off`. -/
def RegRow.holds (r : RegRow) (off : Nat) : Bool :=
  decide (r.base ≤ off) && decide ((off - r.base) % r.stride = 0) && decide ((off - r.base) / r.stride < r.count)

/-- The row of a register that lies in a group of several words (turn tables, port addresses, peers, MSI-X). -/
def regRowX (off : Nat) : Option RegRow :=
  if 0x101000 ≤ off ∧ off < 0x104000 ∧ 0x100 ≤ off % 0x400 ∧ off % 0x400 < 0x200 then
    some { base := off, reset := 0x1F, rw := 0x0FFF001F }
  else if 0x101000 ≤ off ∧ off < 0x104000 ∧ 0x200 ≤ off % 0x400 ∧ off % 0x400 < 0x300 then
    some { base := off, reset := 0x1F }
  else if 0xC01000 ≤ off ∧ off < 0xC01800 ∧ 0x50 ≤ off % 0x100 ∧ off % 0x100 < 0x80 then
    some { base := off, rw := if off % 0x100 = 0x74 ∨ off % 0x100 = 0x7C then 0xFFFF else allBits }
  else if 0xC30000 ≤ off ∧ off < 0xC38000 then
    some { base := off, rw := if off % 0x20 = 0x10 then 0 else if off % 0x20 = 0x14 then 0xFC000000
      else if off % 0x20 = 0x1C then 0xCFFFFFFF else allBits }
  else if 0xE80000 ≤ off ∧ off < 0xE81010 then
    some { base := off, reset := if off % 0x10 = 0xC then 1 else 0, rw := if off % 0x10 = 0xC then 1 else if
      off % 0x10 = 0 then 0xFFFFFFFC else allBits }
  else none

/-- The row that holds a register, by its region.
DBG_ is taken to end at 0x150_0000, and an offset with no row ignores writes: DESIGN CHOICE (log entry 135). -/
def regRow (off : Nat) : Option RegRow :=
  if off % 4 ≠ 0 then none
  else match regRowX off with
    | some r => some r
    | none =>
      (if off < 0x800000 then regRowsA else if off < 0xC00000 then regRowsB else if off < 0xE00000 then regRowsC
        else regRowsD).find? (fun r => r.holds off)

/-- The reset value of a register. -/
def regReset (off : Nat) : Nat :=
  match regRow off with
  | some r => r.reset
  | none => 0

/-- The value a register holds. -/
def regGet (s : State) (off : Nat) : Nat := (tget (w32 (regReset off)) s.regs off).toNat

/-- Give a register a value. -/
def regSet (off v : Nat) (s : State) : State :=
  { s with regs := tset (w32 (regReset off)) s.regs off (w32 v) }

/-- The bits of a register that a plain write changes now (R14, R18, R21). -/
def regMask (s : State) (off : Nat) : Nat :=
  match regRow off with
  | none => 0
  | some r => r.rw ||| (if r.rwl ≠ 0 ∧ regGet s (if r.fab then 0xC00004 else 0x10) % 2 = 0 then r.rwl else 0)

/-- A plain write: the bits of the mask take the value written, the others stay. -/
def regWrite (off v : Nat) (s : State) : State :=
  let m := regMask s off
  if m = 0 then s
  else regSet off ((regGet s off &&& (allBits - m)) ||| (v &&& m)) s

end Sys2Proof.Machine
end

