-- ==== Sys2Proof/Machine/Ops.lean ====
section
/-!
DEFINITION. What every command is written with: running a command, free values, layout and modes, the interrupt
controller's arrivals and notices, and error reports.
-/
namespace Sys2Proof.Machine
open Sys2Proof

/-- A command's effect: while COLD_RST_N is low or REFCLK is lost the block does nothing (R70, R76). -/
def run (s : State) (f : State → State) : Host.Outcome State Fault Refusal :=
  .next (if s.blk.coldLow || s.blk.stopped then s else f s)

/-- A step that is enabled only under a condition. -/
def guarded (c : Bool) (f : State → State) (s : State) : State := if c then f s else s

/-- Do `f` for every element of a list, in order. -/
def each {α : Type} (l : List α) (f : α → State → State) (s : State) : State := l.foldl (fun t x => f x t) s

/-- A value that the specification leaves open, and the state that has used it up. -/
def fresh (s : State) : Nat × State := (Config.freeNat s.freeCtr, { s with freeCtr := s.freeCtr + 1 })

/-! ## Boundary -/

/-- Put a message on a port. -/
def emit (o : Out) (s : State) : State := { s with ports := { s.ports with out := s.ports.out ++ [o] } }

/-- The block has reported READY and is in service (R670). -/
def inService (s : State) : Bool := s.blk.bootState == 6

/-- Commands are executed: in service, no block reset under way or due (R709). The stewards run in every power state (R682). -/
def planeUp (s : State) : Bool := s.blk.bootState == 6 && s.err.bPending.isNone && (s.err.state != 1)

/-- The compute plane runs: its clocks are not gated in BLOCK-REST (R681). -/
def computeOn (s : State) : Bool := planeUp s && s.pm.block == 0

/-- BAR2 and BAR4 answer as in a block reset (R37, R717). -/
def resetWindow (s : State) : Bool := s.err.bPending.isSome || s.err.state == 1 || s.blk.bootState == 9

/-- BAR0 takes register writes. -/
def regsOn (s : State) : Bool := s.blk.bootState == 6 || s.blk.bootState == 9

/-- The current beat. -/
def beat (s : State) : Nat := s.pm.beat

/-- A beat-driven step of code `k` that falls at this beat and has not taken place yet (R691). -/
def oncePerBeat (k : Nat) (due : Bool) (f : State → State) (s : State) : State :=
  if due && !s.pm.done.contains k then f { s with pm := { s.pm with done := sinsert k s.pm.done } } else s

/-! ## Status codes (R22) -/

/-- The code of a status. -/
def Status.code (t : Status) : Nat :=
  match t with
  | .done => 0x00 | .donePoisoned => 0x01 | .faultAddress => 0x10 | .faultFormat => 0x11 | .faultTimeout => 0x12
  | .stalemate => 0x13 | .abandoned => 0x14 | .cancelled => 0x15 | .blockReset => 0x20 | .denied => 0x30
  | .busy => 0x31 | .raw c => c

/-- The status of a code. -/
def statusOf (c : Nat) : Status :=
  match c with
  | 0x00 => .done | 0x01 => .donePoisoned | 0x10 => .faultAddress | 0x11 => .faultFormat | 0x12 => .faultTimeout
  | 0x13 => .stalemate | 0x14 => .abandoned | 0x15 => .cancelled | 0x20 => .blockReset | 0x30 => .denied
  | 0x31 => .busy | c => .raw c

/-! ## Layout (R587, R742, R769) -/

/-- Sectors per partition. -/
def perPart (s : State) : Nat := 12 / s.fe.parts

/-- The partition that holds a sector. -/
def partOfSector (s : State) (n : Nat) : Nat := n / perPart s

/-- The sectors of a partition. -/
def sectorsOf (s : State) (p : Nat) : List Nat := (List.range 12).filter (fun n => decide (partOfSector s n = p))

/-- The sector of a logical array (R89). -/
def sectorOfArray (l : Nat) : Nat := l / 72

/-- The partition of a logical array. -/
def partOfArray (s : State) (l : Nat) : Nat := partOfSector s (sectorOfArray l)

/-- Partition p is confidential, or will be after the transaction in progress (R769). -/
def confPart (s : State) (p : Nat) : Bool :=
  bit s.fe.conf p || (match s.fe.reconf with | some r => bit r.conf p | none => false)

/-- The block is in confidential mode (R742, R743). -/
def confMode (s : State) : Bool :=
  s.fe.conf != 0 || (match s.fe.reconf with | some r => r.conf != 0 | none => false)

/-- Partition p is being scrubbed. -/
def scrubbing (s : State) (p : Nat) : Bool := s.fe.scrubbing.contains p

/-- Partition p is touched by a transaction in progress (R605). -/
def touching (s : State) (p : Nat) : Bool := s.fe.reconf.isSome && bit s.fe.touched p

/-- The own node ID (R381). -/
def nodeId (s : State) : Nat := field (regGet s 0xC00000) 0 12

/-! ## Access to numbered things -/

def vaiAt (s : State) (v : Nat) : Vai := tget {} s.fe.vai v
def ctxAt (s : State) (c : Nat) : Ctx := tget {} s.fe.ctx c
def queueAt (s : State) (q : Nat) : Queue := tget {} s.fe.q q
def fenceAt (s : State) (f : Nat) : Fence := tget {} s.fe.fences f
def graphAt (s : State) (g : Nat) : Graph := tget {} s.fe.graphs g
def allocAt (s : State) (a : Nat) : Alloc := tget {} s.fe.allocs a
def hqAt (s : State) (h : Nat) : Hq := tget {} s.fe.hq h
def partAt (s : State) (p : Nat) : Part := tget {} s.fe.part p
def portAt (s : State) (p : Nat) : Port := tget {} s.fab.port p
def srcAt (s : State) (n : Nat) : Src := tget {} s.ic.src n
def boxAt (s : State) (b : Nat) : Box := tget {} s.mbx.box b
def procAt (s : State) (p : Nat) : Proc := tget {} s.mbx.proc p
def lceAt (s : State) (n : Nat) : Lce1 := tget {} s.lce.unit n
def groupAt (s : State) (g : Nat) : Group := tget {} s.sg.group g
def chanAt (s : State) (c : Nat) : Chan := tget {} s.mem.chan c
def stackAt (s : State) (n : Nat) : Stack := tget {} s.mem.stack n
def regAt (s : State) (r : Nat) : Reg := tget {} s.rg.reg r
def twAt (s : State) (i : Nat) : W32 := tget 0 s.tw.val i
def barAt (s : State) (c : Nat) : Bar := tget {} s.tw.bar c

def modVai (v : Nat) (f : Vai → Vai) (s : State) : State := { s with fe := { s.fe with vai := tmod {} s.fe.vai v f } }
def modCtx (c : Nat) (f : Ctx → Ctx) (s : State) : State := { s with fe := { s.fe with ctx := tmod {} s.fe.ctx c f } }
def modQueue (q : Nat) (f : Queue → Queue) (s : State) : State := { s with fe := { s.fe with q := tmod {} s.fe.q q f } }
def modFence (i : Nat) (f : Fence → Fence) (s : State) : State :=
  { s with fe := { s.fe with fences := tmod {} s.fe.fences i f } }
def modGraph (g : Nat) (f : Graph → Graph) (s : State) : State :=
  { s with fe := { s.fe with graphs := tmod {} s.fe.graphs g f } }
def modAlloc (a : Nat) (f : Alloc → Alloc) (s : State) : State :=
  { s with fe := { s.fe with allocs := tmod {} s.fe.allocs a f } }
def modHq (h : Nat) (f : Hq → Hq) (s : State) : State := { s with fe := { s.fe with hq := tmod {} s.fe.hq h f } }
def modPart (p : Nat) (f : Part → Part) (s : State) : State := { s with fe := { s.fe with part := tmod {} s.fe.part p f } }
def modPort (p : Nat) (f : Port → Port) (s : State) : State :=
  { s with fab := { s.fab with port := tmod {} s.fab.port p f } }
def modSrc (n : Nat) (f : Src → Src) (s : State) : State := { s with ic := { s.ic with src := tmod {} s.ic.src n f } }
def modBox (b : Nat) (f : Box → Box) (s : State) : State := { s with mbx := { s.mbx with box := tmod {} s.mbx.box b f } }
def modProc (p : Nat) (f : Proc → Proc) (s : State) : State :=
  { s with mbx := { s.mbx with proc := tmod {} s.mbx.proc p f } }
def modLce (n : Nat) (f : Lce1 → Lce1) (s : State) : State :=
  { s with lce := { s.lce with unit := tmod {} s.lce.unit n f } }
def modGroup (g : Nat) (f : Group → Group) (s : State) : State :=
  { s with sg := { s.sg with group := tmod {} s.sg.group g f } }
def modChan (c : Nat) (f : Chan → Chan) (s : State) : State := { s with mem := { s.mem with chan := tmod {} s.mem.chan c f } }
def modStack (n : Nat) (f : Stack → Stack) (s : State) : State :=
  { s with mem := { s.mem with stack := tmod {} s.mem.stack n f } }
def modReg (r : Nat) (f : Reg → Reg) (s : State) : State := { s with rg := { s.rg with reg := tmod {} s.rg.reg r f } }
def modBar (c : Nat) (f : Bar → Bar) (s : State) : State := { s with tw := { s.tw with bar := tmod {} s.tw.bar c f } }

/-- The live task of a sequence number. -/
def taskOf (s : State) (seq : Nat) : Option Task := s.fe.tasks.find? (fun t => decide (t.seq = seq))

/-- Change the task of a sequence number. -/
def modTask (seq : Nat) (f : Task → Task) (s : State) : State :=
  { s with fe := { s.fe with tasks := s.fe.tasks.map (fun t => if t.seq = seq then f t else t) } }

/-- The partition of a context. -/
def partOfCtx (s : State) (c : Nat) : Nat := (ctxAt s c).part

/-- A context, or the VAI of a context, lies in a confidential partition. -/
def confCtx (s : State) (c : Nat) : Bool := confPart s (partOfCtx s c)

/-- VAI v lies in a confidential partition. -/
def confVai (s : State) (v : Nat) : Bool := decide ((vaiAt s v).part < 12) && confPart s (vaiAt s v).part

/-! ## Interrupt arrivals and notices (R626, R634, R635, R773) -/

/-- One arrival on a source: its counter saturates at 255. -/
def arrive (n : Nat) (s : State) : State := modSrc n (fun x => { x with count := sat 8 (x.count + 1) }) s

/-- The notice source of a host queue: 0 the manager queue, 1 + v the queue of VAI v. -/
def noticeSource (queue : Nat) : Nat := if queue = 0 then 32 else 831 + queue

/-- Firmware queues a notice and raises the notice source. With 256 held, they and this one become one overflow notice,
and the arrivals of the notices discarded go with them. -/
def notice (queue code detail : Nat) (s : State) : State :=
  let n := noticeSource queue
  if (s.ic.notices.filter (fun x => decide (x.queue = queue))).length < 256 then
    arrive n { s with ic := { s.ic with notices := s.ic.notices ++ [⟨queue, code, detail⟩] } }
  else
    let kept := s.ic.notices.filter (fun x => decide (x.queue ≠ queue)) ++ [⟨queue, 0xFF, 0⟩]
    modSrc n (fun x => { x with count := 1 }) { s with ic := { s.ic with notices := kept } }

/-! ## Error reports (R719-R722) -/

/-- The number of open records of the log. -/
def openRecs (s : State) : Nat := (s.err.tail + 2 ^ 32 - s.err.head) % 2 ^ 32

/-- Whether log slot `i` holds an open record. -/
def slotOpen (s : State) (i : Nat) : Bool := decide ((i + 4096 - s.err.head % 4096) % 4096 < openRecs s)

/-- The empty record of a slot never written. -/
def noRec : ErrRec :=
  { kind := 0, index := 0, type := 0, cls := 0, conf := false, suppressed := 0, first := 0, last := 0, detail := 0 }

/-- Interrupt source of a record's class. -/
def classSource (cls : Nat) : Nat := 33 + cls

/-- The origin of a report lies in a confidential partition (R722): an array, an LCE or a queue. -/
def originConf (s : State) (kind index : Nat) : Bool :=
  match kind with
  | 1 => decide (index < 864) && confPart s (partOfArray s index)
  | 2 => confPart s (partOfSector s (index / 4))
  | 7 => confVai s (queueAt s index).vai
  | _ => false

/-- A unit's report: it folds into the open record of its key, or opens a record and raises source 50 and the source of
its class, or is counted as lost (R721). -/
def report (kind index type cls : Nat) (conf : Bool) (detail : Nat) (s : State) : State :=
  match s.err.recs.find? (fun r => slotOpen s r.1 && decide (r.2.kind = kind ∧ r.2.index = index ∧ r.2.type = type)) with
  | some (i, r) =>
    let r := { r with suppressed := sat 32 (r.suppressed + 1), last := beat s }
    { s with err := { s.err with recs := tset noRec s.err.recs i r } }
  | none =>
    if openRecs s ≥ (if cls = 0 then 3840 else 4096) then { s with err := { s.err with lost := sat 32 (s.err.lost + 1) } }
    else
      let conf := conf || originConf s kind index
      let detail := if conf then detail / 2 ^ 48 * 2 ^ 48 else detail
      let r : ErrRec := ⟨kind, index, type, cls, conf, 0, beat s, beat s, detail⟩
      let recs := tset noRec s.err.recs (s.err.tail % 4096) r
      arrive (classSource cls) (arrive 50 { s with err := { s.err with recs := recs, tail := (s.err.tail + 1) % 2 ^ 32 } })

/-- A corrected or informational report. -/
def reportCe (kind index type detail : Nat) (s : State) : State := report kind index type 0 false detail s

/-- The detail of a report about a context: address and context number. -/
def detailOf (c addr : Nat) : Nat := addr % 2 ^ 48 + c % 512 * 2 ^ 48

/-- A B-class event. Before READY the block goes to FAILED (R667); in service a block reset falls due (R709); out of
service it is recorded only. -/
def bEvent (kind index type detail : Nat) (s : State) : State :=
  let s := report kind index type 2 false detail s
  let s := { s with err := { s.err with lastType := type } }
  if s.blk.bootState = 0 ∨ s.blk.bootState = 8 ∨ s.blk.bootState = 9 then s
  else if s.blk.bootState = 6 then { s with err := { s.err with bPending := some type } }
  else { s with blk := { s.blk with bootState := 8, cause := 0x0A } }

/-- A CE about the host attach port (R774). -/
def hostCe (s : State) : State := reportCe 8 0 0x05 0 s

end Sys2Proof.Machine
end

