-- ==== Sys2Proof/Machine/Memory.lean ====
section
/-!
DEFINITION. The two tiers: address map, reads, writes and poison marks at the point of coherence, the near-tier cache,
and the runs that a transfer queues at the controllers.
-/
namespace Sys2Proof.Machine
open Sys2Proof

/-! ## Address map (R8, R244, R256, R257) -/

/-- The far tier ends here. -/
def farTop : Nat := 0xF000000000
/-- Near-tier scratch begins here. -/
def scratchBase : Nat := 0x10000000000
/-- Bytes of a stack. -/
def stackSize : Nat := 0x1400000000
/-- Bytes of a near-tier step. -/
def stepSize : Nat := 0x20000000
/-- Bytes of a 1 GiB chunk. -/
def chunkSize : Nat := 0x40000000

def isFar (a : Nat) : Bool := decide (a < farTop)
def isScratch (a : Nat) : Bool := decide (scratchBase ≤ a) && decide (a < scratchBase + 2 ^ 32)
/-- The stack of a far-tier address. -/
def stackOf (a : Nat) : Nat := a / stackSize
/-- The granule index of an address within its stack. -/
def stackGranule (a : Nat) : Nat := a % stackSize / 4096
/-- The global pseudo-channel of a far-tier address. -/
def pcOf (a : Nat) : Nat := 64 * stackOf a + (stackGranule a % 64 ^^^ stackGranule a / 64 % 64)
/-- The scratch step of an address. -/
def stepOf (a : Nat) : Nat := (a - scratchBase) / stepSize

/-- A stack without storage: absent or failed (R279, R316). -/
def stackGone (s : State) (n : Nat) : Bool := (stackAt s n).state == 4 || (stackAt s n).state == 5

/-- The number of scratch steps requested last (R254). -/
def stepsWanted (s : State) : Nat :=
  match s.mem.ntNext with
  | some r => r.1
  | none => s.mem.steps

/-- Step k takes scratch accesses now (R246, R254). -/
def scratchServes (s : State) (k : Nat) : Bool := decide (k < stepsWanted s) && !s.mem.changing.contains k

/-- Step k serves as cache now. -/
def cacheServes (s : State) (k : Nat) : Bool := decide (stepsWanted s ≤ k) && decide (k < 7) && !s.mem.changing.contains k

/-- Whether a task, LCE, mover, engine or fabric request may use [a, a + n) (R9, R246, R279). -/
def localOk (s : State) (a n : Nat) : Bool :=
  if isFar a then decide (a + n ≤ farTop) && !stackGone s (stackOf a) && !stackGone s (stackOf (a + n - 1))
  else isScratch a && decide (a + n ≤ scratchBase + 2 ^ 32) && scratchServes s (stepOf a) && scratchServes s (stepOf (a + n - 1))

/-- [a, a + n) lies in the far tier or the near-tier scratch as R8 lays them out. -/
def inMemory (a n : Nat) : Bool :=
  if isFar a then decide (a + n ≤ farTop) else isScratch a && decide (a + n ≤ scratchBase + 2 ^ 32)

/-- Firmware is moving the data of a granule (R277): its storage still serves. -/
def moving (s : State) (g : Nat) : Bool := s.mem.moves.any (fun m => decide (m.1 = g))

/-- The storage behind an address is retired (R276, R278). -/
def retiredAt (s : State) (a : Nat) : Bool :=
  isFar a && (s.mem.retired.contains (a / 4096) ||
    (((chanAt s (pcOf a)).state == 1 || (chanAt s (pcOf a)).state == 2) && !moving s (a / 4096)))

/-! ## Bytes and marks -/

/-- `n` bytes from `a`. -/
def getBytes (t : Tbl Byte) (a n : Nat) : List Byte := (List.range n).map (fun i => tget 0 t (a + i))

/-- Write bytes from `a`. -/
def putBytes (t : Tbl Byte) (a : Nat) (l : List Byte) : Tbl Byte :=
  match l with
  | [] => t
  | b :: r => putBytes (tset 0 t a b) (a + 1) r

/-- Cut data at multiples of `k`: the address and bytes of each piece. -/
def cutAt (k fuel a : Nat) (l : List Byte) : List (Nat × List Byte) :=
  match fuel with
  | 0 => []
  | fuel + 1 =>
    if l.isEmpty then [] else (a, l.take (k - a % k)) :: cutAt k fuel (a + (k - a % k)) (l.drop (k - a % k))

/-- Cut a range at multiples of `k`: the address and length of each piece. -/
def spans (k fuel a n : Nat) : List (Nat × Nat) :=
  match fuel with
  | 0 => []
  | fuel + 1 => if n = 0 then [] else (a, min n (k - a % k)) :: spans k fuel (a + min n (k - a % k)) (n - min n (k - a % k))

/-- The pieces of [a, a + n) within multiples of `k`. -/
def spansOf (k a n : Nat) : List (Nat × Nat) := spans k (n / k + 2) a n

/-- The granule that holds an address carries the mark, or has no storage. -/
def poisonedAt (s : State) (a : Nat) : Bool := s.mem.poison.contains (a / 64) || retiredAt s a

/-- Some granule of [a, a + n) carries the mark. -/
def poisonIn (s : State) (a n : Nat) : Bool := (spansOf 64 a n).any (fun p => poisonedAt s p.1)

/-- A byte as a reader at the point of coherence sees it: all ones where the granule is retired (R276). -/
def memByte (s : State) (a : Nat) : Byte := if retiredAt s a then 0xFF else tget 0 s.mem.cells a

/-- Bytes as a reader at the point of coherence sees them. -/
def readMem (s : State) (a n : Nat) : List Byte := (List.range n).map (fun i => memByte s (a + i))

/-- The mark after a write of `n` bytes at `a` within one granule (R272). -/
def markAfter (poison : List Nat) (a n : Nat) (bad : Bool) : List Nat :=
  if bad then sinsert (a / 64) poison else if n = 64 then sremove (a / 64) poison else poison

/-- Write bytes that lie in one 64-byte granule; a retired granule discards them, with a CE (R276). -/
def writeGranule (a : Nat) (data : List Byte) (bad : Bool) (s : State) : State :=
  if retiredAt s a then reportCe 3 (pcOf a) 0x07 a s
  else { s with mem := { s.mem with
          cells := putBytes s.mem.cells a data, poison := markAfter s.mem.poison a data.length bad } }

/-- The migration log marks a write (R613). -/
def logWrite (a n : Nat) (s : State) : State :=
  if isFar a then
    each (spansOf 65536 a n) (fun p s =>
      match tget .free s.fe.ftOwn (p.1 / chunkSize) with
      | .vai v => if (vaiAt s v).log then modVai v (fun x => { x with devLog := sinsert (p.1 / 65536) x.devLog }) s else s
      | _ => s) s
  else s

/-- A write at the point of coherence: granule by granule; `bad i` says that piece `i` of the data carries the mark. -/
def writeMem (a : Nat) (data : List Byte) (bad : Nat → Bool) (s : State) : State :=
  let l := cutAt 64 data.length a data
  each (l.zip (List.range l.length)) (fun p s => writeGranule p.1.1 p.1.2 (bad p.2) s) (logWrite a data.length s)

/-- Write zeros over a range and clear its marks, without logging (R579, R601, R757). -/
def zeroMem (a n : Nat) (s : State) : State :=
  let cells := s.mem.cells.filter (fun c => decide (c.1 < a ∨ a + n ≤ c.1))
  let poison := s.mem.poison.filter (fun g => decide (64 * g + 64 ≤ a ∨ a + n ≤ 64 * g))
  { s with mem := { s.mem with cells := cells, poison := poison } }

/-- Add a number to a 64-bit word, wrapping (R266, R339). -/
def add64 (x y : Nat) : Nat := (x + y) % 2 ^ 64

/-! ## The near-tier cache (R249-R253). It holds presence only: it is write-through and never dirty (R250). -/

/-- The slice of a set (R252). -/
def sliceOf (set : Nat) : Nat := set % 12

/-- A line lies in the cache and its slice serves. -/
def cacheHit (s : State) (line : Nat) : Bool :=
  s.mem.cache.any (fun e => decide (e.1 = line) && !s.mem.inval.contains (sliceOf e.2.1) && cacheServes s e.2.2)

/-- Sets of a step of the cache: 512 MiB of 16 lines of 256 bytes (R245, R249). -/
def stepSets : Nat := 131072

/-- The set and step in which a line of partition p is placed: a set of the slices of the partition's sectors when the cache is
divided, any set when it is shared (R252). The hash is a free value. -/
def cachePlace (s : State) (line p : Nat) : Option (Nat × Nat) :=
  let h := Config.cacheSet line
  let secs := if s.mem.divided then sectorsOf s p else List.range 12
  let steps := (List.range 7).filter (fun k => cacheServes s k)
  if secs.isEmpty ∨ steps.isEmpty then none
  else
    let sl := secs.getD (h / 8 % secs.length) 0
    let set := if s.mem.divided then 12 * (h / 128 % ((stepSets + 11 - sl) / 12)) + sl else h / 8 % stepSets
    if s.mem.inval.contains (sliceOf set) then none else some (set, steps.getD (h % steps.length) 0)

/-- Make a line the most recently used, if it is held. -/
def cacheTouch (line : Nat) (s : State) : State :=
  match s.mem.cache.find? (fun e => decide (e.1 = line)) with
  | some e => { s with mem := { s.mem with cache := s.mem.cache.filter (fun x => decide (x.1 ≠ line)) ++ [e] } }
  | none => s

/-- Place a line, evicting the least recently used of a full set of 16. -/
def cacheFill (line p : Nat) (s : State) : State :=
  match cachePlace s line p with
  | none => s
  | some (set, st) =>
    let same := fun (e : Nat × Nat × Nat) => decide (e.2.1 = set ∧ e.2.2 = st)
    let rest := s.mem.cache.filter (fun x => decide (x.1 ≠ line))
    let rest := if (rest.filter same).length < 16 then rest
      else match rest.find? same with
        | some e => rest.filter (fun x => decide (x ≠ e))
        | none => rest
    { s with mem := { s.mem with cache := rest ++ [(line, set, st)] } }

/-! ## Runs (R260, R261, R291, R292) -/

/-- Queue one run at its pseudo-channel. Before READY regulators are not in force; where no transfer issues, none is
queued (R289, R295). -/
def queueRun (owner : RunOwner) (r a : Nat) (part : Bool) (s : State) : State :=
  if inService s && (chanAt s (pcOf a)).state == 0 then
    let run : Run := { owner := owner, page := a / 2048, part := part }
    { s with rg := { s.rg with queue := tmod {} s.rg.queue (14 * pcOf a + r) (fun q => { q with runs := q.runs ++ [run] }) } }
  else s

/-- One run's share of a far-tier access: the cache lookup in front of the controller, then the run. -/
def accessRun (owner : RunOwner) (r : Nat) (alloc : Option Nat) (write : Bool) (a n : Nat) (s : State) : State :=
  let line := a / 256
  let hit := cacheHit s line
  let s := if hit && !write then s else queueRun owner r a (write && n != 256) s
  if hit then cacheTouch line s
  else match alloc with
    | some p => cacheFill line p s
    | none => s

/-- The cache lookup and the runs of an access to [a, a + n), charged to regulator `r`; `alloc` names the partition
whose request may allocate lines (R251). Scratch moves no runs. -/
def access (owner : RunOwner) (r : Nat) (alloc : Option Nat) (write : Bool) (a n : Nat) (s : State) : State :=
  if isFar a then each (spansOf 256 a n) (fun p s => accessRun owner r alloc write p.1 p.2 s) s else s

/-- An access for context c, charged to its partition's regulator; the runs it moves are counted for its VAI (R755). -/
def accessC (owner : RunOwner) (c : Nat) (alloc : Option Nat) (write : Bool) (a n : Nat) (s : State) : State :=
  let k := ((spansOf 256 a n).filter (fun p => isFar p.1 && (write || !cacheHit s (p.1 / 256)))).length
  let s := if k = 0 then s else modVai (ctxAt s c).vai (fun x => { x with runs := x.runs + k }) s
  access owner (partOfCtx s c) alloc write a n s

/-- A run or a refresh of the reserved run times (R261, R287): the 14th queue. -/
def queueReserved (a : Nat) (refresh : Bool) (s : State) : State :=
  if inService s && (chanAt s (pcOf a)).state == 0 then
    let run : Run := { owner := .firmware, page := a / 2048, part := false, refresh := refresh }
    { s with rg := { s.rg with queue := tmod {} s.rg.queue (14 * pcOf a + 13) (fun q => { q with runs := q.runs ++ [run] }) } }
  else s

/-- The queues of a pseudo-channel that goes out of service are emptied: no transfer issues there (R289). -/
def dropChan (c : Nat) (s : State) : State :=
  { s with rg := { s.rg with queue := s.rg.queue.filter (fun q => decide (q.1 / 14 ≠ c)) } }

/-- The number of the answer that waits for an owner's runs. -/
def RunOwner.id (o : RunOwner) : Option Nat :=
  match o with
  | .eap _ i => some i | .host i => some i | .fabric i => some i | .update i => some i | .copy _ i => some i
  | .array _ => none | .lce _ => none | .mover _ => none | .front => none | .firmware => none

/-- Runs that answer i waits for have not issued. -/
def idWaits (s : State) (i : Nat) : Bool := s.rg.queue.any (fun q => q.2.runs.any (fun r => decide (r.owner.id = some i)))

/-- Some run of this owner still waits for a pip. -/
def runsWait (s : State) (o : RunOwner) : Bool := s.rg.queue.any (fun q => q.2.runs.any (fun r => decide (r.owner = o)))

/-- Drop the queued runs of an owner. -/
def dropRuns (o : RunOwner) (s : State) : State :=
  let queue := s.rg.queue.map (fun (k, q) => (k, { q with runs := q.runs.filter (fun r => decide (r.owner ≠ o)) }))
  { s with rg := { s.rg with queue := queue.filter (fun p => decide (p.2 ≠ ({} : RunQ))) } }

end Sys2Proof.Machine
end

