-- ==== Sys2Proof/Machine/Xlate.lean ====
section
/-!
DEFINITION. Translation in a context (R565-R570), the global space at the origin (R333, R334), requests to host memory
(R30, R33, R568), and the sealing of a confidential partition's host data (R745-R753).
-/
namespace Sys2Proof.Machine
open Sys2Proof

/-- A translation: target (0 block-local, 1 host, 2 global) and address, or a fault of KIND of R569; KIND 0 is a seal
fault (R747), which leaves no fault record. -/
inductive Xl where
  | ok (target addr : Nat)
  | fault (kind : Nat)
deriving DecidableEq, Repr

/-- What a translated access does: read, write, or atomic and tally operations (R568). -/
inductive Acc where
  | read | write | atomic
deriving DecidableEq, Repr

/-- VAI v holds the far-tier chunk or the scratch unit of an address (R567). -/
def granted (s : State) (v a : Nat) : Bool :=
  if isFar a then tget .free s.fe.ftOwn (a / chunkSize) == .vai v
  else isScratch a && tget .free s.fe.scrOwn ((a - scratchBase) / 0x4000000) == .vai v

/-- A whole page lies in the grants of VAI v. -/
def grantedAll (s : State) (v a n : Nat) : Bool := (spansOf 0x4000000 a n).all (fun p => granted s v p.1)

/-- Bytes that a leaf at a level maps. -/
def leafSize (e level : Nat) : Nat := if bit e 7 then 65536 else 4096 * 512 ^ level

/-- A leaf entry is well formed at its level (R566, R567). -/
def leafOk (e level : Nat) : Bool :=
  decide (level < 3) && (!bit e 7 || level == 0) && field e 8 4 == 0 && field e 5 2 == 0 && field e 2 2 != 3 &&
    alignDown e 4096 % leafSize e level == 0

/-- A table entry is well formed (R567). -/
def tableOk (e : Nat) : Bool := field e 8 4 == 0 && field e 5 2 == 0 && field e 2 2 == 0 && !bit e 4 && !bit e 7

/-- Walk the tables of VAI v from a table at a level: the leaf entry and its level, or a fault KIND. -/
def walk (s : State) (v va : Nat) (level table : Nat) : Except Nat (Nat × Nat) :=
  let a := table + 8 * field va (12 + 9 * level) 9
  let e := leNat (readMem s a 8)
  if !isFar table || !granted s v table || !localOk s a 8 then .error 4
  else if poisonIn s a 8 then .error 5
  else if !bit e 0 then .error 1
  else if bit e 1 then (if leafOk e level then .ok (e, level) else .error 3)
  else match level with
    | 0 => .error 3
    | n + 1 => if tableOk e then walk s v va n (alignDown e 4096) else .error 3

/-- The unit whose translation cache serves an owner of runs (R570, R571): an array its own, an LCE and a step mover that of their
sector, an engine path and the front end one of their own. -/
def xlUnit (o : RunOwner) : XlUnit :=
  match o with
  | .array l => .array l
  | .lce n => .sector (n / 4)
  | .mover m => .sector m
  | .copy m _ => .sector m
  | .eap e _ => .eap e
  | _ => .front

/-- The caches that a unit looks in: its own, and for an array that of its sector. -/
def xlUnits (u : XlUnit) : List XlUnit :=
  match u with
  | .array l => [u, .sector (l / 72)]
  | _ => [u]

/-- Translations that the cache of a unit holds: 64 of an array, 4,096 of a sector; no bound is stated of the others (R570). -/
def xlCap (u : XlUnit) : Option Nat :=
  match u with
  | .array _ => some 64
  | .sector _ => some 4096
  | _ => none

/-- A translation of a page that a unit's cache holds. -/
def TlbEnt.serves (t : TlbEnt) (s : State) (u : XlUnit) (c va : Nat) : Bool :=
  decide (t.unit = u ∧ t.ctx = c ∧ t.gen = (ctxAt s c).gen ∧ t.page = va / 4096)

/-- A cached translation of the page of `va` (R570). -/
def tlbFind (s : State) (o : RunOwner) (c va : Nat) : Option Nat :=
  (s.fe.tlb.find? (fun t => (xlUnits (xlUnit o)).any (fun u => t.serves s u c va))).map (fun t => t.leaf)

/-- The leaf entry and level that translate `va`: from a translation cache when it holds one, else from a walk. -/
def leafOf (s : State) (o : RunOwner) (c va : Nat) : Except Nat (Nat × Nat) :=
  match tlbFind s o c va with
  | some x => .ok (x / 4, x % 4)
  | none => walk s (ctxAt s c).vai va 3 (ctxAt s c).root

/-- The seal window of a context that holds [va, va + n) (R747). -/
def windowOf (s : State) (c va n : Nat) : Option Window :=
  s.csb.windows.find? (fun w => decide (w.ctx = c ∧ w.base ≤ va ∧ va + n ≤ w.base + w.size))

/-- The binding in force of a partition: its newest generation. -/
def bindingOf (s : State) (p : Nat) : Option Binding := s.csb.bindings.find? (fun b => decide (b.part = p))

/-- A host-target access is allowed to a context: in a confidential partition it lies in the seal window and a binding is
in force. -/
def sealOk (s : State) (c va n : Nat) : Bool :=
  !confCtx s c || ((windowOf s c va n).isSome && (bindingOf s (partOfCtx s c)).isSome)

/-- A global address leaves by a valid route to a node that is no storage node; 0xFFF is no node (R333, R334). -/
def routeOk (s : State) (node : Nat) : Bool :=
  let r := regGet s (0xC10000 + 4 * node)
  bit r 31 && decide (field r 29 2 < 2) && decide (node ≠ 0xFFF)

/-- Where a block-local access of VAI v goes. -/
def localXl (s : State) (v page size a n : Nat) : Xl :=
  if grantedAll s v page size && localOk s a n then .ok 0 a else .fault 4

/-- Translate an access of a unit to `n` bytes at `va` in context c; it lies within one 4 KiB page. -/
def xl (s : State) (o : RunOwner) (c va n : Nat) (acc : Acc) : Xl :=
  if 2 ^ 48 ≤ va then .fault 6
  else match leafOf s o c va with
    | .error k => .fault k
    | .ok (e, level) =>
      let size := leafSize e level
      let page := alignDown e 4096
      let a := page + va % size
      let v := (ctxAt s c).vai
      if acc ≠ .read ∧ !bit e 4 then .fault 2
      else if field e 2 2 = 0 then localXl s v page size a n
      else if field e 2 2 = 1 then
        (if acc = .atomic then .fault 8 else if sealOk s c va n then .ok 1 a else .fault 0)
      else if field a 48 4 ≠ 0 then .fault 7
      else if field a 52 12 = nodeId s ∧ nodeId s ≠ 0xFFF then localXl s v (page % 2 ^ 48) size (a % 2 ^ 48) n
      else if !routeOk s (field a 52 12) then .fault 7
      else .ok 2 a

/-- The addresses of the entries that a walk reads, from a table at a level. -/
def walkReads (s : State) (va level table : Nat) : List Nat :=
  let a := table + 8 * field va (12 + 9 * level) 9
  let e := leNat (readMem s a 8)
  match level with
  | 0 => [a]
  | n + 1 => if bit e 0 && !bit e 1 then a :: walkReads s va n (alignDown e 4096) else [a]

/-- A unit's cache takes a translation; a full one gives up its oldest (DESIGN CHOICE, log entry 26). -/
def tlbPut (c va leaf : Nat) (u : XlUnit) (s : State) : State :=
  if s.fe.tlb.any (fun t => t.serves s u c va) then s
  else
    let own := s.fe.tlb.filter (fun t => decide (t.unit = u))
    let l := match xlCap u, own with
      | some n, old :: _ => if n ≤ own.length then s.fe.tlb.erase old else s.fe.tlb
      | _, _ => s.fe.tlb
    { s with fe := { s.fe with tlb := l ++ [{ unit := u, ctx := c, gen := (ctxAt s c).gen, page := va / 4096, leaf := leaf }] } }

/-- The caches keep a translation used; its walk read the tables through the near-tier cache lookup, and each read is charged
(R260, R570). -/
def xlFill (owner : RunOwner) (c va : Nat) (s : State) : State :=
  match leafOf s owner c va with
  | .ok (e, level) =>
    let reads := if (tlbFind s owner c va).isSome then [] else walkReads s va 3 (ctxAt s c).root
    let s := each reads (fun a s => accessC owner c none false a 8 s) s
    each (xlUnits (xlUnit owner)) (tlbPut c va (4 * e + level)) s
  | .error _ => s

/-- Drop the cached translations of `count` pages of a context from `va` (R571). -/
def tlbDrop (c va count : Nat) (s : State) : State :=
  let tlb := s.fe.tlb.filter (fun t => !decide (t.ctx = c ∧ va / 4096 ≤ t.page ∧ t.page < va / 4096 + count))
  { s with fe := { s.fe with tlb := tlb } }

/-- The first fault of a context is recorded, and all are counted (R569, R586). SOURCE: 1 array, 2 LCE, 3 EAP, 4 step
mover, 5 front end. -/
def recordFault (c kind source va : Nat) (s : State) : State :=
  if kind = 0 ∨ 16 ≤ kind then s
  else modCtx c (fun x =>
    let x := { x with count := sat 16 (x.count + 1) }
    if x.kind = 0 then { x with kind := kind, source := source, fva := va % 2 ^ 48 } else x) s

/-- Every page that [va, va + n) touches translates; the first fault otherwise. -/
def xlRange (s : State) (o : RunOwner) (c va n : Nat) (acc : Acc) : Option (Nat × Nat) :=
  ((spansOf 4096 va n).filterMap (fun p => match xl s o c p.1 p.2 acc with
    | .ok _ _ => none
    | .fault k => some (k, p.1))).head?

/-! ## Host memory -/

/-- The largest OREQ write and read (R30). -/
def maxWrite (s : State) : Nat := min 512 (128 * 2 ^ s.blk.mps)
def maxRead (s : State) : Nat := min 4096 (128 * 2 ^ s.blk.mrrs)

/-- The header of a request for `n` bytes at `a` (R27). Requester ID, IDO, NS and traffic class are the integration's. -/
def oreqHdr (a n : Nat) : OreqHdr :=
  let d := ceilDiv (a % 4 + n) 4
  let first := if d = 1 then 2 ^ n - 1 else 15
  { dwords := d, firstBe := first * 2 ^ (a % 4) % 16, lastBe := if d ≤ 1 then 0 else 2 ^ ((a + n + 3) % 4 + 1) - 1,
    requester := Config.requesterId, ido := Config.oreqIdo, ns := Config.oreqNs, tc := Config.oreqTc }

/-- The CE of a host completion in error (R33): once per context for the first. -/
def hostPoisonCe (c : Nat) (s : State) : State :=
  if s.ports.hostCe.contains c then s
  else report 8 0 0x04 0 (confCtx s c) (detailOf c 0) { s with ports := { s.ports with hostCe := sinsert c s.ports.hostCe } }

/-- The CE of a sealed unit that does not open (R749). -/
def sealCe (c : Nat) (s : State) : State := report 8 0 0x04 0 true (detailOf c 0) s

/-! ## Reads of host memory (R30) -/

/-- A read may be sent: at most 4,096 are outstanding (R30). -/
def readRoom (s : State) : Bool := decide ((s.ports.oreq.filter (fun x => x.sent)).length < 4096)

/-- A 14-bit tag that no outstanding read holds (R27, R583). -/
def freeOreq (s : State) : Nat :=
  let busy := fun t => s.ports.oreq.any (fun r => r.sent && decide (r.tag = t))
  (((List.range (s.ports.oreq.length + 1)).map (fun i => (s.ports.oreqTag + i) % 2 ^ 14)).find? (fun t => !busy t)).getD 0

/-- The first read that waits is sent with a tag. -/
def sendFirst (t : Nat) (l : List OreqRead) : List OreqRead :=
  match l with
  | [] => []
  | r :: rest => if r.sent then r :: sendFirst t rest else { r with tag := t, sent := true } :: rest

/-- Reads that wait are sent as far as there is room. -/
def nextReads (fuel : Nat) (s : State) : State :=
  match fuel with
  | 0 => s
  | n + 1 => match s.ports.oreq.find? (fun r => !r.sent) with
    | none => s
    | some r =>
      if readRoom s then
        let t := freeOreq s
        let s := { s with ports := { s.ports with oreq := sendFirst t s.ports.oreq, oreqTag := (t + 1) % 2 ^ 14 } }
        nextReads n (emit (.oreqRead t r.addr r.pasid r.len (oreqHdr r.addr r.len)) s)
      else s

/-- Ask for a read: it is sent at once or waits. -/
def askRead (r : OreqRead) (s : State) : State :=
  nextReads 1 { s with ports := { s.ports with oreq := s.ports.oreq ++ [{ r with sent := false }] } }

/-- The sealed units of which a read is under way or waits. -/
def unitsLeft (l : List OreqRead) (us : List SealRead) : List SealRead :=
  us.filter (fun u => l.any (fun r => decide ((r.crypt.map (fun k => k.1)) = some u.id)))

/-- Reads lose their owner: those that wait are not sent, those that are outstanding are consumed without effect. -/
def dropReads (late : Bool) (q : Nat) (f : OreqRead → Bool) (s : State) : State :=
  let l := s.ports.oreq.filter (fun r => !(f r && !r.sent))
  let l := l.map (fun r => if f r then { r with use := .dropped late q } else r)
  { s with ports := { s.ports with oreq := l, units := unitsLeft l s.ports.units } }

/-- Pieces of a host transfer: no piece above `m` bytes or across a 4 KiB boundary. -/
def hostPieces (m a : Nat) (data : List Byte) : List (Nat × List Byte) :=
  ((cutAt 4096 data.length a data).map (fun p =>
    (List.range (ceilDiv p.2.length m)).map (fun i => (p.1 + m * i, (p.2.drop (m * i)).take m)))).flatten

/-- An OREQ write for the manager: no PASID, no RO (R594). -/
def hostWriteM (a : Nat) (data : List Byte) (s : State) : State :=
  each (hostPieces (maxWrite s) a data) (fun p s => emit (.oreqWrite p.1 none false false p.2 (oreqHdr p.1 p.2.length)) s) s

/-- The host log of VAI v marks a page (R613). -/
def logHost (v page : Nat) (s : State) : State :=
  if (vaiAt s v).log then
    modVai v (fun x => if x.hostLog.contains page then x
      else if x.hostLog.length < 65536 then { x with hostLog := sinsert page x.hostLog }
      else { x with overflow := true }) s
  else s

/-- OREQ writes for VAI v, with its PASID, in the clear. -/
def hostWriteV (v a : Nat) (data : List Byte) (ro ep : Bool) (s : State) : State :=
  each (hostPieces (maxWrite s) a data) (fun p s =>
    emit (.oreqWrite p.1 (some (vaiAt s v).pasid) ro ep p.2 (oreqHdr p.1 p.2.length)) (logHost v (p.1 / 4096) s)) s

/-- The additional authenticated data of a seal unit (R748). -/
def sealAad (c gen va : Nat) : List Byte := leBytes 2 c ++ leBytes 6 gen ++ leBytes 8 va

/-- The metadata of a seal unit (R748). -/
def sealMeta (tag : List Byte) (counter gen : Nat) : List Byte := padTo tag 16 ++ leBytes 8 counter ++ leBytes 8 gen

/-- The host address of the metadata of the unit at `va` in a window: META_BASE need not lie in the window (DESIGN CHOICE). -/
def metaAddr (s : State) (c : Nat) (w : Window) (va : Nat) (write : Bool) : Option Nat :=
  let m := w.metaAt + 32 * ((va - w.base) / 512)
  match leafOf s .front c m with
  | .ok (e, level) =>
    if 2 ^ 48 ≤ m ∨ field e 2 2 ≠ 1 ∨ (write ∧ !bit e 4) then none else some (alignDown e 4096 + m % leafSize e level)
  | .error _ => none

/-- Seal one unit and write it before its metadata (R750). -/
def sealUnit (c : Nat) (w : Window) (b : Binding) (va a : Nat) (plain : List Byte) (ro ep : Bool) (s : State) : State :=
  let v := (ctxAt s c).vai
  let key := Config.sealKey b.session true b.part b.gen
  let r := Config.gcmSeal key (2 ^ 95 + b.counter) (sealAad c b.gen va) plain
  let bs := s.csb.bindings.map (fun x => if x = b then { x with counter := x.counter + 1 } else x)
  let s := hostWriteV v a r.1 ro ep { s with csb := { s.csb with bindings := bs } }
  match metaAddr s c w va true with
  | some m => hostWriteV v m (sealMeta r.2 b.counter b.gen) ro false s
  | none => s

/-- Read a piece of a context's host memory, in reads of HAP_MRRS at most. -/
def oreqAsk (a n c : Nat) (use : ReadUse) (dest : Nat) (crypt : Option (Nat × Nat)) (s : State) : State :=
  let pasid := (vaiAt s (ctxAt s c).vai).pasid
  each (spansOf 4096 a n) (fun p s =>
    each (List.range (ceilDiv p.2 (maxRead s))) (fun i s =>
      let o := maxRead s * i
      let at1 := p.1 - a + o
      askRead { tag := 0, addr := p.1 + o, len := min (maxRead s) (p.2 - o), ctx := some c, pasid := some pasid, use := use,
                dest := dest + at1, crypt := crypt.map (fun k => (k.1, k.2 + at1)) } s) s) s

/-- Read a sealed unit whole, with its metadata (R749). `crypt`: the number of the unit. -/
def unitAsk (c : Nat) (w : Window) (va a : Nat) (use : ReadUse) (crypt : Option Nat) (s : State) : State :=
  let s := oreqAsk a 512 c use 0 (crypt.map (fun i => (i, 0))) s
  match metaAddr s c w va false with
  | some m => oreqAsk m 32 c use 512 (crypt.map (fun i => (i, 512))) s
  | none => s

/-- A write of part or all of one unit. One of a part reads the unit first: the bytes it does not cover are those that the unit held, and
the check may fail, which poisons the merged unit. Both lie in host memory: free values here (R750). -/
def sealPiece (c va a : Nat) (data : List Byte) (ro ep : Bool) (s : State) : State :=
  match windowOf s c va data.length, bindingOf s (partOfCtx s c) with
  | some w, some b =>
    if data.length = 512 then sealUnit c w b va a data ro ep s
    else
      let o := va % 512
      let s := unitAsk c w (va - o) (a - o) .stage none s
      let (x, s) := fresh s
      let (y, s) := fresh s
      let failed := y % 2 == 1
      let s := if failed then sealCe c s else s
      let old := leBytes 512 x
      sealUnit c w b (va - o) (a - o) (old.take o ++ data ++ old.drop (o + data.length)) ro (ep || failed) s
  | _, _ => s

/-- A host-target write of a context at `va`, translated to `a`: sealed in a confidential partition. -/
def hostWriteC (c va a : Nat) (data : List Byte) (ro ep : Bool) (s : State) : State :=
  if confCtx s c then
    each (cutAt 512 data.length va data) (fun p s => sealPiece c p.1 (a + (p.1 - va)) p.2 ro ep s) s
  else hostWriteV (ctxAt s c).vai a data ro ep s

/-- Open one sealed unit: 512 bytes of ciphertext and 32 of metadata. None when the tag fails, the counter is 0 or the
generation is not one of the two newest (R746, R749). -/
def openUnit (s : State) (c va : Nat) (l : List Byte) : Option (List Byte) :=
  match bindingOf s (partOfCtx s c) with
  | none => none
  | some b =>
    let gen := byteAt l (512 + 24)
    let counter := fieldAt l (512 + 16) 8
    if counter = 0 ∨ ¬(gen = b.gen ∨ gen + 1 = b.gen) then none
    else Config.gcmOpen (Config.sealKey b.session false b.part gen) counter (sealAad c gen va)
      (l.take 512) ((l.drop 512).take 16)

/-- Read a host piece for an array: pieces of HAP_MRRS, and in a confidential partition whole seal units with their metadata (R749). -/
def hostRead (c va a n : Nat) (use : ReadUse) (dest : Nat) (s : State) : State :=
  if confCtx s c then
    each (spansOf 512 va n) (fun p s =>
      match windowOf s c p.1 p.2 with
      | some w =>
        let o := p.1 % 512
        let i := s.ports.unitCtr
        let u : SealRead := { id := i, ctx := c, va := p.1, n := p.2, dest := dest + (p.1 - va) }
        unitAsk c w (p.1 - o) (a + (p.1 - va) - o) use (some i)
          { s with ports := { s.ports with units := s.ports.units ++ [u], unitCtr := i + 1 } }
      | none => s) s
  else oreqAsk a n c use dest none s

/-- What a context reads from host memory. Outside a confidential partition the operand holds the bytes; in one it holds
each seal unit that [va, va + n) touches with its metadata, and a unit that does not open is delivered marked, with a CE
(R749). The answer: the bytes and whether they carry the mark. -/
def hostBytes (s : State) (c va n : Nat) (h : HostData) : List Byte × Bool :=
  if confCtx s c then
    let first := alignDown va 512
    let units := (List.range (ceilDiv (va + n - first) 512)).map (fun i =>
      let l := padTo (h.bytes.drop (544 * i)) 544
      match openUnit s c (first + 512 * i) l with
      | some p => (padTo p 512, false)
      | none => (l.take 512, true))
    (((units.map (fun u => u.1)).flatten.drop (va - first)).take n, h.poison || units.any (fun u => u.2))
  else (padTo (h.bytes.take n) n, h.poison)

/-- What has come of a piece of control data at another node. -/
def fetchOf (s : State) (c a n : Nat) : FetchRes :=
  ((s.fab.fetches.find? (fun f => decide (f.ctx = c ∧ f.addr = a ∧ f.len = n ∧ f.res ≠ .waiting))).map (fun f => f.res)).getD .waiting

/-- Control data at a global address: bytes and mark, or why there is none: 16 refused, 17 refused with FAULT_FORMAT, 18 not there. -/
def fetchBytes (s : State) (c : Nat) (l : List (Nat × Nat)) : Except Nat (List Byte × Bool) :=
  match l with
  | [] => .ok ([], false)
  | p :: r => match fetchOf s c p.1 p.2, fetchBytes s c r with
    | .waiting, _ => .error 18
    | .refused st, _ => .error (if st = .faultFormat then 17 else 16)
    | .data _ _, .error k => .error k
    | .data d m, .ok q => .ok (padTo d p.2 ++ q.1, decide (m ≠ 0) || q.2)

/-- The mark of a 64-byte granule of control data fetched from another node. -/
def fetchMark (s : State) (c a : Nat) : Bool :=
  s.fab.fetches.any (fun f => decide (f.ctx = c ∧ f.addr ≤ a ∧ a < f.addr + f.len) && (match f.res with
    | .data _ m => bit m ((a - f.addr) / 64) | _ => false))

/-- Bytes of the operand that a read of [va, va + n) within a page takes: in a confidential partition each seal unit with its
metadata. -/
def hostLen (s : State) (c va n : Nat) : Nat := if confCtx s c then 544 * ceilDiv (va + n - alignDown va 512) 512 else n

/-- The operand's bytes that are left after a read that took `n` of them. -/
def hostRest (h : HostData) (n : Nat) : HostData := { h with bytes := h.bytes.drop n }

/-- Bytes of the operand that a read of pages takes: those of the host pages among them. -/
def hostTaken (s : State) (o : RunOwner) (c : Nat) (l : List (Nat × Nat)) : Nat :=
  (l.map (fun p => match xl s o c p.1 p.2 .read with | .ok 1 _ => hostLen s c p.1 p.2 | _ => 0)).foldl (fun a b => a + b) 0

/-- Control data page by page: block-local bytes, those of the operand for host pages, those fetched for pages of another node. -/
def readPages (s : State) (o : RunOwner) (c : Nat) (l : List (Nat × Nat)) (h : HostData) : Except Nat (List Byte × Bool) :=
  match l with
  | [] => .ok ([], false)
  | p :: r =>
    let cons := fun (d : List Byte × Bool) (h : HostData) => match readPages s o c r h with
      | .error k => .error k
      | .ok q => .ok (d.1 ++ q.1, d.2 || q.2)
    match xl s o c p.1 p.2 .read with
    | .fault k => .error k
    | .ok 0 a => cons (readMem s a p.2, poisonIn s a p.2) h
    | .ok 1 _ => cons (hostBytes s c p.1 p.2 h) (hostRest h (hostLen s c p.1 p.2))
    | .ok _ a => match fetchBytes s c (spansOf 512 a p.2) with
      | .error k => .error k
      | .ok d => cons d h

/-- Control data that a step of the front end, an LCE, a mover or an array's start reads at `va` in context c: bytes and mark, or the
fault. -/
def readCtl (s : State) (o : RunOwner) (c va n : Nat) (h : HostData) : Except Nat (List Byte × Bool) :=
  match xlRange s o c va n .read with
  | some k => .error k.1
  | none => readPages s o c (spansOf 4096 va n) h

/-- Bytes of the operand that a read of [va, va + n) takes. -/
def hostUsed (s : State) (o : RunOwner) (c va n : Nat) : Nat := hostTaken s o c (spansOf 4096 va n)

/-- Some of the operand's bytes for pages of [va, va + n) carry the mark (R33, R749). -/
def hostBad (s : State) (o : RunOwner) (c va n : Nat) (h : HostData) : Bool :=
  let ps := spansOf 4096 va n
  ps.any (fun p => match xl s o c p.1 p.2 .read with
    | .ok 1 _ => (hostBytes s c p.1 p.2 (hostRest h (hostTaken s o c (ps.takeWhile (fun q => decide (q ≠ p)))))).2
    | _ => false)

/-- What a read of control data leaves: cache lookups and runs, the translations cached, and the CE of a host completion in error or of a
unit that does not open (R33, R749). -/
def touchCtl (owner : RunOwner) (c va n : Nat) (h : HostData) (s : State) : State :=
  let bad := hostBad s owner c va n h
  let s := each (spansOf 4096 va n) (fun p s => match xl s owner c p.1 p.2 .read with
    | .ok 0 a => accessC owner c none false a p.2 (xlFill owner c p.1 s)
    | .ok _ _ => xlFill owner c p.1 s
    | .fault _ => s) s
  if !bad then s else if h.poison then hostPoisonCe c s else sealCe c s

end Sys2Proof.Machine
end

