-- ==== Sys2Proof/Machine/Link.lean ====
section
/-!
DEFINITION. Packets and their wire form (R329), flits (R322, R323), credits and the replay buffer (R326-R328), routes and
ports (R350-R354), requests of the origin (R343-R347) and Ethernet frames (R357-R359).
-/
namespace Sys2Proof.Machine
open Sys2Proof

/-! ## Wire form -/

/-- A request's OPC has bit 7 clear (R330). -/
def isRequest (p : Packet) : Bool := decide (p.opc < 0x80)

/-- The wire form of a packet: the header of R329 and the data. -/
def packetBytes (p : Packet) : List Byte :=
  leBytes 1 p.opc ++ leBytes 1 (p.level % 4 + 4 * (p.ch % 4) + 32 * b2n p.lost) ++ leBytes 2 (p.src % 4096) ++
  leBytes 2 (p.dst % 4096) ++ leBytes 2 (if p.opc = 0x01 then p.len else p.data.length) ++ leBytes 3 p.tag ++ leBytes 1 p.gen ++ leBytes 1 p.status ++
  leBytes 1 p.pmask ++ leBytes 2 p.deadline ++ leBytes 6 p.arg ++ leBytes 2 (p.deadline / 65536) ++ leBytes 8 p.operand ++
  p.data

/-- The packet of a wire form. -/
def packetOf (l : List Byte) : Packet :=
  { opc := byteAt l 0, level := field (byteAt l 1) 0 2, ch := field (byteAt l 1) 2 2, lost := bit (byteAt l 1) 5,
    src := fieldAt l 2 2 % 4096, dst := fieldAt l 4 2 % 4096, tag := fieldAt l 8 3, gen := byteAt l 11,
    status := byteAt l 12, pmask := byteAt l 13, deadline := fieldAt l 14 2 + 65536 * fieldAt l 22 2,
    arg := fieldAt l 16 6, operand := fieldAt l 24 8, len := if byteAt l 0 = 0x01 then fieldAt l 6 2 else 0,
    data := (l.drop 32).take (if byteAt l 0 = 0x01 then 0 else fieldAt l 6 2) }

/-- Bytes that the packet beginning a wire form takes on a link: whole units of 16. -/
def wireLen (l : List Byte) : Nat := 16 * ceilDiv (32 + (if byteAt l 0 = 0x01 then 0 else fieldAt l 6 2)) 16

/-- Units that a packet takes on a link. -/
def packetUnits (p : Packet) : Nat := ceilDiv (32 + p.data.length) 16

/-- The virtual channel of a packet (R325). -/
def vcOf (p : Packet) : Nat := (if isRequest p then 0 else 4) + p.level % 4

/-- One bit of CRC-32C. -/
def crcBit (c : BitVec 32) : BitVec 32 := if c % 2 = 1 then (c >>> 1) ^^^ 0x82F63B78 else c >>> 1

/-- One byte of CRC-32C. -/
def crcByte (c : BitVec 32) (b : Byte) : BitVec 32 :=
  (List.range 8).foldl (fun c _ => crcBit c) (c ^^^ b.zeroExtend 32)

/-- CRC-32C (Castagnoli). -/
def crc32c (l : List Byte) : Nat := ((l.foldl crcByte 0xFFFFFFFF) ^^^ 0xFFFFFFFF).toNat

/-- The link header of R323. -/
def linkHdr (seq ack : Nat) (nak : Bool) (kind vc count start : Nat) : W64 :=
  w64 (seq % 4096 * 2 ^ 52 + ack % 4096 * 2 ^ 40 + b2n nak * 2 ^ 39 + kind * 2 ^ 37 + vc * 2 ^ 34 + count % 8192 * 2 ^ 21 +
    start * 2 ^ 6)

/-! ## Ports -/

/-- The register group of a port. -/
def portReg (p off : Nat) : Nat := 0xC01000 + 0x100 * p + off

/-- The MODE of a port (R317). -/
def portMode (s : State) (p : Nat) : Nat := field (regGet s (portReg p 0)) 30 2

/-- BOUNDARY of a port: true for TAG. -/
def portTag (s : State) (p : Nat) : Bool := bit (regGet s (portReg p 0)) 27

/-- A port that carries packets: UP or DEGRADED. -/
def portUp (s : State) (p : Nat) : Bool := (portAt s p).state == 2 || (portAt s p).state == 3

/-- A port that flows keep: one that is up, or one that retrains with its state kept, where packets wait (R352, R370). -/
def portServes (s : State) (p : Nat) : Bool := portUp s p || ((portAt s p).state == 4 && (portAt s p).kept)

/-- A port counts a packet or frame dropped. -/
def countDrop (p : Nat) (s : State) : State := modPort p (fun x => { x with drop := x.drop + 1 }) s

/-! ## Flits -/

/-- The bytes of a flit that its CRC covers (R322). -/
def flitBytes (f : Flit) : List Byte := leBytes 8 f.lhdr.toNat ++ padTo f.units.flatten 240 ++ leBytes 4 f.rsvd.toNat

/-- The CRC of a flit is right (R322, R328). -/
def flitIntact (f : Flit) : Bool := decide (f.crc.toNat = crc32c (flitBytes f))

/-- A flit of a header and a body: units that carry nothing are zero (R322, R323). -/
def mkFlit (h : W64) (units : List (List Byte)) : Flit :=
  let f : Flit := { lhdr := h, units := units ++ List.replicate (15 - units.length) (List.replicate 16 0), rsvd := 0, crc := 0 }
  { f with crc := w32 (crc32c (flitBytes f)) }

/-- The virtual channel whose credits the next flit returns, and how many. -/
def nextGive (give : List Nat) : Nat × Nat :=
  match (List.range 8).find? (fun v => decide (give.getD v 0 ≠ 0)) with
  | some v => (v, min 8191 (give.getD v 0))
  | none => (0, 0)

/-- Send one flit: its header carries the acknowledgement and credits to return. Only a data flit advances SEQ and enters
the replay buffer. -/
def sendFlit (p : Nat) (data nak : Bool) (units : List (List Byte)) (start : Nat) (s : State) : State :=
  let x := portAt s p
  let g := nextGive x.give
  let f := mkFlit (linkHdr x.txSeq (x.rxSeq + 4095) nak (if data then 0 else 1) g.1 g.2 start) units
  let x := { x with give := lset x.give g.1 (x.give.getD g.1 0 - g.2), tx := x.tx + 1 }
  let x := if data then { x with txSeq := (x.txSeq + 1) % 4096, replay := x.replay ++ [f] } else x
  emit (.flit p f) (modPort p (fun _ => x) s)

/-- The flits of a packet: whole consecutive units, the first of the first flit beginning the packet. -/
def packetFlits (k : Packet) : List (List (List Byte)) :=
  let w := padTo (packetBytes k) (16 * packetUnits k)
  let us := chunks 16 w.length w
  chunks 15 us.length us

/-- A packet's credits and room in the replay buffer are there. -/
def canSend (x : Port) (k : Packet) : Bool :=
  decide (packetUnits k ≤ x.credits.getD (vcOf k) 0) && decide (x.replay.length + (packetFlits k).length ≤ 2048)

/-- `n` credits of virtual channel v leave the receive buffer of a port: the next flit returns them (R326). -/
def giveBack (p v n : Nat) (s : State) : State :=
  let s := modPort p (fun x => { x with give := lset x.give v (x.give.getD v 0 + n) }) s
  if portUp s p && portMode s p == 1 && !(portAt s p).paused then sendFlit p false false [] 0 s else s

/-- A packet leaves a port's queue: the receive buffer that it occupied is free. -/
def freeSource (w : Waiting) (s : State) : State :=
  match w.src with
  | some (q, v) => giveBack q v (packetUnits w.pkt) s
  | none => s

/-! ## Timers and deadlines (R345, R346) -/

/-- HOLD_MS and REQ_TMO in units of 100 us (R345). -/
def holdMs (s : State) : Nat := max 1 (field (regGet s 0xC0000C) 8 8)
def reqTmo (s : State) : Nat :=
  let t := field (regGet s 0xC0000C) 16 16
  if t ≤ 10 * holdMs s then 10 * (holdMs s + 1) else t

/-- The deadline of a request sent now (R346). -/
def deadline (s : State) : Nat := (beat s + ceilDiv (reqTmo s * 100000) 1024) % 2 ^ 32

/-- A deadline has passed, with wrap within 2^31 beats. -/
def latePast (s : State) (d : Nat) : Bool := decide (0 < (beat s + 2 ^ 32 - d) % 2 ^ 32) &&
  decide ((beat s % 2 ^ 32 + 2 ^ 32 - d) % 2 ^ 32 < 2 ^ 31)

/-- The packet as it leaves: an own request gets its deadline at its first sending. -/
def stamped (s : State) (w : Waiting) : Packet := if w.own then { w.pkt with deadline := deadline s } else w.pkt

/-! ## Routes (R350, R352) -/

/-- The route entry of a node. -/
def routeOf (s : State) (n : Nat) : Nat := regGet s (0xC10000 + 4 * n)

/-- A route is valid: KIND 3 counts as not valid, the entry of the own node is ignored, and 0xFFF is no node (R333, R390). -/
def routeValid (s : State) (n : Nat) : Bool :=
  bit (routeOf s n) 31 && decide (field (routeOf s n) 29 2 ≠ 3) && decide (n ≠ nodeId s) && decide (n ≠ 0xFFF)

/-- The port a channel uses towards a node: PORT_A for channels 0 and 1 and PORT_B for 2 and 3 when both serve, otherwise
the one that serves; PORT_A while none does. An Ethernet peer that is down is reached by PORT_B (R358). -/
def choosePort (s : State) (n ch : Nat) : Nat :=
  let r := routeOf s n
  let a := field r 25 3
  let b := field r 22 3
  let down := field r 29 2 == 1 && (tget {} s.fab.peer (field r 0 10)).down
  if bit r 28 && portServes s b && (decide (2 ≤ ch) || !portServes s a || down) then b else a

/-! ## Ethernet (R357, R358) -/

/-- A register group of consecutive words from `o` on at a port. -/
def portWords (s : State) (p o n : Nat) : Nat :=
  ((List.range n).map (fun i => regGet s (portReg p (o + 4 * i)) * 2 ^ (32 * i))).foldl (fun a b => a + b) 0

/-- The IPv6 source address of a port's link, and its MAC address (R389). -/
def portIp (s : State) (p link : Nat) : Nat := portWords s p (if link = 0 then 0x50 else 0x60) 4
def portMac (s : State) (p link : Nat) : Nat := portWords s p (if link = 0 then 0x70 else 0x78) 2 % 2 ^ 48

/-- The link of a two-link port that a channel uses; a failed link leaves its flows to the other (R352, R367). -/
def linkOf (s : State) (p ch : Nat) : Nat :=
  let ok := (portAt s p).lanes
  if portMode s p = 3 then
    (if field ok 0 4 ≠ 15 then 1 else if field ok 4 4 ≠ 15 then 0 else if 2 ≤ ch then 1 else 0)
  else 0

def peerAt (s : State) (k : Nat) : Peer := tget {} s.fab.peer k
def modPeer (k : Nat) (f : Peer → Peer) (s : State) : State := { s with fab := { s.fab with peer := tmod {} s.fab.peer k f } }

/-- Word i of peer entry k (R392), and the IPv6 address and next-hop MAC address of the peer. -/
def peerWord (s : State) (k i : Nat) : Nat := regGet s (0xC30000 + 0x20 * k + 4 * i)
def peerIp (s : State) (k : Nat) : Nat :=
  peerWord s k 0 + 2 ^ 32 * peerWord s k 1 + 2 ^ 64 * peerWord s k 2 + 2 ^ 96 * peerWord s k 3
def peerMac (s : State) (k : Nat) : Nat := peerWord s k 6 + 2 ^ 32 * (peerWord s k 7 % 2 ^ 16)

/-- UDP_PORT (R383). -/
def udpPort (s : State) : Nat := field (regGet s 0xC00008) 16 16

/-- The peer that a packet goes to. -/
def peerFor (s : State) (k : Packet) : Nat := field (routeOf s k.dst) 0 10

/-- Send a frame to a peer (R357). ACK_PSN is the last frame taken in order, and in a NAK the frame that is expected
(R358). -/
def sendFrame (p k psn : Nat) (ackOnly nak : Bool) (pkts : List Packet) (s : State) : State :=
  let x := peerAt s k
  let ch := match pkts.head? with | some q => q.ch | none => 0
  let l := linkOf s p ch
  let h := match pkts.head? with | some q => Config.flowHash q.src q.dst q.ch % 16384 | none => 0
  let f : EthFrame := { dmac := peerMac s k, smac := portMac s p l, etype := 0x86DD, tagged := false,
                        tclass := 4 * field (peerWord s k 5) 26 6 + 2, next := 17, hop := 64, ip := portIp s p l,
                        dstIp := peerIp s k, sport := 0xC000 + h, dport := udpPort s, sumOk := true, psn := psn,
                        ackPsn := if nak then x.expected else (x.expected + 2 ^ 24 - 1) % 2 ^ 24, ackOnly := ackOnly,
                        ceEcho := x.ceEcho, nak := nak, packets := pkts.map packetBytes }
  let s := modPeer k (fun x => { x with ceEcho := false }) s
  let s := modPort p (fun x => { x with tx := x.tx + 1 }) s
  emit (.frame p l k f) s

/-- A response takes the place of its request among the requests that a receiver keeps for a peer (R359). -/
def keepFor (r : Packet) (x : Peer) : Peer :=
  let put := fun (q : Packet) => if isRequest q && decide (q.src = r.dst ∧ q.tag = r.tag ∧ q.gen = r.gen) then r else q
  { x with kept := x.kept.map (fun f => (f.1, f.2.map put)) }

/-- Send one packet in a frame of its own. -/
def peerSend (p k : Nat) (q : Packet) (s : State) : State :=
  let x := peerAt s k
  let s := modPeer k (fun x =>
    let x := if isRequest q then x else keepFor q x
    { x with psn := (x.psn + 1) % 2 ^ 24, unacked := x.unacked ++ [{ psn := x.psn, port := p, pkts := [q] }] }) s
  sendFrame p k x.psn false false [q] s

/-! ## The queue of a port (R326, R354) -/

/-- Packets of one key leave a port oldest first: the virtual channel in fabric mode, the class and the peer in Ethernet
mode. -/
def txLane (s : State) (p : Nat) (k : Packet) : Nat :=
  if portMode s p = 1 then vcOf k else (if isRequest k then 0 else 4) + 8 * peerFor s k

/-- The oldest packet of each key. -/
def txHeads (key : Packet → Nat) (l : List Waiting) : List Waiting :=
  match l with
  | [] => []
  | w :: r => w :: (txHeads key r).filter (fun x => decide (key x.pkt ≠ key w.pkt))

/-- A packet may leave now: against credits, or while the peer has fewer than 1,024 unacknowledged frames. -/
def txReady (s : State) (p : Nat) (w : Waiting) : Bool :=
  if portMode s p = 1 then canSend (portAt s p) w.pkt else decide ((peerAt s (peerFor s w.pkt)).unacked.length < 1024)

/-- Order of transmission: responses before requests, higher LEVEL first (R354). -/
def txKey (w : Waiting) : Nat := (if isRequest w.pkt then 4 else 0) + (3 - w.pkt.level % 4)

/-- The next packet to leave: of a virtual channel that has waited 64 flit times, else by the order of transmission (R354). -/
def txPick (s : State) (p : Nat) : Option Waiting :=
  let x := portAt s p
  let l := (txHeads (txLane s p) x.txq).filter (txReady s p)
  match l.find? (fun w => decide (64 ≤ x.wait.getD (vcOf w.pkt) 0)) with
  | some w => some w
  | none => minBy txKey l

/-- The flit times that each virtual channel has waited, once `n` flits of channel v have left. -/
def waited (x : Port) (v n : Nat) : List Nat :=
  (List.range 8).map (fun u =>
    if u = v ∨ ¬ x.txq.any (fun w => decide (vcOf w.pkt = u)) then 0 else x.wait.getD u 0 + n)

/-- Send a packet in flits, spending the credits of its virtual channel (R326). -/
def sendPacket (p : Nat) (k : Packet) (s : State) : State :=
  let v := vcOf k
  let n := packetUnits k
  let fs := packetFlits k
  let s := modPort p (fun x => { x with credits := lset x.credits v (x.credits.getD v 0 - n),
                                        owed := lset x.owed v (x.owed.getD v 0 + n), wait := waited x v fs.length }) s
  each (fs.zip (List.range fs.length)) (fun f s => sendFlit p true false f.1 (if f.2 = 0 then 1 else 0) s) s

/-- A waiting packet leaves, in flits or in a frame. -/
def sendWaiting (p : Nat) (w : Waiting) (s : State) : State :=
  let k := stamped s w
  let s := modPort p (fun x => { x with txq := x.txq.erase w }) s
  freeSource w (if portMode s p = 1 then sendPacket p k s else peerSend p (peerFor s k) k s)

/-- Send up to `n` waiting packets while credits and room last. -/
def pumpN (n p : Nat) (s : State) : State :=
  match n with
  | 0 => s
  | n + 1 =>
    if portUp s p && !(portAt s p).paused then
      match txPick s p with
      | none => s
      | some w => pumpN n p (sendWaiting p w s)
    else s

/-- Send the waiting packets of a port that may leave. -/
def pump (p : Nat) (s : State) : State := pumpN (portAt s p).txq.length p s

/-- Put a packet in the queue of a port; a port that is down keeps it waiting (R370). -/
def putOn (p : Nat) (w : Waiting) (s : State) : State := pump p (modPort p (fun x => { x with txq := x.txq ++ [w] }) s)

/-- Put a packet that this block makes on a port. -/
def sendOn (p : Nat) (k : Packet) (s : State) : State := putOn p { pkt := k } s

/-- Send a response to the origin of a request; with no valid route it is dropped (R350). -/
def respond (q : Packet) (opc status : Nat) (lost : Bool) (pmask operand : Nat) (data : List Byte) (s : State) :
    State :=
  let r : Packet := { opc := opc, ch := q.ch, lost := lost, src := nodeId s, dst := q.src, tag := q.tag, gen := q.gen,
                      status := status, pmask := pmask, arg := if opc = 0x88 then q.arg else 0, operand := operand,
                      data := data }
  if routeValid s q.src then sendOn (choosePort s q.src q.ch) r s else s

/-- The response OPC of a request (R330). -/
def rspOpc (opc : Nat) : Nat :=
  match opc with
  | 0x01 => 0x81 | 0x05 => 0x85 | 0x06 => 0x85 | 0x08 => 0x88 | _ => 0x82

/-! ## Requests of the origin -/

/-- A tag that no request holds; an abandoned one keeps its tag until it is answered or has timed out (R329, R583). -/
def freeTag (s : State) : Nat :=
  let busy := fun t => s.fab.reqs.any (fun r => decide (r.tag = t))
  let n := s.fab.reqs.length + 1
  (((List.range n).map (fun i => (s.fab.tagCtr + i) % 2 ^ 24)).find? (fun t => !busy t)).getD s.fab.tagCtr

/-- An outstanding request of a flow that left by another port or link than the flow uses now (R353, R367). -/
def onOldPath (s : State) (dst ch : Nat) (r : Req) : Bool :=
  let p := choosePort s dst ch
  decide (r.dst = dst ∧ r.ch = ch ∧ r.port < 8 ∧ (r.port ≠ p ∨ r.link ≠ linkOf s p ch))

/-- A flow's old port or link still holds requests of it while another is now chosen (R353). -/
def flowHeld (s : State) (dst ch : Nat) : Bool :=
  s.fab.reqs.any (onOldPath s dst ch) || s.fab.heldTx.any (fun h => decide (h.2.dst = dst ∧ h.2.ch = ch))

/-- A packet of a request: ARG, OPERAND, PMASK and data. -/
structure ReqPart where
  arg     : Nat
  operand : Nat
  pmask   : Nat := 0
  data    : List Byte := []
deriving DecidableEq, Repr

/-- Send a request of one or more packets under one tag, and remember it. A flow whose port changes holds its new requests
(R353). -/
def sendAll (dst ch opc : Nat) (parts : List ReqPart) (len : Nat) (use : ReqUse) (seq c : Nat) (s : State) : State :=
  let t := freeTag s
  let p := choosePort s dst ch
  let hold := flowHeld s dst ch
  let r : Req := { tag := t, gen := (portAt s p).gen, port := if hold then 8 else p, link := linkOf s p ch, dst := dst, ch := ch,
                   opc := opc, len := len, use := use, seq := seq, ctx := c }
  let s := { s with fab := { s.fab with reqs := s.fab.reqs ++ [r], tagCtr := (t + 1) % 2 ^ 24 } }
  each parts (fun x s =>
    let k : Packet := { opc := opc, ch := ch, src := nodeId s, dst := dst, tag := t, gen := (portAt s p).gen,
                        pmask := x.pmask, arg := x.arg, operand := x.operand,
                        len := if opc = 0x01 then len else 0, data := x.data }
    if hold then { s with fab := { s.fab with heldTx := s.fab.heldTx ++ [(t, k)] } } else putOn p { pkt := k, own := true } s) s

/-- Send a request of one packet. -/
def sendReq (dst ch opc arg operand pmask len : Nat) (data : List Byte) (use : ReqUse) (seq c : Nat) (s : State) : State :=
  sendAll dst ch opc [{ arg := arg, operand := operand, pmask := pmask, data := data }] len use seq c s

/-- The channel of an array's requests (R347). -/
def arrayCh (l : Nat) : Nat := l % 4

/-- The channel of a unit's requests (R347). -/
def chOf (o : RunOwner) : Nat :=
  match o with
  | .array l => l % 4
  | .lce n => n % 4
  | .eap e _ => e % 4
  | _ => 0

/-- Write what a unit produces for a context at `va`: to the host with the VAI's PASID, to block-local memory, or to another
node in WRITE packets that serve `use`. Nothing where a page does not translate. `bad`: the data carries the mark. -/
def writeOut (owner : RunOwner) (c va : Nat) (data : List Byte) (bad : Bool) (use : ReqUse) (seq : Nat) (s : State) : State :=
  each (cutAt 4096 data.length va data) (fun p s =>
    match xl s owner c p.1 p.2.length .write with
    | .ok 0 a => writeMem a p.2 (fun _ => bad) (accessC owner c none true a p.2.length (xlFill owner c p.1 s))
    | .ok 1 a => hostWriteC c p.1 a p.2 false bad (xlFill owner c p.1 s)
    | .ok _ a =>
      each (cutAt 512 p.2.length (a % 2 ^ 48) p.2) (fun k s =>
        sendReq (field a 52 12) (chOf owner) 0x02 k.1 0 (if bad then 255 else 0) k.2.length k.2 use seq c s) (xlFill owner c p.1 s)
    | .fault _ => s) s

/-- Write control data (completion entries, mirrors): it never carries the mark (R486). -/
def writeCtl (owner : RunOwner) (c va : Nat) (data : List Byte) (s : State) : State :=
  writeOut owner c va data false .mirror 0 s

/-- Address [va, va + 16) touches a seal window of a context of VAI v (R747). -/
def sealCovers (s : State) (v va : Nat) : Bool :=
  s.csb.windows.any (fun w => (ctxAt s w.ctx).vai == v && decide (va < w.base + w.size ∧ w.base < va + 16))

/-- Write a fence's mirror: in the clear, in a confidential partition too, and not at all where a seal window covers it (R468, R747,
R752). -/
def writeMirror (c va : Nat) (data : List Byte) (s : State) : State :=
  if !confCtx s c then writeCtl .front c va data s
  else if sealCovers s (ctxAt s c).vai va then s
  else match xl s .front c va 16 .write, leafOf s .front c va with
    | .fault 0, .ok (e, level) => hostWriteV (ctxAt s c).vai (alignDown e 4096 + va % leafSize e level) data false false s
    | .fault _, _ => s
    | _, _ => writeCtl .front c va data s

/-! ## Control data at another node (R334, R347) -/

/-- The READs that a read of [va, va + n) takes: 512 bytes at most, of the pages at another node. -/
def remoteSpans (s : State) (o : RunOwner) (c va n : Nat) : List (Nat × Nat) :=
  ((spansOf 4096 va n).map (fun p => match xl s o c p.1 p.2 .read with
    | .ok 0 _ => [] | .ok 1 _ => [] | .ok _ a => spansOf 512 a p.2 | .fault _ => [])).flatten

/-- A piece has been asked for. -/
def hasFetch (s : State) (key c : Nat) (p : Nat × Nat) : Bool :=
  s.fab.fetches.any (fun f => decide (f.key = key ∧ f.ctx = c ∧ f.addr = p.1 ∧ f.len = p.2))

/-- Send the READs for pieces of control data. -/
def askReads (key ch seq c : Nat) (l : List (Nat × Nat)) (s : State) : State :=
  each l (fun p s =>
    let f : Fetch := { key := key, ctx := c, addr := p.1, len := p.2, tag := freeTag s }
    sendReq (field p.1 52 12) ch 0x01 (p.1 % 2 ^ 48) 0 0 p.2 [] .ctl seq c
      { s with fab := { s.fab with fetches := s.fab.fetches ++ [f] } }) s

/-- A command of `key` still waits for a piece. -/
def fetchWaits (s : State) (key : Nat) : Bool := s.fab.fetches.any (fun f => decide (f.key = key ∧ f.res = .waiting))

/-- A command that waits for no piece any more gives back what it has fetched. -/
def endReading (key : Nat) (s : State) : State :=
  if !s.fab.fetches.any (fun f => decide (f.key = key)) || fetchWaits s key then s
  else { s with fab := { s.fab with fetches := s.fab.fetches.filter (fun f => decide (f.key ≠ key)) } }

/-- Go on with `f` once the control data at [va, va + n) is at hand: where pages lie at another node, READs are sent on channel `ch`, and
the step changes nothing else until each is answered (R343, R344, R347). -/
def reading (key : Nat) (o : RunOwner) (ch seq c va n : Nat) (f : State → State) (s : State) : State :=
  if (xlRange s o c va n .read).isSome then endReading key (f s)
  else
    let l := (remoteSpans s o c va n).filter (fun p => !hasFetch s key c p)
    if !l.isEmpty then askReads key ch seq c l s else if fetchWaits s key then s else endReading key (f s)

/-- The keys of mailbox commands and of queues beside those of tasks, which are their SEQ. -/
def boxKey (v : Nat) : Nat := 2 ^ 60 + v
def queueKey (q : Nat) : Nat := 2 ^ 61 + q

/-- Whether an outstanding request serves a use. -/
def useLeft (s : State) (p : ReqUse → Bool) : Bool := s.fab.reqs.any (fun r => p r.use)

end Sys2Proof.Machine
end

