-- ==== Sys2Proof/Machine/TaskOps.lean ====
section
/-!
DEFINITION. Objects and their references (R577, R578), completion entries (R473-R476), fences (R467-R472, R551-R553),
graph walkers (R453-R460), the completion of commands (R445, R466) and the end of a task (R484, R704, R705).
-/
namespace Sys2Proof.Machine
open Sys2Proof

/-! ## Statuses -/

/-- A status after which dependents run (R456). -/
def Status.good (t : Status) : Bool := t == .done || t == .donePoisoned

/-- The report type of a Q-class status (R720). -/
def qType (t : Status) : Nat :=
  match t with
  | .faultTimeout => 0x13
  | .faultAddress => 0x11
  | _ => 0x10

/-! ## Handles (R451) -/

/-- A handle of generation and index. -/
def handle (gen index : Nat) : Nat := gen % 256 + 256 * index

/-- The index a handle names. -/
def handleIdx (h : Nat) : Nat := field h 8 16

/-- A handle spells an index and a generation, bits [31:24] being 0. -/
def handleIs (h gen index : Nat) : Bool := h == handle gen index

/-! ## References (R577, R578) -/

/-- A context gains a reference. -/
def ctxTake (c : Nat) (s : State) : State := modCtx c (fun x => { x with refs := x.refs + 1 }) s

/-- A context loses a reference; with the last it is DYING, and is destroyed in order of death (R579). -/
def ctxDrop (c : Nat) (s : State) : State :=
  let x := ctxAt s c
  let s := modCtx c (fun x => { x with refs := x.refs - 1 }) s
  if x.refs = 1 then
    let s := modCtx c (fun x => { x with state := 3 }) s
    { s with fe := { s.fe with dying := s.fe.dying ++ [(false, c)] } }
  else s

/-- An allocation loses a reference; with the last it is DYING (R578). -/
def allocCheck (a : Nat) (s : State) : State :=
  let x := allocAt s a
  if x.live && !x.dying && x.maps.isEmpty && x.host == 0 then
    let s := modAlloc a (fun x => { x with dying := true }) s
    { s with fe := { s.fe with dying := s.fe.dying ++ [(true, a)] } }
  else s

/-- A fence loses a reference; with the last its handle is stale and the number free. -/
def fenceDrop (f : Nat) (s : State) : State :=
  modFence f (fun x => if x.refs ≤ 1 then { gen := (x.gen + 1) % 256 } else { x with refs := x.refs - 1 }) s

/-- A graph loses a reference; with the last it is freed and its context drops one. -/
def graphDrop (g : Nat) (s : State) : State :=
  let x := graphAt s g
  if x.refs ≤ 1 then ctxDrop x.ctx (modGraph g (fun x => { gen := (x.gen + 1) % 256 }) s)
  else modGraph g (fun x => { x with refs := x.refs - 1 }) s

/-- The fence that a handle names. -/
def fenceOf (s : State) (h : Nat) : Option Nat :=
  let i := handleIdx h
  if (fenceAt s i).live && handleIs h (fenceAt s i).gen i then some i else none

/-- The graph that a handle names. -/
def graphOf (s : State) (h : Nat) : Option Nat :=
  let i := handleIdx h
  if (graphAt s i).live && handleIs h (graphAt s i).gen i then some i else none

/-! ## Handoff buffers -/

/-- A handle returns to its home queue; a return is not a push (R484). -/
def hqReturn (h : Nat) (s : State) : State := modHq (h / 2 ^ 24) (fun x => { x with items := x.items ++ [h] }) s

/-! ## Completion entries -/

/-- Whether an entry is owed: CQE is set, the status is bad, or a PATCH returned BUSY (R474). -/
def owesEntry (flags : Nat) (st : Status) : Bool := bit flags 0 || !st.good

/-- An entry becomes due at a queue; an entry of a queue that is guilty waits for the reset (R706). -/
def owe (q : Nat) (c : Cqe) (s : State) : State :=
  modQueue q (fun x => if x.guilty.isSome || x.state == .resetting then { x with ended := x.ended ++ [c] }
    else { x with due := x.due ++ [c] }) s

/-- The entry of a command that ends now. -/
def cmdEntry (s : State) (e : CmdEnt) (st : Status) (cycles : Nat) : Cqe :=
  { cmd := e.id, status := st, flags := (if e.code = 2 then 2 else 0) + (if e.pos.isNone then 8 else 0), gen := e.gen,
    code := e.code, tag := e.tag, start := e.start, fin := beat s, cycles := cycles,
    pos := e.seq.getD (e.pos.getD 0), ring := e.pos.getD 0xFFFFFFFF }

/-- The queue that holds a command accepted and not completed. -/
def cmdQueue (s : State) (id : Nat) : Option Nat :=
  (s.fe.q.find? (fun p => p.2.cmds.any (fun e => decide (e.id = id)))).map (fun p => p.1)

/-- A command accepted and not completed. -/
def cmdOf (s : State) (q id : Nat) : Option CmdEnt := (queueAt s q).cmds.find? (fun e => decide (e.id = id))

/-- Change a command of a queue. -/
def modCmd (q id : Nat) (f : CmdEnt → CmdEnt) (s : State) : State :=
  modQueue q (fun x => { x with cmds := x.cmds.map (fun e => if e.id = id then f e else e) }) s

/-! ## Fences -/

/-- A fence value has reached `v` (R551). -/
def reached (a v : W64) : Bool := decide ((a - v).toNat < 2 ^ 63)

/-- A signal of value `v` is above a fence value (R552). -/
def above (v a : W64) : Bool := decide ((v - a).toNat ≠ 0) && decide ((v - a).toNat < 2 ^ 63)

/-- After a change of a fence: its mirror, and its event record when EVENT is set (R468). Both stop with the owning
context (R580). -/
def fenceChanged (f : Nat) (s : State) : State :=
  let x := fenceAt s f
  if x.orphan then s
  else
    let data := leBytes 8 x.value.toNat ++ leBytes 4 x.err ++ leBytes 4 x.ignored
    let s := if x.mirror = 0 then s else writeMirror x.ctx x.mirror data s
    if x.event then notice (1 + x.vai) 0x02 (handle x.gen f + 2 ^ 32 * (x.value.toNat % 2 ^ 32)) s else s

/-- A held WAIT completes (R469): with an error status and CONTINUE 0 the queue stops with it at the head. -/
def completeWait (q : Nat) (e : CmdEnt) (st : Status) (stop : Bool) (s : State) : State :=
  let s := if owesEntry e.flags st then owe q (cmdEntry s e st 0) s else s
  let s := modQueue q (fun x =>
    if stop then { x with state := .stopped, heldDone := true } else { x with held := none, heldDone := false }) s
  fenceDrop (handleIdx e.fence) s

/-- Test the WAIT that holds a queue, if it names fence `f`. -/
def testWait (f q : Nat) (s : State) : State :=
  let x := queueAt s q
  match x.held with
  | none => s
  | some e =>
    let y := fenceAt s f
    if e.code ≠ 4 ∨ x.heldDone ∨ handleIdx e.fence ≠ f ∨ x.state = .resetting ∨ x.state = .fenced then s
    else if reached y.value e.value then completeWait q e .done false s
    else if y.err ≠ 0 then completeWait q e (statusOf y.err) (!bit e.flags 2) s
    else s

/-- Test every WAIT on a fence (R472, R553). -/
def fenceWake (f : Nat) (s : State) : State := each (s.fe.q.map (fun p => p.1)) (fun q s => testWait f q s) s

/-- A signal arrives at a fence: it raises the value, or is ignored and counted (R470, R552). -/
def fenceSignal (f : Nat) (v : W64) (s : State) : State :=
  let x := fenceAt s f
  if x.err = 0 ∧ above v x.value then
    fenceWake f (fenceChanged f (modFence f (fun x => { x with value := v }) s))
  else fenceChanged f (modFence f (fun x => { x with ignored := x.ignored + 1 }) s)

/-- A SIGNAL for value `v` will not be performed: the error word is set, unless it is set already or the value has been
reached (R471). -/
def fenceFail (f : Nat) (v : W64) (code : Nat) (s : State) : State :=
  let x := fenceAt s f
  if x.err ≠ 0 ∨ reached x.value v then s
  else fenceWake f (fenceChanged f (modFence f (fun x => { x with err := code }) s))

/-- Every pending SIGNAL of a list of commands sets its fence's error word (R471). -/
def failSignals (l : List CmdEnt) (code : Nat) (s : State) : State :=
  each (l.filter (fun e => decide (e.code = 5 ∧ e.own = none))) (fun e s =>
    fenceDrop (handleIdx e.fence) (fenceFail (handleIdx e.fence) e.value code s)) s

/-! ## Task records (R443, R446-R448) -/

/-- The record of a task is well formed. For an engine task only bytes [7:0] are checked, and STAGE is 0 (R450). -/
def recordOk (l : List Byte) : Bool :=
  let ty := byteAt l 1
  let fl := byteAt l 2
  let head := byteAt l 0 == 1 && byteAt l 3 == 0 && decide (fl < 8)
  let stage := bit fl 2
  let stageOk := if stage then fieldAt l 24 8 % 64 == 0 && fieldAt l 32 4 % 64 == 0 && decide (64 ≤ fieldAt l 32 4) &&
      decide (fieldAt l 32 4 ≤ 16 * 2 ^ 20)
    else fieldAt l 24 8 == 0 && fieldAt l 32 4 == 0
  let body := stageOk && zeroAt l 36 4
  let code := fieldAt l 16 4
  let ls := fieldAt l 20 4
  if 0x80 ≤ ty then head && !stage
  else if ty = 0 then head && body && fieldAt l 8 8 % 64 == 0 && code % 64 == 0 && decide (64 ≤ code) &&
    decide (code ≤ 2 ^ 18) && ls % 64 == 0 && decide (ls + code ≤ 0x140000)
  else head && body && code == 0 && ls == 0 && (ty == 0x10 || ty == 0x11 || ty == 0x12 || ty == 0x18 || ty == 0x19 || ty == 0x1A)

/-! ## Issue of tasks -/

/-- The next SEQ that no live task holds (R450). -/
def nextSeq (s : State) : Nat :=
  (((List.range (s.fe.tasks.length + 1)).map (fun i => (s.fe.seqCtr + i) % 2 ^ 37)).find? (fun q =>
    !s.fe.tasks.any (fun t => decide (t.seq = q)))).getD s.fe.seqCtr

/-- A task is issued: it takes the next SEQ and its place in ready order. -/
def issueTask (record : List Byte) (queue c cmd : Nat) (node : Option (Nat × Nat)) (joined enqd taint : Bool) (s : State) :
    State :=
  let q := nextSeq s
  let t : Task := { seq := q, ty := byteAt record 1, queue := queue, ctx := c, gen := (ctxAt s c).gen, cmd := cmd,
                    node := node, joined := joined, enqd := enqd, record := record, taint := taint, start := beat s,
                    ready := s.fe.readyCtr }
  { s with fe := { s.fe with tasks := s.fe.tasks ++ [t], seqCtr := (q + 1) % 2 ^ 37, readyCtr := s.fe.readyCtr + 1 } }

/-! ## Graphs -/

def launchOf (s : State) (id : Nat) : Option Launch := s.fe.launches.find? (fun x => decide (x.id = id))

def modLaunch (id : Nat) (f : Launch → Launch) (s : State) : State :=
  { s with fe := { s.fe with launches := s.fe.launches.map (fun x => if x.id = id then f x else x) } }

/-- A node's record with its patch values in place (R454). -/
def nodeRecord (g : Graph) (buf : Bool) (n : Nat) : List Byte :=
  let r := (g.nodes[n]?.map (fun x => x.record)).getD []
  (g.points.filter (fun p => decide (p.node = n))).foldl (fun r p =>
    r.take p.offset ++ leBytes 8 ((if buf then g.buf1 else g.buf0).getD p.patch 0).toNat ++ r.drop (p.offset + 8)) r

/-- Sequencers of a partition. -/
def lsqsOf (s : State) (p : Nat) : List Nat := ((sectorsOf s p).map (fun n => (List.range 4).map (fun i => 4 * n + i))).flatten

/-- Ready tasks that a sequencer holds (R497). -/
def readyAt (s : State) (k : Nat) : List Task := s.fe.tasks.filter (fun t => decide (t.place = .lsq k))

/-- Every sequencer of a partition is full and a task waits for one: nothing further is issued (R497). -/
def dispatchFull (s : State) (p : Nat) : Bool :=
  (lsqsOf s p).all (fun k => decide (1024 ≤ (readyAt s k).length)) &&
    s.fe.tasks.any (fun t => decide (t.place = .front ∧ t.ty = 0 ∧ partOfCtx s t.ctx = p))

/-- Issue a node of a launch (R456). -/
def issueNode (id n : Nat) (s : State) : State :=
  match launchOf s id with
  | none => s
  | some x =>
    let q := nextSeq s
    let s := modLaunch id (fun x => { x with nodes := lset x.nodes n (.issued q) }) s
    issueTask (nodeRecord (graphAt s x.graph) x.buf n) x.queue (queueAt s x.queue).ctx x.cmd (some (id, n)) false false
      (x.taint.contains n) s

/-- The entry of a node of a launch. -/
def nodeEntry (s : State) (x : Launch) (record : List Byte) (st : Status) (start pos cycles : Nat) : Cqe :=
  let e := cmdOf s x.queue x.cmd
  { cmd := x.cmd, status := st, flags := 4, gen := (e.map (fun e => e.gen)).getD 0, code := 1,
    tag := w32 (fieldAt record 4 4), start := start, fin := beat s, cycles := cycles, pos := pos,
    ring := ((e.map (fun e => e.pos)).getD none).getD 0xFFFFFFFF }

/-- Cancel the nodes of a list that still wait, and their successors (R456): each completes with CANCELLED, without SEQ. -/
def cancelNodes (fuel id : Nat) (l : List Nat) (s : State) : State :=
  match fuel with
  | 0 => s
  | k + 1 =>
    match l, launchOf s id with
    | n :: rest, some x =>
      let g := graphAt s x.graph
      match x.nodes[n]? with
      | some (.waiting _) =>
        let s := modLaunch id (fun x => { x with nodes := lset x.nodes n .cancelled }) s
        let r := (g.nodes[n]?.map (fun y => y.record)).getD []
        let s := owe x.queue (nodeEntry s x r .cancelled (beat s) (2 ^ 47 + n) 0) s
        cancelNodes k id (((g.nodes[n]?.map (fun y => y.succ)).getD []) ++ rest) s
      | _ => cancelNodes k id rest s
    | _, _ => s

/-- One edge of a node that ended well: the successor's count falls, and at 0 it issues, unless its walker may issue nothing now
(R497): then it waits at the walker. -/
def fireEdge (id : Nat) (taint : Bool) (n : Nat) (s : State) : State :=
  match launchOf s id with
  | none => s
  | some x =>
    match x.nodes[n]? with
    | some (.waiting k) =>
      let s := modLaunch id (fun x => { x with nodes := lset x.nodes n (.waiting (k - 1)),
                                               taint := if taint then sinsert n x.taint else x.taint }) s
      if k ≤ 1 ∧ dispatchFull s (partOfCtx s (queueAt s x.queue).ctx) = false then issueNode id n s else s
    | _ => s

/-- Number of edges of a graph, the bound of a cancellation. -/
def edgeCount (g : Graph) : Nat := (g.nodes.map (fun n => n.succ.length)).foldl (fun a b => a + b) 0

/-- A node has ended (R456, R457, R487). -/
def nodeEnded (id n : Nat) (t : Task) (st : Status) (cycles : Nat) (s : State) : State :=
  match launchOf s id with
  | none => s
  | some x =>
    let g := graphAt s x.graph
    let succ := (g.nodes[n]?.map (fun y => y.succ)).getD []
    let s := if owesEntry (byteAt t.record 2) st then owe x.queue (nodeEntry s x t.record st t.start t.seq cycles) s else s
    let s := modLaunch id (fun x => { x with nodes := lset x.nodes n .ended, cycles := x.cycles + cycles,
                                             bad := if st.good then x.bad else (x.bad.orElse (fun _ => some st)),
                                             poison := x.poison || st == .donePoisoned }) s
    if st.good then
      each succ (fun m s =>
        let taint := st == .donePoisoned && (t.ty == 0x18 || ((g.nodes[m]?.map (fun y => y.taint)).getD false))
        fireEdge id taint m s) s
    else cancelNodes (edgeCount g + succ.length + 1) id succ s

/-- Every node of a launch has ended or been cancelled. -/
def launchOver (x : Launch) : Bool :=
  x.walker.isSome && x.nodes.all (fun n => match n with | .ended => true | .cancelled => true | _ => false)

/-- The status of a launch's entry (R457). -/
def launchStatus (x : Launch) : Status :=
  match x.bad with
  | some st => st
  | none => if x.poison then .donePoisoned else .done

/-! ## Completion of commands -/

/-- The launch that a LAUNCH command started: none for another command and for a LAUNCH that was malformed (R446). -/
def cmdLaunch (s : State) (e : CmdEnt) : Option Launch :=
  if e.code = 2 ∧ e.own = none then launchOf s e.launch else none

/-- The status with which a command completes now, if it does (R445, R466). A malformed command has its status. -/
def cmdStatus (s : State) (q : Nat) (e : CmdEnt) : Option Status :=
  if s.fe.tasks.any (fun t => decide (t.cmd = e.id)) then none
  else match e.own, e.code with
    | some st, _ => some st
    | none, 0 => if bit e.flags 1 && (queueAt s q).cmds.any (fun d => decide (d.id < e.id)) then none else some .done
    | none, _ => match cmdLaunch s e with
      | some x => if launchOver x then some (launchStatus x) else none
      | none => none

/-- A launch leaves its walker and gives up its graph and buffer (R460, R494). -/
def endLaunch (e : CmdEnt) (s : State) : State :=
  match cmdLaunch s e with
  | some x => graphDrop x.graph { s with fe := { s.fe with launches := s.fe.launches.filter (fun y => decide (y.id ≠ x.id)) } }
  | none => s

/-- The cycles of a command's entry (R477). -/
def cmdCycles (s : State) (e : CmdEnt) : Nat :=
  ((cmdLaunch s e).map (fun x => x.cycles)).getD e.cycles

/-- A command completes: it leaves the queue's list, its references drop, its entry is due. -/
def completeCmd (q : Nat) (e : CmdEnt) (st : Status) (s : State) : State :=
  let c := cmdEntry s e st (cmdCycles s e)
  let s := modQueue q (fun x => { x with cmds := x.cmds.filter (fun d => decide (d.id ≠ e.id)) }) s
  let s := endLaunch e s
  let s := if e.code = 5 then fenceDrop (handleIdx e.fence) s else s
  if owesEntry e.flags st then owe q c s else s

/-- Complete the commands of a queue whose work has ended, oldest first. A guilty queue waits for its reset. -/
def settle (q : Nat) (s : State) : State :=
  if (queueAt s q).guilty.isSome then s
  else each (queueAt s q).cmds (fun e s => match cmdStatus s q e with
    | some st => completeCmd q e st s
    | none => s) s

/-! ## The end of a task -/

/-- A Q-class fault marks a queue guilty and is reported; on a queue that is guilty, resetting or fenced it is only
reported (R704, R708). -/
def markGuilty (q : Nat) (st : Status) (pos type detail : Nat) (s : State) : State :=
  let x := queueAt s q
  let s := report 7 q type 1 (confVai s x.vai) detail s
  if x.guilty.isSome ∨ x.state = .resetting ∨ x.state = .fenced ∨ x.state = .unused then s
  else modQueue q (fun x => { x with guilty := some ⟨st, pos⟩ }) s

/-- The handles that a task holds return home, each with a CE (R484). -/
def returnHandles (t : Task) (s : State) : State :=
  each t.handles (fun h s => reportCe 7 t.queue 0x07 0 (hqReturn h s)) s

/-- What a task's end leaves with the command that holds it: a node ends, a joined task has its own entry, a task of its
own gives its command a status. -/
def taskResult (q : Nat) (t : Task) (st : Status) (cycles : Nat) (s : State) : State :=
  match t.node with
  | some (id, n) => nodeEnded id n t st cycles s
  | none =>
    if t.joined then
      let e := cmdOf s q t.cmd
      let c : Cqe := { cmd := t.cmd, status := st, flags := 8, gen := (queueAt s t.queue).gen, code := 1,
                       tag := w32 (fieldAt t.record 4 4), start := t.start, fin := beat s, cycles := cycles, pos := t.seq,
                       ring := ((e.map (fun e => e.pos)).getD none).getD 0xFFFFFFFF }
      if owesEntry (byteAt t.record 2) st then owe t.queue c s else s
    else modCmd q t.cmd (fun e => { e with own := some st, start := t.start, cycles := cycles }) s

/-- The status a task ends with: an early status of R53 stands, and DONE becomes DONE_POISONED when a granule it wrote or
delivered carried the mark, or it ran tainted (R486, R487). -/
def finalStatus (t : Task) (st : Status) : Status :=
  match t.early with
  | some e => if st.good then e.1 else st
  | none => if st == .done && (t.poisoned || t.taint) then .donePoisoned else st

/-- A task ends. `guilt` is the report type and detail of a Q-class fault. -/
def taskEnd (seq : Nat) (st : Status) (cycles : Nat) (guilt : Option (Nat × Nat)) (s : State) : State :=
  match taskOf s seq with
  | none => s
  | some t =>
    let st := finalStatus t st
    let s := returnHandles t s
    let s := { s with fe := { s.fe with tasks := s.fe.tasks.filter (fun x => decide (x.seq ≠ seq)) } }
    match cmdQueue s t.cmd with
    | none => s
    | some q =>
      let pos := ((cmdOf s q t.cmd).bind (fun e => e.pos)).getD 0xFFFFFFFF
      let s := match guilt with
        | some g => markGuilty q st pos g.1 g.2 s
        | none => s
      settle q (taskResult q t st cycles s)

/-- A task ends with a Q-class fault, its status giving the report type. -/
def taskFault (seq : Nat) (st : Status) (detail : Nat) (s : State) : State :=
  taskEnd seq st 0 (some (qType st, detail)) s

/-- A command that is not a task ends with a Q-class fault (R446). -/
def cmdFault (q id : Nat) (st : Status) (s : State) : State :=
  match cmdOf s q id with
  | none => s
  | some e =>
    let s := markGuilty q st (e.pos.getD 0xFFFFFFFF) (qType st) (detailOf (queueAt s q).ctx 0) s
    modCmd q id (fun e => { e with own := some st }) s

/-- A translation fault of a task: recorded in its context (R569), and the task ends FAULT_ADDRESS, Q-class. A refusal of another
node ends it with the status of R344. -/
def xlatFault (seq c kind source va : Nat) (s : State) : State :=
  if 16 ≤ kind then taskEnd seq (if kind = 17 then .faultFormat else .faultAddress) 0 (some (0x12, detailOf c va)) s
  else taskFault seq .faultAddress (detailOf c va) (recordFault c kind source va s)

/-- The command of an ORDERED task still has an earlier command before it (R445). -/
def orderedWaits (s : State) (t : Task) : Bool :=
  match cmdQueue s t.cmd with
  | none => false
  | some q => match cmdOf s q t.cmd with
    | some e => e.code == 1 && !t.joined && bit e.flags 1 && (queueAt s q).cmds.any (fun d => decide (d.id < e.id))
    | none => false

/-- The command of a task is ORDERED (R445). -/
def isOrdered (s : State) (t : Task) : Bool :=
  (cmdQueue s t.cmd).any (fun q => (cmdOf s q t.cmd).any (fun e => e.code == 1 && bit e.flags 1))

end Sys2Proof.Machine
end

