-- ==== Sys2Proof/Machine/SyncOps.lean ====
section
/-!
DEFINITION. Arrays as the tally-word unit reaches them, changes of a tally word (R534-R538), barrier channels (R548,
R550), gates and the published batch (R401, R415, R416, R422).
-/
namespace Sys2Proof.Machine
open Sys2Proof

/-! ## Arrays -/

/-- The physical array of a logical one (R90). -/
def physOf (s : State) (l : Nat) : Option Nat :=
  match tget 0 s.arr.lmap l with
  | 0 => none
  | n + 1 => some n

/-- The state of physical array p. -/
def arrAt (s : State) (p : Nat) : Arr := tget {} s.arr.st p

/-- Change physical array p. -/
def modArr (p : Nat) (f : Arr → Arr) (s : State) : State := { s with arr := { s.arr with st := tmod {} s.arr.st p f } }

/-- Physical array p: role and logical number. -/
def physAt (s : State) (p : Nat) : PhysArr := tget {} s.arr.phys p
def modPhys (p : Nat) (f : PhysArr → PhysArr) (s : State) : State :=
  { s with arr := { s.arr with phys := tmod {} s.arr.phys p f } }

/-- The logical number by which reports name an array: physical + 0x400 when it has none (R719). -/
def arrName (s : State) (p : Nat) : Nat := if (physAt s p).logical = 0x3FF then 0x400 + p else (physAt s p).logical

/-- Scalar register n of an array takes a value. -/
def Arr.putS (n : Nat) (v : W64) (x : Arr) : Arr := { x with s := tset 0 x.s n v }

/-- The instruction in progress retires: the program counter passes it. -/
def Arr.retire (x : Arr) : Arr := { x with pc := x.pc + 8, stall := .none, progress := 0, replay := false }

/-- The array that runs a task, saves it or restores it. -/
def arrOfTask (s : State) (seq : Nat) : Option Nat :=
  (s.arr.st.find? (fun p => decide (p.2.task = some seq))).map (fun p => p.1)

/-! ## Tally words -/

/-- Word i takes a value; TW_LAST names the source (R555). -/
def twWrite (i : Nat) (v : W32) (kind id : Nat) (s : State) : State :=
  { s with tw := { s.tw with val := tset 0 s.tw.val i v, last := tset (0, 0) s.tw.last i (kind, id) } }

/-- The condition of a WAIT holds against a value (R535). -/
def waitHolds (cond : Nat) (x c : W32) : Bool :=
  match cond with
  | 0 => decide (0 ≤ (x - c).toInt)
  | 1 => x == c
  | 2 => x != c
  | _ => true

/-- A take-wait for an amount is satisfied: the word, read as signed, is at least n (R536). -/
def takeHolds (x n : W32) : Bool := decide (n.toInt ≤ x.toInt)

/-- A wait ends: the array resumes with the value in DST and the condition of BRC set (R538). -/
def wakeWait (w : TwWait) (v : W32) (cond : Bool) (s : State) : State :=
  let s := { s with tw := { s.tw with waits := s.tw.waits.filter (fun x => decide (x ≠ w)) } }
  modArr w.phys (fun x => match x.stall with
    | .wait dst => { (x.putS dst (w64 v.toNat)).retire with cond := cond }
    | _ => x) s

/-- Release every armed WAIT on word i whose condition holds (R537 step 1). -/
def releaseWaits (i : Nat) (s : State) : State :=
  each (s.tw.waits.filter (fun w => decide (w.idx = i ∧ w.take = false) && waitHolds w.cond (twAt s i) w.arg))
    (fun w s => wakeWait w (twAt s i) true s) s

/-- Grant one take-wait if the word still holds its amount (R537 step 2). -/
def grantTake (w : TwWait) (s : State) : State :=
  if takeHolds (twAt s w.idx) w.arg then
    let v := twAt s w.idx - w.arg
    wakeWait w v true (twWrite w.idx v 0x7 w.l s)
  else s

/-- Walk the take-waits on word i, oldest first. -/
def grantTakes (i : Nat) (s : State) : State :=
  each (s.tw.waits.filter (fun w => decide (w.idx = i ∧ w.take = true))) grantTake s

/-- What follows every change of a word (R537). -/
def tallyRelease (i : Nat) (s : State) : State :=
  let s := releaseWaits i s
  let n := s.tw.waits.length
  let s := grantTakes i s
  if s.tw.waits.length = n then s else releaseWaits i s

/-- The group of a tally word is granted to VAI v (R531). -/
def twGranted (s : State) (v i : Nat) : Bool := decide (i < 16384) && tget 0 s.tw.grant (i / 64) == 1 + v

/-! ## Sequence groups -/

/-- O(n): the beat at which stage n of a group opens. -/
def stageOpen (d : List Byte) (n : Nat) : Nat := (fieldAt d 8 8 + n * fieldAt d 4 2) % 2 ^ 64

/-- E(n): the beat at which stage n expires. -/
def stageEnd (d : List Byte) (n : Nat) : Nat := (stageOpen d n + fieldAt d 6 2) % 2 ^ 64

/-- The beat is at or after `b`. -/
def beatPast (s : State) (b : Nat) : Bool := decide ((s.pm.beat + 2 ^ 64 - b) % 2 ^ 64 < 2 ^ 63)

/-- A condition of a gate: the bit that enables it, the word and the value (R401). -/
def gateCond (s : State) (d : List Byte) (k : Nat) : Bool :=
  !bit (byteAt d 9) (1 + k) || decide (0 ≤ (twAt s (fieldAt d (10 + 2 * k) 2 % 16384) - w32 (fieldAt d (16 + 4 * k) 4)).toInt)

/-- A gate waits on tally word i. -/
def gateNames (d : List Byte) (i : Nat) : Bool :=
  (bit (byteAt d 9) 1 && fieldAt d 10 2 % 16384 == i) || (bit (byteAt d 9) 2 && fieldAt d 12 2 % 16384 == i)

/-- A gate opens now: its stage has opened, its group is RUNNING, its conditions hold (R401). -/
def gateReady (s : State) (g : Gate) : Bool :=
  let x := groupAt s (byteAt g.desc 8)
  let n := fieldAt g.desc 0 8
  x.live && !x.broken && beatPast s (stageOpen x.desc n) && !beatPast s (stageEnd x.desc n) && gateCond s g.desc 0 && gateCond s g.desc 1

/-- A group goes to BROKEN on this member: its notice is posted (R402, R634). -/
def breakGroup (g : Nat) (s : State) : State :=
  let x := groupAt s g
  if x.live && !x.broken then notice (1 + x.vai) 0x05 (fieldAt x.desc 0 2) (modGroup g (fun x => { x with broken := true }) s)
  else s

/-- The entries of a batch. -/
def maxSeq (d : List Byte) : Nat := byteAt d 20 + 1

/-- Chunks of R422: the length each entry gets. Entries past their prompts get 1; the budget left goes to the others in
the order in which they joined. -/
def chunkShare (max : Nat) (budget : Nat) (l : List (Nat × BatchEnt)) : List (Nat × Nat) :=
  match l with
  | [] => []
  | (i, e) :: r =>
    let n := min (min max (e.param % 2 ^ 32 - e.given)) budget
    (i, n) :: chunkShare max (budget - n) r

/-- Insert an entry by order of joining. -/
def insertJoin (x : Nat × BatchEnt) (l : List (Nat × BatchEnt)) : List (Nat × BatchEnt) :=
  match l with
  | [] => [x]
  | y :: r => if x.2.order < y.2.order then x :: y :: r else y :: insertJoin x r

/-- The chunk lengths of the table of this step, by entry. -/
def chunkLens (d : List Byte) (es : List (Nat × BatchEnt)) : List (Nat × Nat) :=
  if bit (byteAt d 21) 0 then
    let act := es.filter (fun e => decide ((e.2.state = 1 ∨ e.2.state = 2) ∧ e.2.given < 2 ^ 32))
    let done := act.filter (fun e => decide (e.2.param % 2 ^ 32 ≤ e.2.given))
    let left := act.filter (fun e => decide (e.2.given < e.2.param % 2 ^ 32))
    let left := left.foldl (fun l e => insertJoin e l) []
    done.map (fun e => (e.1, 1)) ++ chunkShare (fieldAt d 52 2) (fieldAt d 54 2 + 1 - done.length) left
  else []

/-- The chunk length of an entry. -/
def chunkOf (lens : List (Nat × Nat)) (i : Nat) : Nat := ((lens.find? (fun p => decide (p.1 = i))).map (fun p => p.2)).getD 0

/-- A batch entry in memory (R410). -/
def batchBytes (chunked : Bool) (e : BatchEnt) (len : Nat) : List Byte :=
  leBytes 4 e.seqId ++ leBytes 1 e.state ++ leBytes 3 0 ++ leBytes 4 (if chunked then e.given else 0) ++ leBytes 4 len ++
    leBytes 8 e.param ++ leBytes 8 0

/-- The table that the leader publishes (R409). -/
def batchTable (x : Group) : List Byte :=
  let es := (List.range (maxSeq x.desc)).map (fun i => (i, tget {} x.batch i))
  let lens := chunkLens x.desc es
  let active := (es.filter (fun e => decide (e.2.state = 1 ∨ e.2.state = 2))).length
  padTo (leBytes 8 x.step ++ leBytes 2 active ++ leBytes 1 x.gen) 64 ++
    (es.map (fun e => batchBytes (bit (byteAt x.desc 21) 0 && (e.2.state == 1 || e.2.state == 2)) e.2 (chunkOf lens e.1))).flatten

/-- An entry after a publish (R415). -/
def afterPublish (len : Nat) (e : BatchEnt) : BatchEnt :=
  match e.state with
  | 1 | 2 => { e with state := 1, given := e.given + len }
  | 3 => if e.age = 0 then { e with age := 1 } else {}
  | _ => e

/-- The leader's batch after a publish. -/
def publishedBatch (x : Group) : Tbl BatchEnt :=
  let es := (List.range (maxSeq x.desc)).map (fun i => (i, tget {} x.batch i))
  let lens := chunkLens x.desc es
  es.foldl (fun t e => tset {} t e.1 (afterPublish (chunkOf lens e.1) e.2)) []

/-- The step mover that the leader of a group uses: that of its partition's first sector (DESIGN CHOICE, log entry 30). -/
def leaderMover (s : State) (x : Group) : Nat := partOfCtx s x.ctx * perPart s

/-- Send a table to member m in the manner of R406, or write and signal here when it lies on this node (R416). A write or
signal that cannot be made is a CE. -/
def sendTable (g m : Nat) (table : List Byte) (off : Nat) (put : Nat → W32 → Nat → Nat → State → State) (s : State) : State :=
  let x := groupAt s g
  let node := fieldAt x.members (16 * m) 2 % 4096
  let dst := fieldAt x.members (16 * m + 8) 8
  let tw := fieldAt x.members (16 * m + 2) 2 % 16384
  let a := dst % 2 ^ 48 + off
  let home := field dst 52 12
  if field dst 48 4 ≠ 0 then reportCe 5 node 0x03 0 s
  else if home = nodeId s ∧ home ≠ 0xFFF then
    if localOk s a table.length && twGranted s x.vai tw then
      let s := accessC (.mover (leaderMover s x)) x.ctx none true a table.length s
      put tw (twAt s tw + 1) 0x3 (leaderMover s x) (writeMem a table (fun _ => false) s)
    else reportCe 5 node 0x03 0 s
  else if !routeOk s home then reportCe 5 node 0x03 0 s
  else
    let ps := cutAt 512 table.length a table
    let s := { s with sg := { s.sg with tables := s.sg.tables ++ [(g, m, x.step, ps.length)] } }
    each ps (fun p s => sendReq home 0 0x02 p.1 0 0 p.2.length p.2 (.table g m x.step) 0 x.ctx s) s

/-- Publish the next batch as the table of this serving step, and distribute it (R415, R416). -/
def publish (g : Nat) (put : Nat → W32 → Nat → Nat → State → State) (s : State) : State :=
  let x := groupAt s g
  let table := batchTable x
  let off := x.step % 2 * (64 + 32 * maxSeq x.desc)
  let s := writeCtl .front x.ctx (fieldAt x.desc 36 8 + off) table s
  let s := modGroup g (fun y => { y with batch := publishedBatch x, step := (y.step + 1) % 2 ^ 64 }) s
  let tw := fieldAt x.desc 22 2 % 16384
  let s := if twGranted s x.vai tw then put tw (twAt s tw + 1) 0x3 (leaderMover s x) s else reportCe 5 (nodeId s) 0x03 0 s
  each (List.range (byteAt x.desc 2)) (fun m s => sendTable g (m + 1) table off put s) s

/-- A gate opens: at the leader a STEP_START gate publishes; the task completes with DONE (R401). -/
def openGate (g : Gate) (put : Nat → W32 → Nat → Nat → State → State) (s : State) : State :=
  let grp := byteAt g.desc 8
  let s := { s with sg := { s.sg with gates := s.sg.gates.filter (fun h => decide (h.seq ≠ g.seq)) } }
  let s := if bit (byteAt g.desc 9) 0 && byteAt (groupAt s grp).desc 3 == 0 then publish grp put s else s
  taskEnd g.seq .done 0 none s

/-- Give a tally word a value, with everything that follows in the same operation: waiters (R537) and gates (R401). The
fuel bounds gates that open one another through TABLE_TW. -/
def tallyPut (fuel i : Nat) (v : W32) (kind id : Nat) (s : State) : State :=
  let s := tallyRelease i (twWrite i v kind id s)
  match fuel with
  | 0 => s
  | n + 1 =>
    each (s.sg.gates.filter (fun g => gateNames g.desc i)) (fun g s =>
      if s.sg.gates.any (fun h => decide (h.seq = g.seq)) && gateReady s g then openGate g (tallyPut n) s else s) s

/-- A tally word takes a value. -/
def tallySet (i : Nat) (v : W32) (kind id : Nat) (s : State) : State := tallyPut (s.sg.gates.length + 1) i v kind id s

/-- A signed addend is added to a tally word, wrapping (R534). -/
def tallyAdd (i : Nat) (d : W32) (kind id : Nat) (s : State) : State := tallySet i (twAt s i + d) kind id s

/-- Test the gates that wait, at a beat boundary (R401). -/
def testGates (s : State) : State :=
  each s.sg.gates (fun g s =>
    if s.sg.gates.any (fun h => decide (h.seq = g.seq)) && gateReady s g then
      openGate g (tallyPut (s.sg.gates.length + 1)) s else s) s

/-! ## Barrier channels -/

/-- A task that waited at a barrier goes on: with the generation in DST when the barrier released it. For a task that is saved, or
whose save runs, the sequencer latches the release (R153). -/
def wakeBarrier (seq : Nat) (gen : Option Nat) (s : State) : State :=
  if s.arr.saves.any (fun r => decide (r.seq = seq)) then
    { s with arr := { s.arr with saves := s.arr.saves.map (fun r =>
        if r.seq = seq then { r with latched := some (gen.getD 0, gen.isSome) } else r) } }
  else match arrOfTask s seq with
    | some p => modArr p (fun x => match x.stall with
        | .barrier dst _ => { (match gen with | some g => x.putS dst (w64 g) | none => x).retire with cond := gen.isSome }
        | _ => x) s
    | none => s

/-- One arrival; the arrival that completes the count releases its generation (R548). -/
def barArrive (c seq : Nat) (s : State) : State :=
  let b := barAt s c
  if b.arrived + 1 = b.countM1 + 1 then
    let s := modBar c (fun b => { b with arrived := 0, gen := (b.gen + 1) % 256, waiters := [] }) s
    each (b.waiters ++ [seq]) (fun q s => wakeBarrier q (some b.gen) s) s
  else modBar c (fun b => { b with arrived := b.arrived + 1, waiters := b.waiters ++ [seq] }) s

/-- A channel breaks: every waiting task is released with the condition at 0 (R550). -/
def barBreak (c : Nat) (s : State) : State :=
  let b := barAt s c
  let s := modBar c (fun b => { b with state := 2, waiters := [] }) s
  each b.waiters (fun q s => wakeBarrier q none s) s

/-- The channels bound to a context break. -/
def breakBars (c : Nat) (s : State) : State :=
  each ((List.range 32).filter (fun k => decide ((barAt s k).state ≠ 0 ∧ (barAt s k).ctx = c))) (fun k s => barBreak k s) s

end Sys2Proof.Machine
end

