-- ==== Sys2Proof/Machine/Operands.lean ====
section
/-!
DEFINITION. Operand forms of the array instructions: the fields of R135, the registers of R134, the local store of R140
to R143 with its poison marks (R98), and packed elements (R106).
-/
namespace Sys2Proof.Machine
open Sys2Proof

/-! ## Fields of an instruction (R135) -/

def opClass (w : Nat) : Nat := field w 60 4
def opCode (w : Nat) : Nat := field w 54 6
def opDst (w : Nat) : Nat := field w 48 6
def opSrc1 (w : Nat) : Nat := field w 42 6
def opSrc2 (w : Nat) : Nat := field w 36 6
def opMod (w : Nat) : Nat := field w 32 4
def opImm (w : Nat) : Nat := field w 0 32

/-- The immediate, sign-extended to 64 bits. -/
def opImmS (w : Nat) : W64 := BitVec.signExtend 64 (w32 (opImm w))

/-- CLASS and OP name an operation of R136. -/
def opKnown (cls op : Nat) : Bool :=
  match cls with
  | 0 => decide (op ≤ 9)
  | 1 => decide (op ≤ 11)
  | 2 => decide (op ≤ 3)
  | 3 => decide (op = 0)
  | 4 => decide (op ≤ 0x17) || decide (op = 0x20) || decide (op = 0x21)
  | 5 => decide (op ≤ 3)
  | 6 => decide (op ≤ 5)
  | 7 => decide (op ≤ 5)
  | 8 => decide (op ≤ 5)
  | _ => false

/-! ## Registers (R134) -/

/-- Address register n; a0 reads as 0. -/
def Arr.getA (x : Arr) (n : Nat) : W64 := if n = 0 then 0 else tget 0 x.a n
def Arr.putA (n : Nat) (v : W64) (x : Arr) : Arr := if n = 0 then x else { x with a := tset 0 x.a n v }
/-- Scalar register n. -/
def Arr.getS (x : Arr) (n : Nat) : W64 := tget 0 x.s n
/-- Predicate register n; p0 reads as all ones. -/
def Arr.getP (x : Arr) (n : Nat) : W64 := if n = 0 then BitVec.allOnes 64 else tget 0 x.p n
def Arr.putP (n : Nat) (v : W64) (x : Arr) : Arr := if n = 0 then x else { x with p := tset 0 x.p n v }
/-- Lane i of vector register n. -/
def Arr.getV (x : Arr) (n i : Nat) : W32 := tget 0 x.v (64 * n + i)
def Arr.putV (n i : Nat) (v : W32) (x : Arr) : Arr := { x with v := tset 0 x.v (64 * n + i) v }
/-- Accumulator of cell (i, j). -/
def Arr.getAcc (x : Arr) (i j : Nat) : W32 := tget 0 x.acc (80 * i + j)

/-- A scalar-class register: bank a when the flag is set, bank s otherwise (log entry 31). -/
def Arr.getR (x : Arr) (isA : Bool) (n : Nat) : W64 := if isA then x.getA n else x.getS n
def Arr.putR (isA : Bool) (n : Nat) (v : W64) (x : Arr) : Arr := if isA then x.putA n v else x.putS n v

/-! ## The local store (R140) -/

/-- The first address above the local store. -/
def lsTop : Nat := 0x140000

/-- [a, a + n) lies in the local store. -/
def lsIn (a n : Nat) : Bool := decide (a + n ≤ lsTop)

/-- Bytes of the local store. -/
def Arr.lsBytes (x : Arr) (a n : Nat) : List Byte := getBytes x.ls a n

/-- A granule of [a, a + n) carries the mark. -/
def Arr.lsBad (x : Arr) (a n : Nat) : Bool := (spansOf 64 a n).any (fun p => x.lsPoison.contains (p.1 / 64))

/-- Write bytes that lie in one granule, with the mark of R272. -/
def Arr.putGranule (a : Nat) (data : List Byte) (bad : Bool) (x : Arr) : Arr :=
  { x with ls := putBytes x.ls a data, lsPoison := markAfter x.lsPoison a data.length bad }

/-- Write bytes to the local store; `bad i` says that piece `i` carries the mark. -/
def Arr.putLs (a : Nat) (data : List Byte) (bad : Nat → Bool) (x : Arr) : Arr :=
  let l := cutAt 64 data.length a data
  (l.zip (List.range l.length)).foldl (fun x p => x.putGranule p.1.1 p.1.2 (bad p.2)) x

/-! ## Packed elements (R106) -/

/-- Element i of width w bits of the stream at local address `base`. -/
def Arr.packed (x : Arr) (base w i : Nat) : Nat := field (leNat (x.lsBytes (base + w * i / 8) 5)) (w * i % 8) w

/-- Element i of width w bits of a vector register read as a little-endian bit stream. -/
def Arr.packedV (x : Arr) (n w i : Nat) : Nat :=
  let k := w * i / 32
  field ((x.getV n k).toNat + 2 ^ 32 * (x.getV n (k + 1)).toNat) (w * i % 32) w

/-! ## Element formats of GCFG, CVT and DEQ (log entry 31) -/

/-- The class of a pair of operands (R108). -/
inductive GridClass where
  | int | block | float
deriving DecidableEq, Repr

/-- The format that a code names. -/
def fmtOf (c : Nat) : Option Fmt :=
  match c with
  | 0 => some .e2m1 | 1 => some .e2m3 | 2 => some .e3m2 | 3 => some .e4m3 | 4 => some .e5m2 | 5 => some .mxint8
  | 6 => some .int8 | 7 => some .int4 | 8 => some .e4m3 | 9 => some .e5m2 | 10 => some .bf16 | 11 => some .fp16
  | 12 => some .t2 | 13 => some .fp32 | _ => none

/-- The class of two operand codes, none when R108 does not pair them. -/
def gridClass (a b : Nat) : Option GridClass :=
  let int := fun (c : Nat) => decide (c = 6 ∨ c = 7)
  let flt := fun (c : Nat) => decide (8 ≤ c ∧ c ≤ 11)
  if int a && int b then some .int
  else if flt a && flt b then some .float
  else if a ≤ 5 ∧ b ≤ 5 then some .block
  else if (a = 12 ∧ b = 0) ∨ (a = 0 ∧ b = 12) then some .block
  else none

end Sys2Proof.Machine
end

