-- ==== Sys2Proof/Machine/Flags.lean ====
section
/-!
DEFINITION. The sticky flags of a task (R116) and the arithmetic that raises them: the cells of the grid (R110), the drain
(R111) and the lanes of the vector unit.
-/
namespace Sys2Proof.Machine
open Sys2Proof

/-- The flags a result raises. -/
def Arr.raise (r : Res) (x : Arr) : Arr :=
  { x with invalid := x.invalid || r.invalid, overflow := x.overflow || r.overflow }

/-- The flags as RDFLAG reads them: bit 0 INVALID, 1 OVERFLOW, 2 ISAT, 3 NAN_SCALE, 4 T2_RSVD (log entry 31). -/
def Arr.flags (x : Arr) : Nat :=
  b2n x.invalid + 2 * b2n x.overflow + 4 * b2n x.isat + 8 * b2n x.nanScale + 16 * b2n x.t2rsvd

/-- Clear the flags of a mask. -/
def Arr.clearFlags (m : Nat) (x : Arr) : Arr :=
  { x with invalid := x.invalid && !bit m 0, overflow := x.overflow && !bit m 1, isat := x.isat && !bit m 2,
           nanScale := x.nanScale && !bit m 3, t2rsvd := x.t2rsvd && !bit m 4 }

/-- A cell in work: its accumulator and the flags raised. -/
structure Cell where
  acc      : W32
  invalid  : Bool := false
  overflow : Bool := false
  isat     : Bool := false
  nanScale : Bool := false
deriving DecidableEq, Repr

/-- The accumulator takes an FP32 result. -/
def Cell.take (r : Res) (c : Cell) : Cell :=
  { c with acc := w32 r.code, invalid := c.invalid || r.invalid, overflow := c.overflow || r.overflow }

/-- Integer class: add a product, saturating to 32 bits (R110). -/
def Cell.addInt (a b : Int) (c : Cell) : Cell :=
  let v := c.acc.toInt + a * b
  if v > 2 ^ 31 - 1 then { c with acc := 0x7FFFFFFF, isat := true }
  else if v < -(2 ^ 31) then { c with acc := 0x80000000, isat := true }
  else { c with acc := BitVec.ofInt 32 v }

/-- Float class: add an exact product with one rounding (R110). -/
def Cell.addFloat (a b : Num) (c : Cell) : Cell :=
  c.take (fp32Of (a.snan || b.snan || (f32 c.acc).snan) (match numMul a b with
    | none => none
    | some p => numAdd (f32 c.acc) p))

/-- The exact sum of products, from -0, which changes no sum; none where an operation is invalid. -/
def sumProducts (l : List (Num × Num)) : Option Num :=
  l.foldl (fun s p => match s, numMul p.1 p.2 with
    | some x, some y => numAdd x y
    | _, _ => none) (some (.fin true 0 0))

/-- Multiply by a power of two. -/
def Num.scale (k : Int) : Num → Num
  | .fin n m e => .fin n m (e + k)
  | x => x

/-- Block-scaled class: the exact sum of a block's products times the two scales, added with one rounding (R103, R110). A
NaN scale makes the block's elements NaN. -/
def Cell.addBlock (l : List (Num × Num)) (sa sb : Nat) (c : Cell) : Cell :=
  match scaleOf sa, scaleOf sb with
  | some x, some y =>
    let snan := l.any (fun p => p.1.snan || p.2.snan) || (f32 c.acc).snan
    c.take (fp32Of snan (match sumProducts l with
      | none => none
      | some z => numAdd (f32 c.acc) (z.scale (x + y))))
  | _, _ =>
    let snan := l.any (fun p => p.1.snan || p.2.snan) || (f32 c.acc).snan
    { c with acc := w32 (Fmt.nanCode .fp32), invalid := c.invalid || snan, nanScale := true }

/-- Where a GSTEP finds its operands: formats, element widths, bases, scale base and number of steps. Row i of A holds
its K elements from element i × K of the stream at `abase`; column j of B likewise; one scale code per block of 32, the
rows of A before the columns of B (log entry 31). -/
structure GridOp where
  cls   : GridClass
  fa    : Fmt
  fb    : Fmt
  abase : Nat
  bbase : Nat
  sbase : Nat
  k     : Nat
deriving DecidableEq, Repr

/-- Element k of row i of A, and of column j of B. -/
def GridOp.elemA (g : GridOp) (x : Arr) (i k : Nat) : Num := decodeNum g.fa (x.packed g.abase g.fa.bits (i * g.k + k))
def GridOp.elemB (g : GridOp) (x : Arr) (j k : Nat) : Num := decodeNum g.fb (x.packed g.bbase g.fb.bits (j * g.k + k))

/-- The numbers from `lo` up to `hi`. -/
def stepsOf (lo hi : Nat) : List Nat := (List.range (hi - lo)).map (fun k => lo + k)

/-- The integer of an integer element. -/
def Num.int : Num → Int
  | .fin n m _ => if n then -(m : Int) else (m : Int)
  | _ => 0

/-- Cell (i, j) after steps [lo, hi) of a GSTEP, from its accumulator (R95, R110). -/
def GridOp.cell (g : GridOp) (x : Arr) (lo hi i j : Nat) (acc : W32) : Cell :=
  match g.cls with
  | .int => (stepsOf lo hi).foldl (fun c k => c.addInt (g.elemA x i k).int (g.elemB x j k).int) { acc := acc }
  | .float => (stepsOf lo hi).foldl (fun c k => c.addFloat (g.elemA x i k) (g.elemB x j k)) { acc := acc }
  | .block =>
    let nb := g.k / 32
    (stepsOf (lo / 32) (hi / 32)).foldl (fun c b =>
      let l := (List.range 32).map (fun k => (g.elemA x i (32 * b + k), g.elemB x j (32 * b + k)))
      c.addBlock l (byteAt (x.lsBytes (g.sbase + i * nb + b) 1) 0) (byteAt (x.lsBytes (g.sbase + 80 * nb + j * nb + b) 1) 0))
      { acc := acc }

/-- Bytes of one operand of a GSTEP. -/
def operandBytes (f : Fmt) (k : Nat) : Nat := ceilDiv (80 * k * f.bits) 8

/-- Bytes of the scale stream of a GSTEP. -/
def GridOp.scaleBytes (g : GridOp) : Nat := if g.cls = .block then 160 * (g.k / 32) else 0

/-- The streams of the local store that a GSTEP reads: the operands, and the scales of the block-scaled class (R105). -/
def GridOp.streams (g : GridOp) : List (Nat × Nat) :=
  [(g.abase, operandBytes g.fa g.k), (g.bbase, operandBytes g.fb g.k)] ++ (if g.cls = .block then [(g.sbase, g.scaleBytes)] else [])

/-- The operands of a GSTEP lie in the local store. -/
def GridOp.inStore (g : GridOp) : Bool := g.streams.all (fun r => lsIn r.1 r.2)

/-- The bases of a GSTEP are granule-aligned (R141). -/
def GridOp.aligned (g : GridOp) : Bool := g.streams.all (fun r => decide (r.1 % 64 = 0))

/-- Some granule that a GSTEP reads carries the mark. -/
def GridOp.bad (g : GridOp) (x : Arr) : Bool := g.streams.any (fun r => x.lsBad r.1 r.2)

/-- The grid reads a reserved T2 code in steps [lo, hi) (R102). -/
def GridOp.rsvd (g : GridOp) (x : Arr) (lo hi : Nat) : Bool :=
  let has := fun (base : Nat) => (List.range 80).any (fun i => (stepsOf lo hi).any (fun k => x.packed base 2 (i * g.k + k) == 2))
  (g.fa == .t2 && has g.abase) || (g.fb == .t2 && has g.bbase)

/-- The grid runs steps [lo, hi): every cell, its flags, and the mark of the tile (R98, R102). The first step of a GSTEP that
starts the tile takes the accumulators as zero (R112). -/
def GridOp.run (g : GridOp) (zero : Bool) (lo hi : Nat) (x : Arr) : Arr :=
  let zero := zero && decide (lo = 0)
  let cells := (List.range 6400).map (fun i => g.cell x lo hi (i / 80) (i % 80) (if zero then 0 else tget 0 x.acc i))
  let acc := (cells.zip (List.range 6400)).foldl (fun t c => tset 0 t c.2 c.1.acc) []
  { x with acc := acc, invalid := x.invalid || cells.any (fun c => c.invalid),
           overflow := x.overflow || cells.any (fun c => c.overflow), isat := x.isat || cells.any (fun c => c.isat),
           nanScale := x.nanScale || cells.any (fun c => c.nanScale), t2rsvd := x.t2rsvd || g.rsvd x lo hi,
           tilePoison := (x.tilePoison && !zero) || g.bad x || g.rsvd x lo hi }

/-- The FP32 value of an INT32 accumulator (R111). -/
def i32ToF32 (w : W32) : Num :=
  f32 (w32 (convert .fp32 false false (.fin (decide (w.toInt < 0)) w.toInt.natAbs 0)).code)

/-- What a DRAIN does on the way to the local store (R104, R111): the class is integer, one scale for each row of A and
column of B instead of one pair, an FP32 bias per column, the maximum with 0, and the format written. -/
structure Epilogue where
  int  : Bool
  rows : Bool
  bias : Bool
  relu : Bool
  fmt  : Fmt
  rz   : Bool
  sat  : Bool
deriving DecidableEq, Repr

/-- A result after a further operation: its code, the flags of both. -/
def Res.andThen (r : Res) (f : W32 → Res) : Res :=
  let q := f (w32 r.code)
  { q with invalid := q.invalid || r.invalid, overflow := q.overflow || r.overflow }

/-- One accumulator on its way to the local store (R104, R111): an integer one is converted and multiplied by the product
of its scales; then come the bias, the maximum with 0 and the conversion (log entry 31). -/
def drainCell (e : Epilogue) (acc sa sb bias : W32) : Res :=
  let r : Res := if e.int then
      fp32Of ((f32 sa).snan || (f32 sb).snan) (match numMul (f32 sa) (f32 sb) with
        | none => none
        | some p => numMul (i32ToF32 acc) p)
    else { code := acc.toNat }
  let r := if e.bias then r.andThen (fun w => fadd32 w bias) else r
  let r := if e.relu then r.andThen (fun w => fminmax32 true w 0) else r
  if e.fmt = .fp32 then r else r.andThen (fun w => convert e.fmt e.rz e.sat (f32 w))

/-- Elements of `w` bits as a little-endian bit stream (R106). -/
def packBits (w : Nat) (l : List Nat) : Nat := l.foldr (fun c n => c % 2 ^ w + 2 ^ w * n) 0

/-- The bytes of such a stream, for a multiple of 8 elements. -/
def packBytes (w : Nat) (l : List Nat) : List Byte := ((chunks 8 l.length l).map (fun c => leBytes w (packBits w c))).flatten

/-! ## The lanes of the vector unit (R121) -/

/-- FP32 operations by OP: 0 add, 1 multiply, 2 fused multiply-add, 3 minimum, 4 maximum, 6 reciprocal, 7 reciprocal square
root, 8 base-2 exponential, 9 base-2 logarithm (log entry 31). -/
def vecFp (op : Nat) (a b c : W32) : Option Res :=
  match op with
  | 0 => some (fadd32 a b) | 1 => some (fmul32 a b) | 2 => some (ffma32 a b c) | 3 => some (fminmax32 false a b)
  | 4 => some (fminmax32 true a b) | 6 => some (frecip32 a) | 7 => some (frsqrt32 a) | 8 => some (fexp2 a)
  | 9 => some (flog2 a) | _ => none

/-- INT32 operations by OP, wrapping: 0x10 add, 0x11 subtract, 0x12 multiply, 0x13 shift left, 0x14 shift right, 0x15 and,
0x16 or, 0x17 exclusive or (log entry 31). A shift of 32 or more gives 0. -/
def vecInt (op : Nat) (a b : W32) : W32 :=
  match op with
  | 0x10 => a + b | 0x11 => a - b | 0x12 => a * b | 0x13 => a <<< b.toNat | 0x14 => a >>> b.toNat
  | 0x15 => a &&& b | 0x16 => a ||| b | _ => a ^^^ b

/-- Apply an operation to the lanes that predicate register `p` selects. -/
def Arr.lanes (dst p : Nat) (f : Nat → Res) (x : Arr) : Arr :=
  let m := x.getP p
  (List.range 64).foldl (fun y i => if m.getLsbD i then (y.putV dst i (w32 (f i).code)).raise (f i) else y) x

/-- The mark of a vector register after an operation: that of its sources and of the predicate (R98); lanes left alone keep
its own. -/
def Arr.markV (dst p : Nat) (srcs : List Nat) (x : Arr) : Arr :=
  let bad := srcs.any (fun n => x.vPoison.contains n) || x.pPoison.contains p ||
    (x.getP p != BitVec.allOnes 64 && x.vPoison.contains dst)
  { x with vPoison := if bad then sinsert dst x.vPoison else sremove dst x.vPoison }

/-- Bits [lo + n - 1 : lo] of a vector register, read as a little-endian bit stream, take the bits of `v`; the others stay. -/
def Arr.putBitsV (dst lo n v : Nat) (x : Arr) : Arr :=
  let old := leNat (((List.range 64).map (fun i => leBytes 4 (x.getV dst i).toNat)).flatten)
  let new := old % 2 ^ lo + 2 ^ lo * (v % 2 ^ n) + 2 ^ (lo + n) * (old / 2 ^ (lo + n))
  (List.range 64).foldl (fun y i => y.putV dst i (w32 (field new (32 * i) 32))) x

/-- The mark of a vector register of which a part is written from `srcs`: the part that stays keeps its mark. -/
def Arr.markPart (dst : Nat) (srcs : List Nat) (x : Arr) : Arr :=
  if srcs.any (fun n => x.vPoison.contains n) then { x with vPoison := sinsert dst x.vPoison } else x

end Sys2Proof.Machine
end

