-- ==== Sys2Proof/Machine/SchedOps.lean ====
section
/-!
DEFINITION. Ranks and turns (R500-R505), task queues and sequencers (R497-R501), pre-emption requests (R509-R511), and the
issue of engine tasks (R59, R60).
-/
namespace Sys2Proof.Machine
open Sys2Proof

/-! ## Classes and ranks -/

/-- The lowest class of a mask. -/
def lowClass (mask : Nat) : Nat := (firstFrom (fun c => bit mask c) 0 16).getD 0

/-- The class as which a queue is scheduled (R602). -/
def classOf (s : State) (q : Nat) : Nat :=
  let x := queueAt s q
  let mask := (vaiAt s x.vai).classes
  if bit mask x.cls then x.cls else lowClass mask

/-- The owner of the turn in force of partition p (R502). -/
def turnOwner (s : State) (p : Nat) : Nat :=
  field (regGet s (0x101000 + 0x400 * p + 0x200 + 4 * (partAt s p).turn)) 0 5

/-- The rank of a class in partition p now (R500, R505). -/
def rankOf (s : State) (p c : Nat) : Nat :=
  let x := partAt s p
  let o := turnOwner s p
  let be := bit x.beMask c
  if x.fair ∨ o = 0x1F then 1
  else if o = 0x1E then (if be then 2 else 1)
  else if c = o then 1
  else if be then 3 else 2

/-- The rank of a task. -/
def taskRank (s : State) (t : Task) : Nat := rankOf s (partOfCtx s t.ctx) (classOf s t.queue)

/-- The weight of a class (R527). -/
def weightOf (s : State) (p c : Nat) : Nat := max 1 (field (regGet s (0x101010 + 0x400 * p + 4 * (c / 8))) (4 * (c % 8)) 4)

/-- Task a goes before task b: rank, then the ratio of cycles used to weight, then class, then age (R500). -/
def goesFirst (s : State) (a b : Task) : Bool :=
  let p := partOfCtx s a.ctx
  let ca := classOf s a.queue
  let cb := classOf s b.queue
  let ra := taskRank s a
  let rb := taskRank s b
  let ua := tget 0 (partAt s p).used ca * weightOf s p cb
  let ub := tget 0 (partAt s p).used cb * weightOf s p ca
  if ra ≠ rb then decide (ra < rb)
  else if ua ≠ ub then decide (ua < ub)
  else if ca ≠ cb then decide (ca < cb)
  else decide (a.ready < b.ready)

/-- The task that goes first. -/
def firstTask (s : State) (l : List Task) : Option Task :=
  l.foldl (fun o t => match o with
    | none => some t
    | some u => if goesFirst s t u then some t else some u) none

/-! ## Sequencers -/

/-- Sector n is online (R679). -/
def sectorOn (s : State) (n : Nat) : Bool := (tget {} s.fw.sector n).state == 0

/-- Arrays of sequencer k that take work: backed, enabled, their sector in service. -/
def arraysOf (s : State) (k : Nat) : List Nat :=
  ((List.range 18).map (fun i => 18 * k + i)).filter (fun l => match physOf s l with
    | some p => (physAt s p).role == 2 && sectorOn s (l / 72)
    | none => false)

/-- A queue may start a task: no completion entry waits for room (R440), it is not held for a transaction (R442). -/
def mayRun (s : State) (q : Nat) : Bool := !(queueAt s q).cqFull && (queueAt s q).state != .busy

/-- A context has saved tasks that have not been restored (R161): they come before its new tasks. -/
def hasSaved (s : State) (c : Nat) : Bool := s.arr.saves.any (fun r => r.done && decide (r.ctx = c))

/-- The tasks from which sequencer k may fill a task queue. -/
def fillable (s : State) (k : Nat) : List Task :=
  s.fe.tasks.filter (fun t => mayRun s t.queue &&
    (decide (t.place = .saved k) || (decide (t.place = .lsq k) && !hasSaved s t.ctx)))

/-- The array of a sequencer that takes a task: the one that saved it if it has room, else the one with the fewest
entries, the task it runs counted unless the array is asked to save it (DESIGN CHOICE, log entry 32). -/
def fillArray (s : State) (k : Nat) (t : Task) : Option Nat :=
  let len := fun (l : Nat) => match physOf s l with
    | some p =>
      let x := arrAt s p
      x.queue.length + (if x.task.isSome && x.saving.isNone && x.preempt.isNone then 1 else 0)
    | none => 99
  let room := (arraysOf s k).filter (fun l => match physOf s l with
    | some p => decide ((arrAt s p).queue.length < 4)
    | none => false)
  let home := (s.arr.saves.find? (fun r => decide (r.seq = t.seq) && r.done)).map (fun r => r.phys)
  match room.find? (fun l => home.isSome && physOf s l == home) with
  | some l => some l
  | none => minBy len room

/-- Fill task-queue entries while there are tasks and room (R498). -/
def refill (fuel k : Nat) (s : State) : State :=
  match fuel with
  | 0 => s
  | n + 1 =>
    match firstTask s (fillable s k) with
    | none => s
    | some t =>
      match fillArray s k t with
      | none => s
      | some l =>
        match physOf s l with
        | none => s
        | some p =>
          refill n k (modArr p (fun x => { x with queue := x.queue ++ [t.seq] })
            (modTask t.seq (fun t => { t with place := .entry l }) s))

/-- Fill the task queues of sequencer k. -/
def fillSeq (k : Nat) (s : State) : State := refill 72 k s

/-! ## Pre-emption requests (R150-R152) -/

/-- A request reaches physical array p: ignored while it is idle or saving, held during a restore (R152). -/
def requestPre (p : Nat) (now : Bool) (s : State) : State :=
  modArr p (fun x =>
    if x.task.isNone ∨ x.saving.isSome then x
    else if x.restore then { x with heldPre := some ⟨now⟩ }
    else { x with preempt := some ⟨now || (match x.preempt with | some r => r.now | none => false)⟩ }) s

/-- Array l runs a task that is not of rank 1 and was not started or restored at rank 1 in this turn (R509, R510). -/
def preemptable (s : State) (l : Nat) : Bool :=
  match physOf s l with
  | none => false
  | some p =>
    let x := arrAt s p
    match x.task.bind (taskOf s) with
    | none => false
    | some t => !x.rank1 && x.saving.isNone && x.preempt.isNone && taskRank s t != 1

/-- Rank-1 tasks of sequencer k, ready and saved, that no array has started. -/
def rank1Waiting (s : State) (k : Nat) : Nat :=
  (s.fe.tasks.filter (fun t => taskRank s t == 1 && (match t.place with
    | .lsq j => j == k | .saved j => j == k | .entry l => l / 18 == k | _ => false))).length

/-- Arrays of sequencer k that are idle or already saving or asked to save. -/
def freeing (s : State) (k : Nat) : Nat :=
  ((arraysOf s k).filter (fun l => match physOf s l with
    | some p => (arrAt s p).task.isNone || (arrAt s p).saving.isSome || (arrAt s p).preempt.isSome
    | none => false)).length

/-- The eligible arrays whose tasks started last, `n` of them. -/
def latest (s : State) (n : Nat) (l : List Nat) : List Nat :=
  match n with
  | 0 => []
  | n + 1 =>
    let key := fun (l : Nat) => 2 ^ 64 - (match physOf s l with | some p => (arrAt s p).started | none => 0)
    match minBy key l with
    | none => []
    | some x => x :: latest s n (l.filter (fun y => decide (y ≠ x)))

/-- A task-queue entry of array l that is not of rank 1 goes back to the sequencer's list (R501). -/
def requeueEntry (l p seq : Nat) (s : State) : State :=
  match taskOf s seq with
  | none => s
  | some t =>
    if taskRank s t = 1 then s
    else
      let saved := s.arr.saves.any (fun r => decide (r.seq = seq))
      modArr p (fun x => { x with queue := x.queue.erase seq })
        (modTask seq (fun t => { t with place := if saved then .saved (l / 18) else .lsq (l / 18) }) s)

/-- Sequencer k takes back the entries that have not started and are not of rank 1 (R501). -/
def requeue (k : Nat) (s : State) : State :=
  each ((List.range 18).map (fun i => 18 * k + i)) (fun l s => match physOf s l with
    | some p => each (arrAt s p).queue (fun q s => requeueEntry l p q s) s
    | none => s) s

/-- Sequencer k raises the requests of R509, no more than R510 allows. -/
def raisePre (k : Nat) (s : State) : State :=
  let p := partOfArray s (18 * k)
  let x := partAt s p
  if x.fair ∨ turnOwner s p = 0x1F then s
  else
    let n := rank1Waiting s k - freeing s k
    let l := latest s n ((arraysOf s k).filter (preemptable s))
    let s := each l (fun l s => match physOf s l with
      | some p => requestPre p false s
      | none => s) s
    if l.isEmpty then s else fillSeq k (requeue k s)

/-- An array of a partition is idle. -/
def idleArray (s : State) (p : Nat) : Bool :=
  (lsqsOf s p).any (fun k => (arraysOf s k).any (fun l => match physOf s l with
    | some q => (arrAt s q).task.isNone
    | none => false))

/-- A rank-1 task has become ready or been saved within an owned turn (R509, second case). -/
def raiseInTurn (k : Nat) (s : State) : State :=
  if idleArray s (partOfArray s (18 * k)) then s else raisePre k s

/-! ## Staging (R478, R479) -/

/-- Read the staging extent of a task into the near-tier cache. An extent outside the block's own far tier is skipped. -/
def stageTask (t : Task) (s : State) : State :=
  let va := fieldAt t.record 24 8
  let n := fieldAt t.record 32 4
  let ps := (spansOf 4096 va n).map (fun p => (xl s .front t.ctx p.1 p.2 .read, p))
  let own := ps.all (fun p => match p.1 with | .ok 0 a => isFar a | _ => false)
  let cache := (List.range 7).any (cacheServes s)
  let s := modTask t.seq (fun t => { t with staged := true }) s
  if own && cache then
    each ps (fun p s => match p.1 with
      | .ok _ a => accessC .front t.ctx (some (partOfCtx s t.ctx)) false a p.2.2 (xlFill .front t.ctx p.2.1 s)
      | .fault _ => s) s
  else s

/-- The first PREFETCH_DEPTH tasks of a queue that wait for an array and have STAGE set. -/
def toStage (s : State) (q : Nat) : List Task :=
  (s.fe.tasks.filter (fun t => t.queue == q && t.ty == 0 && bit (byteAt t.record 2) 2 && (match t.place with
    | .lsq _ => true | .entry _ => !s.arr.saves.any (fun r => decide (r.seq = t.seq)) | _ => false))).take (queueAt s q).depth

/-- Stage ahead for a queue. -/
def stageQueue (q : Nat) (s : State) : State := each ((toStage s q).filter (fun t => !t.staged)) stageTask s

/-! ## Engines (R58-R60) -/

/-- Whether EAP e is wired and enabled and serves a type (R59, R84). -/
def eapServes (s : State) (e ty : Nat) : Bool :=
  let r := regGet s (0x20 + 4 * e)
  bit (regGet s 0x8) (20 + e) && bit r 31 && bit r 15 && bit r 7 && decide (field r 0 8 ≤ ty) && decide (ty ≤ field r 8 8)

/-- The EAP of a task type (R59). -/
def eapOf (s : State) (ty : Nat) : Option Nat := firstFrom (fun e => eapServes s e ty) 0 4

/-- The outstanding tags of an EAP. -/
def eapLoad (s : State) (e : Nat) : Nat := (s.blk.eapTags.filter (fun t => decide (t.eap = e ∧ t.reset < 2))).length

/-- The issue tag of a task: queue, context, generation of the queue, SEQ (R52). -/
def issueTag (q c gen seq : Nat) : Nat := q % 1024 * 2 ^ 54 + c % 512 * 2 ^ 45 + gen % 256 * 2 ^ 37 + seq % 2 ^ 37

/-- Issue a task to an engine. -/
def issueEap (e seq : Nat) (s : State) : State :=
  match taskOf s seq with
  | none => s
  | some t =>
    let gen := (queueAt s t.queue).gen
    let tag : EapTag := { eap := e, queue := t.queue, ctx := t.ctx, gen := gen, seq := seq, cancelled := false,
                          reset := 0 }
    let s := { s with blk := { s.blk with eapTags := s.blk.eapTags ++ [tag] } }
    let s := modTask seq (fun t => { t with place := .eap e, start := beat s }) s
    emit (.eapIssue e (issueTag t.queue t.ctx gen seq) t.record) s

/-- Issue waiting engine tasks while tags are free, in the order in which they became ready (R60). -/
def issueWaiting (fuel e : Nat) (s : State) : State :=
  match fuel with
  | 0 => s
  | n + 1 =>
    if field (regGet s (0x20 + 4 * e)) 24 6 < eapLoad s e then s
    else
      let may := s.blk.eapWait.filter (fun w => decide (w.1 = e) && (match taskOf s w.2 with
        | some t => mayRun s t.queue
        | none => true))
      match minBy (fun w => ((taskOf s w.2).map (fun t => t.ready)).getD 0) may with
      | none => s
      | some w => issueWaiting n e (issueEap e w.2 { s with blk := { s.blk with eapWait := s.blk.eapWait.erase w } })

/-- An engine's task is cancelled: CANCEL goes out for its tag (R55). -/
def cancelTag (t : EapTag) (s : State) : State :=
  let s := { s with blk := { s.blk with eapTags := s.blk.eapTags.map (fun x => if x = t then { x with cancelled := true } else x) } }
  emit (.eapCancel t.eap (issueTag t.queue t.ctx t.gen t.seq)) s

end Sys2Proof.Machine
end

