-- ==== Sys2Proof/Machine/ArrayOps.lean ====
section
/-!
DEFINITION. How an array executes: the instruction at its program counter (R130, R135-R137), the end of its task, transfers
(R138), saves (R150-R165) and the waits of the SYNC class (R535, R536).
-/
namespace Sys2Proof.Machine
open Sys2Proof

/-! ## The end of a task on an array -/

/-- A request of an array that its owner has abandoned. -/
def isArrUse (l : Nat) (u : ReqUse) : Bool :=
  match u with
  | .load k _ => k == l | .store k => k == l | .atom k => k == l | .signal k => k == l | _ => false

/-- Outstanding reads of a load of array l lose their owner; its stores stay (R153, R155). -/
def cancelLoad (l : Nat) (s : State) : State :=
  let isLoad := fun (u : ReqUse) => match u with | .load k _ => k == l | _ => false
  let reqs := s.fab.reqs.map (fun r => if isLoad r.use then { r with use := .dropped false 0x3FF } else r)
  dropReads false 0x3FF (fun r => r.use == .load l) { s with fab := { s.fab with reqs := reqs } }

/-- Outstanding loads and stores of array l lose their owner. -/
def abandonArr (l : Nat) (s : State) : State :=
  let reqs := s.fab.reqs.map (fun r => if isArrUse l r.use then { r with use := .dropped false 0x3FF } else r)
  dropReads false 0x3FF (fun r => r.use == .load l) { s with fab := { s.fab with reqs := reqs } }

/-- The array gives up its task: what remains is the stores, until the next task (R133). -/
def Arr.idle (c : Nat) (x : Arr) : Arr :=
  { lastCtx := some c, ls := x.ls, lsPoison := x.lsPoison, v := x.v, vPoison := x.vPoison, acc := x.acc,
    tilePoison := x.tilePoison, saveGen := x.saveGen, queue := x.queue, gated := x.gated, started := x.started }

/-- The array of a task that ends or is saved becomes free. -/
def leaveArray (p : Nat) (s : State) : State :=
  let x := arrAt s p
  let c := ((x.task.bind (taskOf s)).map (fun t => t.ctx)).getD (x.lastCtx.getD 0)
  let s := { s with tw := { s.tw with waits := s.tw.waits.filter (fun w => decide (w.phys ≠ p)) } }
  modArr p (Arr.idle c) (abandonArr (physAt s p).logical (dropRuns (.array (physAt s p).logical) s))

/-- Array cycles of a task are counted to its class and its VAI (R477, R500, R755). The number is not stated: a free
value. -/
def useCycles (q cyc : Nat) (s : State) : State :=
  let v := (queueAt s q).vai
  let c := classOf s q
  let s := modPart (vaiAt s v).part (fun x => { x with used := tset 0 x.used c (tget 0 x.used c + cyc) }) s
  modVai v (fun x => { x with cycles := x.cycles + cyc }) s

/-- A task that has ended waits at no barrier channel; its arrival stays counted. -/
def leaveBars (seq : Nat) (s : State) : State :=
  each ((List.range 32).filter (fun k => (barAt s k).waiters.contains seq)) (fun k s =>
    modBar k (fun b => { b with waiters := sremove seq b.waiters }) s) s

/-- The task of physical array p ends. -/
def endOnArray (p seq : Nat) (st : Status) (guilt : Option (Nat × Nat)) (s : State) : State :=
  match taskOf s seq with
  | none => leaveArray p s
  | some t =>
    let (x, s) := fresh s
    let cyc := x % 2 ^ 48
    taskEnd seq st cyc guilt (leaveBars seq (leaveArray p (useCycles t.queue cyc s)))

/-- The task ends with a Q-class fault. -/
def faultOn (p seq : Nat) (st : Status) (s : State) : State :=
  endOnArray p seq st (some (qType st, detailOf (((taskOf s seq).map (fun t => t.ctx)).getD 0) 0)) s

/-- The task ends on a translation fault (R569). -/
def xlatOn (p seq c kind va : Nat) (s : State) : State :=
  endOnArray p seq .faultAddress (some (0x11, detailOf c va)) (recordFault c kind 1 va s)

/-! ## Execution -/

/-- The word at the program counter; the status of an instruction that cannot be read (R137, R140, R778). -/
def fetch (x : Arr) : Except Status Nat :=
  if !lsIn x.pc 8 then .error .faultAddress
  else if x.pc % 8 ≠ 0 ∨ x.lsBad x.pc 8 = true then .error .faultFormat
  else
    let w := leNat (x.lsBytes x.pc 8)
    if opKnown (opClass w) (opCode w) then .ok w else .error .faultFormat

/-- The physical array that executes for logical array l, and its task: it is backed and in service, has a task, and no
instruction, save or restore is in progress. -/
def executing (s : State) (l : Nat) : Option (Nat × Task) :=
  match physOf s l with
  | none => none
  | some p =>
    let x := arrAt s p
    if x.stall == .none && x.saving.isNone && !x.restore && !x.gated then
      (x.task.bind (taskOf s)).map (fun t => (p, t))
    else none

/-- The operands of a GSTEP; none where R108 does not pair the formats or a block-scaled depth is no multiple of 32 (R107, log
entry 131). -/
def gridOpOf (x : Arr) (w : Nat) : Option GridOp :=
  match gridClass x.fmtA x.fmtB, fmtOf x.fmtA, fmtOf x.fmtB with
  | some c, some fa, some fb =>
    if c = .block ∧ opImm w % 32 ≠ 0 then none
    else some { cls := c, fa := fa, fb := fb, abase := (x.getA (opSrc1 w)).toNat, bbase := (x.getA (opSrc2 w)).toNat,
                sbase := (x.getA (opDst w)).toNat, k := opImm w }
  | _, _, _ => none

/-- What a DRAIN does, by its MOD and IMM: MOD bit 0 scales per row, bit 1 the maximum with 0, bit 2 the bias, bit 3 the format of
IMM[3:0] instead of FP32, rounded toward zero with IMM[4], saturating with IMM[5] (log entry 31). None where no format is named. -/
def epilogueOf (x : Arr) (w : Nat) : Option Epilogue :=
  let int := gridClass x.fmtA x.fmtB == some .int
  let go := fun (f : Fmt) (rz sat : Bool) =>
    ({ int := int, rows := bit (opMod w) 0, bias := bit (opMod w) 2, relu := bit (opMod w) 1, fmt := f, rz := rz, sat := sat } : Epilogue)
  if !bit (opMod w) 3 then (if opImm w = 0 then some (go .fp32 false false) else none)
  else match fmtOf (opImm w % 16) with
    | some f => if f = .t2 ∨ 64 ≤ opImm w then none else some (go f (bit (opImm w) 4) (bit (opImm w) 5))
    | none => none

/-- Bytes of the scales that a DRAIN reads: one pair per tile, or one per row of A and one per column of B (R104). -/
def Epilogue.scaleBytes (e : Epilogue) : Nat := if e.int then (if e.rows then 640 else 8) else 0

/-- Bytes of the bias that a DRAIN reads: one FP32 value per column. -/
def Epilogue.biasBytes (e : Epilogue) : Nat := if e.bias then 320 else 0

/-- Bytes that a whole DRAIN writes. -/
def Epilogue.outBytes (e : Epilogue) : Nat := 800 * e.fmt.bits

/-- The ranges of the local store that the instruction `w` reads, its own word first. -/
def lsReads (x : Arr) (w : Nat) : List (Nat × Nat) :=
  let a := (x.getA (opSrc1 w)).toNat
  (x.pc, 8) :: (match opClass w, opCode w with
    | 2, 2 => [(a, 25600)]
    | 2, 3 => match gridOpOf x w with
      | some g => g.streams
      | none => []
    | 3, 0 => match epilogueOf x w with
      | some e => [((x.getA (opSrc2 w)).toNat, e.scaleBytes), ((x.getA (opDst w)).toNat, e.biasBytes)]
      | none => []
    | 4, 0x20 => [(a, 256)]
    | 6, 1 => [((x.getS (opSrc2 w)).toNat, opImm w)]
    | 6, 3 => [((x.getS (opSrc2 w)).toNat, opImm w)]
    | 8, 0 => [(a, 64)]
    | _, _ => [])

/-- What the code of the local store of physical array p found in one word (R98): a corrected error is counted, an uncorrectable one
marks the granule. -/
def lsError (p c : Nat) (e : LsError) (s : State) : State :=
  if e.two then
    reportCe 1 (arrName s p) 0x02 (detailOf c 0) (modArr p (fun x => { x with lsPoison := sinsert (e.addr / 64) x.lsPoison }) s)
  else reportCe 1 (arrName s p) 0x01 (detailOf c 0) (modPhys p (fun x => { x with ce := sat 8 (x.ce + 1) }) s)

/-- The errors that the code finds in the words that the next instruction of array l reads, when that is operation `op` of class
`cls`; what lies elsewhere in the store is not read. -/
def lsFound (l cls op : Nat) (ecc : List LsError) (s : State) : State :=
  match executing s l with
  | none => s
  | some (p, t) =>
    match fetch (arrAt s p) with
    | .error _ => s
    | .ok w =>
      if opClass w = cls ∧ opCode w = op then
        let rs := lsReads (arrAt s p) w
        each (ecc.filter (fun e => rs.any (fun r => decide (r.1 ≤ e.addr ∧ e.addr < r.1 + r.2)))) (lsError p t.ctx) s
      else s

/-- Array l executes the instruction at its program counter, when that is operation `op` of class `cls`; a malformed
instruction ends the task. `mods` are the MOD values that the operation defines (R137), `ecc` what the code of the local store finds in
the words that are read. -/
def arrayOp (l : Nat) (ecc : List LsError) (cls op : Nat) (mods : Nat → Bool) (f : Nat → Task → Nat → State → State) (s : State) :
    State :=
  guarded (computeOn s) (fun s =>
    let s := lsFound l cls op ecc s
    match executing s l with
    | none => s
    | some (p, t) =>
      match fetch (arrAt s p) with
      | .error st => faultOn p t.seq st s
      | .ok w =>
        if opClass w = cls ∧ opCode w = op then
          (if mods (opMod w) then f p t w s else faultOn p t.seq .faultFormat s)
        else s) s

/-- The instruction changes its array and retires. -/
def retireWith (p : Nat) (f : Arr → Arr) (s : State) : State := modArr p (fun x => (f x).retire) s

/-- The instruction in progress retires on physical array p. -/
def retireOn (p : Nat) (s : State) : State := modArr p Arr.retire s

/-! ## Transfers (R138) -/

/-- The pieces of a transfer: virtual address, local address and length of each, none across a 4 KiB page. The virtual side
advances by `stride` from granule to granule; 64 is that of LOAD and STORE. -/
def xferPieces (va ls n stride : Nat) : List (Nat × Nat × Nat) :=
  if stride = 64 then (spansOf 4096 va n).map (fun p => (p.1, ls + (p.1 - va), p.2))
  else (List.range (n / 64)).map (fun i => (va + i * stride, ls + 64 * i, 64))

/-- The first piece that does not translate: its kind and address. -/
def xferFault (s : State) (o : RunOwner) (c : Nat) (l : List (Nat × Nat × Nat)) (acc : Acc) : Option (Nat × Nat) :=
  (l.filterMap (fun p => match xl s o c p.1 p.2.2 acc with
    | .fault k => some (k, p.1)
    | .ok _ _ => none)).head?

/-- The registers and limits of a transfer: VA in a[SRC1], local address in s[SRC2], IMM bytes, the stride of LOADS and
STORES in s[DST] (log entry 31). The answer: a status, or VA, local address, bytes and stride. -/
def xferArgs (x : Arr) (w : Nat) (strided : Bool) : Except Status (Nat × Nat × Nat × Nat) :=
  let va := (x.getA (opSrc1 w)).toNat
  let ls := (x.getS (opSrc2 w)).toNat
  let n := opImm w
  let st := if strided then (x.getS (opDst w)).toNat else 64
  if n % 64 ≠ 0 ∨ n < 64 ∨ n > 2 ^ 20 ∨ va % 64 ≠ 0 ∨ ls % 64 ≠ 0 ∨ st % 64 ≠ 0 then .error .faultFormat
  else if !lsIn ls n then .error .faultAddress
  else .ok (va, ls, n, st)

/-- Issue one piece of a load: runs for a local one, OREQ reads for a host one, READ packets for a global one. -/
def loadPiece (l : Nat) (t : Task) (q : Nat × Nat × Nat) (s : State) : State :=
  let c := t.ctx
  match xl s (.array l) c q.1 q.2.2 .read with
  | .ok 0 a => accessC (.array l) c (some (partOfCtx s c)) false a q.2.2 (xlFill (.array l) c q.1 s)
  | .ok 1 a => hostRead c q.1 a q.2.2 (.load l) q.2.1 (xlFill (.array l) c q.1 s)
  | .ok _ a =>
    each (spansOf 512 (a % 2 ^ 48) q.2.2) (fun p s =>
      sendReq (field a 52 12) (arrayCh l) 0x01 p.1 0 0 p.2 [] (.load l (q.2.1 + (p.1 - a % 2 ^ 48))) t.seq c s) (xlFill (.array l) c q.1 s)
  | .fault _ => s

/-- The block-local pieces of a transfer: their destination is fixed at issue (R571). -/
def localPieces (s : State) (o : RunOwner) (c : Nat) (l : List (Nat × Nat × Nat)) : List (Nat × Nat × Nat) :=
  l.filterMap (fun q => match xl s o c q.1 q.2.2 .read with
    | .ok 0 a => some (a, q.2.1, q.2.2)
    | _ => none)

/-- Issue a load and stall (R130). -/
def startLoad (l p : Nat) (t : Task) (va ls n st : Nat) (s : State) : State :=
  let ps := xferPieces va ls n st
  match xferFault s (.array l) t.ctx ps .read with
  | some k => xlatOn p t.seq t.ctx k.1 k.2 s
  | none =>
    each ps (loadPiece l t) (modArr p (fun x => { x with stall := .load (localPieces s (.array l) t.ctx ps) }) s)

/-- A block-local piece of a load lands (R130): data with its marks. -/
def landPiece (p : Nat) (q : Nat × Nat × Nat) (s : State) : State :=
  let data := readMem s q.1 q.2.2
  let bad := fun (i : Nat) => poisonedAt s (q.1 + 64 * i)
  modArr p (fun x => x.putLs q.2.1 data bad) s

/-- Marks of the granules of [ls, ls + n), or all when the task's stores are marked (R485, R487). -/
def storeMarks (x : Arr) (t : Task) (ls : Nat) (i : Nat) : Bool := t.taint || x.lsPoison.contains (ls / 64 + i)

/-- The mask of marked granules of a packet. -/
def pmaskOf (bad : Nat → Bool) (n : Nat) : Nat :=
  ((List.range (ceilDiv n 64)).map (fun i => if bad i then 2 ^ i else 0)).foldl (fun a b => a + b) 0

/-- The array has one more store that is not acknowledged; `due` when STORE_ACK delivers its acknowledgement. -/
def countStore (p : Nat) (due : Bool) (s : State) : State :=
  modArr p (fun x => { x with stores := x.stores + 1, storesDue := x.storesDue + b2n due }) s

/-- A task has written or delivered a marked granule (R486). -/
def taskPoisons (seq : Nat) (bad : Bool) (s : State) : State :=
  if bad then modTask seq (fun t => { t with poisoned := true }) s else s

/-- Perform one piece of a store: to memory, to the host with EP for marked data, or in WRITE packets. -/
def storePiece (l p : Nat) (t : Task) (q : Nat × Nat × Nat) (s : State) : State :=
  let x := arrAt s p
  let c := t.ctx
  let data := x.lsBytes q.2.1 q.2.2
  let bad := storeMarks x t q.2.1
  let any := (List.range (q.2.2 / 64)).any bad
  let s := taskPoisons t.seq any s
  match xl s (.array l) c q.1 q.2.2 .write with
  | .ok 0 a =>
    let s := accessC (.array l) c (some (partOfCtx s c)) true a q.2.2 (xlFill (.array l) c q.1 s)
    countStore p true (writeMem a data bad s)
  | .ok 1 a => hostWriteC c q.1 a data true any (xlFill (.array l) c q.1 s)
  | .ok _ a =>
    each (cutAt 512 data.length (a % 2 ^ 48) data) (fun k s =>
      let o := (k.1 - a % 2 ^ 48) / 64
      countStore p false (sendReq (field a 52 12) (arrayCh l) 0x02 k.1 0 (pmaskOf (fun i => bad (o + i)) k.2.length)
        k.2.length k.2 (.store l) t.seq c s)) (xlFill (.array l) c q.1 s)
  | .fault _ => s

/-- Issue the next `g` granules of a store; it retires when its last byte has left the array (R130), and a save may come
before (R153). -/
def doStore (l p : Nat) (t : Task) (g va ls n st : Nat) (s : State) : State :=
  match xferFault s (.array l) t.ctx (xferPieces va ls n st) .write with
  | some k => xlatOn p t.seq t.ctx k.1 k.2 s
  | none =>
    let done := (arrAt s p).progress
    let m := min g (n / 64 - done)
    let ps := xferPieces (va + st * done) (ls + 64 * done) (64 * m) st
    let s := each ps (storePiece l p t) s
    if done + m = n / 64 then retireOn p s else modArr p (fun x => { x with progress := done + m }) s

/-- A FENCE or END that waits goes on when every store is acknowledged (R131, R139). -/
def fenceCheck (p : Nat) (s : State) : State :=
  let x := arrAt s p
  if x.stores ≠ 0 then s
  else match x.stall with
    | .fence => retireOn p s
    | .ending => match x.task with
      | some q => endOnArray p q .done none s
      | none => s
    | _ => s

/-! ## Waits on tally words (R532-R537) -/

/-- Arm a WAIT or TAKEWAIT of array l and test it at once. -/
def armWait (l p : Nat) (take : Bool) (idx cond dst : Nat) (arg : W32) (s : State) : State :=
  let v := twAt s idx
  if take then
    if takeHolds v arg then
      let s := modArr p (fun x => { (x.putS dst (w64 (v - arg).toNat)).retire with cond := true }) s
      releaseWaits idx (twWrite idx (v - arg) 0x7 l s)
    else
      let w : TwWait := { l := l, phys := p, idx := idx, take := true, cond := 0, arg := arg }
      modArr p (fun x => { x with stall := .wait dst }) { s with tw := { s.tw with waits := s.tw.waits ++ [w] } }
  else if waitHolds cond v arg then
    modArr p (fun x => { (x.putS dst (w64 v.toNat)).retire with cond := true }) s
  else
    let w : TwWait := { l := l, phys := p, idx := idx, take := false, cond := cond, arg := arg }
    modArr p (fun x => { x with stall := .wait dst }) { s with tw := { s.tw with waits := s.tw.waits ++ [w] } }

/-- Execute the WAIT or TAKEWAIT in word `w` (R531, R533). -/
def doWait (l p : Nat) (t : Task) (w : Nat) (s : State) : State :=
  let x := arrAt s p
  let a := (x.getS (opSrc1 w)).toNat
  let take := opCode w = 3
  let n := (x.getS (opSrc2 w)).toNat
  let arg := w32 (n % 2 ^ 32)
  if 16384 ≤ a ∨ (take ∧ (n = 0 ∨ 2 ^ 31 ≤ n)) then faultOn p t.seq .faultFormat s
  else if !twGranted s (ctxAt s t.ctx).vai a then faultOn p t.seq .faultAddress s
  else armWait l p take a (opMod w % 4) (opDst w) arg s

end Sys2Proof.Machine
end

