-- ==== Sys2Proof/Machine/SaveOps.lean ====
section
/-!
DEFINITION. Saves and restores of an array (R151-R165): the live state, the record and the bytes it holds, and what begins a save.
-/
namespace Sys2Proof.Machine
open Sys2Proof

/-! ## The live state -/

/-- The bytes of a full save (R162). -/
def fullSize : Nat := 1354752

/-- Rows of the live-range table entry `i`: the table lies in the code extent, at the offset that the last 8 bytes of the
extent give (log entry 33). -/
def liveEntry (x : Arr) (i : Nat) : Option (List Byte) :=
  let off := leNat (x.lsBytes (x.codeLs + x.codeLen - 8) 8)
  let a := x.codeLs + off + 80 * i
  if off + 80 * i + 80 ≤ x.codeLen ∧ lsIn a 80 ∧ ¬ x.lsBad a 80 then some (x.lsBytes a 80) else none

/-- The extents of a live-range entry: start granule and length. -/
def liveExtents (e : List Byte) : List (Nat × Nat) :=
  (List.range (byteAt e 9)).map (fun k => (field (fieldAt e (16 + 4 * k) 4) 17 15, field (fieldAt e (16 + 4 * k) 4) 2 15))

/-- A live-range entry is well formed (R147). -/
def liveOk (e : List Byte) : Bool :=
  decide (byteAt e 9 ≤ 16) && decide (byteAt e 8 < 2) && zeroAt e 10 6 &&
    (liveExtents e).all (fun x => decide (x.1 + x.2 ≤ 20480)) &&
    (List.range 16).all (fun k => decide (fieldAt e (16 + 4 * k) 4 % 4 = 0))

/-- Granule g lies in the open inbound window. -/
def inWindowG (x : Arr) (g : Nat) : Bool :=
  match x.window with
  | some w => decide (w.1 / 64 ≤ g ∧ 64 * g < w.1 + w.2)
  | none => false

/-- Granule g is live at a cheap point (R146). -/
def granuleLive (x : Arr) (e : List Byte) (g : Nat) : Bool :=
  (liveExtents e).any (fun r => decide (r.1 ≤ g ∧ g < r.1 + r.2)) ||
    decide (x.codeLs / 64 ≤ g ∧ 64 * g < x.codeLs + x.codeLen) ||
    inWindowG x g

/-- The live state in bytes (R146). -/
def cheapSize (x : Arr) (e : List Byte) : Nat :=
  let regs := fieldAt e 0 8
  64 * ((List.range 20480).filter (granuleLive x e)).length + 256 * ((List.range 64).filter (fun v => bit regs v)).length +
    (if bit (byteAt e 8) 0 then 25600 else 0) + 2048

/-! ## The control state (R163) -/

/-- What the array waits for, as the wait state of R163 holds it: kind, register, channel, and a result that is known. -/
def stallBytes (x : Stall) : List Byte :=
  match x with
  | .none => [] | .load _ => [1] | .fence => [2] | .ending => [3]
  | .atom d r => leBytes 1 4 ++ leBytes 1 d ++ leBytes 8 ((r.map (fun v => v.toNat)).getD 0)
  | .signal d => leBytes 1 5 ++ leBytes 1 d
  | .wait d => leBytes 1 6 ++ leBytes 1 d
  | .barrier d c => leBytes 1 7 ++ leBytes 1 d ++ leBytes 1 c
  | .sys d v => leBytes 1 8 ++ leBytes 1 d ++ leBytes 8 v.toNat

/-- The transfer at the program counter, when a save has cancelled it or cut it short: its instruction, VA, local address and stride. -/
def replayBytes (x : Arr) : List Byte :=
  let w := leNat (x.lsBytes x.pc 8)
  if x.replay then leBytes 8 w ++ leBytes 8 (x.getA (opSrc1 w)).toNat ++ leBytes 8 (x.getS (opSrc2 w)).toNat ++ leBytes 8 (x.getS (opDst w)).toNat
  else []

/-- The address of the live-range table (R144, log entry 33). -/
def liveTable (x : Arr) : Nat := x.codeLs + leNat (x.lsBytes (x.codeLs + x.codeLen - 8) 8)

/-- The control state of array state `x` that runs task `t`, in 2,048 bytes (R163); the encodings inside a field are not stated (log
entry 34). -/
def ctrlState (x : Arr) (t : Option Task) : List Byte :=
  let id := match t with
    | some t => leBytes 2 t.queue ++ leBytes 2 t.ctx ++ leBytes 1 t.gen ++ leBytes 1 t.ty ++ leBytes 2 0 ++ leBytes 8 t.seq
    | none => []
  let flags := b2n x.invalid + 2 * b2n x.overflow + 4 * b2n x.isat + 8 * b2n x.nanScale + 16 * b2n x.t2rsvd + 32 * b2n x.cond +
    65536 * x.saveGen
  let regs := fun (n : Nat) (r : Tbl W64) => ((List.range n).map (fun i => leBytes 8 (tget 0 r i).toNat)).flatten
  let win := match x.window with
    | some w => leBytes 8 w.1 ++ leBytes 8 w.2
    | none => []
  padTo (leBytes 8 x.pc ++ leBytes 8 flags ++ padTo id 16 ++ padTo (leBytes 8 (liveTable x) ++ leBytes 8 x.liveIdx ++ win) 32 ++
    regs 8 x.loops ++ padTo ((x.stack.map (leBytes 8)).flatten) 128 ++ regs 64 x.a ++ regs 64 x.s ++ regs 16 x.p ++
    padTo (leBytes 1 x.fmtA ++ leBytes 1 x.fmtB) 64 ++ padTo (leBytes 8 x.progress) 64 ++ padTo (replayBytes x) 128 ++
    padTo (stallBytes x.stall) 128) 2048

/-! ## The bytes of a record (R146, R157, R160, R162)

In the order of the copy: the open window, the other live granules, the live vector registers, the accumulators if live, the control
state (log entry 79). -/

/-- The live granules in the order in which they lie in the record. -/
def recGranules (x : Arr) (e : Option (List Byte)) : List Nat :=
  let all := (List.range 20480).filter (fun g => match e with | some e => granuleLive x e g | none => true)
  all.filter (inWindowG x) ++ all.filter (fun g => !inWindowG x g)

/-- The live vector registers. -/
def recRegs (e : Option (List Byte)) : List Nat :=
  (List.range 64).filter (fun v => match e with | some e => bit (fieldAt e 0 8) v | none => true)

/-- The accumulators are live. -/
def recAcc (e : Option (List Byte)) : Bool :=
  match e with
  | some e => bit (byteAt e 8) 0
  | none => true

/-- The parts of a record: its granules and vector registers, and the offsets at which registers, accumulators and control state begin. -/
structure RecLayout where
  gs   : List Nat
  vs   : List Nat
  acc  : Bool
  atV  : Nat
  atA  : Nat
  atC  : Nat
deriving DecidableEq, Repr

/-- The layout of the record of an array state. -/
def layoutOf (x : Arr) (e : Option (List Byte)) : RecLayout :=
  let gs := recGranules x e
  let vs := recRegs e
  let v := 64 * gs.length
  let a := v + 256 * vs.length
  { gs := gs, vs := vs, acc := recAcc e, atV := v, atA := a, atC := a + (if recAcc e then 25600 else 0) }

/-- The place of an element in a list. -/
def indexIn (l : List Nat) (x : Nat) : Option Nat := l.findIdx? (fun y => y == x)

/-- Bytes that are not zero, each with its offset from `o`. -/
def denseAt (o : Nat) (l : List Byte) : List (Nat × Byte) :=
  ((List.range l.length).zip l).filterMap (fun p => if p.2 = 0 then none else some (o + p.1, p.2))

/-- The bytes of a record that are not zero, by offset. -/
def recBytesOf (x : Arr) (t : Option Task) (k : RecLayout) : List (Nat × Byte) :=
  (x.ls.filterMap (fun c => (indexIn k.gs (c.1 / 64)).map (fun i => (64 * i + c.1 % 64, c.2)))) ++
    ((x.v.filterMap (fun c => (indexIn k.vs (c.1 / 64)).map (fun i => denseAt (k.atV + 256 * i + 4 * (c.1 % 64)) (leBytes 4 c.2.toNat)))).flatten) ++
    (if k.acc then (x.acc.map (fun c => denseAt (k.atA + 4 * c.1) (leBytes 4 c.2.toNat))).flatten else []) ++
    denseAt k.atC (ctrlState x t)

/-- The 64-byte granules of a record that carry the mark, by number (R160). -/
def recMarks (x : Arr) (k : RecLayout) : List Nat :=
  x.lsPoison.filterMap (indexIn k.gs) ++
    ((x.vPoison.filterMap (indexIn k.vs)).map (fun i => (List.range 4).map (fun j => k.atV / 64 + 4 * i + j))).flatten ++
    (if k.acc && x.tilePoison then (List.range 400).map (fun j => k.atA / 64 + j) else [])

/-- An array state from the bytes and marks of its record: what is not live is zero (R149, R159). -/
def recState (st : Arr) (k : RecLayout) (bytes : List (Nat × Byte)) (marks : List Nat) : Arr :=
  let word := fun (lo hi : Nat) (f : Nat → Nat) => bytes.foldl (fun (t : Tbl W32) c =>
    if lo ≤ c.1 ∧ c.1 < hi then tmod 0 t (f ((c.1 - lo) / 4)) (fun v => v ||| w32 (c.2.toNat * 256 ^ ((c.1 - lo) % 4))) else t) []
  let lo := bytes.filter (fun c => decide (c.1 < k.atV))
  let ls := lo.foldl (fun (t : Tbl Byte) c => tset 0 t (64 * k.gs.getD (c.1 / 64) 0 + c.1 % 64) c.2) []
  { st with
    ls := ls,
    lsPoison := (marks.filter (fun g => decide (64 * g < k.atV))).foldl (fun l g => sinsert (k.gs.getD g 0) l) [],
    v := word k.atV k.atA (fun i => 64 * k.vs.getD (i / 64) 0 + i % 64),
    vPoison := k.vs.filter (fun v => marks.any (fun g => match indexIn k.vs v with
      | some i => decide (k.atV / 64 + 4 * i ≤ g ∧ g < k.atV / 64 + 4 * i + 4)
      | none => false)),
    acc := word k.atA k.atC (fun i => i),
    tilePoison := k.acc && marks.any (fun g => decide (k.atA / 64 ≤ g ∧ 64 * g < k.atC)) }

/-! ## The save pool and the far-tier save area (R164, R165) -/

/-- Save-pool use of a partition, in 64 KiB units. -/
def poolUse (s : State) (p : Nat) : Nat :=
  ((s.arr.saves.filter (fun r => decide (r.part = p) && r.pool)).map (fun r => ceilDiv r.size 65536)).foldl (fun a b => a + b) 0

/-- The share of the save pool of a partition, in 64 KiB units (R164). -/
def poolShare (s : State) : Nat := 8192 * perPart s / 12

/-- The whole use of the pool. -/
def poolUsed (s : State) : Nat :=
  ((s.arr.saves.filter (fun r => r.pool)).map (fun r => ceilDiv r.size 65536)).foldl (fun a b => a + b) 0

/-- The units of the pool that no record holds, `n` of them, lowest first. -/
def freeUnits64 (s : State) (n : Nat) : List Nat :=
  ((List.range 8192).filter (fun u => !s.arr.saves.any (fun r => r.pool && r.units.contains u))).take n

/-- The bytes and marks of a record where they lie: in the pool, or in the far tier, whose retired granules read as ones. -/
def recLoad (r : SaveRec) (s : State) : List (Nat × Byte) × List Nat :=
  if r.pool then
    let at_ := fun (o : Nat) => (indexIn r.units (o / 65536)).map (fun i => 65536 * i + o % 65536)
    (s.arr.pool.filterMap (fun c => (at_ c.1).map (fun o => (o, c.2))), s.arr.poolMarks.filterMap (fun g => (at_ (64 * g)).map (fun o => o / 64)))
  else
    let gone := (spansOf 4096 r.base r.size).filter (fun p => retiredAt s p.1)
    let ones := (gone.map (fun p => (List.range p.2).map (fun i => (p.1 - r.base + i, (0xFF : Byte))))).flatten
    let cells := s.mem.cells.filterMap (fun c =>
      if r.base ≤ c.1 ∧ c.1 < r.base + r.size ∧ retiredAt s c.1 = false then some (c.1 - r.base, c.2) else none)
    let marks := s.mem.poison.filterMap (fun g => if r.base ≤ 64 * g ∧ 64 * g < r.base + r.size then some (g - r.base / 64) else none)
    (cells ++ ones, marks ++ (gone.map (fun p => (List.range (p.2 / 64)).map (fun i => (p.1 - r.base) / 64 + i))).flatten)

/-- The units of the pool are cleared of bytes and marks. -/
def clearPool (us : List Nat) (s : State) : State :=
  { s with arr := { s.arr with pool := s.arr.pool.filter (fun c => !us.contains (c.1 / 65536)),
                               poolMarks := s.arr.poolMarks.filter (fun g => !us.contains (g / 1024)) } }

/-- Bytes and marks are written to a record's space, over whatever lay there; a retired granule of the far tier discards them, with a
CE (R276). -/
def recStore (r : SaveRec) (bytes : List (Nat × Byte)) (marks : List Nat) (s : State) : State :=
  if r.pool then
    let s := clearPool r.units s
    let at_ := fun (o : Nat) => 65536 * r.units.getD (o / 65536) 0 + o % 65536
    { s with arr := { s.arr with pool := bytes.foldl (fun t c => tset 0 t (at_ c.1) c.2) s.arr.pool,
                                 poolMarks := marks.foldl (fun l g => sinsert (at_ (64 * g) / 64) l) s.arr.poolMarks } }
  else
    let gone := (spansOf 4096 r.base r.size).filter (fun p => retiredAt s p.1)
    let s := logWrite r.base r.size (zeroMem r.base r.size s)
    let s := { s with mem := { s.mem with
      cells := (bytes.filter (fun c => !retiredAt s (r.base + c.1))).foldl (fun t c => tset 0 t (r.base + c.1) c.2) s.mem.cells,
      poison := (marks.filter (fun g => !retiredAt s (r.base + 64 * g))).foldl (fun l g => sinsert (r.base / 64 + g) l) s.mem.poison } }
    each gone (fun p s => reportCe 3 (pcOf p.1) 0x07 p.1 s) s

/-- An inbound write into the window of a saved task: the window stands first in the record (R158). -/
def recPatch (r : SaveRec) (off : Nat) (data : List Byte) (bad : Nat → Bool) (s : State) : State :=
  if r.pool then
    let l := cutAt 64 data.length off data
    each (l.zip (List.range l.length)) (fun p s =>
      let a := 65536 * r.units.getD (p.1.1 / 65536) 0 + p.1.1 % 65536
      { s with arr := { s.arr with pool := putBytes s.arr.pool a p.1.2, poolMarks := markAfter s.arr.poolMarks a p.1.2.length (bad p.2) } }) s
  else writeMem (r.base + off) data bad s

/-- The record of a task whose save runs or is complete. -/
def recOf (s : State) (seq : Nat) : Option SaveRec := s.arr.saves.find? (fun r => decide (r.seq = seq))

/-- The saved state of a task. -/
def saveOf (s : State) (seq : Nat) : Option SaveRec := s.arr.saves.find? (fun r => decide (r.seq = seq) && r.done)

/-- A record's space is freed; what a confidential partition held in the pool is zeroed (R165). -/
def freeRec (r : SaveRec) (s : State) : State :=
  let s := { s with arr := { s.arr with saves := s.arr.saves.filter (fun y => decide (y.seq ≠ r.seq)) } }
  if r.pool && confPart s r.part then clearPool r.units s else s

/-- The records that satisfy a test are freed. -/
def freeRecs (f : SaveRec → Bool) (s : State) : State := each (s.arr.saves.filter f) freeRec s

/-! ## What begins a save -/

/-- A save goes to the far tier whatever room the pool has: the partition is touched by a transaction, or the VAI pauses
(R242). -/
def farOnly (s : State) (t : Task) : Bool :=
  s.fe.pausing.contains (queueAt s t.queue).vai ||
    touching s (partOfCtx s t.ctx)

/-- The lowest slot of a context's save area without a record. -/
def saveSlot (s : State) (c : Nat) : Nat :=
  (firstFrom (fun k => !s.arr.saves.any (fun r => decide (r.ctx = c ∧ r.slot = k) && !r.pool)) 0 864).getD 0

/-- The record of a save that begins, where it finds room (R157 step 2, R164): the pool, or the context's save area. -/
def newRec (s : State) (p : Nat) (t : Task) (e : Option (List Byte)) : SaveRec :=
  let x := arrAt s p
  let part := partOfCtx s t.ctx
  let size := match e with | some e => cheapSize x e | none => fullSize
  let n := ceilDiv size 65536
  let pool := !farOnly s t && decide (poolUse s part + n ≤ poolShare s)
  let slot := saveSlot s t.ctx
  { seq := t.seq, ctx := t.ctx, queue := t.queue, gen := (queueAt s t.queue).gen, part := part, phys := p, cheap := e.isSome, size := size,
    pool := pool, units := if pool then freeUnits64 s n else [], slot := slot, base := (ctxAt s t.ctx).saveAt + 1376256 * slot,
    entry := e, st := {} }

/-- A save begins on physical array p: the save generation rises, the record is allocated, and the copy's runs queue when it goes to
the far tier (R157, R292). `e`: the live-range entry `idx` of a cheap save. -/
def beginSave (p : Nat) (e : Option (List Byte)) (idx : Nat) (s : State) : State :=
  match (arrAt s p).task.bind (taskOf s) with
  | none => s
  | some t =>
    let r := newRec s p t e
    let s := modArr p (fun x => { x with saving := some e.isSome, preempt := none, liveIdx := idx, saveGen := (x.saveGen + 1) % 2 ^ 16 }) s
    let s := { s with arr := { s.arr with saves := s.arr.saves ++ [r] } }
    let s := { s with arr := { s.arr with poolPeak := max s.arr.poolPeak (poolUsed s) } }
    if r.pool then s else accessC (.array (physAt s p).logical) t.ctx none true r.base r.size s

/-- A full save begins at the instruction in progress (R153): the reads of a load are cancelled and the rest of a store is not issued,
so that the whole instruction comes again; an armed wait is withdrawn; everything else is waited for. -/
def fullSave (p : Nat) (s : State) : State :=
  let l := (physAt s p).logical
  let x := arrAt s p
  let s := match x.stall with
    | .load _ => modArr p (fun x => { x with stall := .none, replay := true }) (cancelLoad l (dropRuns (.array l) s))
    | .wait _ => { s with tw := { s.tw with waits := s.tw.waits.filter (fun w => decide (w.phys ≠ p)) } }
    | .none =>
      if x.progress ≠ 0 ∧ opClass (leNat (x.lsBytes x.pc 8)) = 6 then modArr p (fun x => { x with progress := 0, replay := true }) s else s
    | _ => s
  beginSave p none 0 s

/-- A save may begin: the array runs a task that has not come to its END (R151). -/
def maySave (x : Arr) : Bool := x.task.isSome && x.saving.isNone && !x.restore && x.stall != .ending

/-- A pre-emption request of grace 0: a full save at once (R151). -/
def requestNow (p : Nat) (s : State) : State :=
  let s := requestPre p true s
  if maySave (arrAt s p) && (arrAt s p).preempt.isSome then fullSave p s else s

/-- The window of a task takes an inbound write: in its array, held while a save runs, or in its record (R143, R157, R158). None when
it is refused. The task must have started on logical array `l`. -/
def windowWrite (seq l off : Nat) (data : List Byte) (bad : Nat → Bool) (s : State) : Option State :=
  match taskOf s seq with
  | none => none
  | some t =>
    let fits := fun (x : Arr) => match x.window with
      | some w => decide (off + data.length ≤ w.2)
      | none => false
    if t.startL ≠ l ∨ t.ty ≠ 0 then none
    else match recOf s seq, arrOfTask s seq with
      | some r, p =>
        if r.done then (if fits r.st then some (recPatch r off data bad s) else none)
        else if fits ((p.map (arrAt s)).getD {}) then
          let h : HeldWrite := ⟨off, data, (List.range (data.length / 64 + 2)).map bad⟩
          some { s with arr := { s.arr with saves := s.arr.saves.map (fun y => if y.seq = seq then { y with held := y.held ++ [h] } else y) } }
        else none
      | none, some p =>
        (match (arrAt s p).window with
          | some w => if off + data.length ≤ w.2 then some (modArr p (fun x => x.putLs (w.1 + off) data bad) s) else none
          | none => none)
      | none, none => none

end Sys2Proof.Machine
end

