-- ==== Sys2Proof/Machine/ArrCtrl.lean ====
section
/-!
DEFINITION. The CTRL class of array instructions (R136, R139, R116, R144-R147, R151).
-/
namespace Sys2Proof.Machine
open Sys2Proof

/-- MOD 0 only. -/
def mod0 (m : Nat) : Bool := decide (m = 0)

/-- Any MOD value of `k` bits. -/
def modBits (k : Nat) (m : Nat) : Bool := decide (m < 2 ^ k)

/-- The address of a relative branch: IMM is a signed count of instructions (log entry 31). -/
def branchTo (x : Arr) (w : Nat) : Nat := (BitVec.ofNat 64 x.pc + opImmS w * 8).toNat

/-- NOP (R136): nothing but the retirement. -/
def execNop (l : Nat) (s : State) (ecc : List LsError := []) : Host.Outcome State Fault Refusal :=
  run s (arrayOp l ecc 0 0 mod0 (fun p _ _ s => retireOn p s))

/-- END (R139): the task ends when every store is acknowledged; until then the array waits. -/
def execEndTask (l : Nat) (s : State) (ecc : List LsError := []) : Host.Outcome State Fault Refusal :=
  run s (arrayOp l ecc 0 1 mod0 (fun p _ _ s => fenceCheck p (modArr p (fun x => { x with stall := .ending }) s)))

/-- BR (R136). -/
def execBr (l : Nat) (s : State) (ecc : List LsError := []) : Host.Outcome State Fault Refusal :=
  run s (arrayOp l ecc 0 2 mod0 (fun p _ w s => modArr p (fun x => { x with pc := branchTo x w }) s))

/-- BRC (R136): branches when the condition is 1 (MOD 0) or 0 (MOD 1). -/
def execBrc (l : Nat) (s : State) (ecc : List LsError := []) : Host.Outcome State Fault Refusal :=
  run s (arrayOp l ecc 0 3 (modBits 1) (fun p _ w s =>
    modArr p (fun x => if x.cond = decide (opMod w = 0) then { x with pc := branchTo x w } else x.retire) s))

/-- CALL (R136): pushes the return address; a seventeenth level is malformed (R134). -/
def execCall (l : Nat) (s : State) (ecc : List LsError := []) : Host.Outcome State Fault Refusal :=
  run s (arrayOp l ecc 0 4 mod0 (fun p t w s =>
    if (arrAt s p).stack.length < 16 then
      modArr p (fun x => { x with stack := (x.pc + 8) :: x.stack, pc := branchTo x w }) s
    else faultOn p t.seq .faultFormat s))

/-- RET (R136): pops the call stack; an empty stack is malformed. -/
def execRet (l : Nat) (s : State) (ecc : List LsError := []) : Host.Outcome State Fault Refusal :=
  run s (arrayOp l ecc 0 5 mod0 (fun p t _ s =>
    match (arrAt s p).stack with
    | [] => faultOn p t.seq .faultFormat s
    | a :: r => modArr p (fun x => { x with pc := a, stack := r }) s))

/-- LOOP (R136): MOD 0 starts loop counter DST at s[SRC1]; MOD 1 counts it down and branches while it is not 0. -/
def execLoop (l : Nat) (s : State) (ecc : List LsError := []) : Host.Outcome State Fault Refusal :=
  run s (arrayOp l ecc 0 6 (modBits 1) (fun p t w s =>
    let n := opDst w
    if 8 ≤ n then faultOn p t.seq .faultFormat s
    else if opMod w = 0 then retireWith p (fun x => { x with loops := tset 0 x.loops n (x.getS (opSrc1 w)) }) s
    else modArr p (fun x =>
      let v := tget 0 x.loops n - 1
      let x := { x with loops := tset 0 x.loops n v }
      if v = 0 then x.retire else { x with pc := branchTo x w }) s))

/-- CHEAP (R144, R147, R151): with a request pending and a well-formed entry the array takes a cheap save after it;
a malformed entry is a CE and no cheap point. -/
def execCheap (l : Nat) (s : State) (ecc : List LsError := []) : Host.Outcome State Fault Refusal :=
  run s (arrayOp l ecc 0 7 mod0 (fun p t w s =>
    let x := arrAt s p
    let cfg := regGet s 0x402000
    if x.preempt.isNone ∨ ¬ bit cfg 0 ∨ bit cfg 1 then retireOn p s
    else match liveEntry x (opImm w) with
      | some e =>
        if liveOk e then beginSave p (some e) (opImm w) (retireOn p s)
        else reportCe 1 l 0x07 (detailOf t.ctx 0) (retireOn p s)
      | none => reportCe 1 l 0x07 (detailOf t.ctx 0) (retireOn p s)))

/-- RDFLAG (R116): s[DST] takes the sticky flags. -/
def execRdflag (l : Nat) (s : State) (ecc : List LsError := []) : Host.Outcome State Fault Refusal :=
  run s (arrayOp l ecc 0 8 mod0 (fun p _ w s => retireWith p (fun x => x.putS (opDst w) (w64 x.flags)) s))

/-- CLRFLAG (R116): clears the flags that IMM names. -/
def execClrflag (l : Nat) (s : State) (ecc : List LsError := []) : Host.Outcome State Fault Refusal :=
  run s (arrayOp l ecc 0 9 mod0 (fun p _ w s => retireWith p (fun x => x.clearFlags (opImm w)) s))

end Sys2Proof.Machine
end

