-- ==== Sys2Proof/Machine/HeapOps.lean ====
section
/-!
DEFINITION. What firmware places in a VAI's grants (R563, R573, R574, R600), and the device-side allocator with its tables
(R573-R576). Where firmware is free to choose, the choice is a free value, kept when it is legal.
-/
namespace Sys2Proof.Machine
open Sys2Proof

/-- A choice that the specification leaves to the block among the legal ones: a free value when it is legal, else `d`, a
legal one. -/
def choose (legal : Nat → Bool) (d : Nat) (s : State) : Nat × State :=
  let (k, s) := fresh s
  (if legal k then k else d, s)

/-- A number below `n` that is free, if there is one. -/
def chooseFree (legal : Nat → Bool) (n : Nat) (s : State) : Option (Nat × State) :=
  (firstFrom legal 0 n).map (fun d => choose (fun k => decide (k < n) && legal k) d s)

/-- `x` rounded up to a multiple of `k`. -/
def alignUp (x k : Nat) : Nat := ceilDiv x k * k

/-! ## Objects in the grants -/

/-- Logical arrays of partition p that are backed (R563). -/
def enabledIn (s : State) (p : Nat) : Nat :=
  ((List.range 864).filter (fun l => decide (partOfArray s l = p) && tget 0 s.arr.lmap l != 0)).length

/-- Bytes of a context's save area in partition p (R563). -/
def saveBytes (s : State) (p : Nat) : Nat := 1376256 * enabledIn s p

/-- The ranges that a context keeps besides its save area. -/
def ctxRanges (x : Ctx) : List (Nat × Nat) := (x.root, 4096) :: x.tables.map (fun a => (a, 4096))

/-- The save area of a context. -/
def saveRange (s : State) (x : Ctx) : Nat × Nat := (x.saveAt, saveBytes s x.part)

/-- Every range that firmware has placed: tables, save areas, allocations, graph stores. -/
def placedRanges (s : State) (saves : Bool) : List (Nat × Nat) :=
  ((s.fe.ctx.filter (fun c => decide (c.2.state ≠ 0))).map (fun c =>
    (if saves && (c.2.state == 1 || c.2.settling) then [saveRange s c.2] else []) ++ ctxRanges c.2)).flatten ++
  ((s.fe.allocs.filter (fun a => a.2.live)).map (fun a =>
    (a.2.base, a.2.size) :: a.2.moved.map (fun m => (m.2 * 4096, 4096)))).flatten ++
  s.mem.moves.map (fun m => (m.2 * 4096, 4096)) ++
  (s.fe.graphs.filter (fun g => g.2.live)).map (fun g => (g.2.place, g.2.bytes))

/-- Two ranges have a byte in common. -/
def overlaps (x y : Nat × Nat) : Bool := decide (x.1 < y.1 + y.2) && decide (y.1 < x.1 + x.2)

/-- [base, base + n) is a legal place in the grants of VAI v, beside the ranges used. -/
def placeOk (s : State) (far : Bool) (v n align : Nat) (used : List (Nat × Nat)) (base : Nat) : Bool :=
  decide (base % align = 0) && (isFar base == far) && (isFar (base + n - 1) == far) && grantedAll s v base n &&
    !used.any (overlaps (base, n))

/-- The first bytes of the chunks and units that VAI v holds. -/
def grantStarts (s : State) (far : Bool) (v : Nat) : List Nat :=
  if far then (s.fe.ftOwn.filter (fun o => o.2 == .vai v)).map (fun o => o.1 * chunkSize)
  else (s.fe.scrOwn.filter (fun o => o.2 == .vai v)).map (fun o => scratchBase + o.1 * 0x4000000)

/-- A place of `n` bytes in the grants of VAI v: where room is left, it begins at a grant's start or just past an object. -/
def placeAt (far : Bool) (v n align : Nat) (used : List (Nat × Nat)) (s : State) : Option (Nat × State) :=
  let cands := grantStarts s far v ++ used.map (fun r => alignUp (r.1 + r.2) align)
  (cands.find? (placeOk s far v n align used)).map (fun d => choose (placeOk s far v n align used) d s)

/-! ## Heap tables -/

/-- Write one entry of a table. -/
def putEntry (table i e : Nat) (s : State) : State := writeMem (table + 8 * i) (leBytes 8 e) (fun _ => false) s

/-- The table below entry i of a table of context c: the one that is there, or a new page of zeros. -/
def nextTable (c table i : Nat) (s : State) : Option (Nat × State) :=
  let e := leNat (readMem s (table + 8 * i) 8)
  if bit e 0 then some (alignDown e 4096, s)
  else match placeAt true (ctxAt s c).vai 4096 4096 (placedRanges s true) s with
    | none => none
    | some (a, s) =>
      let s := modCtx c (fun x => { x with tables := x.tables ++ [a] }) (logWrite a 4096 (zeroMem a 4096 s))
      some (a, putEntry table i (a + 1) s)

/-- The table of context c that maps pages of size `page` at `va`. -/
def leafTable (c page va : Nat) (s : State) : Option (Nat × State) :=
  match nextTable c (ctxAt s c).root (field va 39 9) s with
  | none => none
  | some (t, s) =>
    if page = chunkSize then some (t, s)
    else match nextTable c t (field va 30 9) s with
      | none => none
      | some (t, s) => if page = 0x200000 then some (t, s) else nextTable c t (field va 21 9) s

/-- The level of the leaves that map pages of a size. -/
def pageLevel (page : Nat) : Nat := if page = chunkSize then 2 else if page = 0x200000 then 1 else 0

/-- Write the entries of one page; 16 for a 64 KiB page (R567). -/
def putPage (table page va e : Nat) (s : State) : State :=
  let i := field va (12 + 9 * pageLevel page) 9
  each (List.range (if page = 65536 then 16 else 1)) (fun k s => putEntry table (i + k) e s) s

/-- Map `n` pages of context c from `va` to `base`. -/
def mapPages (c page : Nat) (n va base : Nat) (s : State) : Option State :=
  match n with
  | 0 => some s
  | n + 1 =>
    match leafTable c page va s with
    | none => none
    | some (t, s) => mapPages c page n (va + page) (base + page)
        (putPage t page va (base + 0x13 + (if page = 65536 then 0x80 else 0)) s)

/-- Remove the mapping of `n` pages. -/
def unmapPages (c page : Nat) (n va : Nat) (s : State) : State :=
  match n with
  | 0 => s
  | n + 1 =>
    match leafTable c page va s with
    | none => s
    | some (t, s) => unmapPages c page n (va + page) (putPage t page va 0 s)

/-! ## The allocator -/

/-- The rounded size and the page size of a request (R574). -/
def roundSize (n : Nat) : Nat × Nat :=
  if n < 0x200000 then (alignUp n 65536, 65536)
  else if n < chunkSize then (alignUp n 0x200000, 0x200000)
  else (alignUp n chunkSize, chunkSize)

/-- The virtual ranges mapped in a context's heap. -/
def heapUsed (s : State) (c : Nat) : List (Nat × Nat) :=
  (s.fe.allocs.map (fun a => (a.2.maps.filter (fun m => decide (m.1 = c))).map (fun m => (m.2, a.2.size)))).flatten

/-- A virtual range of the heap of context c that is free. -/
def heapOk (s : State) (c n page va : Nat) : Bool :=
  let x := ctxAt s c
  decide (va % page = 0) && decide (x.heapVa ≤ va) && decide (va + n ≤ x.heapVa + x.heapGib * chunkSize) &&
    !(heapUsed s c).any (overlaps (va, n))

/-- A place in the heap of context c. -/
def heapPlace (c n page : Nat) (s : State) : Option (Nat × State) :=
  let cands := (ctxAt s c).heapVa :: (heapUsed s c).map (fun r => alignUp (r.1 + r.2) page)
  (cands.find? (heapOk s c n page)).map (fun d => choose (heapOk s c n page) d s)

/-- Map an allocation into the heap of context c: the virtual address, or no room. -/
def mapAlloc (a c : Nat) (s : State) : Option (Nat × State) :=
  let x := allocAt s a
  match heapPlace c x.size x.page s with
  | none => none
  | some (va, s) =>
    (mapPages c x.page (x.size / x.page) va x.base s).map (fun s =>
      (va, ctxTake c (modAlloc a (fun x => { x with maps := x.maps ++ [(c, va)] }) s)))

/-- The place of an allocation at the first permitted level with room (R241, R574). -/
def allocPlace (v n page level : Nat) (s : State) : Option (Nat × State) :=
  let used := placedRanges s true
  let near := if level ≠ 2 ∧ page ≠ chunkSize then placeAt false v n page used s else none
  match near with
  | some r => some r
  | none => if level = 1 then none else placeAt true v n page used s

/-- ALLOC in context c (R574, R575, R767): the status, the allocation, its virtual address. A refusal changes nothing. -/
def heapAlloc (c size level : Nat) (rsvd : Bool) (s : State) : Status × Nat × Nat × State :=
  let x := ctxAt s c
  if size = 0 ∨ rsvd ∨ level = 3 ∨ (level = 1 ∧ chunkSize ≤ size) then (.faultFormat, 0, 0, s)
  else if x.heapGib = 0 then (.denied, 0, 0, s)
  else if x.heapGib * chunkSize < size then (.faultFormat, 0, 0, s)
  else
    let r := roundSize size
    match allocPlace x.vai r.1 r.2 level s with
    | none => (.busy, 0, 0, s)
    | some (base, t) =>
      match chooseFree (fun a => !(allocAt s a).live) 65536 t with
      | none => (.busy, 0, 0, s)
      | some (a, t) =>
        let t := modAlloc a (fun y => { gen := y.gen, live := true, vai := x.vai, base := base, size := r.1, page := r.2 }) t
        match mapAlloc a c t with
        | some (va, t) => (.done, a, va, t)
        | none => (.busy, 0, 0, s)

/-- The allocation whose mapping in context c begins at `va`. -/
def allocMapped (s : State) (c va : Nat) : Option Nat :=
  (s.fe.allocs.find? (fun a => a.2.maps.contains (c, va))).map (fun a => a.1)

/-- The allocation in whose mapping in context c `va` lies. -/
def allocHolding (s : State) (c va : Nat) : Option Nat :=
  (s.fe.allocs.find? (fun a => a.2.maps.any (fun m => decide (m.1 = c ∧ m.2 ≤ va ∧ va < m.2 + a.2.size)))).map (fun a => a.1)

/-- Remove one mapping of an allocation: entries, cached translations, references (R575). -/
def unmapAlloc (a c va : Nat) (s : State) : State :=
  let x := allocAt s a
  let s := tlbDrop c va (x.size / 4096) (unmapPages c x.page (x.size / x.page) va s)
  ctxDrop c (allocCheck a (modAlloc a (fun x => { x with maps := x.maps.erase (c, va) }) s))

/-- FREE in context c (R575): a status, and the change. -/
def heapFree (c va : Nat) (s : State) : Status × State :=
  match allocMapped s c va with
  | some a => (.done, unmapAlloc a c va s)
  | none => (.faultFormat, s)

/-- The allocation that a handle names. -/
def allocOf (s : State) (h : Nat) : Option Nat :=
  let i := handleIdx h
  if (allocAt s i).live && handleIs h (allocAt s i).gen i then some i else none

end Sys2Proof.Machine
end

