-- ==== Sys2Proof/Machine/EccOps.lean ====
section
/-!
DEFINITION. Errors of the two tiers (R271-R273), repair and retirement of granules (R275-R277) and of pseudo-channels
(R278).
-/
namespace Sys2Proof.Machine
open Sys2Proof

/-! ## Retirement -/

/-- MC_FT_CAP and MC_FT_RETIRED after `n` granules are retired. -/
def countRetired (n : Nat) (s : State) : State :=
  { s with mem := { s.mem with ftCap := s.mem.ftCap - n, ftRetired := sat 32 (s.mem.ftRetired + n) } }

/-- The live allocation whose data a granule holds. -/
def allocOfGranule (s : State) (g : Nat) : Option Nat :=
  (s.fe.allocs.find? (fun a => a.2.live && ((decide (a.2.base / 4096 ≤ g) && decide (g * 4096 < a.2.base + a.2.size) &&
    !a.2.moved.any (fun m => decide (m.1 = g))) || a.2.moved.any (fun m => decide (m.2 = g))))).map (fun a => a.1)

/-- A granule that may take data: in the grants of VAI v, beside what is placed, with storage, in a pseudo-channel in service
(R277, R278). -/
def granuleFree (s : State) (v : Nat) (used : List (Nat × Nat)) (g : Nat) : Bool :=
  placeOk s true v 4096 4096 used (g * 4096) && (chanAt s (pcOf (g * 4096))).state == 0 && !s.mem.retired.contains g

/-- A free granule of VAI v: firmware's choice among the legal ones (R277). -/
def chooseGranule (v : Nat) (s : State) : Option (Nat × State) :=
  let used := placedRanges s true
  let starts := (s.fe.ftOwn.filter (fun o => o.2 == .vai v)).map (fun o => o.1 * (chunkSize / 4096))
  (starts.findSome? (fun a => firstFrom (granuleFree s v used) a (chunkSize / 4096))).map (fun d => choose (granuleFree s v used) d s)

/-- Begin to move a granule's data: a free granule of the same VAI's grant takes it. False where none is free. Firmware's copy is
charged to regulator 12 (R292). -/
def startMove (g : Nat) (s : State) : Bool × State :=
  match allocOfGranule s g with
  | none => (false, s)
  | some a =>
    match chooseGranule (allocAt s a).vai s with
    | none => (false, s)
    | some (n, s) => (true, access .firmware 12 none false (g * 4096) 4096 { s with mem := { s.mem with moves := s.mem.moves ++ [(g, n)] } })

/-- Granules of pseudo-channel c that hold data of live allocations, where they lie now. -/
def granulesIn (s : State) (c : Nat) : List Nat :=
  ((s.fe.allocs.filter (fun a => a.2.live)).map (fun a =>
    ((List.range (a.2.size / 4096)).map (fun i =>
      let g := a.2.base / 4096 + i
      ((a.2.moved.find? (fun m => decide (m.1 = g))).map (fun m => m.2)).getD g)).filter (fun g => decide (pcOf (g * 4096) = c)))).flatten

/-- A move whose target loses its storage takes another; where none is free its granule is retired without a copy. -/
def retarget (m : Nat × Nat) (s : State) : State :=
  let without := { s with mem := { s.mem with moves := s.mem.moves.filter (fun x => decide (x ≠ m)) } }
  match allocOfGranule s m.1 with
  | none => without
  | some a => match chooseGranule (allocAt s a).vai s with
    | none => without
    | some (n, s) => { s with mem := { s.mem with moves := s.mem.moves.map (fun x => if x = m then (m.1, n) else x) } }

/-- Once no move is left in a pseudo-channel that is being retired, it is mapped out. -/
def mapOutCheck (c : Nat) (s : State) : State :=
  if (chanAt s c).state = 1 ∧ ¬ s.mem.moves.any (fun m => decide (pcOf (m.1 * 4096) = c)) then
    modChan c (fun x => { x with state := 2 }) s
  else s

/-- Map out a pseudo-channel (R278): all its granules are retired, live data moves first. -/
def mapOut (c : Nat) (s : State) : State :=
  if (chanAt s c).state ≠ 0 then s
  else
    let own := (s.mem.retired.filter (fun g => decide (pcOf (g * 4096) = c))).length
    let live := granulesIn s c
    let s := countRetired (327680 - own) (modChan c (fun x => { x with state := 1 }) s)
    let s := each (s.mem.moves.filter (fun m => decide (pcOf (m.2 * 4096) = c))) retarget s
    let s := each live (fun g s => if s.mem.retired.contains g || moving s g then s else (startMove g s).2) s
    mapOutCheck c (dropChan c s)

/-- A granule loses its storage (R276). -/
def retireGranule (g : Nat) (s : State) : State :=
  let c := pcOf (g * 4096)
  if s.mem.retired.contains g then s
  else if (chanAt s c).state ≠ 0 then { s with mem := { s.mem with retired := sinsert g s.mem.retired } }
  else
    let s := { s with mem := { s.mem with retired := sinsert g s.mem.retired, granCe := tset 0 s.mem.granCe g 0 } }
    let s := countRetired 1 (modChan c (fun x => { x with retired := sat 8 (x.retired + 1) }) s)
    if (s.mem.retired.filter (fun g => decide (pcOf (g * 4096) = c))).length > 64 then mapOut c s else s

/-- The bank of an address: 64 × pseudo-channel + bank (R257). -/
def bankOf (a : Nat) : Nat := 64 * pcOf a + 2 * (stackGranule a / 64 % 32) + a / 2048 % 2

/-- The granule of address `a` is failing (R275): its row is repaired where PPR_EN and a spare row allow, and keeps its
data, which firmware copies aside and back; otherwise it is retired, live data first. -/
def failGranule (a : Nat) (s : State) : State :=
  let g := a / 4096
  let b := bankOf a
  if s.mem.retired.contains g || moving s g then s
  else if bit (regGet s 0xA00010) 0 && Config.spareRow b (tget 0 s.mem.spares b) then
    let page := alignDown a 2048
    let s := access .firmware 12 none true page 2048 (access .firmware 12 none false page 2048 s)
    { s with mem := { s.mem with spares := tset 0 s.mem.spares b (tget 0 s.mem.spares b + 1), granCe := tset 0 s.mem.granCe g 0 } }
  else
    let r := startMove g s
    if r.1 then r.2 else retireGranule g s

/-! ## Rewriting translations (R277) -/

/-- The entries of the table that splits a leaf: pages of `size` from `page`, with the leaf's permission. -/
def splitEntries (e size page table : Nat) (s : State) : State :=
  each (List.range 512) (fun i s => putEntry table i (page + i * size + e % 32) s) s

/-- A leaf maps a block-local range that holds granule g. -/
def leafHolds (e level g : Nat) : Bool :=
  let page := alignDown e 4096
  field e 2 2 == 0 && decide (page ≤ g * 4096) && decide (g * 4096 < page + leafSize e level)

/-- Redirect granule `old` to `new` in a table of context c and in the tables below it. A large leaf is split. -/
def redirectTable (c old new : Nat) (level table : Nat) (s : State) : State :=
  match level with
  | 0 =>
    each (List.range 512) (fun i s =>
      let e := leNat (readMem s (table + 8 * i) 8)
      if bit e 0 && bit e 1 && leafHolds e 0 old then
        let page := if bit e 7 then alignDown e 65536 + i % 16 * 4096 else alignDown e 4096
        putEntry table i ((if page = old * 4096 then new * 4096 else page) + e % 32) s
      else s) s
  | l + 1 =>
    each (List.range 512) (fun i s =>
      let e := leNat (readMem s (table + 8 * i) 8)
      if !bit e 0 then s
      else if !bit e 1 then redirectTable c old new l (alignDown e 4096) s
      else if leafHolds e (l + 1) old then
        match placeAt true (ctxAt s c).vai 4096 4096 (placedRanges s true) s with
        | none => s
        | some (t, s) =>
          let s := modCtx c (fun x => { x with tables := x.tables ++ [t] }) s
          let s := putEntry table i (t + 1) (splitEntries e (4096 * 512 ^ l) (alignDown e 4096) t s)
          redirectTable c old new l t s
      else s) s

/-- Where granules of an allocation lie, after one has moved from `old` to `new`. -/
def movedTo (old new : Nat) (l : List (Nat × Nat)) : List (Nat × Nat) :=
  if l.any (fun m => decide (m.2 = old)) then l.map (fun m => if m.2 = old then (m.1, new) else m) else l ++ [(old, new)]

/-- The data of a granule and its marks have been copied: every translation of every context of its VAI is rewritten, their
cached translations are dropped, the old granule is retired and the manager is told (R277). -/
def moveDone (old new : Nat) (s : State) : State :=
  let data := readMem s (old * 4096) 4096
  let bad := fun (i : Nat) => poisonedAt s (old * 4096 + 64 * i)
  let a := allocOfGranule s old
  let s := writeMem (new * 4096) data bad (access .firmware 12 none true (new * 4096) 4096 s)
  let s := { s with mem := { s.mem with moves := s.mem.moves.filter (fun m => decide (m.1 ≠ old)) } }
  let s := match a with
    | none => s
    | some a =>
      let v := (allocAt s a).vai
      let cs := (s.fe.ctx.filter (fun c => decide (c.2.vai = v ∧ c.2.state ≠ 0))).map (fun c => c.1)
      let s := each cs (fun c s => redirectTable c old new 3 (ctxAt s c).root s) s
      let s := { s with fe := { s.fe with tlb := s.fe.tlb.filter (fun t => !cs.contains t.ctx) } }
      modAlloc a (fun x => { x with moved := movedTo old new x.moved }) s
  let s := retireGranule old (zeroMem (old * 4096) 4096 s)
  notice 0 0x06 (old % 2 ^ 28 + new % 2 ^ 28 * 2 ^ 28) (mapOutCheck (pcOf (old * 4096)) s)

/-! ## Errors -/

/-- The bank group of a near-tier address as reports name it: the stratum in bit 9 (R248, R719). -/
def groupOf (a : Nat) : Nat := Config.bankGroup (a / 256) % 2 * 512 + Config.bankGroup (a / 256) / 2 % 256

/-- The origin of a report about an address: the pseudo-channel, or a bank group of the near tier. -/
def memOrigin (a : Nat) : Nat × Nat := if isFar a then (3, pcOf a) else (4, groupOf a)

/-- A corrected codeword (R273, R275). -/
def corrected (a : Nat) (s : State) : State :=
  let s := reportCe (memOrigin a).1 (memOrigin a).2 0x01 (a % 2 ^ 48) s
  if isFar a then
    let n := tget 0 s.mem.granCe (a / 4096) + 1
    let s := modChan (pcOf a) (fun x => { x with ce := sat 8 (x.ce + 1) }) s
    let s := { s with mem := { s.mem with granCe := tset 0 s.mem.granCe (a / 4096) n } }
    if max 1 (field (regGet s 0xA00010) 16 4) < n then failGranule a s else s
  else s

/-- An uncorrectable codeword of the far tier or of scratch: it is rewritten with the mark (R273, R275). -/
def uncorrectable (a : Nat) (s : State) : State :=
  let s := { s with mem := { s.mem with poison := sinsert (a / 64) s.mem.poison } }
  let s := reportCe (memOrigin a).1 (memOrigin a).2 0x02 (a % 2 ^ 48) s
  if isFar a then failGranule a s else s

/-- Where a line of the near-tier cache lies in the strata, to its set. -/
def lineAt (s : State) (line : Nat) : Nat :=
  match s.mem.cache.find? (fun e => decide (e.1 = line)) with
  | some e => scratchBase + e.2.2 * stepSize + e.2.1 * 4096
  | none => scratchBase

/-- An error in a line of the near-tier cache: corrected in place, or its set is invalidated and the far tier serves (R273). -/
def cacheError (line : Nat) (bad : Bool) (s : State) : State :=
  let at_ := (s.mem.cache.find? (fun e => decide (e.1 = line))).map (fun e => e.2)
  let s := reportCe 4 (groupOf (lineAt s line)) 0x01 (line * 256) s
  if bad then { s with mem := { s.mem with cache := s.mem.cache.filter (fun e => decide (some e.2 ≠ at_)) } } else s

/-- The code corrects up to 2 symbols of a codeword, and what the on-die ECC reports is corrected (R271). -/
def correctable (syms : Nat) : Bool := decide (syms ≤ 2)

/-- What the code found in one codeword that a requester read. -/
def memError (e : MemError) (s : State) : State :=
  if e.cached then cacheError (e.addr / 256) (!correctable e.syms) s
  else if correctable e.syms then corrected e.addr s
  else uncorrectable e.addr s

/-- What the code found when a requester read [a, a + n). -/
def memErrors (a n : Nat) (l : List MemError) (s : State) : State :=
  each (l.filter (fun e => decide (alignDown a 64 ≤ e.addr ∧ e.addr < alignUp (a + n) 64))) memError s

end Sys2Proof.Machine
end

