-- ==== Sys2Proof/Machine/BoxOps.lean ====
section
/-!
DEFINITION. Mailboxes: the shape of every command, taking its arguments and replying (R647-R657, R772).
-/
namespace Sys2Proof.Machine
open Sys2Proof

/-- Who may send a command. -/
inductive BoxKind where
  | manager | vai | both | security
deriving DecidableEq, Repr

/-- A mailbox command: its code, who may send it, and the bits of words 1 to LEN that it uses (R656). -/
structure CmdShape where
  code  : Nat
  kind  : BoxKind
  masks : List Nat
deriving DecidableEq, Repr

/-- Bits of a handle (R451). -/
def handleBits : Nat := 0xFFFFFF

/-- Manager commands (R561, R592, R595-R598, R604, R612-R617, R656). -/
def shapesM : List CmdShape := [
  { code := 0x0101, kind := .manager, masks := [0xFFFF0FFF, 0xFFFFF, allBits] },
  { code := 0x0102, kind := .manager, masks := [0xFF] },
  { code := 0x0103, kind := .manager, masks := [0x1FFF, allBits, allBits] },
  { code := 0x0104, kind := .manager, masks := [0xF, 0x3F3F] },
  { code := 0x0105, kind := .manager, masks := [0xF, 0xFFF, 0xFF01] },
  { code := 0x0110, kind := .manager, masks := [0xFFFF00FF, allBits, 0xFFFF, allBits, 0xFFFF, 0x1FF, 0] },
  { code := 0x0111, kind := .both, masks := [handleBits] },
  { code := 0x0120, kind := .manager, masks := [0xFF] },
  { code := 0x0121, kind := .manager, masks := [0xFF] },
  { code := 0x0122, kind := .manager, masks := [0xFF] },
  { code := 0x0123, kind := .manager, masks := [0xFF] },
  { code := 0x0124, kind := .manager, masks := [0x1FF, allBits, allBits, allBits] },
  { code := 0x0125, kind := .manager, masks := [0xFF, allBits, allBits, allBits] },
  { code := 0x0126, kind := .manager, masks := [0xFF, allBits, allBits, allBits] },
  { code := 0x0300, kind := .manager, masks := [0x3FF, allBits, allBits, allBits] },
  { code := 0x0301, kind := .manager, masks := [3] },
  { code := 0x0302, kind := .manager, masks := [] },
  { code := 0x0303, kind := .manager, masks := [] },
  { code := 0x0310, kind := .manager, masks := [0x3FF] },
  { code := 0x0311, kind := .manager, masks := [0xF] },
  { code := 0x0312, kind := .manager, masks := [0xF] },
  { code := 0x0340, kind := .manager, masks := [0xFF, allBits] },
  { code := 0x0341, kind := .manager, masks := [allBits, allBits] }]

/-- VAI commands, and those of the security mailbox (R656, R740). -/
def shapesV : List CmdShape := [
  { code := 0x0200, kind := .vai, masks := [handleBits, allBits, allBits] },
  { code := 0x0201, kind := .vai, masks := [0x3FF] },
  { code := 0x0202, kind := .vai, masks := [0x3FF, 1] },
  { code := 0x0210, kind := .vai, masks := [handleBits, allBits, allBits] },
  { code := 0x0211, kind := .vai, masks := [handleBits] },
  { code := 0x0220, kind := .vai, masks := [handleBits, allBits, allBits, allBits, allBits, 1] },
  { code := 0x0221, kind := .vai, masks := [handleBits] },
  { code := 0x0222, kind := .vai, masks := [handleBits, allBits, allBits, 0xFF] },
  { code := 0x0223, kind := .vai, masks := [handleBits] },
  { code := 0x0230, kind := .vai, masks := [0x3FFF, allBits] },
  { code := 0x0231, kind := .vai, masks := [0x3FFF] },
  { code := 0x0232, kind := .vai, masks := [0x1F, handleBits, 0xFFF] },
  { code := 0x0233, kind := .vai, masks := [0x1F] },
  { code := 0x0234, kind := .vai, masks := [0xFF, handleBits, allBits, allBits, 0x1FFF001F, 0x80003FFF] },
  { code := 0x0235, kind := .vai, masks := [0xFF] },
  { code := 0x0240, kind := .vai, masks := [handleBits, allBits, allBits, allBits] },
  { code := 0x0241, kind := .vai, masks := [handleBits, allBits, allBits, 3] },
  { code := 0x0242, kind := .vai, masks := [handleBits, allBits, allBits] },
  { code := 0x0243, kind := .vai, masks := [handleBits, handleBits] },
  { code := 0x0244, kind := .vai, masks := [handleBits, allBits, allBits] },
  { code := 0x0245, kind := .vai, masks := [handleBits] },
  { code := 0x0246, kind := .vai, masks := [handleBits] },
  { code := 0x0250, kind := .vai, masks := [handleBits, allBits, allBits] },
  { code := 0x0251, kind := .vai, masks := [handleBits, allBits, allBits] },
  { code := 0x0252, kind := .vai, masks := [handleBits, 0xFF] },
  { code := 0x0400, kind := .security, masks := [allBits, allBits, allBits, allBits, allBits, allBits] },
  { code := 0x0401, kind := .security, masks := [allBits, allBits] },
  { code := 0x0402, kind := .security, masks := [0xF, allBits, allBits] }]

/-- Mailbox b (0-255 of a VAI, 256 manager, 257 security) offers commands of a kind. -/
def offers (b : Nat) (k : BoxKind) : Bool :=
  match k with
  | .manager => b == 256
  | .vai => decide (b < 256)
  | .both => decide (b ≤ 256)
  | .security => b == 257

/-- The shape of a code that a mailbox offers. -/
def shapeOf (b code : Nat) : Option CmdShape :=
  (shapesM ++ shapesV).find? (fun c => decide (c.code = code) && offers b c.kind)

/-- The processor that serves a mailbox (R623): steward 0 to 3, or the CSB, 4. -/
def boxProc (b : Nat) : Nat := if b < 256 then b % 4 else if b = 256 then 0 else 4

/-- The host queue of a mailbox's sender: 0 manager, 1 + v VAI v. -/
def boxQueue (b : Nat) : Nat := if b < 256 then 1 + b else 0

/-- The mailbox code of notice 0x01 (R634). -/
def boxNotice (b : Nat) : Nat := if b < 256 then 2 else b - 256

/-- Word i of the command that a processor has taken. -/
def boxWord (s : State) (b i : Nat) : Nat := ((boxAt s b).taken.getD i 0).toNat

/-- A quantity of two words, low word first. -/
def boxPair (s : State) (b i : Nat) : Nat := boxWord s b i + 2 ^ 32 * boxWord s b (i + 1)

/-- The code of a command. -/
def cmdCode (w : Nat) : Nat := field w 0 16
/-- LEN of a header word. -/
def cmdLen (w : Nat) : Nat := field w 28 4

/-- The processor writes the reply and posts its notice (R650). -/
def replyBox (b code : Nat) (words : List Nat) (s : State) : State :=
  let h := boxWord s b 0
  let token := field h 16 8
  let hdr := words.length * 2 ^ 28 + token * 2 ^ 16 + cmdCode h
  let s := modBox b (fun x => { x with reply := (hdr :: words ++ List.replicate (7 - words.length) 0).map w32, state := .done,
                                       valid := true, replyLen := words.length, token := token, ret := code % 65536 }) s
  notice (boxQueue b) 0x01 (code % 65536 + token * 2 ^ 16 + boxNotice b * 2 ^ 24) s

/-- The low and high word of a 64-bit reply. -/
def words2 (x : Nat) : List Nat := [x % 2 ^ 32, x / 2 ^ 32 % 2 ^ 32]

/-- Reply with a status. -/
def replySt (b : Nat) (st : Status) (s : State) : State := replyBox b st.code [] s

/-- Mailbox b holds a taken command of this code, not yet answered. -/
def awaits (s : State) (b code : Nat) : Bool := (boxAt s b).state == .taken && decide (cmdCode (boxWord s b 0) = code)

/-- The answer to a command that took its time, unless it has been answered (R717). -/
def replyFor (b code : Nat) (st : Status) (s : State) : State := if awaits s b code then replySt b st s else s

/-- The processor of mailbox b has taken a command of this code and runs it now. -/
def boxRuns (s : State) (b code : Nat) : Bool :=
  (boxAt s b).state == .taken && decide (cmdCode (boxWord s b 0) = code) && (procAt s (boxProc b)).pstate == 1

/-- A processor executes a taken command: not within a block reset (R654, R655). -/
def onBox (b code : Nat) (f : State → State) (s : State) : State :=
  guarded (boxRuns s b code && planeUp s && s.err.state != 2) f s

/-- A VAI's command about context handle word i: the context, live and of this VAI; otherwise the code that is returned. -/
def boxCtx (s : State) (v i : Nat) : Except Status Nat :=
  let h := boxWord s v i
  let c := field h 8 16
  if c < 512 ∧ (ctxAt s c).state ≠ 0 ∧ h = (ctxAt s c).hgen % 256 + 256 * c then
    (if (ctxAt s c).vai ≠ v ∨ (ctxAt s c).state ≠ 1 then .error .denied else .ok c)
  else .error .faultFormat

end Sys2Proof.Machine
end

