-- ==== Sys2Proof/Machine/RepairOps.lean ====
section
/-!
DEFINITION. Reserve-array swaps (R90, R91, R129, R678): choosing a reserve, emptying the old array, the remap.
-/
namespace Sys2Proof.Machine
open Sys2Proof

/-- The sector of a physical array (R87). -/
def sectorOfPhys (p : Nat) : Nat := p / 76

/-- The reserve array of a sector with the lowest number. -/
def reserveOf (s : State) (n : Nat) : Option Nat :=
  ((List.range 76).map (fun i => 76 * n + i)).find? (fun p => (physAt s p).role == 3)

/-- A swap runs in sector n. -/
def swapping (s : State) (n : Nat) : Bool := s.arr.swaps.any (fun x => sectorOfArray x.l == n)

/-- Array l takes no more entries, and those that have not started go back to the ready list. -/
def returnEntries (l p : Nat) (s : State) : State :=
  let q := (arrAt s p).queue
  let s := modArr p (fun x => { x with queue := [] }) s
  each q (fun seq s => modTask seq (fun t =>
    { t with place := if s.arr.saves.any (fun r => decide (r.seq = seq)) then .saved (l / 18) else .lsq (l / 18) }) s) s

/-- The remap: the logical number goes to the new array in one write, or becomes invalid; the old array is retired (R91, R129). -/
def remap (x : Swap) (s : State) : State :=
  let s := { s with fe := { s.fe with tlb := s.fe.tlb.filter (fun t => decide (t.unit ≠ XlUnit.array x.l)) } }
  let s := { s with arr := { s.arr with lmap := tset 0 s.arr.lmap x.l (match x.new with | some p => p + 1 | none => 0),
                                        swaps := s.arr.swaps.filter (fun y => decide (y.l ≠ x.l)) } }
  let s := modPhys x.old (fun p => { p with role := 5, logical := 0x3FF }) s
  let s := match x.new with
    | some p => modPhys p (fun y => { y with role := 2, logical := x.l }) s
    | none => s
  let s := fillSeq (x.l / 18) s
  if x.own then s else replyFor 256 0x0310 .done s

/-- A swap whose old array drains ends once that array is free. -/
def swapCheck (x : Swap) (s : State) : State :=
  if (physAt s x.old).role = 4 ∧ (arrAt s x.old).task.isNone then remap x s else s

/-- Every swap is looked at. -/
def swapChecks (s : State) : State := each s.arr.swaps swapCheck s

/-- Step 2 of R678: the old array drains, with a request of grace 0. -/
def drainOld (x : Swap) (s : State) : State :=
  let s := returnEntries x.l x.old s
  let s := requestNow x.old (modPhys x.old (fun y => { y with role := 4 }) s)
  swapCheck x s

/-- Step 1 of R678: the lowest reserve is self-tested. With none left, a swap that the manager asked for is denied, and an array that
fails is emptied for good (R91). -/
def beginSwap (l old : Nat) (own : Bool) (s : State) : State :=
  let put := fun (new : Option Nat) (s : State) =>
    { s with arr := { s.arr with swaps := s.arr.swaps.filter (fun y => decide (y.l ≠ l)) ++ [⟨l, old, new, own⟩] } }
  match reserveOf s (sectorOfArray l) with
  | some p => modPhys p (fun y => { y with testing := true }) (put (some p) s)
  | none =>
    if own then drainOld ⟨l, old, none, own⟩ (put none s)
    else replyFor 256 0x0310 .denied { s with arr := { s.arr with swaps := s.arr.swaps.filter (fun y => decide (y.l ≠ l)) } }

end Sys2Proof.Machine
end

