-- ==== Sys2Proof/Machine/ArrEvents.lean ====
section
/-!
DEFINITION. What happens to an array from outside its program: replies, the start of a task (R133, R449, R498), saves and
restores (R150-R165), timeouts and hardware errors.
-/
namespace Sys2Proof.Machine
open Sys2Proof

/-- An event of the physical array behind logical array l, while the compute plane runs. -/
def arrayEvent (l : Nat) (f : Nat → Arr → State → State) (s : State) : State :=
  guarded (computeOn s) (fun s => match physOf s l with
    | some p => f p (arrAt s p) s
    | none => s) s

/-- No read of array l is outstanding, and no run of it waits for a pip. -/
def readsDone (s : State) (l : Nat) : Bool :=
  !s.ports.oreq.any (fun r => r.use == .load l) && !useLeft s (fun u => match u with | .load k _ => k == l | _ => false) &&
    !runsWait s (.array l)

/-- LOAD_COMPLETE (R130, R273): the last data of a load lands and the instruction retires. `ecc` is what the code found in
the codewords read from block-local memory. -/
def execLoadComplete (l : Nat) (ecc : List MemError) (s : State) : Host.Outcome State Fault Refusal :=
  run s (arrayEvent l (fun p x s => match x.stall with
    | .load pieces =>
      if readsDone s l then
        let s := each pieces (fun q s => memErrors q.1 q.2.2 ecc s) s
        retireOn p (each pieces (landPiece p) s)
      else s
    | _ => s))

/-- STORE_ACK (R131, R263): a store's data has reached the point of coherence. -/
def execStoreAck (l : Nat) (s : State) : Host.Outcome State Fault Refusal :=
  run s (arrayEvent l (fun p x s =>
    if x.storesDue ≠ 0 ∧ ¬ runsWait s (.array l) then
      fenceCheck p (modArr p (fun x => { x with stores := x.stores - 1, storesDue := x.storesDue - 1 }) s)
    else s))

/-- ATOM_REPLY (R131, R533): the atomic returns and retires. -/
def execAtomReply (l : Nat) (s : State) : Host.Outcome State Fault Refusal :=
  run s (arrayEvent l (fun p x s => match x.stall with
    | .atom dst (some v) => if runsWait s (.array l) then s else retireWith p (fun x => x.putS dst v) s
    | _ => s))

/-- SYSTEM_CALL_REPLY (R153): a system call returns its result and retires. -/
def execSystemCallReply (l : Nat) (s : State) : Host.Outcome State Fault Refusal :=
  run s (arrayEvent l (fun p x s => match x.stall with
    | .sys dst v => if readsDone s l then retireWith p (fun x => x.putS dst v) s else s
    | _ => s))

/-! ## The start of a task -/

/-- A task-queue entry may start: a saved task unless its queue is held, a new one unless entries wait for room. -/
def entryReady (s : State) (seq : Nat) : Bool :=
  match taskOf s seq with
  | none => false
  | some t => if (saveOf s seq).isSome then (queueAt s t.queue).state != .busy else mayRun s t.queue

/-- The array cleared of everything but its place (R133). -/
def Arr.cleared (x : Arr) : Arr :=
  { lastCtx := x.lastCtx, saveGen := x.saveGen, queue := x.queue, gated := x.gated, started := x.started }

/-- Load the code of a new task and set its registers (R133, R449). -/
def loadTask (l p : Nat) (t : Task) (code : List Byte) (bad : Nat → Bool) (s : State) : State :=
  let r := t.record
  let base := fieldAt r 20 4
  modArr p (fun x =>
    let x := if x.lastCtx = some t.ctx then x else x.cleared
    let x := { x with task := some t.seq, lastCtx := some t.ctx, pc := base, codeLs := base, codeLen := code.length,
                      invalid := false, overflow := false, isat := false, nanScale := false, t2rsvd := false, cond := false,
                      v := [], vPoison := [], pPoison := [], p := [], loops := [], stack := [], window := none, stall := .none,
                      a := tset 0 (tset 0 (tset 0 [] 1 (w64 (fieldAt r 40 8))) 2 (w64 (fieldAt r 48 8))) 3 (w64 (fieldAt r 56 8)),
                      s := tset 0 [] 1 (w64 (t.seq + l * 2 ^ 37)), fmtA := 0, fmtB := 0, progress := 0, replay := false, liveIdx := 0 }
    x.putLs base code bad) s

/-- The marks of a task's code, granule by granule; `bad` is that of bytes from outside the block. -/
def codeMark (s : State) (l c va : Nat) (bad : Bool) (i : Nat) : Bool :=
  match xl s (.array l) c (va + 64 * i) 64 .read with
  | .ok 0 a => poisonedAt s a
  | .ok 1 _ => bad
  | .ok _ a => fetchMark s c a
  | .fault _ => bad

/-- Array l begins the task it takes from its queue: a restore, or a new task. -/
def startEntry (l p : Nat) (t : Task) (host : HostData) (s : State) : State :=
  let n := s.arr.startCtr + 1
  let s := { s with arr := { s.arr with startCtr := n } }
  let r1 := taskRank s t == 1
  let s := modArr p (fun x => { x with queue := x.queue.erase t.seq, started := n, rank1 := r1 }) s
  match saveOf s t.seq with
  | some r =>
    let s := if r.pool then s else accessC (.array l) t.ctx none false r.base r.size s
    modArr p (fun x => { x.cleared with task := some t.seq, lastCtx := some t.ctx, restore := true, rank1 := r1 })
      (modTask t.seq (fun t => { t with place := .restoring l }) s)
  | none =>
    let va := fieldAt t.record 8 8
    let len := fieldAt t.record 16 4
    match readCtl s (.array l) t.ctx va len host with
    | .error k => xlatFault t.seq t.ctx k 1 va s
    | .ok (code, bad) =>
      let mark := codeMark s l t.ctx va bad
      let s := touchCtl (.array l) t.ctx va len host s
      let s := modTask t.seq (fun t => { t with place := .running l, startL := l, start := beat s }) s
      loadTask l p t code mark s

/-- TASK_START (R498, R133): an idle array starts the next entry of its task queue. -/
def execTaskStart (l : Nat) (host : HostData) (s : State) : Host.Outcome State Fault Refusal :=
  run s (arrayEvent l (fun p x s =>
    if x.task.isSome ∨ x.gated then s
    else match (x.queue.find? (entryReady s)).bind (taskOf s) with
      | none => s
      | some t =>
        let go := fun (s : State) => stageQueue t.queue (fillSeq (l / 18) (startEntry l p t host s))
        if (saveOf s t.seq).isSome then go s
        else reading t.seq (.array l) (arrayCh l) t.seq t.ctx (fieldAt t.record 8 8) (fieldAt t.record 16 4) go s))

/-! ## Saves -/

/-- GRACE_EXPIRY (R151): the grace of a pre-emption request has passed. A task that waits at its END ends instead. -/
def execGraceExpiry (l : Nat) (s : State) : Host.Outcome State Fault Refusal :=
  run s (arrayEvent l (fun p x s => if maySave x && x.preempt.isSome then fullSave p s else s))

/-- What an array keeps of its state outside the bytes of its record: the control state. -/
def Arr.control (x : Arr) : Arr :=
  { x with ls := [], lsPoison := [], v := [], vPoison := [], acc := [], tilePoison := false, saving := none }

/-- The copy of a save (R157 steps 4 to 7, R160): bytes and marks go to the record, then the inbound writes that were held; the code of
the local store is checked on the way. The counters of R172 count the save. -/
def finishSave (p : Nat) (t : Task) (r : SaveRec) (ecc : List LsError) (s : State) : State :=
  let k := layoutOf (arrAt s p) r.entry
  let s := each (ecc.filter (fun e => k.gs.contains (e.addr / 64))) (lsError p t.ctx) s
  let x := arrAt s p
  let s := recStore r (recBytesOf x (some t) k) (recMarks x k) s
  let held := ((recOf s r.seq).map (fun y => y.held)).getD []
  let s := each held (fun h s => recPatch r h.off h.data (fun i => h.bad.getD i false) s) s
  { s with arr := { s.arr with
      saves := s.arr.saves.map (fun y => if y.seq = r.seq then { y with done := true, held := [], st := x.control } else y),
      cheap := s.arr.cheap + b2n r.cheap, full := s.arr.full + b2n (!r.cheap), spill := s.arr.spill + b2n (!r.pool) } }

/-- SAVE_COMPLETE (R155-R157): every reply has come and every run of the copy has issued; the record is kept and the array is free. -/
def execSaveComplete (l : Nat) (s : State) (ecc : List LsError := []) : Host.Outcome State Fault Refusal :=
  run s (arrayEvent l (fun p x s => match x.saving, x.task.bind (taskOf s), x.task.bind (recOf s) with
    | some _, some t, some r =>
      let ok := match x.stall with | .none => true | .wait _ => true | .barrier _ _ => true | _ => false
      if decide (x.stores = 0) && ok && !runsWait s (.array l) then
        let (c, s) := fresh s
        let s := finishSave p t r ecc s
        let s := leaveArray p (useCycles t.queue (c % 2 ^ 48) s)
        let s := modTask t.seq (fun t => { t with place := .saved (l / 18) }) s
        let s := if taskRank s t = 1 then raiseInTurn (l / 18) s else s
        fillSeq (l / 18) (swapChecks s)
      else s
    | _, _, _ => s))

/-- What the code found when a record was read back (R273): in the far tier, or in the save pool. -/
def recErrors (r : SaveRec) (l : List MemError) (s : State) : State :=
  if r.pool then
    each l (fun e s =>
      let s := reportCe 4 (groupOf (scratchBase + 7 * stepSize + e.addr)) (if correctable e.syms then 0x01 else 0x02) 0 s
      match r.units[e.addr / 65536]? with
      | some u => if correctable e.syms then s
        else { s with arr := { s.arr with poolMarks := sinsert (1024 * u + e.addr % 65536 / 64) s.arr.poolMarks } }
      | none => s) s
  else memErrors r.base r.size l s

/-- A restored task takes up its instruction (R153): a WAIT is armed again, a latched barrier release is applied. -/
def resume (l p : Nat) (t : Task) (r : SaveRec) (s : State) : State :=
  match r.st.stall, r.latched with
  | .wait _, _ =>
    let s := modArr p (fun x => { x with stall := .none }) s
    match fetch (arrAt s p) with
    | .ok w => if opClass w = 7 then doWait l p t w s else s
    | .error _ => s
  | .barrier dst _, some (gen, cond) =>
    modArr p (fun x => { (if cond then x.putS dst (w64 gen) else x).retire with cond := cond }) s
  | _, _ => s

/-- RESTORE_COMPLETE (R159-R161, R165): the saved state is back from the bytes of the record, whose space is freed; execution resumes. A
held request of grace 0 saves the task again at once (R151, R152). `ecc` is what the code found in the codewords of the record; one
of the save pool is named by its offset. -/
def execRestoreComplete (l : Nat) (s : State) (ecc : List MemError := []) : Host.Outcome State Fault Refusal :=
  run s (arrayEvent l (fun p x s => match x.restore, x.task.bind (taskOf s), x.task.bind (saveOf s) with
    | true, some t, some r =>
      if runsWait s (.array l) then s
      else
      let s := recErrors r ecc s
      let (bytes, marks) := recLoad r s
      let st := recState r.st (layoutOf r.st r.entry) bytes marks
      let s := freeRec r s
      let s := modArr p (fun x => { st with
        task := some t.seq, lastCtx := some t.ctx, queue := x.queue, gated := x.gated, started := x.started,
        rank1 := x.rank1, restore := false, saving := none, preempt := x.heldPre, heldPre := none }) s
      let s := resume l p t r (modTask t.seq (fun t => { t with place := .running l }) s)
      if (arrAt s p).preempt == some ⟨true⟩ && maySave (arrAt s p) then fullSave p s else s
    | _, _, _ => s))

/-- WAIT_TIMEOUT (R538): an armed wait with a timeout is withdrawn; the current value goes to DST, the condition is 0. -/
def execWaitTimeout (l : Nat) (s : State) : Host.Outcome State Fault Refusal :=
  run s (arrayEvent l (fun p x s => match x.stall, s.tw.waits.find? (fun w => decide (w.phys = p)) with
    | .wait _, some w =>
      if opImm (leNat (x.lsBytes x.pc 8)) = 0 then s else wakeWait w (twAt s w.idx) false s
    | _, _ => s))

/-! ## Errors -/

/-- The detail of a report about physical array p: the context of its task. -/
def arrDetail (s : State) (p : Nat) : Nat :=
  match (arrAt s p).task.bind (taskOf s) with
  | some t => detailOf t.ctx 0
  | none => 0

/-- ACC_PARITY_ERROR (R99): B-class. -/
def execAccParityError (p : Nat) (s : State) : Host.Outcome State Fault Refusal :=
  run s (fun s => bEvent 1 (arrName s p) 0x20 (arrDetail s p) s)

/-- LOCKSTEP_MISMATCH (R99): B-class. -/
def execLockstepMismatch (p : Nat) (s : State) : Host.Outcome State Fault Refusal :=
  run s (fun s => bEvent 1 (arrName s p) 0x21 (arrDetail s p) s)

end Sys2Proof.Machine
end

