-- ==== Sys2Proof/Machine/ArrGrid.lean ====
section
/-!
DEFINITION. The GRID, DRAIN, VEC and CONV classes of array instructions (R95, R108-R121). Their fields beyond R136 are in
log entry 31.
-/
namespace Sys2Proof.Machine
open Sys2Proof

/-! ## Grid -/

/-- GCFG (R108): the operand formats; a pair outside one class is malformed (R109). -/
def execGcfg (l : Nat) (s : State) (ecc : List LsError := []) : Host.Outcome State Fault Refusal :=
  run s (arrayOp l ecc 2 0 mod0 (fun p t w s =>
    let a := field (opImm w) 0 4
    let b := field (opImm w) 4 4
    if (gridClass a b).isSome then retireWith p (fun x => { x with fmtA := a, fmtB := b }) s
    else faultOn p t.seq .faultFormat s))

/-- GZERO (R112): the tile starts from zero. -/
def execGzero (l : Nat) (s : State) (ecc : List LsError := []) : Host.Outcome State Fault Refusal :=
  run s (arrayOp l ecc 2 1 mod0 (fun p _ _ s => retireWith p (fun x => { x with acc := [], tilePoison := false }) s))

/-- Accumulators from 25,600 bytes of the local store. -/
def accOf (x : Arr) (base : Nat) : Tbl W32 :=
  (List.range 6400).foldl (fun t i => tset 0 t i (w32 (leNat (x.lsBytes (base + 4 * i) 4)))) []

/-- GLOAD (R112): the accumulators are loaded from the local store, with its marks. -/
def execGload (l : Nat) (s : State) (ecc : List LsError := []) : Host.Outcome State Fault Refusal :=
  run s (arrayOp l ecc 2 2 mod0 (fun p t w s =>
    let x := arrAt s p
    let a := (x.getA (opSrc1 w)).toNat
    if a % 64 ≠ 0 then faultOn p t.seq .faultFormat s
    else if lsIn a 25600 then retireWith p (fun x => { x with acc := accOf x a, tilePoison := x.lsBad a 25600 }) s
    else faultOn p t.seq .faultAddress s))

/-- GSTEP (R95, R110): the next `n` of its IMM steps of multiply-accumulate, whole blocks in the block-scaled class; MOD bit 0
starts the tile from zero (R112). It retires with the last step; a full save can come before (R153). -/
def execGstep (l : Nat) (ecc : List LsError) (s : State) (n : Nat := 2 ^ 32) : Host.Outcome State Fault Refusal :=
  run s (arrayOp l ecc 2 3 (modBits 1) (fun p t w s =>
    match gridOpOf (arrAt s p) w with
    | none => faultOn p t.seq .faultFormat s
    | some g =>
      if !g.aligned then faultOn p t.seq .faultFormat s
      else if g.inStore then
        let lo := (arrAt s p).progress
        let n := if g.cls = .block then n / 32 * 32 else n
        let hi := lo + min n (g.k - lo)
        let s := modArr p (fun x => { g.run (bit (opMod w) 0) lo hi x with progress := hi }) s
        if hi = g.k then retireOn p s else s
      else faultOn p t.seq .faultAddress s))

/-- The FP32 word at a local address. -/
def lsWord (x : Arr) (a : Nat) : W32 := w32 (leNat (x.lsBytes a 4))

/-- The results of accumulators [64 lo, 64 hi) of a drain (R111): the scales lie at `sb`, the bias at `bb`. -/
def drainCells (x : Arr) (e : Epilogue) (sb bb lo hi : Nat) : List Res :=
  (stepsOf (64 * lo) (64 * hi)).map (fun i =>
    let a := lsWord x (sb + (if e.rows then 4 * (i / 80) else 0))
    let b := lsWord x (sb + (if e.rows then 320 + 4 * (i % 80) else 4))
    drainCell e (tget 0 x.acc i) a b (lsWord x (bb + 4 * (i % 80))))

/-- DRAIN (R111): the next `n` of its 100 groups of 64 accumulators go through the vector unit to the local store, row by row, as a
packed stream at a[SRC1]; the scales of R104 lie at a[SRC2], the bias at a[DST]. It retires with the last group; a full save can come
before (R153). -/
def execDrain (l : Nat) (s : State) (ecc : List LsError := []) (n : Nat := 2 ^ 32) : Host.Outcome State Fault Refusal :=
  run s (arrayOp l ecc 3 0 (modBits 4) (fun p t w s =>
    let x := arrAt s p
    match epilogueOf x w with
    | none => faultOn p t.seq .faultFormat s
    | some e =>
      let a := (x.getA (opSrc1 w)).toNat
      let b := (x.getA (opSrc2 w)).toNat
      let c := (x.getA (opDst w)).toNat
      if a % 64 ≠ 0 ∨ (e.scaleBytes ≠ 0 ∧ b % 64 ≠ 0) ∨ (e.bias ∧ c % 64 ≠ 0) then faultOn p t.seq .faultFormat s
      else if lsIn a e.outBytes && (e.scaleBytes == 0 || lsIn b e.scaleBytes) && (!e.bias || lsIn c 320) then
        let lo := x.progress
        let hi := lo + min n (100 - lo)
        let rs := drainCells x e b c lo hi
        let bad := x.tilePoison || (e.scaleBytes != 0 && x.lsBad b e.scaleBytes) || (e.bias && x.lsBad c 320)
        let out := packBytes e.fmt.bits (rs.map (fun r => r.code))
        let s := modArr p (fun x => { rs.foldl (fun y r => y.raise r) (x.putLs (a + 8 * e.fmt.bits * lo) out (fun _ => bad)) with
          progress := hi }) s
        if hi = 100 then retireOn p s else s
      else faultOn p t.seq .faultAddress s))

/-! ## Vector unit -/

/-- VEC FP32 operations (R121), OP 0x00 to 0x0F: MOD names the predicate register; the addend of a fused multiply-add is
DST; OP 5 compares by the kind in IMM into p[DST]. Other OP values are malformed. -/
def vecFp32 (l : Nat) (ecc : List LsError) (op : Nat) (s : State) : State :=
  arrayOp l ecc 4 op (modBits 4) (fun p t w s =>
    let d := opDst w
    let a := opSrc1 w
    let b := opSrc2 w
    let m := opMod w
    if op = 5 then
      (if opImm w < 4 ∧ d < 16 then
        retireWith p (fun x =>
          let ps := x.getP m
          let v := (List.range 64).foldl (fun (v : Nat) i =>
            if ps.getLsbD i && fcmp32 (opImm w) (x.getV a i) (x.getV b i) then v + 2 ^ i else v) 0
          let snan := (List.range 64).any (fun i => ps.getLsbD i && ((f32 (x.getV a i)).snan || (f32 (x.getV b i)).snan))
          let bad := x.vPoison.contains a || x.vPoison.contains b || x.pPoison.contains m
          let y := (x.putP d (w64 v)).raise { code := 0, invalid := snan }
          { y with pPoison := if d ≠ 0 ∧ bad then sinsert d y.pPoison else sremove d y.pPoison }) s
      else faultOn p t.seq .faultFormat s)
    else if (vecFp op 0 0 0).isNone then faultOn p t.seq .faultFormat s
    else retireWith p (fun x =>
      let f := fun (i : Nat) => (vecFp op (x.getV a i) (x.getV b i) (x.getV d i)).getD { code := 0 }
      let srcs := if op = 2 then [a, b, d] else if op ≥ 6 then [a] else [a, b]
      (x.lanes d m f).markV d m srcs) s) s

/-- The word that array l would execute next. -/
def nextWord (s : State) (l : Nat) : Nat :=
  match executing s l with
  | none => 0
  | some (p, _) => match fetch (arrAt s p) with
    | .ok w => w
    | .error _ => 0

/-- The OP of a VEC operation, at most `hi`, that the array executes next; `lo` where it is none of them. -/
def vecOpcode (s : State) (l lo hi : Nat) : Nat :=
  let w := nextWord s l
  if opClass w = 4 ∧ lo ≤ opCode w ∧ opCode w ≤ hi then opCode w else lo

/-- VEC_FP32_OP (R121): whichever FP32 operation stands at the program counter. -/
def execVecFp32Op (l : Nat) (s : State) (ecc : List LsError := []) : Host.Outcome State Fault Refusal :=
  run s (fun s => vecFp32 l ecc (vecOpcode s l 0 15) s)

/-- VEC_INT32_OP (R121): wrapping INT32 operations, MOD naming the predicate register. -/
def execVecInt32Op (l : Nat) (s : State) (ecc : List LsError := []) : Host.Outcome State Fault Refusal :=
  run s (fun s =>
    let op := vecOpcode s l 0x10 0x17
    arrayOp l ecc 4 op (modBits 4) (fun p _ w s => retireWith p (fun x =>
      let a := opSrc1 w
      let b := opSrc2 w
      (x.lanes (opDst w) (opMod w) (fun i => { code := (vecInt op (x.getV a i) (x.getV b i)).toNat })).markV (opDst w)
        (opMod w) [a, b]) s) s)

/-- VLD (R141): a vector register from 256 bytes of the local store, with the mark (R98). -/
def execVld (l : Nat) (ecc : List LsError) (s : State) : Host.Outcome State Fault Refusal :=
  run s (arrayOp l ecc 4 0x20 mod0 (fun p t w s =>
    let a := ((arrAt s p).getA (opSrc1 w)).toNat
    if a % 256 ≠ 0 then faultOn p t.seq .faultFormat s
    else if lsIn a 256 then
      retireWith p (fun x =>
        let y := (List.range 64).foldl (fun y i => y.putV (opDst w) i (lsWord x (a + 4 * i))) x
        { y with vPoison := if x.lsBad a 256 then sinsert (opDst w) x.vPoison else sremove (opDst w) x.vPoison }) s
    else faultOn p t.seq .faultAddress s))

/-- VST (R141): 256 bytes of the local store from v[SRC2], with its mark. -/
def execVst (l : Nat) (s : State) (ecc : List LsError := []) : Host.Outcome State Fault Refusal :=
  run s (arrayOp l ecc 4 0x21 mod0 (fun p t w s =>
    let a := ((arrAt s p).getA (opSrc1 w)).toNat
    if a % 256 ≠ 0 then faultOn p t.seq .faultFormat s
    else if lsIn a 256 then
      retireWith p (fun x =>
        let data := ((List.range 64).map (fun i => leBytes 4 (x.getV (opSrc2 w) i).toNat)).flatten
        x.putLs a data (fun _ => x.vPoison.contains (opSrc2 w))) s
    else faultOn p t.seq .faultAddress s))

/-! ## Conversion

Codes narrower than 32 bits stand in a vector register as the packed stream of R106: slot k of CVT and DEQ holds the 64 elements from
bit 64 k w on, slot k of QBLK and QT2 theirs alike; scale codes stand in a register as the scale stream, one byte per block (log entry 31). -/

/-- The slot and, behind it, the scale byte that IMM names above the format. -/
def immSlot (w : Nat) : Nat := field (opImm w) 8 8
def immScale (w : Nat) : Nat := field (opImm w) 16 8

/-- Slot `k` of `n` elements of `bits` bits lies in a vector register. -/
def slotIn (k n bits : Nat) : Bool := decide ((k + 1) * n * bits ≤ 2048)

/-- The codes of results become slot `k` of v[dst]; the flags are raised, the mark follows `src`. -/
def Arr.putSlot (dst k bits src : Nat) (rs : List Res) (x : Arr) : Arr :=
  let n := rs.length * bits
  rs.foldl (fun y r => y.raise r) ((x.putBitsV dst (k * n) n (packBits bits (rs.map (fun r => r.code)))).markPart dst [src])

/-- CVT (R106, R113, R114): the lanes of v[SRC1] to the format in IMM[7:0], into slot IMM[15:8] of v[DST]; MOD bit 0 rounds toward zero, bit 1
is SAT. -/
def execCvt (l : Nat) (s : State) (ecc : List LsError := []) : Host.Outcome State Fault Refusal :=
  run s (arrayOp l ecc 5 0 (modBits 2) (fun p t w s =>
    match fmtOf (opImm w % 256) with
    | some f =>
      if f = .t2 ∨ slotIn (immSlot w) 64 f.bits = false ∨ 65536 ≤ opImm w then faultOn p t.seq .faultFormat s
      else retireWith p (fun x =>
        x.putSlot (opDst w) (immSlot w) f.bits (opSrc1 w)
          ((List.range 64).map (fun i => convert f (bit (opMod w) 0) (bit (opMod w) 1) (f32 (x.getV (opSrc1 w) i))))) s
    | none => faultOn p t.seq .faultFormat s))

/-- QBLK (R106, R115): lanes 0 to 31 of v[SRC1], or 32 to 63 with MOD bit 1, to one block of the format in IMM[7:0]: the codes into slot
IMM[15:8] of v[DST], the scale code into byte IMM[23:16] of v[SRC2]. MOD bit 0 rounds toward zero, bit 2 is SAT. -/
def execQblk (l : Nat) (s : State) (ecc : List LsError := []) : Host.Outcome State Fault Refusal :=
  run s (arrayOp l ecc 5 1 (modBits 3) (fun p t w s =>
    match fmtOf (opImm w % 256) with
    | some f =>
      if 5 < opImm w % 256 ∨ slotIn (immSlot w) 32 f.bits = false ∨ 2 ^ 24 ≤ opImm w then faultOn p t.seq .faultFormat s
      else
        retireWith p (fun x =>
          let o := if bit (opMod w) 1 then 32 else 0
          let q := quantBlock f (bit (opMod w) 0) (bit (opMod w) 2) ((List.range 32).map (fun i => x.getV (opSrc1 w) (o + i)))
          let y := x.putSlot (opDst w) (immSlot w) f.bits (opSrc1 w) q.2
          (y.putBitsV (opSrc2 w) (8 * immScale w) 8 q.1).markPart (opSrc2 w) [opSrc1 w]) s
    | none => faultOn p t.seq .faultFormat s))

/-- QT2 (R106, R117): the lanes of v[SRC1] to T2 codes against the FP32 threshold in IMM, into slot MOD of v[DST]. A NaN gives 0 and
INVALID. -/
def execQt2 (l : Nat) (s : State) (ecc : List LsError := []) : Host.Outcome State Fault Refusal :=
  run s (arrayOp l ecc 5 2 (modBits 4) (fun p _ w s => retireWith p (fun x =>
    x.putSlot (opDst w) (opMod w) 2 (opSrc1 w) ((List.range 64).map (fun i =>
      let y := x.getV (opSrc1 w) i
      ({ code := t2Of (w32 (opImm w)) y, invalid := (f32 y).isNan } : Res)))) s))

/-- An element times an E8M0 scale, as FP32; a NaN scale gives NaN (R103). A signalling element raises INVALID (R120). -/
def deqRes (f : Fmt) (scaled : Bool) (c sc : Nat) : Res :=
  let n := decodeNum f c
  if scaled then match scaleOf sc with
    | some k => fp32Of n.snan (some (n.scale k))
    | none => { code := Fmt.nanCode .fp32, invalid := n.snan }
  else fp32Of n.snan (some n)

/-- DEQ (R106, R136): the elements of slot IMM[15:8] of v[SRC1], in the format of IMM[7:0], to FP32 in v[DST]; those of the block-scaled
formats times the E8M0 scales of their two blocks, bytes IMM[23:16] and the next of v[SRC2]. -/
def execDeq (l : Nat) (s : State) (ecc : List LsError := []) : Host.Outcome State Fault Refusal :=
  run s (arrayOp l ecc 5 3 mod0 (fun p t w s =>
    match fmtOf (opImm w % 256) with
    | some f =>
      let c := opImm w % 256
      let mx := decide (c ≤ 5 ∨ c = 12)
      if slotIn (immSlot w) 64 f.bits = false ∨ 2 ^ 24 ≤ opImm w ∨ (mx = true ∧ immScale w = 255) then faultOn p t.seq .faultFormat s
      else retireWith p (fun x =>
        let res := fun (i : Nat) =>
          deqRes f mx (x.packedV (opSrc1 w) f.bits (64 * immSlot w + i)) (x.packedV (opSrc2 w) 8 (immScale w + i / 32))
        (x.lanes (opDst w) 0 res).markV (opDst w) 0 (if mx then [opSrc1 w, opSrc2 w] else [opSrc1 w])) s
    | none => faultOn p t.seq .faultFormat s))

end Sys2Proof.Machine
end

