-- ==== Sys2Proof/Machine/ArrScal.lean ====
section
/-!
DEFINITION. The SCAL class of array instructions (R136). R136 names the operations and not their fields: DST takes SRC1 op
SRC2; MOD bit 0 names a DST in bank a, bit 1 a SRC1 in bank a (log entry 31).
-/
namespace Sys2Proof.Machine
open Sys2Proof

/-- DST takes `f` of SRC1 and SRC2. -/
def scalOp (l : Nat) (ecc : List LsError) (op : Nat) (f : W64 → W64 → W64) (s : State) : State :=
  arrayOp l ecc 1 op (modBits 2) (fun p _ w s => retireWith p (fun x =>
    x.putR (bit (opMod w) 0) (opDst w) (f (x.getR (bit (opMod w) 1) (opSrc1 w)) (x.getS (opSrc2 w)))) s) s

/-- ADDI: SRC1 plus the sign-extended immediate. -/
def execAddi (l : Nat) (s : State) (ecc : List LsError := []) : Host.Outcome State Fault Refusal :=
  run s (arrayOp l ecc 1 0 (modBits 2) (fun p _ w s => retireWith p (fun x =>
    x.putR (bit (opMod w) 0) (opDst w) (x.getR (bit (opMod w) 1) (opSrc1 w) + opImmS w)) s))

/-- ADD. -/
def execAdd (l : Nat) (s : State) (ecc : List LsError := []) : Host.Outcome State Fault Refusal := run s (scalOp l ecc 1 (fun a b => a + b))

/-- SUB. -/
def execSub (l : Nat) (s : State) (ecc : List LsError := []) : Host.Outcome State Fault Refusal := run s (scalOp l ecc 2 (fun a b => a - b))

/-- MUL: the low 64 bits. -/
def execMul (l : Nat) (s : State) (ecc : List LsError := []) : Host.Outcome State Fault Refusal := run s (scalOp l ecc 3 (fun a b => a * b))

/-- SHL: by the unsigned number in SRC2; 64 or more gives 0. -/
def execShl (l : Nat) (s : State) (ecc : List LsError := []) : Host.Outcome State Fault Refusal := run s (scalOp l ecc 4 (fun a b => a <<< b.toNat))

/-- SHR: logical, by the unsigned number in SRC2. -/
def execShr (l : Nat) (s : State) (ecc : List LsError := []) : Host.Outcome State Fault Refusal := run s (scalOp l ecc 5 (fun a b => a >>> b.toNat))

/-- AND. -/
def execAnd (l : Nat) (s : State) (ecc : List LsError := []) : Host.Outcome State Fault Refusal := run s (scalOp l ecc 6 (fun a b => a &&& b))

/-- OR. -/
def execOr (l : Nat) (s : State) (ecc : List LsError := []) : Host.Outcome State Fault Refusal := run s (scalOp l ecc 7 (fun a b => a ||| b))

/-- MOVI: the sign-extended immediate. -/
def execMovi (l : Nat) (s : State) (ecc : List LsError := []) : Host.Outcome State Fault Refusal :=
  run s (arrayOp l ecc 1 8 (modBits 1) (fun p _ w s => retireWith p (fun x =>
    x.putR (bit (opMod w) 0) (opDst w) (opImmS w)) s))

/-- MOVHI: bits [63:32] take the immediate, bits [31:0] stay. -/
def execMovhi (l : Nat) (s : State) (ecc : List LsError := []) : Host.Outcome State Fault Refusal :=
  run s (arrayOp l ecc 1 9 (modBits 1) (fun p _ w s => retireWith p (fun x =>
    let a := bit (opMod w) 0
    x.putR a (opDst w) (w64 ((x.getR a (opDst w)).toNat % 2 ^ 32 + 2 ^ 32 * opImm w))) s))

/-- The relation that a CMP tests: 0 equal, 1 not equal, 2 less, 3 less or equal (signed), 4 less, 5 less or equal
(unsigned). -/
def cmpHolds (kind : Nat) (a b : W64) : Bool :=
  match kind with
  | 0 => a == b
  | 1 => a != b
  | 2 => a.slt b
  | 3 => a.sle b
  | 4 => a.ult b
  | _ => a.ule b

/-- CMP: sets the condition that BRC tests. -/
def execCmp (l : Nat) (s : State) (ecc : List LsError := []) : Host.Outcome State Fault Refusal :=
  run s (arrayOp l ecc 1 10 (fun m => decide (m < 6)) (fun p _ w s => retireWith p (fun x =>
    { x with cond := cmpHolds (opMod w) (x.getS (opSrc1 w)) (x.getS (opSrc2 w)) }) s))

/-- An FP32 scalar operation by its kind in MOD, on the low 32 bits; the addend of a fused multiply-add is DST. -/
def fopRes (kind : Nat) (a b c : W32) : Option Res :=
  match kind with
  | 0 => some (fadd32 a b) | 1 => some (fmul32 a b) | 2 => some (ffma32 a b c) | 3 => some (fminmax32 false a b)
  | 4 => some (fminmax32 true a b) | 6 => some (frecip32 a) | 7 => some (frsqrt32 a) | 8 => some (fexp2 a)
  | 9 => some (flog2 a) | _ => none

/-- The low 32 bits of a register. -/
def low32 (v : W64) : W32 := w32 (v.toNat % 2 ^ 32)

/-- FOP: kinds 0 add, 1 multiply, 2 fused multiply-add, 3 minimum, 4 maximum, 5 compare (DST takes bit 0 less, bit 1
equal, bit 2 unordered, and the condition takes less), 6 reciprocal, 7 reciprocal square root, 8 exponential, 9 logarithm. -/
def execFop (l : Nat) (s : State) (ecc : List LsError := []) : Host.Outcome State Fault Refusal :=
  run s (arrayOp l ecc 1 11 (fun m => decide (m < 10)) (fun p _ w s => retireWith p (fun x =>
    let a := low32 (x.getS (opSrc1 w))
    let b := low32 (x.getS (opSrc2 w))
    match fopRes (opMod w) a b (low32 (x.getS (opDst w))) with
    | some r => (x.putS (opDst w) (w64 r.code)).raise r
    | none =>
      let v := b2n (fcmp32 1 a b) + 2 * b2n (fcmp32 0 a b) + 4 * b2n (fcmp32 3 a b)
      { (x.putS (opDst w) (w64 v)).raise { code := 0, invalid := (f32 a).snan || (f32 b).snan } with cond := fcmp32 1 a b }) s))

end Sys2Proof.Machine
end

