-- ==== Sys2Proof/Machine/ArrSync.lean ====
section
/-!
DEFINITION. The SYNC class of array instructions (R131, R533-R540, R547-R550).
-/
namespace Sys2Proof.Machine
open Sys2Proof

/-- An instruction of the SYNC class whose IMM must satisfy `imm` (R533). -/
def syncOp (l : Nat) (ecc : List LsError) (op : Nat) (mods imm : Nat → Bool) (f : Nat → Task → Nat → State → State) (s : State) : State :=
  arrayOp l ecc 7 op mods (fun p t w s => if imm (opImm w) then f p t w s else faultOn p t.seq .faultFormat s) s

/-- FENCE (R131): the array waits until every store is acknowledged. -/
def execFence (l : Nat) (s : State) (ecc : List LsError := []) : Host.Outcome State Fault Refusal :=
  run s (syncOp l ecc 0 mod0 mod0 (fun p _ _ s => fenceCheck p (modArr p (fun x => { x with stall := .fence }) s)))

/-- A SIGNAL that stays on this block: the array retires with the old value, or 0 when REMOTE is set (R533, R534). -/
def signalHere (l p : Nat) (t : Task) (i : Nat) (d : W32) (dst : Nat) (remote : Bool) (s : State) : State :=
  if twGranted s (ctxAt s t.ctx).vai i then
    let old := if remote then 0 else w64 (twAt s i).toNat
    tallyAdd i d 0x1 l (retireWith p (fun x => x.putS dst old) s)
  else faultOn p t.seq .faultAddress s

/-- SIGNAL (R533, R534): adds to a tally word here, or at another node by TSIG. -/
def execSignal (l : Nat) (s : State) (ecc : List LsError := []) : Host.Outcome State Fault Refusal :=
  run s (syncOp l ecc 1 (modBits 1) mod0 (fun p t w s =>
    let x := arrAt s p
    let v := (x.getS (opSrc1 w)).toNat
    let i := field v 0 14
    let node := field v 16 12
    let d := w32 ((x.getS (opSrc2 w)).toNat % 2 ^ 32)
    let remote := bit (opMod w) 0
    if v ≠ i + (if remote then node * 2 ^ 16 else 0) then faultOn p t.seq .faultFormat s
    else if !remote ∨ (node = nodeId s ∧ node ≠ 0xFFF) then signalHere l p t i d (opDst w) remote s
    else if !routeOk s node then faultOn p t.seq .faultAddress s
    else
      let s := modArr p (fun x => { x with stall := .signal (opDst w) }) s
      sendReq node (arrayCh l) 0x07 i d.toNat 0 0 [] (.signal l) t.seq t.ctx s))

/-- WAIT (R532, R535): armed and tested in one operation. -/
def execWait (l : Nat) (s : State) (ecc : List LsError := []) : Host.Outcome State Fault Refusal :=
  run s (syncOp l ecc 2 (modBits 2) (fun _ => true) (fun p t w s => doWait l p t w s))

/-- TAKEWAIT (R532, R536): armed and tested in one operation; a grant subtracts its amount. -/
def execTakewait (l : Nat) (s : State) (ecc : List LsError := []) : Host.Outcome State Fault Refusal :=
  run s (syncOp l ecc 3 mod0 (fun _ => true) (fun p t w s => doWait l p t w s))

/-- BARRIER (R547, R548, R550): one arrival on the channel; a broken channel retires at once with the condition at 0. -/
def execBarrier (l : Nat) (s : State) (ecc : List LsError := []) : Host.Outcome State Fault Refusal :=
  run s (syncOp l ecc 4 mod0 (fun i => decide (i < 32)) (fun p t w s =>
    let c := opImm w
    let b := barAt s c
    if b.state = 0 ∨ b.ctx ≠ t.ctx then faultOn p t.seq .faultAddress s
    else if b.state = 2 then retireWith p (fun x => { x with cond := false }) s
    else barArrive c t.seq (modArr p (fun x => { x with stall := .barrier (opDst w) c }) s)))

/-- The new value of a 64-bit word and the value that the atomic returns: 0 add, 1 fetch-add, 2 compare-and-swap
(R339, R533). -/
def atomicResult (kind old arg cmp : Nat) : Nat × Nat :=
  if kind = 2 then ((if old = cmp then arg else old), old) else (add64 old arg, if kind = 0 then 0 else old)

/-- An atomic on block-local memory, at the point of coherence (R266). `bad`: its store is marked. -/
def atomicAt (kind a arg cmp : Nat) (bad : Bool) (s : State) : Nat × State :=
  let r := atomicResult kind (leNat (readMem s a 8)) arg cmp
  (r.2, writeMem a (leBytes 8 r.1) (fun _ => bad) s)

/-- ATOM (R540, R533): at the point of coherence, or at a remote node; the result comes with the reply. -/
def execAtom (l : Nat) (s : State) (ecc : List LsError := []) (mem : List MemError := []) : Host.Outcome State Fault Refusal :=
  run s (syncOp l ecc 5 (fun m => decide (m < 3)) mod0 (fun p t w s =>
    let x := arrAt s p
    let va := (x.getA (opSrc1 w)).toNat
    let arg := (x.getS (opSrc2 w)).toNat
    let cmp := (x.getS (opDst w)).toNat
    let kind := opMod w
    let wait := fun (r : Option W64) (s : State) => modArr p (fun x => { x with stall := .atom (opDst w) r }) s
    if va % 8 ≠ 0 then faultOn p t.seq .faultFormat s
    else match xl s (.array l) t.ctx va 8 .atomic with
      | .fault k => xlatOn p t.seq t.ctx k va s
      | .ok 2 a =>
        let data := if kind = 2 then leBytes 8 arg else []
        sendReq (field a 52 12) (arrayCh l) (4 + kind) (a % 2 ^ 48) (if kind = 2 then cmp else arg) 0 data.length data
          (.atom l) t.seq t.ctx (wait none (xlFill (.array l) t.ctx va s))
      | .ok _ a =>
        let s := accessC (.array l) t.ctx none true a 8 (xlFill (.array l) t.ctx va (memErrors a 8 mem s))
        let s := taskPoisons t.seq (t.taint || poisonIn s a 8) s
        let r := atomicAt kind a arg cmp t.taint s
        wait (some (w64 r.1)) r.2))

end Sys2Proof.Machine
end

