-- ==== Sys2Proof/Machine/CmdOps.lean ====
section
/-!
DEFINITION. Commands entering a queue (R439, R445, R466): the entry an accepted command gets, and device-side enqueue.
-/
namespace Sys2Proof.Machine
open Sys2Proof

/-- The entry of a command accepted now at a queue. -/
def newCmd (s : State) (q code flags : Nat) (tag : W32) (pos : Option Nat) : CmdEnt :=
  { id := s.fe.cmdCtr, code := code, pos := pos, flags := flags, tag := tag, gen := (queueAt s q).gen, start := beat s,
    age := beat s }

/-- A command joins the accepted ones of its queue. -/
def addCmd (q : Nat) (e : CmdEnt) (s : State) : State :=
  let s := { s with fe := { s.fe with cmdCtr := s.fe.cmdCtr + 1 } }
  modQueue q (fun x => { x with cmds := x.cmds ++ [e] }) s

/-- The queue of VAI v at page index i, when one is created there. -/
def queueOfPage (s : State) (v i : Nat) : Option Nat :=
  (s.fe.q.find? (fun p => decide (p.2.vai = v ∧ p.2.idx = i) && p.2.state != .unused)).map (fun p => p.1)

/-- Outstanding device-enqueued tasks of a queue. -/
def enqCount (s : State) (q : Nat) : Nat := (s.fe.tasks.filter (fun t => decide (t.queue = q) && t.enqd)).length

/-- ENQ (R464-R466): the status and the new SEQ. -/
def enqueue (t : Task) (rec : List Byte) (bad : Bool) (page : Nat) (join : Bool) (s : State) : Status × Nat × State :=
  if bad || !recordOk rec || bit (byteAt rec 2) 1 then (.faultFormat, 0, s)
  else match queueOfPage s (ctxAt s t.ctx).vai page with
    | none => (.denied, 0, s)
    | some q =>
      let x := queueAt s q
      if x.ctx ≠ t.ctx ∨ x.state = .resetting ∨ x.state = .fenced then (.denied, 0, s)
      else if enqCount s q ≥ 4096 then (.busy, 0, s)
      else
        let seq := nextSeq s
        if join then (.done, seq, issueTask rec q t.ctx t.cmd none true true false s)
        else
          let e := { newCmd s q 1 (byteAt rec 2) (w32 (fieldAt rec 4 4)) none with seq := some seq }
          (.done, seq, issueTask rec q t.ctx e.id none false true false (addCmd q e s))

/-! ## Handoff queues (R480-R484) -/

/-- The room that a handoff queue keeps for handles of its own pool that lie outside it. -/
def hqKept (s : State) (h : Nat) : Nat :=
  (hqAt s h).count - ((hqAt s h).items.filter (fun x => decide (x / 2 ^ 24 = h))).length

/-- A handoff queue is bound to a context. -/
def hqBound (s : State) (h c : Nat) : Bool := decide (h < 256) && (hqAt s h).bound && decide ((hqAt s h).ctx = c)

/-- HPUSH (R482): the status. A handle of the queue's own pool uses the room that is kept for it. -/
def hqPush (t : Task) (h handle : Nat) (s : State) : Status × State :=
  let x := hqAt s h
  let kept := if handle / 2 ^ 24 = h then hqKept s h - 1 else hqKept s h
  if !hqBound s h t.ctx then (.denied, s)
  else if !t.handles.contains handle then (.faultFormat, s)
  else if x.items.length + kept ≥ 4096 then (.busy, s)
  else
    let s := modTask t.seq (fun t => { t with handles := t.handles.erase handle }) s
    let s := modHq h (fun x => { x with items := x.items ++ [handle] }) s
    match x.tw with
    | some i => (.done, tallyAdd i 1 0x4 h s)
    | none => (.done, s)

/-- The buffer of a handle (R481): context, virtual address, bytes. -/
def hqBuffer (s : State) (handle : Nat) : Nat × Nat × Nat :=
  let x := hqAt s (handle / 2 ^ 24)
  (x.ctx, x.pool + handle % 4096 * 2 ^ x.bufLog, 2 ^ x.bufLog)

/-- The task takes the oldest handle of a queue. -/
def hqTake (seq h handle : Nat) (s : State) : State :=
  modTask seq (fun t => { t with handles := t.handles ++ [handle] })
    (modHq h (fun x => { x with items := x.items.drop 1 }) s)

end Sys2Proof.Machine
end

