-- ==== Sys2Proof/Machine/ArrSys.lean ====
section
/-!
DEFINITION. The SYS class of array instructions (R464-R466, R482-R485, R574, R575). The call is performed at the
instruction; the array goes on with SYSTEM_CALL_REPLY.
-/
namespace Sys2Proof.Machine
open Sys2Proof

/-- The array waits for the reply of a system call. -/
def sysWait (p dst result : Nat) (s : State) : State :=
  modArr p (fun x => { x with stall := .sys dst (w64 result) }) s

/-- ENQ (R464, R465). A misaligned record address or a page index above 63 is malformed. -/
def execEnq (l : Nat) (s : State) (ecc : List LsError := []) : Host.Outcome State Fault Refusal :=
  run s (arrayOp l ecc 8 0 (modBits 1) (fun p t w s =>
    let x := arrAt s p
    let a := (x.getA (opSrc1 w)).toNat
    let page := (x.getS (opSrc2 w)).toNat
    if a % 64 ≠ 0 ∨ 64 ≤ page then faultOn p t.seq .faultFormat s
    else if !lsIn a 64 then faultOn p t.seq .faultAddress s
    else
      let (st, seq, s) := enqueue t (x.lsBytes a 64) (x.lsBad a 64) page (bit (opMod w) 0) s
      sysWait p (opDst w) (st.code + (if st = .done then seq * 256 else 0)) s))

/-- ALLOC (R574, R575). -/
def execAlloc (l : Nat) (s : State) (ecc : List LsError := []) : Host.Outcome State Fault Refusal :=
  run s (arrayOp l ecc 8 1 mod0 (fun p t w s =>
    let x := arrAt s p
    let lv := (x.getS (opSrc2 w)).toNat
    let (st, _, va, s) := heapAlloc t.ctx (x.getS (opSrc1 w)).toNat (lv % 4) (decide (4 ≤ lv ∨ opImm w ≠ 0)) s
    sysWait p (opDst w) (st.code + (if st = .done then va else 0)) s))

/-- FREE (R575). -/
def execFree (l : Nat) (s : State) (ecc : List LsError := []) : Host.Outcome State Fault Refusal :=
  run s (arrayOp l ecc 8 2 mod0 (fun p t w s =>
    let (st, s) := heapFree t.ctx ((arrAt s p).getS (opSrc1 w)).toNat s
    sysWait p (opDst w) st.code s))

/-- HPUSH (R482). -/
def execHpush (l : Nat) (s : State) (ecc : List LsError := []) : Host.Outcome State Fault Refusal :=
  run s (arrayOp l ecc 8 3 mod0 (fun p t w s =>
    let x := arrAt s p
    let (st, s) := hqPush t (x.getS (opSrc1 w)).toNat ((x.getS (opSrc2 w)).toNat % 2 ^ 32) s
    sysWait p (opDst w) st.code s))

/-- One piece of a buffer is delivered into the window: block-local bytes at once, others when they arrive (R483). -/
def deliverPiece (l p c seq : Nat) (q : Nat × Nat × Nat) (s : State) : State :=
  match xl s (.array l) c q.1 q.2.2 .read with
  | .ok 0 a =>
    let data := readMem s a q.2.2
    let bad := fun (i : Nat) => poisonedAt s (a + 64 * i)
    modArr p (fun x => x.putLs q.2.1 data bad) (accessC (.array l) c none false a q.2.2 (xlFill (.array l) c q.1 s))
  | .ok 1 a => hostRead c q.1 a q.2.2 (.load l) q.2.1 (xlFill (.array l) c q.1 s)
  | .ok _ a =>
    each (spansOf 512 (a % 2 ^ 48) q.2.2) (fun k s =>
      sendReq (field a 52 12) (arrayCh l) 0x01 k.1 0 0 k.2 [] (.load l (q.2.1 + (k.1 - a % 2 ^ 48))) seq c s) (xlFill (.array l) c q.1 s)
  | .fault _ => s

/-- Whether [a, a + n) lies in the open window. -/
def inWindow (x : Arr) (a n : Nat) : Bool :=
  match x.window with
  | some w => decide (w.1 ≤ a) && decide (a + n ≤ w.1 + w.2)
  | none => false

/-- HPOP with its buffer delivered at local address `a`. -/
def popDeliver (l p : Nat) (t : Task) (h handle a dst : Nat) (s : State) : State :=
  let (c, va, n) := hqBuffer s handle
  match xlRange s (.array l) c va n .read with
  | some k => sysWait p dst 0x10 (recordFault c k.1 1 k.2 s)
  | none =>
    if inWindow (arrAt s p) a n then
      let s := sysWait p dst (handle * 256) (hqTake t.seq h handle s)
      each ((spansOf 4096 va n).map (fun q => (q.1, a + (q.1 - va), q.2))) (deliverPiece l p c t.seq) s
    else sysWait p dst 0x10 s

/-- HPOP (R483): never waits for a handle; with MOD bit 0 the buffer is delivered into the open window. -/
def execHpop (l : Nat) (s : State) (ecc : List LsError := []) : Host.Outcome State Fault Refusal :=
  run s (arrayOp l ecc 8 4 (modBits 1) (fun p t w s =>
    let x := arrAt s p
    let h := (x.getS (opSrc1 w)).toNat
    let a := (x.getA (opSrc2 w)).toNat
    if bit (opMod w) 0 ∧ a % 64 ≠ 0 then faultOn p t.seq .faultFormat s
    else if !hqBound s h t.ctx then sysWait p (opDst w) 0x30 s
    else match (hqAt s h).items with
      | [] => sysWait p (opDst w) 0x31 s
      | handle :: _ =>
        if bit (opMod w) 0 then popDeliver l p t h handle a (opDst w) s
        else sysWait p (opDst w) (handle * 256) (hqTake t.seq h handle s)))

/-- PTEST (R485): 1 when the granule at a local address carries the mark. -/
def execPtest (l : Nat) (s : State) (ecc : List LsError := []) : Host.Outcome State Fault Refusal :=
  run s (arrayOp l ecc 8 5 mod0 (fun p t w s =>
    let a := ((arrAt s p).getA (opSrc1 w)).toNat
    if lsIn a 1 then retireWith p (fun x => x.putS (opDst w) (w64 (b2n (x.lsPoison.contains (a / 64))))) s
    else faultOn p t.seq .faultAddress s))

end Sys2Proof.Machine
end

