-- ==== Sys2Proof/Machine/ArrXfer.lean ====
section
/-!
DEFINITION. The XFER class of array instructions (R130, R138, R143). Their registers are in log entry 31.
-/
namespace Sys2Proof.Machine
open Sys2Proof

/-- A transfer instruction: its operands are checked, then `go` acts on VA, local address, bytes and stride. -/
def xferOp (l : Nat) (ecc : List LsError) (op : Nat) (strided : Bool) (go : Nat → Task → Nat → Nat → Nat → Nat → State → State) (s : State) : State :=
  arrayOp l ecc 6 op mod0 (fun p t w s =>
    match xferArgs (arrAt s p) w strided with
    | .error st => faultOn p t.seq st s
    | .ok (va, ls, n, st) => go p t va ls n st s) s

/-- LOAD (R130, R138): the array stalls until the last byte has landed. -/
def execLoad (l : Nat) (s : State) (ecc : List LsError := []) : Host.Outcome State Fault Refusal :=
  run s (xferOp l ecc 0 false (fun p t va ls n st s => startLoad l p t va ls n st s))

/-- STORE (R130, R138, R153): the next `n` granules leave the array; it retires with the last. -/
def execStore (l : Nat) (s : State) (ecc : List LsError := []) (n : Nat := 2 ^ 32) : Host.Outcome State Fault Refusal :=
  run s (xferOp l ecc 1 false (fun p t va ls len st s => doStore l p t n va ls len st s))

/-- LOADS (R136, R138): a strided load, granule by granule. -/
def execLoads (l : Nat) (s : State) (ecc : List LsError := []) : Host.Outcome State Fault Refusal :=
  run s (xferOp l ecc 2 true (fun p t va ls n st s => startLoad l p t va ls n st s))

/-- STORES (R136, R138, R153): a strided store, granule by granule. -/
def execStores (l : Nat) (s : State) (ecc : List LsError := []) (n : Nat := 2 ^ 32) : Host.Outcome State Fault Refusal :=
  run s (xferOp l ecc 3 true (fun p t va ls len st s => doStore l p t n va ls len st s))

/-- OPENWIN (R143): opens or replaces the inbound window, a granule-aligned extent of up to 512 KiB: IMM bytes, not 0, from s[SRC1]
(log entry 31). -/
def execOpenwin (l : Nat) (s : State) (ecc : List LsError := []) : Host.Outcome State Fault Refusal :=
  run s (arrayOp l ecc 6 4 mod0 (fun p t w s =>
    let a := ((arrAt s p).getS (opSrc1 w)).toNat
    let n := opImm w
    if a % 64 ≠ 0 ∨ n % 64 ≠ 0 ∨ n = 0 ∨ n > 0x80000 then faultOn p t.seq .faultFormat s
    else if lsIn a n then retireWith p (fun x => { x with window := some (a, n) }) s
    else faultOn p t.seq .faultAddress s))

/-- CLOSEWIN (R143): closes the inbound window. -/
def execClosewin (l : Nat) (s : State) (ecc : List LsError := []) : Host.Outcome State Fault Refusal :=
  run s (arrayOp l ecc 6 5 mod0 (fun p _ _ s => retireWith p (fun x => { x with window := none }) s))

end Sys2Proof.Machine
end

