-- ==== Sys2Proof/Machine/LedgerOps.lean ====
section
/-!
DEFINITION. The conservation ledger: its queue in host memory, its entries, and the entries that wait for room (R700-R702).
-/
namespace Sys2Proof.Machine
open Sys2Proof

/-- Log₂ of the entry count; 0: off (PM_LED_SIZE). -/
def ledSize (s : State) : Nat :=
  let n := regGet s 0x1100308
  if 6 ≤ n ∧ n ≤ 20 then n else 0

/-- The ledger queue is full. -/
def ledFull (s : State) : Bool := decide (2 ^ ledSize s ≤ (s.pm.tail + 2 ^ 32 - regGet s 0x110030C) % 2 ^ 32)

/-- The host address of the ledger queue. -/
def ledBase (s : State) : Nat := regGet s 0x1100300 / 64 * 64 + 2 ^ 32 * regGet s 0x1100304

/-- An entry (R701), its PHASE still 0. -/
def ledEntry (kind : Nat) (valid : Bool) (index snap beat : Nat) (payload : List Byte) : List Byte :=
  leBytes 1 kind ++ leBytes 1 (2 * b2n valid) ++ leBytes 2 index ++ leBytes 4 snap ++ leBytes 8 beat ++ padTo payload 48

/-- PHASE of the entry at a position: 1 in the first pass over the queue (R633). -/
def phaseOf (size pos : Nat) : Nat := 1 - pos / 2 ^ size % 2

/-- Write an entry at TAIL. -/
def ledPut (e : List Byte) (s : State) : State :=
  let n := ledSize s
  let k := s.pm.tail
  let e := lset e 1 (BitVec.ofNat 8 (byteAt e 1 + phaseOf n k))
  hostWriteM (ledBase s + 64 * (k % 2 ^ n)) e { s with pm := { s.pm with tail := (k + 1) % 2 ^ 32 } }

/-- An OVERFLOW entry. -/
def ledOverflow (s : State) : List Byte := ledEntry 0xFF true 0 (s.pm.snap + 1) (beat s) []

/-- A re-establishment entry: written, or held while the queue is full. What comes after 256 of them replaces all by one
OVERFLOW entry; once that stands, further ones are only counted (R702). With the ledger off there are no entries. -/
def ledEvent (kind index : Nat) (payload : List Byte) (s : State) : State :=
  let e := ledEntry kind true index (s.pm.snap + 1) (beat s) payload
  if ledSize s = 0 then s
  else if s.pm.overflow then { s with pm := { s.pm with lost := sat 16 (s.pm.lost + 1) } }
  else if s.pm.held.isEmpty && !ledFull s then ledPut e s
  else if s.pm.held.length < 256 then { s with pm := { s.pm with held := s.pm.held ++ [e] } }
  else { s with pm := { s.pm with held := [ledOverflow s], overflow := true, lost := sat 16 (s.pm.lost + 257) } }

/-- Write the entries that wait, as far as there is room. -/
def ledFlush (l : List (List Byte)) (s : State) : State :=
  match l with
  | [] => { s with pm := { s.pm with held := [], overflow := false } }
  | e :: r => if ledSize s = 0 ∨ ledFull s = true then { s with pm := { s.pm with held := e :: r } } else ledFlush r (ledPut e s)

end Sys2Proof.Machine
end

