-- ==== Sys2Proof/Machine/LceOps.lean ====
section
/-!
DEFINITION. Lookup engines: table descriptors and rows (R182-R191), pooling (R203-R208), the hot-row cache (R209-R215),
windows and runs (R199-R202), sub-batches (R216-R219) and delivery (R195-R198).
-/
namespace Sys2Proof.Machine
open Sys2Proof

/-! ## Tables -/

/-- A table descriptor (R184) and its shard list. -/
abbrev Tab := List Byte × List Nat

def tBase (d : Tab) : Nat := fieldAt d.1 0 6
def tRows (d : Tab) : Nat := fieldAt d.1 8 5
def tFmt (d : Tab) : Nat := byteAt d.1 13
def tDim (d : Tab) : Nat := fieldAt d.1 14 2
def tStride (d : Tab) : Nat := fieldAt d.1 16 2
def tShift (d : Tab) : Nat := byteAt d.1 18
def tUpdatable (d : Tab) : Bool := bit (byteAt d.1 19) 1
def tOorPoison (d : Tab) : Bool := bit (byteAt d.1 19) 2
def tHrc (d : Tab) : Bool := bit (byteAt d.1 19) 3

/-- The element format of a row format (R185), and its kind: 0 unscaled, 1 block-scaled, 2 with a row scale and bias. -/
def rowElem (f : Nat) : Option (Fmt × Nat) :=
  match f with
  | 0 => some (.fp32, 0) | 1 => some (.bf16, 0) | 2 => some (.fp16, 0) | 3 => some (.e4m3, 0) | 4 => some (.e5m2, 0)
  | 5 => some (.e4m3, 1) | 6 => some (.e5m2, 1) | 7 => some (.e2m3, 1) | 8 => some (.e3m2, 1) | 9 => some (.e2m1, 1)
  | 10 => some (.mxint8, 1) | 11 => some (.int8, 2) | 12 => some (.int4, 2) | _ => none

/-- The width W of a row (R185); none for a reserved format or a DIM that its rule refuses. -/
def rowWidth (f dim : Nat) : Option Nat :=
  match rowElem f with
  | none => none
  | some (e, k) =>
    let n := e.bits * dim / 8 + (if k = 1 then dim / 32 else if k = 2 then 4 else 0)
    let w := alignUp n 16
    if (k = 1 ∧ dim % 32 ≠ 0) ∨ e.bits * dim % 8 ≠ 0 ∨ w < 16 ∨ 4096 < w then none else some w

/-- A descriptor that may be used: VALID and well formed (R184-R186). One that is not counts as not VALID (DEDUCED). -/
def tableOk64 (d : List Byte) : Bool :=
  let st := fieldAt d 16 2
  bit (byteAt d 19) 0 && (isFar (fieldAt d 0 6) || isScratch (fieldAt d 0 6)) && zeroAt d 6 2 && decide (byteAt d 13 < 16) && decide (byteAt d 19 < 16) && zeroAt d 22 2 &&
    zeroAt d 30 34 && decide (fieldAt d 20 2 < 4096) && fieldAt d 0 6 % 256 == 0 && decide (fieldAt d 8 5 + 2 ≤ 2 ^ 40) &&
    decide (byteAt d 18 < 40) && fieldAt d 24 6 % 64 == 0 &&
    (match rowWidth (byteAt d 13) (fieldAt d 14 2) with
     | some w => st % 16 == 0 && decide (w ≤ st) && (if st ≤ 256 then 256 % st == 0 else st % 256 == 0)
     | none => false)

def domainOf (s : State) (d : Nat) : Option Domain := s.lce.domains.find? (fun x => decide (x.id = d))

def modDomain (d : Nat) (f : Domain → Domain) (s : State) : State :=
  { s with lce := { s.lce with domains := s.lce.domains.map (fun x => if x.id = d then f x else x) } }

/-- What LCE n caches of table t of a domain (R190). -/
def cachedTab (s : State) (n d t : Nat) : Option Tab :=
  ((lceAt s n).cached.find? (fun c => decide (c.1 = d ∧ c.2.1 = t))).map (fun c => c.2.2)

/-- The descriptor of table t of a domain, as LCE n sees it: the cached one, or that in memory (R190). -/
def tabOf (s : State) (n d t : Nat) : Option Tab :=
  match domainOf s d with
  | none => none
  | some x =>
    match cachedTab s n d t with
    | some c => some c
    | none =>
      let a := x.dir + 64 * t
      let b := readMem s a 64
      let n := fieldAt b 20 2 % 4096 + 1
      let l := fieldAt b 24 6
      if !localOk s a 64 || poisonIn s a 64 || !tableOk64 b || !localOk s l (2 * n) then none
      else some (b, (chunks 2 n (readMem s l (2 * n))).map leNat)

/-- The reads of a descriptor and of its shard list, which are charged as every read of the engine (R179, R292). -/
def touchTab (n d t : Nat) (s : State) : State :=
  match domainOf s d with
  | none => s
  | some x =>
    let a := x.dir + 64 * t
    let s := accessC (.lce n) x.ctx none false a 64 s
    match tabOf s n d t with
    | some y => accessC (.lce n) x.ctx none false (fieldAt y.1 24 6) (2 * y.2.length) s
    | none => s

/-- LCE n uses a descriptor: it reads it unless it has it cached, and keeps it while it caches fewer than 256 (R190). -/
def cacheTab (n d t : Nat) (s : State) : State :=
  if (cachedTab s n d t).isSome then s
  else
    let s := touchTab n d t s
    match tabOf s n d t with
    | some x => if (lceAt s n).cached.length < 256 then modLce n (fun y => { y with cached := y.cached ++ [(d, t, x)] }) s else s
    | none => s

/-- The engines drop what they cache of a domain (R228). -/
def dropTabs (d : Nat) (s : State) : State :=
  each (keysOf s.lce.unit (fun x => x.cached.any (fun c => decide (c.1 = d)))) (fun n s =>
    modLce n (fun x => { x with cached := x.cached.filter (fun c => decide (c.1 ≠ d)) }) s) s

/-- The owner and the local row of row r (R188). -/
def rowOwner (d : Tab) (r : Nat) : Nat × Nat :=
  let g := r / 2 ^ tShift d
  let n := d.2.length
  (d.2.getD (g % n) 0xFFF, g / n * 2 ^ tShift d + r % 2 ^ tShift d)

/-! ## Rows (R185, R187) -/

/-- Element i of a packed stream. -/
def packedAt (l : List Byte) (w i : Nat) : Nat := field (leNat ((l.drop (w * i / 8)).take 5)) (w * i % 8) w

/-- A value decoded from operands, INVALID where it is a NaN of operands that are none (R187, R207). -/
def decodedAs (ops : List Num) (v : Option Num) : Res :=
  let r := fp32Of false v
  { r with invalid := decide (r.code = Fmt.nanCode .fp32) && !ops.any (fun x => match x with | .nan _ => true | _ => false) }

/-- A row decoded to FP32: NaN and infinity as R187 says, a scaled product rounded only where it exceeds the range. -/
def decodeRow (f dim : Nat) (l : List Byte) : List Res :=
  match rowElem f with
  | none => []
  | some (e, k) =>
    let body := e.bits * dim / 8
    let num := fun (i : Nat) => decodeNum e (packedAt l e.bits i)
    (List.range dim).map (fun i =>
      if k = 0 then { code := (fp32Of false (some (num i))).code }
      else if k = 1 then match scaleOf (byteAt l (body + i / 32)) with
        | some x => decodedAs [num i] (some ((num i).scale x))
        | none => { code := Fmt.nanCode .fp32 }
      else
        let sc := decodeNum .fp16 (fieldAt l body 2)
        let bi := decodeNum .fp16 (fieldAt l (body + 2) 2)
        decodedAs [num i, sc, bi] (match numMul (num i) sc with
          | some p => numAdd p bi
          | none => none))

/-- FP32 values encoded in row format 0, 1 or 2, padded to the row's width (R222). -/
def encodeRow (f dim : Nat) (v : List W32) : List Byte :=
  match rowElem f with
  | none => []
  | some (e, _) =>
    let l := (v.map (fun x => leBytes (e.bits / 8) (convert e false false (f32 x)).code)).flatten
    padTo l ((rowWidth f dim).getD l.length)

/-! ## The hot-row cache (R209-R215) -/

def hrcAt (s : State) (p : Nat) : Hrc := tget {} s.lce.hrc p
def modHrc (p : Nat) (f : Hrc → Hrc) (s : State) : State :=
  { s with lce := { s.lce with hrc := tmod {} s.lce.hrc p f } }

def hrcReg (s : State) (p : Nat) : Nat := regGet s (0x801000 + 0x10 * p)
/-- Its size in 64 MiB units. -/
def hrcUnits (s : State) (p : Nat) : Nat := min 16 (field (hrcReg s p) 27 5)
/-- Its slot in bytes. -/
def hrcSlot (s : State) (p : Nat) : Nat := 64 * 2 ^ min 6 (field (hrcReg s p) 24 3)

/-- Units of a partition's scratch grant that no VAI holds: where its hot-row cache lies (R209, R596). -/
def hrcRoom (s : State) (p : Nat) : Nat :=
  ((List.range (partAt s p).scrCount).filter (fun i =>
    decide (tget .free s.fe.scrOwn ((partAt s p).scrFirst + i) = .free))).length

/-- Partition p has a hot-row cache that serves. -/
def hrcOn (s : State) (p : Nat) : Bool :=
  decide (0 < hrcUnits s p) && decide (hrcUnits s p ≤ hrcRoom s p) && !(hrcAt s p).emptying

/-- Domains bound in partition p. -/
def hrcDomains (s : State) (p : Nat) : List Nat :=
  (s.lce.domains.filter (fun d => decide (partOfCtx s d.ctx = p))).map (fun d => d.id)

/-- Sets that a domain may use. -/
def hrcSets (s : State) (p : Nat) : Nat :=
  let n := hrcUnits s p * 0x4000000 / hrcSlot s p / 16
  if confPart s p then n / max 1 (hrcDomains s p).length else n

/-- The set of a row, of its domain's share in a confidential partition. -/
def hrcSetOf (s : State) (p : Nat) (r : HotRow) : Nat × Nat :=
  (if confPart s p then r.domain + 1 else 0,
   Config.hrcSet (r.domain * 2 ^ 52 + r.table * 2 ^ 40 + r.loc) % max 1 (hrcSets s p))

/-- The copy of a row that is held. -/
def hrcCopy (s : State) (p : Nat) (r : HotRow) : Option HotCopy := (hrcAt s p).rows.find? (fun c => decide (c.key = r))

/-- A copy that a lookup may read. -/
def hrcHit (s : State) (p : Nat) (r : HotRow) : Option HotCopy := if hrcOn s p then hrcCopy s p r else none

/-- A copy becomes the most recently used. -/
def hrcTouch (p : Nat) (c : HotCopy) (s : State) : State :=
  modHrc p (fun x => { x with rows := x.rows.filter (fun y => decide (y.key ≠ c.key)) ++ [c] }) s

/-- An update writes the cached copy of its row (R213, R224). -/
def hrcWrite (p : Nat) (r : HotRow) (data : List Byte) (bad : Bool) (s : State) : State :=
  if (hrcCopy s p r).isSome then
    modHrc p (fun x => { x with rows := x.rows.map (fun c => if c.key = r then { c with data := data, bad := bad } else c) }) s
  else s

/-- Counter of row j of the sketch that LCE n keeps, for a key of a domain. -/
def sketchKey (s : State) (n p : Nat) (r : HotRow) (j : Nat) : Nat :=
  let share := if confPart s p then r.domain + 1 else 0
  ((n * 65537 + share) * 4 + j) * 16384 + Config.sketchSlot j (r.domain * 2 ^ 52 + r.table * 2 ^ 40 + r.loc) % 16384

/-- The estimate of a row: the smallest of its four counters (R211). -/
def sketchEst (s : State) (n p : Nat) (r : HotRow) : Nat :=
  ((List.range 4).map (fun j => tget 0 (hrcAt s p).sketch (sketchKey s n p r j))).foldl min 15

/-- A distinct row adds its count of uses (R211). -/
def sketchAdd (n p : Nat) (r : HotRow) (uses : Nat) (s : State) : State :=
  each (List.range 4) (fun j s =>
    let k := sketchKey s n p r j
    modHrc p (fun x => { x with sketch := tset 0 x.sketch k (min 15 (tget 0 x.sketch k + uses)) }) s) s

/-- A fetched row is admitted, or not (R211, R212). -/
def hrcAdmit (n p : Nat) (r : HotRow) (data : List Byte) (s : State) : State :=
  let min1 := field (hrcReg s p) 20 4
  let est := sketchEst s n p r
  let c : HotCopy := { key := r, data := data }
  if !hrcOn s p || decide (min1 = 0) || decide (est < min1) || decide (hrcSlot s p < data.length) || (hrcCopy s p r).isSome then s
  else
    let same := (hrcAt s p).rows.filter (fun x => hrcSetOf s p x.key == hrcSetOf s p r)
    if same.length < 16 then modHrc p (fun x => { x with rows := x.rows ++ [c] }) s
    else match minBy (fun x => sketchEst s n p x.key) same with
      | some v => if est < sketchEst s n p v.key then s else modHrc p (fun x => { x with rows := x.rows.erase v ++ [c] }) s
      | none => s

/-! ## Pooling (R203, R207) -/

/-- Key of an accumulator. -/
def accKey (b e : Nat) : Nat := 2 ^ 32 * b + e

/-- What an accumulator holds before any contribution: the least value for max, +0 otherwise (DEDUCED). -/
def accInit (pool : Nat) : W32 := if pool = 2 then 0xFF800000 else 0

/-- The pooling of one value into an accumulator. -/
def poolOp (pool : Nat) (w acc v : W32) : Res :=
  match pool with
  | 2 => fminmax32 true acc v
  | 3 => ffma32 w v acc
  | 4 => { code := v.toNat }
  | _ => fadd32 acc v

/-- A NaN result of operands that are no NaN (R207). -/
def madeNan (r : Res) (a b c : W32) : Bool :=
  decide (r.code = Fmt.nanCode .fp32) && !(f32 a).isNan && !(f32 b).isNan && !(f32 c).isNan

/-- Pool values into elements from `e` of a bag. -/
def poolVals (b e : Nat) (w : W32) (vals : List W32) (x : Batch) : Batch :=
  match vals with
  | [] => x
  | v :: r =>
    let a := tget (accInit x.pool) x.acc (accKey b e)
    let res := poolOp x.pool w a v
    poolVals b (e + 1) w r { x with acc := tset (accInit x.pool) x.acc (accKey b e) (w32 res.code),
                                    overflow := x.overflow || (x.pool != 4 && res.overflow),
                                    invalid := x.invalid || (x.pool != 4 && madeNan res a v (if x.pool = 3 then w else 0)) }

/-- Bytes of accumulators of a batch (R206). -/
def workNeed (d : List Byte) : Nat := (fieldAt d 22 2 + 1) * fieldAt d 28 4 * 4 / (if byteAt d 25 = 0 then 4 else 2)

/-- The accumulators of a batch lie in its work area (R206). -/
def usesWork (x : Batch) : Bool := match x.kind with
  | .task _ => decide (524288 < workNeed x.desc)
  | .sub _ _ _ _ _ => false

/-- Elements of a bag's vector. -/
def bagDim (x : Batch) (b : Nat) : Nat :=
  let d := tget 0 x.dims b
  if d = 0 then x.dim else d - 1

/-- CONCAT_N of a batch, 1 for the other pooling kinds. -/
def bagSlots (x : Batch) : Nat := if x.pool = 4 then byteAt x.desc 27 else 1

/-- Where the accumulators of bag b lie in the work area: OUT_STRIDE in elements apart, four bytes each (DESIGN CHOICE). -/
def workAt (x : Batch) (b : Nat) : Nat :=
  fieldAt x.desc 32 8 + b * (fieldAt x.desc 28 4 * 4 / (if byteAt x.desc 25 = 0 then 4 else 2))

/-- Slots of a bag that its accumulators hold. -/
def slotsHeld (x : Batch) (b : Nat) : List Nat :=
  if x.pool = 4 then (List.range (bagSlots x)).filter (fun k => x.slots.contains (64 * b + k))
  else if tget 0 x.count b = 0 then [] else [0]

/-- Take the accumulators of a bag from the work area (R206): a mark there poisons the bag. -/
def loadAcc (s : State) (n b : Nat) (x : Batch) : Batch :=
  if !usesWork x then x
  else
    (slotsHeld x b).foldl (fun x k =>
      let m := bagDim x b
      match readCtl s (.lce n) x.ctx (workAt x b + 4 * m * k) (4 * m) { bytes := [], poison := false } with
      | .ok (l, bad) =>
        let acc := (List.range m).foldl (fun t i => tset (accInit x.pool) t (accKey b (k * m + i)) (w32 (fieldAt l (4 * i) 4))) x.acc
        { x with acc := acc, poison := if bad then sinsert b x.poison else x.poison }
      | .error _ => { x with poison := sinsert b x.poison }) x

/-- Give the accumulators of a bag back to the work area. -/
def saveAcc (n b : Nat) (xs : Batch × State) : Batch × State :=
  let (x, s) := xs
  if !usesWork x then xs
  else
    let m := bagDim x b
    let s := each (slotsHeld x b) (fun k s =>
      let l := ((List.range m).map (fun i => leBytes 4 (tget (accInit x.pool) x.acc (accKey b (k * m + i))).toNat)).flatten
      writeOut (.lce n) x.ctx (workAt x b + 4 * m * k) l (x.poison.contains b) .mirror 0 s) s
    ({ x with acc := x.acc.filter (fun e => decide (e.1 / 2 ^ 32 ≠ b)) }, s)

/-- One use of a row: its values, its count, its mark. -/
def poolUse1 (bad : Bool) (vals : List Res) (dim : Nat) (x : Batch) (u : RowUse) : Batch :=
  let x := poolVals u.bag (if x.pool = 4 then u.slot * dim else 0) u.weight (vals.map (fun r => w32 r.code)) x
  { x with count := tmod 0 x.count u.bag (fun n => n + 1), slots := sinsert (64 * u.bag + u.slot) x.slots,
           poison := if bad then sinsert u.bag x.poison else x.poison,
           overflow := x.overflow || vals.any (fun r => r.overflow), invalid := x.invalid || vals.any (fun r => r.invalid) }

/-- A use is pooled into the accumulators, wherever they are kept. -/
def poolUseAt (n : Nat) (bad : Bool) (vals : List Res) (dim : Nat) (xs : Batch × State) (u : RowUse) : Batch × State :=
  saveAcc n u.bag (poolUse1 bad vals dim (loadAcc xs.2 n u.bag xs.1) u, xs.2)

/-- A row whose data is there is pooled into the bags of its uses (R199 step 5); a fetched one may enter the cache. One whose
bytes no longer lie in memory ends the batch with FAULT_ADDRESS (R9, R230). -/
def poolRow (n : Nat) (r : LkRow) (xs : Batch × State) : Batch × State :=
  let (x, s) := xs
  let p := partOfSector s (n / 4)
  if r.hit.isNone && !localOk s r.addr r.width then ({ x with fail := x.fail.orElse (fun _ => some .faultAddress) }, s)
  else
    let (data, bad) := r.hit.getD (readMem s r.addr r.width, poisonIn s r.addr r.width)
    let bad := r.bad || bad
    let xs := r.uses.foldl (poolUseAt n bad (decodeRow r.fmt r.dim data) r.dim) (x, s)
    let key : HotRow := ⟨x.domain, r.table, r.loc⟩
    let s := if r.hrc && r.hit.isNone && !bad then hrcAdmit n p key data xs.2 else xs.2
    let s := modLce n (fun y => { y with distinct := y.distinct + 1 }) s
    (xs.1, modVai (ctxAt s x.ctx).vai (fun v => { v with rows := v.rows + 1 }) s)

/-- Pool every row of the window whose data is there. -/
def poolReady (n : Nat) (x : Batch) (s : State) : Batch × State :=
  let ready := x.rows.filter (fun r => r.wait.isEmpty)
  ready.foldl (fun xs r => poolRow n r xs) ({ x with rows := x.rows.filter (fun r => !r.wait.isEmpty) }, s)

/-! ## Windows (R199-R202) -/

/-- A padding entry (R193). -/
def padRow : Nat := 0xFFFFFFFFFF

/-- A distinct row with its first use. -/
def newRow (t l : Nat) (d : Tab) (u : RowUse) : LkRow :=
  { table := t, loc := l, addr := tBase d + l * tStride d, width := (rowWidth (tFmt d) (tDim d)).getD 0,
    fmt := tFmt d, dim := tDim d, hrc := tHrc d, hit := none, wait := [], bad := false, uses := [u] }

/-- Add a use to the distinct row it names, or begin one; the rows stand by rising address (R199 steps 2 and 3). -/
def addUse (t l : Nat) (d : Tab) (u : RowUse) (rows : List LkRow) : List LkRow :=
  match rows with
  | [] => [newRow t l d u]
  | r :: rest =>
    if r.table = t ∧ r.loc = l then { r with uses := r.uses ++ [u] } :: rest
    else if tBase d + l * tStride d < r.addr then newRow t l d u :: r :: rest
    else r :: addUse t l d u rest

/-- Keys of what a row's bytes lie in: run numbers in the far tier, granule numbers in scratch (R200). -/
def fetchKeys (r : LkRow) : List Nat :=
  let k := if isFar r.addr then 256 else 64
  (spansOf k r.addr r.width).map (fun p => p.1 / k)

/-- Put a sub-batch's entries in parts of 32 (R342), their slot numbers for concatenation (R216); OPERAND also carries POOL
(DESIGN CHOICE, log entry 42). -/
def subParts (x : Batch) (tag : Nat) (l : List (LkEntry × Nat)) : List ReqPart :=
  let bytes := fun (e : LkEntry × Nat) => leBytes 5 e.2 ++ leBytes 2 e.1.table ++ leBytes 2 e.1.bag ++
    leBytes 1 (if x.pool = 4 then e.1.slot else 0) ++ leBytes 2 0 ++ leBytes 4 e.1.weight.toNat
  let ps := chunks 32 l.length l
  (ps.zip (List.range ps.length)).map (fun p =>
    { arg := x.domain + tag % 65536 * 2 ^ 16 + p.2 * 2 ^ 32, operand := ps.length + x.pool * 2 ^ 16,
      data := (p.1.map bytes).flatten })

/-- Send a sub-batch to an owner (R216). -/
def sendSub (n seq node : Nat) (l : List (LkEntry × Nat)) (xs : Batch × State) : Batch × State :=
  let (x, s) := xs
  let tag := freeTag s
  let bags := l.foldl (fun b e => sinsert e.1.bag b) []
  let s := sendAll node (n % 4) 0x08 (subParts x tag l) 0 (.sub n seq) seq x.ctx s
  let b : SubOut := { tag := tag, node := node, lce := n, seq := seq, bags := bags }
  let s := modLce n (fun y => { y with subOut := y.subOut + 1 }) { s with lce := { s.lce with subs := s.lce.subs ++ [b] } }
  ({ x with subs := x.subs ++ [tag], remote := x.remote + l.length }, s)

/-- The remote entries of a window by owner. -/
def addRemote (node : Nat) (e : LkEntry × Nat) (l : List (Nat × List (LkEntry × Nat))) :
    List (Nat × List (LkEntry × Nat)) :=
  match l with
  | [] => [(node, [e])]
  | p :: r => if p.1 = node then (p.1, p.2 ++ [e]) :: r else p :: addRemote node e r

/-- What step 1 of R199 makes of an entry. -/
structure Sorted where
  rows   : List LkRow := []
  remote : List (Nat × List (LkEntry × Nat)) := []
  oor    : List (Nat × Nat) := []
  here   : Nat := 0                  -- entries whose rows this block owns
  gone   : Bool := false             -- a row does not lie in memory

/-- Resolve one entry of a window. At an owner the row is local already. -/
def sortEntry (n : Nat) (s : State) (x : Batch) (w : Sorted) (e : LkEntry) : Sorted :=
  match tabOf s n x.domain e.table with
  | none => w
  | some d =>
    let o := match x.kind with
      | .task _ => rowOwner d e.row
      | .sub _ _ _ _ _ => (nodeId s, e.row)
    if e.row = padRow then w
    else if o.1 ≠ nodeId s then { w with remote := addRemote o.1 (e, o.2) w.remote }
    else if tRows d ≤ o.2 then { w with oor := (e.bag, e.slot) :: w.oor, here := w.here + 1 }
    else { w with rows := addUse e.table o.2 d ⟨e.bag, e.weight, e.slot⟩ w.rows, here := w.here + 1,
                  gone := w.gone || !localOk s (tBase d + o.2 * tStride d) ((rowWidth (tFmt d) (tDim d)).getD 1) }

/-- Step 4 of R199 for one distinct row: the sketch, the cache lookup, what is to be fetched. -/
def lookRow (n : Nat) (r : LkRow) (xs : Batch × State) : Batch × State :=
  let (x, s) := xs
  let p := partOfSector s (n / 4)
  let key : HotRow := ⟨x.domain, r.table, r.loc⟩
  let s := sketchAdd n p key r.uses.length s
  let hit := if r.hrc then hrcHit s p key else none
  let s := match hit with
    | some c => modLce n (fun y => { y with hits := y.hits + 1 }) (hrcTouch p c s)
    | none => s
  ({ x with rows := x.rows ++ [{ r with hit := hit.map (fun c => (c.data, c.bad)), wait := if hit.isSome then [] else fetchKeys r }],
            distinct := x.distinct + 1, hits := x.hits + b2n hit.isSome }, s)

/-- The distinct runs that the rows of a window wait for. -/
def windowKeys (x : Batch) : List Nat := x.rows.foldl (fun l r => r.wait.foldl (fun l k => sinsert k l) l) []

/-- Fetch the runs of a window, each once (R200). -/
def fetchWindow (n : Nat) (x : Batch) (s : State) : Batch × State :=
  let far := (windowKeys x).filter (fun k => isFar (k * 256))
  let miss := (far.filter (fun k => !cacheHit s k)).length
  let s := each far (fun k s => accessC (.lce n) x.ctx none false (k * 256) 256 s) s
  ({ x with runs := x.runs + miss }, modLce n (fun y => { y with runs := y.runs + miss }) s)

/-- Send the remote entries of a window to one owner, in sub-batches of up to 4,096. -/
def sendOwner (n : Nat) (o : Nat × List (LkEntry × Nat)) (xs : Batch × State) : Batch × State :=
  match xs.1.kind with
  | .sub _ _ _ _ _ => xs
  | .task seq =>
    if routeOk xs.2 o.1 then
      (chunks 4096 o.2.length o.2).foldl (fun xs l => sendSub n seq o.1 l xs) xs
    else ({ xs.1 with fail := xs.1.fail.orElse (fun _ => some .faultAddress) }, xs.2)

/-- Take the next window into work. -/
def startWindow (n : Nat) (x : Batch) (s : State) : Batch × State :=
  let l := x.rest.take x.window
  let w := l.foldl (sortEntry n s x) {}
  let s := modLce n (fun y => { y with entries := y.entries + w.here }) s
  let x := { x with rest := x.rest.drop x.window, rows := [], oor := x.oor || !w.oor.isEmpty,
                    fail := if w.gone then x.fail.orElse (fun _ => some .faultAddress) else x.fail,
                    poison := w.oor.foldl (fun p b => sinsert b.1 p) x.poison,
                    slots := w.oor.foldl (fun p b => sinsert (64 * b.1 + b.2) p) x.slots,
                    count := w.oor.foldl (fun t b => tmod 0 t b.1 (fun k => k + 1)) x.count }
  let xs := w.remote.foldl (fun xs o => sendOwner n o xs) (x, s)
  let xs := w.rows.foldl (fun xs r => lookRow n r xs) xs
  let xs := fetchWindow n xs.1 xs.2
  poolReady n xs.1 xs.2

/-! ## Delivery (R195-R198, R231) -/

/-- a ÷ n, correctly rounded (R203). -/
def fdivNat (a : W32) (n : Nat) : Res :=
  match f32 a with
  | .fin neg m e =>
    let q := m * 2 ^ 64 / n
    fp32Of false (some (.fin neg (2 * q + (if m * 2 ^ 64 % n = 0 then 0 else 1)) (e - 65)))
  | x => fp32Of false (some x)

/-- The pooled elements of bag b (R203). -/
def bagVals (x : Batch) (b : Nat) : List Res :=
  (List.range (bagDim x b * bagSlots x)).map (fun e =>
    let a := tget (accInit x.pool) x.acc (accKey b e)
    let n := tget 0 x.count b
    if x.pool = 4 then { code := a.toNat }
    else if n = 0 then { code := 0 }
    else if x.pool = 1 then fdivNat a n
    else { code := a.toNat })

/-- OUT_FMT. -/
def outFmt (x : Batch) : Fmt := match byteAt x.desc 25 with | 0 => .fp32 | 1 => .bf16 | _ => .fp16

/-- A bag's vector in OUT_FMT, with zeros to the end of its last granule, and whether it overflowed (R195, R197, R207). -/
def bagBytes (x : Batch) (b : Nat) : List Byte × Bool :=
  let f := outFmt x
  let v := bagVals x b
  let r := v.map (fun y => convert f false false (f32 (w32 y.code)))
  let l := (r.map (fun y => leBytes (f.bits / 8) y.code)).flatten
  (padTo l (alignUp l.length 64), v.any (fun y => y.overflow) || r.any (fun y => y.overflow))

/-- Every page of [va, va + n) translates to near-tier scratch; the fault record of the first that does not translate. -/
def scratchRange (s : State) (o : RunOwner) (c va n : Nat) : Except (Option (Nat × Nat)) Unit :=
  match xlRange s o c va n .write with
  | some k => .error (some k)
  | none =>
    if (spansOf 4096 va n).all (fun p => match xl s o c p.1 p.2 .write with | .ok 0 a => isScratch a | _ => false) then .ok ()
    else .error none

/-- Write one bag's vector to a near-tier destination. -/
def putNear (n c va : Nat) (data : List Byte) (bad : Bool) (s : State) : Except (Option (Nat × Nat)) State :=
  match scratchRange s (.lce n) c va data.length with
  | .error k => .error k
  | .ok _ => .ok (writeOut (.lce n) c va data bad .mirror 0 s)

/-- Write one bag's vector into its consumer's window (R196). -/
def putWindow (c dest off : Nat) (data : List Byte) (bad : Bool) (s : State) : Except (Option (Nat × Nat)) State :=
  let seq := dest % 2 ^ 37
  match taskOf s seq with
  | none => .error none
  | some t =>
    if t.ctx ≠ c then .error none
    else match windowWrite seq (field dest 37 10) off data (fun _ => bad) s with
      | some s => .ok s
      | none => .error none

/-- Deliver the bags of a list (R195): the first refusal ends it, with its fault; the bags before it stay written. -/
def deliverBags (n : Nat) (x : Batch) (taint : Bool) (l : List Nat) (s : State) : Option (Option (Nat × Nat)) × State :=
  match l with
  | [] => (none, s)
  | b :: r =>
    let x := loadAcc s n b x
    let bad := taint || x.poison.contains b
    let dest := fieldAt x.desc 8 8
    let o := b * fieldAt x.desc 28 4
    let data := (bagBytes x b).1
    let done := if bit (byteAt x.desc 26) 4 then putWindow x.ctx dest (fieldAt x.desc 16 4 + o) data bad s
      else putNear n x.ctx (dest + o) data bad s
    match done with
    | .error k => (some k, s)
    | .ok s => deliverBags n x taint r s

/-- The result record (R198); `poisoned` is the number of bags delivered with the mark. -/
def resultRec (x : Batch) (poisoned : Nat) (spill : Bool) : List Byte :=
  padTo (leBytes 4 x.distinct ++ leBytes 4 x.runs ++ leBytes 4 x.hits ++ leBytes 4 x.remote ++ leBytes 4 poisoned ++
    leBytes 4 (b2n spill + 2 * b2n x.invalid + 4 * b2n x.oor + 8 * b2n x.timeout)) 32

/-! ## The end of a batch -/

/-- A batch leaves its engine; the sub-batches it sent lose their owner. -/
def dropBatch (n : Nat) (k : BatchKind) (s : State) : State :=
  let s := modLce n (fun y => { y with active := y.active.filter (fun x => decide (x.kind ≠ k)) }) s
  match k with
  | .sub _ _ _ _ _ => s
  | .task seq =>
    let reqs := s.fab.reqs.map (fun r => if r.use = .sub n seq then { r with use := .dropped false 0x3FF } else r)
    { s with fab := { s.fab with reqs := reqs },
             lce := { s.lce with subs := s.lce.subs.filter (fun b => !decide (b.lce = n ∧ b.seq = seq)) } }

/-- Answer a sub-batch with one LKP_RSP part. OPERAND carries the number of parts and, above it, OVERFLOW and INVALID
(DESIGN CHOICE). -/
def subRsp (src tag gen ch arg part count status mask : Nat) (data : List Byte) (s : State) : State :=
  let q : Packet := { opc := 0x08, ch := ch, src := src, dst := nodeId s, tag := tag, gen := gen, arg := arg + part * 2 ^ 32 }
  respond q 0x88 status false mask count data s

/-- Refuse a sub-batch (R218): the owner's side is a CE. -/
def refuseSub (src tag gen ch arg : Nat) (s : State) : State :=
  reportCe 5 src 0x07 0 (subRsp src tag gen ch arg 0 1 0x10 0 [] s)

/-- A batch ends with a fault: `why` is the report type, `va` the fault to record. -/
def failBatch (n : Nat) (x : Batch) (st : Status) (why : Nat) (k : Option (Nat × Nat)) (s : State) : State :=
  let s := dropBatch n x.kind s
  match x.kind with
  | .sub src tag gen ch arg => refuseSub src tag gen ch arg s
  | .task seq =>
    match k with
    | some f => xlatFault seq x.ctx f.1 2 f.2 s
    | none => taskEnd seq st 0 (some (why, detailOf x.ctx 0)) s

/-- The elements of a bag from `o` on, as they stand. -/
def accBytes (x : Batch) (b o : Nat) : List Byte :=
  ((List.range (bagDim x b)).map (fun e => leBytes 4 (tget (accInit x.pool) x.acc (accKey b (o + e))).toNat)).flatten

/-- The records of a reply, each with the mark of its bag (R217, R342). -/
def subRecords (x : Batch) : List (List Byte × Bool) :=
  if x.pool = 4 then
    x.slots.map (fun k =>
      let b := k / 64
      (leBytes 2 b ++ leBytes 1 (k % 64) ++ leBytes 5 0 ++ accBytes x b (k % 64 * bagDim x b), x.poison.contains b))
  else
    x.count.map (fun c =>
      (leBytes 2 c.1 ++ leBytes 2 0 ++ leBytes 4 c.2 ++ accBytes x c.1 0, x.poison.contains c.1))

/-- The granules of a reply that marked records occupy. -/
def badGranules (off : Nat) (l : List (List Byte × Bool)) : List Nat :=
  match l with
  | [] => []
  | (d, bad) :: r => (if bad then (spansOf 64 off d.length).map (fun p => p.1 / 64) else []) ++ badGranules (off + d.length) r

/-- OVERFLOW and INVALID of a batch, as a reply carries them. -/
def batchFlags (x : Batch) : Nat := b2n x.overflow + 2 * b2n x.invalid

/-- Answer a sub-batch whose rows are pooled, in parts of 512 bytes. The marks of poisoned bags travel in PMASK (DESIGN
CHOICE). -/
def subReply (src tag gen ch arg : Nat) (x : Batch) (s : State) : State :=
  let recs := subRecords x
  let data := (recs.map (fun r => r.1)).flatten
  let bad := badGranules 0 recs
  let ps := if data.isEmpty then [[]] else chunks 512 data.length data
  each (ps.zip (List.range ps.length)) (fun p s =>
    let mask := ((List.range 8).map (fun g => if bad.contains (8 * p.2 + g) then 2 ^ g else 0)).foldl (fun a b => a + b) 0
    subRsp src tag gen ch arg p.2 (ps.length + 2 ^ 16 * batchFlags x) (if mask = 0 then 0 else 1) mask p.1 s) s

/-- A finished LOOKUP is delivered and completes; one whose result record goes to another node waits for its
acknowledgement (R344). -/
def deliverTask (n seq : Nat) (x : Batch) (s : State) : State :=
  let t := taskOf s seq
  let taint := (t.map (fun t => t.taint)).getD false
  let bags := List.range (fieldAt x.desc 22 2 + 1)
  let x := if usesWork x then bags.foldl (fun x b => { x with poison := (loadAcc s n b x).poison }) x else x
  let spill := x.overflow || bags.any (fun b => (bagBytes (loadAcc s n b x) b).2)
  match deliverBags n x taint bags s with
  | (some k, s) => failBatch n x .faultAddress 0x11 k s
  | (none, s) =>
    let va := fieldAt x.desc 40 8
    let st : Status := if x.poison.isEmpty then .done else .donePoisoned
    if va = 0 then taskEnd seq st 0 none (dropBatch n x.kind s)
    else match xlRange s (.lce n) x.ctx va 32 .write with
      | some k => failBatch n x .faultAddress 0x11 (some k) s
      | none =>
        let s := writeOut (.lce n) x.ctx va (resultRec x (if taint then bags.length else x.poison.length) spill) taint (.result seq) seq s
        if useLeft s (fun u => decide (u = .result seq)) then modTask seq (fun t => { t with wrap := some st }) s
        else taskEnd seq st 0 none (dropBatch n x.kind s)

/-- Put a batch back among those of its engine. -/
def keepBatch (n : Nat) (x : Batch) (s : State) : State :=
  modLce n (fun y => { y with active := y.active.map (fun z => if z.kind = x.kind then x else z) }) s

/-- A batch goes on as far as the data there is lets it: windows, then delivery. -/
def advance (fuel n : Nat) (x : Batch) (s : State) : State :=
  match fuel with
  | 0 => keepBatch n x s
  | f + 1 =>
    match x.fail with
    | some st => failBatch n x st 0x12 none s
    | none =>
      if !x.rows.isEmpty then keepBatch n x s
      else if !x.rest.isEmpty then
        let xs := startWindow n x s
        advance f n xs.1 (keepBatch n xs.1 xs.2)
      else if !x.subs.isEmpty then keepBatch n x s
      else match x.kind with
        | .task seq => deliverTask n seq x s
        | .sub src tag gen ch arg => subReply src tag gen ch arg x (dropBatch n x.kind s)

/-- The batch of a kind on an engine. -/
def batchOf (s : State) (n : Nat) (k : BatchKind) : Option Batch := (lceAt s n).active.find? (fun x => decide (x.kind = k))

/-- Change a batch and let it go on. -/
def stepBatch (n : Nat) (k : BatchKind) (f : Batch → Batch) (s : State) : State :=
  match batchOf s n k with
  | some x => advance ((f x).rest.length + 3) n (f x) s
  | none => s

/-- Begin a batch on an engine. -/
def beginBatch (n : Nat) (x : Batch) (s : State) : State :=
  let s := modLce n (fun y => { y with active := y.active ++ [x] }) s
  advance (x.rest.length + 3) n x s

/-! ## Replies (R217-R219) -/

/-- Combine the records of a reply (R217): `off` is where they begin in the reply, `bad` its marked granules. -/
def combine (n fuel off : Nat) (bad : List Nat) (l : List Byte) (xs : Batch × State) : Batch × State :=
  match fuel with
  | 0 => xs
  | f + 1 =>
    if l.length < 8 then xs
    else
      let x := loadAcc xs.2 n (fieldAt l 0 2) xs.1
      let b := fieldAt l 0 2
      let k := 8 + 4 * bagDim x b
      let vals := (List.range (bagDim x b)).map (fun i => w32 (fieldAt l (8 + 4 * i) 4))
      let slot := if x.pool = 4 then byteAt l 2 else 0
      let pool := if x.pool = 3 then 0 else x.pool
      let y := poolVals b (slot * bagDim x b) 0 vals { x with pool := pool }
      let mark := (spansOf 64 off k).any (fun p => bad.contains (p.1 / 64))
      let x := { y with pool := x.pool, count := tmod 0 y.count b (fun k => k + (if x.pool = 4 then 1 else fieldAt l 4 4)),
                        slots := if x.pool = 4 then sinsert (64 * b + slot) y.slots else y.slots,
                        poison := if mark then sinsert b y.poison else y.poison }
      combine n f (off + k) bad (l.drop k) (saveAcc n b (x, xs.2))

/-- A batch takes a reply and goes on. -/
def takeReply (b : SubOut) (bad : List Nat) (data : List Byte) (s : State) : State :=
  match batchOf s b.lce (.task b.seq) with
  | some x =>
    let xs := combine b.lce (data.length + 1) 0 bad data
      ({ x with subs := x.subs.erase b.tag, overflow := x.overflow || bit b.flags 0, invalid := x.invalid || bit b.flags 1 }, s)
    advance (xs.1.rest.length + 3) b.lce xs.1 xs.2
  | none => s

/-- The whole reply of a sub-batch is there: its parts in order are combined, and the batch goes on. -/
def subDone (b : SubOut) (s : State) : State :=
  let ps := b.parts.map (fun p => p.2)
  let data := (ps.map (fun p => p.drop 1)).flatten
  let bad := ((ps.zip (List.range ps.length)).map (fun p =>
    ((List.range 8).filter (fun g => bit (byteAt p.1 0) g)).map (fun g => 8 * p.2 + g))).flatten
  let s := { s with lce := { s.lce with subs := s.lce.subs.filter (fun y => decide (y.tag ≠ b.tag)) } }
  takeReply b bad data s

/-- A sub-batch is lost (R219, R344): its bags are poisoned, a CE is logged, and the batch goes on. -/
def subLost (b : SubOut) (s : State) : State :=
  let s := reportCe 5 b.node 0x03 0 { s with lce := { s.lce with subs := s.lce.subs.filter (fun y => decide (y.tag ≠ b.tag)) } }
  stepBatch b.lce (.task b.seq) (fun x =>
    { x with subs := x.subs.erase b.tag, timeout := true, poison := b.bags.foldl (fun l i => sinsert i l) x.poison }) s

/-- A sub-batch is refused (R218): its batch ends with FAULT_ADDRESS. -/
def subRefused (b : SubOut) (s : State) : State :=
  stepBatch b.lce (.task b.seq) (fun x => { x with fail := some .faultAddress })
    { s with lce := { s.lce with subs := s.lce.subs.filter (fun y => decide (y.tag ≠ b.tag)) } }

/-- The sub-batch of a request tag. -/
def subOf (s : State) (tag : Nat) : Option SubOut := s.lce.subs.find? (fun b => decide (b.tag = tag))

end Sys2Proof.Machine
end

