-- ==== Sys2Proof/Machine/ReqOps.lean ====
section
/-!
DEFINITION. What the outcome of a remote request does at its origin (R344, R407, R416), and a port whose requests are lost
(R370, R371).
-/
namespace Sys2Proof.Machine
open Sys2Proof

/-- The outcome of a request (R344). -/
inductive Reply where
  | done (mask old : Nat) (data : List Byte)
  | refused (st : Status)
  | lost
deriving DecidableEq, Repr

/-- The outcome that a response carries (R332). -/
def replyOf (k : Packet) : Reply :=
  if k.lost ∨ k.status = 0x20 then .lost
  else if k.status < 2 then .done k.pmask k.operand k.data
  else .refused (statusOf k.status)

/-- The status of a task whose request is refused (R344). -/
def refusedAs (st : Status) : Status := if st = .faultFormat then .faultFormat else .faultAddress

/-- The CE of a request that is lost (R344). -/
def lostCe (r : Req) (s : State) : State := report 5 r.dst 0x03 0 (confCtx s r.ctx) (detailOf r.ctx 0) s

/-! ## Arrays -/

/-- The task of an array ends because a request of it was refused (R344). -/
def refuseOn (p : Nat) (r : Req) (st : Status) (s : State) : State :=
  endOnArray p r.seq (refusedAs st) (some (0x12, detailOf r.ctx 0)) s

/-- The task of an array ends because a request of it was lost; its queue is not guilty. -/
def lostOn (p : Nat) (r : Req) (s : State) : State := endOnArray p r.seq .faultAddress none (lostCe r s)

/-- A load's packet is answered (R130, R344). -/
def loadReply (p : Nat) (dest : Nat) (r : Req) (o : Reply) (s : State) : State :=
  match o with
  | .done mask _ data => modArr p (fun x => x.putLs dest (padTo data r.len) (fun i => bit mask i)) s
  | .refused st => refuseOn p r st s
  | .lost =>
    let (x, s) := fresh s
    modArr p (fun y => y.putLs dest (leBytes r.len x) (fun _ => true)) (lostCe r s)

/-- A write, atomic or signal of an array is answered: `f` is what an acknowledgement does. -/
def ackReply (p : Nat) (r : Req) (o : Reply) (f : Nat → State → State) (s : State) : State :=
  match o with
  | .done _ old _ => f old s
  | .refused st => refuseOn p r st s
  | .lost => lostOn p r s

/-- What an atomic's reply gives its array: 0 for ADD, the old value otherwise (R533). -/
def atomReply (opc old : Nat) (x : Arr) : Arr :=
  match x.stall with
  | .atom dst none => { x with stall := .atom dst (some (if opc = 0x04 then 0 else w64 old)) }
  | _ => x

/-- A remote SIGNAL is acknowledged: it retires with 0 (R533). -/
def signalReply (x : Arr) : Arr :=
  match x.stall with
  | .signal dst => (x.putS dst 0).retire
  | _ => x

/-! ## Engines (R53, R344) -/

/-- A task must end with a status; the first stands. -/
def endEarly (seq : Nat) (st : Status) (type : Nat) (s : State) : State :=
  modTask seq (fun t => { t with early := t.early.orElse (fun _ => some (st, type)) }) s

/-- An engine's request is answered on MRSP. -/
def eapReply (e tag : Nat) (wr : Bool) (r : Req) (o : Reply) (s : State) : State :=
  match o with
  | .done mask old data =>
    let d := if r.opc = 0x05 ∨ r.opc = 0x06 then leBytes 8 old else data
    emit (.eapRsp e tag (if mask = 0 then .done else .donePoisoned) d) s
  | .refused st => emit (.eapRsp e tag (refusedAs st) []) (endEarly r.seq (refusedAs st) 0x12 s)
  | .lost =>
    if wr then emit (.eapRsp e tag .faultAddress []) (endEarly r.seq .faultAddress 0 (lostCe r s))
    else
      let (x, s) := fresh (lostCe r s)
      emit (.eapRsp e tag .donePoisoned (leBytes r.len x)) s

/-! ## Step movers (R406, R407) -/

def kvOf (s : State) (seq : Nat) : Option Kv := s.sg.kv.find? (fun k => decide (k.seq = seq))

def modKv (seq : Nat) (f : Kv → Kv) (s : State) : State :=
  { s with sg := { s.sg with kv := s.sg.kv.map (fun k => if k.seq = seq then f k else k) } }

/-- A KV_PASS ends. -/
def endKv (seq : Nat) (st : Status) (guilt : Option (Nat × Nat)) (s : State) : State :=
  taskEnd seq st 0 guilt { s with sg := { s.sg with kv := s.sg.kv.filter (fun k => decide (k.seq ≠ seq)) } }

/-- The status of a KV_PASS whose writes and signal are acknowledged. -/
def kvDone (k : Kv) : Status := if k.poisoned then .donePoisoned else .done

/-- Once every WRITE is answered, the signal goes out, or the failure ends the task. -/
def kvNext (seq : Nat) (s : State) : State :=
  match kvOf s seq with
  | none => s
  | some k =>
    let c := ((taskOf s seq).map (fun t => t.ctx)).getD 0
    if k.left ≠ 0 then s
    else match k.fail with
      | some (st, innocent) => endKv seq st (if innocent then none else some (0x12, detailOf c 0)) s
      | none =>
        sendReq k.node (byteAt k.desc 28 % 4) 0x07 (fieldAt k.desc 20 2 % 16384) (fieldAt k.desc 24 4) 0 0 [] (.kvSignal seq)
          seq c (modKv seq (fun k => { k with signal := true }) s)

/-- A WRITE of a KV_PASS is answered. -/
def kvReply (seq : Nat) (r : Req) (o : Reply) (s : State) : State :=
  let s := modKv seq (fun k => { k with left := k.left - 1 }) s
  let fail := fun (f : Status × Bool) (s : State) => modKv seq (fun k => { k with fail := k.fail.orElse (fun _ => some f) }) s
  match o with
  | .done _ _ _ => kvNext seq s
  | .refused _ => kvNext seq (fail (.faultAddress, false) s)
  | .lost => kvNext seq (fail (.faultAddress, true) (lostCe r s))

/-- The signal of a KV_PASS is answered. -/
def kvSignalReply (seq : Nat) (r : Req) (o : Reply) (s : State) : State :=
  match kvOf s seq, o with
  | none, _ => s
  | some k, .done _ _ _ => endKv seq (kvDone k) none s
  | some _, .refused _ => endKv seq .faultAddress (some (0x12, detailOf r.ctx 0)) s
  | some _, .lost => endKv seq .faultAddress none (lostCe r s)

/-! ## Batch tables (R416) -/

/-- A table write to a member is answered: with the last one its TABLE_TW is signalled; a failure is a CE. -/
def tableReply (g m k : Nat) (r : Req) (o : Reply) (s : State) : State :=
  let mine := fun (e : Nat × Nat × Nat × Nat) => decide (e.1 = g ∧ e.2.1 = m ∧ e.2.2.1 = k)
  let without := { s with sg := { s.sg with tables := s.sg.tables.filter (fun e => !mine e) } }
  match o, s.sg.tables.find? mine with
  | _, none => s
  | .done _ _ _, some e =>
    if 1 < e.2.2.2 then
      { s with sg := { s.sg with tables := s.sg.tables.map (fun e =>
          if mine e then (e.1, e.2.1, e.2.2.1, e.2.2.2 - 1) else e) } }
    else
      let tw := fieldAt (groupAt s g).members (16 * m + 2) 2 % 16384
      sendReq r.dst 0 0x07 tw 1 0 0 [] (.tableSignal g m) 0 r.ctx without
  | _, some _ => lostCe r without

/-! ## Engines and result records (R218, R219, R344) -/

/-- A sub-batch is refused or lost as a whole; its reply parts come through LKP_RSP. -/
def subOutcome (r : Req) (o : Reply) (s : State) : State :=
  match subOf s r.tag, o with
  | some b, .lost => subLost b s
  | some b, .refused _ => subRefused b s
  | _, _ => s

/-- The batch of a task leaves whichever engine works on it. -/
def dropLookup (seq : Nat) (s : State) : State := each (List.range 48) (fun n s => dropBatch n (.task seq) s) s

/-- A write of a task's result record is answered: the task ends with the last one. -/
def resultReply (seq : Nat) (r : Req) (o : Reply) (s : State) : State :=
  let left := useLeft s (fun u => decide (u = .result seq))
  let st := ((taskOf s seq).bind (fun t => t.wrap)).getD .done
  match o with
  | .done _ _ _ => if left then s else taskEnd seq st 0 none (dropLookup seq s)
  | .refused e => taskEnd seq (refusedAs e) 0 (some (0x12, detailOf r.ctx 0)) (dropLookup seq s)
  | .lost => taskEnd seq .faultAddress 0 none (dropLookup seq (lostCe r s))

/-! ## The outcome of a request -/

/-- An update task that waits for its owners ends with the last answer: with the first refusal's status (R230, R476). A refusal
that is DENIED or a loss leaves its queue innocent (R344). -/
def updateEnd (seq : Nat) (s : State) : State :=
  match taskOf s seq with
  | none => s
  | some t => match t.wrap with
    | none => s
    | some st =>
      if s.lce.updates.any (fun u => decide (u.seq = seq)) then s
      else match t.early with
        | some (e, type) => taskEnd seq e 0 (if type = 0 then none else some (type, detailOf t.ctx 0)) s
        | none => taskEnd seq st 0 none s

/-- A forwarded update record, or a write that outlives its engine task, is answered: a failure is a CE, and the status of an
update task that waits; the records of the update task that are outstanding are one fewer. -/
def updateReply (r : Req) (o : Reply) (s : State) : State :=
  let us := (s.lce.updates.map (fun u => if u.seq = r.seq then { u with left := u.left - 1 } else u)).filter
    (fun u => decide (u.left ≠ 0))
  let s := { s with lce := { s.lce with updates := us } }
  let early := fun (st : Status) (type : Nat) (s : State) =>
    if ((taskOf s r.seq).bind (fun t => t.wrap)).isSome then endEarly r.seq st type s else s
  match o with
  | .done _ _ _ => updateEnd r.seq s
  | .refused .denied => updateEnd r.seq (early .denied 0 (reportCe 5 r.dst 0x07 0 s))
  | .refused st => updateEnd r.seq (early (refusedAs st) 0x12 (reportCe 5 r.dst 0x07 0 s))
  | .lost => updateEnd r.seq (early .faultAddress 0 (lostCe r s))

/-- A request that was abandoned is answered: counted in LATE where R583 says so. -/
def droppedReply (late : Bool) (r : Req) (s : State) : State :=
  if late then modCtx r.ctx (fun x => { x with late := sat 16 (x.late + 1) }) s else s

/-- A piece of control data arrives: refused, delivered, or delivered poisoned when the request is lost (R344). -/
def ctlReply (r : Req) (o : Reply) (s : State) : State :=
  let put := fun (x : FetchRes) (s : State) =>
    { s with fab := { s.fab with fetches := s.fab.fetches.map (fun f => if f.tag = r.tag ∧ f.res = .waiting then { f with res := x } else f) } }
  match o with
  | .done mask _ data => put (.data (padTo data r.len) mask) s
  | .refused st => put (.refused st) s
  | .lost =>
    let (x, s) := fresh s
    put (.data (leBytes r.len x) 255) (lostCe r s)

/-- An outcome reaches the array it is for. -/
def onArray (l : Nat) (f : Nat → State → State) (s : State) : State :=
  match physOf s l with
  | some p => f p s
  | none => s

/-- The outcome of a request that is no longer outstanding (R344). -/
def settleReq (r : Req) (o : Reply) (s : State) : State :=
  let s := { s with fab := { s.fab with reqs := s.fab.reqs.erase r } }
  match r.use with
  | .load l dest => onArray l (fun p s => loadReply p dest r o s) s
  | .store l => onArray l (fun p s => ackReply p r o (fun _ s =>
      fenceCheck p (modArr p (fun x => { x with stores := x.stores - 1 }) s)) s) s
  | .atom l => onArray l (fun p s => ackReply p r o (fun old s => modArr p (atomReply r.opc old) s) s) s
  | .signal l => onArray l (fun p s => ackReply p r o (fun _ s => modArr p signalReply s) s) s
  | .eap e tag wr => eapReply e tag wr r o s
  | .sub _ _ => subOutcome r o s
  | .result seq => resultReply seq r o s
  | .kvData seq => kvReply seq r o s
  | .kvSignal seq => kvSignalReply seq r o s
  | .table g m k => tableReply g m k r o s
  | .tableSignal _ _ => match o with | .done _ _ _ => s | _ => lostCe r s
  | .mirror => match o with | .done _ _ _ => s | _ => lostCe r s
  | .update _ _ => updateReply r o s
  | .ctl => ctlReply r o s
  | .dropped late _ => match o with | .lost => s | _ => droppedReply late r s

/-- The outstanding request that a response answers: its tag is outstanding and its generation is the current one of the
port that the request left by (R371). -/
def answered (s : State) (k : Packet) : Option Req :=
  s.fab.reqs.find? (fun r => decide (r.tag = k.tag ∧ r.port < 8 ∧ r.gen = k.gen ∧ (portAt s r.port).gen = k.gen))

/-! ## A port whose requests are lost -/

/-- A packet sent or queued through a port whose state is lost: a forwarded request is answered with FAULT_ADDRESS and LOST, a
response is discarded, an own request is settled with the others (R370). -/
def failQueued (k : Packet) (s : State) : State :=
  if isRequest k && k.src != nodeId s then respond k (rspOpc k.opc) 0x10 true 0 0 [] s else s

/-- The requests of the frames of a peer that satisfy `f` have failed, each frame once. The frames stay with the connection, which
sends them again (R358). -/
def failFrames (k : Nat) (f : SentFrame → Bool) (s : State) : State :=
  let l := (peerAt s k).unacked.filter (fun x => f x && !x.lost)
  let s := modPeer k (fun x => { x with unacked := x.unacked.map (fun y => if f y then { y with lost := true } else y) }) s
  each (l.map (fun x => x.pkts)).flatten failQueued s

/-- Every request sent or queued through a port is lost (R370, R371). The packets that waited at the port leave the receive buffers
they occupied. -/
def failPort (p : Nat) (s : State) : State :=
  let q := (portAt s p).txq
  let s := modPort p (fun x => { x with txq := [] }) s
  let s := each q (fun w s => failQueued w.pkt (freeSource w s)) s
  let s := each (keysOf s.fab.peer (fun x => x.unacked.any (fun f => decide (f.port = p)))) (fun k s =>
    failFrames k (fun f => decide (f.port = p)) s) s
  each (s.fab.reqs.filter (fun r => decide (r.port = p))) (fun r s => if s.fab.reqs.contains r then settleReq r .lost s else s) s

/-- Requests of a flow that were held while its old port still had requests of it leave by the new port, once none is left
(R353). -/
def releaseFlow (dst ch : Nat) (s : State) : State :=
  let mine := fun (h : Nat × Packet) => decide (h.2.dst = dst ∧ h.2.ch = ch)
  let p := choosePort s dst ch
  let l := linkOf s p ch
  if s.fab.reqs.any (onOldPath s dst ch) then s
  else
    let held := s.fab.heldTx.filter mine
    let s := { s with fab := { s.fab with heldTx := s.fab.heldTx.filter (fun h => !mine h) } }
    each held (fun h s =>
      let g := (portAt s p).gen
      let reqs := s.fab.reqs.map (fun r => if r.tag = h.1 then { r with port := p, link := l, gen := g } else r)
      putOn p { pkt := { h.2 with gen := g }, own := true } { s with fab := { s.fab with reqs := reqs } }) s

end Sys2Proof.Machine
end

