-- ==== Sys2Proof/Machine/PacketOps.lean ====
section
/-!
DEFINITION. Taking a received packet from a port (R326, R346, R350, R373), and the windows that let a request in (R335,
R336, R375).
-/
namespace Sys2Proof.Machine
open Sys2Proof

/-- The first packet of its virtual channel that satisfies `ok`: packets of a channel are taken oldest first. -/
def rxHead (s : State) (p : Nat) (ok : Packet → Bool) : Option Packet :=
  let rx := (portAt s p).rx
  rx.find? (fun k => ok k && (rx.find? (fun j => vcOf j == vcOf k)) == some k)

/-- A packet leaves the receive buffer of a port, and its credits go back (R326). -/
def takeRx (p : Nat) (k : Packet) (s : State) : State :=
  giveBack p (vcOf k) (packetUnits k) (modPort p (fun x => { x with rx := x.rx.erase k }) s)

/-- Take the first packet of an operation addressed to this block. -/
def onPacket (p opc : Nat) (f : Packet → State → State) (s : State) : State :=
  match rxHead s p (fun k => decide (k.opc = opc ∧ k.dst = nodeId s)) with
  | some k => f k (takeRx p k s)
  | none => s

/-- Answer a request (R330, R332). -/
def answer (q : Packet) (status mask operand : Nat) (data : List Byte) (s : State) : State :=
  respond q (rspOpc q.opc) status false mask operand data s

/-- The copy of a KV_PASS goes on once its runs have issued: the WRITEs of a remote one leave in one flow; a local one signals its tally
word and ends (R295, R406). -/
def kvGo (seq : Nat) (st : Status) (s : State) : State :=
  match kvOf s seq with
  | none => s
  | some k =>
    let c := ((taskOf s seq).map (fun t => t.ctx)).getD 0
    let tw := fieldAt k.desc 20 2
    if k.node ≠ 0xFFF then
      each k.todo (fun q s => sendReq k.node (byteAt k.desc 28) 0x02 q.1 0 q.2.1 q.2.2.length q.2.2 (.kvData seq) seq c s)
        (modKv seq (fun k => { k with todo := [] }) s)
    else if twGranted s (ctxAt s c).vai tw then
      endKv seq st none (tallyAdd tw (w32 (fieldAt k.desc 24 4)) 0x3 k.mover s)
    else endKv seq .faultAddress (some (0x11, detailOf c 0)) s

/-- An answer goes out. -/
def release (a : Sys2Proof.Machine.Answer) (s : State) : State :=
  match a with
  | .eap e tag st data _ _ => emit (.eapRsp e tag st data) s
  | .icpl tag data ep => emit (.icpl tag data ep) s
  | .cmem tag data poison => emit (.cmemRsp tag data poison) s
  | .fab q status mask operand data => answer q status mask operand data s
  | .task seq st => taskEnd seq st 0 none s
  | .kv seq st => kvGo seq st s

/-- Answer number `i` goes out once the runs of its request have issued: at once where none is queued (R295). -/
def answerWhen (i : Nat) (a : Sys2Proof.Machine.Answer) (s : State) : State :=
  if idWaits s i then { s with rg := { s.rg with held := s.rg.held ++ [(i, a)], reqs := max s.rg.reqs (i + 1) } } else release a s

/-- Every answer whose runs have issued goes out. -/
def releaseReady (s : State) : State :=
  each (s.rg.held.filter (fun h => !idWaits s h.1)) (fun h s =>
    release h.2 { s with rg := { s.rg with held := s.rg.held.erase h } }) s

/-- What becomes of the answers that wait when a block reset begins (R37, R373): host reads return ones, fabric requests are
answered with BLOCK_RESET, those of lost tasks go. -/
def resetAnswers (s : State) : State :=
  each s.rg.held (fun h s => match h.2 with
    | .icpl tag data _ => emit (.icpl tag (List.replicate data.length 0xFF) false) s
    | .cmem tag data _ => emit (.cmemRsp tag (List.replicate data.length 0xFF) false) s
    | .fab q _ _ _ _ => answer q 0x20 0 0 [] s
    | .eap _ _ _ _ _ _ => s | .task _ _ => s | .kv _ _ => s) { s with rg := { s.rg with held := [] } }

/-- Serve a request: one past its deadline is discarded and counted (R346); during a block reset it is answered with
BLOCK_RESET, a lookup part dropped (R373). -/
def serve (p opc : Nat) (f : Packet → State → State) (s : State) : State :=
  onPacket p opc (fun k s =>
    if latePast s k.deadline then countDrop p s
    else if resetWindow s then (if opc = 0x08 then s else answer k 0x20 0 0 [] s)
    else f k s) s

/-! ## Windows -/

/-- Word i of window w. -/
def winWord (s : State) (w i : Nat) : Nat := regGet s (0xC20000 + 0x10 * w + 4 * i)

/-- A memory window lies in memory (R336). -/
def winInMemory (base size : Nat) : Bool :=
  let a := base * 65536
  let e := a + size * 65536
  decide (e ≤ farTop) || (decide (scratchBase ≤ a) && decide (e ≤ scratchBase + 2 ^ 32))

/-- Window w lets an operation of `kind` from node `src` reach [a, a + n); `perm` is its permission bit (R335, R391). -/
def winLets (s : State) (w kind perm src a n : Nat) : Bool :=
  let h := winWord s w 3
  let b := winWord s w 1
  let z := winWord s w 0
  let lo := if kind = 0 then b * 65536 else b
  let hi := lo + (if kind = 0 then z * 65536 else z)
  let part := field h 16 4
  bit h 31 && field h 29 2 == kind && bit h perm && decide (field h 4 12 ≤ src) &&
    decide (src ≤ 256 * field h 0 4 + field (winWord s w 2) 24 8) && decide (lo ≤ a) && decide (a + n ≤ hi) &&
    (kind != 0 || winInMemory b z) && !scrubbing s part && !touching s part

/-- Some window lets the operation in. -/
def winOpen (s : State) (kind perm src a n : Nat) : Bool := (List.range 256).any (fun w => winLets s w kind perm src a n)

/-- A packet's shape is right for READ and WRITE: 1 to 512 bytes within one 4 KiB granule (R331). -/
def shapeOk (a n : Nat) : Bool := decide (1 ≤ n) && decide (n ≤ 512) && decide (a % 4096 + n ≤ 4096)

/-- A piece of a packet's data that lies in one memory granule carries the mark of any data granule of PMASK it touches. -/
def pieceBad (mask a i : Nat) : Bool := bit mask i || (decide (a % 64 ≠ 0) && decide (i ≠ 0) && bit mask (i - 1))

/-- PMASK of bytes read from memory. -/
def readMask (s : State) (a n : Nat) : Nat :=
  ((List.range (ceilDiv n 64)).map (fun g => if poisonIn s (a + 64 * g) (min 64 (n - 64 * g)) then 2 ^ g else 0)).foldl
    (fun x y => x + y) 0

end Sys2Proof.Machine
end

