-- ==== Sys2Proof/Machine/FabLink.lean ====
section
/-!
DEFINITION. The link layer in fabric mode (R317-R328), lane failures, retraining and boundaries (R365-R372), the measured
link delay (R377), a flow that changes its port (R353) and errors of the fabric's tables (R374).
-/
namespace Sys2Proof.Machine
open Sys2Proof

/-! ## Ports -/

/-- A port is wired and firmware has begun to train ports (R84, R317, R319). -/
def portTrains (s : State) (p : Nat) : Bool :=
  bit (regGet s 0x8) (24 + p) && portMode s p != 0 &&
    (s.blk.bootState == 5 || s.blk.bootState == 6 || s.blk.bootState == 9)

/-- A CE about a port's lanes or its training (R774). -/
def laneCe (p : Nat) (s : State) : State := reportCe 6 p 0x06 0 s

/-- The half of the lanes is whole; `high`: lanes 4 to 7. -/
def halfWhole (lanes : Nat) (high : Bool) : Bool := field lanes (if high then 4 else 0) 4 == 15

/-- The receive-buffer split that FAB_PORT_CRD asks for: none when it is not allowed (R387). -/
def crdOf (s : State) (p : Nat) : Option (Nat × Nat) :=
  let r := regGet s (portReg p 8)
  let h0 := field r 16 16
  let hn := field r 0 16
  if 2 * h0 + 6 * hn ≤ 32768 ∧ 34 ≤ h0 ∧ 34 ≤ hn then some (h0, hn) else none

/-- The split takes effect at a TRAIN exchange; a split that is not allowed gives the reset values and a CE. -/
def takeSplit (p : Nat) (s : State) : State :=
  match crdOf s p with
  | some (a, b) => modPort p (fun x => { x with h0 := a, hn := b }) s
  | none => reportCe 6 p 0x07 0 (modPort p (fun x => { x with h0 := 10240, hn := 2048 }) s)

/-- The credits in force of a virtual channel (R326). -/
def vcCredits (x : Port) (v : Nat) : Nat := if v = 0 ∨ v = 4 then x.h0 else x.hn

/-- The units of packets. -/
def linkUnits (l : List Packet) : Nat := (l.map packetUnits).foldl (fun a b => a + b) 0

/-- The packets received on port p that still occupy its receive buffer: those not taken, and those that wait at another port to
leave (R326), with the virtual channel each came on. -/
def buffered (s : State) (p : Nat) : List (Nat × Packet) :=
  (portAt s p).rx.map (fun k => (vcOf k, k)) ++ ((List.range 8).map (fun q => (portAt s q).txq.filterMap (fun w =>
    match w.src with
    | some (i, v) => if i = p then some (v, w.pkt) else none
    | none => none))).flatten

/-- Units of virtual channel v that the receive buffer of a port holds, with those of a packet not yet whole. -/
def heldUnits (s : State) (p v : Nat) : Nat :=
  let part := (portAt s p).part
  linkUnits (((buffered s p).filter (fun e => decide (e.1 = v))).map (fun e => e.2)) +
    (if ¬ part.isEmpty ∧ vcOf (packetOf part) = v then ceilDiv part.length 16 else 0)

/-- Credits of a virtual channel that the receive buffer has free. -/
def freeUnits (s : State) (p v : Nat) : Nat := vcCredits (portAt s p) v - heldUnits s p v

/-- Send a TRAIN set (R324): the split written takes effect (R387), and the credits announced come back in no flit. -/
def sendTrain (p : Nat) (fresh : Bool) (s : State) : State :=
  let s := takeSplit p s
  let x := portAt s p
  let t : TrainSet := { node := nodeId s, mode := portMode s p, lanes := x.active,
                        credits := (List.range 8).map (freeUnits s p), expected := x.rxSeq, fresh := fresh }
  emit (.train p t) (modPort p (fun x => { x with give := List.replicate 8 0 }) s)

/-- The lanes a port runs on when the lanes `ok` are good at both ends: eight when LANES_REQ asks for them and all are good, else the
whole half, HALF first with LANES_REQ 0 and lanes 0 to 3 first otherwise; 0 when neither half is whole (R366, R385). -/
def chooseLanes (s : State) (p ok : Nat) : Nat :=
  let r := regGet s (portReg p 0)
  let first := !bit r 29 && bit r 28
  let mask := fun (high : Bool) => if high then 0xF0 else 0x0F
  if bit r 29 && ok % 256 == 255 then 255
  else if halfWhole ok first then mask first
  else if halfWhole ok (!first) then mask (!first)
  else 0

/-- Packets of the flits of a replay buffer, as far as they are whole: units from the START bits on. -/
def unitPackets (us : List (List Byte × Bool)) (part : List Byte) : List Packet × List Byte :=
  match us with
  | [] => ([], part)
  | (u, start) :: r =>
    let l := if start then u else if part.isEmpty then [] else part ++ u
    if 32 ≤ l.length ∧ wireLen l ≤ l.length then
      let q := unitPackets r []
      (packetOf l :: q.1, q.2)
    else unitPackets r l

/-- The units of a flit with their START bits. -/
def flitUnits (f : Flit) : List (List Byte × Bool) :=
  f.units.zip ((List.range 15).map (fun u => bit (field f.lhdr.toNat 6 15) u))

/-- Packets sent through a port whose acknowledgement is outstanding. -/
def replayPackets (x : Port) : List Packet := (unitPackets ((x.replay.map flitUnits).flatten) []).1

/-- The state of a port is lost: every request sent or queued through it fails, responses are discarded, buffers empty, GEN
rises (R369, R370). -/
def dropState (p : Nat) (s : State) : State :=
  let s := each (replayPackets (portAt s p)) failQueued s
  let s := failPort p s
  let away := fun (w : Waiting) => match w.src with
    | some (i, _) => if i = p then { w with src := none } else w
    | none => w
  let s := each (List.range 8) (fun q s => modPort q (fun x => { x with txq := x.txq.map away }) s) s
  modPort p (fun x => { x with gen := (x.gen + 1) % 256, txSeq := 0, acked := 0, rxSeq := 0, replay := [], nakSent := false,
                               nakFor := 0, nakCount := 0, kept := false, paused := false,
                               credits := List.replicate 8 0, owed := List.replicate 8 0, give := List.replicate 8 0,
                               conf := List.replicate 8 0, wait := List.replicate 8 0, part := [], rx := [], txq := [] }) s

/-- The port trains fresh, on the lanes its configuration asks for. -/
def trainFresh (p : Nat) (s : State) : State :=
  let n := chooseLanes s p 255
  let s := modPort p (fun x => { x with state := 1, kept := true, active := n }) s
  if portMode s p = 1 then sendTrain p true s else s

/-- A port that still keeps its state loses it and trains fresh; under TAG it was lost on entry (R371). -/
def loseState (p : Nat) (s : State) : State :=
  trainFresh p (if (portAt s p).kept then dropState p s else s)

/-- The port enters RETRAINING: under TAG its state is lost at once (R370, R371). -/
def enterRetraining (p : Nat) (s : State) : State :=
  let s := laneCe p (modPort p (fun x => { x with state := 4, retrain := x.retrain + 1, kept := true, paused := false }) s)
  let s := if portTag s p then dropState p s else s
  let n := chooseLanes s p (portAt s p).lanes
  let s := modPort p (fun x => { x with active := n }) s
  if portMode s p = 1 then sendTrain p (portTag s p) s else s

/-! ## Training (R318, R366-R372) -/

/-- One CREDIT_RETRAIN entry (R701). -/
def creditEntry (p v : Nat) (held owed : Nat) (x : Port) (s : State) : State :=
  ledEvent 0x10 p ([BitVec.ofNat 8 v, 0] ++ leBytes 2 held ++ leBytes 2 owed ++ leBytes 2 (x.credits.getD v 0) ++
    leBytes 2 (x.owed.getD v 0) ++ leBytes 2 (x.conf.getD v 0)) s

/-- The partner's configured credits of a virtual channel: a receiver that trains fresh has an empty buffer and announces them; one
that keeps its state announces no more than them (R326, R327, R372). -/
def confCredits (x : Port) (t : TrainSet) (v : Nat) : Nat :=
  if t.fresh then t.credits.getD v 0 else max (x.conf.getD v 0) (t.credits.getD v 0)

/-- The credits announced are the sender's count, and the ledger has an entry for each virtual channel (R372). What the sender does not
hold of the configured count is outstanding (R327). -/
def takeCredits (p : Nat) (t : TrainSet) (s : State) : State :=
  let old := portAt s p
  let conf := (List.range 8).map (confCredits old t)
  let new := { old with credits := t.credits, conf := conf,
                        owed := (List.range 8).map (fun v => conf.getD v 0 - t.credits.getD v 0) }
  each (List.range 8) (fun v s => creditEntry p v (old.credits.getD v 0) (old.owed.getD v 0) new s) (modPort p (fun _ => new) s)

/-- The state of a port that runs on a set of lanes. -/
def laneState (lanes : Nat) : Nat := if lanes % 256 = 255 then 2 else 3

/-- The link runs on its active lanes. A port that a write of R368 retrained logs a CE when a lane still fails. -/
def linkUp (p : Nat) (s : State) : State :=
  let x := portAt s p
  let short := decide (x.lanes ≠ 255) || (bit (regGet s (portReg p 0)) 29 && decide (x.active ≠ 255))
  let s := if x.asked && short then laneCe p s else s
  modPort p (fun x => { x with state := laneState x.active, high := !halfWhole x.active false, kept := true, paused := false,
                               logged := false, asked := false, reqAt := none }) s

/-- The lanes on which a link can run after a TRAIN set: good at this end and active at the other; while the port degrades in place,
of the half named. -/
def joinLanes (s : State) (p : Nat) (t : TrainSet) : Nat :=
  let x := portAt s p
  chooseLanes s p (x.lanes &&& t.lanes &&& (if x.paused then (if x.high then 0xF0 else 0x0F) else 255))

/-- The partner cannot be linked to (R318). -/
def partnerBad (s : State) (t : TrainSet) : Bool := t.mode != 1 || t.node == nodeId s || t.node == 0xFFF || nodeId s == 0xFFF

/-- A TRAIN set at a port that trains fresh: it refuses the partner, or comes up when the partner trains fresh too and the two ends
have eight lanes or a half in common. -/
def trainIn (p : Nat) (t : TrainSet) (s : State) : State :=
  let n := joinLanes s p t
  if partnerBad s t then
    reportCe 6 p 0x07 0 (modPort p (fun x => { x with state := 5, partner := t.node % 4096 }) s)
  else if t.fresh && n != 0 then
    let s := modPort p (fun x => { x with partner := t.node, active := n }) s
    pump p (linkUp p (takeCredits p t (sendTrain p true s)))
  else sendTrain p true s

/-- The flits of a replay buffer from a SEQ on: none when the SEQ is neither in it nor the next one to be sent. -/
def replayFrom (x : Port) (seq : Nat) : Option (List Flit) :=
  if seq = x.txSeq then some []
  else
    let rest := x.replay.dropWhile (fun f => decide (field f.lhdr.toNat 52 12 ≠ seq))
    if rest.isEmpty then none else some rest

/-- Send the flits of the replay buffer again (R328). -/
def replayAll (p : Nat) (s : State) : State :=
  let fs := (portAt s p).replay
  let s := modPort p (fun x => { x with tx := x.tx + fs.length, replayed := x.replayed + fs.length }) s
  each fs (fun f s => emit (.flit p f) s) s

/-- The link returns with its state kept: replay resumes from the SEQ that the partner expects. -/
def resumeLink (p : Nat) (t : TrainSet) (fs : List Flit) (s : State) : State :=
  let s := modPort p (fun x => { x with replay := fs, acked := t.expected, nakCount := 0, nakSent := false }) s
  pump p (replayAll p (linkUp p (takeCredits p t s)))

/-- A TRAIN set at a port that keeps its state: kept, or lost when the partner has none or expects what is gone (R369). A port that
was up and has no lanes in common with its partner any more enters RETRAINING. -/
def trainKept (p : Nat) (t : TrainSet) (answer : Bool) (s : State) : State :=
  let n := joinLanes s p t
  match replayFrom (portAt s p) t.expected, t.fresh || partnerBad s t with
  | some fs, false =>
    if n = 0 then (if portUp s p then enterRetraining p s else s)
    else
      let s := modPort p (fun x => { x with active := n }) s
      resumeLink p t fs (if answer then sendTrain p false s else s)
  | _, _ => trainIn p t (loseState p s)

/-- The end of link training on an Ethernet-mode port. -/
def ethUp (p : Nat) (t : TrainSet) (s : State) : State :=
  let n := joinLanes s p t
  if n = 0 then s else pump p (linkUp p (modPort p (fun x => { x with active := n }) s))

/-- An ordered set whose CRC is wrong is discarded and counted (R324, R388). -/
def setIn (p : Nat) (intact : Bool) (f : State → State) (s : State) : State :=
  if intact then f s else modPort p (fun x => { x with crcErr := x.crcErr + 1 }) s

/-- TRAIN_SET (R318, R366, R369, R372): in fabric mode by the port's state; in Ethernet mode the end of link training. `good`: the lanes
on which this end receives. -/
def execTrainSet (p : Nat) (t : TrainSet) (s : State) (good : Nat := 0xFF) (intact : Bool := true) :
    Host.Outcome State Fault Refusal :=
  run s (guarded (portTrains s p && decide (1 ≤ (portAt s p).state ∧ (portAt s p).state ≤ 4)) (setIn p intact (fun s =>
    let s := modPort p (fun x => if x.paused then x else { x with lanes := good % 256 }) s
    let x := portAt s p
    if portMode s p ≠ 1 then (if x.state = 1 ∨ x.state = 4 then ethUp p t s else s)
    else match x.state with
      | 1 => trainIn p t s
      | 2 => trainKept p t true s
      | 3 => trainKept p t (!x.paused) s
      | _ => if x.kept then trainKept p t true s else trainIn p t (trainFresh p s))))

/-- PORT_TRAINING_RETRY (R319): firmware starts the training of a port that is not up again. -/
def execPortTrainingRetry (p : Nat) (s : State) : Host.Outcome State Fault Refusal :=
  run s (guarded (portTrains s p && (portAt s p).state == 1 && (portAt s p).logged) (trainFresh p))

/-! ## Lanes -/

/-- A fabric-mode port degrades in place to a half (R366). -/
def degradeTo (p : Nat) (high : Bool) (s : State) : State :=
  let s := modPort p (fun x => { x with state := 3, high := high, paused := true, active := if high then 0xF0 else 0x0F }) s
  sendTrain p false (emit (.degrade p high) s)

/-- A lane that the port does not use. -/
def laneIdle (x : Port) (lane : Nat) : Bool := x.state == 3 && (decide (4 ≤ lane) != x.high)

/-- What the failure of a lane does, by the mode of the port (R366, R367). Whether the partner of a 1.6TBASE link accepts
the half is not stated: a free value. -/
def laneFailed (p lane : Nat) (s : State) : State :=
  let x := portAt s p
  match portMode s p with
  | 1 =>
    if laneIdle x lane then s
    else if halfWhole x.lanes false then degradeTo p false s
    else if halfWhole x.lanes true then degradeTo p true s
    else enterRetraining p s
  | 2 =>
    let (k, s) := fresh s
    if laneIdle x lane then s
    else if halfWhole x.lanes false ∧ k % 2 = 1 then modPort p (fun x => { x with state := 3, high := false, active := 0x0F }) s
    else if halfWhole x.lanes true ∧ k % 2 = 1 then modPort p (fun x => { x with state := 3, high := true, active := 0xF0 }) s
    else enterRetraining p s
  | _ => if halfWhole x.lanes false || halfWhole x.lanes true then modPort p (fun x => { x with state := 3, active := x.lanes }) s
    else enterRetraining p s

/-- LANE_FAILURE (R365-R367): a lane fails; the port degrades, moves its flows to the other link, or retrains. -/
def execLaneFailure (p lane : Nat) (s : State) : Host.Outcome State Fault Refusal :=
  run s (guarded (portUp s p && bit (portAt s p).lanes lane) (fun s =>
    laneFailed p lane (laneCe p (modPort p (fun x => { x with lanes := x.lanes - 2 ^ lane }) s))))

/-- DEGRADE_SET (R366): the partner names a half that is whole at its end. Where it is not whole here, this end names the other half
if that one is; the port retrains when no half is whole at both ends. -/
def execDegradeSet (p : Nat) (high : Bool) (s : State) (intact : Bool := true) : Host.Outcome State Fault Refusal :=
  run s (guarded (portUp s p && portMode s p == 1) (setIn p intact (fun s =>
    let x := portAt s p
    if halfWhole x.lanes high then
      (if x.paused then modPort p (fun x => { x with high := high, active := if high then 0xF0 else 0x0F }) s else degradeTo p high s)
    else if halfWhole x.lanes (!high) && !x.paused then degradeTo p (!high) s
    else enterRetraining p s)))

/-- HOLD_TIMEOUT (R369): a port in RETRAINING past HOLD_MS loses its state and trains fresh. -/
def execHoldTimeout (p : Nat) (s : State) : Host.Outcome State Fault Refusal :=
  run s (guarded ((portAt s p).state == 4) (loseState p))

/-- ACK_TIMEOUT (R328): ACK has not advanced for 20 µs with flits outstanding; not while the port is paused. -/
def execAckTimeout (p : Nat) (s : State) : Host.Outcome State Fault Refusal :=
  run s (guarded (portUp s p && portMode s p == 1 && !(portAt s p).paused && !(portAt s p).replay.isEmpty) (enterRetraining p))

/-! ## Writes of FAB_PORT_CFG (R368, R385) -/

/-- PORT_MODE_WRITE (R318, R385): the port goes down with its state lost, and trains fresh in its new mode. -/
def execPortModeWrite (p : Nat) (val : W32) (s : State) : Host.Outcome State Fault Refusal :=
  run s (guarded (s.blk.bootState == 6 || s.blk.bootState == 9) (fun s =>
    let s := if (portAt s p).kept then dropState p s else s
    let s := regSet (portReg p 0) (field val.toNat 27 5 * 2 ^ 27) s
    let s := modPort p (fun x => { x with state := 0, lanes := 0, active := 0, partner := 0xFFF, high := false, asked := false, kept := true, logged := false,
                                          distance := 0xFF, master := 0xFFF }) s
    if portTrains s p then trainFresh p s else s))

/-- PORT_RETRAIN (R368): a write with RETRAIN or LANES_REQ 1 and the MODE in force retrains the port with its state kept. -/
def execPortRetrain (p : Nat) (val : W32) (s : State) : Host.Outcome State Fault Refusal :=
  run s (guarded ((s.blk.bootState == 6 || s.blk.bootState == 9) && field val.toNat 30 2 == portMode s p &&
      (bit val.toNat 26 || bit val.toNat 29)) (fun s =>
    let s := regSet (portReg p 0) (field val.toNat 27 5 * 2 ^ 27) s
    if portUp s p then
      let n := chooseLanes s p 255
      let s := modPort p (fun x => { x with state := 4, retrain := x.retrain + 1, kept := true, paused := false, active := n,
                                            asked := true }) s
      if portMode s p = 1 then sendTrain p false s else s
    else s))

/-! ## Flits (R323, R326-R328) -/

/-- Acknowledged flits leave the replay buffer. -/
def takeAck (ack : Nat) (x : Port) : Port :=
  match x.replay.findIdx? (fun f => decide (field f.lhdr.toNat 52 12 = ack)) with
  | some i => { x with replay := x.replay.drop (i + 1), acked := (ack + 1) % 4096, nakCount := 0 }
  | none => x

/-- Credits that a flit returns. -/
def takeCredit (v n : Nat) (x : Port) : Port :=
  { x with credits := lset x.credits v (x.credits.getD v 0 + min n (x.owed.getD v 0)),
           owed := lset x.owed v (x.owed.getD v 0 - n) }

/-- A NAK: replay from ACK + 1; the sixteenth that names one SEQ retrains the port. -/
def takeNak (p ack : Nat) (s : State) : State :=
  let x := portAt s p
  let n := if x.nakFor = ack then x.nakCount + 1 else 1
  let s := modPort p (fun x => { x with nakFor := ack, nakCount := n }) s
  if 16 ≤ n then enterRetraining p s else replayAll p s

/-- What the header of an accepted flit says to the sender of this end. -/
def takeHeader (p : Nat) (f : Flit) (s : State) : State :=
  let h := f.lhdr.toNat
  let s := modPort p (fun x => takeCredit (field h 34 3) (field h 21 13) (takeAck (field h 40 12) x)) s
  if bit h 39 then takeNak p (field h 40 12) s else s

/-- A flit is discarded: NAK once (R328). -/
def discardFlit (p : Nat) (s : State) : State :=
  if (portAt s p).nakSent then s
  else sendFlit p false true [] 0 (modPort p (fun x => { x with nakSent := true }) s)

/-- A data flit with the next expected SEQ: its units join the packets of the receive buffer. -/
def acceptFlit (p : Nat) (f : Flit) (s : State) : State :=
  let x := portAt s p
  let q := unitPackets (flitUnits f) x.part
  let s := modPort p (fun x => { x with rxSeq := (x.rxSeq + 1) % 4096, nakSent := false, part := q.2, rx := x.rx ++ q.1 }) s
  let s := takeHeader p f s
  if portUp s p then sendFlit p false false [] 0 s else s

/-- A flit or frame arrives, with the codewords that the FEC corrected and those it could not correct (R388). -/
def countRx (p cor unc : Nat) (s : State) : State :=
  modPort p (fun x => { x with rxCnt := x.rxCnt + 1, fecCor := x.fecCor + cor, fecUnc := x.fecUnc + unc }) s

/-- FLIT_RECEIVE (R323, R326, R328): a flit is accepted, or discarded with one NAK; an idle flit carries its header only. `cor`, `unc`:
codewords corrected, and left uncorrectable, since the last flit. -/
def execFlitReceive (p : Nat) (f : Flit) (s : State) (cor : Nat := 0) (unc : Nat := 0) : Host.Outcome State Fault Refusal :=
  run s (guarded (portUp s p && portMode s p == 1 && !(portAt s p).paused) (fun s =>
    let s := countRx p cor unc s
    let s := if flitIntact f then s else modPort p (fun x => { x with crcErr := x.crcErr + 1 }) s
    let kind := field f.lhdr.toNat 37 2
    if unc ≠ 0 ∨ ¬ flitIntact f then discardFlit p s
    else if kind = 1 then pump p (takeHeader p f s)
    else if kind = 0 ∧ field f.lhdr.toNat 52 12 = (portAt s p).rxSeq then pump p (acceptFlit p f s)
    else discardFlit p s))

/-! ## Delay (R324, R377) -/

/-- A DELAY_REQ is due: none has been sent since the port trained, or the last left 1,024 beats ago (R324). -/
def delayDue (s : State) (p : Nat) : Bool :=
  match (portAt s p).reqAt with
  | none => true
  | some b => decide (1024 ≤ (beat s + 2 ^ 64 - b) % 2 ^ 64)

/-- DELAY_REQ_SEND (R324): the port sends a DELAY_REQ with its timestamp. -/
def execDelayReqSend (p t1 : Nat) (s : State) : Host.Outcome State Fault Refusal :=
  run s (guarded (portUp s p && portMode s p == 1 && delayDue s p) (fun s =>
    emit (.delayReq p (t1 + (portAt s p).txLat)) (modPort p (fun x => { x with reqAt := some (beat s) }) s)))

/-- DELAY_REQ (R377): answered with the timestamps of its arrival and of the answer, corrected by the SerDes latencies (R46). -/
def execDelayReq (p t1 t2 t3 : Nat) (s : State) (intact : Bool := true) : Host.Outcome State Fault Refusal :=
  run s (guarded (portUp s p && portMode s p == 1) (setIn p intact (fun s =>
    let x := portAt s p
    emit (.delayRsp p t1 (t2 - x.rxLat) (t3 + x.txLat)) s)))

/-- DELAY_RSP (R377): the link delay is ((t4 − t1) − (t3 − t2)) / 2. -/
def execDelayRsp (p t1 t2 t3 t4 : Nat) (s : State) (intact : Bool := true) : Host.Outcome State Fault Refusal :=
  run s (guarded (portUp s p && portMode s p == 1) (setIn p intact (fun s =>
    modPort p (fun x => { x with delay := ((t4 - x.rxLat - t1) - (t3 - t2)) / 2 }) s)))

/-! ## Flows and tables -/

/-- FLOW_PORT_CHANGE (R353): once none of a flow's requests is outstanding on its old port, its held requests leave. -/
def execFlowPortChange (dst ch : Nat) (s : State) : Host.Outcome State Fault Refusal := run s (releaseFlow dst ch)

/-- FABRIC_TABLE_ERROR (R374): an uncorrectable error in the fabric's buffers, counters or tables is B-class. One in the data of a
packet, given by its place in the receive buffer and the granules it touches, marks these, and the packet goes on. -/
def execFabricTableError (p : Nat) (s : State) (data : Option (Nat × Nat) := none) : Host.Outcome State Fault Refusal :=
  run s (match data with
    | none => bEvent 6 p 0x20 0
    | some (i, mask) => modPort p (fun x => { x with rx := (x.rx.zip (List.range x.rx.length)).map (fun e =>
        if e.2 = i then { e.1 with pmask := e.1.pmask ||| (mask % 2 ^ ceilDiv e.1.data.length 64) } else e.1) }))

end Sys2Proof.Machine
end

