-- ==== Sys2Proof/Machine/Boundary.lean ====
section
/-!
DEFINITION. The block boundary: host accesses to BAR4 and CMEM, malformed accesses, the host link, clocks, the PHYs, the
engine attach ports, locks and telemetry (R12, R17, R33-R38, R41, R51-R60, R70, R80-R85).
-/
namespace Sys2Proof.Machine
open Sys2Proof

/-! ## BAR4 and CMEM -/

/-- A far-tier access of the host finds nothing: a block reset is under way (R37), or the scrub of its chunk (R758). -/
def hostShut (s : State) (a : Nat) : Bool :=
  resetWindow s || (match tget .free s.fe.ftOwn (a / chunkSize) with | .scrub _ => true | _ => false)

/-- All ones. -/
def ones (n : Nat) : List Byte := List.replicate n 0xFF

/-- A resting block wakes for a request from the host (R685). -/
def wakeBlock (s : State) : State :=
  { s with pm := { s.pm with block := 0 } }

/-- What a host read of [a, a + n) of the far tier returns, and its poison mark (R12, R37, R268, R272, R276, R279). -/
def hostReadFar (a n : Nat) (s : State) : List Byte × Bool × State :=
  if !inService s ∨ hostShut s a then (ones n, false, s)
  else if farTop < a + n then (ones n, false, hostCe s)
  else if stackGone s (stackOf a) ∨ stackGone s (stackOf (a + n - 1)) then (ones n, true, hostCe s)
  else
    let s := access (.host s.rg.reqs) 12 none false a n (wakeBlock s)
    (readMem s a n, poisonIn s a n, s)

/-- A host write to the far tier: performed, or discarded with a CE (R12, R34, R37, R279, R758). -/
def hostWriteFar (a : Nat) (data : List Byte) (bad : Bool) (s : State) : State :=
  let n := data.length
  if !inService s ∧ s.blk.bootState ≠ 9 then s
  else if hostShut s a ∨ farTop < a + n ∨ stackGone s (stackOf a) ∨ stackGone s (stackOf (a + n - 1)) then hostCe s
  else writeMem a data (fun _ => bad) (access (.host s.rg.reqs) 12 none true a n (wakeBlock s))

/-- A host read finds the far tier. -/
def hostLive (s : State) (a n : Nat) : Bool :=
  inService s && !hostShut s a && decide (a + n ≤ farTop) && !stackGone s (stackOf a)

/-- BAR4_READ (R12, R31, R37, R268, R273, R295): the data, with EP set when a granule read carries the mark, once its runs have
issued. `ecc` is what the code found in the codewords read. -/
def execBar4Read (off len tag : Nat) (ecc : List MemError) (s : State) : Host.Outcome State Fault Refusal :=
  run s (guarded s.blk.ireqReady (fun s =>
    let i := s.rg.reqs
    let s := if hostLive s off len then memErrors off len ecc s else s
    let r := hostReadFar off len s
    answerWhen i (.icpl tag r.1 r.2.1) r.2.2))

/-- BAR4_WRITE (R12, R34, R37): the data is stored, poison-marked when EP is set, or discarded. -/
def execBar4Write (off : Nat) (data : List Byte) (ep : Bool) (s : State) : Host.Outcome State Fault Refusal :=
  run s (guarded s.blk.ireqReady (hostWriteFar off data ep))

/-- CMEM_REQUEST (R38, R295): 64 bytes under the map of BAR4, when CXL is wired. -/
def execCmemRequest (write : Bool) (addr tag : Nat) (data : List Byte) (poison : Bool) (s : State) (ecc : List MemError := []) :
    Host.Outcome State Fault Refusal :=
  run s (guarded (bit (regGet s 0x8) 19 && s.blk.ireqReady && decide (addr % 64 = 0)) (fun s =>
    let i := s.rg.reqs
    if write then answerWhen i (.cmem tag [] false) (hostWriteFar addr (padTo data 64) poison s)
    else
      let s := if hostLive s addr 64 then memErrors addr 64 ecc s else s
      let r := hostReadFar addr 64 s
      answerWhen i (.cmem tag r.1 r.2.1) r.2.2))

/-- BAR_ACCESS_MALFORMED (R17, R427): an access to BAR0 or BAR2 that is not an aligned 32-bit or 64-bit one returns all ones
or is discarded, with a CE. Before READY nothing is logged (R35). -/
def execBarAccessMalformed (bar : Sys2Proof.Bar) (write : Bool) (off size tag : Nat) (ep : Bool) (s : State) :
    Host.Outcome State Fault Refusal :=
  run s (guarded (s.blk.ireqReady && !((size == 4 && off % 4 == 0) || (size == 8 && off % 8 == 0))) (fun s =>
    let s := if inService s ∨ (s.blk.bootState = 9 ∧ bar = Sys2Proof.Bar.bar0) then reportCe (if ep && write then 8 else 0) 0 0x05 0 s else s
    if write then s else emit (.icpl tag (ones size) false) s))

/-! ## The host link and the clocks -/

/-- The sideband inputs of the host attach port (R28). -/
def setHapPins (pins : Sys2Proof.HapPins) (s : State) : State :=
  { s with blk := { s.blk with linkUp := pins.up, mps := pins.mps.toNat, mrrs := pins.mrrs.toNat, doeAbort := pins.abort } }

/-- HAP_LINK_DOWN (R28, R36): the pins take their new levels; HAP_LINK_UP falling after READY is a B-class fault. -/
def execHapLinkDown (s : State) (pins : Sys2Proof.HapPins := {}) : Host.Outcome State Fault Refusal :=
  run s (fun s =>
    let t := setHapPins pins s
    if regsOn s && s.blk.linkUp && !pins.up then bEvent 8 0 0x25 0 t else t)

/-- HAP_FLR (R36): after READY a B-class fault. -/
def execHapFlr (s : State) : Host.Outcome State Fault Refusal :=
  run s (fun s => if regsOn s then bEvent 8 0 0x25 0 s else s)

/-- Every port whose MODE is not off enters RETRAINING (R70). One that is there already stays, with no second CE, and so does one in
REFUSED, which only a MODE write ends (R318). DESIGN CHOICE (log entry 138): R70 and R318 both say "every" and "only". -/
def portClockLost (s : State) : State :=
  each (List.range 8) (fun p s =>
    if portTrains s p ∧ (portAt s p).state ≠ 4 ∧ (portAt s p).state ≠ 5 then enterRetraining p s else s) s

/-- CLOCK_LOSS (R36, R70, R774): by the clock lost; before READY a loss only shows in BLK_CLK_STATUS. -/
def execClockLoss (clk : Clock) (s : State) : Host.Outcome State Fault Refusal :=
  run s (fun s =>
    let fault := fun (code : Nat) (s : State) => if regsOn s then bEvent 0 code 0x24 0 s else s
    match clk with
    | .mc n => fault (0x010 + n) { s with blk := { s.blk with mcOk := sremove n s.blk.mcOk } }
    | .array => fault 0x001 { s with blk := { s.blk with arrayLock := false } }
    | .mesh => fault 0x002 { s with blk := { s.blk with meshLock := false } }
    | .ctrl => fault 0x003 { s with blk := { s.blk with ctrlLock := false } }
    | .host =>
      let s := { s with blk := { s.blk with hostOk := false } }
      if s.blk.linkUp then fault 0x020 s else s
    | .port =>
      let s := { s with blk := { s.blk with portOk := false } }
      if regsOn s then portClockLost s else s
    | .refclk => { s with blk := { s.blk with stopped := true } })

/-- A stack has no storage: its state, and its pseudo-channels absent (R70, R286). -/
def stackOut (n state : Nat) (s : State) : State :=
  each (List.range 64) (fun i s => modChan (64 * n + i) (fun x => { x with state := 3 }) s)
    (modStack n (fun x => { x with state := state }) s)

/-- MC_CLOCK_WAIT_EXPIRY (R70): stacks whose MC clock is still missing are marked absent. -/
def execMcClockWaitExpiry (s : State) : Host.Outcome State Fault Refusal :=
  run s (guarded (s.blk.bootState == 1 || s.blk.bootState == 2 || s.blk.bootState == 3) (fun s =>
    each (sdiff (List.range 12) s.blk.mcOk) (fun n s => stackOut n 4 s) s))

/-- PHY_UPDATE_REQUEST (R41): the controller grants it; the PHY holds the port until the next beat at the latest. -/
def execPhyUpdateRequest (n : Nat) (_master : Bool) (s : State) : Host.Outcome State Fault Refusal :=
  run s (guarded (!stackGone s n) (fun s =>
    emit (.phyGrant n) { s with blk := { s.blk with phyHold := sinsert n s.blk.phyHold } }))

/-! ## Engine attach ports -/

/-- The tag with which an engine answers. -/
def eapTagOf (s : State) (e : Nat) (tag : W64) : Option EapTag :=
  s.blk.eapTags.find? (fun t => decide (t.eap = e ∧ issueTag t.queue t.ctx t.gen t.seq = tag.toNat))

/-- A tag is freed, and tasks that wait for its EAP are issued (R60). -/
def freeEapTag (t : EapTag) (s : State) : State :=
  issueWaiting 64 t.eap { s with blk := { s.blk with eapTags := s.blk.eapTags.erase t } }

/-- The status an engine may report (R54). -/
def engineStatus (c : Nat) : Status :=
  match c with
  | 0x00 => .done | 0x01 => .donePoisoned | 0x10 => .faultAddress | _ => .faultFormat

/-- Writes of an engine's task to other nodes that are outstanding when it ends are waited for by GLOBAL completion; reads
are abandoned (R476). -/
def outliveEap (e tag : Nat) (t : Task) (s : State) : State :=
  let reqs := s.fab.reqs.map (fun r => match r.use with
    | .eap e2 tag2 wr =>
      if e2 = e ∧ tag2 = tag then { r with use := if wr then .update t.queue t.cmd else .dropped false 0x3FF } else r
    | _ => r)
  let held := s.rg.held.map (fun h => match h.2 with
    | .eap e2 tag2 st data true none => if e2 = e ∧ tag2 = tag then (h.1, .eap e tag st data true (some (t.queue, t.cmd))) else h
    | _ => h)
  { s with fab := { s.fab with reqs := reqs }, rg := { s.rg with held := held } }

/-- The task of an engine's DONE ends: with the status reported, or the one that a fault of its own requests fixed (R53). -/
def endEngine (e tag : Nat) (t : Task) (code cycles : Nat) (s : State) : State :=
  let s := outliveEap e tag t s
  match t.early with
  | some (st, type) => taskEnd t.seq st cycles (if type = 0 then none else some (type, detailOf t.ctx 0)) s
  | none =>
    let st := engineStatus code
    taskEnd t.seq st cycles (if st.good then none else some (qType st, detailOf t.ctx 0)) s

/-- EAP_DONE (R53-R55): frees its tag and completes the task; a stale one only frees its tag; one whose tag is not
outstanding is discarded with a CE, without one after a block reset forgot the tag. -/
def execEapDone (e : Nat) (tag : W64) (status : Byte) (cycles : W32) (s : State) : Host.Outcome State Fault Refusal :=
  run s (fun s => match eapTagOf s e tag with
    | none => reportCe 9 e 0x07 0 s
    | some t =>
      let s := freeEapTag t s
      if t.reset = 2 ∨ t.gen ≠ (queueAt s t.queue).gen then s
      else match taskOf s t.seq with
        | some k => endEngine e tag.toNat k status.toNat cycles.toNat s
        | none => s)

/-- An engine's request fails: an error on MRSP, and the status its task will complete with. -/
def mreqFail (e : Nat) (tag : W64) (seq : Nat) (st : Status) (type : Nat) (s : State) : State :=
  emit (.eapRsp e tag.toNat st []) (endEarly seq st type s)

/-- A read of an engine's task.
One response answers each 4 KiB page, or 512-byte piece at another node, that the request reaches: DESIGN CHOICE (log entry
137). -/
def mreqRead (e : Nat) (tag : W64) (t : Task) (va len : Nat) (host : HostData) (mem : List MemError) (s : State) : State :=
  let c := t.ctx
  let i := s.rg.reqs
  each (spansOf 4096 va len) (fun p s => match xl s (.eap e 0) c p.1 p.2 .read with
    | .ok 0 a =>
      let s := accessC (.eap e i) c (some (partOfCtx s c)) false a p.2 (xlFill (.eap e i) c p.1 (memErrors a p.2 mem s))
      answerWhen i (.eap e tag.toNat (if poisonIn s a p.2 then .donePoisoned else .done) (readMem s a p.2) false none) s
    | .ok 1 _ =>
      let s := xlFill (.eap e i) c p.1 s
      let h := hostBytes s c p.1 p.2 (hostRest host (if p.1 = va then 0 else hostUsed s (.eap e 0) c va (p.1 - va)))
      let s := if h.2 then hostPoisonCe c s else s
      emit (.eapRsp e tag.toNat (if h.2 then .donePoisoned else .done) h.1) s
    | .ok _ a =>
      each (spansOf 512 (a % 2 ^ 48) p.2) (fun k s =>
        sendReq (field a 52 12) (e % 4) 0x01 k.1 0 0 k.2 [] (.eap e tag.toNat false) t.seq c s) (xlFill (.eap e i) c p.1 s)
    | .fault _ => s) s

/-- A write of an engine's task.
One response for each page or piece, as in mreqRead: DESIGN CHOICE (log entry 137). -/
def mreqWrite (e : Nat) (tag : W64) (t : Task) (va : Nat) (data : List Byte) (s : State) : State :=
  let c := t.ctx
  let i := s.rg.reqs
  each (cutAt 4096 data.length va data) (fun p s => match xl s (.eap e 0) c p.1 p.2.length .write with
    | .ok 0 a =>
      let s := accessC (.eap e i) c (some (partOfCtx s c)) true a p.2.length (xlFill (.eap e i) c p.1 s)
      answerWhen i (.eap e tag.toNat .done [] true none) (writeMem a p.2 (fun _ => t.taint) s)
    | .ok 1 a => emit (.eapRsp e tag.toNat .done []) (hostWriteC c p.1 a p.2 true t.taint (xlFill (.eap e i) c p.1 s))
    | .ok _ a =>
      each (cutAt 512 p.2.length (a % 2 ^ 48) p.2) (fun k s =>
        sendReq (field a 52 12) (e % 4) 0x02 k.1 0 (if t.taint then 255 else 0) k.2.length k.2 (.eap e tag.toNat true) t.seq c s) (xlFill (.eap e i) c p.1 s)
    | .fault _ => s) (taskPoisons t.seq t.taint s)

/-- An atomic of an engine's task: `kind` 0 add, 1 fetch-add, 2 compare-and-swap. -/
def mreqAtomic (e : Nat) (tag : W64) (t : Task) (kind va : Nat) (data : List Byte) (mem : List MemError) (s : State) : State :=
  let c := t.ctx
  let i := s.rg.reqs
  let arg := fieldAt data 0 8
  let cmp := fieldAt data 8 8
  match xl s (.eap e 0) c va 8 .atomic with
  | .fault k => mreqFail e tag t.seq .faultAddress 0x11 (recordFault c k 3 va s)
  | .ok 2 a =>
    let d := if kind = 2 then leBytes 8 arg else []
    sendReq (field a 52 12) (e % 4) (4 + kind) (a % 2 ^ 48) (if kind = 2 then cmp else arg) 0 d.length d
      (.eap e tag.toNat true) t.seq c (xlFill (.eap e i) c va s)
  | .ok _ a =>
    let s := accessC (.eap e i) c (some (partOfCtx s c)) true a 8 (xlFill (.eap e i) c va (memErrors a 8 mem s))
    let bad := t.taint || poisonIn s a 8
    let r := atomicAt kind a arg cmp t.taint (taskPoisons t.seq bad s)
    answerWhen i (.eap e tag.toNat (if bad then .donePoisoned else .done) (if kind = 0 then [] else leBytes 8 r.1) true none) r.2

/-- A tally signal of an engine: the index is in the address field, the amount in the first 4 bytes of data (R534). -/
def mreqTally (e : Nat) (tag : W64) (t : Task) (i : Nat) (data : List Byte) (s : State) : State :=
  if twGranted s (ctxAt s t.ctx).vai i then
    emit (.eapRsp e tag.toNat .done []) (tallyAdd i (w32 (fieldAt data 0 4)) 0x5 e s)
  else emit (.eapRsp e tag.toNat .faultAddress []) s

/-- A request of an engine's task, by its operation. -/
def mreqDo (e : Nat) (tag : W64) (t : Task) (op : MreqOp) (va len : Nat) (data : List Byte) (host : HostData)
    (mem : List MemError) (s : State) : State :=
  let n := match op with | .read => len | .write => data.length | _ => 8
  let fault := match op with
    | .read => xlRange s (.eap e 0) t.ctx va n .read
    | .write => xlRange s (.eap e 0) t.ctx va n .write
    | _ => none
  match fault with
  | some k => mreqFail e tag t.seq .faultAddress 0x11 (recordFault t.ctx k.1 3 k.2 s)
  | none =>
    match op with
    | .read => mreqRead e tag t va n host mem s
    | .write => mreqWrite e tag t va data s
    | .add => mreqAtomic e tag t 0 va data mem s
    | .fadd => mreqAtomic e tag t 1 va data mem s
    | .cas => mreqAtomic e tag t 2 va data mem s
    | .tsig => mreqTally e tag t va data s

/-- EAP_MREQ (R53, R266): translated in the context of its task and performed. A shape that R53 and R266 do not allow is
answered with FAULT_FORMAT; a request of a tag that has no task any more with FAULT_ADDRESS. -/
def execEapMreq (e : Nat) (tag : W64) (op : MreqOp) (va : W64) (len : Nat) (data : List Byte) (host : HostData) (s : State)
    (mem : List MemError := []) : Host.Outcome State Fault Refusal :=
  run s (guarded (computeOn s) (fun s =>
    let n := match op with | .read => len | _ => data.length
    let atomic := op == .add || op == .fadd || op == .cas
    match (eapTagOf s e tag).bind (fun t => if t.cancelled then none else taskOf s t.seq) with
    | none => emit (.eapRsp e tag.toNat .faultAddress []) s
    | some t =>
      if n = 0 ∨ 256 < n ∨ (atomic ∧ va.toNat % 8 ≠ 0) then mreqFail e tag t.seq .faultFormat 0x10 s
      else mreqDo e tag t op va.toNat len data host mem s))

/-- CANCEL_ACK (R55): after a block reset the acknowledgement ends the outstanding state of the tag. -/
def execCancelAck (e : Nat) (tag : W64) (s : State) : Host.Outcome State Fault Refusal :=
  run s (fun s => match eapTagOf s e tag with
    | none => s
    | some t =>
      if t.reset = 1 then
        issueWaiting 64 e { s with blk := { s.blk with eapTags := s.blk.eapTags.map (fun x => if x = t then { x with reset := 2 } else x) } }
      else s)

/-- CANCEL_TIMEOUT (R55): outside a block reset a CANCEL left unanswered for 1 ms is B-class. -/
def execCancelTimeout (e : Nat) (tag : W64) (s : State) : Host.Outcome State Fault Refusal :=
  run s (fun s => match eapTagOf s e tag with
    | none => s
    | some t => if t.cancelled ∧ t.reset = 0 then bEvent 9 e 0x23 0 s else s)

/-- EAP_FATAL (R57): B-class. -/
def execEapFatal (e : Nat) (s : State) : Host.Outcome State Fault Refusal := run s (bEvent 9 e 0x23 0)

/-! ## Locks -/

/-- BLK_LOCK (R21, R85): writing 1 locks the RWL fields of BLK until cold reset. -/
def execBlkLock (val : W32) (s : State) : Host.Outcome State Fault Refusal :=
  run s (guarded (s.blk.bootState == 6 || s.blk.bootState == 9) (fun s => if bit val.toNat 0 then regSet 0x10 1 s else s))

/-- FAB_LOCK (R21, R382): writing 1 locks the RWL fields of FAB until cold reset. -/
def execFabLock (val : W32) (s : State) : Host.Outcome State Fault Refusal :=
  run s (guarded (s.blk.bootState == 6 || s.blk.bootState == 9) (fun s => if bit val.toNat 0 then regSet 0xC00004 1 s else s))

/-! ## Telemetry -/

/-- Telemetry channel n. -/
def telAt (s : State) (n : Nat) : TelChannel := tget {} s.blk.tel n

/-- The channels that give the readings of a rail (R81): those in use that carry it; while one of them is lost the lost ones alone,
which then hold what the internal power model says of the rail. -/
def railChannels (s : State) (rail : Nat) : List TelChannel :=
  let l := (s.blk.tel.map (fun t => t.2)).filter (fun t => bit t.map 7 && t.rail == rail)
  if l.any (fun t => t.lost) then (l.filter (fun t => t.lost)).take 1 else l

/-- The current of a rail in 0.01 A: the sum over its channels (R81). -/
def railAmps (s : State) (rail : Nat) : Nat := ((railChannels s rail).map (fun t => t.amps)).foldl (fun a b => a + b) 0

/-- The power of a rail in 10 uW. -/
def railPower (s : State) (rail : Nat) : Nat :=
  ((railChannels s rail).map (fun t => t.volts * t.amps)).foldl (fun a b => a + b) 0

/-- Block power in W: the sum over the rails (R81). -/
def telPower (s : State) : Nat :=
  ((List.range 16).map (railPower s)).foldl (fun a b => a + b) 0 / 100000

/-- The internal power model gives new values for each rail with a lost channel (R81): free values (log entry 139). -/
def remodel (s : State) : State :=
  each (List.range 8) (fun n s =>
    if !(telAt s n).lost then s
    else
      let (v, s) := fresh s
      let (a, s) := fresh s
      { s with blk := { s.blk with tel := tmod {} s.blk.tel n (fun t => { t with volts := v, amps := a }) } }) s

/-- The block power after a change of the telemetry. -/
def setPower (s : State) : State :=
  let s := remodel s
  { s with pm := { s.pm with power := min 65535 (telPower s) } }

/-- TELEMETRY_FRAME (R80, R81, R664): a frame whose RAIL is not that of TEL_MAP is discarded with a CE. So is a frame of a wired
channel that TEL_MAP marks not in use, and a lost channel counts again from its next accepted frame: DESIGN CHOICE (log entry 139),
the specification says neither. -/
def execTelemetryFrame (n : Nat) (frame : W32) (s : State) : Host.Outcome State Fault Refusal :=
  run s (guarded (decide (n < field (regGet s 0x8) 12 4)) (fun s =>
    let x := telAt s n
    let f := frame.toNat
    if !bit x.map 7 ∨ field x.map 0 4 ≠ field f 28 4 then reportCe 0 0 0x07 0 s
    else
      let y : TelChannel := { x with rail := field f 28 4, volts := field f 16 12, amps := field f 0 16, lost := false }
      setPower { s with blk := { s.blk with tel := tset {} s.blk.tel n y } }))

/-- TELEMETRY_CHANNEL_LOST (R81): a CE; the power of its rail then comes from the internal model, which is not stated: a free
value. -/
def execTelemetryChannelLost (n : Nat) (s : State) : Host.Outcome State Fault Refusal :=
  run s (guarded (bit (telAt s n).map 7 && !(telAt s n).lost) (fun s =>
    let lose := fun (t : TelChannel) => { t with rail := field t.map 0 4, lost := true }
    reportCe 0 0 0x07 0 (setPower { s with blk := { s.blk with tel := tmod {} s.blk.tel n lose } })))

end Sys2Proof.Machine
end

