-- ==== Sys2Proof/Machine/Lce.lean ====
section
/-!
DEFINITION. The commands of the lookup engines: batches (R192-R208), updates (R221-R225), epoch fences (R227-R229), parts
and replies of sub-batches (R216-R219, R342), the hot-row cache (R211, R214).
-/
namespace Sys2Proof.Machine
open Sys2Proof

/-! ## Starting a batch -/

/-- LCE n runs, and its sector does not doze (R220, R234, R685). -/
def lceAwake (s : State) (n : Nat) : Bool := (lceAt s n).state == 1 && tget 0 s.pm.sector (n / 4) == 0

/-- LCE n takes a new batch: it runs, and works on fewer than 4 (R177, R234). -/
def lceRoom (s : State) (n : Nat) : Bool := lceAwake s n && decide ((lceAt s n).active.length < 4)

/-! ## Choice of an engine (R176, R216) -/

/-- LCEs of partition p that take work. -/
def lcesOf (s : State) (p : Nat) : List Nat :=
  ((sectorsOf s p).map (fun n => (List.range 4).map (fun i => 4 * n + i))).flatten.filter (fun n => (lceAt s n).state == 1)

/-- The LCE with the fewest queued entries, the lowest number breaking ties. -/
def pickLce (s : State) (p : Nat) : Option Nat := minBy (fun n => (lceAt s n).queue.length) (lcesOf s p)

/-- Key of the parts of a sub-batch. -/
def subInOf (s : State) (src tag : Nat) : Option SubIn := s.lce.subIn.find? (fun x => decide (x.src = src ∧ x.tag = tag))

/-- A sub-batch leaves those that arrive or wait. -/
def dropSubIn (i : SubIn) (s : State) : State :=
  { s with lce := { s.lce with subIn := s.lce.subIn.filter (fun x => !decide (x.src = i.src ∧ x.tag = i.tag)) } }

/-- Give a whole sub-batch to an LCE of the partition that its domain's context lies in, or refuse it (R216, R218, R234). It
waits while every queue holds 64 (R177). -/
def giveSub (i : SubIn) (s : State) : State :=
  let refuse := refuseSub i.src i.tag i.gen i.ch (i.domain + i.id * 2 ^ 16) (dropSubIn i s)
  match domainOf s i.domain with
  | none => refuse
  | some d =>
    let p := partOfCtx s d.ctx
    match if touching s p || scrubbing s p then none else pickLce s p with
    | none => refuse
    | some n =>
      if (lceAt s n).queue.length < 64 then
        modLce n (fun x => { x with queue := x.queue ++ [.sub i.src i.tag], subIn := x.subIn + 1 }) s
      else s

/-- A sub-batch is whole, and stands in no queue. -/
def subWaits (s : State) (i : SubIn) : Bool :=
  decide (i.total ≤ i.parts.length) && !s.lce.unit.any (fun x => x.2.queue.contains (.sub i.src i.tag))

/-- A sub-batch that waits for room, other than `k`, is given to an LCE. -/
def giveWaiting (k : Option SubIn) (s : State) : State :=
  match s.lce.subIn.find? (fun i => subWaits s i && some i != k) with
  | some i => giveSub i s
  | none => s

/-- Take the job at the head of the queue of LCE n; a sub-batch that waits for room may follow. -/
def popJob (n : Nat) (s : State) : State :=
  let k := ((lceAt s n).queue.head?).bind (fun j => match j with | .sub src tag => subInOf s src tag | .task _ => none)
  let s := modLce n (fun x => { x with queue := x.queue.drop 1 }) s
  giveWaiting k s

/-- The domain bound to a context. -/
def ctxDomain (s : State) (c : Nat) : Option Nat := (s.lce.domains.find? (fun d => decide (d.ctx = c))).map (fun d => d.id)

/-- A lookup descriptor is well formed (R192, R230). -/
def lookupOk (d : List Byte) : Bool :=
  let pool := byteAt d 24
  let mode := byteAt d 26
  let cn := byteAt d 27
  zeroAt d 48 16 && decide (pool ≤ 4) && decide (byteAt d 25 ≤ 2) && decide (field mode 0 3 ≤ 4) && !bit mode 3 &&
    decide (mode < 32) && (if pool = 4 then decide (1 ≤ cn ∧ cn ≤ 64) else cn == 0) && fieldAt d 28 4 % 64 == 0 &&
    fieldAt d 0 8 % 64 == 0 && fieldAt d 32 8 % 64 == 0 && fieldAt d 40 8 % 32 == 0 && fieldAt d 16 4 % 64 == 0 &&
    (if bit mode 4 then decide (fieldAt d 8 8 < 2 ^ 47) else fieldAt d 8 8 % 64 == 0 && fieldAt d 16 4 == 0)

/-- One entry of the array (R193), with its slot for concatenation. -/
def lkEntry (l : List Byte) (slot : Nat) : LkEntry :=
  { row := fieldAt l 0 5, table := fieldAt l 5 2, bag := fieldAt l 8 2, weight := w32 (fieldAt l 12 4), slot := slot }

/-- The entries of a batch, in order, each with the number of earlier entries of its bag (R204). -/
def lkEntries (fuel : Nat) (seen : Tbl Nat) (l : List Byte) : List LkEntry :=
  match fuel with
  | 0 => []
  | n + 1 =>
    let b := fieldAt l 8 2
    lkEntry l (tget 0 seen b) :: lkEntries n (tset 0 seen b (tget 0 seen b + 1)) (l.drop 16)

/-- Reserved bits of the entry array are 0. -/
def entryBytesOk (l : List Byte) : Bool :=
  (chunks 16 l.length l).all (fun e => byteAt e 7 == 0 && zeroAt e 10 2 && decide (fieldAt e 5 2 < 4096))

/-- DIM by bag, plus 1; none when a bag mixes DIM values (R208). -/
def bagDims (s : State) (n d : Nat) (l : List LkEntry) : Option (Tbl Nat) :=
  l.foldl (fun o e => match o with
    | none => none
    | some t =>
      if e.row = padRow then some t
      else match tabOf s n d e.table with
        | none => none
        | some x =>
          let k := tget 0 t e.bag
          if k = 0 then some (tset 0 t e.bag (tDim x + 1)) else if k = tDim x + 1 then some t else none) (some [])

/-- DIM of the first table named; 0 when every entry is padding. -/
def firstDim (s : State) (n d : Nat) (l : List LkEntry) : Nat :=
  match l.find? (fun e => e.row != padRow) with
  | some e => ((tabOf s n d e.table).map tDim).getD 0
  | none => 0

/-- A row of an entry lies outside its shard, in a table that does not poison such rows, or outside memory (R9, R189, R230).
`here`: the entry names a local row. -/
def entryOut (s : State) (n d : Nat) (here : Bool) (e : LkEntry) : Bool :=
  e.row != padRow && (match tabOf s n d e.table with
    | some x =>
      let o := if here then (nodeId s, e.row) else rowOwner x e.row
      o.1 == nodeId s && (if tRows x ≤ o.2 then !tOorPoison x
        else !localOk s (tBase x + o.2 * tStride x) ((rowWidth (tFmt x) (tDim x)).getD 1))
    | none => false)

/-- An entry goes to another block. -/
def entryRemote (s : State) (n d : Nat) (e : LkEntry) : Bool :=
  e.row != padRow && (match tabOf s n d e.table with
    | some x => (rowOwner x e.row).1 != nodeId s
    | none => false)

/-- FWD_EN (R239). -/
def fwdEn (s : State) : Bool := bit (regGet s 0x802000) 0

/-- Why a batch cannot start: a status, its report type (0 for a status that is no fault), and a fault to record. -/
abbrev Why := Status × Nat × Option (Nat × Nat)

/-- The checks of a LOOKUP before its first window (R192-R208, R230): a batch, or why there is none. -/
def lookupBatch (s : State) (n seq c : Nat) (d eb : List Byte) (bad : Bool) : Except Why Batch :=
  let malformed : Why := (.faultFormat, 0x10, none)
  let nb := fieldAt d 22 2 + 1
  let ne := fieldAt d 20 2 + 1
  let dom := (ctxDomain s c).getD 65536
  let es := lkEntries ne [] eb
  let slots := if byteAt d 24 = 4 then byteAt d 27 else 1
  let stride := fieldAt d 28 4
  if bad ∨ ¬ entryBytesOk eb ∨ es.any (fun e => decide (nb ≤ e.bag)) then .error malformed
  else if byteAt d 24 = 4 ∧ es.any (fun e => decide (slots ≤ e.slot)) then .error malformed
  else match bagDims s n dom es with
    | none => .error malformed
    | some dims =>
      let dim := firstDim s n dom es
      let most := (dims.map (fun x => x.2 - 1)).foldl max dim * slots * (if byteAt d 25 = 0 then 4 else 2)
      let need := workNeed d
      let work := fieldAt d 32 8
      let near := !bit (byteAt d 26) 4
      let b : Batch := { kind := .task seq, ctx := c, domain := dom, desc := d, pool := byteAt d 24, dim := dim, dims := dims,
                         window := 1024 * 2 ^ field (byteAt d 26) 0 3, rest := es }
      if stride < most ∨ (524288 < need ∧ work = 0) then .error malformed
      else match (if 524288 < need then scratchRange s (.lce n) c work need else .ok ()),
          (if near then scratchRange s (.lce n) c (fieldAt d 8 8) ((nb - 1) * stride + alignUp most 64) else .ok ()) with
        | .error k, _ => .error (.faultAddress, 0x11, k)
        | _, .error k => .error (.faultAddress, 0x11, k)
        | .ok _, .ok _ =>
          if es.any (entryOut s n dom false) then .error (.faultAddress, 0x11, none)
          else if !fwdEn s && es.any (entryRemote s n dom) then .error (.denied, 0, none)
          else .ok b

/-- A task of an LCE ends before it has begun to work. -/
def lceRefuse (seq c : Nat) (w : Why) (s : State) : State :=
  match w.2.2 with
  | some k => xlatFault seq c k.1 2 k.2 s
  | none => taskEnd seq w.1 0 (if w.2.1 = 0 then none else some (w.2.1, detailOf c 0)) s

/-- The tables that entries name, cached from then on (R190). -/
def cacheTabs (n d : Nat) (l : List LkEntry) (s : State) : State :=
  each ((l.filter (fun e => e.row != padRow)).foldl (fun t e => sinsert e.table t) []) (fun t s => cacheTab n d t s) s

/-- Read the descriptor of a task at LCE n (R778): `f` continues with it and what is left of the operand. -/
def withDesc (n : Nat) (t : Task) (size : Nat) (host : HostData) (f : List Byte → HostData → State → State) (s : State) :
    State :=
  let va := fieldAt t.record 8 8
  reading t.seq (.lce n) (n % 4) t.seq t.ctx va size (fun s => match readCtl s (.lce n) t.ctx va size host with
    | .error k => xlatFault t.seq t.ctx k 2 va s
    | .ok (d, bad) =>
      let rest := hostRest host (hostUsed s (.lce n) t.ctx va size)
      let s := touchCtl (.lce n) t.ctx va size host s
      if bad then taskFault t.seq .faultFormat (detailOf t.ctx 0) s else f d rest s) s

/-- Start a LOOKUP at LCE n. -/
def startLookup (n : Nat) (t : Task) (host : HostData) (s : State) : State :=
  withDesc n t 64 host (fun d host s =>
    if !lookupOk d then taskFault t.seq .faultFormat (detailOf t.ctx 0) s
    else
      let va := fieldAt d 0 8
      let size := 16 * (fieldAt d 20 2 + 1)
      reading t.seq (.lce n) (n % 4) t.seq t.ctx va size (fun s => match readCtl s (.lce n) t.ctx va size host with
        | .error k => xlatFault t.seq t.ctx k 2 va s
        | .ok (eb, bad) =>
          let s := touchCtl (.lce n) t.ctx va size host s
          match lookupBatch s n t.seq t.ctx d eb bad with
          | .error w => lceRefuse t.seq t.ctx w s
          | .ok b => beginBatch n b (cacheTabs n b.domain b.rest s)) s) s

/-- One entry of a sub-batch part (R342). -/
def subEntry (l : List Byte) : LkEntry :=
  { row := fieldAt l 0 5, table := fieldAt l 5 2, bag := fieldAt l 7 2, weight := w32 (fieldAt l 12 4), slot := byteAt l 9 }

/-- The batch of a sub-batch whose parts are all in (R216): none when the owner refuses it (R218). -/
def subBatch (s : State) (n : Nat) (i : SubIn) : Option Batch :=
  let bytes := (i.parts.map (fun p => p.2.drop 1)).flatten
  let pool := ((i.parts.head?.map (fun p => byteAt p.2 0)).getD 0) % 8
  let es := (chunks 16 bytes.length bytes).map subEntry
  match domainOf s i.domain, bagDims s n i.domain es with
  | some d, some dims =>
    if es.any (entryOut s n i.domain true) then none
    else some { kind := .sub i.src i.tag i.gen i.ch (i.domain + i.id * 2 ^ 16), ctx := d.ctx, domain := i.domain,
                desc := [], pool := pool, dim := firstDim s n i.domain es, dims := dims, window := es.length + 1, rest := es }
  | _, _ => none

/-- Start a sub-batch at LCE n. -/
def startSub (n : Nat) (i : SubIn) (s : State) : State :=
  let s := { s with lce := { s.lce with subIn := s.lce.subIn.filter (fun x => !decide (x.src = i.src ∧ x.tag = i.tag)) } }
  match subBatch s n i with
  | none => refuseSub i.src i.tag i.gen i.ch (i.domain + i.id * 2 ^ 16) s
  | some b => beginBatch n b (cacheTabs n i.domain b.rest s)

/-- Start the lookup job at the head of the queue of LCE n. -/
def startJob (n : Nat) (host : HostData) (s : State) : State :=
  if !lceRoom s n then s
  else match (lceAt s n).queue with
    | .task seq :: _ => match taskOf s seq with
      | some t =>
        if t.ty = 0x10 then
          startLookup n t host (modTask seq (fun t => { t with place := .lce n, start := beat s }) (popJob n s))
        else s
      | none => popJob n s
    | .sub src tag :: _ => match s.lce.subIn.find? (fun x => decide (x.src = src ∧ x.tag = tag)) with
      | some i => startSub n i (popJob n s)
      | none => popJob n s
    | [] => giveWaiting none s

/-- An LCE whose queue holds one sub-batch takes it at once. -/
def startSubs (s : State) : State :=
  each (List.range 48) (fun n s => match (lceAt s n).queue with
    | [.sub _ _] => if computeOn s then startJob n { bytes := [], poison := false } s else s
    | _ => s) s

/-- LOOKUP (R199): LCE n starts the lookup batch at the head of its queue. -/
def execLookup (n : Nat) (host : HostData) (s : State) : Host.Outcome State Fault Refusal :=
  run s (guarded (computeOn s) (startJob n host))

/-- The address of a fetch key. -/
def keyAddr (key : Nat) : Nat := if isFar (key * 256) then key * 256 else key * 64

/-- RUN_FETCH_DATA (R200, R202): a fetched run or granule returns, and the rows it completes are pooled. -/
def execRunFetchData (n key : Nat) (ecc : List MemError) (s : State) : Host.Outcome State Fault Refusal :=
  run s (guarded (computeOn s) (fun s =>
    let waits := fun (x : Batch) => x.rows.any (fun r => r.wait.contains key)
    let queued := s.rg.queue.any (fun q => q.2.runs.any (fun r => decide (r.owner = .lce n ∧ r.page = key * 256 / 2048)))
    if queued then s
    else match (lceAt s n).active.find? waits with
      | none => s
      | some x =>
        let s := memErrors (keyAddr key) (if isFar (key * 256) then 256 else 64) ecc s
        let x := { x with rows := x.rows.map (fun r => { r with wait := sremove key r.wait }) }
        let xs := poolReady n x s
        advance (x.rest.length + 3) n xs.1 (keepBatch n xs.1 xs.2)))

/-! ## Parts and replies -/

/-- A part joins its sub-batch. Its first byte is POOL. -/
def addPart (k : Packet) (s : State) : State :=
  let i := match subInOf s k.src k.tag with
    | some i => i
    | none => { src := k.src, tag := k.tag, gen := k.gen, domain := field k.arg 0 16, ch := k.ch,
                id := field k.arg 16 16, total := field k.operand 0 16 }
  let data := BitVec.ofNat 8 (field k.operand 16 3) :: k.data
  let i := { i with parts := tset [] i.parts (field k.arg 32 16) data }
  let rest := s.lce.subIn.filter (fun x => !decide (x.src = k.src ∧ x.tag = k.tag))
  { s with lce := { s.lce with subIn := rest ++ [i] } }

/-- LKP_PART (R337, R342): a part arrives; the sub-batch starts when all its parts are in. -/
def execLkpPart (p : Nat) (s : State) : Host.Outcome State Fault Refusal :=
  run s (serve p 0x08 (fun k s =>
    if !routeValid s k.src then countDrop p s
    else
      let s := addPart k s
      match subInOf s k.src k.tag with
      | some i => if i.parts.length < i.total then s else startSubs (giveSub i s)
      | none => s))

/-- LKP_RSP (R217, R371): a reply part is kept until the reply is whole; a stale one is dropped and counted. -/
def execLkpRsp (p : Nat) (s : State) : Host.Outcome State Fault Refusal :=
  run s (onPacket p 0x88 (fun k s =>
    match answered s k, subOf s k.tag with
    | some r, some b =>
      match replyOf k with
      | .done mask _ data =>
        let b := { b with flags := b.flags ||| field k.operand 16 2, parts := tset [] b.parts (field k.arg 32 16) (BitVec.ofNat 8 mask :: data) }
        if b.parts.length < field k.operand 0 16 then
          { s with lce := { s.lce with subs := s.lce.subs.map (fun x => if x.tag = b.tag then b else x) } }
        else subDone b { s with fab := { s.fab with reqs := s.fab.reqs.erase r } }
      | o => settleReq r o s
    | some r, none => (match r.use with | .dropped _ _ => settleReq r (replyOf k) s | _ => countDrop p s)
    | none, _ => countDrop p s))

/-- REMOTE_LOOKUP_TIMEOUT (R219): a sub-batch without a reply after TMO_US. -/
def execRemoteLookupTimeout (sub : Nat) (s : State) : Host.Outcome State Fault Refusal :=
  run s (fun s => match subOf s sub with
    | some b => subLost b { s with fab := { s.fab with reqs := s.fab.reqs.filter (fun r => decide (r.tag ≠ sub)) } }
    | none => s)

/-! ## Updates -/

/-- An update record: table, row, and its data with the mark. -/
structure UpdRec where
  table : Nat
  row   : Nat
  data  : List Byte
  bad   : Bool
deriving DecidableEq, Repr

/-- Bytes of data that a record of a kind has. -/
def updBytes (kind : Nat) (d : Tab) : Nat :=
  if kind = 0 then (rowWidth (tFmt d) (tDim d)).getD 0 else 4 * tDim d

/-- Apply one record to a local row and its cached copy as one indivisible step (R213, R222, R224): whether the row then
carries the mark. -/
def applyRow (n c kind : Nat) (key : HotRow) (d : Tab) (l : Nat) (data : List Byte) (bad : Bool) (s : State) : Bool × State :=
  let a := tBase d + l * tStride d
  let w := (rowWidth (tFmt d) (tDim d)).getD 0
  let i := s.rg.reqs
  let s := if kind = 0 then s else accessC (.update i) c none false a w s
  let s := accessC (.update i) c none true a w s
  let old := (decodeRow (tFmt d) (tDim d) (readMem s a w)).map (fun r => w32 r.code)
  let sum := (old.zip (List.range old.length)).map (fun p => w32 (fadd32 p.1 (w32 (fieldAt data (4 * p.2) 4))).code)
  let new := if kind = 0 then padTo data w else encodeRow (tFmt d) (tDim d) sum
  let bad := bad || (kind != 0 && poisonIn s a w)
  (bad, hrcWrite (partOfSector s (n / 4)) key new bad (writeMem a new (fun _ => bad) s))

/-- A local row may be written: it lies in its shard, in memory. -/
def rowThere (s : State) (d : Tab) (l : Nat) : Bool :=
  decide (l < tRows d) && localOk s (tBase d + l * tStride d) ((rowWidth (tFmt d) (tDim d)).getD 1)

/-- The stream of a forwarded record: domain, kind, mark, epoch, table, local row, data (DESIGN CHOICE). -/
def updStream (dom kind epoch l : Nat) (r : UpdRec) : List Byte :=
  leBytes 2 dom ++ leBytes 1 kind ++ leBytes 1 (b2n r.bad) ++ leBytes 4 epoch ++ leBytes 2 r.table ++ leBytes 6 l ++ r.data

/-- Forward a record to its owner: FWMSG packets of one request (R223). -/
def forwardRec (n seq c q cmd node dom kind epoch l : Nat) (r : UpdRec) (s : State) : State :=
  let b := updStream dom kind epoch l r
  let ps := chunks 512 b.length b
  let parts := (ps.zip (List.range ps.length)).map (fun p =>
    ({ arg := 1 + p.2 * 2 ^ 8 + ps.length * 2 ^ 16, operand := 0, data := p.1 } : ReqPart))
  sendAll node (n % 4) 0x09 parts 0 (.update q cmd) seq c s

/-- Read the data of the records of an update in order; the first translation fault otherwise. -/
def updData (s : State) (o : RunOwner) (c kind va stride : Nat) (l : List (Nat × Nat × Tab)) (i : Nat) (h : HostData) :
    Except (Nat × Nat) (List (UpdRec × Tab)) :=
  match l with
  | [] => .ok []
  | (t, r, d) :: rest =>
    let a := va + i * stride
    let n := updBytes kind d
    match readCtl s o c a n h with
    | .error k => .error (k, a)
    | .ok (b, bad) =>
      match updData s o c kind va stride rest (i + 1) (hostRest h (hostUsed s o c a n)) with
      | .error k => .error k
      | .ok l => .ok ((⟨t, r, b, bad⟩, d) :: l)

/-- The records of an update task with their tables; none when one is malformed (R221, R222, R230). -/
def updRecs (s : State) (n dom kind : Nat) (l : List (List Byte)) : Option (List (Nat × Nat × Tab)) :=
  match l with
  | [] => some []
  | b :: r =>
    match tabOf s n dom (fieldAt b 5 2), updRecs s n dom kind r with
    | some d, some rest =>
      if byteAt b 7 ≠ 0 ∨ 4096 ≤ fieldAt b 5 2 ∨ (kind = 1 ∧ 2 < tFmt d) then none
      else some ((fieldAt b 5 2, fieldAt b 0 5, d) :: rest)
    | _, _ => none

/-- Apply or forward one record. -/
def updOne (n : Nat) (t : Task) (dom kind epoch : Nat) (r : UpdRec × Tab) (bs : Bool × State) : Bool × State :=
  let o := rowOwner r.2 r.1.row
  let bad := r.1.bad || t.taint
  if o.1 = nodeId bs.2 then
    let x := applyRow n t.ctx kind ⟨dom, r.1.table, o.2⟩ r.2 o.2 r.1.data bad bs.2
    (bs.1 || x.1, x.2)
  else (bs.1 || bad, forwardRec n t.seq t.ctx t.queue t.cmd o.1 dom kind epoch o.2 { r.1 with bad := bad } bs.2)

/-- Above, in 32 bits with wrap (R227). -/
def above32 (a b : Nat) : Bool := decide (0 < (a + 2 ^ 32 - b) % 2 ^ 32) && decide ((a + 2 ^ 32 - b) % 2 ^ 32 < 2 ^ 31)

/-- An update with forwarded records whose end waits for their acknowledgements: that of a queue in GLOBAL mode (R476). -/
def waitsForOwners (s : State) (t : Task) (far : List (UpdRec × Tab)) : Bool := (queueAt s t.queue).global && !far.isEmpty

/-- Apply the records of an update task. In GLOBAL mode it ends with the last acknowledgement, so that an owner's refusal gives
it the status of R230; in LOCAL mode it does not wait for them (R476), only for the runs of its own writes (R295). -/
def applyUpdates (n : Nat) (t : Task) (dom kind epoch : Nat) (l : List (UpdRec × Tab)) (s : State) : State :=
  let far := l.filter (fun r => (rowOwner r.2 r.1.row).1 != nodeId s)
  let s := if far.isEmpty then s
    else { s with lce := { s.lce with updates := s.lce.updates ++ [⟨t.seq, dom, epoch, far.length⟩] } }
  let r := l.foldl (fun bs r => updOne n t dom kind epoch r bs) (false, s)
  let st : Status := if r.1 then .donePoisoned else .done
  if waitsForOwners s t far then modTask t.seq (fun t => { t with wrap := some st }) r.2
  else answerWhen s.rg.reqs (.task t.seq st) r.2

/-- What an update of valid form does once its records are read (R223, R227, R230, R239). -/
def runUpdate (n : Nat) (t : Task) (d : List Byte) (recs : List (Nat × Nat × Tab)) (host : HostData) (s : State) : State :=
  let dom := (ctxDomain s t.ctx).getD 65536
  let kind := byteAt d 10
  let epoch := fieldAt d 12 4
  let fenced := ((domainOf s dom).map (fun x => x.fenced)).getD 0
  let own := fun (r : Nat × Nat × Tab) => (rowOwner r.2.2 r.2.1).1 == nodeId s
  let noRoute := fun (r : Nat × Nat × Tab) => !own r && !routeOk s (rowOwner r.2.2 r.2.1).1
  let place := fun (i : Nat) => fieldAt d 16 8 + i * fieldAt d 24 4
  match updData s (.lce n) t.ctx kind (fieldAt d 16 8) (fieldAt d 24 4) recs 0 host with
  | .error k => xlatFault t.seq t.ctx k.1 2 k.2 s
  | .ok l =>
    let s := ((recs.zip (List.range recs.length)).foldl (fun hs r =>
      let k := updBytes kind r.1.2.2
      (hostRest hs.1 (hostUsed hs.2 (.lce n) t.ctx (place r.2) k), touchCtl (.lce n) t.ctx (place r.2) k hs.1 hs.2)) (host, s)).2
    if recs.any (fun r => own r && !rowThere s r.2.2 (rowOwner r.2.2 r.2.1).2) then
      taskFault t.seq .faultAddress (detailOf t.ctx 0) s
    else if recs.any noRoute then taskEnd t.seq .faultAddress 0 (some (0x12, detailOf t.ctx 0)) s
    else if above32 fenced epoch ∨ recs.any (fun r => !tUpdatable r.2.2) ∨ (¬ fwdEn s ∧ recs.any (fun r => !own r)) then
      taskEnd t.seq .denied 0 none s
    else applyUpdates n t dom kind epoch l s

/-- Go on once the data of every record of an update is at hand. -/
def readingUpd (n : Nat) (t : Task) (d : List Byte) (recs : List (Nat × Nat × Tab)) (f : State → State) (s : State) : State :=
  let kind := byteAt d 10
  let at1 := fun (r : (Nat × Nat × Tab) × Nat) => (fieldAt d 16 8 + r.2 * fieldAt d 24 4, updBytes kind r.1.2.2)
  let l := (((recs.zip (List.range recs.length)).map at1).map (fun p => remoteSpans s (.lce n) t.ctx p.1 p.2)).flatten
  let l := l.filter (fun p => !hasFetch s t.seq t.ctx p)
  if !l.isEmpty then askReads t.seq (n % 4) t.seq t.ctx l s else if fetchWaits s t.seq then s else f s

/-- Start an UPDATE at LCE n. -/
def startUpdate (n : Nat) (t : Task) (host : HostData) (s : State) : State :=
  withDesc n t 32 host (fun d host s =>
    let malformed := fun (s : State) => taskFault t.seq .faultFormat (detailOf t.ctx 0) s
    if ¬ zeroAt d 11 1 ∨ ¬ zeroAt d 28 4 ∨ 1 < byteAt d 10 ∨ fieldAt d 0 8 % 8 ≠ 0 ∨ fieldAt d 16 8 % 16 ≠ 0 ∨
        fieldAt d 24 4 % 16 ≠ 0 then malformed s
    else
      let va := fieldAt d 0 8
      let size := 8 * (fieldAt d 8 2 + 1)
      reading t.seq (.lce n) (n % 4) t.seq t.ctx va size (fun s => match readCtl s (.lce n) t.ctx va size host with
        | .error k => xlatFault t.seq t.ctx k 2 va s
        | .ok (b, bad) =>
          let dom := (ctxDomain s t.ctx).getD 65536
          let rest := hostRest host (hostUsed s (.lce n) t.ctx va size)
          let s := touchCtl (.lce n) t.ctx va size host s
          match updRecs s n dom (byteAt d 10) (chunks 8 b.length b) with
          | none => malformed s
          | some recs =>
            if bad then malformed s
            else readingUpd n t d recs (fun s => runUpdate n t d recs rest (each recs (fun r s => cacheTab n dom r.1 s) s)) s) s) s

/-- A task of type `ty` at the head of the queue of LCE n starts. -/
def headTask (n ty : Nat) (f : Task → State → State) (s : State) : State :=
  if !lceAwake s n then s
  else match (lceAt s n).queue with
    | .task seq :: _ => match taskOf s seq with
      | some t =>
        if t.ty = ty then f t (modTask seq (fun t => { t with place := .lce n, start := beat s }) (popJob n s)) else s
      | none => popJob n s
    | _ => s

/-- UPDATE (R221-R227): LCE n applies the records of the task at the head of its queue. -/
def execUpdate (n : Nat) (host : HostData) (s : State) : Host.Outcome State Fault Refusal :=
  run s (guarded (computeOn s) (headTask n 0x11 (fun t s => startUpdate n t host s)))

/-- A forwarded record that is whole is applied at its owner, or refused with a CE (R218, R223). -/
def ownerUpdate (k : Packet) (b : List Byte) (s : State) : State :=
  let dom := fieldAt b 0 2
  let kind := byteAt b 2
  let l := fieldAt b 10 6
  let refuse := fun (st : Nat) (s : State) => reportCe 5 k.src 0x07 0 (answer k st 0 0 [] s)
  match domainOf s dom with
  | none => refuse 0x10 s
  | some x => match (pickLce s (partOfCtx s x.ctx)).map (fun n => (n, tabOf s n dom (fieldAt b 8 2))) with
    | some (n, some d) =>
      if !tUpdatable d then refuse 0x30 s
      else if kind = 1 ∧ 2 < tFmt d then refuse 0x11 s
      else if !rowThere s d l then refuse 0x10 s
      else
        let r := applyRow n x.ctx kind ⟨dom, fieldAt b 8 2, l⟩ d l (b.drop 16) (bit (byteAt b 3) 0) (cacheTab n dom (fieldAt b 8 2) s)
        answerWhen s.rg.reqs (.fab k 0 0 0 []) r.2
    | _ => refuse 0x10 s

/-- One packet of a forwarded record: it is kept until the record is whole. -/
def updatePart (k : Packet) (s : State) : State :=
  let mine := fun (u : Nat × Nat × List Byte) => decide (u.1 = k.src ∧ u.2.1 = k.tag)
  let so := ((s.lce.updIn.find? mine).map (fun u => u.2.2)).getD []
  let b := so ++ k.data
  let others := s.lce.updIn.filter (fun u => !mine u)
  if field k.arg 8 8 + 1 < field k.arg 16 8 then
    { s with lce := { s.lce with updIn := others ++ [(k.src, k.tag, b)] } }
  else ownerUpdate k b { s with lce := { s.lce with updIn := others } }

/-- REMOTE_UPDATE_RECORDS (R223, R225): forwarded records are applied in the order they were sent. -/
def execRemoteUpdateRecords (p : Nat) (s : State) : Host.Outcome State Fault Refusal :=
  run s (fun s => match rxHead s p (fun k => decide (k.opc = 0x09 ∧ k.dst = nodeId s) && bit k.arg 0) with
    | none => s
    | some _ => serve p 0x09 (fun k s => if routeValid s k.src then updatePart k s else countDrop p s) s)

/-! ## Epoch fences (R227-R229) -/

/-- Start an EPOCH_FENCE. -/
def startFence (n : Nat) (t : Task) (host : HostData) (s : State) : State :=
  withDesc n t 16 host (fun d _ s =>
    if ¬ zeroAt d 5 11 ∨ 1 < byteAt d 4 then taskFault t.seq .faultFormat (detailOf t.ctx 0) s
    else match (ctxDomain s t.ctx).bind (domainOf s) with
      | none => taskEnd t.seq .done 0 none s
      | some x =>
        if above32 (fieldAt d 0 4) x.fenced then
          let w : EpochWait := { lce := n, seq := t.seq, domain := x.id, epoch := fieldAt d 0 4, reload := bit (byteAt d 4) 0 }
          { s with lce := { s.lce with fences := s.lce.fences ++ [w] } }
        else taskEnd t.seq .done 0 none s) s

/-- EPOCH_FENCE (R228): LCE n starts the fence at the head of its queue; one not above FENCED completes at once. -/
def execEpochFence (n : Nat) (host : HostData) (s : State) : Host.Outcome State Fault Refusal :=
  run s (guarded (computeOn s) (headTask n 0x12 (fun t s => startFence n t host s)))

/-- The epoch of an update that no engine has read yet, where its descriptor lies in block-local memory. -/
def updEpoch (s : State) (t : Task) : Option Nat :=
  let va := fieldAt t.record 8 8
  if hostUsed s .front t.ctx va 32 ≠ 0 then none
  else match readCtl s .front t.ctx va 32 { bytes := [], poison := false } with
    | .ok (d, _) => some (fieldAt d 12 4)
    | .error _ => none

/-- An accepted update that no engine has worked on holds a fence (R228): by its epoch, or, where that cannot be seen yet, by
having become ready first (DESIGN CHOICE). One that an ORDERED command keeps waiting is not accepted yet (DEDUCED). -/
def updHolds (s : State) (w : EpochWait) (t : Task) : Bool :=
  let me := ((taskOf s w.seq).map (fun t => t.ready)).getD 0
  decide (t.ty = 0x11 ∧ ctxDomain s t.ctx = some w.domain) && !orderedWaits s t &&
    (match t.place with | .lce _ => false | _ => true) &&
    (match updEpoch s t with | some e => above32 w.epoch e | none => decide (t.ready < me))

/-- An update of the domain that the fence covers is not applied and acknowledged yet. -/
def fenceBlocked (s : State) (w : EpochWait) : Bool :=
  s.lce.updates.any (fun u => decide (u.domain = w.domain) && above32 w.epoch u.epoch) || s.fe.tasks.any (updHolds s w)

/-- A fence completes: FENCED becomes its epoch; RELOAD drops descriptors and cached rows (R228). -/
def fenceDone (w : EpochWait) (s : State) : State :=
  let s := { s with lce := { s.lce with fences := s.lce.fences.filter (fun x => decide (x ≠ w)) } }
  let s := modDomain w.domain (fun d =>
    { d with fenced := if above32 w.epoch d.fenced then w.epoch else d.fenced }) s
  let s := if w.reload then
      each (List.range 12) (fun p s =>
        modHrc p (fun x => { x with rows := x.rows.filter (fun r => decide (r.key.domain ≠ w.domain)) }) s) (dropTabs w.domain s)
    else s
  taskEnd w.seq .done 0 none s

/-- EPOCH_FENCE_COMPLETE (R228). -/
def execEpochFenceComplete (n : Nat) (s : State) : Host.Outcome State Fault Refusal :=
  run s (guarded (computeOn s) (fun s =>
    match s.lce.fences.find? (fun w => decide (w.lce = n) && !fenceBlocked s w) with
    | some w => fenceDone w s
    | none => s))

/-! ## The hot-row cache -/

/-- SKETCH_DECAY (R211): DECAY × 1,024 beats after the last halving every counter of the partition's sketches is halved,
rounding down; DECAY 0 disables it. -/
def execSketchDecay (p : Nat) (s : State) : Host.Outcome State Fault Refusal :=
  run s (fun s =>
    let d := field (hrcReg s p) 0 16
    if d = 0 ∨ (beat s + 2 ^ 64 - (hrcAt s p).decayed) % 2 ^ 64 < 1024 * d then s
    else modHrc p (fun x => { x with decayed := beat s, sketch := (x.sketch.map (fun c => (c.1, c.2 / 2))).filter (fun c => decide (c.2 ≠ 0)) }) s)

/-- A partition's cache begins to empty (R214): lookups read the far tier. -/
def emptyHrc (p : Nat) (s : State) : State := modHrc p (fun x => { x with emptying := true }) s

/-- HRC_CONFIG_WRITE (R214, R237): a change of size or slot empties the cache. -/
def execHrcConfigWrite (p : Nat) (val : W32) (s : State) : Host.Outcome State Fault Refusal :=
  run s (guarded (regsOn s && decide (p < 12)) (fun s =>
    let old := hrcReg s p
    let v := val.toNat &&& 0xFFF0FFFF
    let s := regSet (0x801000 + 0x10 * p) v s
    if field old 24 8 = field v 24 8 then s else emptyHrc p s))

/-- HOT_ROW_CACHE_EMPTIED (R214). -/
def execHotRowCacheEmptied (p : Nat) (s : State) : Host.Outcome State Fault Refusal :=
  run s (fun s => if (hrcAt s p).emptying then modHrc p (fun x => { x with emptying := false, rows := [] }) s else s)

/-- LCE_INTERNAL_ERROR (R230): B-class. -/
def execLceInternalError (n : Nat) (s : State) : Host.Outcome State Fault Refusal :=
  run s (fun s => bEvent 2 n 0x20 0 s)

end Sys2Proof.Machine
end

