-- ==== Sys2Proof/Machine/StopOps.lean ====
section
/-!
DEFINITION. Ending work from outside: a task stops where it is, its requests lose their owner (R582, R583, R714), the
commands of a queue end (R706), a context is torn down (R581).
-/
namespace Sys2Proof.Machine
open Sys2Proof

/-! ## Requests that lose their owner -/

/-- A request was abandoned before. -/
def isDropped (u : ReqUse) : Bool := match u with | .dropped _ _ => true | _ => false

/-- Requests whose `seq` field is no task's. -/
def taskless (u : ReqUse) : Bool :=
  match u with
  | .table _ _ _ => true | .tableSignal _ _ => true | .mirror => true | .dropped _ _ => true | _ => false

/-- Every outstanding request of a task loses its owner. `q` is the queue whose reset waits for it. -/
def abandonSeq (late : Bool) (q seq : Nat) (s : State) : State :=
  let reqs := s.fab.reqs.map (fun r => if r.seq = seq ∧ ¬ taskless r.use then { r with use := .dropped late q } else r)
  { s with fab := { s.fab with reqs := reqs, fetches := s.fab.fetches.filter (fun f => decide (f.key ≠ seq)) } }

/-- Every outstanding request of a context loses its owner; fences no longer count its records (R232). -/
def abandonCtx (late : Bool) (c : Nat) (s : State) : State :=
  let gone := (s.fab.reqs.filter (fun r => decide (r.ctx = c))).map (fun r => r.seq)
  let reqs := s.fab.reqs.map (fun r => if r.ctx = c then { r with use := .dropped late 0x3FF } else r)
  let s := { s with lce := { s.lce with updates := s.lce.updates.filter (fun u => !gone.contains u.seq) } }
  dropReads late 0x3FF (fun r => r.ctx == some c)
    { s with fab := { s.fab with reqs := reqs, fetches := s.fab.fetches.filter (fun f => decide (f.ctx ≠ c)) } }

/-- A request of a context is outstanding. -/
def ctxBusy (s : State) (c : Nat) : Bool :=
  s.fab.reqs.any (fun r => decide (r.ctx = c)) || s.ports.oreq.any (fun r => decide (r.ctx = some c))

/-- A request that the reset of a queue waits for is outstanding. -/
def resetBusy (s : State) (q : Nat) : Bool :=
  s.fab.reqs.any (fun r => match r.use with | .dropped _ k => k == q | _ => false) ||
    s.ports.oreq.any (fun r => match r.use with | .dropped _ k => k == q | _ => false)

/-! ## One task -/

/-- A task leaves its array without a save; the cycles it used there are a free value (R150). -/
def stopArray (late : Bool) (q p : Nat) (t : Task) (s : State) : Nat × State :=
  let l := (physAt s p).logical
  let s := dropReads late q (fun r => r.use == .load l) s
  if (arrAt s p).restore then (0, leaveArray p s)
  else
    let (x, s) := fresh s
    (x % 2 ^ 48, leaveArray p (useCycles t.queue (x % 2 ^ 48) s))

/-- A task leaves the engine that queues it or works on it (R232). -/
def stopLce (n seq : Nat) (s : State) : State :=
  let s := modLce n (fun x => { x with queue := x.queue.filter (fun j => decide (j ≠ .task seq)) }) (dropBatch n (.task seq) s)
  { s with lce := { s.lce with fences := s.lce.fences.filter (fun w => decide (w.seq ≠ seq)),
                               updates := s.lce.updates.filter (fun u => decide (u.seq ≠ seq)) } }

/-- A task leaves the place where it is. The answer: the array cycles it used since it was last placed. -/
def leavePlace (late : Bool) (q : Nat) (t : Task) (s : State) : Nat × State :=
  let off := fun (l : Nat) (s : State) => match physOf s l with
    | some p => stopArray late q p t s
    | none => (0, s)
  match t.place with
  | .eapWait e => (0, { s with blk := { s.blk with eapWait := s.blk.eapWait.erase (e, t.seq) } })
  | .eap _ => (0, each (s.blk.eapTags.filter (fun x => decide (x.seq = t.seq) && !x.cancelled)) cancelTag s)
  | .entry l => (0, match physOf s l with
    | some p => modArr p (fun x => { x with queue := x.queue.erase t.seq }) s
    | none => s)
  | .running l => off l s
  | .saving l => off l s
  | .restoring l => off l s
  | .lceQueue n => (0, stopLce n t.seq s)
  | .lce n => (0, stopLce n t.seq s)
  | .gate => (0, { s with sg := { s.sg with gates := s.sg.gates.filter (fun g => decide (g.seq ≠ t.seq)) } })
  | .mover _ => (0, { s with sg := { s.sg with kv := s.sg.kv.filter (fun k => decide (k.seq ≠ t.seq)) } })
  | _ => (0, s)

/-- A task stops without completing: its requests lose their owner, its save record is discarded, its waits are withdrawn. -/
def stopTask (late : Bool) (q : Nat) (t : Task) (s : State) : Nat × State :=
  let r := leavePlace late q t (abandonSeq late q t.seq s)
  let s := leaveBars t.seq r.2
  let s := freeRecs (fun x => decide (x.seq = t.seq)) s
  (r.1, { s with fe := { s.fe with tasks := s.fe.tasks.filter (fun x => decide (x.seq ≠ t.seq)) } })

/-- Task queues that have room again are filled. -/
def refillAll (s : State) : State := each (List.range 48) (fun k s => fillSeq k s) s

/-- Engine tasks that wait are issued to engines whose tags are free. -/
def reissueAll (s : State) : State := each (List.range 4) (fun e s => issueWaiting 64 e s) s

/-! ## The commands of a queue -/

/-- A task that is stopped ends with a status: its entry, or that of the command it is the work of. -/
def endStopped (q : Nat) (t : Task) (st : Status) (cyc : Nat) (s : State) : State :=
  match t.node with
  | some (id, n) => match launchOf s id with
    | some x =>
      let s := modLaunch id (fun x => { x with nodes := lset x.nodes n .ended, cycles := x.cycles + cyc }) s
      owe x.queue (nodeEntry s x t.record st t.start t.seq cyc) s
    | none => s
  | none =>
    if t.joined then
      let ring := ((cmdOf s q t.cmd).bind (fun e => e.pos)).getD 0xFFFFFFFF
      owe t.queue { cmd := t.cmd, status := st, flags := 8, gen := (queueAt s t.queue).gen, code := 1,
                    tag := w32 (fieldAt t.record 4 4), start := t.start, fin := beat s, cycles := cyc, pos := t.seq,
                    ring := ring } s
    else modCmd q t.cmd (fun e => { e with start := t.start, cycles := cyc }) s

/-- The nodes of a launch that were not issued are cancelled with it. -/
def endNodes (x : Launch) (s : State) : State :=
  let g := graphAt s x.graph
  each (List.range x.nodes.length) (fun n s => match x.nodes[n]? with
    | some (.waiting _) =>
      owe x.queue (nodeEntry s x ((g.nodes[n]?.map (fun y => y.record)).getD []) .cancelled (beat s) (2 ^ 47 + n) 0) s
    | _ => s) s

/-- The status of a command that is ended: the one its own work failed with, if it did, else `st`. -/
def endedAs (s : State) (e : CmdEnt) (st : Status) : Status :=
  let own := e.own.orElse (fun _ => (cmdLaunch s e).bind (fun x => x.bad))
  match own with
  | some o => if o.good then st else o
  | none => st

/-- A command accepted and not completed ends: its entry is kept, a pending SIGNAL sets its fence's error word, its
references drop (R471, R706). -/
def endCmd (q : Nat) (st : Status) (e : CmdEnt) (s : State) : State :=
  let s := match cmdLaunch s e with
    | some x => endNodes x s
    | none => s
  let c := cmdEntry s e (endedAs s e st) (cmdCycles s e)
  let s := endLaunch e s
  let s := modQueue q (fun x => { x with cmds := x.cmds.filter (fun d => decide (d.id ≠ e.id)), ended := x.ended ++ [c] }) s
  failSignals [e] st.code s

/-- The command that holds a queue ends with the rest, unless it has completed. -/
def endHeld (q : Nat) (st : Status) (s : State) : State :=
  let x := queueAt s q
  let s := match x.held with
    | some e =>
      if x.heldDone then s
      else
        let s := modQueue q (fun x => { x with ended := x.ended ++ [cmdEntry s e st 0] }) s
        if e.code = 4 then fenceDrop (handleIdx e.fence) s else s
    | none => s
  modQueue q (fun x => { x with held := none, heldDone := false }) s

/-- The tasks that the accepted commands of a queue hold (R466). -/
def tasksUnder (s : State) (q : Nat) : List Task :=
  s.fe.tasks.filter (fun t => (queueAt s q).cmds.any (fun e => decide (e.id = t.cmd)))

/-- A task ends without completing: the handles it holds wait to return, the group it serves breaks if `brk` (R424). -/
def endTask (late brk : Bool) (dq q : Nat) (st : Status) (t : Task) (s : State) : State :=
  let s := modQueue q (fun x => { x with homing := x.homing ++ t.handles.map (fun h => (t.queue, h)) }) s
  let s := match t.group with
    | some g => if brk then breakGroup g s else s
    | none => s
  let r := stopTask late dq t s
  endStopped q t st r.1 r.2

/-- All accepted work of a queue ends with a status (R706 steps 2 and 3, R710). -/
def endQueueWork (late brk : Bool) (dq q : Nat) (st : Status) (s : State) : State :=
  let s := each (tasksUnder s q) (fun t s => endTask late brk dq q st t s) s
  let s := each (queueAt s q).cmds (fun e s => endCmd q st e s) s
  endHeld q st s

/-- The handles of ended tasks return home (R484). -/
def homeHandles (ce : Bool) (q : Nat) (s : State) : State :=
  let l := (queueAt s q).homing
  let s := modQueue q (fun x => { x with homing := [] }) s
  each l (fun h s => if ce then reportCe 7 h.1 0x07 0 (hqReturn h.2 s) else hqReturn h.2 s) s

/-- A queue leaves its slot. -/
def freeSlot (q : Nat) (s : State) : State :=
  { s with fe := { s.fe with slot := s.fe.slot.filter (fun p => !decide (p.2.valid = true ∧ p.2.queue = q)) } }

/-! ## Destroying queues and contexts -/

/-- The work of a queue that is destroyed or fenced ends without entries; its pending SIGNALs set ABANDONED (R471, R581). -/
def abandonQueue (late : Bool) (dq q : Nat) (s : State) : State :=
  let x := queueAt s q
  let s := each (tasksUnder s q) (fun t s =>
    let s := modQueue q (fun x => { x with homing := x.homing ++ t.handles.map (fun h => (t.queue, h)) }) s
    (stopTask late dq t s).2) s
  let s := modQueue q (fun x => { x with cmds := [], held := none, heldDone := false, due := [], ended := [], guilty := none }) s
  let s := failSignals x.cmds (Status.code .abandoned) s
  let s := each x.cmds (fun e s => endLaunch e s) s
  match x.held with
  | some e => if x.heldDone ∨ e.code ≠ 4 then s else fenceDrop (handleIdx e.fence) s
  | none => s

/-- A queue is gone: its number and page index are free, its source is masked, its context drops a reference (R577, R641). -/
def destroyQueue (q : Nat) (s : State) : State :=
  let c := (queueAt s q).ctx
  ctxDrop c (modSrc (64 + q) (fun x => { x with mask := true }) (modQueue q (fun _ => {}) (freeSlot q (homeHandles true q s))))

/-- A sequence group is removed (R424). -/
def removeGroup (g : Nat) (s : State) : State :=
  let c := (groupAt s g).ctx
  let tables := s.sg.tables.filter (fun t => decide (t.1 ≠ g))
  ctxDrop c (modGroup g (fun _ => {}) { s with sg := { s.sg with tables := tables } })

/-- A barrier channel is unbound: its context drops a reference. -/
def unbindBar (k : Nat) (s : State) : State :=
  let c := (barAt s k).ctx
  ctxDrop c (modBar k (fun b => { granted := b.granted, vai := b.vai, gen := b.gen }) s)

/-- A handoff queue is unbound. -/
def unbindHq (h : Nat) (s : State) : State :=
  let c := (hqAt s h).ctx
  ctxDrop c (modHq h (fun x => { granted := x.granted, vai := x.vai }) s)

/-- Every mapping of an allocation in a context goes. -/
def dropMaps (c a : Nat) (s : State) : State :=
  let n := ((allocAt s a).maps.filter (fun m => decide (m.1 = c))).length
  let s := modAlloc a (fun x => { x with maps := x.maps.filter (fun m => decide (m.1 ≠ c)) }) s
  each (List.range n) (fun _ s => ctxDrop c s) (if n = 0 then s else allocCheck a s)

/-- Steps 5 to 7 of R581: handles return, save records go, the context drops the references it holds. -/
def teardownEnd (c : Nat) (s : State) : State :=
  let s := freeRecs (fun r => decide (r.ctx = c)) (modCtx c (fun x => { x with settling := false }) s)
  let s := { s with fe := { s.fe with tlb := s.fe.tlb.filter (fun t => decide (t.ctx ≠ c)) } }
  let s := each (keysOf s.fe.q (fun x => x.ctx == c && x.state != .unused)) (fun q s => destroyQueue q s) s
  let s := each (keysOf s.fe.graphs (fun g => g.ctx == c && g.live && g.created)) (fun g s =>
    graphDrop g (modGraph g (fun x => { x with created := false }) s)) s
  let s := each (keysOf s.fe.hq (fun h => h.bound && h.ctx == c)) (fun h s => unbindHq h s) s
  let s := each (keysOf s.tw.bar (fun b => b.state != 0 && b.ctx == c)) (fun k s => unbindBar k s) s
  let s := each (keysOf s.fe.allocs (fun a => a.live)) (fun a s => dropMaps c a s) s
  if (ctxAt s c).created then ctxDrop c (modCtx c (fun x => { x with created := false }) s) else s

/-- Step 4 of R581 ends when no request of the context is outstanding. -/
def teardownSettle (c : Nat) (s : State) : State :=
  if (ctxAt s c).settling && !ctxBusy s c then teardownEnd c s else s

/-- Steps 1 to 4 of R581. Under TAG the generation rises and nothing is waited for. -/
def teardown (c : Nat) (s : State) : State :=
  let tag := bit (regGet s 0x100014) 31
  let s := modCtx c (fun x => { x with state := 2 }) s
  let qs := keysOf s.fe.q (fun x => x.ctx == c && x.state != .unused)
  let s := each qs (fun q s => modQueue q (fun x => { x with state := .fenced }) (freeSlot q s)) s
  let s := each qs (fun q s => abandonQueue tag 0x3FF q s) s
  let s := each (keysOf s.sg.group (fun g => g.live && g.ctx == c)) (fun g s => removeGroup g s) s
  let s := breakBars c (refillAll (reissueAll s))
  let s := abandonCtx tag c s
  if tag then teardownEnd c (modCtx c (fun x => { x with gen := (x.gen + 1) % 256 }) s)
  else teardownSettle c (modCtx c (fun x => { x with settling := true }) s)

end Sys2Proof.Machine
end

