-- ==== Sys2Proof/Machine/HostIo.lean ====
section
/-!
DEFINITION. Completions of the block's reads of host memory (R33).
-/
namespace Sys2Proof.Machine
open Sys2Proof

/-- Replace the bytes of a list from `off` on; a gap is filled with zeros. -/
def spliceBytes (off : Nat) (data : List Byte) (l : List Byte) : List Byte :=
  padTo l off ++ data ++ l.drop (off + data.length)

/-- What a completion delivers: bytes and whether they are poisoned. UR, CA and a timeout deliver ones (R33). -/
def readData (r : OreqRead) (ok ep : Bool) (data : List Byte) : List Byte × Bool :=
  if ok then (padTo data r.len, ep) else (ones r.len, true)

/-- A read of the recovery image returns (R668, R669). -/
def recoveryData (dest : Nat) (d : List Byte × Bool) (s : State) : State :=
  if d.2 then
    let s := { s with blk := { s.blk with cause := 0x0B }, fw := { s.fw with recovering := false } }
    dropReads false 0x3FF (fun r => r.use == .recovery) s
  else { s with fw := { s.fw with recovery := spliceBytes dest d.1 s.fw.recovery } }

/-- Data of a load from the host land in the local store of its array, poison mark and all. -/
def landHost (l dest : Nat) (d : List Byte × Bool) (s : State) : State :=
  match physOf s l with
  | some p => modArr p (fun x => x.putLs dest d.1 (fun _ => d.2)) s
  | none => s

/-- A unit has been read: it is opened, or delivered marked (R749); one that came in error is ones (R33). -/
def unitData (s : State) (u : SealRead) : List Byte × Bool :=
  if u.err then (ones u.n, true) else hostBytes s u.ctx u.va u.n ⟨u.buf, u.bad⟩

/-- A piece of a sealed unit arrives; with the last one the unit is delivered. -/
def unitPiece (l id off : Nat) (r : OreqRead) (ok ep : Bool) (data : List Byte) (s : State) : State :=
  let d := readData r ok ep data
  let put := fun (u : SealRead) => if u.id = id then
    { u with buf := spliceBytes off d.1 u.buf, bad := u.bad || d.2, err := u.err || !ok } else u
  let s := { s with ports := { s.ports with units := s.ports.units.map put } }
  match s.ports.units.find? (fun u => decide (u.id = id)) with
  | none => s
  | some u =>
    if s.ports.oreq.any (fun r => decide ((r.crypt.map (fun k => k.1)) = some id)) then s
    else
      let d := unitData s u
      let s := if !d.2 then s else if u.bad then hostPoisonCe u.ctx s else sealCe u.ctx s
      landHost l u.dest d { s with ports := { s.ports with units := s.ports.units.filter (fun u => decide (u.id ≠ id)) } }

/-- The data of a load from the host arrive. -/
def loadData (l : Nat) (r : OreqRead) (ok ep : Bool) (data : List Byte) (s : State) : State :=
  match r.crypt with
  | some k => unitPiece l k.1 k.2 r ok ep data s
  | none =>
    let d := readData r ok ep data
    landHost l r.dest d (if d.2 then hostPoisonCe (r.ctx.getD 0) s else s)

/-- A read ends. A late response of abandoned work is counted in LATE (R583). -/
def endRead (r : OreqRead) (ok ep : Bool) (data : List Byte) (s : State) : State :=
  let l := s.ports.oreq.erase r
  let s := { s with ports := { s.ports with oreq := l } }
  let s := nextReads 1 (match r.use with
    | .dropped _ _ => { s with ports := { s.ports with units := unitsLeft l s.ports.units } }
    | _ => s)
  match r.use with
  | .load l => loadData l r ok ep data s
  | .stage => s
  | .recovery => recoveryData r.dest (readData r ok ep data) s
  | .dropped late _ => match r.ctx with
    | some c => if late then modCtx c (fun x => { x with late := sat 16 (x.late + 1) }) s else s
    | none => s

/-- The outstanding read of a tag. -/
def readOf (s : State) (tag : Nat) : Option OreqRead := s.ports.oreq.find? (fun r => decide (r.tag = tag) && r.sent)

/-- OCPL_COMPLETION (R33): a completion of a tag that is not outstanding has no effect. -/
def execOcplCompletion (tag : Nat) (status : CplStatus) (ep : Bool) (data : List Byte) (s : State) : Host.Outcome State Fault Refusal :=
  run s (fun s => match readOf s tag with
    | some r => endRead r (status == .sc) ep data s
    | none => s)

/-- OREQ_COMPLETION_TIMEOUT (R33). -/
def execOreqCompletionTimeout (tag : Nat) (s : State) : Host.Outcome State Fault Refusal :=
  run s (fun s => match readOf s tag with
    | some r => endRead r false false [] s
    | none => s)

end Sys2Proof.Machine
end

