-- ==== Sys2Proof/Machine/Contexts.lean ====
section
/-!
DEFINITION. Contexts, the allocator's mailbox commands, and the destruction of objects (R560-R583, R776).
-/
namespace Sys2Proof.Machine
open Sys2Proof

/-! ## Creation (R561-R563) -/

/-- The heap of CTX_CREATE: none, or 1 GiB aligned within one span of 512 GiB. -/
def heapFits (va gib : Nat) : Bool :=
  gib == 0 || (va % chunkSize == 0 && decide (gib ≤ 256) && va / 2 ^ 39 == (va + gib * chunkSize - 1) / 2 ^ 39)

/-- The context is made in its VAI's grants: a number, a save area, and the domain binding, whose directory address no command
carries (a free value, R182). -/
def makeCtx (v c : Nat) (save : Nat) (dom root heapVa gib : Nat) (s : State) : State :=
  let part := (vaiAt s v).part
  let s := modCtx c (fun x => { gen := x.gen, hgen := x.hgen, state := 1, vai := v, part := part, root := root, heapVa := heapVa,
                                heapGib := gib, domain := if dom = 0xFFFF then none else some dom, saveAt := save, refs := 1,
                                created := true }) s
  if dom = 0xFFFF then s
  else
    let (x, s) := fresh s
    let d : Domain := { id := dom, ctx := c, dir := x % (farTop / 65536 - 3) * 65536 }
    emptyHrc part { s with lce := { s.lce with domains := s.lce.domains ++ [d] } }

/-- Contexts of a VAI that are not free. -/
def ctxsOf (s : State) (v : Nat) : List Nat := keysOf s.fe.ctx (fun x => x.state != 0 && x.vai == v)

/-- The checks of R562 in their order, then the creation. -/
def ctxCreate (s : State) : State :=
  let w := boxWord s 256
  let v := field (w 1) 0 8
  let dom := field (w 1) 16 16
  let root := boxPair s 256 2
  let heap := boxPair s 256 4
  let gib := w 6
  let x := vaiAt s v
  if !heapFits heap gib ∨ 256 < gib ∨ root % 4096 ≠ 0 then replySt 256 .faultFormat s
  else if x.state ≠ 0 ∧ ¬(isFar root ∧ grantedAll s v root 4096) then replySt 256 .faultAddress s
  else if x.state = 0 ∨ scrubbing s x.part ∨ (dom ≠ 0xFFFF ∧ s.lce.domains.any (fun d => decide (d.id = dom))) then
    replySt 256 .denied s
  else if x.contexts ≤ (ctxsOf s v).length then replySt 256 .busy s
  else match placeAt true v (saveBytes s x.part) 65536 ((root, 4096) :: placedRanges s true) s with
    | none => replySt 256 .busy s
    | some (save, t) => match chooseFree (fun c => (ctxAt t c).state == 0) 512 t with
      | none => replySt 256 .busy s
      | some (c, t) =>
        let t := makeCtx v c save dom root heap gib t
        replyBox 256 0 [handle (ctxAt t c).hgen c] t

/-- CTX_CREATE (R561, R562). -/
def execCtxCreate (s : State) : Host.Outcome State Fault Refusal := run s (onBox 256 0x0110 ctxCreate)

/-! ## Teardown -/

/-- The context that a handle of the manager names. -/
def ctxNamed (s : State) (h : Nat) : Option Nat :=
  let c := field h 8 16
  if c < 512 ∧ (ctxAt s c).state ≠ 0 ∧ h = (ctxAt s c).hgen % 256 + 256 * c then some c else none

/-- CTX_DESTROY (R561, R581): from the manager or the owning VAI; a context that is not live is denied. -/
def execCtxDestroy (box : Nat) (s : State) : Host.Outcome State Fault Refusal :=
  run s (onBox box 0x0111 (fun s => match ctxNamed s (boxWord s box 1) with
    | none => replySt box .faultFormat s
    | some c =>
      if (ctxAt s c).state ≠ 1 ∨ (box < 256 ∧ (ctxAt s c).vai ≠ box) then replySt box .denied s
      else replySt box .done (teardown c s)))

/-- TEARDOWN_DRAIN_EXPIRY (R582): requests outstanding after DRAIN_US are settled as under TAG. -/
def execTeardownDrainExpiry (c : Nat) (s : State) : Host.Outcome State Fault Refusal :=
  run s (guarded (ctxAt s c).settling (fun s =>
    teardownEnd c (abandonCtx true c (modCtx c (fun x => { x with gen := (x.gen + 1) % 256 }) s))))

/-! ## Destruction (R578-R580) -/

/-- A context is destroyed: its handle is stale, its domain is unbound, its fences lose their owner, its fault record stays until
it is read. -/
def destroyCtx (c : Nat) (s : State) : State :=
  let x := ctxAt s c
  let s := modCtx c (fun x => { gen := x.gen, hgen := (x.hgen + 1) % 256, fva := x.fva, kind := x.kind, source := x.source,
                                count := x.count, late := x.late }) s
  let s := each (keysOf s.fe.fences (fun f => f.live && f.ctx == c && !f.orphan)) (fun f s =>
    modFence f (fun y => { y with orphan := true }) s) s
  let doms := s.lce.domains.filter (fun d => decide (d.ctx ≠ c))
  let s := match x.domain with
    | some d => dropTabs d (emptyHrc x.part { s with lce := { s.lce with domains := doms } })
    | none => s
  let s := { s with csb := { s.csb with windows := s.csb.windows.filter (fun w => decide (w.ctx ≠ c)) },
                    ports := { s.ports with hostCe := sremove c s.ports.hostCe } }
  let s := each (keysOf s.arr.st (fun x => x.lastCtx == some c)) (fun p s => modArr p (fun x => { x with lastCtx := none }) s) s
  let h := handle x.hgen c
  notice 0 0x03 h (notice (1 + x.vai) 0x03 h s)

/-- OBJECT_DESTROY (R579): the object that died first is destroyed; an allocation's memory is to be zeroed. -/
def execObjectDestroy (s : State) : Host.Outcome State Fault Refusal :=
  run s (guarded (computeOn s) (fun s => match s.fe.dying with
    | [] => s
    | (alloc, i) :: rest =>
      let s := { s with fe := { s.fe with dying := rest } }
      if alloc then modAlloc i (fun a => { a with zeroing := true, gen := (a.gen + 1) % 256 }) s else destroyCtx i s))

/-- An array has a load outstanding whose data is still to be read. -/
def loadsLeft (s : State) (p : Nat × Arr → Bool) : Bool :=
  s.arr.st.any (fun x => p x && (match x.2.stall with | .load _ => true | _ => false))

/-- The load of an array reads an allocation. -/
def loadsFrom (a : Alloc) (x : Nat × Arr) : Bool :=
  match x.2.stall with
  | .load l => l.any (fun p => overlaps (p.1, p.2.2) (a.base, a.size))
  | _ => false

/-- ALLOCATION_ZEROED (R579): once no transfer of it is outstanding, the memory holds zeros and is free. -/
def execAllocationZeroed (a : Nat) (s : State) : Host.Outcome State Fault Refusal :=
  run s (guarded ((allocAt s a).zeroing && !loadsLeft s (loadsFrom (allocAt s a))) (fun s =>
    let x := allocAt s a
    let far := fun (b n : Nat) (s : State) => zeroMem b n (access .firmware 12 none true b n s)
    let s := logWrite x.base x.size (far x.base x.size s)
    let s := each x.moved (fun m s => far (m.2 * 4096) 4096 s) s
    modAlloc a (fun y => { gen := y.gen }) s))

/-! ## The allocator's commands (R571, R575, R576, R776) -/

/-- The context of a VAI's command, or its refusal. -/
def onCtx (v i : Nat) (f : Nat → State → State) (s : State) : State :=
  match boxCtx s v i with
  | .error st => replySt v st s
  | .ok c => f c s

/-- XLAT_INVAL (R571): cached translations of the range are dropped, and the transfers that used them have ended. -/
def execXlatInval (v : Nat) (s : State) : Host.Outcome State Fault Refusal :=
  run s (onBox v 0x0240 (onCtx v 1 (fun c s =>
    let va := boxPair s v 2
    if va % 4096 ≠ 0 then replySt v .faultFormat s
    else if loadsLeft s (fun x => x.2.lastCtx == some c) then s
    else replySt v .done (tlbDrop c va (boxWord s v 4) s))))

/-- MEM_ALLOC (R574-R576, R776). -/
def execMemAlloc (v : Nat) (s : State) : Host.Outcome State Fault Refusal :=
  run s (onBox v 0x0241 (onCtx v 1 (fun c s =>
    let r := heapAlloc c (boxPair s v 2) (boxWord s v 4) false s
    match r.1 with
    | .done =>
      let s := r.2.2.2
      let a := r.2.1
      replyBox v 0 (handle (allocAt s a).gen a :: words2 r.2.2.1 ++ words2 (allocAt s a).base) s
    | st => replySt v st s)))

/-- MEM_LOOKUP (R776): the allocation in which a virtual address lies. -/
def execMemLookup (v : Nat) (s : State) : Host.Outcome State Fault Refusal :=
  run s (onBox v 0x0242 (onCtx v 1 (fun c s => match allocHolding s c (boxPair s v 2) with
    | some a => replyBox v 0 (handle (allocAt s a).gen a :: words2 (allocAt s a).base) s
    | none => replySt v .faultFormat s)))

/-- The allocation that a handle names, of this VAI. -/
def onAlloc (v : Nat) (f : Nat → State → State) (s : State) : State :=
  match allocOf s (boxWord s v 1) with
  | none => replySt v .faultFormat s
  | some a => if (allocAt s a).vai ≠ v then replySt v .denied s else f a s

/-- MEM_SHARE (R776): the allocation is mapped into another context of the VAI. -/
def execMemShare (v : Nat) (s : State) : Host.Outcome State Fault Refusal :=
  run s (onBox v 0x0243 (onAlloc v (fun a s => match boxCtx s v 2 with
    | .error _ => replySt v .denied s
    | .ok c =>
      if (ctxAt s c).heapGib = 0 ∨ (allocAt s a).dying then replySt v .denied s
      else match mapAlloc a c s with
        | some (va, s) => replyBox v 0 (words2 va) s
        | none => replySt v .busy s)))

/-- MEM_UNMAP (R575, R776): as FREE, for a named context. -/
def execMemUnmap (v : Nat) (s : State) : Host.Outcome State Fault Refusal :=
  run s (onBox v 0x0244 (onCtx v 1 (fun c s =>
    if loadsLeft s (fun x => x.2.lastCtx == some c) then s
    else
      let r := heapFree c (boxPair s v 2) s
      replySt v r.1 r.2)))

/-- MEM_REF (R578, R776). -/
def execMemRef (v : Nat) (s : State) : Host.Outcome State Fault Refusal :=
  run s (onBox v 0x0245 (onAlloc v (fun a s =>
    let x := allocAt s a
    if x.dying then replySt v .denied s
    else if x.maps.length + x.host = 2 ^ 32 - 1 then replySt v .busy s
    else replySt v .done (modAlloc a (fun x => { x with host := x.host + 1 }) s))))

/-- MEM_UNREF (R776). -/
def execMemUnref (v : Nat) (s : State) : Host.Outcome State Fault Refusal :=
  run s (onBox v 0x0246 (onAlloc v (fun a s =>
    if (allocAt s a).host = 0 then replySt v .denied s
    else replySt v .done (allocCheck a (modAlloc a (fun x => { x with host := x.host - 1 }) s)))))

/-! ## Tally words and barrier channels (R542, R546, R547, R656) -/

/-- TW_SET (R542): a granted word takes a value, with everything that follows a change of it. -/
def execTwSet (v : Nat) (s : State) : Host.Outcome State Fault Refusal :=
  run s (onBox v 0x0230 (fun s =>
    let i := boxWord s v 1
    if twGranted s v i then replySt v .done (tallySet i (w32 (boxWord s v 2)) 0x6 v s) else replySt v .denied s))

/-- TW_GET (R656): the value of a granted word. -/
def execTwGet (v : Nat) (s : State) : Host.Outcome State Fault Refusal :=
  run s (onBox v 0x0231 (fun s =>
    let i := boxWord s v 1
    if twGranted s v i then replyBox v 0 [(twAt s i).toNat] s else replySt v .denied s))

/-- A barrier channel that is granted to the VAI and on which no task waits. -/
def onBar (v : Nat) (f : Nat → State → State) (s : State) : State :=
  let k := boxWord s v 1
  let b := barAt s k
  if !b.granted ∨ b.vai ≠ v then replySt v .denied s
  else if !b.waiters.isEmpty then replySt v .busy s
  else f k s

/-- BARRIER_BIND (R547): the channel is bound, or bound anew, to a context; its generation is kept. -/
def execBarrierBind (v : Nat) (s : State) : Host.Outcome State Fault Refusal :=
  run s (onBox v 0x0232 (fun s => match boxCtx s v 2 with
    | .error st => replySt v st s
    | .ok c => onBar v (fun k s =>
        let s := if (barAt s k).state = 0 then s else unbindBar k s
        let n := boxWord s v 3
        replySt v .done (ctxTake c (modBar k (fun b =>
          { b with state := 1, ctx := c, countM1 := n, arrived := 0, waiters := [] }) s))) s))

/-- BARRIER_UNBIND (R547). -/
def execBarrierUnbind (v : Nat) (s : State) : Host.Outcome State Fault Refusal :=
  run s (onBox v 0x0233 (onBar v (fun k s =>
    if (barAt s k).state = 0 then replySt v .denied s else replySt v .done (unbindBar k s))))

end Sys2Proof.Machine
end

