-- ==== Sys2Proof/Machine/EqiOps.lean ====
section
/-!
DEFINITION. How a queue accepts the command at its head (R439, R445, R446, R777), its completion entries (R473-R477), and the
graph image (R451-R455).
-/
namespace Sys2Proof.Machine
open Sys2Proof

/-! ## Acceptance -/

/-- A queue is resident in a slot (R488). -/
def resident (s : State) (q : Nat) : Bool := s.fe.slot.any (fun p => p.2.valid && p.2.queue == q)

/-- Launches of a queue that are in flight (R458). -/
def launchesOf (s : State) (q : Nat) : List Launch := s.fe.launches.filter (fun x => decide (x.queue = q))

/-- A launch may start: without ORDERED at once, with it once every earlier command has completed (R445). -/
def launchStarts (s : State) (x : Launch) : Bool :=
  match cmdOf s x.queue x.cmd with
  | some e => !bit e.flags 1 || !(queueAt s x.queue).cmds.any (fun d => decide (d.id < e.id))
  | none => false

/-- A launch that has started waits for a walker: the queue accepts nothing (R494). -/
def walkerWait (s : State) (q : Nat) : Bool := (launchesOf s q).any (fun x => x.walker.isNone && launchStarts s x)

/-- A queue accepts its head command now. -/
def accepts (s : State) (q : Nat) : Bool :=
  let x := queueAt s q
  computeOn s && x.state == .ready && resident s q && !x.cqFull && x.guilty.isNone && x.held.isNone && x.sqHead != x.sqTail &&
    !walkerWait s q

/-- The head command has been copied: Q_SQ_HEAD passes it (R439). -/
def passHead (x : Queue) : Queue :=
  let h := (x.sqHead + 1) % 2 ^ 32
  { x with sqHead := h, published := x.published.dropWhile (fun d => decide (d.1 = h)), launchHead := false }

/-- A ring slot that cannot be read: the fault is recorded, the queue is guilty, the command stays at its head (R777). -/
def badSlot (q kind va : Nat) (s : State) : State :=
  let x := queueAt s q
  let s := recordFault x.ctx kind 5 va s
  let s := markGuilty q .faultAddress x.sqHead 0x11 (detailOf x.ctx va) s
  owe q { cmd := s.fe.cmdCtr, status := .faultAddress, flags := 0, gen := x.gen, code := 0, tag := 0, start := beat s,
          fin := beat s, cycles := 0, pos := x.sqHead, ring := x.sqHead } s

/-- Bits of FLAGS that a command defines (R443). -/
def flagsOk (code fl : Nat) : Bool := decide (fl < (if code = 1 ∨ code = 4 ∨ code = 5 then 8 else 4))

/-- The fields of a command that are reserved are 0 (R443, R444); the record of a TASK is checked as such. -/
def cmdOk (l : List Byte) : Bool :=
  let code := byteAt l 0
  let head := byteAt l 3 == 0 && flagsOk code (byteAt l 2) && (code == 1 || byteAt l 1 == 0)
  match code with
  | 0 => head && zeroAt l 8 56
  | 1 => recordOk l
  | 2 => head && zeroAt l 12 52
  | 3 => head && decide (fieldAt l 12 2 < 256) && zeroAt l 14 2 && fieldAt l 16 8 % 16 == 0 && zeroAt l 24 40
  | 4 => head && zeroAt l 12 4 && zeroAt l 24 40
  | 5 => head && zeroAt l 12 4 && zeroAt l 24 40
  | _ => false

/-- The entry of the command in the bytes of a slot. -/
def slotCmd (s : State) (q : Nat) (l : List Byte) : CmdEnt :=
  { newCmd s q (byteAt l 0) (byteAt l 2) (w32 (fieldAt l 4 4)) (some (queueAt s q).sqHead) with
    fence := fieldAt l 8 4, graph := fieldAt l 8 4, value := w64 (fieldAt l 16 8), recVa := fieldAt l 16 8,
    count := fieldAt l 12 2 + 1 }

/-- The block reads the slot at the head. `code` says which commands this step accepts; `f` performs a command that is well
formed; a malformed one completes with FAULT_FORMAT (R446). -/
def acceptCmd (q : Nat) (code : Nat → Bool) (host : HostData) (f : List Byte → CmdEnt → State → State) (s : State) : State :=
  if !accepts s q then s
  else
    let x := queueAt s q
    let va := x.sqVa + 64 * (x.sqHead % 2 ^ x.sqLog)
    reading (queueKey q) .front 0 0 x.ctx va 64 (fun s => match readCtl s .front x.ctx va 64 host with
      | .error k => badSlot q k va s
      | .ok (l, bad) =>
        if !code (byteAt l 0) then s
        else
          let e := slotCmd s q l
          let s := modQueue q passHead (touchCtl .front x.ctx va 64 host s)
          if bad || !cmdOk l then cmdFault q e.id .faultFormat (addCmd q e s) else f l e s) s

/-- A command whose operand names nothing is malformed. -/
def acceptBad (q : Nat) (e : CmdEnt) (s : State) : State := cmdFault q e.id .faultFormat (addCmd q e s)

/-! ## PATCH (R459-R463) -/

/-- A buffer of a graph is free: no launch holds it (R460). -/
def bufFree (s : State) (g : Nat) (b : Bool) : Bool := !s.fe.launches.any (fun x => decide (x.graph = g ∧ x.buf = b))

/-- Records of 16 bytes. -/
def patchRecords (n : Nat) (l : List Byte) : List (List Byte) := (List.range n).map (fun i => (l.drop (16 * i)).take 16)

/-- A patch record names an index of the graph, its reserved bytes 0 (R462). -/
def patchOk (count : Nat) (r : List Byte) : Bool := decide (fieldAt r 0 2 < count) && zeroAt r 2 6

/-- The values after the records, in their order. -/
def patched (l : List (List Byte)) (v : List W64) : List W64 :=
  l.foldl (fun v r => lset v (fieldAt r 0 2) (w64 (fieldAt r 8 8))) v

/-- The values of a buffer. -/
def bufOf (g : Graph) (b : Bool) : List W64 := if b then g.buf1 else g.buf0

/-- The buffer takes the values and becomes current. -/
def putBuf (b : Bool) (v : List W64) (g : Graph) : Graph :=
  if b then { g with buf1 := v, cur := true } else { g with buf0 := v, cur := false }

/-- Which buffer a PATCH writes: the other one, else the current one, else none. -/
def patchBuf (s : State) (i : Nat) : Option Bool :=
  let g := graphAt s i
  if bufFree s i !g.cur then some !g.cur else if bufFree s i g.cur then some g.cur else none

/-- A PATCH that was refused: its entry is written and the queue stops with it at the head (R463). -/
def patchBusy (q : Nat) (e : CmdEnt) (s : State) : State :=
  modQueue q (fun x => { x with state := .stopped, held := some e, heldDone := true }) (owe q (cmdEntry s e .busy 0) s)

/-- A PATCH is performed. -/
def doPatch (q : Nat) (recs : HostData) (e : CmdEnt) (s : State) : State :=
  let c := (queueAt s q).ctx
  match graphOf s e.graph with
  | none => acceptBad q e s
  | some i =>
    let g := graphAt s i
    if g.ctx ≠ c then acceptBad q e s
    else match readCtl s .front c e.recVa (16 * e.count) recs with
      | .error k => cmdFault q e.id .faultAddress (recordFault c k 5 e.recVa (addCmd q e s))
      | .ok (l, bad) =>
        let s := touchCtl .front c e.recVa (16 * e.count) recs s
        let rs := patchRecords e.count l
        if bad ∨ ¬ rs.all (patchOk g.buf0.length) then acceptBad q e s
        else match patchBuf s i with
          | none => patchBusy q e s
          | some b =>
            let v := patched rs (bufOf g g.cur)
            settle q (addCmd q { e with own := some .done } (modGraph i (putBuf b v) s))

/-! ## Completion entries -/

/-- RATE_MAX in steps of 100 MHz (R764). -/
def rateMax (s : State) : Nat := max 10 (min 30 (field (regGet s 0x1100004) 27 5))

/-- Beats per round in force. -/
def roundBeats (s : State) : Nat := s.fe.round + 1

/-- The quantum of cycles of a partition (R755). -/
def cycleQ (s : State) (p : Nat) : Nat :=
  if confPart s p then max 1 (enabledIn s p * rateMax s * 1024 * roundBeats s / 640) else 1

/-- The bytes of a completion entry at ring position k (R473); a confidential VAI's beats and cycles are coarsened (R754). -/
def cqeBytes (s : State) (x : Queue) (c : Cqe) : List Byte :=
  let conf := confVai s x.vai
  let r := roundBeats s
  let phase := phaseOf x.cqLog x.cqTail
  let start := if conf then alignDown c.start r else c.start
  let fin := if conf then alignUp c.fin r else c.fin
  let cyc := if conf then alignUp c.cycles (cycleQ s (vaiAt s x.vai).part) else c.cycles
  leBytes 1 c.status.code ++ leBytes 1 (phase + c.flags + (if conf then 16 else 0)) ++ leBytes 1 c.gen ++ leBytes 1 c.code ++
    leBytes 4 c.tag.toNat ++ leBytes 6 start ++ leBytes 6 fin ++ leBytes 6 (sat 48 cyc) ++ leBytes 6 c.pos

/-- The writes of the work that an entry must follow are acknowledged: an engine's to block-local addresses (R475), and in GLOBAL mode
those of R476. -/
def entryClear (s : State) (q : Nat) (c : Cqe) : Bool :=
  !s.rg.held.any (fun h => match h.2 with | .eap _ _ _ _ true o => o == some (q, c.cmd) | _ => false) && (!(queueAt s q).global || !useLeft s (fun u => match u with | .update k i => k == q && i == c.cmd | _ => false))

/-- Write the oldest entry that is due, or hold it: the ring is full, or its slot no longer translates (R440, R777). -/
def writeEntry (q : Nat) (s : State) : State :=
  let x := queueAt s q
  match x.due with
  | [] => s
  | c :: rest =>
    let va := x.cqVa + 32 * (x.cqTail % 2 ^ x.cqLog)
    if !entryClear s q c then s
    else if 2 ^ x.cqLog ≤ (x.cqTail + 2 ^ 32 - x.cqHead) % 2 ^ 32 then modQueue q (fun x => { x with cqFull := true }) s
    else match xlRange s .front x.ctx va 32 .write with
      | some k =>
        let s := recordFault x.ctx k.1 5 k.2 (modQueue q (fun x => { x with cqFull := true }) s)
        reportCe 7 q 0x07 (detailOf x.ctx k.2) s
      | none =>
        let s := writeCtl .front x.ctx va (cqeBytes s x c) s
        let s := if x.armed then arrive (64 + q) s else s
        modQueue q (fun x => { x with
          due := rest, cqTail := (x.cqTail + 1) % 2 ^ 32, cqFull := false, armed := false,
          lastStatus := if c.status = .done then x.lastStatus else c.status.code % 256,
          faultPos := if c.status = .done then x.faultPos else c.ring % 2 ^ 32 }) s

/-! ## Graph images (R451-R455) -/

/-- The numbers of an image's arrays. -/
structure Image where
  nodes  : List Node
  preds  : List Nat
  points : List PatchPoint
  values : List W64
deriving DecidableEq, Repr

/-- Byte array [off, off + n) lies in an image of `size` bytes, aligned to 8. -/
def partIn (size off n : Nat) : Bool := off % 8 == 0 && decide (off + n ≤ size)

/-- A node entry (R453): its record with its successors taken from the edge array. -/
def imageNode (edges : List Nat) (l : List Byte) : Node :=
  { record := l.take 64, preds := fieldAt l 64 2, succ := (edges.drop (fieldAt l 68 4)).take (fieldAt l 66 2), taint := bit (byteAt l 72) 0 }

/-- A node entry is well formed. -/
def nodeOk (edges : Nat) (l : List Byte) : Bool :=
  recordOk (l.take 64) && !bit (byteAt l 2) 1 && decide (fieldAt l 68 4 + fieldAt l 66 2 ≤ edges) && decide (byteAt l 72 < 2) &&
    zeroAt l 73 55

/-- A patch point is well formed (R454). -/
def pointOk (nodes patches : Nat) (l : List Byte) : Bool :=
  decide (fieldAt l 0 2 < nodes) && byteAt l 2 % 8 == 0 && decide (8 ≤ byteAt l 2) && decide (byteAt l 2 ≤ 56) && zeroAt l 3 1 &&
    decide (fieldAt l 4 2 < patches) && zeroAt l 6 2

/-- Remove, round by round, the nodes that no remaining node names; a graph without a cycle loses all of them. -/
def acyclic (fuel : Nat) (l : List (Nat × Node)) : Bool :=
  match fuel with
  | 0 => l.isEmpty
  | k + 1 =>
    let keep := l.filter (fun n => l.any (fun m => m.2.succ.contains n.1))
    keep.isEmpty || (decide (keep.length < l.length) && acyclic k keep)

/-- The header of an image is well formed (R452). -/
def imageHead (h : List Byte) : Bool :=
  let n := fieldAt h 0 2
  let size := fieldAt h 12 4
  decide (1 ≤ n) && decide (n ≤ 4096) && decide (fieldAt h 2 2 ≤ 256) && decide (fieldAt h 4 2 ≤ 1024) && zeroAt h 6 2 &&
    decide (fieldAt h 8 4 ≤ 65536) && decide (size ≤ 16 * 2 ^ 20) && decide (64 + 128 * n ≤ size) &&
    partIn size (fieldAt h 16 4) (2 * fieldAt h 8 4) && partIn size (fieldAt h 20 4) (8 * fieldAt h 4 2) &&
    partIn size (fieldAt h 24 4) (8 * fieldAt h 2 2) && zeroAt h 28 36

/-- The graph that an image holds, when it is well formed (R455). -/
def imageOf (l : List Byte) : Option Image :=
  let n := fieldAt l 0 2
  let edges := (chunks 2 (fieldAt l 8 4) ((l.drop (fieldAt l 16 4)).take (2 * fieldAt l 8 4))).map leNat
  let raw := chunks 128 n ((l.drop 64).take (128 * n))
  let pts := chunks 8 (fieldAt l 4 2) ((l.drop (fieldAt l 20 4)).take (8 * fieldAt l 4 2))
  let nodes := raw.map (imageNode edges)
  let named := nodes.map (fun x => x.succ)
  let count := fun (i : Nat) => (named.map (fun t => (t.filter (fun j => j == i)).length)).foldl (fun a b => a + b) 0
  let numbered := (List.range n).zip nodes
  let good := raw.all (nodeOk edges.length) && pts.all (pointOk n (fieldAt l 2 2)) &&
    named.all (fun t => t.all (fun j => decide (j < n))) && numbered.all (fun x => x.2.preds == count x.1) && acyclic n numbered
  if good then
    some { nodes := nodes, preds := nodes.map (fun x => x.preds),
           points := pts.map (fun p => { node := fieldAt p 0 2, offset := byteAt p 2, patch := fieldAt p 4 2 }),
           values := (chunks 8 (fieldAt l 2 2) ((l.drop (fieldAt l 24 4)).take (8 * fieldAt l 2 2))).map (fun b => w64 (leNat b)) }
  else none

/-- Keep a graph in the store of its context, or find no room. -/
def storeGraph (c : Nat) (x : Image) (bytes : Nat) (s : State) : Option (Nat × State) :=
  let v := (ctxAt s c).vai
  let n := alignUp bytes 4096
  if 1024 ≤ (keysOf s.fe.graphs (fun g => g.live && g.ctx == c)).length then none
  else match placeAt true v n 4096 (placedRanges s true) s with
    | none => none
    | some (a, s) => match chooseFree (fun g => !(graphAt s g).live) 65536 s with
      | none => none
      | some (g, s) => some (g, ctxTake c (modGraph g (fun y =>
          { live := true, gen := y.gen, ctx := c, nodes := x.nodes, points := x.points, buf0 := x.values, buf1 := x.values,
            refs := 1, created := true, bytes := n, place := a }) s))

end Sys2Proof.Machine
end

