-- ==== Sys2Proof/Machine/Eqi.lean ====
section
/-!
DEFINITION. Doorbells, queues, commands and completion entries of the EQI (R434-R479).
-/
namespace Sys2Proof.Machine
open Sys2Proof

/-! ## Doorbells (R434, R435, R439-R442) -/

/-- A doorbell write is discarded and counted. -/
def dropBell (q : Nat) (s : State) : State := modQueue q (fun x => { x with drops := sat 32 (x.drops + 1) }) s

/-- A doorbell that is discarded with a CE. -/
def strayBell (q : Nat) (s : State) : State := reportCe 7 q 0x05 0 (dropBell q s)

/-- A doorbell write to page queue index i of VAI v. -/
def doorbell (v i : Nat) (f : Nat → State → State) (s : State) : State :=
  guarded (inService s && decide (v < 256) && decide (i < 64)) (fun s =>
    if resetWindow s then hostCe s
    else match queueOfPage s v i with
      | none => modVai v (fun x => { x with drops := sat 32 (x.drops + 1) }) s
      | some q =>
        let t := (queueAt s q).state
        if (vaiAt s v).state = 2 ∨ (vaiAt s v).restoring = true ∨ t = .resetting ∨ t = .fenced ∨ t = .busy then dropBell q s
        else f q s) s

/-- DB_SQ_TAIL (R439): the tail moves on and publishes commands; one that moves back or beyond the ring is discarded. -/
def execDbSqTail (v q : Nat) (val : W32) (s : State) : Host.Outcome State Fault Refusal :=
  run s (doorbell v q (fun q s =>
    let x := queueAt s q
    let t := val.toNat
    if 2 ^ 31 ≤ (t + 2 ^ 32 - x.sqTail) % 2 ^ 32 ∨ 2 ^ x.sqLog < (t + 2 ^ 32 - x.sqHead) % 2 ^ 32 then strayBell q s
    else if t = x.sqTail then s
    else modQueue q (fun x => { x with sqTail := t, published := x.published ++ [(t, beat s)] }) s))

/-- DB_CQ_HEAD (R440, R777): entries are consumed; a held entry is tried again. -/
def execDbCqHead (v q : Nat) (val : W32) (s : State) : Host.Outcome State Fault Refusal :=
  run s (doorbell v q (fun q s =>
    let x := queueAt s q
    if (x.cqTail + 2 ^ 32 - x.cqHead) % 2 ^ 32 < (val.toNat + 2 ^ 32 - x.cqHead) % 2 ^ 32 then dropBell q s
    else
      let s := modQueue q (fun x => { x with cqHead := val.toNat }) s
      if x.cqFull then writeEntry q s else s))

/-- DB_ARM (R434, R441): one event record when the queue has or gets an entry. -/
def execDbArm (v q : Nat) (val : W32) (s : State) : Host.Outcome State Fault Refusal :=
  run s (doorbell v q (fun q s =>
    let x := queueAt s q
    if 1 < val.toNat then strayBell q s
    else if val = 0 then s
    else if x.cqTail ≠ x.cqHead then arrive (64 + q) s
    else modQueue q (fun x => { x with armed := true }) s))

/-! ## Queues (R436-R438, R442) -/

/-- A ring lies wholly in host memory or in block-local far tier. -/
def ringOk (s : State) (c va n : Nat) (acc : Acc) : Bool :=
  let ps := (spansOf 4096 va n).map (fun p => xl s .front c p.1 p.2 acc)
  ps.all (fun r => match r with | .ok 0 a => isFar a | _ => false) || ps.all (fun r => match r with | .ok 1 _ => true | _ => false)

/-- The descriptor of a queue is well formed (R437). -/
def queueOk (c : Nat) (d : List Byte) : Bool :=
  let sq := byteAt d 16
  let cq := byteAt d 17
  fieldAt d 0 8 % 64 == 0 && fieldAt d 8 8 % 64 == 0 && decide (6 ≤ sq) && decide (sq ≤ 16) && decide (6 ≤ cq) && decide (cq ≤ 16) &&
    decide (byteAt d 18 < 32) && decide (byteAt d 19 < 16) && fieldAt d 20 2 == c && decide (byteAt d 22 < 64) && zeroAt d 23 41

/-- Queues of a VAI. -/
def queuesOf (s : State) (v : Nat) : List Nat := keysOf s.fe.q (fun x => x.state != .unused && x.vai == v)

/-- The checks of R438 in their order, then the creation: the queue's event source is unmasked (R641). -/
def queueCreate (v c : Nat) (host : HostData) (s : State) : State :=
  let va := boxPair s v 2
  reading (boxKey v) .front 0 0 c va 64 (fun s => match readCtl s .front c va 64 host with
  | .error _ => replySt v .faultAddress s
  | .ok (d, bad) =>
    let s := touchCtl .front c va 64 host s
    let sq := fieldAt d 0 8
    let cq := fieldAt d 8 8
    if bad ∨ va % 64 ≠ 0 ∨ ¬ queueOk c d then replySt v .faultFormat s
    else if ¬(ringOk s c sq (64 * 2 ^ byteAt d 16) .read ∧ ringOk s c cq (32 * 2 ^ byteAt d 17) .write) then
      replySt v .faultAddress s
    else if (queueOfPage s v (byteAt d 22)).isSome then replySt v .denied s
    else if (vaiAt s v).queues ≤ (queuesOf s v).length then replySt v .busy s
    else match chooseFree (fun q => (queueAt s q).state == .unused) 768 s with
      | none => replySt v .busy s
      | some (q, s) =>
        let s := modQueue q (fun _ =>
          { state := .ready, vai := v, ctx := c, idx := byteAt d 22, sqVa := sq, cqVa := cq, sqLog := byteAt d 16, cqLog := byteAt d 17,
            depth := byteAt d 18 % 16, global := bit (byteAt d 18) 4, cls := byteAt d 19, created := true }) s
        replyBox v 0 [q] (ctxTake c (modSrc (64 + q) (fun x => { x with mask := false }) s))) s

/-- QUEUE_CREATE (R438). -/
def execQueueCreate (v : Nat) (host : HostData) (s : State) : Host.Outcome State Fault Refusal :=
  run s (onBox v 0x0200 (fun s => match boxCtx s v 1 with
    | .error st => replySt v st s
    | .ok c => queueCreate v c host s) )

/-- The queue that word 1 names is one of the VAI. -/
def onQueue (v : Nat) (f : Nat → State → State) (s : State) : State :=
  let q := boxWord s v 1
  if q < 768 ∧ (queueAt s q).state ≠ .unused ∧ (queueAt s q).vai = v then f q s else replySt v .denied s

/-- QUEUE_DESTROY (R436, R471, R577, R578): the queue goes with its work; its pending SIGNALs set ABANDONED. A queue of a context
that is being torn down has lost its creation reference. -/
def execQueueDestroy (v : Nat) (s : State) : Host.Outcome State Fault Refusal :=
  run s (onBox v 0x0201 (onQueue v (fun q s =>
    if (queueAt s q).state = .fenced then replySt v .denied s
    else replySt v .done (refillAll (reissueAll (destroyQueue q (abandonQueue false 0x3FF q s)))))))

/-- The held WAIT of a queue is performed again: a new acceptance of the command. -/
def holdWait (q : Nat) (e : CmdEnt) (s : State) : State :=
  match fenceOf s e.fence with
  | none => acceptBad q e s
  | some f =>
    if (fenceAt s f).vai ≠ (queueAt s q).vai then acceptBad q e s
    else
      let s := { s with fe := { s.fe with cmdCtr := s.fe.cmdCtr + 1 } }
      let s := modFence f (fun x => { x with refs := x.refs + 1 }) s
      testWait f q (modQueue q (fun x => { x with held := some e, heldDone := false }) s)

/-- QUEUE_RESUME on a STOPPED queue: SKIP drops the head command; otherwise a WAIT that stopped the queue is performed again at
once and a PATCH by its own step. -/
def queueResume (q : Nat) (skip : Bool) (s : State) : State :=
  let x := queueAt s q
  match x.held with
  | some e =>
    let s := modQueue q (fun x => { x with state := .ready }) s
    if skip then
      let s := if e.code = 4 ∧ x.heldDone = false then fenceDrop (handleIdx e.fence) s else s
      modQueue q (fun x => { x with held := none, heldDone := false }) s
    else if e.code = 4 then
      (if x.heldDone then
        holdWait q { e with id := s.fe.cmdCtr, gen := x.gen, start := beat s, age := beat s }
          (modQueue q (fun x => { x with held := none, heldDone := false }) s)
      else testWait (handleIdx e.fence) q s)
    else modQueue q (fun x => { x with heldDone := false }) s
  | none =>
    let s := modQueue q (fun x => { x with state := .ready }) s
    if skip ∧ x.sqHead ≠ x.sqTail then modQueue q passHead s else s

/-- QUEUE_RESUME (R442). -/
def execQueueResume (v : Nat) (s : State) : Host.Outcome State Fault Refusal :=
  run s (onBox v 0x0202 (onQueue v (fun q s =>
    if (queueAt s q).state = .resetting then replySt v .busy s
    else if (queueAt s q).state ≠ .stopped then replySt v .denied s
    else replySt v .done (queueResume q (bit (boxWord s v 2) 0) s))))

/-! ## Commands (R443-R471) -/

/-- NOP_COMMAND (R445, R446): a NOP completes at acceptance, or after every earlier command. A slot whose CMD is reserved is taken
by this step too and is malformed. -/
def execNopCommand (q : Nat) (host : HostData) (s : State) : Host.Outcome State Fault Refusal :=
  run s (acceptCmd q (fun c => c == 0 || decide (6 ≤ c)) host (fun _ e s => settle q (addCmd q e s)))

/-- TASK (R445, R447, R450): the task takes its SEQ; it goes to dispatch, when ORDERED after every earlier command. -/
def execTask (q : Nat) (host : HostData) (s : State) : Host.Outcome State Fault Refusal :=
  run s (guarded (!dispatchFull s (partOfCtx s (queueAt s q).ctx)) (acceptCmd q (fun c => c == 1) host (fun l e s =>
    let s := addCmd q { e with seq := some (nextSeq s) } s
    issueTask l q (queueAt s q).ctx e.id none false false false s)))

/-- A LAUNCH at the head of a queue with 16 launches in flight waits at acceptance (R458); its queue needs no slot (R491). -/
def holdLaunch (q : Nat) (host : HostData) (s : State) : State :=
  if !accepts s q then s
  else
    let x := queueAt s q
    let va := x.sqVa + 64 * (x.sqHead % 2 ^ x.sqLog)
    reading (queueKey q) .front 0 0 x.ctx va 64 (fun s => match readCtl s .front x.ctx va 64 host with
      | .ok (l, _) => if byteAt l 0 = 2 then modQueue q (fun x => { x with launchHead := true }) s else s
      | .error _ => s) s

/-- LAUNCH (R456, R458, R460): the launch takes the current buffer and a reference to its graph. A seventeenth one waits. -/
def execLaunch (q : Nat) (host : HostData) (s : State) : Host.Outcome State Fault Refusal :=
  run s (fun s => if 16 ≤ (launchesOf s q).length then holdLaunch q host s else (acceptCmd q (fun c => c == 2) host (fun _ e s =>
    match graphOf s e.graph with
    | none => acceptBad q e s
    | some g =>
      let y := graphAt s g
      if y.ctx ≠ (queueAt s q).ctx then acceptBad q e s
      else
        let id := s.fe.launchCtr
        let x : Launch := { id := id, queue := q, cmd := e.id, graph := g, buf := y.cur, nodes := y.nodes.map (fun n => .waiting n.preds) }
        let s := { s with fe := { s.fe with launches := s.fe.launches ++ [x], launchCtr := id + 1 } }
        addCmd q { e with launch := id } (modGraph g (fun y => { y with refs := y.refs + 1 }) s)) s))

/-- Go on once the slot at the head and, where it holds a PATCH, its records are at hand. -/
def readingPatch (q : Nat) (host : HostData) (f : State → State) (s : State) : State :=
  if !accepts s q then s
  else
    let x := queueAt s q
    let va := x.sqVa + 64 * (x.sqHead % 2 ^ x.sqLog)
    reading (queueKey q) .front 0 0 x.ctx va 64 (fun s => match readCtl s .front x.ctx va 64 host with
      | .ok (l, false) =>
        if byteAt l 0 = 3 ∧ cmdOk l = true then
          reading (queueKey q) .front 0 0 x.ctx (fieldAt l 16 8) (16 * (fieldAt l 12 2 + 1)) f s
        else f s
      | _ => f s) s

/-- PATCH (R445, R461-R463): performed at acceptance, or again when the queue was stopped by it and has been resumed. -/
def execPatch (q : Nat) (host recs : HostData) (s : State) : Host.Outcome State Fault Refusal :=
  run s (fun s =>
    let x := queueAt s q
    match x.held with
    | some e =>
      if e.code = 3 ∧ x.heldDone = false ∧ x.state = .ready ∧ computeOn s ∧ x.guilty = none ∧ x.cqFull = false then
        let e := { e with id := s.fe.cmdCtr, gen := x.gen, start := beat s, age := beat s }
        reading (queueKey q) .front 0 0 x.ctx e.recVa (16 * e.count) (fun s =>
          doPatch q recs e (modQueue q (fun x => { x with held := none, heldDone := false }) s)) s
      else s
    | none => readingPatch q host (acceptCmd q (fun c => c == 3) host (fun _ e s => doPatch q recs e s)) s)

/-- WAIT_COMMAND (R445, R469): the WAIT holds the queue until its fence has reached VALUE or has an error. -/
def execWaitCommand (q : Nat) (host : HostData) (s : State) : Host.Outcome State Fault Refusal :=
  run s (acceptCmd q (fun c => c == 4) host (fun _ e s => holdWait q e s))

/-- SIGNAL_COMMAND (R470): the SIGNAL is accepted and takes a reference to its fence. -/
def execSignalCommand (q : Nat) (host : HostData) (s : State) : Host.Outcome State Fault Refusal :=
  run s (acceptCmd q (fun c => c == 5) host (fun _ e s => match fenceOf s e.fence with
    | none => acceptBad q e s
    | some f =>
      if (fenceAt s f).vai ≠ (queueAt s q).vai then acceptBad q e s
      else addCmd q e (modFence f (fun x => { x with refs := x.refs + 1 }) s)))

/-- A SIGNAL can be performed (R445, R470, R476): every earlier command has completed and its entry is written; with GLOBAL the
writes of earlier commands are acknowledged. -/
def signalReady (s : State) (q : Nat) (e : CmdEnt) : Bool :=
  let x := queueAt s q
  !x.due.any (fun c => decide (c.cmd < e.id)) && (!(x.global || bit e.flags 2) ||
    !useLeft s (fun u => match u with | .update k i => k == q && decide (i < e.id) | _ => false))

/-- SIGNAL_PERFORM (R470): the oldest command of the queue is a SIGNAL; it signals its fence and completes. -/
def execSignalPerform (q : Nat) (s : State) : Host.Outcome State Fault Refusal :=
  run s (guarded (computeOn s) (fun s => match (queueAt s q).cmds with
    | e :: _ =>
      if e.code = 5 ∧ e.own = none ∧ signalReady s q e ∧ (queueAt s q).state ≠ .resetting then
        completeCmd q e .done (fenceSignal (handleIdx e.fence) e.value s)
      else s
    | [] => s))

/-- COMPLETION_ENTRY_WRITE (R440, R473-R476): the oldest entry that is due is written. While an entry waits for room the step does
nothing: a doorbell tries again. -/
def execCompletionEntryWrite (q : Nat) (s : State) : Host.Outcome State Fault Refusal :=
  run s (guarded (!(queueAt s q).cqFull && computeOn s) (writeEntry q))

end Sys2Proof.Machine
end

