-- ==== Sys2Proof/Machine/Objects.lean ====
section
/-!
DEFINITION. Graphs, fences and handoff queues on the VAI mailbox (R451-R455, R467-R472, R480, R551-R553, R578, R657).
-/
namespace Sys2Proof.Machine
open Sys2Proof

/-! ## Graphs -/

/-- The checks of R455, then the copy into the context's graph store. -/
def graphRegister (v c : Nat) (host : HostData) (s : State) : State :=
  let va := boxPair s v 2
  reading (boxKey v) .front 0 0 c va 64 (fun s => match readCtl s .front c va 64 host with
    | .error _ => replySt v .faultAddress s
    | .ok (h, bad) =>
      let size := fieldAt h 12 4
      if bad ∨ ¬ imageHead h then replySt v .faultFormat (touchCtl .front c va 64 host s)
      else reading (boxKey v) .front 0 0 c va size (fun s => match readCtl s .front c va size host with
        | .error _ => replySt v .faultAddress s
        | .ok (l, bad) =>
          let s := touchCtl .front c va size host s
          match if bad then none else imageOf l with
          | none => replySt v .faultFormat s
          | some x => match storeGraph c x size s with
            | none => replySt v .busy s
            | some (g, s) => replyBox v 0 [handle (graphAt s g).gen g] s) s) s

/-- GRAPH_REGISTER (R451-R455). -/
def execGraphRegister (v : Nat) (host : HostData) (s : State) : Host.Outcome State Fault Refusal :=
  run s (onBox v 0x0210 (fun s => match boxCtx s v 1 with
    | .error st => replySt v st s
    | .ok c => graphRegister v c host s))

/-- GRAPH_RELEASE (R451, R578): the registration reference drops; the graph goes with its last launch. -/
def execGraphRelease (v : Nat) (s : State) : Host.Outcome State Fault Refusal :=
  run s (onBox v 0x0211 (fun s => match graphOf s (boxWord s v 1) with
    | none => replySt v .faultFormat s
    | some g =>
      if (ctxAt s (graphAt s g).ctx).vai ≠ v ∨ (graphAt s g).created = false then replySt v .denied s
      else replySt v .done (graphDrop g (modGraph g (fun x => { x with created := false }) s))))

/-! ## Fences -/

/-- Fences of a VAI. -/
def fencesOf (s : State) (v : Nat) : List Nat := keysOf s.fe.fences (fun f => f.live && f.vai == v)

/-- FENCE_CREATE (R467, R597). -/
def execFenceCreate (v : Nat) (s : State) : Host.Outcome State Fault Refusal :=
  run s (onBox v 0x0220 (fun s => match boxCtx s v 1 with
    | .error st => replySt v st s
    | .ok c =>
      let mirror := boxPair s v 4
      if mirror % 16 ≠ 0 then replySt v .faultFormat s
      else if mirror ≠ 0 ∧ sealCovers s v mirror = true then replySt v .denied s
      else if (vaiAt s v).fences ≤ (fencesOf s v).length then replySt v .busy s
      else
        let value := w64 (boxPair s v 2)
        let event := bit (boxWord s v 6) 0
        match chooseFree (fun f => !(fenceAt s f).live) 65536 s with
        | none => replySt v .busy s
        | some (f, s) =>
          let s := modFence f (fun x => { live := true, gen := x.gen, vai := v, ctx := c, value := value, mirror := mirror,
                                          event := event, refs := 1, created := true }) s
          replyBox v 0 [handle (fenceAt s f).gen f] s))

/-- The fence that word 1 names is one of the VAI. -/
def onFence (v : Nat) (f : Nat → State → State) (s : State) : State :=
  match fenceOf s (boxWord s v 1) with
  | none => replySt v .faultFormat s
  | some i => if (fenceAt s i).vai ≠ v then replySt v .denied s else f i s

/-- FENCE_DESTROY (R578): the creation reference drops. -/
def execFenceDestroy (v : Nat) (s : State) : Host.Outcome State Fault Refusal :=
  run s (onBox v 0x0221 (onFence v (fun f s =>
    if (fenceAt s f).created = false then replySt v .denied s
    else replySt v .done (fenceDrop f (modFence f (fun x => { x with created := false }) s)))))

/-- A FENCE_SIGNAL with an error: the error word is set, or the command is counted as ignored (R657). -/
def fenceError (f : Nat) (v : W64) (code : Nat) (s : State) : State :=
  let x := fenceAt s f
  if x.err ≠ 0 ∨ reached x.value v then fenceChanged f (modFence f (fun x => { x with ignored := x.ignored + 1 }) s)
  else fenceFail f v code s

/-- FENCE_SIGNAL (R552, R657). -/
def execFenceSignal (v : Nat) (s : State) : Host.Outcome State Fault Refusal :=
  run s (onBox v 0x0222 (onFence v (fun f s =>
    let x := w64 (boxPair s v 2)
    let code := boxWord s v 4
    replySt v .done (if code = 0 then fenceSignal f x s else fenceError f x code s))))

/-- FENCE_QUERY (R580, R657). -/
def execFenceQuery (v : Nat) (s : State) : Host.Outcome State Fault Refusal :=
  run s (onBox v 0x0223 (onFence v (fun f s =>
    let x := fenceAt s f
    replyBox v 0 (words2 x.value.toNat ++ [x.err, x.ignored % 2 ^ 32]) s)))

/-! ## Handoff queues -/

/-- HQ_CREATE (R480, R542): the queue is bound to a context and filled with the handles of its pool. -/
def execHqCreate (v : Nat) (s : State) : Host.Outcome State Fault Refusal :=
  run s (onBox v 0x0234 (fun s => match boxCtx s v 2 with
    | .error st => replySt v st s
    | .ok c =>
      let h := boxWord s v 1
      let pool := boxPair s v 3
      let log := field (boxWord s v 5) 0 5
      let n := field (boxWord s v 5) 16 13
      let tw := if bit (boxWord s v 6) 31 then some (field (boxWord s v 6) 0 14) else none
      let x := hqAt s h
      if pool % 65536 ≠ 0 ∨ log < 6 ∨ 20 < log ∨ 4096 < n then replySt v .faultFormat s
      else if !x.granted ∨ x.vai ≠ v ∨ x.bound ∨ ¬(tw.all (fun i => twGranted s v i)) then replySt v .denied s
      else replySt v .done (ctxTake c (modHq h (fun x =>
        { x with bound := true, ctx := c, pool := pool, bufLog := log, count := n, tw := tw,
                 items := (List.range n).map (fun i => h * 2 ^ 24 + i) }) s))))

/-- Something other than the queue itself uses a tally word (R546, R657): an armed wait, a handoff queue, a sequence group. -/
def tallyUsed (s : State) (h i : Nat) : Bool :=
  s.tw.waits.any (fun w => w.idx == i) || s.fe.hq.any (fun q => q.1 != h && q.2.bound && q.2.tw == some i) ||
    s.sg.group.any (fun g => g.2.live && fieldAt g.2.desc 22 2 % 16384 == i)

/-- Some handle of the pool of queue h is not in it. -/
def handlesOut (s : State) (h : Nat) : Bool := hqKept s h != 0

/-- HQ_DESTROY (R657): handles of other pools that lie in the queue return to their own. -/
def execHqDestroy (v : Nat) (s : State) : Host.Outcome State Fault Refusal :=
  run s (onBox v 0x0235 (fun s =>
    let h := boxWord s v 1
    let x := hqAt s h
    if !x.granted ∨ x.vai ≠ v ∨ x.bound = false then replySt v .denied s
    else if handlesOut s h ∨ (x.tw.any (fun i => tallyUsed s h i)) then replySt v .busy s
    else
      let other := x.items.filter (fun i => decide (i / 2 ^ 24 ≠ h))
      replySt v .done (each other (fun i s => hqReturn i s) (unbindHq h s))))

end Sys2Proof.Machine
end

