-- ==== Sys2Proof/Machine/SealOps.lean ====
section
/-!
DEFINITION. Sessions and the keys of confidential partitions (R738, R745-R753).
-/
namespace Sys2Proof.Machine
open Sys2Proof

/-- The keys of a partition are erased (R753): its binding goes, and the windows of its contexts are no longer in force. -/
def unbindPart (p : Nat) (s : State) : State :=
  { s with csb := { s.csb with bindings := s.csb.bindings.filter (fun b => decide (b.part ≠ p)),
                               windows := s.csb.windows.filter (fun w => decide (partOfCtx s w.ctx ≠ p)) } }

/-- A session ends: the keys of every partition it binds are erased (R738, R753). -/
def dropSession (k : Nat) (s : State) : State :=
  let ps := (s.csb.bindings.filter (fun b => decide (b.session = k))).map (fun b => b.part)
  let s := each ps unbindPart s
  { s with csb := { s.csb with sessions := s.csb.sessions.filter (fun x => decide (x ≠ k)),
                               gens := s.csb.gens.filter (fun g => decide (g.1 ≠ k)) } }

/-- The session that binds a partition ends when a scrub of it begins (R738). -/
def dropBinder (p : Nat) (s : State) : State :=
  match bindingOf s p with
  | some b => dropSession b.session s
  | none => s

end Sys2Proof.Machine
end

