-- ==== Sys2Proof/Machine/Vais.lean ====
section
/-!
DEFINITION. VAIs and their grants (R592-R602), partition scratch (R596), and the scrub of a confidential partition (R756-R759).
-/
namespace Sys2Proof.Machine
open Sys2Proof

/-! ## Scrubs (R756-R759) -/

/-- The scrub record of a partition never scrubbed. -/
def noScrub : Scrub := {}

def scrubAt (s : State) (p : Nat) : Scrub := tget noScrub s.csb.scrub p

/-- The VAIs of a partition. -/
def vaisIn (s : State) (p : Nat) : List Nat := keysOf s.fe.vai (fun x => x.state != 0 && x.part == p)

/-- Queues of a VAI are held for a transaction: those that run (R442, R608). -/
def holdQueues (v : Nat) (s : State) : State :=
  each (queuesOf s v) (fun q s =>
    let x := queueAt s q
    if x.state = .ready ∨ x.state = .stopped then modQueue q (fun x => { x with state := .busy, prior := x.state }) (freeSlot q s)
    else freeSlot q s) s

/-- Queues of a VAI return to the states they held. -/
def freeQueues (v : Nat) (s : State) : State :=
  each (queuesOf s v) (fun q s => if (queueAt s q).state = .busy then
    modQueue q (fun x => { x with state := x.prior, prior := .unused }) s else s) s

/-- Items of a table that belong to VAI v take a new owner. -/
def reown (v : Nat) (o : Own) (t : Tbl Own) : Tbl Own :=
  t.foldl (fun a e => tset .free a e.1 (if e.2 = .vai v then o else e.2)) []

/-- The units of a partition's scratch grant. -/
def unitsOf (s : State) (p : Nat) : List Nat := (List.range (partAt s p).scrCount).map (fun i => (partAt s p).scrFirst + i)

/-- A scrub begins (step 1 of R757): the VAI is busy, its memory belongs to the scrub. -/
def startScrub (p trigger : Nat) (s : State) : State :=
  let v := (vaisIn s p).head?
  let s := dropBinder p s
  let s := match v with
    | some v =>
      let s := holdQueues v (modVai v (fun x => { x with state := 2 }) s)
      { s with fe := { s.fe with ftOwn := reown v (.scrub p) s.fe.ftOwn, scrOwn := reown v (.scrub p) s.fe.scrOwn } }
    | none => s
  let old := scrubAt s p
  let x : Scrub := { old with state := 1, step := 2, trigger := trigger, start := beat s, vai := v }
  { s with fe := { s.fe with scrubbing := sinsert p s.fe.scrubbing }, csb := { s.csb with scrub := tset noScrub s.csb.scrub p x } }

/-- The arrays and engines of a partition are cleared (step 2 of R757). -/
def clearUnits (p : Nat) (s : State) : State :=
  let arrs := (List.range 864).filterMap (fun l => if partOfArray s l = p then physOf s l else none)
  let s := each arrs (fun a s => modArr a (fun x => { saveGen := x.saveGen, gated := x.gated, started := x.started }) s) s
  let lces := ((sectorsOf s p).map (fun n => (List.range 4).map (fun i => 4 * n + i))).flatten
  each lces (fun n s => modLce n (fun x => { x with queue := [], active := [] }) s) s

/-- Tally groups of a VAI are zeroed (R546). -/
def zeroTally (g : Nat) (s : State) : State :=
  { s with tw := { s.tw with val := s.tw.val.filter (fun e => decide (e.1 / 64 ≠ g)),
                             last := s.tw.last.filter (fun e => decide (e.1 / 64 ≠ g)) } }

/-- The tally groups of a VAI. -/
def tallyGroups (s : State) (v : Nat) : List Nat := keysOf s.tw.grant (fun x => x == 1 + v)

/-- The memory and the units of a partition are cleared (steps 2 to 6 of R757). -/
def scrubSteps (p : Nat) (s : State) : State :=
  let v := (scrubAt s p).vai
  let s := clearUnits p s
  let secs := sectorsOf s p
  let s := { s with
    mem := { s.mem with cache := s.mem.cache.filter (fun e => !secs.contains (sliceOf e.2.1)) },
    fe := { s.fe with tlb := s.fe.tlb.filter (fun t => decide ((ctxAt s t.ctx).part ≠ p)) } }
  let s := { emptyHrc p s with lce := { (emptyHrc p s).lce with hrc := tset {} (emptyHrc p s).lce.hrc p { emptying := true } } }
  let s := each (unitsOf s p) (fun u s => zeroMem (scratchBase + u * 0x4000000) 0x4000000 s) s
  let s := each (keysOf s.fe.ftOwn (fun o => o == .scrub p)) (fun k s => zeroMem (k * chunkSize) chunkSize s) s
  match v with
  | some v => each (tallyGroups s v) (fun g s => zeroTally g s) s
  | none => s

/-- The receipt is recorded (step 7 of R757). -/
def endScrub (p : Nat) (s : State) : State :=
  let x := scrubAt s p
  let n := (keysOf s.fe.ftOwn (fun o => o == .scrub p)).length
  let seq := (x.seq + 1) % 65536
  let x := { x with state := 2, step := 0, seq := seq, receipt := some ⟨x.trigger, seq, x.start, beat s, n, (partAt s p).scrCount⟩ }
  { s with fe := { s.fe with scrubbing := sremove p s.fe.scrubbing }, csb := { s.csb with scrub := tset noScrub s.csb.scrub p x } }

/-! ## Creation (R592, R593) -/

/-- The classes that a VAI holds now or from the next round boundary on (R768). -/
def classesHeld (x : Vai) : Nat := x.classes ||| x.classesNext.getD 0

/-- Another VAI of a partition holds a class of a mask. -/
def classTaken (s : State) (v p mask : Nat) : Bool :=
  (vaisIn s p).any (fun w => w != v && (classesHeld (vaiAt s w) &&& mask) != 0)

/-- A PASID is held: by a VAI, or by an OREQ read of one that is gone (R595). -/
def pasidTaken (s : State) (x : Nat) : Bool :=
  s.fe.vai.any (fun e => e.2.state != 0 && e.2.pasid == x) || s.ports.oreq.any (fun r => r.pasid == some x)

/-- VAI_CREATE (R592, R593, R641). -/
def execVaiCreate (s : State) : Host.Outcome State Fault Refusal :=
  run s (onBox 256 0x0101 (fun s =>
    let v := field (boxWord s 256 1) 0 8
    let p := field (boxWord s 256 1) 8 4
    let mask := field (boxWord s 256 1) 16 16
    let pasid := boxWord s 256 2
    if s.fe.parts ≤ p ∨ mask = 0 then replySt 256 .faultFormat s
    else if (vaiAt s v).state ≠ 0 ∨ pasidTaken s pasid ∨ classTaken s v p mask ∨ (confPart s p ∧ ¬ (vaisIn s p).isEmpty) then
      replySt 256 .denied s
    else if touching s p ∨ scrubbing s p then replySt 256 .busy s
    else
      let s := modVai v (fun x => { evTail := x.evTail, drops := x.drops, state := 1, part := p, pasid := pasid, classes := mask,
                                    wakeTol := boxWord s 256 3 }) s
      let open' := fun (n : Nat) (s : State) => modSrc n (fun x => { x with mask := false }) s
      replySt 256 .done (open' (832 + v) (open' (1088 + v) s))))

/-! ## Revocation (R595, R600, R601) -/

/-- A tally group leaves its VAI. -/
def dropTally (g : Nat) (s : State) : State :=
  { zeroTally g s with tw := { (zeroTally g s).tw with grant := tset 0 (zeroTally g s).tw.grant g 0 } }

/-- The number of VAI v is free again: what it held leaves it; the fences it still holds go, its interrupt sources are masked. -/
def endVai (v : Nat) (s : State) : State :=
  let s := each (fencesOf s v) (fun f s => modFence f (fun x => { gen := (x.gen + 1) % 256 }) s) s
  let s := each (tallyGroups s v) (fun g s => dropTally g s) s
  let s := each (keysOf s.tw.bar (fun b => b.granted && b.vai == v)) (fun k s => modBar k (fun b => { gen := b.gen }) s) s
  let s := each (keysOf s.fe.hq (fun h => h.granted && h.vai == v)) (fun h s => modHq h (fun _ => {}) s) s
  let shut := fun (n : Nat) (s : State) => modSrc n (fun x => { x with mask := true }) s
  shut (832 + v) (shut (1088 + v) (modVai v (fun x => { evTail := x.evTail, drops := x.drops }) s))

/-- VAI_DESTROY (R595, R756): the reply of the VAI of a confidential partition waits for its scrub. -/
def execVaiDestroy (s : State) : Host.Outcome State Fault Refusal :=
  run s (onBox 256 0x0102 (fun s =>
    let v := boxWord s 256 1
    let x := vaiAt s v
    let p := x.part
    if x.state = 0 then replySt 256 .denied s
    else if scrubbing s p ∨ touching s p then s
    else if ¬ (ctxsOf s v).isEmpty then replySt 256 .busy s
    else if confPart s p then startScrub p 2 (modVai v (fun x => { x with log := false }) s)
    else
      let s := { s with fe := { s.fe with ftOwn := reown v .zeroing s.fe.ftOwn, scrOwn := reown v .zeroing s.fe.scrOwn } }
      replySt 256 .done (endVai v s)))

/-- REVOKE_ZEROED (R601): a revoked item has been written with zeros and returns to its pool. -/
def execRevokeZeroed (scratch : Bool) (k : Nat) (s : State) : Host.Outcome State Fault Refusal :=
  run s (guarded (regsOn s) (fun s =>
    if scratch then
      (if tget .free s.fe.scrOwn k = .zeroing then
        let s := zeroMem (scratchBase + k * 0x4000000) 0x4000000 s
        { s with fe := { s.fe with scrOwn := tset .free s.fe.scrOwn k .free } }
      else s)
    else if tget .free s.fe.ftOwn k = .zeroing then
      let s := zeroMem (k * chunkSize) chunkSize s
      { s with fe := { s.fe with ftOwn := tset .free s.fe.ftOwn k .free } }
    else s))

/-- The block-local pieces to which a virtual range of a context translates. -/
def physRanges (s : State) (c va n : Nat) : List (Nat × Nat) :=
  (spansOf 4096 va n).filterMap (fun p => match xl s .front c p.1 p.2 .read with
    | .ok 0 a => some (a, p.2)
    | _ => none)

/-- What the running batches of the contexts of a VAI keep in near-tier scratch: the work area and a NEAR destination. -/
def batchRanges (s : State) (v : Nat) : List (Nat × Nat) :=
  (s.lce.unit.map (fun u => ((u.2.active.filter (fun b => (ctxAt s b.ctx).vai == v)).map (fun b =>
    let n := (fieldAt b.desc 22 2 + 1) * fieldAt b.desc 28 4
    let work := if fieldAt b.desc 32 8 = 0 then [] else physRanges s b.ctx (fieldAt b.desc 32 8) (n * 4 / (if byteAt b.desc 25 = 0 then 4 else 2))
    let near := if bit (byteAt b.desc 26) 4 then [] else physRanges s b.ctx (fieldAt b.desc 8 8) n
    match b.kind with
    | .task _ => work ++ near
    | .sub _ _ _ _ _ => [])).flatten)).flatten

/-- The valid entries of the table at an address that point to a table. -/
def tableEntries (s : State) (table : Nat) : List Nat :=
  let cells := s.mem.cells.filter (fun c => decide (table ≤ c.1 ∧ c.1 < table + 4096 ∧ c.1 % 8 = 0) && bit c.2.toNat 0 && !bit c.2.toNat 1)
  cells.map (fun c => alignDown (leNat (readMem s c.1 8)) 4096)

/-- The tables that a walk from the table at a level may reach (R565). -/
def tablesFrom (s : State) (level table : Nat) : List Nat :=
  match level with
  | 0 => [table]
  | n + 1 => table :: ((tableEntries s table).map (tablesFrom s n)).flatten

/-- What keeps a memory item with VAI v (R600). -/
def heldRanges (s : State) (v : Nat) : List (Nat × Nat) :=
  let live := (s.fe.ctx.filter (fun c => c.2.vai == v && (c.2.state == 1 || c.2.settling))).map (fun c => c.2)
  (live.map (fun x => saveRange s x :: ctxRanges x ++ (tablesFrom s 3 x.root).map (fun a => (a, 4096)))).flatten ++
    ((s.fe.allocs.filter (fun a => a.2.live && a.2.vai == v)).map (fun a =>
      (a.2.base, a.2.size) :: a.2.moved.map (fun m => (m.2 * 4096, 4096)))).flatten ++
    (s.fe.graphs.filter (fun g => g.2.live)).map (fun g => (g.2.place, g.2.bytes)) ++
    (((s.fe.hq.filter (fun h => h.2.bound && h.2.vai == v)).map (fun h => physRanges s h.2.ctx h.2.pool (h.2.count * 2 ^ h.2.bufLog))).flatten) ++
    ((s.lce.domains.filter (fun d => (ctxAt s d.ctx).vai == v)).map (fun d => (d.dir, 64 * 4096))) ++ batchRanges s v

/-- First byte and size of an item of memory. -/
def itemRange (kind k : Nat) : Nat × Nat := if kind = 1 then (k * chunkSize, chunkSize) else (scratchBase + k * 0x4000000, 0x4000000)

/-- The items named, in order. -/
def itemsFrom (first count : Nat) : List Nat := (List.range count).map (fun i => first + i)

/-- A tally group is in use (R546): an armed wait, a handoff queue or a sequence group names a word of it. -/
def tallyBusy (s : State) (g : Nat) : Bool :=
  s.tw.waits.any (fun w => w.idx / 64 == g) || s.fe.hq.any (fun h => h.2.bound && h.2.tw.any (fun i => i / 64 == g)) ||
    s.sg.group.any (fun x => x.2.live && fieldAt x.2.desc 22 2 / 64 == g)

/-- A leaf that a translation cache keeps maps a part of a range. -/
def leafIn (e : Nat) (r : Nat × Nat) : Bool :=
  field (e / 4) 2 2 == 0 && overlaps (alignDown (e / 4) 4096, leafSize (e / 4) (e % 4)) r

/-- A memory item leaves its VAI: cached translations into it go, its log bits go, its zeroing begins (R601, R613). -/
def revokeItem (v kind k : Nat) (s : State) : State :=
  let r := itemRange kind k
  let s := { s with fe := { s.fe with
    tlb := s.fe.tlb.filter (fun t => !((ctxAt s t.ctx).vai == v && leafIn t.leaf r)),
    ftOwn := if kind = 1 then tset .free s.fe.ftOwn k .zeroing else s.fe.ftOwn,
    scrOwn := if kind = 1 then s.fe.scrOwn else tset .free s.fe.scrOwn k .zeroing } }
  if kind = 1 then modVai v (fun x => { x with devLog := x.devLog.filter (fun u => decide (u * 65536 / chunkSize ≠ k)) }) s else s

/-! ## VAI_GRANT (R598-R600) -/

/-- Owner of item k of a kind: 0 nobody, 1 + VAI; none while it is being zeroed. -/
def itemOwner (s : State) (kind k : Nat) : Option Nat :=
  let own := fun (o : Own) => match o with | .free => some 0 | .vai v => some (1 + v) | _ => none
  match kind with
  | 1 => own (tget .free s.fe.ftOwn k)
  | 2 => own (tget .free s.fe.scrOwn k)
  | 5 => some (tget 0 s.tw.grant k)
  | 6 => some (if (barAt s k).granted then 1 + (barAt s k).vai else 0)
  | _ => some (if (hqAt s k).granted then 1 + (hqAt s k).vai else 0)

/-- Size of a pool. -/
def poolSize (kind : Nat) : Nat :=
  match kind with
  | 1 => 960 | 2 => 56 | 3 => 512 | 4 => 768 | 5 => 256 | 6 => 32 | 7 => 256 | 8 => 65536 | _ => 0

/-- A counted kind, and the count a VAI is granted. -/
def counted (kind : Nat) : Bool := kind == 3 || kind == 4 || kind == 8
def countOf (x : Vai) (kind : Nat) : Nat := if kind = 3 then x.contexts else if kind = 4 then x.queues else x.fences
def putCount (kind n : Nat) (x : Vai) : Vai :=
  if kind = 3 then { x with contexts := n } else if kind = 4 then { x with queues := n } else { x with fences := n }

/-- Objects of a counted kind that a VAI holds. -/
def heldCount (s : State) (v kind : Nat) : Nat :=
  if kind = 3 then (ctxsOf s v).length else if kind = 4 then (queuesOf s v).length else (fencesOf s v).length

/-- What a pool has left. -/
def poolFree (s : State) (kind : Nat) : Nat := poolSize kind - ((s.fe.vai.map (fun e => countOf e.2 kind)).foldl (fun a b => a + b) 0)

/-- The conditions of FAULT_FORMAT. -/
def grantMalformed (x : Vai) (kind first count : Nat) (revoke : Bool) : Bool :=
  if kind = 9 then decide (first = 0 ∨ 65536 ≤ first ∨ count ≠ 0)
  else kind == 0 || decide (9 < kind) || count == 0 || (counted kind && first != 0) ||
    (!counted kind && decide (poolSize kind < first + count)) ||
    (kind == 4 && !revoke && decide (64 < count + (if x.state = 0 then 0 else x.queues)))

/-- The conditions of DENIED. -/
def grantDenied (s : State) (v kind first count : Nat) (revoke : Bool) : Bool :=
  let x := vaiAt s v
  let items := itemsFrom first count
  if x.state = 0 then true
  else if kind = 9 then classTaken s v x.part first
  else if counted kind then revoke && decide (countOf x kind < count)
  else if revoke then items.any (fun k => itemOwner s kind k != some (1 + v))
  else items.any (fun k => match itemOwner s kind k with
      | some o => o != 0 && o != 1 + v
      | none => false) ||
    (kind == 1 && items.any (fun k => stackGone s (k / 80) || (s.fw.upd != 0 && k == s.fw.chunk))) || (kind == 2 && items.any (fun k => !(unitsOf s x.part).contains k))

/-- The conditions of BUSY. -/
def grantBusy (s : State) (v kind first count : Nat) (revoke : Bool) : Bool :=
  let x := vaiAt s v
  let items := itemsFrom first count
  decide (x.state ≠ 1) || touching s x.part || scrubbing s x.part ||
    (if kind = 9 then false
    else if counted kind then
      (if revoke then decide (countOf x kind - count < heldCount s v kind) else decide (poolFree s kind < count))
    else if revoke then
      (if kind = 1 ∨ kind = 2 then (heldRanges s v).any (fun r => items.any (fun k => overlaps r (itemRange kind k)))
      else if kind = 5 then items.any (tallyBusy s)
      else if kind = 6 then items.any (fun k => (barAt s k).state != 0)
      else items.any (fun k => (hqAt s k).bound))
    else items.any (fun k => (itemOwner s kind k).isNone))

/-- One item is granted. -/
def giveItem (v kind k : Nat) (s : State) : State :=
  match kind with
  | 1 => { s with fe := { s.fe with ftOwn := tset .free s.fe.ftOwn k (.vai v) } }
  | 2 => { s with fe := { s.fe with scrOwn := tset .free s.fe.scrOwn k (.vai v) } }
  | 5 => { s with tw := { s.tw with grant := tset 0 s.tw.grant k (1 + v) } }
  | 6 => modBar k (fun b => { b with granted := true, vai := v }) s
  | _ => modHq k (fun h => { h with granted := true, vai := v }) s

/-- One item is revoked. -/
def takeItem (v kind k : Nat) (s : State) : State :=
  match kind with
  | 1 => revokeItem v 1 k s
  | 2 => revokeItem v 2 k s
  | 5 => dropTally k s
  | 6 => modBar k (fun b => { gen := b.gen }) s
  | _ => modHq k (fun _ => {}) s

/-- A load reads an item of a list whose data is still to come. -/
def itemsRead (s : State) (kind : Nat) (items : List Nat) : Bool :=
  loadsLeft s (fun x => match x.2.stall with
    | .load l => l.any (fun p => items.any (fun k => overlaps (p.1, p.2.2) (itemRange kind k)))
    | _ => false)

/-- VAI_GRANT (R598-R602): all items or none. A revoke of memory waits for the transfers that use it (R601). -/
def execVaiGrant (s : State) : Host.Outcome State Fault Refusal :=
  run s (onBox 256 0x0103 (fun s =>
    let v := field (boxWord s 256 1) 0 8
    let kind := field (boxWord s 256 1) 8 4
    let revoke := bit (boxWord s 256 1) 12
    let first := boxWord s 256 2
    let count := boxWord s 256 3
    let x := vaiAt s v
    if grantMalformed x kind first count revoke then replySt 256 .faultFormat s
    else if grantDenied s v kind first count revoke then replySt 256 .denied s
    else if grantBusy s v kind first count revoke then replySt 256 .busy s
    else if revoke ∧ (kind = 1 ∨ kind = 2) ∧ itemsRead s kind (itemsFrom first count) = true then s
    else
      let s := if kind = 9 then modVai v (fun x => { x with classesNext := some first }) s
        else if counted kind then
          modVai v (putCount kind (if revoke then countOf x kind - count else countOf x kind + count)) s
        else each (itemsFrom first count) (fun k s => if revoke then takeItem v kind k s else giveItem v kind k s) s
      replySt 256 .done (if kind = 2 then emptyHrc x.part s else s)))

/-! ## PART_SCRATCH (R596) -/

/-- Scratch steps that both the setting in force and a pending one leave as scratch (R768). -/
def scratchSteps (s : State) : Nat := min s.mem.steps (stepsWanted s)

/-- PART_SCRATCH (R596): the grant of a partition is replaced, and its hot-row cache emptied. -/
def execPartScratch (s : State) : Host.Outcome State Fault Refusal :=
  run s (onBox 256 0x0104 (fun s =>
    let p := boxWord s 256 1
    let first := field (boxWord s 256 2) 0 6
    let count := field (boxWord s 256 2) 8 6
    let units := itemsFrom first count
    let others := ((List.range s.fe.parts).filter (fun q => decide (q ≠ p))).map (unitsOf s)
    let dropped := (unitsOf s p).filter (fun u => !units.contains u)
    if s.fe.parts ≤ p ∨ 56 < first + count then replySt 256 .faultFormat s
    else if others.any (fun l => l.any (fun u => units.contains u)) ∨ units.any (fun u => decide (8 * scratchSteps s ≤ u)) then
      replySt 256 .denied s
    else if touching s p ∨ scrubbing s p ∨ dropped.any (fun u => match tget .free s.fe.scrOwn u with | .vai _ => true | _ => false) then
      replySt 256 .busy s
    else replySt 256 .done (emptyHrc p (modPart p (fun x => { x with scrFirst := first, scrCount := count }) s))))

end Sys2Proof.Machine
end

