-- ==== Sys2Proof/Machine/MemSteps.lean ====
section
/-!
DEFINITION. The near-tier mode (R254, R255), patrol and moves of granules (R274, R277), the regulators (R287-R305) and the traffic
generators (R306-R312).
-/
namespace Sys2Proof.Machine
open Sys2Proof

/-! ## The near-tier mode -/

/-- A step that the request would make cache holds a part of a scratch grant. -/
def stepsHeld (s : State) (n : Nat) : Bool :=
  ((List.range 12).map (unitsOf s)).flatten.any (fun u => decide (n ≤ u / 8)) ||
    s.fe.scrOwn.any (fun o => decide (n ≤ o.1 / 8 ∧ o.1 / 8 < s.mem.steps))

/-- NEAR_TIER_MODE_WRITE (R254, R255, R280). -/
def execNearTierModeWrite (val : W32) (s : State) : Host.Outcome State Fault Refusal :=
  run s (guarded (regsOn s) (fun s =>
    let n := field val.toNat 0 3
    let div := bit val.toNat 8
    let refuse := fun (st : Status) => { s with mem := { s.mem with ntState := 2, ntResult := st.code } }
    if !div ∧ confMode s then refuse .denied
    else if stepsHeld s n ∨ s.mem.ntNext.isSome then refuse .busy
    else
      let s := regSet 0xA00000 (val.toNat &&& 0x107) s
      if n = s.mem.steps ∧ div = s.mem.divided then { s with mem := { s.mem with ntState := 0, ntResult := 0 } }
      else
        let ch := (List.range 7).filter (fun k => decide (k < n) != decide (k < s.mem.steps))
        { s with mem := { s.mem with
          ntState := 1, ntNext := some (n, div), changing := ch, cache := s.mem.cache.filter (fun e => !ch.contains e.2.2),
          inval := if div = s.mem.divided then s.mem.inval else List.range 12 } }))

/-- The change is complete once no step is being zeroed and no slice invalidated. A later request that was refused meanwhile
keeps STATE and RESULT (R281). -/
def modeCheck (s : State) : State :=
  match s.mem.ntNext with
  | some (n, div) =>
    if s.mem.changing.isEmpty && s.mem.inval.isEmpty then
      { s with mem := { s.mem with steps := n, divided := div, ntNext := none, ntState := if s.mem.ntState = 2 then 2 else 0 } }
    else s
  | none => s

/-- NEAR_TIER_STEP_ZEROED (R254): the lowest step that changes has been written with zeros and serves in its new role. -/
def execNearTierStepZeroed (s : State) : Host.Outcome State Fault Refusal :=
  run s (fun s => match s.mem.changing with
    | [] => s
    | k :: r =>
      let s := zeroMem (scratchBase + k * stepSize) stepSize s
      modeCheck { s with mem := { s.mem with changing := r } })

/-- CACHE_INVALIDATION_DONE (R253, R254): the lines of the slices are gone, and the slices serve again. -/
def execCacheInvalidationDone (s : State) : Host.Outcome State Fault Refusal :=
  run s (fun s => modeCheck { s with mem := { s.mem with
    cache := s.mem.cache.filter (fun e => !s.mem.inval.contains (sliceOf e.2.1)), inval := [] } })

/-! ## Patrol, moves, refresh -/

/-- Patrol reads an address: far tier in service, or a scratch step. -/
def patrolled (s : State) (a : Nat) : Bool :=
  a % 64 == 0 && (if isFar a then (stackAt s (stackOf a)).state == 2 && (chanAt s (pcOf a)).state == 0 && !retiredAt s a
    else isScratch a && scratchServes s (stepOf a))

/-- PATROL_READ (R261, R273, R274): a granule's count of corrected codewords starts anew with its first codeword; the first codeword
of a run queues the run among the reserved ones. `syms`: the code found an error, in so many symbols. -/
def execPatrolRead (addr : Nat) (syms : Option Nat) (s : State) : Host.Outcome State Fault Refusal :=
  run s (guarded (field (regGet s 0xA00010) 24 8 != 0 && patrolled s addr) (fun s =>
    let s := if addr % 4096 = 0 then { s with mem := { s.mem with granCe := tset 0 s.mem.granCe (addr / 4096) 0 } } else s
    let s := if isFar addr && addr % 256 == 0 then queueReserved addr false s else s
    match syms with
    | none => s
    | some k => memError ⟨addr, k, false⟩ s))

/-- GRANULE_MOVE_DONE (R277): the runs of firmware's copies have issued. -/
def execGranuleMoveDone (old : Nat) (s : State) : Host.Outcome State Fault Refusal :=
  run s (guarded (computeOn s && !runsWait s .firmware) (fun s => match s.mem.moves.find? (fun m => decide (m.1 = old)) with
    | some m => moveDone old m.2 s
    | none => s))

/-- A refresh of a bank of pseudo-channel c takes its reserved run time. -/
def startRefresh (c : Nat) (s : State) : State :=
  let a := c / 64 * stackSize + c % 64 * 4096
  if inService s && (chanAt s c).state == 0 then queueReserved a true s else emit (.refresh c) s

/-- REFRESH (R259, R261, R287): a refresh of a bank of a stack in service falls due: it waits for a reserved run time; where none
is dealt (before READY, on a channel out of service) it is done at once. -/
def execRefresh (c : Nat) (s : State) : Host.Outcome State Fault Refusal :=
  run s (guarded (decide (c < 768) && (stackAt s (c / 64)).state == 2) (startRefresh c))

/-- STACK_TEMP_READ (R259): the temperatures that sensors and records report. -/
def execStackTempRead (temps : List Nat) (s : State) : Host.Outcome State Fault Refusal :=
  run s (each (List.range 12) (fun n s => modStack n (fun x => { x with temp := temps.getD n 0 }) s))

/-- MC_INTERNAL_ERROR (R273): B-class. -/
def execMcInternalError (c : Nat) (s : State) : Host.Outcome State Fault Refusal :=
  run s (fun s => bEvent 3 c 0x20 0 s)

/-! ## The deal (R290) -/

/-- The first number of a list at which a rising search finds the largest value. -/
def argmax (l : List (Nat × Int)) : Nat :=
  match l with
  | [] => 13
  | x :: r => (r.foldl (fun b y => if b.2 < y.2 then y else b) x).1

/-- Deal the dealable run times of a beat from rates, `cur` being what each is owed. -/
def dealSlots (n : Nat) (rates : List Nat) (cur : List Int) : List Nat :=
  match n with
  | 0 => []
  | n + 1 =>
    let cur := (cur.zip rates).map (fun x => x.1 + (x.2 : Int))
    let w := argmax ((List.range 14).zip cur)
    w :: dealSlots n rates (lset cur w (cur.getD w 0 - 124))

/-- The deal of a round: the rates in force, and u with what they leave. -/
def dealOf (s : State) : List Nat :=
  let rates := (List.range 13).map (fun r => (regAt s r).rate)
  let sum := rates.foldl (fun a b => a + b) 0
  dealSlots 124 (rates ++ [124 - sum]) (List.replicate 14 0)

/-! ## Run times (R291, R295-R298) -/

def runQAt (s : State) (c r : Nat) : RunQ := tget {} s.rg.queue (14 * c + r)

def modRunQ (c r : Nat) (f : RunQ → RunQ) (s : State) : State :=
  { s with rg := { s.rg with queue := tmod {} s.rg.queue (14 * c + r) f } }

/-- A pseudo-channel issues: in service, its stack active, no PHY update held. -/
def issues (s : State) (c : Nat) : Bool :=
  (chanAt s c).state == 0 && (stackAt s (c / 64)).state == 2 && !s.blk.phyHold.contains (c / 64)

/-- Remove the first run of a page. -/
def dropFirst (page : Nat) (l : List Run) : List Run :=
  match l with
  | [] => []
  | x :: r => if x.page = page ∧ x.refresh = false then r else x :: dropFirst page r

/-- The first run of a page has spent the first of its two pips. -/
def halve (page : Nat) (l : List Run) : List Run :=
  match l with
  | [] => []
  | x :: r => if x.page = page then { x with half := true } :: r else x :: halve page r

/-- A queue spends one pip: on opening a page, or on a run of the open page. It holds 16 runs; those behind them wait at their
requesters' mesh ports (R261). -/
def spendPip (c r : Nat) (s : State) : State :=
  let q := runQAt s c r
  let n := c / 64
  match (q.runs.take 16).find? (fun x => decide (x.page + 1 = q.page) && !x.refresh), q.runs with
  | none, [] => s
  | none, x :: _ => modRunQ c r (fun q => { q with page := x.page + 1, begun := false }) s
  | some x, _ =>
    let s := if q.begun then s else { s with mem := { s.mem with groups := tmod 0 s.mem.groups n (fun k => (k + 1) % 2 ^ 64) } }
    if x.part && !x.half then modRunQ c r (fun q => { q with runs := halve x.page q.runs, begun := true }) s
    else
      let rest := dropFirst x.page q.runs
      let more := (rest.take 16).any (fun y => decide (y.page = x.page) && !y.refresh)
      let s := { s with mem := { s.mem with runs := tmod 0 s.mem.runs n (fun k => (k + 1) % 2 ^ 64) } }
      modRunQ c r (fun _ => if more then { runs := rest, page := q.page, begun := true } else { runs := rest }) s

/-- Regulator r may take a run time on pseudo-channel c that would stay idle. -/
def mayBorrow (s : State) (c r : Nat) : Bool :=
  let x := regAt s r
  x.borrow && !(decide (r < 12) && confPart s r) && !(runQAt s c r).runs.isEmpty && decide (tget 0 s.rg.taken (14 * c + r) < x.bmax)

/-- A run time dealt to w that w does not use: borrowed, or idle. What u (13) lends is counted for the ledger (R701). -/
def idleSlot (c w : Nat) (s : State) : State :=
  let count := modReg w
  let last := tget 0 s.rg.rr c
  let lends := !(decide (w < 12) && confPart s w) && issues s c
  match (if lends then firstFrom (fun i => mayBorrow s c ((last + i) % 13)) 1 13 else none) with
  | some i =>
    let r := (last + i) % 13
    let s := count (fun x => { x with lent := (x.lent + 1) % 2 ^ 64 }) s
    let s := modReg r (fun x => { x with borrowed := (x.borrowed + 1) % 2 ^ 64 }) s
    spendPip c r { s with rg := { s.rg with taken := tmod 0 s.rg.taken (14 * c + r) (fun k => k + 1), rr := tset 0 s.rg.rr c r } }
  | none => count (fun x => { x with expired := (x.expired + 1) % 2 ^ 64 }) s

/-- A run time dealt to w. -/
def dealtSlot (c w : Nat) (s : State) : State :=
  let s := modReg w (fun x => { x with dealt := (x.dealt + 1) % 2 ^ 64 }) s
  if w < 13 ∧ issues s c = true ∧ (runQAt s c w).runs.isEmpty = false then
    spendPip c w (modReg w (fun x => { x with spent := (x.spent + 1) % 2 ^ 64 }) s)
  else idleSlot c w s

/-- A reserved run time: a refresh that waits first in its queue, else a run of the 14th queue. -/
def reservedSlot (c : Nat) (s : State) : State :=
  let q := runQAt s c 13
  match q.runs with
  | x :: rest => if x.refresh ∧ q.page = 0 then emit (.refresh c) (modRunQ c 13 (fun q => { q with runs := rest }) s) else spendPip c 13 s
  | [] => s

/-! ## Traffic generators (R306-R312) -/

def tgAt (s : State) (c : Nat) : Tg := tget {} s.mem.tg c
def modTg (c : Nat) (f : Tg → Tg) (s : State) : State := { s with mem := { s.mem with tg := tmod {} s.mem.tg c f } }

/-- The registers of a generator. -/
def tgReg (s : State) (c off : Nat) : Nat := regGet s (0xA10000 + 0x40 * c + off)

/-- Operation and pattern. -/
def tgOp (s : State) (c : Nat) : Nat := field (tgReg s c 0) 6 2
def tgPattern (s : State) (c : Nat) : Nat := field (tgReg s c 0) 8 4
def tgSeed (s : State) (c : Nat) : Nat := max 1 (tgReg s c 0x10)

/-- The codewords of a run. -/
def tgLen (s : State) (c : Nat) : Nat := 64 * tgReg s c 0xC

/-- Insert the number of a granule by its key; equal keys keep their order. -/
def insertKey (key : Nat → Nat) (i : Nat) (l : List Nat) : List Nat :=
  match l with
  | [] => [i]
  | x :: r => if key i < key x then i :: x :: r else x :: insertKey key i r

/-- The order in which a run visits its `n` granules: rising, or each once by the keys of its seed (R308). -/
def tgOrder (seeded : Bool) (seed n : Nat) : List Nat :=
  if seeded then (List.range n).foldl (fun l i => insertKey (Config.tgOrder seed) i l) [] else List.range n

/-- Granule j at step i of a run; one beyond the last wraps to 0 (R314). -/
def tgJ (s : State) (c i : Nat) : Nat :=
  let k := if bit (tgReg s c 0) 5 then (tgOrder true (tgSeed s c) (tgReg s c 0xC)).getD i 0 else i
  (tgReg s c 8 + k) % 327680

/-- Block-local address of PC-local granule j of pseudo-channel c (R306). -/
def tgAddr (c j : Nat) : Nat := c / 64 * stackSize + (64 * j + (c % 64 ^^^ j % 64)) * 4096

/-- The next state of the 31-bit register of PRBS31, x^31 + x^28 + 1. -/
def prbsNext (x : Nat) : Nat := 2 * x % 2 ^ 31 + (if bit x 30 = bit x 27 then 0 else 1)

/-- `n` bits of PRBS31: each is the bit that enters the register. -/
def prbsBits (n x : Nat) : List Bool :=
  match n with
  | 0 => []
  | k + 1 => bit (prbsNext x) 0 :: prbsBits k (prbsNext x)

/-- PRBS31 data of a seed: 64 bytes, the earliest bit the least significant (R307; the register begins with the seed's low 31
bits, DESIGN CHOICE). -/
def prbs31 (seed : Nat) : List Byte :=
  (chunks 8 512 (prbsBits 512 (seed % 2 ^ 31))).map (fun b => BitVec.ofNat 8 (b.foldr (fun x n => 2 * n + b2n x) 0))

/-- The data of codeword k of granule j (R307). -/
def tgData (pattern seed c j k : Nat) : List Byte :=
  match pattern with
  | 0 => List.replicate 64 0
  | 1 => List.replicate 64 0xFF
  | 2 => List.replicate 64 (if k / 4 % 2 = 0 then 0x55 else 0xAA)
  | 3 => leBytes 64 (2 ^ (k % 512))
  | 4 => ((List.range 8).map (fun i => leBytes 8 (tgAddr c j % stackSize + 64 * k + 8 * i))).flatten
  | _ => prbs31 (seed ^^^ (j * 32 + k))

/-- The codeword at position i of a run: its granule, its number, its address. -/
def tgWord (s : State) (c i : Nat) : Nat × Nat × Nat := (tgJ s c (i / 64), i % 64, tgAddr c (tgJ s c (i / 64)) + 64 * (i % 64))

/-- What is stored at a codeword differs from the pattern. The storage of a granule that is retired is still there for its
generator (R306, R309). -/
def tgDiffers (s : State) (c i : Nat) : Bool :=
  let (j, k, a) := tgWord s c i
  decide (getBytes s.mem.cells a 64 ≠ tgData (tgPattern s c) (tgSeed s c) c j k)

/-- A codeword is in error (R311): one error, the first latched. -/
def tgError (c i : Nat) (s : State) : State :=
  modTg c (fun x => { x with errors := sat 16 (x.errors + 1), first := some (min i (x.first.getD i)) }) s

/-- The generator works on the codeword at position i: it writes its pattern, or compares. What it writes it reads back. -/
def tgStep (c i : Nat) (s : State) : State :=
  let (j, k, a) := tgWord s c i
  if tgOp s c = 1 then (if tgDiffers s c i then tgError c i s else s)
  else
    { s with mem := { s.mem with
        cells := putBytes s.mem.cells a (tgData (tgPattern s c) (tgSeed s c) c j k), poison := sremove (a / 64) s.mem.poison } }

/-- The next `n` codewords of a run. -/
def tgSteps (c n i : Nat) (s : State) : State :=
  match n with
  | 0 => s
  | k + 1 => tgSteps c k (i + 1) (tgStep c i s)

/-- Runs moved for codewords: one for each four, two where they are written and read. -/
def tgRuns (s : State) (c n : Nat) : Nat := (if tgOp s c = 2 then 2 else 1) * ceilDiv n 4

/-- A stack's counters of runs and page groups. -/
def countRuns (n runs groups : Nat) (s : State) : State :=
  { s with mem := { s.mem with runs := tmod 0 s.mem.runs n (fun k => (k + runs) % 2 ^ 64),
                               groups := tmod 0 s.mem.groups n (fun k => (k + groups) % 2 ^ 64) } }

/-- A run goes on by `n` codewords; a scan compares nothing. -/
def tgAdvance (c n groups : Nat) (s : State) : State :=
  let i := (tgAt s c).pos
  let s := countRuns (c / 64) (tgRuns s c n) groups s
  modTg c (fun x => { x with pos := i + n, done := (i + n) / 64 }) (if tgOp s c = 3 then s else tgSteps c n i s)

/-- A run time of a running generator: it opens a page, or moves the next run of it. -/
def tgRunTime (c : Nat) (s : State) : State :=
  let x := tgAt s c
  if x.state ≠ 1 ∨ tgLen s c ≤ x.pos ∨ (stackAt s (c / 64)).state ≠ 2 then s
  else if x.opened then tgAdvance c 4 0 (modTg c (fun y => { y with opened := decide ((y.pos + 4) % 32 ≠ 0) }) s)
  else countRuns (c / 64) 0 1 (modTg c (fun y => { y with opened := true }) s)

/-- TG_START (R309, R312): refused for a reserved pattern, by the channel's state, or while a run is under way. -/
def execTgStart (c : Nat) (s : State) : Host.Outcome State Fault Refusal :=
  run s (guarded (regsOn s && decide (c < 768)) (fun s =>
    let st := (chanAt s c).state
    let refuse := fun (t : Status) => modTg c (fun x => { x with result := t.code }) s
    if 6 ≤ tgPattern s c then refuse .faultFormat
    else if st = 3 ∨ stackGone s (c / 64) = true ∨ (st = 0 ∧ tgOp s c ≠ 3) then refuse .denied
    else if (tgAt s c).state = 1 then refuse .busy
    else modTg c (fun x => { x with state := 1, result := 0, err := 0, done := 0, pos := 0, opened := false, first := none }) s))

/-- The position at which a run visits a codeword, 64 j + k, if it does. -/
def tgFind (s : State) (c f : Nat) : Option Nat :=
  ((List.range (tgReg s c 0xC)).find? (fun i => decide (tgJ s c i = f / 64 % 327680))).map (fun i => 64 * i + f % 64)

/-- What the code found in the codewords of a run up to where it has come (R311): corrections count only in CE_COUNT; an error that
it cannot correct is one error of the run, once, and is the tier's where the channel is in service (R273). -/
def tgFault (c : Nat) (f : Nat × Nat) (s : State) : State :=
  match tgFind s c f.1 with
  | none => s
  | some i =>
    if (tgAt s c).pos ≤ i ∨ tgOp s c = 0 then s
    else if correctable f.2 then modChan c (fun x => { x with ce := sat 8 (x.ce + 1) }) s
    else
      let s := if tgOp s c = 1 && tgDiffers s c i then s else tgError c i s
      if (chanAt s c).state = 0 then uncorrectable (tgWord s c i).2.2 s else s

/-- The first codeword in error of a run is latched in MC_TG_ERR. -/
def tgLatch (c : Nat) (s : State) : State :=
  match (tgAt s c).first with
  | some i => modTg c (fun x => { x with err := tgJ s c (i / 64) * 8192 + i % 64 }) s
  | none => s

/-- A list of faults without a second entry for a codeword. -/
def oneEach (l : List (Nat × Nat)) : List (Nat × Nat) :=
  match l with
  | [] => []
  | f :: r => f :: (oneEach r).filter (fun g => decide (g.1 ≠ f.1))

/-- TG_STOP (R310): a run under way ends at the next codeword boundary; how far it has come since the last run time is a free
value. `faults`: what the code found, as in TG_RUN_DONE. -/
def execTgStop (c : Nat) (s : State) (faults : List (Nat × Nat) := []) : Host.Outcome State Fault Refusal :=
  run s (guarded (regsOn s && decide (c < 768) && (tgAt s c).state == 1) (fun s =>
    let (x, s) := fresh s
    let n := x % (tgLen s c - (tgAt s c).pos + 1)
    let s := tgAdvance c n (ceilDiv n 32) s
    tgLatch c (modTg c (fun x => { x with state := 3, opened := false }) (each (oneEach faults) (tgFault c) s))))

/-- TG_RUN_DONE (R278, R311): the run ends. `faults` lists the codewords in which the code found an error, 64 j + k, each with the
symbols in error. A scan of a channel in service hands its errors to the tier, and one of the whole channel that fails maps the
channel out. -/
def execTgRunDone (c : Nat) (faults : List (Nat × Nat)) (s : State) : Host.Outcome State Fault Refusal :=
  run s (guarded (decide (c < 768) && (tgAt s c).state == 1) (fun s =>
    let n := tgLen s c - (tgAt s c).pos
    let s := tgAdvance c n (ceilDiv n 32) s
    let s := tgLatch c (modTg c (fun x => { x with state := 2, result := 0, opened := false }) (each (oneEach faults) (tgFault c) s))
    if tgOp s c = 3 ∧ (chanAt s c).state = 0 ∧ 64 * 327680 ≤ tgLen s c ∧ (tgAt s c).first.isSome = true then mapOut c s else s))

/-- RUN_TIME (R261, R287, R291, R295-R298, R309): the next run time of a beat on pseudo-channel c. Run times 0, 32, 64 and 96 are
reserved, for the 14th queue and for a scan in service; a generator has every run time of a channel that is not; a gap beat deals
nothing (R305). Answers whose runs have issued go out. -/
def execRunTime (c : Nat) (s : State) : Host.Outcome State Fault Refusal :=
  run s (guarded (decide (c < 768) && inService s) (fun s =>
    let n := tget 0 s.rg.slot c
    if 128 ≤ n then s
    else
      let s := { s with rg := { s.rg with slot := tset 0 s.rg.slot c (n + 1) } }
      let serves := (chanAt s c).state == 0
      let s := if serves then s else tgRunTime c s
      let s := if s.rg.gap then s
        else if n % 32 = 0 then
          (if !issues s c then s else if (runQAt s c 13).runs.isEmpty then tgRunTime c s else reservedSlot c s)
        else dealtSlot c (s.rg.deal.getD (n - n / 32 - 1) 13) s
      releaseReady s))

/-- At the end of a beat, a group that has begun and has runs left closes its page (R291); each pseudo-channel starts a new count of
run times. -/
def endBeatRuns (s : State) : State :=
  let queue := s.rg.queue.map (fun e => (e.1, if e.2.begun && !e.2.runs.any (fun r => r.half) then { e.2 with page := 0, begun := false } else e.2))
  { s with rg := { s.rg with queue := queue.filter (fun e => decide (e.2 ≠ ({} : RunQ))), slot := [], taken := [] } }

/-! ## Regulator configuration (R293, R294, R298) -/

/-- The rate that a regulator has, or will have from the next round boundary on. -/
def rateSoon (s : State) (r : Nat) : Nat := match (regAt s r).next with | some n => n.1 | none => (regAt s r).rate

/-- RG_CFG_WRITE (R293, R294, R298, R301). -/
def execRgCfgWrite (r : Nat) (val : W32) (s : State) : Host.Outcome State Fault Refusal :=
  run s (guarded (regsOn s && decide (r < 13)) (fun s =>
    let rate := field val.toNat 16 7
    let borrow := bit val.toNat 31
    let bmax := field val.toNat 0 7
    let others := (((List.range 13).filter (fun k => decide (k ≠ r))).map (rateSoon s)).foldl (fun a b => a + b) 0
    if 124 < others + rate ∨ (r = 12 ∧ rate = 0) ∨ (borrow ∧ r < 12 ∧ confPart s r) then
      modReg r (fun x => { x with result := Status.code .denied }) s
    else modReg r (fun x => { x with next := some (rate, borrow, bmax), state := 2 }) (regSet (0xA04000 + 0x40 * r) (val.toNat &&& 0x807F007F) s)))

/-- At a round boundary the changes pending take effect, and the run times of the round are dealt (R290, R293). -/
def applyRates (s : State) : State :=
  let s := each (List.range 13) (fun r s => match (regAt s r).next with
    | some n => modReg r (fun x => { x with rate := n.1, borrow := n.2.1, bmax := n.2.2, next := none, state := 1, result := 0 }) s
    | none => s) s
  { s with rg := { s.rg with deal := dealOf s } }

end Sys2Proof.Machine
end

