-- ==== Sys2Proof/Machine/Start.lean ====
section
/-!
DEFINITION. Cold reset and the start-up phases (R35, R50, R76-R78, R87-R91, R315, R316, R660-R672).
-/
namespace Sys2Proof.Machine
open Sys2Proof

/-! ## The image (R661, R662) -/

/-- The payload bytes that a header announces. -/
def imageLen (img : List Byte) : Nat := fieldAt img 16 4
/-- The major of FW_VERSION. -/
def imageMajor (img : List Byte) : Nat := fieldAt img 6 2
/-- MIN_FROM. -/
def imageMinFrom (img : List Byte) : Nat := fieldAt img 10 2
/-- SVN. -/
def imageSvn (img : List Byte) : Nat := fieldAt img 12 4

/-- The header check of R662: MAGIC, reserved bytes, LENGTH, and a payload of that length. -/
def headerOk (img : List Byte) : Bool :=
  fieldAt img 0 4 == 0x53465750 && zeroAt img 164 348 && imageLen img % 4096 == 0 && decide (imageLen img ≤ 0x17FF000) &&
    decide (512 + imageLen img ≤ img.length)

/-- MAJOR and MINOR of BLK_VERSION in the form of BLK_MAJMIN. -/
def blkMajMin (s : State) : Nat := field (regGet s 0) 16 16

/-- The first check of R662 that an image fails: its CAUSE. -/
def imageCause (s : State) (img : List Byte) : Option Nat :=
  if !headerOk img then some 0x02
  else if !Config.fwVerify (img.take 68) ((img.drop 68).take 96) then some 0x03
  else if (img.drop 20).take 48 ≠ Config.sha384 ((img.drop 512).take (imageLen img)) then some 0x04
  else if imageSvn img < s.fw.fuses.svn then some 0x05
  else if fieldAt img 8 2 ≠ blkMajMin s then some 0x06
  else none

/-- The image lies in flash: the anti-rollback count rises to its SVN (R662). -/
def raiseSvn (img : List Byte) (s : State) : State :=
  { s with fw := { s.fw with fuses := { s.fw.fuses with svn := max s.fw.fuses.svn (imageSvn img) } } }

/-! ## The boot parameters (R663, R664) -/

/-- The boot parameters pass their checks. -/
def paramsOk (l : List Byte) : Bool :=
  l.length == 4096 && fieldAt l 0 4 == 0x5350424D && fieldAt l 4 4 == crc32c (l.drop 8) &&
    zeroAt l 10 6 && zeroAt l 104 24 && zeroAt l 512 3584

/-- A range of task types that an EAP may have (R59). -/
def eapRangeOk (v : Nat) : Bool := bit v 15 && bit v 7 && decide (field v 0 8 ≤ field v 8 8)

/-- BLK_EAPn_CFG from the boot parameters: a bad range loads with ENABLE 0 and a CE; an EAP that is not wired is ignored (R59, R84). -/
def loadEap (l : List Byte) (n : Nat) (s : State) : State :=
  let v := fieldAt l (16 + 4 * n) 4 % 2 ^ 32 &&& 0xBF00FFFF
  if eapRangeOk v then regSet (0x20 + 4 * n) v s
  else
    let s := regSet (0x20 + 4 * n) (v % 2 ^ 31) s
    if bit (regGet s 0x8) (20 + n) then reportCe 0 0 0x07 0 s else s

/-- The registers of a port that the boot parameters give (R46, R389). -/
def loadPort (l : List Byte) (p : Nat) (s : State) : State :=
  let s := modPort p (fun x => { x with txLat := fieldAt l (32 + 8 * p) 4, rxLat := fieldAt l (36 + 8 * p) 4 }) s
  let o := 128 + 48 * p
  let s := each (List.range 8) (fun i s => regSet (portReg p (0x50 + 4 * i)) (fieldAt l (o + 4 * i) 4) s) s
  each [0, 1] (fun k s =>
    regSet (portReg p (0x74 + 8 * k)) (fieldAt l (o + 36 + 8 * k) 2) (regSet (portReg p (0x70 + 8 * k)) (fieldAt l (o + 32 + 8 * k) 4) s)) s

/-- Firmware reads the boot parameters (R664): bad ones leave the reset values, with a CE and CAUSE 0x0C. -/
def loadParams (s : State) : State :=
  let l := s.fw.flash.params
  if paramsOk l then
    let s := regSet 0xC00000 (fieldAt l 8 2 % 4096) s
    let s := each (List.range 4) (loadEap l) s
    let s := each (List.range 8) (loadPort l) s
    let tel := (List.range 8).foldl (fun t n => tmod {} t n (fun c => { c with map := byteAt l (96 + n) })) s.blk.tel
    { s with blk := { s.blk with tel := tel } }
  else reportCe 0 0 0x07 0 { s with blk := { s.blk with cause := 0x0C } }

/-! ## Cold reset -/

/-- COLD_RESET_RELEASE (R62, R76, R665, R667): the CSB starts and reads the flash. The clocks of the integrator are taken to run
(log entry 3). -/
def execColdResetRelease (s : State) : Host.Outcome State Fault Refusal :=
  .next (if !s.blk.coldLow then s
    else
      let b := { s.blk with coldLow := false, stopped := false, bootState := if s.fw.flash.sfdp then 1 else 7,
                            cause := if s.fw.flash.sfdp then 0 else 1, phase := 1, ctrlLock := true, meshLock := true, arrayLock := true,
                            hostOk := true, portOk := true, mcOk := List.range 12, linkUp := true }
      modProc 4 (fun x => { x with pstate := 1 }) { s with blk := b, pm := { s.pm with thrPin := s.blk.throttle } })

/-- COLD_RESET_ASSERT (R21, R78): all state is lost but the flash and the fuses; pins stay as they are driven. A flash write under way
leaves no valid header (R675). -/
def execColdResetAssert (s : State) : Host.Outcome State Fault Refusal :=
  let flash := { s.fw.flash with image := if s.fw.writing.isSome then [] else s.fw.flash.image }
  let r := State.reset
  .next { r with
    blk := { r.blk with linkUp := s.blk.linkUp, mps := s.blk.mps, mrrs := s.blk.mrrs, doeAbort := s.blk.doeAbort, throttle := s.blk.throttle }
    regs := s.regs.filter (fun e => decide (e.1 = 0 ∨ e.1 = 4 ∨ e.1 = 8))
    fw := { r.fw with flash := flash, fuses := s.fw.fuses }
    ports := { r.ports with out := s.ports.out }
    freeCtr := s.freeCtr
    pending := s.pending }

/-- IREQ_READY_ASSERT (R35). -/
def execIreqReadyAssert (s : State) : Host.Outcome State Fault Refusal :=
  run s (fun s => { s with blk := { s.blk with ireqReady := true } })

/-! ## The phases -/

/-- Phase 4 (R665): the stewards run an image. -/
def startStewards (img : List Byte) (s : State) : State :=
  let s := { s with blk := { s.blk with bootState := 2, cause := 0, phase := 4 }, fw := { s.fw with running := img, recovering := false } }
  loadParams (each (List.range 4) (fun k s => modProc k (fun x => { x with pstate := 1 }) s) s)

/-- The CSB checks an image it has read; `fromHost`: in RECOVERY (R668, R669). -/
def checkImage (fromHost : Bool) (img : List Byte) (s : State) : State :=
  match imageCause s img with
  | some c => { s with blk := { s.blk with bootState := 7, cause := c }, fw := { s.fw with recovering := false } }
  | none =>
    if !fromHost then startStewards img (raiseSvn img s)
    else if bit (regGet s 0x30) 30 then { s with fw := { s.fw with writing := some 0 } }
    else startStewards img s

/-- CSB_IMAGE_CHECK (R662, R667, R669): the image of the flash, or one fetched in RECOVERY once its reads are done. -/
def execCsbImageCheck (s : State) : Host.Outcome State Fault Refusal :=
  run s (fun s =>
    if s.blk.bootState = 1 then checkImage false s.fw.flash.image s
    else if s.blk.bootState = 7 ∧ s.fw.recovering = true ∧ s.fw.writing = none ∧ ¬ s.ports.oreq.any (fun r => r.use == .recovery) then
      checkImage true s.fw.recovery s
    else s)

/-- RECOVERY_GO (R668, R671): a write of BLK_RCV_CTRL with GO. In RECOVERY the CSB fetches the image, with reads that carry no PASID. -/
def execRecoveryGo (val : W32) (s : State) : Host.Outcome State Fault Refusal :=
  run s (guarded (s.blk.ireqReady && bit val.toNat 31) (fun s =>
    let s := regWrite 0x30 val.toNat s
    if s.blk.bootState ≠ 7 ∨ s.fw.recovering = true then s
    else
      let n := field val.toNat 0 13 * 4096
      let a := alignDown (regGet s 0x34) 4096 + 2 ^ 32 * regGet s 0x38
      let s := { s with fw := { s.fw with recovering := true, recovery := [] } }
      each (List.range (ceilDiv n (maxRead s))) (fun i s =>
        let o := maxRead s * i
        askRead { tag := 0, addr := a + o, len := min (maxRead s) (n - o), ctx := none, use := .recovery, dest := o } s) s))

/-- FAILED (R667). -/
def bootFailed (cause : Nat) (s : State) : State := { s with blk := { s.blk with bootState := 8, cause := cause } }

/-- The arrays of a sector (R88): of those that work, the first 72 are enabled in rising order and the others held in reserve. -/
def mapSector (bad : List Nat) (n : Nat) (s : State) : State :=
  let all := (List.range 76).map (fun i => 76 * n + i)
  let failed := s.fw.fuses.failed
  let ok := all.filter (fun p => !failed.contains p && !bad.contains p)
  let s := each all (fun p s => modPhys p (fun x => { x with role := if failed.contains p then 1 else if bad.contains p then 5 else 3 }) s) s
  each ((ok.take 72).zip (List.range 72)) (fun e s =>
    let l := 72 * n + e.2
    let s := modPhys e.1 (fun x => { x with role := 2, logical := l }) s
    { s with arr := { s.arr with lmap := tset 0 s.arr.lmap l (e.1 + 1) } }) s

/-- Phase 5 (R50, R665, R667): the identities of the strata and their bank groups. On a mismatch of identities the stewards' PSTATE goes
back to 0, since R50 forbids to start them and R665 has started them in an earlier phase: DESIGN CHOICE (log entry 136). -/
def bondTest (match0 match1 : Bool) (fail0 fail1 : List Nat) (s : State) : State :=
  let f0 := fail0.foldl (fun l i => sinsert i l) []
  let f1 := fail1.foldl (fun l i => sinsert i l) []
  if !(match0 && match1) then bootFailed 0x07 (each (List.range 4) (fun k s => modProc k (fun x => { x with pstate := 0 }) s) s)
  else if 8 < f0.length ∨ 8 < f1.length then bootFailed 0x08 (report 4 0 0x20 2 false 0 s)
  else { s with blk := { s.blk with strataOk := true, bgFailed0 := f0, bgFailed1 := f1, bootState := 3, phase := 6 } }

/-- Phase 6 (R70, R88, R128, R665): the array map and the stacks without a clock; stack training begins. -/
def arrayTest (bad : List Nat) (s : State) : State :=
  let s := { s with blk := { s.blk with bootState := 4, phase := 7 } }
  let s := each (List.range 12) (mapSector bad) s
  each (List.range 12) (fun n s =>
    if !s.blk.mcOk.contains n ∨ stackGone s n = true then stackOut n 4 s
    else modStack n (fun x => { x with state := 1 }) s) s

/-- STRATA_BOND_TEST (R50, R88, R128, R665): the tests before stack training. The first ends phase 5: `fail0` and `fail1` are the failed
bank groups of the strata. The second ends phase 6: `bad` are the arrays that fail their self-test. -/
def execStrataBondTest (match0 match1 : Bool) (fail0 fail1 bad : List Nat) (s : State) : Host.Outcome State Fault Refusal :=
  run s (fun s =>
    if s.blk.bootState = 2 then bondTest match0 match1 fail0 fail1 s
    else if s.blk.bootState = 3 then arrayTest bad s
    else s)

/-- MC_FT_CAP counts the granules of the stacks that are present (R282, R316). -/
def presentGranules (s : State) : Nat := ((List.range 12).filter (fun n => !stackGone s n)).length * 0x1400000

/-- The stacks that training still works on. -/
def trainees (s : State) : List Nat := (List.range 12).filter (fun n => (stackAt s n).state == 1)

/-- Phases 1 and 2 (R315, R316): the stacks that fail are lost, with a CE. -/
def trainInit (failed : List Nat) (s : State) : State :=
  each ((trainees s).filter (fun n => failed.contains n)) (fun n s => reportCe 3 (64 * n) 0x07 0 (stackOut n 5 s)) s

/-- Runs and page groups of whole-stack passes. -/
def trainPasses (k : Nat) (s : State) : State :=
  each (trainees s) (fun n s => countRuns n (k * (stackSize / 256)) (k * (stackSize / 2048)) s) s

/-- Pseudo-channels that failed a phase, to be mapped out (R316). -/
def trainFails (l : List Nat) (s : State) : State :=
  { s with mem := { s.mem with trainBad := (l.filter (fun c => decide (c < 768))).foldl (fun l c => sinsert c l) s.mem.trainBad } }

/-- Phase 6: failing pseudo-channels are mapped out, the stacks are in service, and port training begins (R319). -/
def trainEnd (s : State) : State :=
  let s := each (trainees s) (fun n s => modStack n (fun x => { x with state := 2 }) s) s
  let s := { s with mem := { s.mem with retired := [], ftCap := presentGranules s, ftRetired := 0 } }
  let s := each (s.mem.trainBad.filter (fun c => !stackGone s (c / 64))) mapOut s
  if (List.range 12).all (stackGone s) then bootFailed 0x09 s
  else
    let s := { s with blk := { s.blk with bootState := 5, phase := 8 } }
    each (List.range 8) (fun p s => if portTrains s p then trainFresh p s else s) s

/-- STACK_TRAINING (R40, R315, R316): phase `step` of the training of all stacks ends; the phases come in order. `failed` names the
stacks that fail phase 1 or 2, `chans` the pseudo-channels that fail phase 3, or in phase 4 each with its failing granules,
`samples` the sample rows of phase 3. -/
def execStackTraining (failed : List Nat) (chans : List (Nat × Nat)) (s : State) (step : Nat := 1) (samples : Nat := 0) :
    Host.Outcome State Fault Refusal :=
  run s (guarded (s.blk.bootState == 4 && step == s.mem.train + 1) (fun s =>
    let s := { s with mem := { s.mem with train := step } }
    match step with
    | 1 => trainInit failed (each (trainees s) (fun n s => emit (.dfiInit n) s) s)
    | 2 => trainInit failed s
    | 3 => trainFails (chans.map (fun c => c.1)) (each (trainees s) (fun n s => countRuns n (8 * samples) samples s) s)
    | 4 => trainFails ((chans.filter (fun c => decide (64 < c.2))).map (fun c => c.1)) (trainPasses 4 s)
    | 5 => trainPasses 1 { s with mem := { s.mem with cells := [], poison := [] } }
    | 6 => trainEnd s
    | _ => s))

/-- PORT_TRAINING_TIMEOUT (R319, R666): a CE for every port that is still training; start-up goes on without it. -/
def execPortTrainingTimeout (s : State) : Host.Outcome State Fault Refusal :=
  run s (guarded (s.blk.bootState == 5 || regsOn s) (fun s =>
    let s := each (List.range 8) (fun p s =>
      if portTrains s p ∧ (portAt s p).state = 1 ∧ (portAt s p).logged = false then laneCe p (modPort p (fun x => { x with logged := true }) s)
      else s) s
    if s.blk.bootState = 5 then { s with blk := { s.blk with phase := 9 } } else s))

/-- Port training has ended: by the timeout, or since every port that trains is up (R666). -/
def portsReady (s : State) : Bool :=
  s.blk.phase == 9 || (List.range 8).all (fun p => !portTrains s p || (portAt s p).state == 2 || (portAt s p).state == 3)

/-- A regulator starts with a rate, strict (R294). -/
def startRate (r rate : Nat) (s : State) : State :=
  modReg r (fun x => { x with rate := rate, state := 1 }) (regSet (0xA04000 + 0x40 * r) (rate * 2 ^ 16) s)

/-- REPORT_READY (R85, R294, R295, R381, R665, R666, R670): locks, regulators in force, lookup engines, READY_MS and source 36. -/
def execReportReady (ms : Nat) (s : State) : Host.Outcome State Fault Refusal :=
  run s (guarded (s.blk.bootState == 5 && portsReady s) (fun s =>
    let s := regSet 0xC00004 1 (regSet 0x10 1 s)
    let s := startRate 12 12 (startRate 0 112 s)
    let s := each (List.range 13) (fun r s => modReg r (fun x => { x with state := 1 }) s) s
    let s := { s with rg := { s.rg with deal := dealOf s } }
    let s := each (List.range 48) (fun n s => modLce n (fun x => { x with state := 1 }) s) s
    let s := { s with blk := { s.blk with bootState := 6, phase := 10, readyMs := min ms 0xFFF }, pm := { s.pm with listen := some 0 } }
    arrive 36 s))

end Sys2Proof.Machine
end

