-- ==== Sys2Proof/Machine/Firmware.lean ====
section
/-!
DEFINITION. Firmware update in service (R672-R675).
-/
namespace Sys2Proof.Machine
open Sys2Proof

/-- A firmware-update command runs; the stewards run them out of service too (R717). -/
def onFwBox (code : Nat) (f : State → State) (s : State) : State :=
  guarded (boxRuns s 256 code && ((planeUp s && s.err.state != 2) || s.blk.bootState == 9)) f s

/-- FW_STAGE's image fails a check (R662, R673). -/
def stageDenied (s : State) (img : List Byte) (poison : Bool) (k : Nat) : Bool :=
  poison || (imageCause s img).isSome || decide (imageMajor s.fw.running < imageMinFrom img) || stackGone s (k / 80)

/-- FW_STAGE (R673): the image is copied into chunk k and checked. `host` is what the read of host memory gives. -/
def execFwStage (host : HostData) (s : State) : Host.Outcome State Fault Refusal :=
  run s (onFwBox 0x0300 (fun s =>
    let k := field (boxWord s 256 1) 0 10
    let a := boxPair s 256 2
    let n := boxWord s 256 4
    let img := padTo host.bytes n
    if 960 ≤ k ∨ a % 4096 ≠ 0 ∨ chunkSize < n ∨ headerOk img = false ∨ n ≠ 512 + imageLen img then replySt 256 .faultFormat s
    else if stageDenied s img host.poison k then replySt 256 .denied s
    else if s.fw.upd ≠ 0 ∨ tget .free s.fe.ftOwn k ≠ .free then replySt 256 .busy s
    else
      let s := writeMem (k * chunkSize) img (fun _ => false) s
      replySt 256 .done { s with fw := { s.fw with upd := 2, chunk := k, staged := img, newOn := 0 } }))

/-- FW_HANDOVER (R673, R674): BUSY during a block reset; otherwise the handover waits for the next round boundary, and the reply comes when
it has ended. -/
def execFwHandover (s : State) : Host.Outcome State Fault Refusal :=
  run s (fun s => if boxRuns s 256 0x0301 && s.fw.hand.isNone && (s.err.bPending.isSome || s.err.state == 1) then replySt 256 .busy s else onFwBox 0x0301 (fun s =>
    let k := field (boxWord s 256 1) 0 2
    if s.fw.hand.isSome then s
    else if s.fw.upd = 0 ∨ bit s.fw.newOn k then replySt 256 .denied s
    else if s.fe.reconf.isSome ∨ ¬ s.fe.scrubbing.isEmpty then replySt 256 .busy s
    else { s with fw := { s.fw with hand := some (k, 0) } }) s)

/-- A round boundary comes (R674). -/
def handoverRound (s : State) : State :=
  match s.fw.hand with
  | some (k, 0) => { s with fw := { s.fw with hand := some (k, 1) } }
  | _ => s

/-- The handover source of processor k's bank arrives; which of the 32 it is is a free value (R624, R625, log entry 142). -/
def bankArrive (k : Nat) (s : State) : State :=
  let (x, s) := fresh s
  let i := 32 * k + x % 32
  { s with ic := { s.ic with banked := tset 0 s.ic.banked i (Nat.min 255 (tget 0 s.ic.banked i + 1)) } }

/-- Processor k takes what its bank holds. -/
def bankTake (k : Nat) (s : State) : State :=
  { s with ic := { s.ic with banked := s.ic.banked.filter (fun x => decide (x.1 / 32 ≠ k)) } }

/-- HANDOVER_START (R674): the steward takes no messages and loads no slots; the CSB loads the staged image into it. The arrival at the
steward's bank tells it of the handover. -/
def execHandoverStart (s : State) : Host.Outcome State Fault Refusal :=
  run s (fun s => match s.fw.hand with
    | some (k, 1) => bankArrive k (modProc k (fun x => { x with pstate := 2 })
        { s with fw := { s.fw with hand := some (k, 2), upd := 3 } })
    | _ => s)

/-- A handover ends: the steward runs again, posts its notice, and the command is answered. -/
def endHandover (k : Nat) (ok : Bool) (s : State) : State :=
  let newOn := if ok then s.fw.newOn ||| 2 ^ k else s.fw.newOn
  let s := modProc k (fun x => { x with pstate := 1 }) { s with fw := { s.fw with hand := none, upd := 2, newOn := newOn } }
  let s := notice 0 0x07 (k + 256 * b2n ok) (bankTake k s)
  replyFor 256 0x0301 (if ok then .done else .faultTimeout) s

/-- HANDOVER_COMPLETE (R674). -/
def execHandoverComplete (s : State) : Host.Outcome State Fault Refusal :=
  run s (fun s => match s.fw.hand with
    | some (k, 2) => endHandover k true s
    | _ => s)

/-- HANDOVER_TIMEOUT (R675): the steward is reloaded from the flash copy. -/
def execHandoverTimeout (s : State) : Host.Outcome State Fault Refusal :=
  run s (fun s => match s.fw.hand with
    | some (k, 2) => endHandover k false s
    | _ => s)

/-- FW_COMMIT (R673, R675): the write begins; the reply comes when it has ended. -/
def execFwCommit (s : State) : Host.Outcome State Fault Refusal :=
  run s (onFwBox 0x0302 (fun s =>
    if s.fw.writing.isSome then s
    else if s.fw.newOn ≠ 0xF then replySt 256 .denied s
    else { s with fw := { s.fw with writing := some 1, upd := 4 } }))

/-- An image has been written to flash, its header last; the anti-rollback count follows (R662, R675). -/
def flashImage (img : List Byte) (s : State) : State :=
  raiseSvn img { s with fw := { s.fw with writing := none, flash := { s.fw.flash with image := img } } }

/-- FLASH_WRITE_DONE (R669, R675): the image of FW_COMMIT is the one every steward runs; that of recovery is started. -/
def execFlashWriteDone (s : State) : Host.Outcome State Fault Refusal :=
  run s (fun s => match s.fw.writing with
    | none => s
    | some 0 => startStewards s.fw.recovery (flashImage s.fw.recovery s)
    | some _ =>
      if (planeUp s && s.err.state != 2) || s.blk.bootState == 9 then
        let s := flashImage s.fw.staged s
        replyFor 256 0x0302 .done { s with fw := { s.fw with running := s.fw.staged, staged := [], upd := 0, newOn := 0 } }
      else s)

/-- FW_ABORT (R673). -/
def execFwAbort (s : State) : Host.Outcome State Fault Refusal :=
  run s (onFwBox 0x0303 (fun s =>
    if s.fw.newOn ≠ 0 then replySt 256 .denied s
    else replySt 256 .done { s with fw := { s.fw with upd := 0, staged := [] } }))

end Sys2Proof.Machine
end

