-- ==== Sys2Proof/Machine/Sched.lean ====
section
/-!
DEFINITION. Slots and walkers (R488-R495), dispatch (R496-R499), turns and the schedule registers (R502-R511, R524-R528), the
watchdog (R512-R514) and the deadlock scan (R515-R517).
-/
namespace Sys2Proof.Machine
open Sys2Proof

/-! ## Slots (R488-R493) -/

/-- The partition of a queue. -/
def queuePart (s : State) (q : Nat) : Nat := partOfCtx s (queueAt s q).ctx

/-- The rank of a queue (R492). -/
def queueRank (s : State) (q : Nat) : Nat := rankOf s (queuePart s q) (classOf s q)

/-- The beat at which the head command of a queue was published. -/
def headBeat (x : Queue) : Nat := ((x.published.head?).map (fun d => d.2)).getD 0

/-- The head command of a queue can be accepted, slot apart (R491). -/
def wantsSlot (s : State) (q : Nat) : Bool :=
  let x := queueAt s q
  x.state == .ready && !x.cqFull && x.guilty.isNone && x.held.isNone && x.sqHead != x.sqTail && !walkerWait s q &&
    !(x.launchHead && decide (16 ≤ (launchesOf s q).length))

/-- Queues of a partition that wait for a slot. -/
def slotWaiters (s : State) (p : Nat) : List Nat :=
  (s.fe.q.map (fun e => e.1)).filter (fun q => decide (queuePart s q = p) && wantsSlot s q && !resident s q)

/-- The queue that takes the next slot of a partition: best rank, then the oldest publication. -/
def nextWaiter (s : State) (p : Nat) : Option Nat :=
  minBy (fun q => queueRank s q * 2 ^ 64 + headBeat (queueAt s q)) (slotWaiters s p)

/-- Units of `n` that are reserved to each partition (R489). -/
def reservedUnits (s : State) (n : Nat) : Nat := n * perPart s / 12

/-- Unit i of `n` is one of the reserved units of partition p: those of partition p come p-th (DESIGN CHOICE, log entry 12). -/
def reservedFor (s : State) (n p i : Nat) : Bool :=
  decide (reservedUnits s n * p ≤ i) && decide (i < reservedUnits s n * (p + 1))

/-- Unit i of `n` floats. -/
def floats (s : State) (n i : Nat) : Bool := decide (reservedUnits s n * s.fe.parts ≤ i) && decide (i < n)

/-- Slot i holds a queue. -/
def slotBusy (s : State) (i : Nat) : Bool := (tget {} s.fe.slot i).valid

/-- A partition qualifies for a floating slot (R490). -/
def slotQualifies (s : State) (p : Nat) : Bool :=
  !confPart s p && (List.range 32).all (fun i => !reservedFor s 32 p i || slotBusy s i) && !(slotWaiters s p).isEmpty

/-- The partition after `last`, in round-robin order, that qualifies. -/
def roundRobin (s : State) (qualifies : Nat → Bool) (last : Nat) : Option Nat :=
  (firstFrom (fun i => qualifies ((last + i) % s.fe.parts)) 1 s.fe.parts).map (fun i => (last + i) % s.fe.parts)

/-- The steward of a queue's VAI runs (R623, R713). -/
def stewardUp (s : State) (v : Nat) : Bool := (procAt s (v % 4)).pstate == 1

/-- QUEUE_LOAD (R488-R493): the queue that goes first among the waiting ones of its partition takes a free slot. -/
def execQueueLoad (q slot : Nat) (s : State) : Host.Outcome State Fault Refusal :=
  run s (guarded (computeOn s && decide (slot < 32)) (fun s =>
    let p := queuePart s q
    let fl := floats s 32 slot
    let may := reservedFor s 32 p slot || (fl && roundRobin s (slotQualifies s) s.fe.rrSlot == some p)
    if nextWaiter s p = some q ∧ may ∧ ¬ slotBusy s slot ∧ stewardUp s (queueAt s q).vai then
      { s with fe := { s.fe with slot := tset {} s.fe.slot slot ⟨true, q, p, beat s⟩,
                                 rrSlot := if fl then p else s.fe.rrSlot } }
    else s))

/-- Firmware unloads a resident queue in the three cases of R492. -/
def mayUnload (s : State) (x : Slot) : Bool :=
  let q := x.queue
  let w := slotWaiters s x.part
  !wantsSlot s q ||
    w.any (fun a => decide (queueRank s a < queueRank s q ∧ headBeat (queueAt s a) ≤ (partAt s x.part).turnAt)) ||
    (decide (x.since + 64 ≤ beat s) && w.any (fun a => decide (queueRank s a ≤ queueRank s q)))

/-- QUEUE_UNLOAD (R490-R492). -/
def execQueueUnload (q : Nat) (s : State) : Host.Outcome State Fault Refusal :=
  run s (guarded (computeOn s && stewardUp s (queueAt s q).vai) (fun s =>
    match s.fe.slot.find? (fun e => decide (e.2.valid = true ∧ e.2.queue = q)) with
    | some e => if mayUnload s e.2 then freeSlot q s else s
    | none => s))

/-! ## Walkers (R490, R494) -/

/-- The partition of a launch. -/
def launchPart (s : State) (x : Launch) : Nat := queuePart s x.queue

/-- Launches that walker w holds. -/
def walkerLoad (s : State) (w : Nat) : List Launch := s.fe.launches.filter (fun x => decide (x.walker = some w))

/-- A launch waits for a walker and may be issued. -/
def launchWaits (s : State) (x : Launch) : Bool :=
  x.walker.isNone && launchStarts s x && (queueAt s x.queue).guilty.isNone && (queueAt s x.queue).state != .resetting

/-- A partition qualifies for a floating walker. -/
def walkerQualifies (s : State) (p : Nat) : Bool :=
  !confPart s p && (List.range 16).all (fun w => !reservedFor s 16 p w || decide (64 ≤ (walkerLoad s w).length)) &&
    s.fe.launches.any (fun x => decide (launchPart s x = p) && launchWaits s x)

/-- A launch of partition p may bind to walker w now. -/
def walkerFits (s : State) (p w : Nat) : Bool :=
  let l := walkerLoad s w
  decide (l.length < 64) && (reservedFor s 16 p w || (floats s 16 w && walkerQualifies s p && (match l with
    | [] => roundRobin s (walkerQualifies s) s.fe.rrWalk == some p
    | x :: _ => decide (launchPart s x = p))))

/-- Nodes of a launch whose predecessors have all ended issue, while sequencers have room (R497). -/
def issueRoots (x : Launch) (s : State) : State :=
  each (List.range x.nodes.length) (fun n s =>
    if x.nodes[n]? = some (.waiting 0) ∧ dispatchFull s (launchPart s x) = false then issueNode x.id n s else s) s

/-- The walkers of a partition issue the nodes that waited for room at a sequencer. -/
def issueHeld (p : Nat) (s : State) : State :=
  each (s.fe.launches.filter (fun x => x.walker.isSome && launchPart s x == p && (queueAt s x.queue).guilty.isNone &&
    (queueAt s x.queue).state != .resetting)) issueRoots s

/-- WALKER_BIND (R456, R494): a launch that has started binds to a walker with room, and its first nodes are issued. For one that
is bound, nodes that waited for room at a sequencer issue. -/
def execWalkerBind (launch walker : Nat) (s : State) : Host.Outcome State Fault Refusal :=
  run s (guarded (computeOn s && decide (walker < 16)) (fun s => match launchOf s launch with
    | none => s
    | some x =>
      let p := launchPart s x
      if launchWaits s x ∧ walkerFits s p walker ∧ ¬ dispatchFull s p then
        let given := floats s 16 walker && (walkerLoad s walker).isEmpty
        let s := { s with fe := { s.fe with rrWalk := if given then p else s.fe.rrWalk } }
        let s := modCmd x.queue x.cmd (fun e => { e with start := beat s })
          (modLaunch launch (fun x => { x with walker := some walker }) s)
        settle x.queue (issueRoots x s)
      else issueHeld p s))

/-! ## Dispatch (R496-R499) -/

/-- The sequencer of partition p with the fewest tasks that has room; its sector is in service. -/
def pickSeq (s : State) (p : Nat) : Option Nat :=
  minBy (fun k => (readyAt s k).length)
    ((lsqsOf s p).filter (fun k => decide ((readyAt s k).length < 1024) && sectorOn s (k / 4)))

/-- An array task joins a sequencer. -/
def toSeq (k : Nat) (t : Task) (s : State) : State :=
  let s := modTask t.seq (fun t => { t with place := .lsq k }) s
  let s := if taskRank s t = 1 then raiseInTurn k s else s
  stageQueue t.queue (fillSeq k s)

/-- The step mover of partition p with the fewest KV_PASS tasks. -/
def pickMover (s : State) (p : Nat) : Option Nat :=
  minBy (fun m => (s.fe.tasks.filter (fun t => decide (t.place = .mover m))).length) ((sectorsOf s p).filter (sectorOn s))

/-- The unit that a task's type names takes it. -/
def place (t : Task) (s : State) : State :=
  let p := partOfCtx s t.ctx
  let put := fun (x : Place) (s : State) => modTask t.seq (fun t => { t with place := x }) s
  if t.ty = 0 then
    match pickSeq s p with
    | some k => toSeq k t s
    | none => s
  else if t.ty = 0x10 ∨ t.ty = 0x11 ∨ t.ty = 0x12 then
    match pickLce s p with
    | some n => if (lceAt s n).queue.length < 64 then
        put (.lceQueue n) (modLce n (fun x => { x with queue := x.queue ++ [.task t.seq] }) s) else s
    | none => s
  else if t.ty = 0x19 then
    match pickMover s p with
    | some m => put (.mover m) s
    | none => s
  else if t.ty < 0x80 then put .ready s
  else match eapOf s t.ty with
    | none => taskFault t.seq .faultFormat (detailOf t.ctx 0) s
    | some e =>
      let s := { s with blk := { s.blk with eapWait := s.blk.eapWait ++ [(e, t.seq)] } }
      issueWaiting 64 e (put (.eapWait e) s)

/-- An ORDERED task becomes ready only now: it takes its place in ready order. -/
def readyLate (seq : Nat) (s : State) : State :=
  let n := s.fe.readyCtr
  modTask seq (fun t => { t with ready := n }) { s with fe := { s.fe with readyCtr := n + 1 } }

/-- DISPATCH (R445, R496): a task that has become ready goes to its unit. A malformed record, such as patch values may make of a
node's, ends with FAULT_FORMAT (R454). -/
def execDispatch (seq : Nat) (s : State) : Host.Outcome State Fault Refusal :=
  run s (guarded (computeOn s) (fun s => match taskOf s seq with
    | none => s
    | some t =>
      if t.place ≠ .front ∨ orderedWaits s t ∨ ¬ mayRun s t.queue then s
      else if !recordOk t.record then taskFault seq .faultFormat (detailOf t.ctx 0) s
      else
        let n := s.fe.readyCtr
        issueHeld (partOfCtx s t.ctx) (if isOrdered s t then place { t with ready := n } (readyLate seq s) else place t s)))

/-- Tasks of sequencer k that another may take (R499). -/
def stealable (s : State) (k : Nat) : List Task := fillable s k

/-- Where a task stands when sequencer k has taken it. -/
def stolen (k : Nat) (x : Place) : Place :=
  match x with
  | .saved _ => .saved k
  | _ => .lsq k

/-- TASK_STEAL (R499): a sequencer with an idle array and no ready task takes the oldest task of the highest rank from the sequencer
of its partition that holds the most. -/
def execTaskSteal (k : Nat) (s : State) : Host.Outcome State Fault Refusal :=
  run s (guarded (computeOn s && decide (k < 48)) (fun s =>
    let hungry := (arraysOf s k).any (fun l => match physOf s l with
      | some p => (arrAt s p).queue.isEmpty
      | none => false)
    let donors := (lsqsOf s (partOfArray s (18 * k))).filter (fun j => decide (j ≠ k) && !(stealable s j).isEmpty)
    if !hungry ∨ ¬ (fillable s k).isEmpty then s
    else match minBy (fun j => 2 ^ 20 - (stealable s j).length) donors with
      | none => s
      | some j => match minBy (fun t => taskRank s t * 2 ^ 64 + t.ready) (stealable s j) with
        | none => s
        | some t => fillSeq k (modTask t.seq (fun t => { t with place := stolen k t.place }) s)))

/-! ## Turns (R501, R502, R509-R511) -/

/-- Offset of this beat in its round. -/
def roundOffset (s : State) : Nat := beat s % roundBeats s

/-- START of active turn k of partition p. -/
def turnStart (s : State) (p k : Nat) : Nat := field (regGet s (0x101200 + 0x400 * p + 4 * k)) 16 12

/-- The turn that holds an offset of the round. -/
def turnHolding (s : State) (p off : Nat) : Nat :=
  ((List.range ((partAt s p).countM1 + 1)).filter (fun k => decide (turnStart s p k ≤ off))).getLast?.getD 0

/-- Turn k of partition p begins after a turn of owner `old`: entries that are not of rank 1 go back, and requests are raised
when the owner changes. -/
def turnBegins (p k old : Nat) (s : State) : State :=
  let s := modPart p (fun x => { x with turn := k, turnAt := beat s }) s
  let ks := lsqsOf s p
  let ls := (List.range 864).filter (fun l => decide (partOfArray s l = p))
  let s := each ls (fun l s => match physOf s l with
    | some a => if (arrAt s a).rank1 then modArr a (fun x => { x with rank1 := false }) s else s
    | none => s) s
  let s := each ks (fun k s => fillSeq k (requeue k s)) s
  if turnOwner s p = old then s else each ks (fun k s => raisePre k s) s

/-- TURN_BOUNDARY (R501, R502, R509): the beat has reached the next turn of partition p. -/
def execTurnBoundary (p : Nat) (s : State) : Host.Outcome State Fault Refusal :=
  run s (guarded (computeOn s && decide (p < s.fe.parts)) (fun s =>
    let k := turnHolding s p (roundOffset s)
    if k = (partAt s p).turn then s else turnBegins p k (turnOwner s p) s))

/-! ## Schedule registers (R506, R507, R524) -/

/-- Owners of the first entries of a table of partition p at group offset `off`. -/
def tableOwners (s : State) (p off count : Nat) : List Nat :=
  (List.range count).map (fun k => field (regGet s (0x101000 + 0x400 * p + off + 4 * k)) 0 5)

/-- Turns in the shadow table of partition p. -/
def shadowCount (s : State) (p : Nat) : Nat := field (regGet s (0x101008 + 0x400 * p)) 0 6 + 1

/-- The entries of a commit that is pending, which counts as in force (R768). -/
def pendingTurns (s : State) (p : Nat) : List Nat := ((partAt s p).commit).getD []

/-- A class of a mask owns a turn of the active or the shadow table, or of a commit that is pending. -/
def ownsTurn (s : State) (p mask : Nat) : Bool :=
  (tableOwners s p 0x200 ((partAt s p).countM1 + 1) ++ tableOwners s p 0x100 (shadowCount s p) ++ (pendingTurns s p).map (fun e => field e 0 5)).any (fun o =>
    decide (o < 16) && bit mask o)

/-- The classes that are best-effort now or from the next round boundary on. -/
def beMasks (x : Part) : Nat := x.beMask ||| (match x.cfgNext with | some c => c.2 | none => 0)

/-- Whether a shadow table may be committed (R506). -/
def turnsOk (s : State) (p : Nat) (l : List Nat) : Bool :=
  let st := l.map (fun e => field e 16 12)
  let ow := l.map (fun e => field e 0 5)
  st.head? == some 0 && (st.zip (st.drop 1)).all (fun e => decide (e.1 < e.2)) && st.all (fun x => decide (x < roundBeats s ∧ x < (s.fe.roundNext.getD s.fe.round) + 1)) &&
    ow.all (fun o => o == 0x1E || o == 0x1F || (decide (o < 16) && !bit (beMasks (partAt s p)) o))

/-- TURN_TABLE_COMMIT (R506, R526): a write of FE_TT_CTRL. -/
def execTurnTableCommit (p : Nat) (val : W32) (s : State) : Host.Outcome State Fault Refusal :=
  run s (guarded (regsOn s && decide (p < 12)) (fun s =>
    let s := regSet (0x101008 + 0x400 * p) (field val.toNat 0 6) s
    let l := (List.range (shadowCount s p)).map (fun k => regGet s (0x101100 + 0x400 * p + 4 * k))
    if !bit val.toNat 31 then s
    else if !turnsOk s p l then modPart p (fun x => { x with result := Status.code .denied }) s
    else if (partAt s p).commit.isSome then modPart p (fun x => { x with result := Status.code .busy }) s
    else modPart p (fun x => { x with commit := some l }) s))

/-- ROUND_LENGTH_WRITE (R507, R518): refused while an active turn would start beyond the new round. -/
def execRoundLengthWrite (val : W32) (s : State) : Host.Outcome State Fault Refusal :=
  run s (guarded (regsOn s) (fun s =>
    let n := field val.toNat 0 12
    let beyond := (List.range 12).any (fun p => (List.range ((partAt s p).countM1 + 1)).any (fun k => decide (n + 1 ≤ turnStart s p k)) ||
      (pendingTurns s p).any (fun e => decide (n + 1 ≤ field e 16 12)))
    if beyond then { s with fe := { s.fe with roundRes := Status.code .denied } }
    else { regSet 0x100000 n s with fe := { s.fe with roundNext := some n, roundRes := 0 } }))

/-- PART_SCHED_WRITE (R524): refused when it marks best-effort a class that owns a turn. -/
def execPartSchedWrite (p : Nat) (val : W32) (s : State) : Host.Outcome State Fault Refusal :=
  run s (guarded (regsOn s && decide (p < 12)) (fun s =>
    let mask := field val.toNat 0 16
    let fair := bit val.toNat 31
    if ownsTurn s p mask then modPart p (fun x => { x with result := Status.code .denied }) s
    else modPart p (fun x => { x with cfgNext := some (fair, mask) }) (regSet (0x101000 + 0x400 * p) (mask + 2 ^ 31 * b2n fair) s)))

/-! ## The watchdog (R512-R514) -/

/-- A task that is timed now. -/
def timed (s : State) (t : Task) : Bool :=
  match t.place with
  | .running _ => true
  | .saving _ => true
  | .lce _ => true
  | .eap _ => true
  | .ready => t.ty == 0x1A && t.wrap.isSome
  | .mover _ => s.sg.kv.any (fun k => decide (k.seq = t.seq) && k.started)
  | _ => false

/-- The time of a task counts now: not while its array saves or restores it (R512). -/
def counts (s : State) (t : Task) : Bool :=
  timed s t && (match t.place with
    | .running l => (match physOf s l with | some p => !(arrAt s p).restore | none => true)
    | .saving _ => false
    | _ => true)

/-- A beat passes for the watchdog. -/
def tickTasks (s : State) : State :=
  { s with fe := { s.fe with tasks := s.fe.tasks.map (fun t => if counts s t then { t with ran := t.ran + 1 } else t) } }

/-- The time of a task has reached WDOG_MS, to within the beat in which it is detected (R512, R520). -/
def expired (s : State) (t : Task) : Bool := decide (max 1 (field (regGet s 0x100008) 0 16) * 1000000 ≤ (t.ran + 1) * 1024)

/-- WATCHDOG_EXPIRY (R512, R514, R520): a task whose time has reached WDOG_MS stops where it is and ends with FAULT_TIMEOUT. -/
def execWatchdogExpiry (seq : Nat) (s : State) : Host.Outcome State Fault Refusal :=
  run s (guarded (computeOn s) (fun s => match taskOf s seq with
    | none => s
    | some t =>
      if !(timed s t && expired s t) then s
      else
        let r := leavePlace false 0x3FF t (abandonSeq false 0x3FF seq s)
        let s := leaveBars seq r.2
        let s := freeRecs (fun x => decide (x.seq = seq)) s
        refillAll (reissueAll (taskEnd seq .faultTimeout r.1 (some (0x13, detailOf t.ctx 0)) s))))

/-! ## The deadlock scan (R515-R517) -/

/-- A queue that the scan may look at. -/
def scanned (x : Queue) : Bool := x.state != .resetting && x.state != .fenced && x.state != .busy && x.state != .unused

/-- The WAIT of a queue that enters the graph: unsatisfied, and older than THRESH. -/
def scanWait (s : State) (q : Nat) : Option CmdEnt :=
  let x := queueAt s q
  let thresh := max 1 (field (regGet s 0x10000C) 0 16)
  match x.held with
  | some e => if e.code = 4 ∧ x.heldDone = false ∧ scanned x ∧ thresh * 100000 < (beat s - e.age) * 1024 then some e else none
  | none => none

/-- The SIGNAL that a ring slot holds: fence handle and value. -/
def slotSignal (l : List Byte) : Option (Nat × W64) :=
  if byteAt l 0 = 5 ∧ cmdOk l = true then some (fieldAt l 8 4, w64 (fieldAt l 16 8)) else none

/-- The published SIGNALs of a ring from slot k on: `n` slots, their host bytes in `h`. -/
def ringSignals (s : State) (q n k : Nat) (h : HostData) : List (Nat × W64) :=
  match n with
  | 0 => []
  | n + 1 =>
    let x := queueAt s q
    let va := x.sqVa + 64 * (k % 2 ^ x.sqLog)
    let rest := ringSignals s q n (k + 1) (hostRest h (hostUsed s .front x.ctx va 64))
    match readCtl s .front x.ctx va 64 h with
    | .ok (l, false) => (match slotSignal l with | some p => p :: rest | none => rest)
    | _ => rest

/-- The SIGNALs that a queue holds: accepted and pending, or published in its ring. -/
def heldSignals (s : State) (rings : List (Nat × HostData)) (q : Nat) : List (Nat × W64) :=
  let x := queueAt s q
  let h := ((rings.find? (fun r => decide (r.1 = q))).map (fun r => r.2)).getD ⟨[], false⟩
  (x.cmds.filter (fun e => decide (e.code = 5 ∧ e.own = none))).map (fun e => (e.fence, e.value)) ++
    ringSignals s q ((x.sqTail + 2 ^ 32 - x.sqHead) % 2 ^ 32 % (2 ^ x.sqLog + 1)) x.sqHead h

/-- The graph: each waiting queue with the waiting queues that hold a SIGNAL for it. -/
def waitGraph (s : State) (rings : List (Nat × HostData)) : List (Nat × List Nat) :=
  let qs := (s.fe.q.map (fun e => e.1)).filter (fun q => (scanWait s q).isSome)
  let held := qs.map (fun q => (q, heldSignals s rings q))
  qs.map (fun a => (a, match scanWait s a with
    | some e => (held.filter (fun b => b.2.any (fun g => g.1 == e.fence && reached g.2 e.value))).map (fun b => b.1)
    | none => []))

/-- Queues reached from a list in at most `n` steps. -/
def reachable (g : List (Nat × List Nat)) (n : Nat) (l : List Nat) : List Nat :=
  match n with
  | 0 => l
  | n + 1 => reachable g n (l.foldl (fun a q => ((g.find? (fun e => decide (e.1 = q))).map (fun e => e.2)).getD [] |>.foldl (fun a b => sinsert b a) a) l)

/-- What a queue reaches by at least one edge. -/
def reachedFrom (g : List (Nat × List Nat)) (q : Nat) : List Nat :=
  reachable g g.length (((g.find? (fun e => decide (e.1 = q))).map (fun e => e.2)).getD [])

/-- The queues that lie on a cycle with the lowest queue of any cycle. -/
def cycleQueues (g : List (Nat × List Nat)) : List Nat :=
  match (g.map (fun e => e.1)).find? (fun q => (reachedFrom g q).contains q) with
  | none => []
  | some q => (reachedFrom g q).filter (fun a => (reachedFrom g a).contains q)

/-- The queue whose WAIT was accepted last, the higher number at a tie. -/
def newestWait (s : State) (l : List Nat) : Option Nat :=
  minBy (fun q => (2 ^ 64 - (match (queueAt s q).held with | some e => e.age | none => 0)) * 1024 + (1023 - q)) l

/-- Break one WAIT with STALEMATE (R516, R517). -/
def breakWait (q : Nat) (s : State) : State :=
  match (queueAt s q).held with
  | none => s
  | some e =>
    let s := completeWait q e .stalemate (!bit e.flags 2) s
    let s := { s with fe := { s.fe with broken := sat 16 (s.fe.broken + 1), lastBroken := q } }
    reportCe 7 q 0x07 (detailOf (queueAt s q).ctx 0) s

/-- Search and break until no cycle is left. -/
def breakCycles (fuel : Nat) (rings : List (Nat × HostData)) (s : State) : State :=
  match fuel with
  | 0 => s
  | n + 1 => match newestWait s (cycleQueues (waitGraph s rings)) with
    | none => s
    | some q => breakCycles n rings (breakWait q s)

/-- DEADLOCK_SCAN (R515-R517): firmware breaks the cycles of fence waits at every multiple of SCAN_BEATS. `rings` holds what the
queues' rings in host memory hold from their heads on. -/
def execDeadlockScan (rings : List (Nat × HostData)) (s : State) : Host.Outcome State Fault Refusal :=
  run s (fun s =>
    let n := field (regGet s 0x10000C) 16 16
    oncePerBeat 1 (planeUp s && decide (n ≠ 0 ∧ beat s % n = 0)) (breakCycles 768 rings) s)

end Sys2Proof.Machine
end

