-- ==== Sys2Proof/Machine/Serving.lean ====
section
/-!
DEFINITION. Sequence groups (R393-R399, R425), gates (R400-R404), KV_PASS (R405-R407) and the running batch (R411-R414).
-/
namespace Sys2Proof.Machine
open Sys2Proof

/-! ## Groups -/

/-- The limits of chunked mode (R423), and the zeros of the other mode. -/
def chunkedOk (d : List Byte) : Bool :=
  let most := fieldAt d 52 2
  let budget := fieldAt d 54 2 + 1
  if bit (byteAt d 21) 0 then
    byteAt d 2 == 0 && decide (byteAt d 20 < 64) && most % 256 == 0 && decide (256 ≤ most) && decide (most ≤ 8192) &&
      budget % 256 == 0 && decide (256 ≤ budget) && decide (most ≤ budget)
  else most == 0 && fieldAt d 54 2 == 0

/-- A group descriptor is well formed (R396). -/
def groupOk (d : List Byte) : Bool :=
  let within := fun (x : Nat) => decide (1 ≤ x) && decide (x ≤ 4096)
  decide (byteAt d 2 < 64) && decide (byteAt d 3 ≤ byteAt d 2) && within (fieldAt d 4 2) && within (fieldAt d 6 2) &&
    decide (1 ≤ fieldAt d 16 4) && decide (fieldAt d 16 4 ≤ 2 ^ 24) && decide (byteAt d 21 < 2) && decide (fieldAt d 22 2 < 16384) &&
    fieldAt d 28 8 % 65536 == 0 && fieldAt d 36 8 % 64 == 0 && fieldAt d 44 8 % 64 == 0 && chunkedOk d && zeroAt d 56 8

/-- A member list is well formed, and entry SELF names this node (R397). -/
def membersOk (s : State) (d l : List Byte) : Bool :=
  (List.range (byteAt d 2 + 1)).all (fun m =>
    decide (fieldAt l (16 * m) 2 < 4096) && decide (fieldAt l (16 * m + 2) 2 < 16384) && zeroAt l (16 * m + 4) 4) &&
  fieldAt l (16 * byteAt d 3) 2 == nodeId s

/-- Read the descriptor and the member list of a mailbox command; `f` goes on when both are well formed. -/
def withGroup (v c : Nat) (host : HostData) (f : List Byte → List Byte → State → State) (s : State) : State :=
  let va := boxPair s v 2
  reading (boxKey v) .front 0 0 c va 64 (fun s => match readCtl s .front c va 64 host with
    | .error _ => replySt v .faultAddress s
    | .ok (d, bad) =>
      let n := 16 * (byteAt d 2 + 1)
      let at2 := fieldAt d 44 8
      let rest := hostRest host (hostUsed s .front c va 64)
      if bad ∨ va % 64 ≠ 0 ∨ ¬ groupOk d then replySt v .faultFormat (touchCtl .front c va 64 host s)
      else reading (boxKey v) .front 0 0 c at2 n (fun s => match readCtl s .front c at2 n rest with
        | .error _ => replySt v .faultAddress s
        | .ok (l, bad) =>
          let s := touchCtl .front c at2 n rest (touchCtl .front c va 64 host s)
          if bad ∨ ¬ membersOk s d l then replySt v .faultFormat s else f d l s) s) s

/-- TABLE_TW of a descriptor is zeroed (R399); a word that the VAI does not hold is left alone. -/
def zeroTable (v : Nat) (d : List Byte) (s : State) : State :=
  let i := fieldAt d 22 2
  if twGranted s v i then tallySet i 0 0x6 v s else s

/-- The groups of a context. -/
def groupsOf (s : State) (c : Nat) : List Nat := keysOf s.sg.group (fun g => g.live && g.ctx == c)

/-- The group of a context with a GROUP_ID. -/
def groupNamed (s : State) (c id : Nat) : Option Nat := (groupsOf s c).find? (fun g => decide (fieldAt (groupAt s g).desc 0 2 = id))

/-- SG_CREATE (R395-R399). -/
def execSgCreate (v : Nat) (host : HostData) (s : State) : Host.Outcome State Fault Refusal :=
  run s (onBox v 0x0250 (fun s => match boxCtx s v 1 with
    | .error st => replySt v st s
    | .ok c => withGroup v c host (fun d l s =>
      if (groupNamed s c (fieldAt d 0 2)).isSome then replySt v .denied s
      else if 16 ≤ (groupsOf s c).length then replySt v .busy s
      else match chooseFree (fun g => !(groupAt s g).live) 64 s with
        | none => replySt v .busy s
        | some (g, t) =>
          let t := ctxTake c (modGroup g (fun _ => { live := true, ctx := c, vai := v, desc := d, members := l }) t)
          replyBox v 0 [g] (zeroTable v d t)) s))

/-- The group that a KV_PASS names: as its mover has read it, else as its descriptor says where that lies in block-local memory. None
where only the mover will tell. -/
def kvGroup (s : State) (t : Task) : Option Nat :=
  let va := fieldAt t.record 8 8
  if (kvOf s t.seq).isSome then some (t.group.getD 0xFF)
  else if hostUsed s .front t.ctx va 48 ≠ 0 then none
  else match readCtl s .front t.ctx va 48 { bytes := [], poison := false } with
    | .ok (d, _) => some (byteAt d 29)
    | .error _ => none

/-- A KV_PASS of group g has not completed. One whose descriptor no mover has read counts for every group of its context (DESIGN
CHOICE). -/
def kvOutstanding (s : State) (g : Nat) : Bool :=
  s.fe.tasks.any (fun t => t.ty == 0x19 && decide (t.ctx = (groupAt s g).ctx) && decide ((kvGroup s t).getD g = g))

/-- SG_RESTART (R398, R399): the group of this GROUP_ID runs again; its next batch survives. -/
def execSgRestart (v : Nat) (host : HostData) (s : State) : Host.Outcome State Fault Refusal :=
  run s (onBox v 0x0251 (fun s => match boxCtx s v 1 with
    | .error st => replySt v st s
    | .ok c => withGroup v c host (fun d l s => match groupNamed s c (fieldAt d 0 2) with
      | none => replySt v .denied s
      | some g =>
        if kvOutstanding s g then replySt v .busy s
        else
          let s := modGroup g (fun x => { x with desc := d, members := l, gen := (x.gen + 1) % 256, broken := false, step := 0 }) s
          replyBox v 0 [g] (zeroTable v d s)) s))

/-- SG_DESTROY (R424): the group is removed; gates that wait in it complete with DONE_POISONED. -/
def execSgDestroy (v : Nat) (s : State) : Host.Outcome State Fault Refusal :=
  run s (onBox v 0x0252 (fun s => match boxCtx s v 1 with
    | .error st => replySt v st s
    | .ok c =>
      let g := boxWord s v 2
      if 64 ≤ g ∨ (groupAt s g).live = false then replySt v .faultFormat s
      else if (groupAt s g).ctx ≠ c then replySt v .denied s
      else
        let waiting := s.sg.gates.filter (fun x => byteAt x.desc 8 == g)
        let s := { s with sg := { s.sg with gates := s.sg.gates.filter (fun x => byteAt x.desc 8 != g) } }
        let s := each waiting (fun x s => taskEnd x.seq .donePoisoned 0 none s) s
        replySt v .done (removeGroup g s)))

/-! ## Descriptors of tasks -/

/-- Read the descriptor of a task; SOURCE names the unit in a fault record. -/
def readDesc (owner : RunOwner) (source : Nat) (t : Task) (size : Nat) (host : HostData) (f : List Byte → HostData → State → State)
    (s : State) : State :=
  let va := fieldAt t.record 8 8
  reading t.seq owner (chOf owner) t.seq t.ctx va size (fun s => match readCtl s owner t.ctx va size host with
    | .error k => xlatFault t.seq t.ctx k source va s
    | .ok (d, bad) =>
      let rest := hostRest host (hostUsed s owner t.ctx va size)
      let s := touchCtl owner t.ctx va size host s
      if bad then taskFault t.seq .faultFormat (detailOf t.ctx 0) s else f d rest s) s

/-- A group handle of a task's context. -/
def groupOfTask (s : State) (t : Task) (g : Nat) : Bool := decide (g < 64) && (groupAt s g).live && decide ((groupAt s g).ctx = t.ctx)

/-! ## Gates -/

/-- The reserved bits of a gate descriptor are 0. -/
def gateOk (d : List Byte) : Bool :=
  decide (byteAt d 9 < 8) && decide (fieldAt d 10 2 < 16384) && decide (fieldAt d 12 2 < 16384) && zeroAt d 14 2 && zeroAt d 24 8

/-- Words that a gate names are granted to its VAI. -/
def gateGranted (s : State) (v : Nat) (d : List Byte) : Bool :=
  (!bit (byteAt d 9) 1 || twGranted s v (fieldAt d 10 2)) && (!bit (byteAt d 9) 2 || twGranted s v (fieldAt d 12 2))

/-- STEP_GATE (R400-R402, R417): the gate becomes ready. It waits, or has expired, or its group is BROKEN. -/
def execStepGate (seq : Nat) (host : HostData) (s : State) : Host.Outcome State Fault Refusal :=
  run s (guarded (computeOn s) (fun s => match taskOf s seq with
    | none => s
    | some t =>
      if t.ty ≠ 0x18 ∨ t.place ≠ .ready then s
      else readDesc .front 5 t 32 host (fun d _ s =>
        let g := byteAt d 8
        let x := groupAt s g
        let follower := byteAt x.desc 3 != 0 && bit (byteAt d 9) 0 && !bit (byteAt d 9) 2
        if !gateOk d || !groupOfTask s t g || follower then taskFault seq .faultFormat (detailOf t.ctx 0) s
        else if !gateGranted s x.vai d then taskFault seq .faultAddress (detailOf t.ctx 0) s
        else
          let s := modTask seq (fun t => { t with group := some g }) s
          if x.broken then taskEnd seq .donePoisoned 0 none s
          else if beatPast s (stageEnd x.desc (fieldAt d 0 8)) then taskEnd seq .donePoisoned 0 none (breakGroup g s)
          else { modTask seq (fun t => { t with place := .gate }) s with sg := { s.sg with gates := s.sg.gates ++ [⟨seq, d⟩] } }) s))

/-- GATE_EXPIRY (R402): a gate that has not opened at the boundary of its stage's last beat. -/
def execGateExpiry (seq : Nat) (s : State) : Host.Outcome State Fault Refusal :=
  run s (guarded (computeOn s) (fun s => match s.sg.gates.find? (fun g => decide (g.seq = seq)) with
    | none => s
    | some g =>
      let n := byteAt g.desc 8
      if !beatPast s (stageEnd (groupAt s n).desc (fieldAt g.desc 0 8)) then s
      else
        let s := { s with sg := { s.sg with gates := s.sg.gates.filter (fun h => decide (h.seq ≠ seq)) } }
        taskEnd seq .donePoisoned 0 none (breakGroup n s)))

/-! ## KV_PASS -/

/-- A KV_PASS descriptor is well formed (R405). -/
def kvDescOk (d : List Byte) : Bool :=
  let n := fieldAt d 16 4
  fieldAt d 0 8 % 64 == 0 && fieldAt d 8 8 % 64 == 0 && n % 64 == 0 && decide (64 ≤ n) && decide (n ≤ 2 ^ 28) &&
    decide (fieldAt d 20 2 < 16384) && zeroAt d 22 2 && decide (byteAt d 28 < 4) && zeroAt d 30 2 && zeroAt d 40 8

/-- KV_PASS (R405): the mover reads the descriptor; the task waits for its send stage. -/
def execKvPass (seq : Nat) (host : HostData) (s : State) : Host.Outcome State Fault Refusal :=
  run s (guarded (computeOn s) (fun s => match taskOf s seq with
    | none => s
    | some t => match t.place with
      | .mover m =>
        if (kvOf s seq).isSome then s
        else readDesc (.mover m) 4 t 48 host (fun d _ s =>
          let g := byteAt d 29
          if !kvDescOk d || !(g == 0xFF || groupOfTask s t g) then taskFault seq .faultFormat (detailOf t.ctx 0) s
          else
            let s := modTask seq (fun t => { t with group := if g = 0xFF then none else some g }) s
            { s with sg := { s.sg with kv := s.sg.kv ++ [{ seq := seq, mover := m, desc := d }] } }) s
      | _ => s))

/-- The node to which a destination translates: 0xFFF for block-local memory. None when the pages are of several kinds, or a
host page is among them. -/
def kvTarget (s : State) (m c va n : Nat) : Option Nat :=
  let l := (spansOf 4096 va n).map (fun p => match xl s (.mover m) c p.1 p.2 .write with
    | .ok 0 _ => some 0xFFF
    | .ok 2 a => some (field a 52 12)
    | _ => none)
  match l.head? with
  | some (some k) => if l.all (fun x => x == some k) then some k else none
  | _ => none

/-- The marks of a source, granule by granule; `bad` is that of bytes from outside the block. -/
def kvMark (s : State) (m c va : Nat) (bad : Bool) (i : Nat) : Bool :=
  match xl s (.mover m) c (va + 64 * i) 64 .read with
  | .ok 0 a => poisonedAt s a
  | .ok 1 _ => bad
  | .ok _ a => fetchMark s c a
  | .fault _ => bad

/-- Bits of PMASK for `n` bytes from granule `o` on. -/
def kvPmask (mark : Nat → Bool) (o n : Nat) : Nat := pmaskOf (fun i => mark (o + i)) n

/-- A copy on the own node: the bytes, then the signal (R406). -/
def kvLocal (i : Nat) (k : Kv) (c : Nat) (data : List Byte) (mark : Nat → Bool) (s : State) : State :=
  let va := fieldAt k.desc 8 8
  each (cutAt 4096 data.length va data) (fun p s => match xl s (.mover k.mover) c p.1 p.2.length .write with
    | .ok 0 a => writeMem a p.2 (fun i => mark ((p.1 - va) / 64 + i)) (accessC (.copy k.mover i) c none true a p.2.length (xlFill (.copy k.mover i) c p.1 s))
    | _ => s) s

/-- A copy to another node: WRITE packets of 512 bytes, none across a 4 KiB granule (R331, R406). -/
def kvRemote (k : Kv) (c node : Nat) (data : List Byte) (mark : Nat → Bool) (s : State) : State :=
  let va := fieldAt k.desc 8 8
  let ps := ((cutAt 4096 data.length va data).map (fun p => match xl s (.mover k.mover) c p.1 p.2.length .write with
    | .ok _ a => (hostPieces 512 (a % 2 ^ 48) p.2).map (fun q =>
        (q.1, kvPmask mark ((p.1 - va + (q.1 - a % 2 ^ 48)) / 64) q.2.length, q.2))
    | .fault _ => [])).flatten
  let s := each (spansOf 4096 va data.length) (fun p s => xlFill (.mover k.mover) c p.1 s) s
  modKv k.seq (fun k => { k with node := node, left := ps.length, todo := ps }) s

/-- The copy of a KV_PASS starts: both ranges translate, or nothing is sent (R407). -/
def kvStart (k : Kv) (t : Task) (host : HostData) (s : State) : State :=
  let c := t.ctx
  let src := fieldAt k.desc 0 8
  let dst := fieldAt k.desc 8 8
  let n := fieldAt k.desc 16 4
  let quit := fun (kind va : Nat) (s : State) =>
    endKv k.seq (if kind = 17 then .faultFormat else .faultAddress) (some (if 16 ≤ kind then 0x12 else 0x11, detailOf c va))
      (recordFault c kind 4 va s)
  reading k.seq (.mover k.mover) (byteAt k.desc 28 % 4) k.seq c src n (fun s => match readCtl s (.mover k.mover) c src n host with
  | .error e => quit e src s
  | .ok (data, bad) => match xlRange s (.mover k.mover) c dst n .write, kvTarget s k.mover c dst n with
    | some e, _ => quit e.1 e.2 s
    | none, none => quit 8 dst s
    | none, some node =>
      let mark := fun (i : Nat) => t.taint || kvMark s k.mover c src bad i
      let poisoned := (List.range (n / 64)).any (fun i => kvMark s k.mover c src bad i)
      let i := s.rg.reqs
      let s := touchCtl (.copy k.mover i) c src n host s
      let k := { k with started := true, poisoned := poisoned || t.taint }
      let s := modTask k.seq (fun t => { t with start := beat s }) (modKv k.seq (fun _ => k) s)
      answerWhen i (.kv k.seq (kvDone k)) (if node = 0xFFF then kvLocal i k c data mark s else kvRemote k c node data mark s)) s

/-- KV_PASS_COPY_START (R406, R407): the mover is free and the send stage has opened; a BROKEN group sends nothing. -/
def execKvPassCopyStart (seq : Nat) (host : HostData) (s : State) : Host.Outcome State Fault Refusal :=
  run s (guarded (computeOn s) (fun s => match kvOf s seq, taskOf s seq with
    | some k, some t =>
      let busy := s.sg.kv.any (fun j => j.started && decide (j.mover = k.mover))
      if k.started ∨ busy ∨ tget 0 s.pm.sector k.mover ≠ 0 then s
      else match t.group with
        | none => kvStart k t host s
        | some g =>
          let x := groupAt s g
          if x.live = false then endKv seq .denied none s
          else if !beatPast s (stageOpen x.desc (fieldAt k.desc 32 8)) then s
          else if x.broken then endKv seq .denied none s
          else kvStart k t host s
    | _, _ => s))

/-! ## The running batch -/

/-- A batch record is well formed; in chunked mode PARAM holds a prompt length (R411, R421). -/
def batchRecOk (chunked : Bool) (r : List Byte) : Bool :=
  (byteAt r 0 == 1 || byteAt r 0 == 2) && zeroAt r 1 3 && (!chunked || byteAt r 0 == 2 ||
    (decide (1 ≤ fieldAt r 8 4) && decide (fieldAt r 8 4 ≤ 2 ^ 24) && zeroAt r 12 4))

/-- The entry of the next batch that holds a SEQ_ID. -/
def entryOfSeq (x : Group) (id : Nat) : Option Nat :=
  (List.range (maxSeq x.desc)).find? (fun i =>
    let e := tget {} x.batch i
    decide (e.seqId = id) && (e.state == 1 || e.state == 2))

/-- Apply one record (R413, R414): status, entry index, and the group after it. -/
def applyRec (r : List Byte) (x : Group) : Status × Nat × Group :=
  let id := fieldAt r 4 4
  if byteAt r 0 = 1 then
    match entryOfSeq x id with
    | some _ => (.denied, 0xFF, x)
    | none => match (List.range (maxSeq x.desc)).find? (fun i => (tget {} x.batch i).state == 0) with
      | none => (.busy, 0xFF, x)
      | some i =>
        let e : BatchEnt := { seqId := id, state := 2, param := fieldAt r 8 8, order := x.joins }
        (.done, i, { x with batch := tset {} x.batch i e, joins := x.joins + 1 })
  else match entryOfSeq x id with
    | none => (.done, 0xFF, x)
    | some i =>
      let e := tget {} x.batch i
      (.done, i, { x with batch := tset {} x.batch i (if e.state = 2 then {} else { e with state := 3, age := 0 }) })

/-- Apply records in their order: the result bytes, and the group. -/
def applyRecs (l : List (List Byte)) (x : Group) : List Byte × Group :=
  match l with
  | [] => ([], x)
  | r :: rest =>
    let a := applyRec r x
    let out := leBytes 1 a.1.code ++ leBytes 1 a.2.1 ++ leBytes 2 0 ++ leBytes 4 (x.step % 2 ^ 32)
    let z := applyRecs rest a.2.2
    (out ++ z.1, z.2)

/-- A BATCH_EDIT descriptor is well formed (R411). -/
def editOk (d : List Byte) : Bool := zeroAt d 9 7 && zeroAt d 24 8

/-- The group that a BATCH_EDIT of a context edits: one that it leads. The descriptor names none, so with several the choice is a
free value. -/
def ledGroup (c : Nat) (s : State) : Option (Nat × State) :=
  chooseFree (fun g => (groupAt s g).live && (groupAt s g).ctx == c && byteAt (groupAt s g).desc 3 == 0) 64 s

/-- The records are applied and the results written. -/
def editBatch (t : Task) (g : Nat) (d recs : List Byte) (s : State) : State :=
  let res := fieldAt d 16 8
  let n := byteAt d 8 + 1
  match xlRange s .front t.ctx res (8 * n) .write with
  | some k => xlatFault t.seq t.ctx k.1 5 k.2 s
  | none =>
    let r := applyRecs (chunks 16 n recs) (groupAt s g)
    let s := modGroup g (fun _ => r.2) (modTask t.seq (fun t => { t with group := some g, start := beat s }) s)
    let s := writeOut .front t.ctx res r.1 t.taint (.result t.seq) t.seq s
    if useLeft s (fun u => decide (u = .result t.seq)) then modTask t.seq (fun t => { t with wrap := some .done }) s
    else taskEnd t.seq .done 0 none s

/-- A BATCH_EDIT that became ready earlier has not completed: at its place, or still before its dispatch (R412). -/
def editBefore (s : State) (t : Task) : Bool :=
  s.fe.tasks.any (fun u => u.ty == 0x1A && decide (u.ready < t.ready) &&
    (u.place == .ready || (u.place == .front && !isOrdered s u && mayRun s u.queue)))

/-- BATCH_EDIT (R411-R414, R421): on a member other than the leader it changes nothing. -/
def execBatchEdit (seq : Nat) (host : HostData) (s : State) : Host.Outcome State Fault Refusal :=
  run s (guarded (computeOn s) (fun s => match taskOf s seq with
    | none => s
    | some t =>
      if t.ty ≠ 0x1A ∨ t.place ≠ .ready ∨ t.wrap.isSome ∨ editBefore s t then s
      else readDesc .front 5 t 32 host (fun d rest s =>
        if !editOk d then taskFault seq .faultFormat (detailOf t.ctx 0) s
        else match ledGroup t.ctx s with
          | none => taskEnd seq .denied 0 none s
          | some (g, s) =>
            let va := fieldAt d 0 8
            let n := 16 * (byteAt d 8 + 1)
            reading seq .front 0 seq t.ctx va n (fun s => match readCtl s .front t.ctx va n rest with
              | .error k => xlatFault seq t.ctx k 5 va s
              | .ok (l, bad) =>
                let s := touchCtl .front t.ctx va n rest s
                if bad ∨ ¬ (chunks 16 (byteAt d 8 + 1) l).all (batchRecOk (bit (byteAt (groupAt s g).desc 21) 0)) then
                  taskFault seq .faultFormat (detailOf t.ctx 0) s
                else editBatch t g d l s) s) s))

end Sys2Proof.Machine
end

