-- ==== Sys2Proof/Machine/Repair.lean ====
section
/-!
DEFINITION. In-service repair: reserve arrays (R678), sectors offline and online (R679, R680), self-tests.
-/
namespace Sys2Proof.Machine
open Sys2Proof

/-- State of sector n: 0 online, 1 going offline, 2 offline, 3 testing. -/
def sectorAt (s : State) (n : Nat) : SectorRun := tget {} s.fw.sector n

def modSector (n : Nat) (f : SectorRun → SectorRun) (s : State) : State :=
  { s with fw := { s.fw with sector := tmod {} s.fw.sector n f } }

/-- The physical arrays of a sector. -/
def physOfSector (n : Nat) : List Nat := (List.range 76).map (fun i => 76 * n + i)

/-- ARRAY_SWAP (R676-R678): the manager's command, or firmware's own swap of array `own` after more than 16 corrected errors. -/
def execArraySwap (own : Option Nat) (s : State) : Host.Outcome State Fault Refusal :=
  run s (fun s => match own with
    | some l => guarded (planeUp s) (fun s => match physOf s l with
      | some p =>
        if (physAt s p).ce ≤ 16 ∨ (physAt s p).role ≠ 2 ∨ sectorOn s (sectorOfArray l) = false ∨ swapping s (sectorOfArray l) = true then s
        else beginSwap l p true s
      | none => s) s
    | none => onBox 256 0x0310 (fun s =>
      let l := field (boxWord s 256 1) 0 10
      let n := sectorOfArray l
      match physOf s l with
      | none => replySt 256 .denied s
      | some p =>
        if s.arr.swaps.any (fun x => x.l == l && !x.own) then s
        else if (reserveOf s n).isNone ∧ ¬ swapping s n then replySt 256 .denied s
        else if sectorOn s n = false ∨ swapping s n = true then replySt 256 .busy s
        else beginSwap l p false s) s)

/-! ## Sectors -/

/-- A task that waits at a unit of the sector goes to another unit of its partition (R679). -/
def leaveSector (n : Nat) (t : Task) (s : State) : State :=
  let ks := (lsqsOf s (partOfCtx s t.ctx)).filter (fun k => sectorOn s (k / 4))
  let least := fun (f : Nat → Place) => minBy (fun k => (s.fe.tasks.filter (fun u => decide (u.place = f k))).length) ks
  match t.place with
  | .lsq k => if k / 4 = n then place t s else s
  | .saved k => if k / 4 = n then modTask t.seq (fun t => { t with place := .saved ((least .saved).getD k) }) s else s
  | .lceQueue k => if k / 4 = n then place t (stopLce k t.seq s) else s
  | .mover m =>
    if m = n ∧ (s.sg.kv.any (fun k => k.seq == t.seq && k.started)) = false then
      match pickMover s (partOfCtx s t.ctx) with
      | some m => modTask t.seq (fun t => { t with place := .mover m })
          { s with sg := { s.sg with kv := s.sg.kv.map (fun k => if k.seq = t.seq then { k with mover := m } else k) } }
      | none => s
    else s
  | _ => s

/-- Sub-batches that wait at an LCE going offline are refused (R218). -/
def refuseQueued (k : Nat) (s : State) : State :=
  each (lceAt s k).queue (fun j s => match j with
    | .sub src tag => match subInOf s src tag with
      | some i =>
        let drop := { s with lce := { s.lce with subIn := s.lce.subIn.filter (fun x => !decide (x.src = src ∧ x.tag = tag)) } }
        modLce k (fun x => { x with queue := x.queue.erase j }) (refuseSub src tag i.gen i.ch (i.domain + i.id * 2 ^ 16) drop)
      | none => s
    | .task _ => s) s

/-- No work remains in sector n. -/
def sectorIdle (s : State) (n : Nat) : Bool :=
  (physOfSector n).all (fun p => (arrAt s p).task.isNone && (arrAt s p).queue.isEmpty) &&
    ((List.range 4).all (fun i => (lceAt s (4 * n + i)).active.isEmpty)) && !s.sg.kv.any (fun k => k.mover == n)

/-- Arrays that are free take ROLE 6; the reply comes when no work remains (R679). -/
def sectorStep (n : Nat) (s : State) : State :=
  if (sectorAt s n).state ≠ 1 then s
  else
    let s := each (physOfSector n) (fun p s =>
      if (arrAt s p).task.isNone ∧ ((physAt s p).role = 2 ∨ (physAt s p).role = 3) then modPhys p (fun x => { x with role := 6 }) s else s) s
    let s := each s.fe.tasks (leaveSector n) s
    if sectorIdle s n then replyFor 256 0x0311 .done (modSector n (fun x => { x with state := 2 }) s) else s

/-- SECTOR_OFFLINE (R677, R679). -/
def execSectorOffline (s : State) : Host.Outcome State Fault Refusal :=
  run s (onBox 256 0x0311 (fun s =>
    let n := field (boxWord s 256 1) 0 4
    if 12 ≤ n then replySt 256 .faultFormat s
    else if (sectorAt s n).state = 1 then s
    else if sectorOn s n ∧ ((sectorsOf s (partOfSector s n)).filter (sectorOn s)).length ≤ 1 then replySt 256 .denied s
    else if s.fe.reconf.isSome ∨ ¬ s.fe.scrubbing.isEmpty ∨ swapping s n = true then replySt 256 .busy s
    else if !sectorOn s n then replySt 256 .done s
    else
      let s := modSector n (fun x => { x with state := 1 }) s
      let s := each (List.range 4) (fun i s => refuseQueued (4 * n + i) (modLce (4 * n + i) (fun x => { x with state := 3 }) s)) s
      let s := each ((List.range 72).map (fun i => 72 * n + i)) (fun l s => match physOf s l with
        | some p => requestPre p false (returnEntries l p s)
        | none => s) s
      sectorStep n (each s.fe.tasks (leaveSector n) s)))

/-- The arrays of a tested sector serve again: reserves that passed replace enabled arrays that failed (R90, R91, R680). -/
def replaceBad (n : Nat) (l : Nat) (s : State) : State :=
  match physOf s l with
  | none => s
  | some p =>
    if (sectorAt s n).bad.contains p then
      let s := modPhys p (fun x => { x with logical := 0x3FF }) s
      match reserveOf s n with
      | some r =>
        modPhys r (fun x => { x with role := 2, logical := l }) { s with arr := { s.arr with lmap := tset 0 s.arr.lmap l (r + 1) } }
      | none => { s with arr := { s.arr with lmap := tset 0 s.arr.lmap l 0 } }
    else s

/-- SECTOR_ONLINE ends once every test has. -/
def sectorTested (n : Nat) (s : State) : State :=
  if (sectorAt s n).state = 3 ∧ (sectorAt s n).tests = [] then
    let bad := (sectorAt s n).bad
    let s := each (physOfSector n) (fun p s => modPhys p (fun x =>
      if bad.contains p then { x with role := 5 }
      else if x.role = 6 then { x with role := if x.logical = 0x3FF then 3 else 2 } else x) s) s
    let s := each ((List.range 72).map (fun i => 72 * n + i)) (replaceBad n) s
    let s := modSector n (fun _ => {}) s
    let s := each (List.range 4) (fun i s => modLce (4 * n + i) (fun x => { x with state := 1 }) s) s
    refillAll (replyFor 256 0x0312 .done s)
  else s

/-- SECTOR_ONLINE (R677, R680, R687): the sector leaves SECTOR-DOZE and its arrays are self-tested. -/
def execSectorOnline (s : State) : Host.Outcome State Fault Refusal :=
  run s (onBox 256 0x0312 (fun s =>
    let n := field (boxWord s 256 1) 0 4
    if 12 ≤ n then replySt 256 .faultFormat s
    else match (sectorAt s n).state with
      | 0 => replySt 256 .denied s
      | 1 => replySt 256 .busy s
      | 2 =>
        let ps := (physOfSector n).filter (fun p => (physAt s p).role == 6)
        let s := { s with pm := { s.pm with sector := tset 0 s.pm.sector n 0 } }
        let s := each ps (fun p s => modArr p (fun x => { x with gated := false }) (modPhys p (fun x => { x with testing := true }) s)) s
        sectorTested n (modSector n (fun _ => { state := 3, tests := ps, bad := [] }) s)
      | _ => s))

/-- ARRAY_SELF_TEST_DONE (R678, R680): of a reserve array, or of an array of a sector that comes online. -/
def execArraySelfTestDone (p : Nat) (pass : Bool) (s : State) : Host.Outcome State Fault Refusal :=
  run s (guarded ((physAt s p).testing && planeUp s && s.err.state != 2) (fun s =>
    let s := modPhys p (fun x => { x with testing := false }) s
    match s.arr.swaps.find? (fun x => x.new == some p) with
    | some x =>
      if pass then drainOld x s else beginSwap x.l x.old x.own (modPhys p (fun y => { y with role := 5 }) s)
    | none =>
      let n := sectorOfPhys p
      sectorTested n (modSector n (fun x => { x with tests := x.tests.erase p, bad := if pass then x.bad else x.bad ++ [p] }) s)))

end Sys2Proof.Machine
end

