-- ==== Sys2Proof/Machine/Power.lean ====
section
/-!
DEFINITION. Power states and wake tolerance (R681-R687), the ARRAY rate, the power cap and throttling (R688-R690).
-/
namespace Sys2Proof.Machine
open Sys2Proof

/-! ## Limits (R683) -/

/-- VAI v is active for the limits: STATE 1 with a live context. -/
def wakeActive (s : State) (v : Nat) : Bool :=
  (vaiAt s v).state == 1 && s.fe.ctx.any (fun c => c.2.state == 1 && c.2.vai == v)

/-- An exit latency in ns is within the tolerance of the active VAIs of a partition, or of the block (none). -/
def latencyOk (s : State) (p : Option Nat) (ns : Nat) : Bool :=
  s.fe.vai.all (fun e => !(wakeActive s e.1 && (p.isNone || p == some e.2.part)) || decide (ns ≤ e.2.wakeTol))

/-- MAX_STATE (R764). -/
def maxState (s : State) : Nat := field (regGet s 0x1100000) 29 3

/-- A unit may be in its state (R683): code, latency and scope by unit. A sector taken offline may doze whatever the limits (R687). -/
def mayRest (s : State) (u : PowerUnit) : Bool :=
  match u with
  | .array p => decide (1 ≤ maxState s) && latencyOk s (some (partOfSector s (sectorOfPhys p))) 20
  | .stack _ => decide (2 ≤ maxState s) && latencyOk s none 3000
  | .sector n => (sectorAt s n).state == 2 || (decide (3 ≤ maxState s) && latencyOk s (some (partOfSector s n)) 12000)
  | .block => decide (4 ≤ maxState s) && latencyOk s none 180000

/-- A unit is in its state. -/
def rests (s : State) (u : PowerUnit) : Bool :=
  match u with
  | .array p => (arrAt s p).gated
  | .stack n => (stackAt s n).state == 3
  | .sector n => tget 0 s.pm.sector n == 3
  | .block => s.pm.block != 0

/-- A unit is ACTIVE again. The arrays of a sector that leaves SECTOR-DOZE are. -/
def activate (u : PowerUnit) (s : State) : State :=
  let s := { s with pm := { s.pm with waking := s.pm.waking.erase u } }
  let ungate := fun (p : Nat) (s : State) => if (arrAt s p).gated then modArr p (fun x => { x with gated := false }) s else s
  match u with
  | .array p => ungate p s
  | .stack n => if (stackAt s n).state = 3 then emit (.selfRefresh n false) (modStack n (fun x => { x with state := 2 }) s) else s
  | .sector n => each (physOfSector n) ungate { s with pm := { s.pm with sector := tset 0 s.pm.sector n 0 } }
  | .block => { s with pm := { s.pm with block := 0 } }

/-- Units that have a power state. -/
def powerUnits : List PowerUnit :=
  [.block] ++ (List.range 12).map .stack ++ (List.range 12).map .sector ++ (List.range 912).map .array

/-- Every unit in a state that the limits no longer allow leaves it at once (R684, R764). -/
def leaveDeep (s : State) : State := each (powerUnits.filter (fun u => rests s u && !mayRest s u)) activate s

/-! ## Entry (R681) -/

/-- ARRAY_GATE (R681): an array without a task and without entries. -/
def execArrayGate (p : Nat) (s : State) : Host.Outcome State Fault Refusal :=
  run s (guarded (computeOn s && mayRest s (.array p) && decide (p < 912)) (fun s =>
    let x := arrAt s p
    if x.task.isNone ∧ x.queue = [] ∧ (physAt s p).testing = false then modArr p (fun x => { x with gated := true }) s else s))

/-- No request is at the controller of stack n. -/
def stackIdle (s : State) (n : Nat) : Bool :=
  !s.rg.queue.any (fun q => q.1 / 14 / 64 == n && !q.2.runs.isEmpty) && !s.mem.tg.any (fun t => t.1 / 64 == n && t.2.state == 1)

/-- STACK_SELF_REFRESH_ENTRY (R40, R681). -/
def execStackSelfRefreshEntry (n : Nat) (s : State) : Host.Outcome State Fault Refusal :=
  run s (guarded (computeOn s && mayRest s (.stack n) && stackIdle s n && (stackAt s n).state == 2) (fun s =>
    emit (.selfRefresh n true) (modStack n (fun x => { x with state := 3 }) s)))

/-- A task waits at, or runs on, a unit of sector n. -/
def inSector (n : Nat) (t : Task) : Bool :=
  match t.place with
  | .lsq k => k / 4 == n | .saved k => k / 4 == n | .entry l => sectorOfArray l == n | .running l => sectorOfArray l == n
  | .saving l => sectorOfArray l == n | .restoring l => sectorOfArray l == n | .lceQueue k => k / 4 == n | .lce k => k / 4 == n
  | .mover m => m == n
  | _ => false

/-- Sequencers, LCEs and step mover of sector n have work. -/
def sectorBusy (s : State) (n : Nat) : Bool :=
  s.fe.tasks.any (inSector n) || (List.range 4).any (fun i => !(lceAt s (4 * n + i)).active.isEmpty || !(lceAt s (4 * n + i)).queue.isEmpty)

/-- SECTOR_DOZE_ENTRY (R681, R687): every array gated, no work; a sector taken offline once it is idle. -/
def execSectorDozeEntry (n : Nat) (s : State) : Host.Outcome State Fault Refusal :=
  run s (guarded (computeOn s && decide (n < 12) && mayRest s (.sector n) && !sectorBusy s n) (fun s =>
    let gated := (physOfSector n).all (fun p => (arrAt s p).gated || ((physAt s p).role != 2 && (physAt s p).role != 3))
    if (sectorAt s n).state = 2 ∨ (sectorOn s n ∧ gated) then
      { s with pm := { s.pm with sector := tset 0 s.pm.sector n 3 } }
    else s))

/-- Something needs the clocks of BLOCK-REST: published commands, tasks, packets, queued runs, mailbox messages. -/
def blockNeeded (s : State) : Bool :=
  !s.fe.tasks.isEmpty || s.fe.q.any (fun q => (q.2.state == .ready && q.2.sqHead != q.2.sqTail) || !q.2.due.isEmpty) ||
    s.fab.port.any (fun p => !p.2.rx.isEmpty) || s.rg.queue.any (fun q => !q.2.runs.isEmpty) ||
    s.mbx.box.any (fun b => b.2.state == .posted || b.2.state == .taken) || s.lce.unit.any (fun x => !x.2.queue.isEmpty)

/-- BLOCK_REST_ENTRY (R681). -/
def execBlockRestEntry (s : State) : Host.Outcome State Fault Refusal :=
  run s (guarded (computeOn s && mayRest s .block && !blockNeeded s) (fun s =>
    if (List.range 12).all (fun n => !sectorOn s n || rests s (.sector n)) && (List.range 12).all (fun n => stackGone s n || rests s (.stack n))
    then { s with pm := { s.pm with block := 4 } } else s))

/-! ## Exit (R685, R686) -/

/-- A request needs a unit that rests. -/
def needed (s : State) (u : PowerUnit) : Bool :=
  match u with
  | .array p => !(arrAt s p).queue.isEmpty
  | .stack n => !stackIdle s n
  | .sector n => sectorOn s n && sectorBusy s n
  | .block => blockNeeded s

/-- WAKE_COMPLETE (R685): the exit latency of a unit that is needed, or that the CPB wakes, has passed. -/
def execWakeComplete (u : PowerUnit) (s : State) : Host.Outcome State Fault Refusal :=
  run s (guarded (planeUp s && rests s u && (needed s u || s.pm.waking.contains u)) (activate u))

/-- Beats from the start of a unit's exit to the event it is for. -/
def wakeLead (u : PowerUnit) : Nat :=
  match u with
  | .array _ => 1 | .stack _ => 3 | .sector _ => 12 | .block => 176

/-- A partition has a known event at beat b (R686): the start of an owned turn, the open beat of a ready gate, the send stage of a
KV_PASS. -/
def eventFor (s : State) (p b : Nat) : Bool :=
  let off := b % roundBeats s
  let turn := (List.range ((partAt s p).countM1 + 1)).any (fun k => turnStart s p k == off &&
    field (regGet s (0x101200 + 0x400 * p + 4 * k)) 0 5 != 0x1F && !(partAt s p).fair)
  let of := fun (g : Nat) => (groupAt s g).live && partOfCtx s (groupAt s g).ctx == p
  let gate := s.sg.gates.any (fun g => of (byteAt g.desc 8) && stageOpen (groupAt s (byteAt g.desc 8)).desc (fieldAt g.desc 0 8) == b)
  let kv := s.sg.kv.any (fun k => match (taskOf s k.seq).bind (fun t => t.group) with
    | some g => !k.started && of g && stageOpen (groupAt s g).desc (fieldAt k.desc 32 8) == b
    | none => false)
  turn || gate || kv

/-- The round that begins at beat b takes a ledger snapshot. -/
def snapshotAt (s : State) (b : Nat) : Bool :=
  let n := field (regGet s 0x1100314) 16 16
  let rounds := b / roundBeats s - beat s / roundBeats s
  b % roundBeats s == 0 && n != 0 && (s.pm.rounds + rounds) % n == 0

/-- PREWAKE (R686): the CPB starts the exit of a unit so that it is ACTIVE when the beat of a known event begins. -/
def execPrewake (u : PowerUnit) (s : State) : Host.Outcome State Fault Refusal :=
  run s (guarded (planeUp s && rests s u && !s.pm.waking.contains u) (fun s =>
    let b := beat s + wakeLead u
    let here := match u with
      | .array p => eventFor s (partOfSector s (sectorOfPhys p)) b
      | .sector n => sectorOn s n && eventFor s (partOfSector s n) b
      | _ => (List.range s.fe.parts).any (fun p => eventFor s p b)
    if here || (snapshotAt s b && (match u with | .sector n => sectorOn s n | _ => true)) then
      { s with pm := { s.pm with waking := s.pm.waking ++ [u] } }
    else s))

/-! ## Limits that change -/

/-- VAI_WAKE_TOL (R684). -/
def execVaiWakeTol (s : State) : Host.Outcome State Fault Refusal :=
  run s (onBox 256 0x0340 (fun s =>
    let v := field (boxWord s 256 1) 0 8
    if (vaiAt s v).state = 0 then replySt 256 .denied s
    else
      let n := boxWord s 256 2
      replySt 256 .done (leaveDeep (modVai v (fun x => { x with wakeTol := n }) s))))

/-- MAX_STATE_WRITE (R764): a write of PM_CFG; units in a deeper state leave it at once. -/
def execMaxStateWrite (val : W32) (s : State) : Host.Outcome State Fault Refusal :=
  run s (guarded (regsOn s) (fun s => leaveDeep (regSet 0x1100000 (val.toNat &&& 0xE0FFFFFF) s)))

/-! ## Rate and throttling (R79, R688-R690) -/

/-- The throttle floor in steps of 100 MHz. -/
def floorRate (s : State) : Nat := max 10 (min 30 (field (regGet s 0x1100004) 22 5))

/-- The effective ARRAY rate in steps of 100 MHz (R689). -/
def effRate (s : State) : Nat := if s.pm.thrPin then min s.pm.rate (floorRate s) else s.pm.rate

/-- The cap or the pin holds the effective rate below RATE_MAX (R690). -/
def throttledNow (s : State) : Bool := (s.pm.thrPin || s.pm.thrCap) && decide (effRate s < rateMax s)

/-- The round in progress counts as throttled once it has been. -/
def noteThrottle (s : State) : State := { s with pm := { s.pm with throttled := s.pm.throttled || throttledNow s } }

/-- The pin throttle starts or ends: source 37 fires (R690). -/
def pinThrottle (on : Bool) (s : State) : State :=
  if s.pm.thrPin = on then s else noteThrottle (arrive 37 { s with pm := { s.pm with thrPin := on } })

/-- THROTTLE_ASSERT (R79, R689). -/
def execThrottleAssert (s : State) : Host.Outcome State Fault Refusal :=
  let s := { s with blk := { s.blk with throttle := true } }
  run s (pinThrottle true)

/-- THROTTLE_RELEASE (R79). -/
def execThrottleRelease (s : State) : Host.Outcome State Fault Refusal :=
  let s := { s with blk := { s.blk with throttle := false } }
  run s (pinThrottle false)

/-- The highest step within RATE_MAX whose predicted power is within CAP_W; the lowest step when there is none (R688, log entry 23). -/
def chosenRate (load : Nat) (s : State) : Nat :=
  let cap := field (regGet s 0x1100004) 10 12
  let steps := (List.range (rateMax s + 1)).filter (fun r => decide (10 ≤ r ∧ Config.ratePower load s.pm.power r ≤ cap))
  steps.foldl max 10

/-- CPB_RATE_CHOICE (R69, R688, R690): the CPB chooses the ARRAY clock. -/
def execCpbRateChoice (load : Nat) (s : State) : Host.Outcome State Fault Refusal :=
  run s (fun s =>
    let r := chosenRate load s
    let cap := decide (r < rateMax s)
    let s' := { s with pm := { s.pm with rate := r, thrCap := cap } }
    noteThrottle (if cap = s.pm.thrCap then s' else arrive 37 s'))

end Sys2Proof.Machine
end

