-- ==== Sys2Proof/Machine/Reconf.lean ====
section
/-!
DEFINITION. Reconfiguration (R604-R611, R775), the end of a scrub (R757), and the pause of a VAI (R616).
-/
namespace Sys2Proof.Machine
open Sys2Proof

/-! ## The new layout -/

/-- Partition counts that a layout may have. -/
def layouts : List Nat := [1, 2, 3, 4, 6, 12]

/-- The new partition of what lay in partition p (R606). -/
def newPart (s : State) (parts p : Nat) : Nat := perPart s * p / (12 / parts)

/-- Partitions touched by a layout and a set of confidential partitions (R605). -/
def touchedBy (s : State) (parts conf : Nat) : Nat :=
  if parts ≠ s.fe.parts then 2 ^ (max parts s.fe.parts) - 1 else s.fe.conf ^^^ conf

/-- VAIs that are assigned. -/
def allVais (s : State) : List Nat := keysOf s.fe.vai (fun x => x.state != 0)

/-- VAIs that lie in new partition p. -/
def movedInto (s : State) (parts p : Nat) : List Nat := (allVais s).filter (fun v => decide (newPart s parts (vaiAt s v).part = p))

/-- Two VAIs of a list hold a class in common. -/
def shareClass (s : State) (l : List Nat) : Bool :=
  l.any (fun v => l.any (fun w => v != w && (classesHeld (vaiAt s v) &&& classesHeld (vaiAt s w)) != 0))

/-- Regulator r borrows, or will from the next round boundary on (R768). -/
def borrows (s : State) (r : Nat) : Bool := (regAt s r).borrow || (match (regAt s r).next with | some n => n.2.1 | none => false)

/-- The cache is divided, and stays so. -/
def staysDivided (s : State) : Bool := s.mem.divided && (match s.mem.ntNext with | some n => n.2 | none => true)

/-- The scratch grant of new partition p (R775), and whether it is free of others' units. -/
def newScratch (s : State) (parts p : Nat) : (Nat × Nat) × Bool :=
  let olds := (List.range s.fe.parts).filter (fun q => decide (newPart s parts q = p))
  let us := (olds.map (unitsOf s)).flatten
  match us.head? with
  | none => ((0, 0), true)
  | some u =>
    let lo := us.foldl min u
    let hi := us.foldl max u
    let others := (((List.range s.fe.parts).filter (fun q => decide (newPart s parts q ≠ p))).map (unitsOf s)).flatten
    ((lo, hi + 1 - lo), !others.any (fun x => decide (lo ≤ x ∧ x ≤ hi)))

/-- Logical arrays that a partition of a layout holds and that are backed. -/
def enabledUnder (s : State) (parts p : Nat) : Nat :=
  ((List.range 864).filter (fun l => decide (l / 72 / (12 / parts) = p) && tget 0 s.arr.lmap l != 0)).length

/-- Contexts of a VAI that keep a save area. -/
def savers (s : State) (v : Nat) : List Nat := keysOf s.fe.ctx (fun x => x.vai == v && (x.state == 1 || x.settling))

/-- Save areas of `n` bytes for a list of contexts: each at the first place with room (DESIGN CHOICE, log entry 13). -/
def placeSaves (s : State) (v n : Nat) (used : List (Nat × Nat)) (l : List Nat) : Option (List (Nat × Nat)) :=
  match l with
  | [] => some []
  | c :: r =>
    let cands := grantStarts s true v ++ used.map (fun x => alignUp (x.1 + x.2) 65536)
    match cands.find? (placeOk s true v n 65536 used) with
    | none => none
    | some a => (placeSaves s v n ((a, n) :: used) r).map (fun m => (c, a) :: m)

/-- The save areas of a VAI in a new layout. -/
def newSaves (s : State) (parts v : Nat) : Option (List (Nat × Nat)) :=
  let n := 1376256 * enabledUnder s parts (newPart s parts (vaiAt s v).part)
  placeSaves s v n (placedRanges s false) (savers s v)

/-! ## The checks (R607) -/

/-- A touched partition that is confidential before or after holds a context that is not free. -/
def confHeld (s : State) (parts conf touched : Nat) : Bool :=
  (allVais s).any (fun v =>
    let p := (vaiAt s v).part
    let q := newPart s parts p
    !(ctxsOf s v).isEmpty && ((bit touched p && bit s.fe.conf p) || (bit touched q && bit conf q)))

/-- The conditions of DENIED. -/
def reconfDenied (s : State) (parts conf : Nat) : Bool :=
  (List.range parts).any (fun p => bit conf p && (decide (2 ≤ (movedInto s parts p).length) || borrows s p ||
    (movedInto s parts p).any (fun v => (vaiAt s v).log))) ||
  (conf != 0 && !staysDivided s) || (List.range parts).any (fun p => shareClass s (movedInto s parts p))

/-- The conditions of BUSY that depend on what the partitions hold. -/
def reconfBusy (s : State) (parts conf touched : Nat) : Bool :=
  !s.fe.scrubbing.isEmpty || confHeld s parts conf touched ||
  (parts != s.fe.parts && ((allVais s).any (fun v => (newSaves s parts v).isNone) ||
    (List.range parts).any (fun p => !(newScratch s parts p).2)))

/-! ## The steps (R608) -/

/-- The tasks of touched partitions. -/
def touchedTasks (s : State) : List Task := s.fe.tasks.filter (fun t => touching s (partOfCtx s t.ctx))

/-- A task is at an LCE, a step mover or an engine. -/
def atUnit (t : Task) : Bool :=
  match t.place with
  | .lceQueue _ => true | .lce _ => true | .mover _ => true | .eap _ => true | .eapWait _ => true | _ => false

/-- A task is on an array. -/
def onAnArray (t : Task) : Bool :=
  match t.place with
  | .running _ => true | .saving _ => true | .restoring _ => true | _ => false

/-- A task of another unit ends with CANCELLED (R609). -/
def cancelTask (t : Task) (s : State) : State :=
  let r := leavePlace true 0x3FF t (abandonSeq true 0x3FF t.seq s)
  taskEnd t.seq .cancelled r.1 none r.2

/-- The tasks of touched partitions that are not on arrays are cancelled; the generation of every context rises (R609). -/
def cancelUnits (s : State) : State :=
  let ctxs := keysOf s.fe.ctx (fun x => x.state != 0 && touching s x.part)
  let s := each ctxs (fun c s => modCtx c (fun x => { x with gen := (x.gen + 1) % 256 }) s) s
  reissueAll (each ((touchedTasks s).filter atUnit) cancelTask s)

/-- A pre-emption request goes to every array that runs a task of a list. -/
def preemptTasks (l : List Task) (s : State) : State :=
  each l (fun t s => match t.place with
    | .running m => match physOf s m with
      | some p => requestPre p false s
      | none => s
    | .restoring m => match physOf s m with
      | some p => requestPre p false s
      | none => s
    | _ => s) s

/-- Nothing of the touched partitions runs any more. -/
def quiet (s : State) : Bool := !(touchedTasks s).any (fun t => onAnArray t || atUnit t)

/-- Task-queue entries that have not started go back to the sequencer's lists. -/
def unqueue (p : Nat) (s : State) : State :=
  let ls := (List.range 864).filter (fun l => decide (partOfArray s l = p))
  each ls (fun l s => match physOf s l with
    | some a =>
      let q := (arrAt s a).queue
      let s := modArr a (fun x => { x with queue := [] }) s
      each q (fun seq s => modTask seq (fun t =>
        { t with place := if s.arr.saves.any (fun r => decide (r.seq = seq)) then .saved (l / 18) else .lsq (l / 18) }) s) s
    | none => s) s

/-- A task kept by a sequencer outside its partition goes to the first one inside (DESIGN CHOICE, log entry 13). -/
def rehome (t : Task) (s : State) : State :=
  let ks := (lsqsOf s (partOfCtx s t.ctx)).filter (fun k => sectorOn s (k / 4))
  let goes := fun (k : Nat) => if ks.contains k then k else ks.headD k
  modTask t.seq (fun t => { t with place := match t.place with
    | .lsq k => .lsq (goes k)
    | .saved k => .saved (goes k)
    | x => x }) s

/-- The save area of context c moves to address `a`: its records there are copied, into the lowest slots. -/
def moveRecs (c a : Nat) (s : State) : State :=
  let old := s.arr.saves.filter (fun r => r.ctx == c && !r.pool)
  let new := ((List.range old.length).zip old).map (fun p => ({ p.2 with slot := p.1, base := a + 1376256 * p.1 }, recLoad p.2 s))
  each new (fun r s => recStore r.1 r.2.1 r.2.2
    { s with arr := { s.arr with saves := s.arr.saves.map (fun y => if y.seq = r.1.seq then r.1 else y) } }) s

/-- The sectors join their new partitions (step 4 of R608): slices, hot-row caches, VAIs, contexts, save areas, scratch grants. -/
def changeLayout (r : Reconf) (s : State) : State :=
  let ps := (List.range (max r.parts s.fe.parts)).filter (fun p => bit s.fe.touched p)
  let s := each ps (fun p s => unqueue p s) s
  let moved := (List.range 12).filter (fun n => decide (partOfSector s n ≠ n / (12 / r.parts)))
  let saves := ((allVais s).map (fun v => (newSaves s r.parts v).getD [])).flatten
  let scr := (List.range r.parts).map (fun p => (p, (newScratch s r.parts p).1))
  let s := each (allVais s) (fun v s => modVai v (fun x => { x with part := newPart s r.parts x.part }) s) s
  let s := each (keysOf s.fe.ctx (fun x => x.state != 0)) (fun c s => modCtx c (fun x => { x with part := (vaiAt s x.vai).part }) s) s
  let s := each saves (fun m s => modCtx m.1 (fun x => { x with saveAt := m.2 }) (moveRecs m.1 m.2 s)) s
  let s := each (List.range 12) (fun p s => modPart p (fun x => { x with scrFirst := 0, scrCount := 0 }) s) s
  let s := each scr (fun g s => modPart g.1 (fun x => { x with scrFirst := g.2.1, scrCount := g.2.2 }) s) s
  let s := { s with
    mem := if s.mem.divided then { s.mem with inval := moved.foldl (fun l n => sinsert n l) s.mem.inval } else s.mem,
    arr := { s.arr with saves := s.arr.saves.map (fun x => { x with part := (ctxAt s x.ctx).part }) },
    fe := { s.fe with parts := r.parts } }
  let s := each ps (fun p s => emptyHrc p s) s
  each s.fe.tasks rehome s

/-- The transaction ends (step 6 of R608): VAIs and queues go on, the reply is posted. -/
def endReconf (r : Reconf) (s : State) : State :=
  let s := { s with fe := { s.fe with conf := r.conf, reconf := none, reconfResult := 0 } }
  let vs := keysOf s.fe.vai (fun x => x.state == 2 && bit s.fe.touched x.part)
  let vs := vs.filter (fun v => !s.fe.pausing.contains v)
  let s := each vs (fun v s => freeQueues v (modVai v (fun x => { x with state := 1 }) s)) s
  refillAll (replyFor 256 0x0105 .done s)

/-- Step 4 once nothing of the touched partitions runs; then the scrubs, or the end. -/
def reconfStep (s : State) : State :=
  match s.fe.reconf with
  | none => s
  | some r =>
    if r.step = 3 ∧ quiet s = true then
      let s := if r.parts = s.fe.parts then each ((List.range 12).filter (fun p => bit s.fe.touched p)) (fun p s => emptyHrc p s) s
        else changeLayout r s
      if r.scrub.isEmpty then endReconf r s
      else
        each r.scrub (fun p s => startScrub p 1 s) { s with fe := { s.fe with reconf := some { r with step := 5 } } }
    else s

/-- Step 2 of R608: the VAIs of touched partitions are held; array tasks are asked to save, and TAG cancels the others. A VAI that
is paused stays so. -/
def beginReconf (parts conf touched : Nat) (tag : Bool) (s : State) : State :=
  let scrub := (List.range parts).filter (fun p => bit s.fe.conf p != bit conf p)
  let r : Reconf := { parts := parts, conf := conf, tag := tag, step := 3, scrub := scrub }
  let s := { s with fe := { s.fe with reconf := some r, touched := touched } }
  let vs := keysOf s.fe.vai (fun x => x.state == 1 && bit touched x.part)
  let s := each vs (fun v s => holdQueues v (modVai v (fun x => { x with state := 2 }) s)) s
  let s := preemptTasks (touchedTasks s) s
  reconfStep (if tag then cancelUnits s else s)

/-- A refused transaction: the reply carries the code. -/
def refuseReconf (st : Status) (s : State) : State := replySt 256 st { s with fe := { s.fe with reconfResult := st.code } }

/-- RECONFIG (R604-R608). -/
def execReconfig (s : State) : Host.Outcome State Fault Refusal :=
  run s (guarded s.fe.reconf.isNone (onBox 256 0x0105 (fun s =>
    let parts := boxWord s 256 1
    let conf := boxWord s 256 2
    let tag := bit (boxWord s 256 3) 0
    if !layouts.contains parts ∨ 2 ^ parts ≤ conf then refuseReconf .faultFormat s
    else
      let touched := touchedBy s parts conf
      if reconfDenied s parts conf then refuseReconf .denied s
      else if reconfBusy s parts conf touched then refuseReconf .busy s
      else if touched = 0 then replySt 256 .done { s with fe := { s.fe with touched := 0, reconfResult := 0 } }
      else beginReconf parts conf touched tag s)))

/-- RECONFIG_DRAIN_EXPIRY (R609): DRAIN_MS has passed; what still runs on other units is handled as under TAG. -/
def execReconfigDrainExpiry (s : State) : Host.Outcome State Fault Refusal :=
  run s (guarded (computeOn s) (fun s => match s.fe.reconf with
    | some r => if r.step = 3 ∧ (touchedTasks s).any atUnit = true then reconfStep (cancelUnits s) else s
    | none => s))

/-! ## The end of a scrub -/

/-- SCRUB_COMPLETE (R757): the memory is zero, the receipt is recorded; the transaction or VAI_DESTROY that asked for the scrub goes
on. -/
def execScrubComplete (p : Nat) (s : State) : Host.Outcome State Fault Refusal :=
  run s (guarded (computeOn s && s.err.state != 2 && scrubbing s p) (fun s =>
    let v := (scrubAt s p).vai
    let again := (scrubAt s p).trigger == 1
    let s := endScrub p (scrubSteps p s)
    let o : Own := match v with
      | some v => if again then .vai v else .free
      | none => .free
    let give := fun (t : Tbl Own) => t.foldl (fun a e => tset .free a e.1 (if e.2 = .scrub p then o else e.2)) []
    let s := { s with fe := { s.fe with ftOwn := give s.fe.ftOwn, scrOwn := give s.fe.scrOwn } }
    if again then
      match s.fe.reconf with
      | some r =>
        let r := { r with scrub := sremove p r.scrub }
        let s := { s with fe := { s.fe with reconf := some r } }
        if r.scrub.isEmpty then endReconf r s else s
      | none => s
    else match v with
      | some v => replyFor 256 0x0102 .done (endVai v s)
      | none => s))

/-! ## Pausing a VAI (R616) -/

/-- Tasks of a VAI. -/
def tasksOf (s : State) (v : Nat) : List Task := s.fe.tasks.filter (fun t => (queueAt s t.queue).vai == v)

/-- A task runs somewhere, or will without its queue's leave. -/
def stillRuns (t : Task) : Bool :=
  onAnArray t || (match t.place with | .lceQueue _ => true | .lce _ => true | .mover _ => true | .eap _ => true | .gate => true | _ => false)

/-- A pause ends when nothing of the VAI runs. -/
def pauseStep (v : Nat) (s : State) : State :=
  if (tasksOf s v).any stillRuns then s
  else replyFor 256 0x0120 .done (modVai v (fun x => { x with state := 3 }) { s with fe := { s.fe with pausing := sremove v s.fe.pausing } })

/-- VAI_PAUSE (R616). -/
def execVaiPause (s : State) : Host.Outcome State Fault Refusal :=
  run s (guarded (s.fe.pausing.isEmpty) (onBox 256 0x0120 (fun s =>
    let v := boxWord s 256 1
    let x := vaiAt s v
    if x.state = 0 ∨ x.state = 3 then replySt 256 .denied s
    else if x.state = 2 ∨ touching s x.part ∨ scrubbing s x.part then replySt 256 .busy s
    else
      let s := holdQueues v (modVai v (fun x => { x with state := 2 }) { s with fe := { s.fe with pausing := [v] } })
      pauseStep v (preemptTasks (tasksOf s v) s))))

/-- VAI_RESUME (R616). -/
def execVaiResume (s : State) : Host.Outcome State Fault Refusal :=
  run s (onBox 256 0x0121 (fun s =>
    let v := boxWord s 256 1
    let x := vaiAt s v
    if x.state = 0 ∨ x.state = 1 then replySt 256 .denied s
    else if x.state = 2 ∨ touching s x.part ∨ scrubbing s x.part then replySt 256 .busy s
    else refillAll (replySt 256 .done (freeQueues v (modVai v (fun x => { x with state := 1 }) s)))))

end Sys2Proof.Machine
end

