-- ==== Sys2Proof/Machine/Beat.lean ====
section
/-!
DEFINITION. The rack beat (R376-R380, R691-R696), what every beat and every round brings (R501, R502, R690, R697, R755, R770), and the
ledger's snapshots (R698-R702).
-/
namespace Sys2Proof.Machine
open Sys2Proof

/-! ## Lock, jumps, masters -/

/-- LOCK takes a value; source 38 fires at each change (R696). -/
def setLock (k : Nat) (s : State) : State :=
  if s.pm.lock = k then s else arrive 38 { s with pm := { s.pm with lock := k } }

/-- The counter will be loaded at the next boundary; `jump`: as a jump (R693). -/
def loadBeat (v : Nat) (jump : Bool) (s : State) : State := { s with pm := { s.pm with next := some (v % 2 ^ 64), jump := jump } }

/-- A port carries BEAT sets: in fabric mode, and up (R376, R385). -/
def beatPort (s : State) (p : Nat) : Bool := portMode s p == 1 && ((portAt s p).state == 2 || (portAt s p).state == 3)

/-- The port whose partner advertises the smallest distance, the lowest number breaking a tie (R376). -/
def bestPort (s : State) : Option Nat :=
  minBy (fun p => (portAt s p).distance) ((List.range 8).filter (fun p => beatPort s p && decide ((portAt s p).distance < 0xFF)))

/-- The block follows its best port, or none. -/
def follow (s : State) : State :=
  match bestPort s with
  | some p =>
    let d := min 0xFF ((portAt s p).distance + 1)
    let s' := { s with pm := { s.pm with upstream := p, distance := d } }
    if 4 < d ∧ ¬ 4 < s.pm.distance % 0xFF then reportCe 6 p 0x07 0 s' else s'
  | none => { s with pm := { s.pm with upstream := 0xF, distance := 0xFF } }

/-- BEAT_ORDERED_SET (R376, R378, R692, R693, R696): a set from the upstream port loads the counter at the first lock, and as a jump when the
master has changed. A master gives way to one of lower node ID. OFFSET is a measurement: a free value. -/
def execBeatOrderedSet (p : Nat) (set : BeatSet) (s : State) (intact : Bool := true) : Host.Outcome State Fault Refusal :=
  run s (guarded (beatPort s p) (setIn p intact (fun s =>
    let s := modPort p (fun x => { x with distance := set.distance, master := set.master }) s
    if s.pm.master ∧ ¬ set.master < nodeId s then s
    else
      let s := follow { s with pm := { s.pm with master := false } }
      if s.pm.upstream ≠ p then s
      else
        let (x, s) := fresh s
        let old := s.pm.node
        let s := { s with pm := { s.pm with node := set.master, offset := x % 65536 } }
        let s := if old = 0xFFF then loadBeat (set.value + 1) false s
          else if old ≠ set.master then loadBeat (set.value + 1) true s else s
        setLock 1 s)))

/-- BEAT_UPSTREAM_LOSS (R380, R696): the next best port, or holdover with a CE. -/
def execBeatUpstreamLoss (s : State) : Host.Outcome State Fault Refusal :=
  run s (guarded (!s.pm.master && decide (s.pm.upstream < 8) && !beatPort s s.pm.upstream) (fun s =>
    let s := follow (modPort s.pm.upstream (fun x => { x with distance := 0xFF }) s)
    if s.pm.upstream = 0xF then reportCe 0 0 0x07 0 (setLock 2 s) else s))

/-- The source of a master of SRC `src` is present at once: REFCLK always runs (R694, R696). -/
def sourceFree (src : Nat) : Bool := src == 0 || decide (4 ≤ src)

/-- MASTER_ELECTION (R692): a candidate that has heard no BEAT set becomes master. Its counter is loaded with 0; PTP gives a value when its
clock has one. -/
def execMasterElection (s : State) : Host.Outcome State Fault Refusal :=
  run s (guarded (s.pm.cand && !s.pm.master && s.pm.listen == some 32 && (bestPort s).isNone) (fun s =>
    let s := { s with pm := { s.pm with master := true, upstream := 0xF, distance := 0, node := nodeId s, missed := 0 } }
    loadBeat 0 false (if sourceFree s.pm.src then setLock 1 s else s)))

/-- BEAT_IN_EDGE (R82, R694, R696): a master whose source is BEAT_IN has its edge or pulse. A follower ignores the pin. -/
def execBeatInEdge (s : State) : Host.Outcome State Fault Refusal :=
  run s (guarded (bit (regGet s 0x8) 17 && s.pm.master && (s.pm.src == 1 || s.pm.src == 2)) (fun s =>
    setLock 1 { s with pm := { s.pm with missed := 0, pulses := (s.pm.pulses + 1) % 2 } }))

/-- The beats without an edge or pulse after which a source counts as missing: 2, beyond the second of a 1PPS source. -/
def missLimit (src : Nat) : Nat := if src = 2 then 976565 else 2

/-- BEAT_SOURCE_LOSS (R696). -/
def execBeatSourceLoss (s : State) : Host.Outcome State Fault Refusal :=
  run s (guarded (s.pm.master && (s.pm.src == 1 || s.pm.src == 2) && s.pm.lock == 1 && decide (missLimit s.pm.src ≤ s.pm.missed)) (fun s =>
    reportCe 0 0 0x07 0 (setLock 2 s)))

/-- OFFSET in units of 0.1 ns is within 50 ns. -/
def offsetNear (x : Nat) : Bool := decide (x ≤ 500 ∨ 65536 - 500 ≤ x)

/-- The time of a PTP event message at the pins: that of the interface, corrected by the SerDes latency (R46, R364). -/
def ptpStamp (x : Port) (sent : Bool) (t : Nat) : Nat := if sent then t + x.txLat else t - x.rxLat

/-- PTP_MESSAGE (R364, R694-R696): an event message is timestamped at the interface, in units of 0.64 ns, and firmware's slave clock uses
the message. The offset and the time that it computes from the timestamps are free functions of them. A master of SRC 0x3 locks while the
offset is small, and loads its counter at its first lock. -/
def execPtpMessage (p : Nat) (s : State) (event : Bool := true) (sent : Bool := false) (stamp : Nat := 0) :
    Host.Outcome State Fault Refusal :=
  run s (guarded (planeUp s && decide (2 ≤ portMode s p) && ((portAt s p).state == 2 || (portAt s p).state == 3)) (fun s =>
    let s := if event then modPort p (fun x => { x with ptpAt := ptpStamp x sent stamp }) s else s
    let s := emit (.ptp p (portAt s p).ptpAt) s
    if s.pm.src = 3 ∧ s.pm.master then
      let (i, s) := fresh s
      let x := Config.ptpClock i (portAt s p).ptpAt
      let (i, s) := fresh s
      let v := Config.ptpClock i (portAt s p).ptpAt
      let s := { s with pm := { s.pm with offset := x % 65536 } }
      if offsetNear (x % 65536) then setLock 1 (if s.pm.lock = 0 then loadBeat v true s else s)
      else if s.pm.lock = 1 then setLock 2 s else s
    else s))

/-- BEAT_SET (R694, R766). -/
def execBeatSet (s : State) : Host.Outcome State Fault Refusal :=
  run s (onBox 256 0x0341 (fun s =>
    if s.pm.master then replySt 256 .done (loadBeat (boxPair s 256 1) true s) else replySt 256 .denied s))

/-! ## The beat boundary -/

/-- The counter rises, or takes the value that waits for the boundary; a jump is counted, with a CE (R691, R693). -/
def countBeat (s : State) : State :=
  match s.pm.next with
  | none => { s with pm := { s.pm with beat := (s.pm.beat + 1) % 2 ^ 64 } }
  | some v =>
    let s' := { s with pm := { s.pm with beat := v, next := none, jump := false } }
    if s.pm.jump then reportCe 0 0 0x07 0 { s' with pm := { s'.pm with jumps := sat 16 (s.pm.jumps + 1), skip := true } } else s'

/-- The beats of R692 are counted from READY on. -/
def countListen (s : State) : State :=
  match s.pm.listen with
  | some k =>
    let up := (List.range 8).any (beatPort s)
    { s with pm := { s.pm with listen := some (if k < 16 ∧ up then 16 else min 32 (k + 1)) } }
  | none => s

/-- SRC and CANDIDATE take effect (R764); a master counts the beats without an edge. A master that changes its source waits for it. -/
def takeSource (s : State) : State :=
  let r := regGet s 0x1100200
  let src := field r 28 3
  let s' := { s with pm := { s.pm with src := src, cand := bit r 31, missed := if s.pm.master then s.pm.missed + 1 else 0 } }
  if s.pm.master ∧ src ≠ s.pm.src then
    let s' := { s' with pm := { s'.pm with missed := 0 } }
    if sourceFree src then setLock 1 s' else setLock 2 s'
  else s'

/-- BEAT sets leave (R376): from a master on every fabric-mode port, from a follower on the others than its upstream port. The offset of a
set in its beat is timing: a free value. -/
def sendBeats (s : State) : State :=
  if !s.pm.master && s.pm.upstream == 0xF then s
  else each ((List.range 8).filter (fun p => beatPort s p && (s.pm.master || p != s.pm.upstream))) (fun p s =>
    let (x, s) := fresh s
    let d := if s.pm.master then 0 else s.pm.distance
    emit (.beatOrdered p { value := beat s, offset := x % 1600, distance := d, master := s.pm.node }) s) s

/-- What firmware looks at in every beat, once it runs: transactions, pauses, teardowns, sectors, swaps. -/
def firmwareChecks (s : State) : State :=
  if !(planeUp s && s.err.state != 2) then s
  else
    let s := reconfStep s
    let s := each s.fe.pausing pauseStep s
    let s := each (keysOf s.fe.ctx (fun c => c.settling)) teardownSettle s
    swapChecks (each (List.range 12) sectorStep s)

/-- A block reset is under way or due: the beat is a gap beat of the regulators (R305). -/
def inReset (s : State) : Bool := s.err.bPending.isSome || s.err.state == 1

/-- BEAT_BOUNDARY (R68, R82, R305, R401, R691). -/
def execBeatBoundary (s : State) : Host.Outcome State Fault Refusal :=
  run s (fun s =>
    let s := emit .beatOut (countBeat s)
    let gap := inReset s
    let s := { s with pm := { s.pm with done := [] }, blk := { s.blk with phyHold := [] } }
    let s := tickTasks (endBeatRuns s)
    let s := { s with rg := { s.rg with gap := gap, gapBeats := if gap then s.rg.gapBeats + 1 else s.rg.gapBeats } }
    let s := sendBeats (takeSource (countListen s))
    let s := if beat s % roundBeats s = 0 then handoverRound s else s
    firmwareChecks (if planeUp s then testGates s else s))

/-! ## The round boundary -/

/-- A counter of the VAI page as it is latched (R755). -/
def coarse (q x : Nat) : Nat := q * (x / max 1 q)

/-- The quanta of the counters of VAI v: cycles, runs, rows. -/
def countQ (s : State) (v : Nat) : Nat × Nat × Nat :=
  let p := (vaiAt s v).part
  if confVai s v then
    (cycleQ s p, max 1 ((regAt s p).rate * 768 * roundBeats s / 64), 4 * perPart s * 4 * 2048 * roundBeats s / 64)
  else (1, 1, 1)

/-- The counters of a VAI are latched, and the class mask that waits comes into force (R602, R755). -/
def latchVai (v : Nat) (s : State) : State :=
  let q := countQ s v
  modVai v (fun x => { x with classes := x.classesNext.getD x.classes, classesNext := none, latched := coarse q.1 x.cycles,
                              latchedRuns := coarse q.2.1 x.runs, latchedRows := coarse q.2.2 x.rows }) s

/-- The changes of a partition's schedule that wait come into force, and the class cycles restart (R500, R506, R524). -/
def applyPart (p : Nat) (s : State) : State :=
  let x := partAt s p
  let s := match x.commit with
    | some l =>
      let s := each (l.zip (List.range l.length)) (fun e s => regSet (0x101200 + 0x400 * p + 4 * e.2) e.1 s) s
      modPart p (fun x => { x with commit := none, result := 0, countM1 := l.length - 1 }) s
    | none => s
  modPart p (fun x => match x.cfgNext with
    | some c => { x with fair := c.1, beMask := c.2, cfgNext := none, result := 0, used := [] }
    | none => { x with used := [] }) s

/-- Energy of a partition, or of the rest of the block; it counts in the energy of the block too. -/
def addEnergy (p : Option Nat) (s : State) : State :=
  let (x, s) := fresh s
  let part := match p with
    | some p => tmod 0 s.pm.energy p (fun e => (e + x) % 2 ^ 64)
    | none => s.pm.energy
  { s with pm := { s.pm with energy := part, energyBlk := (s.pm.energyBlk + x) % 2 ^ 64 } }

/-- Energy is latched (R697): free values; those of the partitions and of the unassigned rest sum to that of the block. -/
def latchEnergy (s : State) : State := addEnergy none (each (List.range s.fe.parts) (fun p s => addEnergy (some p) s) s)

/-- A new round (R502, R770): every change that waits comes into force, and then the first turn of each partition begins. -/
def newRound (s : State) : State :=
  let old := (List.range s.fe.parts).map (turnOwner s)
  let s := applyRates s
  let s := { s with fe := { s.fe with round := s.fe.roundNext.getD s.fe.round, roundNext := none } }
  let s := each (List.range 12) applyPart s
  let s := each (keysOf s.fe.vai (fun x => x.state != 0)) latchVai s
  let s := latchEnergy s
  let s := { s with pm := { s.pm with thrLast := b2n s.pm.throttled, throttled := throttledNow s, rounds := s.pm.rounds + 1,
                                        cut := s.pm.skip, skip := false } }
  each ((List.range s.fe.parts).zip old) (fun e s => turnBegins e.1 0 e.2 s) s

/-- ROUND_BOUNDARY (R290, R293, R502): at every beat that is a multiple of ROUND_BEATS. -/
def execRoundBoundary (s : State) : Host.Outcome State Fault Refusal :=
  run s (guarded (regsOn s) (fun s => oncePerBeat 0 (beat s % roundBeats s == 0) newRound s))

/-! ## The ledger -/

/-- A CREDIT entry (R698, R699, R701). -/
def creditSnap (n p : Nat) (s : State) : List Byte :=
  let x := portAt s p
  let vcs := ((List.range 8).map (fun v => leBytes 2 (x.credits.getD v 0) ++ leBytes 2 (x.owed.getD v 0))).flatten
  ledEntry 0x01 (x.state == 2 || x.state == 3) p n (beat s) (vcs ++ leBytes 2 x.h0 ++ leBytes 2 x.hn)

/-- The totals of a regulator: dealt, spent, lent, borrowed, expired. -/
def regTotals (s : State) (r : Nat) : List Nat :=
  let x := regAt s r
  if r = 13 then [x.dealt, 0, 0, x.lent, 0] else [x.dealt, x.spent, x.lent, x.borrowed, x.expired]

/-- A PIPS entry: the increases since the previous snapshot. -/
def pipSnap (n r : Nat) (s : State) : List Byte :=
  let l := (regTotals s r).zip (List.range 5)
  ledEntry 0x02 true r n (beat s) ((l.map (fun e => leBytes 8 (e.1 + 2 ^ 64 - tget 0 s.pm.totals (5 * r + e.2)))).flatten)

/-- Handles of pool h that tasks hold; `saved`: those of saved tasks. -/
def heldHandles (s : State) (h : Nat) (saved : Bool) : Nat :=
  ((s.fe.tasks.filter (fun t => s.arr.saves.any (fun r => r.seq == t.seq) == saved)).map (fun t =>
    (t.handles.filter (fun x => x / 2 ^ 24 == h)).length)).foldl (fun a b => a + b) 0

/-- A HANDLES entry; handles on their way home count as held. -/
def handleSnap (n h : Nat) (s : State) : List Byte :=
  let inq := (s.fe.hq.map (fun q => (q.2.items.filter (fun x => x / 2 ^ 24 == h)).length)).foldl (fun a b => a + b) 0
  let home := (s.fe.q.map (fun q => (q.2.homing.filter (fun x => x.2 / 2 ^ 24 == h)).length)).foldl (fun a b => a + b) 0
  ledEntry 0x03 true h n (beat s) (leBytes 2 (hqAt s h).count ++ leBytes 2 inq ++ leBytes 2 (heldHandles s h false + home) ++
    leBytes 2 (heldHandles s h true))

/-- The SLOTS entry. -/
def slotSnap (n : Nat) (s : State) : List Byte :=
  let count := fun (f : Nat → Bool) => ((List.range 32).filter f).length
  let parts := ((List.range 12).map (fun p =>
    if p < s.fe.parts then
      leBytes 1 (count (fun i => reservedFor s 32 p i && slotBusy s i)) ++ leBytes 1 (count (fun i => reservedFor s 32 p i && !slotBusy s i))
    else [0, 0])).flatten
  ledEntry 0x04 true 0 n (beat s) (parts ++ leBytes 1 (count (fun i => floats s 32 i && slotBusy s i)) ++
    leBytes 1 (count (fun i => floats s 32 i && !slotBusy s i)))

/-- All entries of a snapshot. -/
def snapEntries (n : Nat) (s : State) : List (List Byte) :=
  ((List.range 8).filter (fun p => portMode s p == 1 && decide (1 ≤ (portAt s p).state ∧ (portAt s p).state ≤ 4))).map (fun p => creditSnap n p s) ++
  (List.range 14).map (fun r => pipSnap n r s) ++ (keysOf s.fe.hq (fun h => h.bound)).map (fun h => handleSnap n h s) ++ [slotSnap n s]

/-- Entries that the ledger queue still takes. -/
def ledRoom (s : State) : Nat := 2 ^ ledSize s - (s.pm.tail + 2 ^ 32 - regGet s 0x110030C) % 2 ^ 32

/-- The snapshot is captured in one step and its entries are written (R699). -/
def takeSnapshot (s : State) : State :=
  let n := s.pm.snap + 1
  let l := snapEntries n s
  if ledSize s = 0 ∨ !s.pm.held.isEmpty ∨ ledRoom s < l.length then s
  else
    let totals := (List.range 14).foldl (fun t r => ((regTotals s r).zip (List.range 5)).foldl (fun t e => tset 0 t (5 * r + e.2) e.1) t) s.pm.totals
    let s := each l ledPut s
    { s with pm := { s.pm with snap := n % 2 ^ 32, totals := totals } }

/-- LEDGER_SNAPSHOT (R693, R699, R702): at every LEDGER_ROUNDS-th round boundary; none in a block reset, none of a round that a jump cut. -/
def execLedgerSnapshot (s : State) : Host.Outcome State Fault Refusal :=
  run s (guarded (regsOn s && s.pm.done.contains 0) (fun s =>
    let n := field (regGet s 0x1100314) 16 16
    oncePerBeat 2 (n != 0 && s.pm.rounds % max 1 n == 0) (fun s =>
      if s.pm.cut ∨ inReset s = true then s else takeSnapshot s) s))

/-- LEDGER_HEAD_WRITE (R702): room returns, and entries that wait are written. -/
def execLedgerHeadWrite (val : W32) (s : State) : Host.Outcome State Fault Refusal :=
  run s (guarded (regsOn s) (fun s =>
    let s := regSet 0x110030C val.toNat s
    ledFlush s.pm.held s))

end Sys2Proof.Machine
end

