-- ==== Sys2Proof/Machine/Dump.lean ====
section
/-!
DEFINITION. The error collector's log and the crash dump (R722, R725-R732): the bytes of a record, the capture of a dump, its retrieval.
-/
namespace Sys2Proof.Machine
open Sys2Proof

/-! ## Records (R722) -/

/-- The 32 bytes of a record. -/
def recBytes (r : ErrRec) : List Byte :=
  leBytes 2 (r.index % 4096 + r.kind % 16 * 4096) ++ leBytes 1 r.type ++ leBytes 1 (r.cls % 4 + 4 * b2n r.conf) ++
    leBytes 4 r.suppressed ++ leBytes 8 r.first ++ leBytes 8 r.last ++ leBytes 8 r.detail

/-- The open records, oldest first. -/
def openRecords (s : State) : List ErrRec :=
  (List.range (openRecs s)).map (fun i => tget noRec s.err.recs ((s.err.head + i) % 4096))

/-- The record of the latest B-class event, by its place in the log. -/
def causeRec (s : State) : Option (Nat × ErrRec) :=
  minBy (fun r => 2 ^ 64 - r.2.last) (s.err.recs.filter (fun r => slotOpen s r.1 && decide (r.2.cls = 2 ∧ r.2.type = s.err.lastType)))

/-! ## The dump (R725-R727, R761) -/

/-- The control state of an array in a dump (R163). Of an array of a confidential partition only the queue and the context of its task
remain (R727). -/
def ctrlBytes (s : State) (p : Nat) : List Byte :=
  let x := arrAt s p
  let t := x.task.bind (taskOf s)
  let conf := (match t with | some t => confCtx s t.ctx | none => false) ||
    decide ((physAt s p).logical < 864 ∧ confPart s (partOfArray s (physAt s p).logical) = true)
  if conf then padTo (padTo [] 16 ++ (match t with | some t => leBytes 2 t.queue ++ leBytes 2 t.ctx | none => [])) 2048
  else ctrlState x t

/-- A section: type, length, contents (R726). -/
def dumpSection (type : Nat) (l : List Byte) : List Byte := leBytes 2 type ++ leBytes 2 0 ++ leBytes 4 l.length ++ l

/-- Contents whose layout is not stated: free bytes, at most 64 KiB. -/
def freeBytes (s : State) : List Byte × State :=
  let (n, s) := fresh s
  let (x, s) := fresh s
  (leBytes (n % 65536) x, s)

/-- FW_VERSION of the image that steward k runs. -/
def fwVersion (s : State) (k : Nat) : Nat := fieldAt (if bit s.fw.newOn k then s.fw.staged else s.fw.running) 4 4

/-- The header of a dump of `n` sections in `len` bytes. -/
def dumpHeader (s : State) (n len : Nat) : List Byte :=
  let r := causeRec s
  let at' := match r with
    | some r => r.2.last
    | none => beat s
  padTo (leBytes 4 0x53444D50 ++ leBytes 4 (regGet s 0) ++ ((List.range 4).map (fun k => leBytes 4 (fwVersion s k))).flatten ++
    leBytes 8 at' ++ leBytes 2 ((r.map (fun r => r.1)).getD 0) ++ leBytes 2 s.fe.conf ++ leBytes 2 n ++ leBytes 2 0 ++ leBytes 4 len) 64

/-- A crash dump is captured in the store and replaces the one there (R725). Sections 0x02, 0x03, 0x05 and 0x06 have contents whose
layout is not stated. -/
def captureDump (s : State) : State :=
  let s0 := s
  let (b2, s) := freeBytes s
  let (b3, s) := freeBytes s
  let (b5, s) := freeBytes s
  let (b6, s) := freeBytes s
  let body := dumpSection 1 ((openRecords s0).map recBytes).flatten ++ dumpSection 2 b2 ++ dumpSection 3 b3 ++
    dumpSection 4 ((List.range 912).map (ctrlBytes s0)).flatten ++ dumpSection 5 b5 ++ dumpSection 6 b6
  { s with err := { s.err with dump := dumpHeader s0 6 (64 + body.length) ++ body, offer := false } }

/-! ## Retrieval (R728, R730, R732) -/

/-- The dump that FROM_FLASH selects; nothing when it is absent. -/
def dumpOf (s : State) (flash : Bool) : List Byte :=
  if flash then (if s.fw.flash.dumpDone then s.fw.flash.dump else []) else s.err.dump

/-- DUMP_STATE (R732). -/
def dumpState (s : State) : Nat :=
  if s.err.copying then 2
  else if s.err.copyFailed then 3
  else if (dumpOf s (bit (regGet s 0x1200028) 30)).isEmpty then 0 else 1

/-- DUMP_COPY (R732): the copy of the selected dump starts; a write while one runs only selects. -/
def execDumpCopy (val : W32) (s : State) : Host.Outcome State Fault Refusal :=
  run s (guarded (regsOn s && bit val.toNat 31) (fun s =>
    let s := regWrite 0x1200028 val.toNat s
    if s.err.copying then s
    else { s with err := { s.err with copying := true, copyFailed := false, fromFlash := bit val.toNat 30 } }))

/-- DUMP_COPY_DONE (R732): the dump has been written to the host buffer, without a PASID; or the copy has failed. -/
def execDumpCopyDone (refused : Bool) (s : State) : Host.Outcome State Fault Refusal :=
  run s (guarded s.err.copying (fun s =>
    let d := dumpOf s s.err.fromFlash
    let bad := refused || d.isEmpty
    let s := { s with err := { s.err with copying := false, copyFailed := bad } }
    if bad then s else hostWriteM (regGet s 0x1200020 / 4096 * 4096 + 2 ^ 32 * regGet s 0x1200024) d s))

/-- DUMP_CLR (R730): the flash dump and the log copy are cleared. -/
def execDumpClr (val : W32) (s : State) : Host.Outcome State Fault Refusal :=
  run s (guarded (regsOn s && bit val.toNat 29) (fun s =>
    { s with fw := { s.fw with flash := { s.fw.flash with dump := [], log := [], dumpDone := false } },
             err := { s.err with flashCopying := false } }))

/-- DUMP_FLASH_COPY (R728): after restore firmware begins to copy log and dump to flash, unless an uncleared dump is there. Until the copy
is done the flash dump is marked incomplete. -/
def execDumpFlashCopy (s : State) : Host.Outcome State Fault Refusal :=
  run s (guarded (planeUp s && s.err.state == 0 && s.err.offer) (fun s =>
    let s := { s with err := { s.err with offer := false } }
    if s.fw.flash.dumpDone ∨ s.err.flashCopying = true ∨ s.err.dump = [] then s
    else
      let log := ((List.range 4096).map (fun i => recBytes (tget noRec s.err.recs i))).flatten
      { s with fw := { s.fw with flash := { s.fw.flash with dump := s.err.dump, log := log } }, err := { s.err with flashCopying := true } }))

/-- DUMP_FLASH_COPY_DONE (R728). -/
def execDumpFlashCopyDone (s : State) : Host.Outcome State Fault Refusal :=
  run s (guarded s.err.flashCopying (fun s =>
    { s with fw := { s.fw with flash := { s.fw.flash with dumpDone := true } }, err := { s.err with flashCopying := false } }))

/-- ERR_LOG_HEAD_WRITE (R721, R731): the records up to HEAD are closed; a HEAD behind the previous one or beyond TAIL is discarded with
a CE. -/
def execErrLogHeadWrite (val : W32) (s : State) : Host.Outcome State Fault Refusal :=
  run s (guarded (regsOn s) (fun s =>
    if openRecs s < (val.toNat + 2 ^ 32 - s.err.head) % 2 ^ 32 then reportCe 0 0 0x05 0 s
    else { s with err := { s.err with head := val.toNat } }))

end Sys2Proof.Machine
end

