-- ==== Sys2Proof/Machine/FabEth.lean ====
section
/-!
DEFINITION. The Ethernet transport: frames in PSN order, kept responses, congestion, timeouts (R357-R363).
-/
namespace Sys2Proof.Machine
open Sys2Proof

/-- The peer whose VALID entry has a source address. -/
def peerOf (s : State) (ip : Nat) : Option Nat :=
  (List.range 1024).find? (fun k => bit (peerWord s k 7) 31 && decide (peerIp s k = ip))

/-- MAX_PKTS and RETRY_MAX as R383 treats them. -/
def maxPkts (s : State) : Nat := min 8 (max 1 (field (regGet s 0xC00008) 12 4))
def retryMax (s : State) : Nat := max 1 (field (regGet s 0xC00008) 8 4)

/-- Acknowledged frames leave a connection. -/
def ackFrames (psn : Nat) (x : Peer) : Peer :=
  match x.unacked.findIdx? (fun f => decide (f.psn = psn)) with
  | some i => { x with unacked := x.unacked.drop (i + 1), timeouts := 0 }
  | none => x

/-- Send the unacknowledged frames of a peer again, oldest first, by port p. -/
def resendAll (p k : Nat) (s : State) : State :=
  let s := modPeer k (fun x => { x with unacked := x.unacked.map (fun f => { f with port := p }) }) s
  each (peerAt s k).unacked (fun f s => sendFrame p k f.psn false false f.pkts (modPort p (fun x => { x with replayed := x.replayed + 1 }) s)) s

/-- A CE_ECHO halves the rate to a peer, at most once in 20 µs (R360). -/
def halveRate (now : Nat) (x : Peer) : Peer :=
  if x.halved = 0 ∨ x.halved + 20 ≤ now then { x with rate := max 1 (x.rate / 2), halved := now } else x

/-- Atomic and tally requests, whose responses a receiver keeps (R359). -/
def keptOpc (opc : Nat) : Bool := opc == 0x04 || opc == 0x05 || opc == 0x06 || opc == 0x07

/-- A packet of a storage server other than READ and WRITE is not taken (R362). -/
def peerMay (s : State) (k : Nat) (q : Packet) : Bool :=
  !bit (peerWord s k 7) 30 || q.opc == 0x01 || q.opc == 0x02 || q.opc == 0x81 || q.opc == 0x82

/-- The receive buffer of a port has room for the packets of a frame (R361). -/
def rxRoom (s : State) (p : Nat) (l : List Packet) : Bool :=
  decide (linkUnits ((buffered s p).map (fun e => e.2) ++ l) ≤ 32768)

/-- The frames whose kept responses are still held: the last 1,024. -/
def keepLast (x : Peer) : Peer := { x with kept := x.kept.drop (x.kept.length - 1024) }

/-- A frame with the expected PSN: its packets are taken, and it is acknowledged. -/
def takeFrame (p k : Nat) (l : List Packet) (s : State) : State :=
  let psn := (peerAt s k).expected
  let ok := l.filter (peerMay s k)
  let s := each (l.filter (fun q => !peerMay s k q)) (fun _ s => countDrop p s) s
  let s := modPeer k (fun x => keepLast { x with expected := (psn + 1) % 2 ^ 24, kept := x.kept ++ [(psn, ok.filter (fun q => keptOpc q.opc))] }) s
  let s := modPort p (fun x => { x with rx := x.rx ++ ok }) s
  sendFrame p k (peerAt s k).psn true false [] s

/-- A duplicate: the kept responses are sent again and nothing is performed (R359). -/
def takeDuplicate (p k psn : Nat) (s : State) : State :=
  let l := (((peerAt s k).kept.find? (fun f => decide (f.1 = psn))).map (fun f => f.2)).getD []
  let s := each (l.filter (fun q => !isRequest q)) (fun q s => sendOn p q s) s
  sendFrame p k (peerAt s k).psn true false [] s

/-- The transport header of a frame from peer k. A frame on its PORT_A shows that the peer is no longer down. -/
def takeTransport (p k : Nat) (f : EthFrame) (s : State) : State :=
  let first := field (routeOf s (field (peerWord s k 7) 16 12)) 25 3 == p
  let s := modPeer k (fun x =>
    let last := if f.nak then (f.ackPsn + 2 ^ 24 - 1) % 2 ^ 24 else f.ackPsn
    let x := ackFrames last { x with ceEcho := x.ceEcho || f.tclass % 4 == 3, down := x.down && !first }
    if f.ceEcho then halveRate (beat s) x else x) s
  pump p (if f.nak then resendAll p k s else s)

/-- A frame is an untagged IPv6 frame of UDP whose checksum is right (R357). -/
def frameUdp (f : EthFrame) : Bool := f.etype == 0x86DD && !f.tagged && f.next == 17 && f.sumOk

/-- A frame of the global space: to UDP_PORT, with 1 to MAX_PKTS packets or an acknowledgement only (R357, R358). -/
def frameOk (s : State) (f : EthFrame) : Bool :=
  frameUdp f && f.dport == udpPort s &&
    (f.ackOnly || (decide (1 ≤ f.packets.length) && decide (f.packets.length ≤ maxPkts s)))

/-- A PTP message: on UDP port 319 or 320 (R363). -/
def framePtp (f : EthFrame) : Bool := frameUdp f && (f.dport == 319 || f.dport == 320)

/-- ETHERNET_FRAME (R357-R363): a frame is taken in PSN order, acknowledged, answered with NAK, or dropped and counted. PTP
messages are a command of their own. `cor`, `unc`: codewords corrected, and left uncorrectable, since the last frame. -/
def execEthernetFrame (p : Nat) (f : EthFrame) (s : State) (cor : Nat := 0) (unc : Nat := 0) :
    Host.Outcome State Fault Refusal :=
  run s (guarded (portUp s p && decide (2 ≤ portMode s p)) (fun s =>
    let s := countRx p cor unc s
    let l := f.packets.map (fun b => { packetOf b with level := 0 })
    if unc ≠ 0 then countDrop p s
    else if framePtp f then s
    else if !frameOk s f then countDrop p s
    else match peerOf s f.ip with
      | none => countDrop p s
      | some k =>
        let s := takeTransport p k f s
        let d := (f.psn + 2 ^ 24 - (peerAt s k).expected) % 2 ^ 24
        if f.ackOnly then s
        else if d = 0 then (if rxRoom s p l then takeFrame p k l s else countDrop p s)
        else if d < 2 ^ 23 then sendFrame p k (peerAt s k).psn true true [] s
        else takeDuplicate p k f.psn s))

/-- The requests sent through a peer count as lost, and those forwarded to it are answered so (R344, R358). Its frames stay with the
connection. -/
def losePeer (k : Nat) (s : State) : State :=
  let via := fun (s : State) (n : Nat) => field (routeOf s n) 29 2 == 1 && field (routeOf s n) 0 10 == k
  let s := failFrames k (fun _ => true) s
  each (s.fab.reqs.filter (fun r => via s r.dst)) (fun r s => if s.fab.reqs.contains r then settleReq r .lost s else s) s

/-- The port on which a peer is reached now. -/
def peerPort (s : State) (k : Nat) : Nat := choosePort s (field (peerWord s k 7) 16 12) 0

/-- RETRANSMIT_TIMEOUT (R358): the sender resends; after RETRY_MAX timeouts in a row the peer is down, and its flows move to
PORT_B or lose their requests. -/
def execRetransmitTimeout (k : Nat) (s : State) : Host.Outcome State Fault Refusal :=
  run s (guarded (!(peerAt s k).unacked.isEmpty) (fun s =>
    let n := (peerAt s k).timeouts + 1
    let r := routeOf s (field (peerWord s k 7) 16 12)
    let alternate := bit r 28 && portUp s (field r 22 3) && !(peerAt s k).down
    let s := modPeer k (fun x => { x with timeouts := n }) s
    if n < retryMax s then resendAll (peerPort s k) k s
    else
      let s := modPeer k (fun x => { x with down := true, timeouts := 0 }) s
      if alternate then resendAll (peerPort s k) k s else losePeer k s))

/-- RATE_RECOVERY (R360): after 10 µs without an echo the rate to a peer rises by 1/64 of the port rate. -/
def execRateRecovery (k : Nat) (s : State) : Host.Outcome State Fault Refusal :=
  run s (modPeer k (fun x => { x with rate := min 64 (x.rate + 1) }))

end Sys2Proof.Machine
end

