-- ==== Sys2Proof/Machine/FabServe.lean ====
section
/-!
DEFINITION. Packets at their destination (R335-R341, R344): requests served, responses settled, packets forwarded.
-/
namespace Sys2Proof.Machine
open Sys2Proof

/-! ## Requests -/

/-- READ (R338): at the point of coherence, with PMASK for marked granules, once its runs have issued (R295). `ecc` is what the code
found in the codewords read. -/
def execReadRequest (p : Nat) (s : State) (ecc : List MemError := []) : Host.Outcome State Fault Refusal :=
  run s (serve p 0x01 (fun k s =>
    let a := k.arg % 2 ^ 48
    if !shapeOk a k.len then answer k 0x11 0 0 [] s
    else if !inMemory a k.len then answer k 0x10 0 0 [] s
    else if !winOpen s 0 28 k.src a k.len then answer k 0x30 0 0 [] s
    else if !localOk s a k.len then answer k 0x10 0 0 [] s
    else
      let i := s.rg.reqs
      let s := access (.fabric i) 12 none false a k.len (memErrors a k.len ecc s)
      let mask := readMask s a k.len
      answerWhen i (.fab k (if mask = 0 then 0 else 1) mask 0 (readMem s a k.len)) s))

/-- WRITE (R338): the ACK follows the write. -/
def execWriteRequest (p : Nat) (s : State) : Host.Outcome State Fault Refusal :=
  run s (serve p 0x02 (fun k s =>
    let a := k.arg % 2 ^ 48
    let n := k.data.length
    if !shapeOk a n then answer k 0x11 0 0 [] s
    else if !inMemory a n then answer k 0x10 0 0 [] s
    else if !winOpen s 0 27 k.src a n then answer k 0x30 0 0 [] s
    else if !localOk s a n then answer k 0x10 0 0 [] s
    else
      let i := s.rg.reqs
      answerWhen i (.fab k 0 0 0 []) (writeMem a k.data (pieceBad k.pmask a) (access (.fabric i) 12 none true a n s))))

/-- WRITE_LS (R341): into the inbound window of the task named, which must have started on the logical array named. -/
def execWriteLs (p : Nat) (s : State) : Host.Outcome State Fault Refusal :=
  run s (serve p 0x03 (fun k s =>
    let l := field k.arg 0 10
    let seq := field k.arg 10 37
    let off := field k.operand 0 20
    if k.data.isEmpty ∨ 512 < k.data.length then answer k 0x11 0 0 [] s
    else if !winOpen s 2 27 k.src l 1 then answer k 0x30 0 0 [] s
    else match windowWrite seq l off k.data (pieceBad k.pmask off) s with
      | some s => answer k 0 0 0 [] s
      | none => answer k 0x10 0 0 [] s))

/-- An atomic at the destination (R339): the old value when `old`. -/
def serveAtomic (p opc kind : Nat) (ecc : List MemError) (s : State) : State :=
  serve p opc (fun k s =>
    let a := k.arg % 2 ^ 48
    if a % 8 ≠ 0 ∨ (kind = 2 ∧ k.data.length ≠ 8) ∨ (kind ≠ 2 ∧ ¬ k.data.isEmpty) then answer k 0x11 0 0 [] s
    else if !inMemory a 8 then answer k 0x10 0 0 [] s
    else if !winOpen s 0 26 k.src a 8 then answer k 0x30 0 0 [] s
    else if !localOk s a 8 then answer k 0x10 0 0 [] s
    else
      let i := s.rg.reqs
      let s := access (.fabric i) 12 none true a 8 (memErrors a 8 ecc s)
      let r := atomicAt kind a (if kind = 2 then leNat k.data else k.operand) k.operand false s
      answerWhen i (.fab k 0 0 r.1 []) r.2) s

/-- ADD (R339). -/
def execAddRequest (p : Nat) (s : State) (ecc : List MemError := []) : Host.Outcome State Fault Refusal :=
  run s (serveAtomic p 0x04 0 ecc)

/-- FADD (R339): the reply holds the old value. -/
def execFadd (p : Nat) (s : State) (ecc : List MemError := []) : Host.Outcome State Fault Refusal :=
  run s (serveAtomic p 0x05 1 ecc)

/-- CAS (R339): the swap value is stored only when the old value equals the compare value. -/
def execCas (p : Nat) (s : State) (ecc : List MemError := []) : Host.Outcome State Fault Refusal :=
  run s (serveAtomic p 0x06 2 ecc)

/-- TSIG (R340): the addend is added to the tally word and waiters wake; the ACK follows. -/
def execTsig (p : Nat) (s : State) : Host.Outcome State Fault Refusal :=
  run s (serve p 0x07 (fun k s =>
    let i := field k.arg 0 14
    if !k.data.isEmpty then answer k 0x11 0 0 [] s
    else if !winOpen s 1 26 k.src i 1 then answer k 0x30 0 0 [] s
    else answer k 0 0 0 [] (tallyAdd i (w32 (k.operand % 2 ^ 32)) 0x2 k.src s)))

/-- A packet that only nodes with a VALID route may send: from another node it is dropped and counted (R337). -/
def fromValid (p : Nat) (k : Packet) (f : State → State) (s : State) : State :=
  if routeValid s k.src then f s else countDrop p s

/-- ARG bit 0 of a FWMSG says that it carries update records (DESIGN CHOICE: R223 names no operation for them). -/
def isUpdate (k : Packet) : Bool := bit k.arg 0

/-- FWMSG (R337): a steward message is taken and acknowledged. What it says is firmware's. -/
def execFwmsg (p : Nat) (s : State) : Host.Outcome State Fault Refusal :=
  run s (fun s => match rxHead s p (fun k => decide (k.opc = 0x09 ∧ k.dst = nodeId s) && !isUpdate k) with
    | none => s
    | some _ => serve p 0x09 (fun k s => fromValid p k (answer k 0 0 0 []) s) s)

/-! ## Responses -/

/-- A response settles the request it answers, or is dropped and counted (R371). -/
def respondTo (p opc : Nat) (fits : Req → Bool) (s : State) : State :=
  onPacket p opc (fun k s => match answered s k with
    | some r => if fits r then settleReq r (replyOf k) s else countDrop p s
    | none => countDrop p s) s

/-- READ_RSP (R344). -/
def execReadRsp (p : Nat) (s : State) : Host.Outcome State Fault Refusal :=
  run s (respondTo p 0x81 (fun r => r.opc == 0x01))

/-- ACK (R344). -/
def execAckResponse (p : Nat) (s : State) : Host.Outcome State Fault Refusal :=
  run s (respondTo p 0x82 (fun r => decide (r.opc = 2 ∨ r.opc = 3 ∨ r.opc = 4 ∨ r.opc = 7 ∨ r.opc = 9)))

/-- ATOM_RSP (R344). -/
def execAtomRsp (p : Nat) (s : State) : Host.Outcome State Fault Refusal :=
  run s (respondTo p 0x85 (fun r => decide (r.opc = 5 ∨ r.opc = 6)))

/-- An operation that R330 names. -/
def opcKnown (opc : Nat) : Bool :=
  decide (1 ≤ opc ∧ opc ≤ 9) || decide (opc = 0x81 ∨ opc = 0x82 ∨ opc = 0x85 ∨ opc = 0x88)

/-- RESERVED_OPC_DISCARD (R330): a packet with a reserved OPC is discarded, with a CE at its receiver. -/
def execReservedOpcDiscard (p : Nat) (s : State) : Host.Outcome State Fault Refusal :=
  run s (fun s => match rxHead s p (fun k => !opcKnown k.opc) with
    | some k => reportCe 6 p 0x07 0 (takeRx p k s)
    | none => s)

/-- REQUEST_TIMEOUT (R345): a request without a response after REQ_TMO is lost. -/
def execRequestTimeout (tag : Nat) (s : State) : Host.Outcome State Fault Refusal :=
  run s (fun s => match s.fab.reqs.find? (fun r => decide (r.tag = tag)) with
    | some r => settleReq r .lost s
    | none => s)

/-! ## Forwarding (R350, R351, R361) -/

/-- A packet that cannot go on: a request is answered with FAULT_ADDRESS, a response dropped; `count` where a rule has the
drop counted. -/
def cannotForward (p : Nat) (k : Packet) (lost count : Bool) (s : State) : State :=
  if isRequest k then respond k (rspOpc k.opc) 0x10 lost 0 0 [] s else if count then countDrop p s else s

/-- Whether a port runs in an Ethernet mode. -/
def isEth (s : State) (p : Nat) : Bool := decide (2 ≤ portMode s p)

/-- Forward a packet received on port p by its route. It keeps its place in the receive buffer until it has left by its new port
(R326). No request goes to a storage node (R362). -/
def forward (p : Nat) (k : Packet) (s : State) : State :=
  let kind := field (routeOf s k.dst) 29 2
  let drop := fun (f : State → State) => f (takeRx p k s)
  let go := fun (level : Nat) => putOn (choosePort s k.dst k.ch) { pkt := { k with level := level }, src := some (p, vcOf k) }
    (modPort p (fun x => { x with rx := x.rx.erase k }) s)
  if isRequest k && latePast s k.deadline then drop (countDrop p)
  else if !routeValid s k.dst then drop (cannotForward p k false false)
  else if kind = 0 then
    (if isEth s p then go 0 else if k.level % 4 = 3 then drop (cannotForward p k true true) else go (k.level + 1))
  else if isEth s p then drop (cannotForward p k true true)
  else if kind = 2 ∧ isRequest k then drop (cannotForward p k false false)
  else go 0

/-- PACKET_FORWARD (R350): a packet for another node goes on by its route entry. -/
def execPacketForward (p : Nat) (s : State) : Host.Outcome State Fault Refusal :=
  run s (fun s => match rxHead s p (fun k => opcKnown k.opc && decide (k.dst ≠ nodeId s)) with
    | some k => forward p k s
    | none => s)

end Sys2Proof.Machine
end

