-- ==== Sys2Proof/Machine/IntCtl.lean ====
section
/-!
DEFINITION. The interrupt controller (R624-R646): targets, selection, event records, MSI-X, hold-off, and the registers of a
source.
-/
namespace Sys2Proof.Machine
open Sys2Proof

/-! ## Targets (R624, R723) -/

/-- Target of a source: 0 manager queue, 1 + v queue of VAI v, 257 to 260 stewards, 261 the CSB, 262 none. -/
def targetOf (s : State) (n : Nat) : Nat :=
  if n < 32 then 262
  else if n < 39 then 0
  else if n < 48 then 262
  else if n = 48 ∨ n = 50 then 257
  else if n = 49 then 261
  else if n < 64 then 262
  else if n < 832 then 1 + (queueAt s (n - 64)).vai
  else if n < 1088 then n - 831
  else if n < 1344 then 257 + (n - 1088) % 4
  else if n < 1392 then 257 + (n - 1344) % 4
  else if n < 1400 then 258
  else if n < 1412 then 259
  else if n < 1416 then 260
  else if n < 1428 then 257 + (n - 1416) % 4
  else 262

/-- TARGET of R641. -/
def targetCode (t : Nat) : Nat := if t = 0 then 0 else if t < 257 then 1 else if t < 261 then t - 255 else if t = 261 then 6 else 7

/-- The manager may write the registers of a source: its target is a host queue (R641). -/
def hostSource (s : State) (n : Nat) : Bool := decide (n < 1536) && decide (targetOf s n < 257)

/-! ## Host queues -/

/-- Log₂ of the size of the queue of a target; 0: off. -/
def evSize (s : State) (t : Nat) : Nat :=
  let n := regGet s (if t = 0 then 0xE04208 else 0x4000208 + 0x10000 * (t - 1))
  if 4 ≤ n ∧ n ≤ 16 then n else 0

/-- Offset of the HEAD register of a target. -/
def evHeadReg (t : Nat) : Nat := if t = 0 then 0xE0420C else 0x400020C + 0x10000 * (t - 1)

def evHead (s : State) (t : Nat) : Nat := regGet s (evHeadReg t)

def evTail (s : State) (t : Nat) : Nat := if t = 0 then s.ic.mqTail else (vaiAt s (t - 1)).evTail

/-- Base address of a host queue. -/
def evBase (s : State) (t : Nat) : Nat :=
  let o := if t = 0 then 0xE04200 else 0x4000200 + 0x10000 * (t - 1)
  regGet s o / 64 * 64 + 2 ^ 32 * regGet s (o + 4)

/-- A host queue is full; one that is off counts as full (R635). -/
def evFull (s : State) (t : Nat) : Bool :=
  evSize s t == 0 || decide (2 ^ evSize s t ≤ (evTail s t + 2 ^ 32 - evHead s t) % 2 ^ 32)

/-- MSI-X message of vector v: sent, or pending behind the mask of its entry (R637). -/
def sendMsix (v : Nat) (s : State) : State :=
  let o := 0xE80000 + 0x10 * v
  if bit (regGet s (o + 12)) 0 then { s with ic := { s.ic with pba := sinsert v s.ic.pba } }
  else emit (.msix v (regGet s o + 2 ^ 32 * regGet s (o + 4)) (w32 (regGet s (o + 8)))) s

/-! ## Selection (R629, R630) -/

/-- The notice that a notice source would write. -/
def firstNotice (s : State) (t : Nat) : Option Notice := s.ic.notices.find? (fun x => decide (x.queue = t))

/-- A source may be selected for its target now: pending, unmasked, LEVEL not 0xFF, not held off, and a notice source with a
notice to write (R773). -/
def selectable (s : State) (t n : Nat) : Bool :=
  let x := srcAt s n
  decide (x.count ≠ 0) && !x.mask && x.level != 0xFF && !s.ic.held.contains x.group && targetOf s n == t &&
    (t ≥ 257 || noticeSource t != n || (firstNotice s t).isSome)

/-- The sources that have something pending. -/
def pendingSources (s : State) : List Nat := (s.ic.src.filter (fun x => decide (x.2.count ≠ 0))).map (fun x => x.1)

/-- The source selected for a target: lowest LEVEL, then lowest number. -/
def selectSource (s : State) (t : Nat) : Option Nat :=
  minBy (fun n => (srcAt s n).level * 2048 + n) ((pendingSources s).filter (selectable s t))

/-! ## Records (R633) -/

/-- A beat as a target sees it: in a confidential partition coarsened to the last round boundary (R755). -/
def beatSeen (s : State) (t b : Nat) : Nat :=
  if 1 ≤ t ∧ t < 257 ∧ confVai s (t - 1) then b / (s.fe.round + 1) * (s.fe.round + 1) else b

/-- DETAIL of a source that is no notice. -/
def sourceDetail (s : State) (n : Nat) : Nat :=
  if 64 ≤ n ∧ n < 832 then
    let q := queueAt s (n - 64)
    (n - 64) % 1024 + q.idx % 64 * 2 ^ 10 + q.cqTail % 2 ^ 32 * 2 ^ 32
  else 0

/-- The record of a source for position k of a host queue. -/
def evRecord (s : State) (t n : Nat) : List Byte :=
  let x := srcAt s n
  let phase := 1 - evTail s t / 2 ^ evSize s t % 2
  let beat := leBytes 4 (beatSeen s t (beat s))
  match if noticeSource t = n then firstNotice s t else none with
  | some m => leBytes 2 (n + b2n x.sw * 2 ^ 12 + 2 ^ 13 + phase * 2 ^ 14) ++ [0, BitVec.ofNat 8 m.code] ++ beat ++ leBytes 8 m.detail
  | none => leBytes 2 (n + b2n x.sw * 2 ^ 12 + phase * 2 ^ 14) ++ [BitVec.ofNat 8 x.count, BitVec.ofNat 8 x.level] ++ beat ++
      leBytes 8 (sourceDetail s n)

/-- The record leaves the source: its counter is copied and cleared; a notice takes one arrival (R627, R773). -/
def takeArrivals (t n : Nat) (s : State) : State :=
  if t < 257 ∧ noticeSource t = n then
    match firstNotice s t with
    | some m =>
      let s := { s with ic := { s.ic with notices := s.ic.notices.erase m } }
      modSrc n (fun x => { x with count := x.count - 1, sw := false }) s
    | none => s
  else modSrc n (fun x => { x with count := 0, sw := false }) s

/-- Hold-off of the group of a source begins (R632). -/
def holdOff (n : Nat) (s : State) : State :=
  let g := (srcAt s n).group
  if field (regGet s (0xE04000 + 4 * g)) 0 12 = 0 then s else { s with ic := { s.ic with held := sinsert g s.ic.held } }

/-- Write a record to a host queue: memory first, then MSI-X when the queue was empty (R636). -/
def writeRecord (t n : Nat) (s : State) : State :=
  let r := evRecord s t n
  let tail := evTail s t
  let a := evBase s t + 16 * (tail % 2 ^ evSize s t)
  let first := evHead s t == tail
  let s := holdOff n (takeArrivals t n s)
  let s := if t = 0 then hostWriteM a r { s with ic := { s.ic with mqTail := (tail + 1) % 2 ^ 32 } }
    else hostWriteV (t - 1) a r false false (modVai (t - 1) (fun x => { x with evTail := (tail + 1) % 2 ^ 32 }) s)
  let s := { s with ic := { s.ic with written := (s.ic.written + 1) % 2 ^ 32 } }
  if first then sendMsix t s else s

/-- The binary point of processor p (R644). -/
def binPoint (s : State) (p : Nat) : Nat := field (regGet s 0xE04100) (3 * p) 3

/-- The group priority of a source at processor p: LEVEL bits [7:b] (R631). -/
def groupPrio (s : State) (p n : Nat) : Nat := (srcAt s n).level / 2 ^ binPoint s p

/-- Processor p starts the handler of the record that goes first among those that wait, when it runs none or one whose group priority
is higher; the handlers it has pre-empted wait below (R631). -/
def startHandler (p : Nat) (s : State) : State :=
  let run := tget [] s.ic.handling p
  let waits := ((s.ic.stewardQ.filter (fun x => x.1 == p)).map (fun x => x.2)).filter (fun n => !run.contains n)
  match minBy (fun n => (srcAt s n).level * 2048 + n) waits with
  | none => s
  | some n =>
    if run.head?.all (fun m => decide (groupPrio s p n < groupPrio s p m)) then
      { s with ic := { s.ic with handling := tset [] s.ic.handling p (n :: run) } }
    else s

/-- A record for a processor joins the queue in firmware memory (R631, R633). -/
def writeProc (p n : Nat) (s : State) : State :=
  let s := holdOff n (takeArrivals (257 + p) n s)
  startHandler p { s with ic := { s.ic with stewardQ := s.ic.stewardQ ++ [(p, n)], written := (s.ic.written + 1) % 2 ^ 32 } }

/-- A processor has handled what was in its queue from a source: a handler that it pre-empted goes on, or the next record's starts. -/
def handled (p n : Nat) (s : State) : State :=
  let run := (tget [] s.ic.handling p).filter (fun m => decide (m ≠ n))
  startHandler p { s with ic := { s.ic with
    stewardQ := s.ic.stewardQ.filter (fun x => decide (x ≠ (p, n))), handling := tset [] s.ic.handling p run } }

/-- EVENT_RECORD_WRITE (R630, R633, R636, R773): the selected source of a target is written into its queue, when there is
room. -/
def execEventRecordWrite (target : Nat) (s : State) : Host.Outcome State Fault Refusal :=
  run s (fun s => match selectSource s target with
    | none => s
    | some n =>
      if target < 257 then (if evFull s target then s else writeRecord target n s)
      else writeProc (target - 257) n s)

/-- HOLDOFF_EXPIRY (R632): sources of the group may be selected again. -/
def execHoldoffExpiry (g : Nat) (s : State) : Host.Outcome State Fault Refusal :=
  run s (fun s => { s with ic := { s.ic with held := sremove g s.ic.held } })

/-! ## Registers of a source -/

/-- Registers of IC answer from READY on (R35). -/
def icOn (s : State) : Bool := s.blk.bootState == 6 || s.blk.bootState == 9

/-- PENDING_CLEAR (R628, R642): the counter is cleared. -/
def execPendingClear (n : Nat) (s : State) : Host.Outcome State Fault Refusal :=
  run s (guarded (icOn s && hostSource s n) (modSrc n (fun x => { x with count := 0, sw := false })))

/-- SWSET (R628, R642): one arrival by software; the next record is marked. -/
def execSwset (n : Nat) (s : State) : Host.Outcome State Fault Refusal :=
  run s (guarded (icOn s && hostSource s n) (fun s => modSrc n (fun x => { x with sw := true }) (arrive n s)))

/-- IC_SYNC (R639, R645): the answer, after every record whose selection began before it. -/
def execIcSync (req : Nat) (s : State) : Host.Outcome State Fault Refusal :=
  run s (guarded s.blk.ireqReady (fun s => emit (.regRead req (if icOn s then w32 s.ic.written else w32 allBits)) s))

/-- SOURCE_CONFIG_WRITE (R638, R641): mask, group and level. -/
def execSourceConfigWrite (n : Nat) (val : W32) (s : State) : Host.Outcome State Fault Refusal :=
  run s (guarded (icOn s && hostSource s n) (modSrc n (fun x =>
    { x with mask := bit val.toNat 31, group := field val.toNat 22 6, level := field val.toNat 8 8 })))

/-- The HEAD of a host queue may be written now: the manager queue's from READY on, a VAI's while BAR2 answers (R37). -/
def headOpen (s : State) (t : Nat) : Bool := if t = 0 then icOn s else inService s

/-- EVENT_QUEUE_HEAD_WRITE (R636): frees room; MSI-X again while records remain; a HEAD behind the previous one or beyond TAIL
is discarded with a CE. -/
def execEventQueueHeadWrite (target : Nat) (val : W32) (s : State) : Host.Outcome State Fault Refusal :=
  run s (guarded (decide (target < 257) && headOpen s target) (fun s =>
    if target ≠ 0 ∧ resetWindow s then hostCe s
    else
      let d := (evTail s target + 2 ^ 32 - evHead s target) % 2 ^ 32
      let k := (val.toNat + 2 ^ 32 - evHead s target) % 2 ^ 32
      if d < k then reportCe 0 0 0x05 0 s
      else
        let s := regSet (evHeadReg target) val.toNat s
        if val.toNat = evTail s target then s else sendMsix target s))

/-- MSIX_VECTOR_UNMASK (R637): a write that unmasks a vector sends the message pending for it. -/
def execMsixVectorUnmask (v : Nat) (val : W32) (s : State) : Host.Outcome State Fault Refusal :=
  run s (guarded (icOn s && decide (v < 257) && !bit val.toNat 0) (fun s =>
    let s := regSet (0xE80000 + 0x10 * v + 12) 0 s
    if s.ic.pba.contains v then sendMsix v { s with ic := { s.ic with pba := sremove v s.ic.pba } } else s))

end Sys2Proof.Machine
end

