-- ==== Sys2Proof/Machine/Mailbox.lean ====
section
/-!
DEFINITION. Mailboxes and heartbeats (R647-R655, R713): posting, taking, releasing.
-/
namespace Sys2Proof.Machine
open Sys2Proof

/-- The register of a mailbox can be reached: the manager's and the security mailbox from READY on, a VAI's while BAR2 answers
(R35, R37, R655). -/
def boxOpen (s : State) (b : Nat) : Bool := if b < 256 then inService s else icOn s

/-- The interrupt source of a posted mailbox (R624). -/
def boxSource (b : Nat) : Nat := if b < 256 then 1088 + b else b - 208

/-- MB_POST (R650): in IDLE the message is posted; otherwise the write is discarded and counted. -/
def execMbPost (box : Nat) (val : W32) (s : State) : Host.Outcome State Fault Refusal :=
  run s (guarded (boxOpen s box && decide (box < 258) && bit val.toNat 0) (fun s =>
    if box < 256 ∧ resetWindow s then hostCe s
    else if (boxAt s box).state = .idle then arrive (boxSource box) (modBox box (fun x => { x with state := .posted }) s)
    else modBox box (fun x => { x with discards := sat 8 (x.discards + 1) }) s))

/-- What a processor answers at once to a message it takes, before any command runs: UNKNOWN, LENGTH, a reserved bit
(R653, R656). -/
def malformed (b : Nat) (words : List W32) : Option Nat :=
  let h := (words.getD 0 0).toNat
  match shapeOf b (cmdCode h) with
  | none => some 0x0100
  | some c =>
    if field h 24 4 ≠ 0 then some 0x0011
    else if cmdLen h ≠ c.masks.length then some 0x0101
    else if (c.masks.zip ((words.drop 1).map (fun w => w.toNat))).any (fun p => p.2 &&& (allBits - p.1) != 0) then some 0x0011
    else none

/-- The firmware-update commands, which alone run out of service (R717). -/
def updateCode (c : Nat) : Bool := c == 0x0300 || c == 0x0301 || c == 0x0302 || c == 0x0303

/-- The processor of a mailbox takes messages now: it runs, no block reset is under way, and the contexts of a VAI are
restored (R651, R711). -/
def takesNow (s : State) (b : Nat) : Bool :=
  (procAt s (boxProc b)).pstate == 1 && (s.blk.bootState == 9 || (b == 257 && inService s) || (planeUp s && (256 ≤ b || !(vaiAt s b).restoring)))

/-- The answer that a processor gives at once whatever the arguments: out of service, to a VAI that is busy or unassigned (R435,
R597, R717). -/
def answeredNow (s : State) (b code : Nat) : Option Nat :=
  if s.blk.bootState = 9 ∧ b ≠ 257 ∧ !updateCode code then some 0x20
  else if b < 256 ∧ (vaiAt s b).state = 2 then some 0x31
  else if b < 256 ∧ (vaiAt s b).state = 0 then some 0x30
  else none

/-- MAILBOX_TAKE (R650, R653, R654): the processor copies the words; what it must answer at once it answers, and otherwise the
command runs as a step of its own. -/
def execMailboxTake (box : Nat) (s : State) : Host.Outcome State Fault Refusal :=
  run s (guarded ((boxAt s box).state == .posted && takesNow s box) (fun s =>
    let s := handled (boxProc box) (boxSource box) (modBox box (fun x => { x with state := .taken, taken := x.words }) s)
    let words := (boxAt s box).taken
    match answeredNow s box (cmdCode ((words.getD 0 0).toNat)) with
    | some c => replyBox box c [] s
    | none => match malformed box words with
      | some c => replyBox box c [] s
      | none => s))

/-- MB_ACK_RELEASE (R650): a write of 1 to VALID returns a DONE mailbox to IDLE. -/
def execMbAckRelease (box : Nat) (val : W32) (s : State) : Host.Outcome State Fault Refusal :=
  run s (guarded (boxOpen s box && decide (box < 258) && bit val.toNat 31) (fun s =>
    if box < 256 ∧ resetWindow s then hostCe s
    else if (boxAt s box).state = .done then modBox box (fun x => { x with state := .idle, valid := false }) s
    else s))

/-- HEARTBEAT (R652): every 64 beats a running processor raises its count. -/
def execHeartbeat (proc : Nat) (s : State) : Host.Outcome State Fault Refusal :=
  run s (guarded ((procAt s proc).pstate == 1) (oncePerBeat (32 + proc) (beat s % 64 == 0)
    (modProc proc (fun x => { x with heart := (x.heart + 1) % 2 ^ 28 }))))

/-- STEWARD_HANG (R713): a running steward whose count has not risen for 10 ms is a B-class event, and the block reset
reloads it. -/
def execStewardHang (sw : Nat) (s : State) : Host.Outcome State Fault Refusal :=
  run s (guarded ((procAt s sw).pstate == 1 && inService s) (fun s =>
    bEvent 0xA sw 0x26 0 { s with err := { s.err with hungSteward := some sw } }))

end Sys2Proof.Machine
end

