-- ==== Sys2Proof/Machine/Manage.lean ====
section
/-!
DEFINITION. The management port (R61, R658, R659), the JTAG TAP and the debug port (R10, R63, R64, R150, R743, R744).
-/
namespace Sys2Proof.Machine
open Sys2Proof

/-! ## MCTP and PLDM -/

/-- MCTP_CONTROL_MESSAGE (R658): the answer is the command code of DSP0236, the completion code and the data. The version list is not
stated: free bytes. An endpoint ID that MCTP does not allow is refused. -/
def execMctpControlMessage (msg : MctpControl) (s : State) : Host.Outcome State Fault Refusal :=
  run s (fun s => match msg with
    | .setEid eid =>
      if eid = 0 ∨ 255 ≤ eid then emit (.mctp [1, 2]) s
      else emit (.mctp ([1, 0, 0] ++ leBytes 1 eid ++ [0])) { s with cmb := { s.cmb with eid := eid } }
    | .getEid => emit (.mctp ([2, 0] ++ leBytes 1 s.cmb.eid)) s
    | .getVersion =>
      let (x, s) := fresh s
      emit (.mctp ([4, 0, 1] ++ leBytes 4 x)) s
    | .getTypes => emit (.mctp [5, 0, 1, 1]) s
    | .getUuid => emit (.mctp ([3, 0] ++ padTo Config.uuid 16)) s
    | .other => emit (.mctp [0, 5]) s)

/-- The block state that the CMB reports (R658): 0 not ready, 1 READY, 2 in block reset, 3 out of service. -/
def blockState (s : State) : Nat :=
  if s.blk.bootState = 9 then 3 else if s.blk.bootState ≠ 6 then 0 else if resetWindow s then 2 else 1

/-- The reading of a sensor; none where there is no such sensor. -/
def sensorValue (s : State) (x : PldmSensor) : Option Nat :=
  match x with
  | .power => some s.pm.power
  | .volts r => ((railChannels s r).head?).map (fun t => t.volts)
  | .amps r => if (railChannels s r).isEmpty then none else some (railAmps s r)
  | .temp n => if n < 12 then some (stackAt s n).temp else none
  | .rate => some (100 * effRate s)
  | .state => some (blockState s)
  | .beatLock => some s.pm.lock
  | .reserved => none

/-- PLDM_REQUEST (R658, R659): type 0 lists the types 0 and 2; type 2 reads a sensor; there is no other type. -/
def execPldmRequest (type : Nat) (sensor : PldmSensor) (s : State) : Host.Outcome State Fault Refusal :=
  run s (fun s => match type with
    | 0 => emit (.pldm 5 true) s
    | 2 => match sensorValue s sensor with
      | some v => emit (.pldm v true) s
      | none => emit (.pldm 0 false) s
    | _ => emit (.pldm 0 false) s)

/-! ## JTAG and debug -/

/-- IDCODE (R63): the stepping digit, part number 0x5102, the manufacturer of the strap. -/
def idcode (s : State) : Nat :=
  field (regGet s 0x0) 0 4 * 2 ^ 28 + 0x5102 * 2 ^ 12 + Config.maker % 2048 * 2 + 1

/-- TAP_INSTRUCTION (R63, R64): with the strap JTAG_OFF the TAP is disabled; in confidential mode it answers IDCODE and BYPASS only. The
debug instruction selects the debug port, and its scan data is the port's. -/
def execTapInstruction (ir : TapIr) (s : State) : Host.Outcome State Fault Refusal :=
  run s (guarded (!bit (regGet s 0x8) 16) (fun s => match ir with
    | .idcode => emit (.tap (leBytes 4 (idcode s))) s
    | .bypass => emit (.tap [0]) s
    | .debug => if confMode s then s else emit (.tap []) { s with csb := { s.csb with debugUsed := true } }))

/-- The debug port accepts accesses: not in confidential mode, nor with debug fused off. -/
def debugOpen (s : State) : Bool := !confMode s && !s.fw.fuses.debugOff && !bit (regGet s 0x8) 16

/-- The bytes of a range of the local-store debug view (R8, R94): one window of 2 MiB per physical array.
Beyond the 1.25 MiB store of a window it reads zeros: DESIGN CHOICE (log entry 135). -/
def debugView (s : State) (addr len : Nat) : List Byte :=
  (List.range len).map (fun i =>
    let o := addr + i - 0x30000000000
    let x := arrAt s (o / 0x200000)
    if o % 0x200000 < 0x140000 then tget 0 x.ls (o % 0x200000) else 0)

/-- DEBUG_PORT_ACCESS (R10, R64, R150, R744): the debug view is read, or an array is asked to save at once. An address outside the view
is answered with nothing. -/
def execDebugPortAccess (req : DebugReq) (s : State) : Host.Outcome State Fault Refusal :=
  run s (guarded (debugOpen s) (fun s =>
    let s := { s with csb := { s.csb with debugUsed := true } }
    match req with
    | .read a n =>
      if 0x30000000000 ≤ a ∧ a + n ≤ 0x30000000000 + 912 * 0x200000 then emit (.debug (debugView s a n)) s else emit (.debug []) s
    | .preempt p => if p < 912 then requestNow p s else s))

end Sys2Proof.Machine
end

