-- ==== Sys2Proof/Machine/Migrate.lean ====
section
/-!
DEFINITION. Migration (R612-R618): the logs, the harvest, the state image of a paused VAI and its loading.
-/
namespace Sys2Proof.Machine
open Sys2Proof

/-! ## Logs -/

/-- MIG_START (R612). -/
def execMigStart (s : State) : Host.Outcome State Fault Refusal :=
  run s (onBox 256 0x0122 (fun s =>
    let v := boxWord s 256 1
    if (vaiAt s v).state = 0 ∨ confVai s v then replySt 256 .denied s
    else if (vaiAt s v).log then replySt 256 .busy s
    else replySt 256 .done (modVai v (fun x => { x with log := true, overflow := false, hostLog := [], devLog := [] }) s)))

/-- MIG_STOP (R612). -/
def execMigStop (s : State) : Host.Outcome State Fault Refusal :=
  run s (onBox 256 0x0123 (fun s =>
    let v := boxWord s 256 1
    if (vaiAt s v).state = 0 then replySt 256 .denied s
    else replySt 256 .done (modVai v (fun x => { x with log := false }) s)))

/-- Chunks with a bit set in a device log, rising. -/
def dirtyChunks (l : List Nat) : List Nat := l.foldl (fun a u => sinsert (u / 16384) a) []

/-- The bitmap of a chunk. -/
def chunkBits (l : List Nat) (k : Nat) : List Byte :=
  (List.range 2048).map (fun j => BitVec.ofNat 8 ((List.range 8).foldl (fun a i => a + (if l.contains (16384 * k + 8 * j + i) then 2 ^ i else 0)) 0))

/-- MIG_HARVEST (R614, R615): as many whole records as the buffer takes; what is copied is cleared. -/
def execMigHarvest (s : State) : Host.Outcome State Fault Refusal :=
  run s (onBox 256 0x0124 (fun s =>
    let v := field (boxWord s 256 1) 0 8
    let host := bit (boxWord s 256 1) 8
    let a := boxPair s 256 2
    let size := boxWord s 256 4
    let x := vaiAt s v
    if a % 64 ≠ 0 ∨ size % 64 ≠ 0 then replySt 256 .faultFormat s
    else if x.state = 0 then replySt 256 .denied s
    else
      let spill := b2n x.overflow
      if host then
        let out := x.hostLog.take (size / 8)
        let rest := x.hostLog.drop (size / 8)
        let s := modVai v (fun x => { x with hostLog := rest, overflow := false }) s
        let s := hostWriteM a ((out.map (fun p => leBytes 8 (p * 4096))).flatten) s
        replyBox 256 0 [8 * out.length, b2n (!rest.isEmpty) + 2 * spill] s
      else
        let all := dirtyChunks x.devLog
        let out := all.take (size / 2056)
        let rest := x.devLog.filter (fun u => !out.contains (u / 16384))
        let s := modVai v (fun x => { x with devLog := rest, overflow := false }) s
        let s := hostWriteM a ((out.map (fun k => leBytes 8 k ++ chunkBits x.devLog k)).flatten) s
        replyBox 256 0 [2056 * out.length, b2n (decide (out.length < all.length)) + 2 * spill] s))

/-! ## The state image (R617) -/

/-- What the state image of a VAI holds. Its encoding is not stated. -/
structure MigImage where
  version  : Nat
  chunks   : List Nat
  units    : List Nat
  tallies  : List Nat
  channels : List Nat
  handoffs : List Nat
  classes  : Nat
  contexts : Nat
  queues   : Nat
  fences   : Nat
  ctx      : Tbl Ctx
  domains  : List Domain
  q        : Tbl Queue
  graphs   : Tbl Graph
  launches : List Launch
  tasks    : List Task
  fence    : Tbl Fence
  alloc    : Tbl Alloc
  words    : Tbl W32
  bars     : Tbl Bar
  hqs      : Tbl Hq
  groups   : List Group
  saves    : List SaveRec
  cells    : Tbl Byte
  marks    : List Nat
  cmdCtr   : Nat
  launchCtr : Nat
deriving DecidableEq, Repr

/-- The bytes of a state image (R617 gives no encoding). -/
opaque Config.migEncode : MigImage → List Byte

/-- The state image that bytes hold, if they hold one. -/
opaque Config.migDecode : List Byte → Option MigImage

/-- Scratch unit of an address. -/
def unitOf (a : Nat) : Nat := (a - scratchBase) / 0x4000000

/-- The image of a VAI. -/
def imageOfVai (s : State) (v : Nat) : MigImage :=
  let x := vaiAt s v
  let us := keysOf s.fe.scrOwn (fun o => o == .vai v)
  let ctx := s.fe.ctx.filter (fun c => c.2.vai == v && c.2.state != 0)
  let inCtx := fun (c : Nat) => ctx.any (fun e => e.1 == c)
  { version := regGet s 0, chunks := keysOf s.fe.ftOwn (fun o => o == .vai v), units := us, tallies := tallyGroups s v,
    channels := keysOf s.tw.bar (fun b => b.granted && b.vai == v), handoffs := keysOf s.fe.hq (fun h => h.granted && h.vai == v),
    classes := x.classesNext.getD x.classes, contexts := x.contexts, queues := x.queues, fences := x.fences, ctx := ctx,
    domains := s.lce.domains.filter (fun d => inCtx d.ctx), q := s.fe.q.filter (fun q => q.2.state != .unused && q.2.vai == v),
    graphs := s.fe.graphs.filter (fun g => g.2.live && inCtx g.2.ctx),
    launches := s.fe.launches.filter (fun l => (queueAt s l.queue).vai == v), tasks := tasksOf s v,
    fence := s.fe.fences.filter (fun f => f.2.live && f.2.vai == v), alloc := s.fe.allocs.filter (fun a => a.2.live && a.2.vai == v),
    words := s.tw.val.filter (fun e => tget 0 s.tw.grant (e.1 / 64) == 1 + v), bars := s.tw.bar.filter (fun b => b.2.granted && b.2.vai == v),
    hqs := s.fe.hq.filter (fun h => h.2.granted && h.2.vai == v), groups := (s.sg.group.filter (fun g => g.2.live && g.2.vai == v)).map (fun g => g.2),
    saves := s.arr.saves.filter (fun r => inCtx r.ctx),
    cells := s.mem.cells.filter (fun c => isScratch c.1 && us.contains (unitOf c.1)),
    marks := s.mem.poison.filter (fun g => isScratch (64 * g) && us.contains (unitOf (64 * g))),
    cmdCtr := s.fe.cmdCtr, launchCtr := s.fe.launchCtr }

/-- MIG_STATE_SAVE (R617): nothing is written into a buffer that is too small. -/
def execMigStateSave (s : State) : Host.Outcome State Fault Refusal :=
  run s (onBox 256 0x0125 (fun s =>
    let v := boxWord s 256 1
    let a := boxPair s 256 2
    let size := boxWord s 256 4
    let data := Config.migEncode (imageOfVai s v)
    if a % 64 ≠ 0 ∨ size % 64 ≠ 0 then replySt 256 .faultFormat s
    else if (vaiAt s v).state = 0 then replySt 256 .denied s
    else if (vaiAt s v).state ≠ 3 then replySt 256 .busy s
    else if size < data.length then replyBox 256 (Status.code .busy) [data.length] s
    else replyBox 256 0 [data.length] (hostWriteM a data s)))

/-! ## Loading an image (R618) -/

/-- Every item of the image is granted to the target, its counts suffice, its version is this block's. -/
def imageFits (s : State) (v : Nat) (m : MigImage) : Bool :=
  let x := vaiAt s v
  let has := fun (kind : Nat) (l : List Nat) => l.all (fun k => itemOwner s kind k == some (1 + v))
  m.version / 65536 == regGet s 0 / 65536 && has 1 m.chunks && has 2 m.units && has 5 m.tallies && has 6 m.channels && has 7 m.handoffs &&
    decide (m.contexts ≤ x.contexts) && decide (m.queues ≤ x.queues) && decide (m.fences ≤ x.fences)

/-- The numbers that the guest knows its objects by are free on this block, and so are its domains (DESIGN CHOICE, log entry 14). -/
def numbersFree (s : State) (m : MigImage) : Bool :=
  m.ctx.all (fun c => (ctxAt s c.1).state == 0) && m.q.all (fun q => (queueAt s q.1).state == .unused) &&
    m.graphs.all (fun g => !(graphAt s g.1).live) && m.fence.all (fun f => !(fenceAt s f.1).live) &&
    m.alloc.all (fun a => !(allocAt s a.1).live) && m.domains.all (fun d => !s.lce.domains.any (fun e => e.id == d.id)) &&
    decide (m.groups.length + (keysOf s.sg.group (fun g => g.live)).length ≤ 64)

/-- Each SEQ of the image with the SEQ it has here: its own when no live task holds it, else the next free one. -/
def seqMap (l : List Nat) (s : State) : List (Nat × Nat) :=
  match l with
  | [] => []
  | q :: r =>
    let taken := s.fe.tasks.any (fun t => decide (t.seq = q))
    let n := if taken then nextSeq s else q
    let t : Task := { seq := n, ty := 0, queue := 0, ctx := 0, gen := 0, cmd := 0, record := [] }
    (q, n) :: seqMap r { s with fe := { s.fe with tasks := s.fe.tasks ++ [t], seqCtr := if taken then n + 1 else s.fe.seqCtr } }

/-- A SEQ under a map. -/
def mapSeq (m : List (Nat × Nat)) (q : Nat) : Nat := ((m.find? (fun e => decide (e.1 = q))).map (fun e => e.2)).getD q

/-- A command with the identifiers it has here. -/
def loadCmd (ids ls : Nat) (sm : List (Nat × Nat)) (e : CmdEnt) : CmdEnt :=
  { e with id := e.id + ids, launch := e.launch + ls, seq := e.seq.map (mapSeq sm) }

/-- A completion entry with the identifier it has here. -/
def loadCqe (ids : Nat) (c : Cqe) : Cqe := { c with cmd := c.cmd + ids }

/-- The tables of `b` beside those of `a`. -/
def overlay {α : Type} [DecidableEq α] (d : α) (a b : Tbl α) : Tbl α := b.foldl (fun t e => tset d t e.1 e.2) a

/-- The objects of an image become those of VAI v. -/
def loadObjects (v : Nat) (m : MigImage) (s : State) : State :=
  let ids := s.fe.cmdCtr
  let ls := s.fe.launchCtr
  let p := (vaiAt s v).part
  let sm := seqMap (m.tasks.map (fun t => t.seq)) s
  let up := fun (g : Nat) => (g + 1) % 256
  let cmd := loadCmd ids ls sm
  let queue := fun (x : Queue) => { x with
    vai := v, gen := up x.gen, cmds := x.cmds.map cmd, held := x.held.map cmd, due := x.due.map (loadCqe ids),
    ended := x.ended.map (loadCqe ids) }
  let launch := fun (x : Launch) => { x with
    id := x.id + ls, cmd := x.cmd + ids, nodes := x.nodes.map (fun n => match n with | .issued q => .issued (mapSeq sm q) | y => y) }
  let task := fun (t : Task) => { t with
    seq := mapSeq sm t.seq, cmd := t.cmd + ids, gen := up t.gen, node := t.node.map (fun n => (n.1 + ls, n.2)) }
  let save := fun (r : SaveRec) => { r with seq := mapSeq sm r.seq, gen := up r.gen, part := p }
  { s with fe := { s.fe with
    ctx := overlay {} s.fe.ctx (m.ctx.map (fun c => (c.1, { c.2 with vai := v, part := p, gen := up c.2.gen }))),
    q := overlay {} s.fe.q (m.q.map (fun q => (q.1, queue q.2))),
    graphs := overlay {} s.fe.graphs m.graphs,
    fences := overlay {} s.fe.fences (m.fence.map (fun f => (f.1, { f.2 with vai := v }))),
    allocs := overlay {} s.fe.allocs (m.alloc.map (fun a => (a.1, { a.2 with vai := v }))),
    hq := overlay {} s.fe.hq (m.hqs.map (fun h => (h.1, { h.2 with vai := v }))),
    launches := s.fe.launches ++ m.launches.map launch, tasks := s.fe.tasks ++ m.tasks.map task,
    cmdCtr := ids + m.cmdCtr, launchCtr := ls + m.launchCtr },
           lce := { s.lce with domains := s.lce.domains ++ m.domains },
           arr := { s.arr with saves := s.arr.saves ++ m.saves.map save },
           tw := { s.tw with val := overlay 0 s.tw.val m.words,
                             bar := overlay {} s.tw.bar (m.bars.map (fun b => (b.1, { b.2 with vai := v, waiters := b.2.waiters.map (mapSeq sm) }))) },
           mem := { s.mem with cells := overlay 0 s.mem.cells m.cells, poison := m.marks.foldl (fun l g => sinsert g l) s.mem.poison } }

/-- The sequence groups of an image take free numbers. -/
def loadGroups (v : Nat) (l : List Group) (s : State) : State :=
  match l with
  | [] => s
  | g :: r => match firstFrom (fun i => !(groupAt s i).live) 0 64 with
    | some i => loadGroups v r (modGroup i (fun _ => { g with vai := v }) s)
    | none => s

/-- MIG_STATE_LOAD (R618): the VAI is paused when the image is in place. -/
def execMigStateLoad (host : HostData) (s : State) : Host.Outcome State Fault Refusal :=
  run s (onBox 256 0x0126 (fun s =>
    let v := boxWord s 256 1
    let a := boxPair s 256 2
    let size := boxWord s 256 4
    let x := vaiAt s v
    match (if host.poison then none else Config.migDecode host.bytes) with
    | none => replySt 256 .faultFormat s
    | some m =>
      if a % 64 ≠ 0 ∨ size % 64 ≠ 0 then replySt 256 .faultFormat s
      else if x.state ≠ 1 ∨ ¬ (ctxsOf s v).isEmpty ∨ ¬ imageFits s v m ∨ ¬ numbersFree s m then replySt 256 .denied s
      else
        let s := each m.units (fun u s => zeroMem (scratchBase + u * 0x4000000) 0x4000000 s) s
        let s := each m.tallies (fun g s => zeroTally g s) s
        let s := loadGroups v m.groups (loadObjects v m s)
        let s := each m.q (fun q s => modSrc (64 + q.1) (fun y => { y with mask := false }) s) s
        let s := each s.fe.tasks rehome (if m.domains.isEmpty then s else emptyHrc x.part s)
        replySt 256 .done (modVai v (fun y => { y with state := 3 }) s)))

end Sys2Proof.Machine
end

