-- ==== Sys2Proof/Machine/Reset.lean ====
section
/-!
DEFINITION. Resetting a guilty queue (R706-R708), block reset and restore (R709-R715), escalation and out of service (R716-R718).
-/
namespace Sys2Proof.Machine
open Sys2Proof

/-! ## Guilty queues (R704-R708) -/

/-- BOUNDARY of FE_CTX_CFG is TAG (R584, R714). -/
def ctxTag (s : State) : Bool := bit (regGet s 0x100014) 31

/-- Steps 1 to 3 of R706, and what R707 adds. -/
def beginQueueReset (q : Nat) (s : State) : State :=
  let c := (queueAt s q).ctx
  let tag := ctxTag s
  let s := modQueue q (fun x => { x with state := .resetting, gen := (x.gen + 1) % 256 }) (freeSlot q s)
  refillAll (reissueAll (breakBars c (endQueueWork tag true q q .cancelled s)))

/-- QUEUE_RESET (R706, R707): a guilty queue is reset. -/
def execQueueReset (q : Nat) (s : State) : Host.Outcome State Fault Refusal :=
  run s (guarded (computeOn s) (fun s =>
    let x := queueAt s q
    if x.guilty.isSome ∧ x.state ≠ .resetting ∧ x.state ≠ .fenced ∧ x.state ≠ .unused then beginQueueReset q s else s))

/-- Requests that a queue's reset waits for are abandoned after DRAIN_US (R582, R583). -/
def expireReset (q : Nat) (s : State) : State :=
  let reqs := s.fab.reqs.map (fun r => if r.use = .dropped false q then { r with use := .dropped true 0x3FF } else r)
  let oreq := s.ports.oreq.map (fun r => if r.use = .dropped false q then { r with use := .dropped true 0x3FF } else r)
  { s with fab := { s.fab with reqs := reqs }, ports := { s.ports with oreq := oreq } }

/-- Entries that are due are written while the ring has room. -/
def writeDue (q : Nat) (s : State) : State := each (queueAt s q).due (fun _ s => if (queueAt s q).cqFull then s else writeEntry q s) s

/-- Entries kept during a reset become due, and are written. -/
def writeEnded (q : Nat) (s : State) : State :=
  let s := modQueue q (fun x => { x with due := x.due ++ x.ended, ended := [] }) s
  if (queueAt s q).cqFull then s else writeDue q s

/-- Notice 0x04 (R634). -/
def resetNotice (q st : Nat) (s : State) : State :=
  notice (1 + (queueAt s q).vai) 0x04 (q % 1024 + st % 256 * 2 ^ 16 + (queueAt s q).gen * 2 ^ 24) s

/-- A queue after its reset: stopped at its first command not accepted; one that a transaction or a pause holds stays held (R442). -/
def stoppedQueue (s : State) (x : Queue) : Queue :=
  let v := vaiAt s x.vai
  if v.state = 2 ∨ v.state = 3 then { x with state := .busy, prior := .stopped } else { x with state := .stopped }

/-- QUEUE_RESET_SETTLED (R706 steps 5 and 6): the requests have finished, or DRAIN_US has passed. Entries are written, handles return,
the queue stops. -/
def execQueueResetSettled (q : Nat) (s : State) : Host.Outcome State Fault Refusal :=
  run s (guarded (computeOn s && (queueAt s q).state == .resetting) (fun s => match (queueAt s q).guilty with
    | none => s
    | some g =>
      let s := homeHandles true q (writeEnded q (expireReset q s))
      let s := modQueue q (fun x =>
        { stoppedQueue s x with guilty := none, lastStatus := g.status.code % 256, faultPos := g.pos % 2 ^ 32 }) s
      resetNotice q g.status.code s))

/-! ## Block reset: what it ends -/

/-- Every outstanding engine task receives CANCEL; no DONE is awaited (R55, R709). -/
def cancelAll (s : State) : State :=
  let l := s.blk.eapTags.filter (fun t => decide (t.reset = 0))
  let s := each l (fun t s => emit (.eapCancel t.eap (issueTag t.queue t.ctx t.gen t.seq)) s) s
  { s with blk := { s.blk with eapWait := [], eapTags := s.blk.eapTags.map (fun t =>
      if t.reset = 0 then { t with cancelled := true, reset := 1 } else t) } }

/-- A pending SIGNAL sets its fence's error word to BLOCK_RESET (R471, R710); the mirror follows at restore (R711). -/
def loseSignal (e : CmdEnt) (s : State) : State :=
  let f := handleIdx e.fence
  let x := fenceAt s f
  let s := if x.err ≠ 0 ∨ reached x.value e.value then s
    else
      let s := modFence f (fun x => { x with err := Status.code .blockReset }) s
      if x.event && !x.orphan then notice (1 + x.vai) 0x02 (handle x.gen f + 2 ^ 32 * (x.value.toNat % 2 ^ 32)) s else s
  fenceDrop f s

/-- All accepted work of a queue ends with BLOCK_RESET; its entries are kept until the context is restored (R708, R710). -/
def loseQueue (q : Nat) (s : State) : State :=
  let sig := fun (e : CmdEnt) => e.code == 5 && e.own.isNone
  let s := each ((queueAt s q).cmds.filter sig) loseSignal s
  let s := modQueue q (fun x => { x with cmds := x.cmds.map (fun e => if sig e then { e with own := some .blockReset } else e) }) s
  let s := endQueueWork false false 0x3FF q .blockReset s
  let spill := fun (c : Cqe) => if c.status.good then c else { c with status := .blockReset }
  modQueue q (fun x => { x with guilty := none, ended := x.ended.map spill }) s

/-- Handles that return home: a HANDLE_RETURN entry for every handoff queue that receives some (R484, R700). -/
def homeAll (s : State) : State :=
  let out := fun (h : Nat) => ((s.fe.q.filter (fun e => e.2.state != .fenced)).map (fun e => (e.2.homing.filter (fun x => x.2 / 2 ^ 24 == h)).length)).foldl (fun a b => a + b) 0
  let l := (keysOf s.fe.hq (fun h => h.bound)).map (fun h => (h, heldHandles s h false + out h, heldHandles s h true))
  each (l.filter (fun e => decide (0 < e.2.1 + e.2.2))) (fun e s => ledEvent 0x12 e.1 (leBytes 2 e.2.1 ++ leBytes 2 e.2.2) s) s

/-- The queues that a reset stops: those that are created and not fenced. -/
def liveQueues (s : State) : List Nat := keysOf s.fe.q (fun x => x.state != .unused && x.state != .fenced)

/-- The front end loses its work: commands, tasks, launches, slots, translations. -/
def resetFront (s : State) : State :=
  let qs := liveQueues s
  let s := homeAll (cancelAll s)
  let slots := (s.fe.slot.filter (fun p => p.2.valid)).length
  let s := ledEvent 0x13 0 (leBytes 1 slots) s
  let s := each qs (fun q s => modQueue q (fun x => { x with state := .resetting }) s) s
  let s := each qs loseQueue s
  let s := each qs (homeHandles false) s
  { s with fe := { s.fe with tasks := [], launches := [], slot := [], tlb := [] } }

/-- Outstanding requests lose their owners (R714, R715): remote ones are abandoned, reads of the host finish under DRAIN. -/
def loseRequests (s : State) : State :=
  let s := { s with fab := { s.fab with heldTx := [], fetches := [], reqs := s.fab.reqs.map (fun r => { r with use := .dropped false 0x3FF }) } }
  let tag := bit (regGet s 0x1200000) 31
  dropReads false (if tag then 0x3FF else 0x3FE) (fun r => match r.use with | .dropped late _ => !late | _ => true) s

/-- Arrays, engines, movers, caches, waits and barriers are reset (R174, R233, R279, R310, R424, R545, R687, R709). -/
def resetUnits (s : State) : State :=
  let s := resetAnswers (freeRecs (fun _ => true) s)
  let s := { s with
    arr := { s.arr with st := s.arr.st.foldl (fun t e => tset {} t e.1 { saveGen := e.2.saveGen, started := e.2.started }) [] },
    lce := { s.lce with
      unit := s.lce.unit.foldl (fun t e => tset {} t e.1 { e.2 with queue := [], active := [], cached := [] }) [],
      hrc := [], subs := [], subIn := [], fences := [], updates := [],
      updIn := [] },
    sg := { s.sg with gates := [], kv := [], tables := [] },
    mem := { s.mem with cache := [], tg := s.mem.tg.foldl (fun t e =>
      tset {} t e.1 (if e.2.state = 1 then { e.2 with state := 3 } else e.2)) [] },
    rg := { s.rg with queue := [], held := [] },
    tw := { s.tw with waits := [], bar := s.tw.bar.foldl (fun t e =>
      tset {} t e.1 (if e.2.state = 0 then e.2 else { e.2 with state := 1, arrived := 0, waiters := [], gen := (e.2.gen + 1) % 256 })) [] },
    pm := { s.pm with block := 0, sector := [], waking := [] },
    csb := { s.csb with scrub := s.csb.scrub.foldl (fun t e => tset {} t e.1 (if e.2.state = 1 then { e.2 with step := 2 } else e.2)) [] } }
  regSet 0x402000 (regReset 0x402000) s

/-- Every present stack enters self-refresh (R42, R709). -/
def stacksDown (s : State) : State :=
  each ((List.range 12).filter (fun n => (stackAt s n).state == 2 || (stackAt s n).state == 3)) (fun n s =>
    if (stackAt s n).state = 3 then s else emit (.selfRefresh n true) (modStack n (fun x => { x with state := 3 }) s)) s

/-- The stacks leave self-refresh. -/
def stacksUp (s : State) : State :=
  each ((List.range 12).filter (fun n => (stackAt s n).state == 3)) (fun n s =>
    emit (.selfRefresh n false) (modStack n (fun x => { x with state := 2 }) s)) s

/-- GEN rises on every queue, every context and every port (R373, R709). -/
def raiseGens (s : State) : State :=
  { s with
    fe := { s.fe with
      q := s.fe.q.foldl (fun t e => tset {} t e.1 (if e.2.state = .unused then e.2 else { e.2 with gen := (e.2.gen + 1) % 256 })) [],
      ctx := s.fe.ctx.foldl (fun t e => tset {} t e.1 (if e.2.state = 0 then e.2 else { e.2 with gen := (e.2.gen + 1) % 256 })) [] },
    fab := { s.fab with port := (List.range 8).foldl (fun t p => tmod {} t p (fun x => { x with gen := (x.gen + 1) % 256 })) s.fab.port } }

/-- A transaction that has not reached step 4 is abandoned (R611). -/
def loseReconf (s : State) : State :=
  match s.fe.reconf with
  | some r =>
    if r.step = 3 then
      let vs := keysOf s.fe.vai (fun x => x.state == 2 && bit s.fe.touched x.part)
      let s := each (vs.filter (fun v => !s.fe.pausing.contains v)) (fun v s => modVai v (fun x => { x with state := 1 }) s) s
      replyFor 256 0x0105 .blockReset { s with fe := { s.fe with reconf := none, reconfResult := Status.code .blockReset } }
    else s
  | none => s

/-- A handover is abandoned: its steward runs the image in the flash (R712). -/
def loseHandover (s : State) : State :=
  match s.fw.hand with
  | none => s
  | some (k, n) =>
    let s := { s with fw := { s.fw with hand := none, upd := 2, newOn := if bit s.fw.newOn k then s.fw.newOn - 2 ^ k else s.fw.newOn } }
    let s := if n = 2 then notice 0 0x07 k (modProc k (fun x => { x with pstate := 1 }) s) else s
    replyFor 256 0x0301 .blockReset s

/-- A hung steward is reloaded from the image in the flash (R713). -/
def reloadHung (s : State) : State :=
  match s.err.hungSteward with
  | none => s
  | some k =>
    let s := { s with fw := { s.fw with newOn := if bit s.fw.newOn k then s.fw.newOn - 2 ^ k else s.fw.newOn },
                      err := { s.err with hungSteward := none } }
    modProc k (fun x => { x with pstate := 1 }) s

/-- The crash dump is captured; then everything that runs ends, and the stacks go to self-refresh. -/
def stopPlane (s : State) : State :=
  let s := captureDump s
  stacksDown (resetUnits (loseRequests (resetFront (loseReconf s))))

/-! ## The reset -/

/-- LIMIT and WINDOW_S (R729). -/
def resetLimit (s : State) : Nat := max 1 (field (regGet s 0x1200000) 24 4)
def resetWindowS (s : State) : Nat := max 1 (min 600 (field (regGet s 0x1200000) 14 10))

/-- The resets that began within the last WINDOW_S seconds; a beat lasts 1,024 ns. -/
def recentResets (s : State) : List Nat :=
  s.err.recentAt.filter (fun b => decide ((beat s + 2 ^ 64 - b) % 2 ^ 64 * 1024 < resetWindowS s * 10 ^ 9))

/-- A block reset from its first step to the self-test of the compute plane (R709); `counts`: under R716. -/
def beginReset (counts : Bool) (s : State) : State :=
  let s := raiseGens (stopPlane s)
  let s := reloadHung (loseHandover s)
  let s := each (keysOf s.fe.vai (fun x => x.state != 0)) (fun v s => modVai v (fun x => { x with restoring := true }) s) s
  { s with err := { s.err with
      state := 1, bPending := none, resets := sat 16 (s.err.resets + 1), lastBr := beat s, reinstating := !counts, drained := false,
      recentAt := if counts then recentResets s ++ [beat s] else s.err.recentAt, toRestore := [] } }

/-- Entry to out of service (R717): commands end, mailbox commands that are taken are answered BLOCK_RESET, source 35 fires. -/
def goOut (s : State) : State :=
  let s := stopPlane s
  let boxes := keysOf s.mbx.box (fun b => b.state == .taken && !updateCode (cmdCode (b.taken.getD 0 0).toNat))
  let s := each s.fe.pausing (fun v s => modVai v (fun x => { x with state := 1 }) s) s
  let s := { s with fe := { s.fe with pausing := [] } }
  let s := each boxes (fun b s => replySt b .blockReset s) s
  arrive 35 { s with blk := { s.blk with bootState := 9 }, err := { s.err with state := 3, bPending := none, toRestore := [] } }

/-- BLOCK_RESET (R709-R716): a B-class event starts a reset, or with LIMIT resets in the window takes the block out of service. -/
def execBlockReset (s : State) : Host.Outcome State Fault Refusal :=
  run s (guarded (s.blk.bootState == 6 && s.err.bPending.isSome) (fun s =>
    if resetLimit s ≤ (recentResets s).length then goOut s else beginReset true s))

/-- A read that a block reset lets finish is outstanding. -/
def resetReads (s : State) : Bool := s.ports.oreq.any (fun r => r.sent && r.use == .dropped false 0x3FE)

/-- BLOCK_RESET_DRAIN_EXPIRY (R714, R715): what is outstanding after BR_DRAIN_US is abandoned. -/
def execBlockResetDrainExpiry (s : State) : Host.Outcome State Fault Refusal :=
  run s (guarded (s.err.state == 1) (fun s =>
    let oreq := s.ports.oreq.map (fun r => if r.use = .dropped false 0x3FE then { r with use := .dropped false 0x3FF } else r)
    { s with err := { s.err with drained := true }, ports := { s.ports with oreq := oreq } }))

/-! ## Restore (R711) -/

/-- All contexts are restored: the block is in normal operation, source 36 fires. -/
def endRestore (s : State) : State :=
  if s.err.toRestore.isEmpty then
    arrive 36 { s with err := { s.err with state := 0, reinstating := false, offer := true } }
  else s

/-- VAIs none of whose contexts awaits restore are back in service. -/
def vaisBack (s : State) : State :=
  each (keysOf s.fe.vai (fun x => x.restoring)) (fun v s =>
    if s.err.toRestore.any (fun c => (ctxAt s c).vai == v) then s else modVai v (fun x => { x with restoring := false }) s) s

/-- RESET_SEQUENCE_END (R709, R711): the stacks leave self-refresh, the ledger records the gap, restore begins. -/
def execResetSequenceEnd (s : State) : Host.Outcome State Fault Refusal :=
  run s (guarded (s.blk.bootState == 6 && s.err.state == 1 && s.err.bPending.isNone && !resetReads s) (fun s =>
    let s := stacksUp s
    let s := ledEvent 0x11 0 (leBytes 8 (beat s + 1 + 2 ^ 64 - s.rg.gapBeats) ++ leBytes 8 (beat s)) s
    let s := { s with rg := { s.rg with gapBeats := 0 },
                      err := { s.err with state := 2, toRestore := keysOf s.fe.ctx (fun c => c.state == 1) } }
    endRestore (vaisBack s)))

/-- The entries of a queue are written, and it stops. -/
def restoreQueue (q : Nat) (s : State) : State :=
  let s := writeEnded q s
  modQueue q (stoppedQueue s) s

/-- The mirror of a fence is written again (R711). -/
def restoreFence (f : Nat) (s : State) : State :=
  let x := fenceAt s f
  if x.mirror = 0 ∨ x.orphan = true then s
  else writeMirror x.ctx x.mirror (leBytes 8 x.value.toNat ++ leBytes 4 x.err ++ leBytes 4 x.ignored) s

/-- A context is restored: entries, mirrors, notices, and its groups break (R424, R711). -/
def restoreCtx (c : Nat) (s : State) : State :=
  let qs := keysOf s.fe.q (fun x => x.ctx == c && x.state == .resetting)
  let s := each qs restoreQueue s
  let s := each (keysOf s.fe.fences (fun f => f.live && f.ctx == c)) restoreFence s
  let s := each qs (fun q s => resetNotice q (Status.code .blockReset) s) s
  each (keysOf s.sg.group (fun g => g.live && g.ctx == c)) breakGroup s

/-- CONTEXT_RESTORE (R711): a steward finishes the lowest context of its VAIs that awaits restore. -/
def execContextRestore (sw : Nat) (s : State) : Host.Outcome State Fault Refusal :=
  run s (guarded (planeUp s && s.err.state == 2) (fun s =>
    match s.err.toRestore.find? (fun c => (ctxAt s c).vai % 4 == sw) with
    | none => s
    | some c =>
      let s := restoreCtx c { s with err := { s.err with toRestore := sremove c s.err.toRestore } }
      endRestore (vaisBack s)))

/-! ## Events and commands -/

/-- MESH_FATAL_ERROR (R703): B-class. -/
def execMeshFatalError (s : State) : Host.Outcome State Fault Refusal := run s (bEvent 0 0 0x22 0)

/-- BRESET (R730): a B-class event at the manager's request. -/
def execBreset (val : W32) (s : State) : Host.Outcome State Fault Refusal :=
  run s (guarded (regsOn s && bit val.toNat 31) (bEvent 0 0 0x27 0))

/-- REINSTATE (R718): out of service, the count of recent resets is cleared and one reset that does not count is performed. -/
def execReinstate (val : W32) (s : State) : Host.Outcome State Fault Refusal :=
  run s (guarded (s.blk.bootState == 9 && bit val.toNat 30) (fun s =>
    beginReset false { s with blk := { s.blk with bootState := 6 }, err := { s.err with recentAt := [] } }))

end Sys2Proof.Machine
end

