-- ==== Sys2Proof/Machine/Security.lean ====
section
/-!
DEFINITION. The confidential security block: the SPDM responder (R736-R739), the security mailbox (R740), the attestation report (R741),
seal bindings (R745-R753) and scrub receipts (R760). Cryptography is not computed; request codes and error kinds are those of SPDM 1.3.
-/
namespace Sys2Proof.Machine
open Sys2Proof

/-! ## The attestation report (R741) -/

/-- SHA-384, 48 bytes. -/
def digest (l : List Byte) : List Byte := padTo (Config.sha384 l) 48

/-- The identity key's signature over the SHA-384 of some bytes: r then s, 96 bytes. -/
def identitySign (l : List Byte) : List Byte := padTo (Config.sign (digest l)) 96

/-- DIGEST of an image header (R661). -/
def imageDigest (img : List Byte) : List Byte := padTo ((img.drop 20).take 48) 48

/-- The image that steward k runs. -/
def stewardImage (s : State) (k : Nat) : List Byte := if bit s.fw.newOn k then s.fw.staged else s.fw.running

/-- The word of a partition in a report. -/
def reportPart (s : State) (p : Nat) : Nat :=
  let v := s.fe.vai.find? (fun e => e.2.state != 0 && e.2.part == p)
  let conf := bit s.fe.conf p
  let pasid := match v with
    | some e => if conf then e.2.pasid % 2 ^ 20 else 0
    | none => 0
  pasid + 2 ^ 28 * b2n (scrubbing s p) + 2 ^ 29 * b2n (bindingOf s p).isSome + 2 ^ 30 * b2n v.isSome + 2 ^ 31 * b2n conf

/-- Bytes [703:0] of the attestation report. -/
def reportBody (s : State) (nonce : List Byte) : List Byte :=
  let fuse := s.fw.fuses
  let debug := b2n (bit (regGet s 0x8) 16) + 2 * b2n s.csb.debugUsed + 4 * b2n (confMode s)
  let layout := s.fe.parts % 16 * 2 ^ 28 + s.fe.conf % 4096 * 2 ^ 16 + 256 * b2n s.mem.divided + s.mem.steps % 8
  let borrow := ((List.range 13).map (fun r => 2 ^ r * b2n (regAt s r).borrow)).foldl (fun a b => a + b) 0
  leBytes 4 0x53525054 ++ leBytes 4 0x100 ++ leBytes 4 (regGet s 0x0) ++ leBytes 2 (regGet s 0x4) ++ leBytes 2 (nodeId s) ++
    leBytes 16 fuse.serial ++ digest Config.idKey ++ padTo nonce 32 ++ leBytes 8 (beat s) ++ digest Config.csbRom ++
    imageDigest s.fw.flash.image ++ ((List.range 4).map (fun k => imageDigest (stewardImage s k))).flatten ++
    (if s.fw.upd = 0 then List.replicate 48 0 else imageDigest s.fw.staged) ++ digest s.fw.flash.params ++
    ((List.range 4).map (fun k => leBytes 4 (fwVersion s k))).flatten ++
    leBytes 4 (fuse.svn % 64 + 256 * b2n fuse.production + 512 * b2n fuse.debugOff) ++ leBytes 4 debug ++ leBytes 4 layout ++
    leBytes 4 (regGet s 0x8) ++ ((List.range 4).map (fun n => leBytes 4 (regGet s (0x20 + 4 * n)))).flatten ++
    ((List.range 12).map (fun p => leBytes 4 (reportPart s p))).flatten ++
    ((List.range 12).map (fun p => leBytes 4 (tget ({} : Scrub) s.csb.scrub p).seq)).flatten ++ leBytes 4 borrow ++ List.replicate 52 0

/-! ## Measurements (R739) -/

/-- Measurement i: whether it is a raw bit stream, and its value. -/
def measurement (s : State) (nonce : List Byte) (i : Nat) : Bool × List Byte :=
  match i with
  | 1 => (false, digest Config.csbRom)
  | 2 => (false, imageDigest s.fw.flash.image)
  | 7 => (false, digest s.fw.flash.params)
  | 8 => (true, reportBody s nonce ++ List.replicate 96 0)
  | k => (false, imageDigest (stewardImage s (k - 3)))

/-- A measurement block in the DMTF form. -/
def measureBlock (s : State) (nonce : List Byte) (i : Nat) : List Byte :=
  let m := measurement s nonce i
  leBytes 1 i ++ [1] ++ leBytes 2 (m.2.length + 3) ++ [if m.1 then 0x80 else 0] ++ leBytes 2 m.2.length ++ m.2

/-! ## The SPDM responder (R736-R738) -/

/-- An ERROR response. -/
def spdmError (kind : Nat) : List Byte := [0x13, 0x7F] ++ leBytes 1 kind ++ [0]

/-- Part of a response that the specification leaves to SPDM 1.3. -/
def spdmRest (msg : List Byte) (s : State) : List Byte × State :=
  (Config.spdmBody msg s.freeCtr, { s with freeCtr := s.freeCtr + 1 })

/-- GET_MEASUREMENTS: index 0 asks for their number, 0xFF for all; bit 0 of byte 2 for a signature over the nonce that follows. -/
def spdmMeasure (msg : List Byte) (s : State) : List Byte × State :=
  let i := byteAt msg 3
  let signed := bit (byteAt msg 2) 0
  let nonce := if signed then padTo ((msg.drop 4).take 32) 32 else List.replicate 32 0
  let is := if i = 0xFF then [1, 2, 3, 4, 5, 6, 7, 8] else if i = 0 then [] else [i]
  if 8 < i ∧ i ≠ 0xFF then (spdmError 0x01, s)
  else
    let rec' := (is.map (measureBlock s nonce)).flatten
    let (x, s) := fresh s
    let body := [0x13, 0x60, if i = 0 then 8 else 0, 0] ++ leBytes 1 is.length ++ leBytes 3 rec'.length ++ rec' ++ leBytes 32 x ++ [0, 0]
    (if signed then body ++ identitySign (msg ++ body) else body, s)

/-- KEY_EXCHANGE: a session opens, or the responder is Busy with 16 open. -/
def spdmKeyExchange (msg : List Byte) (s : State) : List Byte × State :=
  if 16 ≤ s.csb.sessions.length then (spdmError 0x03, s)
  else
    let k := s.csb.next
    let s := { s with csb := { s.csb with sessions := s.csb.sessions ++ [k], next := k + 1 } }
    let r := spdmRest msg s
    ([0x13, 0x64, 0, 0] ++ leBytes 2 k ++ r.1, r.2)

/-- The capabilities offered (R737), in the flag places of SPDM 1.3. -/
def spdmFlags : Nat := 2 ^ 1 + 2 ^ 2 + 2 ^ 4 + 2 ^ 5 + 2 ^ 6 + 2 ^ 7 + 2 ^ 9 + 2 ^ 13 + 2 ^ 14 + 2 ^ 17

/-- Any other request (R734, R737): the version and the capabilities offered; certificate slots other than 0 are empty; requests of
capabilities not offered are unsupported. -/
def spdmOther (msg : List Byte) (s : State) : List Byte × State :=
  let c := byteAt msg 1
  let slot := byteAt msg 2 % 16
  let rest := fun (_ : Unit) => let r := spdmRest msg s; ([0x13, BitVec.ofNat 8 (c % 128)] ++ r.1, r.2)
  if c = 0x84 then ([0x10, 0x04, 0, 0, 0, 1] ++ leBytes 2 0x1300, s)
  else if c = 0xE1 then
    let (x, s) := fresh s
    ([0x13, 0x61, 0, 0, 0] ++ leBytes 1 x ++ [0, 0] ++ leBytes 4 spdmFlags ++ leBytes 4 4096 ++ leBytes 4 65536, s)
  else if c = 0x82 then
    if slot ≠ 0 then (spdmError 0x01, s)
    else
      let chain := Config.certChain.take 4096
      let part := ((chain.drop (fieldAt msg 4 2)).take (fieldAt msg 6 2))
      ([0x13, 0x02, 0, 0] ++ leBytes 2 part.length ++ leBytes 2 (chain.length - fieldAt msg 4 2 - part.length) ++ part, s)
  else if c = 0x83 ∧ slot ≠ 0 then (spdmError 0x01, s)
  else if [0x81, 0x83, 0xE3, 0xE5, 0xE8, 0xE9, 0x85, 0x86].contains c then rest ()
  else (spdmError 0x07, s)

/-- The responder handles a request (R736). -/
def spdmAnswer (msg : List Byte) (s : State) : List Byte × State :=
  match byteAt msg 1 with
  | 0xE0 => spdmMeasure msg s
  | 0xE4 => spdmKeyExchange msg s
  | _ => spdmOther msg s

/-- The CSB runs. -/
def csbRuns (s : State) : Bool := (procAt s 4).pstate == 1

/-- The security mailbox holds a taken command of a code, and the CSB runs it (R655). -/
def secRuns (s : State) (code : Nat) : Bool := awaits s 257 code && csbRuns s && regsOn s

/-- The busy output of the DOE pipe (R28): high while the CSB takes no message. DESIGN CHOICE (log entry 140): no rule says when. -/
def doeBusy (s : State) : Bool := !csbRuns s

/-- A path delivers a request now: the DOE pipe while its abort input is not asserted, the mailbox while it holds SPDM_XFER. -/
def pathOpen (s : State) (via : SpdmPath) : Bool :=
  match via with
  | .doe => !doeBusy s && !s.blk.doeAbort
  | .mailbox => secRuns s 0x0400

/-- A response leaves by the path on which the request came. In the mailbox a buffer that is too small is answered BUSY with the bytes
needed, and the request has no effect. -/
def sendSpdm (via : SpdmPath) (f : State → List Byte × State) (s : State) : State :=
  let r := f s
  match via with
  | .doe => emit (.doe r.1) r.2
  | .mailbox =>
    let n := r.1.length
    if boxWord s 257 6 < n then replyBox 257 0x31 [n] s
    else replyBox 257 0 [n] (hostWriteM (boxPair s 257 4) r.1 r.2)

/-- A request on a path. -/
def onSpdm (via : SpdmPath) (f : State → List Byte × State) (s : State) : State := guarded (pathOpen s via) (sendSpdm via f) s

/-- DOE_MESSAGE (R736): passed to the responder, or discarded while the abort input is asserted. -/
def execDoeMessage (data : List Byte) (s : State) : Host.Outcome State Fault Refusal :=
  run s (onSpdm .doe (spdmAnswer data))

/-- GET_MEASUREMENTS (R739). -/
def execGetMeasurements (via : SpdmPath) (msg : List Byte) (s : State) : Host.Outcome State Fault Refusal :=
  run s (onSpdm via (spdmMeasure msg))

/-- KEY_EXCHANGE (R738). -/
def execKeyExchange (via : SpdmPath) (msg : List Byte) (s : State) : Host.Outcome State Fault Refusal :=
  run s (onSpdm via (spdmKeyExchange msg))

/-- SPDM_MESSAGE (R734, R737). -/
def execSpdmMessage (via : SpdmPath) (msg : List Byte) (s : State) : Host.Outcome State Fault Refusal :=
  run s (onSpdm via (spdmOther msg))

/-- A request inside a session that is open; otherwise an ERROR of kind InvalidSession. -/
def inSession (k : Nat) (f : State → List Byte × State) (s : State) : List Byte × State :=
  if s.csb.sessions.contains k then f s else (spdmError 0x02, s)

/-- END_SESSION (R738, R753). -/
def execEndSession (via : SpdmPath) (session : Nat) (s : State) : Host.Outcome State Fault Refusal :=
  run s (onSpdm via (inSession session (fun s => ([0x13, 0x6C, 0, 0], dropSession session s))))

/-- SESSION_HEARTBEAT_TIMEOUT (R738, R753). -/
def execSessionHeartbeatTimeout (session : Nat) (s : State) : Host.Outcome State Fault Refusal :=
  run s (fun s => if s.csb.sessions.contains session then dropSession session s else s)

/-! ## Seal bindings (R745-R750) -/

/-- A word of a vendor-defined request. -/
def reqWord (l : List W32) (i : Nat) : Nat := (l.getD i 0).toNat

/-- The status byte that answers a vendor-defined request. -/
def sealStatus (st : Status) (s : State) : List Byte × State := ([BitVec.ofNat 8 st.code], s)

/-- The last generation of a partition that a session has used (R746). -/
def lastGen (s : State) (k p : Nat) : Option Nat :=
  (s.csb.gens.find? (fun g => decide (g.1 = k ∧ g.2.1 = p))).map (fun g => g.2.2)

/-- A generation comes into use: its counter starts at 1 (R746, R750). -/
def useGen (k p g : Nat) (s : State) : State :=
  { s with csb := { s.csb with
      bindings := s.csb.bindings.filter (fun b => decide (b.part ≠ p)) ++ [{ session := k, part := p, gen := g, counter := 1 }],
      gens := s.csb.gens.filter (fun x => !decide (x.1 = k ∧ x.2.1 = p)) ++ [(k, p, g)] } }

/-- The generation that a session takes next for a partition; none after 255. -/
def nextGen (s : State) (k p : Nat) : Option Nat :=
  match lastGen s k p with
  | none => some 0
  | some g => if g < 255 then some (g + 1) else none

/-- A partition is bound to another session. -/
def boundToOther (s : State) (k p : Nat) : Bool := match bindingOf s p with | some b => b.session != k | none => false

/-- SEAL_BIND (R745, R746, R759): word 0 the partition, word 1 the PASID. -/
def sealBind (k : Nat) (l : List W32) (s : State) : List Byte × State :=
  let p := field (reqWord l 0) 0 4
  let pasid := field (reqWord l 1) 0 20
  if scrubbing s p then sealStatus .busy s
  else if !confPart s p || !(s.fe.vai.any (fun e => e.2.state != 0 && e.2.part == p && e.2.pasid == pasid)) || boundToOther s k p then
    sealStatus .denied s
  else match nextGen s k p with
    | none => sealStatus .denied s
    | some g => sealStatus .done (useGen k p g s)

/-- SEAL_BIND. -/
def execSealBind (via : SpdmPath) (session : Nat) (words : List W32) (s : State) : Host.Outcome State Fault Refusal :=
  run s (onSpdm via (inSession session (sealBind session words)))

/-- A session binds a partition. -/
def binds (s : State) (k p : Nat) : Bool := match bindingOf s p with | some b => b.session == k | none => false

/-- SEAL_WINDOW (R745, R753): word 0 the context, then SEAL_BASE, SEAL_SIZE and META_BASE in two words each. -/
def sealWindow (k : Nat) (l : List W32) (s : State) : List Byte × State :=
  let c := field (reqWord l 0) 0 9
  let pair := fun (i : Nat) => reqWord l i + 2 ^ 32 * reqWord l (i + 1)
  if pair 1 % 4096 ≠ 0 ∨ pair 3 % 4096 ≠ 0 ∨ pair 5 % 64 ≠ 0 then sealStatus .faultFormat s
  else if (ctxAt s c).state ≠ 1 ∨ binds s k (partOfCtx s c) = false then sealStatus .denied s
  else
    let w : Window := { ctx := c, base := pair 1, size := pair 3, metaAt := pair 5 }
    sealStatus .done { s with csb := { s.csb with windows := s.csb.windows.filter (fun x => decide (x.ctx ≠ c)) ++ [w] } }

/-- SEAL_WINDOW. -/
def execSealWindow (via : SpdmPath) (session : Nat) (words : List W32) (s : State) : Host.Outcome State Fault Refusal :=
  run s (onSpdm via (inSession session (sealWindow session words)))

/-- A sealed transfer of a partition is outstanding, and may use the previous generation. -/
def sealBusy (s : State) (p : Nat) : Bool :=
  (match bindingOf s p with | some b => b.gen != 0 | none => false) &&
    s.ports.oreq.any (fun r => r.crypt.isSome && (match r.ctx with | some c => partOfCtx s c == p | none => false))

/-- SEAL_ROTATE (R745, R746, R750). -/
def sealRotate (k : Nat) (l : List W32) (s : State) : List Byte × State :=
  let p := field (reqWord l 0) 0 4
  if binds s k p = false then sealStatus .denied s
  else match nextGen s k p with
    | none => sealStatus .denied s
    | some g => if sealBusy s p then sealStatus .busy s else sealStatus .done (useGen k p g s)

/-- SEAL_ROTATE. -/
def execSealRotate (via : SpdmPath) (session : Nat) (words : List W32) (s : State) : Host.Outcome State Fault Refusal :=
  run s (onSpdm via (inSession session (sealRotate session words)))

/-- SEAL_UNBIND (R745, R753). -/
def sealUnbind (k : Nat) (l : List W32) (s : State) : List Byte × State :=
  let p := field (reqWord l 0) 0 4
  if binds s k p = false then sealStatus .denied s else sealStatus .done (unbindPart p s)

/-- SEAL_UNBIND. -/
def execSealUnbind (via : SpdmPath) (session : Nat) (words : List W32) (s : State) : Host.Outcome State Fault Refusal :=
  run s (onSpdm via (inSession session (sealUnbind session words)))

/-! ## The security mailbox (R740) -/

/-- A command of the security mailbox runs. -/
def onSec (code : Nat) (f : State → State) (s : State) : State := guarded (secRuns s code) f s

/-- A buffer that the CSB read from the host came back marked: a CE (R33). -/
def secPoison (h : HostData) (s : State) : State := if h.poison then reportCe 8 0 0x04 0 s else s

/-- SPDM_XFER (R736, R740): `host` is the request that the buffer holds. -/
def execSpdmXfer (host : HostData) (s : State) : Host.Outcome State Fault Refusal :=
  run s (onSec 0x0400 (fun s =>
    if boxPair s 257 1 % 64 ≠ 0 ∨ boxPair s 257 4 % 64 ≠ 0 then replySt 257 .faultFormat s
    else sendSpdm .mailbox (spdmAnswer (padTo host.bytes (boxWord s 257 3))) (secPoison host s)))

/-- ATTEST_REPORT (R740, R741): the report is written over the buffer whose first 32 bytes are the nonce. -/
def execAttestReport (host : HostData) (s : State) : Host.Outcome State Fault Refusal :=
  run s (onSec 0x0401 (fun s =>
    let a := boxPair s 257 1
    if a % 64 ≠ 0 then replySt 257 .faultFormat s
    else
      let b := reportBody s (padTo host.bytes 32)
      replySt 257 .done (hostWriteM a (b ++ identitySign b) (secPoison host s))))

/-- Bytes [63:0] of a scrub receipt (R760). -/
def receiptBody (p : Nat) (r : Receipt) (nonce : List Byte) : List Byte :=
  leBytes 4 0x53524350 ++ leBytes 1 p ++ leBytes 1 r.trigger ++ leBytes 2 r.seq ++ leBytes 8 r.start ++ leBytes 8 r.finish ++
    leBytes 4 r.chunks ++ leBytes 2 r.units ++ leBytes 2 0 ++ padTo nonce 32

/-- SCRUB_RECEIPT (R740, R760): the receipt of the partition's last completed scrub. -/
def execScrubReceipt (host : HostData) (s : State) : Host.Outcome State Fault Refusal :=
  run s (onSec 0x0402 (fun s =>
    let p := boxWord s 257 1
    let a := boxPair s 257 2
    if 12 ≤ p ∨ a % 64 ≠ 0 then replySt 257 .faultFormat s
    else match (tget ({} : Scrub) s.csb.scrub p).receipt with
      | none => replySt 257 .denied s
      | some r =>
        let b := receiptBody p r (padTo host.bytes 32)
        replySt 257 .done (hostWriteM a (b ++ identitySign b) (secPoison host s))))

end Sys2Proof.Machine
end

