-- ==== Sys2Proof/Machine/Registers.lean ====
section
/-!
DEFINITION. Register accesses that have no step of their own: what every register of BAR0 and BAR2 reads as (R13-R20 and the register
tables of each chapter), the latched high word, fields that a read clears, and plain writes.
-/
namespace Sys2Proof.Machine
open Sys2Proof

/-! ## Registers of 64 bits (R15), by the offset of the low word -/

/-- Counters of an LCE (R236). -/
def lceWide (s : State) (n o : Nat) : Option Nat :=
  let x := lceAt s n
  match o with
  | 0x08 => some x.entries | 0x10 => some x.distinct | 0x18 => some x.runs | 0x20 => some x.hits | 0x28 => some x.subOut
  | 0x30 => some x.subIn | _ => none

/-- Counters of a regulator (R303). -/
def rgWide (s : State) (r o : Nat) : Option Nat :=
  let x := regAt s r
  match o with
  | 0x08 => some x.spent | 0x10 => some x.lent | 0x18 => some x.borrowed | 0x20 => some x.expired | _ => none

/-- Counters of a port (R388). -/
def portWide (s : State) (p o : Nat) : Option Nat :=
  let x := portAt s p
  match o with
  | 0x10 => some x.tx | 0x18 => some x.rxCnt | 0x20 => some x.replayed | 0x28 => some x.fecCor | 0x30 => some x.fecUnc
  | 0x38 => some x.crcErr | 0x40 => some x.drop | 0x48 => some x.retrain | _ => none

/-- The 64-bit register of BAR0 whose low word lies at an offset. -/
def wide0 (s : State) (o : Nat) : Option Nat :=
  if o = 0x402008 then some s.arr.cheap
  else if o = 0x402010 then some s.arr.full
  else if o = 0x402018 then some s.arr.spill
  else if 0x108000 ≤ o ∧ o < 0x10C000 ∧ o % 0x20 = 8 then
    let c := (o - 0x108000) / 0x20
    some (if confCtx s c then 0 else (ctxAt s c).fva % 2 ^ 48)
  else if 0x800000 ≤ o ∧ o < 0x800C00 then lceWide s ((o - 0x800000) / 0x40) (o % 0x40)
  else if 0xA00200 ≤ o ∧ o < 0xA002C0 then
    let n := (o - 0xA00200) / 0x10
    some (if o % 0x10 = 0 then tget 0 s.mem.runs n else tget 0 s.mem.groups n)
  else if 0xA04000 ≤ o ∧ o < 0xA04340 then rgWide s ((o - 0xA04000) / 0x40) (o % 0x40)
  else if 0xC01000 ≤ o ∧ o < 0xC01800 then portWide s ((o - 0xC01000) / 0x100) (o % 0x100)
  else if o = 0x1100208 then some (beat s)
  else if 0x1100400 ≤ o ∧ o < 0x1100460 then
    let p := (o - 0x1100400) / 8
    some (if confPart s p then 0 else tget 0 s.pm.energy p)
  else if o = 0x1100460 then some s.pm.energyBlk
  else if o = 0x1200018 then some s.err.lastBr
  else none

/-- The 64-bit register of a VAI page (R430, R754, R755). -/
def wide2 (s : State) (v o : Nat) : Option Nat :=
  match o with
  | 0x10 => some (beatSeen s (1 + v) (beat s))
  | 0x40 => some (vaiAt s v).latched
  | 0x48 => some (vaiAt s v).latchedRuns
  | 0x50 => some (vaiAt s v).latchedRows
  | _ => none

/-! ## Words of the units of BAR0 -/

/-- BLK (R1, R2, R58, R71, R83, R85, R670-R672). -/
def blkWord (s : State) (o : Nat) : Nat :=
  let b := s.blk
  if o = 0xC then
    (b.mcOk.map (fun n => 2 ^ n)).foldl (fun x y => x + y) 0 + b2n b.portOk * 2 ^ 12 + b2n b.hostOk * 2 ^ 13 +
      b2n b.arrayLock * 2 ^ 14 + b2n b.meshLock * 2 ^ 15 + b2n b.ctrlLock * 2 ^ 16
  else if o = 0x14 then b.bootState % 16 * 2 ^ 28 + b.cause % 256 * 2 ^ 16 + sat 12 b.readyMs
  else if o = 0x30 then regGet s o + b2n s.fw.recovering * 2 ^ 31
  else if o = 0x3C then s.fw.upd % 16 * 2 ^ 28 + s.fw.newOn % 16 * 2 ^ 24 + fieldAt s.fw.flash.image 4 2
  else regGet s o

/-- FE_CTX_STAT, REFS, FINFO, LATE of context c (R585, R586). -/
def ctxWord (s : State) (c o : Nat) : Nat :=
  let x := ctxAt s c
  match o with
  | 0x00 => x.state * 2 ^ 29 + x.gen % 256 * 2 ^ 21 + x.vai % 256 * 2 ^ 13 + x.part % 16 * 2 ^ 9
  | 0x04 => x.refs
  | 0x10 => if confCtx s c then 0 else x.kind % 16 * 2 ^ 28 + x.source % 16 * 2 ^ 24 + sat 16 x.count
  | 0x14 => sat 16 x.late
  | _ => 0

/-- The four registers of VAI v (R621). -/
def vaiWord (s : State) (v o : Nat) : Nat :=
  let x := vaiAt s v
  match o with
  | 0x0 => x.state % 4 * 2 ^ 30 + x.part % 16 * 2 ^ 26 + x.pasid % 2 ^ 20
  | 0x4 => x.classes % 2 ^ 16 * 2 ^ 16 + x.contexts
  | 0x8 => x.queues * 2 ^ 25 + x.fences
  | _ => (if x.log then (if x.overflow then 2 else 1) else 0) * 2 ^ 30 + x.hostLog.length

/-- FE_FT_OWN and FE_SCR_OWN (R622). -/
def ownWord (x : Own) : Nat :=
  match x with
  | .free => 0
  | .vai v => 2 ^ 31 + v % 256
  | .zeroing | .scrub _ => 2 ^ 30

/-- STATE of FE_RECONF_STAT (R619). -/
def reconfState (s : State) : Nat :=
  match s.fe.reconf with
  | none => 0
  | some r => if r.step = 5 then 2 else 1

/-- FE (R518-R528, R584-R586, R619-R622). -/
def feWord (s : State) (o : Nat) : Nat :=
  if o = 0x100004 then b2n s.fe.roundNext.isSome * 2 ^ 30 + s.fe.roundRes % 256 * 2 ^ 16 + s.fe.round
  else if o = 0x100010 then sat 16 s.fe.broken * 2 ^ 16 + s.fe.lastBroken
  else if o = 0x100018 then s.fe.parts * 2 ^ 28 + s.fe.conf % 4096 * 2 ^ 16
  else if o = 0x10001C then reconfState s * 2 ^ 30 + s.fe.reconfResult % 256 * 2 ^ 16 + s.fe.touched % 4096
  else if 0x100040 ≤ o ∧ o < 0x100070 then
    let x := partAt s ((o - 0x100040) / 4)
    x.scrCount * 2 ^ 8 + x.scrFirst
  else if 0x100100 ≤ o ∧ o < 0x100180 then
    let n := (o - 0x100100) / 4
    let x : Slot := tget {} s.fe.slot n
    b2n x.valid * 2 ^ 31 + b2n (floats s 32 n) * 2 ^ 30 + x.part % 16 * 2 ^ 22 + x.queue % 1024
  else if 0x101000 ≤ o ∧ o < 0x104000 ∧ o % 0x400 = 4 then
    let x := partAt s ((o - 0x101000) / 0x400)
    b2n x.commit.isSome * 2 ^ 30 + x.result % 256 * 2 ^ 16 + x.turn * 2 ^ 8 + x.countM1
  else if 0x101000 ≤ o ∧ o < 0x104000 ∧ o % 0x400 = 8 then
    regGet s o + b2n (partAt s ((o - 0x101000) / 0x400)).commit.isSome * 2 ^ 31
  else if 0x108000 ≤ o ∧ o < 0x10C000 then ctxWord s ((o - 0x108000) / 0x20) (o % 0x20)
  else if 0x110000 ≤ o ∧ o < 0x111000 then vaiWord s ((o - 0x110000) / 0x10) (o % 0x10)
  else if 0x112000 ≤ o ∧ o < 0x112F00 then ownWord (tget .free s.fe.ftOwn ((o - 0x112000) / 4))
  else if 0x113000 ≤ o ∧ o < 0x1130E0 then ownWord (tget .free s.fe.scrOwn ((o - 0x113000) / 4))
  else regGet s o

/-- ARR (R126, R127, R171-R173). -/
def arrWord (s : State) (o : Nat) : Nat :=
  if 0x400000 ≤ o ∧ o < 0x400D80 then
    match physOf s ((o - 0x400000) / 4) with
    | some p => 2 ^ 31 + p
    | none => 0
  else if 0x401000 ≤ o ∧ o < 0x401E40 then
    let x := physAt s ((o - 0x401000) / 4)
    x.role % 8 * 2 ^ 29 + (if x.role = 2 ∨ x.role = 4 then x.logical else 0x3FF) * 2 ^ 16 + sat 8 x.ce * 2 ^ 8
  else if o = 0x402020 then s.arr.poolPeak * 2 ^ 16 + poolUsed s
  else regGet s o

/-- STATE of LCE_STAT (R235). -/
def lceState (x : Lce1) : Nat := if x.state = 1 ∧ (x.active ≠ [] ∨ x.queue ≠ []) then 2 else x.state

/-- LCE (R235-R239). -/
def lceWord (s : State) (o : Nat) : Nat :=
  if 0x800000 ≤ o ∧ o < 0x800C00 then
    let x := lceAt s ((o - 0x800000) / 0x40)
    if o % 0x40 = 0 then lceState x * 2 ^ 30 + x.active.length * 2 ^ 24 +
      (x.queue.filter (fun j => match j with | .task _ => true | .sub _ _ => false)).length else 0
  else if 0x801000 ≤ o ∧ o < 0x8010C0 ∧ o % 0x10 = 4 then (hrcAt s ((o - 0x801000) / 0x10)).rows.length
  else regGet s o

/-- MC and RG (R280-R286, R301-R303, R312-R314). -/
def mcWord (s : State) (o : Nat) : Nat :=
  if o = 0xA00004 then
    s.mem.ntState * 2 ^ 30 + s.mem.ntResult % 256 * 2 ^ 16 + s.mem.steps * 2 ^ 8 + b2n s.mem.divided
  else if o = 0xA00008 then s.mem.ftCap
  else if o = 0xA0000C then s.mem.ftRetired
  else if 0xA00100 ≤ o ∧ o < 0xA00130 then
    let n := (o - 0xA00100) / 4
    (stackAt s n).state % 8 * 2 ^ 29 + ((List.range 64).filter (fun i => (chanAt s (64 * n + i)).state == 2)).length * 2 ^ 16
  else if 0xA01000 ≤ o ∧ o < 0xA01C00 then
    let x := chanAt s ((o - 0xA01000) / 4)
    x.state % 4 * 2 ^ 30 + sat 8 x.ce * 2 ^ 8 + sat 8 x.retired
  else if 0xA04000 ≤ o ∧ o < 0xA04340 ∧ o % 0x40 = 4 then
    let x := regAt s ((o - 0xA04000) / 0x40)
    x.state % 4 * 2 ^ 30 + x.result % 256 * 2 ^ 16 + x.rate
  else if 0xA10000 ≤ o ∧ o < 0xA1C000 ∧ o % 0x40 = 0 then
    regGet s o + b2n ((tgAt s ((o - 0xA10000) / 0x40)).state == 1) * 2 ^ 31
  else if 0xA10000 ≤ o ∧ o < 0xA1C000 ∧ o % 0x40 = 4 then
    let x := tgAt s ((o - 0xA10000) / 0x40)
    x.state % 4 * 2 ^ 30 + x.result % 256 * 2 ^ 16 + sat 16 x.errors
  else if 0xA10000 ≤ o ∧ o < 0xA1C000 ∧ o % 0x40 = 0x14 then (tgAt s ((o - 0xA10000) / 0x40)).err
  else if 0xA10000 ≤ o ∧ o < 0xA1C000 ∧ o % 0x40 = 0x18 then (tgAt s ((o - 0xA10000) / 0x40)).done
  else regGet s o

/-- FAB (R381-R392). -/
def fabWord (s : State) (o : Nat) : Nat :=
  if 0xC01000 ≤ o ∧ o < 0xC01800 ∧ o % 0x100 = 4 then
    let x := portAt s ((o - 0xC01000) / 0x100)
    x.state % 8 * 2 ^ 29 + x.lanes % 256 * 2 ^ 20 + x.gen % 256 * 2 ^ 12 + x.partner % 4096
  else regGet s o

/-- IC (R637, R641-R646). Sources 0 to 31 read 0. -/
def icWord (s : State) (o : Nat) : Nat :=
  if 0xE00100 ≤ o ∧ o < 0xE03000 then
    let n := (o - 0xE00000) / 8
    let x := srcAt s n
    if o % 8 = 0 then b2n x.mask * 2 ^ 31 + targetCode (targetOf s n) * 2 ^ 28 + x.group * 2 ^ 22 + x.level * 2 ^ 8
    else b2n (x.count != 0) * 2 ^ 15 + x.count
  else if o = 0xE04104 then s.ic.written
  else if o = 0xE04210 then s.ic.mqTail
  else if 0xE90000 ≤ o ∧ o < 0xE90028 then
    let k := (o - 0xE90000) / 4
    ((s.ic.pba.filter (fun v => decide (v / 32 = k))).map (fun v => 2 ^ (v % 32))).foldl (fun x y => x + y) 0
  else regGet s o

/-- MB_HEART of a processor (R649). -/
def heartWord (s : State) (p : Nat) : Nat :=
  (procAt s p).pstate % 4 * 2 ^ 30 + (if p < 4 then p else 0) * 2 ^ 28 + (procAt s p).heart

/-- STATE of MB_STAT (R649). -/
def BoxState.code (x : BoxState) : Nat :=
  match x with
  | .idle => 0 | .posted => 1 | .taken => 2 | .done => 3

/-- A mailbox (R647, R649). -/
def boxRegWord (s : State) (b o : Nat) : Nat :=
  let x := boxAt s b
  if o < 0x20 then (x.words.getD (o / 4) 0).toNat
  else if o < 0x40 then (x.reply.getD ((o - 0x20) / 4) 0).toNat
  else if o = 0x44 then x.state.code * 2 ^ 30 + sat 8 x.discards
  else if o = 0x48 then b2n x.valid * 2 ^ 31 + x.replyLen % 16 * 2 ^ 24 + x.token % 256 * 2 ^ 16 + x.ret % 2 ^ 16
  else if o = 0x4C then heartWord s (boxProc b)
  else 0

/-- MB (R647, R652). -/
def mbWord (s : State) (o : Nat) : Nat :=
  if o < 0xF00100 then boxRegWord s 256 (o - 0xF00000)
  else if o < 0xF00200 then boxRegWord s 257 (o - 0xF00100)
  else if o < 0xF00214 then heartWord s ((o - 0xF00200) / 4)
  else 0

/-- A tally word lies in a confidential partition: it is granted to a VAI there. -/
def confWord (s : State) (i : Nat) : Bool :=
  match tget 0 s.tw.grant (i / 64) with
  | 0 => false
  | v + 1 => confVai s v

/-- What a physical array waits for (R556). -/
def waitWord (s : State) (p : Nat) : Nat :=
  match s.tw.waits.find? (fun w => decide (w.phys = p)) with
  | some w => 2 ^ 31 + b2n w.take * 2 ^ 29 + (if w.take then 0 else w.cond % 4) * 2 ^ 27 + w.idx
  | none => match (arrAt s p).stall with
    | .barrier _ c => 2 ^ 31 + 2 * 2 ^ 29 + c
    | _ => 0

/-- TW (R554-R559). -/
def twWord (s : State) (o : Nat) : Nat :=
  if o < 0x1010000 then
    let i := (o - 0x1000000) / 4
    if confWord s i then 0 else (twAt s i).toNat
  else if o < 0x1020000 then
    let i := (o - 0x1010000) / 4
    let x := tget (0, 0) s.tw.last i
    if confWord s i then 0 else x.1 % 16 * 2 ^ 28 + x.2 % 4096
  else if o < 0x1020E40 then
    let p := (o - 0x1020000) / 4
    let l := (physAt s p).logical
    if l < 864 ∧ confPart s (partOfArray s l) = true then 0 else waitWord s p
  else if 0x1030000 ≤ o ∧ o < 0x1030400 then
    match tget 0 s.tw.grant ((o - 0x1030000) / 4) with
    | 0 => 0
    | v + 1 => 2 ^ 31 + v
  else if 0x1040000 ≤ o ∧ o < 0x1040200 then
    let x := barAt s ((o - 0x1040000) / 0x10)
    if x.granted && confVai s x.vai then 0
    else if o % 0x10 = 0 then
      b2n (x.granted && x.state != 0) * 2 ^ 31 + x.ctx % 512 * 2 ^ 22 + x.vai % 256 * 2 ^ 12 + x.countM1 % 4096
    else if o % 0x10 = 4 then x.state % 4 * 2 ^ 30 + x.gen % 256 * 2 ^ 12 + x.arrived % 4096
    else 0
  else 0

/-- PM (R682-R701). -/
def pmWord (s : State) (o : Nat) : Nat :=
  let m := s.pm
  if o = 0x1100004 then regGet s o + m.rate % 32 * 2 ^ 5
  else if o = 0x1100008 then
    m.block % 8 * 2 ^ 29 + b2n m.thrPin * 2 ^ 28 + b2n m.thrCap * 2 ^ 27 + m.thrLast % 2 * 2 ^ 26 + sat 16 m.power
  else if 0x1100100 ≤ o ∧ o < 0x1100130 then
    let n := (o - 0x1100100) / 4
    tget 0 m.sector n % 8 * 2 ^ 29 + ((physOfSector n).filter (fun p => (arrAt s p).gated)).length * 2 ^ 16
  else if o = 0x1100204 then
    m.lock % 4 * 2 ^ 30 + b2n m.master * 2 ^ 29 + m.upstream % 16 * 2 ^ 20 + m.distance % 256 * 2 ^ 12 + m.node % 4096
  else if o = 0x1100210 then sat 16 m.jumps * 2 ^ 16 + m.offset % 2 ^ 16
  else if o = 0x1100310 then m.tail
  else if o = 0x1100318 then m.snap % 2 ^ 16 * 2 ^ 16 + sat 16 m.lost
  else regGet s o

/-- ERR (R722, R729-R732). -/
def errWord (s : State) (o : Nat) : Nat :=
  let e := s.err
  if o = 0x1200008 then
    e.state % 4 * 2 ^ 30 + min 15 (recentResets s).length * 2 ^ 24 + e.lastType % 256 * 2 ^ 16 + sat 16 e.resets
  else if o = 0x120000C then e.head
  else if o = 0x1200010 then e.tail
  else if o = 0x1200014 then e.lost
  else if o = 0x1200028 then
    regGet s o + b2n e.copying * 2 ^ 31 + dumpState s * 2 ^ 28 + b2n s.fw.flash.dumpDone * 2 ^ 27
  else if o = 0x120002C then (dumpOf s (bit (regGet s 0x1200028) 30)).length
  else if 0x1201000 ≤ o ∧ o < 0x1221000 then fieldAt (recBytes (tget noRec e.recs ((o - 0x1201000) / 32))) (o % 32) 4
  else regGet s o

/-- CSB (R762, R763). -/
def csbWord (s : State) (o : Nat) : Nat :=
  if o = 0x1300000 then
    b2n (confMode s) * 2 ^ 31 + b2n s.csb.debugUsed * 2 ^ 30 + s.csb.sessions.length * 2 ^ 16 +
      (((List.range 12).filter (fun p => s.csb.bindings.any (fun b => decide (b.part = p)))).map (fun p => 2 ^ p)).foldl
        (fun x y => x + y) 0
  else if 0x1300100 ≤ o ∧ o < 0x1300130 then
    let x : Scrub := tget {} s.csb.scrub ((o - 0x1300100) / 4)
    x.state % 4 * 2 ^ 30 + x.step % 8 * 2 ^ 16 + x.seq % 2 ^ 16
  else 0

/-- The word at an offset of BAR0, whatever the state of the block.
An offset that holds no register (all of LSQ_, the gaps of the other regions, DBG_ beyond its storage) reads 0 and ignores
writes: DESIGN CHOICE (log entry 135). -/
def word0 (s : State) (o : Nat) : Nat :=
  match wide0 s (o / 8 * 8) with
  | some x => if o % 8 = 0 then x % 2 ^ 32 else x / 2 ^ 32 % 2 ^ 32
  | none =>
    if o < 0x100000 then blkWord s o else if o < 0x200000 then feWord s o else if o < 0x400000 then 0
    else if o < 0x800000 then arrWord s o else if o < 0xA00000 then lceWord s o else if o < 0xC00000 then mcWord s o
    else if o < 0xE00000 then fabWord s o else if o < 0xF00000 then icWord s o else if o < 0x1000000 then mbWord s o
    else if o < 0x1100000 then twWord s o else if o < 0x1200000 then pmWord s o else if o < 0x1300000 then errWord s o
    else if o < 0x1400000 then csbWord s o
    else if o < 0x1500000 then (if confMode s then 0 else regGet s o)
    else 0

/-! ## Words of a VAI page (R426-R434) -/

/-- STATE of a queue (R442). -/
def QState.code (x : QState) : Nat :=
  match x with
  | .unused => 0 | .ready => 1 | .stopped => 2 | .resetting => 3 | .fenced => 4 | .busy => 5

/-- The status entry of page queue index i (R432, R433). -/
def queueWord (s : State) (v i o : Nat) : Nat :=
  match queueOfPage s v i with
  | none => if o = 0 then 0x3FF else 0
  | some q =>
    let x := queueAt s q
    match o with
    | 0x00 => x.state.code * 2 ^ 29 + b2n x.cqFull * 2 ^ 28 + x.gen % 256 * 2 ^ 20 + x.lastStatus % 256 * 2 ^ 12 + q
    | 0x04 => x.sqHead | 0x08 => x.sqTail | 0x0C => x.cqTail | 0x10 => x.cqHead | 0x14 => x.faultPos | 0x18 => x.drops
    | _ => 0

/-- VAI_STATUS (R429). -/
def vaiStatus (s : State) (v : Nat) : Nat :=
  let x := vaiAt s v
  (if x.restoring then 3 else if x.state = 3 then 1 else x.state) * 2 ^ 30 + (queuesOf s v).length * 2 ^ 16 +
    b2n (confVai s v) * 2 ^ 8

/-- The word at an offset of the page of VAI v. -/
def word2 (s : State) (v o : Nat) : Nat :=
  match wide2 s v (o / 8 * 8) with
  | some x => if o % 8 = 0 then x % 2 ^ 32 else x / 2 ^ 32 % 2 ^ 32
  | none =>
    if o = 0 then field (regGet s 0x4) 0 16 * 2 ^ 8 + v
    else if o = 4 then vaiStatus s v
    else if o = 8 then (vaiAt s v).drops
    else if o = 0x18 then s.pm.thrLast % 2 * 2 ^ 31 + (if confVai s v then 0 else 100 * effRate s)
    else if 0x100 ≤ o ∧ o < 0x200 then boxRegWord s v (o - 0x100)
    else if 0x200 ≤ o ∧ o < 0x210 then regGet s (0x4000000 + 0x10000 * v + o)
    else if o = 0x210 then (vaiAt s v).evTail
    else if 0x1000 ≤ o ∧ o < 0x2000 then queueWord s v ((o - 0x1000) / 0x40) (o % 0x40)
    else 0

/-! ## Reads -/

/-- A register answers: the BLK region whenever IREQ is ready, the rest of BAR0 from READY on, BAR2 outside a block reset and while in
service (R35, R37, R717). -/
def answers (s : State) (bar : Sys2Proof.Bar) (off : Nat) : Bool :=
  match bar with
  | .bar0 => decide (off < 0x100000) || regsOn s
  | .bar2 => inService s && !resetWindow s

/-- The value a register holds for a reader, before any latch. -/
def liveWord (s : State) (bar : Sys2Proof.Bar) (off : Nat) : Nat :=
  if !answers s bar off then allBits
  else match bar with
    | .bar0 => word0 s off
    | .bar2 => word2 s (off / 0x10000) (off % 0x10000)

/-- The 64-bit register whose low word is read. -/
def wideAt (s : State) (bar : Sys2Proof.Bar) (off : Nat) : Option Nat :=
  if off % 8 ≠ 0 then none
  else match bar with
    | .bar0 => wide0 s off
    | .bar2 => wide2 s (off / 0x10000) (off % 0x10000)

/-- A key for the latch: BAR2 beyond BAR0. -/
def latchKey (bar : Sys2Proof.Bar) (off : Nat) : Nat :=
  match bar with
  | .bar0 => off
  | .bar2 => 0x4000000 + off

/-- The registers with fields that a read clears (R20): cleared by their read. -/
def clearRc (bar : Sys2Proof.Bar) (off : Nat) (s : State) : Option State :=
  match bar with
  | .bar0 =>
    if off = 0x100010 then some { s with fe := { s.fe with broken := 0 } }
    else if 0x108000 ≤ off ∧ off < 0x10C000 ∧ off % 0x20 = 0x10 then
      some (modCtx ((off - 0x108000) / 0x20) (fun x => { x with kind := 0, source := 0, count := 0 }) s)
    else if 0x108000 ≤ off ∧ off < 0x10C000 ∧ off % 0x20 = 0x14 then
      some (modCtx ((off - 0x108000) / 0x20) (fun x => { x with late := 0 }) s)
    else if off = 0x402020 then some { s with arr := { s.arr with poolPeak := poolUsed s } }
    else if 0xA10000 ≤ off ∧ off < 0xA1C000 ∧ off % 0x40 = 4 then some (modTg ((off - 0xA10000) / 0x40) (fun x => { x with errors := 0 }) s)
    else if off = 0xF00044 then some (modBox 256 (fun x => { x with discards := 0 }) s)
    else if off = 0xF00144 then some (modBox 257 (fun x => { x with discards := 0 }) s)
    else if off = 0x1100210 then some { s with pm := { s.pm with jumps := 0 } }
    else if off = 0x1100318 then some { s with pm := { s.pm with lost := 0 } }
    else if off = 0x1200014 then some { s with err := { s.err with lost := 0 } }
    else none
  | .bar2 =>
    let v := off / 0x10000
    let o := off % 0x10000
    if o = 8 then some (modVai v (fun x => { x with drops := 0 }) s)
    else if o = 0x144 then some (modBox v (fun x => { x with discards := 0 }) s)
    else if 0x1000 ≤ o ∧ o < 0x2000 ∧ o % 0x40 = 0x18 then
      some (match queueOfPage s v ((o - 0x1000) / 0x40) with
        | some q => modQueue q (fun x => { x with drops := 0 }) s
        | none => s)
    else none

/-- A read of a register without RC fields. The low word of a 64-bit register latches the high word for the requester; that
requester's next read of the high word returns it (R16). -/
def readPlain (bar : Sys2Proof.Bar) (req off : Nat) (s : State) : State :=
  let k := latchKey bar off
  if !answers s bar off then emit (.regRead req (w32 allBits)) s
  else match wideAt s bar off with
    | some x =>
      let l := s.blk.hiLatch.filter (fun e => decide (e.1 ≠ req ∨ e.2.1 ≠ k))
      emit (.regRead req (w32 x)) { s with blk := { s.blk with hiLatch := l ++ [(req, k, w32 (x / 2 ^ 32))] } }
    | none =>
      match s.blk.hiLatch.find? (fun e => decide (e.1 = req ∧ e.2.1 + 4 = k)) with
      | some e => emit (.regRead req e.2.2) { s with blk := { s.blk with hiLatch := s.blk.hiLatch.erase e } }
      | none => emit (.regRead req (w32 (liveWord s bar off))) s

/-- LOW_WORD_READ (R16): a read of a word of BAR0 or BAR2 that clears nothing. The low word latches the high word. -/
def execLowWordRead (bar : Sys2Proof.Bar) (req off : Nat) (s : State) : Host.Outcome State Fault Refusal :=
  run s (guarded (s.blk.ireqReady && decide (off % 4 = 0) && (clearRc bar off s).isNone) (readPlain bar req off))

/-- RC_FIELD_READ (R20): the read returns the value, then the RC fields of the register are cleared. -/
def execRcFieldRead (bar : Sys2Proof.Bar) (req off : Nat) (s : State) : Host.Outcome State Fault Refusal :=
  run s (guarded s.blk.ireqReady (fun s =>
    match clearRc bar off s with
    | none => s
    | some t =>
      if answers s bar off then emit (.regRead req (w32 (liveWord s bar off))) t else emit (.regRead req (w32 allBits)) s))

/-! ## Writes -/

/-- A write of this value to this register is a step of its own (R14): a start bit, or a field with a behaviour. -/
def ownWrite (s : State) (off : Nat) (val : W32) : Bool :=
  let v := val.toNat
  (off == 0x30 && bit v 31) || (off == 0x1200028 && bit v 31) ||
    (decide (0x101000 ≤ off ∧ off < 0x104000 ∧ off % 0x400 = 8) && bit v 31) ||
    (off == 0x1100000 && field v 29 3 != maxState s) ||
    (decide (0xC01000 ≤ off ∧ off < 0xC01800 ∧ off % 0x100 = 0) &&
      (field v 30 2 != portMode s ((off - 0xC01000) / 0x100) || bit v 26 || bit v 29)) ||
    (decide (0xE80000 ≤ off ∧ off < 0xE81010 ∧ off % 0x10 = 0xC) && !bit v 0)

/-- Word i of a mailbox, written by its sender: in IDLE only (R650). -/
def boxWrite (b i : Nat) (val : W32) (s : State) : State :=
  if (boxAt s b).state = .idle then modBox b (fun x => { x with words := lset x.words i val }) s
  else modBox b (fun x => { x with discards := sat 8 (x.discards + 1) }) s

/-- The range of window w, in bytes: valid memory windows only (R391). -/
def memWindow (s : State) (w : Nat) : Option (Nat × Nat) :=
  let o := 0xC20000 + 0x10 * w
  if bit (regGet s (o + 12)) 31 && field (regGet s (o + 12)) 29 2 == 0 then
    some (regGet s (o + 4) * 65536, regGet s o * 65536)
  else none

/-- A memory window lies within the far tier or within near-tier scratch (R8, R336). -/
def windowFits (r : Nat × Nat) : Bool :=
  decide (r.1 + r.2 ≤ farTop) || decide (scratchBase ≤ r.1 ∧ r.1 + r.2 ≤ scratchBase + 2 ^ 32)

/-- A write into the window table: a window that reaches beyond memory is logged (R336). -/
def windowCheck (off : Nat) (s : State) : State :=
  if 0xC20000 ≤ off ∧ off < 0xC21000 then
    match memWindow s ((off - 0xC20000) / 0x10) with
    | some r => if windowFits r then s else reportCe 0 0 0x05 0 s
    | none => s
  else s

/-- A write to BAR0. -/
def write0 (off : Nat) (val : W32) (s : State) : State :=
  if ownWrite s off val then s
  else if 0xF00000 ≤ off ∧ off < 0xF00020 then boxWrite 256 ((off - 0xF00000) / 4) val s
  else if 0xF00100 ≤ off ∧ off < 0xF00120 then boxWrite 257 ((off - 0xF00100) / 4) val s
  else if 0x1400000 ≤ off ∧ off < 0x1500000 then
    if confMode s then reportCe 0 0 0x05 0 s
    else regWrite off val.toNat { s with csb := { s.csb with debugUsed := true } }
  else windowCheck off (regWrite off val.toNat s)

/-- A write to a VAI page. -/
def write2 (v o : Nat) (val : W32) (s : State) : State :=
  if resetWindow s then hostCe s
  else if 0x100 ≤ o ∧ o < 0x120 then boxWrite v ((o - 0x100) / 4) val s
  else if 0x200 ≤ o ∧ o < 0x20C then regWrite (0x4000000 + 0x10000 * v + o) val.toNat s
  else s

/-- REGISTER_WRITE (R14, R18, R34, R35, R37): the RW fields of a register, and its RWL fields until the lock, take the value. A
write with EP set is discarded with a CE. Before READY only the recovery registers take writes. -/
def execRegisterWrite (bar : Sys2Proof.Bar) (off : Nat) (val : W32) (ep : Bool) (s : State) : Host.Outcome State Fault Refusal :=
  run s (guarded (s.blk.ireqReady && decide (off % 4 = 0)) (fun s =>
    if regsOn s then
      if ep then hostCe s
      else match bar with
        | .bar0 => write0 off val s
        | .bar2 => write2 (off / 0x10000) (off % 0x10000) val s
    else if bar = Sys2Proof.Bar.bar0 ∧ (off = 0x30 ∨ off = 0x34 ∨ off = 0x38) ∧ ep = false then write0 off val s
    else s))

end Sys2Proof.Machine
end

