-- ==== Sys2Proof/Machine/Dispatch.lean ====
section
/-!
DEFINITION. The one match from commands to their meanings.
-/
namespace Sys2Proof.Machine
open Sys2Proof

def exec (i : Instr) (s : State) : Host.Outcome State Fault Refusal :=
  match i with
  | .coldResetRelease => Sys2Proof.Machine.execColdResetRelease s
  | .coldResetAssert => Sys2Proof.Machine.execColdResetAssert s
  | .ireqReadyAssert => Sys2Proof.Machine.execIreqReadyAssert s
  | .bar4Read off len tag ecc => Sys2Proof.Machine.execBar4Read off len tag ecc s
  | .bar4Write off data ep => Sys2Proof.Machine.execBar4Write off data ep s
  | .cmemRequest write addr tag data poison ecc => Sys2Proof.Machine.execCmemRequest write addr tag data poison s ecc
  | .barAccessMalformed bar write off size tag ep => Sys2Proof.Machine.execBarAccessMalformed bar write off size tag ep s
  | .registerWrite bar off val ep => Sys2Proof.Machine.execRegisterWrite bar off val ep s
  | .lowWordRead bar req off => Sys2Proof.Machine.execLowWordRead bar req off s
  | .rcFieldRead bar req off => Sys2Proof.Machine.execRcFieldRead bar req off s
  | .ocplCompletion tag status ep data => Sys2Proof.Machine.execOcplCompletion tag status ep data s
  | .oreqCompletionTimeout tag => Sys2Proof.Machine.execOreqCompletionTimeout tag s
  | .hapLinkDown pins => Sys2Proof.Machine.execHapLinkDown s pins
  | .hapFlr => Sys2Proof.Machine.execHapFlr s
  | .doeMessage data => Sys2Proof.Machine.execDoeMessage data s
  | .clockLoss clk => Sys2Proof.Machine.execClockLoss clk s
  | .mcClockWaitExpiry => Sys2Proof.Machine.execMcClockWaitExpiry s
  | .phyUpdateRequest n master => Sys2Proof.Machine.execPhyUpdateRequest n master s
  | .eapDone e tag status cycles => Sys2Proof.Machine.execEapDone e tag status cycles s
  | .eapMreq e tag op va len data host mem => Sys2Proof.Machine.execEapMreq e tag op va len data host s mem
  | .cancelAck e tag => Sys2Proof.Machine.execCancelAck e tag s
  | .cancelTimeout e tag => Sys2Proof.Machine.execCancelTimeout e tag s
  | .eapFatal e => Sys2Proof.Machine.execEapFatal e s
  | .blkLock val => Sys2Proof.Machine.execBlkLock val s
  | .fabLock val => Sys2Proof.Machine.execFabLock val s
  | .throttleAssert => Sys2Proof.Machine.execThrottleAssert s
  | .throttleRelease => Sys2Proof.Machine.execThrottleRelease s
  | .telemetryFrame n frame => Sys2Proof.Machine.execTelemetryFrame n frame s
  | .telemetryChannelLost n => Sys2Proof.Machine.execTelemetryChannelLost n s
  | .beatInEdge => Sys2Proof.Machine.execBeatInEdge s
  | .beatBoundary => Sys2Proof.Machine.execBeatBoundary s
  | .tapInstruction ir => Sys2Proof.Machine.execTapInstruction ir s
  | .mctpControlMessage msg => Sys2Proof.Machine.execMctpControlMessage msg s
  | .pldmRequest type sensor => Sys2Proof.Machine.execPldmRequest type sensor s
  | .accParityError p => Sys2Proof.Machine.execAccParityError p s
  | .lockstepMismatch p => Sys2Proof.Machine.execLockstepMismatch p s
  | .nop l ecc => Sys2Proof.Machine.execNop l s ecc
  | .endTask l ecc => Sys2Proof.Machine.execEndTask l s ecc
  | .br l ecc => Sys2Proof.Machine.execBr l s ecc
  | .brc l ecc => Sys2Proof.Machine.execBrc l s ecc
  | .call l ecc => Sys2Proof.Machine.execCall l s ecc
  | .ret l ecc => Sys2Proof.Machine.execRet l s ecc
  | .loop l ecc => Sys2Proof.Machine.execLoop l s ecc
  | .cheap l ecc => Sys2Proof.Machine.execCheap l s ecc
  | .rdflag l ecc => Sys2Proof.Machine.execRdflag l s ecc
  | .clrflag l ecc => Sys2Proof.Machine.execClrflag l s ecc
  | .addi l ecc => Sys2Proof.Machine.execAddi l s ecc
  | .add l ecc => Sys2Proof.Machine.execAdd l s ecc
  | .sub l ecc => Sys2Proof.Machine.execSub l s ecc
  | .mul l ecc => Sys2Proof.Machine.execMul l s ecc
  | .shl l ecc => Sys2Proof.Machine.execShl l s ecc
  | .shr l ecc => Sys2Proof.Machine.execShr l s ecc
  | .and l ecc => Sys2Proof.Machine.execAnd l s ecc
  | .or l ecc => Sys2Proof.Machine.execOr l s ecc
  | .movi l ecc => Sys2Proof.Machine.execMovi l s ecc
  | .movhi l ecc => Sys2Proof.Machine.execMovhi l s ecc
  | .cmp l ecc => Sys2Proof.Machine.execCmp l s ecc
  | .fop l ecc => Sys2Proof.Machine.execFop l s ecc
  | .gcfg l ecc => Sys2Proof.Machine.execGcfg l s ecc
  | .gzero l ecc => Sys2Proof.Machine.execGzero l s ecc
  | .gload l ecc => Sys2Proof.Machine.execGload l s ecc
  | .gstep l ecc n => Sys2Proof.Machine.execGstep l ecc s n
  | .drain l ecc n => Sys2Proof.Machine.execDrain l s ecc n
  | .vecFp32Op l ecc => Sys2Proof.Machine.execVecFp32Op l s ecc
  | .vecInt32Op l ecc => Sys2Proof.Machine.execVecInt32Op l s ecc
  | .vld l ecc => Sys2Proof.Machine.execVld l ecc s
  | .vst l ecc => Sys2Proof.Machine.execVst l s ecc
  | .cvt l ecc => Sys2Proof.Machine.execCvt l s ecc
  | .qblk l ecc => Sys2Proof.Machine.execQblk l s ecc
  | .qt2 l ecc => Sys2Proof.Machine.execQt2 l s ecc
  | .deq l ecc => Sys2Proof.Machine.execDeq l s ecc
  | .load l ecc => Sys2Proof.Machine.execLoad l s ecc
  | .store l ecc n => Sys2Proof.Machine.execStore l s ecc n
  | .loads l ecc => Sys2Proof.Machine.execLoads l s ecc
  | .stores l ecc n => Sys2Proof.Machine.execStores l s ecc n
  | .openwin l ecc => Sys2Proof.Machine.execOpenwin l s ecc
  | .closewin l ecc => Sys2Proof.Machine.execClosewin l s ecc
  | .fence l ecc => Sys2Proof.Machine.execFence l s ecc
  | .signal l ecc => Sys2Proof.Machine.execSignal l s ecc
  | .wait l ecc => Sys2Proof.Machine.execWait l s ecc
  | .takewait l ecc => Sys2Proof.Machine.execTakewait l s ecc
  | .barrier l ecc => Sys2Proof.Machine.execBarrier l s ecc
  | .atom l ecc mem => Sys2Proof.Machine.execAtom l s ecc mem
  | .enq l ecc => Sys2Proof.Machine.execEnq l s ecc
  | .alloc l ecc => Sys2Proof.Machine.execAlloc l s ecc
  | .free l ecc => Sys2Proof.Machine.execFree l s ecc
  | .hpush l ecc => Sys2Proof.Machine.execHpush l s ecc
  | .hpop l ecc => Sys2Proof.Machine.execHpop l s ecc
  | .ptest l ecc => Sys2Proof.Machine.execPtest l s ecc
  | .loadComplete l ecc => Sys2Proof.Machine.execLoadComplete l ecc s
  | .storeAck l => Sys2Proof.Machine.execStoreAck l s
  | .atomReply l => Sys2Proof.Machine.execAtomReply l s
  | .taskStart l host => Sys2Proof.Machine.execTaskStart l host s
  | .graceExpiry l => Sys2Proof.Machine.execGraceExpiry l s
  | .saveComplete l ecc => Sys2Proof.Machine.execSaveComplete l s ecc
  | .restoreComplete l ecc => Sys2Proof.Machine.execRestoreComplete l s ecc
  | .waitTimeout l => Sys2Proof.Machine.execWaitTimeout l s
  | .lookup n host => Sys2Proof.Machine.execLookup n host s
  | .runFetchData n key ecc => Sys2Proof.Machine.execRunFetchData n key ecc s
  | .update n host => Sys2Proof.Machine.execUpdate n host s
  | .epochFence n host => Sys2Proof.Machine.execEpochFence n host s
  | .epochFenceComplete n => Sys2Proof.Machine.execEpochFenceComplete n s
  | .lkpPart p => Sys2Proof.Machine.execLkpPart p s
  | .lkpRsp p => Sys2Proof.Machine.execLkpRsp p s
  | .remoteLookupTimeout sub => Sys2Proof.Machine.execRemoteLookupTimeout sub s
  | .sketchDecay p => Sys2Proof.Machine.execSketchDecay p s
  | .hrcConfigWrite p val => Sys2Proof.Machine.execHrcConfigWrite p val s
  | .lceInternalError n => Sys2Proof.Machine.execLceInternalError n s
  | .nearTierModeWrite val => Sys2Proof.Machine.execNearTierModeWrite val s
  | .nearTierStepZeroed => Sys2Proof.Machine.execNearTierStepZeroed s
  | .cacheInvalidationDone => Sys2Proof.Machine.execCacheInvalidationDone s
  | .patrolRead addr syms => Sys2Proof.Machine.execPatrolRead addr syms s
  | .granuleMoveDone old => Sys2Proof.Machine.execGranuleMoveDone old s
  | .refresh c => Sys2Proof.Machine.execRefresh c s
  | .stackTempRead temps => Sys2Proof.Machine.execStackTempRead temps s
  | .mcInternalError c => Sys2Proof.Machine.execMcInternalError c s
  | .runTime c => Sys2Proof.Machine.execRunTime c s
  | .rgCfgWrite r val => Sys2Proof.Machine.execRgCfgWrite r val s
  | .tgStart c => Sys2Proof.Machine.execTgStart c s
  | .tgStop c faults => Sys2Proof.Machine.execTgStop c s faults
  | .tgRunDone c faults => Sys2Proof.Machine.execTgRunDone c faults s
  | .flitReceive p flit cor unc => Sys2Proof.Machine.execFlitReceive p flit s cor unc
  | .ackTimeout p => Sys2Proof.Machine.execAckTimeout p s
  | .trainSet p set good intact => Sys2Proof.Machine.execTrainSet p set s good intact
  | .degradeSet p high intact => Sys2Proof.Machine.execDegradeSet p high s intact
  | .beatOrderedSet p set intact => Sys2Proof.Machine.execBeatOrderedSet p set s intact
  | .delayReqSend p t1 => Sys2Proof.Machine.execDelayReqSend p t1 s
  | .delayReq p t1 t2 t3 intact => Sys2Proof.Machine.execDelayReq p t1 t2 t3 s intact
  | .delayRsp p t1 t2 t3 t4 intact => Sys2Proof.Machine.execDelayRsp p t1 t2 t3 t4 s intact
  | .readRequest p ecc => Sys2Proof.Machine.execReadRequest p s ecc
  | .writeRequest p => Sys2Proof.Machine.execWriteRequest p s
  | .writeLs p => Sys2Proof.Machine.execWriteLs p s
  | .addRequest p ecc => Sys2Proof.Machine.execAddRequest p s ecc
  | .fadd p ecc => Sys2Proof.Machine.execFadd p s ecc
  | .cas p ecc => Sys2Proof.Machine.execCas p s ecc
  | .tsig p => Sys2Proof.Machine.execTsig p s
  | .fwmsg p => Sys2Proof.Machine.execFwmsg p s
  | .readRsp p => Sys2Proof.Machine.execReadRsp p s
  | .ackResponse p => Sys2Proof.Machine.execAckResponse p s
  | .atomRsp p => Sys2Proof.Machine.execAtomRsp p s
  | .reservedOpcDiscard p => Sys2Proof.Machine.execReservedOpcDiscard p s
  | .packetForward p => Sys2Proof.Machine.execPacketForward p s
  | .requestTimeout tag => Sys2Proof.Machine.execRequestTimeout tag s
  | .ethernetFrame p frame cor unc => Sys2Proof.Machine.execEthernetFrame p frame s cor unc
  | .retransmitTimeout k => Sys2Proof.Machine.execRetransmitTimeout k s
  | .rateRecovery k => Sys2Proof.Machine.execRateRecovery k s
  | .ptpMessage p event sent stamp => Sys2Proof.Machine.execPtpMessage p s event sent stamp
  | .laneFailure p lane => Sys2Proof.Machine.execLaneFailure p lane s
  | .holdTimeout p => Sys2Proof.Machine.execHoldTimeout p s
  | .portTrainingRetry p => Sys2Proof.Machine.execPortTrainingRetry p s
  | .portModeWrite p val => Sys2Proof.Machine.execPortModeWrite p val s
  | .portRetrain p val => Sys2Proof.Machine.execPortRetrain p val s
  | .flowPortChange dst ch => Sys2Proof.Machine.execFlowPortChange dst ch s
  | .beatUpstreamLoss => Sys2Proof.Machine.execBeatUpstreamLoss s
  | .fabricTableError p data => Sys2Proof.Machine.execFabricTableError p s data
  | .sgCreate v host => Sys2Proof.Machine.execSgCreate v host s
  | .sgRestart v host => Sys2Proof.Machine.execSgRestart v host s
  | .sgDestroy v => Sys2Proof.Machine.execSgDestroy v s
  | .stepGate seq host => Sys2Proof.Machine.execStepGate seq host s
  | .gateExpiry seq => Sys2Proof.Machine.execGateExpiry seq s
  | .kvPass seq host => Sys2Proof.Machine.execKvPass seq host s
  | .kvPassCopyStart seq host => Sys2Proof.Machine.execKvPassCopyStart seq host s
  | .batchEdit seq host => Sys2Proof.Machine.execBatchEdit seq host s
  | .dbSqTail v q val => Sys2Proof.Machine.execDbSqTail v q val s
  | .dbCqHead v q val => Sys2Proof.Machine.execDbCqHead v q val s
  | .dbArm v q val => Sys2Proof.Machine.execDbArm v q val s
  | .queueCreate v host => Sys2Proof.Machine.execQueueCreate v host s
  | .queueDestroy v => Sys2Proof.Machine.execQueueDestroy v s
  | .queueResume v => Sys2Proof.Machine.execQueueResume v s
  | .nopCommand q host => Sys2Proof.Machine.execNopCommand q host s
  | .task q host => Sys2Proof.Machine.execTask q host s
  | .launch q host => Sys2Proof.Machine.execLaunch q host s
  | .patch q host recs => Sys2Proof.Machine.execPatch q host recs s
  | .waitCommand q host => Sys2Proof.Machine.execWaitCommand q host s
  | .signalCommand q host => Sys2Proof.Machine.execSignalCommand q host s
  | .signalPerform q => Sys2Proof.Machine.execSignalPerform q s
  | .graphRegister v host => Sys2Proof.Machine.execGraphRegister v host s
  | .graphRelease v => Sys2Proof.Machine.execGraphRelease v s
  | .fenceCreate v => Sys2Proof.Machine.execFenceCreate v s
  | .fenceDestroy v => Sys2Proof.Machine.execFenceDestroy v s
  | .fenceSignal v => Sys2Proof.Machine.execFenceSignal v s
  | .fenceQuery v => Sys2Proof.Machine.execFenceQuery v s
  | .hqCreate v => Sys2Proof.Machine.execHqCreate v s
  | .hqDestroy v => Sys2Proof.Machine.execHqDestroy v s
  | .completionEntryWrite q => Sys2Proof.Machine.execCompletionEntryWrite q s
  | .queueLoad q slot => Sys2Proof.Machine.execQueueLoad q slot s
  | .queueUnload q => Sys2Proof.Machine.execQueueUnload q s
  | .walkerBind launch walker => Sys2Proof.Machine.execWalkerBind launch walker s
  | .dispatch seq => Sys2Proof.Machine.execDispatch seq s
  | .taskSteal k => Sys2Proof.Machine.execTaskSteal k s
  | .turnBoundary p => Sys2Proof.Machine.execTurnBoundary p s
  | .roundBoundary => Sys2Proof.Machine.execRoundBoundary s
  | .watchdogExpiry seq => Sys2Proof.Machine.execWatchdogExpiry seq s
  | .deadlockScan rings => Sys2Proof.Machine.execDeadlockScan rings s
  | .turnTableCommit p val => Sys2Proof.Machine.execTurnTableCommit p val s
  | .roundLengthWrite val => Sys2Proof.Machine.execRoundLengthWrite val s
  | .partSchedWrite p val => Sys2Proof.Machine.execPartSchedWrite p val s
  | .twSet v => Sys2Proof.Machine.execTwSet v s
  | .twGet v => Sys2Proof.Machine.execTwGet v s
  | .barrierBind v => Sys2Proof.Machine.execBarrierBind v s
  | .barrierUnbind v => Sys2Proof.Machine.execBarrierUnbind v s
  | .ctxCreate => Sys2Proof.Machine.execCtxCreate s
  | .ctxDestroy box => Sys2Proof.Machine.execCtxDestroy box s
  | .teardownDrainExpiry c => Sys2Proof.Machine.execTeardownDrainExpiry c s
  | .objectDestroy => Sys2Proof.Machine.execObjectDestroy s
  | .allocationZeroed a => Sys2Proof.Machine.execAllocationZeroed a s
  | .xlatInval v => Sys2Proof.Machine.execXlatInval v s
  | .memAlloc v => Sys2Proof.Machine.execMemAlloc v s
  | .memLookup v => Sys2Proof.Machine.execMemLookup v s
  | .memShare v => Sys2Proof.Machine.execMemShare v s
  | .memUnmap v => Sys2Proof.Machine.execMemUnmap v s
  | .memRef v => Sys2Proof.Machine.execMemRef v s
  | .memUnref v => Sys2Proof.Machine.execMemUnref v s
  | .vaiCreate => Sys2Proof.Machine.execVaiCreate s
  | .vaiDestroy => Sys2Proof.Machine.execVaiDestroy s
  | .vaiGrant => Sys2Proof.Machine.execVaiGrant s
  | .revokeZeroed scratch k => Sys2Proof.Machine.execRevokeZeroed scratch k s
  | .partScratch => Sys2Proof.Machine.execPartScratch s
  | .reconfig => Sys2Proof.Machine.execReconfig s
  | .reconfigDrainExpiry => Sys2Proof.Machine.execReconfigDrainExpiry s
  | .scrubComplete p => Sys2Proof.Machine.execScrubComplete p s
  | .migStart => Sys2Proof.Machine.execMigStart s
  | .migStop => Sys2Proof.Machine.execMigStop s
  | .migHarvest => Sys2Proof.Machine.execMigHarvest s
  | .vaiPause => Sys2Proof.Machine.execVaiPause s
  | .vaiResume => Sys2Proof.Machine.execVaiResume s
  | .migStateSave => Sys2Proof.Machine.execMigStateSave s
  | .migStateLoad host => Sys2Proof.Machine.execMigStateLoad host s
  | .mbPost box val => Sys2Proof.Machine.execMbPost box val s
  | .mailboxTake box => Sys2Proof.Machine.execMailboxTake box s
  | .mbAckRelease box val => Sys2Proof.Machine.execMbAckRelease box val s
  | .eventRecordWrite target => Sys2Proof.Machine.execEventRecordWrite target s
  | .holdoffExpiry g => Sys2Proof.Machine.execHoldoffExpiry g s
  | .pendingClear n => Sys2Proof.Machine.execPendingClear n s
  | .swset n => Sys2Proof.Machine.execSwset n s
  | .icSync req => Sys2Proof.Machine.execIcSync req s
  | .sourceConfigWrite n val => Sys2Proof.Machine.execSourceConfigWrite n val s
  | .eventQueueHeadWrite target val => Sys2Proof.Machine.execEventQueueHeadWrite target val s
  | .heartbeat proc => Sys2Proof.Machine.execHeartbeat proc s
  | .stewardHang sw => Sys2Proof.Machine.execStewardHang sw s
  | .csbImageCheck => Sys2Proof.Machine.execCsbImageCheck s
  | .strataBondTest match0 match1 fail0 fail1 bad => Sys2Proof.Machine.execStrataBondTest match0 match1 fail0 fail1 bad s
  | .stackTraining failed chans step samples => Sys2Proof.Machine.execStackTraining failed chans s step samples
  | .portTrainingTimeout => Sys2Proof.Machine.execPortTrainingTimeout s
  | .reportReady ms => Sys2Proof.Machine.execReportReady ms s
  | .recoveryGo val => Sys2Proof.Machine.execRecoveryGo val s
  | .fwStage host => Sys2Proof.Machine.execFwStage host s
  | .fwHandover => Sys2Proof.Machine.execFwHandover s
  | .handoverStart => Sys2Proof.Machine.execHandoverStart s
  | .handoverComplete => Sys2Proof.Machine.execHandoverComplete s
  | .handoverTimeout => Sys2Proof.Machine.execHandoverTimeout s
  | .fwCommit => Sys2Proof.Machine.execFwCommit s
  | .flashWriteDone => Sys2Proof.Machine.execFlashWriteDone s
  | .fwAbort => Sys2Proof.Machine.execFwAbort s
  | .arraySwap own => Sys2Proof.Machine.execArraySwap own s
  | .sectorOffline => Sys2Proof.Machine.execSectorOffline s
  | .sectorOnline => Sys2Proof.Machine.execSectorOnline s
  | .arrayGate p => Sys2Proof.Machine.execArrayGate p s
  | .stackSelfRefreshEntry n => Sys2Proof.Machine.execStackSelfRefreshEntry n s
  | .sectorDozeEntry n => Sys2Proof.Machine.execSectorDozeEntry n s
  | .blockRestEntry => Sys2Proof.Machine.execBlockRestEntry s
  | .wakeComplete u => Sys2Proof.Machine.execWakeComplete u s
  | .prewake u => Sys2Proof.Machine.execPrewake u s
  | .vaiWakeTol => Sys2Proof.Machine.execVaiWakeTol s
  | .cpbRateChoice load => Sys2Proof.Machine.execCpbRateChoice load s
  | .beatSet => Sys2Proof.Machine.execBeatSet s
  | .masterElection => Sys2Proof.Machine.execMasterElection s
  | .beatSourceLoss => Sys2Proof.Machine.execBeatSourceLoss s
  | .ledgerSnapshot => Sys2Proof.Machine.execLedgerSnapshot s
  | .ledgerHeadWrite val => Sys2Proof.Machine.execLedgerHeadWrite val s
  | .queueReset q => Sys2Proof.Machine.execQueueReset q s
  | .queueResetSettled q => Sys2Proof.Machine.execQueueResetSettled q s
  | .blockReset => Sys2Proof.Machine.execBlockReset s
  | .blockResetDrainExpiry => Sys2Proof.Machine.execBlockResetDrainExpiry s
  | .resetSequenceEnd => Sys2Proof.Machine.execResetSequenceEnd s
  | .contextRestore sw => Sys2Proof.Machine.execContextRestore sw s
  | .meshFatalError => Sys2Proof.Machine.execMeshFatalError s
  | .breset val => Sys2Proof.Machine.execBreset val s
  | .reinstate val => Sys2Proof.Machine.execReinstate val s
  | .dumpClr val => Sys2Proof.Machine.execDumpClr val s
  | .dumpCopy val => Sys2Proof.Machine.execDumpCopy val s
  | .dumpCopyDone refused => Sys2Proof.Machine.execDumpCopyDone refused s
  | .dumpFlashCopy => Sys2Proof.Machine.execDumpFlashCopy s
  | .errLogHeadWrite val => Sys2Proof.Machine.execErrLogHeadWrite val s
  | .getMeasurements via msg => Sys2Proof.Machine.execGetMeasurements via msg s
  | .keyExchange via msg => Sys2Proof.Machine.execKeyExchange via msg s
  | .endSession via session => Sys2Proof.Machine.execEndSession via session s
  | .spdmMessage via msg => Sys2Proof.Machine.execSpdmMessage via msg s
  | .sessionHeartbeatTimeout session => Sys2Proof.Machine.execSessionHeartbeatTimeout session s
  | .sealBind via session words => Sys2Proof.Machine.execSealBind via session words s
  | .sealWindow via session words => Sys2Proof.Machine.execSealWindow via session words s
  | .sealRotate via session words => Sys2Proof.Machine.execSealRotate via session words s
  | .sealUnbind via session words => Sys2Proof.Machine.execSealUnbind via session words s
  | .spdmXfer host => Sys2Proof.Machine.execSpdmXfer host s
  | .attestReport host => Sys2Proof.Machine.execAttestReport host s
  | .scrubReceipt host => Sys2Proof.Machine.execScrubReceipt host s
  | .remoteUpdateRecords p => Sys2Proof.Machine.execRemoteUpdateRecords p s
  | .hotRowCacheEmptied p => Sys2Proof.Machine.execHotRowCacheEmptied p s
  | .arraySelfTestDone p pass => Sys2Proof.Machine.execArraySelfTestDone p pass s
  | .systemCallReply l => Sys2Proof.Machine.execSystemCallReply l s
  | .dumpFlashCopyDone => Sys2Proof.Machine.execDumpFlashCopyDone s
  | .debugPortAccess req => Sys2Proof.Machine.execDebugPortAccess req s
  | .msixVectorUnmask v val => Sys2Proof.Machine.execMsixVectorUnmask v val s
  | .maxStateWrite val => Sys2Proof.Machine.execMaxStateWrite val s

end Sys2Proof.Machine
end

