-- ==== Sys2Proof/Footprint.lean ====
section
/-!
DEFINITION. Which units of the state a command may write: what a frame statement is written in.
-/
namespace Sys2Proof
open Sys2Proof.Machine

/-- The units of the state. `cells` are the bytes of memory with their poison marks and retirement; `mem` is all of the
memory unit: these and its caches, channels, stacks and test engines. -/
inductive Area where
  | blk
  | regs
  | cells
  | mem
  | rg
  | arr
  | lce
  | fab
  | sg
  | fe
  | tw
  | ic
  | mbx
  | fw
  | pm
  | err
  | csb
  | cmb
  | ports
  | freeCtr
deriving DecidableEq, Repr

/-- A unit holds the same in two states. For memory: every address holds the same byte, the same granules
carry the mark, and the same granules are retired. -/
def same (a : Area) (s t : State) : Prop :=
  match a with
  | .blk => t.blk = s.blk
  | .regs => t.regs = s.regs
  | .cells => (∀ x, tget 0 t.mem.cells x = tget 0 s.mem.cells x) ∧ t.mem.poison = s.mem.poison ∧
      t.mem.retired = s.mem.retired
  | .mem => t.mem = s.mem
  | .rg => t.rg = s.rg
  | .arr => t.arr = s.arr
  | .lce => t.lce = s.lce
  | .fab => t.fab = s.fab
  | .sg => t.sg = s.sg
  | .fe => t.fe = s.fe
  | .tw => t.tw = s.tw
  | .ic => t.ic = s.ic
  | .mbx => t.mbx = s.mbx
  | .fw => t.fw = s.fw
  | .pm => t.pm = s.pm
  | .err => t.err = s.err
  | .csb => t.csb = s.csb
  | .cmb => t.cmb = s.cmb
  | .ports => t.ports = s.ports
  | .freeCtr => t.freeCtr = s.freeCtr

/-- From `s` to `t` no unit outside `w` changes. -/
def Frame (w : List Area) (s t : State) : Prop := ∀ a, a ∉ w → same a s t

/-- The units that a command may write. Shorter lists first; a command that may report an error lists the collector (`err`)
and the interrupt controller (`ic`), one that sends a message the ports, one that draws a free value `freeCtr`. -/
def footprint (i : Instr) : List Area :=
  match i with
  | .ireqReadyAssert => [.blk]
  | .blkLock _ | .fabLock _ => [.regs]
  | .mcClockWaitExpiry | .cacheInvalidationDone | .stackTempRead _ | .tgStart _ => [.mem]
  | .atomReply _ | .arrayGate _ | .systemCallReply _ => [.arr]
  | .sketchDecay _ | .hotRowCacheEmptied _ => [.lce]
  | .delayRsp _ _ _ _ _ _ | .rateRecovery _ => [.fab]
  | .queueLoad _ _ | .queueUnload _ | .walkerBind _ _ => [.fe]
  | .holdoffExpiry _ | .pendingClear _ | .swset _ | .sourceConfigWrite _ _ => [.ic]
  | .sectorDozeEntry _ | .blockRestEntry | .prewake _ => [.pm]
  | .sessionHeartbeatTimeout _ => [.csb]
  | .pldmRequest _ _ | .icSync _ => [.ports]
  | .phyUpdateRequest _ _ => [.blk, .ports]
  | .nearTierModeWrite _ => [.regs, .mem]
  | .rgCfgWrite _ _ => [.regs, .rg]
  | .hrcConfigWrite _ _ => [.regs, .lce]
  | .turnTableCommit _ _ | .roundLengthWrite _ | .partSchedWrite _ _ => [.regs, .fe]
  | .dumpCopy _ => [.regs, .err]
  | .nearTierStepZeroed => [.cells, .mem]
  | .stackSelfRefreshEntry _ => [.mem, .ports]
  | .refresh _ => [.rg, .ports]
  | .taskSteal _ | .turnBoundary _ => [.arr, .fe]
  | .waitTimeout _ => [.arr, .tw]
  | .delayReqSend _ _ | .delayReq _ _ _ _ _ | .fwmsg _ | .packetForward _ | .ethernetFrame _ _ _ _ | .flowPortChange _ _
    => [.fab, .ports]
  | .fenceQuery _ | .twGet _ | .memLookup _ | .mailboxTake _ => [.ic, .mbx]
  | .beatInEdge | .cpbRateChoice _ | .masterElection => [.ic, .pm]
  | .errLogHeadWrite _ => [.ic, .err]
  | .heartbeat _ => [.mbx, .pm]
  | .dumpClr _ | .dumpFlashCopy | .dumpFlashCopyDone => [.fw, .err]
  | .ledgerSnapshot => [.pm, .ports]
  | .blockResetDrainExpiry | .dumpCopyDone _ => [.err, .ports]
  | .tapInstruction _ => [.csb, .ports]
  | .cancelAck _ _ => [.blk, .fe, .ports]
  | .throttleAssert | .throttleRelease => [.blk, .ic, .pm]
  | .hapLinkDown _ | .hapFlr | .cancelTimeout _ _ | .eapFatal _ | .accParityError _ | .lockstepMismatch _
  | .lceInternalError _ | .mcInternalError _ | .stewardHang _ | .meshFatalError | .breset _ => [.blk, .ic, .err]
  | .coldResetRelease => [.blk, .mbx, .pm]
  | .msixVectorUnmask _ _ => [.regs, .ic, .ports]
  | .recoveryGo _ => [.regs, .fw, .ports]
  | .ledgerHeadWrite _ => [.regs, .pm, .ports]
  | .revokeZeroed _ _ => [.cells, .mem, .fe]
  | .graphRelease _ | .fenceDestroy _ | .hqCreate _ | .hqDestroy _ | .xlatInval _ | .memRef _ | .memUnref _ | .vaiCreate
  | .migStart | .migStop => [.fe, .ic, .mbx]
  | .dbSqTail _ _ _ | .dbArm _ _ _ => [.fe, .ic, .err]
  | .eventRecordWrite _ => [.fe, .ic, .ports]
  | .fwHandover | .handoverComplete | .handoverTimeout | .fwCommit | .fwAbort => [.ic, .mbx, .fw]
  | .beatSet => [.ic, .mbx, .pm]
  | .mbPost _ _ | .mbAckRelease _ _ => [.ic, .mbx, .err]
  | .migStateSave => [.ic, .mbx, .ports]
  | .beatSourceLoss => [.ic, .pm, .err]
  | .barAccessMalformed _ _ _ _ _ _ => [.ic, .err, .ports]
  | .mctpControlMessage _ => [.cmb, .ports, .freeCtr]
  | .fabricTableError _ _ | .portTrainingTimeout => [.blk, .fab, .ic, .err]
  | .eventQueueHeadWrite _ _ => [.regs, .ic, .err, .ports]
  | .allocationZeroed _ => [.cells, .mem, .rg, .fe]
  | .wakeComplete _ => [.mem, .arr, .pm, .ports]
  | .vaiPause | .vaiResume => [.arr, .fe, .ic, .mbx]
  | .partScratch => [.lce, .fe, .ic, .mbx]
  | .epochFenceComplete _ => [.lce, .fe, .ic, .err]
  | .beatUpstreamLoss => [.fab, .ic, .pm, .err]
  | .reservedOpcDiscard _ | .portTrainingRetry _ => [.fab, .ic, .err, .ports]
  | .gateExpiry _ => [.sg, .fe, .ic, .err]
  | .barrierBind _ | .barrierUnbind _ => [.fe, .tw, .ic, .mbx]
  | .queueResume _ => [.fe, .ic, .mbx, .err]
  | .migHarvest => [.fe, .ic, .mbx, .ports]
  | .fenceCreate _ => [.fe, .ic, .mbx, .freeCtr]
  | .deadlockScan _ => [.fe, .ic, .pm, .err]
  | .handoverStart => [.ic, .mbx, .fw, .freeCtr]
  | .attestReport _ | .scrubReceipt _ => [.ic, .mbx, .err, .ports]
  | .endSession _ _ | .sealBind _ _ _ | .sealWindow _ _ _ | .sealRotate _ _ _ | .sealUnbind _ _ _
    => [.ic, .mbx, .csb, .ports]
  | .getMeasurements _ _ | .spdmMessage _ _ => [.ic, .mbx, .ports, .freeCtr]
  | .telemetryFrame _ _ | .telemetryChannelLost _ => [.blk, .ic, .pm, .err, .freeCtr]
  | .maxStateWrite _ => [.regs, .mem, .arr, .pm, .ports]
  | .portRetrain _ _ => [.regs, .fab, .ic, .err, .ports]
  | .registerWrite _ _ _ _ => [.regs, .ic, .mbx, .err, .csb]
  | .vaiGrant => [.lce, .fe, .tw, .ic, .mbx]
  | .ctxCreate => [.lce, .fe, .ic, .mbx, .freeCtr]
  | .beatOrderedSet _ _ _ => [.fab, .ic, .pm, .err, .freeCtr]
  | .ptpMessage _ _ _ _ => [.fab, .ic, .pm, .ports, .freeCtr]
  | .sgDestroy _ => [.sg, .fe, .ic, .mbx, .err]
  | .vaiDestroy => [.fe, .tw, .ic, .mbx, .csb]
  | .doeMessage _ | .keyExchange _ _ => [.ic, .mbx, .csb, .ports, .freeCtr]
  | .reportReady _ => [.blk, .regs, .rg, .lce, .ic, .pm]
  | .strataBondTest _ _ _ _ _ => [.blk, .mem, .arr, .ic, .mbx, .err]
  | .roundBoundary => [.regs, .rg, .arr, .fe, .pm, .freeCtr]
  | .patrolRead _ _ | .tgStop _ _ | .tgRunDone _ _ => [.cells, .mem, .rg, .ic, .err, .freeCtr]
  | .objectDestroy => [.arr, .lce, .fe, .ic, .csb, .ports]
  | .spdmXfer _ => [.ic, .mbx, .err, .csb, .ports, .freeCtr]
  | .csbImageCheck | .flashWriteDone => [.blk, .regs, .fab, .ic, .mbx, .fw, .err]
  | .eapDone _ _ _ _ => [.blk, .rg, .fab, .fe, .ic, .err, .ports]
  | .ocplCompletion _ _ _ _ | .oreqCompletionTimeout _ => [.blk, .arr, .fe, .ic, .fw, .err, .ports]
  | .loadComplete _ _ => [.cells, .mem, .rg, .arr, .ic, .err, .freeCtr]
  | .bar4Write _ _ _ => [.cells, .mem, .rg, .fe, .ic, .pm, .err]
  | .granuleMoveDone _ => [.cells, .mem, .rg, .fe, .ic, .err, .freeCtr]
  | .fwStage _ => [.cells, .mem, .fe, .ic, .mbx, .fw, .err]
  | .memAlloc _ | .memShare _ | .memUnmap _ => [.cells, .mem, .fe, .ic, .mbx, .err, .freeCtr]
  | .graceExpiry _ => [.mem, .rg, .arr, .fab, .fe, .tw, .ports]
  | .nopCommand _ _ | .task _ _ | .launch _ _ | .patch _ _ _ | .waitCommand _ _ | .signalCommand _ _
    => [.mem, .rg, .fab, .fe, .ic, .err, .ports]
  | .resetSequenceEnd => [.mem, .rg, .fe, .ic, .pm, .err, .ports]
  | .vaiWakeTol => [.mem, .arr, .fe, .ic, .mbx, .pm, .ports]
  | .rcFieldRead _ _ _ => [.mem, .arr, .fe, .mbx, .pm, .err, .ports]
  | .sectorOnline => [.arr, .lce, .fe, .ic, .mbx, .fw, .pm]
  | .lowWordRead _ _ _ => [.blk, .mem, .arr, .fe, .mbx, .pm, .err, .ports]
  | .writeLs _ => [.cells, .mem, .arr, .fab, .fe, .ic, .err, .ports]
  | .debugPortAccess _ => [.mem, .rg, .arr, .fab, .fe, .tw, .csb, .ports]
  | .taskStart _ _ => [.mem, .rg, .arr, .fab, .fe, .ic, .err, .ports]
  | .epochFence _ _ => [.mem, .rg, .lce, .fab, .fe, .ic, .err, .ports]
  | .stepGate _ _ | .kvPass _ _ => [.mem, .rg, .fab, .sg, .fe, .ic, .err, .ports]
  | .teardownDrainExpiry _ => [.arr, .lce, .fab, .fe, .tw, .ic, .err, .ports]
  | .stackTraining _ _ _ _ => [.blk, .cells, .mem, .rg, .fab, .ic, .err, .ports, .freeCtr]
  | .dispatch _ => [.blk, .mem, .rg, .arr, .lce, .fe, .ic, .err, .ports]
  | .migStateLoad _ => [.cells, .mem, .arr, .lce, .sg, .fe, .tw, .ic, .mbx]
  | .scrubComplete _ => [.cells, .mem, .arr, .lce, .fe, .tw, .ic, .mbx, .csb]
  | .arraySwap _ => [.mem, .rg, .arr, .fab, .fe, .tw, .ic, .mbx, .ports]
  | .queueCreate _ _ | .graphRegister _ _ => [.mem, .rg, .fab, .fe, .ic, .mbx, .err, .ports, .freeCtr]
  | .nop _ _ | .endTask _ _ | .br _ _ | .brc _ _ | .call _ _ | .ret _ _ | .loop _ _ | .rdflag _ _ | .clrflag _ _ | .addi _ _
  | .add _ _ | .sub _ _ | .mul _ _ | .shl _ _ | .shr _ _ | .and _ _ | .or _ _ | .movi _ _ | .movhi _ _ | .cmp _ _ | .fop _ _
  | .gcfg _ _ | .gzero _ _ | .gload _ _ | .gstep _ _ _ | .drain _ _ _ | .vecFp32Op _ _ | .vecInt32Op _ _ | .vld _ _
  | .vst _ _ | .cvt _ _ | .qblk _ _ | .qt2 _ _ | .deq _ _ | .openwin _ _ | .closewin _ _ | .fence _ _ | .wait _ _
  | .takewait _ _ | .barrier _ _ | .enq _ _ | .ptest _ _ | .storeAck _
    => [.rg, .arr, .fab, .fe, .tw, .ic, .err, .ports, .freeCtr]
  | .dbCqHead _ _ _ | .signalPerform _ | .completionEntryWrite _ | .queueResetSettled _
    => [.cells, .mem, .rg, .fab, .fe, .ic, .err, .csb, .ports, .freeCtr]
  | .cheap _ _ | .load _ _ | .loads _ _ | .hpop _ _ => [.mem, .rg, .arr, .fab, .fe, .tw, .ic, .err, .ports, .freeCtr]
  | .atom _ _ _ | .alloc _ _ | .free _ _ | .restoreComplete _ _
    => [.cells, .mem, .rg, .arr, .fab, .fe, .tw, .ic, .err, .ports, .freeCtr]
  | .batchEdit _ _ | .contextRestore _ => [.cells, .mem, .rg, .fab, .sg, .fe, .ic, .err, .csb, .ports, .freeCtr]
  | .fenceSignal _ => [.cells, .mem, .rg, .fab, .fe, .ic, .mbx, .err, .csb, .ports, .freeCtr]
  | .arraySelfTestDone _ _ => [.mem, .rg, .arr, .lce, .fab, .fe, .tw, .ic, .mbx, .fw, .ports]
  | .watchdogExpiry _ => [.blk, .rg, .arr, .lce, .fab, .sg, .fe, .tw, .ic, .err, .ports, .freeCtr]
  | .lookup _ _ | .runFetchData _ _ _ | .lkpPart _ | .remoteLookupTimeout _
    => [.cells, .mem, .rg, .arr, .lce, .fab, .fe, .ic, .err, .csb, .ports, .freeCtr]
  | .saveComplete _ _ => [.cells, .mem, .rg, .arr, .fab, .fe, .tw, .ic, .mbx, .err, .ports, .freeCtr]
  | .store _ _ _ | .stores _ _ _ => [.cells, .mem, .rg, .arr, .fab, .fe, .tw, .ic, .err, .csb, .ports, .freeCtr]
  | .sectorOffline => [.blk, .mem, .rg, .arr, .lce, .fab, .sg, .fe, .ic, .mbx, .fw, .err, .ports]
  | .eapMreq _ _ _ _ _ _ _ _ | .signal _ _ | .hpush _ _ | .runTime _ | .readRequest _ _ | .writeRequest _ | .addRequest _ _
  | .fadd _ _ | .cas _ _ | .tsig _ | .kvPassCopyStart _ _
    => [.cells, .mem, .rg, .arr, .fab, .sg, .fe, .tw, .ic, .err, .csb, .ports, .freeCtr]
  | .update _ _ | .lkpRsp _ | .flitReceive _ _ _ _ | .ackTimeout _ | .degradeSet _ _ _ | .readRsp _ | .ackResponse _
  | .atomRsp _ | .requestTimeout _ | .retransmitTimeout _ | .laneFailure _ _ | .holdTimeout _ | .remoteUpdateRecords _
    => [.cells, .mem, .rg, .arr, .lce, .fab, .sg, .fe, .tw, .ic, .err, .csb, .ports, .freeCtr]
  | .sgCreate _ _ | .sgRestart _ _ | .twSet _
    => [.cells, .mem, .rg, .arr, .fab, .sg, .fe, .tw, .ic, .mbx, .err, .csb, .ports, .freeCtr]
  | .bar4Read _ _ _ _ | .cmemRequest _ _ _ _ _ _
    => [.cells, .mem, .rg, .arr, .fab, .sg, .fe, .tw, .ic, .pm, .err, .csb, .ports, .freeCtr]
  | .clockLoss _ | .queueReset _
    => [.blk, .cells, .mem, .rg, .arr, .lce, .fab, .sg, .fe, .tw, .ic, .err, .csb, .ports, .freeCtr]
  | .portModeWrite _ _ => [.regs, .cells, .mem, .rg, .arr, .lce, .fab, .sg, .fe, .tw, .ic, .err, .csb, .ports, .freeCtr]
  | .trainSet _ _ _ _ => [.cells, .mem, .rg, .arr, .lce, .fab, .sg, .fe, .tw, .ic, .pm, .err, .csb, .ports, .freeCtr]
  | .queueDestroy _ | .ctxDestroy _ | .reconfig | .reconfigDrainExpiry
    => [.blk, .cells, .mem, .rg, .arr, .lce, .fab, .sg, .fe, .tw, .ic, .mbx, .err, .csb, .ports, .freeCtr]
  | .beatBoundary
    => [.blk, .cells, .mem, .rg, .arr, .lce, .fab, .sg, .fe, .tw, .ic, .mbx, .fw, .pm, .err, .csb, .ports, .freeCtr]
  | .blockReset | .reinstate _
    => [.blk, .regs, .cells, .mem, .rg, .arr, .lce, .fab, .sg, .fe, .tw, .ic, .mbx, .fw, .pm, .err, .csb, .ports, .freeCtr]
  | .coldResetAssert
    => [.blk, .regs, .cells, .mem, .rg, .arr, .lce, .fab, .sg, .fe, .tw, .ic, .mbx, .fw, .pm, .err, .csb, .cmb, .ports, .freeCtr]

end Sys2Proof
end

