-- ==== Sys2Proof/Safety.lean ====
section
/-!
DEFINITION. What a healthy state is, when commands act, and what has been done, in the terms the statements use.
-/
namespace Sys2Proof
open Sys2Proof.Machine

/-- REFCLK runs and COLD_RST_N is high: the block acts on commands (R70, R76). -/
def Live (s : State) : Prop := s.blk.coldLow = false ∧ s.blk.stopped = false

/-- The block is in service, and no block reset is under way or due (R670, R709). -/
def Serving (s : State) : Prop := Live s ∧ planeUp s = true

/-- Serving, with the compute clocks on (R681). -/
def Computing (s : State) : Prop := Live s ∧ computeOn s = true

/-- In `u` logical array `l` stands at the word `w`, an operation `op` of class `cls`; `s` is `u` after what the code of the local store
found in the words that the operation reads (R98), and there physical array `p` runs task `t` and executes it (R135 to R137). -/
def Executes (u : State) (es : List LsError) (s : State) (l p : Nat) (t : Task) (w cls op : Nat) : Prop :=
  Live u ∧ computeOn u = true ∧ nextWord u l = w ∧ s = lsFound l cls op es u ∧ executing s l = some (p, t) ∧
    fetch (arrAt s p) = .ok w ∧ opClass w = cls ∧ opCode w = op

/-- The array after an instruction that retires: the program counter passes it, and no step of it is left. -/
def stepped (x : Arr) : Arr := { x with pc := x.pc + 8, progress := 0, replay := false }

/-- From `s` to `t` physical array `p` becomes `y` and nothing else changes. -/
def ArrayNow (s t : State) (p : Nat) (y : Arr) : Prop :=
  arrAt t p = y ∧ (∀ q, q ≠ p → arrAt t q = arrAt s q) ∧ Frame [.arr] s t

/-- The collector has room for a report of any class, and its pointers are 32-bit words (R721). -/
def LogRoom (s : State) : Prop := s.err.head < 2 ^ 32 ∧ s.err.tail < 2 ^ 32 ∧ openRecs s < 3840

/-- The collector holds an open record of unit `kind`, number `index`, with this type (R721, R722). -/
def Logged (kind index type : Nat) (s : State) : Prop :=
  ∃ e ∈ s.err.recs, slotOpen s e.1 = true ∧ e.2.kind = kind ∧ e.2.index = index ∧ e.2.type = type

/-- From `s` to `t` one message left the block. -/
def Sent (s t : State) (o : Out) : Prop := t.ports.out = s.ports.out ++ [o]

/-- From `s` to `t` the answer `a`, which leaves as `o`, left the block, or waits for runs of its request (R295). -/
def Answered (s t : State) (a : Machine.Answer) (o : Out) : Prop :=
  Sent s t o ∨ (t.ports.out = s.ports.out ∧ (s.rg.reqs, a) ∈ t.rg.held ∧ idWaits t s.rg.reqs = true)

end Sys2Proof

namespace Sys2Proof.Machine
open Sys2Proof

/-- Memory is in its canonical form: addresses strictly rising, no listed byte equal to what an unlisted one reads as. -/
def Memory.wf (m : Tbl Byte) : Bool := twf 0 m

end Sys2Proof.Machine
end

