-- ==== Sys2Proof/Certificates/Slice0/Obligations.lean ====
section
/-!
DEFINITION. The statements for the provers, by chapter of the spec, and then those about the whole block. A statement about a next state
says under what conditions on the state and the operands the command completes.
-/
section
open Sys2Proof Sys2Proof.Machine

/-! ## Arrays (chapters 2 and 3) -/

namespace Sys2Proof

/-- The scalar operations of two registers: constructor, OP, result. -/
def scalarOps : List ((Nat → List LsError → Instr) × Nat × (W64 → W64 → W64)) :=
  [(@Instr.add, 1, fun a b => a + b), (@Instr.sub, 2, fun a b => a - b), (@Instr.mul, 3, fun a b => a * b),
   (@Instr.shl, 4, fun a b => a <<< b.toNat), (@Instr.shr, 5, fun a b => a >>> b.toNat), (@Instr.and, 6, fun a b => a &&& b),
   (@Instr.or, 7, fun a b => a ||| b)]

end Sys2Proof

/-- SCAL operations of R136: DST takes the result, the program counter passes the instruction, nothing else changes. The banks that MOD
names and the sense of the shifts are the model's (log entry 31). -/
def Obligations.ScalarResults : Prop :=
  (∀ o ∈ scalarOps, ∀ u es s l p t w, Executes u es s l p t w 1 o.2.1 → opMod w < 4 → ∃ t', exec (o.1 l es) u = .next t' ∧
    let x := arrAt s p
    let v := o.2.2 (x.getR (bit (opMod w) 1) (opSrc1 w)) (x.getS (opSrc2 w))
    ArrayNow s t' p (stepped (x.putR (bit (opMod w) 0) (opDst w) v))) ∧
  (∀ u es s l p t w, Executes u es s l p t w 1 0 → opMod w < 4 → ∃ t', exec (.addi l es) u = .next t' ∧
    let x := arrAt s p
    ArrayNow s t' p (stepped (x.putR (bit (opMod w) 0) (opDst w) (x.getR (bit (opMod w) 1) (opSrc1 w) +
      BitVec.signExtend 64 (BitVec.ofNat 32 (opImm w)))))) ∧
  (∀ u es s l p t w, Executes u es s l p t w 1 8 → opMod w < 2 → ∃ t', exec (.movi l es) u = .next t' ∧
    let x := arrAt s p
    ArrayNow s t' p (stepped (x.putR (bit (opMod w) 0) (opDst w) (BitVec.signExtend 64 (BitVec.ofNat 32 (opImm w)))))) ∧
  (∀ u es s l p t w, Executes u es s l p t w 1 9 → opMod w < 2 → ∃ t', exec (.movhi l es) u = .next t' ∧
    let x := arrAt s p
    let old := (x.getR (bit (opMod w) 0) (opDst w)).toNat
    ArrayNow s t' p (stepped (x.putR (bit (opMod w) 0) (opDst w) (BitVec.ofNat 64 (old % 2 ^ 32 + 2 ^ 32 * opImm w))))) ∧
  (∀ u es s l p t w, Executes u es s l p t w 1 10 → opMod w < 6 → ∃ t', exec (.cmp l es) u = .next t' ∧
    let x := arrAt s p
    ArrayNow s t' p (stepped { x with cond := cmpHolds (opMod w) (x.getS (opSrc1 w)) (x.getS (opSrc2 w)) })) ∧
  (∀ u es s l p t w r, Executes u es s l p t w 1 11 → opMod w < 10 →
    fopRes (opMod w) (low32 ((arrAt s p).getS (opSrc1 w))) (low32 ((arrAt s p).getS (opSrc2 w)))
      (low32 ((arrAt s p).getS (opDst w))) = some r → ∃ t', exec (.fop l es) u = .next t' ∧
    ArrayNow s t' p (stepped (((arrAt s p).putS (opDst w) (w64 r.code)).raise r))) ∧
  (∀ u es s l p t w, Executes u es s l p t w 1 11 → opMod w = 5 → ∃ t', exec (.fop l es) u = .next t' ∧
    let x := arrAt s p
    let a := low32 (x.getS (opSrc1 w))
    let b := low32 (x.getS (opSrc2 w))
    let v := b2n (fcmp32 1 a b) + 2 * b2n (fcmp32 0 a b) + 4 * b2n (fcmp32 3 a b)
    ArrayNow s t' p (stepped { (x.putS (opDst w) (w64 v)).raise { code := 0, invalid := (f32 a).snan || (f32 b).snan } with
      cond := fcmp32 1 a b }))

/-- CTRL operations of R136, with R116, R134 and R144: where the program counter goes, and what else changes. R151: CHEAP with a request
pending and a well-formed entry begins the cheap save. R139, R131: END and FENCE wait while a store is unacknowledged; with none, FENCE
retires and END frees the array. -/
def Obligations.ControlFlow : Prop :=
  (∀ u es s l p t w, Executes u es s l p t w 0 0 → opMod w = 0 → ∃ t', exec (.nop l es) u = .next t' ∧
    ArrayNow s t' p (stepped (arrAt s p))) ∧
  (∀ u es s l p t w, Executes u es s l p t w 0 2 → opMod w = 0 → ∃ t', exec (.br l es) u = .next t' ∧
    ArrayNow s t' p { arrAt s p with pc := branchTo (arrAt s p) w }) ∧
  (∀ u es s l p t w, Executes u es s l p t w 0 3 → opMod w < 2 → ∃ t', exec (.brc l es) u = .next t' ∧
    ArrayNow s t' p (if (arrAt s p).cond = decide (opMod w = 0) then { arrAt s p with pc := branchTo (arrAt s p) w }
      else stepped (arrAt s p))) ∧
  (∀ u es s l p t w, Executes u es s l p t w 0 4 → opMod w = 0 → (arrAt s p).stack.length < 16 → ∃ t', exec (.call l es) u = .next t' ∧
    ArrayNow s t' p { arrAt s p with
      stack := ((arrAt s p).pc + 8) :: (arrAt s p).stack, pc := branchTo (arrAt s p) w }) ∧
  (∀ u es s l p t w a r, Executes u es s l p t w 0 5 → opMod w = 0 → (arrAt s p).stack = a :: r → ∃ t', exec (.ret l es) u = .next t' ∧
    ArrayNow s t' p { arrAt s p with pc := a, stack := r }) ∧
  (∀ u es s l p t w, Executes u es s l p t w 0 6 → opMod w = 0 → opDst w < 8 → ∃ t', exec (.loop l es) u = .next t' ∧
    ArrayNow s t' p (stepped { arrAt s p with
      loops := tset 0 (arrAt s p).loops (opDst w) ((arrAt s p).getS (opSrc1 w)) })) ∧
  (∀ u es s l p t w, Executes u es s l p t w 0 6 → opMod w = 1 → opDst w < 8 → ∃ t', exec (.loop l es) u = .next t' ∧
    let v := tget 0 (arrAt s p).loops (opDst w) - 1
    let y : Arr := { arrAt s p with loops := tset 0 (arrAt s p).loops (opDst w) v }
    ArrayNow s t' p (if v = 0 then stepped y else { y with pc := branchTo y w })) ∧
  (∀ u es s l p t w, Executes u es s l p t w 0 7 → opMod w = 0 → (arrAt s p).preempt = none → ∃ t', exec (.cheap l es) u = .next t' ∧
    ArrayNow s t' p (stepped (arrAt s p))) ∧
  (∀ u es s l p t w e, Executes u es s l p t w 0 7 → opMod w = 0 → (arrAt s p).preempt ≠ none → bit (regGet s 0x402000) 0 = true →
    bit (regGet s 0x402000) 1 = false → liveEntry (arrAt s p) (opImm w) = some e → liveOk e = true →
    exec (.cheap l es) u = .next (beginSave p (some e) (opImm w) (modArr p stepped s))) ∧
  (∀ u es s l p t w, Executes u es s l p t w 0 8 → opMod w = 0 → ∃ t', exec (.rdflag l es) u = .next t' ∧
    ArrayNow s t' p (stepped ((arrAt s p).putS (opDst w) (w64 (arrAt s p).flags)))) ∧
  (∀ u es s l p t w, Executes u es s l p t w 0 9 → opMod w = 0 → ∃ t', exec (.clrflag l es) u = .next t' ∧
    ArrayNow s t' p (stepped ((arrAt s p).clearFlags (opImm w)))) ∧
  (∀ u es s l p t w, Executes u es s l p t w 7 0 → opMod w = 0 → opImm w = 0 → (arrAt s p).stores ≠ 0 →
    ∃ t', exec (.fence l es) u = .next t' ∧ ArrayNow s t' p { arrAt s p with stall := .fence }) ∧
  (∀ u es s l p t w, Executes u es s l p t w 7 0 → opMod w = 0 → opImm w = 0 → (arrAt s p).stores = 0 →
    ∃ t', exec (.fence l es) u = .next t' ∧ ArrayNow s t' p (stepped (arrAt s p))) ∧
  (∀ u es s l p t w, Executes u es s l p t w 0 1 → opMod w = 0 → (arrAt s p).stores ≠ 0 →
    ∃ t', exec (.endTask l es) u = .next t' ∧ ArrayNow s t' p { arrAt s p with stall := .ending }) ∧
  (∀ u es s l p t w, Executes u es s l p t w 0 1 → opMod w = 0 → (arrAt s p).stores = 0 →
    ∃ t', exec (.endTask l es) u = .next t' ∧ arrAt t' p = Arr.idle t.ctx (arrAt s p) ∧
      (∀ q, q ≠ p → arrAt t' q = arrAt s q) ∧ Frame (footprint (.endTask l es)) s t')

/-- GRID and DRAIN (R108, R110 to R112, R141): formats, accumulators, results; a misaligned base is malformed. VEC and CONV (R113, R115,
R117, R121, R136, R141): results in the lanes of DST, the marks, the flags. -/
def Obligations.GridAndVectorUnits : Prop :=
  (∀ u es s l p t w, Executes u es s l p t w 2 0 → opMod w = 0 → (gridClass (field (opImm w) 0 4) (field (opImm w) 4 4)).isSome = true →
    ∃ t', exec (.gcfg l es) u = .next t' ∧ ArrayNow s t' p (stepped { arrAt s p with
      fmtA := field (opImm w) 0 4, fmtB := field (opImm w) 4 4 })) ∧
  (∀ u es s l p t w, Executes u es s l p t w 2 1 → opMod w = 0 → ∃ t', exec (.gzero l es) u = .next t' ∧
    ArrayNow s t' p (stepped { arrAt s p with acc := [], tilePoison := false })) ∧
  (∀ u es s l p t w, Executes u es s l p t w 2 2 → opMod w = 0 → ((arrAt s p).getA (opSrc1 w)).toNat % 64 = 0 →
    lsIn ((arrAt s p).getA (opSrc1 w)).toNat 25600 = true → ∃ t', exec (.gload l es) u = .next t' ∧
    let a := ((arrAt s p).getA (opSrc1 w)).toNat
    ArrayNow s t' p (stepped { arrAt s p with
      acc := accOf (arrAt s p) a, tilePoison := (arrAt s p).lsBad a 25600 })) ∧
  (∀ n u es s l p t w g, Executes u es s l p t w 2 3 → opMod w < 2 → gridOpOf (arrAt s p) w = some g → g.aligned = true →
    g.inStore = true → (arrAt s p).progress ≤ g.k → ∃ t', exec (.gstep l es n) u = .next t' ∧
    let m := if g.cls = .block then n / 32 * 32 else n
    let lo := (arrAt s p).progress
    let hi := min g.k (lo + m)
    let y := g.run (bit (opMod w) 0) lo hi (arrAt s p)
    ArrayNow s t' p (if hi = g.k then stepped y else { y with progress := hi })) ∧
  (∀ n u es s l p t w e, Executes u es s l p t w 3 0 → opMod w < 16 → epilogueOf (arrAt s p) w = some e →
    let x := arrAt s p
    let a := (x.getA (opSrc1 w)).toNat
    let b := (x.getA (opSrc2 w)).toNat
    let c := (x.getA (opDst w)).toNat
    a % 64 = 0 → lsIn a e.outBytes = true → (e.scaleBytes ≠ 0 → b % 64 = 0 ∧ lsIn b e.scaleBytes = true) →
    (e.bias = true → c % 64 = 0 ∧ lsIn c 320 = true) → x.progress ≤ 100 → ∃ t', exec (.drain l es n) u = .next t' ∧
    let hi := min 100 (x.progress + n)
    let rs := drainCells x e b c x.progress hi
    let bad := x.tilePoison || (e.scaleBytes != 0 && x.lsBad b e.scaleBytes) || (e.bias && x.lsBad c 320)
    let y := rs.foldl (fun y r => y.raise r) (x.putLs (a + 8 * e.fmt.bits * x.progress)
      (packBytes e.fmt.bits (rs.map (fun r => r.code))) (fun _ => bad))
    ArrayNow s t' p (if hi = 100 then stepped y else { y with progress := hi })) ∧
  (∀ u es s l p t w, Executes u es s l p t w 4 (opCode w) → opCode w < 16 → opCode w ≠ 5 → (vecFp (opCode w) 0 0 0).isSome = true →
    ∃ t', exec (.vecFp32Op l es) u = .next t' ∧
    let x := arrAt s p
    let d := opDst w
    let srcs := if opCode w = 2 then [opSrc1 w, opSrc2 w, d] else if opCode w ≥ 6 then [opSrc1 w] else [opSrc1 w, opSrc2 w]
    ArrayNow s t' p (stepped ((x.lanes d (opMod w) (fun i => (vecFp (opCode w) (x.getV (opSrc1 w) i) (x.getV (opSrc2 w) i)
      (x.getV d i)).getD { code := 0 })).markV d (opMod w) srcs))) ∧
  (∀ u es s l p t w, Executes u es s l p t w 4 5 → opImm w < 4 → opDst w < 16 → ∃ t', exec (.vecFp32Op l es) u = .next t' ∧
    let x := arrAt s p
    let on := fun i => (x.getP (opMod w)).getLsbD i
    let v := (List.range 64).foldl (fun (v : Nat) i =>
      if on i && fcmp32 (opImm w) (x.getV (opSrc1 w) i) (x.getV (opSrc2 w) i) then v + 2 ^ i else v) 0
    let snan := (List.range 64).any (fun i => on i && ((f32 (x.getV (opSrc1 w) i)).snan || (f32 (x.getV (opSrc2 w) i)).snan))
    let bad := x.vPoison.contains (opSrc1 w) || x.vPoison.contains (opSrc2 w) || x.pPoison.contains (opMod w)
    let y := (x.putP (opDst w) (w64 v)).raise { code := 0, invalid := snan }
    ArrayNow s t' p (stepped { y with
      pPoison := if opDst w ≠ 0 ∧ bad = true then sinsert (opDst w) x.pPoison else sremove (opDst w) x.pPoison })) ∧
  (∀ u es s l p t w, Executes u es s l p t w 4 (opCode w) → 0x10 ≤ opCode w → opCode w ≤ 0x17 →
    ∃ t', exec (.vecInt32Op l es) u = .next t' ∧
    let x := arrAt s p
    ArrayNow s t' p (stepped ((x.lanes (opDst w) (opMod w) (fun i => { code :=
      (vecInt (opCode w) (x.getV (opSrc1 w) i) (x.getV (opSrc2 w) i)).toNat })).markV (opDst w) (opMod w)
        [opSrc1 w, opSrc2 w]))) ∧
  (∀ u es s l p t w, Executes u es s l p t w 4 0x20 → opMod w = 0 → ((arrAt s p).getA (opSrc1 w)).toNat % 256 = 0 →
    lsIn ((arrAt s p).getA (opSrc1 w)).toNat 256 = true → ∃ t', exec (.vld l es) u = .next t' ∧
    let x := arrAt s p
    let a := (x.getA (opSrc1 w)).toNat
    let y := (List.range 64).foldl (fun y i => y.putV (opDst w) i (lsWord x (a + 4 * i))) x
    ArrayNow s t' p (stepped { y with
      vPoison := if x.lsBad a 256 then sinsert (opDst w) x.vPoison else sremove (opDst w) x.vPoison })) ∧
  (∀ u es s l p t w, Executes u es s l p t w 4 0x21 → opMod w = 0 → ((arrAt s p).getA (opSrc1 w)).toNat % 256 = 0 →
    lsIn ((arrAt s p).getA (opSrc1 w)).toNat 256 = true → ∃ t', exec (.vst l es) u = .next t' ∧
    let x := arrAt s p
    ArrayNow s t' p (stepped (x.putLs (x.getA (opSrc1 w)).toNat
      ((List.range 64).map (fun i => leBytes 4 (x.getV (opSrc2 w) i).toNat)).flatten
      (fun _ => x.vPoison.contains (opSrc2 w))))) ∧
  (∀ u es s l p t w f, Executes u es s l p t w 5 0 → opMod w < 4 → fmtOf (opImm w % 256) = some f → f ≠ .t2 →
    slotIn (immSlot w) 64 f.bits = true → opImm w < 65536 → ∃ t', exec (.cvt l es) u = .next t' ∧
    let x := arrAt s p
    ArrayNow s t' p (stepped (x.putSlot (opDst w) (immSlot w) f.bits (opSrc1 w) ((List.range 64).map (fun i =>
      convert f (bit (opMod w) 0) (bit (opMod w) 1) (f32 (x.getV (opSrc1 w) i))))))) ∧
  (∀ u es s l p t w f, Executes u es s l p t w 5 1 → opMod w < 8 → fmtOf (opImm w % 256) = some f → opImm w % 256 ≤ 5 →
    slotIn (immSlot w) 32 f.bits = true → opImm w < 2 ^ 24 → ∃ t', exec (.qblk l es) u = .next t' ∧
    let x := arrAt s p
    let o := if bit (opMod w) 1 then 32 else 0
    let q := quantBlock f (bit (opMod w) 0) (bit (opMod w) 2) ((List.range 32).map (fun i => x.getV (opSrc1 w) (o + i)))
    ArrayNow s t' p (stepped (((x.putSlot (opDst w) (immSlot w) f.bits (opSrc1 w) q.2).putBitsV (opSrc2 w) (8 * immScale w) 8
      q.1).markPart (opSrc2 w) [opSrc1 w]))) ∧
  (∀ u es s l p t w, Executes u es s l p t w 5 2 → opMod w < 16 → ∃ t', exec (.qt2 l es) u = .next t' ∧
    let x := arrAt s p
    ArrayNow s t' p (stepped (x.putSlot (opDst w) (opMod w) 2 (opSrc1 w) ((List.range 64).map (fun i =>
      { code := t2Of (w32 (opImm w)) (x.getV (opSrc1 w) i), invalid := (f32 (x.getV (opSrc1 w) i)).isNan }))))) ∧
  (∀ u es s l p t w f, Executes u es s l p t w 5 3 → opMod w = 0 → fmtOf (opImm w % 256) = some f →
    slotIn (immSlot w) 64 f.bits = true → opImm w < 2 ^ 24 → let mx := decide (opImm w % 256 ≤ 5 ∨ opImm w % 256 = 12)
    (mx = true → immScale w ≠ 255) → ∃ t', exec (.deq l es) u = .next t' ∧
    let x := arrAt s p
    ArrayNow s t' p (stepped ((x.lanes (opDst w) 0 (fun i => deqRes f mx (x.packedV (opSrc1 w) f.bits (64 * immSlot w + i))
      (x.packedV (opSrc2 w) 8 (immScale w + i / 32)))).markV (opDst w) 0 (if mx then [opSrc1 w, opSrc2 w] else [opSrc1 w])))) ∧
  (∀ (x : Arr) dst lo n v i, twf 0 x.v = true → lo + n ≤ 2048 → i < 2048 → (Arr.packedV (Arr.putBitsV dst lo n v x) dst 1 i) =
    if lo ≤ i ∧ i < lo + n then field v (i - lo) 1 else x.packedV dst 1 i)

/-- R137, R140: an instruction that cannot be read, or whose CLASS, OP or MOD is not defined, is malformed and ends its task. R98: what the
code of the local store finds in the words that an instruction reads is counted or marks its granule, is reported, and changes nothing
else. -/
def Obligations.MalformedInstructions : Prop :=
  (∀ es s l p t, Computing s → executing s l = some (p, t) → (arrAt s p).pc % 8 = 0 → lsIn (arrAt s p).pc 8 = true →
    opKnown (opClass (leNat ((arrAt s p).lsBytes (arrAt s p).pc 8))) (opCode (leNat ((arrAt s p).lsBytes (arrAt s p).pc 8))) =
      false → exec (.nop l es) s = .next (faultOn p t.seq .faultFormat s)) ∧
  (∀ u es l p t k, Live u → computeOn u = true → let s := lsFound l 0 0 es u
    executing s l = some (p, t) → fetch (arrAt s p) = .error k → exec (.nop l es) u = .next (faultOn p t.seq k s)) ∧
  (∀ u l c o es, let s := lsFound l c o es u
    Frame [.arr, .ic, .err] u s ∧ ∀ p, { arrAt s p with lsPoison := [] } = { arrAt u p with lsPoison := [] }) ∧
  (∀ s p c e, LogRoom s → e.two = false → let t := lsError p c e s
    Logged 1 (arrName s p) 0x01 t ∧ (physAt t p).ce = sat 8 ((physAt s p).ce + 1) ∧ t.arr.st = s.arr.st) ∧
  (∀ s p c e, LogRoom s → e.two = true → let t := lsError p c e s
    Logged 1 (arrName s p) 0x02 t ∧ (arrAt t p).lsPoison = sinsert (e.addr / 64) (arrAt s p).lsPoison ∧ t.arr.phys = s.arr.phys) ∧
  (∀ u es s l p t w, Executes u es s l p t w 0 0 → opMod w ≠ 0 → exec (.nop l es) u = .next (faultOn p t.seq .faultFormat s)) ∧
  (∀ u es s l p t w, Executes u es s l p t w 0 4 → opMod w = 0 → 16 ≤ (arrAt s p).stack.length →
    exec (.call l es) u = .next (faultOn p t.seq .faultFormat s)) ∧
  (∀ u es s l p t w, Executes u es s l p t w 0 5 → opMod w = 0 → (arrAt s p).stack = [] →
    exec (.ret l es) u = .next (faultOn p t.seq .faultFormat s)) ∧
  (∀ u es s l p t w, Executes u es s l p t w 2 2 → opMod w = 0 → ((arrAt s p).getA (opSrc1 w)).toNat % 64 ≠ 0 →
    exec (.gload l es) u = .next (faultOn p t.seq .faultFormat s)) ∧
  (∀ u es s l p t w, Executes u es s l p t w 4 0x20 → opMod w = 0 → ((arrAt s p).getA (opSrc1 w)).toNat % 256 ≠ 0 →
    exec (.vld l es) u = .next (faultOn p t.seq .faultFormat s))

/-- R130, R138: LOAD and LOADS put their requests out and stall; each block-local piece has its place. STORE and STORES retire when the
last granule has left, and stand between two granules before (R153). A piece that does not translate ends the task. R138, R263: a store of
one piece to block-local memory stores its bytes at the translated address, and nowhere else. -/
def Obligations.Transfers : Prop :=
  (∀ o ∈ [(@Instr.load, 0, false), (@Instr.loads, 2, true)], ∀ u es s l p t w va ls n st, Executes u es s l p t w 6 o.2.1 →
    opMod w = 0 → xferArgs (arrAt s p) w o.2.2 = .ok (va, ls, n, st) →
    xferFault s (.array l) t.ctx (xferPieces va ls n st) .read = none → ∃ t', exec (o.1 l es) u = .next t' ∧
      arrAt t' p = { arrAt s p with stall := .load (localPieces s (.array l) t.ctx (xferPieces va ls n st)) } ∧
      (∀ q, q ≠ p → arrAt t' q = arrAt s q) ∧ (∀ x, tget 0 t'.mem.cells x = tget 0 s.mem.cells x)) ∧
  (∀ o ∈ [(@Instr.store, 1, false), (@Instr.stores, 3, true)], ∀ g u es s l p t w va ls n st, Executes u es s l p t w 6 o.2.1 →
    opMod w = 0 → xferArgs (arrAt s p) w o.2.2 = .ok (va, ls, n, st) →
    xferFault s (.array l) t.ctx (xferPieces va ls n st) .write = none → (arrAt s p).progress ≤ n / 64 →
    ∃ t', exec (o.1 l es g) u = .next t' ∧ (arrAt t' p).ls = (arrAt s p).ls ∧ let hi := min (n / 64) ((arrAt s p).progress + g)
      (arrAt t' p).pc = (if hi = n / 64 then (arrAt s p).pc + 8 else (arrAt s p).pc) ∧
      (arrAt t' p).progress = (if hi = n / 64 then 0 else hi)) ∧
  (∀ o ∈ [(@Instr.load, 0, false), (@Instr.loads, 2, true)], ∀ u es s l p t w va ls n st k, Executes u es s l p t w 6 o.2.1 →
    opMod w = 0 → xferArgs (arrAt s p) w o.2.2 = .ok (va, ls, n, st) →
    xferFault s (.array l) t.ctx (xferPieces va ls n st) .read = some k →
    exec (o.1 l es) u = .next (xlatOn p t.seq t.ctx k.1 k.2 s)) ∧
  (∀ u es s l p t w, Executes u es s l p t w 6 4 → opMod w = 0 → ((arrAt s p).getS (opSrc1 w)).toNat % 64 = 0 → opImm w % 64 = 0 →
    0 < opImm w → opImm w ≤ 0x80000 → lsIn ((arrAt s p).getS (opSrc1 w)).toNat (opImm w) = true →
    ∃ t', exec (.openwin l es) u = .next t' ∧ ArrayNow s t' p (stepped { arrAt s p with
      window := some (((arrAt s p).getS (opSrc1 w)).toNat, opImm w) })) ∧
  (∀ u es s l p t w, Executes u es s l p t w 6 5 → opMod w = 0 → ∃ t', exec (.closewin l es) u = .next t' ∧
    ArrayNow s t' p (stepped { arrAt s p with window := none })) ∧
  (∀ o ∈ [(@Instr.store, 1, false), (@Instr.stores, 3, true)], ∀ g u es s l p t w va ls n st a, Executes u es s l p t w 6 o.2.1 →
    opMod w = 0 → xferArgs (arrAt s p) w o.2.2 = .ok (va, ls, n, st) → xferPieces va ls n st = [(va, ls, n)] →
    (arrAt s p).progress = 0 → n / 64 ≤ g → xl s (.array l) t.ctx va n .write = .ok 0 a →
    (∀ x, a ≤ x → x < a + n → retiredAt s x = false) → Machine.Memory.wf s.mem.cells = true →
    ∃ t', exec (o.1 l es g) u = .next t' ∧
      (∀ i, i < n → tget 0 t'.mem.cells (a + i) = ((arrAt s p).lsBytes ls n).getD i 0) ∧
      (∀ x, (x < a ∨ a + n ≤ x) → tget 0 t'.mem.cells x = tget 0 s.mem.cells x) ∧
      (arrAt t' p).stores = (arrAt s p).stores + 1)

namespace Sys2Proof

/-- No armed wait and no gate names the tally word. -/
def Quiet (s : State) (i : Nat) : Prop :=
  (∀ x ∈ s.tw.waits, x.idx ≠ i) ∧ ∀ g ∈ s.sg.gates, gateNames g.desc i = false

end Sys2Proof

/-- R531 to R537, R547, R548: the tally-word and barrier instructions, on a word that nothing else waits for. -/
def Obligations.SyncInstructions : Prop :=
  (∀ u es s l p t w, Executes u es s l p t w 7 1 → opMod w = 0 → opImm w = 0 →
    twGranted s (ctxAt s t.ctx).vai ((arrAt s p).getS (opSrc1 w)).toNat = true →
    Quiet s ((arrAt s p).getS (opSrc1 w)).toNat →
    let i := ((arrAt s p).getS (opSrc1 w)).toNat
    exec (.signal l es) u = .next (twWrite i (twAt s i + w32 (((arrAt s p).getS (opSrc2 w)).toNat % 2 ^ 32)) 0x1 l
      (modArr p (fun x => (stepped (x.putS (opDst w) (w64 (twAt s i).toNat)))) s))) ∧
  (∀ u es s l p t w, Executes u es s l p t w 7 2 → opMod w < 4 →
    twGranted s (ctxAt s t.ctx).vai ((arrAt s p).getS (opSrc1 w)).toNat = true →
    let i := ((arrAt s p).getS (opSrc1 w)).toNat
    let c := w32 (((arrAt s p).getS (opSrc2 w)).toNat % 2 ^ 32)
    (waitHolds (opMod w) (twAt s i) c = true → ∃ t', exec (.wait l es) u = .next t' ∧
      ArrayNow s t' p (stepped { (arrAt s p).putS (opDst w) (w64 (twAt s i).toNat) with cond := true })) ∧
    (waitHolds (opMod w) (twAt s i) c = false →
      exec (.wait l es) u = .next (modArr p (fun x => { x with stall := .wait (opDst w) }) { s with tw := { s.tw with
        waits := s.tw.waits ++ [{ l := l, phys := p, idx := i, take := false, cond := opMod w, arg := c }] } }))) ∧
  (∀ u es s l p t w, Executes u es s l p t w 7 3 → opMod w = 0 →
    twGranted s (ctxAt s t.ctx).vai ((arrAt s p).getS (opSrc1 w)).toNat = true →
    0 < ((arrAt s p).getS (opSrc2 w)).toNat → ((arrAt s p).getS (opSrc2 w)).toNat < 2 ^ 31 →
    let i := ((arrAt s p).getS (opSrc1 w)).toNat
    let n := w32 ((arrAt s p).getS (opSrc2 w)).toNat
    (takeHolds (twAt s i) n = true → Quiet s i → exec (.takewait l es) u = .next (twWrite i (twAt s i - n) 0x7 l
      (modArr p (fun x => (stepped { x.putS (opDst w) (w64 (twAt s i - n).toNat) with cond := true })) s))) ∧
    (takeHolds (twAt s i) n = false →
      exec (.takewait l es) u = .next (modArr p (fun x => { x with stall := .wait (opDst w) }) { s with tw := { s.tw with
        waits := s.tw.waits ++ [{ l := l, phys := p, idx := i, take := true, cond := 0, arg := n }] } }))) ∧
  (∀ u es s l p t w, Executes u es s l p t w 7 4 → opMod w = 0 → opImm w < 32 → (barAt s (opImm w)).state = 1 →
    (barAt s (opImm w)).ctx = t.ctx → (barAt s (opImm w)).arrived ≠ (barAt s (opImm w)).countM1 →
    exec (.barrier l es) u = .next (modBar (opImm w) (fun b => { b with
        arrived := b.arrived + 1, waiters := b.waiters ++ [t.seq] })
      (modArr p (fun x => { x with stall := .barrier (opDst w) (opImm w) }) s))) ∧
  (∀ u es s l p t w a mem, Executes u es s l p t w 7 5 → opMod w < 3 → opImm w = 0 →
    ((arrAt s p).getA (opSrc1 w)).toNat % 8 = 0 → xl s (.array l) t.ctx ((arrAt s p).getA (opSrc1 w)).toNat 8 .atomic = .ok 0 a →
    let v := memErrors a 8 mem s
    (∀ x, a ≤ x → x < a + 8 → retiredAt v x = false) → a % 8 = 0 → Machine.Memory.wf v.mem.cells = true →
    ∃ t', exec (.atom l es mem) u = .next t' ∧
      let r := atomicResult (opMod w) (leNat (readMem v a 8)) ((arrAt s p).getS (opSrc2 w)).toNat
        ((arrAt s p).getS (opDst w)).toNat
      (∀ i, i < 8 → tget 0 t'.mem.cells (a + i) = (leBytes 8 r.1).getD i 0) ∧
      (∀ x, (x < a ∨ a + 8 ≤ x) → tget 0 t'.mem.cells x = tget 0 v.mem.cells x) ∧
      arrAt t' p = { arrAt s p with stall := .atom (opDst w) (some (w64 r.2)) })

/-- R464, R482, R483, R485, R575: the system instructions perform their call at the instruction, and the array waits for the reply; PTEST
retires with the mark. -/
def Obligations.SystemInstructions : Prop :=
  (∀ u es s l p t w, Executes u es s l p t w 8 0 → opMod w < 2 → ((arrAt s p).getA (opSrc1 w)).toNat % 64 = 0 →
    ((arrAt s p).getS (opSrc2 w)).toNat < 64 → lsIn ((arrAt s p).getA (opSrc1 w)).toNat 64 = true →
    let a := ((arrAt s p).getA (opSrc1 w)).toNat
    let r := enqueue t ((arrAt s p).lsBytes a 64) ((arrAt s p).lsBad a 64) ((arrAt s p).getS (opSrc2 w)).toNat
      (bit (opMod w) 0) s
    let v := w64 (r.1.code + (if r.1 = .done then r.2.1 * 256 else 0))
    exec (.enq l es) u = .next (modArr p (fun x => { x with stall := .sys (opDst w) v }) r.2.2)) ∧
  (∀ u es s l p t w, Executes u es s l p t w 8 1 → opMod w = 0 → opImm w = 0 → ((arrAt s p).getS (opSrc2 w)).toNat < 3 →
    let r := heapAlloc t.ctx ((arrAt s p).getS (opSrc1 w)).toNat ((arrAt s p).getS (opSrc2 w)).toNat false s
    let v := w64 (r.1.code + (if r.1 = .done then r.2.2.1 else 0))
    exec (.alloc l es) u = .next (modArr p (fun x => { x with stall := .sys (opDst w) v }) r.2.2.2)) ∧
  (∀ u es s l p t w, Executes u es s l p t w 8 2 → opMod w = 0 →
    let va := ((arrAt s p).getS (opSrc1 w)).toNat
    (∀ a, allocMapped s t.ctx va = some a → exec (.free l es) u = .next (modArr p (fun x => { x with
      stall := .sys (opDst w) 0 }) (unmapAlloc a t.ctx va s))) ∧
    (allocMapped s t.ctx va = none → ∃ t', exec (.free l es) u = .next t' ∧
      ArrayNow s t' p { arrAt s p with stall := .sys (opDst w) (w64 Status.faultFormat.code) })) ∧
  (∀ u es s l p t w, Executes u es s l p t w 8 3 → opMod w = 0 →
    let h := ((arrAt s p).getS (opSrc1 w)).toNat
    let b := ((arrAt s p).getS (opSrc2 w)).toNat % 2 ^ 32
    hqBound s h t.ctx = true → b ∈ t.handles → (hqAt s h).items.length + hqKept s h < 4096 → (hqAt s h).tw = none →
    exec (.hpush l es) u = .next (modArr p (fun x => { x with stall := .sys (opDst w) 0 })
      (modHq h (fun x => { x with items := x.items ++ [b] })
        (modTask t.seq (fun t => { t with handles := t.handles.erase b }) s)))) ∧
  (∀ u es s l p t w b r, Executes u es s l p t w 8 4 → opMod w = 0 → hqBound s ((arrAt s p).getS (opSrc1 w)).toNat t.ctx = true →
    (hqAt s ((arrAt s p).getS (opSrc1 w)).toNat).items = b :: r →
    let h := ((arrAt s p).getS (opSrc1 w)).toNat
    exec (.hpop l es) u = .next (modArr p (fun x => { x with stall := .sys (opDst w) (w64 (b * 256)) })
      (modTask t.seq (fun t => { t with handles := t.handles ++ [b] }) (modHq h (fun x => { x with items := x.items.drop 1 }) s)))) ∧
  (∀ u es s l p t w, Executes u es s l p t w 8 4 → opMod w = 0 → hqBound s ((arrAt s p).getS (opSrc1 w)).toNat t.ctx = true →
    (hqAt s ((arrAt s p).getS (opSrc1 w)).toNat).items = [] → ∃ t', exec (.hpop l es) u = .next t' ∧
      ArrayNow s t' p { arrAt s p with stall := .sys (opDst w) (w64 Status.busy.code) }) ∧
  (∀ u es s l p t w, Executes u es s l p t w 8 5 → opMod w = 0 → lsIn ((arrAt s p).getA (opSrc1 w)).toNat 1 = true →
    let v := w64 (b2n ((arrAt s p).lsPoison.contains (((arrAt s p).getA (opSrc1 w)).toNat / 64)))
    ∃ t', exec (.ptest l es) u = .next t' ∧
      ArrayNow s t' p (stepped ((arrAt s p).putS (opDst w) v)))

/-- R130, R131, R153, R538: replies end the stall that waits for them; the instruction retires with its result. R133, R151 to R161, R498:
an idle array starts the next entry of its queue; a full save begins with its record; a task is saved and its array freed; a restored task
takes its state from the bytes of its record, which is freed. -/
def Obligations.ArrayRepliesAndTasks : Prop :=
  (∀ s l p q ecc, Computing s → physOf s l = some p → (arrAt s p).stall = .load [q] → (arrAt s p).task ≠ none →
    readsDone s l = true → ∃ t', exec (.loadComplete l ecc) s = .next t' ∧ let v := memErrors q.1 q.2.2 ecc s
      arrAt t' p = { stepped ((arrAt s p).putLs q.2.1 (readMem v q.1 q.2.2) (fun i => poisonedAt v (q.1 + 64 * i))) with
        stall := .none } ∧ (∀ q, q ≠ p → arrAt t' q = arrAt s q) ∧ Frame [.arr] v t') ∧
  (∀ s l p, Computing s → physOf s l = some p → (arrAt s p).storesDue ≠ 0 → 1 < (arrAt s p).stores →
    runsWait s (.array l) = false → ∃ t', exec (.storeAck l) s = .next t' ∧
      ArrayNow s t' p { arrAt s p with stores := (arrAt s p).stores - 1, storesDue := (arrAt s p).storesDue - 1 }) ∧
  (∀ s l p d v, Computing s → physOf s l = some p → (arrAt s p).stall = .atom d (some v) → (arrAt s p).task ≠ none →
    runsWait s (.array l) = false → ∃ t', exec (.atomReply l) s = .next t' ∧
      ArrayNow s t' p { stepped ((arrAt s p).putS d v) with stall := .none }) ∧
  (∀ s l p d v, Computing s → physOf s l = some p → (arrAt s p).stall = .sys d v → (arrAt s p).task ≠ none →
    readsDone s l = true → ∃ t', exec (.systemCallReply l) s = .next t' ∧
      ArrayNow s t' p { stepped ((arrAt s p).putS d v) with stall := .none }) ∧
  (∀ s l p d x, Computing s → physOf s l = some p → (arrAt s p).stall = .wait d → (arrAt s p).task ≠ none →
    s.tw.waits.find? (fun w => decide (w.phys = p)) = some x → opImm (leNat ((arrAt s p).lsBytes (arrAt s p).pc 8)) ≠ 0 →
    exec (.waitTimeout l) s = .next (modArr p (fun y => { stepped (y.putS d (w64 (twAt s x.idx).toNat)) with
      stall := .none, cond := false }) { s with tw := { s.tw with waits := s.tw.waits.filter (fun y => decide (y ≠ x)) } })) ∧
  (∀ s l p t h, Computing s → physOf s l = some p → (arrAt s p).task = none → (arrAt s p).gated = false →
    ((arrAt s p).queue.find? (entryReady s)).bind (taskOf s) = some t → (saveOf s t.seq).isSome = true →
    exec (.taskStart l h) s = .next (stageQueue t.queue (fillSeq (l / 18) (startEntry l p t h s)))) ∧
  (∀ s l p t h, Computing s → physOf s l = some p → (arrAt s p).task = none → (arrAt s p).gated = false →
    ((arrAt s p).queue.find? (entryReady s)).bind (taskOf s) = some t → saveOf s t.seq = none → fetchWaits s t.seq = false →
    (remoteSpans s (.array l) t.ctx (fieldAt t.record 8 8) (fieldAt t.record 16 4)).all (hasFetch s t.seq t.ctx) = true →
    exec (.taskStart l h) s = .next (endReading t.seq (stageQueue t.queue (fillSeq (l / 18) (startEntry l p t h s))))) ∧
  (∀ s l p t q, Computing s → physOf s l = some p → maySave (arrAt s p) = true → (arrAt s p).preempt ≠ none →
    (arrAt s p).stall = .none → (arrAt s p).progress = 0 → (arrAt s p).task = some q → taskOf s q = some t → t.seq = q →
    ∃ t' r, exec (.graceExpiry l) s = .next t' ∧ arrAt t' p = { arrAt s p with
        saving := some false, preempt := none, liveIdx := 0, saveGen := ((arrAt s p).saveGen + 1) % 2 ^ 16 } ∧
      (∀ q, q ≠ p → arrAt t' q = arrAt s q) ∧ t'.arr.saves = s.arr.saves ++ [r] ∧ r.seq = q ∧ r.ctx = t.ctx ∧ r.phys = p ∧
      r.size = 1354752 ∧ r.done = false ∧ r.base = (ctxAt s t.ctx).saveAt + 1376256 * r.slot ∧
      (r.pool = true ↔ farOnly s t = false ∧ poolUse s r.part + 21 ≤ poolShare s)) ∧
  (∀ s l p t c q r es, Computing s → physOf s l = some p → (arrAt s p).saving = some c → (arrAt s p).task = some q →
    taskOf s q = some t → recOf s q = some r → (arrAt s p).stores = 0 → (arrAt s p).stall = .none → t.seq = q →
    runsWait s (.array l) = false → ∃ t', exec (.saveComplete l es) s = .next t' ∧ (arrAt t' p).task = none ∧
    ∃ y ∈ t'.arr.saves, y.seq = q ∧ y.done = true ∧ y.ctx = r.ctx ∧ y.phys = r.phys ∧ y.size = r.size ∧ y.pool = r.pool) ∧
  (∀ s l p t q r, Computing s → physOf s l = some p → (arrAt s p).restore = true → (arrAt s p).task = some q →
    taskOf s q = some t → t.seq = q → saveOf s q = some r → r.st.stall = .none → (arrAt s p).heldPre = none →
    runsWait s (.array l) = false → let b := recLoad r s
    ∃ t', exec (.restoreComplete l []) s = .next t' ∧ recOf t' q = none ∧
      arrAt t' p = { recState r.st (layoutOf r.st r.entry) b.1 b.2 with
        task := some q, lastCtx := some t.ctx, queue := (arrAt s p).queue, gated := (arrAt s p).gated,
        started := (arrAt s p).started, rank1 := (arrAt s p).rank1, restore := false, saving := none, preempt := none,
        heldPre := none })

/-- R149, R156, R159, R162: what a full save writes into its record gives the local store, the vector registers, the accumulators and all
their marks back. -/
def Obligations.FullSaveRoundTrip : Prop :=
  ∀ (x : Arr) t, twf 0 x.ls = true → twf 0 x.v = true → twf 0 x.acc = true →
    let k := layoutOf x none
    let y := recState x.control k (recBytesOf x t k) (recMarks x k)
    (∀ a, a < lsTop → tget 0 y.ls a = tget 0 x.ls a) ∧ (∀ n i, n < 64 → i < 64 → y.getV n i = x.getV n i) ∧
    (∀ i j, i < 80 → j < 80 → y.getAcc i j = x.getAcc i j) ∧ (∀ g, g < 20480 → (g ∈ y.lsPoison ↔ g ∈ x.lsPoison)) ∧
    (∀ n, n < 64 → (n ∈ y.vPoison ↔ n ∈ x.vPoison)) ∧ y.tilePoison = x.tilePoison ∧
    y = { x with ls := y.ls, v := y.v, acc := y.acc, lsPoison := y.lsPoison, vPoison := y.vPoison, saving := none }

/-! ## The boundary (chapter 1) -/

/-- R35, R62, R76, R78, R667: cold reset. Release starts the CSB, which goes to RECOVERY when the flash gives no valid size; assertion
loses everything but the flash, the fuses and the identity registers. That the clocks run at release is the model's (log entry 3). -/
def Obligations.ColdReset : Prop :=
  (∀ s, s.blk.coldLow = true → s.fw.flash.sfdp = true → ∃ t, exec .coldResetRelease s = .next t ∧ Live t ∧
    t.blk.bootState = 1 ∧ t.blk.cause = 0 ∧ (procAt t 4).pstate = 1 ∧ Frame [.blk, .mbx, .pm] s t) ∧
  (∀ s, s.blk.coldLow = true → s.fw.flash.sfdp = false → ∃ t, exec .coldResetRelease s = .next t ∧
    t.blk.bootState = 7 ∧ t.blk.cause = 1) ∧
  (∀ s, ∃ t, exec .coldResetAssert s = .next t ∧ (∀ a, a ∉ [Area.blk, .regs, .fw, .ports, .freeCtr] → same a State.reset t) ∧
    t.blk.coldLow = true ∧ t.blk.bootState = 0 ∧ t.fw.fuses = s.fw.fuses ∧ t.fw.flash.params = s.fw.flash.params ∧
    t.fw.flash.image = (if s.fw.writing.isSome then [] else s.fw.flash.image) ∧ t.fw.staged = [] ∧ t.fw.running = [] ∧
    t.regs = s.regs.filter (fun e => decide (e.1 = 0 ∨ e.1 = 4 ∨ e.1 = 8)) ∧
    t.ports.oreq = [] ∧ t.ports.out = s.ports.out ∧ t.pending = s.pending) ∧
  (∀ s, Live s → exec .ireqReadyAssert s = .next { s with blk := { s.blk with ireqReady := true } })

namespace Sys2Proof

/-- The host reaches [a, a + n) of the far tier: in service, no reset and no scrub in the way, stacks present. -/
def FarOpen (s : State) (a n : Nat) : Prop :=
  Live s ∧ s.blk.ireqReady = true ∧ inService s = true ∧ hostShut s a = false ∧ a + n ≤ farTop ∧
    stackGone s (stackOf a) = false ∧ stackGone s (stackOf (a + n - 1)) = false

end Sys2Proof

/-- R12, R31, R34, R37, R38, R295: host reads and writes of the far tier move exactly the bytes they name; a read is answered at once, or
when its runs have issued; in a block reset a read returns all ones and a write has no effect on memory. R33: a completion lands in the
local store of the array that asked for it; one that failed brings all ones with the mark. -/
def Obligations.HostAccesses : Prop :=
  (∀ s off len tag ecc, FarOpen s off len → let v := memErrors off len ecc s
    let a := readMem v off len
    ∃ t, exec (.bar4Read off len tag ecc) s = .next t ∧ Answered s t (.icpl tag a (poisonIn v off len)) (.icpl tag a (poisonIn v off len)) ∧
    Frame [.rg, .mem, .pm, .ports] v t ∧ same .cells v t) ∧
  (∀ s off len tag ecc, Live s → s.blk.ireqReady = true → inService s = true → resetWindow s = true →
    let a := List.replicate len 0xFF
    ∃ t, exec (.bar4Read off len tag ecc) s = .next t ∧ Answered s t (.icpl tag a false) (.icpl tag a false) ∧ Frame [.rg, .ports] s t) ∧
  (∀ s off data, FarOpen s off data.length → (∀ x, off ≤ x → x < off + data.length → retiredAt s x = false) →
    Machine.Memory.wf s.mem.cells = true →
    ∃ t, exec (.bar4Write off data false) s = .next t ∧
    (∀ i, i < data.length → tget 0 t.mem.cells (off + i) = data.getD i 0) ∧
    (∀ x, (x < off ∨ off + data.length ≤ x) → tget 0 t.mem.cells x = tget 0 s.mem.cells x)) ∧
  (∀ s off data ep, Live s → s.blk.ireqReady = true → inService s = true → resetWindow s = true →
    ∃ t, exec (.bar4Write off data ep) s = .next t ∧ same .cells s t) ∧
  (∀ s a tag ecc, FarOpen s a 64 → bit (regGet s 0x8) 19 = true → a % 64 = 0 → let v := memErrors a 64 ecc s
    let d := readMem v a 64
    ∃ t, exec (.cmemRequest false a tag [] false ecc) s = .next t ∧
    Answered s t (.cmem tag d (poisonIn v a 64)) (.cmemRsp tag d (poisonIn v a 64)) ∧ same .cells v t) ∧
  (∀ s a tag data ecc, FarOpen s a 64 → bit (regGet s 0x8) 19 = true → a % 64 = 0 → data.length = 64 → retiredAt s a = false →
    Machine.Memory.wf s.mem.cells = true → ∃ t,
    exec (.cmemRequest true a tag data false ecc) s = .next t ∧ (∀ i, i < 64 → tget 0 t.mem.cells (a + i) = data.getD i 0) ∧
    (∀ x, (x < a ∨ a + 64 ≤ x) → tget 0 t.mem.cells x = tget 0 s.mem.cells x)) ∧
  (∀ s b w off size tag ep, Live s → s.blk.ireqReady = true → inService s = true → LogRoom s → ¬ (size = 4 ∧ off % 4 = 0) →
    ¬ (size = 8 ∧ off % 8 = 0) → ∃ t, exec (.barAccessMalformed b w off size tag ep) s = .next t ∧
    Logged (if ep && w then 8 else 0) 0 0x05 t ∧ Frame [.ic, .err, .ports] s t ∧
    t.ports.out = if w then s.ports.out else s.ports.out ++ [.icpl tag (List.replicate size 0xFF) false]) ∧
  (∀ s tag r l p data, Live s → readOf s tag = some r → r.use = .load l → physOf s l = some p → r.crypt = none →
    (∀ x ∈ s.ports.oreq, x.sent = true) →
    exec (.ocplCompletion tag .sc false data) s = .next (modArr p (fun x => x.putLs r.dest (padTo data r.len) (fun _ => false))
      { s with ports := { s.ports with oreq := s.ports.oreq.erase r } })) ∧
  (∀ s tag r l p, Live s → readOf s tag = some r → r.use = .load l → physOf s l = some p → r.crypt = none →
    (∀ x ∈ s.ports.oreq, x.sent = true) → s.ports.hostCe.contains (r.ctx.getD 0) = true →
    exec (.oreqCompletionTimeout tag) s = .next (modArr p (fun x => x.putLs r.dest (List.replicate r.len 0xFF) (fun _ => true))
      { s with ports := { s.ports with oreq := s.ports.oreq.erase r } })) ∧
  (∀ s tag st ep data, Live s → readOf s tag = none → exec (.ocplCompletion tag st ep data) s = .next s)

/-- R14 to R21, R85, R382: register accesses. A write without a behaviour of its own is `regWrite` of the register's fields; EP discards
it; reads answer with the word, the low word latching the high one for its requester; RC fields are cleared. The RC registers whose clear
the statement below names. -/
def Obligations.RegisterAccesses : Prop :=
  (∀ s off val, Live s → s.blk.ireqReady = true → regsOn s = true → off % 4 = 0 → ownWrite s off val = false →
    (off < 0xC20000 ∨ (0xC21000 ≤ off ∧ off < 0xF00000)) →
    exec (.registerWrite .bar0 off val false) s = .next (regWrite off val.toNat s)) ∧
  (∀ s b off val, Live s → s.blk.ireqReady = true → regsOn s = true → LogRoom s → off % 4 = 0 → ∃ t,
    exec (.registerWrite b off val true) s = .next t ∧ Logged 8 0 0x05 t ∧ Frame [.ic, .err] s t) ∧
  (∀ s req off x, Live s → s.blk.ireqReady = true → answers s .bar0 off = true → off % 4 = 0 → clearRc .bar0 off s = none →
    wide0 s off = some x → ∃ t, exec (.lowWordRead .bar0 req off) s = .next t ∧ Sent s t (.regRead req (w32 x)) ∧
    (req, off, w32 (x / 2 ^ 32)) ∈ t.blk.hiLatch ∧ Frame [.blk, .ports] s t) ∧
  (∀ s req off e, Live s → s.blk.ireqReady = true → answers s .bar0 off = true → off % 4 = 0 → clearRc .bar0 off s = none →
    wide0 s off = none → s.blk.hiLatch.find? (fun e => decide (e.1 = req ∧ e.2.1 + 4 = off)) = some e → ∃ t,
    exec (.lowWordRead .bar0 req off) s = .next t ∧ Sent s t (.regRead req e.2.2) ∧ t.blk.hiLatch = s.blk.hiLatch.erase e) ∧
  (∀ s b req off u, Live s → s.blk.ireqReady = true → answers s b off = true → clearRc b off s = some u → ∃ t,
    exec (.rcFieldRead b req off) s = .next t ∧ t = { u with ports := t.ports } ∧
    t.ports.out = u.ports.out ++ [.regRead req (w32 (liveWord s b off))]) ∧
  (∀ s (val : W32), Live s → s.blk.bootState = 6 → bit val.toNat 0 = true →
    exec (.blkLock val) s = .next (regSet 0x10 1 s) ∧ exec (.fabLock val) s = .next (regSet 0xC00004 1 s)) ∧
  (∀ s req, Live s → s.blk.ireqReady = true → regsOn s = true →
  (∃ t, exec (.rcFieldRead .bar0 req 0x1100210) s = .next t ∧ t.pm.jumps = 0 ∧ t.pm.offset = s.pm.offset) ∧
  (∃ t, exec (.rcFieldRead .bar0 req 0x1100318) s = .next t ∧ t.pm.lost = 0 ∧ t.pm.snap = s.pm.snap) ∧
  (∃ t, exec (.rcFieldRead .bar0 req 0x1200014) s = .next t ∧ t.err.lost = 0 ∧ t.err.recs = s.err.recs) ∧
  (∃ t, exec (.rcFieldRead .bar0 req 0x100010) s = .next t ∧ t.fe.broken = 0 ∧ t.fe.lastBroken = s.fe.lastBroken))

/-- R36, R55, R57, R70, R99, R230, R273, R374, R703, R709, R713, R774: each of these events is B-class. In service it makes a block reset
due and its report is in the collector; other than that it changes nothing but the interrupt source (and its own pin or clock). -/
def Obligations.BClassEvents : Prop :=
  ∀ s, Live s → inService s = true → LogRoom s →
  (∀ e ∈ ([(.hapFlr, 8, 0, 0x25), (.meshFatalError, 0, 0, 0x22),
      (.clockLoss .array, 0, 0x001, 0x24), (.clockLoss .mesh, 0, 0x002, 0x24), (.clockLoss .ctrl, 0, 0x003, 0x24)] :
      List (Instr × Nat × Nat × Nat)), ∃ t, exec e.1 s = .next t ∧ t.err.bPending = some e.2.2.2 ∧ t.err.lastType = e.2.2.2 ∧
      Logged e.2.1 e.2.2.1 e.2.2.2 t ∧ Frame [.blk, .ic, .err] s t) ∧
  (∀ n, ∀ e ∈ ([(.eapFatal n, 9, n, 0x23), (.mcInternalError n, 3, n, 0x20), (.lceInternalError n, 2, n, 0x20),
      (.fabricTableError n none, 6, n, 0x20), (.accParityError n, 1, arrName s n, 0x20),
      (.lockstepMismatch n, 1, arrName s n, 0x21), (.clockLoss (.mc n), 0, 0x010 + n, 0x24)] : List (Instr × Nat × Nat × Nat)),
    ∃ t, exec e.1 s = .next t ∧ t.err.bPending = some e.2.2.2 ∧ t.err.lastType = e.2.2.2 ∧
      Logged e.2.1 e.2.2.1 e.2.2.2 t ∧ Frame [.blk, .ic, .err] s t) ∧
  (∀ pins : HapPins, s.blk.linkUp = true → pins.up = false → ∃ t, exec (.hapLinkDown pins) s = .next t ∧ t.err.bPending = some 0x25 ∧
    t.err.lastType = 0x25 ∧ Logged 8 0 0x25 t ∧ t.blk = { s.blk with
      linkUp := false, mps := pins.mps.toNat, mrrs := pins.mrrs.toNat, doeAbort := pins.abort } ∧ Frame [.blk, .ic, .err] s t) ∧
  (s.blk.linkUp = true → ∃ t, exec (.clockLoss .host) s = .next t ∧ t.err.bPending = some 0x24 ∧ Logged 0 0x020 0x24 t ∧
    Frame [.blk, .ic, .err] s t) ∧
  (∀ n, (procAt s n).pstate = 1 → ∃ t, exec (.stewardHang n) s = .next t ∧ t.err.bPending = some 0x26 ∧
    t.err.hungSteward = some n ∧ Logged 0xA n 0x26 t ∧ Frame [.ic, .err] s t) ∧
  (∀ e tag k, eapTagOf s e tag = some k → k.cancelled = true → k.reset = 0 → ∃ t, exec (.cancelTimeout e tag) s = .next t ∧
    t.err.bPending = some 0x23 ∧ Logged 9 e 0x23 t ∧ Frame [.ic, .err] s t) ∧
  (∀ val : W32, bit val.toNat 31 = true → ∃ t, exec (.breset val) s = .next t ∧ t.err.bPending = some 0x27 ∧ Logged 0 0 0x27 t)

/-- R41, R70, R80, R81, R259, R696: the PHYs, the clocks of the integrator and the telemetry. -/
def Obligations.PhysAndTelemetry : Prop :=
  (∀ s n m, Live s → stackGone s n = false → ∃ t, exec (.phyUpdateRequest n m) s = .next t ∧ Sent s t (.phyGrant n) ∧
    n ∈ t.blk.phyHold ∧ Frame [.blk, .ports] s t) ∧
  (∀ s n, Live s → s.blk.bootState ∈ [1, 2, 3] → n < 12 → n ∉ s.blk.mcOk → ∃ t, exec .mcClockWaitExpiry s = .next t ∧
    (stackAt t n).state = 4 ∧ Frame [.mem] s t) ∧
  (∀ s, Live s → exec (.clockLoss .refclk) s = .next { s with blk := { s.blk with stopped := true } }) ∧
  (∀ s temps n, Live s → n < 12 → temps.getD n 0 ≠ 0 → ∃ t, exec (.stackTempRead temps) s = .next t ∧
    (stackAt t n).temp = temps.getD n 0 ∧ Frame [.mem] s t ∧ same .cells s t) ∧
  (∀ s c, Live s → c < 768 → (stackAt s (c / 64)).state = 2 → ∃ t, exec (.refresh c) s = .next t ∧ Sent s t (.refresh c) ∧
    Frame [.ports] s t) ∧
  (∀ s n (f : W32), Live s → n < field (regGet s 0x8) 12 4 → bit (telAt s n).map 7 = true →
    field (telAt s n).map 0 4 = field f.toNat 28 4 → ∃ t, exec (.telemetryFrame n f) s = .next t ∧
    telAt t n = { telAt s n with
      rail := field f.toNat 28 4, volts := field f.toNat 16 12, amps := field f.toNat 0 16, lost := false } ∧
    t.pm.power = min 65535 (telPower t) ∧ Frame [.blk, .pm, .freeCtr] s t) ∧
  (∀ s n (f : W32), Live s → n < field (regGet s 0x8) 12 4 → field (telAt s n).map 0 4 ≠ field f.toNat 28 4 → LogRoom s → ∃ t,
    exec (.telemetryFrame n f) s = .next t ∧ Logged 0 0 0x07 t ∧ Frame [.ic, .err] s t) ∧
  (∀ s n, Live s → bit (telAt s n).map 7 = true → (telAt s n).lost = false → LogRoom s → ∃ t,
    exec (.telemetryChannelLost n) s = .next t ∧ (telAt t n).lost = true ∧ Logged 0 0 0x07 t)

/-- R51 to R57, R60: an engine's DONE frees its tag and ends its task, its requests are translated in the context of the task, a CANCEL
that a block reset raised ends with its acknowledgement. -/
def Obligations.EnginePorts : Prop :=
  (∀ s e tag st cyc, Live s → eapTagOf s e tag = none → LogRoom s → ∃ t, exec (.eapDone e tag st cyc) s = .next t ∧
    Logged 9 e 0x07 t ∧ Frame [.ic, .err] s t) ∧
  (∀ s e tag st cyc k q, Live s → eapTagOf s e tag = some k → k.reset = 0 → k.eap = e → k.gen = (queueAt s k.queue).gen →
    taskOf s k.seq = some q → s.blk.eapWait = [] → q.early = none →
    exec (.eapDone e tag st cyc) s = .next (taskEnd q.seq (engineStatus st.toNat) cyc.toNat
      (if (engineStatus st.toNat).good then none else some (qType (engineStatus st.toNat), detailOf q.ctx 0))
      (outliveEap e tag.toNat q { s with blk := { s.blk with eapTags := s.blk.eapTags.erase k } }))) ∧
  (∀ s e tag k q va n a h mem, Computing s → eapTagOf s e tag = some k → k.cancelled = false → taskOf s k.seq = some q → 0 < n →
    n ≤ 256 → spansOf 4096 va.toNat n = [(va.toNat, n)] → xl s (.eap e 0) q.ctx va.toNat n .read = .ok 0 a →
    let v := memErrors a n mem s
    let st := if poisonIn v a n then Status.donePoisoned else Status.done
    ∃ t, exec (.eapMreq e tag .read va n [] h mem) s = .next t ∧ same .cells v t ∧
    Answered s t (.eap e tag.toNat st (readMem v a n) false none) (.eapRsp e tag.toNat st (readMem v a n))) ∧
  (∀ s e tag op va n d h mem, Computing s → eapTagOf s e tag = none →
    exec (.eapMreq e tag op va n d h mem) s = .next (emit (.eapRsp e tag.toNat .faultAddress []) s)) ∧
  (∀ s e tag k, Live s → eapTagOf s e tag = some k → k.reset = 1 → s.blk.eapWait = [] →
    exec (.cancelAck e tag) s = .next { s with blk := { s.blk with
      eapTags := s.blk.eapTags.map (fun x => if x = k then { x with reset := 2 } else x) } }) ∧
  (∀ s e tag, Live s → eapTagOf s e tag = none → exec (.cancelAck e tag) s = .next s)

/-- R10, R63, R64, R150, R658, R659, R744: what the TAP, the debug port, MCTP and PLDM answer. R79, R690: the throttle pin. A change of it
fires source 37; the round in progress counts as throttled. -/
def Obligations.ManagementAndThrottle : Prop :=
  (∀ s, Live s → bit (regGet s 0x8) 16 = false → ∃ t, exec (.tapInstruction .idcode) s = .next t ∧
    Sent s t (.tap (leBytes 4 (idcode s))) ∧ Frame [.ports] s t) ∧
  (∀ s, Live s → bit (regGet s 0x8) 16 = false → confMode s = false → ∃ t, exec (.tapInstruction .debug) s = .next t ∧
    t.csb.debugUsed = true ∧ Frame [.csb, .ports] s t) ∧
  (∀ s, Live s → bit (regGet s 0x8) 16 = false → confMode s = true → exec (.tapInstruction .debug) s = .next s) ∧
  (∀ s a n, Live s → debugOpen s = true → 0x30000000000 ≤ a → a + n ≤ 0x30000000000 + 912 * 0x200000 → ∃ t,
    exec (.debugPortAccess (.read a n)) s = .next t ∧ Sent s t (.debug (debugView s a n)) ∧ t.csb.debugUsed = true ∧
    Frame [.csb, .ports] s t) ∧
  (∀ s p q, Live s → debugOpen s = true → p < 912 → maySave (arrAt s p) = true → (arrAt s p).task = some q → taskOf s q ≠ none →
    ∃ t, exec (.debugPortAccess (.preempt p)) s = .next t ∧ (arrAt t p).saving = some false ∧ (arrAt t p).preempt = none ∧
    t.csb.debugUsed = true) ∧
  (∀ s r, Live s → debugOpen s = false → exec (.debugPortAccess r) s = .next s) ∧
  (∀ s e, Live s → 0 < e → e < 255 → ∃ t, exec (.mctpControlMessage (.setEid e)) s = .next t ∧ t.cmb.eid = e ∧
    Frame [.cmb, .ports] s t) ∧
  (∀ s x v, Live s → sensorValue s x = some v → ∃ t, exec (.pldmRequest 2 x) s = .next t ∧ Sent s t (.pldm v true) ∧
    Frame [.ports] s t) ∧
  (∀ s, Live s → s.pm.thrPin = false → ∃ t, exec .throttleAssert s = .next t ∧ t.pm.thrPin = true ∧ t.pm.throttled = true ∧
    t.blk = { s.blk with throttle := true } ∧ Frame [.blk, .ic, .pm] s t) ∧
  (∀ s, Live s → s.pm.thrPin = true → ∃ t, exec .throttleRelease s = .next t ∧ t.pm.thrPin = false ∧
    t.blk = { s.blk with throttle := false } ∧ Frame [.blk, .ic, .pm] s t) ∧
  (∀ s, s.blk.coldLow = true → exec .throttleAssert s = .next { s with blk := { s.blk with throttle := true } })

/-! ## The links (chapter 7) -/

/-- R317 to R319, R324, R366, R368 to R371, R385: a port trains, comes up on lanes good at both ends, degrades to a whole half, retrains,
loses its state. -/
def Obligations.PortStates : Prop :=
  (∀ s p t good, Live s → portTrains s p = true → 2 ≤ portMode s p → (portAt s p).state = 1 → (portAt s p).paused = false →
    (portAt s p).asked = false → (portAt s p).txq = [] → let n := chooseLanes s p (good % 256 &&& t.lanes)
    n ≠ 0 → ∃ u, exec (.trainSet p t good true) s = .next u ∧ (portAt u p).state = laneState n ∧ (portAt u p).active = n ∧
    (portAt u p).lanes = good % 256 ∧ Frame [.fab] s u) ∧
  (∀ s p t good, Live s → portTrains s p = true → portMode s p = 1 → (portAt s p).state = 1 → partnerBad s t = true → LogRoom s →
    ∃ u, exec (.trainSet p t good true) s = .next u ∧ (portAt u p).state = 5 ∧ (portAt u p).partner = t.node % 4096 ∧
    Logged 6 p 0x07 u ∧ Frame [.ic, .err, .fab] s u) ∧
  (∀ s p t good, Live s → portTrains s p = true → 1 ≤ (portAt s p).state → (portAt s p).state ≤ 4 →
    exec (.trainSet p t good false) s = .next (modPort p (fun x => { x with crcErr := x.crcErr + 1 }) s)) ∧
  (∀ s p lane, Live s → portUp s p = true → portMode s p = 1 → bit (portAt s p).lanes lane = true →
    laneIdle (portAt s p) lane = false → halfWhole ((portAt s p).lanes - 2 ^ lane) false = true → LogRoom s → ∃ u,
    exec (.laneFailure p lane) s = .next u ∧ (portAt u p).state = 3 ∧ (portAt u p).high = false ∧ (portAt u p).active = 0x0F ∧
    (portAt u p).lanes = (portAt s p).lanes - 2 ^ lane ∧ Logged 6 p 0x06 u) ∧
  (∀ s p h, Live s → portUp s p = true → portMode s p = 1 → halfWhole (portAt s p).lanes h = true →
    (portAt s p).paused = false → ∃ u, exec (.degradeSet p h true) s = .next u ∧ (portAt u p).state = 3 ∧ (portAt u p).high = h ∧
    (portAt u p).active = (if h then 0xF0 else 0x0F) ∧ (portAt u p).paused = true ∧ Frame [.fab, .ports, .ic, .err] s u) ∧
  (∀ s p, Live s → portTrains s p = true → portMode s p ≠ 1 → (portAt s p).state = 1 → (portAt s p).logged = true → ∃ u,
    exec (.portTrainingRetry p) s = .next u ∧ (portAt u p).state = 1 ∧ (portAt u p).kept = true) ∧
  (∀ s p, Live s → (portAt s p).state = 4 → ∃ u, exec (.holdTimeout p) s = .next u ∧ (portAt u p).state = 1) ∧
  (∀ s p, Live s → portUp s p = true → portMode s p = 1 → (portAt s p).paused = false → (portAt s p).replay ≠ [] →
    portTag s p = false → LogRoom s → ∃ u, exec (.ackTimeout p) s = .next u ∧ (portAt u p).state = 4 ∧
    (portAt u p).retrain = (portAt s p).retrain + 1 ∧ (portAt u p).replay = (portAt s p).replay ∧ Logged 6 p 0x06 u) ∧
  (∀ s p (v : W32), Live s → inService s = true → (portAt s p).kept = false →
    portTrains (regSet (portReg p 0) (field v.toNat 27 5 * 2 ^ 27) s) p = false →
    exec (.portModeWrite p v) s = .next (modPort p (fun x => { x with
      state := 0, lanes := 0, active := 0, partner := 0xFFF, high := false, asked := false, kept := true, logged := false,
      distance := 0xFF, master := 0xFFF }) (regSet (portReg p 0) (field v.toNat 27 5 * 2 ^ 27) s))) ∧
  (∀ s p (v : W32), Live s → inService s = true → field v.toNat 30 2 = portMode s p → bit v.toNat 26 = true → p < 8 →
    portMode s p ≠ 1 → portUp s p = true → ∃ u, exec (.portRetrain p v) s = .next u ∧ (portAt u p).state = 4 ∧
    (portAt u p).retrain = (portAt s p).retrain + 1 ∧ (portAt u p).asked = true ∧ Frame [.regs, .fab] s u) ∧
  (∀ s p lanes, let n := chooseLanes s p lanes
    (n = 0 ∨ n = 0x0F ∨ n = 0xF0 ∨ n = 0xFF) ∧ lanes % 256 &&& n = n ∧ (n = 0xFF → bit (regGet s (portReg p 0)) 29 = true))

/-- R46, R324, R377: delay messages carry times corrected by the SerDes latencies, a request leaves once in 1,024 beats, and the link delay
is ((t4 − t1) − (t3 − t2)) / 2. R322, R323, R326 to R328: a flit with a bad code is answered with one NAK, or discarded when one was sent;
what was found is counted; a good idle flit returns its credits; the data flit with the expected SEQ is taken. -/
def Obligations.LinkMessages : Prop :=
  (∀ s p, Live s → portUp s p = true → portMode s p = 1 →
  (∀ t1, delayDue s p = true → exec (.delayReqSend p t1) s =
    .next (emit (.delayReq p (t1 + (portAt s p).txLat)) (modPort p (fun x => { x with reqAt := some (beat s) }) s))) ∧
  (∀ t1, delayDue s p = false → exec (.delayReqSend p t1) s = .next s) ∧
  (∀ t1 t2 t3, exec (.delayReq p t1 t2 t3 true) s =
    .next (emit (.delayRsp p t1 (t2 - (portAt s p).rxLat) (t3 + (portAt s p).txLat)) s)) ∧
  (∀ t1 t2 t3 t4, exec (.delayRsp p t1 t2 t3 t4 true) s =
    .next (modPort p (fun x => { x with delay := ((t4 - x.rxLat - t1) - (t3 - t2)) / 2 }) s))) ∧
  (∀ s p f cor unc, Live s → portUp s p = true → portMode s p = 1 → (portAt s p).paused = false → flitIntact f = false →
    (portAt s p).nakSent = true → ∃ u, exec (.flitReceive p f cor unc) s = .next u ∧
    portAt u p = { portAt s p with
      rxCnt := (portAt s p).rxCnt + 1, fecCor := (portAt s p).fecCor + cor, fecUnc := (portAt s p).fecUnc + unc, crcErr := (portAt s p).crcErr + 1 } ∧ Frame [.fab] s u) ∧
  (∀ s p f cor unc, Live s → portUp s p = true → portMode s p = 1 → (portAt s p).paused = false → unc ≠ 0 →
    (portAt s p).nakSent = false → ∃ u, exec (.flitReceive p f cor unc) s = .next u ∧ (portAt u p).nakSent = true ∧
    (portAt u p).fecUnc = (portAt s p).fecUnc + unc ∧ (portAt u p).rx = (portAt s p).rx) ∧
  (∀ s p f cor, Live s → portUp s p = true → portMode s p = 1 → (portAt s p).paused = false → flitIntact f = true →
    field f.lhdr.toNat 37 2 = 1 → bit f.lhdr.toNat 39 = false → (portAt s p).txq = [] → ∃ u,
    exec (.flitReceive p f cor 0) s = .next u ∧ (portAt u p).rxCnt = (portAt s p).rxCnt + 1 ∧ let v := field f.lhdr.toNat 34 3
      (portAt u p).credits = lset (portAt s p).credits v ((portAt s p).credits.getD v 0 +
        min (field f.lhdr.toNat 21 13) ((portAt s p).owed.getD v 0))) ∧
  (∀ s p f cor, Live s → portUp s p = true → portMode s p = 1 → (portAt s p).paused = false → flitIntact f = true →
    field f.lhdr.toNat 37 2 = 0 → field f.lhdr.toNat 52 12 = (portAt s p).rxSeq → bit f.lhdr.toNat 39 = false →
    (portAt s p).txq = [] → ∃ u, exec (.flitReceive p f cor 0) s = .next u ∧ (portAt u p).rxSeq = ((portAt s p).rxSeq + 1) % 4096 ∧
    (portAt u p).rx = (portAt s p).rx ++ (unitPackets (flitUnits f) (portAt s p).part).1 ∧ (portAt u p).nakSent = false) ∧
  (∀ p data nak units start s, units.length ≤ 15 → ∃ f, (sendFlit p data nak units start s).ports.out =
    s.ports.out ++ [.flit p f] ∧ flitIntact f = true ∧ f.units.length = 15)

/-! ## Packets (chapter 7) -/

namespace Sys2Proof

/-- A packet with operation `opc` for this node stands first on port p, in service and before its deadline. -/
def Arrives (s : State) (p opc : Nat) (k : Packet) : Prop :=
  Serving s ∧ resetWindow s = false ∧ rxHead s p (fun k => decide (k.opc = opc ∧ k.dst = nodeId s)) = some k ∧
    latePast s k.deadline = false

end Sys2Proof

/-- R335, R338: READ answers with the bytes and the mask of their marks, once its runs have issued; a shape, an address or a window that is
not allowed is answered with its status. Memory is unchanged. -/
def Obligations.ServedReads : Prop :=
  ∀ s p k ecc, Arrives s p 0x01 k →
  let a := k.arg % 2 ^ 48
  let u := takeRx p k s
  (shapeOk a k.len = true → inMemory a k.len = true → winOpen s 0 28 k.src a k.len = true → localOk s a k.len = true →
    let v := memErrors a k.len ecc u
    exec (.readRequest p ecc) s = .next (answerWhen s.rg.reqs
      (.fab k (if readMask v a k.len = 0 then 0 else 1) (readMask v a k.len) 0 (readMem v a k.len))
      (access (.fabric s.rg.reqs) 12 none false a k.len v))) ∧
  (shapeOk a k.len = false → exec (.readRequest p ecc) s = .next (answer k 0x11 0 0 [] u)) ∧
  (shapeOk a k.len = true → inMemory a k.len = false → exec (.readRequest p ecc) s = .next (answer k 0x10 0 0 [] u)) ∧
  (shapeOk a k.len = true → inMemory a k.len = true → winOpen s 0 28 k.src a k.len = false →
    exec (.readRequest p ecc) s = .next (answer k 0x30 0 0 [] u)) ∧
  (shapeOk a k.len = true → inMemory a k.len = true → winOpen s 0 28 k.src a k.len = true → localOk s a k.len = false →
    exec (.readRequest p ecc) s = .next (answer k 0x10 0 0 [] u)) ∧
  ∃ t, exec (.readRequest p []) s = .next t ∧ same .cells s t

/-- R338 to R341: WRITE, WRITE_LS, the atomics and TSIG change exactly what they name, and are answered. -/
def Obligations.ServedWrites : Prop :=
  (∀ s p k, Arrives s p 0x02 k → let a := k.arg % 2 ^ 48
    let n := k.data.length
    shapeOk a n = true → inMemory a n = true → winOpen s 0 27 k.src a n = true → localOk s a n = true →
    (∀ x, a ≤ x → x < a + n → retiredAt s x = false) → Machine.Memory.wf s.mem.cells = true →
    ∃ t u, exec (.writeRequest p) s = .next t ∧ t = answerWhen s.rg.reqs (.fab k 0 0 0 []) u ∧
    (∀ i, i < n → tget 0 t.mem.cells (a + i) = k.data.getD i 0) ∧
    (∀ x, (x < a ∨ a + n ≤ x) → tget 0 t.mem.cells x = tget 0 s.mem.cells x)) ∧
  (∀ s p k, Arrives s p 0x02 k → let a := k.arg % 2 ^ 48
    shapeOk a k.data.length = true → inMemory a k.data.length = true → winOpen s 0 27 k.src a k.data.length = false →
    exec (.writeRequest p) s = .next (answer k 0x30 0 0 [] (takeRx p k s))) ∧
  (∀ s p k u, Arrives s p 0x03 k → k.data ≠ [] → k.data.length ≤ 512 → winOpen s 2 27 k.src (field k.arg 0 10) 1 = true →
    windowWrite (field k.arg 10 37) (field k.arg 0 10) (field k.operand 0 20) k.data
      (pieceBad k.pmask (field k.operand 0 20)) (takeRx p k s) = some u →
    exec (.writeLs p) s = .next (answer k 0 0 0 [] u)) ∧
  (∀ o ∈ [(@Instr.addRequest, 0x04, 0), (@Instr.fadd, 0x05, 1), (@Instr.cas, 0x06, 2)], ∀ s p k ecc, Arrives s p o.2.1 k →
    let a := k.arg % 2 ^ 48
    let v := memErrors a 8 ecc (takeRx p k s)
    let r := atomicResult o.2.2 (leNat (readMem v a 8)) (if o.2.2 = 2 then leNat k.data else k.operand) k.operand
    a % 8 = 0 → k.data.length = (if o.2.2 = 2 then 8 else 0) → inMemory a 8 = true → winOpen s 0 26 k.src a 8 = true →
    localOk s a 8 = true → retiredAt v a = false → Machine.Memory.wf v.mem.cells = true →
    ∃ t u, exec (o.1 p ecc) s = .next t ∧ t = answerWhen s.rg.reqs (.fab k 0 0 r.2 []) u ∧
    (∀ i, i < 8 → tget 0 t.mem.cells (a + i) = (leBytes 8 r.1).getD i 0) ∧
    (∀ x, (x < a ∨ a + 8 ≤ x) → tget 0 t.mem.cells x = tget 0 v.mem.cells x)) ∧
  (∀ s p k, Arrives s p 0x07 k → k.data = [] → winOpen s 1 26 k.src (field k.arg 0 14) 1 = true → Quiet s (field k.arg 0 14) →
    exec (.tsig p) s = .next (answer k 0 0 0 [] (twWrite (field k.arg 0 14) (twAt s (field k.arg 0 14) +
      w32 (k.operand % 2 ^ 32)) 0x2 k.src (takeRx p k s)))) ∧
  (∀ s p k, Serving s → resetWindow s = false → latePast s k.deadline = false → routeValid s k.src = true → isUpdate k = false →
    rxHead s p (fun k => decide (k.opc = 0x09 ∧ k.dst = nodeId s) && !isUpdate k) = some k →
    rxHead s p (fun k => decide (k.opc = 0x09 ∧ k.dst = nodeId s)) = some k →
    exec (.fwmsg p) s = .next (answer k 0 0 0 [] (takeRx p k s)))

/-- R330, R344, R345, R350, R353, R371: a response settles its request and nothing else; one that fits none is counted; an unknown
operation is logged; a packet for another node goes on by its route with its level raised, and keeps its place in the receive buffer until
it leaves; held requests of a flow leave by its new port. R343, R347: a command that reads control data at another node sends its READs
first, and the reply is kept for it. -/
def Obligations.ResponsesAndForwarding : Prop :=
  (∀ o ∈ [(Instr.readRsp, 0x81, [1]), (Instr.ackResponse, 0x82, [2, 3, 4, 7, 9]), (Instr.atomRsp, 0x85, [5, 6])], ∀ s p k, Live s →
    rxHead s p (fun k => decide (k.opc = o.2.1 ∧ k.dst = nodeId s)) = some k → let u := takeRx p k s
    (∀ r, answered u k = some r → r.opc ∈ o.2.2 → exec (o.1 p) s = .next (settleReq r (replyOf k) u)) ∧
    (∀ r, answered u k = some r → r.opc ∉ o.2.2 → exec (o.1 p) s = .next (countDrop p u)) ∧
    (answered u k = none → exec (o.1 p) s = .next (countDrop p u))) ∧
  (∀ s p k, Live s → rxHead s p (fun k => !opcKnown k.opc) = some k → LogRoom s → ∃ t,
    exec (.reservedOpcDiscard p) s = .next t ∧ Logged 6 p 0x07 t ∧ same .cells s t) ∧
  (∀ s n r, Live s → s.fab.reqs.find? (fun r => decide (r.tag = n)) = some r →
    exec (.requestTimeout n) s = .next (settleReq r .lost s)) ∧
  (∀ s n r, Live s → s.fab.reqs.find? (fun r => decide (r.tag = n)) = some r → r.use = .dropped false 0x3FF →
    exec (.requestTimeout n) s = .next { s with fab := { s.fab with reqs := s.fab.reqs.erase r } }) ∧
  (∀ s p k, Live s → rxHead s p (fun k => opcKnown k.opc && decide (k.dst ≠ nodeId s)) = some k →
    (isRequest k && latePast s k.deadline) = false → routeValid s k.dst = true → field (routeOf s k.dst) 29 2 = 0 →
    portMode s p = 1 → k.level % 4 ≠ 3 →
    exec (.packetForward p) s = .next (putOn (choosePort s k.dst k.ch) { pkt := { k with level := k.level + 1 }, src := some (p, vcOf k) }
      (modPort p (fun x => { x with rx := x.rx.erase k }) s))) ∧
  (∀ s n k, Live s → s.fab.heldTx = [(n, k)] → let p := choosePort s k.dst k.ch
    (∀ r ∈ s.fab.reqs, onOldPath s k.dst k.ch r = false) →
    exec (.flowPortChange k.dst k.ch) s = .next (putOn p { pkt := { k with gen := (portAt s p).gen }, own := true }
      { s with fab := { s.fab with heldTx := [], reqs := s.fab.reqs.map (fun r =>
        if r.tag = n then { r with port := p, link := linkOf s p k.ch, gen := (portAt s p).gen } else r) } })) ∧
  (∀ key o ch seq c va n f s, xlRange s o c va n .read = none →
    ((remoteSpans s o c va n).all (hasFetch s key c) = false → Frame [.fab, .ports] s (reading key o ch seq c va n f s)) ∧
    ((remoteSpans s o c va n).all (hasFetch s key c) = true → fetchWaits s key = true → reading key o ch seq c va n f s = s)) ∧
  (∀ r mask v data s, r.use = .ctl → ∀ x ∈ s.fab.fetches, x.tag = r.tag → x.res = .waiting →
    { x with res := .data (padTo data r.len) mask } ∈ (settleReq r (.done mask v data) s).fab.fetches)

/-- R357 to R360, R388: a frame with the expected PSN is taken and the PSN rises; one from no peer, one of another form and one with an
uncorrectable codeword are dropped and counted; the sender resends after a timeout; the rate recovers. -/
def Obligations.EthernetTransport : Prop :=
  (∀ s p f cor, Live s → portUp s p = true → 2 ≤ portMode s p → framePtp f = false → (frameOk s f = false ∨ peerOf s f.ip = none) →
    exec (.ethernetFrame p f cor 0) s = .next (countDrop p (countRx p cor 0 s))) ∧
  (∀ s p f cor unc, Live s → portUp s p = true → 2 ≤ portMode s p → unc ≠ 0 →
    exec (.ethernetFrame p f cor unc) s = .next (countDrop p (countRx p cor unc s))) ∧
  (∀ s p f cor k, Live s → portUp s p = true → 2 ≤ portMode s p → framePtp f = false → frameOk s f = true → f.ackOnly = false →
    f.nak = false → peerOf s f.ip = some k → (portAt s p).txq = [] → f.psn < 2 ^ 24 → (peerAt s k).expected = f.psn →
    let l := f.packets.map (fun b => { packetOf b with level := 0 })
    rxRoom s p l = true → ∃ t, exec (.ethernetFrame p f cor 0) s = .next t ∧ (peerAt t k).expected = (f.psn + 1) % 2 ^ 24 ∧
    (portAt t p).rx = (portAt s p).rx ++ l.filter (peerMay s k)) ∧
  (∀ s k, Live s → (peerAt s k).unacked ≠ [] → (peerAt s k).timeouts + 1 < retryMax s → ∃ t,
    exec (.retransmitTimeout k) s = .next t ∧ (peerAt t k).timeouts = (peerAt s k).timeouts + 1 ∧
    (peerAt t k).unacked = (peerAt s k).unacked.map (fun f => { f with port := peerPort s k }) ∧ Frame [.fab, .ports] s t) ∧
  (∀ s k, Live s → exec (.rateRecovery k) s = .next (modPeer k (fun x => { x with rate := min 64 (x.rate + 1) }) s))

/-! ## Memory (chapters 5 and 6) -/

/-- R246, R253 to R255, R280: the near-tier mode changes step by step; a step that changes its role reads zero. R273, R274, R277: patrol
marks what cannot be corrected, and only that; a granule that moves takes its bytes along and its old storage is retired. -/
def Obligations.MemoryTiers : Prop :=
  (∀ s (v : W32), Live s → regsOn s = true → (bit v.toNat 8 = true ∨ confMode s = false) → stepsHeld s (field v.toNat 0 3) = false →
    s.mem.ntNext = none → (field v.toNat 0 3 ≠ s.mem.steps ∨ bit v.toNat 8 ≠ s.mem.divided) → ∃ t,
    exec (.nearTierModeWrite v) s = .next t ∧ t.mem.ntState = 1 ∧ t.mem.ntNext = some (field v.toNat 0 3, bit v.toNat 8) ∧
    t.mem.changing = (List.range 7).filter (fun k => decide (k < field v.toNat 0 3) != decide (k < s.mem.steps)) ∧
    t.mem.steps = s.mem.steps ∧ Frame [.regs, .mem] s t ∧ same .cells s t) ∧
  (∀ s (v : W32), Live s → regsOn s = true → (bit v.toNat 8 = true ∨ confMode s = false) →
    (stepsHeld s (field v.toNat 0 3) = true ∨ s.mem.ntNext ≠ none) → exec (.nearTierModeWrite v) s =
      .next { s with mem := { s.mem with ntState := 2, ntResult := Status.busy.code } }) ∧
  (∀ s (v : W32), Live s → regsOn s = true → bit v.toNat 8 = false → confMode s = true → exec (.nearTierModeWrite v) s =
      .next { s with mem := { s.mem with ntState := 2, ntResult := Status.denied.code } }) ∧
  (∀ s k r, Live s → s.mem.changing = k :: r → ∃ t, exec .nearTierStepZeroed s = .next t ∧ t.mem.changing = r ∧
    (∀ x, scratchBase + k * stepSize ≤ x → x < scratchBase + (k + 1) * stepSize → tget 0 t.mem.cells x = 0) ∧
    (∀ x, (x < scratchBase + k * stepSize ∨ scratchBase + (k + 1) * stepSize ≤ x) → tget 0 t.mem.cells x = tget 0 s.mem.cells x) ∧
    (∀ n d, r = [] → s.mem.inval = [] → s.mem.ntNext = some (n, d) → t.mem.steps = n ∧ t.mem.divided = d ∧ t.mem.ntNext = none)) ∧
  (∀ s, Live s → ∃ t, exec .cacheInvalidationDone s = .next t ∧ t.mem.inval = [] ∧ (∀ e ∈ t.mem.cache, sliceOf e.2.1 ∉ s.mem.inval) ∧
    Frame [.mem] s t ∧ same .cells s t) ∧
  (∀ s a, Live s → field (regGet s 0xA00010) 24 8 ≠ 0 → patrolled s a = true → ∃ t, exec (.patrolRead a none) s = .next t ∧
    t.mem.poison = s.mem.poison ∧ same .cells s t ∧ Frame [.mem, .rg] s t) ∧
  (∀ s a k, Live s → field (regGet s 0xA00010) 24 8 ≠ 0 → patrolled s a = true → isFar a = false → ∃ t,
    exec (.patrolRead a (some k)) s = .next t ∧
    t.mem.poison = (if correctable k then s.mem.poison else sinsert (a / 64) s.mem.poison) ∧ Frame [.mem, .ic, .err] s t) ∧
  (∀ s old new, Computing s → s.mem.moves.find? (fun m => decide (m.1 = old)) = some (old, new) → allocOfGranule s old = none →
    runsWait s .firmware = false → (chanAt s (pcOf (old * 4096))).state = 1 → new ≠ old →
    (∀ i, i < 4096 → retiredAt s (new * 4096 + i) = false) → Machine.Memory.wf s.mem.cells = true → ∃ t, exec (.granuleMoveDone old) s = .next t ∧ old ∈ t.mem.retired ∧
    (∀ m ∈ t.mem.moves, m.1 ≠ old) ∧
    (∀ i, i < 4096 → tget 0 t.mem.cells (new * 4096 + i) = memByte s (old * 4096 + i)))

/-- R261, R287, R291 to R298, R301, R303: a run time serves the regulator it was dealt to; one that is not used is counted; a reserved one
serves a refresh that waits; an answer whose runs have issued goes out. A rate that fits is pending for the next round, one that does not is
refused. The deal of R290: it has 124 run times a beat, and while no regulator has a rate they all go to u (13). -/
def Obligations.MemoryRegulation : Prop :=
  (∀ s c, Live s → c < 768 → inService s = true → tget 0 s.rg.slot c < 128 → s.rg.gap = true → (chanAt s c).state = 0 →
    exec (.runTime c) s = .next (releaseReady { s with rg := { s.rg with slot := tset 0 s.rg.slot c (tget 0 s.rg.slot c + 1) } })) ∧
  (∀ s c w, Live s → c < 768 → inService s = true → s.rg.gap = false → let n := tget 0 s.rg.slot c
    n < 128 → n % 32 ≠ 0 → s.rg.deal.getD (n - n / 32 - 1) 13 = w → w < 13 → issues s c = true → (runQAt s c w).runs ≠ [] →
    exec (.runTime c) s = .next (releaseReady (spendPip c w (modReg w (fun x => { x with spent := (x.spent + 1) % 2 ^ 64 })
      (modReg w (fun x => { x with dealt := (x.dealt + 1) % 2 ^ 64 })
        { s with rg := { s.rg with slot := tset 0 s.rg.slot c (n + 1) } }))))) ∧
  (∀ s c w, Live s → c < 768 → inService s = true → s.rg.gap = false → (chanAt s c).state = 0 → let n := tget 0 s.rg.slot c
    n < 128 → n % 32 ≠ 0 → s.rg.deal.getD (n - n / 32 - 1) 13 = w → w < 13 → issues s c = false →
    exec (.runTime c) s = .next (releaseReady (modReg w (fun x => { x with expired := (x.expired + 1) % 2 ^ 64 })
      (modReg w (fun x => { x with dealt := (x.dealt + 1) % 2 ^ 64 })
        { s with rg := { s.rg with slot := tset 0 s.rg.slot c (n + 1) } })))) ∧
  (∀ s c x r, Live s → c < 768 → inService s = true → s.rg.gap = false → let n := tget 0 s.rg.slot c
    n < 128 → n % 32 = 0 → issues s c = true → (runQAt s c 13).runs = x :: r → x.refresh = true → (runQAt s c 13).page = 0 →
    exec (.runTime c) s = .next (releaseReady (emit (.refresh c) (modRunQ c 13 (fun q => { q with runs := r })
      { s with rg := { s.rg with slot := tset 0 s.rg.slot c (n + 1) } })))) ∧
  (∀ s, (∀ h ∈ s.rg.held, idWaits s h.1 = true) → releaseReady s = s) ∧
  (∀ s i tag d ep, s.rg.held = [(i, .icpl tag d ep)] → idWaits s i = false →
    releaseReady s = emit (.icpl tag d ep) { s with rg := { s.rg with held := [] } }) ∧
  (∀ s r (v : W32), Live s → regsOn s = true → r < 13 → let rate := field v.toNat 16 7
    (((List.range 13).filter (fun k => decide (k ≠ r))).map (rateSoon s)).foldl (fun a b => a + b) 0 + rate ≤ 124 →
    (r = 12 → rate ≠ 0) → (bit v.toNat 31 = true → r = 12 ∨ confPart s r = false) →
    exec (.rgCfgWrite r v) s = .next (modReg r (fun x => { x with
      next := some (rate, bit v.toNat 31, field v.toNat 0 7), state := 2 }) (regSet (0xA04000 + 0x40 * r) (v.toNat &&& 0x807F007F) s))) ∧
  (∀ s r (v : W32), Live s → regsOn s = true → r < 13 →
    124 < (((List.range 13).filter (fun k => decide (k ≠ r))).map (rateSoon s)).foldl (fun a b => a + b) 0 + field v.toNat 16 7 →
    exec (.rgCfgWrite r v) s = .next (modReg r (fun x => { x with result := Status.denied.code }) s)) ∧
  (∀ n rates cur, (dealSlots n rates cur).length = n) ∧
  (∀ s, (∀ r, r < 13 → (regAt s r).rate = 0) → dealOf s = List.replicate 124 13)

/-- R306 to R312: a traffic generator starts, refuses what it may not do, writes or compares codeword by codeword, stops, and reports. -/
def Obligations.TrafficGenerators : Prop :=
  (∀ s c, Live s → regsOn s = true → c < 768 → tgPattern s c < 6 → (chanAt s c).state ≠ 3 → stackGone s (c / 64) = false →
    ((chanAt s c).state = 0 → tgOp s c = 3) → (tgAt s c).state ≠ 1 →
    exec (.tgStart c) s = .next (modTg c (fun x => { x with
      state := 1, result := 0, err := 0, done := 0, pos := 0, opened := false, first := none }) s)) ∧
  (∀ s c, Live s → regsOn s = true → c < 768 → 6 ≤ tgPattern s c →
    exec (.tgStart c) s = .next (modTg c (fun x => { x with result := Status.faultFormat.code }) s)) ∧
  (∀ s c, Live s → regsOn s = true → c < 768 → tgPattern s c < 6 → (chanAt s c).state = 0 → tgOp s c ≠ 3 →
    exec (.tgStart c) s = .next (modTg c (fun x => { x with result := Status.denied.code }) s)) ∧
  (∀ s c i, (tgOp s c = 0 ∨ tgOp s c = 2) → Machine.Memory.wf s.mem.cells = true →
    getBytes (tgStep c i s).mem.cells (tgWord s c i).2.2 64 =
      tgData (tgPattern s c) (tgSeed s c) c (tgWord s c i).1 (tgWord s c i).2.1) ∧
  (∀ s c i, tgOp s c = 1 → same .cells s (tgStep c i s) ∧ (tgAt (tgStep c i s) c).errors =
    if tgDiffers s c i then sat 16 ((tgAt s c).errors + 1) else (tgAt s c).errors) ∧
  (∀ s c n g, tgOp s c = 3 → same .cells s (tgAdvance c n g s)) ∧
  (∀ p seed c j k, (tgData p seed c j k).length = 64) ∧
  (∀ s c l, Live s → regsOn s = true → c < 768 → (tgAt s c).state = 1 → (tgAt s c).pos ≤ tgLen s c → ∃ t,
    exec (.tgStop c l) s = .next t ∧ (tgAt t c).state = 3 ∧ (tgAt s c).pos ≤ (tgAt t c).pos ∧ (tgAt t c).pos ≤ tgLen s c ∧
    (tgAt t c).done = (tgAt t c).pos / 64) ∧
  (∀ s c l, Live s → c < 768 → (tgAt s c).state = 1 → (tgAt s c).pos ≤ tgLen s c → ∃ t, exec (.tgRunDone c l) s = .next t ∧
    (tgAt t c).state = 2 ∧ (tgAt t c).result = 0 ∧ (tgAt t c).done = tgReg s c 0xC)

/-! ## Lookup engines (chapter 4) -/

/-- R177, R199, R221, R228: an engine starts the task at the head of its queue; a fence above FENCED waits and then sets it. R203, R204,
R206: what pooling gives. A bag without entries is zero, and the vector of a bag fills whole granules. -/
def Obligations.LookupEngines : Prop :=
  (∀ s n q r t h, Computing s → lceRoom s n = true → (lceAt s n).queue = .task q :: r → taskOf s q = some t → t.ty = 0x10 →
    exec (.lookup n h) s = .next (startLookup n t h (modTask q (fun t => { t with place := .lce n, start := beat s }) (popJob n s)))) ∧
  (∀ s n q r t h, Computing s → lceAwake s n = true → (lceAt s n).queue = .task q :: r → taskOf s q = some t → t.ty = 0x11 →
    exec (.update n h) s = .next (startUpdate n t h (modTask q (fun t => { t with place := .lce n, start := beat s }) (popJob n s)))) ∧
  (∀ s n q r t h, Computing s → lceAwake s n = true → (lceAt s n).queue = .task q :: r → taskOf s q = some t → t.ty = 0x12 →
    exec (.epochFence n h) s = .next (startFence n t h (modTask q (fun t => { t with place := .lce n, start := beat s }) (popJob n s)))) ∧
  (∀ s n w, Computing s → s.lce.fences.find? (fun w => decide (w.lce = n) && !fenceBlocked s w) = some w → w.reload = false → ∃ t,
    exec (.epochFenceComplete n) s = .next t ∧ t.lce.fences = s.lce.fences.filter (fun x => decide (x ≠ w)) ∧
    t.lce.domains = s.lce.domains.map (fun d => if d.id = w.domain then { d with
      fenced := if above32 w.epoch d.fenced then w.epoch else d.fenced } else d)) ∧
  (∀ s n k x, Computing s → s.rg.queue.any (fun q => q.2.runs.any (fun r => decide (r.owner = .lce n ∧ r.page = k * 256 / 2048))) = false →
    (lceAt s n).active.find? (fun x => x.rows.any (fun r => r.wait.contains k)) = some x →
    (∀ r ∈ x.rows, sremove k r.wait ≠ []) → x.fail = none → ∃ t, exec (.runFetchData n k []) s = .next t ∧ Frame [.lce] s t ∧
    (lceAt t n).active = (lceAt s n).active.map (fun z => if z.kind = x.kind then { x with
      rows := x.rows.map (fun r => { r with wait := sremove k r.wait }) } else z)) ∧
  (∀ x b, x.pool ≠ 4 → tget 0 x.count b = 0 → ∀ r ∈ bagVals x b, r.code = 0) ∧
  (∀ x b, (bagBytes x b).1.length % 64 = 0) ∧
  (∀ x b w v, x.pool = 0 → let a := tget 0 x.acc (accKey b 0)
    (poolVals b 0 w [v] x).acc = tset 0 x.acc (accKey b 0) (w32 (fadd32 a v).code)) ∧
  (∀ x b w v, x.pool = 3 → let a := tget 0 x.acc (accKey b 0)
    (poolVals b 0 w [v] x).acc = tset 0 x.acc (accKey b 0) (w32 (ffma32 w v a).code))

/-- R216 to R219, R223, R342, R371: parts of a sub-batch, of a reply and of a forwarded record are kept until they are whole; a reply that
does not come is lost. R211, R214, R237: the hot-row cache: after DECAY times 1,024 beats, and not before, decay halves the counters; a change
of its size or slot empties it. -/
def Obligations.RemoteLookups : Prop :=
  (∀ s p k i, Arrives s p 0x08 k → routeValid s k.src = true → subInOf (addPart k (takeRx p k s)) k.src k.tag = some i →
    i.parts.length < i.total → exec (.lkpPart p) s = .next (addPart k (takeRx p k s))) ∧
  (∀ s p k, Arrives s p 0x08 k → routeValid s k.src = false → exec (.lkpPart p) s = .next (countDrop p (takeRx p k s))) ∧
  (∀ s p k, Live s → rxHead s p (fun k => decide (k.opc = 0x88 ∧ k.dst = nodeId s)) = some k → answered (takeRx p k s) k = none →
    exec (.lkpRsp p) s = .next (countDrop p (takeRx p k s))) ∧
  (∀ s p k r b, Live s → rxHead s p (fun k => decide (k.opc = 0x88 ∧ k.dst = nodeId s)) = some k →
    let u := takeRx p k s
    let c : SubOut := { b with
      flags := b.flags ||| field k.operand 16 2, parts := tset [] b.parts (field k.arg 32 16) (BitVec.ofNat 8 k.pmask :: k.data) }
    answered u k = some r → subOf u k.tag = some b → k.lost = false → k.status = 0 → c.parts.length < field k.operand 0 16 →
    exec (.lkpRsp p) s = .next { u with lce := { u.lce with subs := u.lce.subs.map (fun x => if x.tag = c.tag then c else x) } }) ∧
  (∀ s n b, Live s → subOf s n = some b → exec (.remoteLookupTimeout n) s =
    .next (subLost b { s with fab := { s.fab with reqs := s.fab.reqs.filter (fun r => decide (r.tag ≠ n)) } })) ∧
  (∀ s p k, Arrives s p 0x09 k → rxHead s p (fun k => decide (k.opc = 0x09 ∧ k.dst = nodeId s) && bit k.arg 0) = some k →
    routeValid s k.src = true → field k.arg 8 8 + 1 < field k.arg 16 8 → s.lce.updIn = [] →
    exec (.remoteUpdateRecords p) s = .next { takeRx p k s with lce := { s.lce with updIn := [(k.src, k.tag, k.data)] } }) ∧
  (∀ s p, let d := field (hrcReg s p) 0 16
    Live s → d ≠ 0 → 1024 * d ≤ (beat s + 2 ^ 64 - (hrcAt s p).decayed) % 2 ^ 64 →
    exec (.sketchDecay p) s = .next (modHrc p (fun x => { x with
      decayed := beat s, sketch := (x.sketch.map (fun c => (c.1, c.2 / 2))).filter (fun c => decide (c.2 ≠ 0)) }) s)) ∧
  (∀ s p, let d := field (hrcReg s p) 0 16
    Live s → (d = 0 ∨ (beat s + 2 ^ 64 - (hrcAt s p).decayed) % 2 ^ 64 < 1024 * d) → exec (.sketchDecay p) s = .next s) ∧
  (∀ s p (v : W32), Live s → regsOn s = true → p < 12 → field (hrcReg s p) 24 8 ≠ field (v.toNat &&& 0xFFF0FFFF) 24 8 →
    exec (.hrcConfigWrite p v) s = .next (modHrc p (fun x => { x with emptying := true })
      (regSet (0x801000 + 0x10 * p) (v.toNat &&& 0xFFF0FFFF) s))) ∧
  (∀ s p (v : W32), Live s → regsOn s = true → p < 12 → field (hrcReg s p) 24 8 = field (v.toNat &&& 0xFFF0FFFF) 24 8 →
    exec (.hrcConfigWrite p v) s = .next (regSet (0x801000 + 0x10 * p) (v.toNat &&& 0xFFF0FFFF) s)) ∧
  (∀ s p, Live s → (hrcAt s p).emptying = true → exec (.hotRowCacheEmptied p) s =
    .next (modHrc p (fun x => { x with emptying := false, rows := [] }) s))

/-! ## Mailboxes: what every command shares -/

namespace Sys2Proof

/-- The processor of mailbox `b`, which runs, has taken a command of this code; the block is in service and no reset is in the way (R650,
R654, R655). -/
def Taken (s : State) (b code : Nat) : Prop :=
  Serving s ∧ (s.err.state != 2) = true ∧ boxRuns s b code = true

/-- Reader `key` has the `n` bytes of control data at `va` of context `c`: they are `l`, without a mark, and every READ that they need of other
nodes has been answered (R344, R347). -/
def Reads (s : State) (key : Nat) (o : RunOwner) (c va n : Nat) (h : HostData) (l : List Byte) : Prop :=
  readCtl s o c va n h = .ok (l, false) ∧ fetchWaits s key = false ∧ (remoteSpans s o c va n).all (hasFetch s key c) = true

end Sys2Proof

/-! ## Serving steps (chapter 8) -/

/-- R347, R400 to R402, R405 to R407: gates wait or expire; a descriptor at another node is asked for first; a KV_PASS is read by its mover and starts when its stage has opened. -/
def Obligations.GatesAndCopies : Prop :=
  (∀ s q t h d, Computing s → taskOf s q = some t → t.ty = 0x18 → t.place = .ready →
    Reads s q .front t.ctx (fieldAt t.record 8 8) 32 h d → gateOk d = true → groupOfTask s t (byteAt d 8) = true →
    byteAt (groupAt s (byteAt d 8)).desc 3 = 0 → gateGranted s (groupAt s (byteAt d 8)).vai d = true →
    (groupAt s (byteAt d 8)).broken = false → beatPast s (stageEnd (groupAt s (byteAt d 8)).desc (fieldAt d 0 8)) = false → ∃ u,
    exec (.stepGate q h) s = .next u ∧ u.sg.gates = s.sg.gates ++ [⟨q, d⟩] ∧ same .cells s u) ∧
  (∀ s q t h, let va := fieldAt t.record 8 8
    let l := (remoteSpans s .front t.ctx va 32).filter (fun p => !hasFetch s q t.ctx p)
    Computing s → taskOf s q = some t → t.ty = 0x18 → t.place = .ready → xlRange s .front t.ctx va 32 .read = none → l ≠ [] →
    exec (.stepGate q h) s = .next (askReads q 0 q t.ctx l s)) ∧
  (∀ s q g, Computing s → s.sg.gates.find? (fun g => decide (g.seq = q)) = some g →
    beatPast s (stageEnd (groupAt s (byteAt g.desc 8)).desc (fieldAt g.desc 0 8)) = true → ∃ u, exec (.gateExpiry q) s = .next u ∧
    u.sg.gates = s.sg.gates.filter (fun h => decide (h.seq ≠ q)) ∧
    ((groupAt s (byteAt g.desc 8)).live = true → (groupAt u (byteAt g.desc 8)).broken = true)) ∧
  (∀ s q t m h d, Computing s → taskOf s q = some t → t.place = .mover m → kvOf s q = none →
    Reads s q (.mover m) t.ctx (fieldAt t.record 8 8) 48 h d → kvDescOk d = true → byteAt d 29 = 0xFF → ∃ u,
    exec (.kvPass q h) s = .next u ∧ u.sg.kv = s.sg.kv ++ [{ seq := q, mover := m, desc := d }] ∧ same .cells s u) ∧
  (∀ s q k t h, Computing s → kvOf s q = some k → taskOf s q = some t → k.started = false →
    s.sg.kv.any (fun j => j.started && decide (j.mover = k.mover)) = false → tget 0 s.pm.sector k.mover = 0 → t.group = none →
    exec (.kvPassCopyStart q h) s = .next (kvStart k t h s)) ∧
  (∀ s q k t h g, Computing s → kvOf s q = some k → taskOf s q = some t → k.started = false →
    s.sg.kv.any (fun j => j.started && decide (j.mover = k.mover)) = false → tget 0 s.pm.sector k.mover = 0 → t.group = some g →
    (groupAt s g).live = true → beatPast s (stageOpen (groupAt s g).desc (fieldAt k.desc 32 8)) = true → (groupAt s g).broken = true →
    exec (.kvPassCopyStart q h) s = .next (endKv q .denied none s))

namespace Sys2Proof

/-- The command in mailbox `v` of context `c` gives the group descriptor `d` and its member list `l`, both well formed (R395, R396); `u` is
the state after they are read. -/
def ReadsGroup (s : State) (v c : Nat) (h : HostData) (d l : List Byte) (u : State) : Prop :=
  let va := boxPair s v 2
  let list := fieldAt d 44 8
  let n := 16 * (byteAt d 2 + 1)
  let rest := hostRest h (hostUsed s .front c va 64)
  Reads s (boxKey v) .front c va 64 h d ∧ va % 64 = 0 ∧ groupOk d = true ∧ Reads s (boxKey v) .front c list n rest l ∧
    u = touchCtl .front c list n rest (touchCtl .front c va 64 h s) ∧ membersOk u d l = true

end Sys2Proof

/-- R395 to R399, R424: a sequence group is created, restarted and destroyed. R411 to R414, R421: the records of a BATCH_EDIT are applied
in their order to the next batch of the group that the context leads: a JOIN takes the first free entry or is refused, a LEAVE quarantines
its entry. Which group, when there are several, is a free value. -/
def Obligations.SequenceGroups : Prop :=
  (∀ s v c h d l g u t, Taken s v 0x0250 → boxCtx s v 1 = .ok c → ReadsGroup s v c h d l u → groupNamed u c (fieldAt d 0 2) = none →
    (groupsOf u c).length < 16 → chooseFree (fun g => !(groupAt u g).live) 64 u = some (g, t) →
    exec (.sgCreate v h) s = .next (endReading (boxKey v) (replyBox v 0 [g] (zeroTable v d (ctxTake c
      (modGroup g (fun _ => { live := true, ctx := c, vai := v, desc := d, members := l }) t)))))) ∧
  (∀ s v c h d l g u, Taken s v 0x0251 → boxCtx s v 1 = .ok c → ReadsGroup s v c h d l u → groupNamed u c (fieldAt d 0 2) = some g →
    kvOutstanding u g = false →
    exec (.sgRestart v h) s = .next (endReading (boxKey v) (replyBox v 0 [g] (zeroTable v d (modGroup g
      (fun x => { x with desc := d, members := l, gen := (x.gen + 1) % 256, broken := false, step := 0 }) u))))) ∧
  (∀ s v c, Taken s v 0x0252 → boxCtx s v 1 = .ok c → let g := boxWord s v 2
    g < 64 → (groupAt s g).live = true → (groupAt s g).ctx = c → s.sg.gates = [] →
    exec (.sgDestroy v) s = .next (replyBox v 0 [] (removeGroup g s))) ∧
  (∀ s v c, Taken s v 0x0252 → boxCtx s v 1 = .ok c → let g := boxWord s v 2
    (64 ≤ g ∨ (groupAt s g).live = false) → exec (.sgDestroy v) s = .next (replyBox v Status.faultFormat.code [] s)) ∧
  (∀ s q t h d g u l, let va := fieldAt t.record 8 8
    let n := 16 * (byteAt d 8 + 1)
    let rest := hostRest h (hostUsed s .front t.ctx va 32)
    let w := touchCtl .front t.ctx (fieldAt d 0 8) n rest u
    Computing s → taskOf s q = some t → t.ty = 0x1A → t.place = .ready → t.wrap = none → editBefore s t = false →
    Reads s q .front t.ctx va 32 h d → editOk d = true → ledGroup t.ctx (touchCtl .front t.ctx va 32 h s) = some (g, u) →
    Reads u q .front t.ctx (fieldAt d 0 8) n rest l →
    (chunks 16 (byteAt d 8 + 1) l).all (batchRecOk (bit (byteAt (groupAt w g).desc 21) 0)) = true →
    exec (.batchEdit q h) s = .next (endReading q (editBatch t g d l w))) ∧
  (∀ r x i, byteAt r 0 = 1 → entryOfSeq x (fieldAt r 4 4) = none →
    (List.range (maxSeq x.desc)).find? (fun i => (tget {} x.batch i).state == 0) = some i → applyRec r x = (.done, i, { x with
      batch := tset {} x.batch i { seqId := fieldAt r 4 4, state := 2, param := fieldAt r 8 8, order := x.joins }, joins := x.joins + 1 })) ∧
  (∀ r x i, byteAt r 0 = 1 → entryOfSeq x (fieldAt r 4 4) = some i → applyRec r x = (.denied, 0xFF, x)) ∧
  (∀ r x i, byteAt r 0 = 2 → entryOfSeq x (fieldAt r 4 4) = some i → (tget {} x.batch i).state = 1 → applyRec r x = (.done, i, { x with
      batch := tset {} x.batch i { tget {} x.batch i with state := 3, age := 0 } }))

/-! ## Queues, commands, entries (chapter 9) -/

namespace Sys2Proof

/-- A doorbell reaches queue `q` of page index `i` of VAI `v`: the queue takes doorbells (R434, R442). -/
def Bell (s : State) (v i q : Nat) : Prop :=
  Live s ∧ inService s = true ∧ resetWindow s = false ∧ v < 256 ∧ i < 64 ∧ queueOfPage s v i = some q ∧ (vaiAt s v).state ≠ 2 ∧
    (vaiAt s v).restoring = false ∧ ((queueAt s q).state = .ready ∨ (queueAt s q).state = .stopped)

end Sys2Proof

/-- R434, R439 to R442: doorbells. R436 to R438, R442: a queue is created with the fields of its descriptor, destroyed with its work,
resumed from STOPPED. -/
def Obligations.QueuesAndDoorbells : Prop :=
  (∀ s v i q (x : W32), Bell s v i q → (x.toNat + 2 ^ 32 - (queueAt s q).sqTail) % 2 ^ 32 < 2 ^ 31 → x.toNat ≠ (queueAt s q).sqTail →
    (x.toNat + 2 ^ 32 - (queueAt s q).sqHead) % 2 ^ 32 ≤ 2 ^ (queueAt s q).sqLog →
    exec (.dbSqTail v i x) s = .next (modQueue q (fun y => { y with
      sqTail := x.toNat, published := y.published ++ [(x.toNat, beat s)] }) s)) ∧
  (∀ s v i q (x : W32), Bell s v i q → 2 ^ (queueAt s q).sqLog < (x.toNat + 2 ^ 32 - (queueAt s q).sqHead) % 2 ^ 32 → LogRoom s → ∃ t,
    exec (.dbSqTail v i x) s = .next t ∧ Logged 7 q 0x05 t ∧ (queueAt t q).sqTail = (queueAt s q).sqTail) ∧
  (∀ s v i q (x : W32), Bell s v i q → (queueAt s q).cqFull = false →
    (x.toNat + 2 ^ 32 - (queueAt s q).cqHead) % 2 ^ 32 ≤ ((queueAt s q).cqTail + 2 ^ 32 - (queueAt s q).cqHead) % 2 ^ 32 →
    exec (.dbCqHead v i x) s = .next (modQueue q (fun y => { y with cqHead := x.toNat }) s)) ∧
  (∀ s v i q, Bell s v i q → (queueAt s q).cqTail = (queueAt s q).cqHead →
    exec (.dbArm v i 1) s = .next (modQueue q (fun y => { y with armed := true }) s)) ∧
  (∀ s v i q, Bell s v i q → (queueAt s q).cqTail ≠ (queueAt s q).cqHead → exec (.dbArm v i 1) s = .next (arrive (64 + q) s)) ∧
  (∀ s v i (x : W32), Live s → inService s = true → resetWindow s = false → v < 256 → i < 64 → queueOfPage s v i = none →
    exec (.dbSqTail v i x) s = .next (modVai v (fun y => { y with drops := sat 32 (y.drops + 1) }) s)) ∧
  (∀ s v c h d q t, let u := touchCtl .front c (boxPair s v 2) 64 h s
    Taken s v 0x0200 → boxCtx s v 1 = .ok c → Reads s (boxKey v) .front c (boxPair s v 2) 64 h d →
    boxPair s v 2 % 64 = 0 → queueOk c d = true → ringOk u c (fieldAt d 0 8) (64 * 2 ^ byteAt d 16) .read = true →
    ringOk u c (fieldAt d 8 8) (32 * 2 ^ byteAt d 17) .write = true → queueOfPage u v (byteAt d 22) = none →
    (queuesOf u v).length < (vaiAt u v).queues → chooseFree (fun q => (queueAt u q).state == .unused) 768 u = some (q, t) →
    exec (.queueCreate v h) s = .next (endReading (boxKey v) (replyBox v 0 [q] (ctxTake c (modSrc (64 + q) (fun x => { x with mask := false })
      (modQueue q (fun _ => {
        state := .ready, vai := v, ctx := c, idx := byteAt d 22, sqVa := fieldAt d 0 8, cqVa := fieldAt d 8 8, sqLog := byteAt d 16,
        cqLog := byteAt d 17, depth := byteAt d 18 % 16, global := bit (byteAt d 18) 4, cls := byteAt d 19, created := true }) t)))))) ∧
  (∀ s v, Taken s v 0x0201 → let q := boxWord s v 1
    q < 768 → (queueAt s q).vai = v → ((queueAt s q).state = .ready ∨ (queueAt s q).state = .stopped) →
    exec (.queueDestroy v) s = .next (replyBox v 0 [] (refillAll (reissueAll (destroyQueue q (abandonQueue false 0x3FF q s)))))) ∧
  (∀ s v, Taken s v 0x0202 → let q := boxWord s v 1
    q < 768 → (queueAt s q).vai = v → (queueAt s q).state = .stopped → (queueAt s q).held = none → bit (boxWord s v 2) 0 = false →
    exec (.queueResume v) s = .next (replyBox v 0 [] (modQueue q (fun x => { x with state := .ready }) s))) ∧
  (∀ s v, Taken s v 0x0202 → let q := boxWord s v 1
    q < 768 → (queueAt s q).vai = v → (queueAt s q).state = .ready →
    exec (.queueResume v) s = .next (replyBox v Status.denied.code [] s))

namespace Sys2Proof

/-- The address of the head slot of queue `q` (R439). -/
def headVa (s : State) (q : Nat) : Nat := (queueAt s q).sqVa + 64 * ((queueAt s q).sqHead % 2 ^ (queueAt s q).sqLog)

/-- Queue `q` accepts the command in its head slot, whose bytes are `l` (R439, R445, R777). -/
def Heads (s : State) (q : Nat) (h : HostData) (l : List Byte) : Prop :=
  Live s ∧ accepts s q = true ∧
    Reads s (queueKey q) .front (queueAt s q).ctx (headVa s q) 64 h l

/-- The state when the slot has been copied: Q_SQ_HEAD has passed it. -/
def passed (s : State) (q : Nat) (h : HostData) : State :=
  modQueue q passHead (touchCtl .front (queueAt s q).ctx (headVa s q) 64 h s)

/-- The records that the PATCH in the slot bytes `l` names lie at no other node, or have been read, or do not translate. -/
def ReadsRecords (s : State) (q : Nat) (l : List Byte) : Prop :=
  let c := (queueAt s q).ctx
  let va := fieldAt l 16 8
  let n := 16 * (fieldAt l 12 2 + 1)
  (xlRange s .front c va n .read).isSome = true ∨ (remoteSpans s .front c va n).all (hasFetch s (queueKey q) c) = true

end Sys2Proof

/-- R443 to R446, R456, R462, R469, R470: the command at the head of a queue is accepted by its own step; a malformed one completes with
FAULT_FORMAT. -/
def Obligations.CommandAcceptance : Prop :=
  (∀ s q h l, Heads s q h l → byteAt l 0 = 0 → cmdOk l = true →
    exec (.nopCommand q h) s = .next (endReading (queueKey q) (settle q (addCmd q (slotCmd s q l) (passed s q h))))) ∧
  (∀ s q h l, Heads s q h l → byteAt l 0 = 1 → cmdOk l = true → dispatchFull s (partOfCtx s (queueAt s q).ctx) = false →
    let u := addCmd q { slotCmd s q l with seq := some (nextSeq s) } (passed s q h)
    exec (.task q h) s =
      .next (endReading (queueKey q) (issueTask l q (queueAt s q).ctx (slotCmd s q l).id none false false false u))) ∧
  (∀ s q h l g, Heads s q h l → byteAt l 0 = 2 → cmdOk l = true → (launchesOf s q).length < 16 → graphOf s (fieldAt l 8 4) = some g →
    (graphAt s g).ctx = (queueAt s q).ctx → ∃ t, exec (.launch q h) s = .next t ∧ t.fe.launches = s.fe.launches ++ [{
      id := s.fe.launchCtr, queue := q, cmd := s.fe.cmdCtr, graph := g, buf := (graphAt s g).cur,
      nodes := (graphAt s g).nodes.map (fun n => .waiting n.preds) }] ∧ t.fe.launchCtr = s.fe.launchCtr + 1) ∧
  (∀ s q h r l, Heads s q h l → byteAt l 0 = 3 → cmdOk l = true → ReadsRecords s q l →
    exec (.patch q h r) s = .next (endReading (queueKey q) (doPatch q r (slotCmd s q l) (passed s q h)))) ∧
  (∀ s q h l, Heads s q h l → byteAt l 0 = 4 → cmdOk l = true →
    exec (.waitCommand q h) s = .next (endReading (queueKey q) (holdWait q (slotCmd s q l) (passed s q h)))) ∧
  (∀ s q h l f, Heads s q h l → byteAt l 0 = 5 → cmdOk l = true → fenceOf s (fieldAt l 8 4) = some f →
    (fenceAt s f).vai = (queueAt s q).vai → exec (.signalCommand q h) s =
      .next (endReading (queueKey q) (addCmd q (slotCmd s q l) (modFence f (fun x => { x with refs := x.refs + 1 }) (passed s q h))))) ∧
  (∀ s q h l, Heads s q h l → (byteAt l 0 = 0 ∨ 6 ≤ byteAt l 0) → cmdOk l = false →
    exec (.nopCommand q h) s =
      .next (endReading (queueKey q) (cmdFault q (slotCmd s q l).id .faultFormat (addCmd q (slotCmd s q l) (passed s q h)))))

/-- R440, R470, R473 to R476: a SIGNAL at the front signals its fence and completes; an entry that is due is written at its ring position,
or waits for room. -/
def Obligations.CompletionEntries : Prop :=
  (∀ s q e r, Computing s → (queueAt s q).cmds = e :: r → e.code = 5 → e.own = none → signalReady s q e = true →
    (queueAt s q).state ≠ .resetting →
    exec (.signalPerform q) s = .next (completeCmd q e .done (fenceSignal (handleIdx e.fence) e.value s))) ∧
  (∀ s q c r, Computing s → (queueAt s q).cqFull = false → (queueAt s q).due = c :: r → entryClear s q c = true →
    2 ^ (queueAt s q).cqLog ≤ ((queueAt s q).cqTail + 2 ^ 32 - (queueAt s q).cqHead) % 2 ^ 32 →
    exec (.completionEntryWrite q) s = .next (modQueue q (fun x => { x with cqFull := true }) s)) ∧
  (∀ s q c r, Computing s → (queueAt s q).cqFull = false → (queueAt s q).due = c :: r → entryClear s q c = true →
    ((queueAt s q).cqTail + 2 ^ 32 - (queueAt s q).cqHead) % 2 ^ 32 < 2 ^ (queueAt s q).cqLog →
    let va := (queueAt s q).cqVa + 32 * ((queueAt s q).cqTail % 2 ^ (queueAt s q).cqLog)
    xlRange s .front (queueAt s q).ctx va 32 .write = none → (queueAt s q).armed = false →
    exec (.completionEntryWrite q) s = .next (modQueue q (fun x => { x with
      due := r, cqTail := (x.cqTail + 1) % 2 ^ 32, cqFull := false, armed := false,
      lastStatus := if c.status = .done then x.lastStatus else c.status.code % 256,
      faultPos := if c.status = .done then x.faultPos else c.ring % 2 ^ 32 })
      (writeCtl .front (queueAt s q).ctx va (cqeBytes s (queueAt s q) c) s)))

/-! ## Scheduling (chapter 10) -/

/-- R488 to R499: a queue that goes first takes a free slot, and gives it up; a launch binds to a walker and its first nodes are issued; a
ready task goes to the unit of its type, an array task to the sequencer with the fewest; an idle sequencer takes a task from the fullest. -/
def Obligations.SlotsAndDispatch : Prop :=
  (∀ s q i, Computing s → i < 32 → nextWaiter s (queuePart s q) = some q → slotBusy s i = false → stewardUp s (queueAt s q).vai = true →
    (reservedFor s 32 (queuePart s q) i = true ∨
      (floats s 32 i = true ∧ roundRobin s (slotQualifies s) s.fe.rrSlot = some (queuePart s q))) → ∃ t,
    exec (.queueLoad q i) s = .next t ∧ tget {} t.fe.slot i = ⟨true, q, queuePart s q, beat s⟩ ∧
      (∀ j, j ≠ i → tget {} t.fe.slot j = tget {} s.fe.slot j) ∧ t.fe.q = s.fe.q ∧ t.fe.tasks = s.fe.tasks ∧ Frame [.fe] s t) ∧
  (∀ s q e, Computing s → stewardUp s (queueAt s q).vai = true →
    s.fe.slot.find? (fun e => decide (e.2.valid = true ∧ e.2.queue = q)) = some e → wantsSlot s q = false → e.2.queue = q →
    exec (.queueUnload q) s = .next (freeSlot q s)) ∧
  (∀ s l w x, Computing s → w < 16 → launchOf s l = some x → launchWaits s x = true → walkerFits s (launchPart s x) w = true →
    dispatchFull s (launchPart s x) = false → (reservedFor s 16 (launchPart s x) w = true ∧ floats s 16 w = false) →
    exec (.walkerBind l w) s = .next (settle x.queue (issueRoots x (modCmd x.queue x.cmd (fun e => { e with start := beat s })
      (modLaunch l (fun x => { x with walker := some w }) s))))) ∧
  (∀ s q t, Computing s → taskOf s q = some t → t.place = .front → orderedWaits s t = false → mayRun s t.queue = true →
    recordOk t.record = true → let n := s.fe.readyCtr
    exec (.dispatch q) s = .next (issueHeld (partOfCtx s t.ctx)
      (if isOrdered s t then Machine.place { t with ready := n } (readyLate q s) else Machine.place t s))) ∧
  (∀ s t k, t.ty = 0 → pickSeq s (partOfCtx s t.ctx) = some k → Machine.place t s = toSeq k t s) ∧
  (∀ s t n, t.ty = 0x10 ∨ t.ty = 0x11 ∨ t.ty = 0x12 → pickLce s (partOfCtx s t.ctx) = some n → (lceAt s n).queue.length < 64 →
    Machine.place t s = modTask t.seq (fun t => { t with place := .lceQueue n })
      (modLce n (fun x => { x with queue := x.queue ++ [.task t.seq] }) s)) ∧
  (∀ s t m, t.ty = 0x19 → pickMover s (partOfCtx s t.ctx) = some m →
    Machine.place t s = modTask t.seq (fun t => { t with place := .mover m }) s) ∧
  (∀ s p k, pickSeq s p = some k → (readyAt s k).length < 1024 ∧ sectorOn s (k / 4) = true ∧ k ∈ lsqsOf s p ∧
    ∀ j ∈ lsqsOf s p, sectorOn s (j / 4) = true → (readyAt s k).length ≤ (readyAt s j).length) ∧
  (∀ s k l a j t, Computing s → k < 48 → l ∈ arraysOf s k → physOf s l = some a → (arrAt s a).queue = [] → fillable s k = [] →
    minBy (fun j => 2 ^ 20 - (stealable s j).length) ((lsqsOf s (partOfArray s (18 * k))).filter (fun j =>
      decide (j ≠ k) && !(stealable s j).isEmpty)) = some j →
    minBy (fun t => taskRank s t * 2 ^ 64 + t.ready) (stealable s j) = some t →
    exec (.taskSteal k) s = .next (fillSeq k (modTask t.seq (fun t => { t with place := stolen k t.place }) s)))

/-- R501, R502, R506, R507, R509, R524, R768: the turn that holds the beat's offset begins; a round begins once at each of its beats; a
turn table, a round length and best-effort classes are taken or refused with a code in their status. R512 to R517: a task past its limit
ends with FAULT_TIMEOUT; a scan breaks the WAIT of each cycle that was accepted last with STALEMATE and counts it, until no cycle is left. -/
def Obligations.TurnsAndLimits : Prop :=
  (∀ s p, Computing s → p < s.fe.parts → let k := turnHolding s p (roundOffset s)
    k ≠ (partAt s p).turn → exec (.turnBoundary p) s = .next (turnBegins p k (turnOwner s p) s)) ∧
  (∀ s, Live s → regsOn s = true → beat s % roundBeats s = 0 → s.pm.done.contains 0 = false → ∃ t, exec .roundBoundary s = .next t ∧
    t.fe.round = s.fe.roundNext.getD s.fe.round ∧ t.fe.roundNext = none ∧ t.pm.rounds = s.pm.rounds + 1 ∧ t.pm.beat = s.pm.beat) ∧
  (∀ s, Live s → regsOn s = true → s.pm.done.contains 0 = true → exec .roundBoundary s = .next s) ∧
  (∀ s p (v : W32), Live s → regsOn s = true → p < 12 → bit v.toNat 31 = true →
    let u := regSet (0x101008 + 0x400 * p) (field v.toNat 0 6) s
    let l := (List.range (shadowCount u p)).map (fun k => regGet u (0x101100 + 0x400 * p + 4 * k))
    exec (.turnTableCommit p v) s = .next (
      if turnsOk u p l = false then modPart p (fun x => { x with result := Status.code .denied }) u
      else if (partAt u p).commit.isSome then modPart p (fun x => { x with result := Status.code .busy }) u
      else modPart p (fun x => { x with commit := some l }) u)) ∧
  (∀ s (v : W32), Live s → regsOn s = true → (∀ p, p < 12 → pendingTurns s p = []) →
    (∀ p, p < 12 → ∀ k, k < (partAt s p).countM1 + 1 → turnStart s p k ≤ field v.toNat 0 12) → ∃ t,
    exec (.roundLengthWrite v) s = .next t ∧ t.fe.roundNext = some (field v.toNat 0 12) ∧ t.fe.roundRes = 0 ∧
      t.fe.round = s.fe.round) ∧
  (∀ s (v : W32) p k, Live s → regsOn s = true → p < 12 → k < (partAt s p).countM1 + 1 → field v.toNat 0 12 < turnStart s p k → ∃ t,
    exec (.roundLengthWrite v) s = .next t ∧ t.fe.roundRes = Status.denied.code ∧ t.fe.roundNext = s.fe.roundNext ∧
      t.regs = s.regs) ∧
  (∀ s p (v : W32), Live s → regsOn s = true → p < 12 → ownsTurn s p (field v.toNat 0 16) = false →
    exec (.partSchedWrite p v) s = .next (modPart p (fun x => { x with cfgNext := some (bit v.toNat 31, field v.toNat 0 16) })
      (regSet (0x101000 + 0x400 * p) (field v.toNat 0 16 + 2 ^ 31 * b2n (bit v.toNat 31)) s))) ∧
  (∀ s p (v : W32), Live s → regsOn s = true → p < 12 → ownsTurn s p (field v.toNat 0 16) = true →
    exec (.partSchedWrite p v) s = .next (modPart p (fun x => { x with result := Status.denied.code }) s)) ∧
  (∀ s q t, Computing s → taskOf s q = some t → timed s t = true → expired s t = true →
    let r := leavePlace false 0x3FF t (abandonSeq false 0x3FF q s)
    let u := freeRecs (fun x => decide (x.seq = q)) (leaveBars q r.2)
    exec (.watchdogExpiry q) s = .next (refillAll (reissueAll (taskEnd q .faultTimeout r.1 (some (0x13, detailOf t.ctx 0)) u)))) ∧
  (∀ s q t, Live s → taskOf s q = some t → expired s t = false → exec (.watchdogExpiry q) s = .next s) ∧
  (∀ s r, Serving s → let n := field (regGet s 0x10000C) 16 16
    n ≠ 0 → beat s % n = 0 → s.pm.done.contains 1 = false →
    exec (.deadlockScan r) s = .next (breakCycles 768 r { s with pm := { s.pm with done := sinsert 1 s.pm.done } })) ∧
  (∀ s r, Live s → field (regGet s 0x10000C) 16 16 = 0 → exec (.deadlockScan r) s = .next s) ∧
  (∀ n r s, newestWait s (cycleQueues (waitGraph s r)) = none → breakCycles n r s = s) ∧
  (∀ n r s q, newestWait s (cycleQueues (waitGraph s r)) = some q → breakCycles (n + 1) r s = breakCycles n r (breakWait q s)) ∧
  (∀ g q, q ∈ cycleQueues g → ∃ c, c ∈ g.map (fun e => e.1) ∧ c ∈ reachedFrom g c ∧ q ∈ reachedFrom g c ∧ c ∈ reachedFrom g q) ∧
  (∀ s q e, (queueAt s q).held = some e → LogRoom s → (breakWait q s).fe.broken = sat 16 (s.fe.broken + 1) ∧
    (breakWait q s).fe.lastBroken = q ∧ Logged 7 q 0x07 (breakWait q s))

/-! ## Graphs, fences, handoff queues, tally words, barriers, contexts, the allocator (chapters 9, 11, 12) -/

/-- R451 to R455, R467 to R472, R480, R542, R547, R578: graphs are kept and released; fences are created, destroyed, signalled and read;
handoff queues and barrier channels are bound and unbound; tally words are set and read. -/
def Obligations.SynchronizationObjects : Prop :=
  (∀ s v c h l l' x g t, Taken s v 0x0210 → boxCtx s v 1 = .ok c → Reads s (boxKey v) .front c (boxPair s v 2) 64 h l →
    imageHead l = true → Reads s (boxKey v) .front c (boxPair s v 2) (fieldAt l 12 4) h l' → imageOf l' = some x →
    storeGraph c x (fieldAt l 12 4) (touchCtl .front c (boxPair s v 2) (fieldAt l 12 4) h s) = some (g, t) →
    exec (.graphRegister v h) s = .next (endReading (boxKey v) (replyBox v 0 [handle (graphAt t g).gen g] t))) ∧
  (∀ s v g, Taken s v 0x0211 → graphOf s (boxWord s v 1) = some g → (ctxAt s (graphAt s g).ctx).vai = v →
    (graphAt s g).created = true → exec (.graphRelease v) s =
      .next (replyBox v 0 [] (graphDrop g (modGraph g (fun x => { x with created := false }) s)))) ∧
  (∀ s v c f t, Taken s v 0x0220 → boxCtx s v 1 = .ok c → boxPair s v 4 % 16 = 0 →
    (boxPair s v 4 = 0 ∨ sealCovers s v (boxPair s v 4) = false) → (fencesOf s v).length < (vaiAt s v).fences →
    chooseFree (fun f => !(fenceAt s f).live) 65536 s = some (f, t) →
    let u := modFence f (fun x => {
      live := true, gen := x.gen, vai := v, ctx := c, value := w64 (boxPair s v 2), mirror := boxPair s v 4,
      event := bit (boxWord s v 6) 0, refs := 1, created := true }) t
    exec (.fenceCreate v) s = .next (replyBox v 0 [handle (fenceAt u f).gen f] u)) ∧
  (∀ s v f, Taken s v 0x0221 → fenceOf s (boxWord s v 1) = some f → (fenceAt s f).vai = v → (fenceAt s f).created = true →
    exec (.fenceDestroy v) s = .next (replyBox v 0 [] (fenceDrop f (modFence f (fun x => { x with created := false }) s)))) ∧
  (∀ s v f, Taken s v 0x0222 → fenceOf s (boxWord s v 1) = some f → (fenceAt s f).vai = v → exec (.fenceSignal v) s =
    .next (replyBox v 0 [] (if boxWord s v 4 = 0 then Machine.fenceSignal f (w64 (boxPair s v 2)) s
      else fenceError f (w64 (boxPair s v 2)) (boxWord s v 4) s))) ∧
  (∀ s f x, (fenceAt s f).err = 0 → above x (fenceAt s f).value = true → Machine.fenceSignal f x s =
    fenceWake f (fenceChanged f (modFence f (fun y => { y with value := x }) s))) ∧
  (∀ s f x, ((fenceAt s f).err ≠ 0 ∨ above x (fenceAt s f).value = false) → Machine.fenceSignal f x s =
    fenceChanged f (modFence f (fun y => { y with ignored := y.ignored + 1 }) s)) ∧
  (∀ s v f, Taken s v 0x0223 → fenceOf s (boxWord s v 1) = some f → (fenceAt s f).vai = v → exec (.fenceQuery v) s =
    .next (replyBox v 0 (words2 (fenceAt s f).value.toNat ++ [(fenceAt s f).err, (fenceAt s f).ignored % 2 ^ 32]) s)) ∧
  (∀ s v c, Taken s v 0x0234 → boxCtx s v 2 = .ok c → let h := boxWord s v 1
    let n := field (boxWord s v 5) 16 13
    boxPair s v 3 % 65536 = 0 → 6 ≤ field (boxWord s v 5) 0 5 → field (boxWord s v 5) 0 5 ≤ 20 → n ≤ 4096 →
    (hqAt s h).granted = true → (hqAt s h).vai = v → (hqAt s h).bound = false → bit (boxWord s v 6) 31 = false →
    exec (.hqCreate v) s = .next (replyBox v 0 [] (ctxTake c (modHq h (fun x => { x with
      bound := true, ctx := c, pool := boxPair s v 3, bufLog := field (boxWord s v 5) 0 5, count := n, tw := none,
      items := (List.range n).map (fun i => h * 2 ^ 24 + i) }) s)))) ∧
  (∀ s v, Taken s v 0x0235 → let h := boxWord s v 1
    (hqAt s h).granted = true → (hqAt s h).vai = v → (hqAt s h).bound = true → handlesOut s h = false → (hqAt s h).tw = none →
    exec (.hqDestroy v) s = .next (replyBox v 0 [] (each ((hqAt s h).items.filter (fun i => decide (i / 2 ^ 24 ≠ h)))
      (fun i s => hqReturn i s) (unbindHq h s)))) ∧
  (∀ s v, Taken s v 0x0230 → twGranted s v (boxWord s v 1) = true → exec (.twSet v) s =
    .next (replyBox v 0 [] (tallySet (boxWord s v 1) (w32 (boxWord s v 2)) 0x6 v s))) ∧
  (∀ s v, Taken s v 0x0231 → twGranted s v (boxWord s v 1) = true → exec (.twGet v) s =
    .next (replyBox v 0 [(twAt s (boxWord s v 1)).toNat] s)) ∧
  (∀ s v, Taken s v 0x0231 → twGranted s v (boxWord s v 1) = false → exec (.twGet v) s =
    .next (replyBox v Status.denied.code [] s)) ∧
  (∀ s v c, Taken s v 0x0232 → boxCtx s v 2 = .ok c → let k := boxWord s v 1
    (barAt s k).granted = true → (barAt s k).vai = v → (barAt s k).waiters = [] → (barAt s k).state = 0 →
    exec (.barrierBind v) s = .next (replyBox v 0 [] (ctxTake c (modBar k (fun b => { b with
      state := 1, ctx := c, countM1 := boxWord s v 3, arrived := 0, waiters := [] }) s)))) ∧
  (∀ s v, Taken s v 0x0233 → let k := boxWord s v 1
    (barAt s k).granted = true → (barAt s k).vai = v → (barAt s k).waiters = [] → (barAt s k).state ≠ 0 →
    exec (.barrierUnbind v) s = .next (replyBox v 0 [] (unbindBar k s))) ∧
  (∀ s v, Taken s v 0x0233 → let k := boxWord s v 1
    (barAt s k).granted = true → (barAt s k).vai = v → (barAt s k).waiters ≠ [] →
    exec (.barrierUnbind v) s = .next (replyBox v Status.busy.code [] s))

/-- R560 to R583: a context is created in its VAI's grants, torn down, and destroyed last; a dead allocation is zeroed before its memory
is free again. -/
def Obligations.ContextsLiveAndDie : Prop :=
  (∀ s save c t u, Taken s 256 0x0110 → let v := field (boxWord s 256 1) 0 8
    let d := field (boxWord s 256 1) 16 16
    let root := boxPair s 256 2
    let heap := boxPair s 256 4
    let gib := boxWord s 256 6
    heapFits heap gib = true → gib ≤ 256 → root % 4096 = 0 → (vaiAt s v).state ≠ 0 → isFar root = true →
    grantedAll s v root 4096 = true → scrubbing s (vaiAt s v).part = false → d = 0xFFFF →
    (ctxsOf s v).length < (vaiAt s v).contexts →
    placeAt true v (saveBytes s (vaiAt s v).part) 65536 ((root, 4096) :: placedRanges s true) s = some (save, t) →
    chooseFree (fun c => (ctxAt t c).state == 0) 512 t = some (c, u) →
    let w := modCtx c (fun x => {
      gen := x.gen, hgen := x.hgen, state := 1, vai := v, part := (vaiAt u v).part, root := root, heapVa := heap, heapGib := gib,
      domain := none, saveAt := save, refs := 1, created := true }) u
    exec .ctxCreate s = .next (replyBox 256 0 [handle (ctxAt w c).hgen c] w)) ∧
  (∀ s b c, Taken s b 0x0111 → ctxNamed s (boxWord s b 1) = some c → (ctxAt s c).state = 1 → (256 ≤ b ∨ (ctxAt s c).vai = b) →
    exec (.ctxDestroy b) s = .next (replyBox b 0 [] (teardown c s))) ∧
  (∀ s b c, Taken s b 0x0111 → ctxNamed s (boxWord s b 1) = some c → (ctxAt s c).state ≠ 1 →
    exec (.ctxDestroy b) s = .next (replyBox b Status.denied.code [] s)) ∧
  (∀ s c, Live s → (ctxAt s c).settling = true → exec (.teardownDrainExpiry c) s =
    .next (teardownEnd c (abandonCtx true c (modCtx c (fun x => { x with gen := (x.gen + 1) % 256 }) s)))) ∧
  (∀ s i r, Computing s → s.fe.dying = (true, i) :: r → exec .objectDestroy s =
    .next (modAlloc i (fun a => { a with zeroing := true, gen := (a.gen + 1) % 256 }) { s with fe := { s.fe with dying := r } })) ∧
  (∀ s c r, Computing s → s.fe.dying = (false, c) :: r → ∃ t, exec .objectDestroy s = .next t ∧ t.fe.dying = r ∧
    (∀ d ∈ t.lce.domains, (ctxAt s c).domain.isSome = true → d.ctx ≠ c) ∧ (∀ w ∈ t.csb.windows, w.ctx ≠ c) ∧
    (∀ b, b ≠ c → ctxAt t b = ctxAt s b) ∧ same .cells s t ∧ (twf {} s.arr.st = true → ∀ p, arrAt t p =
      { arrAt s p with lastCtx := if (arrAt s p).lastCtx = some c then none else (arrAt s p).lastCtx })) ∧
  (∀ s a, Live s → (allocAt s a).zeroing = true →
    loadsLeft s (loadsFrom (allocAt s a)) = false → ∃ t, exec (.allocationZeroed a) s = .next t ∧
    t.fe.allocs = (modAlloc a (fun y => { gen := y.gen }) s).fe.allocs ∧
    (∀ b, b ≠ a → allocAt t b = allocAt s b) ∧
    (∀ x, (allocAt s a).base ≤ x → x < (allocAt s a).base + (allocAt s a).size → tget 0 t.mem.cells x = 0))

/-- R571, R574 to R576, R776: the allocator's commands. -/
def Obligations.AllocatorCommands : Prop :=
  (∀ s v c, Taken s v 0x0240 → boxCtx s v 1 = .ok c → boxPair s v 2 % 4096 = 0 →
    loadsLeft s (fun x => x.2.lastCtx == some c) = false → exec (.xlatInval v) s =
      .next (replyBox v 0 [] (tlbDrop c (boxPair s v 2) (boxWord s v 4) s))) ∧
  (∀ s v c a va t, Taken s v 0x0241 → boxCtx s v 1 = .ok c →
    heapAlloc c (boxPair s v 2) (boxWord s v 4) false s = (.done, a, va, t) → exec (.memAlloc v) s =
      .next (replyBox v 0 (handle (allocAt t a).gen a :: words2 va ++ words2 (allocAt t a).base) t)) ∧
  (∀ s v c st a va t, Taken s v 0x0241 → boxCtx s v 1 = .ok c →
    heapAlloc c (boxPair s v 2) (boxWord s v 4) false s = (st, a, va, t) → st ≠ .done →
    exec (.memAlloc v) s = .next (replyBox v st.code [] s)) ∧
  (∀ s c n l r, (heapAlloc c n l r s).1 = .faultFormat ↔
    (n = 0 ∨ r = true ∨ l = 3 ∨ (l = 1 ∧ chunkSize ≤ n) ∨
      ((ctxAt s c).heapGib ≠ 0 ∧ (ctxAt s c).heapGib * chunkSize < n))) ∧
  (∀ s v c a, Taken s v 0x0242 → boxCtx s v 1 = .ok c → allocHolding s c (boxPair s v 2) = some a →
    exec (.memLookup v) s = .next (replyBox v 0 (handle (allocAt s a).gen a :: words2 (allocAt s a).base) s)) ∧
  (∀ s v a c va t, Taken s v 0x0243 → allocOf s (boxWord s v 1) = some a → (allocAt s a).vai = v → boxCtx s v 2 = .ok c →
    (ctxAt s c).heapGib ≠ 0 → (allocAt s a).dying = false → mapAlloc a c s = some (va, t) →
    exec (.memShare v) s = .next (replyBox v 0 (words2 va) t)) ∧
  (∀ s v c a, Taken s v 0x0244 → boxCtx s v 1 = .ok c → loadsLeft s (fun x => x.2.lastCtx == some c) = false →
    allocMapped s c (boxPair s v 2) = some a → exec (.memUnmap v) s =
      .next (replyBox v 0 [] (unmapAlloc a c (boxPair s v 2) s))) ∧
  (∀ s v a, Taken s v 0x0245 → allocOf s (boxWord s v 1) = some a → (allocAt s a).vai = v → (allocAt s a).dying = false →
    (allocAt s a).maps.length + (allocAt s a).host < 2 ^ 32 - 1 → exec (.memRef v) s =
      .next (replyBox v 0 [] (modAlloc a (fun x => { x with host := x.host + 1 }) s))) ∧
  (∀ s v a, Taken s v 0x0246 → allocOf s (boxWord s v 1) = some a → (allocAt s a).vai = v → (allocAt s a).host ≠ 0 →
    exec (.memUnref v) s = .next (replyBox v 0 [] (allocCheck a (modAlloc a (fun x => { x with host := x.host - 1 }) s)))) ∧
  (∀ s v a, Taken s v 0x0246 → allocOf s (boxWord s v 1) = some a → (allocAt s a).vai = v → (allocAt s a).host = 0 →
    exec (.memUnref v) s = .next (replyBox v Status.denied.code [] s))

/-! ## Virtual instances, partitions, migration (chapter 13) -/

/-- R592 to R602: a VAI takes a number, its partition and its classes, is granted items and counts, gives them back, and goes; what is
revoked is written with zeros before it is free. -/
def Obligations.VirtualInstances : Prop :=
  (∀ s, Taken s 256 0x0101 → let v := field (boxWord s 256 1) 0 8
    let p := field (boxWord s 256 1) 8 4
    let m := field (boxWord s 256 1) 16 16
    p < s.fe.parts → m ≠ 0 → (vaiAt s v).state = 0 → pasidTaken s (boxWord s 256 2) = false → classTaken s v p m = false →
    (confPart s p = false ∨ vaisIn s p = []) → touching s p = false → scrubbing s p = false →
    exec .vaiCreate s = .next (replyBox 256 0 [] (modSrc (832 + v) (fun x => { x with mask := false })
      (modSrc (1088 + v) (fun x => { x with mask := false }) (modVai v (fun x => {
        evTail := x.evTail, drops := x.drops, state := 1, part := p, pasid := boxWord s 256 2, classes := m,
        wakeTol := boxWord s 256 3 }) s))))) ∧
  (∀ s, Taken s 256 0x0101 → (vaiAt s (field (boxWord s 256 1) 0 8)).state ≠ 0 → field (boxWord s 256 1) 8 4 < s.fe.parts →
    field (boxWord s 256 1) 16 16 ≠ 0 → exec .vaiCreate s = .next (replyBox 256 Status.denied.code [] s)) ∧
  (∀ s, Taken s 256 0x0102 → let v := boxWord s 256 1
    let p := (vaiAt s v).part
    (vaiAt s v).state ≠ 0 → scrubbing s p = false → touching s p = false → ctxsOf s v = [] → exec .vaiDestroy s = .next (
      if confPart s p then startScrub p 2 (modVai v (fun x => { x with log := false }) s)
      else replyBox 256 0 [] (endVai v { s with
        fe := { s.fe with ftOwn := reown v .zeroing s.fe.ftOwn, scrOwn := reown v .zeroing s.fe.scrOwn } }))) ∧
  (∀ s, Taken s 256 0x0103 → let v := field (boxWord s 256 1) 0 8
    let k := field (boxWord s 256 1) 8 4
    let a := boxWord s 256 2
    let n := boxWord s 256 3
    grantMalformed (vaiAt s v) k a n false = false → grantDenied s v k a n false = false → grantBusy s v k a n false = false →
    bit (boxWord s 256 1) 12 = false → k ≠ 2 → exec .vaiGrant s = .next (replyBox 256 0 [] (
      if k = 9 then modVai v (fun x => { x with classesNext := some a }) s
      else if counted k then modVai v (putCount k (countOf (vaiAt s v) k + n)) s
      else each (itemsFrom a n) (fun i s => giveItem v k i s) s))) ∧
  (∀ s, Taken s 256 0x0103 → let v := field (boxWord s 256 1) 0 8
    let k := field (boxWord s 256 1) 8 4
    let a := boxWord s 256 2
    let n := boxWord s 256 3
    grantMalformed (vaiAt s v) k a n true = false → grantDenied s v k a n true = false → grantBusy s v k a n true = false →
    bit (boxWord s 256 1) 12 = true → counted k = false → k ≠ 9 → k ≠ 2 →
    (k = 1 → itemsRead s 1 (itemsFrom a n) = false) →
    exec .vaiGrant s = .next (replyBox 256 0 [] (each (itemsFrom a n) (fun i s => takeItem v k i s) s))) ∧
  (∀ s k, Live s → regsOn s = true → tget .free s.fe.ftOwn k = .zeroing → ∃ t, exec (.revokeZeroed false k) s = .next t ∧
    (∀ a, k * chunkSize ≤ a → a < (k + 1) * chunkSize → tget 0 t.mem.cells a = 0) ∧
    (∀ a, (a < k * chunkSize ∨ (k + 1) * chunkSize ≤ a) → tget 0 t.mem.cells a = tget 0 s.mem.cells a) ∧
    t.fe.ftOwn = tset .free s.fe.ftOwn k .free) ∧
  (∀ s, Taken s 256 0x0104 → let p := boxWord s 256 1
    let a := field (boxWord s 256 2) 0 6
    let n := field (boxWord s 256 2) 8 6
    p < s.fe.parts → a + n ≤ 56 →
    (∀ q, q < s.fe.parts → q ≠ p → ∀ u ∈ unitsOf s q, u ∉ itemsFrom a n) → (∀ u ∈ itemsFrom a n, u < 8 * scratchSteps s) →
    touching s p = false → scrubbing s p = false →
    (∀ u ∈ unitsOf s p, u ∉ itemsFrom a n → ∀ v, tget .free s.fe.scrOwn u ≠ .vai v) → exec .partScratch s =
      .next (replyBox 256 0 [] (emptyHrc p (modPart p (fun x => { x with scrFirst := a, scrCount := n }) s))))

/-- R604 to R609, R616, R757: a layout is refused with a code or begun; what is still at a unit after DRAIN_MS is cancelled; a scrub
leaves a receipt and zeros; a VAI is paused when nothing of it runs, and resumed. -/
def Obligations.Reconfiguration : Prop :=
  (∀ s, Taken s 256 0x0105 → s.fe.reconf = none → let n := boxWord s 256 1
    let c := boxWord s 256 2
    let tch := touchedBy s n c
    exec .reconfig s = .next (
      if n ∉ layouts ∨ 2 ^ n ≤ c then refuseReconf .faultFormat s
      else if reconfDenied s n c then refuseReconf .denied s
      else if reconfBusy s n c tch then refuseReconf .busy s
      else if tch = 0 then replyBox 256 0 [] { s with fe := { s.fe with touched := 0, reconfResult := 0 } }
      else beginReconf n c tch (bit (boxWord s 256 3) 0) s)) ∧
  (∀ s r, Computing s → s.fe.reconf = some r → r.step = 3 → (touchedTasks s).any atUnit = true →
    exec .reconfigDrainExpiry s = .next (reconfStep (cancelUnits s))) ∧
  (∀ s p v, Computing s → s.err.state ≠ 2 → scrubbing s p = true → (scrubAt s p).trigger = 2 → (scrubAt s p).vai = some v → ∃ t,
    exec (.scrubComplete p) s = .next t ∧ scrubbing t p = false ∧
    (∀ u ∈ unitsOf s p, ∀ a, scratchBase + u * 0x4000000 ≤ a → a < scratchBase + (u + 1) * 0x4000000 → tget 0 t.mem.cells a = 0) ∧
    (∀ k, tget .free s.fe.ftOwn k = .scrub p → ∀ a, k * chunkSize ≤ a → a < (k + 1) * chunkSize → tget 0 t.mem.cells a = 0) ∧
    (scrubAt t p).state = 2 ∧ (scrubAt t p).seq = ((scrubAt s p).seq + 1) % 65536) ∧
  (∀ s, Taken s 256 0x0120 → s.fe.pausing = [] → let v := boxWord s 256 1
    (vaiAt s v).state = 1 → touching s (vaiAt s v).part = false → scrubbing s (vaiAt s v).part = false → exec .vaiPause s =
      .next (pauseStep v (preemptTasks (tasksOf (holdQueues v (modVai v (fun x => { x with state := 2 })
        { s with fe := { s.fe with pausing := [v] } })) v) (holdQueues v (modVai v (fun x => { x with state := 2 })
        { s with fe := { s.fe with pausing := [v] } }))))) ∧
  (∀ s, Taken s 256 0x0121 → let v := boxWord s 256 1
    (vaiAt s v).state = 3 → touching s (vaiAt s v).part = false → scrubbing s (vaiAt s v).part = false → exec .vaiResume s =
      .next (refillAll (replyBox 256 0 [] (freeQueues v (modVai v (fun x => { x with state := 1 }) s)))))

/-- R612 to R618: a log is started, harvested in whole records and stopped; a paused VAI's image is written and loaded. The encoding of
the image is an uninterpreted function (log entry 14). -/
def Obligations.Migration : Prop :=
  (∀ s, Taken s 256 0x0122 → let v := boxWord s 256 1
    (vaiAt s v).state ≠ 0 → confVai s v = false → (vaiAt s v).log = false → exec .migStart s =
      .next (replyBox 256 0 [] (modVai v (fun x => { x with log := true, overflow := false, hostLog := [], devLog := [] }) s))) ∧
  (∀ s, Taken s 256 0x0122 → confVai s (boxWord s 256 1) = true → exec .migStart s = .next (replyBox 256 Status.denied.code [] s)) ∧
  (∀ s, Taken s 256 0x0122 → (vaiAt s (boxWord s 256 1)).state = 0 → exec .migStart s = .next (replyBox 256 Status.denied.code [] s)) ∧
  (∀ s, Taken s 256 0x0122 → (vaiAt s (boxWord s 256 1)).state ≠ 0 → confVai s (boxWord s 256 1) = false →
    (vaiAt s (boxWord s 256 1)).log = true → exec .migStart s = .next (replyBox 256 Status.busy.code [] s)) ∧
  (∀ s, Taken s 256 0x0102 → let v := boxWord s 256 1
    let p := (vaiAt s v).part
    (vaiAt s v).state ≠ 0 → scrubbing s p = false → touching s p = false → ctxsOf s v = [] → confPart s p = false → ∃ t,
    exec .vaiDestroy s = .next t ∧ t.fe.vai = tmod {} s.fe.vai v (fun x => { evTail := x.evTail, drops := x.drops, log := false })) ∧
  (∀ s, Taken s 256 0x0123 → (vaiAt s (boxWord s 256 1)).state ≠ 0 → exec .migStop s =
    .next (replyBox 256 0 [] (modVai (boxWord s 256 1) (fun x => { x with log := false }) s))) ∧
  (∀ s, Taken s 256 0x0124 → let v := field (boxWord s 256 1) 0 8
    let x := vaiAt s v
    let n := boxWord s 256 4 / 8
    boxPair s 256 2 % 64 = 0 → boxWord s 256 4 % 64 = 0 → x.state ≠ 0 → bit (boxWord s 256 1) 8 = true → exec .migHarvest s =
      .next (replyBox 256 0 [8 * (x.hostLog.take n).length, b2n (!(x.hostLog.drop n).isEmpty) + 2 * b2n x.overflow]
        (hostWriteM (boxPair s 256 2) (((x.hostLog.take n).map (fun p => leBytes 8 (p * 4096))).flatten)
          (modVai v (fun y => { y with hostLog := x.hostLog.drop n, overflow := false }) s)))) ∧
  (∀ s, Taken s 256 0x0124 → let v := field (boxWord s 256 1) 0 8
    let x := vaiAt s v
    let l := (dirtyChunks x.devLog).take (boxWord s 256 4 / 2056)
    boxPair s 256 2 % 64 = 0 → boxWord s 256 4 % 64 = 0 → x.state ≠ 0 → bit (boxWord s 256 1) 8 = false → exec .migHarvest s =
      .next (replyBox 256 0 [2056 * l.length, b2n (decide (l.length < (dirtyChunks x.devLog).length)) + 2 * b2n x.overflow]
        (hostWriteM (boxPair s 256 2) ((l.map (fun k => leBytes 8 k ++ chunkBits x.devLog k)).flatten)
          (modVai v (fun y => { y with devLog := x.devLog.filter (fun u => !l.contains (u / 16384)), overflow := false }) s)))) ∧
  (∀ s, Taken s 256 0x0125 → let v := boxWord s 256 1
    let d := Config.migEncode (imageOfVai s v)
    boxPair s 256 2 % 64 = 0 → boxWord s 256 4 % 64 = 0 → (vaiAt s v).state = 3 → exec .migStateSave s = .next (
      if boxWord s 256 4 < d.length then replyBox 256 Status.busy.code [d.length] s
      else replyBox 256 0 [d.length] (hostWriteM (boxPair s 256 2) d s))) ∧
  (∀ s h m, Taken s 256 0x0126 → let v := boxWord s 256 1
    h.poison = false → Config.migDecode h.bytes = some m → boxPair s 256 2 % 64 = 0 → boxWord s 256 4 % 64 = 0 → (vaiAt s v).state = 1 →
    ctxsOf s v = [] → imageFits s v m = true → numbersFree s m = true → ∃ t, exec (.migStateLoad h) s = .next t ∧
    (vaiAt t v).state = 3 ∧ (boxAt t 256).ret = 0 ∧ (boxAt t 256).state = .done)

/-! ## Interrupts and mailboxes (chapter 14) -/

/-- R650, R651, R657: a reply repeats the token and the code, its length and its status go to MB_REPLY, and the mailbox is DONE. Nothing
but the mailbox and the event notices changes. R650 to R655: a mailbox goes from IDLE to POSTED, is taken by its processor, and is
released from DONE; a post into one that is not IDLE is discarded and counted; a running processor's heart beats every 64 beats. -/
def Obligations.Mailboxes : Prop :=
  (∀ s b code ws, ws.length ≤ 7 →
  let t := replyBox b code ws s
  (boxAt t b).state = .done ∧ (boxAt t b).valid = true ∧ (boxAt t b).replyLen = ws.length ∧
    (boxAt t b).token = field (boxWord s b 0) 16 8 ∧ (boxAt t b).ret = code % 65536 ∧
    (boxAt t b).reply.getD 0 0 = w32 (ws.length * 2 ^ 28 + field (boxWord s b 0) 16 8 * 2 ^ 16 + cmdCode (boxWord s b 0)) ∧
    (∀ i, i < ws.length → (boxAt t b).reply.getD (i + 1) 0 = w32 (ws.getD i 0)) ∧
    (∀ c, c ≠ b → boxAt t c = boxAt s c) ∧ Frame [.ic, .mbx] s t) ∧
  (∀ s b (v : W32), Live s → boxOpen s b = true → b < 258 → bit v.toNat 0 = true → (256 ≤ b ∨ resetWindow s = false) →
    exec (.mbPost b v) s = .next (
      if (boxAt s b).state = .idle then arrive (boxSource b) (modBox b (fun x => { x with state := .posted }) s)
      else modBox b (fun x => { x with discards := sat 8 (x.discards + 1) }) s)) ∧
  (∀ s b, Live s → (boxAt s b).state = .posted → takesNow s b = true → let l := (boxAt s b).words
    let u := handled (boxProc b) (boxSource b) (modBox b (fun x => { x with state := .taken, taken := x.words }) s)
    (∀ k, answeredNow s b (cmdCode ((l.getD 0 0).toNat)) = some k → exec (.mailboxTake b) s = .next (replyBox b k [] u)) ∧
    (answeredNow s b (cmdCode ((l.getD 0 0).toNat)) = none →
      (∀ k, malformed b l = some k → exec (.mailboxTake b) s = .next (replyBox b k [] u)) ∧
      (malformed b l = none → exec (.mailboxTake b) s = .next u))) ∧
  (∀ b l, shapeOf b (cmdCode ((l.getD 0 0).toNat)) = none → malformed b l = some 0x0100) ∧
  (∀ b l c, shapeOf b (cmdCode ((l.getD 0 0).toNat)) = some c → field (l.getD 0 0).toNat 24 4 = 0 →
    cmdLen (l.getD 0 0).toNat ≠ c.masks.length → malformed b l = some 0x0101) ∧
  (∀ s b (v : W32), Live s → boxOpen s b = true → b < 258 → bit v.toNat 31 = true → (256 ≤ b ∨ resetWindow s = false) →
    (boxAt s b).state = .done → exec (.mbAckRelease b v) s =
      .next (modBox b (fun x => { x with state := .idle, valid := false }) s)) ∧
  (∀ s b (v : W32), Live s → boxOpen s b = true → b < 258 → bit v.toNat 31 = true → (256 ≤ b ∨ resetWindow s = false) →
    (boxAt s b).state ≠ .done → exec (.mbAckRelease b v) s = .next s) ∧
  (∀ s p, Live s → (procAt s p).pstate = 1 → beat s % 64 = 0 → s.pm.done.contains (32 + p) = false → exec (.heartbeat p) s =
    .next (modProc p (fun x => { x with heart := (x.heart + 1) % 2 ^ 28 }) { s with
      pm := { s.pm with done := sinsert (32 + p) s.pm.done } }))

/-- R624 to R646, R773: the pending, unmasked source of the lowest LEVEL and then of the lowest number is written as a record of its
target's queue when there is room, with MSI-X when the queue was empty; the registers of a source. -/
def Obligations.InterruptController : Prop :=
  (∀ s t n, Live s → selectSource s t = some n → t < 257 → evFull s t = false →
    exec (.eventRecordWrite t) s = .next (writeRecord t n s)) ∧
  (∀ s t n, Live s → selectSource s t = some n → t < 257 → evFull s t = true → exec (.eventRecordWrite t) s = .next s) ∧
  (∀ s t n, Live s → selectSource s t = some n → 257 ≤ t → exec (.eventRecordWrite t) s = .next (writeProc (t - 257) n s)) ∧
  (∀ s n, (srcAt (arrive n s) n).count = min 255 ((srcAt s n).count + 1)) ∧
  (∀ s n, twf {} s.ic.src = true → (n ∈ pendingSources s ↔ 0 < (srcAt s n).count)) ∧
  (∀ s t n, selectSource s t = some n → (srcAt s n).level ≠ 0xFF) ∧
  (∀ s t n, selectSource s t = some n → selectable s t n = true ∧ ∀ m, m ∈ pendingSources s → selectable s t m = true →
    (srcAt s n).level * 2048 + n ≤ (srcAt s m).level * 2048 + m) ∧
  (∀ s n, evFull s 0 = false → evHead s 0 = evTail s 0 → let o := 0xE80000
    bit (regGet s (o + 12)) 0 = false → (writeRecord 0 n s).ports.out.getLast? =
      some (.msix 0 (regGet s o + 2 ^ 32 * regGet s (o + 4)) (w32 (regGet s (o + 8))))) ∧
  (∀ s g, Live s → exec (.holdoffExpiry g) s = .next { s with ic := { s.ic with held := sremove g s.ic.held } }) ∧
  (∀ s n, Live s → icOn s = true → hostSource s n = true → exec (.pendingClear n) s =
    .next (modSrc n (fun x => { x with count := 0, sw := false }) s)) ∧
  (∀ s n, Live s → icOn s = true → hostSource s n = true → exec (.swset n) s =
    .next (modSrc n (fun x => { x with sw := true }) (arrive n s))) ∧
  (∀ s r, Live s → s.blk.ireqReady = true → icOn s = true → exec (.icSync r) s = .next (emit (.regRead r (w32 s.ic.written)) s)) ∧
  (∀ s n (v : W32), Live s → icOn s = true → hostSource s n = true → exec (.sourceConfigWrite n v) s =
    .next (modSrc n (fun x => { x with mask := bit v.toNat 31, group := field v.toNat 22 6, level := field v.toNat 8 8 }) s)) ∧
  (∀ s t (v : W32), Live s → t < 257 → headOpen s t = true → (t = 0 ∨ resetWindow s = false) →
    (v.toNat + 2 ^ 32 - evHead s t) % 2 ^ 32 ≤ (evTail s t + 2 ^ 32 - evHead s t) % 2 ^ 32 →
    exec (.eventQueueHeadWrite t v) s = .next (let u := regSet (evHeadReg t) v.toNat s
      if v.toNat = evTail s t then u else sendMsix t u)) ∧
  (∀ s t (v : W32), Live s → t < 257 → headOpen s t = true → (t = 0 ∨ resetWindow s = false) → LogRoom s →
    (evTail s t + 2 ^ 32 - evHead s t) % 2 ^ 32 < (v.toNat + 2 ^ 32 - evHead s t) % 2 ^ 32 → ∃ u,
    exec (.eventQueueHeadWrite t v) s = .next u ∧ Logged 0 0 0x05 u ∧ u.regs = s.regs) ∧
  (∀ s v (x : W32), Live s → icOn s = true → v < 257 → bit x.toNat 0 = false → let u := regSet (0xE80000 + 0x10 * v + 12) 0 s
    exec (.msixVectorUnmask v x) s = .next (
      if s.ic.pba.contains v then sendMsix v { u with ic := { u.ic with pba := sremove v s.ic.pba } } else u))

/-! ## Start-up, firmware, repair (chapter 15) -/

/-- R50, R88, R315, R316, R319, R662 to R671: the phases of start-up, in their order, and where each one stops; the phases of stack
training, a channel with more than 64 failing granules, and the far tier of zeros; recovery fetches an image and starts it. -/
def Obligations.StartUp : Prop :=
  (∀ s c, Live s → s.blk.bootState = 1 → imageCause s s.fw.flash.image = some c → ∃ t, exec .csbImageCheck s = .next t ∧
    t.blk.bootState = 7 ∧ t.blk.cause = c ∧ t.fw.fuses = s.fw.fuses ∧ t.fw.running = s.fw.running ∧ Frame [.blk, .fw] s t) ∧
  (∀ s, Live s → s.blk.bootState = 1 → imageCause s s.fw.flash.image = none → ∃ t, exec .csbImageCheck s = .next t ∧
    t.blk.bootState = 2 ∧ t.fw.running = s.fw.flash.image ∧ (∀ k, k < 4 → (procAt t k).pstate = 1) ∧
    t.fw.fuses.svn = max s.fw.fuses.svn (imageSvn s.fw.flash.image) ∧ t.fw.flash = s.fw.flash) ∧
  (∀ s, Live s → s.blk.bootState = 7 → s.fw.recovering = true → s.fw.writing = none → (∀ r ∈ s.ports.oreq, r.use ≠ .recovery) →
    imageCause s s.fw.recovery = none → exec .csbImageCheck s = .next (
      if bit (regGet s 0x30) 30 then { s with fw := { s.fw with writing := some 0 } } else startStewards s.fw.recovery s)) ∧
  (∀ img s, (headerOk img = false ↔ imageCause s img = some 2) ∧ (headerOk img = true → Config.fwVerify (img.take 68) ((img.drop 68).take 96) = true →
    (img.drop 20).take 48 = Config.sha384 ((img.drop 512).take (imageLen img)) → imageSvn img < s.fw.fuses.svn →
    imageCause s img = some 5)) ∧
  (∀ s (v : W32), Live s → s.blk.ireqReady = true → bit v.toNat 31 = true → s.blk.bootState = 7 → s.fw.recovering = false → ∃ t,
    exec (.recoveryGo v) s = .next t ∧ t.fw.recovering = true ∧ t.fw.recovery = [] ∧ t.blk = s.blk ∧ same .cells s t) ∧
  (∀ s m n f g b, Live s → s.blk.bootState = 2 → (m && n) = false → ∃ t, exec (.strataBondTest m n f g b) s = .next t ∧
    t.blk.bootState = 8 ∧ t.blk.cause = 7 ∧
    t.mbx = (each (List.range 4) (fun k s => modProc k (fun x => { x with pstate := 0 }) s) s).mbx) ∧
  (∀ s f g b, Live s → s.blk.bootState = 2 → 8 < (f.foldl (fun l i => sinsert i l) []).length → ∃ t,
    exec (.strataBondTest true true f g b) s = .next t ∧ t.blk.bootState = 8 ∧ t.blk.cause = 8) ∧
  (∀ s f g b, Live s → s.blk.bootState = 2 → (f.foldl (fun l i => sinsert i l) []).length ≤ 8 →
    (g.foldl (fun l i => sinsert i l) []).length ≤ 8 → ∃ t, exec (.strataBondTest true true f g b) s = .next t ∧
    t.blk.bootState = 3 ∧ t.blk.phase = 6 ∧ t.blk.strataOk = true ∧ t.blk.bgFailed0 = f.foldl (fun l i => sinsert i l) [] ∧
    t.blk.bgFailed1 = g.foldl (fun l i => sinsert i l) []) ∧
  (∀ s m n f g b, Live s → s.blk.bootState = 3 → ∃ t, exec (.strataBondTest m n f g b) s = .next t ∧ t.blk.bootState = 4 ∧
    t.blk.phase = 7 ∧ (∀ k, k < 12 → k ∈ s.blk.mcOk → stackGone s k = false → (stackAt t k).state = 1)) ∧
  (∀ s b n i p, i < 72 →
    (((List.range 76).map (fun i => 76 * n + i)).filter (fun p => !s.fw.fuses.failed.contains p && !b.contains p))[i]? = some p →
    physOf (mapSector b n s) (72 * n + i) = some p) ∧
  (∀ s k f c n, Live s → s.blk.bootState = 4 → k ≠ s.mem.train + 1 → exec (.stackTraining f c k n) s = .next s) ∧
  (∀ s f c n, Live s → s.blk.bootState = 4 → s.mem.train = 0 → ∃ t, exec (.stackTraining f c 1 n) s = .next t ∧ t.mem.train = 1 ∧
    (∀ x, x < 12 → (stackAt s x).state = 1 → (stackAt t x).state = if x ∈ f then 5 else 1)) ∧
  (∀ s f c n, Live s → s.blk.bootState = 4 → s.mem.train = 3 → ∃ t, exec (.stackTraining f c 4 n) s = .next t ∧ t.mem.train = 4 ∧
    (∀ x, x ∈ t.mem.trainBad ↔ x ∈ s.mem.trainBad ∨ (x < 768 ∧ ∃ m, 64 < m ∧ (x, m) ∈ c)) ∧ same .cells s t) ∧
  (∀ s f c n, Live s → s.blk.bootState = 4 → s.mem.train = 4 → ∃ t, exec (.stackTraining f c 5 n) s = .next t ∧ t.mem.train = 5 ∧
    (∀ a, tget 0 t.mem.cells a = 0) ∧ t.mem.poison = [] ∧ t.mem.trainBad = s.mem.trainBad) ∧
  (∀ s f c n, Live s → s.blk.bootState = 4 → s.mem.train = 5 → ∃ t, exec (.stackTraining f c 6 n) s = .next t ∧
    ((t.blk.bootState = 5 ∧ t.blk.phase = 8) ∨
      (t.blk.bootState = 8 ∧ t.blk.cause = 9 ∧ ∀ n, n < 12 → stackGone t n = true))) ∧
  (∀ s, Live s → s.blk.bootState = 5 → ∃ t, exec .portTrainingTimeout s = .next t ∧ t.blk.phase = 9 ∧ t.blk.bootState = 5 ∧
    (∀ p, p < 8 → portTrains s p = true → (portAt s p).state = 1 → (portAt t p).logged = true)) ∧
  (∀ s n, Live s → s.blk.bootState = 5 → portsReady s = true → ∃ t, exec (.reportReady n) s = .next t ∧ t.blk.bootState = 6 ∧
    t.blk.phase = 10 ∧ t.blk.readyMs = min n 0xFFF ∧ (srcAt t 36).count = sat 8 ((srcAt s 36).count + 1) ∧
    (∀ k, k < 48 → (lceAt t k).state = 1) ∧ (regAt t 0).rate = 112 ∧ (regAt t 12).rate = 12 ∧ t.pm.listen = some 0)

/-- R672 to R675: an image is staged, handed to the stewards one at a time, written to flash, or given up. -/
def Obligations.FirmwareUpdate : Prop :=
  (∀ s h, Taken s 256 0x0300 → let k := field (boxWord s 256 1) 0 10
    let n := boxWord s 256 4
    let img := padTo h.bytes n
    k < 960 → boxPair s 256 2 % 4096 = 0 → n ≤ chunkSize → headerOk img = true → n = 512 + imageLen img →
    stageDenied s img h.poison k = false → s.fw.upd = 0 → tget .free s.fe.ftOwn k = .free → exec (.fwStage h) s =
      .next (let u := writeMem (k * chunkSize) img (fun _ => false) s
        replyBox 256 0 [] { u with fw := { u.fw with upd := 2, chunk := k, staged := img, newOn := 0 } })) ∧
  (∀ s h, Taken s 256 0x0300 → let k := field (boxWord s 256 1) 0 10
    let n := boxWord s 256 4
    let img := padTo h.bytes n
    k < 960 → boxPair s 256 2 % 4096 = 0 → n ≤ chunkSize → headerOk img = true → n = 512 + imageLen img →
    stageDenied s img h.poison k = true → exec (.fwStage h) s = .next (replyBox 256 Status.denied.code [] s)) ∧
  (∀ s, Taken s 256 0x0301 → let k := field (boxWord s 256 1) 0 2
    s.fw.hand = none → s.err.bPending = none → s.err.state ≠ 1 → s.fw.upd ≠ 0 → bit s.fw.newOn k = false → s.fe.reconf = none →
    s.fe.scrubbing = [] → exec .fwHandover s = .next { s with fw := { s.fw with hand := some (k, 0) } }) ∧
  (∀ s, Live s → boxRuns s 256 0x0301 = true → s.fw.hand = none → (s.err.bPending.isSome = true ∨ s.err.state = 1) →
    exec .fwHandover s = .next (replyBox 256 Status.busy.code [] s)) ∧
  (∀ s k, Live s → s.fw.hand = some (k, 1) → exec .handoverStart s = .next (bankArrive k
    (modProc k (fun x => { x with pstate := 2 }) { s with fw := { s.fw with hand := some (k, 2), upd := 3 } }))) ∧
  (∀ s k, Live s → s.fw.hand = some (k, 2) → ∃ t, exec .handoverComplete s = .next t ∧ t.fw.hand = none ∧
    t.fw.newOn = s.fw.newOn ||| 2 ^ k ∧ (procAt t k).pstate = 1 ∧ t.fw.upd = 2) ∧
  (∀ s k, Live s → s.fw.hand = some (k, 2) → ∃ t, exec .handoverTimeout s = .next t ∧ t.fw.hand = none ∧ t.fw.newOn = s.fw.newOn ∧
    (procAt t k).pstate = 1 ∧ t.fw.upd = 2) ∧
  (∀ s, Taken s 256 0x0302 → s.fw.writing = none → s.fw.newOn = 0xF → exec .fwCommit s =
    .next { s with fw := { s.fw with writing := some 1, upd := 4 } }) ∧
  (∀ s, Taken s 256 0x0302 → s.fw.writing = none → s.fw.newOn ≠ 0xF → exec .fwCommit s =
    .next (replyBox 256 Status.denied.code [] s)) ∧
  (∀ s, Serving s → (s.err.state != 2) = true → s.fw.writing = some 1 → ∃ t, exec .flashWriteDone s = .next t ∧
    t.fw.flash.image = s.fw.staged ∧ t.fw.running = s.fw.staged ∧ t.fw.upd = 0 ∧ t.fw.writing = none ∧
    t.fw.fuses.svn = max s.fw.fuses.svn (imageSvn s.fw.staged)) ∧
  (∀ s, Taken s 256 0x0303 → s.fw.newOn = 0 → exec .fwAbort s =
    .next (replyBox 256 0 [] { s with fw := { s.fw with upd := 0, staged := [] } })) ∧
  (∀ s, Taken s 256 0x0303 → s.fw.newOn ≠ 0 → exec .fwAbort s = .next (replyBox 256 Status.denied.code [] s))

/-- R676 to R680: an array is swapped for a reserve one; a sector goes offline, and comes online after its self-tests. -/
def Obligations.Repair : Prop :=
  (∀ s p, Taken s 256 0x0310 → let l := field (boxWord s 256 1) 0 10
    let n := sectorOfArray l
    physOf s l = some p → s.arr.swaps.any (fun x => x.l == l && !x.own) = false → reserveOf s n ≠ none → sectorOn s n = true →
    swapping s n = false → exec (.arraySwap none) s = .next (beginSwap l p false s)) ∧
  (∀ s p, Taken s 256 0x0310 → let l := field (boxWord s 256 1) 0 10
    let n := sectorOfArray l
    physOf s l = some p → s.arr.swaps.any (fun x => x.l == l && !x.own) = false → reserveOf s n = none → swapping s n = false →
    exec (.arraySwap none) s = .next (replyBox 256 Status.denied.code [] s)) ∧
  (∀ s l p, Serving s → physOf s l = some p → 16 < (physAt s p).ce → (physAt s p).role = 2 → sectorOn s (sectorOfArray l) = true →
    swapping s (sectorOfArray l) = false → exec (.arraySwap (some l)) s = .next (beginSwap l p true s)) ∧
  (∀ s, Taken s 256 0x0311 → let n := field (boxWord s 256 1) 0 4
    n < 12 → sectorOn s n = true → (sectorAt s n).state ≠ 1 → 1 < ((sectorsOf s (partOfSector s n)).filter (sectorOn s)).length →
    s.fe.reconf = none → s.fe.scrubbing = [] → swapping s n = false → exec .sectorOffline s = .next (
      let u := each (List.range 4) (fun i s => refuseQueued (4 * n + i) (modLce (4 * n + i) (fun x => { x with state := 3 }) s))
        (modSector n (fun x => { x with state := 1 }) s)
      let w := each ((List.range 72).map (fun i => 72 * n + i)) (fun l s => match physOf s l with
        | some p => requestPre p false (returnEntries l p s)
        | none => s) u
      sectorStep n (each w.fe.tasks (leaveSector n) w))) ∧
  (∀ s, Taken s 256 0x0311 → let n := field (boxWord s 256 1) 0 4
    n < 12 → (sectorAt s n).state ≠ 1 → sectorOn s n = true → ((sectorsOf s (partOfSector s n)).filter (sectorOn s)).length ≤ 1 →
    exec .sectorOffline s = .next (replyBox 256 Status.denied.code [] s)) ∧
  (∀ s, Taken s 256 0x0312 → let n := field (boxWord s 256 1) 0 4
    let l := (physOfSector n).filter (fun p => (physAt s p).role == 6)
    n < 12 → (sectorAt s n).state = 2 → exec .sectorOnline s = .next (sectorTested n (modSector n (fun _ => {
      state := 3, tests := l, bad := [] }) (each l (fun p s => modArr p (fun x => { x with gated := false })
        (modPhys p (fun x => { x with testing := true }) s)) { s with pm := { s.pm with sector := tset 0 s.pm.sector n 0 } })))) ∧
  (∀ s n, (sectorAt s n).state = 3 → (sectorAt s n).tests ≠ [] → sectorTested n s = s) ∧
  (∀ s p b, Serving s → (s.err.state != 2) = true → (physAt s p).testing = true → (∀ x ∈ s.arr.swaps, x.new ≠ some p) →
    exec (.arraySelfTestDone p b) s = .next (sectorTested (sectorOfPhys p) (modSector (sectorOfPhys p) (fun x => { x with
      tests := x.tests.erase p, bad := if b then x.bad else x.bad ++ [p] }) (modPhys p (fun x => { x with testing := false }) s)))) ∧
  (∀ s p x, Serving s → (s.err.state != 2) = true → (physAt s p).testing = true → s.arr.swaps.find? (fun x => x.new == some p) = some x →
    exec (.arraySelfTestDone p true) s = .next (drainOld x (modPhys p (fun x => { x with testing := false }) s)))

/-! ## Power, the beat, the ledger (chapter 16) -/

/-- R681 to R690, R764: a unit that has nothing to do enters its state only within the limits, and leaves it when it is needed, when the
CPB foresees an event, and at once when the limits forbid it; the ARRAY rate and the sources of throttling. -/
def Obligations.PowerStates : Prop :=
  (∀ s p, Computing s → p < 912 → mayRest s (.array p) = true → (arrAt s p).task = none → (arrAt s p).queue = [] →
    (physAt s p).testing = false → exec (.arrayGate p) s = .next (modArr p (fun x => { x with gated := true }) s)) ∧
  (∀ s p, Live s → mayRest s (.array p) = false → exec (.arrayGate p) s = .next s) ∧
  (∀ s p, mayRest s (.array p) = true → 1 ≤ maxState s ∧ ∀ e ∈ s.fe.vai, wakeActive s e.1 = true →
    e.2.part = partOfSector s (sectorOfPhys p) → 20 ≤ e.2.wakeTol) ∧
  (∀ s n, Computing s → mayRest s (.stack n) = true → stackIdle s n = true → (stackAt s n).state = 2 →
    exec (.stackSelfRefreshEntry n) s = .next (emit (.selfRefresh n true) (modStack n (fun x => { x with state := 3 }) s))) ∧
  (∀ s n, Computing s → n < 12 → mayRest s (.sector n) = true → sectorBusy s n = false → (sectorAt s n).state = 2 →
    exec (.sectorDozeEntry n) s = .next { s with pm := { s.pm with sector := tset 0 s.pm.sector n 3 } }) ∧
  (∀ s, Computing s → mayRest s .block = true → blockNeeded s = false → (∀ n, n < 12 → sectorOn s n = true → rests s (.sector n) = true) →
    (∀ n, n < 12 → stackGone s n = false → rests s (.stack n) = true) →
    exec .blockRestEntry s = .next { s with pm := { s.pm with block := 4 } }) ∧
  (∀ s u, Serving s → rests s u = true → (needed s u = true ∨ s.pm.waking.contains u = true) →
    exec (.wakeComplete u) s = .next (activate u s)) ∧
  (∀ s n, Serving s → rests s (.sector n) = true → needed s (.sector n) = false → s.pm.waking.contains (.sector n) = false →
    exec (.wakeComplete (.sector n)) s = .next s) ∧
  (∀ s p, Serving s → rests s (.array p) = true → s.pm.waking.contains (.array p) = false →
    eventFor s (partOfSector s (sectorOfPhys p)) (beat s + 1) = true →
    exec (.prewake (.array p)) s = .next { s with pm := { s.pm with waking := s.pm.waking ++ [.array p] } }) ∧
  (∀ s, Taken s 256 0x0340 → let v := field (boxWord s 256 1) 0 8
    (vaiAt s v).state ≠ 0 → exec .vaiWakeTol s =
      .next (replyBox 256 0 [] (leaveDeep (modVai v (fun x => { x with wakeTol := boxWord s 256 2 }) s)))) ∧
  (∀ s (v : W32), Live s → regsOn s = true → exec (.maxStateWrite v) s =
    .next (leaveDeep (regSet 0x1100000 (v.toNat &&& 0xE0FFFFFF) s))) ∧
  (∀ s load, let r := chosenRate load s
    let fits := fun (r : Nat) => decide (Config.ratePower load s.pm.power r ≤ field (regGet s 0x1100004) 10 12)
    10 ≤ r ∧ r ≤ rateMax s ∧ (r ≠ 10 → fits r = true) ∧ ∀ x, 10 ≤ x → x ≤ rateMax s → fits x = true → x ≤ r) ∧
  (∀ s load, Live s → let r := chosenRate load s
    ∃ t, exec (.cpbRateChoice load) s = .next t ∧ t.pm.rate = r ∧ t.pm.thrCap = decide (r < rateMax s) ∧
      (srcAt t 37).count = (if decide (r < rateMax s) = s.pm.thrCap then (srcAt s 37).count else sat 8 ((srcAt s 37).count + 1)))

/-- R68, R82, R364, R376 to R380, R691 to R696, R766: the beat counter rises by one at a boundary or takes the value that waits for it, and
only a jump counts as one; followers take the master's value, a master of lower node ID wins; the losses that put LOCK into holdover; the
times of PTP messages. R698 to R702: a snapshot is taken once at its round, after it no entry is lost; a write of the head gives room and
the entries that wait are written. -/
def Obligations.BeatAndLedger : Prop :=
  (∀ s, Live s → s.pm.next = none → ∃ t, exec .beatBoundary s = .next t ∧ t.pm.beat = (s.pm.beat + 1) % 2 ^ 64 ∧ t.pm.jumps = s.pm.jumps ∧
    t.pm.next = none) ∧
  (∀ s v, Live s → s.pm.next = some v → s.pm.jump = false → ∃ t, exec .beatBoundary s = .next t ∧ t.pm.beat = v ∧
    t.pm.jumps = s.pm.jumps ∧ t.pm.next = none) ∧
  (∀ s v, Live s → s.pm.next = some v → s.pm.jump = true → ∃ t, exec .beatBoundary s = .next t ∧ t.pm.beat = v ∧
    t.pm.jumps = sat 16 (s.pm.jumps + 1) ∧ t.pm.next = none ∧ t.pm.skip = true) ∧
  (∀ s, Live s → bit (regGet s 0x8) 17 = true → s.pm.master = true → (s.pm.src = 1 ∨ s.pm.src = 2) → exec .beatInEdge s =
    .next (setLock 1 { s with pm := { s.pm with missed := 0, pulses := (s.pm.pulses + 1) % 2 } })) ∧
  (∀ s, Live s → s.pm.master = false → exec .beatInEdge s = .next s) ∧
  (∀ s p x, Live s → beatPort s p = true → s.pm.master = true → nodeId s ≤ x.master → ∃ t, exec (.beatOrderedSet p x true) s = .next t ∧
    t.pm = s.pm ∧ (portAt t p).distance = x.distance) ∧
  (∀ s p x, Live s → beatPort s p = true → (s.pm.master = false ∨ x.master < nodeId s) → s.pm.node = 0xFFF →
    bestPort (modPort p (fun y => { y with distance := x.distance, master := x.master }) s) = some p → ∃ t,
    exec (.beatOrderedSet p x true) s = .next t ∧ t.pm.master = false ∧ t.pm.upstream = p ∧ t.pm.distance = min 0xFF (x.distance + 1) ∧
    t.pm.node = x.master ∧ t.pm.next = some ((x.value + 1) % 2 ^ 64) ∧ t.pm.jump = false ∧ t.pm.lock = 1) ∧
  (∀ s p x, Live s → beatPort s p = true → (s.pm.master = false ∨ x.master < nodeId s) → s.pm.node ≠ 0xFFF → s.pm.node ≠ x.master →
    bestPort (modPort p (fun y => { y with distance := x.distance, master := x.master }) s) = some p → ∃ t,
    exec (.beatOrderedSet p x true) s = .next t ∧ t.pm.node = x.master ∧ t.pm.next = some ((x.value + 1) % 2 ^ 64) ∧ t.pm.jump = true) ∧
  (∀ s p x, Live s → beatPort s p = true →
    exec (.beatOrderedSet p x false) s = .next (modPort p (fun y => { y with crcErr := y.crcErr + 1 }) s)) ∧
  (∀ s, Live s → s.pm.master = false → s.pm.upstream < 8 → beatPort s s.pm.upstream = false → LogRoom s →
    bestPort (modPort s.pm.upstream (fun x => { x with distance := 0xFF }) s) = none → ∃ t, exec .beatUpstreamLoss s = .next t ∧
    t.pm.upstream = 0xF ∧ t.pm.distance = 0xFF ∧ t.pm.lock = 2 ∧ t.pm.beat = s.pm.beat ∧ Logged 0 0 0x07 t) ∧
  (∀ s, Live s → s.pm.cand = true → s.pm.master = false → s.pm.listen = some 32 → bestPort s = none → ∃ t,
    exec .masterElection s = .next t ∧ t.pm.master = true ∧ t.pm.distance = 0 ∧ t.pm.node = nodeId s ∧ t.pm.next = some 0 ∧
    t.pm.jump = false) ∧
  (∀ s, Live s → s.pm.master = true → (s.pm.src = 1 ∨ s.pm.src = 2) → s.pm.lock = 1 → missLimit s.pm.src ≤ s.pm.missed → LogRoom s → ∃ t,
    exec .beatSourceLoss s = .next t ∧ t.pm.lock = 2 ∧ Logged 0 0 0x07 t) ∧
  (∀ s p, Serving s → 2 ≤ portMode s p → (portAt s p).state = 2 → ¬ (s.pm.src = 3 ∧ s.pm.master = true) →
    (∀ d n, exec (.ptpMessage p false d n) s = .next (emit (.ptp p (portAt s p).ptpAt) s)) ∧
    ∀ d n, let at1 := if d then n + (portAt s p).txLat else n - (portAt s p).rxLat
      exec (.ptpMessage p true d n) s = .next (emit (.ptp p at1) (modPort p (fun x => { x with ptpAt := at1 }) s))) ∧
  (∀ s, Taken s 256 0x0341 → exec .beatSet s = .next (
    if s.pm.master then replyBox 256 0 [] (loadBeat (boxPair s 256 1) true s) else replyBox 256 Status.denied.code [] s)) ∧
  (∀ s, Live s → regsOn s = true → s.pm.done.contains 0 = true → let n := field (regGet s 0x1100314) 16 16
    n ≠ 0 → s.pm.rounds % n = 0 → s.pm.done.contains 2 = false → s.pm.cut = false → inReset s = false →
    exec .ledgerSnapshot s = .next (takeSnapshot { s with pm := { s.pm with done := sinsert 2 s.pm.done } })) ∧
  (∀ s, ledSize s ≠ 0 → s.pm.held = [] → (snapEntries (s.pm.snap + 1) s).length ≤ ledRoom s → (takeSnapshot s).pm.snap =
    (s.pm.snap + 1) % 2 ^ 32) ∧
  (∀ s, s.pm.held ≠ [] → takeSnapshot s = s) ∧
  (∀ s (v : W32), Live s → regsOn s = true → exec (.ledgerHeadWrite v) s = .next (ledFlush s.pm.held (regSet 0x110030C v.toNat s)))

/-! ## Faults and recovery (chapter 17) -/

/-- R706, R707: a guilty queue gives up its work; when its requests have finished its entries are written, it stops, its status and
position are recorded, and notice 0x04 is posted. -/
def Obligations.QueueResets : Prop :=
  (∀ s q g, Computing s → (queueAt s q).guilty = some g → (queueAt s q).state = .ready → exec (.queueReset q) s = .next (
    let u := modQueue q (fun x => { x with state := .resetting, gen := (x.gen + 1) % 256 }) (freeSlot q s)
    refillAll (reissueAll (breakBars (queueAt s q).ctx (endQueueWork (ctxTag s) true q q .cancelled u))))) ∧
  (∀ s q, Computing s → (queueAt s q).guilty = none → exec (.queueReset q) s = .next s) ∧
  (∀ s q g, Computing s → (queueAt s q).state = .resetting → (queueAt s q).guilty = some g → exec (.queueResetSettled q) s = .next (
    let u := homeHandles true q (writeEnded q (expireReset q s))
    resetNotice q g.status.code (modQueue q (fun x => { stoppedQueue u x with
      guilty := none, lastStatus := g.status.code % 256, faultPos := g.pos % 2 ^ 32 }) u))) ∧
  (∀ s x, (vaiAt s x.vai).state ≠ 2 → (vaiAt s x.vai).state ≠ 3 → (stoppedQueue s x).state = .stopped)

/-- R709 to R718, R729: a B-class event that waits starts a block reset, which ends every task, launch and wait, keeps memory, the beat
and the tally words, and captures a dump; as many of them as LIMIT within the window take the block out of service. The sequence ends in
restore, restore in service. REINSTATE performs one that does not count. -/
def Obligations.BlockResets : Prop :=
  (∀ s b, Live s → s.blk.bootState = 6 → s.err.bPending = some b → (recentResets s).length < resetLimit s → ∃ t,
    exec .blockReset s = .next t ∧ t.err.state = 1 ∧ t.err.bPending = none ∧ t.err.resets = sat 16 (s.err.resets + 1) ∧
    t.err.lastBr = beat s ∧ t.err.recentAt = recentResets s ++ [beat s] ∧ t.blk.bootState = 6 ∧ t.fe.tasks = [] ∧ t.fe.launches = [] ∧
    t.fe.slot = [] ∧ t.arr.saves = [] ∧ t.tw.waits = [] ∧ t.tw.val = s.tw.val ∧ t.pm.beat = s.pm.beat ∧
    t.err.dump.take 4 = [0x50, 0x4D, 0x44, 0x53] ∧ same .cells s t) ∧
  (∀ s b, Live s → s.blk.bootState = 6 → s.err.bPending = some b → resetLimit s ≤ (recentResets s).length → ∃ t,
    exec .blockReset s = .next t ∧ t.blk.bootState = 9 ∧ t.err.state = 3 ∧ t.err.bPending = none ∧ t.err.resets = s.err.resets ∧
    0 < (srcAt t 35).count ∧ t.fe.tasks = [] ∧ t.err.dump.take 4 = [0x50, 0x4D, 0x44, 0x53] ∧ same .cells s t) ∧
  (∀ s, Live s → s.err.bPending = none → exec .blockReset s = .next s) ∧
  (∀ s, Live s → s.err.state = 1 → ∃ t, exec .blockResetDrainExpiry s = .next t ∧ t.err.drained = true ∧ resetReads t = false ∧
    Frame [.err, .ports] s t) ∧
  (∀ s, Live s → s.blk.bootState = 6 → s.err.state = 1 → s.err.bPending = none → resetReads s = false → ∃ t,
    exec .resetSequenceEnd s = .next t ∧ t.rg.gapBeats = 0 ∧
    ((keysOf s.fe.ctx (fun c => c.state == 1) = [] ∧ t.err.state = 0 ∧ 0 < (srcAt t 36).count) ∨
      (keysOf s.fe.ctx (fun c => c.state == 1) ≠ [] ∧ t.err.state = 2 ∧ t.err.toRestore = keysOf s.fe.ctx (fun c => c.state == 1)))) ∧
  (∀ s w c, Serving s → s.err.state = 2 → s.err.toRestore.find? (fun c => (ctxAt s c).vai % 4 == w) = some c →
    exec (.contextRestore w) s = .next (endRestore (vaisBack (restoreCtx c { s with
      err := { s.err with toRestore := sremove c s.err.toRestore } })))) ∧
  (∀ s, s.err.toRestore = [] → (endRestore s).err.state = 0 ∧ 0 < (srcAt (endRestore s) 36).count) ∧
  (∀ s (v : W32), Live s → s.blk.bootState = 9 → bit v.toNat 30 = true → ∃ t, exec (.reinstate v) s = .next t ∧ t.blk.bootState = 6 ∧
    t.err.state = 1 ∧ t.err.recentAt = [] ∧ t.err.reinstating = true)

/-- R721, R728, R730 to R732: HEAD of the log closes records and never passes TAIL; a dump is copied to the host or to flash, or cleared. -/
def Obligations.LogAndDump : Prop :=
  (∀ s (v : W32), Live s → regsOn s = true → (v.toNat + 2 ^ 32 - s.err.head) % 2 ^ 32 ≤ openRecs s →
    exec (.errLogHeadWrite v) s = .next { s with err := { s.err with head := v.toNat } }) ∧
  (∀ s (v : W32), Live s → regsOn s = true → LogRoom s → openRecs s < (v.toNat + 2 ^ 32 - s.err.head) % 2 ^ 32 → ∃ t,
    exec (.errLogHeadWrite v) s = .next t ∧ Logged 0 0 0x05 t ∧ t.err.head = s.err.head) ∧
  (∀ s (v : W32), Live s → regsOn s = true → bit v.toNat 29 = true → ∃ t, exec (.dumpClr v) s = .next t ∧ t.fw.flash.dump = [] ∧
    t.fw.flash.log = [] ∧ t.fw.flash.dumpDone = false ∧ t.err.dump = s.err.dump ∧ t.fw.flash.image = s.fw.flash.image ∧
    Frame [.fw, .err] s t) ∧
  (∀ s (v : W32), Live s → regsOn s = true → bit v.toNat 31 = true → s.err.copying = false → ∃ t, exec (.dumpCopy v) s = .next t ∧
    t.err.copying = true ∧ t.err.copyFailed = false ∧ t.err.fromFlash = bit v.toNat 30 ∧ Frame [.regs, .err] s t) ∧
  (∀ s, Live s → s.err.copying = true → dumpOf s s.err.fromFlash ≠ [] → exec (.dumpCopyDone false) s =
    .next (hostWriteM (regGet s 0x1200020 / 4096 * 4096 + 2 ^ 32 * regGet s 0x1200024) (dumpOf s s.err.fromFlash)
      { s with err := { s.err with copying := false, copyFailed := false } })) ∧
  (∀ s, Live s → s.err.copying = true → exec (.dumpCopyDone true) s =
    .next { s with err := { s.err with copying := false, copyFailed := true } }) ∧
  (∀ s, Serving s → s.err.state = 0 → s.err.offer = true → s.fw.flash.dumpDone = false → s.err.flashCopying = false → s.err.dump ≠ [] →
    ∃ t, exec .dumpFlashCopy s = .next t ∧ t.fw.flash.dump = s.err.dump ∧ t.fw.flash.log.length = 131072 ∧
    t.fw.flash.dumpDone = false ∧ t.err.flashCopying = true ∧ Frame [.fw, .err] s t) ∧
  (∀ s, Live s → s.err.flashCopying = true → exec .dumpFlashCopyDone s = .next { s with
    fw := { s.fw with flash := { s.fw.flash with dumpDone := true } }, err := { s.err with flashCopying := false } })

/-! ## Confidential operation (chapter 18) -/

namespace Sys2Proof

/-- The DOE pipe delivers requests to the responder (R736). -/
def DoeOpen (s : State) : Prop := Live s ∧ csbRuns s = true ∧ s.blk.doeAbort = false

/-- The security mailbox holds a taken command of a code, and the CSB runs it (R655, R740). -/
def Secured (s : State) (code : Nat) : Prop := Live s ∧ secRuns s code = true

end Sys2Proof

/-- R736 to R739, R753: requests are answered on the path they came on; measurements; at most 16 sessions, the next one numbered; what
ends with a session. Request codes and the kinds of error are those of SPDM 1.3 (PRESUMED). -/
def Obligations.SpdmResponder : Prop :=
  (∀ s m, DoeOpen s → exec (.doeMessage m) s = .next (emit (.doe (spdmAnswer m s).1) (spdmAnswer m s).2)) ∧
  (∀ s m, Live s → s.blk.doeAbort = true → exec (.doeMessage m) s = .next s) ∧
  (∀ s m, DoeOpen s → exec (.spdmMessage .doe m) s = .next (emit (.doe (spdmOther m s).1) (spdmOther m s).2)) ∧
  (∀ s m i, DoeOpen s → byteAt m 3 = i → 1 ≤ i → i ≤ 8 → bit (byteAt m 2) 0 = true → ∃ x, let n := padTo ((m.drop 4).take 32) 32
    let b := measureBlock s n i
    let r := [0x13, 0x60, 0, 0] ++ leBytes 1 1 ++ leBytes 3 b.length ++ b ++ leBytes 32 x ++ [0, 0]
    exec (.getMeasurements .doe m) s = .next (emit (.doe (r ++ identitySign (m ++ r))) { s with freeCtr := s.freeCtr + 1 })) ∧
  (∀ s m, DoeOpen s → s.csb.sessions.length < 16 → ∃ t, exec (.keyExchange .doe m) s = .next t ∧
    t.csb.sessions = s.csb.sessions ++ [s.csb.next] ∧ t.csb.next = s.csb.next + 1 ∧ Frame [.csb, .ports, .freeCtr] s t) ∧
  (∀ s m, DoeOpen s → 16 ≤ s.csb.sessions.length → exec (.keyExchange .doe m) s = .next (emit (.doe (spdmError 3)) s)) ∧
  (∀ s k, DoeOpen s → k ∈ s.csb.sessions → exec (.endSession .doe k) s =
    .next (emit (.doe [0x13, 0x6C, 0, 0]) (dropSession k s))) ∧
  (∀ s k, Live s → k ∈ s.csb.sessions → exec (.sessionHeartbeatTimeout k) s = .next (dropSession k s)) ∧
  (∀ s k, k ∉ (dropSession k s).csb.sessions ∧ (∀ b ∈ (dropSession k s).csb.bindings, b.session ≠ k) ∧
    (∀ b ∈ s.csb.bindings, b.session = k → ∀ w ∈ (dropSession k s).csb.windows, partOfCtx s w.ctx ≠ b.part))

/-- R745, R746, R750, R753, R759: a session binds a confidential partition under a fresh generation, sets the windows of its contexts,
rotates the key and unbinds; what it may not do is answered with a code. -/
def Obligations.SealBindings : Prop :=
  (∀ s k l, DoeOpen s → k ∈ s.csb.sessions → exec (.sealBind .doe k l) s = .next (emit (.doe (sealBind k l s).1) (sealBind k l s).2)) ∧
  (∀ s k l, DoeOpen s → k ∈ s.csb.sessions → exec (.sealWindow .doe k l) s =
    .next (emit (.doe (sealWindow k l s).1) (sealWindow k l s).2)) ∧
  (∀ s k l, DoeOpen s → k ∈ s.csb.sessions → exec (.sealRotate .doe k l) s =
    .next (emit (.doe (sealRotate k l s).1) (sealRotate k l s).2)) ∧
  (∀ s k l, DoeOpen s → k ∈ s.csb.sessions → exec (.sealUnbind .doe k l) s =
    .next (emit (.doe (sealUnbind k l s).1) (sealUnbind k l s).2)) ∧
  (∀ s k l, DoeOpen s → k ∉ s.csb.sessions → exec (.sealBind .doe k l) s = .next (emit (.doe (spdmError 2)) s)) ∧
  (∀ s k l g, let p := field (reqWord l 0) 0 4
    scrubbing s p = false → confPart s p = true →
    s.fe.vai.any (fun e => e.2.state != 0 && e.2.part == p && e.2.pasid == field (reqWord l 1) 0 20) = true →
    boundToOther s k p = false → nextGen s k p = some g → ∃ t, sealBind k l s = ([0], t) ∧
    bindingOf t p = some { session := k, part := p, gen := g, counter := 1 } ∧ lastGen t k p = some g ∧
    (∀ q, q ≠ p → bindingOf t q = bindingOf s q) ∧ Frame [.csb] s t) ∧
  (∀ s k l, scrubbing s (field (reqWord l 0) 0 4) = true → sealBind k l s = ([BitVec.ofNat 8 Status.busy.code], s)) ∧
  (∀ s k p, lastGen s k p = none → nextGen s k p = some 0) ∧
  (∀ s k p g, lastGen s k p = some g → nextGen s k p = if g < 255 then some (g + 1) else none) ∧
  (∀ s k l g, let p := field (reqWord l 0) 0 4
    binds s k p = true → nextGen s k p = some g → sealBusy s p = false → ∃ t, sealRotate k l s = ([0], t) ∧
    bindingOf t p = some { session := k, part := p, gen := g, counter := 1 }) ∧
  (∀ s k l, let p := field (reqWord l 0) 0 4
    binds s k p = true → ∃ t, sealUnbind k l s = ([0], t) ∧ bindingOf t p = none ∧
    (∀ w ∈ t.csb.windows, partOfCtx s w.ctx ≠ p)) ∧
  (∀ s k l, binds s k (field (reqWord l 0) 0 4) = false → sealUnbind k l s = ([BitVec.ofNat 8 Status.denied.code], s)) ∧
  (∀ s k l, let c := field (reqWord l 0) 0 9
    let pair := fun (i : Nat) => reqWord l i + 2 ^ 32 * reqWord l (i + 1)
    pair 1 % 4096 = 0 → pair 3 % 4096 = 0 → pair 5 % 64 = 0 → (ctxAt s c).state = 1 → binds s k (partOfCtx s c) = true → ∃ t,
    sealWindow k l s = ([0], t) ∧ { ctx := c, base := pair 1, size := pair 3, metaAt := pair 5 : Window } ∈ t.csb.windows ∧
    Frame [.csb] s t)

/-- R740, R741, R760: the security mailbox carries SPDM, writes the signed attestation report, and writes the signed receipt of the last
scrub. -/
def Obligations.SecurityMailbox : Prop :=
  (∀ s h, Secured s 0x0400 → boxPair s 257 1 % 64 = 0 → boxPair s 257 4 % 64 = 0 → h.poison = false →
    let r := spdmAnswer (padTo h.bytes (boxWord s 257 3)) s
    exec (.spdmXfer h) s = .next (
      if boxWord s 257 6 < r.1.length then replyBox 257 0x31 [r.1.length] s
      else replyBox 257 0 [r.1.length] (hostWriteM (boxPair s 257 4) r.1 r.2))) ∧
  (∀ s h, Secured s 0x0401 → boxPair s 257 1 % 64 = 0 → h.poison = false → let b := reportBody s (padTo h.bytes 32)
    exec (.attestReport h) s = .next (replyBox 257 0 [] (hostWriteM (boxPair s 257 1) (b ++ identitySign b) s))) ∧
  (∀ s h, Secured s 0x0401 → boxPair s 257 1 % 64 ≠ 0 → exec (.attestReport h) s =
    .next (replyBox 257 Status.faultFormat.code [] s)) ∧
  (∀ s n, (reportBody s n).length = 704) ∧ (∀ p r n, (receiptBody p r n).length = 64) ∧
  (∀ s h r, Secured s 0x0402 → let p := boxWord s 257 1
    p < 12 → boxPair s 257 2 % 64 = 0 → h.poison = false → (scrubAt s p).receipt = some r →
    let b := receiptBody p r (padTo h.bytes 32)
    exec (.scrubReceipt h) s = .next (replyBox 257 0 [] (hostWriteM (boxPair s 257 2) (b ++ identitySign b) s))) ∧
  (∀ s h, Secured s 0x0402 → boxWord s 257 1 < 12 → boxPair s 257 2 % 64 = 0 → (scrubAt s (boxWord s 257 1)).receipt = none →
    exec (.scrubReceipt h) s = .next (replyBox 257 Status.denied.code [] s))

/-! ## The whole block -/

/-- A step takes the command at the front of the queue and runs it with the rest of the queue; with an empty queue the block idles, which
is the model's choice (log entry 1). -/
def Obligations.StepRunsTheFrontCommand : Prop :=
  (∀ (s : State) c r, step { s with pending := c :: r } = exec c { s with pending := r }) ∧
  (∀ s : State, step { s with pending := [] } = .next { s with pending := [] })

/-- Every command answers a next state from every state: it leaves the queue alone, and changes nothing outside the units that `footprint`
names for it. -/
def Obligations.EveryCommandKeepsItsFrame : Prop :=
  ∀ c s, ∃ t, exec c s = .next t ∧ t.pending = s.pending ∧ Frame (footprint c) s t

/-- R70, R76: while COLD_RST_N is low, and once REFCLK is lost, no command but those of the pins has an effect: the block does not act. -/
def Obligations.HaltedBlockDoesNothing : Prop :=
  ∀ c s, (s.blk.coldLow = true ∨ s.blk.stopped = true) →
  c ≠ .coldResetRelease → c ≠ .coldResetAssert → c ≠ .throttleAssert → c ≠ .throttleRelease → exec c s = .next s

/-- R12, R245: memory keeps its canonical form in every step, whatever the command in front. -/
def Obligations.MemoryStaysCanonical : Prop :=
  ∀ s t, Machine.Memory.wf s.mem.cells = true → step s = .next t → Machine.Memory.wf t.mem.cells = true

/-- R662: no command lowers the anti-rollback count of the fuses. -/
def Obligations.RollbackCountNeverFalls : Prop :=
  ∀ c s t, exec c s = .next t → s.fw.fuses.svn ≤ t.fw.fuses.svn

/-- R744: `DEBUG_USED` becomes 1 when the debug port or a debug register write is used, clears only at cold reset, keeps no partition from
becoming confidential, and stands in the report. -/
def Obligations.DebugUsedIsRemembered : Prop :=
  (∀ s r, Live s → debugOpen s = true → ∃ t, exec (.debugPortAccess r) s = .next t ∧ t.csb.debugUsed = true) ∧
  (∀ s off val, Live s → s.blk.ireqReady = true → regsOn s = true → confMode s = false → 0x1400000 ≤ off → off < 0x1500000 → off % 4 = 0 → ∃ t,
    exec (.registerWrite .bar0 off val false) s = .next t ∧ t.csb.debugUsed = true) ∧
  (∀ c s t, c ≠ .coldResetAssert → s.csb.debugUsed = true → exec c s = .next t → t.csb.debugUsed = true) ∧
  (∀ s, ∃ t, exec .coldResetAssert s = .next t ∧ t.csb.debugUsed = false) ∧
  (∀ (s : State) b n c tch, let u := { s with csb := { s.csb with debugUsed := b } }
    touchedBy u n c = touchedBy s n c ∧ reconfDenied u n c = reconfDenied s n c ∧ reconfBusy u n c tch = reconfBusy s n c tch) ∧
  (∀ s n, bit (fieldAt (reportBody s n) 524 4) 1 = s.csb.debugUsed)

/-- The state after reset: what the register tables give (R1, R58, R83, R171, R237, R280, R283, R381, R506, R518, R528, R643, R731, R764),
and everything that the block does not hold yet. -/
def Obligations.ResetState : Prop :=
  Machine.Memory.wf State.reset.mem.cells = true ∧ State.reset.pending = [] ∧ State.reset.ports.out = [] ∧
  State.reset.fe.tasks = [] ∧ State.reset.fe.launches = [] ∧ State.reset.err.bPending = none ∧ State.reset.blk.bootState = 0 ∧
  State.reset.pm.beat = 0 ∧ State.reset.csb.debugUsed = false ∧
  (∀ e ∈ [(0x0, 0x02010000), (0x4, 0x300), (0x100000, 0x3FF), (0x100008, 0x64), (0x10000C, 0x03E80032), (0x100014, 0x3E8),
      (0x101010, 0x11111111), (0x101100, 0x1F), (0x402000, 0x17700001), (0x801000, 0x02200040), (0x802000, 0x07D00001),
      (0xA00000, 0x100), (0xA00010, 0x18080001), (0xC00000, 0xFFF), (0xC00008, 0xD8058800), (0xE04100, 0x4924),
      (0x1100000, 0x800A1432), (0x1100004, 0xF28B4000), (0x1100314, 0x00010000), (0x1200000, 0x04028014)],
    regGet State.reset e.1 = e.2)

end
end

