-- ==== Sys2Proof/Laws/Table.lean ====
section
/-!
SUPPORT. Sparse tables: reading after writing, and that every writer keeps the canonical form; memory's writers among them.
-/
namespace Sys2Proof.Laws
open Sys2Proof Sys2Proof.Machine

variable {α : Type} [DecidableEq α]

omit [DecidableEq α] in
/-- A number below every listed one is unlisted. -/
theorem tget_below (d : α) (t : Tbl α) (i : Nat) (h : ∀ q ∈ t, i < q.1) : tget d t i = d := by
  induction t with
  | nil => rfl
  | cons p r ih =>
    have hp := h p (by simp)
    simp only [tget]
    rw [if_neg (by omega)]
    exact ih (fun q hq => h q (by simp [hq]))

theorem twf_cons (d : α) (p : Nat × α) (r : Tbl α) :
    twf d (p :: r) = true ↔ p.2 ≠ d ∧ (∀ q ∈ r, p.1 < q.1) ∧ twf d r = true := by
  obtain ⟨k, v⟩ := p
  simp [twf, and_assoc]

/-- Numbers that a write can list: the old ones and the written one. -/
theorem tset_mem (d : α) (t : Tbl α) (i : Nat) (v : α) {q : Nat × α} (h : q ∈ tset d t i v) : q ∈ t ∨ q = (i, v) := by
  induction t with
  | nil =>
    simp only [tset] at h
    split at h
    · simp at h
    · simp at h; exact .inr h
  | cons p r ih =>
    obtain ⟨k, w⟩ := p
    simp only [tset] at h
    split at h
    · rcases List.mem_cons.1 h with h | h
      · exact .inl (by simp [h])
      · exact (ih h).imp_left (by simp +contextual)
    · split at h
      · split at h
        · exact .inl (by simp [h])
        · rcases List.mem_cons.1 h with h | h
          · exact .inr h
          · exact .inl (by simp [h])
      · split at h
        · exact .inl h
        · rcases List.mem_cons.1 h with h | h
          · exact .inr h
          · exact .inl h

/-- A write keeps the canonical form. -/
theorem tset_twf (d : α) (t : Tbl α) (i : Nat) (v : α) (h : twf d t = true) : twf d (tset d t i v) = true := by
  induction t with
  | nil =>
    simp only [tset]
    split
    · rfl
    · rename_i hv; simp [twf, hv]
  | cons p r ih =>
    obtain ⟨k, w⟩ := p
    obtain ⟨hw, hk, hr⟩ := (twf_cons d _ r).1 h
    simp only at hw hk
    simp only [tset]
    split
    · rename_i hki
      refine (twf_cons d _ _).2 ⟨hw, fun q hq => ?_, ih hr⟩
      rcases tset_mem d r i v hq with hq | hq
      · exact hk q hq
      · subst hq; exact hki
    · split
      · rename_i _ e
        split
        · exact hr
        · rename_i hv
          exact (twf_cons d _ _).2 ⟨hv, fun q hq => e ▸ hk q hq, hr⟩
      · split
        · exact h
        · rename_i hv
          refine (twf_cons d _ _).2 ⟨hv, fun q hq => ?_, h⟩
          rcases List.mem_cons.1 hq with hq | hq
          · subst hq; simp only; omega
          · have := hk q hq; simp only; omega

/-- A read after a write, of the written number and of another, in a table in canonical form. -/
theorem tget_tset (d : α) (t : Tbl α) (i j : Nat) (v : α) (h : twf d t = true) :
    tget d (tset d t i v) j = if j = i then v else tget d t j := by
  induction t with
  | nil => grind [tset, tget]
  | cons p r ih =>
    obtain ⟨k, w⟩ := p
    obtain ⟨_, hk, hr⟩ := (twf_cons d _ r).1 h
    have hb : ∀ m, m ≤ k → tget d r m = d := fun m hm => tget_below d r m (fun q hq => by have := hk q hq; simp only at this; omega)
    have ih := ih hr
    grind [tset, tget]

theorem tmod_twf (d : α) (t : Tbl α) (i : Nat) (f : α → α) (h : twf d t = true) : twf d (tmod d t i f) = true :=
  tset_twf d t i _ h

/-- Taking entries out keeps the canonical form. -/
theorem filter_twf (d : α) (t : Tbl α) (p : Nat × α → Bool) (h : twf d t = true) : twf d (t.filter p) = true := by
  induction t with
  | nil => rfl
  | cons q r ih =>
    obtain ⟨hq, hk, hr⟩ := (twf_cons d q r).1 h
    simp only [List.filter_cons]
    split
    · exact (twf_cons d q _).2 ⟨hq, fun x hx => hk x (List.mem_of_mem_filter hx), ih hr⟩
    · exact ih hr

theorem foldl_tset_twf {β : Type} (d : α) (l : List β) (i : β → Nat) (v : β → α) (t : Tbl α) (h : twf d t = true) :
    twf d (l.foldl (fun t e => tset d t (i e) (v e)) t) = true := by
  induction l generalizing t with
  | nil => exact h
  | cons e l ih => exact ih _ (tset_twf d t _ _ h)

/-! ## Memory -/

/-- Writing bytes keeps memory's canonical form. -/
theorem putBytes_wf (t : Tbl Byte) (a : Nat) (l : List Byte) (h : Memory.wf t = true) :
    Memory.wf (putBytes t a l) = true := by
  induction l generalizing t a with
  | nil => exact h
  | cons b r ih => exact ih _ _ (tset_twf 0 t a b h)

/-- A byte after writing bytes: the written one inside the range, the old one outside. -/
theorem tget_putBytes (t : Tbl Byte) (a : Nat) (l : List Byte) (j : Nat) (h : Memory.wf t = true) :
    tget 0 (putBytes t a l) j = if a ≤ j ∧ j < a + l.length then l.getD (j - a) 0 else tget 0 t j := by
  induction l generalizing t a with
  | nil => simp only [putBytes, List.length_nil]; rw [if_neg (by omega)]
  | cons b r ih =>
    have h' : Memory.wf (tset 0 t a b) = true := tset_twf 0 t a b h
    simp only [putBytes, ih _ _ h', tget_tset 0 t a j b h, List.length_cons]
    by_cases hj : j = a
    · subst hj
      rw [if_neg (by omega), if_pos rfl, if_pos (by omega)]
      simp
    · by_cases hin : a + 1 ≤ j ∧ j < a + 1 + r.length
      · rw [if_pos hin, if_pos (by omega)]
        obtain ⟨m, hm⟩ : ∃ m, j - a = m + 1 := ⟨j - a - 1, by omega⟩
        have hm' : j - (a + 1) = m := by omega
        rw [hm, hm']
        simp
      · rw [if_neg hin, if_neg hj, if_neg (by omega)]

/-- Zeroing a range keeps memory's canonical form. -/
theorem zeroCells_wf (t : Tbl Byte) (p : Nat × Byte → Bool) (h : Memory.wf t = true) :
    Memory.wf (t.filter p) = true := filter_twf 0 t p h

end Sys2Proof.Laws
end

