-- ==== Sys2Proof/Laws/Foot.lean ====
section
/-!
SUPPORT. The footprint of an operation: the units it may write. One relation carries, for every operation of the
model, what it leaves alone, that it keeps memory in canonical form, and that it touches no waiting command.
-/
namespace Sys2Proof.Laws
open Sys2Proof Sys2Proof.Machine

/-- From `r` to `s`, only the units of `W` may differ; the queue of commands is the same, memory that was in canonical
form is in canonical form, DEBUG_USED has not gone back to 0 and the anti-rollback count has not gone down. -/
structure Foot (W : List Area) (r s : State) : Prop where
  blk : Area.blk ∈ W ∨ s.blk = r.blk
  regs : Area.regs ∈ W ∨ s.regs = r.regs
  cells : Area.cells ∈ W ∨ (s.mem.cells, s.mem.poison, s.mem.retired) = (r.mem.cells, r.mem.poison, r.mem.retired)
  mem : Area.mem ∈ W ∨ s.mem = r.mem
  rg : Area.rg ∈ W ∨ s.rg = r.rg
  arr : Area.arr ∈ W ∨ s.arr = r.arr
  lce : Area.lce ∈ W ∨ s.lce = r.lce
  fab : Area.fab ∈ W ∨ s.fab = r.fab
  sg : Area.sg ∈ W ∨ s.sg = r.sg
  fe : Area.fe ∈ W ∨ s.fe = r.fe
  tw : Area.tw ∈ W ∨ s.tw = r.tw
  ic : Area.ic ∈ W ∨ s.ic = r.ic
  mbx : Area.mbx ∈ W ∨ s.mbx = r.mbx
  fw : Area.fw ∈ W ∨ s.fw = r.fw
  pm : Area.pm ∈ W ∨ s.pm = r.pm
  err : Area.err ∈ W ∨ s.err = r.err
  csb : Area.csb ∈ W ∨ s.csb = r.csb
  cmb : Area.cmb ∈ W ∨ s.cmb = r.cmb
  ports : Area.ports ∈ W ∨ s.ports = r.ports
  freeCtr : Area.freeCtr ∈ W ∨ s.freeCtr = r.freeCtr
  pending : s.pending = r.pending
  wf : Memory.wf r.mem.cells = true → Memory.wf s.mem.cells = true
  debug : r.csb.debugUsed = true → s.csb.debugUsed = true
  svn : r.fw.fuses.svn ≤ s.fw.fuses.svn

/-- A list within a list within `W`. -/
theorem less {A B W : List Area} (h : B ⊆ W) (d : A ⊆ B := by decide) : A ⊆ W := List.Subset.trans d h

theorem Foot.refl (W : List Area) (s : State) : Foot W s s :=
  ⟨.inr rfl, .inr rfl, .inr rfl, .inr rfl, .inr rfl, .inr rfl, .inr rfl, .inr rfl, .inr rfl, .inr rfl, .inr rfl, .inr rfl, .inr rfl, .inr rfl, .inr rfl, .inr rfl, .inr rfl, .inr rfl, .inr rfl, .inr rfl, rfl, id, id, Nat.le_refl _⟩

theorem Foot.mono {W V : List Area} {r s : State} (hW : W ⊆ V) (h : Foot W r s) : Foot V r s :=
  ⟨h.blk.imp_left (@hW _), h.regs.imp_left (@hW _), h.cells.imp_left (@hW _), h.mem.imp_left (@hW _), h.rg.imp_left (@hW _), h.arr.imp_left (@hW _), h.lce.imp_left (@hW _), h.fab.imp_left (@hW _), h.sg.imp_left (@hW _), h.fe.imp_left (@hW _), h.tw.imp_left (@hW _), h.ic.imp_left (@hW _), h.mbx.imp_left (@hW _), h.fw.imp_left (@hW _), h.pm.imp_left (@hW _), h.err.imp_left (@hW _), h.csb.imp_left (@hW _), h.cmb.imp_left (@hW _), h.ports.imp_left (@hW _), h.freeCtr.imp_left (@hW _), h.pending, h.wf, h.debug, h.svn⟩

/-- A state written out unit by unit: each unit is the old one or one that may be written. -/
theorem Foot.lit {W : List Area} {r s : State} {x_blk : Blk} {x_regs : Tbl W32} {x_mem : Mem} {x_rg : Rg} {x_arr : Arrs} {x_lce : Lce} {x_fab : Fab} {x_sg : Sg} {x_fe : Fe} {x_tw : Tw} {x_ic : Ic} {x_mbx : Mbx} {x_fw : Fw} {x_pm : Pm} {x_err : Err} {x_csb : Csb} {x_cmb : Cmb} {x_ports : Ports} {x_freeCtr : Nat} {x_pending : List Instr}
    (hpending : x_pending = s.pending) (h : Foot W r s)
    (hblk : Area.blk ∈ W ∨ x_blk = s.blk)
    (hregs : Area.regs ∈ W ∨ x_regs = s.regs)
    (hcells : Area.cells ∈ W ∨ (x_mem.cells, x_mem.poison, x_mem.retired) = (s.mem.cells, s.mem.poison, s.mem.retired))
    (hmem : Area.mem ∈ W ∨ x_mem = s.mem)
    (hrg : Area.rg ∈ W ∨ x_rg = s.rg)
    (harr : Area.arr ∈ W ∨ x_arr = s.arr)
    (hlce : Area.lce ∈ W ∨ x_lce = s.lce)
    (hfab : Area.fab ∈ W ∨ x_fab = s.fab)
    (hsg : Area.sg ∈ W ∨ x_sg = s.sg)
    (hfe : Area.fe ∈ W ∨ x_fe = s.fe)
    (htw : Area.tw ∈ W ∨ x_tw = s.tw)
    (hic : Area.ic ∈ W ∨ x_ic = s.ic)
    (hmbx : Area.mbx ∈ W ∨ x_mbx = s.mbx)
    (hfw : Area.fw ∈ W ∨ x_fw = s.fw)
    (hpm : Area.pm ∈ W ∨ x_pm = s.pm)
    (herr : Area.err ∈ W ∨ x_err = s.err)
    (hcsb : Area.csb ∈ W ∨ x_csb = s.csb)
    (hcmb : Area.cmb ∈ W ∨ x_cmb = s.cmb)
    (hports : Area.ports ∈ W ∨ x_ports = s.ports)
    (hfreeCtr : Area.freeCtr ∈ W ∨ x_freeCtr = s.freeCtr)
    (hwf : Memory.wf s.mem.cells = true → Memory.wf x_mem.cells = true)
    (hdebug : s.csb.debugUsed = true → x_csb.debugUsed = true) (hsvn : s.fw.fuses.svn ≤ x_fw.fuses.svn) :
    Foot W r ⟨x_blk, x_regs, x_mem, x_rg, x_arr, x_lce, x_fab, x_sg, x_fe, x_tw, x_ic, x_mbx, x_fw, x_pm, x_err, x_csb, x_cmb, x_ports, x_freeCtr, x_pending⟩ :=
  ⟨hblk.elim .inl (fun e => h.blk.imp_right (e.trans ·)), hregs.elim .inl (fun e => h.regs.imp_right (e.trans ·)), hcells.elim .inl (fun e => h.cells.imp_right (e.trans ·)), hmem.elim .inl (fun e => h.mem.imp_right (e.trans ·)), hrg.elim .inl (fun e => h.rg.imp_right (e.trans ·)), harr.elim .inl (fun e => h.arr.imp_right (e.trans ·)), hlce.elim .inl (fun e => h.lce.imp_right (e.trans ·)), hfab.elim .inl (fun e => h.fab.imp_right (e.trans ·)), hsg.elim .inl (fun e => h.sg.imp_right (e.trans ·)), hfe.elim .inl (fun e => h.fe.imp_right (e.trans ·)), htw.elim .inl (fun e => h.tw.imp_right (e.trans ·)), hic.elim .inl (fun e => h.ic.imp_right (e.trans ·)), hmbx.elim .inl (fun e => h.mbx.imp_right (e.trans ·)), hfw.elim .inl (fun e => h.fw.imp_right (e.trans ·)), hpm.elim .inl (fun e => h.pm.imp_right (e.trans ·)), herr.elim .inl (fun e => h.err.imp_right (e.trans ·)), hcsb.elim .inl (fun e => h.csb.imp_right (e.trans ·)), hcmb.elim .inl (fun e => h.cmb.imp_right (e.trans ·)), hports.elim .inl (fun e => h.ports.imp_right (e.trans ·)), hfreeCtr.elim .inl (fun e => h.freeCtr.imp_right (e.trans ·)),
   hpending.trans h.pending, fun w => hwf (h.wf w), fun w => hdebug (h.debug w), h.svn.trans hsvn⟩
/-- A footprint of a state written out, in a form that only such a state has. -/
def FootL (W : List Area) (r : State) (x_blk : Blk) (x_regs : Tbl W32) (x_mem : Mem) (x_rg : Rg) (x_arr : Arrs) (x_lce : Lce) (x_fab : Fab) (x_sg : Sg) (x_fe : Fe) (x_tw : Tw) (x_ic : Ic) (x_mbx : Mbx) (x_fw : Fw) (x_pm : Pm) (x_err : Err) (x_csb : Csb) (x_cmb : Cmb) (x_ports : Ports) (x_freeCtr : Nat) (x_pending : List Instr) : Prop :=
  Foot W r ⟨x_blk, x_regs, x_mem, x_rg, x_arr, x_lce, x_fab, x_sg, x_fe, x_tw, x_ic, x_mbx, x_fw, x_pm, x_err, x_csb, x_cmb, x_ports, x_freeCtr, x_pending⟩
theorem Foot.lit_eq (W : List Area) (r : State) (x_blk : Blk) (x_regs : Tbl W32) (x_mem : Mem) (x_rg : Rg) (x_arr : Arrs) (x_lce : Lce) (x_fab : Fab) (x_sg : Sg) (x_fe : Fe) (x_tw : Tw) (x_ic : Ic) (x_mbx : Mbx) (x_fw : Fw) (x_pm : Pm) (x_err : Err) (x_csb : Csb) (x_cmb : Cmb) (x_ports : Ports) (x_freeCtr : Nat) (x_pending : List Instr) :
    Foot W r ⟨x_blk, x_regs, x_mem, x_rg, x_arr, x_lce, x_fab, x_sg, x_fe, x_tw, x_ic, x_mbx, x_fw, x_pm, x_err, x_csb, x_cmb, x_ports, x_freeCtr, x_pending⟩ = FootL W r x_blk x_regs x_mem x_rg x_arr x_lce x_fab x_sg x_fe x_tw x_ic x_mbx x_fw x_pm x_err x_csb x_cmb x_ports x_freeCtr x_pending := rfl
theorem Foot.litL {W : List Area} {r s : State} {x_blk : Blk} {x_regs : Tbl W32} {x_mem : Mem} {x_rg : Rg} {x_arr : Arrs} {x_lce : Lce} {x_fab : Fab} {x_sg : Sg} {x_fe : Fe} {x_tw : Tw} {x_ic : Ic} {x_mbx : Mbx} {x_fw : Fw} {x_pm : Pm} {x_err : Err} {x_csb : Csb} {x_cmb : Cmb} {x_ports : Ports} {x_freeCtr : Nat} {x_pending : List Instr}
    (hpending : x_pending = s.pending) (h : Foot W r s)
    (hblk : Area.blk ∈ W ∨ x_blk = s.blk)
    (hregs : Area.regs ∈ W ∨ x_regs = s.regs)
    (hcells : Area.cells ∈ W ∨ (x_mem.cells, x_mem.poison, x_mem.retired) = (s.mem.cells, s.mem.poison, s.mem.retired))
    (hmem : Area.mem ∈ W ∨ x_mem = s.mem)
    (hrg : Area.rg ∈ W ∨ x_rg = s.rg)
    (harr : Area.arr ∈ W ∨ x_arr = s.arr)
    (hlce : Area.lce ∈ W ∨ x_lce = s.lce)
    (hfab : Area.fab ∈ W ∨ x_fab = s.fab)
    (hsg : Area.sg ∈ W ∨ x_sg = s.sg)
    (hfe : Area.fe ∈ W ∨ x_fe = s.fe)
    (htw : Area.tw ∈ W ∨ x_tw = s.tw)
    (hic : Area.ic ∈ W ∨ x_ic = s.ic)
    (hmbx : Area.mbx ∈ W ∨ x_mbx = s.mbx)
    (hfw : Area.fw ∈ W ∨ x_fw = s.fw)
    (hpm : Area.pm ∈ W ∨ x_pm = s.pm)
    (herr : Area.err ∈ W ∨ x_err = s.err)
    (hcsb : Area.csb ∈ W ∨ x_csb = s.csb)
    (hcmb : Area.cmb ∈ W ∨ x_cmb = s.cmb)
    (hports : Area.ports ∈ W ∨ x_ports = s.ports)
    (hfreeCtr : Area.freeCtr ∈ W ∨ x_freeCtr = s.freeCtr)
    (hwf : Memory.wf s.mem.cells = true → Memory.wf x_mem.cells = true)
    (hdebug : s.csb.debugUsed = true → x_csb.debugUsed = true) (hsvn : s.fw.fuses.svn ≤ x_fw.fuses.svn) :
    FootL W r x_blk x_regs x_mem x_rg x_arr x_lce x_fab x_sg x_fe x_tw x_ic x_mbx x_fw x_pm x_err x_csb x_cmb x_ports x_freeCtr x_pending :=
  Foot.lit hpending h hblk hregs hcells hmem hrg harr hlce hfab hsg hfe htw hic hmbx hfw hpm herr hcsb hcmb hports hfreeCtr hwf hdebug hsvn

theorem Foot.ite {W : List Area} {r s t : State} {c : Prop} [Decidable c] (hs : Foot W r s) (ht : Foot W r t) :
    Foot W r (if c then s else t) := by
  split
  · exact hs
  · exact ht

/-- A choice between two answers that may be none. -/
theorem Foot.optIte {W : List Area} {r t : State} {c : Prop} [Decidable c] {a b : Option State}
    (e : (if c then a else b) = some t) (ha : a = some t → Foot W r t) (hb : b = some t → Foot W r t) : Foot W r t := by
  by_cases hc : c
  · exact ha ((if_pos hc).symm.trans e)
  · exact hb ((if_neg hc).symm.trans e)

theorem Foot.foldl {α : Type} {W : List Area} {r s : State} (l : List α) (f : State → α → State)
    (hf : ∀ s a, Foot W r s → Foot W r (f s a)) (h : Foot W r s) : Foot W r (l.foldl f s) := by
  induction l generalizing s with
  | nil => exact h
  | cons a l ih => exact ih (hf s a h)

theorem Foot.foldl_snd {α β : Type} {W : List Area} {r : State} (l : List α) (f : β × State → α → β × State)
    (hf : ∀ x a, Foot W r x.2 → Foot W r (f x a).2) (x : β × State) (h : Foot W r x.2) : Foot W r (l.foldl f x).2 := by
  induction l generalizing x with
  | nil => exact h
  | cons a l ih => exact ih (f x a) (hf x a h)

theorem Foot.snd {β : Type} {W : List Area} {r t : State} {x : β × State} {b : β} (e : x = (b, t)) (h : Foot W r x.2) :
    Foot W r t := by
  subst e
  exact h

/-- A command's effect answers a next state, with the footprint of what it does. -/
theorem run_foot {W : List Area} {s t : State} {f : State → State} (e : run s f = .next t)
    (hf : ∀ s', Foot W s s' → Foot W s (f s')) : Foot W s t := by
  unfold run at e
  cases e
  exact Foot.ite (Foot.refl W s) (hf s (Foot.refl W s))

end Sys2Proof.Laws
end

