-- ==== Sys2Proof/Laws/State.lean ====
section
/-!
SUPPORT. Updates of the state: what each leaves alone, and the unit it writes, as rules for `simp`.
-/
namespace Sys2Proof.Laws
open Sys2Proof Sys2Proof.Machine

@[simp] theorem emit_blk (o : Out) (s : State) : (emit o s).blk = s.blk := rfl
@[simp] theorem emit_regs (o : Out) (s : State) : (emit o s).regs = s.regs := rfl
@[simp] theorem emit_mem (o : Out) (s : State) : (emit o s).mem = s.mem := rfl
@[simp] theorem emit_rg (o : Out) (s : State) : (emit o s).rg = s.rg := rfl
@[simp] theorem emit_arr (o : Out) (s : State) : (emit o s).arr = s.arr := rfl
@[simp] theorem emit_lce (o : Out) (s : State) : (emit o s).lce = s.lce := rfl
@[simp] theorem emit_fab (o : Out) (s : State) : (emit o s).fab = s.fab := rfl
@[simp] theorem emit_sg (o : Out) (s : State) : (emit o s).sg = s.sg := rfl
@[simp] theorem emit_fe (o : Out) (s : State) : (emit o s).fe = s.fe := rfl
@[simp] theorem emit_tw (o : Out) (s : State) : (emit o s).tw = s.tw := rfl
@[simp] theorem emit_ic (o : Out) (s : State) : (emit o s).ic = s.ic := rfl
@[simp] theorem emit_mbx (o : Out) (s : State) : (emit o s).mbx = s.mbx := rfl
@[simp] theorem emit_fw (o : Out) (s : State) : (emit o s).fw = s.fw := rfl
@[simp] theorem emit_pm (o : Out) (s : State) : (emit o s).pm = s.pm := rfl
@[simp] theorem emit_err (o : Out) (s : State) : (emit o s).err = s.err := rfl
@[simp] theorem emit_csb (o : Out) (s : State) : (emit o s).csb = s.csb := rfl
@[simp] theorem emit_cmb (o : Out) (s : State) : (emit o s).cmb = s.cmb := rfl
@[simp] theorem emit_freeCtr (o : Out) (s : State) : (emit o s).freeCtr = s.freeCtr := rfl
@[simp] theorem emit_pending (o : Out) (s : State) : (emit o s).pending = s.pending := rfl
@[simp] theorem emit_ports (o : Out) (s : State) : (emit o s).ports = { s.ports with out := s.ports.out ++ [o] } := rfl
@[simp] theorem modAlloc_blk (a : Nat) (f : Alloc → Alloc) (s : State) : (modAlloc a f s).blk = s.blk := rfl
@[simp] theorem modAlloc_regs (a : Nat) (f : Alloc → Alloc) (s : State) : (modAlloc a f s).regs = s.regs := rfl
@[simp] theorem modAlloc_mem (a : Nat) (f : Alloc → Alloc) (s : State) : (modAlloc a f s).mem = s.mem := rfl
@[simp] theorem modAlloc_rg (a : Nat) (f : Alloc → Alloc) (s : State) : (modAlloc a f s).rg = s.rg := rfl
@[simp] theorem modAlloc_arr (a : Nat) (f : Alloc → Alloc) (s : State) : (modAlloc a f s).arr = s.arr := rfl
@[simp] theorem modAlloc_lce (a : Nat) (f : Alloc → Alloc) (s : State) : (modAlloc a f s).lce = s.lce := rfl
@[simp] theorem modAlloc_fab (a : Nat) (f : Alloc → Alloc) (s : State) : (modAlloc a f s).fab = s.fab := rfl
@[simp] theorem modAlloc_sg (a : Nat) (f : Alloc → Alloc) (s : State) : (modAlloc a f s).sg = s.sg := rfl
@[simp] theorem modAlloc_tw (a : Nat) (f : Alloc → Alloc) (s : State) : (modAlloc a f s).tw = s.tw := rfl
@[simp] theorem modAlloc_ic (a : Nat) (f : Alloc → Alloc) (s : State) : (modAlloc a f s).ic = s.ic := rfl
@[simp] theorem modAlloc_mbx (a : Nat) (f : Alloc → Alloc) (s : State) : (modAlloc a f s).mbx = s.mbx := rfl
@[simp] theorem modAlloc_fw (a : Nat) (f : Alloc → Alloc) (s : State) : (modAlloc a f s).fw = s.fw := rfl
@[simp] theorem modAlloc_pm (a : Nat) (f : Alloc → Alloc) (s : State) : (modAlloc a f s).pm = s.pm := rfl
@[simp] theorem modAlloc_err (a : Nat) (f : Alloc → Alloc) (s : State) : (modAlloc a f s).err = s.err := rfl
@[simp] theorem modAlloc_csb (a : Nat) (f : Alloc → Alloc) (s : State) : (modAlloc a f s).csb = s.csb := rfl
@[simp] theorem modAlloc_cmb (a : Nat) (f : Alloc → Alloc) (s : State) : (modAlloc a f s).cmb = s.cmb := rfl
@[simp] theorem modAlloc_ports (a : Nat) (f : Alloc → Alloc) (s : State) : (modAlloc a f s).ports = s.ports := rfl
@[simp] theorem modAlloc_freeCtr (a : Nat) (f : Alloc → Alloc) (s : State) : (modAlloc a f s).freeCtr = s.freeCtr := rfl
@[simp] theorem modAlloc_pending (a : Nat) (f : Alloc → Alloc) (s : State) : (modAlloc a f s).pending = s.pending := rfl
@[simp] theorem modAlloc_fe (a : Nat) (f : Alloc → Alloc) (s : State) : (modAlloc a f s).fe = { s.fe with allocs := tmod {} s.fe.allocs a f } := rfl
@[simp] theorem modArr_blk (p : Nat) (f : Arr → Arr) (s : State) : (modArr p f s).blk = s.blk := rfl
@[simp] theorem modArr_regs (p : Nat) (f : Arr → Arr) (s : State) : (modArr p f s).regs = s.regs := rfl
@[simp] theorem modArr_mem (p : Nat) (f : Arr → Arr) (s : State) : (modArr p f s).mem = s.mem := rfl
@[simp] theorem modArr_rg (p : Nat) (f : Arr → Arr) (s : State) : (modArr p f s).rg = s.rg := rfl
@[simp] theorem modArr_lce (p : Nat) (f : Arr → Arr) (s : State) : (modArr p f s).lce = s.lce := rfl
@[simp] theorem modArr_fab (p : Nat) (f : Arr → Arr) (s : State) : (modArr p f s).fab = s.fab := rfl
@[simp] theorem modArr_sg (p : Nat) (f : Arr → Arr) (s : State) : (modArr p f s).sg = s.sg := rfl
@[simp] theorem modArr_fe (p : Nat) (f : Arr → Arr) (s : State) : (modArr p f s).fe = s.fe := rfl
@[simp] theorem modArr_tw (p : Nat) (f : Arr → Arr) (s : State) : (modArr p f s).tw = s.tw := rfl
@[simp] theorem modArr_ic (p : Nat) (f : Arr → Arr) (s : State) : (modArr p f s).ic = s.ic := rfl
@[simp] theorem modArr_mbx (p : Nat) (f : Arr → Arr) (s : State) : (modArr p f s).mbx = s.mbx := rfl
@[simp] theorem modArr_fw (p : Nat) (f : Arr → Arr) (s : State) : (modArr p f s).fw = s.fw := rfl
@[simp] theorem modArr_pm (p : Nat) (f : Arr → Arr) (s : State) : (modArr p f s).pm = s.pm := rfl
@[simp] theorem modArr_err (p : Nat) (f : Arr → Arr) (s : State) : (modArr p f s).err = s.err := rfl
@[simp] theorem modArr_csb (p : Nat) (f : Arr → Arr) (s : State) : (modArr p f s).csb = s.csb := rfl
@[simp] theorem modArr_cmb (p : Nat) (f : Arr → Arr) (s : State) : (modArr p f s).cmb = s.cmb := rfl
@[simp] theorem modArr_ports (p : Nat) (f : Arr → Arr) (s : State) : (modArr p f s).ports = s.ports := rfl
@[simp] theorem modArr_freeCtr (p : Nat) (f : Arr → Arr) (s : State) : (modArr p f s).freeCtr = s.freeCtr := rfl
@[simp] theorem modArr_pending (p : Nat) (f : Arr → Arr) (s : State) : (modArr p f s).pending = s.pending := rfl
@[simp] theorem modArr_arr (p : Nat) (f : Arr → Arr) (s : State) : (modArr p f s).arr = { s.arr with st := tmod {} s.arr.st p f } := rfl
@[simp] theorem modBar_blk (c : Nat) (f : Machine.Bar → Machine.Bar) (s : State) : (modBar c f s).blk = s.blk := rfl
@[simp] theorem modBar_regs (c : Nat) (f : Machine.Bar → Machine.Bar) (s : State) : (modBar c f s).regs = s.regs := rfl
@[simp] theorem modBar_mem (c : Nat) (f : Machine.Bar → Machine.Bar) (s : State) : (modBar c f s).mem = s.mem := rfl
@[simp] theorem modBar_rg (c : Nat) (f : Machine.Bar → Machine.Bar) (s : State) : (modBar c f s).rg = s.rg := rfl
@[simp] theorem modBar_arr (c : Nat) (f : Machine.Bar → Machine.Bar) (s : State) : (modBar c f s).arr = s.arr := rfl
@[simp] theorem modBar_lce (c : Nat) (f : Machine.Bar → Machine.Bar) (s : State) : (modBar c f s).lce = s.lce := rfl
@[simp] theorem modBar_fab (c : Nat) (f : Machine.Bar → Machine.Bar) (s : State) : (modBar c f s).fab = s.fab := rfl
@[simp] theorem modBar_sg (c : Nat) (f : Machine.Bar → Machine.Bar) (s : State) : (modBar c f s).sg = s.sg := rfl
@[simp] theorem modBar_fe (c : Nat) (f : Machine.Bar → Machine.Bar) (s : State) : (modBar c f s).fe = s.fe := rfl
@[simp] theorem modBar_ic (c : Nat) (f : Machine.Bar → Machine.Bar) (s : State) : (modBar c f s).ic = s.ic := rfl
@[simp] theorem modBar_mbx (c : Nat) (f : Machine.Bar → Machine.Bar) (s : State) : (modBar c f s).mbx = s.mbx := rfl
@[simp] theorem modBar_fw (c : Nat) (f : Machine.Bar → Machine.Bar) (s : State) : (modBar c f s).fw = s.fw := rfl
@[simp] theorem modBar_pm (c : Nat) (f : Machine.Bar → Machine.Bar) (s : State) : (modBar c f s).pm = s.pm := rfl
@[simp] theorem modBar_err (c : Nat) (f : Machine.Bar → Machine.Bar) (s : State) : (modBar c f s).err = s.err := rfl
@[simp] theorem modBar_csb (c : Nat) (f : Machine.Bar → Machine.Bar) (s : State) : (modBar c f s).csb = s.csb := rfl
@[simp] theorem modBar_cmb (c : Nat) (f : Machine.Bar → Machine.Bar) (s : State) : (modBar c f s).cmb = s.cmb := rfl
@[simp] theorem modBar_ports (c : Nat) (f : Machine.Bar → Machine.Bar) (s : State) : (modBar c f s).ports = s.ports := rfl
@[simp] theorem modBar_freeCtr (c : Nat) (f : Machine.Bar → Machine.Bar) (s : State) : (modBar c f s).freeCtr = s.freeCtr := rfl
@[simp] theorem modBar_pending (c : Nat) (f : Machine.Bar → Machine.Bar) (s : State) : (modBar c f s).pending = s.pending := rfl
@[simp] theorem modBar_tw (c : Nat) (f : Machine.Bar → Machine.Bar) (s : State) : (modBar c f s).tw = { s.tw with bar := tmod {} s.tw.bar c f } := rfl
@[simp] theorem modBox_blk (b : Nat) (f : Box → Box) (s : State) : (modBox b f s).blk = s.blk := rfl
@[simp] theorem modBox_regs (b : Nat) (f : Box → Box) (s : State) : (modBox b f s).regs = s.regs := rfl
@[simp] theorem modBox_mem (b : Nat) (f : Box → Box) (s : State) : (modBox b f s).mem = s.mem := rfl
@[simp] theorem modBox_rg (b : Nat) (f : Box → Box) (s : State) : (modBox b f s).rg = s.rg := rfl
@[simp] theorem modBox_arr (b : Nat) (f : Box → Box) (s : State) : (modBox b f s).arr = s.arr := rfl
@[simp] theorem modBox_lce (b : Nat) (f : Box → Box) (s : State) : (modBox b f s).lce = s.lce := rfl
@[simp] theorem modBox_fab (b : Nat) (f : Box → Box) (s : State) : (modBox b f s).fab = s.fab := rfl
@[simp] theorem modBox_sg (b : Nat) (f : Box → Box) (s : State) : (modBox b f s).sg = s.sg := rfl
@[simp] theorem modBox_fe (b : Nat) (f : Box → Box) (s : State) : (modBox b f s).fe = s.fe := rfl
@[simp] theorem modBox_tw (b : Nat) (f : Box → Box) (s : State) : (modBox b f s).tw = s.tw := rfl
@[simp] theorem modBox_ic (b : Nat) (f : Box → Box) (s : State) : (modBox b f s).ic = s.ic := rfl
@[simp] theorem modBox_fw (b : Nat) (f : Box → Box) (s : State) : (modBox b f s).fw = s.fw := rfl
@[simp] theorem modBox_pm (b : Nat) (f : Box → Box) (s : State) : (modBox b f s).pm = s.pm := rfl
@[simp] theorem modBox_err (b : Nat) (f : Box → Box) (s : State) : (modBox b f s).err = s.err := rfl
@[simp] theorem modBox_csb (b : Nat) (f : Box → Box) (s : State) : (modBox b f s).csb = s.csb := rfl
@[simp] theorem modBox_cmb (b : Nat) (f : Box → Box) (s : State) : (modBox b f s).cmb = s.cmb := rfl
@[simp] theorem modBox_ports (b : Nat) (f : Box → Box) (s : State) : (modBox b f s).ports = s.ports := rfl
@[simp] theorem modBox_freeCtr (b : Nat) (f : Box → Box) (s : State) : (modBox b f s).freeCtr = s.freeCtr := rfl
@[simp] theorem modBox_pending (b : Nat) (f : Box → Box) (s : State) : (modBox b f s).pending = s.pending := rfl
@[simp] theorem modBox_mbx (b : Nat) (f : Box → Box) (s : State) : (modBox b f s).mbx = { s.mbx with box := tmod {} s.mbx.box b f } := rfl
@[simp] theorem modChan_blk (c : Nat) (f : Chan → Chan) (s : State) : (modChan c f s).blk = s.blk := rfl
@[simp] theorem modChan_regs (c : Nat) (f : Chan → Chan) (s : State) : (modChan c f s).regs = s.regs := rfl
@[simp] theorem modChan_rg (c : Nat) (f : Chan → Chan) (s : State) : (modChan c f s).rg = s.rg := rfl
@[simp] theorem modChan_arr (c : Nat) (f : Chan → Chan) (s : State) : (modChan c f s).arr = s.arr := rfl
@[simp] theorem modChan_lce (c : Nat) (f : Chan → Chan) (s : State) : (modChan c f s).lce = s.lce := rfl
@[simp] theorem modChan_fab (c : Nat) (f : Chan → Chan) (s : State) : (modChan c f s).fab = s.fab := rfl
@[simp] theorem modChan_sg (c : Nat) (f : Chan → Chan) (s : State) : (modChan c f s).sg = s.sg := rfl
@[simp] theorem modChan_fe (c : Nat) (f : Chan → Chan) (s : State) : (modChan c f s).fe = s.fe := rfl
@[simp] theorem modChan_tw (c : Nat) (f : Chan → Chan) (s : State) : (modChan c f s).tw = s.tw := rfl
@[simp] theorem modChan_ic (c : Nat) (f : Chan → Chan) (s : State) : (modChan c f s).ic = s.ic := rfl
@[simp] theorem modChan_mbx (c : Nat) (f : Chan → Chan) (s : State) : (modChan c f s).mbx = s.mbx := rfl
@[simp] theorem modChan_fw (c : Nat) (f : Chan → Chan) (s : State) : (modChan c f s).fw = s.fw := rfl
@[simp] theorem modChan_pm (c : Nat) (f : Chan → Chan) (s : State) : (modChan c f s).pm = s.pm := rfl
@[simp] theorem modChan_err (c : Nat) (f : Chan → Chan) (s : State) : (modChan c f s).err = s.err := rfl
@[simp] theorem modChan_csb (c : Nat) (f : Chan → Chan) (s : State) : (modChan c f s).csb = s.csb := rfl
@[simp] theorem modChan_cmb (c : Nat) (f : Chan → Chan) (s : State) : (modChan c f s).cmb = s.cmb := rfl
@[simp] theorem modChan_ports (c : Nat) (f : Chan → Chan) (s : State) : (modChan c f s).ports = s.ports := rfl
@[simp] theorem modChan_freeCtr (c : Nat) (f : Chan → Chan) (s : State) : (modChan c f s).freeCtr = s.freeCtr := rfl
@[simp] theorem modChan_pending (c : Nat) (f : Chan → Chan) (s : State) : (modChan c f s).pending = s.pending := rfl
@[simp] theorem modChan_mem (c : Nat) (f : Chan → Chan) (s : State) : (modChan c f s).mem = { s.mem with chan := tmod {} s.mem.chan c f } := rfl
@[simp] theorem modCtx_blk (c : Nat) (f : Ctx → Ctx) (s : State) : (modCtx c f s).blk = s.blk := rfl
@[simp] theorem modCtx_regs (c : Nat) (f : Ctx → Ctx) (s : State) : (modCtx c f s).regs = s.regs := rfl
@[simp] theorem modCtx_mem (c : Nat) (f : Ctx → Ctx) (s : State) : (modCtx c f s).mem = s.mem := rfl
@[simp] theorem modCtx_rg (c : Nat) (f : Ctx → Ctx) (s : State) : (modCtx c f s).rg = s.rg := rfl
@[simp] theorem modCtx_arr (c : Nat) (f : Ctx → Ctx) (s : State) : (modCtx c f s).arr = s.arr := rfl
@[simp] theorem modCtx_lce (c : Nat) (f : Ctx → Ctx) (s : State) : (modCtx c f s).lce = s.lce := rfl
@[simp] theorem modCtx_fab (c : Nat) (f : Ctx → Ctx) (s : State) : (modCtx c f s).fab = s.fab := rfl
@[simp] theorem modCtx_sg (c : Nat) (f : Ctx → Ctx) (s : State) : (modCtx c f s).sg = s.sg := rfl
@[simp] theorem modCtx_tw (c : Nat) (f : Ctx → Ctx) (s : State) : (modCtx c f s).tw = s.tw := rfl
@[simp] theorem modCtx_ic (c : Nat) (f : Ctx → Ctx) (s : State) : (modCtx c f s).ic = s.ic := rfl
@[simp] theorem modCtx_mbx (c : Nat) (f : Ctx → Ctx) (s : State) : (modCtx c f s).mbx = s.mbx := rfl
@[simp] theorem modCtx_fw (c : Nat) (f : Ctx → Ctx) (s : State) : (modCtx c f s).fw = s.fw := rfl
@[simp] theorem modCtx_pm (c : Nat) (f : Ctx → Ctx) (s : State) : (modCtx c f s).pm = s.pm := rfl
@[simp] theorem modCtx_err (c : Nat) (f : Ctx → Ctx) (s : State) : (modCtx c f s).err = s.err := rfl
@[simp] theorem modCtx_csb (c : Nat) (f : Ctx → Ctx) (s : State) : (modCtx c f s).csb = s.csb := rfl
@[simp] theorem modCtx_cmb (c : Nat) (f : Ctx → Ctx) (s : State) : (modCtx c f s).cmb = s.cmb := rfl
@[simp] theorem modCtx_ports (c : Nat) (f : Ctx → Ctx) (s : State) : (modCtx c f s).ports = s.ports := rfl
@[simp] theorem modCtx_freeCtr (c : Nat) (f : Ctx → Ctx) (s : State) : (modCtx c f s).freeCtr = s.freeCtr := rfl
@[simp] theorem modCtx_pending (c : Nat) (f : Ctx → Ctx) (s : State) : (modCtx c f s).pending = s.pending := rfl
@[simp] theorem modCtx_fe (c : Nat) (f : Ctx → Ctx) (s : State) : (modCtx c f s).fe = { s.fe with ctx := tmod {} s.fe.ctx c f } := rfl
@[simp] theorem modDomain_blk (d : Nat) (f : Domain → Domain) (s : State) : (modDomain d f s).blk = s.blk := rfl
@[simp] theorem modDomain_regs (d : Nat) (f : Domain → Domain) (s : State) : (modDomain d f s).regs = s.regs := rfl
@[simp] theorem modDomain_mem (d : Nat) (f : Domain → Domain) (s : State) : (modDomain d f s).mem = s.mem := rfl
@[simp] theorem modDomain_rg (d : Nat) (f : Domain → Domain) (s : State) : (modDomain d f s).rg = s.rg := rfl
@[simp] theorem modDomain_arr (d : Nat) (f : Domain → Domain) (s : State) : (modDomain d f s).arr = s.arr := rfl
@[simp] theorem modDomain_fab (d : Nat) (f : Domain → Domain) (s : State) : (modDomain d f s).fab = s.fab := rfl
@[simp] theorem modDomain_sg (d : Nat) (f : Domain → Domain) (s : State) : (modDomain d f s).sg = s.sg := rfl
@[simp] theorem modDomain_fe (d : Nat) (f : Domain → Domain) (s : State) : (modDomain d f s).fe = s.fe := rfl
@[simp] theorem modDomain_tw (d : Nat) (f : Domain → Domain) (s : State) : (modDomain d f s).tw = s.tw := rfl
@[simp] theorem modDomain_ic (d : Nat) (f : Domain → Domain) (s : State) : (modDomain d f s).ic = s.ic := rfl
@[simp] theorem modDomain_mbx (d : Nat) (f : Domain → Domain) (s : State) : (modDomain d f s).mbx = s.mbx := rfl
@[simp] theorem modDomain_fw (d : Nat) (f : Domain → Domain) (s : State) : (modDomain d f s).fw = s.fw := rfl
@[simp] theorem modDomain_pm (d : Nat) (f : Domain → Domain) (s : State) : (modDomain d f s).pm = s.pm := rfl
@[simp] theorem modDomain_err (d : Nat) (f : Domain → Domain) (s : State) : (modDomain d f s).err = s.err := rfl
@[simp] theorem modDomain_csb (d : Nat) (f : Domain → Domain) (s : State) : (modDomain d f s).csb = s.csb := rfl
@[simp] theorem modDomain_cmb (d : Nat) (f : Domain → Domain) (s : State) : (modDomain d f s).cmb = s.cmb := rfl
@[simp] theorem modDomain_ports (d : Nat) (f : Domain → Domain) (s : State) : (modDomain d f s).ports = s.ports := rfl
@[simp] theorem modDomain_freeCtr (d : Nat) (f : Domain → Domain) (s : State) : (modDomain d f s).freeCtr = s.freeCtr := rfl
@[simp] theorem modDomain_pending (d : Nat) (f : Domain → Domain) (s : State) : (modDomain d f s).pending = s.pending := rfl
@[simp] theorem modDomain_lce (d : Nat) (f : Domain → Domain) (s : State) : (modDomain d f s).lce = { s.lce with domains := s.lce.domains.map (fun x => if x.id = d then f x else x) } := rfl
@[simp] theorem modFence_blk (i : Nat) (f : Fence → Fence) (s : State) : (modFence i f s).blk = s.blk := rfl
@[simp] theorem modFence_regs (i : Nat) (f : Fence → Fence) (s : State) : (modFence i f s).regs = s.regs := rfl
@[simp] theorem modFence_mem (i : Nat) (f : Fence → Fence) (s : State) : (modFence i f s).mem = s.mem := rfl
@[simp] theorem modFence_rg (i : Nat) (f : Fence → Fence) (s : State) : (modFence i f s).rg = s.rg := rfl
@[simp] theorem modFence_arr (i : Nat) (f : Fence → Fence) (s : State) : (modFence i f s).arr = s.arr := rfl
@[simp] theorem modFence_lce (i : Nat) (f : Fence → Fence) (s : State) : (modFence i f s).lce = s.lce := rfl
@[simp] theorem modFence_fab (i : Nat) (f : Fence → Fence) (s : State) : (modFence i f s).fab = s.fab := rfl
@[simp] theorem modFence_sg (i : Nat) (f : Fence → Fence) (s : State) : (modFence i f s).sg = s.sg := rfl
@[simp] theorem modFence_tw (i : Nat) (f : Fence → Fence) (s : State) : (modFence i f s).tw = s.tw := rfl
@[simp] theorem modFence_ic (i : Nat) (f : Fence → Fence) (s : State) : (modFence i f s).ic = s.ic := rfl
@[simp] theorem modFence_mbx (i : Nat) (f : Fence → Fence) (s : State) : (modFence i f s).mbx = s.mbx := rfl
@[simp] theorem modFence_fw (i : Nat) (f : Fence → Fence) (s : State) : (modFence i f s).fw = s.fw := rfl
@[simp] theorem modFence_pm (i : Nat) (f : Fence → Fence) (s : State) : (modFence i f s).pm = s.pm := rfl
@[simp] theorem modFence_err (i : Nat) (f : Fence → Fence) (s : State) : (modFence i f s).err = s.err := rfl
@[simp] theorem modFence_csb (i : Nat) (f : Fence → Fence) (s : State) : (modFence i f s).csb = s.csb := rfl
@[simp] theorem modFence_cmb (i : Nat) (f : Fence → Fence) (s : State) : (modFence i f s).cmb = s.cmb := rfl
@[simp] theorem modFence_ports (i : Nat) (f : Fence → Fence) (s : State) : (modFence i f s).ports = s.ports := rfl
@[simp] theorem modFence_freeCtr (i : Nat) (f : Fence → Fence) (s : State) : (modFence i f s).freeCtr = s.freeCtr := rfl
@[simp] theorem modFence_pending (i : Nat) (f : Fence → Fence) (s : State) : (modFence i f s).pending = s.pending := rfl
@[simp] theorem modFence_fe (i : Nat) (f : Fence → Fence) (s : State) : (modFence i f s).fe = { s.fe with fences := tmod {} s.fe.fences i f } := rfl
@[simp] theorem modGraph_blk (g : Nat) (f : Graph → Graph) (s : State) : (modGraph g f s).blk = s.blk := rfl
@[simp] theorem modGraph_regs (g : Nat) (f : Graph → Graph) (s : State) : (modGraph g f s).regs = s.regs := rfl
@[simp] theorem modGraph_mem (g : Nat) (f : Graph → Graph) (s : State) : (modGraph g f s).mem = s.mem := rfl
@[simp] theorem modGraph_rg (g : Nat) (f : Graph → Graph) (s : State) : (modGraph g f s).rg = s.rg := rfl
@[simp] theorem modGraph_arr (g : Nat) (f : Graph → Graph) (s : State) : (modGraph g f s).arr = s.arr := rfl
@[simp] theorem modGraph_lce (g : Nat) (f : Graph → Graph) (s : State) : (modGraph g f s).lce = s.lce := rfl
@[simp] theorem modGraph_fab (g : Nat) (f : Graph → Graph) (s : State) : (modGraph g f s).fab = s.fab := rfl
@[simp] theorem modGraph_sg (g : Nat) (f : Graph → Graph) (s : State) : (modGraph g f s).sg = s.sg := rfl
@[simp] theorem modGraph_tw (g : Nat) (f : Graph → Graph) (s : State) : (modGraph g f s).tw = s.tw := rfl
@[simp] theorem modGraph_ic (g : Nat) (f : Graph → Graph) (s : State) : (modGraph g f s).ic = s.ic := rfl
@[simp] theorem modGraph_mbx (g : Nat) (f : Graph → Graph) (s : State) : (modGraph g f s).mbx = s.mbx := rfl
@[simp] theorem modGraph_fw (g : Nat) (f : Graph → Graph) (s : State) : (modGraph g f s).fw = s.fw := rfl
@[simp] theorem modGraph_pm (g : Nat) (f : Graph → Graph) (s : State) : (modGraph g f s).pm = s.pm := rfl
@[simp] theorem modGraph_err (g : Nat) (f : Graph → Graph) (s : State) : (modGraph g f s).err = s.err := rfl
@[simp] theorem modGraph_csb (g : Nat) (f : Graph → Graph) (s : State) : (modGraph g f s).csb = s.csb := rfl
@[simp] theorem modGraph_cmb (g : Nat) (f : Graph → Graph) (s : State) : (modGraph g f s).cmb = s.cmb := rfl
@[simp] theorem modGraph_ports (g : Nat) (f : Graph → Graph) (s : State) : (modGraph g f s).ports = s.ports := rfl
@[simp] theorem modGraph_freeCtr (g : Nat) (f : Graph → Graph) (s : State) : (modGraph g f s).freeCtr = s.freeCtr := rfl
@[simp] theorem modGraph_pending (g : Nat) (f : Graph → Graph) (s : State) : (modGraph g f s).pending = s.pending := rfl
@[simp] theorem modGraph_fe (g : Nat) (f : Graph → Graph) (s : State) : (modGraph g f s).fe = { s.fe with graphs := tmod {} s.fe.graphs g f } := rfl
@[simp] theorem modGroup_blk (g : Nat) (f : Group → Group) (s : State) : (modGroup g f s).blk = s.blk := rfl
@[simp] theorem modGroup_regs (g : Nat) (f : Group → Group) (s : State) : (modGroup g f s).regs = s.regs := rfl
@[simp] theorem modGroup_mem (g : Nat) (f : Group → Group) (s : State) : (modGroup g f s).mem = s.mem := rfl
@[simp] theorem modGroup_rg (g : Nat) (f : Group → Group) (s : State) : (modGroup g f s).rg = s.rg := rfl
@[simp] theorem modGroup_arr (g : Nat) (f : Group → Group) (s : State) : (modGroup g f s).arr = s.arr := rfl
@[simp] theorem modGroup_lce (g : Nat) (f : Group → Group) (s : State) : (modGroup g f s).lce = s.lce := rfl
@[simp] theorem modGroup_fab (g : Nat) (f : Group → Group) (s : State) : (modGroup g f s).fab = s.fab := rfl
@[simp] theorem modGroup_fe (g : Nat) (f : Group → Group) (s : State) : (modGroup g f s).fe = s.fe := rfl
@[simp] theorem modGroup_tw (g : Nat) (f : Group → Group) (s : State) : (modGroup g f s).tw = s.tw := rfl
@[simp] theorem modGroup_ic (g : Nat) (f : Group → Group) (s : State) : (modGroup g f s).ic = s.ic := rfl
@[simp] theorem modGroup_mbx (g : Nat) (f : Group → Group) (s : State) : (modGroup g f s).mbx = s.mbx := rfl
@[simp] theorem modGroup_fw (g : Nat) (f : Group → Group) (s : State) : (modGroup g f s).fw = s.fw := rfl
@[simp] theorem modGroup_pm (g : Nat) (f : Group → Group) (s : State) : (modGroup g f s).pm = s.pm := rfl
@[simp] theorem modGroup_err (g : Nat) (f : Group → Group) (s : State) : (modGroup g f s).err = s.err := rfl
@[simp] theorem modGroup_csb (g : Nat) (f : Group → Group) (s : State) : (modGroup g f s).csb = s.csb := rfl
@[simp] theorem modGroup_cmb (g : Nat) (f : Group → Group) (s : State) : (modGroup g f s).cmb = s.cmb := rfl
@[simp] theorem modGroup_ports (g : Nat) (f : Group → Group) (s : State) : (modGroup g f s).ports = s.ports := rfl
@[simp] theorem modGroup_freeCtr (g : Nat) (f : Group → Group) (s : State) : (modGroup g f s).freeCtr = s.freeCtr := rfl
@[simp] theorem modGroup_pending (g : Nat) (f : Group → Group) (s : State) : (modGroup g f s).pending = s.pending := rfl
@[simp] theorem modGroup_sg (g : Nat) (f : Group → Group) (s : State) : (modGroup g f s).sg = { s.sg with group := tmod {} s.sg.group g f } := rfl
@[simp] theorem modHq_blk (h : Nat) (f : Hq → Hq) (s : State) : (modHq h f s).blk = s.blk := rfl
@[simp] theorem modHq_regs (h : Nat) (f : Hq → Hq) (s : State) : (modHq h f s).regs = s.regs := rfl
@[simp] theorem modHq_mem (h : Nat) (f : Hq → Hq) (s : State) : (modHq h f s).mem = s.mem := rfl
@[simp] theorem modHq_rg (h : Nat) (f : Hq → Hq) (s : State) : (modHq h f s).rg = s.rg := rfl
@[simp] theorem modHq_arr (h : Nat) (f : Hq → Hq) (s : State) : (modHq h f s).arr = s.arr := rfl
@[simp] theorem modHq_lce (h : Nat) (f : Hq → Hq) (s : State) : (modHq h f s).lce = s.lce := rfl
@[simp] theorem modHq_fab (h : Nat) (f : Hq → Hq) (s : State) : (modHq h f s).fab = s.fab := rfl
@[simp] theorem modHq_sg (h : Nat) (f : Hq → Hq) (s : State) : (modHq h f s).sg = s.sg := rfl
@[simp] theorem modHq_tw (h : Nat) (f : Hq → Hq) (s : State) : (modHq h f s).tw = s.tw := rfl
@[simp] theorem modHq_ic (h : Nat) (f : Hq → Hq) (s : State) : (modHq h f s).ic = s.ic := rfl
@[simp] theorem modHq_mbx (h : Nat) (f : Hq → Hq) (s : State) : (modHq h f s).mbx = s.mbx := rfl
@[simp] theorem modHq_fw (h : Nat) (f : Hq → Hq) (s : State) : (modHq h f s).fw = s.fw := rfl
@[simp] theorem modHq_pm (h : Nat) (f : Hq → Hq) (s : State) : (modHq h f s).pm = s.pm := rfl
@[simp] theorem modHq_err (h : Nat) (f : Hq → Hq) (s : State) : (modHq h f s).err = s.err := rfl
@[simp] theorem modHq_csb (h : Nat) (f : Hq → Hq) (s : State) : (modHq h f s).csb = s.csb := rfl
@[simp] theorem modHq_cmb (h : Nat) (f : Hq → Hq) (s : State) : (modHq h f s).cmb = s.cmb := rfl
@[simp] theorem modHq_ports (h : Nat) (f : Hq → Hq) (s : State) : (modHq h f s).ports = s.ports := rfl
@[simp] theorem modHq_freeCtr (h : Nat) (f : Hq → Hq) (s : State) : (modHq h f s).freeCtr = s.freeCtr := rfl
@[simp] theorem modHq_pending (h : Nat) (f : Hq → Hq) (s : State) : (modHq h f s).pending = s.pending := rfl
@[simp] theorem modHq_fe (h : Nat) (f : Hq → Hq) (s : State) : (modHq h f s).fe = { s.fe with hq := tmod {} s.fe.hq h f } := rfl
@[simp] theorem modHrc_blk (p : Nat) (f : Hrc → Hrc) (s : State) : (modHrc p f s).blk = s.blk := rfl
@[simp] theorem modHrc_regs (p : Nat) (f : Hrc → Hrc) (s : State) : (modHrc p f s).regs = s.regs := rfl
@[simp] theorem modHrc_mem (p : Nat) (f : Hrc → Hrc) (s : State) : (modHrc p f s).mem = s.mem := rfl
@[simp] theorem modHrc_rg (p : Nat) (f : Hrc → Hrc) (s : State) : (modHrc p f s).rg = s.rg := rfl
@[simp] theorem modHrc_arr (p : Nat) (f : Hrc → Hrc) (s : State) : (modHrc p f s).arr = s.arr := rfl
@[simp] theorem modHrc_fab (p : Nat) (f : Hrc → Hrc) (s : State) : (modHrc p f s).fab = s.fab := rfl
@[simp] theorem modHrc_sg (p : Nat) (f : Hrc → Hrc) (s : State) : (modHrc p f s).sg = s.sg := rfl
@[simp] theorem modHrc_fe (p : Nat) (f : Hrc → Hrc) (s : State) : (modHrc p f s).fe = s.fe := rfl
@[simp] theorem modHrc_tw (p : Nat) (f : Hrc → Hrc) (s : State) : (modHrc p f s).tw = s.tw := rfl
@[simp] theorem modHrc_ic (p : Nat) (f : Hrc → Hrc) (s : State) : (modHrc p f s).ic = s.ic := rfl
@[simp] theorem modHrc_mbx (p : Nat) (f : Hrc → Hrc) (s : State) : (modHrc p f s).mbx = s.mbx := rfl
@[simp] theorem modHrc_fw (p : Nat) (f : Hrc → Hrc) (s : State) : (modHrc p f s).fw = s.fw := rfl
@[simp] theorem modHrc_pm (p : Nat) (f : Hrc → Hrc) (s : State) : (modHrc p f s).pm = s.pm := rfl
@[simp] theorem modHrc_err (p : Nat) (f : Hrc → Hrc) (s : State) : (modHrc p f s).err = s.err := rfl
@[simp] theorem modHrc_csb (p : Nat) (f : Hrc → Hrc) (s : State) : (modHrc p f s).csb = s.csb := rfl
@[simp] theorem modHrc_cmb (p : Nat) (f : Hrc → Hrc) (s : State) : (modHrc p f s).cmb = s.cmb := rfl
@[simp] theorem modHrc_ports (p : Nat) (f : Hrc → Hrc) (s : State) : (modHrc p f s).ports = s.ports := rfl
@[simp] theorem modHrc_freeCtr (p : Nat) (f : Hrc → Hrc) (s : State) : (modHrc p f s).freeCtr = s.freeCtr := rfl
@[simp] theorem modHrc_pending (p : Nat) (f : Hrc → Hrc) (s : State) : (modHrc p f s).pending = s.pending := rfl
@[simp] theorem modHrc_lce (p : Nat) (f : Hrc → Hrc) (s : State) : (modHrc p f s).lce = { s.lce with hrc := tmod {} s.lce.hrc p f } := rfl
@[simp] theorem modKv_blk (seq : Nat) (f : Kv → Kv) (s : State) : (modKv seq f s).blk = s.blk := rfl
@[simp] theorem modKv_regs (seq : Nat) (f : Kv → Kv) (s : State) : (modKv seq f s).regs = s.regs := rfl
@[simp] theorem modKv_mem (seq : Nat) (f : Kv → Kv) (s : State) : (modKv seq f s).mem = s.mem := rfl
@[simp] theorem modKv_rg (seq : Nat) (f : Kv → Kv) (s : State) : (modKv seq f s).rg = s.rg := rfl
@[simp] theorem modKv_arr (seq : Nat) (f : Kv → Kv) (s : State) : (modKv seq f s).arr = s.arr := rfl
@[simp] theorem modKv_lce (seq : Nat) (f : Kv → Kv) (s : State) : (modKv seq f s).lce = s.lce := rfl
@[simp] theorem modKv_fab (seq : Nat) (f : Kv → Kv) (s : State) : (modKv seq f s).fab = s.fab := rfl
@[simp] theorem modKv_fe (seq : Nat) (f : Kv → Kv) (s : State) : (modKv seq f s).fe = s.fe := rfl
@[simp] theorem modKv_tw (seq : Nat) (f : Kv → Kv) (s : State) : (modKv seq f s).tw = s.tw := rfl
@[simp] theorem modKv_ic (seq : Nat) (f : Kv → Kv) (s : State) : (modKv seq f s).ic = s.ic := rfl
@[simp] theorem modKv_mbx (seq : Nat) (f : Kv → Kv) (s : State) : (modKv seq f s).mbx = s.mbx := rfl
@[simp] theorem modKv_fw (seq : Nat) (f : Kv → Kv) (s : State) : (modKv seq f s).fw = s.fw := rfl
@[simp] theorem modKv_pm (seq : Nat) (f : Kv → Kv) (s : State) : (modKv seq f s).pm = s.pm := rfl
@[simp] theorem modKv_err (seq : Nat) (f : Kv → Kv) (s : State) : (modKv seq f s).err = s.err := rfl
@[simp] theorem modKv_csb (seq : Nat) (f : Kv → Kv) (s : State) : (modKv seq f s).csb = s.csb := rfl
@[simp] theorem modKv_cmb (seq : Nat) (f : Kv → Kv) (s : State) : (modKv seq f s).cmb = s.cmb := rfl
@[simp] theorem modKv_ports (seq : Nat) (f : Kv → Kv) (s : State) : (modKv seq f s).ports = s.ports := rfl
@[simp] theorem modKv_freeCtr (seq : Nat) (f : Kv → Kv) (s : State) : (modKv seq f s).freeCtr = s.freeCtr := rfl
@[simp] theorem modKv_pending (seq : Nat) (f : Kv → Kv) (s : State) : (modKv seq f s).pending = s.pending := rfl
@[simp] theorem modKv_sg (seq : Nat) (f : Kv → Kv) (s : State) : (modKv seq f s).sg = { s.sg with kv := s.sg.kv.map (fun k => if k.seq = seq then f k else k) } := rfl
@[simp] theorem modLaunch_blk (id : Nat) (f : Launch → Launch) (s : State) : (modLaunch id f s).blk = s.blk := rfl
@[simp] theorem modLaunch_regs (id : Nat) (f : Launch → Launch) (s : State) : (modLaunch id f s).regs = s.regs := rfl
@[simp] theorem modLaunch_mem (id : Nat) (f : Launch → Launch) (s : State) : (modLaunch id f s).mem = s.mem := rfl
@[simp] theorem modLaunch_rg (id : Nat) (f : Launch → Launch) (s : State) : (modLaunch id f s).rg = s.rg := rfl
@[simp] theorem modLaunch_arr (id : Nat) (f : Launch → Launch) (s : State) : (modLaunch id f s).arr = s.arr := rfl
@[simp] theorem modLaunch_lce (id : Nat) (f : Launch → Launch) (s : State) : (modLaunch id f s).lce = s.lce := rfl
@[simp] theorem modLaunch_fab (id : Nat) (f : Launch → Launch) (s : State) : (modLaunch id f s).fab = s.fab := rfl
@[simp] theorem modLaunch_sg (id : Nat) (f : Launch → Launch) (s : State) : (modLaunch id f s).sg = s.sg := rfl
@[simp] theorem modLaunch_tw (id : Nat) (f : Launch → Launch) (s : State) : (modLaunch id f s).tw = s.tw := rfl
@[simp] theorem modLaunch_ic (id : Nat) (f : Launch → Launch) (s : State) : (modLaunch id f s).ic = s.ic := rfl
@[simp] theorem modLaunch_mbx (id : Nat) (f : Launch → Launch) (s : State) : (modLaunch id f s).mbx = s.mbx := rfl
@[simp] theorem modLaunch_fw (id : Nat) (f : Launch → Launch) (s : State) : (modLaunch id f s).fw = s.fw := rfl
@[simp] theorem modLaunch_pm (id : Nat) (f : Launch → Launch) (s : State) : (modLaunch id f s).pm = s.pm := rfl
@[simp] theorem modLaunch_err (id : Nat) (f : Launch → Launch) (s : State) : (modLaunch id f s).err = s.err := rfl
@[simp] theorem modLaunch_csb (id : Nat) (f : Launch → Launch) (s : State) : (modLaunch id f s).csb = s.csb := rfl
@[simp] theorem modLaunch_cmb (id : Nat) (f : Launch → Launch) (s : State) : (modLaunch id f s).cmb = s.cmb := rfl
@[simp] theorem modLaunch_ports (id : Nat) (f : Launch → Launch) (s : State) : (modLaunch id f s).ports = s.ports := rfl
@[simp] theorem modLaunch_freeCtr (id : Nat) (f : Launch → Launch) (s : State) : (modLaunch id f s).freeCtr = s.freeCtr := rfl
@[simp] theorem modLaunch_pending (id : Nat) (f : Launch → Launch) (s : State) : (modLaunch id f s).pending = s.pending := rfl
@[simp] theorem modLaunch_fe (id : Nat) (f : Launch → Launch) (s : State) : (modLaunch id f s).fe = { s.fe with launches := s.fe.launches.map (fun x => if x.id = id then f x else x) } := rfl
@[simp] theorem modLce_blk (n : Nat) (f : Lce1 → Lce1) (s : State) : (modLce n f s).blk = s.blk := rfl
@[simp] theorem modLce_regs (n : Nat) (f : Lce1 → Lce1) (s : State) : (modLce n f s).regs = s.regs := rfl
@[simp] theorem modLce_mem (n : Nat) (f : Lce1 → Lce1) (s : State) : (modLce n f s).mem = s.mem := rfl
@[simp] theorem modLce_rg (n : Nat) (f : Lce1 → Lce1) (s : State) : (modLce n f s).rg = s.rg := rfl
@[simp] theorem modLce_arr (n : Nat) (f : Lce1 → Lce1) (s : State) : (modLce n f s).arr = s.arr := rfl
@[simp] theorem modLce_fab (n : Nat) (f : Lce1 → Lce1) (s : State) : (modLce n f s).fab = s.fab := rfl
@[simp] theorem modLce_sg (n : Nat) (f : Lce1 → Lce1) (s : State) : (modLce n f s).sg = s.sg := rfl
@[simp] theorem modLce_fe (n : Nat) (f : Lce1 → Lce1) (s : State) : (modLce n f s).fe = s.fe := rfl
@[simp] theorem modLce_tw (n : Nat) (f : Lce1 → Lce1) (s : State) : (modLce n f s).tw = s.tw := rfl
@[simp] theorem modLce_ic (n : Nat) (f : Lce1 → Lce1) (s : State) : (modLce n f s).ic = s.ic := rfl
@[simp] theorem modLce_mbx (n : Nat) (f : Lce1 → Lce1) (s : State) : (modLce n f s).mbx = s.mbx := rfl
@[simp] theorem modLce_fw (n : Nat) (f : Lce1 → Lce1) (s : State) : (modLce n f s).fw = s.fw := rfl
@[simp] theorem modLce_pm (n : Nat) (f : Lce1 → Lce1) (s : State) : (modLce n f s).pm = s.pm := rfl
@[simp] theorem modLce_err (n : Nat) (f : Lce1 → Lce1) (s : State) : (modLce n f s).err = s.err := rfl
@[simp] theorem modLce_csb (n : Nat) (f : Lce1 → Lce1) (s : State) : (modLce n f s).csb = s.csb := rfl
@[simp] theorem modLce_cmb (n : Nat) (f : Lce1 → Lce1) (s : State) : (modLce n f s).cmb = s.cmb := rfl
@[simp] theorem modLce_ports (n : Nat) (f : Lce1 → Lce1) (s : State) : (modLce n f s).ports = s.ports := rfl
@[simp] theorem modLce_freeCtr (n : Nat) (f : Lce1 → Lce1) (s : State) : (modLce n f s).freeCtr = s.freeCtr := rfl
@[simp] theorem modLce_pending (n : Nat) (f : Lce1 → Lce1) (s : State) : (modLce n f s).pending = s.pending := rfl
@[simp] theorem modLce_lce (n : Nat) (f : Lce1 → Lce1) (s : State) : (modLce n f s).lce = { s.lce with unit := tmod {} s.lce.unit n f } := rfl
@[simp] theorem modPart_blk (p : Nat) (f : Part → Part) (s : State) : (modPart p f s).blk = s.blk := rfl
@[simp] theorem modPart_regs (p : Nat) (f : Part → Part) (s : State) : (modPart p f s).regs = s.regs := rfl
@[simp] theorem modPart_mem (p : Nat) (f : Part → Part) (s : State) : (modPart p f s).mem = s.mem := rfl
@[simp] theorem modPart_rg (p : Nat) (f : Part → Part) (s : State) : (modPart p f s).rg = s.rg := rfl
@[simp] theorem modPart_arr (p : Nat) (f : Part → Part) (s : State) : (modPart p f s).arr = s.arr := rfl
@[simp] theorem modPart_lce (p : Nat) (f : Part → Part) (s : State) : (modPart p f s).lce = s.lce := rfl
@[simp] theorem modPart_fab (p : Nat) (f : Part → Part) (s : State) : (modPart p f s).fab = s.fab := rfl
@[simp] theorem modPart_sg (p : Nat) (f : Part → Part) (s : State) : (modPart p f s).sg = s.sg := rfl
@[simp] theorem modPart_tw (p : Nat) (f : Part → Part) (s : State) : (modPart p f s).tw = s.tw := rfl
@[simp] theorem modPart_ic (p : Nat) (f : Part → Part) (s : State) : (modPart p f s).ic = s.ic := rfl
@[simp] theorem modPart_mbx (p : Nat) (f : Part → Part) (s : State) : (modPart p f s).mbx = s.mbx := rfl
@[simp] theorem modPart_fw (p : Nat) (f : Part → Part) (s : State) : (modPart p f s).fw = s.fw := rfl
@[simp] theorem modPart_pm (p : Nat) (f : Part → Part) (s : State) : (modPart p f s).pm = s.pm := rfl
@[simp] theorem modPart_err (p : Nat) (f : Part → Part) (s : State) : (modPart p f s).err = s.err := rfl
@[simp] theorem modPart_csb (p : Nat) (f : Part → Part) (s : State) : (modPart p f s).csb = s.csb := rfl
@[simp] theorem modPart_cmb (p : Nat) (f : Part → Part) (s : State) : (modPart p f s).cmb = s.cmb := rfl
@[simp] theorem modPart_ports (p : Nat) (f : Part → Part) (s : State) : (modPart p f s).ports = s.ports := rfl
@[simp] theorem modPart_freeCtr (p : Nat) (f : Part → Part) (s : State) : (modPart p f s).freeCtr = s.freeCtr := rfl
@[simp] theorem modPart_pending (p : Nat) (f : Part → Part) (s : State) : (modPart p f s).pending = s.pending := rfl
@[simp] theorem modPart_fe (p : Nat) (f : Part → Part) (s : State) : (modPart p f s).fe = { s.fe with part := tmod {} s.fe.part p f } := rfl
@[simp] theorem modPeer_blk (k : Nat) (f : Peer → Peer) (s : State) : (modPeer k f s).blk = s.blk := rfl
@[simp] theorem modPeer_regs (k : Nat) (f : Peer → Peer) (s : State) : (modPeer k f s).regs = s.regs := rfl
@[simp] theorem modPeer_mem (k : Nat) (f : Peer → Peer) (s : State) : (modPeer k f s).mem = s.mem := rfl
@[simp] theorem modPeer_rg (k : Nat) (f : Peer → Peer) (s : State) : (modPeer k f s).rg = s.rg := rfl
@[simp] theorem modPeer_arr (k : Nat) (f : Peer → Peer) (s : State) : (modPeer k f s).arr = s.arr := rfl
@[simp] theorem modPeer_lce (k : Nat) (f : Peer → Peer) (s : State) : (modPeer k f s).lce = s.lce := rfl
@[simp] theorem modPeer_sg (k : Nat) (f : Peer → Peer) (s : State) : (modPeer k f s).sg = s.sg := rfl
@[simp] theorem modPeer_fe (k : Nat) (f : Peer → Peer) (s : State) : (modPeer k f s).fe = s.fe := rfl
@[simp] theorem modPeer_tw (k : Nat) (f : Peer → Peer) (s : State) : (modPeer k f s).tw = s.tw := rfl
@[simp] theorem modPeer_ic (k : Nat) (f : Peer → Peer) (s : State) : (modPeer k f s).ic = s.ic := rfl
@[simp] theorem modPeer_mbx (k : Nat) (f : Peer → Peer) (s : State) : (modPeer k f s).mbx = s.mbx := rfl
@[simp] theorem modPeer_fw (k : Nat) (f : Peer → Peer) (s : State) : (modPeer k f s).fw = s.fw := rfl
@[simp] theorem modPeer_pm (k : Nat) (f : Peer → Peer) (s : State) : (modPeer k f s).pm = s.pm := rfl
@[simp] theorem modPeer_err (k : Nat) (f : Peer → Peer) (s : State) : (modPeer k f s).err = s.err := rfl
@[simp] theorem modPeer_csb (k : Nat) (f : Peer → Peer) (s : State) : (modPeer k f s).csb = s.csb := rfl
@[simp] theorem modPeer_cmb (k : Nat) (f : Peer → Peer) (s : State) : (modPeer k f s).cmb = s.cmb := rfl
@[simp] theorem modPeer_ports (k : Nat) (f : Peer → Peer) (s : State) : (modPeer k f s).ports = s.ports := rfl
@[simp] theorem modPeer_freeCtr (k : Nat) (f : Peer → Peer) (s : State) : (modPeer k f s).freeCtr = s.freeCtr := rfl
@[simp] theorem modPeer_pending (k : Nat) (f : Peer → Peer) (s : State) : (modPeer k f s).pending = s.pending := rfl
@[simp] theorem modPeer_fab (k : Nat) (f : Peer → Peer) (s : State) : (modPeer k f s).fab = { s.fab with peer := tmod {} s.fab.peer k f } := rfl
@[simp] theorem modPhys_blk (p : Nat) (f : PhysArr → PhysArr) (s : State) : (modPhys p f s).blk = s.blk := rfl
@[simp] theorem modPhys_regs (p : Nat) (f : PhysArr → PhysArr) (s : State) : (modPhys p f s).regs = s.regs := rfl
@[simp] theorem modPhys_mem (p : Nat) (f : PhysArr → PhysArr) (s : State) : (modPhys p f s).mem = s.mem := rfl
@[simp] theorem modPhys_rg (p : Nat) (f : PhysArr → PhysArr) (s : State) : (modPhys p f s).rg = s.rg := rfl
@[simp] theorem modPhys_lce (p : Nat) (f : PhysArr → PhysArr) (s : State) : (modPhys p f s).lce = s.lce := rfl
@[simp] theorem modPhys_fab (p : Nat) (f : PhysArr → PhysArr) (s : State) : (modPhys p f s).fab = s.fab := rfl
@[simp] theorem modPhys_sg (p : Nat) (f : PhysArr → PhysArr) (s : State) : (modPhys p f s).sg = s.sg := rfl
@[simp] theorem modPhys_fe (p : Nat) (f : PhysArr → PhysArr) (s : State) : (modPhys p f s).fe = s.fe := rfl
@[simp] theorem modPhys_tw (p : Nat) (f : PhysArr → PhysArr) (s : State) : (modPhys p f s).tw = s.tw := rfl
@[simp] theorem modPhys_ic (p : Nat) (f : PhysArr → PhysArr) (s : State) : (modPhys p f s).ic = s.ic := rfl
@[simp] theorem modPhys_mbx (p : Nat) (f : PhysArr → PhysArr) (s : State) : (modPhys p f s).mbx = s.mbx := rfl
@[simp] theorem modPhys_fw (p : Nat) (f : PhysArr → PhysArr) (s : State) : (modPhys p f s).fw = s.fw := rfl
@[simp] theorem modPhys_pm (p : Nat) (f : PhysArr → PhysArr) (s : State) : (modPhys p f s).pm = s.pm := rfl
@[simp] theorem modPhys_err (p : Nat) (f : PhysArr → PhysArr) (s : State) : (modPhys p f s).err = s.err := rfl
@[simp] theorem modPhys_csb (p : Nat) (f : PhysArr → PhysArr) (s : State) : (modPhys p f s).csb = s.csb := rfl
@[simp] theorem modPhys_cmb (p : Nat) (f : PhysArr → PhysArr) (s : State) : (modPhys p f s).cmb = s.cmb := rfl
@[simp] theorem modPhys_ports (p : Nat) (f : PhysArr → PhysArr) (s : State) : (modPhys p f s).ports = s.ports := rfl
@[simp] theorem modPhys_freeCtr (p : Nat) (f : PhysArr → PhysArr) (s : State) : (modPhys p f s).freeCtr = s.freeCtr := rfl
@[simp] theorem modPhys_pending (p : Nat) (f : PhysArr → PhysArr) (s : State) : (modPhys p f s).pending = s.pending := rfl
@[simp] theorem modPhys_arr (p : Nat) (f : PhysArr → PhysArr) (s : State) : (modPhys p f s).arr = { s.arr with phys := tmod {} s.arr.phys p f } := rfl
@[simp] theorem modPort_blk (p : Nat) (f : Port → Port) (s : State) : (modPort p f s).blk = s.blk := rfl
@[simp] theorem modPort_regs (p : Nat) (f : Port → Port) (s : State) : (modPort p f s).regs = s.regs := rfl
@[simp] theorem modPort_mem (p : Nat) (f : Port → Port) (s : State) : (modPort p f s).mem = s.mem := rfl
@[simp] theorem modPort_rg (p : Nat) (f : Port → Port) (s : State) : (modPort p f s).rg = s.rg := rfl
@[simp] theorem modPort_arr (p : Nat) (f : Port → Port) (s : State) : (modPort p f s).arr = s.arr := rfl
@[simp] theorem modPort_lce (p : Nat) (f : Port → Port) (s : State) : (modPort p f s).lce = s.lce := rfl
@[simp] theorem modPort_sg (p : Nat) (f : Port → Port) (s : State) : (modPort p f s).sg = s.sg := rfl
@[simp] theorem modPort_fe (p : Nat) (f : Port → Port) (s : State) : (modPort p f s).fe = s.fe := rfl
@[simp] theorem modPort_tw (p : Nat) (f : Port → Port) (s : State) : (modPort p f s).tw = s.tw := rfl
@[simp] theorem modPort_ic (p : Nat) (f : Port → Port) (s : State) : (modPort p f s).ic = s.ic := rfl
@[simp] theorem modPort_mbx (p : Nat) (f : Port → Port) (s : State) : (modPort p f s).mbx = s.mbx := rfl
@[simp] theorem modPort_fw (p : Nat) (f : Port → Port) (s : State) : (modPort p f s).fw = s.fw := rfl
@[simp] theorem modPort_pm (p : Nat) (f : Port → Port) (s : State) : (modPort p f s).pm = s.pm := rfl
@[simp] theorem modPort_err (p : Nat) (f : Port → Port) (s : State) : (modPort p f s).err = s.err := rfl
@[simp] theorem modPort_csb (p : Nat) (f : Port → Port) (s : State) : (modPort p f s).csb = s.csb := rfl
@[simp] theorem modPort_cmb (p : Nat) (f : Port → Port) (s : State) : (modPort p f s).cmb = s.cmb := rfl
@[simp] theorem modPort_ports (p : Nat) (f : Port → Port) (s : State) : (modPort p f s).ports = s.ports := rfl
@[simp] theorem modPort_freeCtr (p : Nat) (f : Port → Port) (s : State) : (modPort p f s).freeCtr = s.freeCtr := rfl
@[simp] theorem modPort_pending (p : Nat) (f : Port → Port) (s : State) : (modPort p f s).pending = s.pending := rfl
@[simp] theorem modPort_fab (p : Nat) (f : Port → Port) (s : State) : (modPort p f s).fab = { s.fab with port := tmod {} s.fab.port p f } := rfl
@[simp] theorem modProc_blk (p : Nat) (f : Proc → Proc) (s : State) : (modProc p f s).blk = s.blk := rfl
@[simp] theorem modProc_regs (p : Nat) (f : Proc → Proc) (s : State) : (modProc p f s).regs = s.regs := rfl
@[simp] theorem modProc_mem (p : Nat) (f : Proc → Proc) (s : State) : (modProc p f s).mem = s.mem := rfl
@[simp] theorem modProc_rg (p : Nat) (f : Proc → Proc) (s : State) : (modProc p f s).rg = s.rg := rfl
@[simp] theorem modProc_arr (p : Nat) (f : Proc → Proc) (s : State) : (modProc p f s).arr = s.arr := rfl
@[simp] theorem modProc_lce (p : Nat) (f : Proc → Proc) (s : State) : (modProc p f s).lce = s.lce := rfl
@[simp] theorem modProc_fab (p : Nat) (f : Proc → Proc) (s : State) : (modProc p f s).fab = s.fab := rfl
@[simp] theorem modProc_sg (p : Nat) (f : Proc → Proc) (s : State) : (modProc p f s).sg = s.sg := rfl
@[simp] theorem modProc_fe (p : Nat) (f : Proc → Proc) (s : State) : (modProc p f s).fe = s.fe := rfl
@[simp] theorem modProc_tw (p : Nat) (f : Proc → Proc) (s : State) : (modProc p f s).tw = s.tw := rfl
@[simp] theorem modProc_ic (p : Nat) (f : Proc → Proc) (s : State) : (modProc p f s).ic = s.ic := rfl
@[simp] theorem modProc_fw (p : Nat) (f : Proc → Proc) (s : State) : (modProc p f s).fw = s.fw := rfl
@[simp] theorem modProc_pm (p : Nat) (f : Proc → Proc) (s : State) : (modProc p f s).pm = s.pm := rfl
@[simp] theorem modProc_err (p : Nat) (f : Proc → Proc) (s : State) : (modProc p f s).err = s.err := rfl
@[simp] theorem modProc_csb (p : Nat) (f : Proc → Proc) (s : State) : (modProc p f s).csb = s.csb := rfl
@[simp] theorem modProc_cmb (p : Nat) (f : Proc → Proc) (s : State) : (modProc p f s).cmb = s.cmb := rfl
@[simp] theorem modProc_ports (p : Nat) (f : Proc → Proc) (s : State) : (modProc p f s).ports = s.ports := rfl
@[simp] theorem modProc_freeCtr (p : Nat) (f : Proc → Proc) (s : State) : (modProc p f s).freeCtr = s.freeCtr := rfl
@[simp] theorem modProc_pending (p : Nat) (f : Proc → Proc) (s : State) : (modProc p f s).pending = s.pending := rfl
@[simp] theorem modProc_mbx (p : Nat) (f : Proc → Proc) (s : State) : (modProc p f s).mbx = { s.mbx with proc := tmod {} s.mbx.proc p f } := rfl
@[simp] theorem modQueue_blk (q : Nat) (f : Queue → Queue) (s : State) : (modQueue q f s).blk = s.blk := rfl
@[simp] theorem modQueue_regs (q : Nat) (f : Queue → Queue) (s : State) : (modQueue q f s).regs = s.regs := rfl
@[simp] theorem modQueue_mem (q : Nat) (f : Queue → Queue) (s : State) : (modQueue q f s).mem = s.mem := rfl
@[simp] theorem modQueue_rg (q : Nat) (f : Queue → Queue) (s : State) : (modQueue q f s).rg = s.rg := rfl
@[simp] theorem modQueue_arr (q : Nat) (f : Queue → Queue) (s : State) : (modQueue q f s).arr = s.arr := rfl
@[simp] theorem modQueue_lce (q : Nat) (f : Queue → Queue) (s : State) : (modQueue q f s).lce = s.lce := rfl
@[simp] theorem modQueue_fab (q : Nat) (f : Queue → Queue) (s : State) : (modQueue q f s).fab = s.fab := rfl
@[simp] theorem modQueue_sg (q : Nat) (f : Queue → Queue) (s : State) : (modQueue q f s).sg = s.sg := rfl
@[simp] theorem modQueue_tw (q : Nat) (f : Queue → Queue) (s : State) : (modQueue q f s).tw = s.tw := rfl
@[simp] theorem modQueue_ic (q : Nat) (f : Queue → Queue) (s : State) : (modQueue q f s).ic = s.ic := rfl
@[simp] theorem modQueue_mbx (q : Nat) (f : Queue → Queue) (s : State) : (modQueue q f s).mbx = s.mbx := rfl
@[simp] theorem modQueue_fw (q : Nat) (f : Queue → Queue) (s : State) : (modQueue q f s).fw = s.fw := rfl
@[simp] theorem modQueue_pm (q : Nat) (f : Queue → Queue) (s : State) : (modQueue q f s).pm = s.pm := rfl
@[simp] theorem modQueue_err (q : Nat) (f : Queue → Queue) (s : State) : (modQueue q f s).err = s.err := rfl
@[simp] theorem modQueue_csb (q : Nat) (f : Queue → Queue) (s : State) : (modQueue q f s).csb = s.csb := rfl
@[simp] theorem modQueue_cmb (q : Nat) (f : Queue → Queue) (s : State) : (modQueue q f s).cmb = s.cmb := rfl
@[simp] theorem modQueue_ports (q : Nat) (f : Queue → Queue) (s : State) : (modQueue q f s).ports = s.ports := rfl
@[simp] theorem modQueue_freeCtr (q : Nat) (f : Queue → Queue) (s : State) : (modQueue q f s).freeCtr = s.freeCtr := rfl
@[simp] theorem modQueue_pending (q : Nat) (f : Queue → Queue) (s : State) : (modQueue q f s).pending = s.pending := rfl
@[simp] theorem modQueue_fe (q : Nat) (f : Queue → Queue) (s : State) : (modQueue q f s).fe = { s.fe with q := tmod {} s.fe.q q f } := rfl
@[simp] theorem modReg_blk (r : Nat) (f : Reg → Reg) (s : State) : (modReg r f s).blk = s.blk := rfl
@[simp] theorem modReg_regs (r : Nat) (f : Reg → Reg) (s : State) : (modReg r f s).regs = s.regs := rfl
@[simp] theorem modReg_mem (r : Nat) (f : Reg → Reg) (s : State) : (modReg r f s).mem = s.mem := rfl
@[simp] theorem modReg_arr (r : Nat) (f : Reg → Reg) (s : State) : (modReg r f s).arr = s.arr := rfl
@[simp] theorem modReg_lce (r : Nat) (f : Reg → Reg) (s : State) : (modReg r f s).lce = s.lce := rfl
@[simp] theorem modReg_fab (r : Nat) (f : Reg → Reg) (s : State) : (modReg r f s).fab = s.fab := rfl
@[simp] theorem modReg_sg (r : Nat) (f : Reg → Reg) (s : State) : (modReg r f s).sg = s.sg := rfl
@[simp] theorem modReg_fe (r : Nat) (f : Reg → Reg) (s : State) : (modReg r f s).fe = s.fe := rfl
@[simp] theorem modReg_tw (r : Nat) (f : Reg → Reg) (s : State) : (modReg r f s).tw = s.tw := rfl
@[simp] theorem modReg_ic (r : Nat) (f : Reg → Reg) (s : State) : (modReg r f s).ic = s.ic := rfl
@[simp] theorem modReg_mbx (r : Nat) (f : Reg → Reg) (s : State) : (modReg r f s).mbx = s.mbx := rfl
@[simp] theorem modReg_fw (r : Nat) (f : Reg → Reg) (s : State) : (modReg r f s).fw = s.fw := rfl
@[simp] theorem modReg_pm (r : Nat) (f : Reg → Reg) (s : State) : (modReg r f s).pm = s.pm := rfl
@[simp] theorem modReg_err (r : Nat) (f : Reg → Reg) (s : State) : (modReg r f s).err = s.err := rfl
@[simp] theorem modReg_csb (r : Nat) (f : Reg → Reg) (s : State) : (modReg r f s).csb = s.csb := rfl
@[simp] theorem modReg_cmb (r : Nat) (f : Reg → Reg) (s : State) : (modReg r f s).cmb = s.cmb := rfl
@[simp] theorem modReg_ports (r : Nat) (f : Reg → Reg) (s : State) : (modReg r f s).ports = s.ports := rfl
@[simp] theorem modReg_freeCtr (r : Nat) (f : Reg → Reg) (s : State) : (modReg r f s).freeCtr = s.freeCtr := rfl
@[simp] theorem modReg_pending (r : Nat) (f : Reg → Reg) (s : State) : (modReg r f s).pending = s.pending := rfl
@[simp] theorem modReg_rg (r : Nat) (f : Reg → Reg) (s : State) : (modReg r f s).rg = { s.rg with reg := tmod {} s.rg.reg r f } := rfl
@[simp] theorem modRunQ_blk (c r : Nat) (f : RunQ → RunQ) (s : State) : (modRunQ c r f s).blk = s.blk := rfl
@[simp] theorem modRunQ_regs (c r : Nat) (f : RunQ → RunQ) (s : State) : (modRunQ c r f s).regs = s.regs := rfl
@[simp] theorem modRunQ_mem (c r : Nat) (f : RunQ → RunQ) (s : State) : (modRunQ c r f s).mem = s.mem := rfl
@[simp] theorem modRunQ_arr (c r : Nat) (f : RunQ → RunQ) (s : State) : (modRunQ c r f s).arr = s.arr := rfl
@[simp] theorem modRunQ_lce (c r : Nat) (f : RunQ → RunQ) (s : State) : (modRunQ c r f s).lce = s.lce := rfl
@[simp] theorem modRunQ_fab (c r : Nat) (f : RunQ → RunQ) (s : State) : (modRunQ c r f s).fab = s.fab := rfl
@[simp] theorem modRunQ_sg (c r : Nat) (f : RunQ → RunQ) (s : State) : (modRunQ c r f s).sg = s.sg := rfl
@[simp] theorem modRunQ_fe (c r : Nat) (f : RunQ → RunQ) (s : State) : (modRunQ c r f s).fe = s.fe := rfl
@[simp] theorem modRunQ_tw (c r : Nat) (f : RunQ → RunQ) (s : State) : (modRunQ c r f s).tw = s.tw := rfl
@[simp] theorem modRunQ_ic (c r : Nat) (f : RunQ → RunQ) (s : State) : (modRunQ c r f s).ic = s.ic := rfl
@[simp] theorem modRunQ_mbx (c r : Nat) (f : RunQ → RunQ) (s : State) : (modRunQ c r f s).mbx = s.mbx := rfl
@[simp] theorem modRunQ_fw (c r : Nat) (f : RunQ → RunQ) (s : State) : (modRunQ c r f s).fw = s.fw := rfl
@[simp] theorem modRunQ_pm (c r : Nat) (f : RunQ → RunQ) (s : State) : (modRunQ c r f s).pm = s.pm := rfl
@[simp] theorem modRunQ_err (c r : Nat) (f : RunQ → RunQ) (s : State) : (modRunQ c r f s).err = s.err := rfl
@[simp] theorem modRunQ_csb (c r : Nat) (f : RunQ → RunQ) (s : State) : (modRunQ c r f s).csb = s.csb := rfl
@[simp] theorem modRunQ_cmb (c r : Nat) (f : RunQ → RunQ) (s : State) : (modRunQ c r f s).cmb = s.cmb := rfl
@[simp] theorem modRunQ_ports (c r : Nat) (f : RunQ → RunQ) (s : State) : (modRunQ c r f s).ports = s.ports := rfl
@[simp] theorem modRunQ_freeCtr (c r : Nat) (f : RunQ → RunQ) (s : State) : (modRunQ c r f s).freeCtr = s.freeCtr := rfl
@[simp] theorem modRunQ_pending (c r : Nat) (f : RunQ → RunQ) (s : State) : (modRunQ c r f s).pending = s.pending := rfl
@[simp] theorem modRunQ_rg (c r : Nat) (f : RunQ → RunQ) (s : State) : (modRunQ c r f s).rg = { s.rg with queue := tmod {} s.rg.queue (14 * c + r) f } := rfl
@[simp] theorem modSector_blk (n : Nat) (f : SectorRun → SectorRun) (s : State) : (modSector n f s).blk = s.blk := rfl
@[simp] theorem modSector_regs (n : Nat) (f : SectorRun → SectorRun) (s : State) : (modSector n f s).regs = s.regs := rfl
@[simp] theorem modSector_mem (n : Nat) (f : SectorRun → SectorRun) (s : State) : (modSector n f s).mem = s.mem := rfl
@[simp] theorem modSector_rg (n : Nat) (f : SectorRun → SectorRun) (s : State) : (modSector n f s).rg = s.rg := rfl
@[simp] theorem modSector_arr (n : Nat) (f : SectorRun → SectorRun) (s : State) : (modSector n f s).arr = s.arr := rfl
@[simp] theorem modSector_lce (n : Nat) (f : SectorRun → SectorRun) (s : State) : (modSector n f s).lce = s.lce := rfl
@[simp] theorem modSector_fab (n : Nat) (f : SectorRun → SectorRun) (s : State) : (modSector n f s).fab = s.fab := rfl
@[simp] theorem modSector_sg (n : Nat) (f : SectorRun → SectorRun) (s : State) : (modSector n f s).sg = s.sg := rfl
@[simp] theorem modSector_fe (n : Nat) (f : SectorRun → SectorRun) (s : State) : (modSector n f s).fe = s.fe := rfl
@[simp] theorem modSector_tw (n : Nat) (f : SectorRun → SectorRun) (s : State) : (modSector n f s).tw = s.tw := rfl
@[simp] theorem modSector_ic (n : Nat) (f : SectorRun → SectorRun) (s : State) : (modSector n f s).ic = s.ic := rfl
@[simp] theorem modSector_mbx (n : Nat) (f : SectorRun → SectorRun) (s : State) : (modSector n f s).mbx = s.mbx := rfl
@[simp] theorem modSector_pm (n : Nat) (f : SectorRun → SectorRun) (s : State) : (modSector n f s).pm = s.pm := rfl
@[simp] theorem modSector_err (n : Nat) (f : SectorRun → SectorRun) (s : State) : (modSector n f s).err = s.err := rfl
@[simp] theorem modSector_csb (n : Nat) (f : SectorRun → SectorRun) (s : State) : (modSector n f s).csb = s.csb := rfl
@[simp] theorem modSector_cmb (n : Nat) (f : SectorRun → SectorRun) (s : State) : (modSector n f s).cmb = s.cmb := rfl
@[simp] theorem modSector_ports (n : Nat) (f : SectorRun → SectorRun) (s : State) : (modSector n f s).ports = s.ports := rfl
@[simp] theorem modSector_freeCtr (n : Nat) (f : SectorRun → SectorRun) (s : State) : (modSector n f s).freeCtr = s.freeCtr := rfl
@[simp] theorem modSector_pending (n : Nat) (f : SectorRun → SectorRun) (s : State) : (modSector n f s).pending = s.pending := rfl
@[simp] theorem modSector_fw (n : Nat) (f : SectorRun → SectorRun) (s : State) : (modSector n f s).fw = { s.fw with sector := tmod {} s.fw.sector n f } := rfl
@[simp] theorem modSrc_blk (n : Nat) (f : Src → Src) (s : State) : (modSrc n f s).blk = s.blk := rfl
@[simp] theorem modSrc_regs (n : Nat) (f : Src → Src) (s : State) : (modSrc n f s).regs = s.regs := rfl
@[simp] theorem modSrc_mem (n : Nat) (f : Src → Src) (s : State) : (modSrc n f s).mem = s.mem := rfl
@[simp] theorem modSrc_rg (n : Nat) (f : Src → Src) (s : State) : (modSrc n f s).rg = s.rg := rfl
@[simp] theorem modSrc_arr (n : Nat) (f : Src → Src) (s : State) : (modSrc n f s).arr = s.arr := rfl
@[simp] theorem modSrc_lce (n : Nat) (f : Src → Src) (s : State) : (modSrc n f s).lce = s.lce := rfl
@[simp] theorem modSrc_fab (n : Nat) (f : Src → Src) (s : State) : (modSrc n f s).fab = s.fab := rfl
@[simp] theorem modSrc_sg (n : Nat) (f : Src → Src) (s : State) : (modSrc n f s).sg = s.sg := rfl
@[simp] theorem modSrc_fe (n : Nat) (f : Src → Src) (s : State) : (modSrc n f s).fe = s.fe := rfl
@[simp] theorem modSrc_tw (n : Nat) (f : Src → Src) (s : State) : (modSrc n f s).tw = s.tw := rfl
@[simp] theorem modSrc_mbx (n : Nat) (f : Src → Src) (s : State) : (modSrc n f s).mbx = s.mbx := rfl
@[simp] theorem modSrc_fw (n : Nat) (f : Src → Src) (s : State) : (modSrc n f s).fw = s.fw := rfl
@[simp] theorem modSrc_pm (n : Nat) (f : Src → Src) (s : State) : (modSrc n f s).pm = s.pm := rfl
@[simp] theorem modSrc_err (n : Nat) (f : Src → Src) (s : State) : (modSrc n f s).err = s.err := rfl
@[simp] theorem modSrc_csb (n : Nat) (f : Src → Src) (s : State) : (modSrc n f s).csb = s.csb := rfl
@[simp] theorem modSrc_cmb (n : Nat) (f : Src → Src) (s : State) : (modSrc n f s).cmb = s.cmb := rfl
@[simp] theorem modSrc_ports (n : Nat) (f : Src → Src) (s : State) : (modSrc n f s).ports = s.ports := rfl
@[simp] theorem modSrc_freeCtr (n : Nat) (f : Src → Src) (s : State) : (modSrc n f s).freeCtr = s.freeCtr := rfl
@[simp] theorem modSrc_pending (n : Nat) (f : Src → Src) (s : State) : (modSrc n f s).pending = s.pending := rfl
@[simp] theorem modSrc_ic (n : Nat) (f : Src → Src) (s : State) : (modSrc n f s).ic = { s.ic with src := tmod {} s.ic.src n f } := rfl
@[simp] theorem modStack_blk (n : Nat) (f : Stack → Stack) (s : State) : (modStack n f s).blk = s.blk := rfl
@[simp] theorem modStack_regs (n : Nat) (f : Stack → Stack) (s : State) : (modStack n f s).regs = s.regs := rfl
@[simp] theorem modStack_rg (n : Nat) (f : Stack → Stack) (s : State) : (modStack n f s).rg = s.rg := rfl
@[simp] theorem modStack_arr (n : Nat) (f : Stack → Stack) (s : State) : (modStack n f s).arr = s.arr := rfl
@[simp] theorem modStack_lce (n : Nat) (f : Stack → Stack) (s : State) : (modStack n f s).lce = s.lce := rfl
@[simp] theorem modStack_fab (n : Nat) (f : Stack → Stack) (s : State) : (modStack n f s).fab = s.fab := rfl
@[simp] theorem modStack_sg (n : Nat) (f : Stack → Stack) (s : State) : (modStack n f s).sg = s.sg := rfl
@[simp] theorem modStack_fe (n : Nat) (f : Stack → Stack) (s : State) : (modStack n f s).fe = s.fe := rfl
@[simp] theorem modStack_tw (n : Nat) (f : Stack → Stack) (s : State) : (modStack n f s).tw = s.tw := rfl
@[simp] theorem modStack_ic (n : Nat) (f : Stack → Stack) (s : State) : (modStack n f s).ic = s.ic := rfl
@[simp] theorem modStack_mbx (n : Nat) (f : Stack → Stack) (s : State) : (modStack n f s).mbx = s.mbx := rfl
@[simp] theorem modStack_fw (n : Nat) (f : Stack → Stack) (s : State) : (modStack n f s).fw = s.fw := rfl
@[simp] theorem modStack_pm (n : Nat) (f : Stack → Stack) (s : State) : (modStack n f s).pm = s.pm := rfl
@[simp] theorem modStack_err (n : Nat) (f : Stack → Stack) (s : State) : (modStack n f s).err = s.err := rfl
@[simp] theorem modStack_csb (n : Nat) (f : Stack → Stack) (s : State) : (modStack n f s).csb = s.csb := rfl
@[simp] theorem modStack_cmb (n : Nat) (f : Stack → Stack) (s : State) : (modStack n f s).cmb = s.cmb := rfl
@[simp] theorem modStack_ports (n : Nat) (f : Stack → Stack) (s : State) : (modStack n f s).ports = s.ports := rfl
@[simp] theorem modStack_freeCtr (n : Nat) (f : Stack → Stack) (s : State) : (modStack n f s).freeCtr = s.freeCtr := rfl
@[simp] theorem modStack_pending (n : Nat) (f : Stack → Stack) (s : State) : (modStack n f s).pending = s.pending := rfl
@[simp] theorem modStack_mem (n : Nat) (f : Stack → Stack) (s : State) : (modStack n f s).mem = { s.mem with stack := tmod {} s.mem.stack n f } := rfl
@[simp] theorem modTask_blk (seq : Nat) (f : Task → Task) (s : State) : (modTask seq f s).blk = s.blk := rfl
@[simp] theorem modTask_regs (seq : Nat) (f : Task → Task) (s : State) : (modTask seq f s).regs = s.regs := rfl
@[simp] theorem modTask_mem (seq : Nat) (f : Task → Task) (s : State) : (modTask seq f s).mem = s.mem := rfl
@[simp] theorem modTask_rg (seq : Nat) (f : Task → Task) (s : State) : (modTask seq f s).rg = s.rg := rfl
@[simp] theorem modTask_arr (seq : Nat) (f : Task → Task) (s : State) : (modTask seq f s).arr = s.arr := rfl
@[simp] theorem modTask_lce (seq : Nat) (f : Task → Task) (s : State) : (modTask seq f s).lce = s.lce := rfl
@[simp] theorem modTask_fab (seq : Nat) (f : Task → Task) (s : State) : (modTask seq f s).fab = s.fab := rfl
@[simp] theorem modTask_sg (seq : Nat) (f : Task → Task) (s : State) : (modTask seq f s).sg = s.sg := rfl
@[simp] theorem modTask_tw (seq : Nat) (f : Task → Task) (s : State) : (modTask seq f s).tw = s.tw := rfl
@[simp] theorem modTask_ic (seq : Nat) (f : Task → Task) (s : State) : (modTask seq f s).ic = s.ic := rfl
@[simp] theorem modTask_mbx (seq : Nat) (f : Task → Task) (s : State) : (modTask seq f s).mbx = s.mbx := rfl
@[simp] theorem modTask_fw (seq : Nat) (f : Task → Task) (s : State) : (modTask seq f s).fw = s.fw := rfl
@[simp] theorem modTask_pm (seq : Nat) (f : Task → Task) (s : State) : (modTask seq f s).pm = s.pm := rfl
@[simp] theorem modTask_err (seq : Nat) (f : Task → Task) (s : State) : (modTask seq f s).err = s.err := rfl
@[simp] theorem modTask_csb (seq : Nat) (f : Task → Task) (s : State) : (modTask seq f s).csb = s.csb := rfl
@[simp] theorem modTask_cmb (seq : Nat) (f : Task → Task) (s : State) : (modTask seq f s).cmb = s.cmb := rfl
@[simp] theorem modTask_ports (seq : Nat) (f : Task → Task) (s : State) : (modTask seq f s).ports = s.ports := rfl
@[simp] theorem modTask_freeCtr (seq : Nat) (f : Task → Task) (s : State) : (modTask seq f s).freeCtr = s.freeCtr := rfl
@[simp] theorem modTask_pending (seq : Nat) (f : Task → Task) (s : State) : (modTask seq f s).pending = s.pending := rfl
@[simp] theorem modTask_fe (seq : Nat) (f : Task → Task) (s : State) : (modTask seq f s).fe = { s.fe with tasks := s.fe.tasks.map (fun t => if t.seq = seq then f t else t) } := rfl
@[simp] theorem modTg_blk (c : Nat) (f : Tg → Tg) (s : State) : (modTg c f s).blk = s.blk := rfl
@[simp] theorem modTg_regs (c : Nat) (f : Tg → Tg) (s : State) : (modTg c f s).regs = s.regs := rfl
@[simp] theorem modTg_rg (c : Nat) (f : Tg → Tg) (s : State) : (modTg c f s).rg = s.rg := rfl
@[simp] theorem modTg_arr (c : Nat) (f : Tg → Tg) (s : State) : (modTg c f s).arr = s.arr := rfl
@[simp] theorem modTg_lce (c : Nat) (f : Tg → Tg) (s : State) : (modTg c f s).lce = s.lce := rfl
@[simp] theorem modTg_fab (c : Nat) (f : Tg → Tg) (s : State) : (modTg c f s).fab = s.fab := rfl
@[simp] theorem modTg_sg (c : Nat) (f : Tg → Tg) (s : State) : (modTg c f s).sg = s.sg := rfl
@[simp] theorem modTg_fe (c : Nat) (f : Tg → Tg) (s : State) : (modTg c f s).fe = s.fe := rfl
@[simp] theorem modTg_tw (c : Nat) (f : Tg → Tg) (s : State) : (modTg c f s).tw = s.tw := rfl
@[simp] theorem modTg_ic (c : Nat) (f : Tg → Tg) (s : State) : (modTg c f s).ic = s.ic := rfl
@[simp] theorem modTg_mbx (c : Nat) (f : Tg → Tg) (s : State) : (modTg c f s).mbx = s.mbx := rfl
@[simp] theorem modTg_fw (c : Nat) (f : Tg → Tg) (s : State) : (modTg c f s).fw = s.fw := rfl
@[simp] theorem modTg_pm (c : Nat) (f : Tg → Tg) (s : State) : (modTg c f s).pm = s.pm := rfl
@[simp] theorem modTg_err (c : Nat) (f : Tg → Tg) (s : State) : (modTg c f s).err = s.err := rfl
@[simp] theorem modTg_csb (c : Nat) (f : Tg → Tg) (s : State) : (modTg c f s).csb = s.csb := rfl
@[simp] theorem modTg_cmb (c : Nat) (f : Tg → Tg) (s : State) : (modTg c f s).cmb = s.cmb := rfl
@[simp] theorem modTg_ports (c : Nat) (f : Tg → Tg) (s : State) : (modTg c f s).ports = s.ports := rfl
@[simp] theorem modTg_freeCtr (c : Nat) (f : Tg → Tg) (s : State) : (modTg c f s).freeCtr = s.freeCtr := rfl
@[simp] theorem modTg_pending (c : Nat) (f : Tg → Tg) (s : State) : (modTg c f s).pending = s.pending := rfl
@[simp] theorem modTg_mem (c : Nat) (f : Tg → Tg) (s : State) : (modTg c f s).mem = { s.mem with tg := tmod {} s.mem.tg c f } := rfl
@[simp] theorem modVai_blk (v : Nat) (f : Vai → Vai) (s : State) : (modVai v f s).blk = s.blk := rfl
@[simp] theorem modVai_regs (v : Nat) (f : Vai → Vai) (s : State) : (modVai v f s).regs = s.regs := rfl
@[simp] theorem modVai_mem (v : Nat) (f : Vai → Vai) (s : State) : (modVai v f s).mem = s.mem := rfl
@[simp] theorem modVai_rg (v : Nat) (f : Vai → Vai) (s : State) : (modVai v f s).rg = s.rg := rfl
@[simp] theorem modVai_arr (v : Nat) (f : Vai → Vai) (s : State) : (modVai v f s).arr = s.arr := rfl
@[simp] theorem modVai_lce (v : Nat) (f : Vai → Vai) (s : State) : (modVai v f s).lce = s.lce := rfl
@[simp] theorem modVai_fab (v : Nat) (f : Vai → Vai) (s : State) : (modVai v f s).fab = s.fab := rfl
@[simp] theorem modVai_sg (v : Nat) (f : Vai → Vai) (s : State) : (modVai v f s).sg = s.sg := rfl
@[simp] theorem modVai_tw (v : Nat) (f : Vai → Vai) (s : State) : (modVai v f s).tw = s.tw := rfl
@[simp] theorem modVai_ic (v : Nat) (f : Vai → Vai) (s : State) : (modVai v f s).ic = s.ic := rfl
@[simp] theorem modVai_mbx (v : Nat) (f : Vai → Vai) (s : State) : (modVai v f s).mbx = s.mbx := rfl
@[simp] theorem modVai_fw (v : Nat) (f : Vai → Vai) (s : State) : (modVai v f s).fw = s.fw := rfl
@[simp] theorem modVai_pm (v : Nat) (f : Vai → Vai) (s : State) : (modVai v f s).pm = s.pm := rfl
@[simp] theorem modVai_err (v : Nat) (f : Vai → Vai) (s : State) : (modVai v f s).err = s.err := rfl
@[simp] theorem modVai_csb (v : Nat) (f : Vai → Vai) (s : State) : (modVai v f s).csb = s.csb := rfl
@[simp] theorem modVai_cmb (v : Nat) (f : Vai → Vai) (s : State) : (modVai v f s).cmb = s.cmb := rfl
@[simp] theorem modVai_ports (v : Nat) (f : Vai → Vai) (s : State) : (modVai v f s).ports = s.ports := rfl
@[simp] theorem modVai_freeCtr (v : Nat) (f : Vai → Vai) (s : State) : (modVai v f s).freeCtr = s.freeCtr := rfl
@[simp] theorem modVai_pending (v : Nat) (f : Vai → Vai) (s : State) : (modVai v f s).pending = s.pending := rfl
@[simp] theorem modVai_fe (v : Nat) (f : Vai → Vai) (s : State) : (modVai v f s).fe = { s.fe with vai := tmod {} s.fe.vai v f } := rfl
@[simp] theorem regSet_blk (off v : Nat) (s : State) : (regSet off v s).blk = s.blk := rfl
@[simp] theorem regSet_mem (off v : Nat) (s : State) : (regSet off v s).mem = s.mem := rfl
@[simp] theorem regSet_rg (off v : Nat) (s : State) : (regSet off v s).rg = s.rg := rfl
@[simp] theorem regSet_arr (off v : Nat) (s : State) : (regSet off v s).arr = s.arr := rfl
@[simp] theorem regSet_lce (off v : Nat) (s : State) : (regSet off v s).lce = s.lce := rfl
@[simp] theorem regSet_fab (off v : Nat) (s : State) : (regSet off v s).fab = s.fab := rfl
@[simp] theorem regSet_sg (off v : Nat) (s : State) : (regSet off v s).sg = s.sg := rfl
@[simp] theorem regSet_fe (off v : Nat) (s : State) : (regSet off v s).fe = s.fe := rfl
@[simp] theorem regSet_tw (off v : Nat) (s : State) : (regSet off v s).tw = s.tw := rfl
@[simp] theorem regSet_ic (off v : Nat) (s : State) : (regSet off v s).ic = s.ic := rfl
@[simp] theorem regSet_mbx (off v : Nat) (s : State) : (regSet off v s).mbx = s.mbx := rfl
@[simp] theorem regSet_fw (off v : Nat) (s : State) : (regSet off v s).fw = s.fw := rfl
@[simp] theorem regSet_pm (off v : Nat) (s : State) : (regSet off v s).pm = s.pm := rfl
@[simp] theorem regSet_err (off v : Nat) (s : State) : (regSet off v s).err = s.err := rfl
@[simp] theorem regSet_csb (off v : Nat) (s : State) : (regSet off v s).csb = s.csb := rfl
@[simp] theorem regSet_cmb (off v : Nat) (s : State) : (regSet off v s).cmb = s.cmb := rfl
@[simp] theorem regSet_ports (off v : Nat) (s : State) : (regSet off v s).ports = s.ports := rfl
@[simp] theorem regSet_freeCtr (off v : Nat) (s : State) : (regSet off v s).freeCtr = s.freeCtr := rfl
@[simp] theorem regSet_pending (off v : Nat) (s : State) : (regSet off v s).pending = s.pending := rfl
@[simp] theorem regSet_regs (off v : Nat) (s : State) : (regSet off v s).regs = tset (w32 (regReset off)) s.regs off (w32 v) := rfl
@[simp] theorem wakeBlock_blk  (s : State) : (wakeBlock  s).blk = s.blk := rfl
@[simp] theorem wakeBlock_regs  (s : State) : (wakeBlock  s).regs = s.regs := rfl
@[simp] theorem wakeBlock_mem  (s : State) : (wakeBlock  s).mem = s.mem := rfl
@[simp] theorem wakeBlock_rg  (s : State) : (wakeBlock  s).rg = s.rg := rfl
@[simp] theorem wakeBlock_arr  (s : State) : (wakeBlock  s).arr = s.arr := rfl
@[simp] theorem wakeBlock_lce  (s : State) : (wakeBlock  s).lce = s.lce := rfl
@[simp] theorem wakeBlock_fab  (s : State) : (wakeBlock  s).fab = s.fab := rfl
@[simp] theorem wakeBlock_sg  (s : State) : (wakeBlock  s).sg = s.sg := rfl
@[simp] theorem wakeBlock_fe  (s : State) : (wakeBlock  s).fe = s.fe := rfl
@[simp] theorem wakeBlock_tw  (s : State) : (wakeBlock  s).tw = s.tw := rfl
@[simp] theorem wakeBlock_ic  (s : State) : (wakeBlock  s).ic = s.ic := rfl
@[simp] theorem wakeBlock_mbx  (s : State) : (wakeBlock  s).mbx = s.mbx := rfl
@[simp] theorem wakeBlock_fw  (s : State) : (wakeBlock  s).fw = s.fw := rfl
@[simp] theorem wakeBlock_err  (s : State) : (wakeBlock  s).err = s.err := rfl
@[simp] theorem wakeBlock_csb  (s : State) : (wakeBlock  s).csb = s.csb := rfl
@[simp] theorem wakeBlock_cmb  (s : State) : (wakeBlock  s).cmb = s.cmb := rfl
@[simp] theorem wakeBlock_ports  (s : State) : (wakeBlock  s).ports = s.ports := rfl
@[simp] theorem wakeBlock_freeCtr  (s : State) : (wakeBlock  s).freeCtr = s.freeCtr := rfl
@[simp] theorem wakeBlock_pending  (s : State) : (wakeBlock  s).pending = s.pending := rfl
@[simp] theorem wakeBlock_pm  (s : State) : (wakeBlock  s).pm = { s.pm with block := 0 } := rfl

end Sys2Proof.Laws
end

