-- ==== Sys2Proof/Laws/Basic.lean ====
section
/-!
SUPPORT. Facts that most statements need: a live block acts, a footprint is a frame, reading an array after changing it, and
what a report leaves in the collector.
-/
namespace Sys2Proof.Laws
open Sys2Proof Sys2Proof.Machine

theorem run_live {s : State} (f : State → State) (h : Live s) : run s f = .next (f s) := by
  simp [run, h.1, h.2]

theorem run_halted {s : State} (f : State → State) (h : s.blk.coldLow = true ∨ s.blk.stopped = true) :
    run s f = .next s := by
  rcases h with h | h <;> simp [run, h]

@[simp] theorem guarded_true (f : State → State) (s : State) : guarded true f s = f s := rfl
@[simp] theorem guarded_false (f : State → State) (s : State) : guarded false f s = s := rfl

theorem planeUp_of_computeOn {s : State} (h : computeOn s = true) : planeUp s = true := by
  simp only [computeOn, Bool.and_eq_true] at h
  exact h.1

/-- A footprint is a frame. -/
theorem Foot.frame {W : List Area} {s t : State} (h : Foot W s t) : Frame W s t := by
  intro a ha
  cases a
  case cells =>
    have e := h.cells.resolve_left ha
    simp only [Prod.mk.injEq] at e
    exact ⟨fun x => by rw [e.1], e.2⟩
  case blk => exact h.blk.resolve_left ha
  case regs => exact h.regs.resolve_left ha
  case mem => exact h.mem.resolve_left ha
  case rg => exact h.rg.resolve_left ha
  case arr => exact h.arr.resolve_left ha
  case lce => exact h.lce.resolve_left ha
  case fab => exact h.fab.resolve_left ha
  case sg => exact h.sg.resolve_left ha
  case fe => exact h.fe.resolve_left ha
  case tw => exact h.tw.resolve_left ha
  case ic => exact h.ic.resolve_left ha
  case mbx => exact h.mbx.resolve_left ha
  case fw => exact h.fw.resolve_left ha
  case pm => exact h.pm.resolve_left ha
  case err => exact h.err.resolve_left ha
  case csb => exact h.csb.resolve_left ha
  case cmb => exact h.cmb.resolve_left ha
  case ports => exact h.ports.resolve_left ha
  case freeCtr => exact h.freeCtr.resolve_left ha

/-! ## Tables -/

section
variable {α : Type} [DecidableEq α]

/-- A write leaves every other number alone, whatever the order of the table. -/
theorem tget_tset_ne (d e : α) (t : Tbl α) (i j : Nat) (v : α) (h : j ≠ i) : tget d (tset e t i v) j = tget d t j := by
  induction t with
  | nil => grind [tset, tget]
  | cons p r ih =>
    obtain ⟨k, w⟩ := p
    grind [tset, tget]

/-- A number reads as written when that is not the value of an unlisted number. -/
theorem tget_tset_eq (d : α) (t : Tbl α) (i : Nat) (v : α) (h : v ≠ d) : tget d (tset d t i v) i = v := by
  induction t with
  | nil => grind [tset, tget]
  | cons p r ih =>
    obtain ⟨k, w⟩ := p
    grind [tset, tget]

theorem tset_mem_self (d : α) (t : Tbl α) (i : Nat) (v : α) (h : v ≠ d) : (i, v) ∈ tset d t i v := by
  induction t with
  | nil => simp [tset, h]
  | cons p r ih =>
    obtain ⟨k, w⟩ := p
    grind [tset]
end

/-! ## Arrays -/

theorem arrAt_modArr (p : Nat) (f : Arr → Arr) (s : State) (h : f (arrAt s p) ≠ {}) :
    arrAt (modArr p f s) p = f (arrAt s p) := by
  simp only [arrAt, modArr, tmod] at h ⊢
  exact tget_tset_eq _ _ _ _ h

theorem arrAt_modArr_ne (p q : Nat) (f : Arr → Arr) (s : State) (h : q ≠ p) : arrAt (modArr p f s) q = arrAt s q := by
  simp only [arrAt, modArr, tmod]
  exact tget_tset_ne _ _ _ _ _ _ h

/-- An array that changes and keeps its task: all that the change does. -/
theorem modArr_now (p : Nat) (f : Arr → Arr) (s : State) (h : (f (arrAt s p)).task ≠ none) :
    ArrayNow s (modArr p f s) p (f (arrAt s p)) := by
  refine ⟨arrAt_modArr p f s (fun e => h (by rw [e])), fun q hq => arrAt_modArr_ne p q f s hq, ?_⟩
  intro a ha
  cases a <;> first | rfl | (exact ⟨fun x => rfl, rfl, rfl⟩) | exact absurd (by simp) ha

/-- The array that executes has its task. -/
theorem Executes.task {u s : State} {es : List LsError} {l p : Nat} {t : Task} {w c o : Nat} (h : Executes u es s l p t w c o) :
    ∃ q, (arrAt s p).task = some q := by
  obtain ⟨-, -, -, -, e, -⟩ := h
  unfold executing at e
  split at e
  · contradiction
  · rename_i p' _
    dsimp only at e
    split at e
    · cases hx : (arrAt s p').task with
      | none => simp [hx] at e
      | some q =>
        simp only [Option.map_eq_some_iff, Prod.mk.injEq] at e
        obtain ⟨_, _, rfl, _⟩ := e
        exact ⟨q, hx⟩
    · contradiction

/-- The array that executes stands at no stalled instruction. -/
theorem Executes.stall {u s : State} {es : List LsError} {l p : Nat} {t : Task} {w c o : Nat} (h : Executes u es s l p t w c o) :
    (arrAt s p).stall = .none := by
  obtain ⟨-, -, -, -, e, -⟩ := h
  unfold executing at e
  split at e
  · contradiction
  · dsimp only at e
    split at e
    · rename_i hc
      simp only [Option.map_eq_some_iff, Prod.mk.injEq] at e
      obtain ⟨_, _, rfl, _⟩ := e
      simp only [Bool.and_eq_true, beq_iff_eq] at hc
      exact hc.1.1.1
    · contradiction

/-- An operation that executes: what `exec` answers. -/
theorem arrayOp_run {u s : State} {es : List LsError} {l p : Nat} {t : Task} {w c o : Nat} (h : Executes u es s l p t w c o)
    (mods : Nat → Bool) (f : Nat → Task → Nat → State → State) :
    run u (arrayOp l es c o mods f) = .next (if mods (opMod w) then f p t w s else faultOn p t.seq .faultFormat s) := by
  obtain ⟨hl, hc, -, hs, he, hf, h1, h2⟩ := h
  rw [run_live _ hl]
  simp only [arrayOp, guarded, hc, ← hs, he, hf, h1, h2, and_self, if_true]

/-! ## The collector -/

theorem arrive_err (n : Nat) (s : State) : (arrive n s).err = s.err := rfl

/-- After a corrected or informational report the collector holds an open record of its key. -/
theorem report_logged (kind index type cls : Nat) (conf : Bool) (detail : Nat) (s : State) (h : LogRoom s) (ht : type ≠ 0) :
    Logged kind index type (report kind index type cls conf detail s) := by
  obtain ⟨hh, htl, hr⟩ := h
  unfold report
  split
  · rename_i i r hf
    have hp := List.find?_some hf
    have hm := List.mem_of_find?_eq_some hf
    simp only [Bool.and_eq_true, decide_eq_true_eq] at hp
    refine ⟨_, tset_mem_self noRec _ i _ ?_, ?_, ?_, ?_, ?_⟩
    · intro e
      have := congrArg ErrRec.type e
      simp only [noRec] at this
      exact ht (by rw [← hp.2.2.2]; exact this)
    · exact hp.1
    · exact hp.2.1
    · exact hp.2.2.1
    · exact hp.2.2.2
  · have hle : ¬ (openRecs s ≥ if cls = 0 then 3840 else 4096) := by split <;> omega
    rw [if_neg hle]
    dsimp only
    unfold Logged
    simp only [arrive_err]
    refine ⟨_, tset_mem_self noRec _ (s.err.tail % 4096) _ ?_, ?_, rfl, rfl, rfl⟩
    · intro e
      have := congrArg ErrRec.type e
      simp only [noRec] at this
      exact ht this
    · unfold slotOpen
      apply decide_eq_true
      simp only [openRecs, arrive_err] at hr ⊢
      omega

end Sys2Proof.Laws
end

