-- ==== Sys2Proof/Laws/FootRegMap.lean ====
section
/-!
SUPPORT. Footprints of the operations of Machine/RegMap.lean.
-/
namespace Sys2Proof.Laws
open Sys2Proof Sys2Proof.Machine
set_option Elab.async false

theorem regSet_foot {W : List Area} {r s : State} (hW : [.regs] ⊆ W) (off : Nat) (v : Nat) (h : Foot W r s) :
    Foot W r (regSet off v s) := by
  unfold regSet
  repeat' first
    | with_reducible assumption
    | intro _
    | with_reducible apply Foot.ite
    | exact Or.inl (hW (by decide))
    | with_reducible exact Or.inr rfl
    | with_reducible exact id
    | with_reducible exact Nat.le_refl _
    | (simp only [Foot.lit_eq]; with_reducible apply Foot.litL rfl)

theorem regWrite_foot {W : List Area} {r s : State} (hW : [.regs] ⊆ W) (off : Nat) (v : Nat) (h : Foot W r s) :
    Foot W r (regWrite off v s) := by
  unfold regWrite
  repeat' first
    | with_reducible assumption
    | intro _
    | with_reducible apply regSet_foot (hW := (less hW))
    | with_reducible apply Foot.ite

end Sys2Proof.Laws
end

