-- ==== Sys2Proof/Laws/FootOps.lean ====
section
/-!
SUPPORT. Footprints of the operations of Machine/Ops.lean.
-/
namespace Sys2Proof.Laws
open Sys2Proof Sys2Proof.Machine
set_option Elab.async false

theorem guarded_foot {W : List Area} {r s : State} (c : Bool) (f : State → State) (h_f : ∀ s', Foot W r s' → Foot W r (f s')) (h : Foot W r s) :
    Foot W r (guarded c f s) := by
  unfold guarded
  repeat' first
    | with_reducible assumption
    | intro _
    | apply h_f
    | with_reducible apply Foot.ite

theorem each_foot {W : List Area} {r s : State} {α : Type} (l : List α) (f : α → State → State) (h_f : ∀ y0 s', Foot W r s' → Foot W r (f y0 s')) (h : Foot W r s) :
    Foot W r (each l f s) := by
  unfold each
  repeat' first
    | with_reducible assumption
    | intro _
    | apply h_f
    | with_reducible apply Foot.ite
    | with_reducible apply Foot.foldl

theorem fresh_foot {W : List Area} {r s : State} (hW : [.freeCtr] ⊆ W) (h : Foot W r s) :
    Foot W r (fresh s).2 := by
  unfold fresh
  repeat' first
    | with_reducible assumption
    | intro _
    | with_reducible apply Foot.ite
    | exact Or.inl (hW (by decide))
    | with_reducible exact Or.inr rfl
    | with_reducible exact id
    | with_reducible exact Nat.le_refl _
    | (simp only [Foot.lit_eq]; with_reducible apply Foot.litL rfl)

theorem emit_foot {W : List Area} {r s : State} (hW : [.ports] ⊆ W) (o : Out) (h : Foot W r s) :
    Foot W r (emit o s) := by
  unfold emit
  repeat' first
    | with_reducible assumption
    | intro _
    | with_reducible apply Foot.ite
    | exact Or.inl (hW (by decide))
    | with_reducible exact Or.inr rfl
    | with_reducible exact id
    | with_reducible exact Nat.le_refl _
    | (simp only [Foot.lit_eq]; with_reducible apply Foot.litL rfl)

theorem oncePerBeat_foot {W : List Area} {r s : State} (hW : [.pm] ⊆ W) (k : Nat) (due : Bool) (f : State → State) (h_f : ∀ s', Foot W r s' → Foot W r (f s')) (h : Foot W r s) :
    Foot W r (oncePerBeat k due f s) := by
  unfold oncePerBeat
  repeat' first
    | with_reducible assumption
    | intro _
    | apply h_f
    | with_reducible apply Foot.ite
    | exact Or.inl (hW (by decide))
    | with_reducible exact Or.inr rfl
    | with_reducible exact id
    | with_reducible exact Nat.le_refl _
    | (simp only [Foot.lit_eq]; with_reducible apply Foot.litL rfl)

theorem modVai_foot {W : List Area} {r s : State} (hW : [.fe] ⊆ W) (v : Nat) (f : Vai → Vai) (h : Foot W r s) :
    Foot W r (modVai v f s) := by
  unfold modVai
  repeat' first
    | with_reducible assumption
    | intro _
    | with_reducible apply Foot.ite
    | exact Or.inl (hW (by decide))
    | with_reducible exact Or.inr rfl
    | with_reducible exact id
    | with_reducible exact Nat.le_refl _
    | (simp only [Foot.lit_eq]; with_reducible apply Foot.litL rfl)

theorem modCtx_foot {W : List Area} {r s : State} (hW : [.fe] ⊆ W) (c : Nat) (f : Ctx → Ctx) (h : Foot W r s) :
    Foot W r (modCtx c f s) := by
  unfold modCtx
  repeat' first
    | with_reducible assumption
    | intro _
    | with_reducible apply Foot.ite
    | exact Or.inl (hW (by decide))
    | with_reducible exact Or.inr rfl
    | with_reducible exact id
    | with_reducible exact Nat.le_refl _
    | (simp only [Foot.lit_eq]; with_reducible apply Foot.litL rfl)

theorem modQueue_foot {W : List Area} {r s : State} (hW : [.fe] ⊆ W) (q : Nat) (f : Queue → Queue) (h : Foot W r s) :
    Foot W r (modQueue q f s) := by
  unfold modQueue
  repeat' first
    | with_reducible assumption
    | intro _
    | with_reducible apply Foot.ite
    | exact Or.inl (hW (by decide))
    | with_reducible exact Or.inr rfl
    | with_reducible exact id
    | with_reducible exact Nat.le_refl _
    | (simp only [Foot.lit_eq]; with_reducible apply Foot.litL rfl)

theorem modFence_foot {W : List Area} {r s : State} (hW : [.fe] ⊆ W) (i : Nat) (f : Fence → Fence) (h : Foot W r s) :
    Foot W r (modFence i f s) := by
  unfold modFence
  repeat' first
    | with_reducible assumption
    | intro _
    | with_reducible apply Foot.ite
    | exact Or.inl (hW (by decide))
    | with_reducible exact Or.inr rfl
    | with_reducible exact id
    | with_reducible exact Nat.le_refl _
    | (simp only [Foot.lit_eq]; with_reducible apply Foot.litL rfl)

theorem modGraph_foot {W : List Area} {r s : State} (hW : [.fe] ⊆ W) (g : Nat) (f : Graph → Graph) (h : Foot W r s) :
    Foot W r (modGraph g f s) := by
  unfold modGraph
  repeat' first
    | with_reducible assumption
    | intro _
    | with_reducible apply Foot.ite
    | exact Or.inl (hW (by decide))
    | with_reducible exact Or.inr rfl
    | with_reducible exact id
    | with_reducible exact Nat.le_refl _
    | (simp only [Foot.lit_eq]; with_reducible apply Foot.litL rfl)

theorem modAlloc_foot {W : List Area} {r s : State} (hW : [.fe] ⊆ W) (a : Nat) (f : Alloc → Alloc) (h : Foot W r s) :
    Foot W r (modAlloc a f s) := by
  unfold modAlloc
  repeat' first
    | with_reducible assumption
    | intro _
    | with_reducible apply Foot.ite
    | exact Or.inl (hW (by decide))
    | with_reducible exact Or.inr rfl
    | with_reducible exact id
    | with_reducible exact Nat.le_refl _
    | (simp only [Foot.lit_eq]; with_reducible apply Foot.litL rfl)

theorem modHq_foot {W : List Area} {r s : State} (hW : [.fe] ⊆ W) (a0 : Nat) (f : Hq → Hq) (h : Foot W r s) :
    Foot W r (modHq a0 f s) := by
  unfold modHq
  repeat' first
    | with_reducible assumption
    | intro _
    | with_reducible apply Foot.ite
    | exact Or.inl (hW (by decide))
    | with_reducible exact Or.inr rfl
    | with_reducible exact id
    | with_reducible exact Nat.le_refl _
    | (simp only [Foot.lit_eq]; with_reducible apply Foot.litL rfl)

theorem modPart_foot {W : List Area} {r s : State} (hW : [.fe] ⊆ W) (p : Nat) (f : Part → Part) (h : Foot W r s) :
    Foot W r (modPart p f s) := by
  unfold modPart
  repeat' first
    | with_reducible assumption
    | intro _
    | with_reducible apply Foot.ite
    | exact Or.inl (hW (by decide))
    | with_reducible exact Or.inr rfl
    | with_reducible exact id
    | with_reducible exact Nat.le_refl _
    | (simp only [Foot.lit_eq]; with_reducible apply Foot.litL rfl)

theorem modPort_foot {W : List Area} {r s : State} (hW : [.fab] ⊆ W) (p : Nat) (f : Port → Port) (h : Foot W r s) :
    Foot W r (modPort p f s) := by
  unfold modPort
  repeat' first
    | with_reducible assumption
    | intro _
    | with_reducible apply Foot.ite
    | exact Or.inl (hW (by decide))
    | with_reducible exact Or.inr rfl
    | with_reducible exact id
    | with_reducible exact Nat.le_refl _
    | (simp only [Foot.lit_eq]; with_reducible apply Foot.litL rfl)

theorem modSrc_foot {W : List Area} {r s : State} (hW : [.ic] ⊆ W) (n : Nat) (f : Src → Src) (h : Foot W r s) :
    Foot W r (modSrc n f s) := by
  unfold modSrc
  repeat' first
    | with_reducible assumption
    | intro _
    | with_reducible apply Foot.ite
    | exact Or.inl (hW (by decide))
    | with_reducible exact Or.inr rfl
    | with_reducible exact id
    | with_reducible exact Nat.le_refl _
    | (simp only [Foot.lit_eq]; with_reducible apply Foot.litL rfl)

theorem modBox_foot {W : List Area} {r s : State} (hW : [.mbx] ⊆ W) (b : Nat) (f : Box → Box) (h : Foot W r s) :
    Foot W r (modBox b f s) := by
  unfold modBox
  repeat' first
    | with_reducible assumption
    | intro _
    | with_reducible apply Foot.ite
    | exact Or.inl (hW (by decide))
    | with_reducible exact Or.inr rfl
    | with_reducible exact id
    | with_reducible exact Nat.le_refl _
    | (simp only [Foot.lit_eq]; with_reducible apply Foot.litL rfl)

theorem modProc_foot {W : List Area} {r s : State} (hW : [.mbx] ⊆ W) (p : Nat) (f : Proc → Proc) (h : Foot W r s) :
    Foot W r (modProc p f s) := by
  unfold modProc
  repeat' first
    | with_reducible assumption
    | intro _
    | with_reducible apply Foot.ite
    | exact Or.inl (hW (by decide))
    | with_reducible exact Or.inr rfl
    | with_reducible exact id
    | with_reducible exact Nat.le_refl _
    | (simp only [Foot.lit_eq]; with_reducible apply Foot.litL rfl)

theorem modLce_foot {W : List Area} {r s : State} (hW : [.lce] ⊆ W) (n : Nat) (f : Lce1 → Lce1) (h : Foot W r s) :
    Foot W r (modLce n f s) := by
  unfold modLce
  repeat' first
    | with_reducible assumption
    | intro _
    | with_reducible apply Foot.ite
    | exact Or.inl (hW (by decide))
    | with_reducible exact Or.inr rfl
    | with_reducible exact id
    | with_reducible exact Nat.le_refl _
    | (simp only [Foot.lit_eq]; with_reducible apply Foot.litL rfl)

theorem modGroup_foot {W : List Area} {r s : State} (hW : [.sg] ⊆ W) (g : Nat) (f : Group → Group) (h : Foot W r s) :
    Foot W r (modGroup g f s) := by
  unfold modGroup
  repeat' first
    | with_reducible assumption
    | intro _
    | with_reducible apply Foot.ite
    | exact Or.inl (hW (by decide))
    | with_reducible exact Or.inr rfl
    | with_reducible exact id
    | with_reducible exact Nat.le_refl _
    | (simp only [Foot.lit_eq]; with_reducible apply Foot.litL rfl)

theorem modChan_foot {W : List Area} {r s : State} (hW : [.mem] ⊆ W) (c : Nat) (f : Chan → Chan) (h : Foot W r s) :
    Foot W r (modChan c f s) := by
  unfold modChan
  repeat' first
    | with_reducible assumption
    | intro _
    | with_reducible apply Foot.ite
    | exact Or.inl (hW (by decide))
    | with_reducible exact Or.inr rfl
    | with_reducible exact id
    | with_reducible exact Nat.le_refl _
    | (simp only [Foot.lit_eq]; with_reducible apply Foot.litL rfl)

theorem modStack_foot {W : List Area} {r s : State} (hW : [.mem] ⊆ W) (n : Nat) (f : Stack → Stack) (h : Foot W r s) :
    Foot W r (modStack n f s) := by
  unfold modStack
  repeat' first
    | with_reducible assumption
    | intro _
    | with_reducible apply Foot.ite
    | exact Or.inl (hW (by decide))
    | with_reducible exact Or.inr rfl
    | with_reducible exact id
    | with_reducible exact Nat.le_refl _
    | (simp only [Foot.lit_eq]; with_reducible apply Foot.litL rfl)

theorem modReg_foot {W : List Area} {r s : State} (hW : [.rg] ⊆ W) (a0 : Nat) (f : Reg → Reg) (h : Foot W r s) :
    Foot W r (modReg a0 f s) := by
  unfold modReg
  repeat' first
    | with_reducible assumption
    | intro _
    | with_reducible apply Foot.ite
    | exact Or.inl (hW (by decide))
    | with_reducible exact Or.inr rfl
    | with_reducible exact id
    | with_reducible exact Nat.le_refl _
    | (simp only [Foot.lit_eq]; with_reducible apply Foot.litL rfl)

theorem modBar_foot {W : List Area} {r s : State} (hW : [.tw] ⊆ W) (c : Nat) (f : Machine.Bar → Machine.Bar) (h : Foot W r s) :
    Foot W r (modBar c f s) := by
  unfold modBar
  repeat' first
    | with_reducible assumption
    | intro _
    | with_reducible apply Foot.ite
    | exact Or.inl (hW (by decide))
    | with_reducible exact Or.inr rfl
    | with_reducible exact id
    | with_reducible exact Nat.le_refl _
    | (simp only [Foot.lit_eq]; with_reducible apply Foot.litL rfl)

theorem modTask_foot {W : List Area} {r s : State} (hW : [.fe] ⊆ W) (seq : Nat) (f : Task → Task) (h : Foot W r s) :
    Foot W r (modTask seq f s) := by
  unfold modTask
  repeat' first
    | with_reducible assumption
    | intro _
    | with_reducible apply Foot.ite
    | exact Or.inl (hW (by decide))
    | with_reducible exact Or.inr rfl
    | with_reducible exact id
    | with_reducible exact Nat.le_refl _
    | (simp only [Foot.lit_eq]; with_reducible apply Foot.litL rfl)

theorem arrive_foot {W : List Area} {r s : State} (hW : [.ic] ⊆ W) (n : Nat) (h : Foot W r s) :
    Foot W r (arrive n s) := by
  unfold arrive
  repeat' first
    | with_reducible assumption
    | intro _
    | with_reducible apply modSrc_foot (hW := (less hW))

theorem notice_foot {W : List Area} {r s : State} (hW : [.ic] ⊆ W) (queue : Nat) (code : Nat) (detail : Nat) (h : Foot W r s) :
    Foot W r (notice queue code detail s) := by
  unfold notice
  repeat' first
    | with_reducible assumption
    | intro _
    | with_reducible apply arrive_foot (hW := (less hW))
    | with_reducible apply modSrc_foot (hW := (less hW))
    | with_reducible apply Foot.ite
    | exact Or.inl (hW (by decide))
    | with_reducible exact Or.inr rfl
    | with_reducible exact id
    | with_reducible exact Nat.le_refl _
    | (simp only [Foot.lit_eq]; with_reducible apply Foot.litL rfl)

theorem report_foot {W : List Area} {r s : State} (hW : [.ic, .err] ⊆ W) (kind : Nat) (index : Nat) (type : Nat) (cls : Nat) (conf : Bool) (detail : Nat) (h : Foot W r s) :
    Foot W r (report kind index type cls conf detail s) := by
  unfold report
  repeat' first
    | with_reducible assumption
    | intro _
    | with_reducible apply arrive_foot (hW := (less hW))
    | with_reducible apply Foot.ite
    | exact Or.inl (hW (by decide))
    | with_reducible exact Or.inr rfl
    | with_reducible exact id
    | with_reducible exact Nat.le_refl _
    | (simp only [Foot.lit_eq]; with_reducible apply Foot.litL rfl)
    | split

theorem reportCe_foot {W : List Area} {r s : State} (hW : [.ic, .err] ⊆ W) (kind : Nat) (index : Nat) (type : Nat) (detail : Nat) (h : Foot W r s) :
    Foot W r (reportCe kind index type detail s) := by
  unfold reportCe
  repeat' first
    | with_reducible assumption
    | intro _
    | with_reducible apply report_foot (hW := (less hW))

theorem bEvent_foot {W : List Area} {r s : State} (hW : [.blk, .ic, .err] ⊆ W) (kind : Nat) (index : Nat) (type : Nat) (detail : Nat) (h : Foot W r s) :
    Foot W r (bEvent kind index type detail s) := by
  unfold bEvent
  repeat' first
    | with_reducible assumption
    | intro _
    | with_reducible apply report_foot (hW := (less hW))
    | with_reducible apply Foot.ite
    | exact Or.inl (hW (by decide))
    | with_reducible exact Or.inr rfl
    | with_reducible exact id
    | with_reducible exact Nat.le_refl _
    | (simp only [Foot.lit_eq]; with_reducible apply Foot.litL rfl)

theorem hostCe_foot {W : List Area} {r s : State} (hW : [.ic, .err] ⊆ W) (h : Foot W r s) :
    Foot W r (hostCe s) := by
  unfold hostCe
  repeat' first
    | with_reducible assumption
    | intro _
    | with_reducible apply reportCe_foot (hW := (less hW))

end Sys2Proof.Laws
end

