-- ==== Sys2Proof/Laws/FootMemory.lean ====
section
/-!
SUPPORT. Footprints of the operations of Machine/Memory.lean.
-/
namespace Sys2Proof.Laws
open Sys2Proof Sys2Proof.Machine
set_option Elab.async false

theorem writeGranule_foot {W : List Area} {r s : State} (hW : [.cells, .mem, .ic, .err] ⊆ W) (a : Nat) (data : List Byte) (bad : Bool) (h : Foot W r s) :
    Foot W r (writeGranule a data bad s) := by
  unfold writeGranule
  repeat' first
    | with_reducible assumption
    | intro _
    | with_reducible apply reportCe_foot (hW := (less hW))
    | with_reducible apply Foot.ite
    | exact putBytes_wf _ _ _ (by assumption)
    | exact Or.inl (hW (by decide))
    | with_reducible exact Or.inr rfl
    | with_reducible exact id
    | with_reducible exact Nat.le_refl _
    | (simp only [Foot.lit_eq]; with_reducible apply Foot.litL rfl)

theorem logWrite_foot {W : List Area} {r s : State} (hW : [.fe] ⊆ W) (a : Nat) (n : Nat) (h : Foot W r s) :
    Foot W r (logWrite a n s) := by
  unfold logWrite
  repeat' first
    | with_reducible assumption
    | intro _
    | with_reducible apply each_foot
    | with_reducible apply modVai_foot (hW := (less hW))
    | with_reducible apply Foot.ite
    | split

theorem writeMem_foot {W : List Area} {r s : State} (hW : [.cells, .mem, .fe, .ic, .err] ⊆ W) (a : Nat) (data : List Byte) (bad : Nat → Bool) (h : Foot W r s) :
    Foot W r (writeMem a data bad s) := by
  unfold writeMem
  repeat' first
    | with_reducible assumption
    | intro _
    | with_reducible apply each_foot
    | with_reducible apply writeGranule_foot (hW := (less hW))
    | with_reducible apply logWrite_foot (hW := (less hW))

theorem zeroMem_foot {W : List Area} {r s : State} (hW : [.cells, .mem] ⊆ W) (a : Nat) (n : Nat) (h : Foot W r s) :
    Foot W r (zeroMem a n s) := by
  unfold zeroMem
  repeat' first
    | with_reducible assumption
    | intro _
    | with_reducible apply Foot.ite
    | exact zeroCells_wf _ _ (by assumption)
    | exact Or.inl (hW (by decide))
    | with_reducible exact Or.inr rfl
    | with_reducible exact id
    | with_reducible exact Nat.le_refl _
    | (simp only [Foot.lit_eq]; with_reducible apply Foot.litL rfl)

theorem cacheTouch_foot {W : List Area} {r s : State} (hW : [.mem] ⊆ W) (line : Nat) (h : Foot W r s) :
    Foot W r (cacheTouch line s) := by
  unfold cacheTouch
  repeat' first
    | with_reducible assumption
    | intro _
    | with_reducible apply Foot.ite
    | exact Or.inl (hW (by decide))
    | with_reducible exact Or.inr rfl
    | with_reducible exact id
    | with_reducible exact Nat.le_refl _
    | (simp only [Foot.lit_eq]; with_reducible apply Foot.litL rfl)
    | split

theorem cacheFill_foot {W : List Area} {r s : State} (hW : [.mem] ⊆ W) (line : Nat) (p : Nat) (h : Foot W r s) :
    Foot W r (cacheFill line p s) := by
  unfold cacheFill
  repeat' first
    | with_reducible assumption
    | intro _
    | with_reducible apply Foot.ite
    | exact Or.inl (hW (by decide))
    | with_reducible exact Or.inr rfl
    | with_reducible exact id
    | with_reducible exact Nat.le_refl _
    | (simp only [Foot.lit_eq]; with_reducible apply Foot.litL rfl)
    | split

theorem queueRun_foot {W : List Area} {r s : State} (hW : [.rg] ⊆ W) (owner : RunOwner) (a1 : Nat) (a : Nat) (part : Bool) (h : Foot W r s) :
    Foot W r (queueRun owner a1 a part s) := by
  unfold queueRun
  repeat' first
    | with_reducible assumption
    | intro _
    | with_reducible apply Foot.ite
    | exact Or.inl (hW (by decide))
    | with_reducible exact Or.inr rfl
    | with_reducible exact id
    | with_reducible exact Nat.le_refl _
    | (simp only [Foot.lit_eq]; with_reducible apply Foot.litL rfl)

theorem accessRun_foot {W : List Area} {r s : State} (hW : [.mem, .rg] ⊆ W) (owner : RunOwner) (a1 : Nat) (alloc : Option Nat) (write : Bool) (a : Nat) (n : Nat) (h : Foot W r s) :
    Foot W r (accessRun owner a1 alloc write a n s) := by
  unfold accessRun
  repeat' first
    | with_reducible assumption
    | intro _
    | with_reducible apply queueRun_foot (hW := (less hW))
    | with_reducible apply cacheTouch_foot (hW := (less hW))
    | with_reducible apply cacheFill_foot (hW := (less hW))
    | with_reducible apply Foot.ite
    | split

theorem access_foot {W : List Area} {r s : State} (hW : [.mem, .rg] ⊆ W) (owner : RunOwner) (a1 : Nat) (alloc : Option Nat) (write : Bool) (a : Nat) (n : Nat) (h : Foot W r s) :
    Foot W r (access owner a1 alloc write a n s) := by
  unfold access
  repeat' first
    | with_reducible assumption
    | intro _
    | with_reducible apply each_foot
    | with_reducible apply accessRun_foot (hW := (less hW))
    | with_reducible apply Foot.ite

theorem accessC_foot {W : List Area} {r s : State} (hW : [.mem, .rg, .fe] ⊆ W) (owner : RunOwner) (c : Nat) (alloc : Option Nat) (write : Bool) (a : Nat) (n : Nat) (h : Foot W r s) :
    Foot W r (accessC owner c alloc write a n s) := by
  unfold accessC
  repeat' first
    | with_reducible assumption
    | intro _
    | with_reducible apply modVai_foot (hW := (less hW))
    | with_reducible apply access_foot (hW := (less hW))
    | with_reducible apply Foot.ite

theorem queueReserved_foot {W : List Area} {r s : State} (hW : [.rg] ⊆ W) (a : Nat) (refresh : Bool) (h : Foot W r s) :
    Foot W r (queueReserved a refresh s) := by
  unfold queueReserved
  repeat' first
    | with_reducible assumption
    | intro _
    | with_reducible apply Foot.ite
    | exact Or.inl (hW (by decide))
    | with_reducible exact Or.inr rfl
    | with_reducible exact id
    | with_reducible exact Nat.le_refl _
    | (simp only [Foot.lit_eq]; with_reducible apply Foot.litL rfl)

theorem dropChan_foot {W : List Area} {r s : State} (hW : [.rg] ⊆ W) (c : Nat) (h : Foot W r s) :
    Foot W r (dropChan c s) := by
  unfold dropChan
  repeat' first
    | with_reducible assumption
    | intro _
    | with_reducible apply Foot.ite
    | exact Or.inl (hW (by decide))
    | with_reducible exact Or.inr rfl
    | with_reducible exact id
    | with_reducible exact Nat.le_refl _
    | (simp only [Foot.lit_eq]; with_reducible apply Foot.litL rfl)

theorem dropRuns_foot {W : List Area} {r s : State} (hW : [.rg] ⊆ W) (o : RunOwner) (h : Foot W r s) :
    Foot W r (dropRuns o s) := by
  unfold dropRuns
  repeat' first
    | with_reducible assumption
    | intro _
    | with_reducible apply Foot.ite
    | exact Or.inl (hW (by decide))
    | with_reducible exact Or.inr rfl
    | with_reducible exact id
    | with_reducible exact Nat.le_refl _
    | (simp only [Foot.lit_eq]; with_reducible apply Foot.litL rfl)

end Sys2Proof.Laws
end

