-- ==== Sys2Proof/Laws/FootXlate.lean ====
section
/-!
SUPPORT. Footprints of the operations of Machine/Xlate.lean.
-/
namespace Sys2Proof.Laws
open Sys2Proof Sys2Proof.Machine
set_option Elab.async false

theorem tlbPut_foot {W : List Area} {r s : State} (hW : [.fe] ⊆ W) (c : Nat) (va : Nat) (leaf : Nat) (u : XlUnit) (h : Foot W r s) :
    Foot W r (tlbPut c va leaf u s) := by
  unfold tlbPut
  repeat' first
    | with_reducible assumption
    | intro _
    | with_reducible apply Foot.ite
    | exact Or.inl (hW (by decide))
    | with_reducible exact Or.inr rfl
    | with_reducible exact id
    | with_reducible exact Nat.le_refl _
    | (simp only [Foot.lit_eq]; with_reducible apply Foot.litL rfl)

theorem xlFill_foot {W : List Area} {r s : State} (hW : [.mem, .rg, .fe] ⊆ W) (owner : RunOwner) (c : Nat) (va : Nat) (h : Foot W r s) :
    Foot W r (xlFill owner c va s) := by
  unfold xlFill
  repeat' first
    | with_reducible assumption
    | intro _
    | with_reducible apply each_foot
    | with_reducible apply accessC_foot (hW := (less hW))
    | with_reducible apply tlbPut_foot (hW := (less hW))
    | with_reducible apply Foot.ite
    | split

theorem tlbDrop_foot {W : List Area} {r s : State} (hW : [.fe] ⊆ W) (c : Nat) (va : Nat) (count : Nat) (h : Foot W r s) :
    Foot W r (tlbDrop c va count s) := by
  unfold tlbDrop
  repeat' first
    | with_reducible assumption
    | intro _
    | with_reducible apply Foot.ite
    | exact Or.inl (hW (by decide))
    | with_reducible exact Or.inr rfl
    | with_reducible exact id
    | with_reducible exact Nat.le_refl _
    | (simp only [Foot.lit_eq]; with_reducible apply Foot.litL rfl)

theorem recordFault_foot {W : List Area} {r s : State} (hW : [.fe] ⊆ W) (c : Nat) (kind : Nat) (source : Nat) (va : Nat) (h : Foot W r s) :
    Foot W r (recordFault c kind source va s) := by
  unfold recordFault
  repeat' first
    | with_reducible assumption
    | intro _
    | with_reducible apply modCtx_foot (hW := (less hW))
    | with_reducible apply Foot.ite

theorem hostPoisonCe_foot {W : List Area} {r s : State} (hW : [.ic, .err, .ports] ⊆ W) (c : Nat) (h : Foot W r s) :
    Foot W r (hostPoisonCe c s) := by
  unfold hostPoisonCe
  repeat' first
    | with_reducible assumption
    | intro _
    | with_reducible apply report_foot (hW := (less hW))
    | with_reducible apply Foot.ite
    | exact Or.inl (hW (by decide))
    | with_reducible exact Or.inr rfl
    | with_reducible exact id
    | with_reducible exact Nat.le_refl _
    | (simp only [Foot.lit_eq]; with_reducible apply Foot.litL rfl)

theorem sealCe_foot {W : List Area} {r s : State} (hW : [.ic, .err] ⊆ W) (c : Nat) (h : Foot W r s) :
    Foot W r (sealCe c s) := by
  unfold sealCe
  repeat' first
    | with_reducible assumption
    | intro _
    | with_reducible apply report_foot (hW := (less hW))

theorem nextReads_foot {W : List Area} {r s : State} (hW : [.ports] ⊆ W) (fuel : Nat) (h : Foot W r s) :
    Foot W r (nextReads fuel s) := by
  induction fuel generalizing s with
  | zero =>
    unfold nextReads
    repeat' first
      | with_reducible assumption
  | succ _ ih =>
    unfold nextReads
    repeat' first
      | with_reducible assumption
      | intro _
      | with_reducible apply ih
      | with_reducible apply emit_foot (hW := (less hW))
      | with_reducible apply Foot.ite
      | exact Or.inl (hW (by decide))
      | with_reducible exact Or.inr rfl
      | with_reducible exact id
      | with_reducible exact Nat.le_refl _
      | (simp only [Foot.lit_eq]; with_reducible apply Foot.litL rfl)
      | split

theorem askRead_foot {W : List Area} {r s : State} (hW : [.ports] ⊆ W) (a0 : OreqRead) (h : Foot W r s) :
    Foot W r (askRead a0 s) := by
  unfold askRead
  repeat' first
    | with_reducible assumption
    | intro _
    | with_reducible apply nextReads_foot (hW := (less hW))
    | with_reducible apply Foot.ite
    | exact Or.inl (hW (by decide))
    | with_reducible exact Or.inr rfl
    | with_reducible exact id
    | with_reducible exact Nat.le_refl _
    | (simp only [Foot.lit_eq]; with_reducible apply Foot.litL rfl)

theorem dropReads_foot {W : List Area} {r s : State} (hW : [.ports] ⊆ W) (late : Bool) (q : Nat) (f : OreqRead → Bool) (h : Foot W r s) :
    Foot W r (dropReads late q f s) := by
  unfold dropReads
  repeat' first
    | with_reducible assumption
    | intro _
    | with_reducible apply Foot.ite
    | exact Or.inl (hW (by decide))
    | with_reducible exact Or.inr rfl
    | with_reducible exact id
    | with_reducible exact Nat.le_refl _
    | (simp only [Foot.lit_eq]; with_reducible apply Foot.litL rfl)

theorem hostWriteM_foot {W : List Area} {r s : State} (hW : [.ports] ⊆ W) (a : Nat) (data : List Byte) (h : Foot W r s) :
    Foot W r (hostWriteM a data s) := by
  unfold hostWriteM
  repeat' first
    | with_reducible assumption
    | intro _
    | with_reducible apply each_foot
    | with_reducible apply emit_foot (hW := (less hW))

theorem logHost_foot {W : List Area} {r s : State} (hW : [.fe] ⊆ W) (v : Nat) (page : Nat) (h : Foot W r s) :
    Foot W r (logHost v page s) := by
  unfold logHost
  repeat' first
    | with_reducible assumption
    | intro _
    | with_reducible apply modVai_foot (hW := (less hW))
    | with_reducible apply Foot.ite

theorem hostWriteV_foot {W : List Area} {r s : State} (hW : [.fe, .ports] ⊆ W) (v : Nat) (a : Nat) (data : List Byte) (ro : Bool) (ep : Bool) (h : Foot W r s) :
    Foot W r (hostWriteV v a data ro ep s) := by
  unfold hostWriteV
  repeat' first
    | with_reducible assumption
    | intro _
    | with_reducible apply each_foot
    | with_reducible apply emit_foot (hW := (less hW))
    | with_reducible apply logHost_foot (hW := (less hW))

theorem sealUnit_foot {W : List Area} {r s : State} (hW : [.fe, .csb, .ports] ⊆ W) (c : Nat) (w : Window) (b : Binding) (va : Nat) (a : Nat) (plain : List Byte) (ro : Bool) (ep : Bool) (h : Foot W r s) :
    Foot W r (sealUnit c w b va a plain ro ep s) := by
  unfold sealUnit
  repeat' first
    | with_reducible assumption
    | intro _
    | with_reducible apply hostWriteV_foot (hW := (less hW))
    | with_reducible apply Foot.ite
    | exact Or.inl (hW (by decide))
    | with_reducible exact Or.inr rfl
    | with_reducible exact id
    | with_reducible exact Nat.le_refl _
    | (simp only [Foot.lit_eq]; with_reducible apply Foot.litL rfl)
    | split
    | dsimp only

theorem oreqAsk_foot {W : List Area} {r s : State} (hW : [.ports] ⊆ W) (a : Nat) (n : Nat) (c : Nat) (use : ReadUse) (dest : Nat) (crypt : Option (Nat × Nat)) (h : Foot W r s) :
    Foot W r (oreqAsk a n c use dest crypt s) := by
  unfold oreqAsk
  repeat' first
    | with_reducible assumption
    | intro _
    | with_reducible apply each_foot
    | with_reducible apply askRead_foot (hW := (less hW))

theorem unitAsk_foot {W : List Area} {r s : State} (hW : [.ports] ⊆ W) (c : Nat) (w : Window) (va : Nat) (a : Nat) (use : ReadUse) (crypt : Option Nat) (h : Foot W r s) :
    Foot W r (unitAsk c w va a use crypt s) := by
  unfold unitAsk
  repeat' first
    | with_reducible assumption
    | intro _
    | with_reducible apply oreqAsk_foot (hW := (less hW))
    | with_reducible apply Foot.ite
    | split
    | dsimp only

theorem sealPiece_foot {W : List Area} {r s : State} (hW : [.fe, .ic, .err, .csb, .ports, .freeCtr] ⊆ W) (c : Nat) (va : Nat) (a : Nat) (data : List Byte) (ro : Bool) (ep : Bool) (h : Foot W r s) :
    Foot W r (sealPiece c va a data ro ep s) := by
  unfold sealPiece
  repeat' first
    | with_reducible assumption
    | intro _
    | with_reducible apply sealUnit_foot (hW := (less hW))
    | with_reducible apply unitAsk_foot (hW := (less hW))
    | with_reducible apply fresh_foot (hW := (less hW))
    | with_reducible apply sealCe_foot (hW := (less hW))
    | with_reducible apply Foot.ite
    | with_reducible refine Foot.snd (by assumption) ?_
    | split

theorem hostWriteC_foot {W : List Area} {r s : State} (hW : [.fe, .ic, .err, .csb, .ports, .freeCtr] ⊆ W) (c : Nat) (va : Nat) (a : Nat) (data : List Byte) (ro : Bool) (ep : Bool) (h : Foot W r s) :
    Foot W r (hostWriteC c va a data ro ep s) := by
  unfold hostWriteC
  repeat' first
    | with_reducible assumption
    | intro _
    | with_reducible apply each_foot
    | with_reducible apply sealPiece_foot (hW := (less hW))
    | with_reducible apply hostWriteV_foot (hW := (less hW))
    | with_reducible apply Foot.ite

theorem hostRead_foot {W : List Area} {r s : State} (hW : [.ports] ⊆ W) (c : Nat) (va : Nat) (a : Nat) (n : Nat) (use : ReadUse) (dest : Nat) (h : Foot W r s) :
    Foot W r (hostRead c va a n use dest s) := by
  unfold hostRead
  repeat' first
    | with_reducible assumption
    | intro _
    | with_reducible apply each_foot
    | with_reducible apply unitAsk_foot (hW := (less hW))
    | with_reducible apply oreqAsk_foot (hW := (less hW))
    | with_reducible apply Foot.ite
    | exact Or.inl (hW (by decide))
    | with_reducible exact Or.inr rfl
    | with_reducible exact id
    | with_reducible exact Nat.le_refl _
    | (simp only [Foot.lit_eq]; with_reducible apply Foot.litL rfl)
    | split

theorem touchCtl_foot {W : List Area} {r s : State} (hW : [.mem, .rg, .fe, .ic, .err, .ports] ⊆ W) (owner : RunOwner) (c : Nat) (va : Nat) (n : Nat) (a4 : HostData) (h : Foot W r s) :
    Foot W r (touchCtl owner c va n a4 s) := by
  unfold touchCtl
  repeat' first
    | with_reducible assumption
    | intro _
    | with_reducible apply each_foot
    | with_reducible apply accessC_foot (hW := (less hW))
    | with_reducible apply xlFill_foot (hW := (less hW))
    | with_reducible apply hostPoisonCe_foot (hW := (less hW))
    | with_reducible apply sealCe_foot (hW := (less hW))
    | with_reducible apply Foot.ite
    | split

end Sys2Proof.Laws
end

