-- ==== Sys2Proof/Laws/FootLink.lean ====
section
/-!
SUPPORT. Footprints of the operations of Machine/Link.lean.
-/
namespace Sys2Proof.Laws
open Sys2Proof Sys2Proof.Machine
set_option Elab.async false

theorem countDrop_foot {W : List Area} {r s : State} (hW : [.fab] ⊆ W) (p : Nat) (h : Foot W r s) :
    Foot W r (countDrop p s) := by
  unfold countDrop
  repeat' first
    | with_reducible assumption
    | intro _
    | with_reducible apply modPort_foot (hW := (less hW))

theorem sendFlit_foot {W : List Area} {r s : State} (hW : [.fab, .ports] ⊆ W) (p : Nat) (data : Bool) (nak : Bool) (units : List (List Byte)) (start : Nat) (h : Foot W r s) :
    Foot W r (sendFlit p data nak units start s) := by
  unfold sendFlit
  repeat' first
    | with_reducible assumption
    | intro _
    | with_reducible apply emit_foot (hW := (less hW))
    | with_reducible apply modPort_foot (hW := (less hW))

theorem giveBack_foot {W : List Area} {r s : State} (hW : [.fab, .ports] ⊆ W) (p : Nat) (v : Nat) (n : Nat) (h : Foot W r s) :
    Foot W r (giveBack p v n s) := by
  unfold giveBack
  repeat' first
    | with_reducible assumption
    | intro _
    | with_reducible apply modPort_foot (hW := (less hW))
    | with_reducible apply sendFlit_foot (hW := (less hW))
    | with_reducible apply Foot.ite

theorem freeSource_foot {W : List Area} {r s : State} (hW : [.fab, .ports] ⊆ W) (w : Waiting) (h : Foot W r s) :
    Foot W r (freeSource w s) := by
  unfold freeSource
  repeat' first
    | with_reducible assumption
    | intro _
    | with_reducible apply giveBack_foot (hW := (less hW))
    | with_reducible apply Foot.ite
    | split

theorem modPeer_foot {W : List Area} {r s : State} (hW : [.fab] ⊆ W) (k : Nat) (f : Peer → Peer) (h : Foot W r s) :
    Foot W r (modPeer k f s) := by
  unfold modPeer
  repeat' first
    | with_reducible assumption
    | intro _
    | with_reducible apply Foot.ite
    | exact Or.inl (hW (by decide))
    | with_reducible exact Or.inr rfl
    | with_reducible exact id
    | with_reducible exact Nat.le_refl _
    | (simp only [Foot.lit_eq]; with_reducible apply Foot.litL rfl)

theorem sendFrame_foot {W : List Area} {r s : State} (hW : [.fab, .ports] ⊆ W) (p : Nat) (k : Nat) (psn : Nat) (ackOnly : Bool) (nak : Bool) (pkts : List Packet) (h : Foot W r s) :
    Foot W r (sendFrame p k psn ackOnly nak pkts s) := by
  unfold sendFrame
  repeat' first
    | with_reducible assumption
    | intro _
    | with_reducible apply modPeer_foot (hW := (less hW))
    | with_reducible apply modPort_foot (hW := (less hW))
    | with_reducible apply emit_foot (hW := (less hW))

theorem peerSend_foot {W : List Area} {r s : State} (hW : [.fab, .ports] ⊆ W) (p : Nat) (k : Nat) (q : Packet) (h : Foot W r s) :
    Foot W r (peerSend p k q s) := by
  unfold peerSend
  repeat' first
    | with_reducible assumption
    | intro _
    | with_reducible apply modPeer_foot (hW := (less hW))
    | with_reducible apply sendFrame_foot (hW := (less hW))

theorem sendPacket_foot {W : List Area} {r s : State} (hW : [.fab, .ports] ⊆ W) (p : Nat) (k : Packet) (h : Foot W r s) :
    Foot W r (sendPacket p k s) := by
  unfold sendPacket
  repeat' first
    | with_reducible assumption
    | intro _
    | with_reducible apply modPort_foot (hW := (less hW))
    | with_reducible apply each_foot
    | with_reducible apply sendFlit_foot (hW := (less hW))

theorem sendWaiting_foot {W : List Area} {r s : State} (hW : [.fab, .ports] ⊆ W) (p : Nat) (w : Waiting) (h : Foot W r s) :
    Foot W r (sendWaiting p w s) := by
  unfold sendWaiting
  repeat' first
    | with_reducible assumption
    | intro _
    | with_reducible apply modPort_foot (hW := (less hW))
    | with_reducible apply freeSource_foot (hW := (less hW))
    | with_reducible apply sendPacket_foot (hW := (less hW))
    | with_reducible apply peerSend_foot (hW := (less hW))
    | with_reducible apply Foot.ite

theorem pumpN_foot {W : List Area} {r s : State} (hW : [.fab, .ports] ⊆ W) (n : Nat) (p : Nat) (h : Foot W r s) :
    Foot W r (pumpN n p s) := by
  induction n generalizing p s with
  | zero =>
    unfold pumpN
    repeat' first
      | with_reducible assumption
  | succ _ ih =>
    unfold pumpN
    repeat' first
      | with_reducible assumption
      | intro _
      | with_reducible apply ih
      | with_reducible apply sendWaiting_foot (hW := (less hW))
      | with_reducible apply Foot.ite
      | split

theorem pump_foot {W : List Area} {r s : State} (hW : [.fab, .ports] ⊆ W) (p : Nat) (h : Foot W r s) :
    Foot W r (pump p s) := by
  unfold pump
  repeat' first
    | with_reducible assumption
    | intro _
    | with_reducible apply pumpN_foot (hW := (less hW))

theorem putOn_foot {W : List Area} {r s : State} (hW : [.fab, .ports] ⊆ W) (p : Nat) (w : Waiting) (h : Foot W r s) :
    Foot W r (putOn p w s) := by
  unfold putOn
  repeat' first
    | with_reducible assumption
    | intro _
    | with_reducible apply pump_foot (hW := (less hW))
    | with_reducible apply modPort_foot (hW := (less hW))

theorem sendOn_foot {W : List Area} {r s : State} (hW : [.fab, .ports] ⊆ W) (p : Nat) (k : Packet) (h : Foot W r s) :
    Foot W r (sendOn p k s) := by
  unfold sendOn
  repeat' first
    | with_reducible assumption
    | intro _
    | with_reducible apply putOn_foot (hW := (less hW))

theorem respond_foot {W : List Area} {r s : State} (hW : [.fab, .ports] ⊆ W) (q : Packet) (opc : Nat) (status : Nat) (lost : Bool) (pmask : Nat) (operand : Nat) (data : List Byte) (h : Foot W r s) :
    Foot W r (respond q opc status lost pmask operand data s) := by
  unfold respond
  repeat' first
    | with_reducible assumption
    | intro _
    | with_reducible apply sendOn_foot (hW := (less hW))
    | with_reducible apply Foot.ite

theorem sendAll_foot {W : List Area} {r s : State} (hW : [.fab, .ports] ⊆ W) (dst : Nat) (ch : Nat) (opc : Nat) (parts : List ReqPart) (len : Nat) (use : ReqUse) (seq : Nat) (c : Nat) (h : Foot W r s) :
    Foot W r (sendAll dst ch opc parts len use seq c s) := by
  unfold sendAll
  repeat' first
    | with_reducible assumption
    | intro _
    | with_reducible apply each_foot
    | with_reducible apply putOn_foot (hW := (less hW))
    | with_reducible apply Foot.ite
    | exact Or.inl (hW (by decide))
    | with_reducible exact Or.inr rfl
    | with_reducible exact id
    | with_reducible exact Nat.le_refl _
    | (simp only [Foot.lit_eq]; with_reducible apply Foot.litL rfl)

theorem sendReq_foot {W : List Area} {r s : State} (hW : [.fab, .ports] ⊆ W) (dst : Nat) (ch : Nat) (opc : Nat) (arg : Nat) (operand : Nat) (pmask : Nat) (len : Nat) (data : List Byte) (use : ReqUse) (seq : Nat) (c : Nat) (h : Foot W r s) :
    Foot W r (sendReq dst ch opc arg operand pmask len data use seq c s) := by
  unfold sendReq
  repeat' first
    | with_reducible assumption
    | intro _
    | with_reducible apply sendAll_foot (hW := (less hW))

theorem writeOut_foot {W : List Area} {r s : State} (hW : [.cells, .mem, .rg, .fab, .fe, .ic, .err, .csb, .ports, .freeCtr] ⊆ W) (owner : RunOwner) (c : Nat) (va : Nat) (data : List Byte) (bad : Bool) (use : ReqUse) (seq : Nat) (h : Foot W r s) :
    Foot W r (writeOut owner c va data bad use seq s) := by
  unfold writeOut
  repeat' first
    | with_reducible assumption
    | intro _
    | with_reducible apply each_foot
    | with_reducible apply writeMem_foot (hW := (less hW))
    | with_reducible apply accessC_foot (hW := (less hW))
    | with_reducible apply xlFill_foot (hW := (less hW))
    | with_reducible apply hostWriteC_foot (hW := (less hW))
    | with_reducible apply sendReq_foot (hW := (less hW))
    | with_reducible apply Foot.ite
    | split

theorem writeCtl_foot {W : List Area} {r s : State} (hW : [.cells, .mem, .rg, .fab, .fe, .ic, .err, .csb, .ports, .freeCtr] ⊆ W) (owner : RunOwner) (c : Nat) (va : Nat) (data : List Byte) (h : Foot W r s) :
    Foot W r (writeCtl owner c va data s) := by
  unfold writeCtl
  repeat' first
    | with_reducible assumption
    | intro _
    | with_reducible apply writeOut_foot (hW := (less hW))

theorem writeMirror_foot {W : List Area} {r s : State} (hW : [.cells, .mem, .rg, .fab, .fe, .ic, .err, .csb, .ports, .freeCtr] ⊆ W) (c : Nat) (va : Nat) (data : List Byte) (h : Foot W r s) :
    Foot W r (writeMirror c va data s) := by
  unfold writeMirror
  repeat' first
    | with_reducible assumption
    | intro _
    | with_reducible apply writeCtl_foot (hW := (less hW))
    | with_reducible apply hostWriteV_foot (hW := (less hW))
    | with_reducible apply Foot.ite
    | split

theorem askReads_foot {W : List Area} {r s : State} (hW : [.fab, .ports] ⊆ W) (key : Nat) (ch : Nat) (seq : Nat) (c : Nat) (l : List (Nat × Nat)) (h : Foot W r s) :
    Foot W r (askReads key ch seq c l s) := by
  unfold askReads
  repeat' first
    | with_reducible assumption
    | intro _
    | with_reducible apply each_foot
    | with_reducible apply sendReq_foot (hW := (less hW))
    | with_reducible apply Foot.ite
    | exact Or.inl (hW (by decide))
    | with_reducible exact Or.inr rfl
    | with_reducible exact id
    | with_reducible exact Nat.le_refl _
    | (simp only [Foot.lit_eq]; with_reducible apply Foot.litL rfl)

theorem endReading_foot {W : List Area} {r s : State} (hW : [.fab] ⊆ W) (key : Nat) (h : Foot W r s) :
    Foot W r (endReading key s) := by
  unfold endReading
  repeat' first
    | with_reducible assumption
    | intro _
    | with_reducible apply Foot.ite
    | exact Or.inl (hW (by decide))
    | with_reducible exact Or.inr rfl
    | with_reducible exact id
    | with_reducible exact Nat.le_refl _
    | (simp only [Foot.lit_eq]; with_reducible apply Foot.litL rfl)

theorem reading_foot {W : List Area} {r s : State} (hW : [.fab, .ports] ⊆ W) (key : Nat) (o : RunOwner) (ch : Nat) (seq : Nat) (c : Nat) (va : Nat) (n : Nat) (f : State → State) (h_f : ∀ s', Foot W r s' → Foot W r (f s')) (h : Foot W r s) :
    Foot W r (reading key o ch seq c va n f s) := by
  unfold reading
  repeat' first
    | with_reducible assumption
    | intro _
    | with_reducible apply endReading_foot (hW := (less hW))
    | with_reducible apply askReads_foot (hW := (less hW))
    | apply h_f
    | with_reducible apply Foot.ite

end Sys2Proof.Laws
end

