-- ==== Sys2Proof/Laws/FootTaskOps.lean ====
section
/-!
SUPPORT. Footprints of the operations of Machine/TaskOps.lean.
-/
namespace Sys2Proof.Laws
open Sys2Proof Sys2Proof.Machine
set_option Elab.async false

theorem ctxTake_foot {W : List Area} {r s : State} (hW : [.fe] ⊆ W) (c : Nat) (h : Foot W r s) :
    Foot W r (ctxTake c s) := by
  unfold ctxTake
  repeat' first
    | with_reducible assumption
    | intro _
    | with_reducible apply modCtx_foot (hW := (less hW))

theorem ctxDrop_foot {W : List Area} {r s : State} (hW : [.fe] ⊆ W) (c : Nat) (h : Foot W r s) :
    Foot W r (ctxDrop c s) := by
  unfold ctxDrop
  repeat' first
    | with_reducible assumption
    | intro _
    | with_reducible apply modCtx_foot (hW := (less hW))
    | with_reducible apply Foot.ite
    | exact Or.inl (hW (by decide))
    | with_reducible exact Or.inr rfl
    | with_reducible exact id
    | with_reducible exact Nat.le_refl _
    | (simp only [Foot.lit_eq]; with_reducible apply Foot.litL rfl)

theorem allocCheck_foot {W : List Area} {r s : State} (hW : [.fe] ⊆ W) (a : Nat) (h : Foot W r s) :
    Foot W r (allocCheck a s) := by
  unfold allocCheck
  repeat' first
    | with_reducible assumption
    | intro _
    | with_reducible apply modAlloc_foot (hW := (less hW))
    | with_reducible apply Foot.ite
    | exact Or.inl (hW (by decide))
    | with_reducible exact Or.inr rfl
    | with_reducible exact id
    | with_reducible exact Nat.le_refl _
    | (simp only [Foot.lit_eq]; with_reducible apply Foot.litL rfl)

theorem fenceDrop_foot {W : List Area} {r s : State} (hW : [.fe] ⊆ W) (f : Nat) (h : Foot W r s) :
    Foot W r (fenceDrop f s) := by
  unfold fenceDrop
  repeat' first
    | with_reducible assumption
    | intro _
    | with_reducible apply modFence_foot (hW := (less hW))

theorem graphDrop_foot {W : List Area} {r s : State} (hW : [.fe] ⊆ W) (g : Nat) (h : Foot W r s) :
    Foot W r (graphDrop g s) := by
  unfold graphDrop
  repeat' first
    | with_reducible assumption
    | intro _
    | with_reducible apply ctxDrop_foot (hW := (less hW))
    | with_reducible apply modGraph_foot (hW := (less hW))
    | with_reducible apply Foot.ite

theorem hqReturn_foot {W : List Area} {r s : State} (hW : [.fe] ⊆ W) (a0 : Nat) (h : Foot W r s) :
    Foot W r (hqReturn a0 s) := by
  unfold hqReturn
  repeat' first
    | with_reducible assumption
    | intro _
    | with_reducible apply modHq_foot (hW := (less hW))

theorem owe_foot {W : List Area} {r s : State} (hW : [.fe] ⊆ W) (q : Nat) (c : Cqe) (h : Foot W r s) :
    Foot W r (owe q c s) := by
  unfold owe
  repeat' first
    | with_reducible assumption
    | intro _
    | with_reducible apply modQueue_foot (hW := (less hW))

theorem modCmd_foot {W : List Area} {r s : State} (hW : [.fe] ⊆ W) (q : Nat) (id : Nat) (f : CmdEnt → CmdEnt) (h : Foot W r s) :
    Foot W r (modCmd q id f s) := by
  unfold modCmd
  repeat' first
    | with_reducible assumption
    | intro _
    | with_reducible apply modQueue_foot (hW := (less hW))

theorem fenceChanged_foot {W : List Area} {r s : State} (hW : [.cells, .mem, .rg, .fab, .fe, .ic, .err, .csb, .ports, .freeCtr] ⊆ W) (f : Nat) (h : Foot W r s) :
    Foot W r (fenceChanged f s) := by
  unfold fenceChanged
  repeat' first
    | with_reducible assumption
    | intro _
    | with_reducible apply writeMirror_foot (hW := (less hW))
    | with_reducible apply notice_foot (hW := (less hW))
    | with_reducible apply Foot.ite

theorem completeWait_foot {W : List Area} {r s : State} (hW : [.fe] ⊆ W) (q : Nat) (a1 : CmdEnt) (st : Status) (stop : Bool) (h : Foot W r s) :
    Foot W r (completeWait q a1 st stop s) := by
  unfold completeWait
  repeat' first
    | with_reducible assumption
    | intro _
    | with_reducible apply owe_foot (hW := (less hW))
    | with_reducible apply modQueue_foot (hW := (less hW))
    | with_reducible apply fenceDrop_foot (hW := (less hW))
    | with_reducible apply Foot.ite

theorem testWait_foot {W : List Area} {r s : State} (hW : [.fe] ⊆ W) (f : Nat) (q : Nat) (h : Foot W r s) :
    Foot W r (testWait f q s) := by
  unfold testWait
  repeat' first
    | with_reducible assumption
    | intro _
    | with_reducible apply completeWait_foot (hW := (less hW))
    | with_reducible apply Foot.ite
    | split
    | dsimp only

theorem fenceWake_foot {W : List Area} {r s : State} (hW : [.fe] ⊆ W) (f : Nat) (h : Foot W r s) :
    Foot W r (fenceWake f s) := by
  unfold fenceWake
  repeat' first
    | with_reducible assumption
    | intro _
    | with_reducible apply each_foot
    | with_reducible apply testWait_foot (hW := (less hW))

theorem fenceSignal_foot {W : List Area} {r s : State} (hW : [.cells, .mem, .rg, .fab, .fe, .ic, .err, .csb, .ports, .freeCtr] ⊆ W) (f : Nat) (v : W64) (h : Foot W r s) :
    Foot W r (fenceSignal f v s) := by
  unfold fenceSignal
  repeat' first
    | with_reducible assumption
    | intro _
    | with_reducible apply fenceWake_foot (hW := (less hW))
    | with_reducible apply fenceChanged_foot (hW := (less hW))
    | with_reducible apply modFence_foot (hW := (less hW))
    | with_reducible apply Foot.ite

theorem fenceFail_foot {W : List Area} {r s : State} (hW : [.cells, .mem, .rg, .fab, .fe, .ic, .err, .csb, .ports, .freeCtr] ⊆ W) (f : Nat) (v : W64) (code : Nat) (h : Foot W r s) :
    Foot W r (fenceFail f v code s) := by
  unfold fenceFail
  repeat' first
    | with_reducible assumption
    | intro _
    | with_reducible apply fenceWake_foot (hW := (less hW))
    | with_reducible apply fenceChanged_foot (hW := (less hW))
    | with_reducible apply modFence_foot (hW := (less hW))
    | with_reducible apply Foot.ite

theorem failSignals_foot {W : List Area} {r s : State} (hW : [.cells, .mem, .rg, .fab, .fe, .ic, .err, .csb, .ports, .freeCtr] ⊆ W) (l : List CmdEnt) (code : Nat) (h : Foot W r s) :
    Foot W r (failSignals l code s) := by
  unfold failSignals
  repeat' first
    | with_reducible assumption
    | intro _
    | with_reducible apply each_foot
    | with_reducible apply fenceDrop_foot (hW := (less hW))
    | with_reducible apply fenceFail_foot (hW := (less hW))

theorem issueTask_foot {W : List Area} {r s : State} (hW : [.fe] ⊆ W) (record : List Byte) (queue : Nat) (c : Nat) (cmd : Nat) (node : Option (Nat × Nat)) (joined : Bool) (enqd : Bool) (taint : Bool) (h : Foot W r s) :
    Foot W r (issueTask record queue c cmd node joined enqd taint s) := by
  unfold issueTask
  repeat' first
    | with_reducible assumption
    | intro _
    | with_reducible apply Foot.ite
    | exact Or.inl (hW (by decide))
    | with_reducible exact Or.inr rfl
    | with_reducible exact id
    | with_reducible exact Nat.le_refl _
    | (simp only [Foot.lit_eq]; with_reducible apply Foot.litL rfl)

theorem modLaunch_foot {W : List Area} {r s : State} (hW : [.fe] ⊆ W) (id : Nat) (f : Launch → Launch) (h : Foot W r s) :
    Foot W r (modLaunch id f s) := by
  unfold modLaunch
  repeat' first
    | with_reducible assumption
    | intro _
    | with_reducible apply Foot.ite
    | exact Or.inl (hW (by decide))
    | with_reducible exact Or.inr rfl
    | with_reducible exact id
    | with_reducible exact Nat.le_refl _
    | (simp only [Foot.lit_eq]; with_reducible apply Foot.litL rfl)

theorem issueNode_foot {W : List Area} {r s : State} (hW : [.fe] ⊆ W) (id : Nat) (n : Nat) (h : Foot W r s) :
    Foot W r (issueNode id n s) := by
  unfold issueNode
  repeat' first
    | with_reducible assumption
    | intro _
    | with_reducible apply modLaunch_foot (hW := (less hW))
    | with_reducible apply issueTask_foot (hW := (less hW))
    | with_reducible apply Foot.ite
    | split

theorem cancelNodes_foot {W : List Area} {r s : State} (hW : [.fe] ⊆ W) (fuel : Nat) (id : Nat) (l : List Nat) (h : Foot W r s) :
    Foot W r (cancelNodes fuel id l s) := by
  induction fuel generalizing id l s with
  | zero =>
    unfold cancelNodes
    repeat' first
      | with_reducible assumption
  | succ _ ih =>
    unfold cancelNodes
    repeat' first
      | with_reducible assumption
      | intro _
      | with_reducible apply ih
      | with_reducible apply modLaunch_foot (hW := (less hW))
      | with_reducible apply owe_foot (hW := (less hW))
      | with_reducible apply Foot.ite
      | split

theorem fireEdge_foot {W : List Area} {r s : State} (hW : [.fe] ⊆ W) (id : Nat) (taint : Bool) (n : Nat) (h : Foot W r s) :
    Foot W r (fireEdge id taint n s) := by
  unfold fireEdge
  repeat' first
    | with_reducible assumption
    | intro _
    | with_reducible apply modLaunch_foot (hW := (less hW))
    | with_reducible apply issueNode_foot (hW := (less hW))
    | with_reducible apply Foot.ite
    | split

theorem nodeEnded_foot {W : List Area} {r s : State} (hW : [.fe] ⊆ W) (id : Nat) (n : Nat) (a2 : Task) (st : Status) (cycles : Nat) (h : Foot W r s) :
    Foot W r (nodeEnded id n a2 st cycles s) := by
  unfold nodeEnded
  repeat' first
    | with_reducible assumption
    | intro _
    | with_reducible apply owe_foot (hW := (less hW))
    | with_reducible apply modLaunch_foot (hW := (less hW))
    | with_reducible apply each_foot
    | with_reducible apply fireEdge_foot (hW := (less hW))
    | with_reducible apply cancelNodes_foot (hW := (less hW))
    | with_reducible apply Foot.ite
    | split

theorem endLaunch_foot {W : List Area} {r s : State} (hW : [.fe] ⊆ W) (a0 : CmdEnt) (h : Foot W r s) :
    Foot W r (endLaunch a0 s) := by
  unfold endLaunch
  repeat' first
    | with_reducible assumption
    | intro _
    | with_reducible apply graphDrop_foot (hW := (less hW))
    | with_reducible apply Foot.ite
    | exact Or.inl (hW (by decide))
    | with_reducible exact Or.inr rfl
    | with_reducible exact id
    | with_reducible exact Nat.le_refl _
    | (simp only [Foot.lit_eq]; with_reducible apply Foot.litL rfl)
    | split

theorem completeCmd_foot {W : List Area} {r s : State} (hW : [.fe] ⊆ W) (q : Nat) (a1 : CmdEnt) (st : Status) (h : Foot W r s) :
    Foot W r (completeCmd q a1 st s) := by
  unfold completeCmd
  repeat' first
    | with_reducible assumption
    | intro _
    | with_reducible apply modQueue_foot (hW := (less hW))
    | with_reducible apply endLaunch_foot (hW := (less hW))
    | with_reducible apply fenceDrop_foot (hW := (less hW))
    | with_reducible apply owe_foot (hW := (less hW))
    | with_reducible apply Foot.ite

theorem settle_foot {W : List Area} {r s : State} (hW : [.fe] ⊆ W) (q : Nat) (h : Foot W r s) :
    Foot W r (settle q s) := by
  unfold settle
  repeat' first
    | with_reducible assumption
    | intro _
    | with_reducible apply each_foot
    | with_reducible apply completeCmd_foot (hW := (less hW))
    | with_reducible apply Foot.ite
    | split

theorem markGuilty_foot {W : List Area} {r s : State} (hW : [.fe, .ic, .err] ⊆ W) (q : Nat) (st : Status) (pos : Nat) (type : Nat) (detail : Nat) (h : Foot W r s) :
    Foot W r (markGuilty q st pos type detail s) := by
  unfold markGuilty
  repeat' first
    | with_reducible assumption
    | intro _
    | with_reducible apply report_foot (hW := (less hW))
    | with_reducible apply modQueue_foot (hW := (less hW))
    | with_reducible apply Foot.ite

theorem returnHandles_foot {W : List Area} {r s : State} (hW : [.fe, .ic, .err] ⊆ W) (a0 : Task) (h : Foot W r s) :
    Foot W r (returnHandles a0 s) := by
  unfold returnHandles
  repeat' first
    | with_reducible assumption
    | intro _
    | with_reducible apply each_foot
    | with_reducible apply reportCe_foot (hW := (less hW))
    | with_reducible apply hqReturn_foot (hW := (less hW))

theorem taskResult_foot {W : List Area} {r s : State} (hW : [.fe] ⊆ W) (q : Nat) (a1 : Task) (st : Status) (cycles : Nat) (h : Foot W r s) :
    Foot W r (taskResult q a1 st cycles s) := by
  unfold taskResult
  repeat' first
    | with_reducible assumption
    | intro _
    | with_reducible apply nodeEnded_foot (hW := (less hW))
    | with_reducible apply owe_foot (hW := (less hW))
    | with_reducible apply modCmd_foot (hW := (less hW))
    | with_reducible apply Foot.ite
    | split

theorem taskEnd_foot {W : List Area} {r s : State} (hW : [.fe, .ic, .err] ⊆ W) (seq : Nat) (st : Status) (cycles : Nat) (guilt : Option (Nat × Nat)) (h : Foot W r s) :
    Foot W r (taskEnd seq st cycles guilt s) := by
  unfold taskEnd
  repeat' first
    | with_reducible assumption
    | intro _
    | with_reducible apply returnHandles_foot (hW := (less hW))
    | with_reducible apply markGuilty_foot (hW := (less hW))
    | with_reducible apply settle_foot (hW := (less hW))
    | with_reducible apply taskResult_foot (hW := (less hW))
    | with_reducible apply Foot.ite
    | exact Or.inl (hW (by decide))
    | with_reducible exact Or.inr rfl
    | with_reducible exact id
    | with_reducible exact Nat.le_refl _
    | (simp only [Foot.lit_eq]; with_reducible apply Foot.litL rfl)
    | split
    | dsimp only

theorem taskFault_foot {W : List Area} {r s : State} (hW : [.fe, .ic, .err] ⊆ W) (seq : Nat) (st : Status) (detail : Nat) (h : Foot W r s) :
    Foot W r (taskFault seq st detail s) := by
  unfold taskFault
  repeat' first
    | with_reducible assumption
    | intro _
    | with_reducible apply taskEnd_foot (hW := (less hW))

theorem cmdFault_foot {W : List Area} {r s : State} (hW : [.fe, .ic, .err] ⊆ W) (q : Nat) (id : Nat) (st : Status) (h : Foot W r s) :
    Foot W r (cmdFault q id st s) := by
  unfold cmdFault
  repeat' first
    | with_reducible assumption
    | intro _
    | with_reducible apply markGuilty_foot (hW := (less hW))
    | with_reducible apply modCmd_foot (hW := (less hW))
    | with_reducible apply Foot.ite
    | split

theorem xlatFault_foot {W : List Area} {r s : State} (hW : [.fe, .ic, .err] ⊆ W) (seq : Nat) (c : Nat) (kind : Nat) (source : Nat) (va : Nat) (h : Foot W r s) :
    Foot W r (xlatFault seq c kind source va s) := by
  unfold xlatFault
  repeat' first
    | with_reducible assumption
    | intro _
    | with_reducible apply taskEnd_foot (hW := (less hW))
    | with_reducible apply taskFault_foot (hW := (less hW))
    | with_reducible apply recordFault_foot (hW := (less hW))
    | with_reducible apply Foot.ite

end Sys2Proof.Laws
end

