-- ==== Sys2Proof/Laws/FootSyncOps.lean ====
section
/-!
SUPPORT. Footprints of the operations of Machine/SyncOps.lean.
-/
namespace Sys2Proof.Laws
open Sys2Proof Sys2Proof.Machine
set_option Elab.async false

theorem modArr_foot {W : List Area} {r s : State} (hW : [.arr] ⊆ W) (p : Nat) (f : Arr → Arr) (h : Foot W r s) :
    Foot W r (modArr p f s) := by
  unfold modArr
  repeat' first
    | with_reducible assumption
    | intro _
    | with_reducible apply Foot.ite
    | exact Or.inl (hW (by decide))
    | with_reducible exact Or.inr rfl
    | with_reducible exact id
    | with_reducible exact Nat.le_refl _
    | (simp only [Foot.lit_eq]; with_reducible apply Foot.litL rfl)

theorem modPhys_foot {W : List Area} {r s : State} (hW : [.arr] ⊆ W) (p : Nat) (f : PhysArr → PhysArr) (h : Foot W r s) :
    Foot W r (modPhys p f s) := by
  unfold modPhys
  repeat' first
    | with_reducible assumption
    | intro _
    | with_reducible apply Foot.ite
    | exact Or.inl (hW (by decide))
    | with_reducible exact Or.inr rfl
    | with_reducible exact id
    | with_reducible exact Nat.le_refl _
    | (simp only [Foot.lit_eq]; with_reducible apply Foot.litL rfl)

theorem twWrite_foot {W : List Area} {r s : State} (hW : [.tw] ⊆ W) (i : Nat) (v : W32) (kind : Nat) (id : Nat) (h : Foot W r s) :
    Foot W r (twWrite i v kind id s) := by
  unfold twWrite
  repeat' first
    | with_reducible assumption
    | intro _
    | with_reducible apply Foot.ite
    | exact Or.inl (hW (by decide))
    | with_reducible exact Or.inr rfl
    | with_reducible exact id
    | with_reducible exact Nat.le_refl _
    | (simp only [Foot.lit_eq]; with_reducible apply Foot.litL rfl)

theorem wakeWait_foot {W : List Area} {r s : State} (hW : [.arr, .tw] ⊆ W) (w : TwWait) (v : W32) (cond : Bool) (h : Foot W r s) :
    Foot W r (wakeWait w v cond s) := by
  unfold wakeWait
  repeat' first
    | with_reducible assumption
    | intro _
    | with_reducible apply modArr_foot (hW := (less hW))
    | with_reducible apply Foot.ite
    | exact Or.inl (hW (by decide))
    | with_reducible exact Or.inr rfl
    | with_reducible exact id
    | with_reducible exact Nat.le_refl _
    | (simp only [Foot.lit_eq]; with_reducible apply Foot.litL rfl)

theorem releaseWaits_foot {W : List Area} {r s : State} (hW : [.arr, .tw] ⊆ W) (i : Nat) (h : Foot W r s) :
    Foot W r (releaseWaits i s) := by
  unfold releaseWaits
  repeat' first
    | with_reducible assumption
    | intro _
    | with_reducible apply each_foot
    | with_reducible apply wakeWait_foot (hW := (less hW))

theorem grantTake_foot {W : List Area} {r s : State} (hW : [.arr, .tw] ⊆ W) (w : TwWait) (h : Foot W r s) :
    Foot W r (grantTake w s) := by
  unfold grantTake
  repeat' first
    | with_reducible assumption
    | intro _
    | with_reducible apply wakeWait_foot (hW := (less hW))
    | with_reducible apply twWrite_foot (hW := (less hW))
    | with_reducible apply Foot.ite

theorem grantTakes_foot {W : List Area} {r s : State} (hW : [.arr, .tw] ⊆ W) (i : Nat) (h : Foot W r s) :
    Foot W r (grantTakes i s) := by
  unfold grantTakes
  repeat' first
    | with_reducible assumption
    | intro _
    | with_reducible apply each_foot
    | with_reducible apply grantTake_foot (hW := (less hW))

theorem tallyRelease_foot {W : List Area} {r s : State} (hW : [.arr, .tw] ⊆ W) (i : Nat) (h : Foot W r s) :
    Foot W r (tallyRelease i s) := by
  unfold tallyRelease
  repeat' first
    | with_reducible assumption
    | intro _
    | with_reducible apply releaseWaits_foot (hW := (less hW))
    | with_reducible apply grantTakes_foot (hW := (less hW))
    | with_reducible apply Foot.ite

theorem breakGroup_foot {W : List Area} {r s : State} (hW : [.sg, .ic] ⊆ W) (g : Nat) (h : Foot W r s) :
    Foot W r (breakGroup g s) := by
  unfold breakGroup
  repeat' first
    | with_reducible assumption
    | intro _
    | with_reducible apply notice_foot (hW := (less hW))
    | with_reducible apply modGroup_foot (hW := (less hW))
    | with_reducible apply Foot.ite

theorem sendTable_foot {W : List Area} {r s : State} (hW : [.cells, .mem, .rg, .fab, .sg, .fe, .ic, .err, .ports] ⊆ W) (g : Nat) (m : Nat) (table : List Byte) (off : Nat) (put : Nat → W32 → Nat → Nat → State → State) (h_put : ∀ y0 y1 y2 y3 s', Foot W r s' → Foot W r (put y0 y1 y2 y3 s')) (h : Foot W r s) :
    Foot W r (sendTable g m table off put s) := by
  unfold sendTable
  repeat' first
    | with_reducible assumption
    | intro _
    | with_reducible apply reportCe_foot (hW := (less hW))
    | with_reducible apply accessC_foot (hW := (less hW))
    | with_reducible apply writeMem_foot (hW := (less hW))
    | with_reducible apply each_foot
    | with_reducible apply sendReq_foot (hW := (less hW))
    | apply h_put
    | with_reducible apply Foot.ite
    | exact Or.inl (hW (by decide))
    | with_reducible exact Or.inr rfl
    | with_reducible exact id
    | with_reducible exact Nat.le_refl _
    | (simp only [Foot.lit_eq]; with_reducible apply Foot.litL rfl)

theorem publish_foot {W : List Area} {r s : State} (hW : [.cells, .mem, .rg, .fab, .sg, .fe, .ic, .err, .csb, .ports, .freeCtr] ⊆ W) (g : Nat) (put : Nat → W32 → Nat → Nat → State → State) (h_put : ∀ y0 y1 y2 y3 s', Foot W r s' → Foot W r (put y0 y1 y2 y3 s')) (h : Foot W r s) :
    Foot W r (publish g put s) := by
  unfold publish
  repeat' first
    | with_reducible assumption
    | intro _
    | with_reducible apply writeCtl_foot (hW := (less hW))
    | with_reducible apply modGroup_foot (hW := (less hW))
    | with_reducible apply reportCe_foot (hW := (less hW))
    | with_reducible apply each_foot
    | with_reducible apply sendTable_foot (hW := (less hW))
    | apply h_put
    | with_reducible apply Foot.ite

theorem openGate_foot {W : List Area} {r s : State} (hW : [.cells, .mem, .rg, .fab, .sg, .fe, .ic, .err, .csb, .ports, .freeCtr] ⊆ W) (g : Gate) (put : Nat → W32 → Nat → Nat → State → State) (h_put : ∀ y0 y1 y2 y3 s', Foot W r s' → Foot W r (put y0 y1 y2 y3 s')) (h : Foot W r s) :
    Foot W r (openGate g put s) := by
  unfold openGate
  repeat' first
    | with_reducible assumption
    | intro _
    | with_reducible apply publish_foot (hW := (less hW))
    | with_reducible apply taskEnd_foot (hW := (less hW))
    | apply h_put
    | with_reducible apply Foot.ite
    | exact Or.inl (hW (by decide))
    | with_reducible exact Or.inr rfl
    | with_reducible exact id
    | with_reducible exact Nat.le_refl _
    | (simp only [Foot.lit_eq]; with_reducible apply Foot.litL rfl)

theorem tallyPut_foot {W : List Area} {r s : State} (hW : [.cells, .mem, .rg, .arr, .fab, .sg, .fe, .tw, .ic, .err, .csb, .ports, .freeCtr] ⊆ W) (fuel : Nat) (i : Nat) (v : W32) (kind : Nat) (id : Nat) (h : Foot W r s) :
    Foot W r (tallyPut fuel i v kind id s) := by
  induction fuel generalizing i v kind id s with
  | zero =>
    unfold tallyPut
    repeat' first
      | with_reducible assumption
      | intro _
      | with_reducible apply tallyRelease_foot (hW := (less hW))
      | with_reducible apply twWrite_foot (hW := (less hW))
  | succ _ ih =>
    unfold tallyPut
    repeat' first
      | with_reducible assumption
      | intro _
      | with_reducible apply ih
      | with_reducible apply tallyRelease_foot (hW := (less hW))
      | with_reducible apply twWrite_foot (hW := (less hW))
      | with_reducible apply each_foot
      | with_reducible apply openGate_foot (hW := (less hW))
      | with_reducible apply Foot.ite

theorem tallySet_foot {W : List Area} {r s : State} (hW : [.cells, .mem, .rg, .arr, .fab, .sg, .fe, .tw, .ic, .err, .csb, .ports, .freeCtr] ⊆ W) (i : Nat) (v : W32) (kind : Nat) (id : Nat) (h : Foot W r s) :
    Foot W r (tallySet i v kind id s) := by
  unfold tallySet
  repeat' first
    | with_reducible assumption
    | intro _
    | with_reducible apply tallyPut_foot (hW := (less hW))

theorem tallyAdd_foot {W : List Area} {r s : State} (hW : [.cells, .mem, .rg, .arr, .fab, .sg, .fe, .tw, .ic, .err, .csb, .ports, .freeCtr] ⊆ W) (i : Nat) (d : W32) (kind : Nat) (id : Nat) (h : Foot W r s) :
    Foot W r (tallyAdd i d kind id s) := by
  unfold tallyAdd
  repeat' first
    | with_reducible assumption
    | intro _
    | with_reducible apply tallySet_foot (hW := (less hW))

theorem testGates_foot {W : List Area} {r s : State} (hW : [.cells, .mem, .rg, .arr, .fab, .sg, .fe, .tw, .ic, .err, .csb, .ports, .freeCtr] ⊆ W) (h : Foot W r s) :
    Foot W r (testGates s) := by
  unfold testGates
  repeat' first
    | with_reducible assumption
    | intro _
    | with_reducible apply each_foot
    | with_reducible apply openGate_foot (hW := (less hW))
    | with_reducible apply tallyPut_foot (hW := (less hW))
    | with_reducible apply Foot.ite

theorem wakeBarrier_foot {W : List Area} {r s : State} (hW : [.arr] ⊆ W) (seq : Nat) (gen : Option Nat) (h : Foot W r s) :
    Foot W r (wakeBarrier seq gen s) := by
  unfold wakeBarrier
  repeat' first
    | with_reducible assumption
    | intro _
    | with_reducible apply modArr_foot (hW := (less hW))
    | with_reducible apply Foot.ite
    | exact Or.inl (hW (by decide))
    | with_reducible exact Or.inr rfl
    | with_reducible exact id
    | with_reducible exact Nat.le_refl _
    | (simp only [Foot.lit_eq]; with_reducible apply Foot.litL rfl)
    | split

theorem barArrive_foot {W : List Area} {r s : State} (hW : [.arr, .tw] ⊆ W) (c : Nat) (seq : Nat) (h : Foot W r s) :
    Foot W r (barArrive c seq s) := by
  unfold barArrive
  repeat' first
    | with_reducible assumption
    | intro _
    | with_reducible apply modBar_foot (hW := (less hW))
    | with_reducible apply each_foot
    | with_reducible apply wakeBarrier_foot (hW := (less hW))
    | with_reducible apply Foot.ite

theorem barBreak_foot {W : List Area} {r s : State} (hW : [.arr, .tw] ⊆ W) (c : Nat) (h : Foot W r s) :
    Foot W r (barBreak c s) := by
  unfold barBreak
  repeat' first
    | with_reducible assumption
    | intro _
    | with_reducible apply modBar_foot (hW := (less hW))
    | with_reducible apply each_foot
    | with_reducible apply wakeBarrier_foot (hW := (less hW))

theorem breakBars_foot {W : List Area} {r s : State} (hW : [.arr, .tw] ⊆ W) (c : Nat) (h : Foot W r s) :
    Foot W r (breakBars c s) := by
  unfold breakBars
  repeat' first
    | with_reducible assumption
    | intro _
    | with_reducible apply each_foot
    | with_reducible apply barBreak_foot (hW := (less hW))

end Sys2Proof.Laws
end

