-- ==== Sys2Proof/Laws/FootSchedOps.lean ====
section
/-!
SUPPORT. Footprints of the operations of Machine/SchedOps.lean.
-/
namespace Sys2Proof.Laws
open Sys2Proof Sys2Proof.Machine
set_option Elab.async false

theorem refill_foot {W : List Area} {r s : State} (hW : [.arr, .fe] ⊆ W) (fuel : Nat) (k : Nat) (h : Foot W r s) :
    Foot W r (refill fuel k s) := by
  induction fuel generalizing k s with
  | zero =>
    unfold refill
    repeat' first
      | with_reducible assumption
  | succ _ ih =>
    unfold refill
    repeat' first
      | with_reducible assumption
      | intro _
      | with_reducible apply ih
      | with_reducible apply modArr_foot (hW := (less hW))
      | with_reducible apply modTask_foot (hW := (less hW))
      | with_reducible apply Foot.ite
      | split

theorem fillSeq_foot {W : List Area} {r s : State} (hW : [.arr, .fe] ⊆ W) (k : Nat) (h : Foot W r s) :
    Foot W r (fillSeq k s) := by
  unfold fillSeq
  repeat' first
    | with_reducible assumption
    | intro _
    | with_reducible apply refill_foot (hW := (less hW))

theorem requestPre_foot {W : List Area} {r s : State} (hW : [.arr] ⊆ W) (p : Nat) (now : Bool) (h : Foot W r s) :
    Foot W r (requestPre p now s) := by
  unfold requestPre
  repeat' first
    | with_reducible assumption
    | intro _
    | with_reducible apply modArr_foot (hW := (less hW))

theorem requeueEntry_foot {W : List Area} {r s : State} (hW : [.arr, .fe] ⊆ W) (l : Nat) (p : Nat) (seq : Nat) (h : Foot W r s) :
    Foot W r (requeueEntry l p seq s) := by
  unfold requeueEntry
  repeat' first
    | with_reducible assumption
    | intro _
    | with_reducible apply modArr_foot (hW := (less hW))
    | with_reducible apply modTask_foot (hW := (less hW))
    | with_reducible apply Foot.ite
    | split

theorem requeue_foot {W : List Area} {r s : State} (hW : [.arr, .fe] ⊆ W) (k : Nat) (h : Foot W r s) :
    Foot W r (requeue k s) := by
  unfold requeue
  repeat' first
    | with_reducible assumption
    | intro _
    | with_reducible apply each_foot
    | with_reducible apply requeueEntry_foot (hW := (less hW))
    | with_reducible apply Foot.ite
    | split

theorem raisePre_foot {W : List Area} {r s : State} (hW : [.arr, .fe] ⊆ W) (k : Nat) (h : Foot W r s) :
    Foot W r (raisePre k s) := by
  unfold raisePre
  repeat' first
    | with_reducible assumption
    | intro _
    | with_reducible apply each_foot
    | with_reducible apply requestPre_foot (hW := (less hW))
    | with_reducible apply fillSeq_foot (hW := (less hW))
    | with_reducible apply requeue_foot (hW := (less hW))
    | with_reducible apply Foot.ite
    | split

theorem raiseInTurn_foot {W : List Area} {r s : State} (hW : [.arr, .fe] ⊆ W) (k : Nat) (h : Foot W r s) :
    Foot W r (raiseInTurn k s) := by
  unfold raiseInTurn
  repeat' first
    | with_reducible assumption
    | intro _
    | with_reducible apply raisePre_foot (hW := (less hW))
    | with_reducible apply Foot.ite

theorem stageTask_foot {W : List Area} {r s : State} (hW : [.mem, .rg, .fe] ⊆ W) (a0 : Task) (h : Foot W r s) :
    Foot W r (stageTask a0 s) := by
  unfold stageTask
  repeat' first
    | with_reducible assumption
    | intro _
    | with_reducible apply modTask_foot (hW := (less hW))
    | with_reducible apply each_foot
    | with_reducible apply accessC_foot (hW := (less hW))
    | with_reducible apply xlFill_foot (hW := (less hW))
    | with_reducible apply Foot.ite
    | split

theorem stageQueue_foot {W : List Area} {r s : State} (hW : [.mem, .rg, .fe] ⊆ W) (q : Nat) (h : Foot W r s) :
    Foot W r (stageQueue q s) := by
  unfold stageQueue
  repeat' first
    | with_reducible assumption
    | intro _
    | with_reducible apply each_foot
    | with_reducible apply stageTask_foot (hW := (less hW))

theorem issueEap_foot {W : List Area} {r s : State} (hW : [.blk, .fe, .ports] ⊆ W) (a0 : Nat) (seq : Nat) (h : Foot W r s) :
    Foot W r (issueEap a0 seq s) := by
  unfold issueEap
  repeat' first
    | with_reducible assumption
    | intro _
    | with_reducible apply modTask_foot (hW := (less hW))
    | with_reducible apply emit_foot (hW := (less hW))
    | with_reducible apply Foot.ite
    | exact Or.inl (hW (by decide))
    | with_reducible exact Or.inr rfl
    | with_reducible exact id
    | with_reducible exact Nat.le_refl _
    | (simp only [Foot.lit_eq]; with_reducible apply Foot.litL rfl)
    | split

theorem issueWaiting_foot {W : List Area} {r s : State} (hW : [.blk, .fe, .ports] ⊆ W) (fuel : Nat) (a1 : Nat) (h : Foot W r s) :
    Foot W r (issueWaiting fuel a1 s) := by
  induction fuel generalizing a1 s with
  | zero =>
    unfold issueWaiting
    repeat' first
      | with_reducible assumption
  | succ _ ih =>
    unfold issueWaiting
    repeat' first
      | with_reducible assumption
      | intro _
      | with_reducible apply ih
      | with_reducible apply issueEap_foot (hW := (less hW))
      | with_reducible apply Foot.ite
      | exact Or.inl (hW (by decide))
      | with_reducible exact Or.inr rfl
      | with_reducible exact id
      | with_reducible exact Nat.le_refl _
      | (simp only [Foot.lit_eq]; with_reducible apply Foot.litL rfl)
      | split
      | dsimp only

theorem cancelTag_foot {W : List Area} {r s : State} (hW : [.blk, .ports] ⊆ W) (a0 : EapTag) (h : Foot W r s) :
    Foot W r (cancelTag a0 s) := by
  unfold cancelTag
  repeat' first
    | with_reducible assumption
    | intro _
    | with_reducible apply emit_foot (hW := (less hW))
    | with_reducible apply Foot.ite
    | exact Or.inl (hW (by decide))
    | with_reducible exact Or.inr rfl
    | with_reducible exact id
    | with_reducible exact Nat.le_refl _
    | (simp only [Foot.lit_eq]; with_reducible apply Foot.litL rfl)

end Sys2Proof.Laws
end

