-- ==== Sys2Proof/Laws/FootArrayOps.lean ====
section
/-!
SUPPORT. Footprints of the operations of Machine/ArrayOps.lean.
-/
namespace Sys2Proof.Laws
open Sys2Proof Sys2Proof.Machine
set_option Elab.async false

theorem cancelLoad_foot {W : List Area} {r s : State} (hW : [.fab, .ports] ⊆ W) (l : Nat) (h : Foot W r s) :
    Foot W r (cancelLoad l s) := by
  unfold cancelLoad
  repeat' first
    | with_reducible assumption
    | intro _
    | with_reducible apply dropReads_foot (hW := (less hW))
    | with_reducible apply Foot.ite
    | exact Or.inl (hW (by decide))
    | with_reducible exact Or.inr rfl
    | with_reducible exact id
    | with_reducible exact Nat.le_refl _
    | (simp only [Foot.lit_eq]; with_reducible apply Foot.litL rfl)

theorem abandonArr_foot {W : List Area} {r s : State} (hW : [.fab, .ports] ⊆ W) (l : Nat) (h : Foot W r s) :
    Foot W r (abandonArr l s) := by
  unfold abandonArr
  repeat' first
    | with_reducible assumption
    | intro _
    | with_reducible apply dropReads_foot (hW := (less hW))
    | with_reducible apply Foot.ite
    | exact Or.inl (hW (by decide))
    | with_reducible exact Or.inr rfl
    | with_reducible exact id
    | with_reducible exact Nat.le_refl _
    | (simp only [Foot.lit_eq]; with_reducible apply Foot.litL rfl)

theorem leaveArray_foot {W : List Area} {r s : State} (hW : [.rg, .arr, .fab, .tw, .ports] ⊆ W) (p : Nat) (h : Foot W r s) :
    Foot W r (leaveArray p s) := by
  unfold leaveArray
  repeat' first
    | with_reducible assumption
    | intro _
    | with_reducible apply modArr_foot (hW := (less hW))
    | with_reducible apply abandonArr_foot (hW := (less hW))
    | with_reducible apply dropRuns_foot (hW := (less hW))
    | with_reducible apply Foot.ite
    | exact Or.inl (hW (by decide))
    | with_reducible exact Or.inr rfl
    | with_reducible exact id
    | with_reducible exact Nat.le_refl _
    | (simp only [Foot.lit_eq]; with_reducible apply Foot.litL rfl)

theorem useCycles_foot {W : List Area} {r s : State} (hW : [.fe] ⊆ W) (q : Nat) (cyc : Nat) (h : Foot W r s) :
    Foot W r (useCycles q cyc s) := by
  unfold useCycles
  repeat' first
    | with_reducible assumption
    | intro _
    | with_reducible apply modPart_foot (hW := (less hW))
    | with_reducible apply modVai_foot (hW := (less hW))

theorem leaveBars_foot {W : List Area} {r s : State} (hW : [.tw] ⊆ W) (seq : Nat) (h : Foot W r s) :
    Foot W r (leaveBars seq s) := by
  unfold leaveBars
  repeat' first
    | with_reducible assumption
    | intro _
    | with_reducible apply each_foot
    | with_reducible apply modBar_foot (hW := (less hW))

theorem endOnArray_foot {W : List Area} {r s : State} (hW : [.rg, .arr, .fab, .fe, .tw, .ic, .err, .ports, .freeCtr] ⊆ W) (p : Nat) (seq : Nat) (st : Status) (guilt : Option (Nat × Nat)) (h : Foot W r s) :
    Foot W r (endOnArray p seq st guilt s) := by
  unfold endOnArray
  repeat' first
    | with_reducible assumption
    | intro _
    | with_reducible apply leaveArray_foot (hW := (less hW))
    | with_reducible apply fresh_foot (hW := (less hW))
    | with_reducible apply taskEnd_foot (hW := (less hW))
    | with_reducible apply leaveBars_foot (hW := (less hW))
    | with_reducible apply useCycles_foot (hW := (less hW))
    | with_reducible apply Foot.ite
    | with_reducible refine Foot.snd (by assumption) ?_
    | split

theorem faultOn_foot {W : List Area} {r s : State} (hW : [.rg, .arr, .fab, .fe, .tw, .ic, .err, .ports, .freeCtr] ⊆ W) (p : Nat) (seq : Nat) (st : Status) (h : Foot W r s) :
    Foot W r (faultOn p seq st s) := by
  unfold faultOn
  repeat' first
    | with_reducible assumption
    | intro _
    | with_reducible apply endOnArray_foot (hW := (less hW))

theorem xlatOn_foot {W : List Area} {r s : State} (hW : [.rg, .arr, .fab, .fe, .tw, .ic, .err, .ports, .freeCtr] ⊆ W) (p : Nat) (seq : Nat) (c : Nat) (kind : Nat) (va : Nat) (h : Foot W r s) :
    Foot W r (xlatOn p seq c kind va s) := by
  unfold xlatOn
  repeat' first
    | with_reducible assumption
    | intro _
    | with_reducible apply endOnArray_foot (hW := (less hW))
    | with_reducible apply recordFault_foot (hW := (less hW))

theorem lsError_foot {W : List Area} {r s : State} (hW : [.arr, .ic, .err] ⊆ W) (p : Nat) (c : Nat) (a2 : LsError) (h : Foot W r s) :
    Foot W r (lsError p c a2 s) := by
  unfold lsError
  repeat' first
    | with_reducible assumption
    | intro _
    | with_reducible apply reportCe_foot (hW := (less hW))
    | with_reducible apply modArr_foot (hW := (less hW))
    | with_reducible apply modPhys_foot (hW := (less hW))
    | with_reducible apply Foot.ite

theorem lsFound_foot {W : List Area} {r s : State} (hW : [.arr, .ic, .err] ⊆ W) (l : Nat) (cls : Nat) (op : Nat) (ecc : List LsError) (h : Foot W r s) :
    Foot W r (lsFound l cls op ecc s) := by
  unfold lsFound
  repeat' first
    | with_reducible assumption
    | intro _
    | with_reducible apply each_foot
    | with_reducible apply lsError_foot (hW := (less hW))
    | with_reducible apply Foot.ite
    | split

theorem arrayOp_foot {W : List Area} {r s : State} (hW : [.rg, .arr, .fab, .fe, .tw, .ic, .err, .ports, .freeCtr] ⊆ W) (l : Nat) (ecc : List LsError) (cls : Nat) (op : Nat) (mods : Nat → Bool) (f : Nat → Task → Nat → State → State) (h_f : ∀ y0 y1 y2 s', Foot W r s' → Foot W r (f y0 y1 y2 s')) (h : Foot W r s) :
    Foot W r (arrayOp l ecc cls op mods f s) := by
  unfold arrayOp
  repeat' first
    | with_reducible assumption
    | intro _
    | with_reducible apply guarded_foot
    | with_reducible apply lsFound_foot (hW := (less hW))
    | with_reducible apply faultOn_foot (hW := (less hW))
    | apply h_f
    | with_reducible apply Foot.ite
    | split
    | dsimp only

theorem retireWith_foot {W : List Area} {r s : State} (hW : [.arr] ⊆ W) (p : Nat) (f : Arr → Arr) (h : Foot W r s) :
    Foot W r (retireWith p f s) := by
  unfold retireWith
  repeat' first
    | with_reducible assumption
    | intro _
    | with_reducible apply modArr_foot (hW := (less hW))

theorem retireOn_foot {W : List Area} {r s : State} (hW : [.arr] ⊆ W) (p : Nat) (h : Foot W r s) :
    Foot W r (retireOn p s) := by
  unfold retireOn
  repeat' first
    | with_reducible assumption
    | intro _
    | with_reducible apply modArr_foot (hW := (less hW))

theorem loadPiece_foot {W : List Area} {r s : State} (hW : [.mem, .rg, .fab, .fe, .ports] ⊆ W) (l : Nat) (a1 : Task) (q : Nat × Nat × Nat) (h : Foot W r s) :
    Foot W r (loadPiece l a1 q s) := by
  unfold loadPiece
  repeat' first
    | with_reducible assumption
    | intro _
    | with_reducible apply accessC_foot (hW := (less hW))
    | with_reducible apply xlFill_foot (hW := (less hW))
    | with_reducible apply hostRead_foot (hW := (less hW))
    | with_reducible apply each_foot
    | with_reducible apply sendReq_foot (hW := (less hW))
    | with_reducible apply Foot.ite
    | split
    | dsimp only

theorem startLoad_foot {W : List Area} {r s : State} (hW : [.mem, .rg, .arr, .fab, .fe, .tw, .ic, .err, .ports, .freeCtr] ⊆ W) (l : Nat) (p : Nat) (a2 : Task) (va : Nat) (ls : Nat) (n : Nat) (st : Nat) (h : Foot W r s) :
    Foot W r (startLoad l p a2 va ls n st s) := by
  unfold startLoad
  repeat' first
    | with_reducible assumption
    | intro _
    | with_reducible apply xlatOn_foot (hW := (less hW))
    | with_reducible apply each_foot
    | with_reducible apply loadPiece_foot (hW := (less hW))
    | with_reducible apply modArr_foot (hW := (less hW))
    | with_reducible apply Foot.ite
    | split
    | dsimp only

theorem landPiece_foot {W : List Area} {r s : State} (hW : [.arr] ⊆ W) (p : Nat) (q : Nat × Nat × Nat) (h : Foot W r s) :
    Foot W r (landPiece p q s) := by
  unfold landPiece
  repeat' first
    | with_reducible assumption
    | intro _
    | with_reducible apply modArr_foot (hW := (less hW))

theorem countStore_foot {W : List Area} {r s : State} (hW : [.arr] ⊆ W) (p : Nat) (due : Bool) (h : Foot W r s) :
    Foot W r (countStore p due s) := by
  unfold countStore
  repeat' first
    | with_reducible assumption
    | intro _
    | with_reducible apply modArr_foot (hW := (less hW))

theorem taskPoisons_foot {W : List Area} {r s : State} (hW : [.fe] ⊆ W) (seq : Nat) (bad : Bool) (h : Foot W r s) :
    Foot W r (taskPoisons seq bad s) := by
  unfold taskPoisons
  repeat' first
    | with_reducible assumption
    | intro _
    | with_reducible apply modTask_foot (hW := (less hW))
    | with_reducible apply Foot.ite

theorem storePiece_foot {W : List Area} {r s : State} (hW : [.cells, .mem, .rg, .arr, .fab, .fe, .ic, .err, .csb, .ports, .freeCtr] ⊆ W) (l : Nat) (p : Nat) (a2 : Task) (q : Nat × Nat × Nat) (h : Foot W r s) :
    Foot W r (storePiece l p a2 q s) := by
  unfold storePiece
  repeat' first
    | with_reducible assumption
    | intro _
    | with_reducible apply taskPoisons_foot (hW := (less hW))
    | with_reducible apply accessC_foot (hW := (less hW))
    | with_reducible apply xlFill_foot (hW := (less hW))
    | with_reducible apply countStore_foot (hW := (less hW))
    | with_reducible apply writeMem_foot (hW := (less hW))
    | with_reducible apply hostWriteC_foot (hW := (less hW))
    | with_reducible apply each_foot
    | with_reducible apply sendReq_foot (hW := (less hW))
    | with_reducible apply Foot.ite
    | split
    | dsimp only

theorem doStore_foot {W : List Area} {r s : State} (hW : [.cells, .mem, .rg, .arr, .fab, .fe, .tw, .ic, .err, .csb, .ports, .freeCtr] ⊆ W) (l : Nat) (p : Nat) (a2 : Task) (g : Nat) (va : Nat) (ls : Nat) (n : Nat) (st : Nat) (h : Foot W r s) :
    Foot W r (doStore l p a2 g va ls n st s) := by
  unfold doStore
  repeat' first
    | with_reducible assumption
    | intro _
    | with_reducible apply xlatOn_foot (hW := (less hW))
    | with_reducible apply each_foot
    | with_reducible apply storePiece_foot (hW := (less hW))
    | with_reducible apply retireOn_foot (hW := (less hW))
    | with_reducible apply modArr_foot (hW := (less hW))
    | with_reducible apply Foot.ite
    | split

theorem fenceCheck_foot {W : List Area} {r s : State} (hW : [.rg, .arr, .fab, .fe, .tw, .ic, .err, .ports, .freeCtr] ⊆ W) (p : Nat) (h : Foot W r s) :
    Foot W r (fenceCheck p s) := by
  unfold fenceCheck
  repeat' first
    | with_reducible assumption
    | intro _
    | with_reducible apply retireOn_foot (hW := (less hW))
    | with_reducible apply endOnArray_foot (hW := (less hW))
    | with_reducible apply Foot.ite
    | split

theorem armWait_foot {W : List Area} {r s : State} (hW : [.arr, .tw] ⊆ W) (l : Nat) (p : Nat) (take : Bool) (idx : Nat) (cond : Nat) (dst : Nat) (arg : W32) (h : Foot W r s) :
    Foot W r (armWait l p take idx cond dst arg s) := by
  unfold armWait
  repeat' first
    | with_reducible assumption
    | intro _
    | with_reducible apply modArr_foot (hW := (less hW))
    | with_reducible apply releaseWaits_foot (hW := (less hW))
    | with_reducible apply twWrite_foot (hW := (less hW))
    | with_reducible apply Foot.ite
    | exact Or.inl (hW (by decide))
    | with_reducible exact Or.inr rfl
    | with_reducible exact id
    | with_reducible exact Nat.le_refl _
    | (simp only [Foot.lit_eq]; with_reducible apply Foot.litL rfl)

theorem doWait_foot {W : List Area} {r s : State} (hW : [.rg, .arr, .fab, .fe, .tw, .ic, .err, .ports, .freeCtr] ⊆ W) (l : Nat) (p : Nat) (a2 : Task) (w : Nat) (h : Foot W r s) :
    Foot W r (doWait l p a2 w s) := by
  unfold doWait
  repeat' first
    | with_reducible assumption
    | intro _
    | with_reducible apply faultOn_foot (hW := (less hW))
    | with_reducible apply armWait_foot (hW := (less hW))
    | with_reducible apply Foot.ite

end Sys2Proof.Laws
end

