-- ==== Sys2Proof/Laws/FootSaveOps.lean ====
section
/-!
SUPPORT. Footprints of the operations of Machine/SaveOps.lean.
-/
namespace Sys2Proof.Laws
open Sys2Proof Sys2Proof.Machine
set_option Elab.async false

theorem clearPool_foot {W : List Area} {r s : State} (hW : [.arr] ⊆ W) (us : List Nat) (h : Foot W r s) :
    Foot W r (clearPool us s) := by
  unfold clearPool
  repeat' first
    | with_reducible assumption
    | intro _
    | with_reducible apply Foot.ite
    | exact Or.inl (hW (by decide))
    | with_reducible exact Or.inr rfl
    | with_reducible exact id
    | with_reducible exact Nat.le_refl _
    | (simp only [Foot.lit_eq]; with_reducible apply Foot.litL rfl)

theorem recStore_foot {W : List Area} {r s : State} (hW : [.cells, .mem, .arr, .fe, .ic, .err] ⊆ W) (a0 : SaveRec) (bytes : List (Nat × Byte)) (marks : List Nat) (h : Foot W r s) :
    Foot W r (recStore a0 bytes marks s) := by
  unfold recStore
  repeat' first
    | with_reducible assumption
    | intro _
    | with_reducible apply clearPool_foot (hW := (less hW))
    | with_reducible apply logWrite_foot (hW := (less hW))
    | with_reducible apply zeroMem_foot (hW := (less hW))
    | with_reducible apply each_foot
    | with_reducible apply reportCe_foot (hW := (less hW))
    | with_reducible apply Foot.ite
    | exact foldl_tset_twf _ _ _ _ _ (by assumption)
    | exact Or.inl (hW (by decide))
    | with_reducible exact Or.inr rfl
    | with_reducible exact id
    | with_reducible exact Nat.le_refl _
    | (simp only [Foot.lit_eq]; with_reducible apply Foot.litL rfl)

theorem recPatch_foot {W : List Area} {r s : State} (hW : [.cells, .mem, .arr, .fe, .ic, .err] ⊆ W) (a0 : SaveRec) (off : Nat) (data : List Byte) (bad : Nat → Bool) (h : Foot W r s) :
    Foot W r (recPatch a0 off data bad s) := by
  unfold recPatch
  repeat' first
    | with_reducible assumption
    | intro _
    | with_reducible apply each_foot
    | with_reducible apply writeMem_foot (hW := (less hW))
    | with_reducible apply Foot.ite
    | exact Or.inl (hW (by decide))
    | with_reducible exact Or.inr rfl
    | with_reducible exact id
    | with_reducible exact Nat.le_refl _
    | (simp only [Foot.lit_eq]; with_reducible apply Foot.litL rfl)

theorem freeRec_foot {W : List Area} {r s : State} (hW : [.arr] ⊆ W) (a0 : SaveRec) (h : Foot W r s) :
    Foot W r (freeRec a0 s) := by
  unfold freeRec
  repeat' first
    | with_reducible assumption
    | intro _
    | with_reducible apply clearPool_foot (hW := (less hW))
    | with_reducible apply Foot.ite
    | exact Or.inl (hW (by decide))
    | with_reducible exact Or.inr rfl
    | with_reducible exact id
    | with_reducible exact Nat.le_refl _
    | (simp only [Foot.lit_eq]; with_reducible apply Foot.litL rfl)

theorem freeRecs_foot {W : List Area} {r s : State} (hW : [.arr] ⊆ W) (f : SaveRec → Bool) (h : Foot W r s) :
    Foot W r (freeRecs f s) := by
  unfold freeRecs
  repeat' first
    | with_reducible assumption
    | intro _
    | with_reducible apply each_foot
    | with_reducible apply freeRec_foot (hW := (less hW))

theorem beginSave_foot {W : List Area} {r s : State} (hW : [.mem, .rg, .arr, .fe] ⊆ W) (p : Nat) (a1 : Option (List Byte)) (idx : Nat) (h : Foot W r s) :
    Foot W r (beginSave p a1 idx s) := by
  unfold beginSave
  repeat' first
    | with_reducible assumption
    | intro _
    | with_reducible apply modArr_foot (hW := (less hW))
    | with_reducible apply accessC_foot (hW := (less hW))
    | with_reducible apply Foot.ite
    | exact Or.inl (hW (by decide))
    | with_reducible exact Or.inr rfl
    | with_reducible exact id
    | with_reducible exact Nat.le_refl _
    | (simp only [Foot.lit_eq]; with_reducible apply Foot.litL rfl)
    | split

theorem fullSave_foot {W : List Area} {r s : State} (hW : [.mem, .rg, .arr, .fab, .fe, .tw, .ports] ⊆ W) (p : Nat) (h : Foot W r s) :
    Foot W r (fullSave p s) := by
  unfold fullSave
  repeat' first
    | with_reducible assumption
    | intro _
    | with_reducible apply modArr_foot (hW := (less hW))
    | with_reducible apply cancelLoad_foot (hW := (less hW))
    | with_reducible apply dropRuns_foot (hW := (less hW))
    | with_reducible apply beginSave_foot (hW := (less hW))
    | with_reducible apply Foot.ite
    | exact Or.inl (hW (by decide))
    | with_reducible exact Or.inr rfl
    | with_reducible exact id
    | with_reducible exact Nat.le_refl _
    | (simp only [Foot.lit_eq]; with_reducible apply Foot.litL rfl)
    | split

theorem requestNow_foot {W : List Area} {r s : State} (hW : [.mem, .rg, .arr, .fab, .fe, .tw, .ports] ⊆ W) (p : Nat) (h : Foot W r s) :
    Foot W r (requestNow p s) := by
  unfold requestNow
  repeat' first
    | with_reducible assumption
    | intro _
    | with_reducible apply requestPre_foot (hW := (less hW))
    | with_reducible apply fullSave_foot (hW := (less hW))
    | with_reducible apply Foot.ite

theorem windowWrite_foot {W : List Area} {r s : State} (hW : [.cells, .mem, .arr, .fe, .ic, .err] ⊆ W) (seq : Nat) (l : Nat) (off : Nat) (data : List Byte) (bad : Nat → Bool) {t : State} (e : windowWrite seq l off data bad s = some t) (h : Foot W r s) :
    Foot W r t := by
  unfold windowWrite at e
  try dsimp only at e
  revert e
  repeat' first
    | (intro e; refine Foot.optIte e ?_ ?_)
    | split
    | (intro e; simp only [reduceCtorEq] at e; done)
    | (intro e; simp only [Option.some.injEq] at e; subst e)
  repeat' first
    | with_reducible assumption
    | intro _
    | with_reducible apply recPatch_foot (hW := (less hW))
    | with_reducible apply modArr_foot (hW := (less hW))
    | with_reducible apply Foot.ite
    | exact Or.inl (hW (by decide))
    | with_reducible exact Or.inr rfl
    | with_reducible exact id
    | with_reducible exact Nat.le_refl _
    | (simp only [Foot.lit_eq]; with_reducible apply Foot.litL rfl)

end Sys2Proof.Laws
end

