-- ==== Sys2Proof/Laws/FootArrCtrl.lean ====
section
/-!
SUPPORT. Footprints of the operations of Machine/ArrCtrl.lean.
-/
namespace Sys2Proof.Laws
open Sys2Proof Sys2Proof.Machine
set_option Elab.async false

theorem execNop_foot {W : List Area} {s : State} (hW : [.rg, .arr, .fab, .fe, .tw, .ic, .err, .ports, .freeCtr] ⊆ W) (l : Nat) (ecc : List LsError) {t : State} (e : execNop l s ecc = .next t) :
    Foot W s t := by
  unfold execNop at e
  refine run_foot e ?_
  intro s' h
  repeat' first
    | with_reducible assumption
    | intro _
    | with_reducible apply arrayOp_foot (hW := (less hW))
    | with_reducible apply retireOn_foot (hW := (less hW))

theorem execEndTask_foot {W : List Area} {s : State} (hW : [.rg, .arr, .fab, .fe, .tw, .ic, .err, .ports, .freeCtr] ⊆ W) (l : Nat) (ecc : List LsError) {t : State} (e : execEndTask l s ecc = .next t) :
    Foot W s t := by
  unfold execEndTask at e
  refine run_foot e ?_
  intro s' h
  repeat' first
    | with_reducible assumption
    | intro _
    | with_reducible apply arrayOp_foot (hW := (less hW))
    | with_reducible apply fenceCheck_foot (hW := (less hW))
    | with_reducible apply modArr_foot (hW := (less hW))

theorem execBr_foot {W : List Area} {s : State} (hW : [.rg, .arr, .fab, .fe, .tw, .ic, .err, .ports, .freeCtr] ⊆ W) (l : Nat) (ecc : List LsError) {t : State} (e : execBr l s ecc = .next t) :
    Foot W s t := by
  unfold execBr at e
  refine run_foot e ?_
  intro s' h
  repeat' first
    | with_reducible assumption
    | intro _
    | with_reducible apply arrayOp_foot (hW := (less hW))
    | with_reducible apply modArr_foot (hW := (less hW))

theorem execBrc_foot {W : List Area} {s : State} (hW : [.rg, .arr, .fab, .fe, .tw, .ic, .err, .ports, .freeCtr] ⊆ W) (l : Nat) (ecc : List LsError) {t : State} (e : execBrc l s ecc = .next t) :
    Foot W s t := by
  unfold execBrc at e
  refine run_foot e ?_
  intro s' h
  repeat' first
    | with_reducible assumption
    | intro _
    | with_reducible apply arrayOp_foot (hW := (less hW))
    | with_reducible apply modArr_foot (hW := (less hW))

theorem execCall_foot {W : List Area} {s : State} (hW : [.rg, .arr, .fab, .fe, .tw, .ic, .err, .ports, .freeCtr] ⊆ W) (l : Nat) (ecc : List LsError) {t : State} (e : execCall l s ecc = .next t) :
    Foot W s t := by
  unfold execCall at e
  refine run_foot e ?_
  intro s' h
  repeat' first
    | with_reducible assumption
    | intro _
    | with_reducible apply arrayOp_foot (hW := (less hW))
    | with_reducible apply modArr_foot (hW := (less hW))
    | with_reducible apply faultOn_foot (hW := (less hW))
    | with_reducible apply Foot.ite

theorem execRet_foot {W : List Area} {s : State} (hW : [.rg, .arr, .fab, .fe, .tw, .ic, .err, .ports, .freeCtr] ⊆ W) (l : Nat) (ecc : List LsError) {t : State} (e : execRet l s ecc = .next t) :
    Foot W s t := by
  unfold execRet at e
  refine run_foot e ?_
  intro s' h
  repeat' first
    | with_reducible assumption
    | intro _
    | with_reducible apply arrayOp_foot (hW := (less hW))
    | with_reducible apply faultOn_foot (hW := (less hW))
    | with_reducible apply modArr_foot (hW := (less hW))
    | with_reducible apply Foot.ite
    | split

theorem execLoop_foot {W : List Area} {s : State} (hW : [.rg, .arr, .fab, .fe, .tw, .ic, .err, .ports, .freeCtr] ⊆ W) (l : Nat) (ecc : List LsError) {t : State} (e : execLoop l s ecc = .next t) :
    Foot W s t := by
  unfold execLoop at e
  refine run_foot e ?_
  intro s' h
  repeat' first
    | with_reducible assumption
    | intro _
    | with_reducible apply arrayOp_foot (hW := (less hW))
    | with_reducible apply faultOn_foot (hW := (less hW))
    | with_reducible apply retireWith_foot (hW := (less hW))
    | with_reducible apply modArr_foot (hW := (less hW))
    | with_reducible apply Foot.ite

theorem execCheap_foot {W : List Area} {s : State} (hW : [.mem, .rg, .arr, .fab, .fe, .tw, .ic, .err, .ports, .freeCtr] ⊆ W) (l : Nat) (ecc : List LsError) {t : State} (e : execCheap l s ecc = .next t) :
    Foot W s t := by
  unfold execCheap at e
  refine run_foot e ?_
  intro s' h
  repeat' first
    | with_reducible assumption
    | intro _
    | with_reducible apply arrayOp_foot (hW := (less hW))
    | with_reducible apply retireOn_foot (hW := (less hW))
    | with_reducible apply beginSave_foot (hW := (less hW))
    | with_reducible apply reportCe_foot (hW := (less hW))
    | with_reducible apply Foot.ite
    | split

theorem execRdflag_foot {W : List Area} {s : State} (hW : [.rg, .arr, .fab, .fe, .tw, .ic, .err, .ports, .freeCtr] ⊆ W) (l : Nat) (ecc : List LsError) {t : State} (e : execRdflag l s ecc = .next t) :
    Foot W s t := by
  unfold execRdflag at e
  refine run_foot e ?_
  intro s' h
  repeat' first
    | with_reducible assumption
    | intro _
    | with_reducible apply arrayOp_foot (hW := (less hW))
    | with_reducible apply retireWith_foot (hW := (less hW))

theorem execClrflag_foot {W : List Area} {s : State} (hW : [.rg, .arr, .fab, .fe, .tw, .ic, .err, .ports, .freeCtr] ⊆ W) (l : Nat) (ecc : List LsError) {t : State} (e : execClrflag l s ecc = .next t) :
    Foot W s t := by
  unfold execClrflag at e
  refine run_foot e ?_
  intro s' h
  repeat' first
    | with_reducible assumption
    | intro _
    | with_reducible apply arrayOp_foot (hW := (less hW))
    | with_reducible apply retireWith_foot (hW := (less hW))

end Sys2Proof.Laws
end

