-- ==== Sys2Proof/Laws/FootHeapOps.lean ====
section
/-!
SUPPORT. Footprints of the operations of Machine/HeapOps.lean.
-/
namespace Sys2Proof.Laws
open Sys2Proof Sys2Proof.Machine
set_option Elab.async false

theorem choose_foot {W : List Area} {r s : State} (hW : [.freeCtr] ⊆ W) (legal : Nat → Bool) (d : Nat) (h : Foot W r s) :
    Foot W r (choose legal d s).2 := by
  unfold choose
  repeat' first
    | with_reducible assumption
    | intro _
    | with_reducible apply fresh_foot (hW := (less hW))

theorem chooseFree_foot {W : List Area} {r s : State} (hW : [.freeCtr] ⊆ W) (legal : Nat → Bool) (n : Nat) {k : Nat} {t : State} (e : chooseFree legal n s = some (k, t)) (h : Foot W r s) :
    Foot W r t := by
  unfold chooseFree at e
  rw [Option.map_eq_some_iff] at e
  obtain ⟨_, _, e⟩ := e
  exact Foot.snd e (choose_foot (hW := hW) _ _ h)

theorem placeAt_foot {W : List Area} {r s : State} (hW : [.freeCtr] ⊆ W) (far : Bool) (v : Nat) (n : Nat) (align : Nat) (used : List (Nat × Nat)) {k : Nat} {t : State} (e : placeAt far v n align used s = some (k, t)) (h : Foot W r s) :
    Foot W r t := by
  unfold placeAt at e
  rw [Option.map_eq_some_iff] at e
  obtain ⟨_, _, e⟩ := e
  exact Foot.snd e (choose_foot (hW := hW) _ _ h)

theorem putEntry_foot {W : List Area} {r s : State} (hW : [.cells, .mem, .fe, .ic, .err] ⊆ W) (table : Nat) (i : Nat) (a2 : Nat) (h : Foot W r s) :
    Foot W r (putEntry table i a2 s) := by
  unfold putEntry
  repeat' first
    | with_reducible assumption
    | intro _
    | with_reducible apply writeMem_foot (hW := (less hW))

theorem nextTable_foot {W : List Area} {r s : State} (hW : [.cells, .mem, .fe, .ic, .err, .freeCtr] ⊆ W) (c : Nat) (table : Nat) (i : Nat) {k : Nat} {t : State} (e : nextTable c table i s = some (k, t)) (h : Foot W r s) :
    Foot W r t := by
  unfold nextTable at e
  try dsimp only at e
  repeat' first
    | split at e
  all_goals first
    | (simp only [reduceCtorEq] at e; done)
    | (simp only [Option.some.injEq, Prod.mk.injEq, Except.ok.injEq] at e; obtain ⟨_, e⟩ := e; subst e)
  repeat' first
    | with_reducible assumption
    | intro _
    | with_reducible refine placeAt_foot (less hW) _ _ _ _ _ (by assumption) ?_
    | with_reducible apply modCtx_foot (hW := (less hW))
    | with_reducible apply logWrite_foot (hW := (less hW))
    | with_reducible apply zeroMem_foot (hW := (less hW))
    | with_reducible apply putEntry_foot (hW := (less hW))

theorem leafTable_foot {W : List Area} {r s : State} (hW : [.cells, .mem, .fe, .ic, .err, .freeCtr] ⊆ W) (c : Nat) (page : Nat) (va : Nat) {k : Nat} {t : State} (e : leafTable c page va s = some (k, t)) (h : Foot W r s) :
    Foot W r t := by
  unfold leafTable at e
  cases h1 : nextTable c (ctxAt s c).root (field va 39 9) s with
  | none => simp only [h1, reduceCtorEq] at e
  | some x =>
    obtain ⟨t1, s1⟩ := x
    have f1 := nextTable_foot hW _ _ _ h1 h
    simp only [h1] at e
    by_cases hp : page = chunkSize
    · simp only [if_pos hp, Option.some.injEq, Prod.mk.injEq] at e
      exact e.2 ▸ f1
    · simp only [if_neg hp] at e
      cases h2 : nextTable c t1 (field va 30 9) s1 with
      | none => simp only [h2, reduceCtorEq] at e
      | some x =>
        obtain ⟨t2, s2⟩ := x
        have f2 := nextTable_foot hW _ _ _ h2 f1
        simp only [h2] at e
        by_cases hq : page = 0x200000
        · simp only [if_pos hq, Option.some.injEq, Prod.mk.injEq] at e
          exact e.2 ▸ f2
        · simp only [if_neg hq] at e
          exact nextTable_foot hW _ _ _ e f2

theorem putPage_foot {W : List Area} {r s : State} (hW : [.cells, .mem, .fe, .ic, .err] ⊆ W) (table : Nat) (page : Nat) (va : Nat) (a3 : Nat) (h : Foot W r s) :
    Foot W r (putPage table page va a3 s) := by
  unfold putPage
  repeat' first
    | with_reducible assumption
    | intro _
    | with_reducible apply each_foot
    | with_reducible apply putEntry_foot (hW := (less hW))

theorem mapPages_foot {W : List Area} {r s : State} (hW : [.cells, .mem, .fe, .ic, .err, .freeCtr] ⊆ W) (c : Nat) (page : Nat) (n : Nat) (va : Nat) (base : Nat) {t : State} (e : mapPages c page n va base s = some t) (h : Foot W r s) :
    Foot W r t := by
  induction n generalizing va base s with
  | zero =>
    simp only [mapPages, Option.some.injEq] at e
    exact e ▸ h
  | succ n ih =>
    unfold mapPages at e
    cases h1 : leafTable c page va s with
    | none => simp only [h1, reduceCtorEq] at e
    | some x =>
      simp only [h1] at e
      exact ih _ _ e (putPage_foot (less hW) _ _ _ _ (leafTable_foot hW _ _ _ h1 h))

theorem unmapPages_foot {W : List Area} {r s : State} (hW : [.cells, .mem, .fe, .ic, .err, .freeCtr] ⊆ W) (c : Nat) (page : Nat) (n : Nat) (va : Nat) (h : Foot W r s) :
    Foot W r (unmapPages c page n va s) := by
  induction n generalizing va s with
  | zero => exact h
  | succ n ih =>
    unfold unmapPages
    cases h1 : leafTable c page va s with
    | none => exact h
    | some x => exact ih _ (putPage_foot (less hW) _ _ _ _ (leafTable_foot hW _ _ _ h1 h))

theorem heapPlace_foot {W : List Area} {r s : State} (hW : [.freeCtr] ⊆ W) (c : Nat) (n : Nat) (page : Nat) {k : Nat} {t : State} (e : heapPlace c n page s = some (k, t)) (h : Foot W r s) :
    Foot W r t := by
  unfold heapPlace at e
  rw [Option.map_eq_some_iff] at e
  obtain ⟨_, _, e⟩ := e
  exact Foot.snd e (choose_foot (hW := hW) _ _ h)

theorem mapAlloc_foot {W : List Area} {r s : State} (hW : [.cells, .mem, .fe, .ic, .err, .freeCtr] ⊆ W) (a : Nat) (c : Nat) {k : Nat} {t : State} (e : mapAlloc a c s = some (k, t)) (h : Foot W r s) :
    Foot W r t := by
  unfold mapAlloc at e
  try dsimp only at e
  repeat' first
    | split at e
    | (rw [Option.map_eq_some_iff] at e; obtain ⟨_, _, e⟩ := e)
  all_goals first
    | (simp only [reduceCtorEq] at e; done)
    | (simp only [Option.some.injEq, Prod.mk.injEq, Except.ok.injEq] at e; obtain ⟨_, e⟩ := e; subst e)
  repeat' first
    | with_reducible assumption
    | intro _
    | with_reducible refine heapPlace_foot (less hW) _ _ _ (by assumption) ?_
    | with_reducible apply ctxTake_foot (hW := (less hW))
    | with_reducible apply modAlloc_foot (hW := (less hW))
    | with_reducible refine mapPages_foot (less hW) _ _ _ _ _ (by assumption) ?_

theorem allocPlace_foot {W : List Area} {r s : State} (hW : [.freeCtr] ⊆ W) (v : Nat) (n : Nat) (page : Nat) (level : Nat) {k : Nat} {t : State} (e : allocPlace v n page level s = some (k, t)) (h : Foot W r s) :
    Foot W r t := by
  unfold allocPlace at e
  dsimp only at e
  split at e
  · simp only [Option.some.injEq, Prod.mk.injEq] at e
    obtain ⟨_, rfl⟩ := e
    split at *
    · exact placeAt_foot hW _ _ _ _ _ (by assumption) h
    · contradiction
  · split at e
    · contradiction
    · exact placeAt_foot hW _ _ _ _ _ e h

theorem heapAlloc_foot {W : List Area} {r s : State} (hW : [.cells, .mem, .fe, .ic, .err, .freeCtr] ⊆ W) (c : Nat) (size : Nat) (level : Nat) (rsvd : Bool) (h : Foot W r s) :
    Foot W r (heapAlloc c size level rsvd s).2.2.2 := by
  unfold heapAlloc
  repeat' first
    | with_reducible assumption
    | intro _
    | with_reducible refine allocPlace_foot (less hW) _ _ _ _ (by assumption) ?_
    | with_reducible refine chooseFree_foot (less hW) _ _ (by assumption) ?_
    | with_reducible apply modAlloc_foot (hW := (less hW))
    | with_reducible refine mapAlloc_foot (less hW) _ _ (by assumption) ?_
    | with_reducible apply Foot.ite
    | split
    | dsimp only

theorem unmapAlloc_foot {W : List Area} {r s : State} (hW : [.cells, .mem, .fe, .ic, .err, .freeCtr] ⊆ W) (a : Nat) (c : Nat) (va : Nat) (h : Foot W r s) :
    Foot W r (unmapAlloc a c va s) := by
  unfold unmapAlloc
  repeat' first
    | with_reducible assumption
    | intro _
    | with_reducible apply tlbDrop_foot (hW := (less hW))
    | with_reducible apply unmapPages_foot (hW := (less hW))
    | with_reducible apply ctxDrop_foot (hW := (less hW))
    | with_reducible apply allocCheck_foot (hW := (less hW))
    | with_reducible apply modAlloc_foot (hW := (less hW))

theorem heapFree_foot {W : List Area} {r s : State} (hW : [.cells, .mem, .fe, .ic, .err, .freeCtr] ⊆ W) (c : Nat) (va : Nat) (h : Foot W r s) :
    Foot W r (heapFree c va s).2 := by
  unfold heapFree
  repeat' first
    | with_reducible assumption
    | intro _
    | with_reducible apply unmapAlloc_foot (hW := (less hW))
    | with_reducible apply Foot.ite
    | split

end Sys2Proof.Laws
end

