-- ==== Sys2Proof/Laws/FootEccOps.lean ====
section
/-!
SUPPORT. Footprints of the operations of Machine/EccOps.lean.
-/
namespace Sys2Proof.Laws
open Sys2Proof Sys2Proof.Machine
set_option Elab.async false

theorem countRetired_foot {W : List Area} {r s : State} (hW : [.mem] ⊆ W) (n : Nat) (h : Foot W r s) :
    Foot W r (countRetired n s) := by
  unfold countRetired
  repeat' first
    | with_reducible assumption
    | intro _
    | with_reducible apply Foot.ite
    | exact Or.inl (hW (by decide))
    | with_reducible exact Or.inr rfl
    | with_reducible exact id
    | with_reducible exact Nat.le_refl _
    | (simp only [Foot.lit_eq]; with_reducible apply Foot.litL rfl)

theorem chooseGranule_foot {W : List Area} {r s : State} (hW : [.freeCtr] ⊆ W) (v : Nat) {k : Nat} {t : State} (e : chooseGranule v s = some (k, t)) (h : Foot W r s) :
    Foot W r t := by
  unfold chooseGranule at e
  try dsimp only at e
  repeat' first
    | split at e
    | (rw [Option.map_eq_some_iff] at e; obtain ⟨_, _, e⟩ := e)
  all_goals first
    | skip
  repeat' first
    | with_reducible assumption
    | intro _
    | with_reducible apply choose_foot (hW := (less hW))
    | with_reducible apply Foot.ite
    | with_reducible refine Foot.snd (by assumption) ?_

theorem startMove_foot {W : List Area} {r s : State} (hW : [.mem, .rg, .freeCtr] ⊆ W) (g : Nat) (h : Foot W r s) :
    Foot W r (startMove g s).2 := by
  unfold startMove
  repeat' first
    | with_reducible assumption
    | intro _
    | with_reducible refine chooseGranule_foot (less hW) _ (by assumption) ?_
    | with_reducible apply access_foot (hW := (less hW))
    | with_reducible apply Foot.ite
    | exact Or.inl (hW (by decide))
    | with_reducible exact Or.inr rfl
    | with_reducible exact id
    | with_reducible exact Nat.le_refl _
    | (simp only [Foot.lit_eq]; with_reducible apply Foot.litL rfl)
    | split

theorem retarget_foot {W : List Area} {r s : State} (hW : [.mem, .freeCtr] ⊆ W) (m : Nat × Nat) (h : Foot W r s) :
    Foot W r (retarget m s) := by
  unfold retarget
  repeat' first
    | with_reducible assumption
    | intro _
    | with_reducible refine chooseGranule_foot (less hW) _ (by assumption) ?_
    | with_reducible apply Foot.ite
    | exact Or.inl (hW (by decide))
    | with_reducible exact Or.inr rfl
    | with_reducible exact id
    | with_reducible exact Nat.le_refl _
    | (simp only [Foot.lit_eq]; with_reducible apply Foot.litL rfl)
    | split

theorem mapOutCheck_foot {W : List Area} {r s : State} (hW : [.mem] ⊆ W) (c : Nat) (h : Foot W r s) :
    Foot W r (mapOutCheck c s) := by
  unfold mapOutCheck
  repeat' first
    | with_reducible assumption
    | intro _
    | with_reducible apply modChan_foot (hW := (less hW))
    | with_reducible apply Foot.ite

theorem mapOut_foot {W : List Area} {r s : State} (hW : [.mem, .rg, .freeCtr] ⊆ W) (c : Nat) (h : Foot W r s) :
    Foot W r (mapOut c s) := by
  unfold mapOut
  repeat' first
    | with_reducible assumption
    | intro _
    | with_reducible apply countRetired_foot (hW := (less hW))
    | with_reducible apply modChan_foot (hW := (less hW))
    | with_reducible apply each_foot
    | with_reducible apply retarget_foot (hW := (less hW))
    | with_reducible apply startMove_foot (hW := (less hW))
    | with_reducible apply mapOutCheck_foot (hW := (less hW))
    | with_reducible apply dropChan_foot (hW := (less hW))
    | with_reducible apply Foot.ite

theorem retireGranule_foot {W : List Area} {r s : State} (hW : [.cells, .mem, .rg, .freeCtr] ⊆ W) (g : Nat) (h : Foot W r s) :
    Foot W r (retireGranule g s) := by
  unfold retireGranule
  repeat' first
    | with_reducible assumption
    | intro _
    | with_reducible apply countRetired_foot (hW := (less hW))
    | with_reducible apply modChan_foot (hW := (less hW))
    | with_reducible apply mapOut_foot (hW := (less hW))
    | with_reducible apply Foot.ite
    | exact Or.inl (hW (by decide))
    | with_reducible exact Or.inr rfl
    | with_reducible exact id
    | with_reducible exact Nat.le_refl _
    | (simp only [Foot.lit_eq]; with_reducible apply Foot.litL rfl)

theorem failGranule_foot {W : List Area} {r s : State} (hW : [.cells, .mem, .rg, .freeCtr] ⊆ W) (a : Nat) (h : Foot W r s) :
    Foot W r (failGranule a s) := by
  unfold failGranule
  repeat' first
    | with_reducible assumption
    | intro _
    | with_reducible apply access_foot (hW := (less hW))
    | with_reducible apply startMove_foot (hW := (less hW))
    | with_reducible apply retireGranule_foot (hW := (less hW))
    | with_reducible apply Foot.ite
    | exact Or.inl (hW (by decide))
    | with_reducible exact Or.inr rfl
    | with_reducible exact id
    | with_reducible exact Nat.le_refl _
    | (simp only [Foot.lit_eq]; with_reducible apply Foot.litL rfl)

theorem splitEntries_foot {W : List Area} {r s : State} (hW : [.cells, .mem, .fe, .ic, .err] ⊆ W) (a0 : Nat) (size : Nat) (page : Nat) (table : Nat) (h : Foot W r s) :
    Foot W r (splitEntries a0 size page table s) := by
  unfold splitEntries
  repeat' first
    | with_reducible assumption
    | intro _
    | with_reducible apply each_foot
    | with_reducible apply putEntry_foot (hW := (less hW))

theorem redirectTable_foot {W : List Area} {r s : State} (hW : [.cells, .mem, .fe, .ic, .err, .freeCtr] ⊆ W) (c : Nat) (old : Nat) (new : Nat) (level : Nat) (table : Nat) (h : Foot W r s) :
    Foot W r (redirectTable c old new level table s) := by
  induction level generalizing c old new table s with
  | zero =>
    unfold redirectTable
    repeat' first
      | with_reducible assumption
      | intro _
      | with_reducible apply each_foot
      | with_reducible apply putEntry_foot (hW := (less hW))
      | with_reducible refine placeAt_foot (less hW) _ _ _ _ _ (by assumption) ?_
      | with_reducible apply modCtx_foot (hW := (less hW))
      | with_reducible apply splitEntries_foot (hW := (less hW))
      | with_reducible apply Foot.ite
  | succ _ ih =>
    unfold redirectTable
    repeat' first
      | with_reducible assumption
      | intro _
      | with_reducible apply ih
      | with_reducible apply each_foot
      | with_reducible apply putEntry_foot (hW := (less hW))
      | with_reducible refine placeAt_foot (less hW) _ _ _ _ _ (by assumption) ?_
      | with_reducible apply modCtx_foot (hW := (less hW))
      | with_reducible apply splitEntries_foot (hW := (less hW))
      | with_reducible apply Foot.ite
      | split

theorem moveDone_foot {W : List Area} {r s : State} (hW : [.cells, .mem, .rg, .fe, .ic, .err, .freeCtr] ⊆ W) (old : Nat) (new : Nat) (h : Foot W r s) :
    Foot W r (moveDone old new s) := by
  unfold moveDone
  generalize readMem s (old * 4096) 4096 = data
  generalize 4096 = k
  repeat' first
    | with_reducible assumption
    | intro _
    | with_reducible apply writeMem_foot (hW := (less hW))
    | with_reducible apply access_foot (hW := (less hW))
    | with_reducible apply each_foot
    | with_reducible apply redirectTable_foot (hW := (less hW))
    | with_reducible apply modAlloc_foot (hW := (less hW))
    | with_reducible apply retireGranule_foot (hW := (less hW))
    | with_reducible apply zeroMem_foot (hW := (less hW))
    | with_reducible apply notice_foot (hW := (less hW))
    | with_reducible apply mapOutCheck_foot (hW := (less hW))
    | with_reducible apply Foot.ite
    | exact Or.inl (hW (by decide))
    | with_reducible exact Or.inr rfl
    | with_reducible exact id
    | with_reducible exact Nat.le_refl _
    | (simp only [Foot.lit_eq]; with_reducible apply Foot.litL rfl)
    | split

theorem corrected_foot {W : List Area} {r s : State} (hW : [.cells, .mem, .rg, .ic, .err, .freeCtr] ⊆ W) (a : Nat) (h : Foot W r s) :
    Foot W r (corrected a s) := by
  unfold corrected
  repeat' first
    | with_reducible assumption
    | intro _
    | with_reducible apply reportCe_foot (hW := (less hW))
    | with_reducible apply modChan_foot (hW := (less hW))
    | with_reducible apply failGranule_foot (hW := (less hW))
    | with_reducible apply Foot.ite
    | exact Or.inl (hW (by decide))
    | with_reducible exact Or.inr rfl
    | with_reducible exact id
    | with_reducible exact Nat.le_refl _
    | (simp only [Foot.lit_eq]; with_reducible apply Foot.litL rfl)

theorem uncorrectable_foot {W : List Area} {r s : State} (hW : [.cells, .mem, .rg, .ic, .err, .freeCtr] ⊆ W) (a : Nat) (h : Foot W r s) :
    Foot W r (uncorrectable a s) := by
  unfold uncorrectable
  repeat' first
    | with_reducible assumption
    | intro _
    | with_reducible apply reportCe_foot (hW := (less hW))
    | with_reducible apply failGranule_foot (hW := (less hW))
    | with_reducible apply Foot.ite
    | exact Or.inl (hW (by decide))
    | with_reducible exact Or.inr rfl
    | with_reducible exact id
    | with_reducible exact Nat.le_refl _
    | (simp only [Foot.lit_eq]; with_reducible apply Foot.litL rfl)

theorem cacheError_foot {W : List Area} {r s : State} (hW : [.mem, .ic, .err] ⊆ W) (line : Nat) (bad : Bool) (h : Foot W r s) :
    Foot W r (cacheError line bad s) := by
  unfold cacheError
  repeat' first
    | with_reducible assumption
    | intro _
    | with_reducible apply reportCe_foot (hW := (less hW))
    | with_reducible apply Foot.ite
    | exact Or.inl (hW (by decide))
    | with_reducible exact Or.inr rfl
    | with_reducible exact id
    | with_reducible exact Nat.le_refl _
    | (simp only [Foot.lit_eq]; with_reducible apply Foot.litL rfl)

theorem memError_foot {W : List Area} {r s : State} (hW : [.cells, .mem, .rg, .ic, .err, .freeCtr] ⊆ W) (a0 : MemError) (h : Foot W r s) :
    Foot W r (memError a0 s) := by
  unfold memError
  repeat' first
    | with_reducible assumption
    | intro _
    | with_reducible apply cacheError_foot (hW := (less hW))
    | with_reducible apply corrected_foot (hW := (less hW))
    | with_reducible apply uncorrectable_foot (hW := (less hW))
    | with_reducible apply Foot.ite

theorem memErrors_foot {W : List Area} {r s : State} (hW : [.cells, .mem, .rg, .ic, .err, .freeCtr] ⊆ W) (a : Nat) (n : Nat) (l : List MemError) (h : Foot W r s) :
    Foot W r (memErrors a n l s) := by
  unfold memErrors
  repeat' first
    | with_reducible assumption
    | intro _
    | with_reducible apply each_foot
    | with_reducible apply memError_foot (hW := (less hW))

end Sys2Proof.Laws
end

