-- ==== Sys2Proof/Laws/FootBoxOps.lean ====
section
/-!
SUPPORT. Footprints of the operations of Machine/BoxOps.lean.
-/
namespace Sys2Proof.Laws
open Sys2Proof Sys2Proof.Machine
set_option Elab.async false

theorem replyBox_foot {W : List Area} {r s : State} (hW : [.ic, .mbx] ⊆ W) (b : Nat) (code : Nat) (words : List Nat) (h : Foot W r s) :
    Foot W r (replyBox b code words s) := by
  unfold replyBox
  repeat' first
    | with_reducible assumption
    | intro _
    | with_reducible apply modBox_foot (hW := (less hW))
    | with_reducible apply notice_foot (hW := (less hW))

theorem replySt_foot {W : List Area} {r s : State} (hW : [.ic, .mbx] ⊆ W) (b : Nat) (st : Status) (h : Foot W r s) :
    Foot W r (replySt b st s) := by
  unfold replySt
  repeat' first
    | with_reducible assumption
    | intro _
    | with_reducible apply replyBox_foot (hW := (less hW))

theorem replyFor_foot {W : List Area} {r s : State} (hW : [.ic, .mbx] ⊆ W) (b : Nat) (code : Nat) (st : Status) (h : Foot W r s) :
    Foot W r (replyFor b code st s) := by
  unfold replyFor
  repeat' first
    | with_reducible assumption
    | intro _
    | with_reducible apply replySt_foot (hW := (less hW))
    | with_reducible apply Foot.ite

theorem onBox_foot {W : List Area} {r s : State} (b : Nat) (code : Nat) (f : State → State) (h_f : ∀ s', Foot W r s' → Foot W r (f s')) (h : Foot W r s) :
    Foot W r (onBox b code f s) := by
  unfold onBox
  repeat' first
    | with_reducible assumption
    | intro _
    | with_reducible apply guarded_foot

end Sys2Proof.Laws
end

