-- ==== Sys2Proof/Laws/FootRepairOps.lean ====
section
/-!
SUPPORT. Footprints of the operations of Machine/RepairOps.lean.
-/
namespace Sys2Proof.Laws
open Sys2Proof Sys2Proof.Machine
set_option Elab.async false

theorem returnEntries_foot {W : List Area} {r s : State} (hW : [.arr, .fe] ⊆ W) (l : Nat) (p : Nat) (h : Foot W r s) :
    Foot W r (returnEntries l p s) := by
  unfold returnEntries
  repeat' first
    | with_reducible assumption
    | intro _
    | with_reducible apply modArr_foot (hW := (less hW))
    | with_reducible apply each_foot
    | with_reducible apply modTask_foot (hW := (less hW))

theorem remap_foot {W : List Area} {r s : State} (hW : [.arr, .fe, .ic, .mbx] ⊆ W) (x : Swap) (h : Foot W r s) :
    Foot W r (remap x s) := by
  unfold remap
  repeat' first
    | with_reducible assumption
    | intro _
    | with_reducible apply modPhys_foot (hW := (less hW))
    | with_reducible apply fillSeq_foot (hW := (less hW))
    | with_reducible apply replyFor_foot (hW := (less hW))
    | with_reducible apply Foot.ite
    | exact Or.inl (hW (by decide))
    | with_reducible exact Or.inr rfl
    | with_reducible exact id
    | with_reducible exact Nat.le_refl _
    | (simp only [Foot.lit_eq]; with_reducible apply Foot.litL rfl)
    | split

theorem swapCheck_foot {W : List Area} {r s : State} (hW : [.arr, .fe, .ic, .mbx] ⊆ W) (x : Swap) (h : Foot W r s) :
    Foot W r (swapCheck x s) := by
  unfold swapCheck
  repeat' first
    | with_reducible assumption
    | intro _
    | with_reducible apply remap_foot (hW := (less hW))
    | with_reducible apply Foot.ite

theorem swapChecks_foot {W : List Area} {r s : State} (hW : [.arr, .fe, .ic, .mbx] ⊆ W) (h : Foot W r s) :
    Foot W r (swapChecks s) := by
  unfold swapChecks
  repeat' first
    | with_reducible assumption
    | intro _
    | with_reducible apply each_foot
    | with_reducible apply swapCheck_foot (hW := (less hW))

theorem drainOld_foot {W : List Area} {r s : State} (hW : [.mem, .rg, .arr, .fab, .fe, .tw, .ic, .mbx, .ports] ⊆ W) (x : Swap) (h : Foot W r s) :
    Foot W r (drainOld x s) := by
  unfold drainOld
  repeat' first
    | with_reducible assumption
    | intro _
    | with_reducible apply returnEntries_foot (hW := (less hW))
    | with_reducible apply requestNow_foot (hW := (less hW))
    | with_reducible apply modPhys_foot (hW := (less hW))
    | with_reducible apply swapCheck_foot (hW := (less hW))

theorem beginSwap_foot {W : List Area} {r s : State} (hW : [.mem, .rg, .arr, .fab, .fe, .tw, .ic, .mbx, .ports] ⊆ W) (l : Nat) (old : Nat) (own : Bool) (h : Foot W r s) :
    Foot W r (beginSwap l old own s) := by
  unfold beginSwap
  repeat' first
    | with_reducible assumption
    | intro _
    | with_reducible apply modPhys_foot (hW := (less hW))
    | with_reducible apply drainOld_foot (hW := (less hW))
    | with_reducible apply replyFor_foot (hW := (less hW))
    | with_reducible apply Foot.ite
    | exact Or.inl (hW (by decide))
    | with_reducible exact Or.inr rfl
    | with_reducible exact id
    | with_reducible exact Nat.le_refl _
    | (simp only [Foot.lit_eq]; with_reducible apply Foot.litL rfl)
    | split

end Sys2Proof.Laws
end

