-- ==== Sys2Proof/Laws/FootArrEvents.lean ====
section
/-!
SUPPORT. Footprints of the operations of Machine/ArrEvents.lean.
-/
namespace Sys2Proof.Laws
open Sys2Proof Sys2Proof.Machine
set_option Elab.async false

theorem arrayEvent_foot {W : List Area} {r s : State} (l : Nat) (f : Nat → Arr → State → State) (h_f : ∀ y0 y1 s', Foot W r s' → Foot W r (f y0 y1 s')) (h : Foot W r s) :
    Foot W r (arrayEvent l f s) := by
  unfold arrayEvent
  repeat' first
    | with_reducible assumption
    | intro _
    | with_reducible apply guarded_foot
    | apply h_f
    | with_reducible apply Foot.ite
    | split

theorem execLoadComplete_foot {W : List Area} {s : State} (hW : [.cells, .mem, .rg, .arr, .ic, .err, .freeCtr] ⊆ W) (l : Nat) (ecc : List MemError) {t : State} (e : execLoadComplete l ecc s = .next t) :
    Foot W s t := by
  unfold execLoadComplete at e
  refine run_foot e ?_
  intro s' h
  repeat' first
    | with_reducible assumption
    | intro _
    | with_reducible apply arrayEvent_foot
    | with_reducible apply each_foot
    | with_reducible apply memErrors_foot (hW := (less hW))
    | with_reducible apply retireOn_foot (hW := (less hW))
    | with_reducible apply landPiece_foot (hW := (less hW))
    | with_reducible apply Foot.ite
    | split

theorem execStoreAck_foot {W : List Area} {s : State} (hW : [.rg, .arr, .fab, .fe, .tw, .ic, .err, .ports, .freeCtr] ⊆ W) (l : Nat) {t : State} (e : execStoreAck l s = .next t) :
    Foot W s t := by
  unfold execStoreAck at e
  refine run_foot e ?_
  intro s' h
  repeat' first
    | with_reducible assumption
    | intro _
    | with_reducible apply arrayEvent_foot
    | with_reducible apply fenceCheck_foot (hW := (less hW))
    | with_reducible apply modArr_foot (hW := (less hW))
    | with_reducible apply Foot.ite

theorem execAtomReply_foot {W : List Area} {s : State} (hW : [.arr] ⊆ W) (l : Nat) {t : State} (e : execAtomReply l s = .next t) :
    Foot W s t := by
  unfold execAtomReply at e
  refine run_foot e ?_
  intro s' h
  repeat' first
    | with_reducible assumption
    | intro _
    | with_reducible apply arrayEvent_foot
    | with_reducible apply retireWith_foot (hW := (less hW))
    | with_reducible apply Foot.ite
    | split

theorem execSystemCallReply_foot {W : List Area} {s : State} (hW : [.arr] ⊆ W) (l : Nat) {t : State} (e : execSystemCallReply l s = .next t) :
    Foot W s t := by
  unfold execSystemCallReply at e
  refine run_foot e ?_
  intro s' h
  repeat' first
    | with_reducible assumption
    | intro _
    | with_reducible apply arrayEvent_foot
    | with_reducible apply retireWith_foot (hW := (less hW))
    | with_reducible apply Foot.ite
    | split

theorem loadTask_foot {W : List Area} {r s : State} (hW : [.arr] ⊆ W) (l : Nat) (p : Nat) (a2 : Task) (code : List Byte) (bad : Nat → Bool) (h : Foot W r s) :
    Foot W r (loadTask l p a2 code bad s) := by
  unfold loadTask
  repeat' first
    | with_reducible assumption
    | intro _
    | with_reducible apply modArr_foot (hW := (less hW))

theorem startEntry_foot {W : List Area} {r s : State} (hW : [.mem, .rg, .arr, .fe, .ic, .err, .ports] ⊆ W) (l : Nat) (p : Nat) (a2 : Task) (host : HostData) (h : Foot W r s) :
    Foot W r (startEntry l p a2 host s) := by
  unfold startEntry
  repeat' first
    | with_reducible assumption
    | intro _
    | with_reducible apply modArr_foot (hW := (less hW))
    | with_reducible apply accessC_foot (hW := (less hW))
    | with_reducible apply modTask_foot (hW := (less hW))
    | with_reducible apply xlatFault_foot (hW := (less hW))
    | with_reducible apply touchCtl_foot (hW := (less hW))
    | with_reducible apply loadTask_foot (hW := (less hW))
    | with_reducible apply Foot.ite
    | exact Or.inl (hW (by decide))
    | with_reducible exact Or.inr rfl
    | with_reducible exact id
    | with_reducible exact Nat.le_refl _
    | (simp only [Foot.lit_eq]; with_reducible apply Foot.litL rfl)
    | split
    | dsimp only

theorem execTaskStart_foot {W : List Area} {s : State} (hW : [.mem, .rg, .arr, .fab, .fe, .ic, .err, .ports] ⊆ W) (l : Nat) (host : HostData) {t : State} (e : execTaskStart l host s = .next t) :
    Foot W s t := by
  unfold execTaskStart at e
  refine run_foot e ?_
  intro s' h
  repeat' first
    | with_reducible assumption
    | intro _
    | with_reducible apply arrayEvent_foot
    | with_reducible apply stageQueue_foot (hW := (less hW))
    | with_reducible apply fillSeq_foot (hW := (less hW))
    | with_reducible apply startEntry_foot (hW := (less hW))
    | with_reducible apply reading_foot (hW := (less hW))
    | with_reducible apply Foot.ite
    | split

theorem execGraceExpiry_foot {W : List Area} {s : State} (hW : [.mem, .rg, .arr, .fab, .fe, .tw, .ports] ⊆ W) (l : Nat) {t : State} (e : execGraceExpiry l s = .next t) :
    Foot W s t := by
  unfold execGraceExpiry at e
  refine run_foot e ?_
  intro s' h
  repeat' first
    | with_reducible assumption
    | intro _
    | with_reducible apply arrayEvent_foot
    | with_reducible apply fullSave_foot (hW := (less hW))
    | with_reducible apply Foot.ite

theorem finishSave_foot {W : List Area} {r s : State} (hW : [.cells, .mem, .arr, .fe, .ic, .err] ⊆ W) (p : Nat) (a1 : Task) (a2 : SaveRec) (ecc : List LsError) (h : Foot W r s) :
    Foot W r (finishSave p a1 a2 ecc s) := by
  unfold finishSave
  repeat' first
    | with_reducible assumption
    | intro _
    | with_reducible apply each_foot
    | with_reducible apply lsError_foot (hW := (less hW))
    | with_reducible apply recStore_foot (hW := (less hW))
    | with_reducible apply recPatch_foot (hW := (less hW))
    | with_reducible apply Foot.ite
    | exact Or.inl (hW (by decide))
    | with_reducible exact Or.inr rfl
    | with_reducible exact id
    | with_reducible exact Nat.le_refl _
    | (simp only [Foot.lit_eq]; with_reducible apply Foot.litL rfl)

theorem execSaveComplete_foot {W : List Area} {s : State} (hW : [.cells, .mem, .rg, .arr, .fab, .fe, .tw, .ic, .mbx, .err, .ports, .freeCtr] ⊆ W) (l : Nat) (ecc : List LsError) {t : State} (e : execSaveComplete l s ecc = .next t) :
    Foot W s t := by
  unfold execSaveComplete at e
  refine run_foot e ?_
  intro s' h
  repeat' first
    | with_reducible assumption
    | intro _
    | with_reducible apply arrayEvent_foot
    | with_reducible apply fresh_foot (hW := (less hW))
    | with_reducible apply finishSave_foot (hW := (less hW))
    | with_reducible apply leaveArray_foot (hW := (less hW))
    | with_reducible apply useCycles_foot (hW := (less hW))
    | with_reducible apply modTask_foot (hW := (less hW))
    | with_reducible apply raiseInTurn_foot (hW := (less hW))
    | with_reducible apply fillSeq_foot (hW := (less hW))
    | with_reducible apply swapChecks_foot (hW := (less hW))
    | with_reducible apply Foot.ite
    | with_reducible refine Foot.snd (by assumption) ?_
    | split

theorem recErrors_foot {W : List Area} {r s : State} (hW : [.cells, .mem, .rg, .arr, .ic, .err, .freeCtr] ⊆ W) (a0 : SaveRec) (l : List MemError) (h : Foot W r s) :
    Foot W r (recErrors a0 l s) := by
  unfold recErrors
  repeat' first
    | with_reducible assumption
    | intro _
    | with_reducible apply each_foot
    | with_reducible apply reportCe_foot (hW := (less hW))
    | with_reducible apply memErrors_foot (hW := (less hW))
    | with_reducible apply Foot.ite
    | exact Or.inl (hW (by decide))
    | with_reducible exact Or.inr rfl
    | with_reducible exact id
    | with_reducible exact Nat.le_refl _
    | (simp only [Foot.lit_eq]; with_reducible apply Foot.litL rfl)
    | split

theorem resume_foot {W : List Area} {r s : State} (hW : [.rg, .arr, .fab, .fe, .tw, .ic, .err, .ports, .freeCtr] ⊆ W) (l : Nat) (p : Nat) (a2 : Task) (a3 : SaveRec) (h : Foot W r s) :
    Foot W r (resume l p a2 a3 s) := by
  unfold resume
  repeat' first
    | with_reducible assumption
    | intro _
    | with_reducible apply modArr_foot (hW := (less hW))
    | with_reducible apply doWait_foot (hW := (less hW))
    | with_reducible apply Foot.ite
    | split
    | dsimp only

theorem execRestoreComplete_foot {W : List Area} {s : State} (hW : [.cells, .mem, .rg, .arr, .fab, .fe, .tw, .ic, .err, .ports, .freeCtr] ⊆ W) (l : Nat) (ecc : List MemError) {t : State} (e : execRestoreComplete l s ecc = .next t) :
    Foot W s t := by
  unfold execRestoreComplete at e
  refine run_foot e ?_
  intro s' h
  repeat' first
    | with_reducible assumption
    | intro _
    | with_reducible apply arrayEvent_foot
    | with_reducible apply recErrors_foot (hW := (less hW))
    | with_reducible apply freeRec_foot (hW := (less hW))
    | with_reducible apply modArr_foot (hW := (less hW))
    | with_reducible apply resume_foot (hW := (less hW))
    | with_reducible apply modTask_foot (hW := (less hW))
    | with_reducible apply fullSave_foot (hW := (less hW))
    | with_reducible apply Foot.ite
    | split

theorem execWaitTimeout_foot {W : List Area} {s : State} (hW : [.arr, .tw] ⊆ W) (l : Nat) {t : State} (e : execWaitTimeout l s = .next t) :
    Foot W s t := by
  unfold execWaitTimeout at e
  refine run_foot e ?_
  intro s' h
  repeat' first
    | with_reducible assumption
    | intro _
    | with_reducible apply arrayEvent_foot
    | with_reducible apply wakeWait_foot (hW := (less hW))
    | with_reducible apply Foot.ite
    | split

theorem execAccParityError_foot {W : List Area} {s : State} (hW : [.blk, .ic, .err] ⊆ W) (p : Nat) {t : State} (e : execAccParityError p s = .next t) :
    Foot W s t := by
  unfold execAccParityError at e
  refine run_foot e ?_
  intro s' h
  repeat' first
    | with_reducible assumption
    | intro _
    | with_reducible apply bEvent_foot (hW := (less hW))

theorem execLockstepMismatch_foot {W : List Area} {s : State} (hW : [.blk, .ic, .err] ⊆ W) (p : Nat) {t : State} (e : execLockstepMismatch p s = .next t) :
    Foot W s t := by
  unfold execLockstepMismatch at e
  refine run_foot e ?_
  intro s' h
  repeat' first
    | with_reducible assumption
    | intro _
    | with_reducible apply bEvent_foot (hW := (less hW))

end Sys2Proof.Laws
end

