-- ==== Sys2Proof/Laws/FootArrGrid.lean ====
section
/-!
SUPPORT. Footprints of the operations of Machine/ArrGrid.lean.
-/
namespace Sys2Proof.Laws
open Sys2Proof Sys2Proof.Machine
set_option Elab.async false

theorem execGcfg_foot {W : List Area} {s : State} (hW : [.rg, .arr, .fab, .fe, .tw, .ic, .err, .ports, .freeCtr] ⊆ W) (l : Nat) (ecc : List LsError) {t : State} (e : execGcfg l s ecc = .next t) :
    Foot W s t := by
  unfold execGcfg at e
  refine run_foot e ?_
  intro s' h
  repeat' first
    | with_reducible assumption
    | intro _
    | with_reducible apply arrayOp_foot (hW := (less hW))
    | with_reducible apply retireWith_foot (hW := (less hW))
    | with_reducible apply faultOn_foot (hW := (less hW))
    | with_reducible apply Foot.ite

theorem execGzero_foot {W : List Area} {s : State} (hW : [.rg, .arr, .fab, .fe, .tw, .ic, .err, .ports, .freeCtr] ⊆ W) (l : Nat) (ecc : List LsError) {t : State} (e : execGzero l s ecc = .next t) :
    Foot W s t := by
  unfold execGzero at e
  refine run_foot e ?_
  intro s' h
  repeat' first
    | with_reducible assumption
    | intro _
    | with_reducible apply arrayOp_foot (hW := (less hW))
    | with_reducible apply retireWith_foot (hW := (less hW))

theorem execGload_foot {W : List Area} {s : State} (hW : [.rg, .arr, .fab, .fe, .tw, .ic, .err, .ports, .freeCtr] ⊆ W) (l : Nat) (ecc : List LsError) {t : State} (e : execGload l s ecc = .next t) :
    Foot W s t := by
  unfold execGload at e
  refine run_foot e ?_
  intro s' h
  repeat' first
    | with_reducible assumption
    | intro _
    | with_reducible apply arrayOp_foot (hW := (less hW))
    | with_reducible apply faultOn_foot (hW := (less hW))
    | with_reducible apply retireWith_foot (hW := (less hW))
    | with_reducible apply Foot.ite

theorem execGstep_foot {W : List Area} {s : State} (hW : [.rg, .arr, .fab, .fe, .tw, .ic, .err, .ports, .freeCtr] ⊆ W) (l : Nat) (n : Nat) (ecc : List LsError) {t : State} (e : execGstep l ecc s n = .next t) :
    Foot W s t := by
  unfold execGstep at e
  refine run_foot e ?_
  intro s' h
  repeat' first
    | with_reducible assumption
    | intro _
    | with_reducible apply arrayOp_foot (hW := (less hW))
    | with_reducible apply faultOn_foot (hW := (less hW))
    | with_reducible apply modArr_foot (hW := (less hW))
    | with_reducible apply retireOn_foot (hW := (less hW))
    | with_reducible apply Foot.ite
    | split

theorem execDrain_foot {W : List Area} {s : State} (hW : [.rg, .arr, .fab, .fe, .tw, .ic, .err, .ports, .freeCtr] ⊆ W) (l : Nat) (n : Nat) (ecc : List LsError) {t : State} (e : execDrain l s ecc n = .next t) :
    Foot W s t := by
  unfold execDrain at e
  refine run_foot e ?_
  intro s' h
  repeat' first
    | with_reducible assumption
    | intro _
    | with_reducible apply arrayOp_foot (hW := (less hW))
    | with_reducible apply faultOn_foot (hW := (less hW))
    | with_reducible apply modArr_foot (hW := (less hW))
    | with_reducible apply retireOn_foot (hW := (less hW))
    | with_reducible apply Foot.ite
    | with_reducible apply Foot.foldl
    | with_reducible apply Foot.foldl_snd
    | split
    | dsimp only

theorem vecFp32_foot {W : List Area} {r s : State} (hW : [.rg, .arr, .fab, .fe, .tw, .ic, .err, .ports, .freeCtr] ⊆ W) (l : Nat) (ecc : List LsError) (op : Nat) (h : Foot W r s) :
    Foot W r (vecFp32 l ecc op s) := by
  unfold vecFp32
  repeat' first
    | with_reducible assumption
    | intro _
    | with_reducible apply arrayOp_foot (hW := (less hW))
    | with_reducible apply retireWith_foot (hW := (less hW))
    | with_reducible apply faultOn_foot (hW := (less hW))
    | with_reducible apply Foot.ite

theorem execVecFp32Op_foot {W : List Area} {s : State} (hW : [.rg, .arr, .fab, .fe, .tw, .ic, .err, .ports, .freeCtr] ⊆ W) (l : Nat) (ecc : List LsError) {t : State} (e : execVecFp32Op l s ecc = .next t) :
    Foot W s t := by
  unfold execVecFp32Op at e
  refine run_foot e ?_
  intro s' h
  repeat' first
    | with_reducible assumption
    | intro _
    | with_reducible apply vecFp32_foot (hW := (less hW))

theorem execVecInt32Op_foot {W : List Area} {s : State} (hW : [.rg, .arr, .fab, .fe, .tw, .ic, .err, .ports, .freeCtr] ⊆ W) (l : Nat) (ecc : List LsError) {t : State} (e : execVecInt32Op l s ecc = .next t) :
    Foot W s t := by
  unfold execVecInt32Op at e
  refine run_foot e ?_
  intro s' h
  repeat' first
    | with_reducible assumption
    | intro _
    | with_reducible apply arrayOp_foot (hW := (less hW))
    | with_reducible apply retireWith_foot (hW := (less hW))

theorem execVld_foot {W : List Area} {s : State} (hW : [.rg, .arr, .fab, .fe, .tw, .ic, .err, .ports, .freeCtr] ⊆ W) (l : Nat) (ecc : List LsError) {t : State} (e : execVld l ecc s = .next t) :
    Foot W s t := by
  unfold execVld at e
  refine run_foot e ?_
  intro s' h
  repeat' first
    | with_reducible assumption
    | intro _
    | with_reducible apply arrayOp_foot (hW := (less hW))
    | with_reducible apply faultOn_foot (hW := (less hW))
    | with_reducible apply retireWith_foot (hW := (less hW))
    | with_reducible apply Foot.ite

theorem execVst_foot {W : List Area} {s : State} (hW : [.rg, .arr, .fab, .fe, .tw, .ic, .err, .ports, .freeCtr] ⊆ W) (l : Nat) (ecc : List LsError) {t : State} (e : execVst l s ecc = .next t) :
    Foot W s t := by
  unfold execVst at e
  refine run_foot e ?_
  intro s' h
  repeat' first
    | with_reducible assumption
    | intro _
    | with_reducible apply arrayOp_foot (hW := (less hW))
    | with_reducible apply faultOn_foot (hW := (less hW))
    | with_reducible apply retireWith_foot (hW := (less hW))
    | with_reducible apply Foot.ite

theorem execCvt_foot {W : List Area} {s : State} (hW : [.rg, .arr, .fab, .fe, .tw, .ic, .err, .ports, .freeCtr] ⊆ W) (l : Nat) (ecc : List LsError) {t : State} (e : execCvt l s ecc = .next t) :
    Foot W s t := by
  unfold execCvt at e
  refine run_foot e ?_
  intro s' h
  repeat' first
    | with_reducible assumption
    | intro _
    | with_reducible apply arrayOp_foot (hW := (less hW))
    | with_reducible apply faultOn_foot (hW := (less hW))
    | with_reducible apply retireWith_foot (hW := (less hW))
    | with_reducible apply Foot.ite
    | split

theorem execQblk_foot {W : List Area} {s : State} (hW : [.rg, .arr, .fab, .fe, .tw, .ic, .err, .ports, .freeCtr] ⊆ W) (l : Nat) (ecc : List LsError) {t : State} (e : execQblk l s ecc = .next t) :
    Foot W s t := by
  unfold execQblk at e
  refine run_foot e ?_
  intro s' h
  repeat' first
    | with_reducible assumption
    | intro _
    | with_reducible apply arrayOp_foot (hW := (less hW))
    | with_reducible apply faultOn_foot (hW := (less hW))
    | with_reducible apply retireWith_foot (hW := (less hW))
    | with_reducible apply Foot.ite
    | split

theorem execQt2_foot {W : List Area} {s : State} (hW : [.rg, .arr, .fab, .fe, .tw, .ic, .err, .ports, .freeCtr] ⊆ W) (l : Nat) (ecc : List LsError) {t : State} (e : execQt2 l s ecc = .next t) :
    Foot W s t := by
  unfold execQt2 at e
  refine run_foot e ?_
  intro s' h
  repeat' first
    | with_reducible assumption
    | intro _
    | with_reducible apply arrayOp_foot (hW := (less hW))
    | with_reducible apply retireWith_foot (hW := (less hW))

theorem execDeq_foot {W : List Area} {s : State} (hW : [.rg, .arr, .fab, .fe, .tw, .ic, .err, .ports, .freeCtr] ⊆ W) (l : Nat) (ecc : List LsError) {t : State} (e : execDeq l s ecc = .next t) :
    Foot W s t := by
  unfold execDeq at e
  refine run_foot e ?_
  intro s' h
  repeat' first
    | with_reducible assumption
    | intro _
    | with_reducible apply arrayOp_foot (hW := (less hW))
    | with_reducible apply faultOn_foot (hW := (less hW))
    | with_reducible apply retireWith_foot (hW := (less hW))
    | with_reducible apply Foot.ite
    | split

end Sys2Proof.Laws
end

