-- ==== Sys2Proof/Laws/FootArrScal.lean ====
section
/-!
SUPPORT. Footprints of the operations of Machine/ArrScal.lean.
-/
namespace Sys2Proof.Laws
open Sys2Proof Sys2Proof.Machine
set_option Elab.async false

theorem scalOp_foot {W : List Area} {r s : State} (hW : [.rg, .arr, .fab, .fe, .tw, .ic, .err, .ports, .freeCtr] ⊆ W) (l : Nat) (ecc : List LsError) (op : Nat) (f : W64 → W64 → W64) (h : Foot W r s) :
    Foot W r (scalOp l ecc op f s) := by
  unfold scalOp
  repeat' first
    | with_reducible assumption
    | intro _
    | with_reducible apply arrayOp_foot (hW := (less hW))
    | with_reducible apply retireWith_foot (hW := (less hW))

theorem execAddi_foot {W : List Area} {s : State} (hW : [.rg, .arr, .fab, .fe, .tw, .ic, .err, .ports, .freeCtr] ⊆ W) (l : Nat) (ecc : List LsError) {t : State} (e : execAddi l s ecc = .next t) :
    Foot W s t := by
  unfold execAddi at e
  refine run_foot e ?_
  intro s' h
  repeat' first
    | with_reducible assumption
    | intro _
    | with_reducible apply arrayOp_foot (hW := (less hW))
    | with_reducible apply retireWith_foot (hW := (less hW))

theorem execAdd_foot {W : List Area} {s : State} (hW : [.rg, .arr, .fab, .fe, .tw, .ic, .err, .ports, .freeCtr] ⊆ W) (l : Nat) (ecc : List LsError) {t : State} (e : execAdd l s ecc = .next t) :
    Foot W s t := by
  unfold execAdd at e
  refine run_foot e ?_
  intro s' h
  repeat' first
    | with_reducible assumption
    | intro _
    | with_reducible apply scalOp_foot (hW := (less hW))

theorem execSub_foot {W : List Area} {s : State} (hW : [.rg, .arr, .fab, .fe, .tw, .ic, .err, .ports, .freeCtr] ⊆ W) (l : Nat) (ecc : List LsError) {t : State} (e : execSub l s ecc = .next t) :
    Foot W s t := by
  unfold execSub at e
  refine run_foot e ?_
  intro s' h
  repeat' first
    | with_reducible assumption
    | intro _
    | with_reducible apply scalOp_foot (hW := (less hW))

theorem execMul_foot {W : List Area} {s : State} (hW : [.rg, .arr, .fab, .fe, .tw, .ic, .err, .ports, .freeCtr] ⊆ W) (l : Nat) (ecc : List LsError) {t : State} (e : execMul l s ecc = .next t) :
    Foot W s t := by
  unfold execMul at e
  refine run_foot e ?_
  intro s' h
  repeat' first
    | with_reducible assumption
    | intro _
    | with_reducible apply scalOp_foot (hW := (less hW))

theorem execShl_foot {W : List Area} {s : State} (hW : [.rg, .arr, .fab, .fe, .tw, .ic, .err, .ports, .freeCtr] ⊆ W) (l : Nat) (ecc : List LsError) {t : State} (e : execShl l s ecc = .next t) :
    Foot W s t := by
  unfold execShl at e
  refine run_foot e ?_
  intro s' h
  repeat' first
    | with_reducible assumption
    | intro _
    | with_reducible apply scalOp_foot (hW := (less hW))

theorem execShr_foot {W : List Area} {s : State} (hW : [.rg, .arr, .fab, .fe, .tw, .ic, .err, .ports, .freeCtr] ⊆ W) (l : Nat) (ecc : List LsError) {t : State} (e : execShr l s ecc = .next t) :
    Foot W s t := by
  unfold execShr at e
  refine run_foot e ?_
  intro s' h
  repeat' first
    | with_reducible assumption
    | intro _
    | with_reducible apply scalOp_foot (hW := (less hW))

theorem execAnd_foot {W : List Area} {s : State} (hW : [.rg, .arr, .fab, .fe, .tw, .ic, .err, .ports, .freeCtr] ⊆ W) (l : Nat) (ecc : List LsError) {t : State} (e : execAnd l s ecc = .next t) :
    Foot W s t := by
  unfold execAnd at e
  refine run_foot e ?_
  intro s' h
  repeat' first
    | with_reducible assumption
    | intro _
    | with_reducible apply scalOp_foot (hW := (less hW))

theorem execOr_foot {W : List Area} {s : State} (hW : [.rg, .arr, .fab, .fe, .tw, .ic, .err, .ports, .freeCtr] ⊆ W) (l : Nat) (ecc : List LsError) {t : State} (e : execOr l s ecc = .next t) :
    Foot W s t := by
  unfold execOr at e
  refine run_foot e ?_
  intro s' h
  repeat' first
    | with_reducible assumption
    | intro _
    | with_reducible apply scalOp_foot (hW := (less hW))

theorem execMovi_foot {W : List Area} {s : State} (hW : [.rg, .arr, .fab, .fe, .tw, .ic, .err, .ports, .freeCtr] ⊆ W) (l : Nat) (ecc : List LsError) {t : State} (e : execMovi l s ecc = .next t) :
    Foot W s t := by
  unfold execMovi at e
  refine run_foot e ?_
  intro s' h
  repeat' first
    | with_reducible assumption
    | intro _
    | with_reducible apply arrayOp_foot (hW := (less hW))
    | with_reducible apply retireWith_foot (hW := (less hW))

theorem execMovhi_foot {W : List Area} {s : State} (hW : [.rg, .arr, .fab, .fe, .tw, .ic, .err, .ports, .freeCtr] ⊆ W) (l : Nat) (ecc : List LsError) {t : State} (e : execMovhi l s ecc = .next t) :
    Foot W s t := by
  unfold execMovhi at e
  refine run_foot e ?_
  intro s' h
  repeat' first
    | with_reducible assumption
    | intro _
    | with_reducible apply arrayOp_foot (hW := (less hW))
    | with_reducible apply retireWith_foot (hW := (less hW))

theorem execCmp_foot {W : List Area} {s : State} (hW : [.rg, .arr, .fab, .fe, .tw, .ic, .err, .ports, .freeCtr] ⊆ W) (l : Nat) (ecc : List LsError) {t : State} (e : execCmp l s ecc = .next t) :
    Foot W s t := by
  unfold execCmp at e
  refine run_foot e ?_
  intro s' h
  repeat' first
    | with_reducible assumption
    | intro _
    | with_reducible apply arrayOp_foot (hW := (less hW))
    | with_reducible apply retireWith_foot (hW := (less hW))

theorem execFop_foot {W : List Area} {s : State} (hW : [.rg, .arr, .fab, .fe, .tw, .ic, .err, .ports, .freeCtr] ⊆ W) (l : Nat) (ecc : List LsError) {t : State} (e : execFop l s ecc = .next t) :
    Foot W s t := by
  unfold execFop at e
  refine run_foot e ?_
  intro s' h
  repeat' first
    | with_reducible assumption
    | intro _
    | with_reducible apply arrayOp_foot (hW := (less hW))
    | with_reducible apply retireWith_foot (hW := (less hW))

end Sys2Proof.Laws
end

