-- ==== Sys2Proof/Laws/FootArrSync.lean ====
section
/-!
SUPPORT. Footprints of the operations of Machine/ArrSync.lean.
-/
namespace Sys2Proof.Laws
open Sys2Proof Sys2Proof.Machine
set_option Elab.async false

theorem syncOp_foot {W : List Area} {r s : State} (hW : [.rg, .arr, .fab, .fe, .tw, .ic, .err, .ports, .freeCtr] ⊆ W) (l : Nat) (ecc : List LsError) (op : Nat) (mods : Nat → Bool) (imm : Nat → Bool) (f : Nat → Task → Nat → State → State) (h_f : ∀ y0 y1 y2 s', Foot W r s' → Foot W r (f y0 y1 y2 s')) (h : Foot W r s) :
    Foot W r (syncOp l ecc op mods imm f s) := by
  unfold syncOp
  repeat' first
    | with_reducible assumption
    | intro _
    | with_reducible apply arrayOp_foot (hW := (less hW))
    | with_reducible apply faultOn_foot (hW := (less hW))
    | apply h_f
    | with_reducible apply Foot.ite

theorem execFence_foot {W : List Area} {s : State} (hW : [.rg, .arr, .fab, .fe, .tw, .ic, .err, .ports, .freeCtr] ⊆ W) (l : Nat) (ecc : List LsError) {t : State} (e : execFence l s ecc = .next t) :
    Foot W s t := by
  unfold execFence at e
  refine run_foot e ?_
  intro s' h
  repeat' first
    | with_reducible assumption
    | intro _
    | with_reducible apply syncOp_foot (hW := (less hW))
    | with_reducible apply fenceCheck_foot (hW := (less hW))
    | with_reducible apply modArr_foot (hW := (less hW))

theorem signalHere_foot {W : List Area} {r s : State} (hW : [.cells, .mem, .rg, .arr, .fab, .sg, .fe, .tw, .ic, .err, .csb, .ports, .freeCtr] ⊆ W) (l : Nat) (p : Nat) (a2 : Task) (i : Nat) (d : W32) (dst : Nat) (remote : Bool) (h : Foot W r s) :
    Foot W r (signalHere l p a2 i d dst remote s) := by
  unfold signalHere
  repeat' first
    | with_reducible assumption
    | intro _
    | with_reducible apply tallyAdd_foot (hW := (less hW))
    | with_reducible apply retireWith_foot (hW := (less hW))
    | with_reducible apply faultOn_foot (hW := (less hW))
    | with_reducible apply Foot.ite

theorem execSignal_foot {W : List Area} {s : State} (hW : [.cells, .mem, .rg, .arr, .fab, .sg, .fe, .tw, .ic, .err, .csb, .ports, .freeCtr] ⊆ W) (l : Nat) (ecc : List LsError) {t : State} (e : execSignal l s ecc = .next t) :
    Foot W s t := by
  unfold execSignal at e
  refine run_foot e ?_
  intro s' h
  repeat' first
    | with_reducible assumption
    | intro _
    | with_reducible apply syncOp_foot (hW := (less hW))
    | with_reducible apply faultOn_foot (hW := (less hW))
    | with_reducible apply signalHere_foot (hW := (less hW))
    | with_reducible apply modArr_foot (hW := (less hW))
    | with_reducible apply sendReq_foot (hW := (less hW))
    | with_reducible apply Foot.ite

theorem execWait_foot {W : List Area} {s : State} (hW : [.rg, .arr, .fab, .fe, .tw, .ic, .err, .ports, .freeCtr] ⊆ W) (l : Nat) (ecc : List LsError) {t : State} (e : execWait l s ecc = .next t) :
    Foot W s t := by
  unfold execWait at e
  refine run_foot e ?_
  intro s' h
  repeat' first
    | with_reducible assumption
    | intro _
    | with_reducible apply syncOp_foot (hW := (less hW))
    | with_reducible apply doWait_foot (hW := (less hW))

theorem execTakewait_foot {W : List Area} {s : State} (hW : [.rg, .arr, .fab, .fe, .tw, .ic, .err, .ports, .freeCtr] ⊆ W) (l : Nat) (ecc : List LsError) {t : State} (e : execTakewait l s ecc = .next t) :
    Foot W s t := by
  unfold execTakewait at e
  refine run_foot e ?_
  intro s' h
  repeat' first
    | with_reducible assumption
    | intro _
    | with_reducible apply syncOp_foot (hW := (less hW))
    | with_reducible apply doWait_foot (hW := (less hW))

theorem execBarrier_foot {W : List Area} {s : State} (hW : [.rg, .arr, .fab, .fe, .tw, .ic, .err, .ports, .freeCtr] ⊆ W) (l : Nat) (ecc : List LsError) {t : State} (e : execBarrier l s ecc = .next t) :
    Foot W s t := by
  unfold execBarrier at e
  refine run_foot e ?_
  intro s' h
  repeat' first
    | with_reducible assumption
    | intro _
    | with_reducible apply syncOp_foot (hW := (less hW))
    | with_reducible apply faultOn_foot (hW := (less hW))
    | with_reducible apply retireWith_foot (hW := (less hW))
    | with_reducible apply barArrive_foot (hW := (less hW))
    | with_reducible apply modArr_foot (hW := (less hW))
    | with_reducible apply Foot.ite

theorem atomicAt_foot {W : List Area} {r s : State} (hW : [.cells, .mem, .fe, .ic, .err] ⊆ W) (kind : Nat) (a : Nat) (arg : Nat) (cmp : Nat) (bad : Bool) (h : Foot W r s) :
    Foot W r (atomicAt kind a arg cmp bad s).2 := by
  unfold atomicAt
  repeat' first
    | with_reducible assumption
    | intro _
    | with_reducible apply writeMem_foot (hW := (less hW))

theorem execAtom_foot {W : List Area} {s : State} (hW : [.cells, .mem, .rg, .arr, .fab, .fe, .tw, .ic, .err, .ports, .freeCtr] ⊆ W) (l : Nat) (ecc : List LsError) (mem : List MemError) {t : State} (e : execAtom l s ecc mem = .next t) :
    Foot W s t := by
  unfold execAtom at e
  refine run_foot e ?_
  intro s' h
  repeat' first
    | with_reducible assumption
    | intro _
    | with_reducible apply syncOp_foot (hW := (less hW))
    | with_reducible apply modArr_foot (hW := (less hW))
    | with_reducible apply faultOn_foot (hW := (less hW))
    | with_reducible apply xlatOn_foot (hW := (less hW))
    | with_reducible apply sendReq_foot (hW := (less hW))
    | with_reducible apply xlFill_foot (hW := (less hW))
    | with_reducible apply accessC_foot (hW := (less hW))
    | with_reducible apply memErrors_foot (hW := (less hW))
    | with_reducible apply taskPoisons_foot (hW := (less hW))
    | with_reducible apply atomicAt_foot (hW := (less hW))
    | with_reducible apply Foot.ite
    | with_reducible refine Foot.snd (by assumption) ?_
    | split

end Sys2Proof.Laws
end

