-- ==== Sys2Proof/Laws/FootCmdOps.lean ====
section
/-!
SUPPORT. Footprints of the operations of Machine/CmdOps.lean.
-/
namespace Sys2Proof.Laws
open Sys2Proof Sys2Proof.Machine
set_option Elab.async false

theorem addCmd_foot {W : List Area} {r s : State} (hW : [.fe] ⊆ W) (q : Nat) (a1 : CmdEnt) (h : Foot W r s) :
    Foot W r (addCmd q a1 s) := by
  unfold addCmd
  repeat' first
    | with_reducible assumption
    | intro _
    | with_reducible apply modQueue_foot (hW := (less hW))
    | with_reducible apply Foot.ite
    | exact Or.inl (hW (by decide))
    | with_reducible exact Or.inr rfl
    | with_reducible exact id
    | with_reducible exact Nat.le_refl _
    | (simp only [Foot.lit_eq]; with_reducible apply Foot.litL rfl)

theorem enqueue_foot {W : List Area} {r s : State} (hW : [.fe] ⊆ W) (a0 : Task) (rec : List Byte) (bad : Bool) (page : Nat) (join : Bool) (h : Foot W r s) :
    Foot W r (enqueue a0 rec bad page join s).2.2 := by
  unfold enqueue
  repeat' first
    | with_reducible assumption
    | intro _
    | with_reducible apply issueTask_foot (hW := (less hW))
    | with_reducible apply addCmd_foot (hW := (less hW))
    | with_reducible apply Foot.ite
    | split
    | dsimp only

theorem hqPush_foot {W : List Area} {r s : State} (hW : [.cells, .mem, .rg, .arr, .fab, .sg, .fe, .tw, .ic, .err, .csb, .ports, .freeCtr] ⊆ W) (a0 : Task) (a1 : Nat) (handle : Nat) (h : Foot W r s) :
    Foot W r (hqPush a0 a1 handle s).2 := by
  unfold hqPush
  repeat' first
    | with_reducible assumption
    | intro _
    | with_reducible apply modTask_foot (hW := (less hW))
    | with_reducible apply modHq_foot (hW := (less hW))
    | with_reducible apply tallyAdd_foot (hW := (less hW))
    | with_reducible apply Foot.ite
    | split
    | dsimp only

theorem hqTake_foot {W : List Area} {r s : State} (hW : [.fe] ⊆ W) (seq : Nat) (a1 : Nat) (handle : Nat) (h : Foot W r s) :
    Foot W r (hqTake seq a1 handle s) := by
  unfold hqTake
  repeat' first
    | with_reducible assumption
    | intro _
    | with_reducible apply modTask_foot (hW := (less hW))
    | with_reducible apply modHq_foot (hW := (less hW))

end Sys2Proof.Laws
end

