-- ==== Sys2Proof/Laws/FootArrSys.lean ====
section
/-!
SUPPORT. Footprints of the operations of Machine/ArrSys.lean.
-/
namespace Sys2Proof.Laws
open Sys2Proof Sys2Proof.Machine
set_option Elab.async false

theorem sysWait_foot {W : List Area} {r s : State} (hW : [.arr] ⊆ W) (p : Nat) (dst : Nat) (result : Nat) (h : Foot W r s) :
    Foot W r (sysWait p dst result s) := by
  unfold sysWait
  repeat' first
    | with_reducible assumption
    | intro _
    | with_reducible apply modArr_foot (hW := (less hW))

theorem execEnq_foot {W : List Area} {s : State} (hW : [.rg, .arr, .fab, .fe, .tw, .ic, .err, .ports, .freeCtr] ⊆ W) (l : Nat) (ecc : List LsError) {t : State} (e : execEnq l s ecc = .next t) :
    Foot W s t := by
  unfold execEnq at e
  refine run_foot e ?_
  intro s' h
  repeat' first
    | with_reducible assumption
    | intro _
    | with_reducible apply arrayOp_foot (hW := (less hW))
    | with_reducible apply faultOn_foot (hW := (less hW))
    | with_reducible apply enqueue_foot (hW := (less hW))
    | with_reducible apply sysWait_foot (hW := (less hW))
    | with_reducible apply Foot.ite

theorem execAlloc_foot {W : List Area} {s : State} (hW : [.cells, .mem, .rg, .arr, .fab, .fe, .tw, .ic, .err, .ports, .freeCtr] ⊆ W) (l : Nat) (ecc : List LsError) {t : State} (e : execAlloc l s ecc = .next t) :
    Foot W s t := by
  unfold execAlloc at e
  refine run_foot e ?_
  intro s' h
  repeat' first
    | with_reducible assumption
    | intro _
    | with_reducible apply arrayOp_foot (hW := (less hW))
    | with_reducible apply heapAlloc_foot (hW := (less hW))
    | with_reducible apply sysWait_foot (hW := (less hW))

theorem execFree_foot {W : List Area} {s : State} (hW : [.cells, .mem, .rg, .arr, .fab, .fe, .tw, .ic, .err, .ports, .freeCtr] ⊆ W) (l : Nat) (ecc : List LsError) {t : State} (e : execFree l s ecc = .next t) :
    Foot W s t := by
  unfold execFree at e
  refine run_foot e ?_
  intro s' h
  repeat' first
    | with_reducible assumption
    | intro _
    | with_reducible apply arrayOp_foot (hW := (less hW))
    | with_reducible apply heapFree_foot (hW := (less hW))
    | with_reducible apply sysWait_foot (hW := (less hW))

theorem execHpush_foot {W : List Area} {s : State} (hW : [.cells, .mem, .rg, .arr, .fab, .sg, .fe, .tw, .ic, .err, .csb, .ports, .freeCtr] ⊆ W) (l : Nat) (ecc : List LsError) {t : State} (e : execHpush l s ecc = .next t) :
    Foot W s t := by
  unfold execHpush at e
  refine run_foot e ?_
  intro s' h
  repeat' first
    | with_reducible assumption
    | intro _
    | with_reducible apply arrayOp_foot (hW := (less hW))
    | with_reducible apply hqPush_foot (hW := (less hW))
    | with_reducible apply sysWait_foot (hW := (less hW))

theorem deliverPiece_foot {W : List Area} {r s : State} (hW : [.mem, .rg, .arr, .fab, .fe, .ports] ⊆ W) (l : Nat) (p : Nat) (c : Nat) (seq : Nat) (q : Nat × Nat × Nat) (h : Foot W r s) :
    Foot W r (deliverPiece l p c seq q s) := by
  unfold deliverPiece
  repeat' first
    | with_reducible assumption
    | intro _
    | with_reducible apply modArr_foot (hW := (less hW))
    | with_reducible apply accessC_foot (hW := (less hW))
    | with_reducible apply xlFill_foot (hW := (less hW))
    | with_reducible apply hostRead_foot (hW := (less hW))
    | with_reducible apply each_foot
    | with_reducible apply sendReq_foot (hW := (less hW))
    | with_reducible apply Foot.ite
    | split

theorem popDeliver_foot {W : List Area} {r s : State} (hW : [.mem, .rg, .arr, .fab, .fe, .ports] ⊆ W) (l : Nat) (p : Nat) (a2 : Task) (a3 : Nat) (handle : Nat) (a : Nat) (dst : Nat) (h : Foot W r s) :
    Foot W r (popDeliver l p a2 a3 handle a dst s) := by
  unfold popDeliver
  repeat' first
    | with_reducible assumption
    | intro _
    | with_reducible apply sysWait_foot (hW := (less hW))
    | with_reducible apply recordFault_foot (hW := (less hW))
    | with_reducible apply hqTake_foot (hW := (less hW))
    | with_reducible apply each_foot
    | with_reducible apply deliverPiece_foot (hW := (less hW))
    | with_reducible apply Foot.ite
    | split

theorem execHpop_foot {W : List Area} {s : State} (hW : [.mem, .rg, .arr, .fab, .fe, .tw, .ic, .err, .ports, .freeCtr] ⊆ W) (l : Nat) (ecc : List LsError) {t : State} (e : execHpop l s ecc = .next t) :
    Foot W s t := by
  unfold execHpop at e
  refine run_foot e ?_
  intro s' h
  repeat' first
    | with_reducible assumption
    | intro _
    | with_reducible apply arrayOp_foot (hW := (less hW))
    | with_reducible apply faultOn_foot (hW := (less hW))
    | with_reducible apply sysWait_foot (hW := (less hW))
    | with_reducible apply popDeliver_foot (hW := (less hW))
    | with_reducible apply hqTake_foot (hW := (less hW))
    | with_reducible apply Foot.ite
    | split

theorem execPtest_foot {W : List Area} {s : State} (hW : [.rg, .arr, .fab, .fe, .tw, .ic, .err, .ports, .freeCtr] ⊆ W) (l : Nat) (ecc : List LsError) {t : State} (e : execPtest l s ecc = .next t) :
    Foot W s t := by
  unfold execPtest at e
  refine run_foot e ?_
  intro s' h
  repeat' first
    | with_reducible assumption
    | intro _
    | with_reducible apply arrayOp_foot (hW := (less hW))
    | with_reducible apply retireWith_foot (hW := (less hW))
    | with_reducible apply faultOn_foot (hW := (less hW))
    | with_reducible apply Foot.ite

end Sys2Proof.Laws
end

