-- ==== Sys2Proof/Laws/FootArrXfer.lean ====
section
/-!
SUPPORT. Footprints of the operations of Machine/ArrXfer.lean.
-/
namespace Sys2Proof.Laws
open Sys2Proof Sys2Proof.Machine
set_option Elab.async false

theorem xferOp_foot {W : List Area} {r s : State} (hW : [.rg, .arr, .fab, .fe, .tw, .ic, .err, .ports, .freeCtr] ⊆ W) (l : Nat) (ecc : List LsError) (op : Nat) (strided : Bool) (go : Nat → Task → Nat → Nat → Nat → Nat → State → State) (h_go : ∀ y0 y1 y2 y3 y4 y5 s', Foot W r s' → Foot W r (go y0 y1 y2 y3 y4 y5 s')) (h : Foot W r s) :
    Foot W r (xferOp l ecc op strided go s) := by
  unfold xferOp
  repeat' first
    | with_reducible assumption
    | intro _
    | with_reducible apply arrayOp_foot (hW := (less hW))
    | with_reducible apply faultOn_foot (hW := (less hW))
    | apply h_go
    | with_reducible apply Foot.ite
    | split

theorem execLoad_foot {W : List Area} {s : State} (hW : [.mem, .rg, .arr, .fab, .fe, .tw, .ic, .err, .ports, .freeCtr] ⊆ W) (l : Nat) (ecc : List LsError) {t : State} (e : execLoad l s ecc = .next t) :
    Foot W s t := by
  unfold execLoad at e
  refine run_foot e ?_
  intro s' h
  repeat' first
    | with_reducible assumption
    | intro _
    | with_reducible apply xferOp_foot (hW := (less hW))
    | with_reducible apply startLoad_foot (hW := (less hW))

theorem execStore_foot {W : List Area} {s : State} (hW : [.cells, .mem, .rg, .arr, .fab, .fe, .tw, .ic, .err, .csb, .ports, .freeCtr] ⊆ W) (l : Nat) (n : Nat) (ecc : List LsError) {t : State} (e : execStore l s ecc n = .next t) :
    Foot W s t := by
  unfold execStore at e
  refine run_foot e ?_
  intro s' h
  repeat' first
    | with_reducible assumption
    | intro _
    | with_reducible apply xferOp_foot (hW := (less hW))
    | with_reducible apply doStore_foot (hW := (less hW))

theorem execLoads_foot {W : List Area} {s : State} (hW : [.mem, .rg, .arr, .fab, .fe, .tw, .ic, .err, .ports, .freeCtr] ⊆ W) (l : Nat) (ecc : List LsError) {t : State} (e : execLoads l s ecc = .next t) :
    Foot W s t := by
  unfold execLoads at e
  refine run_foot e ?_
  intro s' h
  repeat' first
    | with_reducible assumption
    | intro _
    | with_reducible apply xferOp_foot (hW := (less hW))
    | with_reducible apply startLoad_foot (hW := (less hW))

theorem execStores_foot {W : List Area} {s : State} (hW : [.cells, .mem, .rg, .arr, .fab, .fe, .tw, .ic, .err, .csb, .ports, .freeCtr] ⊆ W) (l : Nat) (n : Nat) (ecc : List LsError) {t : State} (e : execStores l s ecc n = .next t) :
    Foot W s t := by
  unfold execStores at e
  refine run_foot e ?_
  intro s' h
  repeat' first
    | with_reducible assumption
    | intro _
    | with_reducible apply xferOp_foot (hW := (less hW))
    | with_reducible apply doStore_foot (hW := (less hW))

theorem execOpenwin_foot {W : List Area} {s : State} (hW : [.rg, .arr, .fab, .fe, .tw, .ic, .err, .ports, .freeCtr] ⊆ W) (l : Nat) (ecc : List LsError) {t : State} (e : execOpenwin l s ecc = .next t) :
    Foot W s t := by
  unfold execOpenwin at e
  refine run_foot e ?_
  intro s' h
  repeat' first
    | with_reducible assumption
    | intro _
    | with_reducible apply arrayOp_foot (hW := (less hW))
    | with_reducible apply faultOn_foot (hW := (less hW))
    | with_reducible apply retireWith_foot (hW := (less hW))
    | with_reducible apply Foot.ite

theorem execClosewin_foot {W : List Area} {s : State} (hW : [.rg, .arr, .fab, .fe, .tw, .ic, .err, .ports, .freeCtr] ⊆ W) (l : Nat) (ecc : List LsError) {t : State} (e : execClosewin l s ecc = .next t) :
    Foot W s t := by
  unfold execClosewin at e
  refine run_foot e ?_
  intro s' h
  repeat' first
    | with_reducible assumption
    | intro _
    | with_reducible apply arrayOp_foot (hW := (less hW))
    | with_reducible apply retireWith_foot (hW := (less hW))

end Sys2Proof.Laws
end

