-- ==== Sys2Proof/Laws/FootLedgerOps.lean ====
section
/-!
SUPPORT. Footprints of the operations of Machine/LedgerOps.lean.
-/
namespace Sys2Proof.Laws
open Sys2Proof Sys2Proof.Machine
set_option Elab.async false

theorem ledPut_foot {W : List Area} {r s : State} (hW : [.pm, .ports] ⊆ W) (a0 : List Byte) (h : Foot W r s) :
    Foot W r (ledPut a0 s) := by
  unfold ledPut
  repeat' first
    | with_reducible assumption
    | intro _
    | with_reducible apply hostWriteM_foot (hW := (less hW))
    | with_reducible apply Foot.ite
    | exact Or.inl (hW (by decide))
    | with_reducible exact Or.inr rfl
    | with_reducible exact id
    | with_reducible exact Nat.le_refl _
    | (simp only [Foot.lit_eq]; with_reducible apply Foot.litL rfl)

theorem ledEvent_foot {W : List Area} {r s : State} (hW : [.pm, .ports] ⊆ W) (kind : Nat) (index : Nat) (payload : List Byte) (h : Foot W r s) :
    Foot W r (ledEvent kind index payload s) := by
  unfold ledEvent
  repeat' first
    | with_reducible assumption
    | intro _
    | with_reducible apply ledPut_foot (hW := (less hW))
    | with_reducible apply Foot.ite
    | exact Or.inl (hW (by decide))
    | with_reducible exact Or.inr rfl
    | with_reducible exact id
    | with_reducible exact Nat.le_refl _
    | (simp only [Foot.lit_eq]; with_reducible apply Foot.litL rfl)

theorem ledFlush_foot {W : List Area} {r s : State} (hW : [.pm, .ports] ⊆ W) (l : List (List Byte)) (h : Foot W r s) :
    Foot W r (ledFlush l s) := by
  induction l generalizing s with
  | nil =>
    unfold ledFlush
    repeat' first
      | with_reducible assumption
      | intro _
      | with_reducible apply ledPut_foot (hW := (less hW))
      | with_reducible apply Foot.ite
      | exact Or.inl (hW (by decide))
      | with_reducible exact Or.inr rfl
      | with_reducible exact id
      | with_reducible exact Nat.le_refl _
      | (simp only [Foot.lit_eq]; with_reducible apply Foot.litL rfl)
  | cons _ _ ih =>
    unfold ledFlush
    repeat' first
      | with_reducible assumption
      | intro _
      | with_reducible apply ih
      | with_reducible apply ledPut_foot (hW := (less hW))
      | with_reducible apply Foot.ite
      | exact Or.inl (hW (by decide))
      | with_reducible exact Or.inr rfl
      | with_reducible exact id
      | with_reducible exact Nat.le_refl _
      | (simp only [Foot.lit_eq]; with_reducible apply Foot.litL rfl)

end Sys2Proof.Laws
end

