-- ==== Sys2Proof/Laws/FootLceOps.lean ====
section
/-!
SUPPORT. Footprints of the operations of Machine/LceOps.lean.
-/
namespace Sys2Proof.Laws
open Sys2Proof Sys2Proof.Machine
set_option Elab.async false

theorem modDomain_foot {W : List Area} {r s : State} (hW : [.lce] ⊆ W) (d : Nat) (f : Domain → Domain) (h : Foot W r s) :
    Foot W r (modDomain d f s) := by
  unfold modDomain
  repeat' first
    | with_reducible assumption
    | intro _
    | with_reducible apply Foot.ite
    | exact Or.inl (hW (by decide))
    | with_reducible exact Or.inr rfl
    | with_reducible exact id
    | with_reducible exact Nat.le_refl _
    | (simp only [Foot.lit_eq]; with_reducible apply Foot.litL rfl)

theorem touchTab_foot {W : List Area} {r s : State} (hW : [.mem, .rg, .fe] ⊆ W) (n : Nat) (d : Nat) (a2 : Nat) (h : Foot W r s) :
    Foot W r (touchTab n d a2 s) := by
  unfold touchTab
  repeat' first
    | with_reducible assumption
    | intro _
    | with_reducible apply accessC_foot (hW := (less hW))
    | with_reducible apply Foot.ite
    | split
    | dsimp only

theorem cacheTab_foot {W : List Area} {r s : State} (hW : [.mem, .rg, .lce, .fe] ⊆ W) (n : Nat) (d : Nat) (a2 : Nat) (h : Foot W r s) :
    Foot W r (cacheTab n d a2 s) := by
  unfold cacheTab
  repeat' first
    | with_reducible assumption
    | intro _
    | with_reducible apply touchTab_foot (hW := (less hW))
    | with_reducible apply modLce_foot (hW := (less hW))
    | with_reducible apply Foot.ite
    | split
    | dsimp only

theorem dropTabs_foot {W : List Area} {r s : State} (hW : [.lce] ⊆ W) (d : Nat) (h : Foot W r s) :
    Foot W r (dropTabs d s) := by
  unfold dropTabs
  repeat' first
    | with_reducible assumption
    | intro _
    | with_reducible apply each_foot
    | with_reducible apply modLce_foot (hW := (less hW))

theorem modHrc_foot {W : List Area} {r s : State} (hW : [.lce] ⊆ W) (p : Nat) (f : Hrc → Hrc) (h : Foot W r s) :
    Foot W r (modHrc p f s) := by
  unfold modHrc
  repeat' first
    | with_reducible assumption
    | intro _
    | with_reducible apply Foot.ite
    | exact Or.inl (hW (by decide))
    | with_reducible exact Or.inr rfl
    | with_reducible exact id
    | with_reducible exact Nat.le_refl _
    | (simp only [Foot.lit_eq]; with_reducible apply Foot.litL rfl)

theorem hrcTouch_foot {W : List Area} {r s : State} (hW : [.lce] ⊆ W) (p : Nat) (c : HotCopy) (h : Foot W r s) :
    Foot W r (hrcTouch p c s) := by
  unfold hrcTouch
  repeat' first
    | with_reducible assumption
    | intro _
    | with_reducible apply modHrc_foot (hW := (less hW))

theorem hrcWrite_foot {W : List Area} {r s : State} (hW : [.lce] ⊆ W) (p : Nat) (a1 : HotRow) (data : List Byte) (bad : Bool) (h : Foot W r s) :
    Foot W r (hrcWrite p a1 data bad s) := by
  unfold hrcWrite
  repeat' first
    | with_reducible assumption
    | intro _
    | with_reducible apply modHrc_foot (hW := (less hW))
    | with_reducible apply Foot.ite

theorem sketchAdd_foot {W : List Area} {r s : State} (hW : [.lce] ⊆ W) (n : Nat) (p : Nat) (a2 : HotRow) (uses : Nat) (h : Foot W r s) :
    Foot W r (sketchAdd n p a2 uses s) := by
  unfold sketchAdd
  repeat' first
    | with_reducible assumption
    | intro _
    | with_reducible apply each_foot
    | with_reducible apply modHrc_foot (hW := (less hW))

theorem hrcAdmit_foot {W : List Area} {r s : State} (hW : [.lce] ⊆ W) (n : Nat) (p : Nat) (a2 : HotRow) (data : List Byte) (h : Foot W r s) :
    Foot W r (hrcAdmit n p a2 data s) := by
  unfold hrcAdmit
  repeat' first
    | with_reducible assumption
    | intro _
    | with_reducible apply modHrc_foot (hW := (less hW))
    | with_reducible apply Foot.ite
    | split

theorem saveAcc_foot {W : List Area} {r : State} (hW : [.cells, .mem, .rg, .fab, .fe, .ic, .err, .csb, .ports, .freeCtr] ⊆ W) (n : Nat) (b : Nat) (xs : Batch × State) (h : Foot W r xs.2) :
    Foot W r (saveAcc n b xs).2 := by
  unfold saveAcc
  repeat' first
    | with_reducible assumption
    | intro _
    | with_reducible apply each_foot
    | with_reducible apply writeOut_foot (hW := (less hW))
    | with_reducible apply Foot.ite
    | with_reducible refine Foot.snd (by assumption) ?_
    | split

theorem poolUseAt_foot {W : List Area} {r : State} (hW : [.cells, .mem, .rg, .fab, .fe, .ic, .err, .csb, .ports, .freeCtr] ⊆ W) (n : Nat) (bad : Bool) (vals : List Res) (dim : Nat) (xs : Batch × State) (u : RowUse) (h : Foot W r xs.2) :
    Foot W r (poolUseAt n bad vals dim xs u).2 := by
  unfold poolUseAt
  repeat' first
    | with_reducible assumption
    | intro _
    | with_reducible apply saveAcc_foot (hW := (less hW))

theorem poolRow_foot {W : List Area} {r : State} (hW : [.cells, .mem, .rg, .lce, .fab, .fe, .ic, .err, .csb, .ports, .freeCtr] ⊆ W) (n : Nat) (a1 : LkRow) (xs : Batch × State) (h : Foot W r xs.2) :
    Foot W r (poolRow n a1 xs).2 := by
  unfold poolRow
  repeat' first
    | with_reducible assumption
    | intro _
    | with_reducible apply poolUseAt_foot (hW := (less hW))
    | with_reducible apply hrcAdmit_foot (hW := (less hW))
    | with_reducible apply modLce_foot (hW := (less hW))
    | with_reducible apply modVai_foot (hW := (less hW))
    | with_reducible apply Foot.ite
    | with_reducible apply Foot.foldl
    | with_reducible apply Foot.foldl_snd
    | with_reducible refine Foot.snd (by assumption) ?_
    | split

theorem poolReady_foot {W : List Area} {r s : State} (hW : [.cells, .mem, .rg, .lce, .fab, .fe, .ic, .err, .csb, .ports, .freeCtr] ⊆ W) (n : Nat) (x : Batch) (h : Foot W r s) :
    Foot W r (poolReady n x s).2 := by
  unfold poolReady
  repeat' first
    | with_reducible assumption
    | intro _
    | with_reducible apply poolRow_foot (hW := (less hW))
    | with_reducible apply Foot.ite
    | with_reducible apply Foot.foldl
    | with_reducible apply Foot.foldl_snd

theorem sendSub_foot {W : List Area} {r : State} (hW : [.lce, .fab, .ports] ⊆ W) (n : Nat) (seq : Nat) (node : Nat) (l : List (LkEntry × Nat)) (xs : Batch × State) (h : Foot W r xs.2) :
    Foot W r (sendSub n seq node l xs).2 := by
  unfold sendSub
  repeat' first
    | with_reducible assumption
    | intro _
    | with_reducible apply sendAll_foot (hW := (less hW))
    | with_reducible apply modLce_foot (hW := (less hW))
    | with_reducible apply Foot.ite
    | exact Or.inl (hW (by decide))
    | with_reducible exact Or.inr rfl
    | with_reducible exact id
    | with_reducible exact Nat.le_refl _
    | (simp only [Foot.lit_eq]; with_reducible apply Foot.litL rfl)

theorem lookRow_foot {W : List Area} {r : State} (hW : [.lce] ⊆ W) (n : Nat) (a1 : LkRow) (xs : Batch × State) (h : Foot W r xs.2) :
    Foot W r (lookRow n a1 xs).2 := by
  unfold lookRow
  repeat' first
    | with_reducible assumption
    | intro _
    | with_reducible apply sketchAdd_foot (hW := (less hW))
    | with_reducible apply modLce_foot (hW := (less hW))
    | with_reducible apply hrcTouch_foot (hW := (less hW))
    | with_reducible apply Foot.ite
    | with_reducible refine Foot.snd (by assumption) ?_
    | split
    | dsimp only

theorem fetchWindow_foot {W : List Area} {r s : State} (hW : [.mem, .rg, .lce, .fe] ⊆ W) (n : Nat) (x : Batch) (h : Foot W r s) :
    Foot W r (fetchWindow n x s).2 := by
  unfold fetchWindow
  repeat' first
    | with_reducible assumption
    | intro _
    | with_reducible apply each_foot
    | with_reducible apply accessC_foot (hW := (less hW))
    | with_reducible apply modLce_foot (hW := (less hW))

theorem sendOwner_foot {W : List Area} {r : State} (hW : [.lce, .fab, .ports] ⊆ W) (n : Nat) (o : Nat × List (LkEntry × Nat)) (xs : Batch × State) (h : Foot W r xs.2) :
    Foot W r (sendOwner n o xs).2 := by
  unfold sendOwner
  repeat' first
    | with_reducible assumption
    | intro _
    | with_reducible apply sendSub_foot (hW := (less hW))
    | with_reducible apply Foot.ite
    | with_reducible apply Foot.foldl
    | with_reducible apply Foot.foldl_snd
    | with_reducible refine Foot.snd (by assumption) ?_
    | split

theorem startWindow_foot {W : List Area} {r s : State} (hW : [.cells, .mem, .rg, .lce, .fab, .fe, .ic, .err, .csb, .ports, .freeCtr] ⊆ W) (n : Nat) (x : Batch) (h : Foot W r s) :
    Foot W r (startWindow n x s).2 := by
  unfold startWindow
  repeat' first
    | with_reducible assumption
    | intro _
    | with_reducible apply modLce_foot (hW := (less hW))
    | with_reducible apply sendOwner_foot (hW := (less hW))
    | with_reducible apply lookRow_foot (hW := (less hW))
    | with_reducible apply fetchWindow_foot (hW := (less hW))
    | with_reducible apply poolReady_foot (hW := (less hW))
    | with_reducible apply Foot.ite
    | with_reducible apply Foot.foldl
    | with_reducible apply Foot.foldl_snd

theorem putNear_foot {W : List Area} {r s : State} (hW : [.cells, .mem, .rg, .fab, .fe, .ic, .err, .csb, .ports, .freeCtr] ⊆ W) (n : Nat) (c : Nat) (va : Nat) (data : List Byte) (bad : Bool) {t : State} (e : putNear n c va data bad s = .ok t) (h : Foot W r s) :
    Foot W r t := by
  unfold putNear at e
  try dsimp only at e
  repeat' first
    | split at e
  all_goals first
    | (simp only [reduceCtorEq] at e; done)
    | (simp only [Option.some.injEq, Except.ok.injEq] at e; subst e)
  repeat' first
    | with_reducible assumption
    | intro _
    | with_reducible apply writeOut_foot (hW := (less hW))

theorem putWindow_foot {W : List Area} {r s : State} (hW : [.cells, .mem, .arr, .fe, .ic, .err] ⊆ W) (c : Nat) (dest : Nat) (off : Nat) (data : List Byte) (bad : Bool) {t : State} (e : putWindow c dest off data bad s = .ok t) (h : Foot W r s) :
    Foot W r t := by
  unfold putWindow at e
  try dsimp only at e
  repeat' first
    | split at e
  all_goals first
    | (simp only [reduceCtorEq] at e; done)
    | (simp only [Option.some.injEq, Except.ok.injEq] at e; subst e)
  repeat' first
    | with_reducible assumption
    | intro _
    | with_reducible refine windowWrite_foot (less hW) _ _ _ _ _ (by assumption) ?_

theorem deliverBags_foot {W : List Area} {r s : State} (hW : [.cells, .mem, .rg, .arr, .fab, .fe, .ic, .err, .csb, .ports, .freeCtr] ⊆ W) (n : Nat) (x : Batch) (taint : Bool) (l : List Nat) (h : Foot W r s) :
    Foot W r (deliverBags n x taint l s).2 := by
  induction l generalizing s x with
  | nil => exact h
  | cons b l ih =>
    unfold deliverBags
    dsimp only
    split
    · exact h
    · rename_i s' heq
      refine ih _ ?_
      split at heq
      · exact putWindow_foot (less hW) _ _ _ _ _ heq h
      · exact putNear_foot (less hW) _ _ _ _ _ heq h

theorem dropBatch_foot {W : List Area} {r s : State} (hW : [.lce, .fab] ⊆ W) (n : Nat) (k : BatchKind) (h : Foot W r s) :
    Foot W r (dropBatch n k s) := by
  unfold dropBatch
  repeat' first
    | with_reducible assumption
    | intro _
    | with_reducible apply modLce_foot (hW := (less hW))
    | with_reducible apply Foot.ite
    | exact Or.inl (hW (by decide))
    | with_reducible exact Or.inr rfl
    | with_reducible exact id
    | with_reducible exact Nat.le_refl _
    | (simp only [Foot.lit_eq]; with_reducible apply Foot.litL rfl)
    | split

theorem subRsp_foot {W : List Area} {r s : State} (hW : [.fab, .ports] ⊆ W) (src : Nat) (tag : Nat) (gen : Nat) (ch : Nat) (arg : Nat) (part : Nat) (count : Nat) (status : Nat) (mask : Nat) (data : List Byte) (h : Foot W r s) :
    Foot W r (subRsp src tag gen ch arg part count status mask data s) := by
  unfold subRsp
  repeat' first
    | with_reducible assumption
    | intro _
    | with_reducible apply respond_foot (hW := (less hW))

theorem refuseSub_foot {W : List Area} {r s : State} (hW : [.fab, .ic, .err, .ports] ⊆ W) (src : Nat) (tag : Nat) (gen : Nat) (ch : Nat) (arg : Nat) (h : Foot W r s) :
    Foot W r (refuseSub src tag gen ch arg s) := by
  unfold refuseSub
  repeat' first
    | with_reducible assumption
    | intro _
    | with_reducible apply reportCe_foot (hW := (less hW))
    | with_reducible apply subRsp_foot (hW := (less hW))

theorem failBatch_foot {W : List Area} {r s : State} (hW : [.lce, .fab, .fe, .ic, .err, .ports] ⊆ W) (n : Nat) (x : Batch) (st : Status) (why : Nat) (k : Option (Nat × Nat)) (h : Foot W r s) :
    Foot W r (failBatch n x st why k s) := by
  unfold failBatch
  repeat' first
    | with_reducible assumption
    | intro _
    | with_reducible apply dropBatch_foot (hW := (less hW))
    | with_reducible apply refuseSub_foot (hW := (less hW))
    | with_reducible apply xlatFault_foot (hW := (less hW))
    | with_reducible apply taskEnd_foot (hW := (less hW))
    | with_reducible apply Foot.ite
    | split

theorem subReply_foot {W : List Area} {r s : State} (hW : [.fab, .ports] ⊆ W) (src : Nat) (tag : Nat) (gen : Nat) (ch : Nat) (arg : Nat) (x : Batch) (h : Foot W r s) :
    Foot W r (subReply src tag gen ch arg x s) := by
  unfold subReply
  repeat' first
    | with_reducible assumption
    | intro _
    | with_reducible apply each_foot
    | with_reducible apply subRsp_foot (hW := (less hW))

theorem deliverTask_foot {W : List Area} {r s : State} (hW : [.cells, .mem, .rg, .arr, .lce, .fab, .fe, .ic, .err, .csb, .ports, .freeCtr] ⊆ W) (n : Nat) (seq : Nat) (x : Batch) (h : Foot W r s) :
    Foot W r (deliverTask n seq x s) := by
  unfold deliverTask
  repeat' first
    | with_reducible assumption
    | intro _
    | with_reducible apply deliverBags_foot (hW := (less hW))
    | with_reducible apply failBatch_foot (hW := (less hW))
    | with_reducible apply taskEnd_foot (hW := (less hW))
    | with_reducible apply dropBatch_foot (hW := (less hW))
    | with_reducible apply writeOut_foot (hW := (less hW))
    | with_reducible apply modTask_foot (hW := (less hW))
    | with_reducible apply Foot.ite
    | with_reducible apply Foot.foldl
    | with_reducible apply Foot.foldl_snd
    | with_reducible refine Foot.snd (by assumption) ?_
    | split
    | dsimp only

theorem keepBatch_foot {W : List Area} {r s : State} (hW : [.lce] ⊆ W) (n : Nat) (x : Batch) (h : Foot W r s) :
    Foot W r (keepBatch n x s) := by
  unfold keepBatch
  repeat' first
    | with_reducible assumption
    | intro _
    | with_reducible apply modLce_foot (hW := (less hW))

theorem advance_foot {W : List Area} {r s : State} (hW : [.cells, .mem, .rg, .arr, .lce, .fab, .fe, .ic, .err, .csb, .ports, .freeCtr] ⊆ W) (fuel : Nat) (n : Nat) (x : Batch) (h : Foot W r s) :
    Foot W r (advance fuel n x s) := by
  induction fuel generalizing n x s with
  | zero =>
    unfold advance
    repeat' first
      | with_reducible assumption
      | intro _
      | with_reducible apply keepBatch_foot (hW := (less hW))
  | succ _ ih =>
    unfold advance
    repeat' first
      | with_reducible assumption
      | intro _
      | with_reducible apply ih
      | with_reducible apply keepBatch_foot (hW := (less hW))
      | with_reducible apply failBatch_foot (hW := (less hW))
      | with_reducible apply startWindow_foot (hW := (less hW))
      | with_reducible apply deliverTask_foot (hW := (less hW))
      | with_reducible apply subReply_foot (hW := (less hW))
      | with_reducible apply dropBatch_foot (hW := (less hW))
      | with_reducible apply Foot.ite
      | with_reducible refine Foot.snd (by assumption) ?_
      | split

theorem stepBatch_foot {W : List Area} {r s : State} (hW : [.cells, .mem, .rg, .arr, .lce, .fab, .fe, .ic, .err, .csb, .ports, .freeCtr] ⊆ W) (n : Nat) (k : BatchKind) (f : Batch → Batch) (h : Foot W r s) :
    Foot W r (stepBatch n k f s) := by
  unfold stepBatch
  repeat' first
    | with_reducible assumption
    | intro _
    | with_reducible apply advance_foot (hW := (less hW))
    | with_reducible apply Foot.ite
    | split

theorem beginBatch_foot {W : List Area} {r s : State} (hW : [.cells, .mem, .rg, .arr, .lce, .fab, .fe, .ic, .err, .csb, .ports, .freeCtr] ⊆ W) (n : Nat) (x : Batch) (h : Foot W r s) :
    Foot W r (beginBatch n x s) := by
  unfold beginBatch
  repeat' first
    | with_reducible assumption
    | intro _
    | with_reducible apply modLce_foot (hW := (less hW))
    | with_reducible apply advance_foot (hW := (less hW))

theorem combine_foot {W : List Area} {r : State} (hW : [.cells, .mem, .rg, .fab, .fe, .ic, .err, .csb, .ports, .freeCtr] ⊆ W) (n : Nat) (fuel : Nat) (off : Nat) (bad : List Nat) (l : List Byte) (xs : Batch × State) (h : Foot W r xs.2) :
    Foot W r (combine n fuel off bad l xs).2 := by
  induction fuel generalizing n off bad l xs with
  | zero =>
    unfold combine
    repeat' first
      | with_reducible assumption
  | succ _ ih =>
    unfold combine
    repeat' first
      | with_reducible assumption
      | intro _
      | with_reducible apply ih
      | with_reducible apply saveAcc_foot (hW := (less hW))
      | with_reducible apply Foot.ite
      | with_reducible refine Foot.snd (by assumption) ?_
      | split

theorem takeReply_foot {W : List Area} {r s : State} (hW : [.cells, .mem, .rg, .arr, .lce, .fab, .fe, .ic, .err, .csb, .ports, .freeCtr] ⊆ W) (b : SubOut) (bad : List Nat) (data : List Byte) (h : Foot W r s) :
    Foot W r (takeReply b bad data s) := by
  unfold takeReply
  repeat' first
    | with_reducible assumption
    | intro _
    | with_reducible apply combine_foot (hW := (less hW))
    | with_reducible apply advance_foot (hW := (less hW))
    | with_reducible apply Foot.ite
    | with_reducible refine Foot.snd (by assumption) ?_
    | split

theorem subDone_foot {W : List Area} {r s : State} (hW : [.cells, .mem, .rg, .arr, .lce, .fab, .fe, .ic, .err, .csb, .ports, .freeCtr] ⊆ W) (b : SubOut) (h : Foot W r s) :
    Foot W r (subDone b s) := by
  unfold subDone
  repeat' first
    | with_reducible assumption
    | intro _
    | with_reducible apply takeReply_foot (hW := (less hW))
    | with_reducible apply Foot.ite
    | exact Or.inl (hW (by decide))
    | with_reducible exact Or.inr rfl
    | with_reducible exact id
    | with_reducible exact Nat.le_refl _
    | (simp only [Foot.lit_eq]; with_reducible apply Foot.litL rfl)

theorem subLost_foot {W : List Area} {r s : State} (hW : [.cells, .mem, .rg, .arr, .lce, .fab, .fe, .ic, .err, .csb, .ports, .freeCtr] ⊆ W) (b : SubOut) (h : Foot W r s) :
    Foot W r (subLost b s) := by
  unfold subLost
  repeat' first
    | with_reducible assumption
    | intro _
    | with_reducible apply reportCe_foot (hW := (less hW))
    | with_reducible apply stepBatch_foot (hW := (less hW))
    | with_reducible apply Foot.ite
    | exact Or.inl (hW (by decide))
    | with_reducible exact Or.inr rfl
    | with_reducible exact id
    | with_reducible exact Nat.le_refl _
    | (simp only [Foot.lit_eq]; with_reducible apply Foot.litL rfl)

theorem subRefused_foot {W : List Area} {r s : State} (hW : [.cells, .mem, .rg, .arr, .lce, .fab, .fe, .ic, .err, .csb, .ports, .freeCtr] ⊆ W) (b : SubOut) (h : Foot W r s) :
    Foot W r (subRefused b s) := by
  unfold subRefused
  repeat' first
    | with_reducible assumption
    | intro _
    | with_reducible apply stepBatch_foot (hW := (less hW))
    | with_reducible apply Foot.ite
    | exact Or.inl (hW (by decide))
    | with_reducible exact Or.inr rfl
    | with_reducible exact id
    | with_reducible exact Nat.le_refl _
    | (simp only [Foot.lit_eq]; with_reducible apply Foot.litL rfl)

end Sys2Proof.Laws
end

