-- ==== Sys2Proof/Laws/FootReqOps.lean ====
section
/-!
SUPPORT. Footprints of the operations of Machine/ReqOps.lean.
-/
namespace Sys2Proof.Laws
open Sys2Proof Sys2Proof.Machine
set_option Elab.async false

theorem lostCe_foot {W : List Area} {r s : State} (hW : [.ic, .err] ⊆ W) (a0 : Req) (h : Foot W r s) :
    Foot W r (lostCe a0 s) := by
  unfold lostCe
  repeat' first
    | with_reducible assumption
    | intro _
    | with_reducible apply report_foot (hW := (less hW))

theorem refuseOn_foot {W : List Area} {r s : State} (hW : [.rg, .arr, .fab, .fe, .tw, .ic, .err, .ports, .freeCtr] ⊆ W) (p : Nat) (a1 : Req) (st : Status) (h : Foot W r s) :
    Foot W r (refuseOn p a1 st s) := by
  unfold refuseOn
  repeat' first
    | with_reducible assumption
    | intro _
    | with_reducible apply endOnArray_foot (hW := (less hW))

theorem lostOn_foot {W : List Area} {r s : State} (hW : [.rg, .arr, .fab, .fe, .tw, .ic, .err, .ports, .freeCtr] ⊆ W) (p : Nat) (a1 : Req) (h : Foot W r s) :
    Foot W r (lostOn p a1 s) := by
  unfold lostOn
  repeat' first
    | with_reducible assumption
    | intro _
    | with_reducible apply endOnArray_foot (hW := (less hW))
    | with_reducible apply lostCe_foot (hW := (less hW))

theorem loadReply_foot {W : List Area} {r s : State} (hW : [.rg, .arr, .fab, .fe, .tw, .ic, .err, .ports, .freeCtr] ⊆ W) (p : Nat) (dest : Nat) (a2 : Req) (o : Reply) (h : Foot W r s) :
    Foot W r (loadReply p dest a2 o s) := by
  unfold loadReply
  repeat' first
    | with_reducible assumption
    | intro _
    | with_reducible apply modArr_foot (hW := (less hW))
    | with_reducible apply refuseOn_foot (hW := (less hW))
    | with_reducible apply fresh_foot (hW := (less hW))
    | with_reducible apply lostCe_foot (hW := (less hW))
    | with_reducible apply Foot.ite
    | with_reducible refine Foot.snd (by assumption) ?_
    | split

theorem ackReply_foot {W : List Area} {r s : State} (hW : [.rg, .arr, .fab, .fe, .tw, .ic, .err, .ports, .freeCtr] ⊆ W) (p : Nat) (a1 : Req) (o : Reply) (f : Nat → State → State) (h_f : ∀ y0 s', Foot W r s' → Foot W r (f y0 s')) (h : Foot W r s) :
    Foot W r (ackReply p a1 o f s) := by
  unfold ackReply
  repeat' first
    | with_reducible assumption
    | intro _
    | with_reducible apply refuseOn_foot (hW := (less hW))
    | with_reducible apply lostOn_foot (hW := (less hW))
    | apply h_f
    | with_reducible apply Foot.ite
    | split

theorem endEarly_foot {W : List Area} {r s : State} (hW : [.fe] ⊆ W) (seq : Nat) (st : Status) (type : Nat) (h : Foot W r s) :
    Foot W r (endEarly seq st type s) := by
  unfold endEarly
  repeat' first
    | with_reducible assumption
    | intro _
    | with_reducible apply modTask_foot (hW := (less hW))

theorem eapReply_foot {W : List Area} {r s : State} (hW : [.fe, .ic, .err, .ports, .freeCtr] ⊆ W) (a0 : Nat) (tag : Nat) (wr : Bool) (a3 : Req) (o : Reply) (h : Foot W r s) :
    Foot W r (eapReply a0 tag wr a3 o s) := by
  unfold eapReply
  repeat' first
    | with_reducible assumption
    | intro _
    | with_reducible apply emit_foot (hW := (less hW))
    | with_reducible apply endEarly_foot (hW := (less hW))
    | with_reducible apply lostCe_foot (hW := (less hW))
    | with_reducible apply fresh_foot (hW := (less hW))
    | with_reducible apply Foot.ite
    | with_reducible refine Foot.snd (by assumption) ?_
    | split

theorem modKv_foot {W : List Area} {r s : State} (hW : [.sg] ⊆ W) (seq : Nat) (f : Kv → Kv) (h : Foot W r s) :
    Foot W r (modKv seq f s) := by
  unfold modKv
  repeat' first
    | with_reducible assumption
    | intro _
    | with_reducible apply Foot.ite
    | exact Or.inl (hW (by decide))
    | with_reducible exact Or.inr rfl
    | with_reducible exact id
    | with_reducible exact Nat.le_refl _
    | (simp only [Foot.lit_eq]; with_reducible apply Foot.litL rfl)

theorem endKv_foot {W : List Area} {r s : State} (hW : [.sg, .fe, .ic, .err] ⊆ W) (seq : Nat) (st : Status) (guilt : Option (Nat × Nat)) (h : Foot W r s) :
    Foot W r (endKv seq st guilt s) := by
  unfold endKv
  repeat' first
    | with_reducible assumption
    | intro _
    | with_reducible apply taskEnd_foot (hW := (less hW))
    | with_reducible apply Foot.ite
    | exact Or.inl (hW (by decide))
    | with_reducible exact Or.inr rfl
    | with_reducible exact id
    | with_reducible exact Nat.le_refl _
    | (simp only [Foot.lit_eq]; with_reducible apply Foot.litL rfl)

theorem kvNext_foot {W : List Area} {r s : State} (hW : [.fab, .sg, .fe, .ic, .err, .ports] ⊆ W) (seq : Nat) (h : Foot W r s) :
    Foot W r (kvNext seq s) := by
  unfold kvNext
  repeat' first
    | with_reducible assumption
    | intro _
    | with_reducible apply endKv_foot (hW := (less hW))
    | with_reducible apply sendReq_foot (hW := (less hW))
    | with_reducible apply modKv_foot (hW := (less hW))
    | with_reducible apply Foot.ite
    | split

theorem kvReply_foot {W : List Area} {r s : State} (hW : [.fab, .sg, .fe, .ic, .err, .ports] ⊆ W) (seq : Nat) (a1 : Req) (o : Reply) (h : Foot W r s) :
    Foot W r (kvReply seq a1 o s) := by
  unfold kvReply
  repeat' first
    | with_reducible assumption
    | intro _
    | with_reducible apply modKv_foot (hW := (less hW))
    | with_reducible apply kvNext_foot (hW := (less hW))
    | with_reducible apply lostCe_foot (hW := (less hW))
    | with_reducible apply Foot.ite
    | split

theorem kvSignalReply_foot {W : List Area} {r s : State} (hW : [.sg, .fe, .ic, .err] ⊆ W) (seq : Nat) (a1 : Req) (o : Reply) (h : Foot W r s) :
    Foot W r (kvSignalReply seq a1 o s) := by
  unfold kvSignalReply
  repeat' first
    | with_reducible assumption
    | intro _
    | with_reducible apply endKv_foot (hW := (less hW))
    | with_reducible apply lostCe_foot (hW := (less hW))
    | with_reducible apply Foot.ite
    | split

theorem tableReply_foot {W : List Area} {r s : State} (hW : [.fab, .sg, .ic, .err, .ports] ⊆ W) (g : Nat) (m : Nat) (k : Nat) (a3 : Req) (o : Reply) (h : Foot W r s) :
    Foot W r (tableReply g m k a3 o s) := by
  unfold tableReply
  repeat' first
    | with_reducible assumption
    | intro _
    | with_reducible apply sendReq_foot (hW := (less hW))
    | with_reducible apply lostCe_foot (hW := (less hW))
    | with_reducible apply Foot.ite
    | exact Or.inl (hW (by decide))
    | with_reducible exact Or.inr rfl
    | with_reducible exact id
    | with_reducible exact Nat.le_refl _
    | (simp only [Foot.lit_eq]; with_reducible apply Foot.litL rfl)
    | split
    | dsimp only

theorem subOutcome_foot {W : List Area} {r s : State} (hW : [.cells, .mem, .rg, .arr, .lce, .fab, .fe, .ic, .err, .csb, .ports, .freeCtr] ⊆ W) (a0 : Req) (o : Reply) (h : Foot W r s) :
    Foot W r (subOutcome a0 o s) := by
  unfold subOutcome
  repeat' first
    | with_reducible assumption
    | intro _
    | with_reducible apply subLost_foot (hW := (less hW))
    | with_reducible apply subRefused_foot (hW := (less hW))
    | with_reducible apply Foot.ite
    | split

theorem dropLookup_foot {W : List Area} {r s : State} (hW : [.lce, .fab] ⊆ W) (seq : Nat) (h : Foot W r s) :
    Foot W r (dropLookup seq s) := by
  unfold dropLookup
  repeat' first
    | with_reducible assumption
    | intro _
    | with_reducible apply each_foot
    | with_reducible apply dropBatch_foot (hW := (less hW))

theorem resultReply_foot {W : List Area} {r s : State} (hW : [.lce, .fab, .fe, .ic, .err] ⊆ W) (seq : Nat) (a1 : Req) (o : Reply) (h : Foot W r s) :
    Foot W r (resultReply seq a1 o s) := by
  unfold resultReply
  repeat' first
    | with_reducible assumption
    | intro _
    | with_reducible apply taskEnd_foot (hW := (less hW))
    | with_reducible apply dropLookup_foot (hW := (less hW))
    | with_reducible apply lostCe_foot (hW := (less hW))
    | with_reducible apply Foot.ite
    | split

theorem updateEnd_foot {W : List Area} {r s : State} (hW : [.fe, .ic, .err] ⊆ W) (seq : Nat) (h : Foot W r s) :
    Foot W r (updateEnd seq s) := by
  unfold updateEnd
  repeat' first
    | with_reducible assumption
    | intro _
    | with_reducible apply taskEnd_foot (hW := (less hW))
    | with_reducible apply Foot.ite
    | split

theorem updateReply_foot {W : List Area} {r s : State} (hW : [.lce, .fe, .ic, .err] ⊆ W) (a0 : Req) (o : Reply) (h : Foot W r s) :
    Foot W r (updateReply a0 o s) := by
  unfold updateReply
  repeat' first
    | with_reducible assumption
    | intro _
    | with_reducible apply endEarly_foot (hW := (less hW))
    | with_reducible apply updateEnd_foot (hW := (less hW))
    | with_reducible apply reportCe_foot (hW := (less hW))
    | with_reducible apply lostCe_foot (hW := (less hW))
    | with_reducible apply Foot.ite
    | exact Or.inl (hW (by decide))
    | with_reducible exact Or.inr rfl
    | with_reducible exact id
    | with_reducible exact Nat.le_refl _
    | (simp only [Foot.lit_eq]; with_reducible apply Foot.litL rfl)
    | split

theorem droppedReply_foot {W : List Area} {r s : State} (hW : [.fe] ⊆ W) (late : Bool) (a1 : Req) (h : Foot W r s) :
    Foot W r (droppedReply late a1 s) := by
  unfold droppedReply
  repeat' first
    | with_reducible assumption
    | intro _
    | with_reducible apply modCtx_foot (hW := (less hW))
    | with_reducible apply Foot.ite

theorem ctlReply_foot {W : List Area} {r s : State} (hW : [.fab, .ic, .err, .freeCtr] ⊆ W) (a0 : Req) (o : Reply) (h : Foot W r s) :
    Foot W r (ctlReply a0 o s) := by
  unfold ctlReply
  repeat' first
    | with_reducible assumption
    | intro _
    | with_reducible apply fresh_foot (hW := (less hW))
    | with_reducible apply lostCe_foot (hW := (less hW))
    | with_reducible apply Foot.ite
    | exact Or.inl (hW (by decide))
    | with_reducible exact Or.inr rfl
    | with_reducible exact id
    | with_reducible exact Nat.le_refl _
    | (simp only [Foot.lit_eq]; with_reducible apply Foot.litL rfl)
    | with_reducible refine Foot.snd (by assumption) ?_
    | split

theorem onArray_foot {W : List Area} {r s : State} (l : Nat) (f : Nat → State → State) (h_f : ∀ y0 s', Foot W r s' → Foot W r (f y0 s')) (h : Foot W r s) :
    Foot W r (onArray l f s) := by
  unfold onArray
  repeat' first
    | with_reducible assumption
    | intro _
    | apply h_f
    | with_reducible apply Foot.ite
    | split

theorem settleReq_foot {W : List Area} {r s : State} (hW : [.cells, .mem, .rg, .arr, .lce, .fab, .sg, .fe, .tw, .ic, .err, .csb, .ports, .freeCtr] ⊆ W) (a0 : Req) (o : Reply) (h : Foot W r s) :
    Foot W r (settleReq a0 o s) := by
  unfold settleReq
  repeat' first
    | with_reducible assumption
    | intro _
    | with_reducible apply onArray_foot
    | with_reducible apply loadReply_foot (hW := (less hW))
    | with_reducible apply ackReply_foot (hW := (less hW))
    | with_reducible apply fenceCheck_foot (hW := (less hW))
    | with_reducible apply modArr_foot (hW := (less hW))
    | with_reducible apply eapReply_foot (hW := (less hW))
    | with_reducible apply subOutcome_foot (hW := (less hW))
    | with_reducible apply resultReply_foot (hW := (less hW))
    | with_reducible apply kvReply_foot (hW := (less hW))
    | with_reducible apply kvSignalReply_foot (hW := (less hW))
    | with_reducible apply tableReply_foot (hW := (less hW))
    | with_reducible apply lostCe_foot (hW := (less hW))
    | with_reducible apply updateReply_foot (hW := (less hW))
    | with_reducible apply ctlReply_foot (hW := (less hW))
    | with_reducible apply droppedReply_foot (hW := (less hW))
    | with_reducible apply Foot.ite
    | exact Or.inl (hW (by decide))
    | with_reducible exact Or.inr rfl
    | with_reducible exact id
    | with_reducible exact Nat.le_refl _
    | (simp only [Foot.lit_eq]; with_reducible apply Foot.litL rfl)
    | split

theorem failQueued_foot {W : List Area} {r s : State} (hW : [.fab, .ports] ⊆ W) (k : Packet) (h : Foot W r s) :
    Foot W r (failQueued k s) := by
  unfold failQueued
  repeat' first
    | with_reducible assumption
    | intro _
    | with_reducible apply respond_foot (hW := (less hW))
    | with_reducible apply Foot.ite

theorem failFrames_foot {W : List Area} {r s : State} (hW : [.fab, .ports] ⊆ W) (k : Nat) (f : SentFrame → Bool) (h : Foot W r s) :
    Foot W r (failFrames k f s) := by
  unfold failFrames
  repeat' first
    | with_reducible assumption
    | intro _
    | with_reducible apply modPeer_foot (hW := (less hW))
    | with_reducible apply each_foot
    | with_reducible apply failQueued_foot (hW := (less hW))

theorem failPort_foot {W : List Area} {r s : State} (hW : [.cells, .mem, .rg, .arr, .lce, .fab, .sg, .fe, .tw, .ic, .err, .csb, .ports, .freeCtr] ⊆ W) (p : Nat) (h : Foot W r s) :
    Foot W r (failPort p s) := by
  unfold failPort
  repeat' first
    | with_reducible assumption
    | intro _
    | with_reducible apply modPort_foot (hW := (less hW))
    | with_reducible apply each_foot
    | with_reducible apply failQueued_foot (hW := (less hW))
    | with_reducible apply freeSource_foot (hW := (less hW))
    | with_reducible apply failFrames_foot (hW := (less hW))
    | with_reducible apply settleReq_foot (hW := (less hW))
    | with_reducible apply Foot.ite

theorem releaseFlow_foot {W : List Area} {r s : State} (hW : [.fab, .ports] ⊆ W) (dst : Nat) (ch : Nat) (h : Foot W r s) :
    Foot W r (releaseFlow dst ch s) := by
  unfold releaseFlow
  repeat' first
    | with_reducible assumption
    | intro _
    | with_reducible apply each_foot
    | with_reducible apply putOn_foot (hW := (less hW))
    | with_reducible apply Foot.ite
    | exact Or.inl (hW (by decide))
    | with_reducible exact Or.inr rfl
    | with_reducible exact id
    | with_reducible exact Nat.le_refl _
    | (simp only [Foot.lit_eq]; with_reducible apply Foot.litL rfl)

end Sys2Proof.Laws
end

