-- ==== Sys2Proof/Laws/FootPacketOps.lean ====
section
/-!
SUPPORT. Footprints of the operations of Machine/PacketOps.lean.
-/
namespace Sys2Proof.Laws
open Sys2Proof Sys2Proof.Machine
set_option Elab.async false

theorem takeRx_foot {W : List Area} {r s : State} (hW : [.fab, .ports] ⊆ W) (p : Nat) (k : Packet) (h : Foot W r s) :
    Foot W r (takeRx p k s) := by
  unfold takeRx
  repeat' first
    | with_reducible assumption
    | intro _
    | with_reducible apply giveBack_foot (hW := (less hW))
    | with_reducible apply modPort_foot (hW := (less hW))

theorem onPacket_foot {W : List Area} {r s : State} (hW : [.fab, .ports] ⊆ W) (p : Nat) (opc : Nat) (f : Packet → State → State) (h_f : ∀ y0 s', Foot W r s' → Foot W r (f y0 s')) (h : Foot W r s) :
    Foot W r (onPacket p opc f s) := by
  unfold onPacket
  repeat' first
    | with_reducible assumption
    | intro _
    | with_reducible apply takeRx_foot (hW := (less hW))
    | apply h_f
    | with_reducible apply Foot.ite
    | split

theorem answer_foot {W : List Area} {r s : State} (hW : [.fab, .ports] ⊆ W) (q : Packet) (status : Nat) (mask : Nat) (operand : Nat) (data : List Byte) (h : Foot W r s) :
    Foot W r (answer q status mask operand data s) := by
  unfold answer
  repeat' first
    | with_reducible assumption
    | intro _
    | with_reducible apply respond_foot (hW := (less hW))

theorem kvGo_foot {W : List Area} {r s : State} (hW : [.cells, .mem, .rg, .arr, .fab, .sg, .fe, .tw, .ic, .err, .csb, .ports, .freeCtr] ⊆ W) (seq : Nat) (st : Status) (h : Foot W r s) :
    Foot W r (kvGo seq st s) := by
  unfold kvGo
  repeat' first
    | with_reducible assumption
    | intro _
    | with_reducible apply each_foot
    | with_reducible apply sendReq_foot (hW := (less hW))
    | with_reducible apply modKv_foot (hW := (less hW))
    | with_reducible apply endKv_foot (hW := (less hW))
    | with_reducible apply tallyAdd_foot (hW := (less hW))
    | with_reducible apply Foot.ite
    | split

theorem release_foot {W : List Area} {r s : State} (hW : [.cells, .mem, .rg, .arr, .fab, .sg, .fe, .tw, .ic, .err, .csb, .ports, .freeCtr] ⊆ W) (a : Answer) (h : Foot W r s) :
    Foot W r (release a s) := by
  unfold release
  repeat' first
    | with_reducible assumption
    | intro _
    | with_reducible apply emit_foot (hW := (less hW))
    | with_reducible apply answer_foot (hW := (less hW))
    | with_reducible apply taskEnd_foot (hW := (less hW))
    | with_reducible apply kvGo_foot (hW := (less hW))
    | with_reducible apply Foot.ite
    | split

theorem answerWhen_foot {W : List Area} {r s : State} (hW : [.cells, .mem, .rg, .arr, .fab, .sg, .fe, .tw, .ic, .err, .csb, .ports, .freeCtr] ⊆ W) (i : Nat) (a : Answer) (h : Foot W r s) :
    Foot W r (answerWhen i a s) := by
  unfold answerWhen
  repeat' first
    | with_reducible assumption
    | intro _
    | with_reducible apply release_foot (hW := (less hW))
    | with_reducible apply Foot.ite
    | exact Or.inl (hW (by decide))
    | with_reducible exact Or.inr rfl
    | with_reducible exact id
    | with_reducible exact Nat.le_refl _
    | (simp only [Foot.lit_eq]; with_reducible apply Foot.litL rfl)

theorem releaseReady_foot {W : List Area} {r s : State} (hW : [.cells, .mem, .rg, .arr, .fab, .sg, .fe, .tw, .ic, .err, .csb, .ports, .freeCtr] ⊆ W) (h : Foot W r s) :
    Foot W r (releaseReady s) := by
  unfold releaseReady
  repeat' first
    | with_reducible assumption
    | intro _
    | with_reducible apply each_foot
    | with_reducible apply release_foot (hW := (less hW))
    | with_reducible apply Foot.ite
    | exact Or.inl (hW (by decide))
    | with_reducible exact Or.inr rfl
    | with_reducible exact id
    | with_reducible exact Nat.le_refl _
    | (simp only [Foot.lit_eq]; with_reducible apply Foot.litL rfl)

theorem resetAnswers_foot {W : List Area} {r s : State} (hW : [.rg, .fab, .ports] ⊆ W) (h : Foot W r s) :
    Foot W r (resetAnswers s) := by
  unfold resetAnswers
  repeat' first
    | with_reducible assumption
    | intro _
    | with_reducible apply each_foot
    | with_reducible apply emit_foot (hW := (less hW))
    | with_reducible apply answer_foot (hW := (less hW))
    | with_reducible apply Foot.ite
    | exact Or.inl (hW (by decide))
    | with_reducible exact Or.inr rfl
    | with_reducible exact id
    | with_reducible exact Nat.le_refl _
    | (simp only [Foot.lit_eq]; with_reducible apply Foot.litL rfl)
    | split

theorem serve_foot {W : List Area} {r s : State} (hW : [.fab, .ports] ⊆ W) (p : Nat) (opc : Nat) (f : Packet → State → State) (h_f : ∀ y0 s', Foot W r s' → Foot W r (f y0 s')) (h : Foot W r s) :
    Foot W r (serve p opc f s) := by
  unfold serve
  repeat' first
    | with_reducible assumption
    | intro _
    | with_reducible apply onPacket_foot (hW := (less hW))
    | with_reducible apply countDrop_foot (hW := (less hW))
    | with_reducible apply answer_foot (hW := (less hW))
    | apply h_f
    | with_reducible apply Foot.ite

end Sys2Proof.Laws
end

