-- ==== Sys2Proof/Laws/FootFabLink.lean ====
section
/-!
SUPPORT. Footprints of the operations of Machine/FabLink.lean.
-/
namespace Sys2Proof.Laws
open Sys2Proof Sys2Proof.Machine
set_option Elab.async false

theorem laneCe_foot {W : List Area} {r s : State} (hW : [.ic, .err] ⊆ W) (p : Nat) (h : Foot W r s) :
    Foot W r (laneCe p s) := by
  unfold laneCe
  repeat' first
    | with_reducible assumption
    | intro _
    | with_reducible apply reportCe_foot (hW := (less hW))

theorem takeSplit_foot {W : List Area} {r s : State} (hW : [.fab, .ic, .err] ⊆ W) (p : Nat) (h : Foot W r s) :
    Foot W r (takeSplit p s) := by
  unfold takeSplit
  repeat' first
    | with_reducible assumption
    | intro _
    | with_reducible apply modPort_foot (hW := (less hW))
    | with_reducible apply reportCe_foot (hW := (less hW))
    | with_reducible apply Foot.ite
    | split

theorem sendTrain_foot {W : List Area} {r s : State} (hW : [.fab, .ic, .err, .ports] ⊆ W) (p : Nat) (fresh : Bool) (h : Foot W r s) :
    Foot W r (sendTrain p fresh s) := by
  unfold sendTrain
  repeat' first
    | with_reducible assumption
    | intro _
    | with_reducible apply takeSplit_foot (hW := (less hW))
    | with_reducible apply emit_foot (hW := (less hW))
    | with_reducible apply modPort_foot (hW := (less hW))

theorem dropState_foot {W : List Area} {r s : State} (hW : [.cells, .mem, .rg, .arr, .lce, .fab, .sg, .fe, .tw, .ic, .err, .csb, .ports, .freeCtr] ⊆ W) (p : Nat) (h : Foot W r s) :
    Foot W r (dropState p s) := by
  unfold dropState
  repeat' first
    | with_reducible assumption
    | intro _
    | with_reducible apply each_foot
    | with_reducible apply failQueued_foot (hW := (less hW))
    | with_reducible apply failPort_foot (hW := (less hW))
    | with_reducible apply modPort_foot (hW := (less hW))

theorem trainFresh_foot {W : List Area} {r s : State} (hW : [.fab, .ic, .err, .ports] ⊆ W) (p : Nat) (h : Foot W r s) :
    Foot W r (trainFresh p s) := by
  unfold trainFresh
  repeat' first
    | with_reducible assumption
    | intro _
    | with_reducible apply modPort_foot (hW := (less hW))
    | with_reducible apply sendTrain_foot (hW := (less hW))
    | with_reducible apply Foot.ite

theorem loseState_foot {W : List Area} {r s : State} (hW : [.cells, .mem, .rg, .arr, .lce, .fab, .sg, .fe, .tw, .ic, .err, .csb, .ports, .freeCtr] ⊆ W) (p : Nat) (h : Foot W r s) :
    Foot W r (loseState p s) := by
  unfold loseState
  repeat' first
    | with_reducible assumption
    | intro _
    | with_reducible apply trainFresh_foot (hW := (less hW))
    | with_reducible apply dropState_foot (hW := (less hW))
    | with_reducible apply Foot.ite

theorem enterRetraining_foot {W : List Area} {r s : State} (hW : [.cells, .mem, .rg, .arr, .lce, .fab, .sg, .fe, .tw, .ic, .err, .csb, .ports, .freeCtr] ⊆ W) (p : Nat) (h : Foot W r s) :
    Foot W r (enterRetraining p s) := by
  unfold enterRetraining
  repeat' first
    | with_reducible assumption
    | intro _
    | with_reducible apply laneCe_foot (hW := (less hW))
    | with_reducible apply modPort_foot (hW := (less hW))
    | with_reducible apply dropState_foot (hW := (less hW))
    | with_reducible apply sendTrain_foot (hW := (less hW))
    | with_reducible apply Foot.ite

theorem creditEntry_foot {W : List Area} {r s : State} (hW : [.pm, .ports] ⊆ W) (p : Nat) (v : Nat) (held : Nat) (owed : Nat) (x : Port) (h : Foot W r s) :
    Foot W r (creditEntry p v held owed x s) := by
  unfold creditEntry
  repeat' first
    | with_reducible assumption
    | intro _
    | with_reducible apply ledEvent_foot (hW := (less hW))

theorem takeCredits_foot {W : List Area} {r s : State} (hW : [.fab, .pm, .ports] ⊆ W) (p : Nat) (a1 : TrainSet) (h : Foot W r s) :
    Foot W r (takeCredits p a1 s) := by
  unfold takeCredits
  repeat' first
    | with_reducible assumption
    | intro _
    | with_reducible apply each_foot
    | with_reducible apply creditEntry_foot (hW := (less hW))
    | with_reducible apply modPort_foot (hW := (less hW))

theorem linkUp_foot {W : List Area} {r s : State} (hW : [.fab, .ic, .err] ⊆ W) (p : Nat) (h : Foot W r s) :
    Foot W r (linkUp p s) := by
  unfold linkUp
  repeat' first
    | with_reducible assumption
    | intro _
    | with_reducible apply laneCe_foot (hW := (less hW))
    | with_reducible apply modPort_foot (hW := (less hW))
    | with_reducible apply Foot.ite

theorem trainIn_foot {W : List Area} {r s : State} (hW : [.fab, .ic, .pm, .err, .ports] ⊆ W) (p : Nat) (a1 : TrainSet) (h : Foot W r s) :
    Foot W r (trainIn p a1 s) := by
  unfold trainIn
  repeat' first
    | with_reducible assumption
    | intro _
    | with_reducible apply reportCe_foot (hW := (less hW))
    | with_reducible apply modPort_foot (hW := (less hW))
    | with_reducible apply pump_foot (hW := (less hW))
    | with_reducible apply linkUp_foot (hW := (less hW))
    | with_reducible apply takeCredits_foot (hW := (less hW))
    | with_reducible apply sendTrain_foot (hW := (less hW))
    | with_reducible apply Foot.ite

theorem replayAll_foot {W : List Area} {r s : State} (hW : [.fab, .ports] ⊆ W) (p : Nat) (h : Foot W r s) :
    Foot W r (replayAll p s) := by
  unfold replayAll
  repeat' first
    | with_reducible assumption
    | intro _
    | with_reducible apply modPort_foot (hW := (less hW))
    | with_reducible apply each_foot
    | with_reducible apply emit_foot (hW := (less hW))

theorem resumeLink_foot {W : List Area} {r s : State} (hW : [.fab, .ic, .pm, .err, .ports] ⊆ W) (p : Nat) (a1 : TrainSet) (fs : List Flit) (h : Foot W r s) :
    Foot W r (resumeLink p a1 fs s) := by
  unfold resumeLink
  repeat' first
    | with_reducible assumption
    | intro _
    | with_reducible apply modPort_foot (hW := (less hW))
    | with_reducible apply pump_foot (hW := (less hW))
    | with_reducible apply replayAll_foot (hW := (less hW))
    | with_reducible apply linkUp_foot (hW := (less hW))
    | with_reducible apply takeCredits_foot (hW := (less hW))

theorem trainKept_foot {W : List Area} {r s : State} (hW : [.cells, .mem, .rg, .arr, .lce, .fab, .sg, .fe, .tw, .ic, .pm, .err, .csb, .ports, .freeCtr] ⊆ W) (p : Nat) (a1 : TrainSet) (answer : Bool) (h : Foot W r s) :
    Foot W r (trainKept p a1 answer s) := by
  unfold trainKept
  repeat' first
    | with_reducible assumption
    | intro _
    | with_reducible apply enterRetraining_foot (hW := (less hW))
    | with_reducible apply modPort_foot (hW := (less hW))
    | with_reducible apply resumeLink_foot (hW := (less hW))
    | with_reducible apply sendTrain_foot (hW := (less hW))
    | with_reducible apply trainIn_foot (hW := (less hW))
    | with_reducible apply loseState_foot (hW := (less hW))
    | with_reducible apply Foot.ite
    | split

theorem ethUp_foot {W : List Area} {r s : State} (hW : [.fab, .ic, .err, .ports] ⊆ W) (p : Nat) (a1 : TrainSet) (h : Foot W r s) :
    Foot W r (ethUp p a1 s) := by
  unfold ethUp
  repeat' first
    | with_reducible assumption
    | intro _
    | with_reducible apply pump_foot (hW := (less hW))
    | with_reducible apply linkUp_foot (hW := (less hW))
    | with_reducible apply modPort_foot (hW := (less hW))
    | with_reducible apply Foot.ite

theorem setIn_foot {W : List Area} {r s : State} (hW : [.fab] ⊆ W) (p : Nat) (intact : Bool) (f : State → State) (h_f : ∀ s', Foot W r s' → Foot W r (f s')) (h : Foot W r s) :
    Foot W r (setIn p intact f s) := by
  unfold setIn
  repeat' first
    | with_reducible assumption
    | intro _
    | with_reducible apply modPort_foot (hW := (less hW))
    | apply h_f
    | with_reducible apply Foot.ite

theorem execTrainSet_foot {W : List Area} {s : State} (hW : [.cells, .mem, .rg, .arr, .lce, .fab, .sg, .fe, .tw, .ic, .pm, .err, .csb, .ports, .freeCtr] ⊆ W) (p : Nat) (a1 : TrainSet) (good : Nat) (intact : Bool) {t : State} (e : execTrainSet p a1 s good intact = .next t) :
    Foot W s t := by
  unfold execTrainSet at e
  refine run_foot e ?_
  intro s' h
  repeat' first
    | with_reducible assumption
    | intro _
    | with_reducible apply guarded_foot
    | with_reducible apply setIn_foot (hW := (less hW))
    | with_reducible apply modPort_foot (hW := (less hW))
    | with_reducible apply ethUp_foot (hW := (less hW))
    | with_reducible apply trainIn_foot (hW := (less hW))
    | with_reducible apply trainKept_foot (hW := (less hW))
    | with_reducible apply trainFresh_foot (hW := (less hW))
    | with_reducible apply Foot.ite
    | split

theorem execPortTrainingRetry_foot {W : List Area} {s : State} (hW : [.fab, .ic, .err, .ports] ⊆ W) (p : Nat) {t : State} (e : execPortTrainingRetry p s = .next t) :
    Foot W s t := by
  unfold execPortTrainingRetry at e
  refine run_foot e ?_
  intro s' h
  repeat' first
    | with_reducible assumption
    | intro _
    | with_reducible apply guarded_foot
    | with_reducible apply trainFresh_foot (hW := (less hW))

theorem degradeTo_foot {W : List Area} {r s : State} (hW : [.fab, .ic, .err, .ports] ⊆ W) (p : Nat) (high : Bool) (h : Foot W r s) :
    Foot W r (degradeTo p high s) := by
  unfold degradeTo
  repeat' first
    | with_reducible assumption
    | intro _
    | with_reducible apply modPort_foot (hW := (less hW))
    | with_reducible apply sendTrain_foot (hW := (less hW))
    | with_reducible apply emit_foot (hW := (less hW))

theorem laneFailed_foot {W : List Area} {r s : State} (hW : [.cells, .mem, .rg, .arr, .lce, .fab, .sg, .fe, .tw, .ic, .err, .csb, .ports, .freeCtr] ⊆ W) (p : Nat) (lane : Nat) (h : Foot W r s) :
    Foot W r (laneFailed p lane s) := by
  unfold laneFailed
  repeat' first
    | with_reducible assumption
    | intro _
    | with_reducible apply degradeTo_foot (hW := (less hW))
    | with_reducible apply enterRetraining_foot (hW := (less hW))
    | with_reducible apply fresh_foot (hW := (less hW))
    | with_reducible apply modPort_foot (hW := (less hW))
    | with_reducible apply Foot.ite
    | with_reducible refine Foot.snd (by assumption) ?_
    | split

theorem execLaneFailure_foot {W : List Area} {s : State} (hW : [.cells, .mem, .rg, .arr, .lce, .fab, .sg, .fe, .tw, .ic, .err, .csb, .ports, .freeCtr] ⊆ W) (p : Nat) (lane : Nat) {t : State} (e : execLaneFailure p lane s = .next t) :
    Foot W s t := by
  unfold execLaneFailure at e
  refine run_foot e ?_
  intro s' h
  repeat' first
    | with_reducible assumption
    | intro _
    | with_reducible apply guarded_foot
    | with_reducible apply laneFailed_foot (hW := (less hW))
    | with_reducible apply laneCe_foot (hW := (less hW))
    | with_reducible apply modPort_foot (hW := (less hW))

theorem execDegradeSet_foot {W : List Area} {s : State} (hW : [.cells, .mem, .rg, .arr, .lce, .fab, .sg, .fe, .tw, .ic, .err, .csb, .ports, .freeCtr] ⊆ W) (p : Nat) (high : Bool) (intact : Bool) {t : State} (e : execDegradeSet p high s intact = .next t) :
    Foot W s t := by
  unfold execDegradeSet at e
  refine run_foot e ?_
  intro s' h
  repeat' first
    | with_reducible assumption
    | intro _
    | with_reducible apply guarded_foot
    | with_reducible apply setIn_foot (hW := (less hW))
    | with_reducible apply modPort_foot (hW := (less hW))
    | with_reducible apply degradeTo_foot (hW := (less hW))
    | with_reducible apply enterRetraining_foot (hW := (less hW))
    | with_reducible apply Foot.ite

theorem execHoldTimeout_foot {W : List Area} {s : State} (hW : [.cells, .mem, .rg, .arr, .lce, .fab, .sg, .fe, .tw, .ic, .err, .csb, .ports, .freeCtr] ⊆ W) (p : Nat) {t : State} (e : execHoldTimeout p s = .next t) :
    Foot W s t := by
  unfold execHoldTimeout at e
  refine run_foot e ?_
  intro s' h
  repeat' first
    | with_reducible assumption
    | intro _
    | with_reducible apply guarded_foot
    | with_reducible apply loseState_foot (hW := (less hW))

theorem execAckTimeout_foot {W : List Area} {s : State} (hW : [.cells, .mem, .rg, .arr, .lce, .fab, .sg, .fe, .tw, .ic, .err, .csb, .ports, .freeCtr] ⊆ W) (p : Nat) {t : State} (e : execAckTimeout p s = .next t) :
    Foot W s t := by
  unfold execAckTimeout at e
  refine run_foot e ?_
  intro s' h
  repeat' first
    | with_reducible assumption
    | intro _
    | with_reducible apply guarded_foot
    | with_reducible apply enterRetraining_foot (hW := (less hW))

theorem execPortModeWrite_foot {W : List Area} {s : State} (hW : [.regs, .cells, .mem, .rg, .arr, .lce, .fab, .sg, .fe, .tw, .ic, .err, .csb, .ports, .freeCtr] ⊆ W) (p : Nat) (val : W32) {t : State} (e : execPortModeWrite p val s = .next t) :
    Foot W s t := by
  unfold execPortModeWrite at e
  refine run_foot e ?_
  intro s' h
  repeat' first
    | with_reducible assumption
    | intro _
    | with_reducible apply guarded_foot
    | with_reducible apply dropState_foot (hW := (less hW))
    | with_reducible apply regSet_foot (hW := (less hW))
    | with_reducible apply modPort_foot (hW := (less hW))
    | with_reducible apply trainFresh_foot (hW := (less hW))
    | with_reducible apply Foot.ite

theorem execPortRetrain_foot {W : List Area} {s : State} (hW : [.regs, .fab, .ic, .err, .ports] ⊆ W) (p : Nat) (val : W32) {t : State} (e : execPortRetrain p val s = .next t) :
    Foot W s t := by
  unfold execPortRetrain at e
  refine run_foot e ?_
  intro s' h
  repeat' first
    | with_reducible assumption
    | intro _
    | with_reducible apply guarded_foot
    | with_reducible apply regSet_foot (hW := (less hW))
    | with_reducible apply modPort_foot (hW := (less hW))
    | with_reducible apply sendTrain_foot (hW := (less hW))
    | with_reducible apply Foot.ite

theorem takeNak_foot {W : List Area} {r s : State} (hW : [.cells, .mem, .rg, .arr, .lce, .fab, .sg, .fe, .tw, .ic, .err, .csb, .ports, .freeCtr] ⊆ W) (p : Nat) (ack : Nat) (h : Foot W r s) :
    Foot W r (takeNak p ack s) := by
  unfold takeNak
  repeat' first
    | with_reducible assumption
    | intro _
    | with_reducible apply modPort_foot (hW := (less hW))
    | with_reducible apply enterRetraining_foot (hW := (less hW))
    | with_reducible apply replayAll_foot (hW := (less hW))
    | with_reducible apply Foot.ite

theorem takeHeader_foot {W : List Area} {r s : State} (hW : [.cells, .mem, .rg, .arr, .lce, .fab, .sg, .fe, .tw, .ic, .err, .csb, .ports, .freeCtr] ⊆ W) (p : Nat) (f : Flit) (h : Foot W r s) :
    Foot W r (takeHeader p f s) := by
  unfold takeHeader
  repeat' first
    | with_reducible assumption
    | intro _
    | with_reducible apply modPort_foot (hW := (less hW))
    | with_reducible apply takeNak_foot (hW := (less hW))
    | with_reducible apply Foot.ite

theorem discardFlit_foot {W : List Area} {r s : State} (hW : [.fab, .ports] ⊆ W) (p : Nat) (h : Foot W r s) :
    Foot W r (discardFlit p s) := by
  unfold discardFlit
  repeat' first
    | with_reducible assumption
    | intro _
    | with_reducible apply sendFlit_foot (hW := (less hW))
    | with_reducible apply modPort_foot (hW := (less hW))
    | with_reducible apply Foot.ite

theorem acceptFlit_foot {W : List Area} {r s : State} (hW : [.cells, .mem, .rg, .arr, .lce, .fab, .sg, .fe, .tw, .ic, .err, .csb, .ports, .freeCtr] ⊆ W) (p : Nat) (f : Flit) (h : Foot W r s) :
    Foot W r (acceptFlit p f s) := by
  unfold acceptFlit
  repeat' first
    | with_reducible assumption
    | intro _
    | with_reducible apply modPort_foot (hW := (less hW))
    | with_reducible apply takeHeader_foot (hW := (less hW))
    | with_reducible apply sendFlit_foot (hW := (less hW))
    | with_reducible apply Foot.ite

theorem countRx_foot {W : List Area} {r s : State} (hW : [.fab] ⊆ W) (p : Nat) (cor : Nat) (unc : Nat) (h : Foot W r s) :
    Foot W r (countRx p cor unc s) := by
  unfold countRx
  repeat' first
    | with_reducible assumption
    | intro _
    | with_reducible apply modPort_foot (hW := (less hW))

theorem execFlitReceive_foot {W : List Area} {s : State} (hW : [.cells, .mem, .rg, .arr, .lce, .fab, .sg, .fe, .tw, .ic, .err, .csb, .ports, .freeCtr] ⊆ W) (p : Nat) (f : Flit) (cor : Nat) (unc : Nat) {t : State} (e : execFlitReceive p f s cor unc = .next t) :
    Foot W s t := by
  unfold execFlitReceive at e
  refine run_foot e ?_
  intro s' h
  repeat' first
    | with_reducible assumption
    | intro _
    | with_reducible apply guarded_foot
    | with_reducible apply countRx_foot (hW := (less hW))
    | with_reducible apply modPort_foot (hW := (less hW))
    | with_reducible apply discardFlit_foot (hW := (less hW))
    | with_reducible apply pump_foot (hW := (less hW))
    | with_reducible apply takeHeader_foot (hW := (less hW))
    | with_reducible apply acceptFlit_foot (hW := (less hW))
    | with_reducible apply Foot.ite

theorem execDelayReqSend_foot {W : List Area} {s : State} (hW : [.fab, .ports] ⊆ W) (p : Nat) (t1 : Nat) {t : State} (e : execDelayReqSend p t1 s = .next t) :
    Foot W s t := by
  unfold execDelayReqSend at e
  refine run_foot e ?_
  intro s' h
  repeat' first
    | with_reducible assumption
    | intro _
    | with_reducible apply guarded_foot
    | with_reducible apply emit_foot (hW := (less hW))
    | with_reducible apply modPort_foot (hW := (less hW))

theorem execDelayReq_foot {W : List Area} {s : State} (hW : [.fab, .ports] ⊆ W) (p : Nat) (t1 : Nat) (t2 : Nat) (t3 : Nat) (intact : Bool) {t : State} (e : execDelayReq p t1 t2 t3 s intact = .next t) :
    Foot W s t := by
  unfold execDelayReq at e
  refine run_foot e ?_
  intro s' h
  repeat' first
    | with_reducible assumption
    | intro _
    | with_reducible apply guarded_foot
    | with_reducible apply setIn_foot (hW := (less hW))
    | with_reducible apply emit_foot (hW := (less hW))

theorem execDelayRsp_foot {W : List Area} {s : State} (hW : [.fab] ⊆ W) (p : Nat) (t1 : Nat) (t2 : Nat) (t3 : Nat) (t4 : Nat) (intact : Bool) {t : State} (e : execDelayRsp p t1 t2 t3 t4 s intact = .next t) :
    Foot W s t := by
  unfold execDelayRsp at e
  refine run_foot e ?_
  intro s' h
  repeat' first
    | with_reducible assumption
    | intro _
    | with_reducible apply guarded_foot
    | with_reducible apply setIn_foot (hW := (less hW))
    | with_reducible apply modPort_foot (hW := (less hW))

theorem execFlowPortChange_foot {W : List Area} {s : State} (hW : [.fab, .ports] ⊆ W) (dst : Nat) (ch : Nat) {t : State} (e : execFlowPortChange dst ch s = .next t) :
    Foot W s t := by
  unfold execFlowPortChange at e
  refine run_foot e ?_
  intro s' h
  repeat' first
    | with_reducible assumption
    | intro _
    | with_reducible apply releaseFlow_foot (hW := (less hW))

theorem execFabricTableError_foot {W : List Area} {s : State} (hW : [.blk, .fab, .ic, .err] ⊆ W) (p : Nat) (data : Option (Nat × Nat)) {t : State} (e : execFabricTableError p s data = .next t) :
    Foot W s t := by
  unfold execFabricTableError at e
  refine run_foot e ?_
  intro s' h
  repeat' first
    | with_reducible assumption
    | intro _
    | with_reducible apply bEvent_foot (hW := (less hW))
    | with_reducible apply modPort_foot (hW := (less hW))
    | with_reducible apply Foot.ite
    | split

end Sys2Proof.Laws
end

