-- ==== Sys2Proof/Laws/FootBoundary.lean ====
section
/-!
SUPPORT. Footprints of the operations of Machine/Boundary.lean.
-/
namespace Sys2Proof.Laws
open Sys2Proof Sys2Proof.Machine
set_option Elab.async false

theorem wakeBlock_foot {W : List Area} {r s : State} (hW : [.pm] ⊆ W) (h : Foot W r s) :
    Foot W r (wakeBlock s) := by
  unfold wakeBlock
  repeat' first
    | with_reducible assumption
    | intro _
    | with_reducible apply Foot.ite
    | exact Or.inl (hW (by decide))
    | with_reducible exact Or.inr rfl
    | with_reducible exact id
    | with_reducible exact Nat.le_refl _
    | (simp only [Foot.lit_eq]; with_reducible apply Foot.litL rfl)

theorem hostReadFar_foot {W : List Area} {r s : State} (hW : [.mem, .rg, .ic, .pm, .err] ⊆ W) (a : Nat) (n : Nat) (h : Foot W r s) :
    Foot W r (hostReadFar a n s).2.2 := by
  unfold hostReadFar
  repeat' first
    | with_reducible assumption
    | intro _
    | with_reducible apply hostCe_foot (hW := (less hW))
    | with_reducible apply access_foot (hW := (less hW))
    | with_reducible apply wakeBlock_foot (hW := (less hW))
    | with_reducible apply Foot.ite
    | split

theorem hostWriteFar_foot {W : List Area} {r s : State} (hW : [.cells, .mem, .rg, .fe, .ic, .pm, .err] ⊆ W) (a : Nat) (data : List Byte) (bad : Bool) (h : Foot W r s) :
    Foot W r (hostWriteFar a data bad s) := by
  unfold hostWriteFar
  repeat' first
    | with_reducible assumption
    | intro _
    | with_reducible apply hostCe_foot (hW := (less hW))
    | with_reducible apply writeMem_foot (hW := (less hW))
    | with_reducible apply access_foot (hW := (less hW))
    | with_reducible apply wakeBlock_foot (hW := (less hW))
    | with_reducible apply Foot.ite

theorem execBar4Read_foot {W : List Area} {s : State} (hW : [.cells, .mem, .rg, .arr, .fab, .sg, .fe, .tw, .ic, .pm, .err, .csb, .ports, .freeCtr] ⊆ W) (off : Nat) (len : Nat) (tag : Nat) (ecc : List MemError) {t : State} (e : execBar4Read off len tag ecc s = .next t) :
    Foot W s t := by
  unfold execBar4Read at e
  refine run_foot e ?_
  intro s' h
  repeat' first
    | with_reducible assumption
    | intro _
    | with_reducible apply guarded_foot
    | with_reducible apply memErrors_foot (hW := (less hW))
    | with_reducible apply hostReadFar_foot (hW := (less hW))
    | with_reducible apply answerWhen_foot (hW := (less hW))
    | with_reducible apply Foot.ite

theorem execBar4Write_foot {W : List Area} {s : State} (hW : [.cells, .mem, .rg, .fe, .ic, .pm, .err] ⊆ W) (off : Nat) (data : List Byte) (ep : Bool) {t : State} (e : execBar4Write off data ep s = .next t) :
    Foot W s t := by
  unfold execBar4Write at e
  refine run_foot e ?_
  intro s' h
  repeat' first
    | with_reducible assumption
    | intro _
    | with_reducible apply guarded_foot
    | with_reducible apply hostWriteFar_foot (hW := (less hW))

theorem execCmemRequest_foot {W : List Area} {s : State} (hW : [.cells, .mem, .rg, .arr, .fab, .sg, .fe, .tw, .ic, .pm, .err, .csb, .ports, .freeCtr] ⊆ W) (write : Bool) (addr : Nat) (tag : Nat) (data : List Byte) (poison : Bool) (ecc : List MemError) {t : State} (e : execCmemRequest write addr tag data poison s ecc = .next t) :
    Foot W s t := by
  unfold execCmemRequest at e
  refine run_foot e ?_
  intro s' h
  repeat' first
    | with_reducible assumption
    | intro _
    | with_reducible apply guarded_foot
    | with_reducible apply answerWhen_foot (hW := (less hW))
    | with_reducible apply hostWriteFar_foot (hW := (less hW))
    | with_reducible apply memErrors_foot (hW := (less hW))
    | with_reducible apply hostReadFar_foot (hW := (less hW))
    | with_reducible apply Foot.ite

theorem execBarAccessMalformed_foot {W : List Area} {s : State} (hW : [.ic, .err, .ports] ⊆ W) (bar : Sys2Proof.Bar) (write : Bool) (off : Nat) (size : Nat) (tag : Nat) (ep : Bool) {t : State} (e : execBarAccessMalformed bar write off size tag ep s = .next t) :
    Foot W s t := by
  unfold execBarAccessMalformed at e
  refine run_foot e ?_
  intro s' h
  repeat' first
    | with_reducible assumption
    | intro _
    | with_reducible apply guarded_foot
    | with_reducible apply reportCe_foot (hW := (less hW))
    | with_reducible apply emit_foot (hW := (less hW))
    | with_reducible apply Foot.ite

theorem setHapPins_foot {W : List Area} {r s : State} (hW : [.blk] ⊆ W) (pins : HapPins) (h : Foot W r s) :
    Foot W r (setHapPins pins s) := by
  unfold setHapPins
  repeat' first
    | with_reducible assumption
    | intro _
    | with_reducible apply Foot.ite
    | exact Or.inl (hW (by decide))
    | with_reducible exact Or.inr rfl
    | with_reducible exact id
    | with_reducible exact Nat.le_refl _
    | (simp only [Foot.lit_eq]; with_reducible apply Foot.litL rfl)

theorem execHapLinkDown_foot {W : List Area} {s : State} (hW : [.blk, .ic, .err] ⊆ W) (pins : HapPins) {t : State} (e : execHapLinkDown s pins = .next t) :
    Foot W s t := by
  unfold execHapLinkDown at e
  refine run_foot e ?_
  intro s' h
  repeat' first
    | with_reducible assumption
    | intro _
    | with_reducible apply setHapPins_foot (hW := (less hW))
    | with_reducible apply bEvent_foot (hW := (less hW))
    | with_reducible apply Foot.ite

theorem execHapFlr_foot {W : List Area} {s : State} (hW : [.blk, .ic, .err] ⊆ W) {t : State} (e : execHapFlr s = .next t) :
    Foot W s t := by
  unfold execHapFlr at e
  refine run_foot e ?_
  intro s' h
  repeat' first
    | with_reducible assumption
    | intro _
    | with_reducible apply bEvent_foot (hW := (less hW))
    | with_reducible apply Foot.ite

theorem portClockLost_foot {W : List Area} {r s : State} (hW : [.cells, .mem, .rg, .arr, .lce, .fab, .sg, .fe, .tw, .ic, .err, .csb, .ports, .freeCtr] ⊆ W) (h : Foot W r s) :
    Foot W r (portClockLost s) := by
  unfold portClockLost
  repeat' first
    | with_reducible assumption
    | intro _
    | with_reducible apply each_foot
    | with_reducible apply enterRetraining_foot (hW := (less hW))
    | with_reducible apply Foot.ite

theorem execClockLoss_foot {W : List Area} {s : State} (hW : [.blk, .cells, .mem, .rg, .arr, .lce, .fab, .sg, .fe, .tw, .ic, .err, .csb, .ports, .freeCtr] ⊆ W) (clk : Clock) {t : State} (e : execClockLoss clk s = .next t) :
    Foot W s t := by
  unfold execClockLoss at e
  refine run_foot e ?_
  intro s' h
  repeat' first
    | with_reducible assumption
    | intro _
    | with_reducible apply bEvent_foot (hW := (less hW))
    | with_reducible apply portClockLost_foot (hW := (less hW))
    | with_reducible apply Foot.ite
    | exact Or.inl (hW (by decide))
    | with_reducible exact Or.inr rfl
    | with_reducible exact id
    | with_reducible exact Nat.le_refl _
    | (simp only [Foot.lit_eq]; with_reducible apply Foot.litL rfl)
    | split

theorem stackOut_foot {W : List Area} {r s : State} (hW : [.mem] ⊆ W) (n : Nat) (state : Nat) (h : Foot W r s) :
    Foot W r (stackOut n state s) := by
  unfold stackOut
  repeat' first
    | with_reducible assumption
    | intro _
    | with_reducible apply each_foot
    | with_reducible apply modChan_foot (hW := (less hW))
    | with_reducible apply modStack_foot (hW := (less hW))

theorem execMcClockWaitExpiry_foot {W : List Area} {s : State} (hW : [.mem] ⊆ W) {t : State} (e : execMcClockWaitExpiry s = .next t) :
    Foot W s t := by
  unfold execMcClockWaitExpiry at e
  refine run_foot e ?_
  intro s' h
  repeat' first
    | with_reducible assumption
    | intro _
    | with_reducible apply guarded_foot
    | with_reducible apply each_foot
    | with_reducible apply stackOut_foot (hW := (less hW))

theorem execPhyUpdateRequest_foot {W : List Area} {s : State} (hW : [.blk, .ports] ⊆ W) (n : Nat) (_master : Bool) {t : State} (e : execPhyUpdateRequest n _master s = .next t) :
    Foot W s t := by
  unfold execPhyUpdateRequest at e
  refine run_foot e ?_
  intro s' h
  repeat' first
    | with_reducible assumption
    | intro _
    | with_reducible apply guarded_foot
    | with_reducible apply emit_foot (hW := (less hW))
    | with_reducible apply Foot.ite
    | exact Or.inl (hW (by decide))
    | with_reducible exact Or.inr rfl
    | with_reducible exact id
    | with_reducible exact Nat.le_refl _
    | (simp only [Foot.lit_eq]; with_reducible apply Foot.litL rfl)

theorem freeEapTag_foot {W : List Area} {r s : State} (hW : [.blk, .fe, .ports] ⊆ W) (a0 : EapTag) (h : Foot W r s) :
    Foot W r (freeEapTag a0 s) := by
  unfold freeEapTag
  repeat' first
    | with_reducible assumption
    | intro _
    | with_reducible apply issueWaiting_foot (hW := (less hW))
    | with_reducible apply Foot.ite
    | exact Or.inl (hW (by decide))
    | with_reducible exact Or.inr rfl
    | with_reducible exact id
    | with_reducible exact Nat.le_refl _
    | (simp only [Foot.lit_eq]; with_reducible apply Foot.litL rfl)

theorem outliveEap_foot {W : List Area} {r s : State} (hW : [.rg, .fab] ⊆ W) (a0 : Nat) (tag : Nat) (a2 : Task) (h : Foot W r s) :
    Foot W r (outliveEap a0 tag a2 s) := by
  unfold outliveEap
  repeat' first
    | with_reducible assumption
    | intro _
    | with_reducible apply Foot.ite
    | exact Or.inl (hW (by decide))
    | with_reducible exact Or.inr rfl
    | with_reducible exact id
    | with_reducible exact Nat.le_refl _
    | (simp only [Foot.lit_eq]; with_reducible apply Foot.litL rfl)

theorem endEngine_foot {W : List Area} {r s : State} (hW : [.rg, .fab, .fe, .ic, .err] ⊆ W) (a0 : Nat) (tag : Nat) (a2 : Task) (code : Nat) (cycles : Nat) (h : Foot W r s) :
    Foot W r (endEngine a0 tag a2 code cycles s) := by
  unfold endEngine
  repeat' first
    | with_reducible assumption
    | intro _
    | with_reducible apply outliveEap_foot (hW := (less hW))
    | with_reducible apply taskEnd_foot (hW := (less hW))
    | with_reducible apply Foot.ite
    | split

theorem execEapDone_foot {W : List Area} {s : State} (hW : [.blk, .rg, .fab, .fe, .ic, .err, .ports] ⊆ W) (a0 : Nat) (tag : W64) (status : Byte) (cycles : W32) {t : State} (e : execEapDone a0 tag status cycles s = .next t) :
    Foot W s t := by
  unfold execEapDone at e
  refine run_foot e ?_
  intro s' h
  repeat' first
    | with_reducible assumption
    | intro _
    | with_reducible apply reportCe_foot (hW := (less hW))
    | with_reducible apply freeEapTag_foot (hW := (less hW))
    | with_reducible apply endEngine_foot (hW := (less hW))
    | with_reducible apply Foot.ite
    | split

theorem mreqFail_foot {W : List Area} {r s : State} (hW : [.fe, .ports] ⊆ W) (a0 : Nat) (tag : W64) (seq : Nat) (st : Status) (type : Nat) (h : Foot W r s) :
    Foot W r (mreqFail a0 tag seq st type s) := by
  unfold mreqFail
  repeat' first
    | with_reducible assumption
    | intro _
    | with_reducible apply emit_foot (hW := (less hW))
    | with_reducible apply endEarly_foot (hW := (less hW))

theorem mreqRead_foot {W : List Area} {r s : State} (hW : [.cells, .mem, .rg, .arr, .fab, .sg, .fe, .tw, .ic, .err, .csb, .ports, .freeCtr] ⊆ W) (a0 : Nat) (tag : W64) (a2 : Task) (va : Nat) (len : Nat) (host : HostData) (mem : List MemError) (h : Foot W r s) :
    Foot W r (mreqRead a0 tag a2 va len host mem s) := by
  unfold mreqRead
  repeat' first
    | with_reducible assumption
    | intro _
    | with_reducible apply each_foot
    | with_reducible apply accessC_foot (hW := (less hW))
    | with_reducible apply xlFill_foot (hW := (less hW))
    | with_reducible apply memErrors_foot (hW := (less hW))
    | with_reducible apply answerWhen_foot (hW := (less hW))
    | with_reducible apply hostPoisonCe_foot (hW := (less hW))
    | with_reducible apply emit_foot (hW := (less hW))
    | with_reducible apply sendReq_foot (hW := (less hW))
    | with_reducible apply Foot.ite
    | split

theorem mreqWrite_foot {W : List Area} {r s : State} (hW : [.cells, .mem, .rg, .arr, .fab, .sg, .fe, .tw, .ic, .err, .csb, .ports, .freeCtr] ⊆ W) (a0 : Nat) (tag : W64) (a2 : Task) (va : Nat) (data : List Byte) (h : Foot W r s) :
    Foot W r (mreqWrite a0 tag a2 va data s) := by
  unfold mreqWrite
  repeat' first
    | with_reducible assumption
    | intro _
    | with_reducible apply each_foot
    | with_reducible apply accessC_foot (hW := (less hW))
    | with_reducible apply xlFill_foot (hW := (less hW))
    | with_reducible apply answerWhen_foot (hW := (less hW))
    | with_reducible apply writeMem_foot (hW := (less hW))
    | with_reducible apply emit_foot (hW := (less hW))
    | with_reducible apply hostWriteC_foot (hW := (less hW))
    | with_reducible apply sendReq_foot (hW := (less hW))
    | with_reducible apply taskPoisons_foot (hW := (less hW))
    | with_reducible apply Foot.ite
    | split

theorem mreqAtomic_foot {W : List Area} {r s : State} (hW : [.cells, .mem, .rg, .arr, .fab, .sg, .fe, .tw, .ic, .err, .csb, .ports, .freeCtr] ⊆ W) (a0 : Nat) (tag : W64) (a2 : Task) (kind : Nat) (va : Nat) (data : List Byte) (mem : List MemError) (h : Foot W r s) :
    Foot W r (mreqAtomic a0 tag a2 kind va data mem s) := by
  unfold mreqAtomic
  repeat' first
    | with_reducible assumption
    | intro _
    | with_reducible apply mreqFail_foot (hW := (less hW))
    | with_reducible apply recordFault_foot (hW := (less hW))
    | with_reducible apply sendReq_foot (hW := (less hW))
    | with_reducible apply xlFill_foot (hW := (less hW))
    | with_reducible apply accessC_foot (hW := (less hW))
    | with_reducible apply memErrors_foot (hW := (less hW))
    | with_reducible apply atomicAt_foot (hW := (less hW))
    | with_reducible apply taskPoisons_foot (hW := (less hW))
    | with_reducible apply answerWhen_foot (hW := (less hW))
    | with_reducible apply Foot.ite
    | with_reducible refine Foot.snd (by assumption) ?_
    | split
    | dsimp only

theorem mreqTally_foot {W : List Area} {r s : State} (hW : [.cells, .mem, .rg, .arr, .fab, .sg, .fe, .tw, .ic, .err, .csb, .ports, .freeCtr] ⊆ W) (a0 : Nat) (tag : W64) (a2 : Task) (i : Nat) (data : List Byte) (h : Foot W r s) :
    Foot W r (mreqTally a0 tag a2 i data s) := by
  unfold mreqTally
  repeat' first
    | with_reducible assumption
    | intro _
    | with_reducible apply emit_foot (hW := (less hW))
    | with_reducible apply tallyAdd_foot (hW := (less hW))
    | with_reducible apply Foot.ite

theorem mreqDo_foot {W : List Area} {r s : State} (hW : [.cells, .mem, .rg, .arr, .fab, .sg, .fe, .tw, .ic, .err, .csb, .ports, .freeCtr] ⊆ W) (a0 : Nat) (tag : W64) (a2 : Task) (op : MreqOp) (va : Nat) (len : Nat) (data : List Byte) (host : HostData) (mem : List MemError) (h : Foot W r s) :
    Foot W r (mreqDo a0 tag a2 op va len data host mem s) := by
  unfold mreqDo
  repeat' first
    | with_reducible assumption
    | intro _
    | with_reducible apply mreqFail_foot (hW := (less hW))
    | with_reducible apply recordFault_foot (hW := (less hW))
    | with_reducible apply mreqRead_foot (hW := (less hW))
    | with_reducible apply mreqWrite_foot (hW := (less hW))
    | with_reducible apply mreqAtomic_foot (hW := (less hW))
    | with_reducible apply mreqTally_foot (hW := (less hW))
    | with_reducible apply Foot.ite
    | split
    | dsimp only

theorem execEapMreq_foot {W : List Area} {s : State} (hW : [.cells, .mem, .rg, .arr, .fab, .sg, .fe, .tw, .ic, .err, .csb, .ports, .freeCtr] ⊆ W) (a0 : Nat) (tag : W64) (op : MreqOp) (va : W64) (len : Nat) (data : List Byte) (host : HostData) (mem : List MemError) {t : State} (e : execEapMreq a0 tag op va len data host s mem = .next t) :
    Foot W s t := by
  unfold execEapMreq at e
  refine run_foot e ?_
  intro s' h
  repeat' first
    | with_reducible assumption
    | intro _
    | with_reducible apply guarded_foot
    | with_reducible apply emit_foot (hW := (less hW))
    | with_reducible apply mreqFail_foot (hW := (less hW))
    | with_reducible apply mreqDo_foot (hW := (less hW))
    | with_reducible apply Foot.ite
    | split

theorem execCancelAck_foot {W : List Area} {s : State} (hW : [.blk, .fe, .ports] ⊆ W) (a0 : Nat) (tag : W64) {t : State} (e : execCancelAck a0 tag s = .next t) :
    Foot W s t := by
  unfold execCancelAck at e
  refine run_foot e ?_
  intro s' h
  repeat' first
    | with_reducible assumption
    | intro _
    | with_reducible apply issueWaiting_foot (hW := (less hW))
    | with_reducible apply Foot.ite
    | exact Or.inl (hW (by decide))
    | with_reducible exact Or.inr rfl
    | with_reducible exact id
    | with_reducible exact Nat.le_refl _
    | (simp only [Foot.lit_eq]; with_reducible apply Foot.litL rfl)
    | split

theorem execCancelTimeout_foot {W : List Area} {s : State} (hW : [.blk, .ic, .err] ⊆ W) (a0 : Nat) (tag : W64) {t : State} (e : execCancelTimeout a0 tag s = .next t) :
    Foot W s t := by
  unfold execCancelTimeout at e
  refine run_foot e ?_
  intro s' h
  repeat' first
    | with_reducible assumption
    | intro _
    | with_reducible apply bEvent_foot (hW := (less hW))
    | with_reducible apply Foot.ite
    | split

theorem execEapFatal_foot {W : List Area} {s : State} (hW : [.blk, .ic, .err] ⊆ W) (a0 : Nat) {t : State} (e : execEapFatal a0 s = .next t) :
    Foot W s t := by
  unfold execEapFatal at e
  refine run_foot e ?_
  intro s' h
  repeat' first
    | with_reducible assumption
    | intro _
    | with_reducible apply bEvent_foot (hW := (less hW))

theorem execBlkLock_foot {W : List Area} {s : State} (hW : [.regs] ⊆ W) (val : W32) {t : State} (e : execBlkLock val s = .next t) :
    Foot W s t := by
  unfold execBlkLock at e
  refine run_foot e ?_
  intro s' h
  repeat' first
    | with_reducible assumption
    | intro _
    | with_reducible apply guarded_foot
    | with_reducible apply regSet_foot (hW := (less hW))
    | with_reducible apply Foot.ite

theorem execFabLock_foot {W : List Area} {s : State} (hW : [.regs] ⊆ W) (val : W32) {t : State} (e : execFabLock val s = .next t) :
    Foot W s t := by
  unfold execFabLock at e
  refine run_foot e ?_
  intro s' h
  repeat' first
    | with_reducible assumption
    | intro _
    | with_reducible apply guarded_foot
    | with_reducible apply regSet_foot (hW := (less hW))
    | with_reducible apply Foot.ite

theorem remodel_foot {W : List Area} {r s : State} (hW : [.blk, .freeCtr] ⊆ W) (h : Foot W r s) :
    Foot W r (remodel s) := by
  unfold remodel
  repeat' first
    | with_reducible assumption
    | intro _
    | with_reducible apply each_foot
    | with_reducible apply fresh_foot (hW := (less hW))
    | with_reducible apply Foot.ite
    | exact Or.inl (hW (by decide))
    | with_reducible exact Or.inr rfl
    | with_reducible exact id
    | with_reducible exact Nat.le_refl _
    | (simp only [Foot.lit_eq]; with_reducible apply Foot.litL rfl)

theorem setPower_foot {W : List Area} {r s : State} (hW : [.blk, .pm, .freeCtr] ⊆ W) (h : Foot W r s) :
    Foot W r (setPower s) := by
  unfold setPower
  repeat' first
    | with_reducible assumption
    | intro _
    | with_reducible apply remodel_foot (hW := (less hW))
    | with_reducible apply Foot.ite
    | exact Or.inl (hW (by decide))
    | with_reducible exact Or.inr rfl
    | with_reducible exact id
    | with_reducible exact Nat.le_refl _
    | (simp only [Foot.lit_eq]; with_reducible apply Foot.litL rfl)

theorem execTelemetryFrame_foot {W : List Area} {s : State} (hW : [.blk, .ic, .pm, .err, .freeCtr] ⊆ W) (n : Nat) (frame : W32) {t : State} (e : execTelemetryFrame n frame s = .next t) :
    Foot W s t := by
  unfold execTelemetryFrame at e
  refine run_foot e ?_
  intro s' h
  repeat' first
    | with_reducible assumption
    | intro _
    | with_reducible apply guarded_foot
    | with_reducible apply reportCe_foot (hW := (less hW))
    | with_reducible apply setPower_foot (hW := (less hW))
    | with_reducible apply Foot.ite
    | exact Or.inl (hW (by decide))
    | with_reducible exact Or.inr rfl
    | with_reducible exact id
    | with_reducible exact Nat.le_refl _
    | (simp only [Foot.lit_eq]; with_reducible apply Foot.litL rfl)

theorem execTelemetryChannelLost_foot {W : List Area} {s : State} (hW : [.blk, .ic, .pm, .err, .freeCtr] ⊆ W) (n : Nat) {t : State} (e : execTelemetryChannelLost n s = .next t) :
    Foot W s t := by
  unfold execTelemetryChannelLost at e
  refine run_foot e ?_
  intro s' h
  repeat' first
    | with_reducible assumption
    | intro _
    | with_reducible apply guarded_foot
    | with_reducible apply reportCe_foot (hW := (less hW))
    | with_reducible apply setPower_foot (hW := (less hW))
    | with_reducible apply Foot.ite
    | exact Or.inl (hW (by decide))
    | with_reducible exact Or.inr rfl
    | with_reducible exact id
    | with_reducible exact Nat.le_refl _
    | (simp only [Foot.lit_eq]; with_reducible apply Foot.litL rfl)

end Sys2Proof.Laws
end

