-- ==== Sys2Proof/Laws/FootLce.lean ====
section
/-!
SUPPORT. Footprints of the operations of Machine/Lce.lean.
-/
namespace Sys2Proof.Laws
open Sys2Proof Sys2Proof.Machine
set_option Elab.async false

theorem dropSubIn_foot {W : List Area} {r s : State} (hW : [.lce] ⊆ W) (i : SubIn) (h : Foot W r s) :
    Foot W r (dropSubIn i s) := by
  unfold dropSubIn
  repeat' first
    | with_reducible assumption
    | intro _
    | with_reducible apply Foot.ite
    | exact Or.inl (hW (by decide))
    | with_reducible exact Or.inr rfl
    | with_reducible exact id
    | with_reducible exact Nat.le_refl _
    | (simp only [Foot.lit_eq]; with_reducible apply Foot.litL rfl)

theorem giveSub_foot {W : List Area} {r s : State} (hW : [.lce, .fab, .ic, .err, .ports] ⊆ W) (i : SubIn) (h : Foot W r s) :
    Foot W r (giveSub i s) := by
  unfold giveSub
  repeat' first
    | with_reducible assumption
    | intro _
    | with_reducible apply refuseSub_foot (hW := (less hW))
    | with_reducible apply dropSubIn_foot (hW := (less hW))
    | with_reducible apply modLce_foot (hW := (less hW))
    | with_reducible apply Foot.ite
    | split
    | dsimp only

theorem giveWaiting_foot {W : List Area} {r s : State} (hW : [.lce, .fab, .ic, .err, .ports] ⊆ W) (k : Option SubIn) (h : Foot W r s) :
    Foot W r (giveWaiting k s) := by
  unfold giveWaiting
  repeat' first
    | with_reducible assumption
    | intro _
    | with_reducible apply giveSub_foot (hW := (less hW))
    | with_reducible apply Foot.ite
    | split

theorem popJob_foot {W : List Area} {r s : State} (hW : [.lce, .fab, .ic, .err, .ports] ⊆ W) (n : Nat) (h : Foot W r s) :
    Foot W r (popJob n s) := by
  unfold popJob
  repeat' first
    | with_reducible assumption
    | intro _
    | with_reducible apply modLce_foot (hW := (less hW))
    | with_reducible apply giveWaiting_foot (hW := (less hW))

theorem lceRefuse_foot {W : List Area} {r s : State} (hW : [.fe, .ic, .err] ⊆ W) (seq : Nat) (c : Nat) (w : Why) (h : Foot W r s) :
    Foot W r (lceRefuse seq c w s) := by
  unfold lceRefuse
  repeat' first
    | with_reducible assumption
    | intro _
    | with_reducible apply xlatFault_foot (hW := (less hW))
    | with_reducible apply taskEnd_foot (hW := (less hW))
    | with_reducible apply Foot.ite
    | split

theorem cacheTabs_foot {W : List Area} {r s : State} (hW : [.mem, .rg, .lce, .fe] ⊆ W) (n : Nat) (d : Nat) (l : List LkEntry) (h : Foot W r s) :
    Foot W r (cacheTabs n d l s) := by
  unfold cacheTabs
  repeat' first
    | with_reducible assumption
    | intro _
    | with_reducible apply each_foot
    | with_reducible apply cacheTab_foot (hW := (less hW))

theorem withDesc_foot {W : List Area} {r s : State} (hW : [.mem, .rg, .fab, .fe, .ic, .err, .ports] ⊆ W) (n : Nat) (a1 : Task) (size : Nat) (host : HostData) (f : List Byte → HostData → State → State) (h_f : ∀ y0 y1 s', Foot W r s' → Foot W r (f y0 y1 s')) (h : Foot W r s) :
    Foot W r (withDesc n a1 size host f s) := by
  unfold withDesc
  repeat' first
    | with_reducible assumption
    | intro _
    | with_reducible apply reading_foot (hW := (less hW))
    | with_reducible apply xlatFault_foot (hW := (less hW))
    | with_reducible apply touchCtl_foot (hW := (less hW))
    | with_reducible apply taskFault_foot (hW := (less hW))
    | apply h_f
    | with_reducible apply Foot.ite
    | split

theorem startLookup_foot {W : List Area} {r s : State} (hW : [.cells, .mem, .rg, .arr, .lce, .fab, .fe, .ic, .err, .csb, .ports, .freeCtr] ⊆ W) (n : Nat) (a1 : Task) (host : HostData) (h : Foot W r s) :
    Foot W r (startLookup n a1 host s) := by
  unfold startLookup
  repeat' first
    | with_reducible assumption
    | intro _
    | with_reducible apply withDesc_foot (hW := (less hW))
    | with_reducible apply taskFault_foot (hW := (less hW))
    | with_reducible apply reading_foot (hW := (less hW))
    | with_reducible apply xlatFault_foot (hW := (less hW))
    | with_reducible apply touchCtl_foot (hW := (less hW))
    | with_reducible apply lceRefuse_foot (hW := (less hW))
    | with_reducible apply beginBatch_foot (hW := (less hW))
    | with_reducible apply cacheTabs_foot (hW := (less hW))
    | with_reducible apply Foot.ite
    | split
    | dsimp only

theorem startSub_foot {W : List Area} {r s : State} (hW : [.cells, .mem, .rg, .arr, .lce, .fab, .fe, .ic, .err, .csb, .ports, .freeCtr] ⊆ W) (n : Nat) (i : SubIn) (h : Foot W r s) :
    Foot W r (startSub n i s) := by
  unfold startSub
  repeat' first
    | with_reducible assumption
    | intro _
    | with_reducible apply refuseSub_foot (hW := (less hW))
    | with_reducible apply beginBatch_foot (hW := (less hW))
    | with_reducible apply cacheTabs_foot (hW := (less hW))
    | with_reducible apply Foot.ite
    | exact Or.inl (hW (by decide))
    | with_reducible exact Or.inr rfl
    | with_reducible exact id
    | with_reducible exact Nat.le_refl _
    | (simp only [Foot.lit_eq]; with_reducible apply Foot.litL rfl)
    | split
    | dsimp only

theorem startJob_foot {W : List Area} {r s : State} (hW : [.cells, .mem, .rg, .arr, .lce, .fab, .fe, .ic, .err, .csb, .ports, .freeCtr] ⊆ W) (n : Nat) (host : HostData) (h : Foot W r s) :
    Foot W r (startJob n host s) := by
  unfold startJob
  repeat' first
    | with_reducible assumption
    | intro _
    | with_reducible apply startLookup_foot (hW := (less hW))
    | with_reducible apply modTask_foot (hW := (less hW))
    | with_reducible apply popJob_foot (hW := (less hW))
    | with_reducible apply startSub_foot (hW := (less hW))
    | with_reducible apply giveWaiting_foot (hW := (less hW))
    | with_reducible apply Foot.ite
    | split

theorem startSubs_foot {W : List Area} {r s : State} (hW : [.cells, .mem, .rg, .arr, .lce, .fab, .fe, .ic, .err, .csb, .ports, .freeCtr] ⊆ W) (h : Foot W r s) :
    Foot W r (startSubs s) := by
  unfold startSubs
  repeat' first
    | with_reducible assumption
    | intro _
    | with_reducible apply each_foot
    | with_reducible apply startJob_foot (hW := (less hW))
    | with_reducible apply Foot.ite
    | split

theorem execLookup_foot {W : List Area} {s : State} (hW : [.cells, .mem, .rg, .arr, .lce, .fab, .fe, .ic, .err, .csb, .ports, .freeCtr] ⊆ W) (n : Nat) (host : HostData) {t : State} (e : execLookup n host s = .next t) :
    Foot W s t := by
  unfold execLookup at e
  refine run_foot e ?_
  intro s' h
  repeat' first
    | with_reducible assumption
    | intro _
    | with_reducible apply guarded_foot
    | with_reducible apply startJob_foot (hW := (less hW))

theorem execRunFetchData_foot {W : List Area} {s : State} (hW : [.cells, .mem, .rg, .arr, .lce, .fab, .fe, .ic, .err, .csb, .ports, .freeCtr] ⊆ W) (n : Nat) (key : Nat) (ecc : List MemError) {t : State} (e : execRunFetchData n key ecc s = .next t) :
    Foot W s t := by
  unfold execRunFetchData at e
  refine run_foot e ?_
  intro s' h
  repeat' first
    | with_reducible assumption
    | intro _
    | with_reducible apply guarded_foot
    | with_reducible apply memErrors_foot (hW := (less hW))
    | with_reducible apply poolReady_foot (hW := (less hW))
    | with_reducible apply advance_foot (hW := (less hW))
    | with_reducible apply keepBatch_foot (hW := (less hW))
    | with_reducible apply Foot.ite
    | with_reducible refine Foot.snd (by assumption) ?_
    | split

theorem addPart_foot {W : List Area} {r s : State} (hW : [.lce] ⊆ W) (k : Packet) (h : Foot W r s) :
    Foot W r (addPart k s) := by
  unfold addPart
  repeat' first
    | with_reducible assumption
    | intro _
    | with_reducible apply Foot.ite
    | exact Or.inl (hW (by decide))
    | with_reducible exact Or.inr rfl
    | with_reducible exact id
    | with_reducible exact Nat.le_refl _
    | (simp only [Foot.lit_eq]; with_reducible apply Foot.litL rfl)

theorem execLkpPart_foot {W : List Area} {s : State} (hW : [.cells, .mem, .rg, .arr, .lce, .fab, .fe, .ic, .err, .csb, .ports, .freeCtr] ⊆ W) (p : Nat) {t : State} (e : execLkpPart p s = .next t) :
    Foot W s t := by
  unfold execLkpPart at e
  refine run_foot e ?_
  intro s' h
  repeat' first
    | with_reducible assumption
    | intro _
    | with_reducible apply serve_foot (hW := (less hW))
    | with_reducible apply countDrop_foot (hW := (less hW))
    | with_reducible apply addPart_foot (hW := (less hW))
    | with_reducible apply startSubs_foot (hW := (less hW))
    | with_reducible apply giveSub_foot (hW := (less hW))
    | with_reducible apply Foot.ite
    | split
    | dsimp only

theorem execLkpRsp_foot {W : List Area} {s : State} (hW : [.cells, .mem, .rg, .arr, .lce, .fab, .sg, .fe, .tw, .ic, .err, .csb, .ports, .freeCtr] ⊆ W) (p : Nat) {t : State} (e : execLkpRsp p s = .next t) :
    Foot W s t := by
  unfold execLkpRsp at e
  refine run_foot e ?_
  intro s' h
  repeat' first
    | with_reducible assumption
    | intro _
    | with_reducible apply onPacket_foot (hW := (less hW))
    | with_reducible apply subDone_foot (hW := (less hW))
    | with_reducible apply settleReq_foot (hW := (less hW))
    | with_reducible apply countDrop_foot (hW := (less hW))
    | with_reducible apply Foot.ite
    | exact Or.inl (hW (by decide))
    | with_reducible exact Or.inr rfl
    | with_reducible exact id
    | with_reducible exact Nat.le_refl _
    | (simp only [Foot.lit_eq]; with_reducible apply Foot.litL rfl)
    | split

theorem execRemoteLookupTimeout_foot {W : List Area} {s : State} (hW : [.cells, .mem, .rg, .arr, .lce, .fab, .fe, .ic, .err, .csb, .ports, .freeCtr] ⊆ W) (sub : Nat) {t : State} (e : execRemoteLookupTimeout sub s = .next t) :
    Foot W s t := by
  unfold execRemoteLookupTimeout at e
  refine run_foot e ?_
  intro s' h
  repeat' first
    | with_reducible assumption
    | intro _
    | with_reducible apply subLost_foot (hW := (less hW))
    | with_reducible apply Foot.ite
    | exact Or.inl (hW (by decide))
    | with_reducible exact Or.inr rfl
    | with_reducible exact id
    | with_reducible exact Nat.le_refl _
    | (simp only [Foot.lit_eq]; with_reducible apply Foot.litL rfl)
    | split

theorem applyRow_foot {W : List Area} {r s : State} (hW : [.cells, .mem, .rg, .lce, .fe, .ic, .err] ⊆ W) (n : Nat) (c : Nat) (kind : Nat) (key : HotRow) (d : Tab) (l : Nat) (data : List Byte) (bad : Bool) (h : Foot W r s) :
    Foot W r (applyRow n c kind key d l data bad s).2 := by
  unfold applyRow
  repeat' first
    | with_reducible assumption
    | intro _
    | with_reducible apply accessC_foot (hW := (less hW))
    | with_reducible apply hrcWrite_foot (hW := (less hW))
    | with_reducible apply writeMem_foot (hW := (less hW))
    | with_reducible apply Foot.ite

theorem forwardRec_foot {W : List Area} {r s : State} (hW : [.fab, .ports] ⊆ W) (n : Nat) (seq : Nat) (c : Nat) (q : Nat) (cmd : Nat) (node : Nat) (dom : Nat) (kind : Nat) (epoch : Nat) (l : Nat) (a10 : UpdRec) (h : Foot W r s) :
    Foot W r (forwardRec n seq c q cmd node dom kind epoch l a10 s) := by
  unfold forwardRec
  repeat' first
    | with_reducible assumption
    | intro _
    | with_reducible apply sendAll_foot (hW := (less hW))

theorem updOne_foot {W : List Area} {r : State} (hW : [.cells, .mem, .rg, .lce, .fab, .fe, .ic, .err, .ports] ⊆ W) (n : Nat) (a1 : Task) (dom : Nat) (kind : Nat) (epoch : Nat) (a5 : UpdRec × Tab) (bs : Bool × State) (h : Foot W r bs.2) :
    Foot W r (updOne n a1 dom kind epoch a5 bs).2 := by
  unfold updOne
  repeat' first
    | with_reducible assumption
    | intro _
    | with_reducible apply applyRow_foot (hW := (less hW))
    | with_reducible apply forwardRec_foot (hW := (less hW))
    | with_reducible apply Foot.ite
    | with_reducible refine Foot.snd (by assumption) ?_
    | split
    | dsimp only

theorem applyUpdates_foot {W : List Area} {r s : State} (hW : [.cells, .mem, .rg, .arr, .lce, .fab, .sg, .fe, .tw, .ic, .err, .csb, .ports, .freeCtr] ⊆ W) (n : Nat) (a1 : Task) (dom : Nat) (kind : Nat) (epoch : Nat) (l : List (UpdRec × Tab)) (h : Foot W r s) :
    Foot W r (applyUpdates n a1 dom kind epoch l s) := by
  unfold applyUpdates
  repeat' first
    | with_reducible assumption
    | intro _
    | with_reducible apply updOne_foot (hW := (less hW))
    | with_reducible apply modTask_foot (hW := (less hW))
    | with_reducible apply answerWhen_foot (hW := (less hW))
    | with_reducible apply Foot.ite
    | exact Or.inl (hW (by decide))
    | with_reducible exact Or.inr rfl
    | with_reducible exact id
    | with_reducible exact Nat.le_refl _
    | (simp only [Foot.lit_eq]; with_reducible apply Foot.litL rfl)
    | with_reducible apply Foot.foldl
    | with_reducible apply Foot.foldl_snd

theorem runUpdate_foot {W : List Area} {r s : State} (hW : [.cells, .mem, .rg, .arr, .lce, .fab, .sg, .fe, .tw, .ic, .err, .csb, .ports, .freeCtr] ⊆ W) (n : Nat) (a1 : Task) (d : List Byte) (recs : List (Nat × Nat × Tab)) (host : HostData) (h : Foot W r s) :
    Foot W r (runUpdate n a1 d recs host s) := by
  unfold runUpdate
  repeat' first
    | with_reducible assumption
    | intro _
    | with_reducible apply xlatFault_foot (hW := (less hW))
    | with_reducible apply touchCtl_foot (hW := (less hW))
    | with_reducible apply taskFault_foot (hW := (less hW))
    | with_reducible apply taskEnd_foot (hW := (less hW))
    | with_reducible apply applyUpdates_foot (hW := (less hW))
    | with_reducible apply Foot.ite
    | with_reducible apply Foot.foldl
    | with_reducible apply Foot.foldl_snd
    | split
    | dsimp only

theorem readingUpd_foot {W : List Area} {r s : State} (hW : [.fab, .ports] ⊆ W) (n : Nat) (a1 : Task) (d : List Byte) (recs : List (Nat × Nat × Tab)) (f : State → State) (h_f : ∀ s', Foot W r s' → Foot W r (f s')) (h : Foot W r s) :
    Foot W r (readingUpd n a1 d recs f s) := by
  unfold readingUpd
  repeat' first
    | with_reducible assumption
    | intro _
    | with_reducible apply askReads_foot (hW := (less hW))
    | apply h_f
    | with_reducible apply Foot.ite

theorem startUpdate_foot {W : List Area} {r s : State} (hW : [.cells, .mem, .rg, .arr, .lce, .fab, .sg, .fe, .tw, .ic, .err, .csb, .ports, .freeCtr] ⊆ W) (n : Nat) (a1 : Task) (host : HostData) (h : Foot W r s) :
    Foot W r (startUpdate n a1 host s) := by
  unfold startUpdate
  repeat' first
    | with_reducible assumption
    | intro _
    | with_reducible apply withDesc_foot (hW := (less hW))
    | with_reducible apply taskFault_foot (hW := (less hW))
    | with_reducible apply reading_foot (hW := (less hW))
    | with_reducible apply xlatFault_foot (hW := (less hW))
    | with_reducible apply touchCtl_foot (hW := (less hW))
    | with_reducible apply readingUpd_foot (hW := (less hW))
    | with_reducible apply runUpdate_foot (hW := (less hW))
    | with_reducible apply each_foot
    | with_reducible apply cacheTab_foot (hW := (less hW))
    | with_reducible apply Foot.ite
    | split
    | dsimp only

theorem headTask_foot {W : List Area} {r s : State} (hW : [.lce, .fab, .fe, .ic, .err, .ports] ⊆ W) (n : Nat) (ty : Nat) (f : Task → State → State) (h_f : ∀ y0 s', Foot W r s' → Foot W r (f y0 s')) (h : Foot W r s) :
    Foot W r (headTask n ty f s) := by
  unfold headTask
  repeat' first
    | with_reducible assumption
    | intro _
    | with_reducible apply modTask_foot (hW := (less hW))
    | with_reducible apply popJob_foot (hW := (less hW))
    | apply h_f
    | with_reducible apply Foot.ite
    | split

theorem execUpdate_foot {W : List Area} {s : State} (hW : [.cells, .mem, .rg, .arr, .lce, .fab, .sg, .fe, .tw, .ic, .err, .csb, .ports, .freeCtr] ⊆ W) (n : Nat) (host : HostData) {t : State} (e : execUpdate n host s = .next t) :
    Foot W s t := by
  unfold execUpdate at e
  refine run_foot e ?_
  intro s' h
  repeat' first
    | with_reducible assumption
    | intro _
    | with_reducible apply guarded_foot
    | with_reducible apply headTask_foot (hW := (less hW))
    | with_reducible apply startUpdate_foot (hW := (less hW))

theorem ownerUpdate_foot {W : List Area} {r s : State} (hW : [.cells, .mem, .rg, .arr, .lce, .fab, .sg, .fe, .tw, .ic, .err, .csb, .ports, .freeCtr] ⊆ W) (k : Packet) (b : List Byte) (h : Foot W r s) :
    Foot W r (ownerUpdate k b s) := by
  unfold ownerUpdate
  repeat' first
    | with_reducible assumption
    | intro _
    | with_reducible apply reportCe_foot (hW := (less hW))
    | with_reducible apply answer_foot (hW := (less hW))
    | with_reducible apply applyRow_foot (hW := (less hW))
    | with_reducible apply cacheTab_foot (hW := (less hW))
    | with_reducible apply answerWhen_foot (hW := (less hW))
    | with_reducible apply Foot.ite
    | with_reducible refine Foot.snd (by assumption) ?_
    | split
    | dsimp only

theorem updatePart_foot {W : List Area} {r s : State} (hW : [.cells, .mem, .rg, .arr, .lce, .fab, .sg, .fe, .tw, .ic, .err, .csb, .ports, .freeCtr] ⊆ W) (k : Packet) (h : Foot W r s) :
    Foot W r (updatePart k s) := by
  unfold updatePart
  repeat' first
    | with_reducible assumption
    | intro _
    | with_reducible apply ownerUpdate_foot (hW := (less hW))
    | with_reducible apply Foot.ite
    | exact Or.inl (hW (by decide))
    | with_reducible exact Or.inr rfl
    | with_reducible exact id
    | with_reducible exact Nat.le_refl _
    | (simp only [Foot.lit_eq]; with_reducible apply Foot.litL rfl)

theorem execRemoteUpdateRecords_foot {W : List Area} {s : State} (hW : [.cells, .mem, .rg, .arr, .lce, .fab, .sg, .fe, .tw, .ic, .err, .csb, .ports, .freeCtr] ⊆ W) (p : Nat) {t : State} (e : execRemoteUpdateRecords p s = .next t) :
    Foot W s t := by
  unfold execRemoteUpdateRecords at e
  refine run_foot e ?_
  intro s' h
  repeat' first
    | with_reducible assumption
    | intro _
    | with_reducible apply serve_foot (hW := (less hW))
    | with_reducible apply updatePart_foot (hW := (less hW))
    | with_reducible apply countDrop_foot (hW := (less hW))
    | with_reducible apply Foot.ite
    | split

theorem startFence_foot {W : List Area} {r s : State} (hW : [.mem, .rg, .lce, .fab, .fe, .ic, .err, .ports] ⊆ W) (n : Nat) (a1 : Task) (host : HostData) (h : Foot W r s) :
    Foot W r (startFence n a1 host s) := by
  unfold startFence
  repeat' first
    | with_reducible assumption
    | intro _
    | with_reducible apply withDesc_foot (hW := (less hW))
    | with_reducible apply taskFault_foot (hW := (less hW))
    | with_reducible apply taskEnd_foot (hW := (less hW))
    | with_reducible apply Foot.ite
    | exact Or.inl (hW (by decide))
    | with_reducible exact Or.inr rfl
    | with_reducible exact id
    | with_reducible exact Nat.le_refl _
    | (simp only [Foot.lit_eq]; with_reducible apply Foot.litL rfl)
    | split

theorem execEpochFence_foot {W : List Area} {s : State} (hW : [.mem, .rg, .lce, .fab, .fe, .ic, .err, .ports] ⊆ W) (n : Nat) (host : HostData) {t : State} (e : execEpochFence n host s = .next t) :
    Foot W s t := by
  unfold execEpochFence at e
  refine run_foot e ?_
  intro s' h
  repeat' first
    | with_reducible assumption
    | intro _
    | with_reducible apply guarded_foot
    | with_reducible apply headTask_foot (hW := (less hW))
    | with_reducible apply startFence_foot (hW := (less hW))

theorem fenceDone_foot {W : List Area} {r s : State} (hW : [.lce, .fe, .ic, .err] ⊆ W) (w : EpochWait) (h : Foot W r s) :
    Foot W r (fenceDone w s) := by
  unfold fenceDone
  repeat' first
    | with_reducible assumption
    | intro _
    | with_reducible apply modDomain_foot (hW := (less hW))
    | with_reducible apply each_foot
    | with_reducible apply modHrc_foot (hW := (less hW))
    | with_reducible apply dropTabs_foot (hW := (less hW))
    | with_reducible apply taskEnd_foot (hW := (less hW))
    | with_reducible apply Foot.ite
    | exact Or.inl (hW (by decide))
    | with_reducible exact Or.inr rfl
    | with_reducible exact id
    | with_reducible exact Nat.le_refl _
    | (simp only [Foot.lit_eq]; with_reducible apply Foot.litL rfl)

theorem execEpochFenceComplete_foot {W : List Area} {s : State} (hW : [.lce, .fe, .ic, .err] ⊆ W) (n : Nat) {t : State} (e : execEpochFenceComplete n s = .next t) :
    Foot W s t := by
  unfold execEpochFenceComplete at e
  refine run_foot e ?_
  intro s' h
  repeat' first
    | with_reducible assumption
    | intro _
    | with_reducible apply guarded_foot
    | with_reducible apply fenceDone_foot (hW := (less hW))
    | with_reducible apply Foot.ite
    | split

theorem execSketchDecay_foot {W : List Area} {s : State} (hW : [.lce] ⊆ W) (p : Nat) {t : State} (e : execSketchDecay p s = .next t) :
    Foot W s t := by
  unfold execSketchDecay at e
  refine run_foot e ?_
  intro s' h
  repeat' first
    | with_reducible assumption
    | intro _
    | with_reducible apply modHrc_foot (hW := (less hW))
    | with_reducible apply Foot.ite

theorem emptyHrc_foot {W : List Area} {r s : State} (hW : [.lce] ⊆ W) (p : Nat) (h : Foot W r s) :
    Foot W r (emptyHrc p s) := by
  unfold emptyHrc
  repeat' first
    | with_reducible assumption
    | intro _
    | with_reducible apply modHrc_foot (hW := (less hW))

theorem execHrcConfigWrite_foot {W : List Area} {s : State} (hW : [.regs, .lce] ⊆ W) (p : Nat) (val : W32) {t : State} (e : execHrcConfigWrite p val s = .next t) :
    Foot W s t := by
  unfold execHrcConfigWrite at e
  refine run_foot e ?_
  intro s' h
  repeat' first
    | with_reducible assumption
    | intro _
    | with_reducible apply guarded_foot
    | with_reducible apply regSet_foot (hW := (less hW))
    | with_reducible apply emptyHrc_foot (hW := (less hW))
    | with_reducible apply Foot.ite

theorem execHotRowCacheEmptied_foot {W : List Area} {s : State} (hW : [.lce] ⊆ W) (p : Nat) {t : State} (e : execHotRowCacheEmptied p s = .next t) :
    Foot W s t := by
  unfold execHotRowCacheEmptied at e
  refine run_foot e ?_
  intro s' h
  repeat' first
    | with_reducible assumption
    | intro _
    | with_reducible apply modHrc_foot (hW := (less hW))
    | with_reducible apply Foot.ite

theorem execLceInternalError_foot {W : List Area} {s : State} (hW : [.blk, .ic, .err] ⊆ W) (n : Nat) {t : State} (e : execLceInternalError n s = .next t) :
    Foot W s t := by
  unfold execLceInternalError at e
  refine run_foot e ?_
  intro s' h
  repeat' first
    | with_reducible assumption
    | intro _
    | with_reducible apply bEvent_foot (hW := (less hW))

end Sys2Proof.Laws
end

