-- ==== Sys2Proof/Laws/FootStopOps.lean ====
section
/-!
SUPPORT. Footprints of the operations of Machine/StopOps.lean.
-/
namespace Sys2Proof.Laws
open Sys2Proof Sys2Proof.Machine
set_option Elab.async false

theorem abandonSeq_foot {W : List Area} {r s : State} (hW : [.fab] ⊆ W) (late : Bool) (q : Nat) (seq : Nat) (h : Foot W r s) :
    Foot W r (abandonSeq late q seq s) := by
  unfold abandonSeq
  repeat' first
    | with_reducible assumption
    | intro _
    | with_reducible apply Foot.ite
    | exact Or.inl (hW (by decide))
    | with_reducible exact Or.inr rfl
    | with_reducible exact id
    | with_reducible exact Nat.le_refl _
    | (simp only [Foot.lit_eq]; with_reducible apply Foot.litL rfl)

theorem abandonCtx_foot {W : List Area} {r s : State} (hW : [.lce, .fab, .ports] ⊆ W) (late : Bool) (c : Nat) (h : Foot W r s) :
    Foot W r (abandonCtx late c s) := by
  unfold abandonCtx
  repeat' first
    | with_reducible assumption
    | intro _
    | with_reducible apply dropReads_foot (hW := (less hW))
    | with_reducible apply Foot.ite
    | exact Or.inl (hW (by decide))
    | with_reducible exact Or.inr rfl
    | with_reducible exact id
    | with_reducible exact Nat.le_refl _
    | (simp only [Foot.lit_eq]; with_reducible apply Foot.litL rfl)

theorem stopArray_foot {W : List Area} {r s : State} (hW : [.rg, .arr, .fab, .fe, .tw, .ports, .freeCtr] ⊆ W) (late : Bool) (q : Nat) (p : Nat) (a3 : Task) (h : Foot W r s) :
    Foot W r (stopArray late q p a3 s).2 := by
  unfold stopArray
  repeat' first
    | with_reducible assumption
    | intro _
    | with_reducible apply dropReads_foot (hW := (less hW))
    | with_reducible apply leaveArray_foot (hW := (less hW))
    | with_reducible apply fresh_foot (hW := (less hW))
    | with_reducible apply useCycles_foot (hW := (less hW))
    | with_reducible apply Foot.ite
    | with_reducible refine Foot.snd (by assumption) ?_
    | split
    | dsimp only

theorem stopLce_foot {W : List Area} {r s : State} (hW : [.lce, .fab] ⊆ W) (n : Nat) (seq : Nat) (h : Foot W r s) :
    Foot W r (stopLce n seq s) := by
  unfold stopLce
  repeat' first
    | with_reducible assumption
    | intro _
    | with_reducible apply modLce_foot (hW := (less hW))
    | with_reducible apply dropBatch_foot (hW := (less hW))
    | with_reducible apply Foot.ite
    | exact Or.inl (hW (by decide))
    | with_reducible exact Or.inr rfl
    | with_reducible exact id
    | with_reducible exact Nat.le_refl _
    | (simp only [Foot.lit_eq]; with_reducible apply Foot.litL rfl)

theorem leavePlace_foot {W : List Area} {r s : State} (hW : [.blk, .rg, .arr, .lce, .fab, .sg, .fe, .tw, .ports, .freeCtr] ⊆ W) (late : Bool) (q : Nat) (a2 : Task) (h : Foot W r s) :
    Foot W r (leavePlace late q a2 s).2 := by
  unfold leavePlace
  repeat' first
    | with_reducible assumption
    | intro _
    | with_reducible apply stopArray_foot (hW := (less hW))
    | with_reducible apply each_foot
    | with_reducible apply cancelTag_foot (hW := (less hW))
    | with_reducible apply modArr_foot (hW := (less hW))
    | with_reducible apply stopLce_foot (hW := (less hW))
    | with_reducible apply Foot.ite
    | exact Or.inl (hW (by decide))
    | with_reducible exact Or.inr rfl
    | with_reducible exact id
    | with_reducible exact Nat.le_refl _
    | (simp only [Foot.lit_eq]; with_reducible apply Foot.litL rfl)
    | with_reducible refine Foot.snd (by assumption) ?_
    | split
    | dsimp only

theorem stopTask_foot {W : List Area} {r s : State} (hW : [.blk, .rg, .arr, .lce, .fab, .sg, .fe, .tw, .ports, .freeCtr] ⊆ W) (late : Bool) (q : Nat) (a2 : Task) (h : Foot W r s) :
    Foot W r (stopTask late q a2 s).2 := by
  unfold stopTask
  repeat' first
    | with_reducible assumption
    | intro _
    | with_reducible apply leavePlace_foot (hW := (less hW))
    | with_reducible apply abandonSeq_foot (hW := (less hW))
    | with_reducible apply leaveBars_foot (hW := (less hW))
    | with_reducible apply freeRecs_foot (hW := (less hW))
    | with_reducible apply Foot.ite
    | exact Or.inl (hW (by decide))
    | with_reducible exact Or.inr rfl
    | with_reducible exact id
    | with_reducible exact Nat.le_refl _
    | (simp only [Foot.lit_eq]; with_reducible apply Foot.litL rfl)

theorem refillAll_foot {W : List Area} {r s : State} (hW : [.arr, .fe] ⊆ W) (h : Foot W r s) :
    Foot W r (refillAll s) := by
  unfold refillAll
  repeat' first
    | with_reducible assumption
    | intro _
    | with_reducible apply each_foot
    | with_reducible apply fillSeq_foot (hW := (less hW))

theorem reissueAll_foot {W : List Area} {r s : State} (hW : [.blk, .fe, .ports] ⊆ W) (h : Foot W r s) :
    Foot W r (reissueAll s) := by
  unfold reissueAll
  repeat' first
    | with_reducible assumption
    | intro _
    | with_reducible apply each_foot
    | with_reducible apply issueWaiting_foot (hW := (less hW))

theorem endStopped_foot {W : List Area} {r s : State} (hW : [.fe] ⊆ W) (q : Nat) (a1 : Task) (st : Status) (cyc : Nat) (h : Foot W r s) :
    Foot W r (endStopped q a1 st cyc s) := by
  unfold endStopped
  repeat' first
    | with_reducible assumption
    | intro _
    | with_reducible apply modLaunch_foot (hW := (less hW))
    | with_reducible apply owe_foot (hW := (less hW))
    | with_reducible apply modCmd_foot (hW := (less hW))
    | with_reducible apply Foot.ite
    | split

theorem endNodes_foot {W : List Area} {r s : State} (hW : [.fe] ⊆ W) (x : Launch) (h : Foot W r s) :
    Foot W r (endNodes x s) := by
  unfold endNodes
  repeat' first
    | with_reducible assumption
    | intro _
    | with_reducible apply each_foot
    | with_reducible apply owe_foot (hW := (less hW))
    | with_reducible apply Foot.ite
    | split

theorem endCmd_foot {W : List Area} {r s : State} (hW : [.cells, .mem, .rg, .fab, .fe, .ic, .err, .csb, .ports, .freeCtr] ⊆ W) (q : Nat) (st : Status) (a2 : CmdEnt) (h : Foot W r s) :
    Foot W r (endCmd q st a2 s) := by
  unfold endCmd
  repeat' first
    | with_reducible assumption
    | intro _
    | with_reducible apply endNodes_foot (hW := (less hW))
    | with_reducible apply endLaunch_foot (hW := (less hW))
    | with_reducible apply modQueue_foot (hW := (less hW))
    | with_reducible apply failSignals_foot (hW := (less hW))
    | with_reducible apply Foot.ite
    | split

theorem endHeld_foot {W : List Area} {r s : State} (hW : [.fe] ⊆ W) (q : Nat) (st : Status) (h : Foot W r s) :
    Foot W r (endHeld q st s) := by
  unfold endHeld
  repeat' first
    | with_reducible assumption
    | intro _
    | with_reducible apply modQueue_foot (hW := (less hW))
    | with_reducible apply fenceDrop_foot (hW := (less hW))
    | with_reducible apply Foot.ite
    | split

theorem endTask_foot {W : List Area} {r s : State} (hW : [.blk, .rg, .arr, .lce, .fab, .sg, .fe, .tw, .ic, .ports, .freeCtr] ⊆ W) (late : Bool) (brk : Bool) (dq : Nat) (q : Nat) (st : Status) (a5 : Task) (h : Foot W r s) :
    Foot W r (endTask late brk dq q st a5 s) := by
  unfold endTask
  repeat' first
    | with_reducible assumption
    | intro _
    | with_reducible apply modQueue_foot (hW := (less hW))
    | with_reducible apply breakGroup_foot (hW := (less hW))
    | with_reducible apply stopTask_foot (hW := (less hW))
    | with_reducible apply endStopped_foot (hW := (less hW))
    | with_reducible apply Foot.ite
    | with_reducible refine Foot.snd (by assumption) ?_
    | split

theorem endQueueWork_foot {W : List Area} {r s : State} (hW : [.blk, .cells, .mem, .rg, .arr, .lce, .fab, .sg, .fe, .tw, .ic, .err, .csb, .ports, .freeCtr] ⊆ W) (late : Bool) (brk : Bool) (dq : Nat) (q : Nat) (st : Status) (h : Foot W r s) :
    Foot W r (endQueueWork late brk dq q st s) := by
  unfold endQueueWork
  repeat' first
    | with_reducible assumption
    | intro _
    | with_reducible apply each_foot
    | with_reducible apply endTask_foot (hW := (less hW))
    | with_reducible apply endCmd_foot (hW := (less hW))
    | with_reducible apply endHeld_foot (hW := (less hW))

theorem homeHandles_foot {W : List Area} {r s : State} (hW : [.fe, .ic, .err] ⊆ W) (ce : Bool) (q : Nat) (h : Foot W r s) :
    Foot W r (homeHandles ce q s) := by
  unfold homeHandles
  repeat' first
    | with_reducible assumption
    | intro _
    | with_reducible apply modQueue_foot (hW := (less hW))
    | with_reducible apply each_foot
    | with_reducible apply reportCe_foot (hW := (less hW))
    | with_reducible apply hqReturn_foot (hW := (less hW))
    | with_reducible apply Foot.ite

theorem freeSlot_foot {W : List Area} {r s : State} (hW : [.fe] ⊆ W) (q : Nat) (h : Foot W r s) :
    Foot W r (freeSlot q s) := by
  unfold freeSlot
  repeat' first
    | with_reducible assumption
    | intro _
    | with_reducible apply Foot.ite
    | exact Or.inl (hW (by decide))
    | with_reducible exact Or.inr rfl
    | with_reducible exact id
    | with_reducible exact Nat.le_refl _
    | (simp only [Foot.lit_eq]; with_reducible apply Foot.litL rfl)

theorem abandonQueue_foot {W : List Area} {r s : State} (hW : [.blk, .cells, .mem, .rg, .arr, .lce, .fab, .sg, .fe, .tw, .ic, .err, .csb, .ports, .freeCtr] ⊆ W) (late : Bool) (dq : Nat) (q : Nat) (h : Foot W r s) :
    Foot W r (abandonQueue late dq q s) := by
  unfold abandonQueue
  repeat' first
    | with_reducible assumption
    | intro _
    | with_reducible apply each_foot
    | with_reducible apply modQueue_foot (hW := (less hW))
    | with_reducible apply stopTask_foot (hW := (less hW))
    | with_reducible apply failSignals_foot (hW := (less hW))
    | with_reducible apply endLaunch_foot (hW := (less hW))
    | with_reducible apply fenceDrop_foot (hW := (less hW))
    | with_reducible apply Foot.ite
    | with_reducible refine Foot.snd (by assumption) ?_
    | split
    | dsimp only

theorem destroyQueue_foot {W : List Area} {r s : State} (hW : [.fe, .ic, .err] ⊆ W) (q : Nat) (h : Foot W r s) :
    Foot W r (destroyQueue q s) := by
  unfold destroyQueue
  repeat' first
    | with_reducible assumption
    | intro _
    | with_reducible apply ctxDrop_foot (hW := (less hW))
    | with_reducible apply modSrc_foot (hW := (less hW))
    | with_reducible apply modQueue_foot (hW := (less hW))
    | with_reducible apply freeSlot_foot (hW := (less hW))
    | with_reducible apply homeHandles_foot (hW := (less hW))

theorem removeGroup_foot {W : List Area} {r s : State} (hW : [.sg, .fe] ⊆ W) (g : Nat) (h : Foot W r s) :
    Foot W r (removeGroup g s) := by
  unfold removeGroup
  repeat' first
    | with_reducible assumption
    | intro _
    | with_reducible apply ctxDrop_foot (hW := (less hW))
    | with_reducible apply modGroup_foot (hW := (less hW))
    | with_reducible apply Foot.ite
    | exact Or.inl (hW (by decide))
    | with_reducible exact Or.inr rfl
    | with_reducible exact id
    | with_reducible exact Nat.le_refl _
    | (simp only [Foot.lit_eq]; with_reducible apply Foot.litL rfl)

theorem unbindBar_foot {W : List Area} {r s : State} (hW : [.fe, .tw] ⊆ W) (k : Nat) (h : Foot W r s) :
    Foot W r (unbindBar k s) := by
  unfold unbindBar
  repeat' first
    | with_reducible assumption
    | intro _
    | with_reducible apply ctxDrop_foot (hW := (less hW))
    | with_reducible apply modBar_foot (hW := (less hW))

theorem unbindHq_foot {W : List Area} {r s : State} (hW : [.fe] ⊆ W) (a0 : Nat) (h : Foot W r s) :
    Foot W r (unbindHq a0 s) := by
  unfold unbindHq
  repeat' first
    | with_reducible assumption
    | intro _
    | with_reducible apply ctxDrop_foot (hW := (less hW))
    | with_reducible apply modHq_foot (hW := (less hW))

theorem dropMaps_foot {W : List Area} {r s : State} (hW : [.fe] ⊆ W) (c : Nat) (a : Nat) (h : Foot W r s) :
    Foot W r (dropMaps c a s) := by
  unfold dropMaps
  repeat' first
    | with_reducible assumption
    | intro _
    | with_reducible apply modAlloc_foot (hW := (less hW))
    | with_reducible apply each_foot
    | with_reducible apply ctxDrop_foot (hW := (less hW))
    | with_reducible apply allocCheck_foot (hW := (less hW))
    | with_reducible apply Foot.ite

theorem teardownEnd_foot {W : List Area} {r s : State} (hW : [.arr, .fe, .tw, .ic, .err] ⊆ W) (c : Nat) (h : Foot W r s) :
    Foot W r (teardownEnd c s) := by
  unfold teardownEnd
  repeat' first
    | with_reducible assumption
    | intro _
    | with_reducible apply freeRecs_foot (hW := (less hW))
    | with_reducible apply modCtx_foot (hW := (less hW))
    | with_reducible apply each_foot
    | with_reducible apply destroyQueue_foot (hW := (less hW))
    | with_reducible apply graphDrop_foot (hW := (less hW))
    | with_reducible apply modGraph_foot (hW := (less hW))
    | with_reducible apply unbindHq_foot (hW := (less hW))
    | with_reducible apply unbindBar_foot (hW := (less hW))
    | with_reducible apply dropMaps_foot (hW := (less hW))
    | with_reducible apply ctxDrop_foot (hW := (less hW))
    | with_reducible apply Foot.ite
    | exact Or.inl (hW (by decide))
    | with_reducible exact Or.inr rfl
    | with_reducible exact id
    | with_reducible exact Nat.le_refl _
    | (simp only [Foot.lit_eq]; with_reducible apply Foot.litL rfl)

theorem teardownSettle_foot {W : List Area} {r s : State} (hW : [.arr, .fe, .tw, .ic, .err] ⊆ W) (c : Nat) (h : Foot W r s) :
    Foot W r (teardownSettle c s) := by
  unfold teardownSettle
  repeat' first
    | with_reducible assumption
    | intro _
    | with_reducible apply teardownEnd_foot (hW := (less hW))
    | with_reducible apply Foot.ite

theorem teardown_foot {W : List Area} {r s : State} (hW : [.blk, .cells, .mem, .rg, .arr, .lce, .fab, .sg, .fe, .tw, .ic, .err, .csb, .ports, .freeCtr] ⊆ W) (c : Nat) (h : Foot W r s) :
    Foot W r (teardown c s) := by
  unfold teardown
  repeat' first
    | with_reducible assumption
    | intro _
    | with_reducible apply modCtx_foot (hW := (less hW))
    | with_reducible apply each_foot
    | with_reducible apply modQueue_foot (hW := (less hW))
    | with_reducible apply freeSlot_foot (hW := (less hW))
    | with_reducible apply abandonQueue_foot (hW := (less hW))
    | with_reducible apply removeGroup_foot (hW := (less hW))
    | with_reducible apply breakBars_foot (hW := (less hW))
    | with_reducible apply refillAll_foot (hW := (less hW))
    | with_reducible apply reissueAll_foot (hW := (less hW))
    | with_reducible apply abandonCtx_foot (hW := (less hW))
    | with_reducible apply teardownEnd_foot (hW := (less hW))
    | with_reducible apply teardownSettle_foot (hW := (less hW))
    | with_reducible apply Foot.ite

end Sys2Proof.Laws
end

