-- ==== Sys2Proof/Laws/FootHostIo.lean ====
section
/-!
SUPPORT. Footprints of the operations of Machine/HostIo.lean.
-/
namespace Sys2Proof.Laws
open Sys2Proof Sys2Proof.Machine
set_option Elab.async false

theorem recoveryData_foot {W : List Area} {r s : State} (hW : [.blk, .fw, .ports] ⊆ W) (dest : Nat) (d : List Byte × Bool) (h : Foot W r s) :
    Foot W r (recoveryData dest d s) := by
  unfold recoveryData
  repeat' first
    | with_reducible assumption
    | intro _
    | with_reducible apply dropReads_foot (hW := (less hW))
    | with_reducible apply Foot.ite
    | exact Or.inl (hW (by decide))
    | with_reducible exact Or.inr rfl
    | with_reducible exact id
    | with_reducible exact Nat.le_refl _
    | (simp only [Foot.lit_eq]; with_reducible apply Foot.litL rfl)

theorem landHost_foot {W : List Area} {r s : State} (hW : [.arr] ⊆ W) (l : Nat) (dest : Nat) (d : List Byte × Bool) (h : Foot W r s) :
    Foot W r (landHost l dest d s) := by
  unfold landHost
  repeat' first
    | with_reducible assumption
    | intro _
    | with_reducible apply modArr_foot (hW := (less hW))
    | with_reducible apply Foot.ite
    | split

theorem unitPiece_foot {W : List Area} {r s : State} (hW : [.arr, .ic, .err, .ports] ⊆ W) (l : Nat) (id : Nat) (off : Nat) (a3 : OreqRead) (ok : Bool) (ep : Bool) (data : List Byte) (h : Foot W r s) :
    Foot W r (unitPiece l id off a3 ok ep data s) := by
  unfold unitPiece
  repeat' first
    | with_reducible assumption
    | intro _
    | with_reducible apply hostPoisonCe_foot (hW := (less hW))
    | with_reducible apply sealCe_foot (hW := (less hW))
    | with_reducible apply landHost_foot (hW := (less hW))
    | with_reducible apply Foot.ite
    | exact Or.inl (hW (by decide))
    | with_reducible exact Or.inr rfl
    | with_reducible exact id
    | with_reducible exact Nat.le_refl _
    | (simp only [Foot.lit_eq]; with_reducible apply Foot.litL rfl)
    | split
    | dsimp only

theorem loadData_foot {W : List Area} {r s : State} (hW : [.arr, .ic, .err, .ports] ⊆ W) (l : Nat) (a1 : OreqRead) (ok : Bool) (ep : Bool) (data : List Byte) (h : Foot W r s) :
    Foot W r (loadData l a1 ok ep data s) := by
  unfold loadData
  repeat' first
    | with_reducible assumption
    | intro _
    | with_reducible apply unitPiece_foot (hW := (less hW))
    | with_reducible apply landHost_foot (hW := (less hW))
    | with_reducible apply hostPoisonCe_foot (hW := (less hW))
    | with_reducible apply Foot.ite
    | split

theorem endRead_foot {W : List Area} {r s : State} (hW : [.blk, .arr, .fe, .ic, .fw, .err, .ports] ⊆ W) (a0 : OreqRead) (ok : Bool) (ep : Bool) (data : List Byte) (h : Foot W r s) :
    Foot W r (endRead a0 ok ep data s) := by
  unfold endRead
  repeat' first
    | with_reducible assumption
    | intro _
    | with_reducible apply nextReads_foot (hW := (less hW))
    | with_reducible apply loadData_foot (hW := (less hW))
    | with_reducible apply recoveryData_foot (hW := (less hW))
    | with_reducible apply modCtx_foot (hW := (less hW))
    | with_reducible apply Foot.ite
    | exact Or.inl (hW (by decide))
    | with_reducible exact Or.inr rfl
    | with_reducible exact id
    | with_reducible exact Nat.le_refl _
    | (simp only [Foot.lit_eq]; with_reducible apply Foot.litL rfl)
    | split

theorem execOcplCompletion_foot {W : List Area} {s : State} (hW : [.blk, .arr, .fe, .ic, .fw, .err, .ports] ⊆ W) (tag : Nat) (status : CplStatus) (ep : Bool) (data : List Byte) {t : State} (e : execOcplCompletion tag status ep data s = .next t) :
    Foot W s t := by
  unfold execOcplCompletion at e
  refine run_foot e ?_
  intro s' h
  repeat' first
    | with_reducible assumption
    | intro _
    | with_reducible apply endRead_foot (hW := (less hW))
    | with_reducible apply Foot.ite
    | split

theorem execOreqCompletionTimeout_foot {W : List Area} {s : State} (hW : [.blk, .arr, .fe, .ic, .fw, .err, .ports] ⊆ W) (tag : Nat) {t : State} (e : execOreqCompletionTimeout tag s = .next t) :
    Foot W s t := by
  unfold execOreqCompletionTimeout at e
  refine run_foot e ?_
  intro s' h
  repeat' first
    | with_reducible assumption
    | intro _
    | with_reducible apply endRead_foot (hW := (less hW))
    | with_reducible apply Foot.ite
    | split

end Sys2Proof.Laws
end

