-- ==== Sys2Proof/Laws/FootContexts.lean ====
section
/-!
SUPPORT. Footprints of the operations of Machine/Contexts.lean.
-/
namespace Sys2Proof.Laws
open Sys2Proof Sys2Proof.Machine
set_option Elab.async false

theorem makeCtx_foot {W : List Area} {r s : State} (hW : [.lce, .fe, .freeCtr] ⊆ W) (v : Nat) (c : Nat) (save : Nat) (dom : Nat) (root : Nat) (heapVa : Nat) (gib : Nat) (h : Foot W r s) :
    Foot W r (makeCtx v c save dom root heapVa gib s) := by
  unfold makeCtx
  repeat' first
    | with_reducible assumption
    | intro _
    | with_reducible apply modCtx_foot (hW := (less hW))
    | with_reducible apply fresh_foot (hW := (less hW))
    | with_reducible apply emptyHrc_foot (hW := (less hW))
    | with_reducible apply Foot.ite
    | exact Or.inl (hW (by decide))
    | with_reducible exact Or.inr rfl
    | with_reducible exact id
    | with_reducible exact Nat.le_refl _
    | (simp only [Foot.lit_eq]; with_reducible apply Foot.litL rfl)

theorem ctxCreate_foot {W : List Area} {r s : State} (hW : [.lce, .fe, .ic, .mbx, .freeCtr] ⊆ W) (h : Foot W r s) :
    Foot W r (ctxCreate s) := by
  unfold ctxCreate
  repeat' first
    | with_reducible assumption
    | intro _
    | with_reducible apply replySt_foot (hW := (less hW))
    | with_reducible refine placeAt_foot (less hW) _ _ _ _ _ (by assumption) ?_
    | with_reducible refine chooseFree_foot (less hW) _ _ (by assumption) ?_
    | with_reducible apply makeCtx_foot (hW := (less hW))
    | with_reducible apply replyBox_foot (hW := (less hW))
    | with_reducible apply Foot.ite
    | split

theorem execCtxCreate_foot {W : List Area} {s : State} (hW : [.lce, .fe, .ic, .mbx, .freeCtr] ⊆ W) {t : State} (e : execCtxCreate s = .next t) :
    Foot W s t := by
  unfold execCtxCreate at e
  refine run_foot e ?_
  intro s' h
  repeat' first
    | with_reducible assumption
    | intro _
    | with_reducible apply onBox_foot
    | with_reducible apply ctxCreate_foot (hW := (less hW))

theorem execCtxDestroy_foot {W : List Area} {s : State} (hW : [.blk, .cells, .mem, .rg, .arr, .lce, .fab, .sg, .fe, .tw, .ic, .mbx, .err, .csb, .ports, .freeCtr] ⊆ W) (box : Nat) {t : State} (e : execCtxDestroy box s = .next t) :
    Foot W s t := by
  unfold execCtxDestroy at e
  refine run_foot e ?_
  intro s' h
  repeat' first
    | with_reducible assumption
    | intro _
    | with_reducible apply onBox_foot
    | with_reducible apply replySt_foot (hW := (less hW))
    | with_reducible apply teardown_foot (hW := (less hW))
    | with_reducible apply Foot.ite
    | split

theorem execTeardownDrainExpiry_foot {W : List Area} {s : State} (hW : [.arr, .lce, .fab, .fe, .tw, .ic, .err, .ports] ⊆ W) (c : Nat) {t : State} (e : execTeardownDrainExpiry c s = .next t) :
    Foot W s t := by
  unfold execTeardownDrainExpiry at e
  refine run_foot e ?_
  intro s' h
  repeat' first
    | with_reducible assumption
    | intro _
    | with_reducible apply guarded_foot
    | with_reducible apply teardownEnd_foot (hW := (less hW))
    | with_reducible apply abandonCtx_foot (hW := (less hW))
    | with_reducible apply modCtx_foot (hW := (less hW))

theorem destroyCtx_foot {W : List Area} {r s : State} (hW : [.arr, .lce, .fe, .ic, .csb, .ports] ⊆ W) (c : Nat) (h : Foot W r s) :
    Foot W r (destroyCtx c s) := by
  unfold destroyCtx
  repeat' first
    | with_reducible assumption
    | intro _
    | with_reducible apply modCtx_foot (hW := (less hW))
    | with_reducible apply each_foot
    | with_reducible apply modFence_foot (hW := (less hW))
    | with_reducible apply dropTabs_foot (hW := (less hW))
    | with_reducible apply emptyHrc_foot (hW := (less hW))
    | with_reducible apply modArr_foot (hW := (less hW))
    | with_reducible apply notice_foot (hW := (less hW))
    | with_reducible apply Foot.ite
    | exact Or.inl (hW (by decide))
    | with_reducible exact Or.inr rfl
    | with_reducible exact id
    | with_reducible exact Nat.le_refl _
    | (simp only [Foot.lit_eq]; with_reducible apply Foot.litL rfl)
    | split

theorem execObjectDestroy_foot {W : List Area} {s : State} (hW : [.arr, .lce, .fe, .ic, .csb, .ports] ⊆ W) {t : State} (e : execObjectDestroy s = .next t) :
    Foot W s t := by
  unfold execObjectDestroy at e
  refine run_foot e ?_
  intro s' h
  repeat' first
    | with_reducible assumption
    | intro _
    | with_reducible apply guarded_foot
    | with_reducible apply modAlloc_foot (hW := (less hW))
    | with_reducible apply destroyCtx_foot (hW := (less hW))
    | with_reducible apply Foot.ite
    | exact Or.inl (hW (by decide))
    | with_reducible exact Or.inr rfl
    | with_reducible exact id
    | with_reducible exact Nat.le_refl _
    | (simp only [Foot.lit_eq]; with_reducible apply Foot.litL rfl)
    | split

theorem execAllocationZeroed_foot {W : List Area} {s : State} (hW : [.cells, .mem, .rg, .fe] ⊆ W) (a : Nat) {t : State} (e : execAllocationZeroed a s = .next t) :
    Foot W s t := by
  unfold execAllocationZeroed at e
  refine run_foot e ?_
  intro s' h
  repeat' first
    | with_reducible assumption
    | intro _
    | with_reducible apply guarded_foot
    | with_reducible apply zeroMem_foot (hW := (less hW))
    | with_reducible apply access_foot (hW := (less hW))
    | with_reducible apply logWrite_foot (hW := (less hW))
    | with_reducible apply each_foot
    | with_reducible apply modAlloc_foot (hW := (less hW))

theorem onCtx_foot {W : List Area} {r s : State} (hW : [.ic, .mbx] ⊆ W) (v : Nat) (i : Nat) (f : Nat → State → State) (h_f : ∀ y0 s', Foot W r s' → Foot W r (f y0 s')) (h : Foot W r s) :
    Foot W r (onCtx v i f s) := by
  unfold onCtx
  repeat' first
    | with_reducible assumption
    | intro _
    | with_reducible apply replySt_foot (hW := (less hW))
    | apply h_f
    | with_reducible apply Foot.ite
    | split

theorem execXlatInval_foot {W : List Area} {s : State} (hW : [.fe, .ic, .mbx] ⊆ W) (v : Nat) {t : State} (e : execXlatInval v s = .next t) :
    Foot W s t := by
  unfold execXlatInval at e
  refine run_foot e ?_
  intro s' h
  repeat' first
    | with_reducible assumption
    | intro _
    | with_reducible apply onBox_foot
    | with_reducible apply onCtx_foot (hW := (less hW))
    | with_reducible apply replySt_foot (hW := (less hW))
    | with_reducible apply tlbDrop_foot (hW := (less hW))
    | with_reducible apply Foot.ite

theorem execMemAlloc_foot {W : List Area} {s : State} (hW : [.cells, .mem, .fe, .ic, .mbx, .err, .freeCtr] ⊆ W) (v : Nat) {t : State} (e : execMemAlloc v s = .next t) :
    Foot W s t := by
  unfold execMemAlloc at e
  refine run_foot e ?_
  intro s' h
  repeat' first
    | with_reducible assumption
    | intro _
    | with_reducible apply onBox_foot
    | with_reducible apply onCtx_foot (hW := (less hW))
    | with_reducible apply heapAlloc_foot (hW := (less hW))
    | with_reducible apply replyBox_foot (hW := (less hW))
    | with_reducible apply replySt_foot (hW := (less hW))
    | with_reducible apply Foot.ite
    | with_reducible refine Foot.snd (by assumption) ?_
    | split
    | dsimp only

theorem execMemLookup_foot {W : List Area} {s : State} (hW : [.ic, .mbx] ⊆ W) (v : Nat) {t : State} (e : execMemLookup v s = .next t) :
    Foot W s t := by
  unfold execMemLookup at e
  refine run_foot e ?_
  intro s' h
  repeat' first
    | with_reducible assumption
    | intro _
    | with_reducible apply onBox_foot
    | with_reducible apply onCtx_foot (hW := (less hW))
    | with_reducible apply replyBox_foot (hW := (less hW))
    | with_reducible apply replySt_foot (hW := (less hW))
    | with_reducible apply Foot.ite
    | split

theorem onAlloc_foot {W : List Area} {r s : State} (hW : [.ic, .mbx] ⊆ W) (v : Nat) (f : Nat → State → State) (h_f : ∀ y0 s', Foot W r s' → Foot W r (f y0 s')) (h : Foot W r s) :
    Foot W r (onAlloc v f s) := by
  unfold onAlloc
  repeat' first
    | with_reducible assumption
    | intro _
    | with_reducible apply replySt_foot (hW := (less hW))
    | apply h_f
    | with_reducible apply Foot.ite
    | split

theorem execMemShare_foot {W : List Area} {s : State} (hW : [.cells, .mem, .fe, .ic, .mbx, .err, .freeCtr] ⊆ W) (v : Nat) {t : State} (e : execMemShare v s = .next t) :
    Foot W s t := by
  unfold execMemShare at e
  refine run_foot e ?_
  intro s' h
  repeat' first
    | with_reducible assumption
    | intro _
    | with_reducible apply onBox_foot
    | with_reducible apply onAlloc_foot (hW := (less hW))
    | with_reducible apply replySt_foot (hW := (less hW))
    | with_reducible refine mapAlloc_foot (less hW) _ _ (by assumption) ?_
    | with_reducible apply replyBox_foot (hW := (less hW))
    | with_reducible apply Foot.ite
    | split

theorem execMemUnmap_foot {W : List Area} {s : State} (hW : [.cells, .mem, .fe, .ic, .mbx, .err, .freeCtr] ⊆ W) (v : Nat) {t : State} (e : execMemUnmap v s = .next t) :
    Foot W s t := by
  unfold execMemUnmap at e
  refine run_foot e ?_
  intro s' h
  repeat' first
    | with_reducible assumption
    | intro _
    | with_reducible apply onBox_foot
    | with_reducible apply onCtx_foot (hW := (less hW))
    | with_reducible apply heapFree_foot (hW := (less hW))
    | with_reducible apply replySt_foot (hW := (less hW))
    | with_reducible apply Foot.ite

theorem execMemRef_foot {W : List Area} {s : State} (hW : [.fe, .ic, .mbx] ⊆ W) (v : Nat) {t : State} (e : execMemRef v s = .next t) :
    Foot W s t := by
  unfold execMemRef at e
  refine run_foot e ?_
  intro s' h
  repeat' first
    | with_reducible assumption
    | intro _
    | with_reducible apply onBox_foot
    | with_reducible apply onAlloc_foot (hW := (less hW))
    | with_reducible apply replySt_foot (hW := (less hW))
    | with_reducible apply modAlloc_foot (hW := (less hW))
    | with_reducible apply Foot.ite

theorem execMemUnref_foot {W : List Area} {s : State} (hW : [.fe, .ic, .mbx] ⊆ W) (v : Nat) {t : State} (e : execMemUnref v s = .next t) :
    Foot W s t := by
  unfold execMemUnref at e
  refine run_foot e ?_
  intro s' h
  repeat' first
    | with_reducible assumption
    | intro _
    | with_reducible apply onBox_foot
    | with_reducible apply onAlloc_foot (hW := (less hW))
    | with_reducible apply replySt_foot (hW := (less hW))
    | with_reducible apply allocCheck_foot (hW := (less hW))
    | with_reducible apply modAlloc_foot (hW := (less hW))
    | with_reducible apply Foot.ite

theorem execTwSet_foot {W : List Area} {s : State} (hW : [.cells, .mem, .rg, .arr, .fab, .sg, .fe, .tw, .ic, .mbx, .err, .csb, .ports, .freeCtr] ⊆ W) (v : Nat) {t : State} (e : execTwSet v s = .next t) :
    Foot W s t := by
  unfold execTwSet at e
  refine run_foot e ?_
  intro s' h
  repeat' first
    | with_reducible assumption
    | intro _
    | with_reducible apply onBox_foot
    | with_reducible apply replySt_foot (hW := (less hW))
    | with_reducible apply tallySet_foot (hW := (less hW))
    | with_reducible apply Foot.ite

theorem execTwGet_foot {W : List Area} {s : State} (hW : [.ic, .mbx] ⊆ W) (v : Nat) {t : State} (e : execTwGet v s = .next t) :
    Foot W s t := by
  unfold execTwGet at e
  refine run_foot e ?_
  intro s' h
  repeat' first
    | with_reducible assumption
    | intro _
    | with_reducible apply onBox_foot
    | with_reducible apply replyBox_foot (hW := (less hW))
    | with_reducible apply replySt_foot (hW := (less hW))
    | with_reducible apply Foot.ite

theorem onBar_foot {W : List Area} {r s : State} (hW : [.ic, .mbx] ⊆ W) (v : Nat) (f : Nat → State → State) (h_f : ∀ y0 s', Foot W r s' → Foot W r (f y0 s')) (h : Foot W r s) :
    Foot W r (onBar v f s) := by
  unfold onBar
  repeat' first
    | with_reducible assumption
    | intro _
    | with_reducible apply replySt_foot (hW := (less hW))
    | apply h_f
    | with_reducible apply Foot.ite

theorem execBarrierBind_foot {W : List Area} {s : State} (hW : [.fe, .tw, .ic, .mbx] ⊆ W) (v : Nat) {t : State} (e : execBarrierBind v s = .next t) :
    Foot W s t := by
  unfold execBarrierBind at e
  refine run_foot e ?_
  intro s' h
  repeat' first
    | with_reducible assumption
    | intro _
    | with_reducible apply onBox_foot
    | with_reducible apply replySt_foot (hW := (less hW))
    | with_reducible apply onBar_foot (hW := (less hW))
    | with_reducible apply unbindBar_foot (hW := (less hW))
    | with_reducible apply ctxTake_foot (hW := (less hW))
    | with_reducible apply modBar_foot (hW := (less hW))
    | with_reducible apply Foot.ite
    | split

theorem execBarrierUnbind_foot {W : List Area} {s : State} (hW : [.fe, .tw, .ic, .mbx] ⊆ W) (v : Nat) {t : State} (e : execBarrierUnbind v s = .next t) :
    Foot W s t := by
  unfold execBarrierUnbind at e
  refine run_foot e ?_
  intro s' h
  repeat' first
    | with_reducible assumption
    | intro _
    | with_reducible apply onBox_foot
    | with_reducible apply onBar_foot (hW := (less hW))
    | with_reducible apply replySt_foot (hW := (less hW))
    | with_reducible apply unbindBar_foot (hW := (less hW))
    | with_reducible apply Foot.ite

end Sys2Proof.Laws
end

