-- ==== Sys2Proof/Laws/FootEqiOps.lean ====
section
/-!
SUPPORT. Footprints of the operations of Machine/EqiOps.lean.
-/
namespace Sys2Proof.Laws
open Sys2Proof Sys2Proof.Machine
set_option Elab.async false

theorem badSlot_foot {W : List Area} {r s : State} (hW : [.fe, .ic, .err] ⊆ W) (q : Nat) (kind : Nat) (va : Nat) (h : Foot W r s) :
    Foot W r (badSlot q kind va s) := by
  unfold badSlot
  repeat' first
    | with_reducible assumption
    | intro _
    | with_reducible apply recordFault_foot (hW := (less hW))
    | with_reducible apply markGuilty_foot (hW := (less hW))
    | with_reducible apply owe_foot (hW := (less hW))

theorem acceptCmd_foot {W : List Area} {r s : State} (hW : [.mem, .rg, .fab, .fe, .ic, .err, .ports] ⊆ W) (q : Nat) (code : Nat → Bool) (host : HostData) (f : List Byte → CmdEnt → State → State) (h_f : ∀ y0 y1 s', Foot W r s' → Foot W r (f y0 y1 s')) (h : Foot W r s) :
    Foot W r (acceptCmd q code host f s) := by
  unfold acceptCmd
  repeat' first
    | with_reducible assumption
    | intro _
    | with_reducible apply reading_foot (hW := (less hW))
    | with_reducible apply badSlot_foot (hW := (less hW))
    | with_reducible apply modQueue_foot (hW := (less hW))
    | with_reducible apply touchCtl_foot (hW := (less hW))
    | with_reducible apply cmdFault_foot (hW := (less hW))
    | with_reducible apply addCmd_foot (hW := (less hW))
    | apply h_f
    | with_reducible apply Foot.ite
    | split

theorem acceptBad_foot {W : List Area} {r s : State} (hW : [.fe, .ic, .err] ⊆ W) (q : Nat) (a1 : CmdEnt) (h : Foot W r s) :
    Foot W r (acceptBad q a1 s) := by
  unfold acceptBad
  repeat' first
    | with_reducible assumption
    | intro _
    | with_reducible apply cmdFault_foot (hW := (less hW))
    | with_reducible apply addCmd_foot (hW := (less hW))

theorem patchBusy_foot {W : List Area} {r s : State} (hW : [.fe] ⊆ W) (q : Nat) (a1 : CmdEnt) (h : Foot W r s) :
    Foot W r (patchBusy q a1 s) := by
  unfold patchBusy
  repeat' first
    | with_reducible assumption
    | intro _
    | with_reducible apply modQueue_foot (hW := (less hW))
    | with_reducible apply owe_foot (hW := (less hW))

theorem doPatch_foot {W : List Area} {r s : State} (hW : [.mem, .rg, .fe, .ic, .err, .ports] ⊆ W) (q : Nat) (recs : HostData) (a2 : CmdEnt) (h : Foot W r s) :
    Foot W r (doPatch q recs a2 s) := by
  unfold doPatch
  repeat' first
    | with_reducible assumption
    | intro _
    | with_reducible apply acceptBad_foot (hW := (less hW))
    | with_reducible apply cmdFault_foot (hW := (less hW))
    | with_reducible apply recordFault_foot (hW := (less hW))
    | with_reducible apply addCmd_foot (hW := (less hW))
    | with_reducible apply touchCtl_foot (hW := (less hW))
    | with_reducible apply patchBusy_foot (hW := (less hW))
    | with_reducible apply settle_foot (hW := (less hW))
    | with_reducible apply modGraph_foot (hW := (less hW))
    | with_reducible apply Foot.ite
    | split

theorem writeEntry_foot {W : List Area} {r s : State} (hW : [.cells, .mem, .rg, .fab, .fe, .ic, .err, .csb, .ports, .freeCtr] ⊆ W) (q : Nat) (h : Foot W r s) :
    Foot W r (writeEntry q s) := by
  unfold writeEntry
  repeat' first
    | with_reducible assumption
    | intro _
    | with_reducible apply modQueue_foot (hW := (less hW))
    | with_reducible apply recordFault_foot (hW := (less hW))
    | with_reducible apply reportCe_foot (hW := (less hW))
    | with_reducible apply writeCtl_foot (hW := (less hW))
    | with_reducible apply arrive_foot (hW := (less hW))
    | with_reducible apply Foot.ite
    | split
    | dsimp only

theorem storeGraph_foot {W : List Area} {r s : State} (hW : [.fe, .freeCtr] ⊆ W) (c : Nat) (x : Image) (bytes : Nat) {k : Nat} {t : State} (e : storeGraph c x bytes s = some (k, t)) (h : Foot W r s) :
    Foot W r t := by
  unfold storeGraph at e
  try dsimp only at e
  repeat' first
    | split at e
  all_goals first
    | (simp only [reduceCtorEq] at e; done)
    | (simp only [Option.some.injEq, Prod.mk.injEq, Except.ok.injEq] at e; obtain ⟨_, e⟩ := e; subst e)
  repeat' first
    | with_reducible assumption
    | intro _
    | with_reducible refine placeAt_foot (less hW) _ _ _ _ _ (by assumption) ?_
    | with_reducible refine chooseFree_foot (less hW) _ _ (by assumption) ?_
    | with_reducible apply ctxTake_foot (hW := (less hW))
    | with_reducible apply modGraph_foot (hW := (less hW))

end Sys2Proof.Laws
end

