-- ==== Sys2Proof/Laws/FootEqi.lean ====
section
/-!
SUPPORT. Footprints of the operations of Machine/Eqi.lean.
-/
namespace Sys2Proof.Laws
open Sys2Proof Sys2Proof.Machine
set_option Elab.async false

theorem dropBell_foot {W : List Area} {r s : State} (hW : [.fe] ⊆ W) (q : Nat) (h : Foot W r s) :
    Foot W r (dropBell q s) := by
  unfold dropBell
  repeat' first
    | with_reducible assumption
    | intro _
    | with_reducible apply modQueue_foot (hW := (less hW))

theorem strayBell_foot {W : List Area} {r s : State} (hW : [.fe, .ic, .err] ⊆ W) (q : Nat) (h : Foot W r s) :
    Foot W r (strayBell q s) := by
  unfold strayBell
  repeat' first
    | with_reducible assumption
    | intro _
    | with_reducible apply reportCe_foot (hW := (less hW))
    | with_reducible apply dropBell_foot (hW := (less hW))

theorem doorbell_foot {W : List Area} {r s : State} (hW : [.fe, .ic, .err] ⊆ W) (v : Nat) (i : Nat) (f : Nat → State → State) (h_f : ∀ y0 s', Foot W r s' → Foot W r (f y0 s')) (h : Foot W r s) :
    Foot W r (doorbell v i f s) := by
  unfold doorbell
  repeat' first
    | with_reducible assumption
    | intro _
    | with_reducible apply guarded_foot
    | with_reducible apply hostCe_foot (hW := (less hW))
    | with_reducible apply modVai_foot (hW := (less hW))
    | with_reducible apply dropBell_foot (hW := (less hW))
    | apply h_f
    | with_reducible apply Foot.ite
    | split

theorem execDbSqTail_foot {W : List Area} {s : State} (hW : [.fe, .ic, .err] ⊆ W) (v : Nat) (q : Nat) (val : W32) {t : State} (e : execDbSqTail v q val s = .next t) :
    Foot W s t := by
  unfold execDbSqTail at e
  refine run_foot e ?_
  intro s' h
  repeat' first
    | with_reducible assumption
    | intro _
    | with_reducible apply doorbell_foot (hW := (less hW))
    | with_reducible apply strayBell_foot (hW := (less hW))
    | with_reducible apply modQueue_foot (hW := (less hW))
    | with_reducible apply Foot.ite

theorem execDbCqHead_foot {W : List Area} {s : State} (hW : [.cells, .mem, .rg, .fab, .fe, .ic, .err, .csb, .ports, .freeCtr] ⊆ W) (v : Nat) (q : Nat) (val : W32) {t : State} (e : execDbCqHead v q val s = .next t) :
    Foot W s t := by
  unfold execDbCqHead at e
  refine run_foot e ?_
  intro s' h
  repeat' first
    | with_reducible assumption
    | intro _
    | with_reducible apply doorbell_foot (hW := (less hW))
    | with_reducible apply dropBell_foot (hW := (less hW))
    | with_reducible apply modQueue_foot (hW := (less hW))
    | with_reducible apply writeEntry_foot (hW := (less hW))
    | with_reducible apply Foot.ite

theorem execDbArm_foot {W : List Area} {s : State} (hW : [.fe, .ic, .err] ⊆ W) (v : Nat) (q : Nat) (val : W32) {t : State} (e : execDbArm v q val s = .next t) :
    Foot W s t := by
  unfold execDbArm at e
  refine run_foot e ?_
  intro s' h
  repeat' first
    | with_reducible assumption
    | intro _
    | with_reducible apply doorbell_foot (hW := (less hW))
    | with_reducible apply strayBell_foot (hW := (less hW))
    | with_reducible apply arrive_foot (hW := (less hW))
    | with_reducible apply modQueue_foot (hW := (less hW))
    | with_reducible apply Foot.ite

theorem queueCreate_foot {W : List Area} {r s : State} (hW : [.mem, .rg, .fab, .fe, .ic, .mbx, .err, .ports, .freeCtr] ⊆ W) (v : Nat) (c : Nat) (host : HostData) (h : Foot W r s) :
    Foot W r (queueCreate v c host s) := by
  unfold queueCreate
  repeat' first
    | with_reducible assumption
    | intro _
    | with_reducible apply reading_foot (hW := (less hW))
    | with_reducible apply replySt_foot (hW := (less hW))
    | with_reducible apply touchCtl_foot (hW := (less hW))
    | with_reducible refine chooseFree_foot (less hW) _ _ (by assumption) ?_
    | with_reducible apply modQueue_foot (hW := (less hW))
    | with_reducible apply replyBox_foot (hW := (less hW))
    | with_reducible apply ctxTake_foot (hW := (less hW))
    | with_reducible apply modSrc_foot (hW := (less hW))
    | with_reducible apply Foot.ite
    | split

theorem execQueueCreate_foot {W : List Area} {s : State} (hW : [.mem, .rg, .fab, .fe, .ic, .mbx, .err, .ports, .freeCtr] ⊆ W) (v : Nat) (host : HostData) {t : State} (e : execQueueCreate v host s = .next t) :
    Foot W s t := by
  unfold execQueueCreate at e
  refine run_foot e ?_
  intro s' h
  repeat' first
    | with_reducible assumption
    | intro _
    | with_reducible apply onBox_foot
    | with_reducible apply replySt_foot (hW := (less hW))
    | with_reducible apply queueCreate_foot (hW := (less hW))
    | with_reducible apply Foot.ite
    | split

theorem onQueue_foot {W : List Area} {r s : State} (hW : [.ic, .mbx] ⊆ W) (v : Nat) (f : Nat → State → State) (h_f : ∀ y0 s', Foot W r s' → Foot W r (f y0 s')) (h : Foot W r s) :
    Foot W r (onQueue v f s) := by
  unfold onQueue
  repeat' first
    | with_reducible assumption
    | intro _
    | with_reducible apply replySt_foot (hW := (less hW))
    | apply h_f
    | with_reducible apply Foot.ite

theorem execQueueDestroy_foot {W : List Area} {s : State} (hW : [.blk, .cells, .mem, .rg, .arr, .lce, .fab, .sg, .fe, .tw, .ic, .mbx, .err, .csb, .ports, .freeCtr] ⊆ W) (v : Nat) {t : State} (e : execQueueDestroy v s = .next t) :
    Foot W s t := by
  unfold execQueueDestroy at e
  refine run_foot e ?_
  intro s' h
  repeat' first
    | with_reducible assumption
    | intro _
    | with_reducible apply onBox_foot
    | with_reducible apply onQueue_foot (hW := (less hW))
    | with_reducible apply replySt_foot (hW := (less hW))
    | with_reducible apply refillAll_foot (hW := (less hW))
    | with_reducible apply reissueAll_foot (hW := (less hW))
    | with_reducible apply destroyQueue_foot (hW := (less hW))
    | with_reducible apply abandonQueue_foot (hW := (less hW))
    | with_reducible apply Foot.ite

theorem holdWait_foot {W : List Area} {r s : State} (hW : [.fe, .ic, .err] ⊆ W) (q : Nat) (a1 : CmdEnt) (h : Foot W r s) :
    Foot W r (holdWait q a1 s) := by
  unfold holdWait
  repeat' first
    | with_reducible assumption
    | intro _
    | with_reducible apply acceptBad_foot (hW := (less hW))
    | with_reducible apply modFence_foot (hW := (less hW))
    | with_reducible apply testWait_foot (hW := (less hW))
    | with_reducible apply modQueue_foot (hW := (less hW))
    | with_reducible apply Foot.ite
    | exact Or.inl (hW (by decide))
    | with_reducible exact Or.inr rfl
    | with_reducible exact id
    | with_reducible exact Nat.le_refl _
    | (simp only [Foot.lit_eq]; with_reducible apply Foot.litL rfl)
    | split

theorem queueResume_foot {W : List Area} {r s : State} (hW : [.fe, .ic, .err] ⊆ W) (q : Nat) (skip : Bool) (h : Foot W r s) :
    Foot W r (queueResume q skip s) := by
  unfold queueResume
  repeat' first
    | with_reducible assumption
    | intro _
    | with_reducible apply modQueue_foot (hW := (less hW))
    | with_reducible apply fenceDrop_foot (hW := (less hW))
    | with_reducible apply holdWait_foot (hW := (less hW))
    | with_reducible apply testWait_foot (hW := (less hW))
    | with_reducible apply Foot.ite
    | split
    | dsimp only

theorem execQueueResume_foot {W : List Area} {s : State} (hW : [.fe, .ic, .mbx, .err] ⊆ W) (v : Nat) {t : State} (e : execQueueResume v s = .next t) :
    Foot W s t := by
  unfold execQueueResume at e
  refine run_foot e ?_
  intro s' h
  repeat' first
    | with_reducible assumption
    | intro _
    | with_reducible apply onBox_foot
    | with_reducible apply onQueue_foot (hW := (less hW))
    | with_reducible apply replySt_foot (hW := (less hW))
    | with_reducible apply queueResume_foot (hW := (less hW))
    | with_reducible apply Foot.ite

theorem execNopCommand_foot {W : List Area} {s : State} (hW : [.mem, .rg, .fab, .fe, .ic, .err, .ports] ⊆ W) (q : Nat) (host : HostData) {t : State} (e : execNopCommand q host s = .next t) :
    Foot W s t := by
  unfold execNopCommand at e
  refine run_foot e ?_
  intro s' h
  repeat' first
    | with_reducible assumption
    | intro _
    | with_reducible apply acceptCmd_foot (hW := (less hW))
    | with_reducible apply settle_foot (hW := (less hW))
    | with_reducible apply addCmd_foot (hW := (less hW))

theorem execTask_foot {W : List Area} {s : State} (hW : [.mem, .rg, .fab, .fe, .ic, .err, .ports] ⊆ W) (q : Nat) (host : HostData) {t : State} (e : execTask q host s = .next t) :
    Foot W s t := by
  unfold execTask at e
  refine run_foot e ?_
  intro s' h
  repeat' first
    | with_reducible assumption
    | intro _
    | with_reducible apply guarded_foot
    | with_reducible apply acceptCmd_foot (hW := (less hW))
    | with_reducible apply addCmd_foot (hW := (less hW))
    | with_reducible apply issueTask_foot (hW := (less hW))

theorem holdLaunch_foot {W : List Area} {r s : State} (hW : [.fab, .fe, .ports] ⊆ W) (q : Nat) (host : HostData) (h : Foot W r s) :
    Foot W r (holdLaunch q host s) := by
  unfold holdLaunch
  repeat' first
    | with_reducible assumption
    | intro _
    | with_reducible apply reading_foot (hW := (less hW))
    | with_reducible apply modQueue_foot (hW := (less hW))
    | with_reducible apply Foot.ite
    | split

theorem execLaunch_foot {W : List Area} {s : State} (hW : [.mem, .rg, .fab, .fe, .ic, .err, .ports] ⊆ W) (q : Nat) (host : HostData) {t : State} (e : execLaunch q host s = .next t) :
    Foot W s t := by
  unfold execLaunch at e
  refine run_foot e ?_
  intro s' h
  repeat' first
    | with_reducible assumption
    | intro _
    | with_reducible apply holdLaunch_foot (hW := (less hW))
    | with_reducible apply acceptCmd_foot (hW := (less hW))
    | with_reducible apply acceptBad_foot (hW := (less hW))
    | with_reducible apply addCmd_foot (hW := (less hW))
    | with_reducible apply modGraph_foot (hW := (less hW))
    | with_reducible apply Foot.ite
    | exact Or.inl (hW (by decide))
    | with_reducible exact Or.inr rfl
    | with_reducible exact id
    | with_reducible exact Nat.le_refl _
    | (simp only [Foot.lit_eq]; with_reducible apply Foot.litL rfl)
    | split

theorem readingPatch_foot {W : List Area} {r s : State} (hW : [.fab, .ports] ⊆ W) (q : Nat) (host : HostData) (f : State → State) (h_f : ∀ s', Foot W r s' → Foot W r (f s')) (h : Foot W r s) :
    Foot W r (readingPatch q host f s) := by
  unfold readingPatch
  repeat' first
    | with_reducible assumption
    | intro _
    | with_reducible apply reading_foot (hW := (less hW))
    | apply h_f
    | with_reducible apply Foot.ite
    | split

theorem execPatch_foot {W : List Area} {s : State} (hW : [.mem, .rg, .fab, .fe, .ic, .err, .ports] ⊆ W) (q : Nat) (host : HostData) (recs : HostData) {t : State} (e : execPatch q host recs s = .next t) :
    Foot W s t := by
  unfold execPatch at e
  refine run_foot e ?_
  intro s' h
  repeat' first
    | with_reducible assumption
    | intro _
    | with_reducible apply reading_foot (hW := (less hW))
    | with_reducible apply doPatch_foot (hW := (less hW))
    | with_reducible apply modQueue_foot (hW := (less hW))
    | with_reducible apply readingPatch_foot (hW := (less hW))
    | with_reducible apply acceptCmd_foot (hW := (less hW))
    | with_reducible apply Foot.ite
    | split
    | dsimp only

theorem execWaitCommand_foot {W : List Area} {s : State} (hW : [.mem, .rg, .fab, .fe, .ic, .err, .ports] ⊆ W) (q : Nat) (host : HostData) {t : State} (e : execWaitCommand q host s = .next t) :
    Foot W s t := by
  unfold execWaitCommand at e
  refine run_foot e ?_
  intro s' h
  repeat' first
    | with_reducible assumption
    | intro _
    | with_reducible apply acceptCmd_foot (hW := (less hW))
    | with_reducible apply holdWait_foot (hW := (less hW))

theorem execSignalCommand_foot {W : List Area} {s : State} (hW : [.mem, .rg, .fab, .fe, .ic, .err, .ports] ⊆ W) (q : Nat) (host : HostData) {t : State} (e : execSignalCommand q host s = .next t) :
    Foot W s t := by
  unfold execSignalCommand at e
  refine run_foot e ?_
  intro s' h
  repeat' first
    | with_reducible assumption
    | intro _
    | with_reducible apply acceptCmd_foot (hW := (less hW))
    | with_reducible apply acceptBad_foot (hW := (less hW))
    | with_reducible apply addCmd_foot (hW := (less hW))
    | with_reducible apply modFence_foot (hW := (less hW))
    | with_reducible apply Foot.ite
    | split

theorem execSignalPerform_foot {W : List Area} {s : State} (hW : [.cells, .mem, .rg, .fab, .fe, .ic, .err, .csb, .ports, .freeCtr] ⊆ W) (q : Nat) {t : State} (e : execSignalPerform q s = .next t) :
    Foot W s t := by
  unfold execSignalPerform at e
  refine run_foot e ?_
  intro s' h
  repeat' first
    | with_reducible assumption
    | intro _
    | with_reducible apply guarded_foot
    | with_reducible apply completeCmd_foot (hW := (less hW))
    | with_reducible apply fenceSignal_foot (hW := (less hW))
    | with_reducible apply Foot.ite
    | split

theorem execCompletionEntryWrite_foot {W : List Area} {s : State} (hW : [.cells, .mem, .rg, .fab, .fe, .ic, .err, .csb, .ports, .freeCtr] ⊆ W) (q : Nat) {t : State} (e : execCompletionEntryWrite q s = .next t) :
    Foot W s t := by
  unfold execCompletionEntryWrite at e
  refine run_foot e ?_
  intro s' h
  repeat' first
    | with_reducible assumption
    | intro _
    | with_reducible apply guarded_foot
    | with_reducible apply writeEntry_foot (hW := (less hW))

end Sys2Proof.Laws
end

