-- ==== Sys2Proof/Laws/FootObjects.lean ====
section
/-!
SUPPORT. Footprints of the operations of Machine/Objects.lean.
-/
namespace Sys2Proof.Laws
open Sys2Proof Sys2Proof.Machine
set_option Elab.async false

theorem graphRegister_foot {W : List Area} {r s : State} (hW : [.mem, .rg, .fab, .fe, .ic, .mbx, .err, .ports, .freeCtr] ⊆ W) (v : Nat) (c : Nat) (host : HostData) (h : Foot W r s) :
    Foot W r (graphRegister v c host s) := by
  unfold graphRegister
  repeat' first
    | with_reducible assumption
    | intro _
    | with_reducible apply reading_foot (hW := (less hW))
    | with_reducible apply replySt_foot (hW := (less hW))
    | with_reducible apply touchCtl_foot (hW := (less hW))
    | with_reducible refine storeGraph_foot (less hW) _ _ _ (by assumption) ?_
    | with_reducible apply replyBox_foot (hW := (less hW))
    | with_reducible apply Foot.ite
    | split
    | dsimp only

theorem execGraphRegister_foot {W : List Area} {s : State} (hW : [.mem, .rg, .fab, .fe, .ic, .mbx, .err, .ports, .freeCtr] ⊆ W) (v : Nat) (host : HostData) {t : State} (e : execGraphRegister v host s = .next t) :
    Foot W s t := by
  unfold execGraphRegister at e
  refine run_foot e ?_
  intro s' h
  repeat' first
    | with_reducible assumption
    | intro _
    | with_reducible apply onBox_foot
    | with_reducible apply replySt_foot (hW := (less hW))
    | with_reducible apply graphRegister_foot (hW := (less hW))
    | with_reducible apply Foot.ite
    | split

theorem execGraphRelease_foot {W : List Area} {s : State} (hW : [.fe, .ic, .mbx] ⊆ W) (v : Nat) {t : State} (e : execGraphRelease v s = .next t) :
    Foot W s t := by
  unfold execGraphRelease at e
  refine run_foot e ?_
  intro s' h
  repeat' first
    | with_reducible assumption
    | intro _
    | with_reducible apply onBox_foot
    | with_reducible apply replySt_foot (hW := (less hW))
    | with_reducible apply graphDrop_foot (hW := (less hW))
    | with_reducible apply modGraph_foot (hW := (less hW))
    | with_reducible apply Foot.ite
    | split

theorem execFenceCreate_foot {W : List Area} {s : State} (hW : [.fe, .ic, .mbx, .freeCtr] ⊆ W) (v : Nat) {t : State} (e : execFenceCreate v s = .next t) :
    Foot W s t := by
  unfold execFenceCreate at e
  refine run_foot e ?_
  intro s' h
  repeat' first
    | with_reducible assumption
    | intro _
    | with_reducible apply onBox_foot
    | with_reducible apply replySt_foot (hW := (less hW))
    | with_reducible refine chooseFree_foot (less hW) _ _ (by assumption) ?_
    | with_reducible apply modFence_foot (hW := (less hW))
    | with_reducible apply replyBox_foot (hW := (less hW))
    | with_reducible apply Foot.ite
    | split

theorem onFence_foot {W : List Area} {r s : State} (hW : [.ic, .mbx] ⊆ W) (v : Nat) (f : Nat → State → State) (h_f : ∀ y0 s', Foot W r s' → Foot W r (f y0 s')) (h : Foot W r s) :
    Foot W r (onFence v f s) := by
  unfold onFence
  repeat' first
    | with_reducible assumption
    | intro _
    | with_reducible apply replySt_foot (hW := (less hW))
    | apply h_f
    | with_reducible apply Foot.ite
    | split

theorem execFenceDestroy_foot {W : List Area} {s : State} (hW : [.fe, .ic, .mbx] ⊆ W) (v : Nat) {t : State} (e : execFenceDestroy v s = .next t) :
    Foot W s t := by
  unfold execFenceDestroy at e
  refine run_foot e ?_
  intro s' h
  repeat' first
    | with_reducible assumption
    | intro _
    | with_reducible apply onBox_foot
    | with_reducible apply onFence_foot (hW := (less hW))
    | with_reducible apply replySt_foot (hW := (less hW))
    | with_reducible apply fenceDrop_foot (hW := (less hW))
    | with_reducible apply modFence_foot (hW := (less hW))
    | with_reducible apply Foot.ite

theorem fenceError_foot {W : List Area} {r s : State} (hW : [.cells, .mem, .rg, .fab, .fe, .ic, .err, .csb, .ports, .freeCtr] ⊆ W) (f : Nat) (v : W64) (code : Nat) (h : Foot W r s) :
    Foot W r (fenceError f v code s) := by
  unfold fenceError
  repeat' first
    | with_reducible assumption
    | intro _
    | with_reducible apply fenceChanged_foot (hW := (less hW))
    | with_reducible apply modFence_foot (hW := (less hW))
    | with_reducible apply fenceFail_foot (hW := (less hW))
    | with_reducible apply Foot.ite

theorem execFenceSignal_foot {W : List Area} {s : State} (hW : [.cells, .mem, .rg, .fab, .fe, .ic, .mbx, .err, .csb, .ports, .freeCtr] ⊆ W) (v : Nat) {t : State} (e : execFenceSignal v s = .next t) :
    Foot W s t := by
  unfold execFenceSignal at e
  refine run_foot e ?_
  intro s' h
  repeat' first
    | with_reducible assumption
    | intro _
    | with_reducible apply onBox_foot
    | with_reducible apply onFence_foot (hW := (less hW))
    | with_reducible apply replySt_foot (hW := (less hW))
    | with_reducible apply fenceSignal_foot (hW := (less hW))
    | with_reducible apply fenceError_foot (hW := (less hW))
    | with_reducible apply Foot.ite

theorem execFenceQuery_foot {W : List Area} {s : State} (hW : [.ic, .mbx] ⊆ W) (v : Nat) {t : State} (e : execFenceQuery v s = .next t) :
    Foot W s t := by
  unfold execFenceQuery at e
  refine run_foot e ?_
  intro s' h
  repeat' first
    | with_reducible assumption
    | intro _
    | with_reducible apply onBox_foot
    | with_reducible apply onFence_foot (hW := (less hW))
    | with_reducible apply replyBox_foot (hW := (less hW))

theorem execHqCreate_foot {W : List Area} {s : State} (hW : [.fe, .ic, .mbx] ⊆ W) (v : Nat) {t : State} (e : execHqCreate v s = .next t) :
    Foot W s t := by
  unfold execHqCreate at e
  refine run_foot e ?_
  intro s' h
  repeat' first
    | with_reducible assumption
    | intro _
    | with_reducible apply onBox_foot
    | with_reducible apply replySt_foot (hW := (less hW))
    | with_reducible apply ctxTake_foot (hW := (less hW))
    | with_reducible apply modHq_foot (hW := (less hW))
    | with_reducible apply Foot.ite
    | split

theorem execHqDestroy_foot {W : List Area} {s : State} (hW : [.fe, .ic, .mbx] ⊆ W) (v : Nat) {t : State} (e : execHqDestroy v s = .next t) :
    Foot W s t := by
  unfold execHqDestroy at e
  refine run_foot e ?_
  intro s' h
  repeat' first
    | with_reducible assumption
    | intro _
    | with_reducible apply onBox_foot
    | with_reducible apply replySt_foot (hW := (less hW))
    | with_reducible apply each_foot
    | with_reducible apply hqReturn_foot (hW := (less hW))
    | with_reducible apply unbindHq_foot (hW := (less hW))
    | with_reducible apply Foot.ite

end Sys2Proof.Laws
end

