-- ==== Sys2Proof/Laws/FootSealOps.lean ====
section
/-!
SUPPORT. Footprints of the operations of Machine/SealOps.lean.
-/
namespace Sys2Proof.Laws
open Sys2Proof Sys2Proof.Machine
set_option Elab.async false

theorem unbindPart_foot {W : List Area} {r s : State} (hW : [.csb] ⊆ W) (p : Nat) (h : Foot W r s) :
    Foot W r (unbindPart p s) := by
  unfold unbindPart
  repeat' first
    | with_reducible assumption
    | intro _
    | with_reducible apply Foot.ite
    | exact Or.inl (hW (by decide))
    | with_reducible exact Or.inr rfl
    | with_reducible exact id
    | with_reducible exact Nat.le_refl _
    | (simp only [Foot.lit_eq]; with_reducible apply Foot.litL rfl)

theorem dropSession_foot {W : List Area} {r s : State} (hW : [.csb] ⊆ W) (k : Nat) (h : Foot W r s) :
    Foot W r (dropSession k s) := by
  unfold dropSession
  repeat' first
    | with_reducible assumption
    | intro _
    | with_reducible apply each_foot
    | with_reducible apply unbindPart_foot (hW := (less hW))
    | with_reducible apply Foot.ite
    | exact Or.inl (hW (by decide))
    | with_reducible exact Or.inr rfl
    | with_reducible exact id
    | with_reducible exact Nat.le_refl _
    | (simp only [Foot.lit_eq]; with_reducible apply Foot.litL rfl)

theorem dropBinder_foot {W : List Area} {r s : State} (hW : [.csb] ⊆ W) (p : Nat) (h : Foot W r s) :
    Foot W r (dropBinder p s) := by
  unfold dropBinder
  repeat' first
    | with_reducible assumption
    | intro _
    | with_reducible apply dropSession_foot (hW := (less hW))
    | with_reducible apply Foot.ite
    | split

end Sys2Proof.Laws
end

