-- ==== Sys2Proof/Laws/FootVais.lean ====
section
/-!
SUPPORT. Footprints of the operations of Machine/Vais.lean.
-/
namespace Sys2Proof.Laws
open Sys2Proof Sys2Proof.Machine
set_option Elab.async false

theorem holdQueues_foot {W : List Area} {r s : State} (hW : [.fe] ⊆ W) (v : Nat) (h : Foot W r s) :
    Foot W r (holdQueues v s) := by
  unfold holdQueues
  repeat' first
    | with_reducible assumption
    | intro _
    | with_reducible apply each_foot
    | with_reducible apply modQueue_foot (hW := (less hW))
    | with_reducible apply freeSlot_foot (hW := (less hW))
    | with_reducible apply Foot.ite

theorem freeQueues_foot {W : List Area} {r s : State} (hW : [.fe] ⊆ W) (v : Nat) (h : Foot W r s) :
    Foot W r (freeQueues v s) := by
  unfold freeQueues
  repeat' first
    | with_reducible assumption
    | intro _
    | with_reducible apply each_foot
    | with_reducible apply modQueue_foot (hW := (less hW))
    | with_reducible apply Foot.ite

theorem startScrub_foot {W : List Area} {r s : State} (hW : [.fe, .csb] ⊆ W) (p : Nat) (trigger : Nat) (h : Foot W r s) :
    Foot W r (startScrub p trigger s) := by
  unfold startScrub
  repeat' first
    | with_reducible assumption
    | intro _
    | with_reducible apply dropBinder_foot (hW := (less hW))
    | with_reducible apply holdQueues_foot (hW := (less hW))
    | with_reducible apply modVai_foot (hW := (less hW))
    | with_reducible apply Foot.ite
    | exact Or.inl (hW (by decide))
    | with_reducible exact Or.inr rfl
    | with_reducible exact id
    | with_reducible exact Nat.le_refl _
    | (simp only [Foot.lit_eq]; with_reducible apply Foot.litL rfl)
    | split

theorem clearUnits_foot {W : List Area} {r s : State} (hW : [.arr, .lce] ⊆ W) (p : Nat) (h : Foot W r s) :
    Foot W r (clearUnits p s) := by
  unfold clearUnits
  repeat' first
    | with_reducible assumption
    | intro _
    | with_reducible apply each_foot
    | with_reducible apply modArr_foot (hW := (less hW))
    | with_reducible apply modLce_foot (hW := (less hW))

theorem zeroTally_foot {W : List Area} {r s : State} (hW : [.tw] ⊆ W) (g : Nat) (h : Foot W r s) :
    Foot W r (zeroTally g s) := by
  unfold zeroTally
  repeat' first
    | with_reducible assumption
    | intro _
    | with_reducible apply Foot.ite
    | exact Or.inl (hW (by decide))
    | with_reducible exact Or.inr rfl
    | with_reducible exact id
    | with_reducible exact Nat.le_refl _
    | (simp only [Foot.lit_eq]; with_reducible apply Foot.litL rfl)

theorem scrubSteps_foot {W : List Area} {r s : State} (hW : [.cells, .mem, .arr, .lce, .fe, .tw] ⊆ W) (p : Nat) (h : Foot W r s) :
    Foot W r (scrubSteps p s) := by
  unfold scrubSteps
  repeat' first
    | with_reducible assumption
    | intro _
    | with_reducible apply clearUnits_foot (hW := (less hW))
    | with_reducible apply emptyHrc_foot (hW := (less hW))
    | with_reducible apply each_foot
    | with_reducible apply zeroMem_foot (hW := (less hW))
    | with_reducible apply zeroTally_foot (hW := (less hW))
    | with_reducible apply Foot.ite
    | exact Or.inl (hW (by decide))
    | with_reducible exact Or.inr rfl
    | with_reducible exact id
    | with_reducible exact Nat.le_refl _
    | (simp only [Foot.lit_eq]; with_reducible apply Foot.litL rfl)
    | split
    | dsimp only

theorem endScrub_foot {W : List Area} {r s : State} (hW : [.fe, .csb] ⊆ W) (p : Nat) (h : Foot W r s) :
    Foot W r (endScrub p s) := by
  unfold endScrub
  repeat' first
    | with_reducible assumption
    | intro _
    | with_reducible apply Foot.ite
    | exact Or.inl (hW (by decide))
    | with_reducible exact Or.inr rfl
    | with_reducible exact id
    | with_reducible exact Nat.le_refl _
    | (simp only [Foot.lit_eq]; with_reducible apply Foot.litL rfl)

theorem execVaiCreate_foot {W : List Area} {s : State} (hW : [.fe, .ic, .mbx] ⊆ W) {t : State} (e : execVaiCreate s = .next t) :
    Foot W s t := by
  unfold execVaiCreate at e
  refine run_foot e ?_
  intro s' h
  repeat' first
    | with_reducible assumption
    | intro _
    | with_reducible apply onBox_foot
    | with_reducible apply replySt_foot (hW := (less hW))
    | with_reducible apply modVai_foot (hW := (less hW))
    | with_reducible apply modSrc_foot (hW := (less hW))
    | with_reducible apply Foot.ite

theorem dropTally_foot {W : List Area} {r s : State} (hW : [.tw] ⊆ W) (g : Nat) (h : Foot W r s) :
    Foot W r (dropTally g s) := by
  unfold dropTally
  repeat' first
    | with_reducible assumption
    | intro _
    | with_reducible apply zeroTally_foot (hW := (less hW))
    | with_reducible apply Foot.ite
    | exact Or.inl (hW (by decide))
    | with_reducible exact Or.inr rfl
    | with_reducible exact id
    | with_reducible exact Nat.le_refl _
    | (simp only [Foot.lit_eq]; with_reducible apply Foot.litL rfl)

theorem endVai_foot {W : List Area} {r s : State} (hW : [.fe, .tw, .ic] ⊆ W) (v : Nat) (h : Foot W r s) :
    Foot W r (endVai v s) := by
  unfold endVai
  repeat' first
    | with_reducible assumption
    | intro _
    | with_reducible apply each_foot
    | with_reducible apply modFence_foot (hW := (less hW))
    | with_reducible apply dropTally_foot (hW := (less hW))
    | with_reducible apply modBar_foot (hW := (less hW))
    | with_reducible apply modHq_foot (hW := (less hW))
    | with_reducible apply modSrc_foot (hW := (less hW))
    | with_reducible apply modVai_foot (hW := (less hW))

theorem execVaiDestroy_foot {W : List Area} {s : State} (hW : [.fe, .tw, .ic, .mbx, .csb] ⊆ W) {t : State} (e : execVaiDestroy s = .next t) :
    Foot W s t := by
  unfold execVaiDestroy at e
  refine run_foot e ?_
  intro s' h
  repeat' first
    | with_reducible assumption
    | intro _
    | with_reducible apply onBox_foot
    | with_reducible apply replySt_foot (hW := (less hW))
    | with_reducible apply startScrub_foot (hW := (less hW))
    | with_reducible apply modVai_foot (hW := (less hW))
    | with_reducible apply endVai_foot (hW := (less hW))
    | with_reducible apply Foot.ite
    | exact Or.inl (hW (by decide))
    | with_reducible exact Or.inr rfl
    | with_reducible exact id
    | with_reducible exact Nat.le_refl _
    | (simp only [Foot.lit_eq]; with_reducible apply Foot.litL rfl)

theorem execRevokeZeroed_foot {W : List Area} {s : State} (hW : [.cells, .mem, .fe] ⊆ W) (scratch : Bool) (k : Nat) {t : State} (e : execRevokeZeroed scratch k s = .next t) :
    Foot W s t := by
  unfold execRevokeZeroed at e
  refine run_foot e ?_
  intro s' h
  repeat' first
    | with_reducible assumption
    | intro _
    | with_reducible apply guarded_foot
    | with_reducible apply zeroMem_foot (hW := (less hW))
    | with_reducible apply Foot.ite
    | exact Or.inl (hW (by decide))
    | with_reducible exact Or.inr rfl
    | with_reducible exact id
    | with_reducible exact Nat.le_refl _
    | (simp only [Foot.lit_eq]; with_reducible apply Foot.litL rfl)

theorem revokeItem_foot {W : List Area} {r s : State} (hW : [.fe] ⊆ W) (v : Nat) (kind : Nat) (k : Nat) (h : Foot W r s) :
    Foot W r (revokeItem v kind k s) := by
  unfold revokeItem
  repeat' first
    | with_reducible assumption
    | intro _
    | with_reducible apply modVai_foot (hW := (less hW))
    | with_reducible apply Foot.ite
    | exact Or.inl (hW (by decide))
    | with_reducible exact Or.inr rfl
    | with_reducible exact id
    | with_reducible exact Nat.le_refl _
    | (simp only [Foot.lit_eq]; with_reducible apply Foot.litL rfl)

theorem giveItem_foot {W : List Area} {r s : State} (hW : [.fe, .tw] ⊆ W) (v : Nat) (kind : Nat) (k : Nat) (h : Foot W r s) :
    Foot W r (giveItem v kind k s) := by
  unfold giveItem
  repeat' first
    | with_reducible assumption
    | intro _
    | with_reducible apply modBar_foot (hW := (less hW))
    | with_reducible apply modHq_foot (hW := (less hW))
    | with_reducible apply Foot.ite
    | exact Or.inl (hW (by decide))
    | with_reducible exact Or.inr rfl
    | with_reducible exact id
    | with_reducible exact Nat.le_refl _
    | (simp only [Foot.lit_eq]; with_reducible apply Foot.litL rfl)
    | split

theorem takeItem_foot {W : List Area} {r s : State} (hW : [.fe, .tw] ⊆ W) (v : Nat) (kind : Nat) (k : Nat) (h : Foot W r s) :
    Foot W r (takeItem v kind k s) := by
  unfold takeItem
  repeat' first
    | with_reducible assumption
    | intro _
    | with_reducible apply revokeItem_foot (hW := (less hW))
    | with_reducible apply dropTally_foot (hW := (less hW))
    | with_reducible apply modBar_foot (hW := (less hW))
    | with_reducible apply modHq_foot (hW := (less hW))
    | with_reducible apply Foot.ite
    | split

theorem execVaiGrant_foot {W : List Area} {s : State} (hW : [.lce, .fe, .tw, .ic, .mbx] ⊆ W) {t : State} (e : execVaiGrant s = .next t) :
    Foot W s t := by
  unfold execVaiGrant at e
  refine run_foot e ?_
  intro s' h
  repeat' first
    | with_reducible assumption
    | intro _
    | with_reducible apply onBox_foot
    | with_reducible apply replySt_foot (hW := (less hW))
    | with_reducible apply modVai_foot (hW := (less hW))
    | with_reducible apply each_foot
    | with_reducible apply takeItem_foot (hW := (less hW))
    | with_reducible apply giveItem_foot (hW := (less hW))
    | with_reducible apply emptyHrc_foot (hW := (less hW))
    | with_reducible apply Foot.ite

theorem execPartScratch_foot {W : List Area} {s : State} (hW : [.lce, .fe, .ic, .mbx] ⊆ W) {t : State} (e : execPartScratch s = .next t) :
    Foot W s t := by
  unfold execPartScratch at e
  refine run_foot e ?_
  intro s' h
  repeat' first
    | with_reducible assumption
    | intro _
    | with_reducible apply onBox_foot
    | with_reducible apply replySt_foot (hW := (less hW))
    | with_reducible apply emptyHrc_foot (hW := (less hW))
    | with_reducible apply modPart_foot (hW := (less hW))
    | with_reducible apply Foot.ite

end Sys2Proof.Laws
end

