-- ==== Sys2Proof/Laws/FootMemSteps.lean ====
section
/-!
SUPPORT. Footprints of the operations of Machine/MemSteps.lean.
-/
namespace Sys2Proof.Laws
open Sys2Proof Sys2Proof.Machine
set_option Elab.async false

theorem execNearTierModeWrite_foot {W : List Area} {s : State} (hW : [.regs, .mem] ⊆ W) (val : W32) {t : State} (e : execNearTierModeWrite val s = .next t) :
    Foot W s t := by
  unfold execNearTierModeWrite at e
  refine run_foot e ?_
  intro s' h
  repeat' first
    | with_reducible assumption
    | intro _
    | with_reducible apply guarded_foot
    | with_reducible apply regSet_foot (hW := (less hW))
    | with_reducible apply Foot.ite
    | exact Or.inl (hW (by decide))
    | with_reducible exact Or.inr rfl
    | with_reducible exact id
    | with_reducible exact Nat.le_refl _
    | (simp only [Foot.lit_eq]; with_reducible apply Foot.litL rfl)

theorem modeCheck_foot {W : List Area} {r s : State} (hW : [.mem] ⊆ W) (h : Foot W r s) :
    Foot W r (modeCheck s) := by
  unfold modeCheck
  repeat' first
    | with_reducible assumption
    | intro _
    | with_reducible apply Foot.ite
    | exact Or.inl (hW (by decide))
    | with_reducible exact Or.inr rfl
    | with_reducible exact id
    | with_reducible exact Nat.le_refl _
    | (simp only [Foot.lit_eq]; with_reducible apply Foot.litL rfl)
    | split

theorem execNearTierStepZeroed_foot {W : List Area} {s : State} (hW : [.cells, .mem] ⊆ W) {t : State} (e : execNearTierStepZeroed s = .next t) :
    Foot W s t := by
  unfold execNearTierStepZeroed at e
  refine run_foot e ?_
  intro s' h
  repeat' first
    | with_reducible assumption
    | intro _
    | with_reducible apply zeroMem_foot (hW := (less hW))
    | with_reducible apply modeCheck_foot (hW := (less hW))
    | with_reducible apply Foot.ite
    | exact Or.inl (hW (by decide))
    | with_reducible exact Or.inr rfl
    | with_reducible exact id
    | with_reducible exact Nat.le_refl _
    | (simp only [Foot.lit_eq]; with_reducible apply Foot.litL rfl)
    | split

theorem execCacheInvalidationDone_foot {W : List Area} {s : State} (hW : [.mem] ⊆ W) {t : State} (e : execCacheInvalidationDone s = .next t) :
    Foot W s t := by
  unfold execCacheInvalidationDone at e
  refine run_foot e ?_
  intro s' h
  repeat' first
    | with_reducible assumption
    | intro _
    | with_reducible apply modeCheck_foot (hW := (less hW))
    | with_reducible apply Foot.ite
    | exact Or.inl (hW (by decide))
    | with_reducible exact Or.inr rfl
    | with_reducible exact id
    | with_reducible exact Nat.le_refl _
    | (simp only [Foot.lit_eq]; with_reducible apply Foot.litL rfl)

theorem execPatrolRead_foot {W : List Area} {s : State} (hW : [.cells, .mem, .rg, .ic, .err, .freeCtr] ⊆ W) (addr : Nat) (syms : Option Nat) {t : State} (e : execPatrolRead addr syms s = .next t) :
    Foot W s t := by
  unfold execPatrolRead at e
  refine run_foot e ?_
  intro s' h
  repeat' first
    | with_reducible assumption
    | intro _
    | with_reducible apply guarded_foot
    | with_reducible apply queueReserved_foot (hW := (less hW))
    | with_reducible apply memError_foot (hW := (less hW))
    | with_reducible apply Foot.ite
    | exact Or.inl (hW (by decide))
    | with_reducible exact Or.inr rfl
    | with_reducible exact id
    | with_reducible exact Nat.le_refl _
    | (simp only [Foot.lit_eq]; with_reducible apply Foot.litL rfl)
    | split

theorem execGranuleMoveDone_foot {W : List Area} {s : State} (hW : [.cells, .mem, .rg, .fe, .ic, .err, .freeCtr] ⊆ W) (old : Nat) {t : State} (e : execGranuleMoveDone old s = .next t) :
    Foot W s t := by
  unfold execGranuleMoveDone at e
  refine run_foot e ?_
  intro s' h
  repeat' first
    | with_reducible assumption
    | intro _
    | with_reducible apply guarded_foot
    | with_reducible apply moveDone_foot (hW := (less hW))
    | with_reducible apply Foot.ite
    | split

theorem startRefresh_foot {W : List Area} {r s : State} (hW : [.rg, .ports] ⊆ W) (c : Nat) (h : Foot W r s) :
    Foot W r (startRefresh c s) := by
  unfold startRefresh
  repeat' first
    | with_reducible assumption
    | intro _
    | with_reducible apply queueReserved_foot (hW := (less hW))
    | with_reducible apply emit_foot (hW := (less hW))
    | with_reducible apply Foot.ite

theorem execRefresh_foot {W : List Area} {s : State} (hW : [.rg, .ports] ⊆ W) (c : Nat) {t : State} (e : execRefresh c s = .next t) :
    Foot W s t := by
  unfold execRefresh at e
  refine run_foot e ?_
  intro s' h
  repeat' first
    | with_reducible assumption
    | intro _
    | with_reducible apply guarded_foot
    | with_reducible apply startRefresh_foot (hW := (less hW))

theorem execStackTempRead_foot {W : List Area} {s : State} (hW : [.mem] ⊆ W) (temps : List Nat) {t : State} (e : execStackTempRead temps s = .next t) :
    Foot W s t := by
  unfold execStackTempRead at e
  refine run_foot e ?_
  intro s' h
  repeat' first
    | with_reducible assumption
    | intro _
    | with_reducible apply each_foot
    | with_reducible apply modStack_foot (hW := (less hW))

theorem execMcInternalError_foot {W : List Area} {s : State} (hW : [.blk, .ic, .err] ⊆ W) (c : Nat) {t : State} (e : execMcInternalError c s = .next t) :
    Foot W s t := by
  unfold execMcInternalError at e
  refine run_foot e ?_
  intro s' h
  repeat' first
    | with_reducible assumption
    | intro _
    | with_reducible apply bEvent_foot (hW := (less hW))

theorem modRunQ_foot {W : List Area} {r s : State} (hW : [.rg] ⊆ W) (c : Nat) (a1 : Nat) (f : RunQ → RunQ) (h : Foot W r s) :
    Foot W r (modRunQ c a1 f s) := by
  unfold modRunQ
  repeat' first
    | with_reducible assumption
    | intro _
    | with_reducible apply Foot.ite
    | exact Or.inl (hW (by decide))
    | with_reducible exact Or.inr rfl
    | with_reducible exact id
    | with_reducible exact Nat.le_refl _
    | (simp only [Foot.lit_eq]; with_reducible apply Foot.litL rfl)

theorem spendPip_foot {W : List Area} {r s : State} (hW : [.mem, .rg] ⊆ W) (c : Nat) (a1 : Nat) (h : Foot W r s) :
    Foot W r (spendPip c a1 s) := by
  unfold spendPip
  repeat' first
    | with_reducible assumption
    | intro _
    | with_reducible apply modRunQ_foot (hW := (less hW))
    | with_reducible apply Foot.ite
    | exact Or.inl (hW (by decide))
    | with_reducible exact Or.inr rfl
    | with_reducible exact id
    | with_reducible exact Nat.le_refl _
    | (simp only [Foot.lit_eq]; with_reducible apply Foot.litL rfl)
    | split
    | dsimp only

theorem idleSlot_foot {W : List Area} {r s : State} (hW : [.mem, .rg] ⊆ W) (c : Nat) (w : Nat) (h : Foot W r s) :
    Foot W r (idleSlot c w s) := by
  unfold idleSlot
  repeat' first
    | with_reducible assumption
    | intro _
    | with_reducible apply modReg_foot (hW := (less hW))
    | with_reducible apply spendPip_foot (hW := (less hW))
    | with_reducible apply Foot.ite
    | exact Or.inl (hW (by decide))
    | with_reducible exact Or.inr rfl
    | with_reducible exact id
    | with_reducible exact Nat.le_refl _
    | (simp only [Foot.lit_eq]; with_reducible apply Foot.litL rfl)
    | split
    | dsimp only

theorem dealtSlot_foot {W : List Area} {r s : State} (hW : [.mem, .rg] ⊆ W) (c : Nat) (w : Nat) (h : Foot W r s) :
    Foot W r (dealtSlot c w s) := by
  unfold dealtSlot
  repeat' first
    | with_reducible assumption
    | intro _
    | with_reducible apply modReg_foot (hW := (less hW))
    | with_reducible apply spendPip_foot (hW := (less hW))
    | with_reducible apply idleSlot_foot (hW := (less hW))
    | with_reducible apply Foot.ite

theorem reservedSlot_foot {W : List Area} {r s : State} (hW : [.mem, .rg, .ports] ⊆ W) (c : Nat) (h : Foot W r s) :
    Foot W r (reservedSlot c s) := by
  unfold reservedSlot
  repeat' first
    | with_reducible assumption
    | intro _
    | with_reducible apply emit_foot (hW := (less hW))
    | with_reducible apply modRunQ_foot (hW := (less hW))
    | with_reducible apply spendPip_foot (hW := (less hW))
    | with_reducible apply Foot.ite
    | split
    | dsimp only

theorem modTg_foot {W : List Area} {r s : State} (hW : [.mem] ⊆ W) (c : Nat) (f : Tg → Tg) (h : Foot W r s) :
    Foot W r (modTg c f s) := by
  unfold modTg
  repeat' first
    | with_reducible assumption
    | intro _
    | with_reducible apply Foot.ite
    | exact Or.inl (hW (by decide))
    | with_reducible exact Or.inr rfl
    | with_reducible exact id
    | with_reducible exact Nat.le_refl _
    | (simp only [Foot.lit_eq]; with_reducible apply Foot.litL rfl)

theorem tgError_foot {W : List Area} {r s : State} (hW : [.mem] ⊆ W) (c : Nat) (i : Nat) (h : Foot W r s) :
    Foot W r (tgError c i s) := by
  unfold tgError
  repeat' first
    | with_reducible assumption
    | intro _
    | with_reducible apply modTg_foot (hW := (less hW))

theorem tgStep_foot {W : List Area} {r s : State} (hW : [.cells, .mem] ⊆ W) (c : Nat) (i : Nat) (h : Foot W r s) :
    Foot W r (tgStep c i s) := by
  unfold tgStep
  repeat' first
    | with_reducible assumption
    | intro _
    | with_reducible apply tgError_foot (hW := (less hW))
    | with_reducible apply Foot.ite
    | exact putBytes_wf _ _ _ (by assumption)
    | exact Or.inl (hW (by decide))
    | with_reducible exact Or.inr rfl
    | with_reducible exact id
    | with_reducible exact Nat.le_refl _
    | (simp only [Foot.lit_eq]; with_reducible apply Foot.litL rfl)

theorem tgSteps_foot {W : List Area} {r s : State} (hW : [.cells, .mem] ⊆ W) (c : Nat) (n : Nat) (i : Nat) (h : Foot W r s) :
    Foot W r (tgSteps c n i s) := by
  induction n generalizing c i s with
  | zero =>
    unfold tgSteps
    repeat' first
      | with_reducible assumption
  | succ _ ih =>
    unfold tgSteps
    repeat' first
      | with_reducible assumption
      | intro _
      | with_reducible apply ih
      | with_reducible apply tgStep_foot (hW := (less hW))

theorem countRuns_foot {W : List Area} {r s : State} (hW : [.mem] ⊆ W) (n : Nat) (runs : Nat) (groups : Nat) (h : Foot W r s) :
    Foot W r (countRuns n runs groups s) := by
  unfold countRuns
  repeat' first
    | with_reducible assumption
    | intro _
    | with_reducible apply Foot.ite
    | exact Or.inl (hW (by decide))
    | with_reducible exact Or.inr rfl
    | with_reducible exact id
    | with_reducible exact Nat.le_refl _
    | (simp only [Foot.lit_eq]; with_reducible apply Foot.litL rfl)

theorem tgAdvance_foot {W : List Area} {r s : State} (hW : [.cells, .mem] ⊆ W) (c : Nat) (n : Nat) (groups : Nat) (h : Foot W r s) :
    Foot W r (tgAdvance c n groups s) := by
  unfold tgAdvance
  repeat' first
    | with_reducible assumption
    | intro _
    | with_reducible apply countRuns_foot (hW := (less hW))
    | with_reducible apply modTg_foot (hW := (less hW))
    | with_reducible apply tgSteps_foot (hW := (less hW))
    | with_reducible apply Foot.ite

theorem tgRunTime_foot {W : List Area} {r s : State} (hW : [.cells, .mem] ⊆ W) (c : Nat) (h : Foot W r s) :
    Foot W r (tgRunTime c s) := by
  unfold tgRunTime
  repeat' first
    | with_reducible assumption
    | intro _
    | with_reducible apply tgAdvance_foot (hW := (less hW))
    | with_reducible apply modTg_foot (hW := (less hW))
    | with_reducible apply countRuns_foot (hW := (less hW))
    | with_reducible apply Foot.ite

theorem execTgStart_foot {W : List Area} {s : State} (hW : [.mem] ⊆ W) (c : Nat) {t : State} (e : execTgStart c s = .next t) :
    Foot W s t := by
  unfold execTgStart at e
  refine run_foot e ?_
  intro s' h
  repeat' first
    | with_reducible assumption
    | intro _
    | with_reducible apply guarded_foot
    | with_reducible apply modTg_foot (hW := (less hW))
    | with_reducible apply Foot.ite

theorem tgFault_foot {W : List Area} {r s : State} (hW : [.cells, .mem, .rg, .ic, .err, .freeCtr] ⊆ W) (c : Nat) (f : Nat × Nat) (h : Foot W r s) :
    Foot W r (tgFault c f s) := by
  unfold tgFault
  repeat' first
    | with_reducible assumption
    | intro _
    | with_reducible apply modChan_foot (hW := (less hW))
    | with_reducible apply tgError_foot (hW := (less hW))
    | with_reducible apply uncorrectable_foot (hW := (less hW))
    | with_reducible apply Foot.ite
    | split

theorem tgLatch_foot {W : List Area} {r s : State} (hW : [.mem] ⊆ W) (c : Nat) (h : Foot W r s) :
    Foot W r (tgLatch c s) := by
  unfold tgLatch
  repeat' first
    | with_reducible assumption
    | intro _
    | with_reducible apply modTg_foot (hW := (less hW))
    | with_reducible apply Foot.ite
    | split

theorem execTgStop_foot {W : List Area} {s : State} (hW : [.cells, .mem, .rg, .ic, .err, .freeCtr] ⊆ W) (c : Nat) (faults : List (Nat × Nat)) {t : State} (e : execTgStop c s faults = .next t) :
    Foot W s t := by
  unfold execTgStop at e
  refine run_foot e ?_
  intro s' h
  repeat' first
    | with_reducible assumption
    | intro _
    | with_reducible apply guarded_foot
    | with_reducible apply fresh_foot (hW := (less hW))
    | with_reducible apply tgAdvance_foot (hW := (less hW))
    | with_reducible apply tgLatch_foot (hW := (less hW))
    | with_reducible apply modTg_foot (hW := (less hW))
    | with_reducible apply each_foot
    | with_reducible apply tgFault_foot (hW := (less hW))

theorem execTgRunDone_foot {W : List Area} {s : State} (hW : [.cells, .mem, .rg, .ic, .err, .freeCtr] ⊆ W) (c : Nat) (faults : List (Nat × Nat)) {t : State} (e : execTgRunDone c faults s = .next t) :
    Foot W s t := by
  unfold execTgRunDone at e
  refine run_foot e ?_
  intro s' h
  repeat' first
    | with_reducible assumption
    | intro _
    | with_reducible apply guarded_foot
    | with_reducible apply tgAdvance_foot (hW := (less hW))
    | with_reducible apply tgLatch_foot (hW := (less hW))
    | with_reducible apply modTg_foot (hW := (less hW))
    | with_reducible apply each_foot
    | with_reducible apply tgFault_foot (hW := (less hW))
    | with_reducible apply mapOut_foot (hW := (less hW))
    | with_reducible apply Foot.ite

theorem execRunTime_foot {W : List Area} {s : State} (hW : [.cells, .mem, .rg, .arr, .fab, .sg, .fe, .tw, .ic, .err, .csb, .ports, .freeCtr] ⊆ W) (c : Nat) {t : State} (e : execRunTime c s = .next t) :
    Foot W s t := by
  unfold execRunTime at e
  refine run_foot e ?_
  intro s' h
  repeat' first
    | with_reducible assumption
    | intro _
    | with_reducible apply guarded_foot
    | with_reducible apply tgRunTime_foot (hW := (less hW))
    | with_reducible apply reservedSlot_foot (hW := (less hW))
    | with_reducible apply dealtSlot_foot (hW := (less hW))
    | with_reducible apply releaseReady_foot (hW := (less hW))
    | with_reducible apply Foot.ite
    | exact Or.inl (hW (by decide))
    | with_reducible exact Or.inr rfl
    | with_reducible exact id
    | with_reducible exact Nat.le_refl _
    | (simp only [Foot.lit_eq]; with_reducible apply Foot.litL rfl)

theorem endBeatRuns_foot {W : List Area} {r s : State} (hW : [.rg] ⊆ W) (h : Foot W r s) :
    Foot W r (endBeatRuns s) := by
  unfold endBeatRuns
  repeat' first
    | with_reducible assumption
    | intro _
    | with_reducible apply Foot.ite
    | exact Or.inl (hW (by decide))
    | with_reducible exact Or.inr rfl
    | with_reducible exact id
    | with_reducible exact Nat.le_refl _
    | (simp only [Foot.lit_eq]; with_reducible apply Foot.litL rfl)

theorem execRgCfgWrite_foot {W : List Area} {s : State} (hW : [.regs, .rg] ⊆ W) (a0 : Nat) (val : W32) {t : State} (e : execRgCfgWrite a0 val s = .next t) :
    Foot W s t := by
  unfold execRgCfgWrite at e
  refine run_foot e ?_
  intro s' h
  repeat' first
    | with_reducible assumption
    | intro _
    | with_reducible apply guarded_foot
    | with_reducible apply modReg_foot (hW := (less hW))
    | with_reducible apply regSet_foot (hW := (less hW))
    | with_reducible apply Foot.ite

theorem applyRates_foot {W : List Area} {r s : State} (hW : [.rg] ⊆ W) (h : Foot W r s) :
    Foot W r (applyRates s) := by
  unfold applyRates
  repeat' first
    | with_reducible assumption
    | intro _
    | with_reducible apply each_foot
    | with_reducible apply modReg_foot (hW := (less hW))
    | with_reducible apply Foot.ite
    | exact Or.inl (hW (by decide))
    | with_reducible exact Or.inr rfl
    | with_reducible exact id
    | with_reducible exact Nat.le_refl _
    | (simp only [Foot.lit_eq]; with_reducible apply Foot.litL rfl)
    | split

end Sys2Proof.Laws
end

