-- ==== Sys2Proof/Laws/FootStart.lean ====
section
/-!
SUPPORT. Footprints of the operations of Machine/Start.lean.
-/
namespace Sys2Proof.Laws
open Sys2Proof Sys2Proof.Machine
set_option Elab.async false

theorem raiseSvn_foot {W : List Area} {r s : State} (hW : [.fw] ⊆ W) (img : List Byte) (h : Foot W r s) :
    Foot W r (raiseSvn img s) := by
  unfold raiseSvn
  repeat' first
    | with_reducible assumption
    | intro _
    | with_reducible apply Foot.ite
    | exact Nat.le_max_left _ _
    | exact Or.inl (hW (by decide))
    | with_reducible exact Or.inr rfl
    | with_reducible exact id
    | with_reducible exact Nat.le_refl _
    | (simp only [Foot.lit_eq]; with_reducible apply Foot.litL rfl)

theorem loadEap_foot {W : List Area} {r s : State} (hW : [.regs, .ic, .err] ⊆ W) (l : List Byte) (n : Nat) (h : Foot W r s) :
    Foot W r (loadEap l n s) := by
  unfold loadEap
  repeat' first
    | with_reducible assumption
    | intro _
    | with_reducible apply regSet_foot (hW := (less hW))
    | with_reducible apply reportCe_foot (hW := (less hW))
    | with_reducible apply Foot.ite

theorem loadPort_foot {W : List Area} {r s : State} (hW : [.regs, .fab] ⊆ W) (l : List Byte) (p : Nat) (h : Foot W r s) :
    Foot W r (loadPort l p s) := by
  unfold loadPort
  repeat' first
    | with_reducible assumption
    | intro _
    | with_reducible apply modPort_foot (hW := (less hW))
    | with_reducible apply each_foot
    | with_reducible apply regSet_foot (hW := (less hW))

theorem loadParams_foot {W : List Area} {r s : State} (hW : [.blk, .regs, .fab, .ic, .err] ⊆ W) (h : Foot W r s) :
    Foot W r (loadParams s) := by
  unfold loadParams
  repeat' first
    | with_reducible assumption
    | intro _
    | with_reducible apply regSet_foot (hW := (less hW))
    | with_reducible apply each_foot
    | with_reducible apply loadEap_foot (hW := (less hW))
    | with_reducible apply loadPort_foot (hW := (less hW))
    | with_reducible apply reportCe_foot (hW := (less hW))
    | with_reducible apply Foot.ite
    | exact Or.inl (hW (by decide))
    | with_reducible exact Or.inr rfl
    | with_reducible exact id
    | with_reducible exact Nat.le_refl _
    | (simp only [Foot.lit_eq]; with_reducible apply Foot.litL rfl)

theorem execColdResetRelease_foot {W : List Area} {s : State} (hW : [.blk, .mbx, .pm] ⊆ W) {t : State} (e : execColdResetRelease s = .next t) :
    Foot W s t := by
  unfold execColdResetRelease at e
  dsimp only at e
  simp only [Host.Outcome.next.injEq] at e
  subst e
  have h := Foot.refl W s
  repeat' first
    | with_reducible assumption
    | intro _
    | with_reducible apply modProc_foot (hW := (less hW))
    | with_reducible apply Foot.ite
    | exact Or.inl (hW (by decide))
    | with_reducible exact Or.inr rfl
    | with_reducible exact id
    | with_reducible exact Nat.le_refl _
    | (simp only [Foot.lit_eq]; with_reducible apply Foot.litL rfl)

theorem execIreqReadyAssert_foot {W : List Area} {s : State} (hW : [.blk] ⊆ W) {t : State} (e : execIreqReadyAssert s = .next t) :
    Foot W s t := by
  unfold execIreqReadyAssert at e
  refine run_foot e ?_
  intro s' h
  repeat' first
    | with_reducible assumption
    | intro _
    | with_reducible apply Foot.ite
    | exact Or.inl (hW (by decide))
    | with_reducible exact Or.inr rfl
    | with_reducible exact id
    | with_reducible exact Nat.le_refl _
    | (simp only [Foot.lit_eq]; with_reducible apply Foot.litL rfl)

theorem startStewards_foot {W : List Area} {r s : State} (hW : [.blk, .regs, .fab, .ic, .mbx, .fw, .err] ⊆ W) (img : List Byte) (h : Foot W r s) :
    Foot W r (startStewards img s) := by
  unfold startStewards
  repeat' first
    | with_reducible assumption
    | intro _
    | with_reducible apply loadParams_foot (hW := (less hW))
    | with_reducible apply each_foot
    | with_reducible apply modProc_foot (hW := (less hW))
    | with_reducible apply Foot.ite
    | exact Or.inl (hW (by decide))
    | with_reducible exact Or.inr rfl
    | with_reducible exact id
    | with_reducible exact Nat.le_refl _
    | (simp only [Foot.lit_eq]; with_reducible apply Foot.litL rfl)

theorem checkImage_foot {W : List Area} {r s : State} (hW : [.blk, .regs, .fab, .ic, .mbx, .fw, .err] ⊆ W) (fromHost : Bool) (img : List Byte) (h : Foot W r s) :
    Foot W r (checkImage fromHost img s) := by
  unfold checkImage
  repeat' first
    | with_reducible assumption
    | intro _
    | with_reducible apply startStewards_foot (hW := (less hW))
    | with_reducible apply raiseSvn_foot (hW := (less hW))
    | with_reducible apply Foot.ite
    | exact Or.inl (hW (by decide))
    | with_reducible exact Or.inr rfl
    | with_reducible exact id
    | with_reducible exact Nat.le_refl _
    | (simp only [Foot.lit_eq]; with_reducible apply Foot.litL rfl)
    | split

theorem execCsbImageCheck_foot {W : List Area} {s : State} (hW : [.blk, .regs, .fab, .ic, .mbx, .fw, .err] ⊆ W) {t : State} (e : execCsbImageCheck s = .next t) :
    Foot W s t := by
  unfold execCsbImageCheck at e
  refine run_foot e ?_
  intro s' h
  repeat' first
    | with_reducible assumption
    | intro _
    | with_reducible apply checkImage_foot (hW := (less hW))
    | with_reducible apply Foot.ite

theorem execRecoveryGo_foot {W : List Area} {s : State} (hW : [.regs, .fw, .ports] ⊆ W) (val : W32) {t : State} (e : execRecoveryGo val s = .next t) :
    Foot W s t := by
  unfold execRecoveryGo at e
  refine run_foot e ?_
  intro s' h
  repeat' first
    | with_reducible assumption
    | intro _
    | with_reducible apply guarded_foot
    | with_reducible apply regWrite_foot (hW := (less hW))
    | with_reducible apply each_foot
    | with_reducible apply askRead_foot (hW := (less hW))
    | with_reducible apply Foot.ite
    | exact Or.inl (hW (by decide))
    | with_reducible exact Or.inr rfl
    | with_reducible exact id
    | with_reducible exact Nat.le_refl _
    | (simp only [Foot.lit_eq]; with_reducible apply Foot.litL rfl)

theorem bootFailed_foot {W : List Area} {r s : State} (hW : [.blk] ⊆ W) (cause : Nat) (h : Foot W r s) :
    Foot W r (bootFailed cause s) := by
  unfold bootFailed
  repeat' first
    | with_reducible assumption
    | intro _
    | with_reducible apply Foot.ite
    | exact Or.inl (hW (by decide))
    | with_reducible exact Or.inr rfl
    | with_reducible exact id
    | with_reducible exact Nat.le_refl _
    | (simp only [Foot.lit_eq]; with_reducible apply Foot.litL rfl)

theorem mapSector_foot {W : List Area} {r s : State} (hW : [.arr] ⊆ W) (bad : List Nat) (n : Nat) (h : Foot W r s) :
    Foot W r (mapSector bad n s) := by
  unfold mapSector
  repeat' first
    | with_reducible assumption
    | intro _
    | with_reducible apply each_foot
    | with_reducible apply modPhys_foot (hW := (less hW))
    | with_reducible apply Foot.ite
    | exact Or.inl (hW (by decide))
    | with_reducible exact Or.inr rfl
    | with_reducible exact id
    | with_reducible exact Nat.le_refl _
    | (simp only [Foot.lit_eq]; with_reducible apply Foot.litL rfl)

theorem bondTest_foot {W : List Area} {r s : State} (hW : [.blk, .ic, .mbx, .err] ⊆ W) (match0 : Bool) (match1 : Bool) (fail0 : List Nat) (fail1 : List Nat) (h : Foot W r s) :
    Foot W r (bondTest match0 match1 fail0 fail1 s) := by
  unfold bondTest
  repeat' first
    | with_reducible assumption
    | intro _
    | with_reducible apply bootFailed_foot (hW := (less hW))
    | with_reducible apply each_foot
    | with_reducible apply modProc_foot (hW := (less hW))
    | with_reducible apply report_foot (hW := (less hW))
    | with_reducible apply Foot.ite
    | exact Or.inl (hW (by decide))
    | with_reducible exact Or.inr rfl
    | with_reducible exact id
    | with_reducible exact Nat.le_refl _
    | (simp only [Foot.lit_eq]; with_reducible apply Foot.litL rfl)

theorem arrayTest_foot {W : List Area} {r s : State} (hW : [.blk, .mem, .arr] ⊆ W) (bad : List Nat) (h : Foot W r s) :
    Foot W r (arrayTest bad s) := by
  unfold arrayTest
  repeat' first
    | with_reducible assumption
    | intro _
    | with_reducible apply each_foot
    | with_reducible apply mapSector_foot (hW := (less hW))
    | with_reducible apply stackOut_foot (hW := (less hW))
    | with_reducible apply modStack_foot (hW := (less hW))
    | with_reducible apply Foot.ite
    | exact Or.inl (hW (by decide))
    | with_reducible exact Or.inr rfl
    | with_reducible exact id
    | with_reducible exact Nat.le_refl _
    | (simp only [Foot.lit_eq]; with_reducible apply Foot.litL rfl)

theorem execStrataBondTest_foot {W : List Area} {s : State} (hW : [.blk, .mem, .arr, .ic, .mbx, .err] ⊆ W) (match0 : Bool) (match1 : Bool) (fail0 : List Nat) (fail1 : List Nat) (bad : List Nat) {t : State} (e : execStrataBondTest match0 match1 fail0 fail1 bad s = .next t) :
    Foot W s t := by
  unfold execStrataBondTest at e
  refine run_foot e ?_
  intro s' h
  repeat' first
    | with_reducible assumption
    | intro _
    | with_reducible apply bondTest_foot (hW := (less hW))
    | with_reducible apply arrayTest_foot (hW := (less hW))
    | with_reducible apply Foot.ite

theorem trainInit_foot {W : List Area} {r s : State} (hW : [.mem, .ic, .err] ⊆ W) (failed : List Nat) (h : Foot W r s) :
    Foot W r (trainInit failed s) := by
  unfold trainInit
  repeat' first
    | with_reducible assumption
    | intro _
    | with_reducible apply each_foot
    | with_reducible apply reportCe_foot (hW := (less hW))
    | with_reducible apply stackOut_foot (hW := (less hW))

theorem trainPasses_foot {W : List Area} {r s : State} (hW : [.mem] ⊆ W) (k : Nat) (h : Foot W r s) :
    Foot W r (trainPasses k s) := by
  unfold trainPasses
  repeat' first
    | with_reducible assumption
    | intro _
    | with_reducible apply each_foot
    | with_reducible apply countRuns_foot (hW := (less hW))

theorem trainFails_foot {W : List Area} {r s : State} (hW : [.mem] ⊆ W) (l : List Nat) (h : Foot W r s) :
    Foot W r (trainFails l s) := by
  unfold trainFails
  repeat' first
    | with_reducible assumption
    | intro _
    | with_reducible apply Foot.ite
    | exact Or.inl (hW (by decide))
    | with_reducible exact Or.inr rfl
    | with_reducible exact id
    | with_reducible exact Nat.le_refl _
    | (simp only [Foot.lit_eq]; with_reducible apply Foot.litL rfl)

theorem trainEnd_foot {W : List Area} {r s : State} (hW : [.blk, .cells, .mem, .rg, .fab, .ic, .err, .ports, .freeCtr] ⊆ W) (h : Foot W r s) :
    Foot W r (trainEnd s) := by
  unfold trainEnd
  repeat' first
    | with_reducible assumption
    | intro _
    | with_reducible apply each_foot
    | with_reducible apply modStack_foot (hW := (less hW))
    | with_reducible apply mapOut_foot (hW := (less hW))
    | with_reducible apply bootFailed_foot (hW := (less hW))
    | with_reducible apply trainFresh_foot (hW := (less hW))
    | with_reducible apply Foot.ite
    | exact Or.inl (hW (by decide))
    | with_reducible exact Or.inr rfl
    | with_reducible exact id
    | with_reducible exact Nat.le_refl _
    | (simp only [Foot.lit_eq]; with_reducible apply Foot.litL rfl)

theorem execStackTraining_foot {W : List Area} {s : State} (hW : [.blk, .cells, .mem, .rg, .fab, .ic, .err, .ports, .freeCtr] ⊆ W) (step : Nat) (failed : List Nat) (chans : List (Nat × Nat)) (samples : Nat) {t : State} (e : execStackTraining failed chans s step samples = .next t) :
    Foot W s t := by
  unfold execStackTraining at e
  refine run_foot e ?_
  intro s' h
  repeat' first
    | with_reducible assumption
    | intro _
    | with_reducible apply guarded_foot
    | with_reducible apply trainInit_foot (hW := (less hW))
    | with_reducible apply each_foot
    | with_reducible apply emit_foot (hW := (less hW))
    | with_reducible apply trainFails_foot (hW := (less hW))
    | with_reducible apply countRuns_foot (hW := (less hW))
    | with_reducible apply trainPasses_foot (hW := (less hW))
    | with_reducible apply trainEnd_foot (hW := (less hW))
    | with_reducible apply Foot.ite
    | exact (rfl : Memory.wf [] = true)
    | exact Or.inl (hW (by decide))
    | with_reducible exact Or.inr rfl
    | with_reducible exact id
    | with_reducible exact Nat.le_refl _
    | (simp only [Foot.lit_eq]; with_reducible apply Foot.litL rfl)
    | split

theorem execPortTrainingTimeout_foot {W : List Area} {s : State} (hW : [.blk, .fab, .ic, .err] ⊆ W) {t : State} (e : execPortTrainingTimeout s = .next t) :
    Foot W s t := by
  unfold execPortTrainingTimeout at e
  refine run_foot e ?_
  intro s' h
  repeat' first
    | with_reducible assumption
    | intro _
    | with_reducible apply guarded_foot
    | with_reducible apply each_foot
    | with_reducible apply laneCe_foot (hW := (less hW))
    | with_reducible apply modPort_foot (hW := (less hW))
    | with_reducible apply Foot.ite
    | exact Or.inl (hW (by decide))
    | with_reducible exact Or.inr rfl
    | with_reducible exact id
    | with_reducible exact Nat.le_refl _
    | (simp only [Foot.lit_eq]; with_reducible apply Foot.litL rfl)

theorem startRate_foot {W : List Area} {r s : State} (hW : [.regs, .rg] ⊆ W) (a0 : Nat) (rate : Nat) (h : Foot W r s) :
    Foot W r (startRate a0 rate s) := by
  unfold startRate
  repeat' first
    | with_reducible assumption
    | intro _
    | with_reducible apply modReg_foot (hW := (less hW))
    | with_reducible apply regSet_foot (hW := (less hW))

theorem execReportReady_foot {W : List Area} {s : State} (hW : [.blk, .regs, .rg, .lce, .ic, .pm] ⊆ W) (ms : Nat) {t : State} (e : execReportReady ms s = .next t) :
    Foot W s t := by
  unfold execReportReady at e
  refine run_foot e ?_
  intro s' h
  repeat' first
    | with_reducible assumption
    | intro _
    | with_reducible apply guarded_foot
    | with_reducible apply regSet_foot (hW := (less hW))
    | with_reducible apply startRate_foot (hW := (less hW))
    | with_reducible apply each_foot
    | with_reducible apply modReg_foot (hW := (less hW))
    | with_reducible apply modLce_foot (hW := (less hW))
    | with_reducible apply arrive_foot (hW := (less hW))
    | with_reducible apply Foot.ite
    | exact Or.inl (hW (by decide))
    | with_reducible exact Or.inr rfl
    | with_reducible exact id
    | with_reducible exact Nat.le_refl _
    | (simp only [Foot.lit_eq]; with_reducible apply Foot.litL rfl)

end Sys2Proof.Laws
end

