-- ==== Sys2Proof/Laws/FootFirmware.lean ====
section
/-!
SUPPORT. Footprints of the operations of Machine/Firmware.lean.
-/
namespace Sys2Proof.Laws
open Sys2Proof Sys2Proof.Machine
set_option Elab.async false

theorem onFwBox_foot {W : List Area} {r s : State} (code : Nat) (f : State → State) (h_f : ∀ s', Foot W r s' → Foot W r (f s')) (h : Foot W r s) :
    Foot W r (onFwBox code f s) := by
  unfold onFwBox
  repeat' first
    | with_reducible assumption
    | intro _
    | with_reducible apply guarded_foot

theorem execFwStage_foot {W : List Area} {s : State} (hW : [.cells, .mem, .fe, .ic, .mbx, .fw, .err] ⊆ W) (host : HostData) {t : State} (e : execFwStage host s = .next t) :
    Foot W s t := by
  unfold execFwStage at e
  refine run_foot e ?_
  intro s' h
  repeat' first
    | with_reducible assumption
    | intro _
    | with_reducible apply onFwBox_foot
    | with_reducible apply replySt_foot (hW := (less hW))
    | with_reducible apply writeMem_foot (hW := (less hW))
    | with_reducible apply Foot.ite
    | exact Or.inl (hW (by decide))
    | with_reducible exact Or.inr rfl
    | with_reducible exact id
    | with_reducible exact Nat.le_refl _
    | (simp only [Foot.lit_eq]; with_reducible apply Foot.litL rfl)

theorem execFwHandover_foot {W : List Area} {s : State} (hW : [.ic, .mbx, .fw] ⊆ W) {t : State} (e : execFwHandover s = .next t) :
    Foot W s t := by
  unfold execFwHandover at e
  refine run_foot e ?_
  intro s' h
  repeat' first
    | with_reducible assumption
    | intro _
    | with_reducible apply replySt_foot (hW := (less hW))
    | with_reducible apply onFwBox_foot
    | with_reducible apply Foot.ite
    | exact Or.inl (hW (by decide))
    | with_reducible exact Or.inr rfl
    | with_reducible exact id
    | with_reducible exact Nat.le_refl _
    | (simp only [Foot.lit_eq]; with_reducible apply Foot.litL rfl)

theorem handoverRound_foot {W : List Area} {r s : State} (hW : [.fw] ⊆ W) (h : Foot W r s) :
    Foot W r (handoverRound s) := by
  unfold handoverRound
  repeat' first
    | with_reducible assumption
    | intro _
    | with_reducible apply Foot.ite
    | exact Or.inl (hW (by decide))
    | with_reducible exact Or.inr rfl
    | with_reducible exact id
    | with_reducible exact Nat.le_refl _
    | (simp only [Foot.lit_eq]; with_reducible apply Foot.litL rfl)
    | split

theorem bankArrive_foot {W : List Area} {r s : State} (hW : [.ic, .freeCtr] ⊆ W) (k : Nat) (h : Foot W r s) :
    Foot W r (bankArrive k s) := by
  unfold bankArrive
  repeat' first
    | with_reducible assumption
    | intro _
    | with_reducible apply fresh_foot (hW := (less hW))
    | with_reducible apply Foot.ite
    | exact Or.inl (hW (by decide))
    | with_reducible exact Or.inr rfl
    | with_reducible exact id
    | with_reducible exact Nat.le_refl _
    | (simp only [Foot.lit_eq]; with_reducible apply Foot.litL rfl)

theorem bankTake_foot {W : List Area} {r s : State} (hW : [.ic] ⊆ W) (k : Nat) (h : Foot W r s) :
    Foot W r (bankTake k s) := by
  unfold bankTake
  repeat' first
    | with_reducible assumption
    | intro _
    | with_reducible apply Foot.ite
    | exact Or.inl (hW (by decide))
    | with_reducible exact Or.inr rfl
    | with_reducible exact id
    | with_reducible exact Nat.le_refl _
    | (simp only [Foot.lit_eq]; with_reducible apply Foot.litL rfl)

theorem execHandoverStart_foot {W : List Area} {s : State} (hW : [.ic, .mbx, .fw, .freeCtr] ⊆ W) {t : State} (e : execHandoverStart s = .next t) :
    Foot W s t := by
  unfold execHandoverStart at e
  refine run_foot e ?_
  intro s' h
  repeat' first
    | with_reducible assumption
    | intro _
    | with_reducible apply bankArrive_foot (hW := (less hW))
    | with_reducible apply modProc_foot (hW := (less hW))
    | with_reducible apply Foot.ite
    | exact Or.inl (hW (by decide))
    | with_reducible exact Or.inr rfl
    | with_reducible exact id
    | with_reducible exact Nat.le_refl _
    | (simp only [Foot.lit_eq]; with_reducible apply Foot.litL rfl)
    | split

theorem endHandover_foot {W : List Area} {r s : State} (hW : [.ic, .mbx, .fw] ⊆ W) (k : Nat) (ok : Bool) (h : Foot W r s) :
    Foot W r (endHandover k ok s) := by
  unfold endHandover
  repeat' first
    | with_reducible assumption
    | intro _
    | with_reducible apply modProc_foot (hW := (less hW))
    | with_reducible apply notice_foot (hW := (less hW))
    | with_reducible apply bankTake_foot (hW := (less hW))
    | with_reducible apply replyFor_foot (hW := (less hW))
    | with_reducible apply Foot.ite
    | exact Or.inl (hW (by decide))
    | with_reducible exact Or.inr rfl
    | with_reducible exact id
    | with_reducible exact Nat.le_refl _
    | (simp only [Foot.lit_eq]; with_reducible apply Foot.litL rfl)

theorem execHandoverComplete_foot {W : List Area} {s : State} (hW : [.ic, .mbx, .fw] ⊆ W) {t : State} (e : execHandoverComplete s = .next t) :
    Foot W s t := by
  unfold execHandoverComplete at e
  refine run_foot e ?_
  intro s' h
  repeat' first
    | with_reducible assumption
    | intro _
    | with_reducible apply endHandover_foot (hW := (less hW))
    | with_reducible apply Foot.ite
    | split

theorem execHandoverTimeout_foot {W : List Area} {s : State} (hW : [.ic, .mbx, .fw] ⊆ W) {t : State} (e : execHandoverTimeout s = .next t) :
    Foot W s t := by
  unfold execHandoverTimeout at e
  refine run_foot e ?_
  intro s' h
  repeat' first
    | with_reducible assumption
    | intro _
    | with_reducible apply endHandover_foot (hW := (less hW))
    | with_reducible apply Foot.ite
    | split

theorem execFwCommit_foot {W : List Area} {s : State} (hW : [.ic, .mbx, .fw] ⊆ W) {t : State} (e : execFwCommit s = .next t) :
    Foot W s t := by
  unfold execFwCommit at e
  refine run_foot e ?_
  intro s' h
  repeat' first
    | with_reducible assumption
    | intro _
    | with_reducible apply onFwBox_foot
    | with_reducible apply replySt_foot (hW := (less hW))
    | with_reducible apply Foot.ite
    | exact Or.inl (hW (by decide))
    | with_reducible exact Or.inr rfl
    | with_reducible exact id
    | with_reducible exact Nat.le_refl _
    | (simp only [Foot.lit_eq]; with_reducible apply Foot.litL rfl)

theorem flashImage_foot {W : List Area} {r s : State} (hW : [.fw] ⊆ W) (img : List Byte) (h : Foot W r s) :
    Foot W r (flashImage img s) := by
  unfold flashImage
  repeat' first
    | with_reducible assumption
    | intro _
    | with_reducible apply raiseSvn_foot (hW := (less hW))
    | with_reducible apply Foot.ite
    | exact Or.inl (hW (by decide))
    | with_reducible exact Or.inr rfl
    | with_reducible exact id
    | with_reducible exact Nat.le_refl _
    | (simp only [Foot.lit_eq]; with_reducible apply Foot.litL rfl)

theorem execFlashWriteDone_foot {W : List Area} {s : State} (hW : [.blk, .regs, .fab, .ic, .mbx, .fw, .err] ⊆ W) {t : State} (e : execFlashWriteDone s = .next t) :
    Foot W s t := by
  unfold execFlashWriteDone at e
  refine run_foot e ?_
  intro s' h
  repeat' first
    | with_reducible assumption
    | intro _
    | with_reducible apply startStewards_foot (hW := (less hW))
    | with_reducible apply flashImage_foot (hW := (less hW))
    | with_reducible apply replyFor_foot (hW := (less hW))
    | with_reducible apply Foot.ite
    | exact Or.inl (hW (by decide))
    | with_reducible exact Or.inr rfl
    | with_reducible exact id
    | with_reducible exact Nat.le_refl _
    | (simp only [Foot.lit_eq]; with_reducible apply Foot.litL rfl)
    | split

theorem execFwAbort_foot {W : List Area} {s : State} (hW : [.ic, .mbx, .fw] ⊆ W) {t : State} (e : execFwAbort s = .next t) :
    Foot W s t := by
  unfold execFwAbort at e
  refine run_foot e ?_
  intro s' h
  repeat' first
    | with_reducible assumption
    | intro _
    | with_reducible apply onFwBox_foot
    | with_reducible apply replySt_foot (hW := (less hW))
    | with_reducible apply Foot.ite
    | exact Or.inl (hW (by decide))
    | with_reducible exact Or.inr rfl
    | with_reducible exact id
    | with_reducible exact Nat.le_refl _
    | (simp only [Foot.lit_eq]; with_reducible apply Foot.litL rfl)

end Sys2Proof.Laws
end

