-- ==== Sys2Proof/Laws/FootSched.lean ====
section
/-!
SUPPORT. Footprints of the operations of Machine/Sched.lean.
-/
namespace Sys2Proof.Laws
open Sys2Proof Sys2Proof.Machine
set_option Elab.async false

theorem execQueueLoad_foot {W : List Area} {s : State} (hW : [.fe] ⊆ W) (q : Nat) (slot : Nat) {t : State} (e : execQueueLoad q slot s = .next t) :
    Foot W s t := by
  unfold execQueueLoad at e
  refine run_foot e ?_
  intro s' h
  repeat' first
    | with_reducible assumption
    | intro _
    | with_reducible apply guarded_foot
    | with_reducible apply Foot.ite
    | exact Or.inl (hW (by decide))
    | with_reducible exact Or.inr rfl
    | with_reducible exact id
    | with_reducible exact Nat.le_refl _
    | (simp only [Foot.lit_eq]; with_reducible apply Foot.litL rfl)

theorem execQueueUnload_foot {W : List Area} {s : State} (hW : [.fe] ⊆ W) (q : Nat) {t : State} (e : execQueueUnload q s = .next t) :
    Foot W s t := by
  unfold execQueueUnload at e
  refine run_foot e ?_
  intro s' h
  repeat' first
    | with_reducible assumption
    | intro _
    | with_reducible apply guarded_foot
    | with_reducible apply freeSlot_foot (hW := (less hW))
    | with_reducible apply Foot.ite
    | split

theorem issueRoots_foot {W : List Area} {r s : State} (hW : [.fe] ⊆ W) (x : Launch) (h : Foot W r s) :
    Foot W r (issueRoots x s) := by
  unfold issueRoots
  repeat' first
    | with_reducible assumption
    | intro _
    | with_reducible apply each_foot
    | with_reducible apply issueNode_foot (hW := (less hW))
    | with_reducible apply Foot.ite

theorem issueHeld_foot {W : List Area} {r s : State} (hW : [.fe] ⊆ W) (p : Nat) (h : Foot W r s) :
    Foot W r (issueHeld p s) := by
  unfold issueHeld
  repeat' first
    | with_reducible assumption
    | intro _
    | with_reducible apply each_foot
    | with_reducible apply issueRoots_foot (hW := (less hW))

theorem execWalkerBind_foot {W : List Area} {s : State} (hW : [.fe] ⊆ W) (launch : Nat) (walker : Nat) {t : State} (e : execWalkerBind launch walker s = .next t) :
    Foot W s t := by
  unfold execWalkerBind at e
  refine run_foot e ?_
  intro s' h
  repeat' first
    | with_reducible assumption
    | intro _
    | with_reducible apply guarded_foot
    | with_reducible apply modCmd_foot (hW := (less hW))
    | with_reducible apply modLaunch_foot (hW := (less hW))
    | with_reducible apply settle_foot (hW := (less hW))
    | with_reducible apply issueRoots_foot (hW := (less hW))
    | with_reducible apply issueHeld_foot (hW := (less hW))
    | with_reducible apply Foot.ite
    | exact Or.inl (hW (by decide))
    | with_reducible exact Or.inr rfl
    | with_reducible exact id
    | with_reducible exact Nat.le_refl _
    | (simp only [Foot.lit_eq]; with_reducible apply Foot.litL rfl)
    | split

theorem toSeq_foot {W : List Area} {r s : State} (hW : [.mem, .rg, .arr, .fe] ⊆ W) (k : Nat) (a1 : Task) (h : Foot W r s) :
    Foot W r (toSeq k a1 s) := by
  unfold toSeq
  repeat' first
    | with_reducible assumption
    | intro _
    | with_reducible apply modTask_foot (hW := (less hW))
    | with_reducible apply raiseInTurn_foot (hW := (less hW))
    | with_reducible apply stageQueue_foot (hW := (less hW))
    | with_reducible apply fillSeq_foot (hW := (less hW))
    | with_reducible apply Foot.ite

theorem place_foot {W : List Area} {r s : State} (hW : [.blk, .mem, .rg, .arr, .lce, .fe, .ic, .err, .ports] ⊆ W) (a0 : Task) (h : Foot W r s) :
    Foot W r (place a0 s) := by
  unfold place
  repeat' first
    | with_reducible assumption
    | intro _
    | with_reducible apply modTask_foot (hW := (less hW))
    | with_reducible apply toSeq_foot (hW := (less hW))
    | with_reducible apply modLce_foot (hW := (less hW))
    | with_reducible apply taskFault_foot (hW := (less hW))
    | with_reducible apply issueWaiting_foot (hW := (less hW))
    | with_reducible apply Foot.ite
    | exact Or.inl (hW (by decide))
    | with_reducible exact Or.inr rfl
    | with_reducible exact id
    | with_reducible exact Nat.le_refl _
    | (simp only [Foot.lit_eq]; with_reducible apply Foot.litL rfl)
    | split

theorem readyLate_foot {W : List Area} {r s : State} (hW : [.fe] ⊆ W) (seq : Nat) (h : Foot W r s) :
    Foot W r (readyLate seq s) := by
  unfold readyLate
  repeat' first
    | with_reducible assumption
    | intro _
    | with_reducible apply modTask_foot (hW := (less hW))
    | with_reducible apply Foot.ite
    | exact Or.inl (hW (by decide))
    | with_reducible exact Or.inr rfl
    | with_reducible exact id
    | with_reducible exact Nat.le_refl _
    | (simp only [Foot.lit_eq]; with_reducible apply Foot.litL rfl)

theorem execDispatch_foot {W : List Area} {s : State} (hW : [.blk, .mem, .rg, .arr, .lce, .fe, .ic, .err, .ports] ⊆ W) (seq : Nat) {t : State} (e : execDispatch seq s = .next t) :
    Foot W s t := by
  unfold execDispatch at e
  refine run_foot e ?_
  intro s' h
  repeat' first
    | with_reducible assumption
    | intro _
    | with_reducible apply guarded_foot
    | with_reducible apply taskFault_foot (hW := (less hW))
    | with_reducible apply issueHeld_foot (hW := (less hW))
    | with_reducible apply place_foot (hW := (less hW))
    | with_reducible apply readyLate_foot (hW := (less hW))
    | with_reducible apply Foot.ite
    | split

theorem execTaskSteal_foot {W : List Area} {s : State} (hW : [.arr, .fe] ⊆ W) (k : Nat) {t : State} (e : execTaskSteal k s = .next t) :
    Foot W s t := by
  unfold execTaskSteal at e
  refine run_foot e ?_
  intro s' h
  repeat' first
    | with_reducible assumption
    | intro _
    | with_reducible apply guarded_foot
    | with_reducible apply fillSeq_foot (hW := (less hW))
    | with_reducible apply modTask_foot (hW := (less hW))
    | with_reducible apply Foot.ite
    | split

theorem turnBegins_foot {W : List Area} {r s : State} (hW : [.arr, .fe] ⊆ W) (p : Nat) (k : Nat) (old : Nat) (h : Foot W r s) :
    Foot W r (turnBegins p k old s) := by
  unfold turnBegins
  repeat' first
    | with_reducible assumption
    | intro _
    | with_reducible apply modPart_foot (hW := (less hW))
    | with_reducible apply each_foot
    | with_reducible apply modArr_foot (hW := (less hW))
    | with_reducible apply fillSeq_foot (hW := (less hW))
    | with_reducible apply requeue_foot (hW := (less hW))
    | with_reducible apply raisePre_foot (hW := (less hW))
    | with_reducible apply Foot.ite
    | split

theorem execTurnBoundary_foot {W : List Area} {s : State} (hW : [.arr, .fe] ⊆ W) (p : Nat) {t : State} (e : execTurnBoundary p s = .next t) :
    Foot W s t := by
  unfold execTurnBoundary at e
  refine run_foot e ?_
  intro s' h
  repeat' first
    | with_reducible assumption
    | intro _
    | with_reducible apply guarded_foot
    | with_reducible apply turnBegins_foot (hW := (less hW))
    | with_reducible apply Foot.ite

theorem execTurnTableCommit_foot {W : List Area} {s : State} (hW : [.regs, .fe] ⊆ W) (p : Nat) (val : W32) {t : State} (e : execTurnTableCommit p val s = .next t) :
    Foot W s t := by
  unfold execTurnTableCommit at e
  refine run_foot e ?_
  intro s' h
  repeat' first
    | with_reducible assumption
    | intro _
    | with_reducible apply guarded_foot
    | with_reducible apply regSet_foot (hW := (less hW))
    | with_reducible apply modPart_foot (hW := (less hW))
    | with_reducible apply Foot.ite

theorem execRoundLengthWrite_foot {W : List Area} {s : State} (hW : [.regs, .fe] ⊆ W) (val : W32) {t : State} (e : execRoundLengthWrite val s = .next t) :
    Foot W s t := by
  unfold execRoundLengthWrite at e
  refine run_foot e ?_
  intro s' h
  repeat' first
    | with_reducible assumption
    | intro _
    | with_reducible apply guarded_foot
    | with_reducible apply regSet_foot (hW := (less hW))
    | with_reducible apply Foot.ite
    | exact Or.inl (hW (by decide))
    | with_reducible exact Or.inr rfl
    | with_reducible exact id
    | with_reducible exact Nat.le_refl _
    | (simp only [Foot.lit_eq]; with_reducible apply Foot.litL rfl)

theorem execPartSchedWrite_foot {W : List Area} {s : State} (hW : [.regs, .fe] ⊆ W) (p : Nat) (val : W32) {t : State} (e : execPartSchedWrite p val s = .next t) :
    Foot W s t := by
  unfold execPartSchedWrite at e
  refine run_foot e ?_
  intro s' h
  repeat' first
    | with_reducible assumption
    | intro _
    | with_reducible apply guarded_foot
    | with_reducible apply modPart_foot (hW := (less hW))
    | with_reducible apply regSet_foot (hW := (less hW))
    | with_reducible apply Foot.ite

theorem tickTasks_foot {W : List Area} {r s : State} (hW : [.fe] ⊆ W) (h : Foot W r s) :
    Foot W r (tickTasks s) := by
  unfold tickTasks
  repeat' first
    | with_reducible assumption
    | intro _
    | with_reducible apply Foot.ite
    | exact Or.inl (hW (by decide))
    | with_reducible exact Or.inr rfl
    | with_reducible exact id
    | with_reducible exact Nat.le_refl _
    | (simp only [Foot.lit_eq]; with_reducible apply Foot.litL rfl)

theorem execWatchdogExpiry_foot {W : List Area} {s : State} (hW : [.blk, .rg, .arr, .lce, .fab, .sg, .fe, .tw, .ic, .err, .ports, .freeCtr] ⊆ W) (seq : Nat) {t : State} (e : execWatchdogExpiry seq s = .next t) :
    Foot W s t := by
  unfold execWatchdogExpiry at e
  refine run_foot e ?_
  intro s' h
  repeat' first
    | with_reducible assumption
    | intro _
    | with_reducible apply guarded_foot
    | with_reducible apply leavePlace_foot (hW := (less hW))
    | with_reducible apply abandonSeq_foot (hW := (less hW))
    | with_reducible apply leaveBars_foot (hW := (less hW))
    | with_reducible apply freeRecs_foot (hW := (less hW))
    | with_reducible apply refillAll_foot (hW := (less hW))
    | with_reducible apply reissueAll_foot (hW := (less hW))
    | with_reducible apply taskEnd_foot (hW := (less hW))
    | with_reducible apply Foot.ite
    | with_reducible refine Foot.snd (by assumption) ?_
    | split

theorem breakWait_foot {W : List Area} {r s : State} (hW : [.fe, .ic, .err] ⊆ W) (q : Nat) (h : Foot W r s) :
    Foot W r (breakWait q s) := by
  unfold breakWait
  repeat' first
    | with_reducible assumption
    | intro _
    | with_reducible apply completeWait_foot (hW := (less hW))
    | with_reducible apply reportCe_foot (hW := (less hW))
    | with_reducible apply Foot.ite
    | exact Or.inl (hW (by decide))
    | with_reducible exact Or.inr rfl
    | with_reducible exact id
    | with_reducible exact Nat.le_refl _
    | (simp only [Foot.lit_eq]; with_reducible apply Foot.litL rfl)
    | split

theorem breakCycles_foot {W : List Area} {r s : State} (hW : [.fe, .ic, .err] ⊆ W) (fuel : Nat) (rings : List (Nat × HostData)) (h : Foot W r s) :
    Foot W r (breakCycles fuel rings s) := by
  induction fuel generalizing rings s with
  | zero =>
    unfold breakCycles
    repeat' first
      | with_reducible assumption
  | succ _ ih =>
    unfold breakCycles
    repeat' first
      | with_reducible assumption
      | intro _
      | with_reducible apply ih
      | with_reducible apply breakWait_foot (hW := (less hW))
      | with_reducible apply Foot.ite
      | split

theorem execDeadlockScan_foot {W : List Area} {s : State} (hW : [.fe, .ic, .pm, .err] ⊆ W) (rings : List (Nat × HostData)) {t : State} (e : execDeadlockScan rings s = .next t) :
    Foot W s t := by
  unfold execDeadlockScan at e
  refine run_foot e ?_
  intro s' h
  repeat' first
    | with_reducible assumption
    | intro _
    | with_reducible apply oncePerBeat_foot (hW := (less hW))
    | with_reducible apply breakCycles_foot (hW := (less hW))

end Sys2Proof.Laws
end

