-- ==== Sys2Proof/Laws/FootServing.lean ====
section
/-!
SUPPORT. Footprints of the operations of Machine/Serving.lean.
-/
namespace Sys2Proof.Laws
open Sys2Proof Sys2Proof.Machine
set_option Elab.async false

theorem withGroup_foot {W : List Area} {r s : State} (hW : [.mem, .rg, .fab, .fe, .ic, .mbx, .err, .ports] ⊆ W) (v : Nat) (c : Nat) (host : HostData) (f : List Byte → List Byte → State → State) (h_f : ∀ y0 y1 s', Foot W r s' → Foot W r (f y0 y1 s')) (h : Foot W r s) :
    Foot W r (withGroup v c host f s) := by
  unfold withGroup
  repeat' first
    | with_reducible assumption
    | intro _
    | with_reducible apply reading_foot (hW := (less hW))
    | with_reducible apply replySt_foot (hW := (less hW))
    | with_reducible apply touchCtl_foot (hW := (less hW))
    | apply h_f
    | with_reducible apply Foot.ite
    | split

theorem zeroTable_foot {W : List Area} {r s : State} (hW : [.cells, .mem, .rg, .arr, .fab, .sg, .fe, .tw, .ic, .err, .csb, .ports, .freeCtr] ⊆ W) (v : Nat) (d : List Byte) (h : Foot W r s) :
    Foot W r (zeroTable v d s) := by
  unfold zeroTable
  repeat' first
    | with_reducible assumption
    | intro _
    | with_reducible apply tallySet_foot (hW := (less hW))
    | with_reducible apply Foot.ite

theorem execSgCreate_foot {W : List Area} {s : State} (hW : [.cells, .mem, .rg, .arr, .fab, .sg, .fe, .tw, .ic, .mbx, .err, .csb, .ports, .freeCtr] ⊆ W) (v : Nat) (host : HostData) {t : State} (e : execSgCreate v host s = .next t) :
    Foot W s t := by
  unfold execSgCreate at e
  refine run_foot e ?_
  intro s' h
  repeat' first
    | with_reducible assumption
    | intro _
    | with_reducible apply onBox_foot
    | with_reducible apply replySt_foot (hW := (less hW))
    | with_reducible apply withGroup_foot (hW := (less hW))
    | with_reducible refine chooseFree_foot (less hW) _ _ (by assumption) ?_
    | with_reducible apply ctxTake_foot (hW := (less hW))
    | with_reducible apply modGroup_foot (hW := (less hW))
    | with_reducible apply replyBox_foot (hW := (less hW))
    | with_reducible apply zeroTable_foot (hW := (less hW))
    | with_reducible apply Foot.ite
    | split

theorem execSgRestart_foot {W : List Area} {s : State} (hW : [.cells, .mem, .rg, .arr, .fab, .sg, .fe, .tw, .ic, .mbx, .err, .csb, .ports, .freeCtr] ⊆ W) (v : Nat) (host : HostData) {t : State} (e : execSgRestart v host s = .next t) :
    Foot W s t := by
  unfold execSgRestart at e
  refine run_foot e ?_
  intro s' h
  repeat' first
    | with_reducible assumption
    | intro _
    | with_reducible apply onBox_foot
    | with_reducible apply replySt_foot (hW := (less hW))
    | with_reducible apply withGroup_foot (hW := (less hW))
    | with_reducible apply modGroup_foot (hW := (less hW))
    | with_reducible apply replyBox_foot (hW := (less hW))
    | with_reducible apply zeroTable_foot (hW := (less hW))
    | with_reducible apply Foot.ite
    | split

theorem execSgDestroy_foot {W : List Area} {s : State} (hW : [.sg, .fe, .ic, .mbx, .err] ⊆ W) (v : Nat) {t : State} (e : execSgDestroy v s = .next t) :
    Foot W s t := by
  unfold execSgDestroy at e
  refine run_foot e ?_
  intro s' h
  repeat' first
    | with_reducible assumption
    | intro _
    | with_reducible apply onBox_foot
    | with_reducible apply replySt_foot (hW := (less hW))
    | with_reducible apply each_foot
    | with_reducible apply taskEnd_foot (hW := (less hW))
    | with_reducible apply removeGroup_foot (hW := (less hW))
    | with_reducible apply Foot.ite
    | exact Or.inl (hW (by decide))
    | with_reducible exact Or.inr rfl
    | with_reducible exact id
    | with_reducible exact Nat.le_refl _
    | (simp only [Foot.lit_eq]; with_reducible apply Foot.litL rfl)
    | split

theorem readDesc_foot {W : List Area} {r s : State} (hW : [.mem, .rg, .fab, .fe, .ic, .err, .ports] ⊆ W) (owner : RunOwner) (source : Nat) (a2 : Task) (size : Nat) (host : HostData) (f : List Byte → HostData → State → State) (h_f : ∀ y0 y1 s', Foot W r s' → Foot W r (f y0 y1 s')) (h : Foot W r s) :
    Foot W r (readDesc owner source a2 size host f s) := by
  unfold readDesc
  repeat' first
    | with_reducible assumption
    | intro _
    | with_reducible apply reading_foot (hW := (less hW))
    | with_reducible apply xlatFault_foot (hW := (less hW))
    | with_reducible apply touchCtl_foot (hW := (less hW))
    | with_reducible apply taskFault_foot (hW := (less hW))
    | apply h_f
    | with_reducible apply Foot.ite
    | split

theorem execStepGate_foot {W : List Area} {s : State} (hW : [.mem, .rg, .fab, .sg, .fe, .ic, .err, .ports] ⊆ W) (seq : Nat) (host : HostData) {t : State} (e : execStepGate seq host s = .next t) :
    Foot W s t := by
  unfold execStepGate at e
  refine run_foot e ?_
  intro s' h
  repeat' first
    | with_reducible assumption
    | intro _
    | with_reducible apply guarded_foot
    | with_reducible apply readDesc_foot (hW := (less hW))
    | with_reducible apply taskFault_foot (hW := (less hW))
    | with_reducible apply modTask_foot (hW := (less hW))
    | with_reducible apply taskEnd_foot (hW := (less hW))
    | with_reducible apply breakGroup_foot (hW := (less hW))
    | with_reducible apply Foot.ite
    | exact Or.inl (hW (by decide))
    | with_reducible exact Or.inr rfl
    | with_reducible exact id
    | with_reducible exact Nat.le_refl _
    | (simp only [Foot.lit_eq]; with_reducible apply Foot.litL rfl)
    | split

theorem execGateExpiry_foot {W : List Area} {s : State} (hW : [.sg, .fe, .ic, .err] ⊆ W) (seq : Nat) {t : State} (e : execGateExpiry seq s = .next t) :
    Foot W s t := by
  unfold execGateExpiry at e
  refine run_foot e ?_
  intro s' h
  repeat' first
    | with_reducible assumption
    | intro _
    | with_reducible apply guarded_foot
    | with_reducible apply taskEnd_foot (hW := (less hW))
    | with_reducible apply breakGroup_foot (hW := (less hW))
    | with_reducible apply Foot.ite
    | exact Or.inl (hW (by decide))
    | with_reducible exact Or.inr rfl
    | with_reducible exact id
    | with_reducible exact Nat.le_refl _
    | (simp only [Foot.lit_eq]; with_reducible apply Foot.litL rfl)
    | split

theorem execKvPass_foot {W : List Area} {s : State} (hW : [.mem, .rg, .fab, .sg, .fe, .ic, .err, .ports] ⊆ W) (seq : Nat) (host : HostData) {t : State} (e : execKvPass seq host s = .next t) :
    Foot W s t := by
  unfold execKvPass at e
  refine run_foot e ?_
  intro s' h
  repeat' first
    | with_reducible assumption
    | intro _
    | with_reducible apply guarded_foot
    | with_reducible apply readDesc_foot (hW := (less hW))
    | with_reducible apply taskFault_foot (hW := (less hW))
    | with_reducible apply modTask_foot (hW := (less hW))
    | with_reducible apply Foot.ite
    | exact Or.inl (hW (by decide))
    | with_reducible exact Or.inr rfl
    | with_reducible exact id
    | with_reducible exact Nat.le_refl _
    | (simp only [Foot.lit_eq]; with_reducible apply Foot.litL rfl)
    | split

theorem kvLocal_foot {W : List Area} {r s : State} (hW : [.cells, .mem, .rg, .fe, .ic, .err] ⊆ W) (i : Nat) (k : Kv) (c : Nat) (data : List Byte) (mark : Nat → Bool) (h : Foot W r s) :
    Foot W r (kvLocal i k c data mark s) := by
  unfold kvLocal
  repeat' first
    | with_reducible assumption
    | intro _
    | with_reducible apply each_foot
    | with_reducible apply writeMem_foot (hW := (less hW))
    | with_reducible apply accessC_foot (hW := (less hW))
    | with_reducible apply xlFill_foot (hW := (less hW))
    | with_reducible apply Foot.ite
    | split

theorem kvRemote_foot {W : List Area} {r s : State} (hW : [.mem, .rg, .sg, .fe] ⊆ W) (k : Kv) (c : Nat) (node : Nat) (data : List Byte) (mark : Nat → Bool) (h : Foot W r s) :
    Foot W r (kvRemote k c node data mark s) := by
  unfold kvRemote
  repeat' first
    | with_reducible assumption
    | intro _
    | with_reducible apply each_foot
    | with_reducible apply xlFill_foot (hW := (less hW))
    | with_reducible apply modKv_foot (hW := (less hW))

theorem kvStart_foot {W : List Area} {r s : State} (hW : [.cells, .mem, .rg, .arr, .fab, .sg, .fe, .tw, .ic, .err, .csb, .ports, .freeCtr] ⊆ W) (k : Kv) (a1 : Task) (host : HostData) (h : Foot W r s) :
    Foot W r (kvStart k a1 host s) := by
  unfold kvStart
  repeat' first
    | with_reducible assumption
    | intro _
    | with_reducible apply endKv_foot (hW := (less hW))
    | with_reducible apply recordFault_foot (hW := (less hW))
    | with_reducible apply reading_foot (hW := (less hW))
    | with_reducible apply touchCtl_foot (hW := (less hW))
    | with_reducible apply modTask_foot (hW := (less hW))
    | with_reducible apply modKv_foot (hW := (less hW))
    | with_reducible apply answerWhen_foot (hW := (less hW))
    | with_reducible apply kvLocal_foot (hW := (less hW))
    | with_reducible apply kvRemote_foot (hW := (less hW))
    | with_reducible apply Foot.ite
    | split

theorem execKvPassCopyStart_foot {W : List Area} {s : State} (hW : [.cells, .mem, .rg, .arr, .fab, .sg, .fe, .tw, .ic, .err, .csb, .ports, .freeCtr] ⊆ W) (seq : Nat) (host : HostData) {t : State} (e : execKvPassCopyStart seq host s = .next t) :
    Foot W s t := by
  unfold execKvPassCopyStart at e
  refine run_foot e ?_
  intro s' h
  repeat' first
    | with_reducible assumption
    | intro _
    | with_reducible apply guarded_foot
    | with_reducible apply kvStart_foot (hW := (less hW))
    | with_reducible apply endKv_foot (hW := (less hW))
    | with_reducible apply Foot.ite
    | split

theorem ledGroup_foot {W : List Area} {r s : State} (hW : [.freeCtr] ⊆ W) (c : Nat) {k : Nat} {t : State} (e : ledGroup c s = some (k, t)) (h : Foot W r s) :
    Foot W r t := by
  unfold ledGroup at e
  try dsimp only at e
  repeat' first
    | split at e
  all_goals first
    | skip
  repeat' first
    | with_reducible assumption
    | intro _
    | with_reducible refine chooseFree_foot (less hW) _ _ (by assumption) ?_

theorem editBatch_foot {W : List Area} {r s : State} (hW : [.cells, .mem, .rg, .fab, .sg, .fe, .ic, .err, .csb, .ports, .freeCtr] ⊆ W) (a0 : Task) (g : Nat) (d : List Byte) (recs : List Byte) (h : Foot W r s) :
    Foot W r (editBatch a0 g d recs s) := by
  unfold editBatch
  repeat' first
    | with_reducible assumption
    | intro _
    | with_reducible apply xlatFault_foot (hW := (less hW))
    | with_reducible apply modGroup_foot (hW := (less hW))
    | with_reducible apply modTask_foot (hW := (less hW))
    | with_reducible apply writeOut_foot (hW := (less hW))
    | with_reducible apply taskEnd_foot (hW := (less hW))
    | with_reducible apply Foot.ite
    | split
    | dsimp only

theorem execBatchEdit_foot {W : List Area} {s : State} (hW : [.cells, .mem, .rg, .fab, .sg, .fe, .ic, .err, .csb, .ports, .freeCtr] ⊆ W) (seq : Nat) (host : HostData) {t : State} (e : execBatchEdit seq host s = .next t) :
    Foot W s t := by
  unfold execBatchEdit at e
  refine run_foot e ?_
  intro s' h
  repeat' first
    | with_reducible assumption
    | intro _
    | with_reducible apply guarded_foot
    | with_reducible apply readDesc_foot (hW := (less hW))
    | with_reducible apply taskFault_foot (hW := (less hW))
    | with_reducible refine ledGroup_foot (less hW) _ (by assumption) ?_
    | with_reducible apply taskEnd_foot (hW := (less hW))
    | with_reducible apply reading_foot (hW := (less hW))
    | with_reducible apply xlatFault_foot (hW := (less hW))
    | with_reducible apply touchCtl_foot (hW := (less hW))
    | with_reducible apply editBatch_foot (hW := (less hW))
    | with_reducible apply Foot.ite
    | split

end Sys2Proof.Laws
end

