-- ==== Sys2Proof/Laws/FootRepair.lean ====
section
/-!
SUPPORT. Footprints of the operations of Machine/Repair.lean.
-/
namespace Sys2Proof.Laws
open Sys2Proof Sys2Proof.Machine
set_option Elab.async false

theorem modSector_foot {W : List Area} {r s : State} (hW : [.fw] ⊆ W) (n : Nat) (f : SectorRun → SectorRun) (h : Foot W r s) :
    Foot W r (modSector n f s) := by
  unfold modSector
  repeat' first
    | with_reducible assumption
    | intro _
    | with_reducible apply Foot.ite
    | exact Or.inl (hW (by decide))
    | with_reducible exact Or.inr rfl
    | with_reducible exact id
    | with_reducible exact Nat.le_refl _
    | (simp only [Foot.lit_eq]; with_reducible apply Foot.litL rfl)

theorem execArraySwap_foot {W : List Area} {s : State} (hW : [.mem, .rg, .arr, .fab, .fe, .tw, .ic, .mbx, .ports] ⊆ W) (own : Option Nat) {t : State} (e : execArraySwap own s = .next t) :
    Foot W s t := by
  unfold execArraySwap at e
  refine run_foot e ?_
  intro s' h
  repeat' first
    | with_reducible assumption
    | intro _
    | with_reducible apply guarded_foot
    | with_reducible apply beginSwap_foot (hW := (less hW))
    | with_reducible apply onBox_foot
    | with_reducible apply replySt_foot (hW := (less hW))
    | with_reducible apply Foot.ite
    | split
    | dsimp only

theorem leaveSector_foot {W : List Area} {r s : State} (hW : [.blk, .mem, .rg, .arr, .lce, .fab, .sg, .fe, .ic, .err, .ports] ⊆ W) (n : Nat) (a1 : Task) (h : Foot W r s) :
    Foot W r (leaveSector n a1 s) := by
  unfold leaveSector
  repeat' first
    | with_reducible assumption
    | intro _
    | with_reducible apply place_foot (hW := (less hW))
    | with_reducible apply modTask_foot (hW := (less hW))
    | with_reducible apply stopLce_foot (hW := (less hW))
    | with_reducible apply Foot.ite
    | exact Or.inl (hW (by decide))
    | with_reducible exact Or.inr rfl
    | with_reducible exact id
    | with_reducible exact Nat.le_refl _
    | (simp only [Foot.lit_eq]; with_reducible apply Foot.litL rfl)
    | split

theorem refuseQueued_foot {W : List Area} {r s : State} (hW : [.lce, .fab, .ic, .err, .ports] ⊆ W) (k : Nat) (h : Foot W r s) :
    Foot W r (refuseQueued k s) := by
  unfold refuseQueued
  repeat' first
    | with_reducible assumption
    | intro _
    | with_reducible apply each_foot
    | with_reducible apply modLce_foot (hW := (less hW))
    | with_reducible apply refuseSub_foot (hW := (less hW))
    | with_reducible apply Foot.ite
    | exact Or.inl (hW (by decide))
    | with_reducible exact Or.inr rfl
    | with_reducible exact id
    | with_reducible exact Nat.le_refl _
    | (simp only [Foot.lit_eq]; with_reducible apply Foot.litL rfl)
    | split

theorem sectorStep_foot {W : List Area} {r s : State} (hW : [.blk, .mem, .rg, .arr, .lce, .fab, .sg, .fe, .ic, .mbx, .fw, .err, .ports] ⊆ W) (n : Nat) (h : Foot W r s) :
    Foot W r (sectorStep n s) := by
  unfold sectorStep
  repeat' first
    | with_reducible assumption
    | intro _
    | with_reducible apply each_foot
    | with_reducible apply modPhys_foot (hW := (less hW))
    | with_reducible apply leaveSector_foot (hW := (less hW))
    | with_reducible apply replyFor_foot (hW := (less hW))
    | with_reducible apply modSector_foot (hW := (less hW))
    | with_reducible apply Foot.ite

theorem execSectorOffline_foot {W : List Area} {s : State} (hW : [.blk, .mem, .rg, .arr, .lce, .fab, .sg, .fe, .ic, .mbx, .fw, .err, .ports] ⊆ W) {t : State} (e : execSectorOffline s = .next t) :
    Foot W s t := by
  unfold execSectorOffline at e
  refine run_foot e ?_
  intro s' h
  repeat' first
    | with_reducible assumption
    | intro _
    | with_reducible apply onBox_foot
    | with_reducible apply replySt_foot (hW := (less hW))
    | with_reducible apply modSector_foot (hW := (less hW))
    | with_reducible apply each_foot
    | with_reducible apply refuseQueued_foot (hW := (less hW))
    | with_reducible apply modLce_foot (hW := (less hW))
    | with_reducible apply requestPre_foot (hW := (less hW))
    | with_reducible apply returnEntries_foot (hW := (less hW))
    | with_reducible apply sectorStep_foot (hW := (less hW))
    | with_reducible apply leaveSector_foot (hW := (less hW))
    | with_reducible apply Foot.ite
    | split

theorem replaceBad_foot {W : List Area} {r s : State} (hW : [.arr] ⊆ W) (n : Nat) (l : Nat) (h : Foot W r s) :
    Foot W r (replaceBad n l s) := by
  unfold replaceBad
  repeat' first
    | with_reducible assumption
    | intro _
    | with_reducible apply modPhys_foot (hW := (less hW))
    | with_reducible apply Foot.ite
    | exact Or.inl (hW (by decide))
    | with_reducible exact Or.inr rfl
    | with_reducible exact id
    | with_reducible exact Nat.le_refl _
    | (simp only [Foot.lit_eq]; with_reducible apply Foot.litL rfl)
    | split
    | dsimp only

theorem sectorTested_foot {W : List Area} {r s : State} (hW : [.arr, .lce, .fe, .ic, .mbx, .fw] ⊆ W) (n : Nat) (h : Foot W r s) :
    Foot W r (sectorTested n s) := by
  unfold sectorTested
  repeat' first
    | with_reducible assumption
    | intro _
    | with_reducible apply each_foot
    | with_reducible apply modPhys_foot (hW := (less hW))
    | with_reducible apply replaceBad_foot (hW := (less hW))
    | with_reducible apply modSector_foot (hW := (less hW))
    | with_reducible apply modLce_foot (hW := (less hW))
    | with_reducible apply refillAll_foot (hW := (less hW))
    | with_reducible apply replyFor_foot (hW := (less hW))
    | with_reducible apply Foot.ite

theorem execSectorOnline_foot {W : List Area} {s : State} (hW : [.arr, .lce, .fe, .ic, .mbx, .fw, .pm] ⊆ W) {t : State} (e : execSectorOnline s = .next t) :
    Foot W s t := by
  unfold execSectorOnline at e
  refine run_foot e ?_
  intro s' h
  repeat' first
    | with_reducible assumption
    | intro _
    | with_reducible apply onBox_foot
    | with_reducible apply replySt_foot (hW := (less hW))
    | with_reducible apply each_foot
    | with_reducible apply modArr_foot (hW := (less hW))
    | with_reducible apply modPhys_foot (hW := (less hW))
    | with_reducible apply sectorTested_foot (hW := (less hW))
    | with_reducible apply modSector_foot (hW := (less hW))
    | with_reducible apply Foot.ite
    | exact Or.inl (hW (by decide))
    | with_reducible exact Or.inr rfl
    | with_reducible exact id
    | with_reducible exact Nat.le_refl _
    | (simp only [Foot.lit_eq]; with_reducible apply Foot.litL rfl)
    | split

theorem execArraySelfTestDone_foot {W : List Area} {s : State} (hW : [.mem, .rg, .arr, .lce, .fab, .fe, .tw, .ic, .mbx, .fw, .ports] ⊆ W) (p : Nat) (pass : Bool) {t : State} (e : execArraySelfTestDone p pass s = .next t) :
    Foot W s t := by
  unfold execArraySelfTestDone at e
  refine run_foot e ?_
  intro s' h
  repeat' first
    | with_reducible assumption
    | intro _
    | with_reducible apply guarded_foot
    | with_reducible apply modPhys_foot (hW := (less hW))
    | with_reducible apply drainOld_foot (hW := (less hW))
    | with_reducible apply beginSwap_foot (hW := (less hW))
    | with_reducible apply sectorTested_foot (hW := (less hW))
    | with_reducible apply modSector_foot (hW := (less hW))
    | with_reducible apply Foot.ite
    | split
    | dsimp only

end Sys2Proof.Laws
end

