-- ==== Sys2Proof/Laws/FootPower.lean ====
section
/-!
SUPPORT. Footprints of the operations of Machine/Power.lean.
-/
namespace Sys2Proof.Laws
open Sys2Proof Sys2Proof.Machine
set_option Elab.async false

theorem activate_foot {W : List Area} {r s : State} (hW : [.mem, .arr, .pm, .ports] ⊆ W) (u : PowerUnit) (h : Foot W r s) :
    Foot W r (activate u s) := by
  unfold activate
  repeat' first
    | with_reducible assumption
    | intro _
    | with_reducible apply modArr_foot (hW := (less hW))
    | with_reducible apply emit_foot (hW := (less hW))
    | with_reducible apply modStack_foot (hW := (less hW))
    | with_reducible apply each_foot
    | with_reducible apply Foot.ite
    | exact Or.inl (hW (by decide))
    | with_reducible exact Or.inr rfl
    | with_reducible exact id
    | with_reducible exact Nat.le_refl _
    | (simp only [Foot.lit_eq]; with_reducible apply Foot.litL rfl)
    | split

theorem leaveDeep_foot {W : List Area} {r s : State} (hW : [.mem, .arr, .pm, .ports] ⊆ W) (h : Foot W r s) :
    Foot W r (leaveDeep s) := by
  unfold leaveDeep
  repeat' first
    | with_reducible assumption
    | intro _
    | with_reducible apply each_foot
    | with_reducible apply activate_foot (hW := (less hW))

theorem execArrayGate_foot {W : List Area} {s : State} (hW : [.arr] ⊆ W) (p : Nat) {t : State} (e : execArrayGate p s = .next t) :
    Foot W s t := by
  unfold execArrayGate at e
  refine run_foot e ?_
  intro s' h
  repeat' first
    | with_reducible assumption
    | intro _
    | with_reducible apply guarded_foot
    | with_reducible apply modArr_foot (hW := (less hW))
    | with_reducible apply Foot.ite

theorem execStackSelfRefreshEntry_foot {W : List Area} {s : State} (hW : [.mem, .ports] ⊆ W) (n : Nat) {t : State} (e : execStackSelfRefreshEntry n s = .next t) :
    Foot W s t := by
  unfold execStackSelfRefreshEntry at e
  refine run_foot e ?_
  intro s' h
  repeat' first
    | with_reducible assumption
    | intro _
    | with_reducible apply guarded_foot
    | with_reducible apply emit_foot (hW := (less hW))
    | with_reducible apply modStack_foot (hW := (less hW))

theorem execSectorDozeEntry_foot {W : List Area} {s : State} (hW : [.pm] ⊆ W) (n : Nat) {t : State} (e : execSectorDozeEntry n s = .next t) :
    Foot W s t := by
  unfold execSectorDozeEntry at e
  refine run_foot e ?_
  intro s' h
  repeat' first
    | with_reducible assumption
    | intro _
    | with_reducible apply guarded_foot
    | with_reducible apply Foot.ite
    | exact Or.inl (hW (by decide))
    | with_reducible exact Or.inr rfl
    | with_reducible exact id
    | with_reducible exact Nat.le_refl _
    | (simp only [Foot.lit_eq]; with_reducible apply Foot.litL rfl)

theorem execBlockRestEntry_foot {W : List Area} {s : State} (hW : [.pm] ⊆ W) {t : State} (e : execBlockRestEntry s = .next t) :
    Foot W s t := by
  unfold execBlockRestEntry at e
  refine run_foot e ?_
  intro s' h
  repeat' first
    | with_reducible assumption
    | intro _
    | with_reducible apply guarded_foot
    | with_reducible apply Foot.ite
    | exact Or.inl (hW (by decide))
    | with_reducible exact Or.inr rfl
    | with_reducible exact id
    | with_reducible exact Nat.le_refl _
    | (simp only [Foot.lit_eq]; with_reducible apply Foot.litL rfl)

theorem execWakeComplete_foot {W : List Area} {s : State} (hW : [.mem, .arr, .pm, .ports] ⊆ W) (u : PowerUnit) {t : State} (e : execWakeComplete u s = .next t) :
    Foot W s t := by
  unfold execWakeComplete at e
  refine run_foot e ?_
  intro s' h
  repeat' first
    | with_reducible assumption
    | intro _
    | with_reducible apply guarded_foot
    | with_reducible apply activate_foot (hW := (less hW))

theorem execPrewake_foot {W : List Area} {s : State} (hW : [.pm] ⊆ W) (u : PowerUnit) {t : State} (e : execPrewake u s = .next t) :
    Foot W s t := by
  unfold execPrewake at e
  refine run_foot e ?_
  intro s' h
  repeat' first
    | with_reducible assumption
    | intro _
    | with_reducible apply guarded_foot
    | with_reducible apply Foot.ite
    | exact Or.inl (hW (by decide))
    | with_reducible exact Or.inr rfl
    | with_reducible exact id
    | with_reducible exact Nat.le_refl _
    | (simp only [Foot.lit_eq]; with_reducible apply Foot.litL rfl)

theorem execVaiWakeTol_foot {W : List Area} {s : State} (hW : [.mem, .arr, .fe, .ic, .mbx, .pm, .ports] ⊆ W) {t : State} (e : execVaiWakeTol s = .next t) :
    Foot W s t := by
  unfold execVaiWakeTol at e
  refine run_foot e ?_
  intro s' h
  repeat' first
    | with_reducible assumption
    | intro _
    | with_reducible apply onBox_foot
    | with_reducible apply replySt_foot (hW := (less hW))
    | with_reducible apply leaveDeep_foot (hW := (less hW))
    | with_reducible apply modVai_foot (hW := (less hW))
    | with_reducible apply Foot.ite

theorem execMaxStateWrite_foot {W : List Area} {s : State} (hW : [.regs, .mem, .arr, .pm, .ports] ⊆ W) (val : W32) {t : State} (e : execMaxStateWrite val s = .next t) :
    Foot W s t := by
  unfold execMaxStateWrite at e
  refine run_foot e ?_
  intro s' h
  repeat' first
    | with_reducible assumption
    | intro _
    | with_reducible apply guarded_foot
    | with_reducible apply leaveDeep_foot (hW := (less hW))
    | with_reducible apply regSet_foot (hW := (less hW))

theorem noteThrottle_foot {W : List Area} {r s : State} (hW : [.pm] ⊆ W) (h : Foot W r s) :
    Foot W r (noteThrottle s) := by
  unfold noteThrottle
  repeat' first
    | with_reducible assumption
    | intro _
    | with_reducible apply Foot.ite
    | exact Or.inl (hW (by decide))
    | with_reducible exact Or.inr rfl
    | with_reducible exact id
    | with_reducible exact Nat.le_refl _
    | (simp only [Foot.lit_eq]; with_reducible apply Foot.litL rfl)

theorem pinThrottle_foot {W : List Area} {r s : State} (hW : [.ic, .pm] ⊆ W) (on : Bool) (h : Foot W r s) :
    Foot W r (pinThrottle on s) := by
  unfold pinThrottle
  repeat' first
    | with_reducible assumption
    | intro _
    | with_reducible apply noteThrottle_foot (hW := (less hW))
    | with_reducible apply arrive_foot (hW := (less hW))
    | with_reducible apply Foot.ite
    | exact Or.inl (hW (by decide))
    | with_reducible exact Or.inr rfl
    | with_reducible exact id
    | with_reducible exact Nat.le_refl _
    | (simp only [Foot.lit_eq]; with_reducible apply Foot.litL rfl)

theorem execThrottleAssert_foot {W : List Area} {s : State} (hW : [.blk, .ic, .pm] ⊆ W) {t : State} (e : execThrottleAssert s = .next t) :
    Foot W s t := by
  unfold execThrottleAssert at e
  dsimp only at e
  unfold run at e
  simp only [Host.Outcome.next.injEq] at e
  subst e
  have h := Foot.refl W s
  repeat' first
    | with_reducible assumption
    | intro _
    | with_reducible apply pinThrottle_foot (hW := (less hW))
    | with_reducible apply Foot.ite
    | exact Or.inl (hW (by decide))
    | with_reducible exact Or.inr rfl
    | with_reducible exact id
    | with_reducible exact Nat.le_refl _
    | (simp only [Foot.lit_eq]; with_reducible apply Foot.litL rfl)

theorem execThrottleRelease_foot {W : List Area} {s : State} (hW : [.blk, .ic, .pm] ⊆ W) {t : State} (e : execThrottleRelease s = .next t) :
    Foot W s t := by
  unfold execThrottleRelease at e
  dsimp only at e
  unfold run at e
  simp only [Host.Outcome.next.injEq] at e
  subst e
  have h := Foot.refl W s
  repeat' first
    | with_reducible assumption
    | intro _
    | with_reducible apply pinThrottle_foot (hW := (less hW))
    | with_reducible apply Foot.ite
    | exact Or.inl (hW (by decide))
    | with_reducible exact Or.inr rfl
    | with_reducible exact id
    | with_reducible exact Nat.le_refl _
    | (simp only [Foot.lit_eq]; with_reducible apply Foot.litL rfl)

theorem execCpbRateChoice_foot {W : List Area} {s : State} (hW : [.ic, .pm] ⊆ W) (load : Nat) {t : State} (e : execCpbRateChoice load s = .next t) :
    Foot W s t := by
  unfold execCpbRateChoice at e
  refine run_foot e ?_
  intro s' h
  repeat' first
    | with_reducible assumption
    | intro _
    | with_reducible apply noteThrottle_foot (hW := (less hW))
    | with_reducible apply arrive_foot (hW := (less hW))
    | with_reducible apply Foot.ite
    | exact Or.inl (hW (by decide))
    | with_reducible exact Or.inr rfl
    | with_reducible exact id
    | with_reducible exact Nat.le_refl _
    | (simp only [Foot.lit_eq]; with_reducible apply Foot.litL rfl)

end Sys2Proof.Laws
end

