-- ==== Sys2Proof/Laws/FootReconf.lean ====
section
/-!
SUPPORT. Footprints of the operations of Machine/Reconf.lean.
-/
namespace Sys2Proof.Laws
open Sys2Proof Sys2Proof.Machine
set_option Elab.async false

theorem cancelTask_foot {W : List Area} {r s : State} (hW : [.blk, .rg, .arr, .lce, .fab, .sg, .fe, .tw, .ic, .err, .ports, .freeCtr] ⊆ W) (a0 : Task) (h : Foot W r s) :
    Foot W r (cancelTask a0 s) := by
  unfold cancelTask
  repeat' first
    | with_reducible assumption
    | intro _
    | with_reducible apply leavePlace_foot (hW := (less hW))
    | with_reducible apply abandonSeq_foot (hW := (less hW))
    | with_reducible apply taskEnd_foot (hW := (less hW))

theorem cancelUnits_foot {W : List Area} {r s : State} (hW : [.blk, .rg, .arr, .lce, .fab, .sg, .fe, .tw, .ic, .err, .ports, .freeCtr] ⊆ W) (h : Foot W r s) :
    Foot W r (cancelUnits s) := by
  unfold cancelUnits
  repeat' first
    | with_reducible assumption
    | intro _
    | with_reducible apply each_foot
    | with_reducible apply modCtx_foot (hW := (less hW))
    | with_reducible apply reissueAll_foot (hW := (less hW))
    | with_reducible apply cancelTask_foot (hW := (less hW))

theorem preemptTasks_foot {W : List Area} {r s : State} (hW : [.arr] ⊆ W) (l : List Task) (h : Foot W r s) :
    Foot W r (preemptTasks l s) := by
  unfold preemptTasks
  repeat' first
    | with_reducible assumption
    | intro _
    | with_reducible apply each_foot
    | with_reducible apply requestPre_foot (hW := (less hW))
    | with_reducible apply Foot.ite
    | split

theorem unqueue_foot {W : List Area} {r s : State} (hW : [.arr, .fe] ⊆ W) (p : Nat) (h : Foot W r s) :
    Foot W r (unqueue p s) := by
  unfold unqueue
  repeat' first
    | with_reducible assumption
    | intro _
    | with_reducible apply each_foot
    | with_reducible apply modArr_foot (hW := (less hW))
    | with_reducible apply modTask_foot (hW := (less hW))
    | with_reducible apply Foot.ite
    | split

theorem rehome_foot {W : List Area} {r s : State} (hW : [.fe] ⊆ W) (a0 : Task) (h : Foot W r s) :
    Foot W r (rehome a0 s) := by
  unfold rehome
  repeat' first
    | with_reducible assumption
    | intro _
    | with_reducible apply modTask_foot (hW := (less hW))

theorem moveRecs_foot {W : List Area} {r s : State} (hW : [.cells, .mem, .arr, .fe, .ic, .err] ⊆ W) (c : Nat) (a : Nat) (h : Foot W r s) :
    Foot W r (moveRecs c a s) := by
  unfold moveRecs
  repeat' first
    | with_reducible assumption
    | intro _
    | with_reducible apply each_foot
    | with_reducible apply recStore_foot (hW := (less hW))
    | with_reducible apply Foot.ite
    | exact Or.inl (hW (by decide))
    | with_reducible exact Or.inr rfl
    | with_reducible exact id
    | with_reducible exact Nat.le_refl _
    | (simp only [Foot.lit_eq]; with_reducible apply Foot.litL rfl)

theorem changeLayout_foot {W : List Area} {r s : State} (hW : [.cells, .mem, .arr, .lce, .fe, .ic, .err] ⊆ W) (a0 : Reconf) (h : Foot W r s) :
    Foot W r (changeLayout a0 s) := by
  unfold changeLayout
  repeat' first
    | with_reducible assumption
    | intro _
    | with_reducible apply each_foot
    | with_reducible apply unqueue_foot (hW := (less hW))
    | with_reducible apply modVai_foot (hW := (less hW))
    | with_reducible apply modCtx_foot (hW := (less hW))
    | with_reducible apply moveRecs_foot (hW := (less hW))
    | with_reducible apply modPart_foot (hW := (less hW))
    | with_reducible apply emptyHrc_foot (hW := (less hW))
    | with_reducible apply rehome_foot (hW := (less hW))
    | with_reducible apply Foot.ite
    | exact Or.inl (hW (by decide))
    | with_reducible exact Or.inr rfl
    | with_reducible exact id
    | with_reducible exact Nat.le_refl _
    | (simp only [Foot.lit_eq]; with_reducible apply Foot.litL rfl)
    | with_reducible apply Foot.foldl
    | with_reducible apply Foot.foldl_snd
    | split

theorem endReconf_foot {W : List Area} {r s : State} (hW : [.arr, .fe, .ic, .mbx] ⊆ W) (a0 : Reconf) (h : Foot W r s) :
    Foot W r (endReconf a0 s) := by
  unfold endReconf
  repeat' first
    | with_reducible assumption
    | intro _
    | with_reducible apply each_foot
    | with_reducible apply freeQueues_foot (hW := (less hW))
    | with_reducible apply modVai_foot (hW := (less hW))
    | with_reducible apply refillAll_foot (hW := (less hW))
    | with_reducible apply replyFor_foot (hW := (less hW))
    | with_reducible apply Foot.ite
    | exact Or.inl (hW (by decide))
    | with_reducible exact Or.inr rfl
    | with_reducible exact id
    | with_reducible exact Nat.le_refl _
    | (simp only [Foot.lit_eq]; with_reducible apply Foot.litL rfl)

theorem reconfStep_foot {W : List Area} {r s : State} (hW : [.cells, .mem, .arr, .lce, .fe, .ic, .mbx, .err, .csb] ⊆ W) (h : Foot W r s) :
    Foot W r (reconfStep s) := by
  unfold reconfStep
  repeat' first
    | with_reducible assumption
    | intro _
    | with_reducible apply each_foot
    | with_reducible apply emptyHrc_foot (hW := (less hW))
    | with_reducible apply changeLayout_foot (hW := (less hW))
    | with_reducible apply endReconf_foot (hW := (less hW))
    | with_reducible apply startScrub_foot (hW := (less hW))
    | with_reducible apply Foot.ite
    | exact Or.inl (hW (by decide))
    | with_reducible exact Or.inr rfl
    | with_reducible exact id
    | with_reducible exact Nat.le_refl _
    | (simp only [Foot.lit_eq]; with_reducible apply Foot.litL rfl)
    | split

theorem beginReconf_foot {W : List Area} {r s : State} (hW : [.blk, .cells, .mem, .rg, .arr, .lce, .fab, .sg, .fe, .tw, .ic, .mbx, .err, .csb, .ports, .freeCtr] ⊆ W) (parts : Nat) (conf : Nat) (touched : Nat) (tag : Bool) (h : Foot W r s) :
    Foot W r (beginReconf parts conf touched tag s) := by
  unfold beginReconf
  repeat' first
    | with_reducible assumption
    | intro _
    | with_reducible apply each_foot
    | with_reducible apply holdQueues_foot (hW := (less hW))
    | with_reducible apply modVai_foot (hW := (less hW))
    | with_reducible apply preemptTasks_foot (hW := (less hW))
    | with_reducible apply reconfStep_foot (hW := (less hW))
    | with_reducible apply cancelUnits_foot (hW := (less hW))
    | with_reducible apply Foot.ite
    | exact Or.inl (hW (by decide))
    | with_reducible exact Or.inr rfl
    | with_reducible exact id
    | with_reducible exact Nat.le_refl _
    | (simp only [Foot.lit_eq]; with_reducible apply Foot.litL rfl)

theorem refuseReconf_foot {W : List Area} {r s : State} (hW : [.fe, .ic, .mbx] ⊆ W) (st : Status) (h : Foot W r s) :
    Foot W r (refuseReconf st s) := by
  unfold refuseReconf
  repeat' first
    | with_reducible assumption
    | intro _
    | with_reducible apply replySt_foot (hW := (less hW))
    | with_reducible apply Foot.ite
    | exact Or.inl (hW (by decide))
    | with_reducible exact Or.inr rfl
    | with_reducible exact id
    | with_reducible exact Nat.le_refl _
    | (simp only [Foot.lit_eq]; with_reducible apply Foot.litL rfl)

theorem execReconfig_foot {W : List Area} {s : State} (hW : [.blk, .cells, .mem, .rg, .arr, .lce, .fab, .sg, .fe, .tw, .ic, .mbx, .err, .csb, .ports, .freeCtr] ⊆ W) {t : State} (e : execReconfig s = .next t) :
    Foot W s t := by
  unfold execReconfig at e
  refine run_foot e ?_
  intro s' h
  repeat' first
    | with_reducible assumption
    | intro _
    | with_reducible apply guarded_foot
    | with_reducible apply onBox_foot
    | with_reducible apply refuseReconf_foot (hW := (less hW))
    | with_reducible apply replySt_foot (hW := (less hW))
    | with_reducible apply beginReconf_foot (hW := (less hW))
    | with_reducible apply Foot.ite
    | exact Or.inl (hW (by decide))
    | with_reducible exact Or.inr rfl
    | with_reducible exact id
    | with_reducible exact Nat.le_refl _
    | (simp only [Foot.lit_eq]; with_reducible apply Foot.litL rfl)

theorem execReconfigDrainExpiry_foot {W : List Area} {s : State} (hW : [.blk, .cells, .mem, .rg, .arr, .lce, .fab, .sg, .fe, .tw, .ic, .mbx, .err, .csb, .ports, .freeCtr] ⊆ W) {t : State} (e : execReconfigDrainExpiry s = .next t) :
    Foot W s t := by
  unfold execReconfigDrainExpiry at e
  refine run_foot e ?_
  intro s' h
  repeat' first
    | with_reducible assumption
    | intro _
    | with_reducible apply guarded_foot
    | with_reducible apply reconfStep_foot (hW := (less hW))
    | with_reducible apply cancelUnits_foot (hW := (less hW))
    | with_reducible apply Foot.ite
    | split

theorem execScrubComplete_foot {W : List Area} {s : State} (hW : [.cells, .mem, .arr, .lce, .fe, .tw, .ic, .mbx, .csb] ⊆ W) (p : Nat) {t : State} (e : execScrubComplete p s = .next t) :
    Foot W s t := by
  unfold execScrubComplete at e
  refine run_foot e ?_
  intro s' h
  repeat' first
    | with_reducible assumption
    | intro _
    | with_reducible apply guarded_foot
    | with_reducible apply endScrub_foot (hW := (less hW))
    | with_reducible apply scrubSteps_foot (hW := (less hW))
    | with_reducible apply endReconf_foot (hW := (less hW))
    | with_reducible apply replyFor_foot (hW := (less hW))
    | with_reducible apply endVai_foot (hW := (less hW))
    | with_reducible apply Foot.ite
    | exact Or.inl (hW (by decide))
    | with_reducible exact Or.inr rfl
    | with_reducible exact id
    | with_reducible exact Nat.le_refl _
    | (simp only [Foot.lit_eq]; with_reducible apply Foot.litL rfl)
    | with_reducible apply Foot.foldl
    | with_reducible apply Foot.foldl_snd
    | split

theorem pauseStep_foot {W : List Area} {r s : State} (hW : [.fe, .ic, .mbx] ⊆ W) (v : Nat) (h : Foot W r s) :
    Foot W r (pauseStep v s) := by
  unfold pauseStep
  repeat' first
    | with_reducible assumption
    | intro _
    | with_reducible apply replyFor_foot (hW := (less hW))
    | with_reducible apply modVai_foot (hW := (less hW))
    | with_reducible apply Foot.ite
    | exact Or.inl (hW (by decide))
    | with_reducible exact Or.inr rfl
    | with_reducible exact id
    | with_reducible exact Nat.le_refl _
    | (simp only [Foot.lit_eq]; with_reducible apply Foot.litL rfl)

theorem execVaiPause_foot {W : List Area} {s : State} (hW : [.arr, .fe, .ic, .mbx] ⊆ W) {t : State} (e : execVaiPause s = .next t) :
    Foot W s t := by
  unfold execVaiPause at e
  refine run_foot e ?_
  intro s' h
  repeat' first
    | with_reducible assumption
    | intro _
    | with_reducible apply guarded_foot
    | with_reducible apply onBox_foot
    | with_reducible apply replySt_foot (hW := (less hW))
    | with_reducible apply holdQueues_foot (hW := (less hW))
    | with_reducible apply modVai_foot (hW := (less hW))
    | with_reducible apply pauseStep_foot (hW := (less hW))
    | with_reducible apply preemptTasks_foot (hW := (less hW))
    | with_reducible apply Foot.ite
    | exact Or.inl (hW (by decide))
    | with_reducible exact Or.inr rfl
    | with_reducible exact id
    | with_reducible exact Nat.le_refl _
    | (simp only [Foot.lit_eq]; with_reducible apply Foot.litL rfl)

theorem execVaiResume_foot {W : List Area} {s : State} (hW : [.arr, .fe, .ic, .mbx] ⊆ W) {t : State} (e : execVaiResume s = .next t) :
    Foot W s t := by
  unfold execVaiResume at e
  refine run_foot e ?_
  intro s' h
  repeat' first
    | with_reducible assumption
    | intro _
    | with_reducible apply onBox_foot
    | with_reducible apply replySt_foot (hW := (less hW))
    | with_reducible apply refillAll_foot (hW := (less hW))
    | with_reducible apply freeQueues_foot (hW := (less hW))
    | with_reducible apply modVai_foot (hW := (less hW))
    | with_reducible apply Foot.ite

end Sys2Proof.Laws
end

