-- ==== Sys2Proof/Laws/FootBeat.lean ====
section
/-!
SUPPORT. Footprints of the operations of Machine/Beat.lean.
-/
namespace Sys2Proof.Laws
open Sys2Proof Sys2Proof.Machine
set_option Elab.async false

theorem setLock_foot {W : List Area} {r s : State} (hW : [.ic, .pm] ⊆ W) (k : Nat) (h : Foot W r s) :
    Foot W r (setLock k s) := by
  unfold setLock
  repeat' first
    | with_reducible assumption
    | intro _
    | with_reducible apply arrive_foot (hW := (less hW))
    | with_reducible apply Foot.ite
    | exact Or.inl (hW (by decide))
    | with_reducible exact Or.inr rfl
    | with_reducible exact id
    | with_reducible exact Nat.le_refl _
    | (simp only [Foot.lit_eq]; with_reducible apply Foot.litL rfl)

theorem loadBeat_foot {W : List Area} {r s : State} (hW : [.pm] ⊆ W) (v : Nat) (jump : Bool) (h : Foot W r s) :
    Foot W r (loadBeat v jump s) := by
  unfold loadBeat
  repeat' first
    | with_reducible assumption
    | intro _
    | with_reducible apply Foot.ite
    | exact Or.inl (hW (by decide))
    | with_reducible exact Or.inr rfl
    | with_reducible exact id
    | with_reducible exact Nat.le_refl _
    | (simp only [Foot.lit_eq]; with_reducible apply Foot.litL rfl)

theorem follow_foot {W : List Area} {r s : State} (hW : [.ic, .pm, .err] ⊆ W) (h : Foot W r s) :
    Foot W r (follow s) := by
  unfold follow
  repeat' first
    | with_reducible assumption
    | intro _
    | with_reducible apply reportCe_foot (hW := (less hW))
    | with_reducible apply Foot.ite
    | exact Or.inl (hW (by decide))
    | with_reducible exact Or.inr rfl
    | with_reducible exact id
    | with_reducible exact Nat.le_refl _
    | (simp only [Foot.lit_eq]; with_reducible apply Foot.litL rfl)
    | split

theorem execBeatOrderedSet_foot {W : List Area} {s : State} (hW : [.fab, .ic, .pm, .err, .freeCtr] ⊆ W) (p : Nat) (set : BeatSet) (intact : Bool) {t : State} (e : execBeatOrderedSet p set s intact = .next t) :
    Foot W s t := by
  unfold execBeatOrderedSet at e
  refine run_foot e ?_
  intro s' h
  repeat' first
    | with_reducible assumption
    | intro _
    | with_reducible apply guarded_foot
    | with_reducible apply setIn_foot (hW := (less hW))
    | with_reducible apply modPort_foot (hW := (less hW))
    | with_reducible apply follow_foot (hW := (less hW))
    | with_reducible apply fresh_foot (hW := (less hW))
    | with_reducible apply loadBeat_foot (hW := (less hW))
    | with_reducible apply setLock_foot (hW := (less hW))
    | with_reducible apply Foot.ite
    | exact Or.inl (hW (by decide))
    | with_reducible exact Or.inr rfl
    | with_reducible exact id
    | with_reducible exact Nat.le_refl _
    | (simp only [Foot.lit_eq]; with_reducible apply Foot.litL rfl)

theorem execBeatUpstreamLoss_foot {W : List Area} {s : State} (hW : [.fab, .ic, .pm, .err] ⊆ W) {t : State} (e : execBeatUpstreamLoss s = .next t) :
    Foot W s t := by
  unfold execBeatUpstreamLoss at e
  refine run_foot e ?_
  intro s' h
  repeat' first
    | with_reducible assumption
    | intro _
    | with_reducible apply guarded_foot
    | with_reducible apply follow_foot (hW := (less hW))
    | with_reducible apply modPort_foot (hW := (less hW))
    | with_reducible apply reportCe_foot (hW := (less hW))
    | with_reducible apply setLock_foot (hW := (less hW))
    | with_reducible apply Foot.ite

theorem execMasterElection_foot {W : List Area} {s : State} (hW : [.ic, .pm] ⊆ W) {t : State} (e : execMasterElection s = .next t) :
    Foot W s t := by
  unfold execMasterElection at e
  refine run_foot e ?_
  intro s' h
  repeat' first
    | with_reducible assumption
    | intro _
    | with_reducible apply guarded_foot
    | with_reducible apply loadBeat_foot (hW := (less hW))
    | with_reducible apply setLock_foot (hW := (less hW))
    | with_reducible apply Foot.ite
    | exact Or.inl (hW (by decide))
    | with_reducible exact Or.inr rfl
    | with_reducible exact id
    | with_reducible exact Nat.le_refl _
    | (simp only [Foot.lit_eq]; with_reducible apply Foot.litL rfl)

theorem execBeatInEdge_foot {W : List Area} {s : State} (hW : [.ic, .pm] ⊆ W) {t : State} (e : execBeatInEdge s = .next t) :
    Foot W s t := by
  unfold execBeatInEdge at e
  refine run_foot e ?_
  intro s' h
  repeat' first
    | with_reducible assumption
    | intro _
    | with_reducible apply guarded_foot
    | with_reducible apply setLock_foot (hW := (less hW))
    | with_reducible apply Foot.ite
    | exact Or.inl (hW (by decide))
    | with_reducible exact Or.inr rfl
    | with_reducible exact id
    | with_reducible exact Nat.le_refl _
    | (simp only [Foot.lit_eq]; with_reducible apply Foot.litL rfl)

theorem execBeatSourceLoss_foot {W : List Area} {s : State} (hW : [.ic, .pm, .err] ⊆ W) {t : State} (e : execBeatSourceLoss s = .next t) :
    Foot W s t := by
  unfold execBeatSourceLoss at e
  refine run_foot e ?_
  intro s' h
  repeat' first
    | with_reducible assumption
    | intro _
    | with_reducible apply guarded_foot
    | with_reducible apply reportCe_foot (hW := (less hW))
    | with_reducible apply setLock_foot (hW := (less hW))

theorem execPtpMessage_foot {W : List Area} {s : State} (hW : [.fab, .ic, .pm, .ports, .freeCtr] ⊆ W) (p : Nat) (event : Bool) (sent : Bool) (stamp : Nat) {t : State} (e : execPtpMessage p s event sent stamp = .next t) :
    Foot W s t := by
  unfold execPtpMessage at e
  refine run_foot e ?_
  intro s' h
  repeat' first
    | with_reducible assumption
    | intro _
    | with_reducible apply guarded_foot
    | with_reducible apply modPort_foot (hW := (less hW))
    | with_reducible apply emit_foot (hW := (less hW))
    | with_reducible apply fresh_foot (hW := (less hW))
    | with_reducible apply setLock_foot (hW := (less hW))
    | with_reducible apply loadBeat_foot (hW := (less hW))
    | with_reducible apply Foot.ite
    | exact Or.inl (hW (by decide))
    | with_reducible exact Or.inr rfl
    | with_reducible exact id
    | with_reducible exact Nat.le_refl _
    | (simp only [Foot.lit_eq]; with_reducible apply Foot.litL rfl)

theorem execBeatSet_foot {W : List Area} {s : State} (hW : [.ic, .mbx, .pm] ⊆ W) {t : State} (e : execBeatSet s = .next t) :
    Foot W s t := by
  unfold execBeatSet at e
  refine run_foot e ?_
  intro s' h
  repeat' first
    | with_reducible assumption
    | intro _
    | with_reducible apply onBox_foot
    | with_reducible apply replySt_foot (hW := (less hW))
    | with_reducible apply loadBeat_foot (hW := (less hW))
    | with_reducible apply Foot.ite

theorem countBeat_foot {W : List Area} {r s : State} (hW : [.ic, .pm, .err] ⊆ W) (h : Foot W r s) :
    Foot W r (countBeat s) := by
  unfold countBeat
  repeat' first
    | with_reducible assumption
    | intro _
    | with_reducible apply reportCe_foot (hW := (less hW))
    | with_reducible apply Foot.ite
    | exact Or.inl (hW (by decide))
    | with_reducible exact Or.inr rfl
    | with_reducible exact id
    | with_reducible exact Nat.le_refl _
    | (simp only [Foot.lit_eq]; with_reducible apply Foot.litL rfl)
    | split

theorem countListen_foot {W : List Area} {r s : State} (hW : [.pm] ⊆ W) (h : Foot W r s) :
    Foot W r (countListen s) := by
  unfold countListen
  repeat' first
    | with_reducible assumption
    | intro _
    | with_reducible apply Foot.ite
    | exact Or.inl (hW (by decide))
    | with_reducible exact Or.inr rfl
    | with_reducible exact id
    | with_reducible exact Nat.le_refl _
    | (simp only [Foot.lit_eq]; with_reducible apply Foot.litL rfl)
    | split

theorem takeSource_foot {W : List Area} {r s : State} (hW : [.ic, .pm] ⊆ W) (h : Foot W r s) :
    Foot W r (takeSource s) := by
  unfold takeSource
  repeat' first
    | with_reducible assumption
    | intro _
    | with_reducible apply setLock_foot (hW := (less hW))
    | with_reducible apply Foot.ite
    | exact Or.inl (hW (by decide))
    | with_reducible exact Or.inr rfl
    | with_reducible exact id
    | with_reducible exact Nat.le_refl _
    | (simp only [Foot.lit_eq]; with_reducible apply Foot.litL rfl)

theorem sendBeats_foot {W : List Area} {r s : State} (hW : [.ports, .freeCtr] ⊆ W) (h : Foot W r s) :
    Foot W r (sendBeats s) := by
  unfold sendBeats
  repeat' first
    | with_reducible assumption
    | intro _
    | with_reducible apply each_foot
    | with_reducible apply fresh_foot (hW := (less hW))
    | with_reducible apply emit_foot (hW := (less hW))
    | with_reducible apply Foot.ite

theorem firmwareChecks_foot {W : List Area} {r s : State} (hW : [.blk, .cells, .mem, .rg, .arr, .lce, .fab, .sg, .fe, .tw, .ic, .mbx, .fw, .err, .csb, .ports] ⊆ W) (h : Foot W r s) :
    Foot W r (firmwareChecks s) := by
  unfold firmwareChecks
  repeat' first
    | with_reducible assumption
    | intro _
    | with_reducible apply reconfStep_foot (hW := (less hW))
    | with_reducible apply each_foot
    | with_reducible apply pauseStep_foot (hW := (less hW))
    | with_reducible apply teardownSettle_foot (hW := (less hW))
    | with_reducible apply swapChecks_foot (hW := (less hW))
    | with_reducible apply sectorStep_foot (hW := (less hW))
    | with_reducible apply Foot.ite

theorem execBeatBoundary_foot {W : List Area} {s : State} (hW : [.blk, .cells, .mem, .rg, .arr, .lce, .fab, .sg, .fe, .tw, .ic, .mbx, .fw, .pm, .err, .csb, .ports, .freeCtr] ⊆ W) {t : State} (e : execBeatBoundary s = .next t) :
    Foot W s t := by
  unfold execBeatBoundary at e
  refine run_foot e ?_
  intro s' h
  repeat' first
    | with_reducible assumption
    | intro _
    | with_reducible apply emit_foot (hW := (less hW))
    | with_reducible apply countBeat_foot (hW := (less hW))
    | with_reducible apply tickTasks_foot (hW := (less hW))
    | with_reducible apply endBeatRuns_foot (hW := (less hW))
    | with_reducible apply sendBeats_foot (hW := (less hW))
    | with_reducible apply takeSource_foot (hW := (less hW))
    | with_reducible apply countListen_foot (hW := (less hW))
    | with_reducible apply handoverRound_foot (hW := (less hW))
    | with_reducible apply firmwareChecks_foot (hW := (less hW))
    | with_reducible apply testGates_foot (hW := (less hW))
    | with_reducible apply Foot.ite
    | exact Or.inl (hW (by decide))
    | with_reducible exact Or.inr rfl
    | with_reducible exact id
    | with_reducible exact Nat.le_refl _
    | (simp only [Foot.lit_eq]; with_reducible apply Foot.litL rfl)

theorem latchVai_foot {W : List Area} {r s : State} (hW : [.fe] ⊆ W) (v : Nat) (h : Foot W r s) :
    Foot W r (latchVai v s) := by
  unfold latchVai
  repeat' first
    | with_reducible assumption
    | intro _
    | with_reducible apply modVai_foot (hW := (less hW))

theorem applyPart_foot {W : List Area} {r s : State} (hW : [.regs, .fe] ⊆ W) (p : Nat) (h : Foot W r s) :
    Foot W r (applyPart p s) := by
  unfold applyPart
  repeat' first
    | with_reducible assumption
    | intro _
    | with_reducible apply each_foot
    | with_reducible apply regSet_foot (hW := (less hW))
    | with_reducible apply modPart_foot (hW := (less hW))
    | with_reducible apply Foot.ite
    | split

theorem addEnergy_foot {W : List Area} {r s : State} (hW : [.pm, .freeCtr] ⊆ W) (p : Option Nat) (h : Foot W r s) :
    Foot W r (addEnergy p s) := by
  unfold addEnergy
  repeat' first
    | with_reducible assumption
    | intro _
    | with_reducible apply fresh_foot (hW := (less hW))
    | with_reducible apply Foot.ite
    | exact Or.inl (hW (by decide))
    | with_reducible exact Or.inr rfl
    | with_reducible exact id
    | with_reducible exact Nat.le_refl _
    | (simp only [Foot.lit_eq]; with_reducible apply Foot.litL rfl)

theorem latchEnergy_foot {W : List Area} {r s : State} (hW : [.pm, .freeCtr] ⊆ W) (h : Foot W r s) :
    Foot W r (latchEnergy s) := by
  unfold latchEnergy
  repeat' first
    | with_reducible assumption
    | intro _
    | with_reducible apply addEnergy_foot (hW := (less hW))
    | with_reducible apply each_foot

theorem newRound_foot {W : List Area} {r s : State} (hW : [.regs, .rg, .arr, .fe, .pm, .freeCtr] ⊆ W) (h : Foot W r s) :
    Foot W r (newRound s) := by
  unfold newRound
  repeat' first
    | with_reducible assumption
    | intro _
    | with_reducible apply applyRates_foot (hW := (less hW))
    | with_reducible apply each_foot
    | with_reducible apply applyPart_foot (hW := (less hW))
    | with_reducible apply latchVai_foot (hW := (less hW))
    | with_reducible apply latchEnergy_foot (hW := (less hW))
    | with_reducible apply turnBegins_foot (hW := (less hW))
    | with_reducible apply Foot.ite
    | exact Or.inl (hW (by decide))
    | with_reducible exact Or.inr rfl
    | with_reducible exact id
    | with_reducible exact Nat.le_refl _
    | (simp only [Foot.lit_eq]; with_reducible apply Foot.litL rfl)

theorem execRoundBoundary_foot {W : List Area} {s : State} (hW : [.regs, .rg, .arr, .fe, .pm, .freeCtr] ⊆ W) {t : State} (e : execRoundBoundary s = .next t) :
    Foot W s t := by
  unfold execRoundBoundary at e
  refine run_foot e ?_
  intro s' h
  repeat' first
    | with_reducible assumption
    | intro _
    | with_reducible apply guarded_foot
    | with_reducible apply oncePerBeat_foot (hW := (less hW))
    | with_reducible apply newRound_foot (hW := (less hW))

theorem takeSnapshot_foot {W : List Area} {r s : State} (hW : [.pm, .ports] ⊆ W) (h : Foot W r s) :
    Foot W r (takeSnapshot s) := by
  unfold takeSnapshot
  repeat' first
    | with_reducible assumption
    | intro _
    | with_reducible apply each_foot
    | with_reducible apply ledPut_foot (hW := (less hW))
    | with_reducible apply Foot.ite
    | exact Or.inl (hW (by decide))
    | with_reducible exact Or.inr rfl
    | with_reducible exact id
    | with_reducible exact Nat.le_refl _
    | (simp only [Foot.lit_eq]; with_reducible apply Foot.litL rfl)

theorem execLedgerSnapshot_foot {W : List Area} {s : State} (hW : [.pm, .ports] ⊆ W) {t : State} (e : execLedgerSnapshot s = .next t) :
    Foot W s t := by
  unfold execLedgerSnapshot at e
  refine run_foot e ?_
  intro s' h
  repeat' first
    | with_reducible assumption
    | intro _
    | with_reducible apply guarded_foot
    | with_reducible apply oncePerBeat_foot (hW := (less hW))
    | with_reducible apply takeSnapshot_foot (hW := (less hW))
    | with_reducible apply Foot.ite

theorem execLedgerHeadWrite_foot {W : List Area} {s : State} (hW : [.regs, .pm, .ports] ⊆ W) (val : W32) {t : State} (e : execLedgerHeadWrite val s = .next t) :
    Foot W s t := by
  unfold execLedgerHeadWrite at e
  refine run_foot e ?_
  intro s' h
  repeat' first
    | with_reducible assumption
    | intro _
    | with_reducible apply guarded_foot
    | with_reducible apply regSet_foot (hW := (less hW))
    | with_reducible apply ledFlush_foot (hW := (less hW))

end Sys2Proof.Laws
end

