-- ==== Sys2Proof/Laws/FootDump.lean ====
section
/-!
SUPPORT. Footprints of the operations of Machine/Dump.lean.
-/
namespace Sys2Proof.Laws
open Sys2Proof Sys2Proof.Machine
set_option Elab.async false

theorem freeBytes_foot {W : List Area} {r s : State} (hW : [.freeCtr] ⊆ W) (h : Foot W r s) :
    Foot W r (freeBytes s).2 := by
  unfold freeBytes
  repeat' first
    | with_reducible assumption
    | intro _
    | with_reducible apply fresh_foot (hW := (less hW))

theorem captureDump_foot {W : List Area} {r s : State} (hW : [.err, .freeCtr] ⊆ W) (h : Foot W r s) :
    Foot W r (captureDump s) := by
  unfold captureDump
  repeat' first
    | with_reducible assumption
    | intro _
    | with_reducible apply freeBytes_foot (hW := (less hW))
    | with_reducible apply Foot.ite
    | exact Or.inl (hW (by decide))
    | with_reducible exact Or.inr rfl
    | with_reducible exact id
    | with_reducible exact Nat.le_refl _
    | (simp only [Foot.lit_eq]; with_reducible apply Foot.litL rfl)

theorem execDumpCopy_foot {W : List Area} {s : State} (hW : [.regs, .err] ⊆ W) (val : W32) {t : State} (e : execDumpCopy val s = .next t) :
    Foot W s t := by
  unfold execDumpCopy at e
  refine run_foot e ?_
  intro s' h
  repeat' first
    | with_reducible assumption
    | intro _
    | with_reducible apply guarded_foot
    | with_reducible apply regWrite_foot (hW := (less hW))
    | with_reducible apply Foot.ite
    | exact Or.inl (hW (by decide))
    | with_reducible exact Or.inr rfl
    | with_reducible exact id
    | with_reducible exact Nat.le_refl _
    | (simp only [Foot.lit_eq]; with_reducible apply Foot.litL rfl)

theorem execDumpCopyDone_foot {W : List Area} {s : State} (hW : [.err, .ports] ⊆ W) (refused : Bool) {t : State} (e : execDumpCopyDone refused s = .next t) :
    Foot W s t := by
  unfold execDumpCopyDone at e
  refine run_foot e ?_
  intro s' h
  repeat' first
    | with_reducible assumption
    | intro _
    | with_reducible apply guarded_foot
    | with_reducible apply hostWriteM_foot (hW := (less hW))
    | with_reducible apply Foot.ite
    | exact Or.inl (hW (by decide))
    | with_reducible exact Or.inr rfl
    | with_reducible exact id
    | with_reducible exact Nat.le_refl _
    | (simp only [Foot.lit_eq]; with_reducible apply Foot.litL rfl)

theorem execDumpClr_foot {W : List Area} {s : State} (hW : [.fw, .err] ⊆ W) (val : W32) {t : State} (e : execDumpClr val s = .next t) :
    Foot W s t := by
  unfold execDumpClr at e
  refine run_foot e ?_
  intro s' h
  repeat' first
    | with_reducible assumption
    | intro _
    | with_reducible apply guarded_foot
    | with_reducible apply Foot.ite
    | exact Or.inl (hW (by decide))
    | with_reducible exact Or.inr rfl
    | with_reducible exact id
    | with_reducible exact Nat.le_refl _
    | (simp only [Foot.lit_eq]; with_reducible apply Foot.litL rfl)

theorem execDumpFlashCopy_foot {W : List Area} {s : State} (hW : [.fw, .err] ⊆ W) {t : State} (e : execDumpFlashCopy s = .next t) :
    Foot W s t := by
  unfold execDumpFlashCopy at e
  refine run_foot e ?_
  intro s' h
  repeat' first
    | with_reducible assumption
    | intro _
    | with_reducible apply guarded_foot
    | with_reducible apply Foot.ite
    | exact Or.inl (hW (by decide))
    | with_reducible exact Or.inr rfl
    | with_reducible exact id
    | with_reducible exact Nat.le_refl _
    | (simp only [Foot.lit_eq]; with_reducible apply Foot.litL rfl)

theorem execDumpFlashCopyDone_foot {W : List Area} {s : State} (hW : [.fw, .err] ⊆ W) {t : State} (e : execDumpFlashCopyDone s = .next t) :
    Foot W s t := by
  unfold execDumpFlashCopyDone at e
  refine run_foot e ?_
  intro s' h
  repeat' first
    | with_reducible assumption
    | intro _
    | with_reducible apply guarded_foot
    | with_reducible apply Foot.ite
    | exact Or.inl (hW (by decide))
    | with_reducible exact Or.inr rfl
    | with_reducible exact id
    | with_reducible exact Nat.le_refl _
    | (simp only [Foot.lit_eq]; with_reducible apply Foot.litL rfl)

theorem execErrLogHeadWrite_foot {W : List Area} {s : State} (hW : [.ic, .err] ⊆ W) (val : W32) {t : State} (e : execErrLogHeadWrite val s = .next t) :
    Foot W s t := by
  unfold execErrLogHeadWrite at e
  refine run_foot e ?_
  intro s' h
  repeat' first
    | with_reducible assumption
    | intro _
    | with_reducible apply guarded_foot
    | with_reducible apply reportCe_foot (hW := (less hW))
    | with_reducible apply Foot.ite
    | exact Or.inl (hW (by decide))
    | with_reducible exact Or.inr rfl
    | with_reducible exact id
    | with_reducible exact Nat.le_refl _
    | (simp only [Foot.lit_eq]; with_reducible apply Foot.litL rfl)

end Sys2Proof.Laws
end

