-- ==== Sys2Proof/Laws/FootFabEth.lean ====
section
/-!
SUPPORT. Footprints of the operations of Machine/FabEth.lean.
-/
namespace Sys2Proof.Laws
open Sys2Proof Sys2Proof.Machine
set_option Elab.async false

theorem resendAll_foot {W : List Area} {r s : State} (hW : [.fab, .ports] ⊆ W) (p : Nat) (k : Nat) (h : Foot W r s) :
    Foot W r (resendAll p k s) := by
  unfold resendAll
  repeat' first
    | with_reducible assumption
    | intro _
    | with_reducible apply modPeer_foot (hW := (less hW))
    | with_reducible apply each_foot
    | with_reducible apply sendFrame_foot (hW := (less hW))
    | with_reducible apply modPort_foot (hW := (less hW))

theorem takeFrame_foot {W : List Area} {r s : State} (hW : [.fab, .ports] ⊆ W) (p : Nat) (k : Nat) (l : List Packet) (h : Foot W r s) :
    Foot W r (takeFrame p k l s) := by
  unfold takeFrame
  repeat' first
    | with_reducible assumption
    | intro _
    | with_reducible apply each_foot
    | with_reducible apply countDrop_foot (hW := (less hW))
    | with_reducible apply modPeer_foot (hW := (less hW))
    | with_reducible apply modPort_foot (hW := (less hW))
    | with_reducible apply sendFrame_foot (hW := (less hW))

theorem takeDuplicate_foot {W : List Area} {r s : State} (hW : [.fab, .ports] ⊆ W) (p : Nat) (k : Nat) (psn : Nat) (h : Foot W r s) :
    Foot W r (takeDuplicate p k psn s) := by
  unfold takeDuplicate
  repeat' first
    | with_reducible assumption
    | intro _
    | with_reducible apply each_foot
    | with_reducible apply sendOn_foot (hW := (less hW))
    | with_reducible apply sendFrame_foot (hW := (less hW))

theorem takeTransport_foot {W : List Area} {r s : State} (hW : [.fab, .ports] ⊆ W) (p : Nat) (k : Nat) (f : EthFrame) (h : Foot W r s) :
    Foot W r (takeTransport p k f s) := by
  unfold takeTransport
  repeat' first
    | with_reducible assumption
    | intro _
    | with_reducible apply modPeer_foot (hW := (less hW))
    | with_reducible apply pump_foot (hW := (less hW))
    | with_reducible apply resendAll_foot (hW := (less hW))
    | with_reducible apply Foot.ite

theorem execEthernetFrame_foot {W : List Area} {s : State} (hW : [.fab, .ports] ⊆ W) (p : Nat) (f : EthFrame) (cor : Nat) (unc : Nat) {t : State} (e : execEthernetFrame p f s cor unc = .next t) :
    Foot W s t := by
  unfold execEthernetFrame at e
  refine run_foot e ?_
  intro s' h
  repeat' first
    | with_reducible assumption
    | intro _
    | with_reducible apply guarded_foot
    | with_reducible apply countRx_foot (hW := (less hW))
    | with_reducible apply countDrop_foot (hW := (less hW))
    | with_reducible apply takeTransport_foot (hW := (less hW))
    | with_reducible apply takeFrame_foot (hW := (less hW))
    | with_reducible apply sendFrame_foot (hW := (less hW))
    | with_reducible apply takeDuplicate_foot (hW := (less hW))
    | with_reducible apply Foot.ite
    | split

theorem losePeer_foot {W : List Area} {r s : State} (hW : [.cells, .mem, .rg, .arr, .lce, .fab, .sg, .fe, .tw, .ic, .err, .csb, .ports, .freeCtr] ⊆ W) (k : Nat) (h : Foot W r s) :
    Foot W r (losePeer k s) := by
  unfold losePeer
  repeat' first
    | with_reducible assumption
    | intro _
    | with_reducible apply failFrames_foot (hW := (less hW))
    | with_reducible apply each_foot
    | with_reducible apply settleReq_foot (hW := (less hW))
    | with_reducible apply Foot.ite

theorem execRetransmitTimeout_foot {W : List Area} {s : State} (hW : [.cells, .mem, .rg, .arr, .lce, .fab, .sg, .fe, .tw, .ic, .err, .csb, .ports, .freeCtr] ⊆ W) (k : Nat) {t : State} (e : execRetransmitTimeout k s = .next t) :
    Foot W s t := by
  unfold execRetransmitTimeout at e
  refine run_foot e ?_
  intro s' h
  repeat' first
    | with_reducible assumption
    | intro _
    | with_reducible apply guarded_foot
    | with_reducible apply modPeer_foot (hW := (less hW))
    | with_reducible apply resendAll_foot (hW := (less hW))
    | with_reducible apply losePeer_foot (hW := (less hW))
    | with_reducible apply Foot.ite

theorem execRateRecovery_foot {W : List Area} {s : State} (hW : [.fab] ⊆ W) (k : Nat) {t : State} (e : execRateRecovery k s = .next t) :
    Foot W s t := by
  unfold execRateRecovery at e
  refine run_foot e ?_
  intro s' h
  repeat' first
    | with_reducible assumption
    | intro _
    | with_reducible apply modPeer_foot (hW := (less hW))

end Sys2Proof.Laws
end

