-- ==== Sys2Proof/Laws/FootFabServe.lean ====
section
/-!
SUPPORT. Footprints of the operations of Machine/FabServe.lean.
-/
namespace Sys2Proof.Laws
open Sys2Proof Sys2Proof.Machine
set_option Elab.async false

theorem execReadRequest_foot {W : List Area} {s : State} (hW : [.cells, .mem, .rg, .arr, .fab, .sg, .fe, .tw, .ic, .err, .csb, .ports, .freeCtr] ⊆ W) (p : Nat) (ecc : List MemError) {t : State} (e : execReadRequest p s ecc = .next t) :
    Foot W s t := by
  unfold execReadRequest at e
  refine run_foot e ?_
  intro s' h
  repeat' first
    | with_reducible assumption
    | intro _
    | with_reducible apply serve_foot (hW := (less hW))
    | with_reducible apply answer_foot (hW := (less hW))
    | with_reducible apply access_foot (hW := (less hW))
    | with_reducible apply memErrors_foot (hW := (less hW))
    | with_reducible apply answerWhen_foot (hW := (less hW))
    | with_reducible apply Foot.ite

theorem execWriteRequest_foot {W : List Area} {s : State} (hW : [.cells, .mem, .rg, .arr, .fab, .sg, .fe, .tw, .ic, .err, .csb, .ports, .freeCtr] ⊆ W) (p : Nat) {t : State} (e : execWriteRequest p s = .next t) :
    Foot W s t := by
  unfold execWriteRequest at e
  refine run_foot e ?_
  intro s' h
  repeat' first
    | with_reducible assumption
    | intro _
    | with_reducible apply serve_foot (hW := (less hW))
    | with_reducible apply answer_foot (hW := (less hW))
    | with_reducible apply answerWhen_foot (hW := (less hW))
    | with_reducible apply writeMem_foot (hW := (less hW))
    | with_reducible apply access_foot (hW := (less hW))
    | with_reducible apply Foot.ite

theorem execWriteLs_foot {W : List Area} {s : State} (hW : [.cells, .mem, .arr, .fab, .fe, .ic, .err, .ports] ⊆ W) (p : Nat) {t : State} (e : execWriteLs p s = .next t) :
    Foot W s t := by
  unfold execWriteLs at e
  refine run_foot e ?_
  intro s' h
  repeat' first
    | with_reducible assumption
    | intro _
    | with_reducible apply serve_foot (hW := (less hW))
    | with_reducible apply answer_foot (hW := (less hW))
    | with_reducible refine windowWrite_foot (less hW) _ _ _ _ _ (by assumption) ?_
    | with_reducible apply Foot.ite
    | split

theorem serveAtomic_foot {W : List Area} {r s : State} (hW : [.cells, .mem, .rg, .arr, .fab, .sg, .fe, .tw, .ic, .err, .csb, .ports, .freeCtr] ⊆ W) (p : Nat) (opc : Nat) (kind : Nat) (ecc : List MemError) (h : Foot W r s) :
    Foot W r (serveAtomic p opc kind ecc s) := by
  unfold serveAtomic
  repeat' first
    | with_reducible assumption
    | intro _
    | with_reducible apply serve_foot (hW := (less hW))
    | with_reducible apply answer_foot (hW := (less hW))
    | with_reducible apply access_foot (hW := (less hW))
    | with_reducible apply memErrors_foot (hW := (less hW))
    | with_reducible apply atomicAt_foot (hW := (less hW))
    | with_reducible apply answerWhen_foot (hW := (less hW))
    | with_reducible apply Foot.ite

theorem execAddRequest_foot {W : List Area} {s : State} (hW : [.cells, .mem, .rg, .arr, .fab, .sg, .fe, .tw, .ic, .err, .csb, .ports, .freeCtr] ⊆ W) (p : Nat) (ecc : List MemError) {t : State} (e : execAddRequest p s ecc = .next t) :
    Foot W s t := by
  unfold execAddRequest at e
  refine run_foot e ?_
  intro s' h
  repeat' first
    | with_reducible assumption
    | intro _
    | with_reducible apply serveAtomic_foot (hW := (less hW))

theorem execFadd_foot {W : List Area} {s : State} (hW : [.cells, .mem, .rg, .arr, .fab, .sg, .fe, .tw, .ic, .err, .csb, .ports, .freeCtr] ⊆ W) (p : Nat) (ecc : List MemError) {t : State} (e : execFadd p s ecc = .next t) :
    Foot W s t := by
  unfold execFadd at e
  refine run_foot e ?_
  intro s' h
  repeat' first
    | with_reducible assumption
    | intro _
    | with_reducible apply serveAtomic_foot (hW := (less hW))

theorem execCas_foot {W : List Area} {s : State} (hW : [.cells, .mem, .rg, .arr, .fab, .sg, .fe, .tw, .ic, .err, .csb, .ports, .freeCtr] ⊆ W) (p : Nat) (ecc : List MemError) {t : State} (e : execCas p s ecc = .next t) :
    Foot W s t := by
  unfold execCas at e
  refine run_foot e ?_
  intro s' h
  repeat' first
    | with_reducible assumption
    | intro _
    | with_reducible apply serveAtomic_foot (hW := (less hW))

theorem execTsig_foot {W : List Area} {s : State} (hW : [.cells, .mem, .rg, .arr, .fab, .sg, .fe, .tw, .ic, .err, .csb, .ports, .freeCtr] ⊆ W) (p : Nat) {t : State} (e : execTsig p s = .next t) :
    Foot W s t := by
  unfold execTsig at e
  refine run_foot e ?_
  intro s' h
  repeat' first
    | with_reducible assumption
    | intro _
    | with_reducible apply serve_foot (hW := (less hW))
    | with_reducible apply answer_foot (hW := (less hW))
    | with_reducible apply tallyAdd_foot (hW := (less hW))
    | with_reducible apply Foot.ite

theorem fromValid_foot {W : List Area} {r s : State} (hW : [.fab] ⊆ W) (p : Nat) (k : Packet) (f : State → State) (h_f : ∀ s', Foot W r s' → Foot W r (f s')) (h : Foot W r s) :
    Foot W r (fromValid p k f s) := by
  unfold fromValid
  repeat' first
    | with_reducible assumption
    | intro _
    | with_reducible apply countDrop_foot (hW := (less hW))
    | apply h_f
    | with_reducible apply Foot.ite

theorem execFwmsg_foot {W : List Area} {s : State} (hW : [.fab, .ports] ⊆ W) (p : Nat) {t : State} (e : execFwmsg p s = .next t) :
    Foot W s t := by
  unfold execFwmsg at e
  refine run_foot e ?_
  intro s' h
  repeat' first
    | with_reducible assumption
    | intro _
    | with_reducible apply serve_foot (hW := (less hW))
    | with_reducible apply fromValid_foot (hW := (less hW))
    | with_reducible apply answer_foot (hW := (less hW))
    | with_reducible apply Foot.ite
    | split

theorem respondTo_foot {W : List Area} {r s : State} (hW : [.cells, .mem, .rg, .arr, .lce, .fab, .sg, .fe, .tw, .ic, .err, .csb, .ports, .freeCtr] ⊆ W) (p : Nat) (opc : Nat) (fits : Req → Bool) (h : Foot W r s) :
    Foot W r (respondTo p opc fits s) := by
  unfold respondTo
  repeat' first
    | with_reducible assumption
    | intro _
    | with_reducible apply onPacket_foot (hW := (less hW))
    | with_reducible apply settleReq_foot (hW := (less hW))
    | with_reducible apply countDrop_foot (hW := (less hW))
    | with_reducible apply Foot.ite
    | split

theorem execReadRsp_foot {W : List Area} {s : State} (hW : [.cells, .mem, .rg, .arr, .lce, .fab, .sg, .fe, .tw, .ic, .err, .csb, .ports, .freeCtr] ⊆ W) (p : Nat) {t : State} (e : execReadRsp p s = .next t) :
    Foot W s t := by
  unfold execReadRsp at e
  refine run_foot e ?_
  intro s' h
  repeat' first
    | with_reducible assumption
    | intro _
    | with_reducible apply respondTo_foot (hW := (less hW))

theorem execAckResponse_foot {W : List Area} {s : State} (hW : [.cells, .mem, .rg, .arr, .lce, .fab, .sg, .fe, .tw, .ic, .err, .csb, .ports, .freeCtr] ⊆ W) (p : Nat) {t : State} (e : execAckResponse p s = .next t) :
    Foot W s t := by
  unfold execAckResponse at e
  refine run_foot e ?_
  intro s' h
  repeat' first
    | with_reducible assumption
    | intro _
    | with_reducible apply respondTo_foot (hW := (less hW))

theorem execAtomRsp_foot {W : List Area} {s : State} (hW : [.cells, .mem, .rg, .arr, .lce, .fab, .sg, .fe, .tw, .ic, .err, .csb, .ports, .freeCtr] ⊆ W) (p : Nat) {t : State} (e : execAtomRsp p s = .next t) :
    Foot W s t := by
  unfold execAtomRsp at e
  refine run_foot e ?_
  intro s' h
  repeat' first
    | with_reducible assumption
    | intro _
    | with_reducible apply respondTo_foot (hW := (less hW))

theorem execReservedOpcDiscard_foot {W : List Area} {s : State} (hW : [.fab, .ic, .err, .ports] ⊆ W) (p : Nat) {t : State} (e : execReservedOpcDiscard p s = .next t) :
    Foot W s t := by
  unfold execReservedOpcDiscard at e
  refine run_foot e ?_
  intro s' h
  repeat' first
    | with_reducible assumption
    | intro _
    | with_reducible apply reportCe_foot (hW := (less hW))
    | with_reducible apply takeRx_foot (hW := (less hW))
    | with_reducible apply Foot.ite
    | split

theorem execRequestTimeout_foot {W : List Area} {s : State} (hW : [.cells, .mem, .rg, .arr, .lce, .fab, .sg, .fe, .tw, .ic, .err, .csb, .ports, .freeCtr] ⊆ W) (tag : Nat) {t : State} (e : execRequestTimeout tag s = .next t) :
    Foot W s t := by
  unfold execRequestTimeout at e
  refine run_foot e ?_
  intro s' h
  repeat' first
    | with_reducible assumption
    | intro _
    | with_reducible apply settleReq_foot (hW := (less hW))
    | with_reducible apply Foot.ite
    | split

theorem cannotForward_foot {W : List Area} {r s : State} (hW : [.fab, .ports] ⊆ W) (p : Nat) (k : Packet) (lost : Bool) (count : Bool) (h : Foot W r s) :
    Foot W r (cannotForward p k lost count s) := by
  unfold cannotForward
  repeat' first
    | with_reducible assumption
    | intro _
    | with_reducible apply respond_foot (hW := (less hW))
    | with_reducible apply countDrop_foot (hW := (less hW))
    | with_reducible apply Foot.ite

theorem forward_foot {W : List Area} {r s : State} (hW : [.fab, .ports] ⊆ W) (p : Nat) (k : Packet) (h : Foot W r s) :
    Foot W r (forward p k s) := by
  unfold forward
  repeat' first
    | with_reducible assumption
    | intro _
    | with_reducible apply takeRx_foot (hW := (less hW))
    | with_reducible apply putOn_foot (hW := (less hW))
    | with_reducible apply modPort_foot (hW := (less hW))
    | with_reducible apply countDrop_foot (hW := (less hW))
    | with_reducible apply cannotForward_foot (hW := (less hW))
    | with_reducible apply Foot.ite

theorem execPacketForward_foot {W : List Area} {s : State} (hW : [.fab, .ports] ⊆ W) (p : Nat) {t : State} (e : execPacketForward p s = .next t) :
    Foot W s t := by
  unfold execPacketForward at e
  refine run_foot e ?_
  intro s' h
  repeat' first
    | with_reducible assumption
    | intro _
    | with_reducible apply forward_foot (hW := (less hW))
    | with_reducible apply Foot.ite
    | split

end Sys2Proof.Laws
end

