-- ==== Sys2Proof/Laws/FootIntCtl.lean ====
section
/-!
SUPPORT. Footprints of the operations of Machine/IntCtl.lean.
-/
namespace Sys2Proof.Laws
open Sys2Proof Sys2Proof.Machine
set_option Elab.async false

theorem sendMsix_foot {W : List Area} {r s : State} (hW : [.ic, .ports] ⊆ W) (v : Nat) (h : Foot W r s) :
    Foot W r (sendMsix v s) := by
  unfold sendMsix
  repeat' first
    | with_reducible assumption
    | intro _
    | with_reducible apply emit_foot (hW := (less hW))
    | with_reducible apply Foot.ite
    | exact Or.inl (hW (by decide))
    | with_reducible exact Or.inr rfl
    | with_reducible exact id
    | with_reducible exact Nat.le_refl _
    | (simp only [Foot.lit_eq]; with_reducible apply Foot.litL rfl)

theorem takeArrivals_foot {W : List Area} {r s : State} (hW : [.ic] ⊆ W) (a0 : Nat) (n : Nat) (h : Foot W r s) :
    Foot W r (takeArrivals a0 n s) := by
  unfold takeArrivals
  repeat' first
    | with_reducible assumption
    | intro _
    | with_reducible apply modSrc_foot (hW := (less hW))
    | with_reducible apply Foot.ite
    | exact Or.inl (hW (by decide))
    | with_reducible exact Or.inr rfl
    | with_reducible exact id
    | with_reducible exact Nat.le_refl _
    | (simp only [Foot.lit_eq]; with_reducible apply Foot.litL rfl)
    | split

theorem holdOff_foot {W : List Area} {r s : State} (hW : [.ic] ⊆ W) (n : Nat) (h : Foot W r s) :
    Foot W r (holdOff n s) := by
  unfold holdOff
  repeat' first
    | with_reducible assumption
    | intro _
    | with_reducible apply Foot.ite
    | exact Or.inl (hW (by decide))
    | with_reducible exact Or.inr rfl
    | with_reducible exact id
    | with_reducible exact Nat.le_refl _
    | (simp only [Foot.lit_eq]; with_reducible apply Foot.litL rfl)

theorem writeRecord_foot {W : List Area} {r s : State} (hW : [.fe, .ic, .ports] ⊆ W) (a0 : Nat) (n : Nat) (h : Foot W r s) :
    Foot W r (writeRecord a0 n s) := by
  unfold writeRecord
  repeat' first
    | with_reducible assumption
    | intro _
    | with_reducible apply holdOff_foot (hW := (less hW))
    | with_reducible apply takeArrivals_foot (hW := (less hW))
    | with_reducible apply hostWriteM_foot (hW := (less hW))
    | with_reducible apply hostWriteV_foot (hW := (less hW))
    | with_reducible apply modVai_foot (hW := (less hW))
    | with_reducible apply sendMsix_foot (hW := (less hW))
    | with_reducible apply Foot.ite
    | exact Or.inl (hW (by decide))
    | with_reducible exact Or.inr rfl
    | with_reducible exact id
    | with_reducible exact Nat.le_refl _
    | (simp only [Foot.lit_eq]; with_reducible apply Foot.litL rfl)

theorem startHandler_foot {W : List Area} {r s : State} (hW : [.ic] ⊆ W) (p : Nat) (h : Foot W r s) :
    Foot W r (startHandler p s) := by
  unfold startHandler
  repeat' first
    | with_reducible assumption
    | intro _
    | with_reducible apply Foot.ite
    | exact Or.inl (hW (by decide))
    | with_reducible exact Or.inr rfl
    | with_reducible exact id
    | with_reducible exact Nat.le_refl _
    | (simp only [Foot.lit_eq]; with_reducible apply Foot.litL rfl)
    | split
    | dsimp only

theorem writeProc_foot {W : List Area} {r s : State} (hW : [.ic] ⊆ W) (p : Nat) (n : Nat) (h : Foot W r s) :
    Foot W r (writeProc p n s) := by
  unfold writeProc
  repeat' first
    | with_reducible assumption
    | intro _
    | with_reducible apply holdOff_foot (hW := (less hW))
    | with_reducible apply takeArrivals_foot (hW := (less hW))
    | with_reducible apply startHandler_foot (hW := (less hW))
    | with_reducible apply Foot.ite
    | exact Or.inl (hW (by decide))
    | with_reducible exact Or.inr rfl
    | with_reducible exact id
    | with_reducible exact Nat.le_refl _
    | (simp only [Foot.lit_eq]; with_reducible apply Foot.litL rfl)

theorem handled_foot {W : List Area} {r s : State} (hW : [.ic] ⊆ W) (p : Nat) (n : Nat) (h : Foot W r s) :
    Foot W r (handled p n s) := by
  unfold handled
  repeat' first
    | with_reducible assumption
    | intro _
    | with_reducible apply startHandler_foot (hW := (less hW))
    | with_reducible apply Foot.ite
    | exact Or.inl (hW (by decide))
    | with_reducible exact Or.inr rfl
    | with_reducible exact id
    | with_reducible exact Nat.le_refl _
    | (simp only [Foot.lit_eq]; with_reducible apply Foot.litL rfl)

theorem execEventRecordWrite_foot {W : List Area} {s : State} (hW : [.fe, .ic, .ports] ⊆ W) (target : Nat) {t : State} (e : execEventRecordWrite target s = .next t) :
    Foot W s t := by
  unfold execEventRecordWrite at e
  refine run_foot e ?_
  intro s' h
  repeat' first
    | with_reducible assumption
    | intro _
    | with_reducible apply writeRecord_foot (hW := (less hW))
    | with_reducible apply writeProc_foot (hW := (less hW))
    | with_reducible apply Foot.ite
    | split

theorem execHoldoffExpiry_foot {W : List Area} {s : State} (hW : [.ic] ⊆ W) (g : Nat) {t : State} (e : execHoldoffExpiry g s = .next t) :
    Foot W s t := by
  unfold execHoldoffExpiry at e
  refine run_foot e ?_
  intro s' h
  repeat' first
    | with_reducible assumption
    | intro _
    | with_reducible apply Foot.ite
    | exact Or.inl (hW (by decide))
    | with_reducible exact Or.inr rfl
    | with_reducible exact id
    | with_reducible exact Nat.le_refl _
    | (simp only [Foot.lit_eq]; with_reducible apply Foot.litL rfl)

theorem execPendingClear_foot {W : List Area} {s : State} (hW : [.ic] ⊆ W) (n : Nat) {t : State} (e : execPendingClear n s = .next t) :
    Foot W s t := by
  unfold execPendingClear at e
  refine run_foot e ?_
  intro s' h
  repeat' first
    | with_reducible assumption
    | intro _
    | with_reducible apply guarded_foot
    | with_reducible apply modSrc_foot (hW := (less hW))

theorem execSwset_foot {W : List Area} {s : State} (hW : [.ic] ⊆ W) (n : Nat) {t : State} (e : execSwset n s = .next t) :
    Foot W s t := by
  unfold execSwset at e
  refine run_foot e ?_
  intro s' h
  repeat' first
    | with_reducible assumption
    | intro _
    | with_reducible apply guarded_foot
    | with_reducible apply modSrc_foot (hW := (less hW))
    | with_reducible apply arrive_foot (hW := (less hW))

theorem execIcSync_foot {W : List Area} {s : State} (hW : [.ports] ⊆ W) (req : Nat) {t : State} (e : execIcSync req s = .next t) :
    Foot W s t := by
  unfold execIcSync at e
  refine run_foot e ?_
  intro s' h
  repeat' first
    | with_reducible assumption
    | intro _
    | with_reducible apply guarded_foot
    | with_reducible apply emit_foot (hW := (less hW))

theorem execSourceConfigWrite_foot {W : List Area} {s : State} (hW : [.ic] ⊆ W) (n : Nat) (val : W32) {t : State} (e : execSourceConfigWrite n val s = .next t) :
    Foot W s t := by
  unfold execSourceConfigWrite at e
  refine run_foot e ?_
  intro s' h
  repeat' first
    | with_reducible assumption
    | intro _
    | with_reducible apply guarded_foot
    | with_reducible apply modSrc_foot (hW := (less hW))

theorem execEventQueueHeadWrite_foot {W : List Area} {s : State} (hW : [.regs, .ic, .err, .ports] ⊆ W) (target : Nat) (val : W32) {t : State} (e : execEventQueueHeadWrite target val s = .next t) :
    Foot W s t := by
  unfold execEventQueueHeadWrite at e
  refine run_foot e ?_
  intro s' h
  repeat' first
    | with_reducible assumption
    | intro _
    | with_reducible apply guarded_foot
    | with_reducible apply hostCe_foot (hW := (less hW))
    | with_reducible apply reportCe_foot (hW := (less hW))
    | with_reducible apply regSet_foot (hW := (less hW))
    | with_reducible apply sendMsix_foot (hW := (less hW))
    | with_reducible apply Foot.ite

theorem execMsixVectorUnmask_foot {W : List Area} {s : State} (hW : [.regs, .ic, .ports] ⊆ W) (v : Nat) (val : W32) {t : State} (e : execMsixVectorUnmask v val s = .next t) :
    Foot W s t := by
  unfold execMsixVectorUnmask at e
  refine run_foot e ?_
  intro s' h
  repeat' first
    | with_reducible assumption
    | intro _
    | with_reducible apply guarded_foot
    | with_reducible apply regSet_foot (hW := (less hW))
    | with_reducible apply sendMsix_foot (hW := (less hW))
    | with_reducible apply Foot.ite
    | exact Or.inl (hW (by decide))
    | with_reducible exact Or.inr rfl
    | with_reducible exact id
    | with_reducible exact Nat.le_refl _
    | (simp only [Foot.lit_eq]; with_reducible apply Foot.litL rfl)

end Sys2Proof.Laws
end

