-- ==== Sys2Proof/Laws/FootMailbox.lean ====
section
/-!
SUPPORT. Footprints of the operations of Machine/Mailbox.lean.
-/
namespace Sys2Proof.Laws
open Sys2Proof Sys2Proof.Machine
set_option Elab.async false

theorem execMbPost_foot {W : List Area} {s : State} (hW : [.ic, .mbx, .err] ⊆ W) (box : Nat) (val : W32) {t : State} (e : execMbPost box val s = .next t) :
    Foot W s t := by
  unfold execMbPost at e
  refine run_foot e ?_
  intro s' h
  repeat' first
    | with_reducible assumption
    | intro _
    | with_reducible apply guarded_foot
    | with_reducible apply hostCe_foot (hW := (less hW))
    | with_reducible apply arrive_foot (hW := (less hW))
    | with_reducible apply modBox_foot (hW := (less hW))
    | with_reducible apply Foot.ite

theorem execMailboxTake_foot {W : List Area} {s : State} (hW : [.ic, .mbx] ⊆ W) (box : Nat) {t : State} (e : execMailboxTake box s = .next t) :
    Foot W s t := by
  unfold execMailboxTake at e
  refine run_foot e ?_
  intro s' h
  repeat' first
    | with_reducible assumption
    | intro _
    | with_reducible apply guarded_foot
    | with_reducible apply handled_foot (hW := (less hW))
    | with_reducible apply modBox_foot (hW := (less hW))
    | with_reducible apply replyBox_foot (hW := (less hW))
    | with_reducible apply Foot.ite
    | split
    | dsimp only

theorem execMbAckRelease_foot {W : List Area} {s : State} (hW : [.ic, .mbx, .err] ⊆ W) (box : Nat) (val : W32) {t : State} (e : execMbAckRelease box val s = .next t) :
    Foot W s t := by
  unfold execMbAckRelease at e
  refine run_foot e ?_
  intro s' h
  repeat' first
    | with_reducible assumption
    | intro _
    | with_reducible apply guarded_foot
    | with_reducible apply hostCe_foot (hW := (less hW))
    | with_reducible apply modBox_foot (hW := (less hW))
    | with_reducible apply Foot.ite

theorem execHeartbeat_foot {W : List Area} {s : State} (hW : [.mbx, .pm] ⊆ W) (proc : Nat) {t : State} (e : execHeartbeat proc s = .next t) :
    Foot W s t := by
  unfold execHeartbeat at e
  refine run_foot e ?_
  intro s' h
  repeat' first
    | with_reducible assumption
    | intro _
    | with_reducible apply guarded_foot
    | with_reducible apply oncePerBeat_foot (hW := (less hW))
    | with_reducible apply modProc_foot (hW := (less hW))

theorem execStewardHang_foot {W : List Area} {s : State} (hW : [.blk, .ic, .err] ⊆ W) (sw : Nat) {t : State} (e : execStewardHang sw s = .next t) :
    Foot W s t := by
  unfold execStewardHang at e
  refine run_foot e ?_
  intro s' h
  repeat' first
    | with_reducible assumption
    | intro _
    | with_reducible apply guarded_foot
    | with_reducible apply bEvent_foot (hW := (less hW))
    | with_reducible apply Foot.ite
    | exact Or.inl (hW (by decide))
    | with_reducible exact Or.inr rfl
    | with_reducible exact id
    | with_reducible exact Nat.le_refl _
    | (simp only [Foot.lit_eq]; with_reducible apply Foot.litL rfl)

end Sys2Proof.Laws
end

