-- ==== Sys2Proof/Laws/FootManage.lean ====
section
/-!
SUPPORT. Footprints of the operations of Machine/Manage.lean.
-/
namespace Sys2Proof.Laws
open Sys2Proof Sys2Proof.Machine
set_option Elab.async false

theorem execMctpControlMessage_foot {W : List Area} {s : State} (hW : [.cmb, .ports, .freeCtr] ⊆ W) (msg : MctpControl) {t : State} (e : execMctpControlMessage msg s = .next t) :
    Foot W s t := by
  unfold execMctpControlMessage at e
  refine run_foot e ?_
  intro s' h
  repeat' first
    | with_reducible assumption
    | intro _
    | with_reducible apply emit_foot (hW := (less hW))
    | with_reducible apply fresh_foot (hW := (less hW))
    | with_reducible apply Foot.ite
    | exact Or.inl (hW (by decide))
    | with_reducible exact Or.inr rfl
    | with_reducible exact id
    | with_reducible exact Nat.le_refl _
    | (simp only [Foot.lit_eq]; with_reducible apply Foot.litL rfl)
    | with_reducible refine Foot.snd (by assumption) ?_
    | split

theorem execPldmRequest_foot {W : List Area} {s : State} (hW : [.ports] ⊆ W) (type : Nat) (sensor : PldmSensor) {t : State} (e : execPldmRequest type sensor s = .next t) :
    Foot W s t := by
  unfold execPldmRequest at e
  refine run_foot e ?_
  intro s' h
  repeat' first
    | with_reducible assumption
    | intro _
    | with_reducible apply emit_foot (hW := (less hW))
    | with_reducible apply Foot.ite
    | split

theorem execTapInstruction_foot {W : List Area} {s : State} (hW : [.csb, .ports] ⊆ W) (ir : TapIr) {t : State} (e : execTapInstruction ir s = .next t) :
    Foot W s t := by
  unfold execTapInstruction at e
  refine run_foot e ?_
  intro s' h
  repeat' first
    | with_reducible assumption
    | intro _
    | with_reducible apply guarded_foot
    | with_reducible apply emit_foot (hW := (less hW))
    | with_reducible apply Foot.ite
    | exact Or.inl (hW (by decide))
    | with_reducible exact Or.inr rfl
    | with_reducible exact id
    | with_reducible exact Nat.le_refl _
    | (simp only [Foot.lit_eq]; with_reducible apply Foot.litL rfl)
    | split
    | dsimp only

theorem execDebugPortAccess_foot {W : List Area} {s : State} (hW : [.mem, .rg, .arr, .fab, .fe, .tw, .csb, .ports] ⊆ W) (req : DebugReq) {t : State} (e : execDebugPortAccess req s = .next t) :
    Foot W s t := by
  unfold execDebugPortAccess at e
  refine run_foot e ?_
  intro s' h
  repeat' first
    | with_reducible assumption
    | intro _
    | with_reducible apply guarded_foot
    | with_reducible apply emit_foot (hW := (less hW))
    | with_reducible apply requestNow_foot (hW := (less hW))
    | with_reducible apply Foot.ite
    | exact Or.inl (hW (by decide))
    | with_reducible exact Or.inr rfl
    | with_reducible exact id
    | with_reducible exact Nat.le_refl _
    | (simp only [Foot.lit_eq]; with_reducible apply Foot.litL rfl)
    | split
    | dsimp only

end Sys2Proof.Laws
end

