-- ==== Sys2Proof/Laws/FootMigrate.lean ====
section
/-!
SUPPORT. Footprints of the operations of Machine/Migrate.lean.
-/
namespace Sys2Proof.Laws
open Sys2Proof Sys2Proof.Machine
set_option Elab.async false

theorem execMigStart_foot {W : List Area} {s : State} (hW : [.fe, .ic, .mbx] ⊆ W) {t : State} (e : execMigStart s = .next t) :
    Foot W s t := by
  unfold execMigStart at e
  refine run_foot e ?_
  intro s' h
  repeat' first
    | with_reducible assumption
    | intro _
    | with_reducible apply onBox_foot
    | with_reducible apply replySt_foot (hW := (less hW))
    | with_reducible apply modVai_foot (hW := (less hW))
    | with_reducible apply Foot.ite

theorem execMigStop_foot {W : List Area} {s : State} (hW : [.fe, .ic, .mbx] ⊆ W) {t : State} (e : execMigStop s = .next t) :
    Foot W s t := by
  unfold execMigStop at e
  refine run_foot e ?_
  intro s' h
  repeat' first
    | with_reducible assumption
    | intro _
    | with_reducible apply onBox_foot
    | with_reducible apply replySt_foot (hW := (less hW))
    | with_reducible apply modVai_foot (hW := (less hW))
    | with_reducible apply Foot.ite

theorem execMigHarvest_foot {W : List Area} {s : State} (hW : [.fe, .ic, .mbx, .ports] ⊆ W) {t : State} (e : execMigHarvest s = .next t) :
    Foot W s t := by
  unfold execMigHarvest at e
  refine run_foot e ?_
  intro s' h
  repeat' first
    | with_reducible assumption
    | intro _
    | with_reducible apply onBox_foot
    | with_reducible apply replySt_foot (hW := (less hW))
    | with_reducible apply modVai_foot (hW := (less hW))
    | with_reducible apply hostWriteM_foot (hW := (less hW))
    | with_reducible apply replyBox_foot (hW := (less hW))
    | with_reducible apply Foot.ite

theorem execMigStateSave_foot {W : List Area} {s : State} (hW : [.ic, .mbx, .ports] ⊆ W) {t : State} (e : execMigStateSave s = .next t) :
    Foot W s t := by
  unfold execMigStateSave at e
  refine run_foot e ?_
  intro s' h
  repeat' first
    | with_reducible assumption
    | intro _
    | with_reducible apply onBox_foot
    | with_reducible apply replySt_foot (hW := (less hW))
    | with_reducible apply replyBox_foot (hW := (less hW))
    | with_reducible apply hostWriteM_foot (hW := (less hW))
    | with_reducible apply Foot.ite

theorem loadObjects_foot {W : List Area} {r s : State} (hW : [.cells, .mem, .arr, .lce, .fe, .tw] ⊆ W) (v : Nat) (m : MigImage) (h : Foot W r s) :
    Foot W r (loadObjects v m s) := by
  unfold loadObjects
  repeat' first
    | with_reducible assumption
    | intro _
    | with_reducible apply Foot.ite
    | (unfold overlay; exact foldl_tset_twf _ _ _ _ _ (by assumption))
    | exact Or.inl (hW (by decide))
    | with_reducible exact Or.inr rfl
    | with_reducible exact id
    | with_reducible exact Nat.le_refl _
    | (simp only [Foot.lit_eq]; with_reducible apply Foot.litL rfl)

theorem loadGroups_foot {W : List Area} {r s : State} (hW : [.sg] ⊆ W) (v : Nat) (l : List Group) (h : Foot W r s) :
    Foot W r (loadGroups v l s) := by
  induction l generalizing v s with
  | nil =>
    unfold loadGroups
    repeat' first
      | with_reducible assumption
  | cons _ _ ih =>
    unfold loadGroups
    repeat' first
      | with_reducible assumption
      | intro _
      | with_reducible apply ih
      | with_reducible apply modGroup_foot (hW := (less hW))
      | with_reducible apply Foot.ite
      | split

theorem execMigStateLoad_foot {W : List Area} {s : State} (hW : [.cells, .mem, .arr, .lce, .sg, .fe, .tw, .ic, .mbx] ⊆ W) (host : HostData) {t : State} (e : execMigStateLoad host s = .next t) :
    Foot W s t := by
  unfold execMigStateLoad at e
  refine run_foot e ?_
  intro s' h
  repeat' first
    | with_reducible assumption
    | intro _
    | with_reducible apply onBox_foot
    | with_reducible apply replySt_foot (hW := (less hW))
    | with_reducible apply each_foot
    | with_reducible apply zeroMem_foot (hW := (less hW))
    | with_reducible apply zeroTally_foot (hW := (less hW))
    | with_reducible apply loadGroups_foot (hW := (less hW))
    | with_reducible apply loadObjects_foot (hW := (less hW))
    | with_reducible apply modSrc_foot (hW := (less hW))
    | with_reducible apply rehome_foot (hW := (less hW))
    | with_reducible apply emptyHrc_foot (hW := (less hW))
    | with_reducible apply modVai_foot (hW := (less hW))
    | with_reducible apply Foot.ite
    | split

end Sys2Proof.Laws
end

