-- ==== Sys2Proof/Laws/FootReset.lean ====
section
/-!
SUPPORT. Footprints of the operations of Machine/Reset.lean.
-/
namespace Sys2Proof.Laws
open Sys2Proof Sys2Proof.Machine
set_option Elab.async false

theorem beginQueueReset_foot {W : List Area} {r s : State} (hW : [.blk, .cells, .mem, .rg, .arr, .lce, .fab, .sg, .fe, .tw, .ic, .err, .csb, .ports, .freeCtr] ⊆ W) (q : Nat) (h : Foot W r s) :
    Foot W r (beginQueueReset q s) := by
  unfold beginQueueReset
  repeat' first
    | with_reducible assumption
    | intro _
    | with_reducible apply modQueue_foot (hW := (less hW))
    | with_reducible apply freeSlot_foot (hW := (less hW))
    | with_reducible apply refillAll_foot (hW := (less hW))
    | with_reducible apply reissueAll_foot (hW := (less hW))
    | with_reducible apply breakBars_foot (hW := (less hW))
    | with_reducible apply endQueueWork_foot (hW := (less hW))

theorem execQueueReset_foot {W : List Area} {s : State} (hW : [.blk, .cells, .mem, .rg, .arr, .lce, .fab, .sg, .fe, .tw, .ic, .err, .csb, .ports, .freeCtr] ⊆ W) (q : Nat) {t : State} (e : execQueueReset q s = .next t) :
    Foot W s t := by
  unfold execQueueReset at e
  refine run_foot e ?_
  intro s' h
  repeat' first
    | with_reducible assumption
    | intro _
    | with_reducible apply guarded_foot
    | with_reducible apply beginQueueReset_foot (hW := (less hW))
    | with_reducible apply Foot.ite

theorem expireReset_foot {W : List Area} {r s : State} (hW : [.fab, .ports] ⊆ W) (q : Nat) (h : Foot W r s) :
    Foot W r (expireReset q s) := by
  unfold expireReset
  repeat' first
    | with_reducible assumption
    | intro _
    | with_reducible apply Foot.ite
    | exact Or.inl (hW (by decide))
    | with_reducible exact Or.inr rfl
    | with_reducible exact id
    | with_reducible exact Nat.le_refl _
    | (simp only [Foot.lit_eq]; with_reducible apply Foot.litL rfl)

theorem writeDue_foot {W : List Area} {r s : State} (hW : [.cells, .mem, .rg, .fab, .fe, .ic, .err, .csb, .ports, .freeCtr] ⊆ W) (q : Nat) (h : Foot W r s) :
    Foot W r (writeDue q s) := by
  unfold writeDue
  repeat' first
    | with_reducible assumption
    | intro _
    | with_reducible apply each_foot
    | with_reducible apply writeEntry_foot (hW := (less hW))
    | with_reducible apply Foot.ite

theorem writeEnded_foot {W : List Area} {r s : State} (hW : [.cells, .mem, .rg, .fab, .fe, .ic, .err, .csb, .ports, .freeCtr] ⊆ W) (q : Nat) (h : Foot W r s) :
    Foot W r (writeEnded q s) := by
  unfold writeEnded
  repeat' first
    | with_reducible assumption
    | intro _
    | with_reducible apply modQueue_foot (hW := (less hW))
    | with_reducible apply writeDue_foot (hW := (less hW))
    | with_reducible apply Foot.ite

theorem resetNotice_foot {W : List Area} {r s : State} (hW : [.ic] ⊆ W) (q : Nat) (st : Nat) (h : Foot W r s) :
    Foot W r (resetNotice q st s) := by
  unfold resetNotice
  repeat' first
    | with_reducible assumption
    | intro _
    | with_reducible apply notice_foot (hW := (less hW))

theorem execQueueResetSettled_foot {W : List Area} {s : State} (hW : [.cells, .mem, .rg, .fab, .fe, .ic, .err, .csb, .ports, .freeCtr] ⊆ W) (q : Nat) {t : State} (e : execQueueResetSettled q s = .next t) :
    Foot W s t := by
  unfold execQueueResetSettled at e
  refine run_foot e ?_
  intro s' h
  repeat' first
    | with_reducible assumption
    | intro _
    | with_reducible apply guarded_foot
    | with_reducible apply homeHandles_foot (hW := (less hW))
    | with_reducible apply writeEnded_foot (hW := (less hW))
    | with_reducible apply expireReset_foot (hW := (less hW))
    | with_reducible apply modQueue_foot (hW := (less hW))
    | with_reducible apply resetNotice_foot (hW := (less hW))
    | with_reducible apply Foot.ite
    | split

theorem cancelAll_foot {W : List Area} {r s : State} (hW : [.blk, .ports] ⊆ W) (h : Foot W r s) :
    Foot W r (cancelAll s) := by
  unfold cancelAll
  repeat' first
    | with_reducible assumption
    | intro _
    | with_reducible apply each_foot
    | with_reducible apply emit_foot (hW := (less hW))
    | with_reducible apply Foot.ite
    | exact Or.inl (hW (by decide))
    | with_reducible exact Or.inr rfl
    | with_reducible exact id
    | with_reducible exact Nat.le_refl _
    | (simp only [Foot.lit_eq]; with_reducible apply Foot.litL rfl)

theorem loseSignal_foot {W : List Area} {r s : State} (hW : [.fe, .ic] ⊆ W) (a0 : CmdEnt) (h : Foot W r s) :
    Foot W r (loseSignal a0 s) := by
  unfold loseSignal
  repeat' first
    | with_reducible assumption
    | intro _
    | with_reducible apply modFence_foot (hW := (less hW))
    | with_reducible apply notice_foot (hW := (less hW))
    | with_reducible apply fenceDrop_foot (hW := (less hW))
    | with_reducible apply Foot.ite

theorem loseQueue_foot {W : List Area} {r s : State} (hW : [.blk, .cells, .mem, .rg, .arr, .lce, .fab, .sg, .fe, .tw, .ic, .err, .csb, .ports, .freeCtr] ⊆ W) (q : Nat) (h : Foot W r s) :
    Foot W r (loseQueue q s) := by
  unfold loseQueue
  repeat' first
    | with_reducible assumption
    | intro _
    | with_reducible apply each_foot
    | with_reducible apply loseSignal_foot (hW := (less hW))
    | with_reducible apply modQueue_foot (hW := (less hW))
    | with_reducible apply endQueueWork_foot (hW := (less hW))

theorem homeAll_foot {W : List Area} {r s : State} (hW : [.pm, .ports] ⊆ W) (h : Foot W r s) :
    Foot W r (homeAll s) := by
  unfold homeAll
  repeat' first
    | with_reducible assumption
    | intro _
    | with_reducible apply each_foot
    | with_reducible apply ledEvent_foot (hW := (less hW))

theorem resetFront_foot {W : List Area} {r s : State} (hW : [.blk, .cells, .mem, .rg, .arr, .lce, .fab, .sg, .fe, .tw, .ic, .pm, .err, .csb, .ports, .freeCtr] ⊆ W) (h : Foot W r s) :
    Foot W r (resetFront s) := by
  unfold resetFront
  repeat' first
    | with_reducible assumption
    | intro _
    | with_reducible apply homeAll_foot (hW := (less hW))
    | with_reducible apply cancelAll_foot (hW := (less hW))
    | with_reducible apply ledEvent_foot (hW := (less hW))
    | with_reducible apply each_foot
    | with_reducible apply modQueue_foot (hW := (less hW))
    | with_reducible apply loseQueue_foot (hW := (less hW))
    | with_reducible apply homeHandles_foot (hW := (less hW))
    | with_reducible apply Foot.ite
    | exact Or.inl (hW (by decide))
    | with_reducible exact Or.inr rfl
    | with_reducible exact id
    | with_reducible exact Nat.le_refl _
    | (simp only [Foot.lit_eq]; with_reducible apply Foot.litL rfl)

theorem loseRequests_foot {W : List Area} {r s : State} (hW : [.fab, .ports] ⊆ W) (h : Foot W r s) :
    Foot W r (loseRequests s) := by
  unfold loseRequests
  repeat' first
    | with_reducible assumption
    | intro _
    | with_reducible apply dropReads_foot (hW := (less hW))
    | with_reducible apply Foot.ite
    | exact Or.inl (hW (by decide))
    | with_reducible exact Or.inr rfl
    | with_reducible exact id
    | with_reducible exact Nat.le_refl _
    | (simp only [Foot.lit_eq]; with_reducible apply Foot.litL rfl)

theorem resetUnits_foot {W : List Area} {r s : State} (hW : [.regs, .mem, .rg, .arr, .lce, .fab, .sg, .tw, .pm, .csb, .ports] ⊆ W) (h : Foot W r s) :
    Foot W r (resetUnits s) := by
  unfold resetUnits
  repeat' first
    | with_reducible assumption
    | intro _
    | with_reducible apply resetAnswers_foot (hW := (less hW))
    | with_reducible apply freeRecs_foot (hW := (less hW))
    | with_reducible apply regSet_foot (hW := (less hW))
    | with_reducible apply Foot.ite
    | exact Or.inl (hW (by decide))
    | with_reducible exact Or.inr rfl
    | with_reducible exact id
    | with_reducible exact Nat.le_refl _
    | (simp only [Foot.lit_eq]; with_reducible apply Foot.litL rfl)

theorem stacksDown_foot {W : List Area} {r s : State} (hW : [.mem, .ports] ⊆ W) (h : Foot W r s) :
    Foot W r (stacksDown s) := by
  unfold stacksDown
  repeat' first
    | with_reducible assumption
    | intro _
    | with_reducible apply each_foot
    | with_reducible apply emit_foot (hW := (less hW))
    | with_reducible apply modStack_foot (hW := (less hW))
    | with_reducible apply Foot.ite

theorem stacksUp_foot {W : List Area} {r s : State} (hW : [.mem, .ports] ⊆ W) (h : Foot W r s) :
    Foot W r (stacksUp s) := by
  unfold stacksUp
  repeat' first
    | with_reducible assumption
    | intro _
    | with_reducible apply each_foot
    | with_reducible apply emit_foot (hW := (less hW))
    | with_reducible apply modStack_foot (hW := (less hW))

theorem raiseGens_foot {W : List Area} {r s : State} (hW : [.fab, .fe] ⊆ W) (h : Foot W r s) :
    Foot W r (raiseGens s) := by
  unfold raiseGens
  repeat' first
    | with_reducible assumption
    | intro _
    | with_reducible apply Foot.ite
    | exact Or.inl (hW (by decide))
    | with_reducible exact Or.inr rfl
    | with_reducible exact id
    | with_reducible exact Nat.le_refl _
    | (simp only [Foot.lit_eq]; with_reducible apply Foot.litL rfl)

theorem loseReconf_foot {W : List Area} {r s : State} (hW : [.fe, .ic, .mbx] ⊆ W) (h : Foot W r s) :
    Foot W r (loseReconf s) := by
  unfold loseReconf
  repeat' first
    | with_reducible assumption
    | intro _
    | with_reducible apply each_foot
    | with_reducible apply modVai_foot (hW := (less hW))
    | with_reducible apply replyFor_foot (hW := (less hW))
    | with_reducible apply Foot.ite
    | exact Or.inl (hW (by decide))
    | with_reducible exact Or.inr rfl
    | with_reducible exact id
    | with_reducible exact Nat.le_refl _
    | (simp only [Foot.lit_eq]; with_reducible apply Foot.litL rfl)
    | split

theorem loseHandover_foot {W : List Area} {r s : State} (hW : [.ic, .mbx, .fw] ⊆ W) (h : Foot W r s) :
    Foot W r (loseHandover s) := by
  unfold loseHandover
  repeat' first
    | with_reducible assumption
    | intro _
    | with_reducible apply notice_foot (hW := (less hW))
    | with_reducible apply modProc_foot (hW := (less hW))
    | with_reducible apply replyFor_foot (hW := (less hW))
    | with_reducible apply Foot.ite
    | exact Or.inl (hW (by decide))
    | with_reducible exact Or.inr rfl
    | with_reducible exact id
    | with_reducible exact Nat.le_refl _
    | (simp only [Foot.lit_eq]; with_reducible apply Foot.litL rfl)
    | split

theorem reloadHung_foot {W : List Area} {r s : State} (hW : [.mbx, .fw, .err] ⊆ W) (h : Foot W r s) :
    Foot W r (reloadHung s) := by
  unfold reloadHung
  repeat' first
    | with_reducible assumption
    | intro _
    | with_reducible apply modProc_foot (hW := (less hW))
    | with_reducible apply Foot.ite
    | exact Or.inl (hW (by decide))
    | with_reducible exact Or.inr rfl
    | with_reducible exact id
    | with_reducible exact Nat.le_refl _
    | (simp only [Foot.lit_eq]; with_reducible apply Foot.litL rfl)
    | split

theorem stopPlane_foot {W : List Area} {r s : State} (hW : [.blk, .regs, .cells, .mem, .rg, .arr, .lce, .fab, .sg, .fe, .tw, .ic, .mbx, .pm, .err, .csb, .ports, .freeCtr] ⊆ W) (h : Foot W r s) :
    Foot W r (stopPlane s) := by
  unfold stopPlane
  repeat' first
    | with_reducible assumption
    | intro _
    | with_reducible apply captureDump_foot (hW := (less hW))
    | with_reducible apply stacksDown_foot (hW := (less hW))
    | with_reducible apply resetUnits_foot (hW := (less hW))
    | with_reducible apply loseRequests_foot (hW := (less hW))
    | with_reducible apply resetFront_foot (hW := (less hW))
    | with_reducible apply loseReconf_foot (hW := (less hW))

theorem beginReset_foot {W : List Area} {r s : State} (hW : [.blk, .regs, .cells, .mem, .rg, .arr, .lce, .fab, .sg, .fe, .tw, .ic, .mbx, .fw, .pm, .err, .csb, .ports, .freeCtr] ⊆ W) (counts : Bool) (h : Foot W r s) :
    Foot W r (beginReset counts s) := by
  unfold beginReset
  repeat' first
    | with_reducible assumption
    | intro _
    | with_reducible apply raiseGens_foot (hW := (less hW))
    | with_reducible apply stopPlane_foot (hW := (less hW))
    | with_reducible apply reloadHung_foot (hW := (less hW))
    | with_reducible apply loseHandover_foot (hW := (less hW))
    | with_reducible apply each_foot
    | with_reducible apply modVai_foot (hW := (less hW))
    | with_reducible apply Foot.ite
    | exact Or.inl (hW (by decide))
    | with_reducible exact Or.inr rfl
    | with_reducible exact id
    | with_reducible exact Nat.le_refl _
    | (simp only [Foot.lit_eq]; with_reducible apply Foot.litL rfl)

theorem goOut_foot {W : List Area} {r s : State} (hW : [.blk, .regs, .cells, .mem, .rg, .arr, .lce, .fab, .sg, .fe, .tw, .ic, .mbx, .pm, .err, .csb, .ports, .freeCtr] ⊆ W) (h : Foot W r s) :
    Foot W r (goOut s) := by
  unfold goOut
  repeat' first
    | with_reducible assumption
    | intro _
    | with_reducible apply stopPlane_foot (hW := (less hW))
    | with_reducible apply each_foot
    | with_reducible apply modVai_foot (hW := (less hW))
    | with_reducible apply replySt_foot (hW := (less hW))
    | with_reducible apply arrive_foot (hW := (less hW))
    | with_reducible apply Foot.ite
    | exact Or.inl (hW (by decide))
    | with_reducible exact Or.inr rfl
    | with_reducible exact id
    | with_reducible exact Nat.le_refl _
    | (simp only [Foot.lit_eq]; with_reducible apply Foot.litL rfl)

theorem execBlockReset_foot {W : List Area} {s : State} (hW : [.blk, .regs, .cells, .mem, .rg, .arr, .lce, .fab, .sg, .fe, .tw, .ic, .mbx, .fw, .pm, .err, .csb, .ports, .freeCtr] ⊆ W) {t : State} (e : execBlockReset s = .next t) :
    Foot W s t := by
  unfold execBlockReset at e
  refine run_foot e ?_
  intro s' h
  repeat' first
    | with_reducible assumption
    | intro _
    | with_reducible apply guarded_foot
    | with_reducible apply goOut_foot (hW := (less hW))
    | with_reducible apply beginReset_foot (hW := (less hW))
    | with_reducible apply Foot.ite

theorem execBlockResetDrainExpiry_foot {W : List Area} {s : State} (hW : [.err, .ports] ⊆ W) {t : State} (e : execBlockResetDrainExpiry s = .next t) :
    Foot W s t := by
  unfold execBlockResetDrainExpiry at e
  refine run_foot e ?_
  intro s' h
  repeat' first
    | with_reducible assumption
    | intro _
    | with_reducible apply guarded_foot
    | with_reducible apply Foot.ite
    | exact Or.inl (hW (by decide))
    | with_reducible exact Or.inr rfl
    | with_reducible exact id
    | with_reducible exact Nat.le_refl _
    | (simp only [Foot.lit_eq]; with_reducible apply Foot.litL rfl)

theorem endRestore_foot {W : List Area} {r s : State} (hW : [.ic, .err] ⊆ W) (h : Foot W r s) :
    Foot W r (endRestore s) := by
  unfold endRestore
  repeat' first
    | with_reducible assumption
    | intro _
    | with_reducible apply arrive_foot (hW := (less hW))
    | with_reducible apply Foot.ite
    | exact Or.inl (hW (by decide))
    | with_reducible exact Or.inr rfl
    | with_reducible exact id
    | with_reducible exact Nat.le_refl _
    | (simp only [Foot.lit_eq]; with_reducible apply Foot.litL rfl)

theorem vaisBack_foot {W : List Area} {r s : State} (hW : [.fe] ⊆ W) (h : Foot W r s) :
    Foot W r (vaisBack s) := by
  unfold vaisBack
  repeat' first
    | with_reducible assumption
    | intro _
    | with_reducible apply each_foot
    | with_reducible apply modVai_foot (hW := (less hW))
    | with_reducible apply Foot.ite

theorem execResetSequenceEnd_foot {W : List Area} {s : State} (hW : [.mem, .rg, .fe, .ic, .pm, .err, .ports] ⊆ W) {t : State} (e : execResetSequenceEnd s = .next t) :
    Foot W s t := by
  unfold execResetSequenceEnd at e
  refine run_foot e ?_
  intro s' h
  repeat' first
    | with_reducible assumption
    | intro _
    | with_reducible apply guarded_foot
    | with_reducible apply stacksUp_foot (hW := (less hW))
    | with_reducible apply ledEvent_foot (hW := (less hW))
    | with_reducible apply endRestore_foot (hW := (less hW))
    | with_reducible apply vaisBack_foot (hW := (less hW))
    | with_reducible apply Foot.ite
    | exact Or.inl (hW (by decide))
    | with_reducible exact Or.inr rfl
    | with_reducible exact id
    | with_reducible exact Nat.le_refl _
    | (simp only [Foot.lit_eq]; with_reducible apply Foot.litL rfl)

theorem restoreQueue_foot {W : List Area} {r s : State} (hW : [.cells, .mem, .rg, .fab, .fe, .ic, .err, .csb, .ports, .freeCtr] ⊆ W) (q : Nat) (h : Foot W r s) :
    Foot W r (restoreQueue q s) := by
  unfold restoreQueue
  repeat' first
    | with_reducible assumption
    | intro _
    | with_reducible apply writeEnded_foot (hW := (less hW))
    | with_reducible apply modQueue_foot (hW := (less hW))

theorem restoreFence_foot {W : List Area} {r s : State} (hW : [.cells, .mem, .rg, .fab, .fe, .ic, .err, .csb, .ports, .freeCtr] ⊆ W) (f : Nat) (h : Foot W r s) :
    Foot W r (restoreFence f s) := by
  unfold restoreFence
  repeat' first
    | with_reducible assumption
    | intro _
    | with_reducible apply writeMirror_foot (hW := (less hW))
    | with_reducible apply Foot.ite

theorem restoreCtx_foot {W : List Area} {r s : State} (hW : [.cells, .mem, .rg, .fab, .sg, .fe, .ic, .err, .csb, .ports, .freeCtr] ⊆ W) (c : Nat) (h : Foot W r s) :
    Foot W r (restoreCtx c s) := by
  unfold restoreCtx
  repeat' first
    | with_reducible assumption
    | intro _
    | with_reducible apply each_foot
    | with_reducible apply restoreQueue_foot (hW := (less hW))
    | with_reducible apply restoreFence_foot (hW := (less hW))
    | with_reducible apply resetNotice_foot (hW := (less hW))
    | with_reducible apply breakGroup_foot (hW := (less hW))

theorem execContextRestore_foot {W : List Area} {s : State} (hW : [.cells, .mem, .rg, .fab, .sg, .fe, .ic, .err, .csb, .ports, .freeCtr] ⊆ W) (sw : Nat) {t : State} (e : execContextRestore sw s = .next t) :
    Foot W s t := by
  unfold execContextRestore at e
  refine run_foot e ?_
  intro s' h
  repeat' first
    | with_reducible assumption
    | intro _
    | with_reducible apply guarded_foot
    | with_reducible apply restoreCtx_foot (hW := (less hW))
    | with_reducible apply endRestore_foot (hW := (less hW))
    | with_reducible apply vaisBack_foot (hW := (less hW))
    | with_reducible apply Foot.ite
    | exact Or.inl (hW (by decide))
    | with_reducible exact Or.inr rfl
    | with_reducible exact id
    | with_reducible exact Nat.le_refl _
    | (simp only [Foot.lit_eq]; with_reducible apply Foot.litL rfl)
    | split

theorem execMeshFatalError_foot {W : List Area} {s : State} (hW : [.blk, .ic, .err] ⊆ W) {t : State} (e : execMeshFatalError s = .next t) :
    Foot W s t := by
  unfold execMeshFatalError at e
  refine run_foot e ?_
  intro s' h
  repeat' first
    | with_reducible assumption
    | intro _
    | with_reducible apply bEvent_foot (hW := (less hW))

theorem execBreset_foot {W : List Area} {s : State} (hW : [.blk, .ic, .err] ⊆ W) (val : W32) {t : State} (e : execBreset val s = .next t) :
    Foot W s t := by
  unfold execBreset at e
  refine run_foot e ?_
  intro s' h
  repeat' first
    | with_reducible assumption
    | intro _
    | with_reducible apply guarded_foot
    | with_reducible apply bEvent_foot (hW := (less hW))

theorem execReinstate_foot {W : List Area} {s : State} (hW : [.blk, .regs, .cells, .mem, .rg, .arr, .lce, .fab, .sg, .fe, .tw, .ic, .mbx, .fw, .pm, .err, .csb, .ports, .freeCtr] ⊆ W) (val : W32) {t : State} (e : execReinstate val s = .next t) :
    Foot W s t := by
  unfold execReinstate at e
  refine run_foot e ?_
  intro s' h
  repeat' first
    | with_reducible assumption
    | intro _
    | with_reducible apply guarded_foot
    | with_reducible apply beginReset_foot (hW := (less hW))
    | with_reducible apply Foot.ite
    | exact Or.inl (hW (by decide))
    | with_reducible exact Or.inr rfl
    | with_reducible exact id
    | with_reducible exact Nat.le_refl _
    | (simp only [Foot.lit_eq]; with_reducible apply Foot.litL rfl)

end Sys2Proof.Laws
end

