-- ==== Sys2Proof/Laws/FootSecurity.lean ====
section
/-!
SUPPORT. Footprints of the operations of Machine/Security.lean.
-/
namespace Sys2Proof.Laws
open Sys2Proof Sys2Proof.Machine
set_option Elab.async false

theorem spdmRest_foot {W : List Area} {r s : State} (hW : [.freeCtr] ⊆ W) (msg : List Byte) (h : Foot W r s) :
    Foot W r (spdmRest msg s).2 := by
  unfold spdmRest
  repeat' first
    | with_reducible assumption
    | intro _
    | with_reducible apply Foot.ite
    | exact Or.inl (hW (by decide))
    | with_reducible exact Or.inr rfl
    | with_reducible exact id
    | with_reducible exact Nat.le_refl _
    | (simp only [Foot.lit_eq]; with_reducible apply Foot.litL rfl)

theorem spdmMeasure_foot {W : List Area} {r s : State} (hW : [.freeCtr] ⊆ W) (msg : List Byte) (h : Foot W r s) :
    Foot W r (spdmMeasure msg s).2 := by
  unfold spdmMeasure
  repeat' first
    | with_reducible assumption
    | intro _
    | with_reducible apply fresh_foot (hW := (less hW))
    | with_reducible apply Foot.ite
    | with_reducible refine Foot.snd (by assumption) ?_
    | split
    | dsimp only

theorem spdmKeyExchange_foot {W : List Area} {r s : State} (hW : [.csb, .freeCtr] ⊆ W) (msg : List Byte) (h : Foot W r s) :
    Foot W r (spdmKeyExchange msg s).2 := by
  unfold spdmKeyExchange
  repeat' first
    | with_reducible assumption
    | intro _
    | with_reducible apply spdmRest_foot (hW := (less hW))
    | with_reducible apply Foot.ite
    | exact Or.inl (hW (by decide))
    | with_reducible exact Or.inr rfl
    | with_reducible exact id
    | with_reducible exact Nat.le_refl _
    | (simp only [Foot.lit_eq]; with_reducible apply Foot.litL rfl)
    | with_reducible refine Foot.snd (by assumption) ?_
    | split

theorem spdmOther_foot {W : List Area} {r s : State} (hW : [.freeCtr] ⊆ W) (msg : List Byte) (h : Foot W r s) :
    Foot W r (spdmOther msg s).2 := by
  unfold spdmOther
  repeat' first
    | with_reducible assumption
    | intro _
    | with_reducible apply spdmRest_foot (hW := (less hW))
    | with_reducible apply fresh_foot (hW := (less hW))
    | with_reducible apply Foot.ite
    | with_reducible refine Foot.snd (by assumption) ?_
    | split
    | dsimp only

theorem spdmAnswer_foot {W : List Area} {r s : State} (hW : [.csb, .freeCtr] ⊆ W) (msg : List Byte) (h : Foot W r s) :
    Foot W r (spdmAnswer msg s).2 := by
  unfold spdmAnswer
  repeat' first
    | with_reducible assumption
    | intro _
    | with_reducible apply spdmMeasure_foot (hW := (less hW))
    | with_reducible apply spdmKeyExchange_foot (hW := (less hW))
    | with_reducible apply spdmOther_foot (hW := (less hW))
    | with_reducible apply Foot.ite
    | with_reducible refine Foot.snd (by assumption) ?_
    | split

theorem sendSpdm_foot {W : List Area} {r s : State} (hW : [.ic, .mbx, .ports] ⊆ W) (via : SpdmPath) (f : State → List Byte × State) (h_f : ∀ s', Foot W r s' → Foot W r (f s').2) (h : Foot W r s) :
    Foot W r (sendSpdm via f s) := by
  unfold sendSpdm
  repeat' first
    | with_reducible assumption
    | intro _
    | with_reducible apply emit_foot (hW := (less hW))
    | with_reducible apply replyBox_foot (hW := (less hW))
    | with_reducible apply hostWriteM_foot (hW := (less hW))
    | apply h_f
    | with_reducible apply Foot.ite
    | split

theorem onSpdm_foot {W : List Area} {r s : State} (hW : [.ic, .mbx, .ports] ⊆ W) (via : SpdmPath) (f : State → List Byte × State) (h_f : ∀ s', Foot W r s' → Foot W r (f s').2) (h : Foot W r s) :
    Foot W r (onSpdm via f s) := by
  unfold onSpdm
  repeat' first
    | with_reducible assumption
    | intro _
    | with_reducible apply guarded_foot
    | with_reducible apply sendSpdm_foot (hW := (less hW))

theorem execDoeMessage_foot {W : List Area} {s : State} (hW : [.ic, .mbx, .csb, .ports, .freeCtr] ⊆ W) (data : List Byte) {t : State} (e : execDoeMessage data s = .next t) :
    Foot W s t := by
  unfold execDoeMessage at e
  refine run_foot e ?_
  intro s' h
  repeat' first
    | with_reducible assumption
    | intro _
    | with_reducible apply onSpdm_foot (hW := (less hW))
    | with_reducible apply spdmAnswer_foot (hW := (less hW))

theorem execGetMeasurements_foot {W : List Area} {s : State} (hW : [.ic, .mbx, .ports, .freeCtr] ⊆ W) (via : SpdmPath) (msg : List Byte) {t : State} (e : execGetMeasurements via msg s = .next t) :
    Foot W s t := by
  unfold execGetMeasurements at e
  refine run_foot e ?_
  intro s' h
  repeat' first
    | with_reducible assumption
    | intro _
    | with_reducible apply onSpdm_foot (hW := (less hW))
    | with_reducible apply spdmMeasure_foot (hW := (less hW))

theorem execKeyExchange_foot {W : List Area} {s : State} (hW : [.ic, .mbx, .csb, .ports, .freeCtr] ⊆ W) (via : SpdmPath) (msg : List Byte) {t : State} (e : execKeyExchange via msg s = .next t) :
    Foot W s t := by
  unfold execKeyExchange at e
  refine run_foot e ?_
  intro s' h
  repeat' first
    | with_reducible assumption
    | intro _
    | with_reducible apply onSpdm_foot (hW := (less hW))
    | with_reducible apply spdmKeyExchange_foot (hW := (less hW))

theorem execSpdmMessage_foot {W : List Area} {s : State} (hW : [.ic, .mbx, .ports, .freeCtr] ⊆ W) (via : SpdmPath) (msg : List Byte) {t : State} (e : execSpdmMessage via msg s = .next t) :
    Foot W s t := by
  unfold execSpdmMessage at e
  refine run_foot e ?_
  intro s' h
  repeat' first
    | with_reducible assumption
    | intro _
    | with_reducible apply onSpdm_foot (hW := (less hW))
    | with_reducible apply spdmOther_foot (hW := (less hW))

theorem inSession_foot {W : List Area} {r s : State} (k : Nat) (f : State → List Byte × State) (h_f : ∀ s', Foot W r s' → Foot W r (f s').2) (h : Foot W r s) :
    Foot W r (inSession k f s).2 := by
  unfold inSession
  repeat' first
    | with_reducible assumption
    | intro _
    | apply h_f
    | with_reducible apply Foot.ite
    | split

theorem execEndSession_foot {W : List Area} {s : State} (hW : [.ic, .mbx, .csb, .ports] ⊆ W) (via : SpdmPath) (session : Nat) {t : State} (e : execEndSession via session s = .next t) :
    Foot W s t := by
  unfold execEndSession at e
  refine run_foot e ?_
  intro s' h
  repeat' first
    | with_reducible assumption
    | intro _
    | with_reducible apply onSpdm_foot (hW := (less hW))
    | with_reducible apply inSession_foot
    | with_reducible apply dropSession_foot (hW := (less hW))

theorem execSessionHeartbeatTimeout_foot {W : List Area} {s : State} (hW : [.csb] ⊆ W) (session : Nat) {t : State} (e : execSessionHeartbeatTimeout session s = .next t) :
    Foot W s t := by
  unfold execSessionHeartbeatTimeout at e
  refine run_foot e ?_
  intro s' h
  repeat' first
    | with_reducible assumption
    | intro _
    | with_reducible apply dropSession_foot (hW := (less hW))
    | with_reducible apply Foot.ite

theorem sealStatus_foot {W : List Area} {r s : State} (st : Status) (h : Foot W r s) :
    Foot W r (sealStatus st s).2 := by
  unfold sealStatus
  repeat' first
    | with_reducible assumption

theorem useGen_foot {W : List Area} {r s : State} (hW : [.csb] ⊆ W) (k : Nat) (p : Nat) (g : Nat) (h : Foot W r s) :
    Foot W r (useGen k p g s) := by
  unfold useGen
  repeat' first
    | with_reducible assumption
    | intro _
    | with_reducible apply Foot.ite
    | exact Or.inl (hW (by decide))
    | with_reducible exact Or.inr rfl
    | with_reducible exact id
    | with_reducible exact Nat.le_refl _
    | (simp only [Foot.lit_eq]; with_reducible apply Foot.litL rfl)

theorem sealBind_foot {W : List Area} {r s : State} (hW : [.csb] ⊆ W) (k : Nat) (l : List W32) (h : Foot W r s) :
    Foot W r (sealBind k l s).2 := by
  unfold sealBind
  repeat' first
    | with_reducible assumption
    | intro _
    | with_reducible apply sealStatus_foot
    | with_reducible apply useGen_foot (hW := (less hW))
    | with_reducible apply Foot.ite
    | with_reducible refine Foot.snd (by assumption) ?_
    | split
    | dsimp only

theorem execSealBind_foot {W : List Area} {s : State} (hW : [.ic, .mbx, .csb, .ports] ⊆ W) (via : SpdmPath) (session : Nat) (words : List W32) {t : State} (e : execSealBind via session words s = .next t) :
    Foot W s t := by
  unfold execSealBind at e
  refine run_foot e ?_
  intro s' h
  repeat' first
    | with_reducible assumption
    | intro _
    | with_reducible apply onSpdm_foot (hW := (less hW))
    | with_reducible apply inSession_foot
    | with_reducible apply sealBind_foot (hW := (less hW))

theorem sealWindow_foot {W : List Area} {r s : State} (hW : [.csb] ⊆ W) (k : Nat) (l : List W32) (h : Foot W r s) :
    Foot W r (sealWindow k l s).2 := by
  unfold sealWindow
  repeat' first
    | with_reducible assumption
    | intro _
    | with_reducible apply sealStatus_foot
    | with_reducible apply Foot.ite
    | exact Or.inl (hW (by decide))
    | with_reducible exact Or.inr rfl
    | with_reducible exact id
    | with_reducible exact Nat.le_refl _
    | (simp only [Foot.lit_eq]; with_reducible apply Foot.litL rfl)
    | with_reducible refine Foot.snd (by assumption) ?_
    | split
    | dsimp only

theorem execSealWindow_foot {W : List Area} {s : State} (hW : [.ic, .mbx, .csb, .ports] ⊆ W) (via : SpdmPath) (session : Nat) (words : List W32) {t : State} (e : execSealWindow via session words s = .next t) :
    Foot W s t := by
  unfold execSealWindow at e
  refine run_foot e ?_
  intro s' h
  repeat' first
    | with_reducible assumption
    | intro _
    | with_reducible apply onSpdm_foot (hW := (less hW))
    | with_reducible apply inSession_foot
    | with_reducible apply sealWindow_foot (hW := (less hW))

theorem sealRotate_foot {W : List Area} {r s : State} (hW : [.csb] ⊆ W) (k : Nat) (l : List W32) (h : Foot W r s) :
    Foot W r (sealRotate k l s).2 := by
  unfold sealRotate
  repeat' first
    | with_reducible assumption
    | intro _
    | with_reducible apply sealStatus_foot
    | with_reducible apply useGen_foot (hW := (less hW))
    | with_reducible apply Foot.ite
    | with_reducible refine Foot.snd (by assumption) ?_
    | split
    | dsimp only

theorem execSealRotate_foot {W : List Area} {s : State} (hW : [.ic, .mbx, .csb, .ports] ⊆ W) (via : SpdmPath) (session : Nat) (words : List W32) {t : State} (e : execSealRotate via session words s = .next t) :
    Foot W s t := by
  unfold execSealRotate at e
  refine run_foot e ?_
  intro s' h
  repeat' first
    | with_reducible assumption
    | intro _
    | with_reducible apply onSpdm_foot (hW := (less hW))
    | with_reducible apply inSession_foot
    | with_reducible apply sealRotate_foot (hW := (less hW))

theorem sealUnbind_foot {W : List Area} {r s : State} (hW : [.csb] ⊆ W) (k : Nat) (l : List W32) (h : Foot W r s) :
    Foot W r (sealUnbind k l s).2 := by
  unfold sealUnbind
  repeat' first
    | with_reducible assumption
    | intro _
    | with_reducible apply sealStatus_foot
    | with_reducible apply unbindPart_foot (hW := (less hW))
    | with_reducible apply Foot.ite
    | with_reducible refine Foot.snd (by assumption) ?_
    | split
    | dsimp only

theorem execSealUnbind_foot {W : List Area} {s : State} (hW : [.ic, .mbx, .csb, .ports] ⊆ W) (via : SpdmPath) (session : Nat) (words : List W32) {t : State} (e : execSealUnbind via session words s = .next t) :
    Foot W s t := by
  unfold execSealUnbind at e
  refine run_foot e ?_
  intro s' h
  repeat' first
    | with_reducible assumption
    | intro _
    | with_reducible apply onSpdm_foot (hW := (less hW))
    | with_reducible apply inSession_foot
    | with_reducible apply sealUnbind_foot (hW := (less hW))

theorem onSec_foot {W : List Area} {r s : State} (code : Nat) (f : State → State) (h_f : ∀ s', Foot W r s' → Foot W r (f s')) (h : Foot W r s) :
    Foot W r (onSec code f s) := by
  unfold onSec
  repeat' first
    | with_reducible assumption
    | intro _
    | with_reducible apply guarded_foot

theorem secPoison_foot {W : List Area} {r s : State} (hW : [.ic, .err] ⊆ W) (a0 : HostData) (h : Foot W r s) :
    Foot W r (secPoison a0 s) := by
  unfold secPoison
  repeat' first
    | with_reducible assumption
    | intro _
    | with_reducible apply reportCe_foot (hW := (less hW))
    | with_reducible apply Foot.ite

theorem execSpdmXfer_foot {W : List Area} {s : State} (hW : [.ic, .mbx, .err, .csb, .ports, .freeCtr] ⊆ W) (host : HostData) {t : State} (e : execSpdmXfer host s = .next t) :
    Foot W s t := by
  unfold execSpdmXfer at e
  refine run_foot e ?_
  intro s' h
  repeat' first
    | with_reducible assumption
    | intro _
    | with_reducible apply onSec_foot
    | with_reducible apply replySt_foot (hW := (less hW))
    | with_reducible apply sendSpdm_foot (hW := (less hW))
    | with_reducible apply spdmAnswer_foot (hW := (less hW))
    | with_reducible apply secPoison_foot (hW := (less hW))
    | with_reducible apply Foot.ite

theorem execAttestReport_foot {W : List Area} {s : State} (hW : [.ic, .mbx, .err, .ports] ⊆ W) (host : HostData) {t : State} (e : execAttestReport host s = .next t) :
    Foot W s t := by
  unfold execAttestReport at e
  refine run_foot e ?_
  intro s' h
  repeat' first
    | with_reducible assumption
    | intro _
    | with_reducible apply onSec_foot
    | with_reducible apply replySt_foot (hW := (less hW))
    | with_reducible apply hostWriteM_foot (hW := (less hW))
    | with_reducible apply secPoison_foot (hW := (less hW))
    | with_reducible apply Foot.ite

theorem execScrubReceipt_foot {W : List Area} {s : State} (hW : [.ic, .mbx, .err, .ports] ⊆ W) (host : HostData) {t : State} (e : execScrubReceipt host s = .next t) :
    Foot W s t := by
  unfold execScrubReceipt at e
  refine run_foot e ?_
  intro s' h
  repeat' first
    | with_reducible assumption
    | intro _
    | with_reducible apply onSec_foot
    | with_reducible apply replySt_foot (hW := (less hW))
    | with_reducible apply hostWriteM_foot (hW := (less hW))
    | with_reducible apply secPoison_foot (hW := (less hW))
    | with_reducible apply Foot.ite
    | split

end Sys2Proof.Laws
end

