-- ==== Sys2Proof/Laws/FootRegisters.lean ====
section
/-!
SUPPORT. Footprints of the operations of Machine/Registers.lean.
-/
namespace Sys2Proof.Laws
open Sys2Proof Sys2Proof.Machine
set_option Elab.async false

theorem clearRc_foot {W : List Area} {r s : State} (hW : [.mem, .arr, .fe, .mbx, .pm, .err] ⊆ W) (bar : Sys2Proof.Bar) (off : Nat) {t : State} (e : clearRc bar off s = some t) (h : Foot W r s) :
    Foot W r t := by
  unfold clearRc at e
  cases bar
  all_goals
    dsimp only at e
    revert e
    repeat' first
      | (intro e; refine Foot.optIte e ?_ ?_)
      | (intro e; simp only [reduceCtorEq] at e; done)
      | (intro e; simp only [Option.some.injEq] at e; subst e)
  repeat' first
    | with_reducible assumption
    | intro _
    | with_reducible apply modCtx_foot (hW := (less hW))
    | with_reducible apply modTg_foot (hW := (less hW))
    | with_reducible apply modBox_foot (hW := (less hW))
    | with_reducible apply modVai_foot (hW := (less hW))
    | with_reducible apply modQueue_foot (hW := (less hW))
    | with_reducible apply Foot.ite
    | exact Or.inl (hW (by decide))
    | with_reducible exact Or.inr rfl
    | with_reducible exact id
    | with_reducible exact Nat.le_refl _
    | (simp only [Foot.lit_eq]; with_reducible apply Foot.litL rfl)
    | split

theorem readPlain_foot {W : List Area} {r s : State} (hW : [.blk, .ports] ⊆ W) (bar : Sys2Proof.Bar) (req : Nat) (off : Nat) (h : Foot W r s) :
    Foot W r (readPlain bar req off s) := by
  unfold readPlain
  repeat' first
    | with_reducible assumption
    | intro _
    | with_reducible apply emit_foot (hW := (less hW))
    | with_reducible apply Foot.ite
    | exact Or.inl (hW (by decide))
    | with_reducible exact Or.inr rfl
    | with_reducible exact id
    | with_reducible exact Nat.le_refl _
    | (simp only [Foot.lit_eq]; with_reducible apply Foot.litL rfl)
    | split

theorem execLowWordRead_foot {W : List Area} {s : State} (hW : [.blk, .mem, .arr, .fe, .mbx, .pm, .err, .ports] ⊆ W) (bar : Sys2Proof.Bar) (req : Nat) (off : Nat) {t : State} (e : execLowWordRead bar req off s = .next t) :
    Foot W s t := by
  unfold execLowWordRead at e
  refine run_foot e ?_
  intro s' h
  repeat' first
    | with_reducible assumption
    | intro _
    | with_reducible apply guarded_foot
    | with_reducible refine clearRc_foot (less hW) _ _ (by assumption) ?_
    | with_reducible apply readPlain_foot (hW := (less hW))

theorem execRcFieldRead_foot {W : List Area} {s : State} (hW : [.mem, .arr, .fe, .mbx, .pm, .err, .ports] ⊆ W) (bar : Sys2Proof.Bar) (req : Nat) (off : Nat) {t : State} (e : execRcFieldRead bar req off s = .next t) :
    Foot W s t := by
  unfold execRcFieldRead at e
  refine run_foot e ?_
  intro s' h
  repeat' first
    | with_reducible assumption
    | intro _
    | with_reducible apply guarded_foot
    | with_reducible refine clearRc_foot (less hW) _ _ (by assumption) ?_
    | with_reducible apply emit_foot (hW := (less hW))
    | with_reducible apply Foot.ite
    | split

theorem boxWrite_foot {W : List Area} {r s : State} (hW : [.mbx] ⊆ W) (b : Nat) (i : Nat) (val : W32) (h : Foot W r s) :
    Foot W r (boxWrite b i val s) := by
  unfold boxWrite
  repeat' first
    | with_reducible assumption
    | intro _
    | with_reducible apply modBox_foot (hW := (less hW))
    | with_reducible apply Foot.ite

theorem windowCheck_foot {W : List Area} {r s : State} (hW : [.ic, .err] ⊆ W) (off : Nat) (h : Foot W r s) :
    Foot W r (windowCheck off s) := by
  unfold windowCheck
  repeat' first
    | with_reducible assumption
    | intro _
    | with_reducible apply reportCe_foot (hW := (less hW))
    | with_reducible apply Foot.ite
    | split

theorem write0_foot {W : List Area} {r s : State} (hW : [.regs, .ic, .mbx, .err, .csb] ⊆ W) (off : Nat) (val : W32) (h : Foot W r s) :
    Foot W r (write0 off val s) := by
  unfold write0
  repeat' first
    | with_reducible assumption
    | intro _
    | with_reducible apply boxWrite_foot (hW := (less hW))
    | with_reducible apply reportCe_foot (hW := (less hW))
    | with_reducible apply regWrite_foot (hW := (less hW))
    | with_reducible apply windowCheck_foot (hW := (less hW))
    | with_reducible apply Foot.ite
    | exact Or.inl (hW (by decide))
    | with_reducible exact Or.inr rfl
    | with_reducible exact id
    | with_reducible exact Nat.le_refl _
    | (simp only [Foot.lit_eq]; with_reducible apply Foot.litL rfl)
    | split
    | dsimp only

theorem write2_foot {W : List Area} {r s : State} (hW : [.regs, .ic, .mbx, .err] ⊆ W) (v : Nat) (o : Nat) (val : W32) (h : Foot W r s) :
    Foot W r (write2 v o val s) := by
  unfold write2
  repeat' first
    | with_reducible assumption
    | intro _
    | with_reducible apply hostCe_foot (hW := (less hW))
    | with_reducible apply boxWrite_foot (hW := (less hW))
    | with_reducible apply regWrite_foot (hW := (less hW))
    | with_reducible apply Foot.ite

theorem execRegisterWrite_foot {W : List Area} {s : State} (hW : [.regs, .ic, .mbx, .err, .csb] ⊆ W) (bar : Sys2Proof.Bar) (off : Nat) (val : W32) (ep : Bool) {t : State} (e : execRegisterWrite bar off val ep s = .next t) :
    Foot W s t := by
  unfold execRegisterWrite at e
  refine run_foot e ?_
  intro s' h
  repeat' first
    | with_reducible assumption
    | intro _
    | with_reducible apply guarded_foot
    | with_reducible apply hostCe_foot (hW := (less hW))
    | with_reducible apply write0_foot (hW := (less hW))
    | with_reducible apply write2_foot (hW := (less hW))
    | with_reducible apply Foot.ite
    | split

end Sys2Proof.Laws
end

