-- ==== Sys2Proof/Laws/Shared.lean ====
section
/-!
SUPPORT. What the operations that many commands share can do, said once for each: reading control data, an answer that waits for its runs,
a preemption request, and the errors that the codes find.
-/
namespace Sys2Proof.Laws
open Sys2Proof Sys2Proof.Machine

/-! ## Control data (R344, R347) -/

/-- After a reader has ended its reading there is nothing left to end. -/
@[simp] theorem endReading_endReading (key : Nat) (s : State) : endReading key (endReading key s) = endReading key s := by
  by_cases h : (!s.fab.fetches.any (fun f => decide (f.key = key)) || fetchWaits s key) = true
  · simp [endReading, h]
  · have e : endReading key s = { s with fab := { s.fab with fetches := s.fab.fetches.filter (fun f => decide (f.key ≠ key)) } } := by
      unfold endReading; rw [if_neg h]
    rw [e]
    unfold endReading
    rw [if_pos]
    simp

/-- A reader with nothing on the fabric ends no reading. -/
theorem endReading_none (key : Nat) (s : State) (h : s.fab.fetches.any (fun f => decide (f.key = key)) = false) :
    endReading key s = s := by simp [endReading, h]

/-- A reader that has every answer goes on, and then ends its reading. -/
theorem reading_ready {s : State} {key c va n : Nat} {o : RunOwner} (ch seq : Nat) (f : State → State)
    (hw : fetchWaits s key = false) (hr : (remoteSpans s o c va n).all (hasFetch s key c) = true) :
    reading key o ch seq c va n f s = endReading key (f s) := by
  have : ((remoteSpans s o c va n).filter (fun p => !hasFetch s key c p)) = [] := by
    simpa [List.filter_eq_nil_iff, List.all_eq_true] using hr
  simp [reading, this, hw]

/-- A reader whose range does not translate goes on at once. -/
theorem reading_faults {s : State} {c va n : Nat} {o : RunOwner} (key ch seq : Nat) (f : State → State)
    (h : (xlRange s o c va n .read).isSome = true) : reading key o ch seq c va n f s = endReading key (f s) := by
  simp [reading, h]

/-- A reader that lacks a part at another node asks for each such part, and nothing else happens. -/
theorem reading_asks {s : State} {c va n key : Nat} {o : RunOwner} (ch seq : Nat) (f : State → State)
    (h : xlRange s o c va n .read = none) (hn : (remoteSpans s o c va n).filter (fun p => !hasFetch s key c p) ≠ []) :
    reading key o ch seq c va n f s = askReads key ch seq c ((remoteSpans s o c va n).filter (fun p => !hasFetch s key c p)) s := by
  simp only [reading, h, Option.isSome_none, Bool.false_eq_true, if_false]
  rw [if_pos (by simpa using hn)]

/-! ## Answers and runs (R295) -/

/-- A request none of whose runs waits is answered at once. -/
theorem answerWhen_now {s : State} {i : Nat} (a : Machine.Answer) (h : idWaits s i = false) : answerWhen i a s = release a s := by
  simp [answerWhen, h]

/-- A request with a waiting run keeps its answer. -/
theorem answerWhen_held {s : State} {i : Nat} (a : Machine.Answer) (h : idWaits s i = true) :
    answerWhen i a s = { s with rg := { s.rg with held := s.rg.held ++ [(i, a)], reqs := max s.rg.reqs (i + 1) } } := by
  simp [answerWhen, h]

/-! ## Preemption (R148, R152) -/

/-- A request that reaches an array with a task in execution is noted on it, and nothing else changes; one with grace 0 stays one. -/
theorem requestPre_running {s : State} {p q : Nat} (now : Bool) (ht : (arrAt s p).task = some q) (hs : (arrAt s p).saving = none)
    (hr : (arrAt s p).restore = false) : ArrayNow s (requestPre p now s) p { arrAt s p with
      preempt := some ⟨now || (match (arrAt s p).preempt with | some r => r.now | none => false)⟩ } := by
  have h := modArr_now p (fun x =>
      if x.task.isNone ∨ x.saving.isSome then x
      else if x.restore then { x with heldPre := some ⟨now⟩ }
      else { x with preempt := some ⟨now || (match x.preempt with | some r => r.now | none => false)⟩ }) s (by simp [ht, hs, hr])
  have n : ¬ ((arrAt s p).task.isNone = true ∨ (arrAt s p).saving.isSome = true) := by simp [ht, hs]
  rw [if_neg n, if_neg (by simp [hr])] at h
  exact h

/-- A request changes only its array. -/
theorem requestPre_other (p q : Nat) (now : Bool) (s : State) (h : q ≠ p) : arrAt (requestPre p now s) q = arrAt s q :=
  arrAt_modArr_ne p q _ s h

/-! ## Errors that a code finds (R98, R271) -/

/-- Nothing found, nothing done. -/
@[simp] theorem memErrors_nil (a n : Nat) (s : State) : memErrors a n [] s = s := rfl

@[simp] theorem lsFound_nil (l cls op : Nat) (s : State) : lsFound l cls op [] s = s := by
  unfold lsFound
  repeat' first | rfl | split

end Sys2Proof.Laws
end

