-- ==== Sys2Proof/WellFormed.lean ====
section
/-!
DEFINITION. Which operands a command may carry: each number names a unit that exists (R5, R58, R80, R89, R437, R494,
R497, R521, R523, R641, R647), and the parts of a flit or a set have their sizes (R322, R324).
-/
namespace Sys2Proof

/-- The operands of a command name things that the block has. -/
def Instr.wf (i : Instr) : Bool :=
  match i with
  | .coldResetRelease | .coldResetAssert | .ireqReadyAssert | .bar4Write _ _ _ | .cmemRequest _ _ _ _ _ _
  | .barAccessMalformed _ _ _ _ _ _ | .registerWrite _ _ _ _ | .lowWordRead _ _ _ | .rcFieldRead _ _ _
  | .ocplCompletion _ _ _ _ | .oreqCompletionTimeout _ | .hapLinkDown _ | .hapFlr | .doeMessage _ | .clockLoss _
  | .mcClockWaitExpiry | .blkLock _ | .fabLock _ | .throttleAssert | .throttleRelease | .beatInEdge | .beatBoundary
  | .tapInstruction _ | .mctpControlMessage _ | .pldmRequest _ _ | .remoteLookupTimeout _ | .nearTierModeWrite _
  | .nearTierStepZeroed | .cacheInvalidationDone | .patrolRead _ _ | .granuleMoveDone _ | .requestTimeout _
  | .beatUpstreamLoss | .stepGate _ _ | .gateExpiry _ | .kvPass _ _ | .kvPassCopyStart _ _ | .batchEdit _ _
  | .dispatch _ | .roundBoundary | .watchdogExpiry _ | .deadlockScan _ | .roundLengthWrite _ | .ctxCreate
  | .objectDestroy | .allocationZeroed _ | .vaiCreate | .vaiDestroy | .vaiGrant | .revokeZeroed _ _ | .partScratch
  | .reconfig | .reconfigDrainExpiry | .migStart | .migStop | .migHarvest | .vaiPause | .vaiResume | .migStateSave
  | .migStateLoad _ | .icSync _ | .csbImageCheck | .strataBondTest _ _ _ _ _ | .stackTraining _ _ _ _
  | .portTrainingTimeout | .recoveryGo _ | .fwStage _ | .fwHandover | .handoverStart | .handoverComplete
  | .handoverTimeout | .fwCommit | .flashWriteDone | .fwAbort | .arraySwap _ | .sectorOffline | .sectorOnline
  | .blockRestEntry | .wakeComplete _ | .prewake _ | .vaiWakeTol | .cpbRateChoice _ | .beatSet | .masterElection
  | .beatSourceLoss | .ledgerSnapshot | .ledgerHeadWrite _ | .blockReset | .blockResetDrainExpiry | .resetSequenceEnd
  | .meshFatalError | .breset _ | .reinstate _ | .dumpClr _ | .dumpCopy _ | .dumpCopyDone _ | .dumpFlashCopy
  | .errLogHeadWrite _ | .getMeasurements _ _ | .keyExchange _ _ | .endSession _ _ | .spdmMessage _ _
  | .sessionHeartbeatTimeout _ | .sealBind _ _ _ | .sealWindow _ _ _ | .sealRotate _ _ _ | .sealUnbind _ _ _
  | .spdmXfer _ | .attestReport _ | .scrubReceipt _ | .dumpFlashCopyDone | .debugPortAccess _ | .maxStateWrite _ =>
    true
  | .bar4Read _ len _ _ => decide (len ≤ 4096)
  | .phyUpdateRequest n _ | .stackSelfRefreshEntry n | .sectorDozeEntry n => decide (n < 12)
  | .eapDone e _ _ _ | .eapMreq e _ _ _ _ _ _ _ | .cancelAck e _ | .cancelTimeout e _ | .eapFatal e => decide (e < 4)
  | .telemetryFrame n _ | .telemetryChannelLost n => decide (n < 8)
  | .accParityError p | .lockstepMismatch p | .arrayGate p | .arraySelfTestDone p _ => decide (p < 912)
  | .nop l _ | .endTask l _ | .br l _ | .brc l _ | .call l _ | .ret l _ | .loop l _ | .cheap l _ | .rdflag l _ | .clrflag l _ | .addi l _
  | .add l _ | .sub l _ | .mul l _ | .shl l _ | .shr l _ | .and l _ | .or l _ | .movi l _ | .movhi l _ | .cmp l _ | .fop l _ | .gcfg l _
  | .gzero l _ | .gload l _ | .gstep l _ _ | .drain l _ _ | .vecFp32Op l _ | .vecInt32Op l _ | .vld l _ | .vst l _ | .cvt l _ | .qblk l _
  | .qt2 l _ | .deq l _ | .load l _ | .store l _ _ | .loads l _ | .stores l _ _ | .openwin l _ | .closewin l _ | .fence l _ | .signal l _
  | .wait l _ | .takewait l _ | .barrier l _ | .atom l _ _ | .enq l _ | .alloc l _ | .free l _ | .hpush l _ | .hpop l _ | .ptest l _
  | .loadComplete l _ | .storeAck l | .atomReply l | .taskStart l _ | .graceExpiry l | .saveComplete l _
  | .restoreComplete l _ | .waitTimeout l | .systemCallReply l => decide (l < 864)
  | .lookup n _ | .runFetchData n _ _ | .update n _ | .epochFence n _ | .epochFenceComplete n | .lceInternalError n =>
    decide (n < 48)
  | .lkpPart p | .lkpRsp p | .ackTimeout p | .degradeSet p _ _ | .beatOrderedSet p _ _ | .delayReqSend p _
  | .delayReq p _ _ _ _ | .delayRsp p _ _ _ _ _ | .readRequest p _ | .writeRequest p | .writeLs p | .addRequest p _ | .fadd p _
  | .cas p _ | .tsig p | .fwmsg p | .readRsp p | .ackResponse p | .atomRsp p | .reservedOpcDiscard p | .packetForward p
  | .ethernetFrame p _ _ _ | .ptpMessage p _ _ _ | .holdTimeout p | .portTrainingRetry p | .portModeWrite p _
  | .portRetrain p _ | .fabricTableError p _ | .remoteUpdateRecords p => decide (p < 8)
  | .sketchDecay p | .hrcConfigWrite p _ | .turnBoundary p | .turnTableCommit p _ | .partSchedWrite p _
  | .scrubComplete p | .hotRowCacheEmptied p => decide (p < 12)
  | .refresh c | .mcInternalError c | .runTime c | .tgStart c | .tgStop c _ | .tgRunDone c _ => decide (c < 768)
  | .stackTempRead temps => decide (temps.length = 12)
  | .rgCfgWrite r _ => decide (r < 13)
  | .flitReceive p flit _ _ =>
    decide (p < 8) && decide (flit.units.length ≤ 15) && flit.units.all (fun u => decide (u.length = 16))
  | .trainSet p set good _ => decide (p < 8) && decide (good < 256) && decide (set.credits.length = 8)
  | .retransmitTimeout k | .rateRecovery k => decide (k < 1024)
  | .laneFailure p lane => decide (p < 8) && decide (lane < 8)
  | .flowPortChange dst ch => decide (dst < 4096) && decide (ch < 4)
  | .sgCreate v _ | .sgRestart v _ | .sgDestroy v | .queueCreate v _ | .queueDestroy v | .queueResume v
  | .graphRegister v _ | .graphRelease v | .fenceCreate v | .fenceDestroy v | .fenceSignal v | .fenceQuery v
  | .hqCreate v | .hqDestroy v | .twSet v | .twGet v | .barrierBind v | .barrierUnbind v | .xlatInval v | .memAlloc v
  | .memLookup v | .memShare v | .memUnmap v | .memRef v | .memUnref v => decide (v < 256)
  | .dbSqTail v q _ | .dbCqHead v q _ | .dbArm v q _ => decide (v < 256) && decide (q < 64)
  | .nopCommand q _ | .task q _ | .launch q _ | .patch q _ _ | .waitCommand q _ | .signalCommand q _
  | .signalPerform q | .completionEntryWrite q | .queueUnload q | .queueReset q | .queueResetSettled q =>
    decide (q < 768)
  | .queueLoad q slot => decide (q < 768) && decide (slot < 32)
  | .walkerBind _ walker => decide (walker < 16)
  | .taskSteal k => decide (k < 48)
  | .ctxDestroy box | .mbPost box _ | .mailboxTake box | .mbAckRelease box _ => decide (box < 258)
  | .teardownDrainExpiry c => decide (c < 512)
  | .eventRecordWrite target => decide (target < 262)
  | .holdoffExpiry g => decide (g < 64)
  | .pendingClear n | .swset n => decide (n < 1536)
  | .sourceConfigWrite n _ => decide (n < 1536) && decide (32 ≤ n)
  | .eventQueueHeadWrite target _ => decide (target < 257)
  | .heartbeat proc => decide (proc < 5)
  | .stewardHang sw | .contextRestore sw => decide (sw < 4)
  | .reportReady ms => decide (ms < 65536)
  | .msixVectorUnmask v _ => decide (v < 257)

end Sys2Proof
end

