-- ==== Sys2Proof/Tests/Slice0.lean ====
section
/-!
SUPPORT. Tests: operands that WellFormed refuses, steps on small states, and for every statement states and operands that meet the
hypotheses of its clauses.
-/
namespace Sys2Proof.Tests
open Sys2Proof Sys2Proof.Machine Sys2Proof.Laws
set_option Elab.async false

/-! ## Operands -/

/-- One ill-formed term for each check of WellFormed. -/
theorem test_wf_refuses : ([.bar4Read 0 4097 0 [], .phyUpdateRequest 12 false, .eapFatal 4, .telemetryChannelLost 8, .accParityError 912,
    .nop 864 [], .lceInternalError 48, .lkpPart 8, .sketchDecay 12, .refresh 768, .stackTempRead [], .rgCfgWrite 13 0,
    .flitReceive 0 { lhdr := 0, units := [[0]], rsvd := 0, crc := 0 } 0 0, .flitReceive 8 { lhdr := 0, units := [], rsvd := 0, crc := 0 } 0 0,
    .trainSet 0 { lanes := 0xFF, mode := 1, node := 0, expected := 0, fresh := true, credits := [] } 0 true, .rateRecovery 1024, .laneFailure 0 8, .flowPortChange 4096 0,
    .flowPortChange 0 4, .twGet 256, .dbArm 256 0 1, .dbArm 0 64 1, .queueUnload 768, .queueLoad 0 32, .walkerBind 0 16, .taskSteal 48,
    .mailboxTake 258, .teardownDrainExpiry 512, .eventRecordWrite 262, .holdoffExpiry 64, .swset 1536, .sourceConfigWrite 31 0,
    .eventQueueHeadWrite 257 0, .heartbeat 5, .contextRestore 4, .reportReady 65536, .msixVectorUnmask 257 0] : List Instr).all
      (fun i => !i.wf) = true := by decide

/-- No row of the table has bits, so no word spells a command. -/
theorem test_no_word_decodes : decodeTableWord 32 0xDEADBEEF = none := by decide

/-! ## Small states -/

/-- The block in service. -/
def up : State := { blk := { coldLow := false, bootState := 6, ireqReady := true } }

/-- An instruction word of R135. -/
def word (cls op : Nat) (dst src1 src2 mod imm : Nat := 0) : Nat :=
  cls * 2 ^ 60 + op * 2 ^ 54 + dst * 2 ^ 48 + src1 * 2 ^ 42 + src2 * 2 ^ 36 + mod * 2 ^ 32 + imm

/-- A task of queue 0 and context 0 on logical array 0. -/
def tk : Task := { seq := 0, ty := 0, queue := 0, ctx := 0, gen := 0, cmd := 0, record := [], place := .running 0 }

/-- Physical array 0 stands behind logical array 0 and executes `w` for the task. -/
def onArr (w : Nat) (x : Arr := {}) (s : State := up) : State :=
  { s with
    fe := { s.fe with tasks := [tk] }
    arr := { s.arr with
      lmap := [(0, 1)]
      st := [(0, { x with task := some 0, ls := (List.range 8).foldl (fun t i => tset 0 t i ((leBytes 8 w).getD i 0)) x.ls })] } }

/-- An Except value is the one named: the form that evaluation decides. -/
def okIs {α β : Type} [DecidableEq β] (e : Except α β) (b : β) : Bool := match e with | .ok x => decide (x = b) | .error _ => false

theorem ok_iff {α β : Type} [DecidableEq β] (e : Except α β) (b : β) : e = .ok b ↔ okIs e b = true := by
  cases e <;> simp [okIs]

/-- The array executes `w`. -/
def Ran (w cls op : Nat) (x : Arr := {}) (s : State := up) : Prop := Executes (onArr w x s) [] (onArr w x s) 0 0 tk w cls op

/-- Where nothing is retired every byte has its storage. -/
theorem storage (s : State) (h : s.mem.retired = []) (k : s.mem.chan = []) (x : Nat) : retiredAt s x = false := by
  simp [retiredAt, h, chanAt, k, tget]

/-- A granule is retired as a whole. -/
theorem granule_storage (s : State) (g : Nat) (h : retiredAt s (g * 4096) = false) (i : Nat) (k : i < 4096) : retiredAt s (g * 4096 + i) = false := by
  have a : (g * 4096 + i) / 4096 = g * 4096 / 4096 := by omega
  have b : stackOf (g * 4096 + i) = stackOf (g * 4096) := by simp only [stackOf, stackSize]; omega
  have c : stackGranule (g * 4096 + i) = stackGranule (g * 4096) := by simp only [stackGranule, stackSize]; omega
  have e : g * 4096 + i < farTop ↔ g * 4096 < farTop := by simp only [farTop]; omega
  have d : isFar (g * 4096 + i) = isFar (g * 4096) := by simp only [isFar, e]
  simpa only [retiredAt, pcOf, a, b, c, d] using h

/-- Context 0 of VAI 0, page 1 of its space mapped to byte 0x2000 of its far-tier grant, writable. -/
def mapped (s : State := up) : State :=
  { s with fe := { s.fe with vai := [(0, { state := 1, part := 0 })], ctx := [(0, { state := 1 })], ftOwn := [(0, .vai 0)],
                             tlb := [.array 0, .sector 0, .sector 2, .eap 0, .eap 1, .front].map (fun u => ⟨u, 0, 0, 1, 4 * (0x2000 + 17)⟩) } }

/-- Registers of a transfer: a1 is a virtual address, s2 a local one. -/
def moves : Arr := { a := [(1, 0x1000)], s := [(2, 0x100)] }

/-- VAI 0 holds tally group 0; word 1 is 5. -/
def tallied : State := { mapped with tw := { grant := [(0, 1)], val := [(1, 5)] } }

/-! ## Arrays -/

/-- The scalar operations, each in its two banks; MOD at its bounds. -/
theorem test_hyps_ScalarResults :
    scalarOps.map (fun o => o.2.1) = [1, 2, 3, 4, 5, 6, 7] ∧
    (∀ k ∈ [1, 2, 3, 4, 5, 6, 7], ∀ m ∈ [0, 3], Ran (word 1 k 1 2 3 m) 1 k ∧ opMod (word 1 k 1 2 3 m) < 4) ∧
    (Ran (word 1 0 1 2 0 3 7) 1 0 ∧ opMod (word 1 0 1 2 0 3 7) < 4) ∧
    (Ran (word 1 8 1 0 0 1 7) 1 8 ∧ opMod (word 1 8 1 0 0 1 7) < 2) ∧
    (Ran (word 1 9 1 0 0 1 7) 1 9 ∧ opMod (word 1 9 1 0 0 1 7) < 2) ∧
    (Ran (word 1 10 0 1 2 5) 1 10 ∧ opMod (word 1 10 0 1 2 5) < 6) ∧
    (Ran (word 1 11 1 2 3 9) 1 11 ∧ (fopRes 9 0 0 0).isSome = true) ∧ Ran (word 1 11 1 2 3 5) 1 11 := by
  simp only [Ran, Executes, lsFound_nil, Live, ok_iff]; repeat' apply And.intro
  all_goals decide +kernel

theorem test_hyps_ControlFlow :
    (∀ k ∈ [0, 2, 4, 7, 8, 9], Ran (word 0 k 1) 0 k ∧ opMod (word 0 k 1) = 0) ∧ ({} : Arr).stack.length < 16 ∧ ({} : Arr).preempt = none ∧
    (∀ m ∈ [0, 1], Ran (word 0 3 0 0 0 m 2) 0 3 ∧ opMod (word 0 3 0 0 0 m 2) < 2) ∧
    Ran (word 0 5) 0 5 { stack := [8] } ∧
    (∀ m ∈ [0, 1], Ran (word 0 6 7 1 0 m 2) 0 6 ∧ opMod (word 0 6 7 1 0 m 2) = m ∧ opDst (word 0 6 7 1 0 m 2) < 8) ∧
    (let x : Arr := { preempt := some ⟨false⟩, codeLen := 96, ls := [(88, 8)] }
     let s := onArr (word 0 7) x
     Executes s [] s 0 0 tk (word 0 7) 0 7 ∧ (arrAt s 0).preempt ≠ none ∧ bit (regGet s 0x402000) 0 = true ∧
     bit (regGet s 0x402000) 1 = false ∧ (liveEntry (arrAt s 0) (opImm (word 0 7))).any liveOk = true) ∧
    (∀ n ∈ [0, 1], Ran (word 7 0) 7 0 { stores := n } ∧ opMod (word 7 0) = 0 ∧ opImm (word 7 0) = 0) ∧
    (∀ n ∈ [0, 1], Ran (word 0 1) 0 1 { stores := n } ∧ opMod (word 0 1) = 0) := by
  simp only [Ran, Executes, lsFound_nil, Live, ok_iff]; repeat' apply And.intro
  all_goals decide +kernel

theorem test_hyps_GridAndVectorUnits :
    (Ran (word 2 0) 2 0 ∧ (gridClass (field (opImm (word 2 0)) 0 4) (field (opImm (word 2 0)) 4 4)).isSome = true) ∧
    Ran (word 2 1) 2 1 ∧
    (Ran (word 2 2 0 1) 2 2 { a := [(1, 64)] } ∧ lsIn 64 25600 = true) ∧
    (∀ m ∈ [0, 1], ∀ n ∈ [0, 32, 64], let w := word 2 3 3 1 2 m 64
      let s := onArr w { progress := n }
      Executes s [] s 0 0 tk w 2 3 ∧ opMod w < 2 ∧
      (gridOpOf (arrAt s 0) w).any (fun g => g.aligned && g.inStore && decide ((arrAt s 0).progress ≤ g.k)) = true) ∧
    (∀ m ∈ [0, 7, 8, 15], ∀ n ∈ [0, 99, 100], let w := word 3 0 3 1 2 m (if m < 8 then 0 else 63)
      let w := if m < 8 then w else word 3 0 3 1 2 m (16 + 32 + 13)
      let s := onArr w { a := [(1, 64), (2, 0x20000), (3, 0x30000)], fmtA := 0, fmtB := 0, progress := n }
      let x := arrAt s 0
      Executes s [] s 0 0 tk w 3 0 ∧ opMod w < 16 ∧ x.progress ≤ 100 ∧
      (epilogueOf x w).any (fun e => lsIn 64 e.outBytes && lsIn 0x20000 e.scaleBytes && lsIn 0x30000 320) = true ∧
      (x.getA (opSrc1 w)).toNat = 64 ∧ (x.getA (opSrc2 w)).toNat = 0x20000 ∧ (x.getA (opDst w)).toNat = 0x30000) ∧
    (∀ k ∈ [0, 9], Ran (word 4 k 1 2 3) 4 k ∧ opCode (word 4 k 1 2 3) = k ∧ (vecFp k 0 0 0).isSome = true) ∧
    (Ran (word 4 5 15 2 3 0 3) 4 5 ∧ opImm (word 4 5 15 2 3 0 3) < 4 ∧ opDst (word 4 5 15 2 3 0 3) < 16) ∧
    (∀ k ∈ [0x10, 0x17], Ran (word 4 k 1 2 3) 4 k ∧ opCode (word 4 k 1 2 3) = k) ∧
    (∀ k ∈ [0x20, 0x21], Ran (word 4 k 1 2 3) 4 k { a := [(2, 256)] } ∧ opMod (word 4 k 1 2 3) = 0 ∧ lsIn 256 256 = true) ∧
    (let w := word 5 0 1 2 0 3 (256 * 7 + 0)
     Ran w 5 0 ∧ opMod w < 4 ∧ (fmtOf (opImm w % 256)).any (fun f => decide (f ≠ .t2) && slotIn (immSlot w) 64 f.bits) = true ∧ opImm w < 65536) ∧
    (∀ i ∈ [0, 5], let w := word 5 1 1 2 3 7 (256 * 7 + i)
     Ran w 5 1 ∧ opMod w < 8 ∧ opImm w % 256 ≤ 5 ∧ (fmtOf (opImm w % 256)).any (fun f => slotIn (immSlot w) 32 f.bits) = true ∧
     opImm w < 2 ^ 24) ∧
    (Ran (word 5 2 1 2 0 15 7) 5 2 ∧ opMod (word 5 2 1 2 0 15 7) < 16) ∧
    (∀ i ∈ [0, 13], let w := word 5 3 1 2 3 0 i
     Ran w 5 3 ∧ opMod w = 0 ∧ (fmtOf (opImm w % 256)).any (fun f => slotIn (immSlot w) 64 f.bits) = true ∧ opImm w < 2 ^ 24 ∧
     immScale w ≠ 255) ∧
    (twf 0 ({ v := [(0, 5)] } : Arr).v = true ∧ 2047 + 1 ≤ 2048) := by
  simp only [Ran, Executes, lsFound_nil, Live, ok_iff]; repeat' apply And.intro
  all_goals decide +kernel

theorem test_hyps_MalformedInstructions :
    (let s := onArr (word 9 0)
     Computing s ∧ executing s 0 = some (0, tk) ∧ (arrAt s 0).pc % 8 = 0 ∧ lsIn (arrAt s 0).pc 8 = true ∧
     opKnown (opClass (leNat ((arrAt s 0).lsBytes (arrAt s 0).pc 8))) (opCode (leNat ((arrAt s 0).lsBytes (arrAt s 0).pc 8))) = false) ∧
    (let u := onArr (word 0 0) { pc := 4 }
     Live u ∧ computeOn u = true ∧ executing (lsFound 0 0 0 [] u) 0 = some (0, tk) ∧
     (match fetch (arrAt (lsFound 0 0 0 [] u) 0) with | .error _ => true | .ok _ => false) = true) ∧
    (LogRoom up ∧ (⟨0, false⟩ : LsError).two = false ∧ (⟨1310719, true⟩ : LsError).two = true) ∧
    (Ran (word 0 0 0 0 0 1) 0 0 ∧ opMod (word 0 0 0 0 0 1) ≠ 0) ∧
    Ran (word 0 4) 0 4 { stack := List.replicate 16 8 } ∧ Ran (word 0 5) 0 5 ∧
    Ran (word 2 2 0 1) 2 2 { a := [(1, 8)] } ∧ Ran (word 4 0x20 0 1) 4 0x20 { a := [(1, 64)] } := by
  simp only [Ran, Executes, lsFound_nil, Computing, LogRoom, Live, ok_iff]; repeat' apply And.intro
  all_goals decide +kernel

theorem test_hyps_Transfers :
    (∀ k ∈ [0, 1, 2, 3], let w := word 6 k 0 1 2 0 64
      let s := onArr w moves mapped
      Executes s [] s 0 0 tk w 6 k ∧ opMod w = 0 ∧ xferArgs (arrAt s 0) w (decide (2 ≤ k)) = .ok (0x1000, 0x100, 64, if 2 ≤ k then 0 else 64) ∧
      xferPieces 0x1000 0x100 64 0 = [(0x1000, 0x100, 64)] ∧ xferPieces 0x1000 0x100 64 64 = [(0x1000, 0x100, 64)] ∧ xferFault s (.array 0) 0 (xferPieces 0x1000 0x100 64 0) .read = none ∧
      xferFault s (.array 0) 0 (xferPieces 0x1000 0x100 64 0) .write = none ∧ xl s (.array 0) 0 0x1000 64 .write = .ok 0 0x2000 ∧
      Machine.Memory.wf s.mem.cells = true ∧ (arrAt s 0).progress ≤ 64 / 64 ∧ (arrAt s 0).progress = 0) ∧
    (∀ x, retiredAt (onArr (word 6 1 0 1 2 0 64) moves mapped) x = false) ∧
    (∀ k ∈ [0, 2], let w := word 6 k 0 1 2 0 64
      let s := onArr w moves
      Executes s [] s 0 0 tk w 6 k ∧ (xferFault s (.array 0) 0 (xferPieces 0x1000 0x100 64 0) .read).isSome = true) ∧
    (∀ n ∈ [64, 0x80000], let w := word 6 4 0 2 0 0 n
      Executes (onArr w moves) [] (onArr w moves) 0 0 tk w 6 4 ∧ lsIn 0x100 n = true ∧ 0 < n ∧ n ≤ 0x80000) ∧
    Ran (word 6 5) 6 5 := by
  simp only [Ran, Executes, lsFound_nil, Computing, Live, ok_iff]; repeat' apply And.intro
  all_goals first | exact storage _ rfl rfl | decide +kernel

theorem test_hyps_SyncInstructions :
    (let w := word 7 1 3 4 2
     let s := onArr w { s := [(4, 1), (2, 7)] } tallied
     Executes s [] s 0 0 tk w 7 1 ∧ opMod w = 0 ∧ opImm w = 0 ∧ twGranted s 0 1 = true ∧ Quiet s 1) ∧
    (∀ c ∈ [0, 3], let w := word 7 2 3 4 2 c
     let s := onArr w { s := [(4, 1), (2, 5)] } tallied
     Executes s [] s 0 0 tk w 7 2 ∧ opMod w = c ∧ twGranted s 0 1 = true) ∧ (opMod (word 7 2 3 4 2 3) < 4 ∧ waitHolds 3 5 5 = true ∧ waitHolds 0 5 5 = true ∧ waitHolds 0 5 6 = false) ∧
    (∀ n ∈ [1, 2 ^ 31 - 1], let w := word 7 3 3 4 2
     let s := onArr w { s := [(4, 1), (2, w64 n)] } tallied
     Executes s [] s 0 0 tk w 7 3 ∧ twGranted s 0 1 = true ∧ takeHolds 5 (w32 n) = decide (n = 1) ∧ Quiet s 1) ∧
    (let w := word 7 4 3 0 0 0 31
     let s := onArr w {} { up with tw := { bar := [(31, { state := 1, countM1 := 1 })] } }
     Executes s [] s 0 0 tk w 7 4 ∧ opImm w < 32 ∧ (barAt s 31).state = 1 ∧ (barAt s 31).ctx = 0 ∧ (barAt s 31).arrived ≠ (barAt s 31).countM1) ∧
    (∀ m ∈ [0, 2], let w := word 7 5 3 1 2 m
     let s := onArr w moves mapped
     Executes s [] s 0 0 tk w 7 5 ∧ opMod w < 3 ∧ opImm w = 0 ∧ ((arrAt s 0).getA (opSrc1 w)).toNat = 0x1000 ∧
     xl s (.array 0) 0 0x1000 8 .atomic = .ok 0 0x2000 ∧ Machine.Memory.wf (memErrors 0x2000 8 [] s).mem.cells = true) ∧
    (∀ x, retiredAt (memErrors 0x2000 8 [] (onArr (word 7 5 3 1 2) moves mapped)) x = false) := by
  simp only [Executes, lsFound_nil, Computing, Live, Quiet, ok_iff]; repeat' apply And.intro
  all_goals first | exact storage _ rfl rfl | decide +kernel

/-- Handoff queue `h` of context 0, with `items`. -/
def handed (items : List Nat) (hs : List Nat := []) (s : State := up) : State :=
  { s with fe := { s.fe with hq := [(3, { granted := true, bound := true, count := 2, items })], tasks := [{ tk with handles := hs }] } }

theorem test_hyps_SystemInstructions :
    (∀ n ∈ [0, 63], let w := word 8 0 3 2 4
     let s := onArr w { a := [(2, 64)], s := [(4, w64 n)] }
     Executes s [] s 0 0 tk w 8 0 ∧ opMod w < 2 ∧ ((arrAt s 0).getA (opSrc1 w)).toNat = 64 ∧ ((arrAt s 0).getS (opSrc2 w)).toNat = n ∧
     lsIn 64 64 = true) ∧
    (∀ n ∈ [0, 2], let w := word 8 1 3 2 4
     let s := onArr w { s := [(4, w64 n)] }
     Executes s [] s 0 0 tk w 8 1 ∧ opMod w = 0 ∧ opImm w = 0 ∧ ((arrAt s 0).getS (opSrc2 w)).toNat = n) ∧
    (let w := word 8 2 3 2
     let s := onArr w { s := [(2, 0x1000)] }
     Executes s [] s 0 0 tk w 8 2 ∧ opMod w = 0 ∧ allocMapped s 0 0x1000 = none ∧
     allocMapped { s with fe := { s.fe with allocs := [(1, { live := true, maps := [(0, 0x1000)] })] } } 0 0x1000 = some 1) ∧
    (let w := word 8 3 3 2 4
     let s := { onArr w { s := [(2, 3), (4, 9)] } with fe := (handed [] [9]).fe }
     Executes s [] s 0 0 { tk with handles := [9] } w 8 3 ∧ opMod w = 0 ∧ hqBound s 3 0 = true ∧ (hqAt s 3).items.length + hqKept s 3 < 4096 ∧
     (hqAt s 3).tw = none) ∧
    (∀ q ∈ [[], [9, 10]], let w := word 8 4 3 2
     let s := { onArr w { s := [(2, 3)] } with fe := (handed q).fe }
     Executes s [] s 0 0 tk w 8 4 ∧ opMod w = 0 ∧ hqBound s 3 0 = true ∧ (hqAt s 3).items = q) ∧
    (let w := word 8 5 3 2
     Executes (onArr w { a := [(2, 64)] }) [] (onArr w { a := [(2, 64)] }) 0 0 tk w 8 5 ∧ opMod w = 0 ∧ lsIn 64 1 = true) := by
  simp only [Executes, lsFound_nil, Live, ok_iff]; repeat' apply And.intro
  all_goals decide +kernel

/-- Physical array 0 behind logical array 0, holding `x`. -/
def held (x : Arr) (s : State := up) : State := { s with arr := { s.arr with lmap := [(0, 1)], st := [(0, x)] } }

/-- The record of a full save of task 0, in the pool. -/
def rec0 : SaveRec :=
  { seq := 0, ctx := 0, queue := 0, gen := 0, part := 0, phys := 0, cheap := false, size := 1354752, pool := true,
    units := List.range 21, slot := 0, done := true, st := { pc := 8 } }

/-- Task 0 alone, at array 0. -/
def working (s : State) : State := { s with fe := { s.fe with tasks := [tk] } }

theorem test_hyps_ArrayRepliesAndTasks :
    (let s := held { task := some 0, stall := .load [(0x2000, 64, 64)] }
     Computing s ∧ physOf s 0 = some 0 ∧ (arrAt s 0).task ≠ none ∧ readsDone s 0 = true) ∧
    (let s := held { stores := 2, storesDue := 1 }
     Computing s ∧ physOf s 0 = some 0 ∧ 1 < (arrAt s 0).stores ∧ (arrAt s 0).storesDue ≠ 0 ∧ runsWait s (.array 0) = false) ∧
    (let s := held { task := some 0, stall := .atom 3 (some 7) }
     Computing s ∧ physOf s 0 = some 0 ∧ (arrAt s 0).stall = .atom 3 (some 7) ∧ runsWait s (.array 0) = false) ∧
    (let s := held { task := some 0, stall := .sys 3 7 }
     Computing s ∧ physOf s 0 = some 0 ∧ (arrAt s 0).stall = .sys 3 7 ∧ readsDone s 0 = true) ∧
    (let s := { onArr (word 7 2 3 4 2 0 5) { stall := .wait 3 } with tw := { waits := [{ l := 0, phys := 0, idx := 1, take := false, cond := 0, arg := 5 }] } }
     Computing s ∧ physOf s 0 = some 0 ∧ (arrAt s 0).stall = .wait 3 ∧ (s.tw.waits.find? (fun w => decide (w.phys = 0))).isSome = true ∧
     opImm (leNat ((arrAt s 0).lsBytes (arrAt s 0).pc 8)) ≠ 0) ∧
    (let u : State := { up with fe := { tasks := [tk], q := [(0, { state := .ready })], slot := [(0, { valid := true, queue := 0 })],
                                        vai := [(0, { state := 1, part := 0 })] } }
     let s := held { queue := [0] } u
     let r := { s with arr := { s.arr with saves := [rec0] } }
     (Computing s ∧ physOf s 0 = some 0 ∧ (arrAt s 0).task = none ∧ (arrAt s 0).gated = false ∧
      ((arrAt s 0).queue.find? (entryReady s)).bind (taskOf s) = some tk ∧ saveOf s 0 = none ∧ fetchWaits s 0 = false ∧
      (remoteSpans s (.array 0) 0 (fieldAt tk.record 8 8) (fieldAt tk.record 16 4)).all (hasFetch s 0 0) = true) ∧
     (Computing r ∧ physOf r 0 = some 0 ∧ (arrAt r 0).task = none ∧ (arrAt r 0).gated = false ∧
      ((arrAt r 0).queue.find? (entryReady r)).bind (taskOf r) = some tk ∧ (saveOf r 0).isSome = true)) ∧
    (let s := working (held { task := some 0, preempt := some ⟨false⟩ })
     Computing s ∧ physOf s 0 = some 0 ∧ maySave (arrAt s 0) = true ∧ (arrAt s 0).preempt ≠ none ∧ (arrAt s 0).stall = .none ∧
     (arrAt s 0).progress = 0 ∧ taskOf s 0 = some tk) ∧
    (let s := working (held { task := some 0, saving := some true })
     let s := { s with arr := { s.arr with saves := [{ rec0 with done := false }] } }
     Computing s ∧ physOf s 0 = some 0 ∧ (arrAt s 0).saving = some true ∧ taskOf s 0 = some tk ∧ (recOf s 0).isSome = true ∧
     (arrAt s 0).stores = 0 ∧ (arrAt s 0).stall = .none ∧ runsWait s (.array 0) = false) ∧
    (let s := working (held { task := some 0, restore := true })
     let s := { s with arr := { s.arr with saves := [rec0] } }
     Computing s ∧ physOf s 0 = some 0 ∧ (arrAt s 0).restore = true ∧ taskOf s 0 = some tk ∧ saveOf s 0 = some rec0 ∧
     rec0.st.stall = .none ∧ (arrAt s 0).heldPre = none ∧ runsWait s (.array 0) = false) := by
  simp only [Computing, Live]; repeat' apply And.intro
  all_goals decide +kernel

theorem test_hyps_FullSaveRoundTrip :
    let x : Arr := { ls := [(1310719, 5)], v := [(4095, 7)], acc := [(6399, 9)], lsPoison := [20479], vPoison := [63], tilePoison := true }
    twf 0 x.ls = true ∧ twf 0 x.v = true ∧ twf 0 x.acc = true := by decide

/-! ## The boundary -/

theorem test_hyps_ColdReset :
    State.reset.blk.coldLow = true ∧ State.reset.fw.flash.sfdp = true ∧
    ({ State.reset with fw := { flash := { sfdp := false } } } : State).fw.flash.sfdp = false ∧ Live up := by
  simp only [Live]; decide +kernel

/-- A read of one granule into array 0's local store. -/
def rd : OreqRead := { tag := 0, addr := 0x1000, len := 64, ctx := some 0, use := .load 0, dest := 128 }

theorem test_hyps_HostAccesses :
    FarOpen up 0 64 ∧ FarOpen up (farTop - 64) 64 ∧ resetWindow { up with err := { state := 1 } } = true ∧
    (∀ x, retiredAt up x = false) ∧ Machine.Memory.wf up.mem.cells = true ∧
    (let s : State := { up with regs := [(0x8, w32 (2 ^ 19))] }
     FarOpen s 64 64 ∧ bit (regGet s 0x8) 19 = true) ∧
    (LogRoom up ∧ ¬ ((8 : Nat) = 4 ∧ 4 % 4 = 0) ∧ ¬ ((8 : Nat) = 8 ∧ 4 % 8 = 0) ∧ up.blk.ireqReady = true ∧ inService up = true) ∧
    (let s : State := held {} { up with ports := { oreq := [rd], hostCe := [0] } }
     Live s ∧ readOf s 0 = some rd ∧ rd.use = .load 0 ∧ physOf s 0 = some 0 ∧ rd.crypt = none ∧ (∀ x ∈ s.ports.oreq, x.sent = true) ∧
     s.ports.hostCe.contains (rd.ctx.getD 0) = true) ∧ readOf up 0 = none := by
  simp only [FarOpen, LogRoom, Live]; repeat' apply And.intro
  all_goals first | exact storage _ rfl rfl | decide +kernel

theorem test_hyps_RegisterAccesses :
    (∀ o ∈ [0x10000C, 0xC21000], Live up ∧ regsOn up = true ∧ o % 4 = 0 ∧ ownWrite up o 5 = false ∧
      (o < 0xC20000 ∨ (0xC21000 ≤ o ∧ o < 0xF00000))) ∧ LogRoom up ∧
    (answers up .bar0 0x1100208 = true ∧ clearRc .bar0 0x1100208 up = none ∧ (wide0 up 0x1100208).isSome = true) ∧
    (let s : State := { up with blk := { up.blk with hiLatch := [(5, 0x1100208, 7)] } }
     Live s ∧ answers s .bar0 0x110020C = true ∧ clearRc .bar0 0x110020C s = none ∧ wide0 s 0x110020C = none ∧
     (s.blk.hiLatch.find? (fun e => decide (e.1 = 5 ∧ e.2.1 + 4 = 0x110020C))).isSome = true) ∧
    (answers up .bar0 0x1100210 = true ∧ (clearRc .bar0 0x1100210 up).isSome = true) ∧
    (answers up .bar2 8 = true ∧ (clearRc .bar2 8 up).isSome = true) ∧
    (up.blk.bootState = 6 ∧ bit (1 : W32).toNat 0 = true) := by
  simp only [LogRoom, Live]; repeat' apply And.intro
  all_goals decide +kernel

/-- Engine 1 works for task 0 under this issue tag. -/
def tag0 : EapTag := { eap := 1, queue := 0, ctx := 0, gen := 0, seq := 0, cancelled := false, reset := 0 }

/-- The same, the tag in a given condition. -/
def engaged (cancelled : Bool := false) (reset : Nat := 0) (s : State := up) : State :=
  { s with blk := { s.blk with eapTags := [{ tag0 with cancelled, reset }] } }

theorem test_hyps_BClassEvents :
    Live up ∧ inService up = true ∧ LogRoom up ∧
    ({ up with blk := { up.blk with linkUp := true } } : State).blk.linkUp = true ∧
    (procAt { up with mbx := { proc := [(3, { pstate := 1 })] } } 3).pstate = 1 ∧
    eapTagOf (engaged true) 1 (w64 (issueTag 0 0 0 0)) = some { tag0 with cancelled := true } ∧
    bit (0x80000000 : W32).toNat 31 = true := by
  simp only [LogRoom, Live]; repeat' apply And.intro
  all_goals decide +kernel

/-- Telemetry channels in use, the first mapped to rail 0. -/
def metered : State := { up with regs := [(0x8, w32 (4 * 2 ^ 12))], blk := { up.blk with tel := [(0, { map := 0x80 })] } }

theorem test_hyps_PhysAndTelemetry :
    Live up ∧ stackGone up 11 = false ∧ LogRoom metered ∧
    (let s : State := { up with blk := { up.blk with bootState := 1, mcOk := [0] } }
     Live s ∧ s.blk.bootState ∈ [1, 2, 3] ∧ 11 ∉ s.blk.mcOk) ∧
    ([0, 85] : List Nat).getD 1 0 ≠ 0 ∧ (stackAt { up with mem := { stack := [(11, { state := 2 })] } } (767 / 64)).state = 2 ∧
    (0 < field (regGet metered 0x8) 12 4 ∧ bit (telAt metered 0).map 7 = true ∧ field (telAt metered 0).map 0 4 = field (5 : W32).toNat 28 4) ∧
    field (telAt metered 0).map 0 4 ≠ field (0x10000000 : W32).toNat 28 4 ∧ (telAt metered 0).lost = false := by
  simp only [LogRoom, Live]; repeat' apply And.intro
  all_goals decide +kernel

theorem test_hyps_EnginePorts :
    LogRoom up ∧ eapTagOf up 1 0 = none ∧ Computing up ∧
    (let s := working (engaged)
     Live s ∧ eapTagOf s 1 0 = some tag0 ∧ tag0.reset = 0 ∧ tag0.eap = 1 ∧ tag0.gen = (queueAt s tag0.queue).gen ∧ taskOf s 0 = some tk ∧
     s.blk.eapWait = [] ∧ tk.early = none) ∧
    (let s : State := engaged false 0 { mapped with fe := { mapped.fe with tasks := [tk] } }
     Computing s ∧ eapTagOf s 1 0 = some tag0 ∧ tag0.cancelled = false ∧ taskOf s 0 = some tk ∧
     spansOf 4096 (0x1F00 : W64).toNat 256 = [(0x1F00, 256)] ∧ xl s (.eap 1 0) 0 0x1F00 256 .read = .ok 0 0x2F00) ∧
    (eapTagOf (engaged true 1) 1 0 = some { tag0 with cancelled := true, reset := 1 }) := by
  simp only [LogRoom, Computing, Live]; repeat' apply And.intro
  all_goals decide +kernel

theorem test_hyps_ManagementAndThrottle :
    Live up ∧ bit (regGet up 0x8) 16 = false ∧ confMode up = false ∧ confMode { up with fe := { conf := 1 } } = true ∧ debugOpen up = true ∧
    debugOpen { up with fe := { conf := 1 } } = false ∧ 0x30000000000 + (912 * 0x200000 - 64) + 64 ≤ 0x30000000000 + 912 * 0x200000 ∧
    (let s := held { task := some 0 }
     debugOpen (working s) = true ∧ maySave (arrAt s 0) = true ∧ (arrAt s 0).task = some 0 ∧ taskOf (working s) 0 ≠ none) ∧
    0 < 254 ∧ 254 < 255 ∧ sensorValue up .power = some 0 ∧ up.pm.thrPin = false ∧
    ({ up with pm := { thrPin := true } } : State).pm.thrPin = true ∧ State.reset.blk.coldLow = true := by
  simp only [Live]; repeat' apply And.intro
  all_goals decide +kernel

/-! ## The links -/

/-- Port 0 is present, in `mode`, and holds `x`. -/
def linked (mode : Nat) (x : Port) (bits : Nat := 0) (s : State := up) : State :=
  { s with regs := [(0x8, w32 (2 ^ 24)), (0xC00000, 5), (portReg 0 0, w32 (mode * 2 ^ 30 + bits))], fab := { port := [(0, x)] } }

/-- A data flit of the right form with SEQ 0, and an idle one. -/
def flit0 (idle : Bool := false) : Flit :=
  mkFlit (linkHdr 0 0 false (if idle then 1 else 0) 0 3 0) []

/-- A flit carries the code of its own bytes, so it is intact, and with another code it is not. -/
theorem flit0_crc (i : Bool) : (flit0 i).crc = w32 (crc32c (flitBytes (flit0 i))) := by simp only [flit0, mkFlit, flitBytes]

theorem flit0_intact (i : Bool) : flitIntact (flit0 i) = true := by
  have c : ∀ l, crc32c l % 2 ^ 32 = crc32c l := fun l => Nat.mod_eq_of_lt (by unfold crc32c; exact BitVec.isLt _)
  unfold flitIntact
  rw [flit0_crc, w32, BitVec.toNat_ofNat, c]
  simp

theorem flit0_spoiled : flitIntact { flit0 with crc := flit0.crc + 1 } = false := by
  have g : ∀ y : W32, w32 y.toNat = y := fun y => by simp [w32]
  have c : ∀ (x : W32) n, x = w32 n → decide ((x + 1).toNat = n) = false := fun x n e => decide_eq_false fun h => by
    have k : x + 1 = x := (g (x + 1)).symm.trans ((congrArg w32 h).trans e.symm)
    simp at k
  have e : flitBytes { flit0 with crc := flit0.crc + 1 } = flitBytes flit0 := by simp only [flitBytes]
  unfold flitIntact
  rw [e]
  exact c _ _ (flit0_crc false)

theorem test_hyps_PortStates :
    (let s := linked 2 { state := 1 } (2 ^ 29)
     Live s ∧ portTrains s 0 = true ∧ portMode s 0 = 2 ∧ (portAt s 0).state = 1 ∧ (portAt s 0).paused = false ∧ (portAt s 0).asked = false ∧
     (portAt s 0).txq = [] ∧ (∀ l ∈ [0xFF, 0x0F, 0xF0], chooseLanes s 0 l ≠ 0)) ∧
    (let s := linked 1 { state := 1 }
     portTrains s 0 = true ∧ portMode s 0 = 1 ∧ (portAt s 0).state = 1 ∧
     partnerBad s { node := 5, mode := 1, lanes := 0xF0, credits := [], expected := 0, fresh := true } = true ∧ LogRoom s) ∧
    (∀ n ∈ [1, 4], let s := linked 1 { state := n }
     Live s ∧ portTrains s 0 = true ∧ (portAt s 0).state = n) ∧
    (let s := linked 1 { state := 2, lanes := 0xFF }
     Live s ∧ portUp s 0 = true ∧ portMode s 0 = 1 ∧ bit (portAt s 0).lanes 7 = true ∧ laneIdle (portAt s 0) 7 = false ∧
     halfWhole ((portAt s 0).lanes - 2 ^ 7) false = true ∧ (∀ h ∈ [true, false], halfWhole (portAt s 0).lanes h = true) ∧
     (portAt s 0).paused = false ∧ LogRoom s) ∧
    (let s := linked 2 { state := 1, logged := true }
     portTrains s 0 = true ∧ (portAt s 0).state = 1 ∧ (portAt s 0).logged = true) ∧
    (let s := linked 1 { state := 4 }
     Live s ∧ (portAt s 0).state = 4 ∧ portMode s 0 = 1) ∧
    (let s := linked 1 { state := 2, replay := [flit0] }
     portUp s 0 = true ∧ portMode s 0 = 1 ∧ (portAt s 0).paused = false ∧ (portAt s 0).replay ≠ [] ∧ portTag s 0 = false ∧ LogRoom s) ∧
    (let s := linked 1 { state := 2, kept := false }
     Live s ∧ inService s = true ∧ (portAt s 0).kept = false ∧
     portTrains (regSet (portReg 0 0) (field (0 : W32).toNat 27 5 * 2 ^ 27) s) 0 = false) ∧
    (let s := linked 2 { state := 2 }
     inService s = true ∧ field (0x84000000 : W32).toNat 30 2 = portMode s 0 ∧ bit (0x84000000 : W32).toNat 26 = true ∧ portMode s 0 ≠ 1 ∧
     portUp s 0 = true) := by
  simp only [LogRoom, Live]; repeat' apply And.intro
  all_goals decide +kernel

theorem test_hyps_LinkMessages :
    (∀ b ∈ [none, some 0], let s := linked 1 { state := 2, reqAt := b }
     Live s ∧ portUp s 0 = true ∧ portMode s 0 = 1 ∧ delayDue s 0 = b.isNone) ∧
    (let s := linked 1 { state := 2, nakSent := true }
     Live s ∧ portUp s 0 = true ∧ portMode s 0 = 1 ∧ (portAt s 0).paused = false ∧ (portAt s 0).nakSent = true ∧
     flitIntact { flit0 with crc := flit0.crc + 1 } = false) ∧
    (let s := linked 1 { state := 3 }
     Live s ∧ portUp s 0 = true ∧ portMode s 0 = 1 ∧ (portAt s 0).paused = false ∧ (portAt s 0).nakSent = false ∧ (portAt s 0).txq = [] ∧
     field flit0.lhdr.toNat 52 12 = (portAt s 0).rxSeq) ∧
    (flitIntact flit0 = true ∧ field flit0.lhdr.toNat 37 2 = 0 ∧ bit flit0.lhdr.toNat 39 = false) ∧
    (flitIntact (flit0 true) = true ∧ field (flit0 true).lhdr.toNat 37 2 = 1 ∧ bit (flit0 true).lhdr.toNat 39 = false) := by
  simp only [Live]; repeat' apply And.intro
  all_goals first | with_reducible exact flit0_intact _ | with_reducible exact flit0_spoiled | decide +kernel

/-! ## Packets -/

/-- A packet for this node. -/
def pk (opc arg : Nat) (data : List Byte := []) (operand len : Nat := 0) (src : Nat := 7) : Packet :=
  { opc, arg, data, operand, len, src, dst := 5 }

/-- The packet stands first on port 0; window 0 of `kind` lets node 7 do everything on 64 KiB, or on 64 things; node 7 is reachable. -/
def brought (k : Packet) (kind : Nat := 0) (s : State := up) : State :=
  { s with
    regs := [(0x8, w32 (2 ^ 24)), (0xC00000, 5), (portReg 0 0, w32 (2 ^ 30)), (0xC10000 + 4 * 7, 0x80000000),
             (0xC20000, 64), (0xC20008, 0x07000000), (0xC2000C, w32 (2 ^ 31 + kind * 2 ^ 29 + 7 * 2 ^ 26))]
    fab := { port := [(0, { state := 2, rx := [k] })] } }

theorem test_hyps_ServedReads :
    Arrives (brought (pk 1 0 [] 0 512)) 0 1 (pk 1 0 [] 0 512) ∧ shapeOk 0 512 = true ∧ inMemory 0 512 = true ∧ winOpen (brought (pk 1 0 [] 0 512)) 0 28 7 0 512 = true ∧
    localOk (brought (pk 1 0 [] 0 512)) 0 512 = true ∧
    (Arrives (brought (pk 1 0 [] 0 513)) 0 1 (pk 1 0 [] 0 513) ∧ shapeOk 0 513 = false) ∧
    (Arrives (brought (pk 1 0x400000 [] 0 64)) 0 1 (pk 1 0x400000 [] 0 64) ∧ shapeOk 0x400000 64 = true ∧ inMemory 0x400000 64 = true ∧
     winOpen (brought (pk 1 0x400000 [] 0 64)) 0 28 7 0x400000 64 = false) ∧
    (let k := pk 1 farTop [] 0 64
     Arrives (brought k) 0 1 k ∧ shapeOk farTop 64 = true ∧ inMemory farTop 64 = false ∧ inMemory (farTop - 64) 64 = true) ∧
    (let s := brought (pk 1 0 [] 0 64) 0 { up with mem := { stack := [(0, { state := 5 })] } }
     Arrives s 0 1 (pk 1 0 [] 0 64) ∧ winOpen s 0 28 7 0 64 = true ∧ localOk s 0 64 = false) := by
  simp only [Arrives, Serving, Live]; repeat' apply And.intro
  all_goals decide +kernel

/-- Task 0 on logical array 0 with an open window. -/
def windowed (k : Packet) : State :=
  brought k 2 { held { task := some 0, window := some (0, 64) } with fe := { tasks := [{ tk with startL := 0, ty := 0 }] } }

theorem test_hyps_ServedWrites :
    (let k := pk 2 4032 (List.replicate 64 1)
     Arrives (brought k) 0 2 k ∧ shapeOk 4032 64 = true ∧ inMemory 4032 64 = true ∧ winOpen (brought k) 0 27 7 4032 64 = true ∧ localOk (brought k) 4032 64 = true ∧
     Machine.Memory.wf (brought k).mem.cells = true) ∧
    (∀ k x, retiredAt (brought k) x = false) ∧
    (let k := pk 2 0x400000 [1]
     Arrives (brought k) 0 2 k ∧ shapeOk 0x400000 1 = true ∧ inMemory 0x400000 1 = true ∧ winOpen (brought k) 0 27 7 0x400000 1 = false) ∧
    (let k := pk 3 0 [1, 2]
     Arrives (windowed k) 0 3 k ∧ k.data ≠ [] ∧ k.data.length ≤ 512 ∧ winOpen (windowed k) 2 27 7 0 1 = true ∧
     (windowWrite 0 0 0 k.data (pieceBad k.pmask 0) (takeRx 0 k (windowed k))).isSome = true) ∧
    (∀ o ∈ [4, 5, 6], let k := pk o 8 (if o = 6 then List.replicate 8 1 else []) 3
     Arrives (brought k) 0 o k ∧ k.data.length = (if o = 6 then 8 else 0) ∧ inMemory 8 8 = true ∧
     winOpen (brought k) 0 26 7 8 8 = true ∧ localOk (brought k) 8 8 = true ∧ Machine.Memory.wf (brought k).mem.cells = true) ∧
    (let k := pk 7 1 [] 3
     Arrives (brought k 1) 0 7 k ∧ k.data = [] ∧ winOpen (brought k 1) 1 26 7 1 1 = true ∧ Quiet (brought k 1) 1) ∧
    (let k := pk 9 0
     Serving (brought k) ∧ resetWindow (brought k) = false ∧ latePast (brought k) k.deadline = false ∧ routeValid (brought k) 7 = true ∧
     isUpdate k = false ∧ rxHead (brought k) 0 (fun k => decide (k.opc = 0x09 ∧ k.dst = nodeId (brought k)) && !isUpdate k) = some k ∧
     rxHead (brought k) 0 (fun k => decide (k.opc = 0x09 ∧ k.dst = nodeId (brought k))) = some k) := by
  simp only [Arrives, Serving, Live, Quiet]; repeat' apply And.intro
  all_goals first | exact fun k x => storage _ rfl rfl x | decide +kernel

/-- A request that waits for an answer over port 0. -/
def rq (opc : Nat) (u : ReqUse := .mirror) : Req := { tag := 0, gen := 0, port := 0, dst := 7, ch := 0, opc, len := 64, use := u, seq := 0, ctx := 0 }

/-- The packet has arrived, and requests wait. -/
def awaited (k : Packet) (r : Req) : State := { brought k with fab := { (brought k).fab with reqs := [r] } }

/-- Page 1 of context 0 lies at node 7. -/
def remote : State :=
  let s := mapped (brought (pk 1 0))
  { s with fe := { s.fe with tlb := [⟨.front, 0, 0, 1, 4 * (7 * 2 ^ 52 + 0x2000 + 25)⟩] } }

theorem test_hyps_ResponsesAndForwarding :
    (∀ o ∈ [(0x81, 1), (0x82, 2), (0x85, 5)], Live (awaited (pk o.1 0) (rq o.2)) ∧
      rxHead (awaited (pk o.1 0) (rq o.2)) 0 (fun k => decide (k.opc = o.1 ∧ k.dst = nodeId (awaited (pk o.1 0) (rq o.2)))) = some (pk o.1 0) ∧
      answered (takeRx 0 (pk o.1 0) (awaited (pk o.1 0) (rq o.2))) (pk o.1 0) = some (rq o.2)) ∧
    (answered (takeRx 0 (pk 0x81 0) (awaited (pk 0x81 0) (rq 2))) (pk 0x81 0) = some (rq 2) ∧ (2 : Nat) ∉ [1] ∧
     answered (takeRx 0 (pk 0x81 0) (brought (pk 0x81 0))) (pk 0x81 0) = none) ∧
    (rxHead (brought (pk 0x55 0)) 0 (fun k => !opcKnown k.opc) = some (pk 0x55 0) ∧ LogRoom (brought (pk 0x55 0))) ∧
    (let s := awaited (pk 1 0) (rq 1 (.dropped false 0x3FF))
     s.fab.reqs.find? (fun r => decide (r.tag = 0)) = some (rq 1 (.dropped false 0x3FF))) ∧
    (let k := { pk 1 0 with dst := 7, src := 6 }
     let s := brought k
     rxHead s 0 (fun k => opcKnown k.opc && decide (k.dst ≠ nodeId s)) = some k ∧
     (isRequest k && latePast s k.deadline) = false ∧ routeValid s k.dst = true ∧
     field (routeOf s k.dst) 29 2 = 0 ∧ portMode s 0 = 1 ∧ k.level % 4 ≠ 3) ∧
    (let k := { pk 1 0 with dst := 7, src := 5 }
     let s : State := { up with fab := { heldTx := [(0, k)], reqs := [{ rq 1 with port := 8 }] } }
     s.fab.heldTx = [(0, k)] ∧ ∀ r ∈ s.fab.reqs, onOldPath s k.dst k.ch r = false) ∧
    (let l := [(7 * 2 ^ 52 + 0x2000, 64)]
     xlRange remote .front 0 0x1000 64 .read = none ∧ remoteSpans remote .front 0 0x1000 64 = l ∧ l.all (hasFetch remote 3 0) = false ∧
     (let s := { remote with fab := { remote.fab with fetches := [⟨3, 0, 7 * 2 ^ 52 + 0x2000, 64, 0, .waiting⟩] } }
      xlRange s .front 0 0x1000 64 .read = none ∧ (remoteSpans s .front 0 0x1000 64).all (hasFetch s 3 0) = true ∧ fetchWaits s 3 = true ∧
      (⟨3, 0, 7 * 2 ^ 52 + 0x2000, 64, 0, .waiting⟩ : Fetch) ∈ s.fab.fetches ∧ (rq 1 .ctl).use = .ctl)) := by
  simp only [LogRoom, Live]; repeat' apply And.intro
  all_goals decide +kernel

/-- A frame of peer address 9 to UDP port `dport`, with these packets. -/
def frame (dport : Nat) (packets : List (List Byte)) : EthFrame :=
  { dmac := 0, smac := 0, etype := 0x86DD, tagged := false, tclass := 0, next := 17, hop := 64, ip := 9, dstIp := 0, sport := 0xC000,
    dport, sumOk := true, psn := 2 ^ 24 - 1, ackPsn := 0, ackOnly := false, ceEcho := false, nak := false, packets }

theorem test_hyps_EthernetTransport :
    (let s := linked 2 { state := 2 }
     Live s ∧ portUp s 0 = true ∧ portMode s 0 = 2 ∧ framePtp (frame (udpPort s) [[]]) = false ∧ frameOk s (frame (udpPort s) [[]]) = true ∧
     peerOf s 9 = none ∧ frameOk s (frame (udpPort s) []) = false ∧ frameOk s (frame (udpPort s) (List.replicate (maxPkts s) [])) = true ∧
     frameOk s (frame (udpPort s) (List.replicate (maxPkts s + 1) [])) = false ∧ frameOk s (frame 319 [[]]) = false ∧
     framePtp (frame 318 [[]]) = false ∧ framePtp (frame 321 [[]]) = false) ∧
    (let s := linked 2 { state := 2 }
     let s := { s with regs := s.regs ++ [(0xC30000, 9), (0xC3001C, 0x80000000)], fab := { s.fab with peer := [(0, { expected := 2 ^ 24 - 1 })] } }
     let f := frame (udpPort s) [List.replicate 32 1]
     Live s ∧ portUp s 0 = true ∧ portMode s 0 = 2 ∧ framePtp f = false ∧ frameOk s f = true ∧ peerOf s 9 = some 0 ∧
     (portAt s 0).txq = [] ∧ (peerAt s 0).expected = f.psn ∧ rxRoom s 0 (f.packets.map (fun b => { packetOf b with level := 0 })) = true) ∧
    (let s : State := { up with regs := [(0xC00008, 0x700)], fab := { peer := [(0, { unacked := [⟨0, 0, [], false⟩] })] } }
     Live s ∧ (peerAt s 0).unacked ≠ [] ∧ (peerAt s 0).timeouts + 1 < retryMax s) := by
  simp only [Live]; repeat' apply And.intro
  all_goals decide +kernel

/-! ## Memory -/

theorem test_hyps_MemoryTiers :
    (Live up ∧ regsOn up = true ∧ confMode up = false ∧ stepsHeld up 7 = false ∧ up.mem.ntNext = none ∧ field (7 : W32).toNat 0 3 ≠ up.mem.steps ∧
     bit (0x107 : W32).toNat 8 = true ∧ bit (7 : W32).toNat 8 = false) ∧
    stepsHeld { up with fe := { part := [(0, { scrFirst := 0, scrCount := 9 })] } } 1 = true ∧
    ({ up with mem := { ntNext := some (1, true) } } : State).mem.ntNext ≠ none ∧ confMode { up with fe := { conf := 1 } } = true ∧
    (let s : State := { up with mem := { changing := [6], ntNext := some (7, true) } }
     Live s ∧ s.mem.changing = [6] ∧ s.mem.inval = [] ∧ s.mem.ntNext = some (7, true)) ∧
    (let s : State := { up with mem := { stack := [(0, { state := 2 })], steps := 1 }, regs := [(0xA00010, 0x18000000)] }
     Live s ∧ field (regGet s 0xA00010) 24 8 ≠ 0 ∧ patrolled s 0 = true ∧ patrolled s scratchBase = true ∧ isFar scratchBase = false) ∧
    (let s : State := { up with mem := { moves := [(1, 9)], chan := [(pcOf 4096, { state := 1 })] } }
     Computing s ∧ s.mem.moves.find? (fun m => decide (m.1 = 1)) = some (1, 9) ∧ allocOfGranule s 1 = none ∧
     runsWait s .firmware = false ∧ (chanAt s (pcOf (1 * 4096))).state = 1 ∧ Machine.Memory.wf s.mem.cells = true ∧
     ∀ i < 4096, retiredAt s (9 * 4096 + i) = false) := by
  simp only [Computing, Live]; repeat' apply And.intro
  all_goals first | exact fun i h => granule_storage _ 9 (by decide +kernel) i h | decide +kernel

/-- Pseudo-channel 0 issues the runs dealt to it. -/
def dealing (w : Nat) (n : Nat := 1) (s : State := up) : State :=
  { s with rg := { deal := List.replicate 124 w, slot := [(0, n)],
                   queue := [(w, { runs := [{ owner := .host 0, page := 3, part := false, refresh := w = 13 }] })] }
           mem := { s.mem with stack := [(0, { state := 2 })] } }

theorem test_hyps_MemoryRegulation :
    (let s : State := { up with rg := { gap := true, slot := [(767, 127)] } }
     Live s ∧ inService s = true ∧ tget 0 s.rg.slot 767 < 128 ∧ s.rg.gap = true ∧ (chanAt s 767).state = 0) ∧
    (∀ w ∈ [0, 12], let s := dealing w
     Live s ∧ inService s = true ∧ s.rg.gap = false ∧ tget 0 s.rg.slot 0 % 32 ≠ 0 ∧ s.rg.deal.getD 0 13 = w ∧ issues s 0 = true ∧ (runQAt s 0 w).runs ≠ []) ∧
    (let s : State := { dealing 12 with mem := {} }
     s.rg.deal.getD 0 13 = 12 ∧ (chanAt s 0).state = 0 ∧ issues s 0 = false) ∧
    (∀ n ∈ [0, 96], let s := dealing 13 n
     Live s ∧ inService s = true ∧ s.rg.gap = false ∧ n % 32 = 0 ∧ tget 0 s.rg.slot 0 = n ∧ issues s 0 = true ∧
     (runQAt s 0 13).page = 0 ∧ (runQAt s 0 13).runs.any (fun x => x.refresh) = true) ∧
    (∀ id ∈ [0, 5], let s : State := { dealing 0 with rg := { (dealing 0).rg with held := [(id, .icpl 0 [] false)] } }
     idWaits s id = decide (id = 0)) ∧
    (Live up ∧ regsOn up = true ∧ (((List.range 13).filter (fun k => decide (k ≠ 12))).map (rateSoon up)).foldl (fun a b => a + b) 0 + 124 ≤ 124 ∧
     field (0x007C0000 : W32).toNat 16 7 = 124 ∧ bit (0x007C0000 : W32).toNat 31 = false ∧ bit (0x807C0000 : W32).toNat 31 = true ∧
     confPart up 11 = false) ∧
    (let s : State := { up with rg := { reg := [(12, { rate := 124 })] } }
     124 < (((List.range 13).filter (fun k => decide (k ≠ 0))).map (rateSoon s)).foldl (fun a b => a + b) 0 + 1) ∧
    ∀ r < 13, (regAt up r).rate = 0 := by
  simp only [Live]; repeat' apply And.intro
  all_goals decide +kernel

/-- The test engine of pseudo-channel 0, its control word given. -/
def testing (ctl : W32) (t : Tg := {}) (c : Chan := {}) : State :=
  { up with regs := [(0xA10000, ctl), (0xA1000C, 4)], mem := { tg := [(0, t)], chan := [(0, c)] } }

theorem test_hyps_TrafficGenerators :
    (∀ c ∈ [0, 1], let s := testing 0xC0 {} { state := c }
     Live s ∧ regsOn s = true ∧ tgPattern s 0 < 6 ∧ (chanAt s 0).state = c ∧ stackGone s 0 = false ∧ tgOp s 0 = 3 ∧ (tgAt s 0).state ≠ 1) ∧
    (6 ≤ tgPattern (testing 0x600) 0) ∧
    (tgPattern (testing 0x40) 0 < 6 ∧ (chanAt (testing 0x40) 0).state = 0 ∧ tgOp (testing 0x40) 0 ≠ 3) ∧
    (tgOp (testing 0x40) 0 = 1 ∧ tgOp (testing 0) 0 = 0 ∧ tgOp (testing 0x80) 0 = 2 ∧ tgOp (testing 0xC0) 0 = 3 ∧ Machine.Memory.wf (testing 0).mem.cells = true) ∧
    (∀ n ∈ [0, 256], let s := testing 0x40 { state := 1, pos := n } { state := 1 }
     Live s ∧ regsOn s = true ∧ (tgAt s 0).state = 1 ∧ (tgAt s 0).pos ≤ tgLen s 0) := by
  simp only [Live]; repeat' apply And.intro
  all_goals decide +kernel

/-! ## Lookup engines -/

/-- Engine 0 is idle; a task of type `ty` is at the head of its queue. -/
def looking (ty : Nat) (s : State := up) : State :=
  { s with lce := { unit := [(0, { state := 1, queue := [.task 0] })] }, fe := { tasks := [{ tk with ty, place := .lceQueue 0 }] } }

/-- A batch that waits for run 5. -/
def batch0 : Batch :=
  { kind := .task 0, ctx := 0, domain := 0, desc := [], pool := 0, dim := 1, window := 1, rest := []
    rows := [{ table := 0, loc := 0, addr := 1280, width := 4, fmt := 0, dim := 1, hrc := false, hit := none, wait := [5, 6], bad := false, uses := [] }] }

theorem test_hyps_LookupEngines :
    (∀ ty ∈ [0x10, 0x11, 0x12], Computing (looking ty) ∧ lceRoom (looking ty) 0 = true ∧ lceAwake (looking ty) 0 = true ∧
      (lceAt (looking ty) 0).queue = [.task 0] ∧ (taskOf (looking ty) 0).isSome = true) ∧
    (let w : EpochWait := { lce := 0, seq := 0, domain := 3, epoch := 9, reload := false }
     let s : State := { up with lce := { fences := [w] } }
     Computing s ∧ s.lce.fences.find? (fun w => decide (w.lce = 0) && !fenceBlocked s w) = some w) ∧
    (let s : State := { up with lce := { unit := [(0, { state := 1, active := [batch0] })] } }
     Computing s ∧ s.rg.queue.any (fun q => q.2.runs.any (fun r => decide (r.owner = .lce 0 ∧ r.page = 5 * 256 / 2048))) = false ∧
     (lceAt s 0).active.find? (fun x => x.rows.any (fun r => r.wait.contains 5)) = some batch0 ∧ (∀ r ∈ batch0.rows, sremove 5 r.wait ≠ []) ∧ batch0.fail = none) ∧
    (batch0.pool ≠ 4 ∧ batch0.pool = 0 ∧ tget 0 batch0.count 0 = 0) ∧ ({ batch0 with pool := 3 } : Batch).pool = 3 := by
  simp only [Computing, Live]; repeat' apply And.intro
  all_goals decide +kernel

/-- Sub-batch 0, to node 7. -/
def sub0 : SubOut := { tag := 0, node := 7, lce := 0, seq := 0, bags := [0] }

theorem test_hyps_RemoteLookups :
    (let k := pk 8 0 [] 2
     Arrives (brought k) 0 8 k ∧ routeValid (brought k) 7 = true ∧
     (subInOf (addPart k (takeRx 0 k (brought k))) 7 0).any (fun i => decide (i.parts.length < i.total)) = true) ∧
    (let k := pk 8 0 [] 2 0 8
     Arrives (brought k) 0 8 k ∧ routeValid (brought k) 8 = false) ∧
    (let k := pk 0x88 0
     rxHead (brought k) 0 (fun k => decide (k.opc = 0x88 ∧ k.dst = nodeId (brought k))) = some k ∧ answered (takeRx 0 k (brought k)) k = none) ∧
    (let k := pk 0x88 0 [] 2
     let s := { awaited k (rq 8) with lce := { subs := [sub0] } }
     let c : SubOut := { sub0 with flags := sub0.flags ||| field k.operand 16 2, parts := tset [] sub0.parts (field k.arg 32 16) (BitVec.ofNat 8 k.pmask :: k.data) }
     rxHead s 0 (fun k => decide (k.opc = 0x88 ∧ k.dst = nodeId s)) = some k ∧ (answered (takeRx 0 k s) k).isSome = true ∧
     (subOf (takeRx 0 k s) k.tag).isSome = true ∧ subOf s 0 = some sub0 ∧ k.lost = false ∧ k.status = 0 ∧
     c.parts.length < field k.operand 0 16) ∧
    (let k := pk 9 0x20001
     Arrives (brought k) 0 9 k ∧ rxHead (brought k) 0 (fun k => decide (k.opc = 0x09 ∧ k.dst = nodeId (brought k)) && bit k.arg 0) = some k ∧
     routeValid (brought k) 7 = true ∧ field k.arg 8 8 + 1 < field k.arg 16 8 ∧ (brought k).lce.updIn = []) ∧
    (∀ n ∈ [1023, 1024], let s : State := { up with regs := [(0x801000, 1)], pm := { beat := n } }
     Live s ∧ field (hrcReg s 0) 0 16 = 1 ∧ (beat s + 2 ^ 64 - (hrcAt s 0).decayed) % 2 ^ 64 = n) ∧ field (hrcReg { up with regs := [(0x801000, 0)] } 0) 0 16 = 0 ∧
    (let s : State := { up with regs := [(0x801000, 0x01000001)] }
     Live s ∧ regsOn s = true ∧ field (hrcReg s 0) 0 16 ≠ 0 ∧ field (hrcReg s 0) 24 8 ≠ field ((0 : W32).toNat &&& 0xFFF0FFFF) 24 8 ∧
     field (hrcReg s 0) 24 8 = field ((0x01000005 : W32).toNat &&& 0xFFF0FFFF) 24 8) ∧
    (hrcAt { up with lce := { hrc := [(11, { emptying := true })] } } 11).emptying = true := by
  simp only [Arrives, Serving, Live]; repeat' apply And.intro
  all_goals decide +kernel

/-! ## Serving steps -/

/-- Bytes of a little-endian word list: (bytes, value). -/
def bytes (l : List (Nat × Nat)) : List Byte := (l.map (fun e => leBytes e.1 e.2)).flatten

/-- A group descriptor of one member: its stages 1 beat apart and 50 beats long from beat 100, its member list behind it. -/
def sgDesc : List Byte :=
  bytes [(2, 7), (1, 0), (1, 0), (2, 1), (2, 50), (8, 100), (4, 1), (1, 0), (1, 0), (2, 0), (4, 0), (8, 0), (8, 0), (8, 0x1040), (4, 0), (8, 0)]

/-- Group 0 of context 0 is live; the task of type `ty` stands at `p`. -/
def stepping (ty : Nat) (p : Place) (now : Nat) (broken : Bool := false) (s : State := mapped) : State :=
  { s with
    sg := { s.sg with group := [(0, { live := true, desc := sgDesc, broken })] }
    pm := { s.pm with beat := now }
    fe := { s.fe with tasks := [{ tk with ty, place := p, record := bytes [(8, 0), (8, 0x1000)], group := if ty = 0x19 then some 0 else none }] } }

/-- The descriptor of a gate, or of a copy, at the page the context maps. -/
def told (d : List Byte) (s : State) : State :=
  { s with mem := { s.mem with cells := (d.zipIdx.map (fun b => (0x2000 + b.2, b.1))).filter (fun c => c.2 != 0) } }

/-- A copy of 64 bytes to no member. -/
def kvDesc : List Byte := bytes [(8, 0), (8, 0), (4, 64), (2, 0), (2, 0), (4, 0), (1, 0), (1, 0xFF), (2, 0), (8, 0), (8, 0)]

theorem test_hyps_GatesAndCopies :
    (let d : List Byte := bytes [(8, 0), (8, 0), (8, 0), (8, 0)]
     let s := told d (stepping 0x18 .ready 10)
     Computing s ∧ (taskOf s 0).any (fun t => t.ty == 0x18 && t.place == .ready && groupOfTask s t (byteAt d 8) && fieldAt t.record 8 8 == 0x1000) = true ∧
     Reads s 0 .front 0 0x1000 32 ⟨[], false⟩ d ∧ gateOk d = true ∧ byteAt (groupAt s 0).desc 3 = 0 ∧ gateGranted s 0 d = true ∧
     (groupAt s 0).broken = false ∧ beatPast s (stageEnd (groupAt s 0).desc 0) = false) ∧
    (let s := { remote with fe := { remote.fe with tasks := [{ tk with ty := 0x18, place := .ready, record := bytes [(8, 0), (8, 0x1000)] }] } }
     Computing s ∧ (taskOf s 0).any (fun t => t.ty == 0x18 && t.place == .ready && fieldAt t.record 8 8 == 0x1000) = true ∧
     xlRange s .front 0 0x1000 32 .read = none ∧ (remoteSpans s .front 0 0x1000 32).filter (fun p => !hasFetch s 0 0 p) ≠ []) ∧
    (let g : Gate := ⟨0, List.replicate 32 0⟩
     let s := stepping 0x18 .gate 200
     let s := { s with sg := { s.sg with gates := [g] } }
     Computing s ∧ s.sg.gates.find? (fun g => decide (g.seq = 0)) = some g ∧
     beatPast s (stageEnd (groupAt s (byteAt g.desc 8)).desc (fieldAt g.desc 0 8)) = true ∧ (groupAt s (byteAt g.desc 8)).live = true) ∧
    (let s := told kvDesc (stepping 0x19 (.mover 2) 10)
     Computing s ∧ (taskOf s 0).any (fun t => t.place == .mover 2) = true ∧ kvOf s 0 = none ∧ Reads s 0 (.mover 2) 0 0x1000 48 ⟨[], false⟩ kvDesc ∧
     kvDescOk kvDesc = true ∧ byteAt kvDesc 29 = 0xFF) ∧
    (∀ g ∈ [none, some 0], let s := stepping 0x19 (.mover 2) 200 true
     let s := { s with sg := { s.sg with kv := [{ seq := 0, mover := 2, desc := kvDesc }] }, fe := { s.fe with tasks := s.fe.tasks.map (fun t => { t with group := g }) } }
     Computing s ∧ (kvOf s 0).any (fun k => !k.started && decide (k.mover = 2)) = true ∧ (taskOf s 0).any (fun t => t.group == g) = true ∧
     s.sg.kv.any (fun j => j.started && decide (j.mover = 2)) = false ∧ tget 0 s.pm.sector 2 = 0 ∧ (groupAt s 0).live = true ∧
     beatPast s (stageOpen (groupAt s 0).desc (fieldAt kvDesc 32 8)) = true ∧ (groupAt s 0).broken = true) := by
  simp only [Computing, Live, Reads, ok_iff]; repeat' apply And.intro
  all_goals decide +kernel

/-- Mailbox `b` holds the command `code` with the words `ws`, taken by its processor. -/
def asked (b code : Nat) (ws : List Nat := []) (s : State := mapped) : State :=
  { s with mbx := { box := [(b, { state := .taken, taken := (code :: ws).map w32 })], proc := (List.range 5).map (fun i => (i, { pstate := 1 })) } }

/-- A member list of one: this node, 5. -/
def sgMembers : List Byte := bytes [(2, 5), (2, 0), (4, 0), (8, 0)]

/-- Node 5, group 0 of context 0 live. -/
def grouped (s : State) : State :=
  { s with regs := [(0xC00000, 5)], sg := { s.sg with group := [(0, { live := true, desc := sgDesc })] } }

/-- No bytes come from the host. -/
def noHost : HostData := ⟨[], false⟩

/-- The state after a group descriptor and its member list have been read. -/
def heard (s : State) : State :=
  touchCtl .front 0 (fieldAt sgDesc 44 8) (16 * (byteAt sgDesc 2 + 1)) (hostRest noHost (hostUsed s .front 0 (boxPair s 0 2) 64))
    (touchCtl .front 0 (boxPair s 0 2) 64 noHost s)

theorem test_hyps_SequenceGroups :
    (let s : State := { told (sgDesc ++ sgMembers) (asked 0 0x250 [0, 0x1000]) with regs := [(0xC00000, 5)] }
     Taken s 0 0x250 ∧ boxCtx s 0 1 = .ok 0 ∧ ReadsGroup s 0 0 noHost sgDesc sgMembers (heard s) ∧
     groupNamed (heard s) 0 (fieldAt sgDesc 0 2) = none ∧ (groupsOf (heard s) 0).length < 16 ∧
     (chooseFree (fun g => !(groupAt (heard s) g).live) 64 (heard s)).isSome = true) ∧
    (let s := grouped (told (sgDesc ++ sgMembers) (asked 0 0x251 [0, 0x1000]))
     Taken s 0 0x251 ∧ boxCtx s 0 1 = .ok 0 ∧ ReadsGroup s 0 0 noHost sgDesc sgMembers (heard s) ∧
     groupNamed (heard s) 0 (fieldAt sgDesc 0 2) = some 0 ∧ kvOutstanding (heard s) 0 = false) ∧
    (let s := grouped (asked 0 0x252 [0, 0])
     Taken s 0 0x252 ∧ boxCtx s 0 1 = .ok 0 ∧ boxWord s 0 2 = 0 ∧ (groupAt s 0).live = true ∧ (groupAt s 0).ctx = 0 ∧ s.sg.gates = []) ∧
    (∀ g ∈ [63, 64], let s := asked 0 0x252 [0, g]
     Taken s 0 0x252 ∧ boxCtx s 0 1 = .ok 0 ∧ boxWord s 0 2 = g ∧ (groupAt s g).live = false) ∧
    (let d : List Byte := bytes [(8, 0x1040), (8, 0), (8, 0), (8, 0)]
     let r : List Byte := bytes [(4, 2), (4, 3), (8, 0)]
     let s := told (d ++ List.replicate 32 0 ++ r) (stepping 0x1A .ready 10)
     Computing s ∧ (taskOf s 0).any (fun t => t.ty == 0x1A && t.place == .ready && t.wrap.isNone && !editBefore s t && fieldAt t.record 8 8 == 0x1000) = true ∧
     Reads s 0 .front 0 0x1000 32 noHost d ∧ editOk d = true ∧
     (ledGroup 0 (touchCtl .front 0 0x1000 32 noHost s)).any (fun g =>
       okIs (readCtl g.2 .front 0 (fieldAt d 0 8) (16 * (byteAt d 8 + 1)) (hostRest noHost (hostUsed s .front 0 0x1000 32))) (r, false) &&
       !fetchWaits g.2 0 && (remoteSpans g.2 .front 0 (fieldAt d 0 8) (16 * (byteAt d 8 + 1))).all (hasFetch g.2 0 0)) = true ∧ ∀ b, (chunks 16 (byteAt d 8 + 1) r).all (batchRecOk b) = true) ∧
    (let x : Group := { desc := sgDesc, batch := [(0, { seqId := 3, state := 1 })] }
     let r : List Byte := bytes [(4, 1), (4, 3), (8, 0)]
     byteAt r 0 = 1 ∧ entryOfSeq x (fieldAt r 4 4) = some 0 ∧ (tget {} x.batch 0).state = 1 ∧ byteAt (bytes [(4, 2), (4, 3), (8, 0)]) 0 = 2 ∧
     entryOfSeq { x with batch := [] } 3 = none ∧ (List.range (maxSeq x.desc)).find? (fun i => (tget {} ({ x with batch := [] } : Group).batch i).state == 0) = some 0) := by
  simp only [Taken, Serving, Computing, Live, Reads, ReadsGroup, ok_iff]; repeat' apply And.intro
  all_goals first | rfl | decide +kernel

/-! ## Queues -/

/-- Queue 0 of VAI 0 and context 0 is `x`, in slot 0. -/
def queued (x : Queue) (s : State := mapped) : State :=
  { s with fe := { s.fe with q := [(0, x)], slot := [(0, { valid := true, queue := 0, part := 0 })], vai := [(0, { state := 1, part := 0, queues := 2, fences := 1 })] } }

theorem test_hyps_QueuesAndDoorbells :
    (∀ q ∈ ([.ready, .stopped] : List QState), Bell (queued { state := q, sqLog := 6, cqLog := 6 }) 0 0 0) ∧
    (let s := queued { state := .ready, sqLog := 6, cqLog := 6, sqTail := 2 ^ 32 - 1, sqHead := 2 ^ 32 - 1, cqTail := 2, cqHead := 1 }
     Bell s 0 0 0 ∧ ((0 : W32).toNat + 2 ^ 32 - (queueAt s 0).sqTail) % 2 ^ 32 < 2 ^ 31 ∧ (0 : W32).toNat ≠ (queueAt s 0).sqTail ∧
     ((63 : W32).toNat + 2 ^ 32 - (queueAt s 0).sqHead) % 2 ^ 32 = 2 ^ (queueAt s 0).sqLog ∧
     2 ^ (queueAt s 0).sqLog < ((64 : W32).toNat + 2 ^ 32 - (queueAt s 0).sqHead) % 2 ^ 32 ∧ LogRoom s ∧ (queueAt s 0).cqFull = false ∧
     ((2 : W32).toNat + 2 ^ 32 - (queueAt s 0).cqHead) % 2 ^ 32 ≤ ((queueAt s 0).cqTail + 2 ^ 32 - (queueAt s 0).cqHead) % 2 ^ 32 ∧
     (queueAt s 0).cqTail ≠ (queueAt s 0).cqHead) ∧
    (let s := queued { state := .ready, cqTail := 2, cqHead := 2 }
     Bell s 0 0 0 ∧ (queueAt s 0).cqTail = (queueAt s 0).cqHead ∧ queueOfPage s 255 63 = none ∧ resetWindow s = false) ∧
    (let d : List Byte := bytes [(8, 0x1000), (8, 0x1000), (1, 6), (1, 6), (1, 1), (1, 0), (2, 0), (1, 63), (41, 0)]
     let s := queued {} (told d (asked 0 0x200 [0, 0x1000]))
     Taken s 0 0x200 ∧ boxCtx s 0 1 = .ok 0 ∧ boxPair s 0 2 = 0x1000 ∧ Reads s (boxKey 0) .front 0 0x1000 64 noHost d ∧ queueOk 0 d = true ∧
     let s := touchCtl .front 0 (boxPair s 0 2) 64 noHost s
     ringOk s 0 (fieldAt d 0 8) (64 * 2 ^ byteAt d 16) .read = true ∧ ringOk s 0 (fieldAt d 8 8) (32 * 2 ^ byteAt d 17) .write = true ∧
     queueOfPage s 0 (byteAt d 22) = none ∧ (queuesOf s 0).length < (vaiAt s 0).queues ∧
     (chooseFree (fun q => (queueAt s q).state == .unused) 768 s).isSome = true) ∧
    (∀ q ∈ ([.ready, .stopped] : List QState), let s := queued { state := q } (asked 0 0x201 [0])
     Taken s 0 0x201 ∧ boxWord s 0 1 = 0 ∧ (queueAt s 0).vai = 0 ∧ (queueAt s 0).state = q) ∧
    (∀ q ∈ ([.ready, .stopped] : List QState), let s := queued { state := q } (asked 0 0x202 [0, 0])
     Taken s 0 0x202 ∧ boxWord s 0 1 = 0 ∧ (queueAt s 0).vai = 0 ∧ (queueAt s 0).state = q ∧ (queueAt s 0).held = none ∧ bit (boxWord s 0 2) 0 = false) := by
  simp only [Taken, Serving, Bell, LogRoom, Live, Reads, ok_iff, List.mem_cons, List.not_mem_nil, or_false, forall_eq_or_imp, forall_eq]; repeat' apply And.intro
  all_goals decide +kernel

/-- Queue 0 accepts; its head slot holds `l`. -/
def heading (l : List Byte) : State := told l (queued { state := .ready, sqVa := 0x1000, sqLog := 6, cqLog := 6, sqTail := 1 })

theorem test_hyps_CommandAcceptance :
    (∀ e ∈ [(0, 0), (1, 0x80), (2, 0), (3, 0), (4, 0), (5, 0)], let l : List Byte := bytes [(1, e.1), (1, e.2), (62, 0)]
     Heads (heading l) 0 noHost l ∧ byteAt l 0 = e.1 ∧ cmdOk l = true ∧ ReadsRecords (heading l) 0 l) ∧
    (∀ c ∈ [0, 6, 255], let l : List Byte := bytes [(3, c), (1, 1), (60, 0)]
     Heads (heading l) 0 noHost l ∧ byteAt l 0 = c ∧ cmdOk l = false) ∧
    (let s := heading (bytes [(1, 2), (63, 0)])
     let s := { s with fe := { s.fe with graphs := [(0, { live := true })], fences := [(0, { live := true })] } }
     dispatchFull s 0 = false ∧ (launchesOf s 0).length < 16 ∧ graphOf s 0 = some 0 ∧ (graphAt s 0).ctx = (queueAt s 0).ctx ∧
     fenceOf s 0 = some 0 ∧ (fenceAt s 0).vai = (queueAt s 0).vai) := by
  simp only [Heads, ReadsRecords, Live, Reads, ok_iff]; repeat' apply And.intro
  all_goals decide +kernel

/-- A command of code `c`. -/
def cm (c : Nat) (id : Nat := 0) (flags : Nat := 0) : CmdEnt := { id, code := c, pos := some 0, flags, tag := 0, gen := 0, start := 0 }

/-- An entry that is due. -/
def ce : Cqe := { cmd := 0, status := .done, flags := 0, gen := 0, code := 0, tag := 0, start := 0, fin := 0, cycles := 0, pos := 0, ring := 0 }

theorem test_hyps_CompletionEntries :
    (let s := queued { state := .ready, cmds := [cm 5] }
     Computing s ∧ (queueAt s 0).cmds = [cm 5] ∧ (cm 5).own = none ∧ signalReady s 0 (cm 5) = true ∧ (queueAt s 0).state ≠ .resetting) ∧
    (∀ t ∈ [63, 64], let s := queued { state := .ready, cqVa := 0x1000, cqLog := 6, cqTail := t, due := [ce] }
     Computing s ∧ (queueAt s 0).cqFull = false ∧ (queueAt s 0).due = [ce] ∧ entryClear s 0 ce = true ∧ (queueAt s 0).armed = false ∧
     (((queueAt s 0).cqTail + 2 ^ 32 - (queueAt s 0).cqHead) % 2 ^ 32 < 2 ^ (queueAt s 0).cqLog ↔ t = 63) ∧
     xlRange s .front 0 ((queueAt s 0).cqVa + 32 * ((queueAt s 0).cqTail % 2 ^ (queueAt s 0).cqLog)) 32 .write = none) := by
  simp only [Computing, Live]; repeat' apply And.intro
  all_goals decide +kernel

/-! ## Scheduling -/

/-- Queue 0 wants a slot, its steward runs. -/
def wanting (s : State := up) : State :=
  { s with fe := { s.fe with q := [(0, { state := .ready, sqTail := 1, published := [(1, 0)] })] }, mbx := { proc := [(0, { pstate := 1 })] } }

/-- Launch 0 of the LAUNCH command 0. -/
def ln : Launch := { id := 0, queue := 0, cmd := 0, graph := 0, buf := false }

theorem test_hyps_SlotsAndDispatch :
    (∀ i ∈ [0, 31], Computing wanting ∧ nextWaiter wanting (queuePart wanting 0) = some 0 ∧ slotBusy wanting i = false ∧
      stewardUp wanting (queueAt wanting 0).vai = true ∧ reservedFor wanting 32 (queuePart wanting 0) i = true) ∧
    (let s := wanting { up with fe := { parts := 3, slot := (List.range 10).map (fun i => (i, { valid := true, queue := 5, part := 0 })) } }
     Computing s ∧ nextWaiter s (queuePart s 0) = some 0 ∧ slotBusy s 30 = false ∧ floats s 32 30 = true ∧
     roundRobin s (slotQualifies s) s.fe.rrSlot = some (queuePart s 0)) ∧
    (let s := queued { state := .ready } wanting
     Computing s ∧ stewardUp s (queueAt s 0).vai = true ∧ (s.fe.slot.find? (fun e => decide (e.2.valid = true ∧ e.2.queue = 0))).isSome = true ∧
     wantsSlot s 0 = false) ∧
    (let s : State := { up with fe := { launches := [ln], q := [(0, { state := .ready, cmds := [cm 2] })] } }
     Computing s ∧ launchOf s 0 = some ln ∧ launchWaits s ln = true ∧ walkerFits s (launchPart s ln) 15 = true ∧
     dispatchFull s (launchPart s ln) = false ∧ reservedFor s 16 (launchPart s ln) 15 = true ∧ floats s 16 15 = false) ∧
    (let t : Task := { tk with ty := 0x80, record := bytes [(1, 1), (1, 0x80), (62, 0)], place := .front }
     let s : State := { up with fe := { tasks := [t] } }
     Computing s ∧ taskOf s 0 = some t ∧ orderedWaits s t = false ∧ mayRun s t.queue = true ∧ recordOk t.record = true) ∧
    (pickSeq up (partOfCtx up 0) = some 0 ∧ pickMover up (partOfCtx up 0) = some 0) ∧
    (let s : State := { up with lce := { unit := [(3, { state := 1 })] } }
     pickLce s (partOfCtx s 0) = some 3 ∧ (lceAt s 3).queue.length < 64) ∧
    (let t : Task := { tk with place := .lsq 5 }
     let s : State := { up with fe := { tasks := [t] }, arr := { lmap := [(0, 1)], phys := [(0, { role := 2, logical := 0 })] } }
     Computing s ∧ 0 ∈ arraysOf s 0 ∧ physOf s 0 = some 0 ∧ (arrAt s 0).queue = [] ∧ fillable s 0 = [] ∧
     minBy (fun j => 2 ^ 20 - (stealable s j).length) ((lsqsOf s (partOfArray s (18 * 0))).filter (fun j =>
       decide (j ≠ 0) && !(stealable s j).isEmpty)) = some 5 ∧ minBy (fun t => taskRank s t * 2 ^ 64 + t.ready) (stealable s 5) = some t) := by
  simp only [Computing, Live]; repeat' apply And.intro
  all_goals decide +kernel

theorem test_hyps_TurnsAndLimits :
    (let s : State := { up with fe := { part := [(0, { countM1 := 1 })] }, regs := [(0x101204, 0xA0000)], pm := { beat := 20 } }
     Computing s ∧ 0 < s.fe.parts ∧ turnHolding s 0 (roundOffset s) ≠ (partAt s 0).turn ∧
     field (9 : W32).toNat 0 12 < turnStart s 0 1 ∧ (∀ k < 2, turnStart s 0 k ≤ field (10 : W32).toNat 0 12) ∧ (∀ p < 12, pendingTurns s p = [])) ∧
    (Live up ∧ regsOn up = true ∧ beat up % roundBeats up = 0 ∧ up.pm.done.contains 0 = false ∧
     ({ up with pm := { done := [0] } } : State).pm.done.contains 0 = true ∧ bit (0x80000000 : W32).toNat 31 = true) ∧
    (let s : State := { up with regs := [(0x101200, 3)] }
     ownsTurn s 0 (field (8 : W32).toNat 0 16) = true ∧ ownsTurn s 11 (field (0x8000 : W32).toNat 0 16) = false) ∧
    (∀ n ∈ [975, 976], let s : State := { up with fe := { tasks := [{ tk with ran := n }] }, regs := [(0x100008, 1)] }
     Computing s ∧ taskOf s 0 = some { tk with ran := n } ∧ timed s { tk with ran := n } = true ∧
     expired s { tk with ran := n } = decide (n = 976)) ∧
    (let s : State := { up with regs := [(0x10000C, 0x40001)], pm := { beat := 1000000 }, fe := { q := [(0, { state := .ready, held := some (cm 4), cmds := [cm 5] })] } }
     Serving s ∧ field (regGet s 0x10000C) 16 16 = 4 ∧ beat s % 4 = 0 ∧ s.pm.done.contains 1 = false ∧
     newestWait s (cycleQueues (waitGraph s [])) = some 0 ∧ 0 ∈ cycleQueues (waitGraph s []) ∧ (queueAt s 0).held = some (cm 4) ∧ LogRoom s) ∧
    (field (regGet { up with regs := [(0x10000C, 1)] } 0x10000C) 16 16 = 0 ∧ newestWait up (cycleQueues (waitGraph up [])) = none) := by
  simp only [Computing, Serving, LogRoom, Live]; repeat' apply And.intro
  all_goals decide +kernel

/-! ## Objects -/

/-- An image of one node without edges. -/
def image0 : List Byte := bytes [(2, 1), (10, 0), (4, 192), (12, 64 + 2 ^ 32 * 64 + 2 ^ 64 * 64), (36, 0), (1, 1), (1, 0x80), (62, 0), (64, 0)]

theorem test_hyps_SynchronizationObjects :
    (let s := told image0 (queued {} (asked 0 0x210 [0, 0x1000]))
     Taken s 0 0x210 ∧ boxCtx s 0 1 = .ok 0 ∧ boxPair s 0 2 = 0x1000 ∧ Reads s (boxKey 0) .front 0 0x1000 64 noHost (image0.take 64) ∧
     imageHead (image0.take 64) = true ∧ Reads s (boxKey 0) .front 0 0x1000 (fieldAt (image0.take 64) 12 4) noHost image0 ∧
     (imageOf image0).any (fun x => (storeGraph 0 x 192 (touchCtl .front 0 0x1000 192 noHost s)).isSome) = true) ∧
    (let s := asked 0 0x211 [0] { mapped with fe := { mapped.fe with graphs := [(0, { live := true, created := true })] } }
     Taken s 0 0x211 ∧ graphOf s (boxWord s 0 1) = some 0 ∧ (ctxAt s (graphAt s 0).ctx).vai = 0 ∧ (graphAt s 0).created = true) ∧
    (∀ m ∈ [0, 16], let s := queued {} (asked 0 0x220 [0, 0, 0, m])
     Taken s 0 0x220 ∧ boxCtx s 0 1 = .ok 0 ∧ boxPair s 0 4 = m ∧ sealCovers s 0 m = false ∧ (fencesOf s 0).length < (vaiAt s 0).fences ∧
     (chooseFree (fun f => !(fenceAt s f).live) 65536 s).isSome = true) ∧
    (∀ code ∈ [0x221, 0x222, 0x223], let s := asked 0 code [0] { mapped with fe := { mapped.fe with fences := [(0, { live := true, created := true })] } }
     Taken s 0 code ∧ fenceOf s (boxWord s 0 1) = some 0 ∧ (fenceAt s 0).vai = 0 ∧ (fenceAt s 0).created = true) ∧
    (above 1 (fenceAt up 0).value = true ∧ above 0 (fenceAt up 0).value = false ∧ (fenceAt up 0).err = 0 ∧
     (fenceAt { up with fe := { fences := [(0, { err := 0x10 })] } } 0).err ≠ 0) ∧
    (∀ n ∈ [6, 20], let s := asked 0 0x234 [3, 0, 65536, 0, 4096 * 65536 + n] { mapped with fe := { mapped.fe with hq := [(3, { granted := true })] } }
     Taken s 0 0x234 ∧ boxCtx s 0 2 = .ok 0 ∧ boxPair s 0 3 % 65536 = 0 ∧ field (boxWord s 0 5) 0 5 = n ∧ field (boxWord s 0 5) 16 13 = 4096 ∧
     boxWord s 0 1 = 3 ∧ (hqAt s 3).granted = true ∧ (hqAt s 3).vai = 0 ∧ (hqAt s 3).bound = false ∧ bit (boxWord s 0 6) 31 = false) ∧
    (let s := asked 0 0x235 [3] { mapped with fe := { mapped.fe with hq := [(3, { granted := true, bound := true })] } }
     Taken s 0 0x235 ∧ boxWord s 0 1 = 3 ∧ (hqAt s 3).granted = true ∧ (hqAt s 3).vai = 0 ∧ (hqAt s 3).bound = true ∧ handlesOut s 3 = false ∧
     (hqAt s 3).tw = none) ∧
    (∀ code ∈ [0x230, 0x231], let s := asked 0 code [63, 7] tallied
     Taken s 0 code ∧ twGranted s 0 (boxWord s 0 1) = true ∧ twGranted (asked 0 code [64]) 0 (boxWord (asked 0 code [64]) 0 1) = false) ∧
    (let s := asked 0 0x232 [31, 0, 1] { mapped with tw := { bar := [(31, { granted := true })] } }
     Taken s 0 0x232 ∧ boxCtx s 0 2 = .ok 0 ∧ boxWord s 0 1 = 31 ∧ (barAt s 31).granted = true ∧ (barAt s 31).vai = 0 ∧ (barAt s 31).waiters = [] ∧
     (barAt s 31).state = 0) ∧
    (∀ w ∈ [[], [4]], let s := asked 0 0x233 [31] { mapped with tw := { bar := [(31, { granted := true, state := 1, waiters := w })] } }
     Taken s 0 0x233 ∧ boxWord s 0 1 = 31 ∧ (barAt s 31).granted = true ∧ (barAt s 31).vai = 0 ∧ (barAt s 31).waiters = w ∧ (barAt s 31).state ≠ 0) := by
  simp only [Taken, Serving, Live, Reads, ok_iff]; repeat' apply And.intro
  all_goals decide +kernel

/-- VAI 0 may have a context. -/
def roomy : State :=
  { mapped with fe := { mapped.fe with ctx := [], vai := [(0, { state := 1, part := 0, contexts := 1 })] }, arr := { lmap := [(0, 1)] } }

theorem test_hyps_ContextsLiveAndDie :
    (let s := asked 256 0x110 [0xFFFF0000, 0x1000, 0, 0, 0, 256] roomy
     Taken s 256 0x110 ∧ field (boxWord s 256 1) 0 8 = 0 ∧ field (boxWord s 256 1) 16 16 = 0xFFFF ∧ boxPair s 256 2 = 0x1000 ∧ boxPair s 256 4 = 0 ∧
     boxWord s 256 6 = 256 ∧ heapFits 0 256 = true ∧ (vaiAt s 0).state ≠ 0 ∧ isFar 0x1000 = true ∧ grantedAll s 0 0x1000 4096 = true ∧
     scrubbing s (vaiAt s 0).part = false ∧ (ctxsOf s 0).length < (vaiAt s 0).contexts ∧
     (placeAt true 0 (saveBytes s (vaiAt s 0).part) 65536 ((0x1000, 4096) :: placedRanges s true) s).any (fun r =>
       (chooseFree (fun c => (ctxAt r.2 c).state == 0) 512 r.2).isSome) = true) ∧
    (∀ c ∈ [1, 2, 3], ∀ b ∈ [0, 256], let s := asked b 0x111 [0] { mapped with fe := { mapped.fe with ctx := [(0, { state := c })] } }
     Taken s b 0x111 ∧ ctxNamed s (boxWord s b 1) = some 0 ∧ (ctxAt s 0).state = c ∧ (ctxAt s 0).vai = 0) ∧
    (ctxAt { up with fe := { ctx := [(511, { state := 3, settling := true })] } } 511).settling = true ∧
    (∀ d ∈ [(true, 5), (false, 5)], let s : State := { up with fe := { dying := [d] } }
     Computing s ∧ s.fe.dying = [d]) ∧
    (let s : State := { up with fe := { allocs := [(2, { live := true, base := 0x10000, size := 0x10000, zeroing := true })] } }
     Live s ∧ (allocAt s 2).zeroing = true ∧ loadsLeft s (loadsFrom (allocAt s 2)) = false) := by
  simp only [Taken, Serving, Computing, Live, ok_iff]; repeat' apply And.intro
  all_goals decide +kernel

/-- When only `d` is allowed, the free value does not matter. -/
theorem choose_only (legal : Nat → Bool) (d : Nat) (s : State) (h : ∀ k, legal k = true → k = d) :
    choose legal d s = (d, { s with freeCtr := s.freeCtr + 1 }) := by
  by_cases e : legal (Config.freeNat s.freeCtr) = true
  · simp [choose, fresh, h _ e]
  · simp [choose, fresh, e]

/-- Allocation 1 of 1 GiB lies at chunk 1; the heap of context 0 holds 1 GiB, its root names a table. -/
def sharing : State :=
  { asked 0 0x243 [256, 0] with
    fe := { mapped.fe with ctx := [(0, { state := 1, root := 0x2000, heapGib := 1 })], allocs := [(1, { live := true, base := 0x40000000, size := 0x40000000, page := 0x40000000 })] }
    mem := { cells := [(0x2000, 1), (0x2001, 0x30)] } }

theorem heap_of_sharing : (mapAlloc 1 0 sharing).isSome = true := by
  have h : heapPlace 0 0x40000000 0x40000000 sharing = some (0, { sharing with freeCtr := 1 }) := by
    simp only [heapPlace]
    have e : ((ctxAt sharing 0).heapVa :: (heapUsed sharing 0).map (fun r => alignUp (r.1 + r.2) 0x40000000)).find?
        (heapOk sharing 0 0x40000000 0x40000000) = some 0 := by decide +kernel
    rw [e, Option.map_some, choose_only]
    · rfl
    · intro k hk
      simp only [heapOk, Bool.and_eq_true, decide_eq_true_eq] at hk
      have a : (ctxAt sharing 0).heapVa = 0 := by decide +kernel
      have b : (ctxAt sharing 0).heapGib = 1 := by decide +kernel
      have := hk.1.2
      rw [a, b, chunkSize] at this
      omega
  have x : (allocAt sharing 1).size = 0x40000000 ∧ (allocAt sharing 1).page = 0x40000000 := by decide +kernel
  simp only [mapAlloc, x.1, x.2, h]
  decide +kernel

/-- One chunk for the allocation, and a heap that it fills. -/
def allocating : State := { asked 0 0x241 [0, 0x40000000, 0, 2] with
  fe := { mapped.fe with ctx := [(0, { state := 1, root := 0x2000, heapGib := 1 })], ftOwn := [(0, .vai 0), (1, .vai 0)], tlb := [] }
  mem := { cells := [(0x2000, 1), (0x2001, 0x30)] } }

/-- Allocation `a` has been placed at `base`, whatever the two free values are. -/
def placed (a base : Nat) : State :=
  modAlloc a (fun y => { gen := y.gen, live := true, vai := 0, base := base, size := 0x40000000, page := 0x40000000 }) { allocating with freeCtr := 2 }

theorem placed_alloc (a base : Nat) :
    (placed a base).fe.allocs = [(a, { live := true, base := base, size := 0x40000000, page := 0x40000000 })] := rfl

theorem placed_ctx (a base : Nat) : ctxAt (placed a base) 0 = { state := 1, root := 0x2000, heapGib := 1 } := rfl

theorem placed_root (a base : Nat) : leNat (readMem { placed a base with freeCtr := 3 } 0x2000 8) = 0x3001 := by
  have m : leNat (readMem ({ mem := allocating.mem } : State) 0x2000 8) = 0x3001 := by decide +kernel
  exact m

theorem placed_next (a base : Nat) :
    nextTable 0 0x2000 0 { placed a base with freeCtr := 3 } = some (0x3000, { placed a base with freeCtr := 3 }) := by
  have b : bit 0x3001 0 = true := by decide
  have d : alignDown 0x3001 4096 = 0x3000 := by decide
  unfold nextTable
  rw [Nat.mul_zero, Nat.add_zero, placed_root, if_pos b, d]

theorem placed_table (a base : Nat) :
    leafTable 0 chunkSize 0 { placed a base with freeCtr := 3 } = some (0x3000, { placed a base with freeCtr := 3 }) := by
  have r : (ctxAt { placed a base with freeCtr := 3 } 0).root = 0x2000 := rfl
  have i : field 0 39 9 = 0 := by decide
  unfold leafTable
  rw [r, i, placed_next]
  exact if_pos rfl

theorem placed_heap (a base : Nat) :
    heapPlace 0 chunkSize chunkSize (placed a base) = some (0, { placed a base with freeCtr := 3 }) := by
  have u : heapUsed (placed a base) 0 = [] := by simp [heapUsed, placed_alloc]
  have f : heapOk (placed a base) 0 chunkSize chunkSize 0 = true := by simp [heapOk, u, placed_ctx]
  simp only [heapPlace, placed_ctx, u, List.map_nil, List.find?_cons_of_pos f, Option.map_some]
  rw [choose_only]
  · rfl
  · intro k hk
    simp [heapOk, placed_ctx, chunkSize] at hk
    omega

theorem heap_of_placed (a base : Nat) : (mapAlloc a 0 (placed a base)).isSome = true := by
  have x : allocAt (placed a base) a = { live := true, base := base, size := chunkSize, page := chunkSize } := by
    simp [allocAt, placed_alloc, tget, chunkSize]
  have d : chunkSize / chunkSize = 1 := by decide
  simp only [mapAlloc, x, placed_heap, d, mapPages, placed_table, Option.map_some, Option.isSome_some]

theorem placeAt_some (v n k : Nat) (u : List (Nat × Nat)) (s : State) (h : (placeAt true v n k u s).isSome = true) :
    ∃ b, placeAt true v n k u s = some (b, { s with freeCtr := s.freeCtr + 1 }) := by
  simp only [placeAt, Option.isSome_map, Option.isSome_iff_exists] at h
  obtain ⟨d, e⟩ := h
  exact ⟨_, by simp only [placeAt, e, Option.map_some]; rfl⟩

theorem chooseFree_some (l : Nat → Bool) (n : Nat) (s : State) (h : (chooseFree l n s).isSome = true) :
    ∃ k, chooseFree l n s = some (k, { s with freeCtr := s.freeCtr + 1 }) := by
  simp only [chooseFree, Option.isSome_map, Option.isSome_iff_exists] at h
  obtain ⟨d, e⟩ := h
  exact ⟨_, by simp only [chooseFree, e, Option.map_some]; rfl⟩

theorem allocates : (heapAlloc 0 chunkSize 2 false allocating).1 = .done := by
  have x : ctxAt allocating 0 = { state := 1, root := 0x2000, heapGib := 1 } := rfl
  have r : roundSize chunkSize = (chunkSize, chunkSize) := by decide
  obtain ⟨b, p⟩ := placeAt_some 0 chunkSize chunkSize (placedRanges allocating true) allocating (by decide +kernel)
  obtain ⟨a, q⟩ := chooseFree_some (fun a => !(allocAt allocating a).live) 65536 { allocating with freeCtr := 1 } (by decide +kernel)
  have p' : allocPlace 0 chunkSize chunkSize 2 allocating = some (b, { allocating with freeCtr := 1 }) := p
  obtain ⟨y, h⟩ := Option.isSome_iff_exists.mp (heap_of_placed a b)
  unfold heapAlloc
  rw [if_neg (by decide), x]
  rw [if_neg (by decide), if_neg (by decide)]
  simp only [r, p', q]
  change (match mapAlloc a 0 (placed a b) with | some (va, t) => ((.done, a, va, t) : Status × Nat × Nat × State) | none => _).1 = _
  rw [h]

theorem test_hyps_AllocatorCommands :
    (mapAlloc 1 0 sharing).isSome = true ∧ (heapAlloc 0 chunkSize 2 false allocating).1 = .done ∧
    (let s := asked 0 0x240 [0, 0x1000, 0, 1]
     Taken s 0 0x240 ∧ boxCtx s 0 1 = .ok 0 ∧ boxPair s 0 2 % 4096 = 0 ∧ loadsLeft s (fun x => x.2.lastCtx == some 0) = false) ∧
    (let s := asked 0 0x241 [0, 0, 0, 0]
     Taken s 0 0x241 ∧ boxCtx s 0 1 = .ok 0 ∧ (heapAlloc 0 (boxPair s 0 2) (boxWord s 0 4) false s).1 = .faultFormat) ∧
    (let s := allocating
     Taken s 0 0x241 ∧ boxCtx s 0 1 = .ok 0 ∧ boxPair s 0 2 = chunkSize ∧ boxWord s 0 4 = 2) ∧
    (∀ va ∈ [0x10000, 0x1FFFF], let s := asked 0 0x242 [0, va] { mapped with fe := { mapped.fe with allocs := [(1, { live := true, size := 65536, maps := [(0, 0x10000)] })] } }
     Taken s 0 0x242 ∧ boxCtx s 0 1 = .ok 0 ∧ allocHolding s 0 (boxPair s 0 2) = some 1) ∧
    (let s := sharing
     Taken s 0 0x243 ∧ allocOf s (boxWord s 0 1) = some 1 ∧ (allocAt s 1).vai = 0 ∧ boxCtx s 0 2 = .ok 0 ∧ (ctxAt s 0).heapGib ≠ 0 ∧
     (allocAt s 1).dying = false) ∧
    (let s := asked 0 0x244 [0, 0x10000] { mapped with fe := { mapped.fe with allocs := [(1, { live := true, size := 65536, maps := [(0, 0x10000)] })] } }
     Taken s 0 0x244 ∧ boxCtx s 0 1 = .ok 0 ∧ allocMapped s 0 (boxPair s 0 2) = some 1) ∧
    (∀ h ∈ [0, 1], ∀ code ∈ [0x245, 0x246], let s := asked 0 code [256] { mapped with fe := { mapped.fe with allocs := [(1, { live := true, host := h })] } }
     Taken s 0 code ∧ allocOf s (boxWord s 0 1) = some 1 ∧ (allocAt s 1).vai = 0 ∧ (allocAt s 1).dying = false ∧ (allocAt s 1).host = h ∧
     (allocAt s 1).maps.length + (allocAt s 1).host < 2 ^ 32 - 1) := by
  refine ⟨heap_of_sharing, allocates, ?_⟩
  simp only [Taken, Serving, Live, ok_iff]; repeat' apply And.intro
  all_goals decide +kernel

/-! ## Instances, partitions, migration -/

/-- VAI 0 is `x`. -/
def vai0 (x : Vai) (s : State := up) : State := { s with fe := { s.fe with vai := [(0, x)] } }

theorem test_hyps_VirtualInstances :
    (let s := asked 256 0x101 [0x10000, 3] up
     Taken s 256 0x101 ∧ field (boxWord s 256 1) 0 8 = 0 ∧ field (boxWord s 256 1) 8 4 < s.fe.parts ∧ field (boxWord s 256 1) 16 16 ≠ 0 ∧
     (vaiAt s 0).state = 0 ∧ pasidTaken s (boxWord s 256 2) = false ∧ classTaken s 0 0 1 = false ∧ confPart s 0 = false ∧
     touching s 0 = false ∧ scrubbing s 0 = false ∧ (vaiAt (asked 256 0x101 [0x10000, 3] mapped) 0).state ≠ 0) ∧
    (let s := asked 256 0x102 [0] (vai0 { state := 1, part := 0 })
     Taken s 256 0x102 ∧ boxWord s 256 1 = 0 ∧ (vaiAt s 0).state ≠ 0 ∧ scrubbing s 0 = false ∧ touching s 0 = false ∧ ctxsOf s 0 = []) ∧
    (∀ k ∈ [(1, 959, 1), (3, 0, 512), (9, 0x8000, 0)], let s := asked 256 0x103 [256 * k.1, k.2.1, k.2.2] (vai0 { state := 1, part := 0 })
     Taken s 256 0x103 ∧ field (boxWord s 256 1) 8 4 = k.1 ∧ grantMalformed (vaiAt s 0) k.1 k.2.1 k.2.2 false = false ∧
     grantDenied s 0 k.1 k.2.1 k.2.2 false = false ∧ grantBusy s 0 k.1 k.2.1 k.2.2 false = false ∧ bit (boxWord s 256 1) 12 = false) ∧
    (let s := asked 256 0x103 [256 * 17, 959, 1] { vai0 { state := 1, part := 0 } with fe := { (vai0 { state := 1, part := 0 }).fe with ftOwn := [(959, .vai 0)] } }
     Taken s 256 0x103 ∧ field (boxWord s 256 1) 8 4 = 1 ∧ grantMalformed (vaiAt s 0) 1 959 1 true = false ∧
     grantDenied s 0 1 959 1 true = false ∧ grantBusy s 0 1 959 1 true = false ∧ bit (boxWord s 256 1) 12 = true ∧
     itemsRead s 1 (itemsFrom 959 1) = false) ∧
    (regsOn up = true ∧ tget .free ([(959, .zeroing)] : Tbl Own) 959 = .zeroing) ∧
    (let s := asked 256 0x104 [0, 0x800] { up with mem := { steps := 1 } }
     Taken s 256 0x104 ∧ boxWord s 256 1 < s.fe.parts ∧ field (boxWord s 256 2) 0 6 = 0 ∧ field (boxWord s 256 2) 8 6 = 8 ∧
     (∀ u ∈ itemsFrom 0 8, u < 8 * scratchSteps s) ∧ touching s 0 = false ∧ scrubbing s 0 = false ∧ unitsOf s 0 = [] ∧ s.fe.parts = 1) := by
  simp only [Taken, Serving, Live]; repeat' apply And.intro
  all_goals decide +kernel

theorem test_hyps_Reconfiguration :
    (let s := asked 256 0x105 [12, 0xFFF, 1] up
     Taken s 256 0x105 ∧ s.fe.reconf = none) ∧
    (let s : State := { up with fe := { tasks := [{ tk with ty := 0x10, place := .lceQueue 0 }], reconf := some { parts := 2, conf := 0, tag := false, step := 3, scrub := [] }, touched := 1, ctx := [(0, { state := 1, part := 0 })] } }
     Computing s ∧ s.fe.reconf.any (fun r => r.step == 3) = true ∧ (touchedTasks s).any atUnit = true) ∧
    (let s : State := { up with fe := { scrubbing := [0], ftOwn := [(3, .scrub 0)] }, csb := { scrub := [(0, { state := 1, trigger := 2, vai := some 0 })] } }
     Computing s ∧ s.err.state ≠ 2 ∧ scrubbing s 0 = true ∧ (scrubAt s 0).trigger = 2 ∧ (scrubAt s 0).vai = some 0 ∧ tget .free s.fe.ftOwn 3 = .scrub 0) ∧
    (∀ e ∈ [(0x120, 1), (0x121, 3)], let s := asked 256 e.1 [0] (vai0 { state := e.2, part := 0 })
     Taken s 256 e.1 ∧ s.fe.pausing = [] ∧ boxWord s 256 1 = 0 ∧ (vaiAt s 0).state = e.2 ∧ touching s 0 = false ∧ scrubbing s 0 = false) := by
  simp only [Taken, Serving, Computing, Live]; repeat' apply And.intro
  all_goals decide +kernel

/-- The image of an instance that holds nothing. -/
def migImage : MigImage := imageOfVai up 0

theorem test_hyps_Migration :
    (∀ l ∈ [false, true], let s := asked 256 0x122 [0] (vai0 { state := 1, part := 0, log := l })
     Taken s 256 0x122 ∧ boxWord s 256 1 = 0 ∧ (vaiAt s 0).state ≠ 0 ∧ confVai s 0 = false ∧ (vaiAt s 0).log = l) ∧
    (let s := asked 256 0x122 [0] { vai0 { state := 1, part := 0 } with fe := { (vai0 { state := 1, part := 0 }).fe with conf := 1 } }
     Taken s 256 0x122 ∧ confVai s (boxWord s 256 1) = true ∧ (vaiAt s 1).state = 0) ∧
    (let s := asked 256 0x102 [0] (vai0 { state := 1, part := 0 })
     Taken s 256 0x102 ∧ (vaiAt s 0).state ≠ 0 ∧ scrubbing s 0 = false ∧ touching s 0 = false ∧ ctxsOf s 0 = [] ∧ confPart s 0 = false) ∧
    (Taken (asked 256 0x123 [0]) 256 0x123 ∧ (vaiAt (asked 256 0x123 [0]) (boxWord (asked 256 0x123 [0]) 256 1)).state ≠ 0) ∧
    (∀ k ∈ [0, 256], let s := asked 256 0x124 [k, 0x10000, 0, 0xFFFFFFC0] (vai0 { state := 1, part := 0, hostLog := [5], devLog := [9] })
     Taken s 256 0x124 ∧ boxPair s 256 2 % 64 = 0 ∧ boxWord s 256 4 % 64 = 0 ∧ (vaiAt s (field (boxWord s 256 1) 0 8)).state ≠ 0 ∧
     bit (boxWord s 256 1) 8 = decide (k = 256)) ∧
    (let s := asked 256 0x125 [0, 0x10000, 0, 4096] (vai0 { state := 3, part := 0 })
     Taken s 256 0x125 ∧ boxPair s 256 2 % 64 = 0 ∧ boxWord s 256 4 % 64 = 0 ∧ (vaiAt s (boxWord s 256 1)).state = 3) ∧
    (let s := asked 256 0x126 [0, 0x10000, 0, 4096] (vai0 { state := 1, part := 0 })
     Taken s 256 0x126 ∧ boxPair s 256 2 % 64 = 0 ∧ boxWord s 256 4 % 64 = 0 ∧ (vaiAt s (boxWord s 256 1)).state = 1 ∧ ctxsOf s 0 = [] ∧
     imageFits s 0 migImage = true ∧ numbersFree s migImage = true) := by
  simp only [Taken, Serving, Live]; repeat' apply And.intro
  all_goals decide +kernel

/-! ## Mailboxes and interrupts -/

/-- Mailbox `b` stands in a state, with these words. -/
def boxed (b : Nat) (st : BoxState) (ws : List Nat := []) (s : State := mapped) : State :=
  { s with mbx := { box := [(b, { state := st, words := (ws ++ List.replicate (8 - ws.length) 0).map w32 })], proc := (List.range 5).map (fun i => (i, { pstate := 1 })) } }

theorem test_hyps_Mailboxes :
    (∀ b ∈ [0, 257], ∀ st ∈ ([.idle, .posted] : List BoxState), let s := boxed b st
     Live s ∧ boxOpen s b = true ∧ (boxAt s b).state = st ∧ resetWindow s = false) ∧ bit (1 : W32).toNat 0 = true ∧
    (∀ b ∈ [0, 257], takesNow (boxed b .posted) b = true) ∧
    (∀ v ∈ [0, 1], let s := boxed v .posted [0x10000223, 5]
     Live s ∧ (boxAt s v).state = .posted ∧ takesNow s v = true ∧
     answeredNow s v (cmdCode (((boxAt s v).words.getD 0 0).toNat)) = (if v = 0 then none else some 0x30) ∧
     malformed v (boxAt s v).words = none) ∧
    (shapeOf 0 (cmdCode ((w32 0x3FF).toNat)) = none ∧ (shapeOf 0 (cmdCode ((w32 0x20000223).toNat))).any (fun c => c.masks.length != cmdLen (w32 0x20000223).toNat) = true ∧
     field (w32 0x20000223).toNat 24 4 = 0 ∧ malformed 0 [w32 0x20000223] = some 0x101) ∧
    (∀ b ∈ [0, 257], let s := boxed b .done
     Live s ∧ boxOpen s b = true ∧ (boxAt s b).state = .done ∧ bit (0x80000000 : W32).toNat 31 = true ∧ (boxAt s 1).state ≠ .done) ∧
    (∀ p ∈ [0, 4], (procAt (boxed 0 .idle) p).pstate = 1 ∧ beat up % 64 = 0 ∧ up.pm.done.contains (32 + p) = false) := by
  simp only [Live, List.mem_cons, List.not_mem_nil, or_false, forall_eq_or_imp, forall_eq]; repeat' apply And.intro
  all_goals decide +kernel

/-- Source `n` is pending at level 0x80; the manager's queue has 16 entries. -/
def pending0 (n : Nat) (s : State := up) : State :=
  { s with ic := { s.ic with src := [(n, { mask := false, count := 1 })] }, regs := [(0xE04208, 4)] }

theorem test_hyps_InterruptController :
    (Live (pending0 36) ∧ selectSource (pending0 36) 0 = some 36 ∧ evFull (pending0 36) 0 = false ∧ evHead (pending0 36) 0 = evTail (pending0 36) 0 ∧
     twf {} (pending0 36).ic.src = true ∧ selectable (pending0 36) 0 36 = true) ∧
    (let s : State := { pending0 36 with ic := { (pending0 36).ic with mqTail := 16 } }
     selectSource s 0 = some 36 ∧ evFull s 0 = true) ∧
    (selectSource (pending0 49) 261 = some 49 ∧ icOn up = true ∧ hostSource up 36 = true) ∧
    (let s : State := { pending0 36 with regs := [(0xE04208, 4), (0xE8000C, 0)], ic := { (pending0 36).ic with mqTail := 2 } }
     bit (regGet s (0xE80000 + 12)) 0 = false ∧ headOpen s 0 = true ∧ headOpen s 256 = true ∧ resetWindow s = false ∧ LogRoom s ∧
     ((2 : W32).toNat + 2 ^ 32 - evHead s 0) % 2 ^ 32 ≤ (evTail s 0 + 2 ^ 32 - evHead s 0) % 2 ^ 32 ∧
     (evTail s 0 + 2 ^ 32 - evHead s 0) % 2 ^ 32 < ((3 : W32).toNat + 2 ^ 32 - evHead s 0) % 2 ^ 32) ∧
    bit (2 : W32).toNat 0 = false := by
  simp only [LogRoom, Live]; repeat' apply And.intro
  all_goals decide +kernel

/-! ## Start-up, firmware, repair -/

/-- An image whose header is well formed, of no code. -/
def img0 : List Byte := leBytes 4 0x53465750 ++ List.replicate 508 0

/-- The block in a state of its start-up. -/
def booting (b : Nat) (s : State := up) : State := { s with blk := { s.blk with bootState := b } }

theorem test_hyps_StartUp :
    (∀ b ∈ [1, 2, 3, 4, 5, 7], Live (booting b) ∧ (booting b).blk.bootState = b) ∧ imageCause (booting 1) [] = some 2 ∧
    ((booting 7).fw.recovering = false ∧ bit (0x80000000 : W32).toNat 31 = true ∧ (booting 7).blk.ireqReady = true) ∧
    (let s : State := { booting 7 with fw := { recovering := true, recovery := img0 } }
     s.fw.recovering = true ∧ s.fw.writing = none ∧ s.ports.oreq = [] ∧ headerOk s.fw.recovery = true) ∧
    (8 < ((List.range 9).foldl (fun l i => sinsert i l) []).length ∧ ((List.range 8).foldl (fun l i => sinsert i l) []).length ≤ 8) ∧
    (((List.range 76).map (fun i => 76 * 11 + i)).filter (fun p => !up.fw.fuses.failed.contains p && !([836, 837, 838, 839] : List Nat).contains p))[71]? = some 911 ∧
    portsReady (booting 5) = true ∧
    (∀ k ∈ [0, 3, 4, 5], let s := booting 4 { up with mem := { train := k, trainBad := [7], stack := [(0, { state := 1 })], cells := [(0, 1)] } }
     Live s ∧ s.blk.bootState = 4 ∧ s.mem.train = k ∧ k ≠ (k + 1) + 1 ∧ (stackAt s 0).state = 1) ∧
    (portTrains { linked 1 { state := 1 } with blk := (booting 5).blk } 0 = true ∧ (portAt (linked 1 { state := 1 }) 0).state = 1) := by
  simp only [Live]; repeat' apply And.intro
  all_goals decide +kernel

theorem test_hyps_FirmwareUpdate :
    (let s := asked 256 0x300 [959, 0x1000, 0, 512] up
     Taken s 256 0x300 ∧ field (boxWord s 256 1) 0 10 < 960 ∧ boxPair s 256 2 % 4096 = 0 ∧ boxWord s 256 4 ≤ chunkSize ∧
     headerOk (padTo img0 (boxWord s 256 4)) = true ∧ boxWord s 256 4 = 512 + imageLen (padTo img0 (boxWord s 256 4)) ∧
     stageDenied s img0 true 959 = true ∧ s.fw.upd = 0 ∧ tget .free s.fe.ftOwn 959 = .free) ∧
    (let s := asked 256 0x301 [3] { up with fw := { upd := 2, newOn := 7 } }
     Taken s 256 0x301 ∧ field (boxWord s 256 1) 0 2 = 3 ∧ s.fw.hand = none ∧ s.err.bPending = none ∧ s.err.state ≠ 1 ∧ s.fw.upd ≠ 0 ∧ bit s.fw.newOn 3 = false ∧ s.fe.reconf = none ∧
     s.fe.scrubbing = []) ∧
    (∀ e ∈ ([(some 0x20, 0), (none, 1)] : List (Option Nat × Nat)),
     let s := asked 256 0x301 [3] { up with err := { state := e.2, bPending := e.1 } }
     Live s ∧ boxRuns s 256 0x301 = true ∧ s.fw.hand = none ∧ (s.err.bPending.isSome = true ∨ s.err.state = 1)) ∧
    (∀ n ∈ [1, 2], ({ up with fw := { hand := some (3, n) } } : State).fw.hand = some (3, n)) ∧
    (∀ n ∈ [0, 7, 15], ∀ code ∈ [0x302, 0x303], let s := asked 256 code [] { up with fw := { upd := 2, newOn := n } }
     Taken s 256 code ∧ s.fw.writing = none ∧ s.fw.newOn = n) ∧
    (let s : State := { up with fw := { writing := some 1 } }
     Serving s ∧ (s.err.state != 2) = true ∧ s.fw.writing = some 1) := by
  simp only [Taken, Serving, Live]; repeat' apply And.intro
  all_goals decide +kernel

/-- Array 0 stands behind logical array 0; array 1 is in reserve, when there is one. -/
def spared (reserve : Bool) (s : State := up) : State :=
  { s with arr := { lmap := [(0, 1)], phys := [(0, { role := 2, logical := 0, ce := 17 })] ++ if reserve then [(1, { role := 3 })] else [] } }

theorem test_hyps_Repair :
    (∀ r ∈ [false, true], let s := asked 256 0x310 [0] (spared r)
     Taken s 256 0x310 ∧ field (boxWord s 256 1) 0 10 = 0 ∧ physOf s 0 = some 0 ∧ s.arr.swaps = [] ∧ (reserveOf s (sectorOfArray 0)).isSome = r ∧
     sectorOn s (sectorOfArray 0) = true ∧ swapping s (sectorOfArray 0) = false) ∧
    (let s := spared true
     Serving s ∧ physOf s 0 = some 0 ∧ 16 < (physAt s 0).ce ∧ (physAt s 0).role = 2) ∧
    (let s := asked 256 0x311 [11] up
     Taken s 256 0x311 ∧ field (boxWord s 256 1) 0 4 = 11 ∧ sectorOn s 11 = true ∧ (sectorAt s 11).state ≠ 1 ∧
     1 < ((sectorsOf s (partOfSector s 11)).filter (sectorOn s)).length ∧ s.fe.reconf = none ∧ s.fe.scrubbing = [] ∧ swapping s 11 = false) ∧
    (let s := asked 256 0x311 [11] { up with fe := { parts := 12 } }
     Taken s 256 0x311 ∧ (sectorAt s 11).state ≠ 1 ∧ sectorOn s 11 = true ∧ ((sectorsOf s (partOfSector s 11)).filter (sectorOn s)).length ≤ 1) ∧
    (let s := asked 256 0x312 [11] { up with fw := { sector := [(11, { state := 2 })] } }
     Taken s 256 0x312 ∧ field (boxWord s 256 1) 0 4 = 11 ∧ (sectorAt s 11).state = 2) ∧
    (let s : State := { up with fw := { sector := [(0, { state := 3, tests := [1] })] }, arr := { phys := [(1, { role := 6, testing := true })] } }
     Serving s ∧ (s.err.state != 2) = true ∧ (sectorAt s 0).state = 3 ∧ (sectorAt s 0).tests ≠ [] ∧ (physAt s 1).testing = true ∧ s.arr.swaps = []) ∧
    (let x : Swap := { l := 0, old := 0, new := some 1, own := false }
     let s : State := { up with arr := { phys := [(1, { role := 6, testing := true })], swaps := [x] } }
     Serving s ∧ (physAt s 1).testing = true ∧ s.arr.swaps.find? (fun x => x.new == some 1) = some x) := by
  simp only [Taken, Serving, Live]; repeat' apply And.intro
  all_goals decide +kernel

/-! ## Power, beat, ledger -/

/-- MAX_STATE is `m`. -/
def allowed (m : Nat) (s : State := up) : State := { s with regs := [(0x1100000, w32 (m * 2 ^ 29))] }

theorem test_hyps_PowerStates :
    (let s := held {} (allowed 4)
     Computing s ∧ (∀ p ∈ [0, 911], mayRest s (.array p) = true ∧ (arrAt s p).task = none ∧ (arrAt s p).queue = [] ∧ (physAt s p).testing = false) ∧
     mayRest (allowed 0) (.array 0) = false ∧ mayRest s (.stack 11) = true ∧ stackIdle s 11 = true ∧ mayRest s (.sector 11) = true ∧
     sectorBusy s 11 = false ∧ mayRest s .block = true ∧ blockNeeded s = false) ∧
    (let s : State := { allowed 4 with mem := { stack := [(11, { state := 2 })] }, fw := { sector := [(11, { state := 2 })] } }
     Computing s ∧ (stackAt s 11).state = 2 ∧ (sectorAt s 11).state = 2) ∧
    (let s : State := { allowed 4 with mem := { stack := (List.range 12).map (fun n => (n, { state := 3 })) }, pm := { sector := (List.range 12).map (fun n => (n, 3)) } }
     Computing s ∧ (∀ n < 12, rests s (.sector n) = true) ∧ (∀ n < 12, rests s (.stack n) = true) ∧ needed s (.sector 0) = false ∧
     s.pm.waking.contains (.sector 0) = false) ∧
    (let s := held { gated := true, queue := [0] } up
     Serving s ∧ rests s (.array 0) = true ∧ needed s (.array 0) = true) ∧
    (let s : State := { held { gated := true } up with regs := [(0x101200, 3)], pm := { beat := 1023 }, fe := { part := [(0, { fair := false })] } }
     Serving s ∧ rests s (.array 0) = true ∧ s.pm.waking.contains (.array 0) = false ∧ eventFor s (partOfSector s (sectorOfPhys 0)) (beat s + 1) = true) ∧
    (let s := asked 256 0x340 [0, 5]
     Taken s 256 0x340 ∧ (vaiAt s (field (boxWord s 256 1) 0 8)).state ≠ 0) ∧ regsOn up = true := by
  simp only [Taken, Serving, Computing, Live]; repeat' apply And.intro
  all_goals decide +kernel

/-- Port 0 carries beat sets; node 5. -/
def beating (p : Pm) : State := { linked 1 { state := 2 } with pm := p }

theorem test_hyps_BeatAndLedger :
    (Live up ∧ up.pm.next = none ∧ up.pm.master = false) ∧
    (∀ j ∈ [false, true], let s : State := { up with pm := { next := some 9, jump := j } }
     Live s ∧ s.pm.next = some 9 ∧ s.pm.jump = j) ∧
    (∀ c ∈ [1, 2], let s : State := { up with regs := [(0x8, 0x20000)], pm := { master := true, src := c, lock := 1, missed := 1000000 } }
     Live s ∧ bit (regGet s 0x8) 17 = true ∧ s.pm.master = true ∧ s.pm.src = c ∧ s.pm.lock = 1 ∧ missLimit c ≤ s.pm.missed ∧ LogRoom s) ∧
    (∀ m ∈ [5, 4], let s := beating { master := true }
     beatPort s 0 = true ∧ s.pm.master = true ∧ (nodeId s ≤ m ↔ m = 5)) ∧
    (∀ n ∈ [0xFFF, 7], let s := beating { node := n }
     Live s ∧ beatPort s 0 = true ∧ s.pm.master = false ∧ s.pm.node = n ∧ s.pm.node ≠ 3 ∧
     bestPort (modPort 0 (fun y => { y with distance := 1, master := 3 }) s) = some 0) ∧
    (let s : State := { up with pm := { upstream := 7, lock := 1 } }
     Live s ∧ s.pm.upstream < 8 ∧ beatPort s 7 = false ∧ LogRoom s ∧ bestPort (modPort 7 (fun x => { x with distance := 0xFF }) s) = none) ∧
    (let s : State := { up with pm := { cand := true, listen := some 32 } }
     Live s ∧ s.pm.cand = true ∧ s.pm.master = false ∧ s.pm.listen = some 32 ∧ bestPort s = none) ∧
    (let s := linked 2 { state := 2 }
     Serving s ∧ portMode s 0 = 2 ∧ (portAt s 0).state = 2 ∧ ¬ (s.pm.src = 3 ∧ s.pm.master = true)) ∧
    Taken (asked 256 0x341 [5, 0] up) 256 0x341 ∧
    (let s : State := { up with regs := [(0x1100314, 0x20004)], pm := { done := [0], rounds := 4 } }
     Live s ∧ regsOn s = true ∧ s.pm.done.contains 0 = true ∧ field (regGet s 0x1100314) 16 16 = 2 ∧ s.pm.rounds % 2 = 0 ∧
     s.pm.done.contains 2 = false ∧ s.pm.cut = false ∧ inReset s = false) ∧
    (let s : State := { up with regs := [(0x1100308, 16)] }
     ledSize s ≠ 0 ∧ s.pm.held = [] ∧ (snapEntries (s.pm.snap + 1) s).length ≤ ledRoom s) ∧
    ({ up with pm := { held := [[]] } } : State).pm.held ≠ [] := by
  simp only [Taken, Serving, LogRoom, Live]; repeat' apply And.intro
  all_goals decide +kernel

/-! ## Faults and recovery -/

theorem test_hyps_QueueResets :
    (∀ q ∈ ([.ready, .resetting] : List QState), let s := queued { state := q, guilty := some ⟨.faultFormat, 3⟩ }
     Computing s ∧ (queueAt s 0).guilty = some ⟨.faultFormat, 3⟩ ∧ (queueAt s 0).state = q) ∧
    ((queueAt up 0).guilty = none ∧ (vaiAt mapped 0).state ≠ 2 ∧ (vaiAt mapped 0).state ≠ 3) := by
  simp only [Computing, Live, List.mem_cons, List.not_mem_nil, or_false, forall_eq_or_imp, forall_eq]; repeat' apply And.intro
  all_goals decide +kernel

theorem test_hyps_BlockResets :
    (∀ n ∈ [3, 4], let s : State := { up with regs := [(0x1200000, 0x04028014)], err := { bPending := some 0x20, recentAt := List.replicate n 0 } }
     Live s ∧ s.blk.bootState = 6 ∧ s.err.bPending = some 0x20 ∧ ((recentResets s).length < resetLimit s ↔ n = 3)) ∧ up.err.bPending = none ∧
    (let s : State := { up with err := { state := 1 } }
     Live s ∧ s.err.state = 1 ∧ s.err.bPending = none ∧ resetReads s = false) ∧
    (let s : State := { mapped with err := { state := 2, toRestore := [0] } }
     Serving s ∧ s.err.state = 2 ∧ s.err.toRestore.find? (fun c => (ctxAt s c).vai % 4 == 0) = some 0) ∧
    (Live (booting 9) ∧ bit (0x40000000 : W32).toNat 30 = true ∧ up.err.toRestore = []) := by
  simp only [Serving, Live]; repeat' apply And.intro
  all_goals decide +kernel

theorem test_hyps_LogAndDump :
    (let s : State := { up with err := { tail := 2 } }
     Live s ∧ regsOn s = true ∧ LogRoom s ∧ ((2 : W32).toNat + 2 ^ 32 - s.err.head) % 2 ^ 32 ≤ openRecs s ∧
     openRecs s < ((3 : W32).toNat + 2 ^ 32 - s.err.head) % 2 ^ 32) ∧
    (bit (0x20000000 : W32).toNat 29 = true ∧ bit (0x80000000 : W32).toNat 31 = true ∧ up.err.copying = false) ∧
    (∀ f ∈ [false, true], let s : State := { up with err := { copying := true, fromFlash := f, dump := [1] }, fw := { flash := { dump := [2], dumpDone := true } } }
     Live s ∧ s.err.copying = true ∧ dumpOf s s.err.fromFlash ≠ []) ∧
    (let s : State := { up with err := { offer := true, dump := [1] } }
     Serving s ∧ s.err.state = 0 ∧ s.err.offer = true ∧ s.fw.flash.dumpDone = false ∧ s.err.flashCopying = false ∧ s.err.dump ≠ []) ∧
    ({ up with err := { flashCopying := true } } : State).err.flashCopying = true := by
  simp only [Serving, LogRoom, Live]; repeat' apply And.intro
  all_goals decide +kernel

/-! ## Confidential operation -/

/-- The CSB runs; partition 0 is confidential and holds VAI 0 with PASID 3; session 1 exists. -/
def sealed (b : List Binding := []) (g : List (Nat × Nat × Nat) := []) : State :=
  { up with
    mbx := { proc := [(4, { pstate := 1 })] }
    fe := { conf := 1, vai := [(0, { state := 1, part := 0, pasid := 3 })], ctx := [(0, { state := 1, part := 0 })] }
    csb := { sessions := [1], next := 2, bindings := b, gens := g } }

theorem test_hyps_SpdmResponder :
    DoeOpen (sealed) ∧ ({ up with blk := { up.blk with doeAbort := true } } : State).blk.doeAbort = true ∧
    (∀ i ∈ [1, 8], byteAt ([0x13, 0xE0, 1, BitVec.ofNat 8 i] : List Byte) 3 = i ∧ bit (byteAt ([0x13, 0xE0, 1, BitVec.ofNat 8 i] : List Byte) 2) 0 = true) ∧
    (sealed.csb.sessions.length < 16 ∧ 1 ∈ sealed.csb.sessions) ∧
    (let s : State := { sealed with csb := { sessions := List.range 16 } }
     DoeOpen s ∧ 16 ≤ s.csb.sessions.length) := by
  simp only [DoeOpen, Live]; repeat' apply And.intro
  all_goals decide +kernel

theorem test_hyps_SealBindings :
    (DoeOpen sealed ∧ 1 ∈ sealed.csb.sessions ∧ 2 ∉ sealed.csb.sessions) ∧
    (let l : List W32 := [0, 3]
     field (reqWord l 0) 0 4 = 0 ∧ scrubbing sealed 0 = false ∧ confPart sealed 0 = true ∧
     sealed.fe.vai.any (fun e => e.2.state != 0 && e.2.part == 0 && e.2.pasid == field (reqWord l 1) 0 20) = true ∧
     boundToOther sealed 1 0 = false ∧ nextGen sealed 1 0 = some 0 ∧ lastGen sealed 1 0 = none) ∧
    scrubbing { sealed with fe := { scrubbing := [0] } } 0 = true ∧
    (∀ g ∈ [254, 255], let s := sealed [{ session := 1, part := 0, gen := g }] [(1, 0, g)]
     lastGen s 1 0 = some g ∧ binds s 1 0 = true ∧ sealBusy s 0 = false ∧ nextGen s 1 0 = (if g = 254 then some 255 else none)) ∧
    binds sealed 1 0 = false ∧
    (let l : List W32 := [0, 0x1000, 0, 0x2000, 0, 0x40, 0]
     let s := sealed [{ session := 1, part := 0, gen := 0 }]
     field (reqWord l 0) 0 9 = 0 ∧ (reqWord l 1 + 2 ^ 32 * reqWord l 2) % 4096 = 0 ∧ (reqWord l 3 + 2 ^ 32 * reqWord l 4) % 4096 = 0 ∧
     (reqWord l 5 + 2 ^ 32 * reqWord l 6) % 64 = 0 ∧ (ctxAt s 0).state = 1 ∧ binds s 1 (partOfCtx s 0) = true) := by
  simp only [DoeOpen, Live]; repeat' apply And.intro
  all_goals decide +kernel

theorem test_hyps_SecurityMailbox :
    (let s := asked 257 0x400 [0x1000, 0, 64, 0x2000, 0, 64] up
     Secured s 0x400 ∧ boxPair s 257 1 % 64 = 0 ∧ boxPair s 257 4 % 64 = 0) ∧
    (∀ a ∈ [0x1000, 0x1001], let s := asked 257 0x401 [a, 0, 0] up
     Secured s 0x401 ∧ boxPair s 257 1 % 64 = a - 0x1000) ∧
    (∀ r ∈ ([none, some { trigger := 1, seq := 1, start := 0, finish := 9, chunks := 0, units := 0 }] : List (Option Receipt)),
     let s := asked 257 0x402 [11, 0x1000, 0] { up with csb := { scrub := [(11, { seq := 1, receipt := r })] } }
     Secured s 0x402 ∧ boxWord s 257 1 = 11 ∧ boxPair s 257 2 % 64 = 0 ∧ (scrubAt s 11).receipt = r) := by
  simp only [Secured, Live, List.mem_cons, List.not_mem_nil, or_false, forall_eq_or_imp, forall_eq]; repeat' apply And.intro
  all_goals decide +kernel

/-! ## The whole block -/

theorem test_hyps_HaltedBlockDoesNothing :
    State.reset.blk.coldLow = true ∧ ({ up with blk := { up.blk with stopped := true } } : State).blk.stopped = true ∧
    Instr.ireqReadyAssert ≠ .coldResetRelease ∧ Instr.ireqReadyAssert ≠ .coldResetAssert ∧ Instr.ireqReadyAssert ≠ .throttleAssert ∧
    Instr.ireqReadyAssert ≠ .throttleRelease := by decide +kernel

/-- The command in front writes memory. -/
theorem test_hyps_MemoryStaysCanonical :
    let s : State := { up with pending := [.bar4Write 64 [1] false] }
    Machine.Memory.wf s.mem.cells = true ∧ ∃ t, step s = .next t ∧ tget 0 t.mem.cells 64 = 1 := by
  refine ⟨by decide +kernel, _, rfl, ?_⟩
  decide +kernel

theorem test_hyps_RollbackCountNeverFalls : exec .ireqReadyAssert up = .next up := by rfl

theorem test_hyps_DebugUsedIsRemembered :
    Live up ∧ debugOpen up = true ∧ up.blk.ireqReady = true ∧ regsOn up = true ∧ confMode up = false ∧ 0x14FFFFC % 4 = 0 ∧
    (let s : State := { up with csb := { debugUsed := true } }
     s.csb.debugUsed = true ∧ exec .ireqReadyAssert s = .next s ∧ Instr.ireqReadyAssert ≠ .coldResetAssert) := by
  simp only [Live]; repeat' apply And.intro
  all_goals first | decide +kernel | rfl

end Sys2Proof.Tests
end

section
/-!
SUPPORT. The footprint of a whole command, and what follows from it for a step.
-/
namespace Sys2Proof.Proofs
open Sys2Proof Sys2Proof.Machine Sys2Proof.Laws

/-- Every command keeps to the units that `footprint` names for it, with all that `Foot` carries. Assertion of COLD_RST_N is apart:
it loses DEBUG_USED, which `Foot` keeps (R78, R744). -/
theorem exec_foot {s t : State} : ∀ c : Instr, c ≠ .coldResetAssert → exec c s = .next t → Foot (footprint c) s t
  | .coldResetRelease, _, e => execColdResetRelease_foot (List.Subset.refl _) (e := e)
  | .coldResetAssert, hc, _ => absurd rfl hc
  | .ireqReadyAssert, _, e => execIreqReadyAssert_foot (List.Subset.refl _) (e := e)
  | .bar4Read _ _ _ _, _, e => execBar4Read_foot (List.Subset.refl _) (e := e)
  | .bar4Write _ _ _, _, e => execBar4Write_foot (List.Subset.refl _) (e := e)
  | .cmemRequest _ _ _ _ _ _, _, e => execCmemRequest_foot (List.Subset.refl _) (e := e)
  | .barAccessMalformed _ _ _ _ _ _, _, e => execBarAccessMalformed_foot (List.Subset.refl _) (e := e)
  | .registerWrite _ _ _ _, _, e => execRegisterWrite_foot (List.Subset.refl _) (e := e)
  | .lowWordRead _ _ _, _, e => execLowWordRead_foot (List.Subset.refl _) (e := e)
  | .rcFieldRead _ _ _, _, e => execRcFieldRead_foot (List.Subset.refl _) (e := e)
  | .ocplCompletion _ _ _ _, _, e => execOcplCompletion_foot (List.Subset.refl _) (e := e)
  | .oreqCompletionTimeout _, _, e => execOreqCompletionTimeout_foot (List.Subset.refl _) (e := e)
  | .hapLinkDown _, _, e => execHapLinkDown_foot (List.Subset.refl _) (e := e)
  | .hapFlr, _, e => execHapFlr_foot (List.Subset.refl _) (e := e)
  | .doeMessage _, _, e => execDoeMessage_foot (List.Subset.refl _) (e := e)
  | .clockLoss _, _, e => execClockLoss_foot (List.Subset.refl _) (e := e)
  | .mcClockWaitExpiry, _, e => execMcClockWaitExpiry_foot (List.Subset.refl _) (e := e)
  | .phyUpdateRequest n m, _, e => execPhyUpdateRequest_foot (List.Subset.refl _) n m e
  | .eapDone _ _ _ _, _, e => execEapDone_foot (List.Subset.refl _) (e := e)
  | .eapMreq _ _ _ _ _ _ _ _, _, e => execEapMreq_foot (List.Subset.refl _) (e := e)
  | .cancelAck _ _, _, e => execCancelAck_foot (List.Subset.refl _) (e := e)
  | .cancelTimeout _ _, _, e => execCancelTimeout_foot (List.Subset.refl _) (e := e)
  | .eapFatal _, _, e => execEapFatal_foot (List.Subset.refl _) (e := e)
  | .blkLock _, _, e => execBlkLock_foot (List.Subset.refl _) (e := e)
  | .fabLock _, _, e => execFabLock_foot (List.Subset.refl _) (e := e)
  | .throttleAssert, _, e => execThrottleAssert_foot (List.Subset.refl _) (e := e)
  | .throttleRelease, _, e => execThrottleRelease_foot (List.Subset.refl _) (e := e)
  | .telemetryFrame _ _, _, e => execTelemetryFrame_foot (List.Subset.refl _) (e := e)
  | .telemetryChannelLost _, _, e => execTelemetryChannelLost_foot (List.Subset.refl _) (e := e)
  | .beatInEdge, _, e => execBeatInEdge_foot (List.Subset.refl _) (e := e)
  | .beatBoundary, _, e => execBeatBoundary_foot (List.Subset.refl _) (e := e)
  | .tapInstruction _, _, e => execTapInstruction_foot (List.Subset.refl _) (e := e)
  | .mctpControlMessage _, _, e => execMctpControlMessage_foot (List.Subset.refl _) (e := e)
  | .pldmRequest _ _, _, e => execPldmRequest_foot (List.Subset.refl _) (e := e)
  | .accParityError _, _, e => execAccParityError_foot (List.Subset.refl _) (e := e)
  | .lockstepMismatch _, _, e => execLockstepMismatch_foot (List.Subset.refl _) (e := e)
  | .nop _ _, _, e => execNop_foot (List.Subset.refl _) (e := e)
  | .endTask _ _, _, e => execEndTask_foot (List.Subset.refl _) (e := e)
  | .br _ _, _, e => execBr_foot (List.Subset.refl _) (e := e)
  | .brc _ _, _, e => execBrc_foot (List.Subset.refl _) (e := e)
  | .call _ _, _, e => execCall_foot (List.Subset.refl _) (e := e)
  | .ret _ _, _, e => execRet_foot (List.Subset.refl _) (e := e)
  | .loop _ _, _, e => execLoop_foot (List.Subset.refl _) (e := e)
  | .cheap _ _, _, e => execCheap_foot (List.Subset.refl _) (e := e)
  | .rdflag _ _, _, e => execRdflag_foot (List.Subset.refl _) (e := e)
  | .clrflag _ _, _, e => execClrflag_foot (List.Subset.refl _) (e := e)
  | .addi _ _, _, e => execAddi_foot (List.Subset.refl _) (e := e)
  | .add _ _, _, e => execAdd_foot (List.Subset.refl _) (e := e)
  | .sub _ _, _, e => execSub_foot (List.Subset.refl _) (e := e)
  | .mul _ _, _, e => execMul_foot (List.Subset.refl _) (e := e)
  | .shl _ _, _, e => execShl_foot (List.Subset.refl _) (e := e)
  | .shr _ _, _, e => execShr_foot (List.Subset.refl _) (e := e)
  | .and _ _, _, e => execAnd_foot (List.Subset.refl _) (e := e)
  | .or _ _, _, e => execOr_foot (List.Subset.refl _) (e := e)
  | .movi _ _, _, e => execMovi_foot (List.Subset.refl _) (e := e)
  | .movhi _ _, _, e => execMovhi_foot (List.Subset.refl _) (e := e)
  | .cmp _ _, _, e => execCmp_foot (List.Subset.refl _) (e := e)
  | .fop _ _, _, e => execFop_foot (List.Subset.refl _) (e := e)
  | .gcfg _ _, _, e => execGcfg_foot (List.Subset.refl _) (e := e)
  | .gzero _ _, _, e => execGzero_foot (List.Subset.refl _) (e := e)
  | .gload _ _, _, e => execGload_foot (List.Subset.refl _) (e := e)
  | .gstep _ _ _, _, e => execGstep_foot (List.Subset.refl _) (e := e)
  | .drain _ _ _, _, e => execDrain_foot (List.Subset.refl _) (e := e)
  | .vecFp32Op _ _, _, e => execVecFp32Op_foot (List.Subset.refl _) (e := e)
  | .vecInt32Op _ _, _, e => execVecInt32Op_foot (List.Subset.refl _) (e := e)
  | .vld _ _, _, e => execVld_foot (List.Subset.refl _) (e := e)
  | .vst _ _, _, e => execVst_foot (List.Subset.refl _) (e := e)
  | .cvt _ _, _, e => execCvt_foot (List.Subset.refl _) (e := e)
  | .qblk _ _, _, e => execQblk_foot (List.Subset.refl _) (e := e)
  | .qt2 _ _, _, e => execQt2_foot (List.Subset.refl _) (e := e)
  | .deq _ _, _, e => execDeq_foot (List.Subset.refl _) (e := e)
  | .load _ _, _, e => execLoad_foot (List.Subset.refl _) (e := e)
  | .store _ _ _, _, e => execStore_foot (List.Subset.refl _) (e := e)
  | .loads _ _, _, e => execLoads_foot (List.Subset.refl _) (e := e)
  | .stores _ _ _, _, e => execStores_foot (List.Subset.refl _) (e := e)
  | .openwin _ _, _, e => execOpenwin_foot (List.Subset.refl _) (e := e)
  | .closewin _ _, _, e => execClosewin_foot (List.Subset.refl _) (e := e)
  | .fence _ _, _, e => execFence_foot (List.Subset.refl _) (e := e)
  | .signal _ _, _, e => execSignal_foot (List.Subset.refl _) (e := e)
  | .wait _ _, _, e => execWait_foot (List.Subset.refl _) (e := e)
  | .takewait _ _, _, e => execTakewait_foot (List.Subset.refl _) (e := e)
  | .barrier _ _, _, e => execBarrier_foot (List.Subset.refl _) (e := e)
  | .atom _ _ _, _, e => execAtom_foot (List.Subset.refl _) (e := e)
  | .enq _ _, _, e => execEnq_foot (List.Subset.refl _) (e := e)
  | .alloc _ _, _, e => execAlloc_foot (List.Subset.refl _) (e := e)
  | .free _ _, _, e => execFree_foot (List.Subset.refl _) (e := e)
  | .hpush _ _, _, e => execHpush_foot (List.Subset.refl _) (e := e)
  | .hpop _ _, _, e => execHpop_foot (List.Subset.refl _) (e := e)
  | .ptest _ _, _, e => execPtest_foot (List.Subset.refl _) (e := e)
  | .loadComplete _ _, _, e => execLoadComplete_foot (List.Subset.refl _) (e := e)
  | .storeAck _, _, e => execStoreAck_foot (List.Subset.refl _) (e := e)
  | .atomReply _, _, e => execAtomReply_foot (List.Subset.refl _) (e := e)
  | .taskStart _ _, _, e => execTaskStart_foot (List.Subset.refl _) (e := e)
  | .graceExpiry _, _, e => execGraceExpiry_foot (List.Subset.refl _) (e := e)
  | .saveComplete _ _, _, e => execSaveComplete_foot (List.Subset.refl _) (e := e)
  | .restoreComplete _ _, _, e => execRestoreComplete_foot (List.Subset.refl _) (e := e)
  | .waitTimeout _, _, e => execWaitTimeout_foot (List.Subset.refl _) (e := e)
  | .lookup _ _, _, e => execLookup_foot (List.Subset.refl _) (e := e)
  | .runFetchData _ _ _, _, e => execRunFetchData_foot (List.Subset.refl _) (e := e)
  | .update _ _, _, e => execUpdate_foot (List.Subset.refl _) (e := e)
  | .epochFence _ _, _, e => execEpochFence_foot (List.Subset.refl _) (e := e)
  | .epochFenceComplete _, _, e => execEpochFenceComplete_foot (List.Subset.refl _) (e := e)
  | .lkpPart _, _, e => execLkpPart_foot (List.Subset.refl _) (e := e)
  | .lkpRsp _, _, e => execLkpRsp_foot (List.Subset.refl _) (e := e)
  | .remoteLookupTimeout _, _, e => execRemoteLookupTimeout_foot (List.Subset.refl _) (e := e)
  | .sketchDecay _, _, e => execSketchDecay_foot (List.Subset.refl _) (e := e)
  | .hrcConfigWrite _ _, _, e => execHrcConfigWrite_foot (List.Subset.refl _) (e := e)
  | .lceInternalError _, _, e => execLceInternalError_foot (List.Subset.refl _) (e := e)
  | .nearTierModeWrite _, _, e => execNearTierModeWrite_foot (List.Subset.refl _) (e := e)
  | .nearTierStepZeroed, _, e => execNearTierStepZeroed_foot (List.Subset.refl _) (e := e)
  | .cacheInvalidationDone, _, e => execCacheInvalidationDone_foot (List.Subset.refl _) (e := e)
  | .patrolRead _ _, _, e => execPatrolRead_foot (List.Subset.refl _) (e := e)
  | .granuleMoveDone _, _, e => execGranuleMoveDone_foot (List.Subset.refl _) (e := e)
  | .refresh _, _, e => execRefresh_foot (List.Subset.refl _) (e := e)
  | .stackTempRead _, _, e => execStackTempRead_foot (List.Subset.refl _) (e := e)
  | .mcInternalError _, _, e => execMcInternalError_foot (List.Subset.refl _) (e := e)
  | .runTime _, _, e => execRunTime_foot (List.Subset.refl _) (e := e)
  | .rgCfgWrite _ _, _, e => execRgCfgWrite_foot (List.Subset.refl _) (e := e)
  | .tgStart _, _, e => execTgStart_foot (List.Subset.refl _) (e := e)
  | .tgStop _ _, _, e => execTgStop_foot (List.Subset.refl _) (e := e)
  | .tgRunDone _ _, _, e => execTgRunDone_foot (List.Subset.refl _) (e := e)
  | .flitReceive _ _ _ _, _, e => execFlitReceive_foot (List.Subset.refl _) (e := e)
  | .ackTimeout _, _, e => execAckTimeout_foot (List.Subset.refl _) (e := e)
  | .trainSet _ _ _ _, _, e => execTrainSet_foot (List.Subset.refl _) (e := e)
  | .degradeSet _ _ _, _, e => execDegradeSet_foot (List.Subset.refl _) (e := e)
  | .beatOrderedSet _ _ _, _, e => execBeatOrderedSet_foot (List.Subset.refl _) (e := e)
  | .delayReqSend _ _, _, e => execDelayReqSend_foot (List.Subset.refl _) (e := e)
  | .delayReq _ _ _ _ _, _, e => execDelayReq_foot (List.Subset.refl _) (e := e)
  | .delayRsp _ _ _ _ _ _, _, e => execDelayRsp_foot (List.Subset.refl _) (e := e)
  | .readRequest _ _, _, e => execReadRequest_foot (List.Subset.refl _) (e := e)
  | .writeRequest _, _, e => execWriteRequest_foot (List.Subset.refl _) (e := e)
  | .writeLs _, _, e => execWriteLs_foot (List.Subset.refl _) (e := e)
  | .addRequest _ _, _, e => execAddRequest_foot (List.Subset.refl _) (e := e)
  | .fadd _ _, _, e => execFadd_foot (List.Subset.refl _) (e := e)
  | .cas _ _, _, e => execCas_foot (List.Subset.refl _) (e := e)
  | .tsig _, _, e => execTsig_foot (List.Subset.refl _) (e := e)
  | .fwmsg _, _, e => execFwmsg_foot (List.Subset.refl _) (e := e)
  | .readRsp _, _, e => execReadRsp_foot (List.Subset.refl _) (e := e)
  | .ackResponse _, _, e => execAckResponse_foot (List.Subset.refl _) (e := e)
  | .atomRsp _, _, e => execAtomRsp_foot (List.Subset.refl _) (e := e)
  | .reservedOpcDiscard _, _, e => execReservedOpcDiscard_foot (List.Subset.refl _) (e := e)
  | .packetForward _, _, e => execPacketForward_foot (List.Subset.refl _) (e := e)
  | .requestTimeout _, _, e => execRequestTimeout_foot (List.Subset.refl _) (e := e)
  | .ethernetFrame _ _ _ _, _, e => execEthernetFrame_foot (List.Subset.refl _) (e := e)
  | .retransmitTimeout _, _, e => execRetransmitTimeout_foot (List.Subset.refl _) (e := e)
  | .rateRecovery _, _, e => execRateRecovery_foot (List.Subset.refl _) (e := e)
  | .ptpMessage _ _ _ _, _, e => execPtpMessage_foot (List.Subset.refl _) (e := e)
  | .laneFailure _ _, _, e => execLaneFailure_foot (List.Subset.refl _) (e := e)
  | .holdTimeout _, _, e => execHoldTimeout_foot (List.Subset.refl _) (e := e)
  | .portTrainingRetry _, _, e => execPortTrainingRetry_foot (List.Subset.refl _) (e := e)
  | .portModeWrite _ _, _, e => execPortModeWrite_foot (List.Subset.refl _) (e := e)
  | .portRetrain _ _, _, e => execPortRetrain_foot (List.Subset.refl _) (e := e)
  | .flowPortChange _ _, _, e => execFlowPortChange_foot (List.Subset.refl _) (e := e)
  | .beatUpstreamLoss, _, e => execBeatUpstreamLoss_foot (List.Subset.refl _) (e := e)
  | .fabricTableError _ _, _, e => execFabricTableError_foot (List.Subset.refl _) (e := e)
  | .sgCreate _ _, _, e => execSgCreate_foot (List.Subset.refl _) (e := e)
  | .sgRestart _ _, _, e => execSgRestart_foot (List.Subset.refl _) (e := e)
  | .sgDestroy _, _, e => execSgDestroy_foot (List.Subset.refl _) (e := e)
  | .stepGate _ _, _, e => execStepGate_foot (List.Subset.refl _) (e := e)
  | .gateExpiry _, _, e => execGateExpiry_foot (List.Subset.refl _) (e := e)
  | .kvPass _ _, _, e => execKvPass_foot (List.Subset.refl _) (e := e)
  | .kvPassCopyStart _ _, _, e => execKvPassCopyStart_foot (List.Subset.refl _) (e := e)
  | .batchEdit _ _, _, e => execBatchEdit_foot (List.Subset.refl _) (e := e)
  | .dbSqTail _ _ _, _, e => execDbSqTail_foot (List.Subset.refl _) (e := e)
  | .dbCqHead _ _ _, _, e => execDbCqHead_foot (List.Subset.refl _) (e := e)
  | .dbArm _ _ _, _, e => execDbArm_foot (List.Subset.refl _) (e := e)
  | .queueCreate _ _, _, e => execQueueCreate_foot (List.Subset.refl _) (e := e)
  | .queueDestroy _, _, e => execQueueDestroy_foot (List.Subset.refl _) (e := e)
  | .queueResume _, _, e => execQueueResume_foot (List.Subset.refl _) (e := e)
  | .nopCommand _ _, _, e => execNopCommand_foot (List.Subset.refl _) (e := e)
  | .task _ _, _, e => execTask_foot (List.Subset.refl _) (e := e)
  | .launch _ _, _, e => execLaunch_foot (List.Subset.refl _) (e := e)
  | .patch _ _ _, _, e => execPatch_foot (List.Subset.refl _) (e := e)
  | .waitCommand _ _, _, e => execWaitCommand_foot (List.Subset.refl _) (e := e)
  | .signalCommand _ _, _, e => execSignalCommand_foot (List.Subset.refl _) (e := e)
  | .signalPerform _, _, e => execSignalPerform_foot (List.Subset.refl _) (e := e)
  | .graphRegister _ _, _, e => execGraphRegister_foot (List.Subset.refl _) (e := e)
  | .graphRelease _, _, e => execGraphRelease_foot (List.Subset.refl _) (e := e)
  | .fenceCreate _, _, e => execFenceCreate_foot (List.Subset.refl _) (e := e)
  | .fenceDestroy _, _, e => execFenceDestroy_foot (List.Subset.refl _) (e := e)
  | .fenceSignal _, _, e => execFenceSignal_foot (List.Subset.refl _) (e := e)
  | .fenceQuery _, _, e => execFenceQuery_foot (List.Subset.refl _) (e := e)
  | .hqCreate _, _, e => execHqCreate_foot (List.Subset.refl _) (e := e)
  | .hqDestroy _, _, e => execHqDestroy_foot (List.Subset.refl _) (e := e)
  | .completionEntryWrite _, _, e => execCompletionEntryWrite_foot (List.Subset.refl _) (e := e)
  | .queueLoad _ _, _, e => execQueueLoad_foot (List.Subset.refl _) (e := e)
  | .queueUnload _, _, e => execQueueUnload_foot (List.Subset.refl _) (e := e)
  | .walkerBind _ _, _, e => execWalkerBind_foot (List.Subset.refl _) (e := e)
  | .dispatch _, _, e => execDispatch_foot (List.Subset.refl _) (e := e)
  | .taskSteal _, _, e => execTaskSteal_foot (List.Subset.refl _) (e := e)
  | .turnBoundary _, _, e => execTurnBoundary_foot (List.Subset.refl _) (e := e)
  | .roundBoundary, _, e => execRoundBoundary_foot (List.Subset.refl _) (e := e)
  | .watchdogExpiry _, _, e => execWatchdogExpiry_foot (List.Subset.refl _) (e := e)
  | .deadlockScan _, _, e => execDeadlockScan_foot (List.Subset.refl _) (e := e)
  | .turnTableCommit _ _, _, e => execTurnTableCommit_foot (List.Subset.refl _) (e := e)
  | .roundLengthWrite _, _, e => execRoundLengthWrite_foot (List.Subset.refl _) (e := e)
  | .partSchedWrite _ _, _, e => execPartSchedWrite_foot (List.Subset.refl _) (e := e)
  | .twSet _, _, e => execTwSet_foot (List.Subset.refl _) (e := e)
  | .twGet _, _, e => execTwGet_foot (List.Subset.refl _) (e := e)
  | .barrierBind _, _, e => execBarrierBind_foot (List.Subset.refl _) (e := e)
  | .barrierUnbind _, _, e => execBarrierUnbind_foot (List.Subset.refl _) (e := e)
  | .ctxCreate, _, e => execCtxCreate_foot (List.Subset.refl _) (e := e)
  | .ctxDestroy _, _, e => execCtxDestroy_foot (List.Subset.refl _) (e := e)
  | .teardownDrainExpiry _, _, e => execTeardownDrainExpiry_foot (List.Subset.refl _) (e := e)
  | .objectDestroy, _, e => execObjectDestroy_foot (List.Subset.refl _) (e := e)
  | .allocationZeroed _, _, e => execAllocationZeroed_foot (List.Subset.refl _) (e := e)
  | .xlatInval _, _, e => execXlatInval_foot (List.Subset.refl _) (e := e)
  | .memAlloc _, _, e => execMemAlloc_foot (List.Subset.refl _) (e := e)
  | .memLookup _, _, e => execMemLookup_foot (List.Subset.refl _) (e := e)
  | .memShare _, _, e => execMemShare_foot (List.Subset.refl _) (e := e)
  | .memUnmap _, _, e => execMemUnmap_foot (List.Subset.refl _) (e := e)
  | .memRef _, _, e => execMemRef_foot (List.Subset.refl _) (e := e)
  | .memUnref _, _, e => execMemUnref_foot (List.Subset.refl _) (e := e)
  | .vaiCreate, _, e => execVaiCreate_foot (List.Subset.refl _) (e := e)
  | .vaiDestroy, _, e => execVaiDestroy_foot (List.Subset.refl _) (e := e)
  | .vaiGrant, _, e => execVaiGrant_foot (List.Subset.refl _) (e := e)
  | .revokeZeroed _ _, _, e => execRevokeZeroed_foot (List.Subset.refl _) (e := e)
  | .partScratch, _, e => execPartScratch_foot (List.Subset.refl _) (e := e)
  | .reconfig, _, e => execReconfig_foot (List.Subset.refl _) (e := e)
  | .reconfigDrainExpiry, _, e => execReconfigDrainExpiry_foot (List.Subset.refl _) (e := e)
  | .scrubComplete _, _, e => execScrubComplete_foot (List.Subset.refl _) (e := e)
  | .migStart, _, e => execMigStart_foot (List.Subset.refl _) (e := e)
  | .migStop, _, e => execMigStop_foot (List.Subset.refl _) (e := e)
  | .migHarvest, _, e => execMigHarvest_foot (List.Subset.refl _) (e := e)
  | .vaiPause, _, e => execVaiPause_foot (List.Subset.refl _) (e := e)
  | .vaiResume, _, e => execVaiResume_foot (List.Subset.refl _) (e := e)
  | .migStateSave, _, e => execMigStateSave_foot (List.Subset.refl _) (e := e)
  | .migStateLoad _, _, e => execMigStateLoad_foot (List.Subset.refl _) (e := e)
  | .mbPost _ _, _, e => execMbPost_foot (List.Subset.refl _) (e := e)
  | .mailboxTake _, _, e => execMailboxTake_foot (List.Subset.refl _) (e := e)
  | .mbAckRelease _ _, _, e => execMbAckRelease_foot (List.Subset.refl _) (e := e)
  | .eventRecordWrite _, _, e => execEventRecordWrite_foot (List.Subset.refl _) (e := e)
  | .holdoffExpiry _, _, e => execHoldoffExpiry_foot (List.Subset.refl _) (e := e)
  | .pendingClear _, _, e => execPendingClear_foot (List.Subset.refl _) (e := e)
  | .swset _, _, e => execSwset_foot (List.Subset.refl _) (e := e)
  | .icSync _, _, e => execIcSync_foot (List.Subset.refl _) (e := e)
  | .sourceConfigWrite _ _, _, e => execSourceConfigWrite_foot (List.Subset.refl _) (e := e)
  | .eventQueueHeadWrite _ _, _, e => execEventQueueHeadWrite_foot (List.Subset.refl _) (e := e)
  | .heartbeat _, _, e => execHeartbeat_foot (List.Subset.refl _) (e := e)
  | .stewardHang _, _, e => execStewardHang_foot (List.Subset.refl _) (e := e)
  | .csbImageCheck, _, e => execCsbImageCheck_foot (List.Subset.refl _) (e := e)
  | .strataBondTest _ _ _ _ _, _, e => execStrataBondTest_foot (List.Subset.refl _) (e := e)
  | .stackTraining _ _ _ _, _, e => execStackTraining_foot (List.Subset.refl _) (e := e)
  | .portTrainingTimeout, _, e => execPortTrainingTimeout_foot (List.Subset.refl _) (e := e)
  | .reportReady _, _, e => execReportReady_foot (List.Subset.refl _) (e := e)
  | .recoveryGo _, _, e => execRecoveryGo_foot (List.Subset.refl _) (e := e)
  | .fwStage _, _, e => execFwStage_foot (List.Subset.refl _) (e := e)
  | .fwHandover, _, e => execFwHandover_foot (List.Subset.refl _) (e := e)
  | .handoverStart, _, e => execHandoverStart_foot (List.Subset.refl _) (e := e)
  | .handoverComplete, _, e => execHandoverComplete_foot (List.Subset.refl _) (e := e)
  | .handoverTimeout, _, e => execHandoverTimeout_foot (List.Subset.refl _) (e := e)
  | .fwCommit, _, e => execFwCommit_foot (List.Subset.refl _) (e := e)
  | .flashWriteDone, _, e => execFlashWriteDone_foot (List.Subset.refl _) (e := e)
  | .fwAbort, _, e => execFwAbort_foot (List.Subset.refl _) (e := e)
  | .arraySwap _, _, e => execArraySwap_foot (List.Subset.refl _) (e := e)
  | .sectorOffline, _, e => execSectorOffline_foot (List.Subset.refl _) (e := e)
  | .sectorOnline, _, e => execSectorOnline_foot (List.Subset.refl _) (e := e)
  | .arrayGate _, _, e => execArrayGate_foot (List.Subset.refl _) (e := e)
  | .stackSelfRefreshEntry _, _, e => execStackSelfRefreshEntry_foot (List.Subset.refl _) (e := e)
  | .sectorDozeEntry _, _, e => execSectorDozeEntry_foot (List.Subset.refl _) (e := e)
  | .blockRestEntry, _, e => execBlockRestEntry_foot (List.Subset.refl _) (e := e)
  | .wakeComplete _, _, e => execWakeComplete_foot (List.Subset.refl _) (e := e)
  | .prewake _, _, e => execPrewake_foot (List.Subset.refl _) (e := e)
  | .vaiWakeTol, _, e => execVaiWakeTol_foot (List.Subset.refl _) (e := e)
  | .cpbRateChoice _, _, e => execCpbRateChoice_foot (List.Subset.refl _) (e := e)
  | .beatSet, _, e => execBeatSet_foot (List.Subset.refl _) (e := e)
  | .masterElection, _, e => execMasterElection_foot (List.Subset.refl _) (e := e)
  | .beatSourceLoss, _, e => execBeatSourceLoss_foot (List.Subset.refl _) (e := e)
  | .ledgerSnapshot, _, e => execLedgerSnapshot_foot (List.Subset.refl _) (e := e)
  | .ledgerHeadWrite _, _, e => execLedgerHeadWrite_foot (List.Subset.refl _) (e := e)
  | .queueReset _, _, e => execQueueReset_foot (List.Subset.refl _) (e := e)
  | .queueResetSettled _, _, e => execQueueResetSettled_foot (List.Subset.refl _) (e := e)
  | .blockReset, _, e => execBlockReset_foot (List.Subset.refl _) (e := e)
  | .blockResetDrainExpiry, _, e => execBlockResetDrainExpiry_foot (List.Subset.refl _) (e := e)
  | .resetSequenceEnd, _, e => execResetSequenceEnd_foot (List.Subset.refl _) (e := e)
  | .contextRestore _, _, e => execContextRestore_foot (List.Subset.refl _) (e := e)
  | .meshFatalError, _, e => execMeshFatalError_foot (List.Subset.refl _) (e := e)
  | .breset _, _, e => execBreset_foot (List.Subset.refl _) (e := e)
  | .reinstate _, _, e => execReinstate_foot (List.Subset.refl _) (e := e)
  | .dumpClr _, _, e => execDumpClr_foot (List.Subset.refl _) (e := e)
  | .dumpCopy _, _, e => execDumpCopy_foot (List.Subset.refl _) (e := e)
  | .dumpCopyDone _, _, e => execDumpCopyDone_foot (List.Subset.refl _) (e := e)
  | .dumpFlashCopy, _, e => execDumpFlashCopy_foot (List.Subset.refl _) (e := e)
  | .errLogHeadWrite _, _, e => execErrLogHeadWrite_foot (List.Subset.refl _) (e := e)
  | .getMeasurements _ _, _, e => execGetMeasurements_foot (List.Subset.refl _) (e := e)
  | .keyExchange _ _, _, e => execKeyExchange_foot (List.Subset.refl _) (e := e)
  | .endSession _ _, _, e => execEndSession_foot (List.Subset.refl _) (e := e)
  | .spdmMessage _ _, _, e => execSpdmMessage_foot (List.Subset.refl _) (e := e)
  | .sessionHeartbeatTimeout _, _, e => execSessionHeartbeatTimeout_foot (List.Subset.refl _) (e := e)
  | .sealBind _ _ _, _, e => execSealBind_foot (List.Subset.refl _) (e := e)
  | .sealWindow _ _ _, _, e => execSealWindow_foot (List.Subset.refl _) (e := e)
  | .sealRotate _ _ _, _, e => execSealRotate_foot (List.Subset.refl _) (e := e)
  | .sealUnbind _ _ _, _, e => execSealUnbind_foot (List.Subset.refl _) (e := e)
  | .spdmXfer _, _, e => execSpdmXfer_foot (List.Subset.refl _) (e := e)
  | .attestReport _, _, e => execAttestReport_foot (List.Subset.refl _) (e := e)
  | .scrubReceipt _, _, e => execScrubReceipt_foot (List.Subset.refl _) (e := e)
  | .remoteUpdateRecords _, _, e => execRemoteUpdateRecords_foot (List.Subset.refl _) (e := e)
  | .hotRowCacheEmptied _, _, e => execHotRowCacheEmptied_foot (List.Subset.refl _) (e := e)
  | .arraySelfTestDone _ _, _, e => execArraySelfTestDone_foot (List.Subset.refl _) (e := e)
  | .systemCallReply _, _, e => execSystemCallReply_foot (List.Subset.refl _) (e := e)
  | .dumpFlashCopyDone, _, e => execDumpFlashCopyDone_foot (List.Subset.refl _) (e := e)
  | .debugPortAccess _, _, e => execDebugPortAccess_foot (List.Subset.refl _) (e := e)
  | .msixVectorUnmask _ _, _, e => execMsixVectorUnmask_foot (List.Subset.refl _) (e := e)
  | .maxStateWrite _, _, e => execMaxStateWrite_foot (List.Subset.refl _) (e := e)

/-- Memory after the assertion of COLD_RST_N holds no byte, whatever it held before. -/
theorem coldResetAssert_cells {s t : State} (h : exec .coldResetAssert s = .next t) : t.mem.cells = [] := by
  cases h
  rfl

/-- A command keeps memory in canonical form. -/
theorem exec_wf {c : Instr} {s t : State} (hs : Memory.wf s.mem.cells = true) (h : exec c s = .next t) :
    Memory.wf t.mem.cells = true := by
  by_cases hc : c = .coldResetAssert
  · subst hc
    rw [coldResetAssert_cells h]
    rfl
  · exact (exec_foot c hc h).wf hs

/-- What a step can do: idle on an empty queue, or run the front command. -/
theorem step_cases {s t : State} (h : step s = .next t) :
    s.pending = [] ∧ t = s ∨ ∃ c r, s.pending = c :: r ∧ exec c { s with pending := r } = .next t := by
  unfold step at h
  cases hp : s.pending with
  | nil =>
    rw [hp] at h
    cases h
    exact .inl ⟨rfl, rfl⟩
  | cons c r =>
    rw [hp] at h
    exact .inr ⟨c, r, rfl, h⟩

/-- Settles O57: an idle step keeps the state, and the front command keeps the form by `exec_wf`. -/
theorem memoryStaysCanonical : Obligations.MemoryStaysCanonical := by
  intro s t hs h
  obtain ⟨-, rfl⟩ | ⟨c, r, -, h⟩ := step_cases h
  · exact hs
  · exact exec_wf (s := { s with pending := r }) hs h

end Sys2Proof.Proofs
end

section
/-!
The state after reset.
-/
namespace Sys2Proof.Proofs
open Sys2Proof Sys2Proof.Machine Sys2Proof.Laws

/-- A register that nothing has written holds the reset value of its row. -/
theorem regGet_reset (off : Nat) : regGet State.reset off = (w32 (regReset off)).toNat := rfl

/-- Settles O60: the units of the reset state are empty by definition, and each listed register has its row's reset value. -/
theorem resetState : Obligations.ResetState := by
  refine ⟨rfl, rfl, rfl, rfl, rfl, rfl, rfl, rfl, rfl, ?_⟩
  simp only [regGet_reset]
  decide

end Sys2Proof.Proofs
end

section
/-!
Register accesses (R16): the odd words of the run counters, which `wide0` names and no read latches.
-/
namespace Sys2Proof.Proofs
open Sys2Proof Sys2Proof.Machine Sys2Proof.Laws

/-- A block in service with no latched word. -/
def served : State := { blk := { coldLow := false, bootState := 6, ireqReady := true } }

/-- At the high word of a 64-bit register no register begins, so a read there latches nothing. -/
theorem readPlain_hiLatch_odd (req off : Nat) (s : State) (h : off % 8 ≠ 0) :
    ∀ e ∈ (readPlain .bar0 req off s).blk.hiLatch, e ∈ s.blk.hiLatch := by
  have hw : wideAt s .bar0 off = none := by simp [wideAt, h]
  intro e he
  unfold readPlain at he
  simp only [hw] at he
  split at he
  · exact he
  · split at he
    · exact List.mem_of_mem_erase he
    · exact he

/-- Refutes O12: the third clause takes every offset where `wide0` answers to hold a low word. But `wide0` answers at each offset of the
groups of counters that it names by range, and 0xA00204 is the high word of `MC_RUNS_0` (R285): its read in `served` latches nothing, as
R16 has it, where the clause asks for a latched word. -/
theorem not_registerAccesses : ¬ Obligations.RegisterAccesses := by
  unfold Obligations.RegisterAccesses
  rintro ⟨-, -, hlow, -⟩
  obtain ⟨t, ht, -, hmem, -⟩ := hlow served 0 0xA00204 0 ⟨rfl, rfl⟩ rfl (by decide) rfl (by decide) (by decide)
  have he : exec (.lowWordRead .bar0 0 0xA00204) served = .next (readPlain .bar0 0 0xA00204 served) := by rfl
  rw [he] at ht
  cases ht
  exact List.not_mem_nil (readPlain_hiLatch_odd 0 0xA00204 served (by decide) _ hmem)

end Sys2Proof.Proofs
end

section
/-!
The far tier as the host finds it (chapter 1): what an access changes, and what the errors found in a read leave alone.
-/
namespace Sys2Proof.Proofs
open Sys2Proof Sys2Proof.Machine Sys2Proof.Laws

/-! ## Runs and the cache -/

/-- From `s` to `t` only run queues and the near-tier cache may differ. -/
def Cached (s t : State) : Prop :=
  ∃ q c, t = { s with rg := { s.rg with queue := q }, mem := { s.mem with cache := c } }

theorem Cached.refl (s : State) : Cached s s := ⟨_, _, rfl⟩

theorem Cached.trans {s t u : State} (h : Cached s t) (k : Cached t u) : Cached s u := by
  obtain ⟨q, c, rfl⟩ := h
  obtain ⟨q', c', rfl⟩ := k
  exact ⟨q', c', rfl⟩

theorem queueRun_cached (o : RunOwner) (r a : Nat) (part : Bool) (s : State) : Cached s (queueRun o r a part s) := by
  unfold queueRun
  split
  · exact ⟨_, _, rfl⟩
  · exact .refl s

theorem cacheTouch_cached (line : Nat) (s : State) : Cached s (cacheTouch line s) := by
  unfold cacheTouch
  split
  · exact ⟨_, _, rfl⟩
  · exact .refl s

theorem cacheFill_cached (line p : Nat) (s : State) : Cached s (cacheFill line p s) := by
  unfold cacheFill
  split
  · exact .refl s
  · exact ⟨_, _, rfl⟩

theorem accessRun_cached (o : RunOwner) (r : Nat) (alloc : Option Nat) (w : Bool) (a n : Nat) (s : State) :
    Cached s (accessRun o r alloc w a n s) := by
  have hq : Cached s (if cacheHit s (a / 256) && !w then s else queueRun o r a (w && n != 256) s) := by
    split
    · exact .refl s
    · exact queueRun_cached o r a _ s
  unfold accessRun
  dsimp only
  split
  · exact hq.trans (cacheTouch_cached _ _)
  · split
    · exact hq.trans (cacheFill_cached _ _ _)
    · exact hq

theorem each_cached {α : Type} (l : List α) (f : α → State → State) (hf : ∀ x s, Cached s (f x s)) (s : State) :
    Cached s (each l f s) := by
  induction l generalizing s with
  | nil => exact .refl s
  | cons x l ih => exact (hf x s).trans (ih (f x s))

theorem access_cached (o : RunOwner) (r : Nat) (alloc : Option Nat) (w : Bool) (a n : Nat) (s : State) :
    Cached s (access o r alloc w a n s) := by
  unfold access
  split
  · exact each_cached _ _ (fun (p : Nat × Nat) s => accessRun_cached o r alloc w p.1 p.2 s) s
  · exact .refl s

/-- An access of the host, which wakes the block, leaves what every address reads as. -/
theorem hostAccess_reads (o : RunOwner) (r : Nat) (alloc : Option Nat) (w : Bool) (a n : Nat) (s : State) :
    let t := access o r alloc w a n (wakeBlock s)
    (∀ x k, readMem t x k = readMem s x k) ∧ (∀ x k, poisonIn t x k = poisonIn s x k) ∧
      (∀ x, retiredAt t x = retiredAt s x) ∧ t.mem.cells = s.mem.cells := by
  obtain ⟨q, c, h⟩ := access_cached o r alloc w a n (wakeBlock s)
  dsimp only
  rw [h]
  exact ⟨fun _ _ => rfl, fun _ _ => rfl, fun _ => rfl, rfl⟩

/-! ## Errors found in a read -/

/-- What decides whether the host finds the far tier, of the units that an error found in a read may write: the state of the stacks and
of the block reset. -/
def gateOf (s : State) : Tbl Stack × Option Nat × Nat := (s.mem.stack, s.err.bPending, s.err.state)

theorem each_gateOf {α : Type} (l : List α) (f : α → State → State) (hf : ∀ x s, gateOf (f x s) = gateOf s) (s : State) :
    gateOf (each l f s) = gateOf s := by
  induction l generalizing s with
  | nil => rfl
  | cons x l ih => exact (ih (f x s)).trans (hf x s)

theorem Cached.gateOf {s t : State} (h : Cached s t) : gateOf t = gateOf s := by
  obtain ⟨q, c, rfl⟩ := h
  rfl

theorem gateOf_access (o : RunOwner) (r : Nat) (alloc : Option Nat) (w : Bool) (a n : Nat) (s : State) :
    gateOf (access o r alloc w a n s) = gateOf s := (access_cached o r alloc w a n s).gateOf

theorem gateOf_reportCe (kind index type detail : Nat) (s : State) :
    gateOf (reportCe kind index type detail s) = gateOf s := by
  unfold reportCe report
  split
  · rfl
  · by_cases hfull : openRecs s ≥ (if (0 : Nat) = 0 then 3840 else 4096)
    · rw [if_pos hfull]
      rfl
    · rw [if_neg hfull]
      rfl

theorem gateOf_chooseGranule {v k : Nat} {s t : State} (h : chooseGranule v s = some (k, t)) : gateOf t = gateOf s := by
  have hf := chooseGranule_foot (List.Subset.refl _) v h (Foot.refl _ s)
  have hm := hf.mem.resolve_left (by decide)
  have he := hf.err.resolve_left (by decide)
  simp only [gateOf, hm, he]

theorem gateOf_startMove (g : Nat) (s : State) : gateOf (startMove g s).2 = gateOf s := by
  unfold startMove
  split
  · rfl
  · split
    · rfl
    · rename_i h
      rw [gateOf_access]
      have hc := gateOf_chooseGranule h
      exact hc

theorem gateOf_retarget (m : Nat × Nat) (s : State) : gateOf (retarget m s) = gateOf s := by
  unfold retarget
  dsimp only
  split
  · rfl
  · split
    · rfl
    · rename_i h
      have hc := gateOf_chooseGranule h
      exact hc

theorem gateOf_mapOutCheck (c : Nat) (s : State) : gateOf (mapOutCheck c s) = gateOf s := by
  unfold mapOutCheck
  split <;> rfl

theorem gateOf_dropChan (c : Nat) (s : State) : gateOf (dropChan c s) = gateOf s := rfl

theorem gateOf_modChan (c : Nat) (f : Chan → Chan) (s : State) : gateOf (modChan c f s) = gateOf s := rfl

theorem gateOf_countRetired (n : Nat) (s : State) : gateOf (countRetired n s) = gateOf s := rfl

theorem gateOf_mapOut (c : Nat) (s : State) : gateOf (mapOut c s) = gateOf s := by
  unfold mapOut
  split
  · rfl
  · dsimp only
    rw [gateOf_mapOutCheck, gateOf_dropChan, each_gateOf, each_gateOf _ _ gateOf_retarget, gateOf_countRetired, gateOf_modChan]
    intro g s
    split
    · rfl
    · exact gateOf_startMove g s

theorem gateOf_retireGranule (g : Nat) (s : State) : gateOf (retireGranule g s) = gateOf s := by
  unfold retireGranule
  dsimp only
  split
  · rfl
  · split
    · rfl
    · split
      · rw [gateOf_mapOut]
        rfl
      · rfl

theorem gateOf_failGranule (a : Nat) (s : State) : gateOf (failGranule a s) = gateOf s := by
  unfold failGranule
  dsimp only
  split
  · rfl
  · split
    · exact (gateOf_access ..).trans (gateOf_access ..)
    · split
      · exact gateOf_startMove _ s
      · exact gateOf_retireGranule _ s

theorem gateOf_corrected (a : Nat) (s : State) : gateOf (corrected a s) = gateOf s := by
  unfold corrected
  dsimp only
  split
  · split
    · rw [gateOf_failGranule]
      exact gateOf_reportCe ..
    · exact gateOf_reportCe ..
  · exact gateOf_reportCe ..

theorem gateOf_uncorrectable (a : Nat) (s : State) : gateOf (uncorrectable a s) = gateOf s := by
  unfold uncorrectable
  dsimp only
  split
  · rw [gateOf_failGranule]
    exact gateOf_reportCe ..
  · exact gateOf_reportCe ..

theorem gateOf_cacheError (line : Nat) (bad : Bool) (s : State) : gateOf (cacheError line bad s) = gateOf s := by
  unfold cacheError
  dsimp only
  split <;> exact gateOf_reportCe ..

theorem gateOf_memErrors (a n : Nat) (l : List MemError) (s : State) : gateOf (memErrors a n l s) = gateOf s := by
  refine each_gateOf _ _ (fun e s => ?_) s
  unfold memError
  split
  · exact gateOf_cacheError ..
  · split
    · exact gateOf_corrected ..
    · exact gateOf_uncorrectable ..

/-- The errors found in a read leave the far tier as open to the host as it was. -/
theorem farOpen_memErrors {s : State} {a n : Nat} (x k : Nat) (l : List MemError) (h : FarOpen s a n) :
    FarOpen (memErrors x k l s) a n := by
  have hf := memErrors_foot (List.Subset.refl _) x k l (Foot.refl _ s)
  have hb := hf.blk.resolve_left (by decide)
  have hfe := hf.fe.resolve_left (by decide)
  have hg := gateOf_memErrors x k l s
  simp only [gateOf, Prod.mk.injEq] at hg
  obtain ⟨hst, hbp, hes⟩ := hg
  simpa only [FarOpen, Live, inService, hostShut, resetWindow, stackGone, stackAt, hb, hfe, hst, hbp, hes] using h

end Sys2Proof.Proofs
end

section
/-!
Host accesses to the far tier, malformed accesses, and completions of the block's own reads (R12, R17, R31 to R38, R295).
-/
namespace Sys2Proof.Proofs
open Sys2Proof Sys2Proof.Machine Sys2Proof.Laws

/-! ## Answers that leave as one message (R295) -/

section
variable {a : Machine.Answer} {o : Out} (ho : ∀ u, release a u = emit o u)
include ho

/-- Such an answer leaves, or waits with its number. -/
theorem answerWhen_answered {s u : State} (hp : u.ports = s.ports) : Answered s (answerWhen s.rg.reqs a u) a o := by
  cases hw : idWaits u s.rg.reqs with
  | true =>
    rw [answerWhen_held a hw]
    exact .inr ⟨congrArg Ports.out hp, List.mem_append_right _ (List.mem_singleton.2 rfl), hw⟩
  | false =>
    rw [answerWhen_now a hw, ho]
    exact .inl (congrArg (fun p : Ports => p.out ++ [o]) hp)

/-- It touches nothing but the held answers and the ports. -/
theorem answerWhen_emit_foot {W : List Area} {r u : State} (hW : [.rg, .ports] ⊆ W) (i : Nat) (h : Foot W r u) :
    Foot W r (answerWhen i a u) := by
  cases hw : idWaits u i with
  | true =>
    rw [answerWhen_held a hw]
    exact { h with rg := .inl (hW (by decide)) }
  | false =>
    rw [answerWhen_now a hw, ho]
    exact emit_foot (less hW) o h

/-- A read of the host answers with an access to memory that it leaves alone. -/
theorem hostRead_answered {s v : State} (x n : Nat) (hp : v.ports = s.ports) :
    let t := answerWhen s.rg.reqs a (access (.host v.rg.reqs) 12 none false x n (wakeBlock v))
    Answered s t a o ∧ Frame [.rg, .mem, .pm, .ports] v t ∧ same .cells v t := by
  have hu : Foot [.rg, .mem, .pm, .ports] v (access (.host v.rg.reqs) 12 none false x n (wakeBlock v)) :=
    access_foot (by decide) _ _ _ _ _ _ (wakeBlock_foot (by decide) (Foot.refl _ v))
  have hf := (answerWhen_emit_foot ho (by decide) s.rg.reqs hu).frame
  refine ⟨answerWhen_answered ho ?_, hf, hf .cells (by decide)⟩
  exact ((access_foot (W := [.rg, .mem, .pm]) (by decide) _ _ _ _ _ _
    (wakeBlock_foot (by decide) (Foot.refl _ v))).ports.resolve_left (by decide)).trans hp

end

/-! ## Reads -/

theorem hostReadFar_open {s : State} {a n : Nat} (h : FarOpen s a n) :
    hostReadFar a n s =
      (readMem s a n, poisonIn s a n, access (.host s.rg.reqs) 12 none false a n (wakeBlock s)) := by
  obtain ⟨-, -, hin, hshut, htop, hg1, hg2⟩ := h
  obtain ⟨hr, hp, -, -⟩ := hostAccess_reads (.host s.rg.reqs) 12 none false a n s
  simp [hostReadFar, hin, hshut, Nat.not_lt.2 htop, hg1, hg2, hr, hp]

theorem hostLive_open {s : State} {a n : Nat} (h : FarOpen s a n) : hostLive s a n = true := by
  obtain ⟨-, -, hin, hshut, htop, hg1, -⟩ := h
  simp [hostLive, hin, hshut, htop, hg1]

theorem hostShut_reset {s : State} (h : resetWindow s = true) (a : Nat) : hostShut s a = true := by
  simp [hostShut, h]

/-- The errors found in a read leave the ports alone. -/
theorem memErrors_ports (x k : Nat) (l : List MemError) (s : State) : (memErrors x k l s).ports = s.ports :=
  (memErrors_foot (List.Subset.refl _) x k l (Foot.refl _ s)).ports.resolve_left (by decide)

theorem exec_bar4Read_open {s : State} {off len : Nat} (tag : Nat) (ecc : List MemError) (h : FarOpen s off len) :
    let v := memErrors off len ecc s
    let a := readMem v off len
    ∃ t, exec (.bar4Read off len tag ecc) s = .next t ∧
      Answered s t (.icpl tag a (poisonIn v off len)) (.icpl tag a (poisonIn v off len)) ∧
      Frame [.rg, .mem, .pm, .ports] v t ∧ same .cells v t := by
  intro v a
  refine ⟨_, ?_, hostRead_answered (fun _ => rfl) off len (memErrors_ports off len ecc s)⟩
  show execBar4Read off len tag ecc s = _
  simp only [execBar4Read, run_live _ h.1, h.2.1, guarded_true, hostLive_open h, if_true]
  rw [hostReadFar_open (farOpen_memErrors off len ecc h)]

theorem exec_bar4Read_reset {s : State} (off len tag : Nat) (ecc : List MemError) (hl : Live s) (hr : s.blk.ireqReady = true)
    (hw : resetWindow s = true) :
    let a := List.replicate len 0xFF
    ∃ t, exec (.bar4Read off len tag ecc) s = .next t ∧ Answered s t (.icpl tag a false) (.icpl tag a false) ∧
      Frame [.rg, .ports] s t := by
  intro a
  have ho : ∀ u, release (.icpl tag a false) u = emit (.icpl tag a false) u := fun _ => rfl
  refine ⟨_, ?_, answerWhen_answered ho rfl, (answerWhen_emit_foot ho (by decide) s.rg.reqs (Foot.refl _ s)).frame⟩
  show execBar4Read off len tag ecc s = _
  simp [execBar4Read, run_live _ hl, hr, hostLive, hostReadFar, hostShut_reset hw, a, ones]

theorem exec_cmemRead_open {s : State} {a : Nat} (tag : Nat) (ecc : List MemError) (h : FarOpen s a 64)
    (hx : bit (regGet s 0x8) 19 = true) (ha : a % 64 = 0) :
    let v := memErrors a 64 ecc s
    let d := readMem v a 64
    ∃ t, exec (.cmemRequest false a tag [] false ecc) s = .next t ∧
      Answered s t (.cmem tag d (poisonIn v a 64)) (.cmemRsp tag d (poisonIn v a 64)) ∧ same .cells v t := by
  intro v d
  obtain ⟨hans, -, hc⟩ := hostRead_answered (a := .cmem tag d (poisonIn v a 64)) (o := .cmemRsp tag d (poisonIn v a 64))
    (fun _ => rfl) a 64 (memErrors_ports a 64 ecc s)
  refine ⟨_, ?_, hans, hc⟩
  show execCmemRequest false a tag [] false s ecc = _
  simp only [execCmemRequest, run_live _ h.1, h.2.1, hx, ha, hostLive_open h, decide_true, Bool.and_self, guarded_true,
    if_true, Bool.false_eq_true, if_false]
  rw [hostReadFar_open (farOpen_memErrors a 64 ecc h)]

end Sys2Proof.Proofs
end

section
/-!
Writes of memory by the host, and completions.
-/
namespace Sys2Proof.Proofs
open Sys2Proof Sys2Proof.Machine Sys2Proof.Laws

/-! ## Writing memory granule by granule (R12) -/

theorem putBytes_append (t : Tbl Byte) (a : Nat) (l m : List Byte) :
    putBytes t a (l ++ m) = putBytes (putBytes t a l) (a + l.length) m := by
  induction l generalizing t a with
  | nil => rfl
  | cons b l ih =>
    simp only [List.cons_append, putBytes, ih, List.length_cons]
    rw [Nat.add_right_comm, Nat.add_assoc]

/-- Whether storage is retired does not depend on what it holds. -/
theorem writeGranule_live {s : State} {a : Nat} (data : List Byte) (bad : Bool) (h : retiredAt s a = false) :
    (writeGranule a data bad s).mem.cells = putBytes s.mem.cells a data ∧
      ∀ x, retiredAt (writeGranule a data bad s) x = retiredAt s x := by
  simp only [writeGranule, h, Bool.false_eq_true, if_false]
  exact ⟨trivial, fun _ => rfl⟩

/-- Writing the pieces of a range with storage, whatever their marks, writes the range. -/
theorem each_writeGranule_cells (bad : Nat → Bool) (fuel a : Nat) (l : List Byte) (m : List Nat) (s : State)
    (hm : (cutAt 64 fuel a l).length ≤ m.length) (hf : l.length ≤ fuel)
    (hr : ∀ x, a ≤ x → x < a + l.length → retiredAt s x = false) :
    (each ((cutAt 64 fuel a l).zip m) (fun p s => writeGranule p.1.1 p.1.2 (bad p.2) s) s).mem.cells =
      putBytes s.mem.cells a l := by
  induction fuel generalizing a l m s with
  | zero =>
    obtain rfl : l = [] := List.length_eq_zero_iff.1 (by omega)
    rfl
  | succ fuel ih =>
    cases l with
    | nil => rfl
    | cons b r =>
      cases m with
      | nil => simp [cutAt] at hm
      | cons k m =>
        obtain ⟨n, hn⟩ : ∃ n, n = 64 - a % 64 := ⟨_, rfl⟩
        have hpos : 0 < n := by omega
        obtain ⟨hc, hret⟩ := writeGranule_live ((b :: r).take n) (bad k) (hr a (Nat.le_refl a) (by simp))
        simp only [cutAt, List.isEmpty_cons, Bool.false_eq_true, if_false, ← hn, List.length_cons, Nat.add_le_add_iff_right] at hm ⊢
        simp only [each, List.zip_cons_cons, List.foldl_cons]
        have hstep := ih (a + n) ((b :: r).drop n) m (writeGranule a ((b :: r).take n) (bad k) s) hm
          (by simp only [List.length_drop, List.length_cons] at hf ⊢; omega)
          (fun x hx hlt => by
            rw [hret]
            simp only [List.length_drop] at hlt
            exact hr x (by omega) (by omega))
        refine hstep.trans ?_
        rw [hc]
        by_cases hlong : n ≤ (b :: r).length
        · conv_rhs => rw [← List.take_append_drop n (b :: r), putBytes_append, List.length_take, Nat.min_eq_left hlong]
        · rw [List.drop_eq_nil_of_le (by omega), List.take_of_length_le (by omega)]
          rfl

theorem writeMem_cells {s : State} {a : Nat} {l : List Byte} (bad : Nat → Bool)
    (hr : ∀ x, a ≤ x → x < a + l.length → retiredAt s x = false) :
    (writeMem a l bad s).mem.cells = putBytes s.mem.cells a l := by
  have hlog : (logWrite a l.length s).mem = s.mem :=
    (logWrite_foot (List.Subset.refl _) a l.length (Foot.refl _ s)).mem.resolve_left (by decide)
  have hret : ∀ x, retiredAt (logWrite a l.length s) x = retiredAt s x := fun x => by
    simp only [retiredAt, chanAt, moving, hlog]
  unfold writeMem
  rw [each_writeGranule_cells bad _ _ _ _ _ (by simp) (Nat.le_refl _) (fun x h1 h2 => (hret x).trans (hr x h1 h2)), hlog]

/-- A host write to far memory with storage writes its bytes and nothing else. -/
theorem hostWriteFar_open {s : State} {a : Nat} {l : List Byte} (bad : Bool) (h : FarOpen s a l.length)
    (hr : ∀ x, a ≤ x → x < a + l.length → retiredAt s x = false) :
    (hostWriteFar a l bad s).mem.cells = putBytes s.mem.cells a l := by
  obtain ⟨-, -, hin, hshut, htop, hg1, hg2⟩ := h
  obtain ⟨-, -, hret, hcells⟩ := hostAccess_reads (.host s.rg.reqs) 12 none true a l.length s
  simp only [hostWriteFar, hin, hshut, hg1, hg2, Nat.not_lt.2 htop, Bool.not_true, Bool.false_eq_true, false_and, or_self, if_false]
  rw [writeMem_cells _ (fun x h1 h2 => (hret x).trans (hr x h1 h2)), hcells]

/-- The bytes after a range has been written. -/
theorem tget_written {t : Tbl Byte} {a : Nat} {l : List Byte} (h : Memory.wf t = true) :
    (∀ i, i < l.length → tget 0 (putBytes t a l) (a + i) = l.getD i 0) ∧
      ∀ x, (x < a ∨ a + l.length ≤ x) → tget 0 (putBytes t a l) x = tget 0 t x := by
  constructor
  · intro i hi
    rw [tget_putBytes t a l _ h, if_pos (by omega), Nat.add_sub_cancel_left]
  · intro x hx
    rw [tget_putBytes t a l _ h, if_neg (by omega)]

theorem exec_bar4Write_open {s : State} {off : Nat} {data : List Byte} (h : FarOpen s off data.length)
    (hr : ∀ x, off ≤ x → x < off + data.length → retiredAt s x = false) (hwf : Memory.wf s.mem.cells = true) :
    ∃ t, exec (.bar4Write off data false) s = .next t ∧
      (∀ i, i < data.length → tget 0 t.mem.cells (off + i) = data.getD i 0) ∧
      (∀ x, (x < off ∨ off + data.length ≤ x) → tget 0 t.mem.cells x = tget 0 s.mem.cells x) := by
  refine ⟨hostWriteFar off data false s, ?_, ?_⟩
  · show execBar4Write off data false s = _
    simp only [execBar4Write, run_live _ h.1, h.2.1, guarded_true]
  · rw [hostWriteFar_open false h hr]
    exact tget_written hwf

theorem exec_bar4Write_reset {s : State} (off : Nat) (data : List Byte) (ep : Bool) (hl : Live s) (hr : s.blk.ireqReady = true)
    (hin : inService s = true) (hw : resetWindow s = true) :
    ∃ t, exec (.bar4Write off data ep) s = .next t ∧ same .cells s t := by
  refine ⟨hostCe s, ?_, (hostCe_foot (List.Subset.refl _) (Foot.refl _ s)).frame .cells (by decide)⟩
  show execBar4Write off data ep s = _
  simp [execBar4Write, run_live _ hl, hr, hostWriteFar, hin, hostShut_reset hw]

/-- Retirement is by 4 KiB granules. -/
theorem retiredAt_granule {a b : Nat} (s : State) (h : a / 4096 = b / 4096) : retiredAt s a = retiredAt s b := by
  have hfar : isFar a = isFar b := by
    unfold isFar farTop
    exact decide_eq_decide.2 (by omega)
  have hst : stackOf a = stackOf b := by
    simp only [stackOf, stackSize]
    omega
  have hg : stackGranule a = stackGranule b := by
    simp only [stackGranule, stackSize]
    omega
  simp only [retiredAt, pcOf, hfar, hst, hg, h]

/-- An answer without data on CMEM leaves memory alone. -/
theorem answerWhen_cmem_mem (i tag : Nat) (d : List Byte) (p : Bool) (s : State) :
    (answerWhen i (.cmem tag d p) s).mem = s.mem :=
  (answerWhen_emit_foot (o := .cmemRsp tag d p) (fun _ => rfl) (List.Subset.refl _) i (Foot.refl _ s)).mem.resolve_left (by decide)

theorem exec_cmemWrite_open {s : State} {a : Nat} (tag : Nat) {data : List Byte} (ecc : List MemError) (h : FarOpen s a 64)
    (hx : bit (regGet s 0x8) 19 = true) (ha : a % 64 = 0) (hd : data.length = 64) (hr : retiredAt s a = false)
    (hwf : Memory.wf s.mem.cells = true) :
    ∃ t, exec (.cmemRequest true a tag data false ecc) s = .next t ∧
      (∀ i, i < 64 → tget 0 t.mem.cells (a + i) = data.getD i 0) ∧
      (∀ x, (x < a ∨ a + 64 ≤ x) → tget 0 t.mem.cells x = tget 0 s.mem.cells x) := by
  have hpad : padTo data 64 = data := by simp [padTo, hd, List.take_of_length_le]
  refine ⟨answerWhen s.rg.reqs (.cmem tag [] false) (hostWriteFar a data false s), ?_, ?_⟩
  · show execCmemRequest true a tag data false s ecc = _
    simp [execCmemRequest, run_live _ h.1, h.2.1, hx, ha, hpad]
  · rw [answerWhen_cmem_mem, hostWriteFar_open false (hd ▸ h)
      (fun x h1 h2 => (retiredAt_granule s (by omega)).trans hr), ← hd]
    exact tget_written hwf

/-! ## Malformed accesses (R17) -/

theorem exec_barAccessMalformed {s : State} (b : Sys2Proof.Bar) (w : Bool) {off size : Nat} (tag : Nat) (ep : Bool) (hl : Live s)
    (hr : s.blk.ireqReady = true) (hin : inService s = true) (hlog : LogRoom s) (h4 : ¬ (size = 4 ∧ off % 4 = 0))
    (h8 : ¬ (size = 8 ∧ off % 8 = 0)) :
    ∃ t, exec (.barAccessMalformed b w off size tag ep) s = .next t ∧
      Logged (if ep && w then 8 else 0) 0 0x05 t ∧ Frame [.ic, .err, .ports] s t ∧
      t.ports.out = if w then s.ports.out else s.ports.out ++ [.icpl tag (List.replicate size 0xFF) false] := by
  obtain ⟨k, hk⟩ : ∃ k, k = if ep && w then 8 else 0 := ⟨_, rfl⟩
  have hf : Foot [.ic, .err, .ports] s (reportCe k 0 0x05 0 s) := reportCe_foot (by decide) _ _ _ _ (Foot.refl _ s)
  have hp : (reportCe k 0 0x05 0 s).ports = s.ports :=
    (reportCe_foot (List.Subset.refl _) _ _ _ _ (Foot.refl _ s)).ports.resolve_left (by decide)
  have hlg : Logged k 0 0x05 (reportCe k 0 0x05 0 s) := report_logged _ _ _ _ _ _ s hlog (by decide)
  have hmal : (!((size == 4 && off % 4 == 0) || (size == 8 && off % 8 == 0))) = true := by
    simp only [Bool.not_eq_true', Bool.or_eq_false_iff, Bool.and_eq_false_iff, beq_eq_false_iff_ne]
    omega
  have he : exec (.barAccessMalformed b w off size tag ep) s =
      .next (if w then reportCe k 0 0x05 0 s else emit (.icpl tag (ones size) false) (reportCe k 0 0x05 0 s)) := by
    show execBarAccessMalformed b w off size tag ep s = _
    simp only [execBarAccessMalformed, run_live _ hl, hr, hmal, hin, ← hk, Bool.and_self, guarded_true, true_or, if_true]
  refine ⟨_, he, ?_⟩
  rw [← hk]
  cases w with
  | true => exact ⟨hlg, hf.frame, congrArg Ports.out hp⟩
  | false => exact ⟨hlg, (emit_foot (by decide) _ hf).frame, congrArg (fun p : Ports => p.out ++ _) hp⟩

/-! ## Completions (R33) -/

/-- With every read sent there is none to send. -/
theorem nextReads_sent {s : State} (fuel : Nat) (h : ∀ x ∈ s.ports.oreq, x.sent = true) : nextReads fuel s = s := by
  have hn : s.ports.oreq.find? (fun r => !r.sent) = none := by simpa [List.find?_eq_none] using h
  cases fuel with
  | zero => rfl
  | succ n => simp [nextReads, hn]

/-- The end of a load's read with no read waiting: its data land in the array, after the report that `loadData` makes. -/
theorem endRead_load {s : State} {r : OreqRead} {l : Nat} (ok ep : Bool) (data : List Byte) (hu : r.use = .load l)
    (hs : ∀ x ∈ s.ports.oreq, x.sent = true) :
    endRead r ok ep data s = loadData l r ok ep data { s with ports := { s.ports with oreq := s.ports.oreq.erase r } } := by
  unfold endRead
  simp only [hu]
  rw [nextReads_sent]
  exact fun x hx => hs x (List.mem_of_mem_erase hx)

theorem exec_ocplCompletion_load {s : State} {tag l p : Nat} {r : OreqRead} (data : List Byte) (hl : Live s)
    (hr : readOf s tag = some r) (hu : r.use = .load l) (hp : physOf s l = some p) (hc : r.crypt = none)
    (hs : ∀ x ∈ s.ports.oreq, x.sent = true) :
    exec (.ocplCompletion tag .sc false data) s = .next (modArr p (fun x => x.putLs r.dest (padTo data r.len) (fun _ => false))
      { s with ports := { s.ports with oreq := s.ports.oreq.erase r } }) := by
  have hp' : physOf { s with ports := { s.ports with oreq := s.ports.oreq.erase r } } l = some p := hp
  show execOcplCompletion tag .sc false data s = _
  simp [execOcplCompletion, run_live _ hl, hr, endRead_load _ _ _ hu hs, loadData, hc, readData, landHost, hp']

theorem exec_oreqCompletionTimeout_load {s : State} {tag l p : Nat} {r : OreqRead} (hl : Live s)
    (hr : readOf s tag = some r) (hu : r.use = .load l) (hp : physOf s l = some p) (hc : r.crypt = none)
    (hs : ∀ x ∈ s.ports.oreq, x.sent = true) (hce : s.ports.hostCe.contains (r.ctx.getD 0) = true) :
    exec (.oreqCompletionTimeout tag) s = .next (modArr p (fun x => x.putLs r.dest (List.replicate r.len 0xFF) (fun _ => true))
      { s with ports := { s.ports with oreq := s.ports.oreq.erase r } }) := by
  have hp' : physOf { s with ports := { s.ports with oreq := s.ports.oreq.erase r } } l = some p := hp
  show execOreqCompletionTimeout tag s = _
  simp only [execOreqCompletionTimeout, run_live _ hl, hr, endRead_load _ _ _ hu hs, loadData, hc, readData, landHost,
    hostPoisonCe, hce, hp', Bool.false_eq_true, if_false, if_true, ones]

theorem exec_ocplCompletion_stray {s : State} {tag : Nat} (st : CplStatus) (ep : Bool) (data : List Byte) (hl : Live s)
    (hr : readOf s tag = none) : exec (.ocplCompletion tag st ep data) s = .next s := by
  show execOcplCompletion tag st ep data s = _
  simp only [execOcplCompletion, run_live _ hl, hr]

/-- Settles O11, clause by clause. -/
theorem hostAccesses : Obligations.HostAccesses :=
  ⟨fun _ _ _ tag ecc h => exec_bar4Read_open tag ecc h,
   fun _ off len tag ecc hl hr _ hw => exec_bar4Read_reset off len tag ecc hl hr hw,
   fun _ _ _ h hr hwf => exec_bar4Write_open h hr hwf,
   fun _ off data ep hl hr hin hw => exec_bar4Write_reset off data ep hl hr hin hw,
   fun _ _ tag ecc h hx ha => exec_cmemRead_open tag ecc h hx ha,
   fun _ _ tag _ ecc h hx ha hd hr hwf => exec_cmemWrite_open tag ecc h hx ha hd hr hwf,
   fun _ b w _ _ tag ep hl hr hin hlog h4 h8 => exec_barAccessMalformed b w tag ep hl hr hin hlog h4 h8,
   fun _ _ _ _ _ data hl hr hu hp hc hs => exec_ocplCompletion_load data hl hr hu hp hc hs,
   fun _ _ _ _ _ hl hr hu hp hc hs hce => exec_oreqCompletionTimeout_load hl hr hu hp hc hs hce,
   fun _ _ st ep data hl hr => exec_ocplCompletion_stray st ep data hl hr⟩

end Sys2Proof.Proofs
end

section
/-!
A halted block: COLD_RST_N is low, or REFCLK is lost.
-/
namespace Sys2Proof.Proofs
open Sys2Proof Sys2Proof.Machine Sys2Proof.Laws

/-- Settles O56: the meaning of every command but the four of the pins is `run` of something, and `run` does nothing in a halted
block (R70, R76). -/
theorem haltedBlockDoesNothing : Obligations.HaltedBlockDoesNothing := by
  intro c s h hrelease hassert hthrottle hfree
  unfold exec
  cases c
  case coldResetRelease => exact absurd rfl hrelease
  case coldResetAssert => exact absurd rfl hassert
  case throttleAssert => exact absurd rfl hthrottle
  case throttleRelease => exact absurd rfl hfree
  all_goals
    dsimp only
    exact run_halted _ h

end Sys2Proof.Proofs
end

section
/-!
B-class events in service (chapters 1 and 17): what each of them leaves in the collector, and that a block reset falls due.
-/
namespace Sys2Proof.Proofs
open Sys2Proof Sys2Proof.Machine Sys2Proof.Laws

/-- Of the collector a report may write the log, its tail and the count of lost reports. -/
theorem report_err (kind index type cls : Nat) (conf : Bool) (detail : Nat) (s : State) :
    ∃ r n l, (report kind index type cls conf detail s).err = { s.err with recs := r, tail := n, lost := l } := by
  unfold report
  split
  · exact ⟨_, _, _, rfl⟩
  · by_cases hfull : openRecs s ≥ (if cls = 0 then 3840 else 4096)
    · rw [if_pos hfull]
      exact ⟨_, _, _, rfl⟩
    · rw [if_neg hfull]
      exact ⟨_, _, _, rfl⟩

/-- `Logged` reads the log and its pointers only. -/
theorem logged_of_log {kind index type : Nat} {s t : State} (h : Logged kind index type s) (hr : t.err.recs = s.err.recs)
    (hh : t.err.head = s.err.head) (ht : t.err.tail = s.err.tail) : Logged kind index type t := by
  have hs : ∀ i, slotOpen t i = slotOpen s i := fun i => decide_eq_decide.2 (by rw [openRecs, openRecs, hh, ht])
  obtain ⟨e, he, ho, hk⟩ := h
  exact ⟨e, hr ▸ he, (hs e.1).trans ho, hk⟩

/-- What a B-class event does in service: a block reset falls due with its type, the event is in the collector, and nothing but
the collector and the interrupt controller changes. -/
structure FallsDue (kind index type : Nat) (s t : State) : Prop where
  pending : t.err.bPending = some type
  lastType : t.err.lastType = type
  logged : Logged kind index type t
  hung : t.err.hungSteward = s.err.hungSteward
  foot : Foot [.ic, .err] s t

theorem bEvent_fallsDue (kind index : Nat) {type : Nat} (detail : Nat) {s : State} (ht : type ≠ 0) (hin : inService s = true)
    (hlog : LogRoom s) : FallsDue kind index type s (bEvent kind index type detail s) := by
  have hf : Foot [.ic, .err] s (report kind index type 2 false detail s) := report_foot (by decide) _ _ _ _ _ _ (Foot.refl _ s)
  obtain ⟨r, n, l, herr⟩ := report_err kind index type 2 false detail s
  have hb : (report kind index type 2 false detail s).blk.bootState = 6 := by
    rw [hf.blk.resolve_left (by decide)]
    simpa [inService] using hin
  have e : bEvent kind index type detail s = { report kind index type 2 false detail s with
      err := { (report kind index type 2 false detail s).err with lastType := type, bPending := some type } } := by
    simp [bEvent, hb]
  rw [e]
  refine ⟨rfl, rfl, logged_of_log (report_logged kind index type 2 false detail s hlog ht) rfl rfl rfl, ?_, ?_⟩
  · rw [herr]
  · exact { hf with err := .inl (by decide) }

theorem regsOn_of_inService {s : State} (h : inService s = true) : regsOn s = true := by
  simp only [inService] at h
  simp only [regsOn, h, Bool.true_or]

section
variable {s : State} (hl : Live s) (hin : inService s = true) (hlog : LogRoom s)

include hin hlog in
/-- A B-class event together with a change of the boundary unit that leaves the start-up state alone. -/
theorem bEvent_blk (kind index : Nat) {type : Nat} (detail : Nat) (b : Blk) (ht : type ≠ 0) (hb : b.bootState = s.blk.bootState) :
    let t := bEvent kind index type detail { s with blk := b }
    t.err.bPending = some type ∧ t.err.lastType = type ∧ Logged kind index type t ∧ t.blk = b ∧ Frame [.blk, .ic, .err] s t := by
  have h := bEvent_fallsDue kind index detail ht (s := { s with blk := b }) (by simpa [inService, hb] using hin) hlog
  have hf : Foot [.blk, .ic, .err] s _ := { h.foot.mono (by decide) with blk := .inl (by decide) }
  exact ⟨h.pending, h.lastType, h.logged, h.foot.blk.resolve_left (by decide), hf.frame⟩

/-- The command `e.1` makes a block reset due: the event of unit `e.2.1`, number `e.2.2.1` and type `e.2.2.2` is in the collector. -/
def MakesDue (s : State) (e : Instr × Nat × Nat × Nat) : Prop :=
  ∃ t, exec e.1 s = .next t ∧ t.err.bPending = some e.2.2.2 ∧ t.err.lastType = e.2.2.2 ∧ Logged e.2.1 e.2.2.1 e.2.2.2 t ∧
    Frame [.blk, .ic, .err] s t

include hin hlog in
theorem makesDue_of_bEvent {c : Instr} {kind index type : Nat} {detail : Nat} {u : State} {b : Blk}
    (he : exec c s = .next (bEvent kind index type detail u)) (hu : u = { s with blk := b }) (hb : b.bootState = s.blk.bootState)
    (ht : type ≠ 0) : MakesDue s (c, kind, index, type) := by
  subst hu
  obtain ⟨hp, hlt, hlg, -, hf⟩ := bEvent_blk hin hlog kind index detail b ht hb
  exact ⟨_, he, hp, hlt, hlg, hf⟩

include hin hlog in
/-- A command that is a B-class event and nothing else. -/
theorem makesDue_self {c : Instr} {kind index type : Nat} (detail : Nat) (ht : type ≠ 0)
    (he : exec c s = .next (bEvent kind index type detail s)) : MakesDue s (c, kind, index, type) :=
  makesDue_of_bEvent hin hlog (b := s.blk) he rfl rfl ht

include hl hin in
/-- Loss of a clock of the block is the event of its code, after the lock has gone. -/
theorem exec_clockLoss :
    exec (.clockLoss .array) s = .next (bEvent 0 0x001 0x24 0 { s with blk := { s.blk with arrayLock := false } }) ∧
    exec (.clockLoss .mesh) s = .next (bEvent 0 0x002 0x24 0 { s with blk := { s.blk with meshLock := false } }) ∧
    exec (.clockLoss .ctrl) s = .next (bEvent 0 0x003 0x24 0 { s with blk := { s.blk with ctrlLock := false } }) ∧
    (∀ n, exec (.clockLoss (.mc n)) s = .next (bEvent 0 (0x010 + n) 0x24 0 { s with blk := { s.blk with mcOk := sremove n s.blk.mcOk } })) ∧
    (s.blk.linkUp = true → exec (.clockLoss .host) s = .next (bEvent 0 0x020 0x24 0 { s with blk := { s.blk with hostOk := false } })) := by
  have hr : ∀ b : Blk, b.bootState = s.blk.bootState → regsOn { s with blk := b } = true := fun b hb => by
    simpa [regsOn, hb] using regsOn_of_inService hin
  have he : ∀ c, exec (.clockLoss c) s = execClockLoss c s := fun _ => rfl
  simp only [he, execClockLoss, run_live _ hl, hr, if_true, true_and]
  exact ⟨fun _ => trivial, fun hup => by rw [if_pos hup]⟩

include hl hin in
theorem exec_hapFlr : exec .hapFlr s = .next (bEvent 8 0 0x25 0 s) := by
  show execHapFlr s = _
  simp only [execHapFlr, run_live _ hl, regsOn_of_inService hin, if_true]

include hl hin hlog in
/-- The events that carry no number. -/
theorem plainEvents_due : ∀ e ∈ ([(.hapFlr, 8, 0, 0x25), (.meshFatalError, 0, 0, 0x22), (.clockLoss .array, 0, 0x001, 0x24),
    (.clockLoss .mesh, 0, 0x002, 0x24), (.clockLoss .ctrl, 0, 0x003, 0x24)] : List (Instr × Nat × Nat × Nat)), MakesDue s e := by
  obtain ⟨harray, hmesh, hctrl, -, -⟩ := exec_clockLoss hl hin
  simp only [List.forall_mem_cons, List.not_mem_nil, false_implies, implies_true, and_true]
  exact ⟨makesDue_self hin hlog 0 (by decide) (exec_hapFlr hl hin),
    makesDue_self hin hlog 0 (by decide) (run_live _ hl),
    makesDue_of_bEvent hin hlog harray rfl rfl (by decide), makesDue_of_bEvent hin hlog hmesh rfl rfl (by decide),
    makesDue_of_bEvent hin hlog hctrl rfl rfl (by decide)⟩

include hl hin hlog in
/-- The events of the unit of a number: reported under it, an array under its logical number. -/
theorem numberedEvents_due (n : Nat) : ∀ e ∈ ([(.eapFatal n, 9, n, 0x23), (.mcInternalError n, 3, n, 0x20), (.lceInternalError n, 2, n, 0x20),
      (.fabricTableError n none, 6, n, 0x20), (.accParityError n, 1, arrName s n, 0x20),
      (.lockstepMismatch n, 1, arrName s n, 0x21), (.clockLoss (.mc n), 0, 0x010 + n, 0x24)] : List (Instr × Nat × Nat × Nat)),
    MakesDue s e := by
  obtain ⟨-, -, -, hmc, -⟩ := exec_clockLoss hl hin
  simp only [List.forall_mem_cons, List.not_mem_nil, false_implies, implies_true, and_true]
  exact ⟨makesDue_self hin hlog 0 (by decide) (run_live _ hl),
    makesDue_self hin hlog 0 (by decide) (run_live _ hl),
    makesDue_self hin hlog 0 (by decide) (run_live _ hl),
    makesDue_self hin hlog 0 (by decide) (run_live _ hl),
    makesDue_self hin hlog (arrDetail s n) (by decide) (run_live (fun s => bEvent 1 (arrName s n) 0x20 (arrDetail s n) s) hl),
    makesDue_self hin hlog (arrDetail s n) (by decide) (run_live (fun s => bEvent 1 (arrName s n) 0x21 (arrDetail s n) s) hl),
    makesDue_of_bEvent hin hlog (hmc n) rfl rfl (by decide)⟩

include hl hin hlog in
theorem exec_hapLinkDown (pins : HapPins) (hup : s.blk.linkUp = true) (hdown : pins.up = false) :
    ∃ t, exec (.hapLinkDown pins) s = .next t ∧ t.err.bPending = some 0x25 ∧ t.err.lastType = 0x25 ∧ Logged 8 0 0x25 t ∧
      t.blk = { s.blk with linkUp := false, mps := pins.mps.toNat, mrrs := pins.mrrs.toNat, doeAbort := pins.abort } ∧
      Frame [.blk, .ic, .err] s t := by
  refine ⟨_, ?_, bEvent_blk hin hlog 8 0 0 _ (by decide) rfl⟩
  show execHapLinkDown s pins = _
  simp [execHapLinkDown, run_live _ hl, regsOn_of_inService hin, hup, hdown, setHapPins]

include hl hin hlog in
theorem exec_stewardHang (n : Nat) (hrun : (procAt s n).pstate = 1) : ∃ t, exec (.stewardHang n) s = .next t ∧
    t.err.bPending = some 0x26 ∧ t.err.hungSteward = some n ∧ Logged 0xA n 0x26 t ∧ Frame [.ic, .err] s t := by
  have h := bEvent_fallsDue 0xA n 0 (type := 0x26) (s := { s with err := { s.err with hungSteward := some n } }) (by decide) hin hlog
  have hf : Foot [.ic, .err] s _ := { h.foot with err := .inl (by decide) }
  refine ⟨_, ?_, h.pending, h.hung, h.logged, hf.frame⟩
  show execStewardHang n s = _
  simp [execStewardHang, run_live _ hl, hrun, hin]

include hl hin hlog in
theorem exec_cancelTimeout (e : Nat) (tag : W64) {k : EapTag} (hk : eapTagOf s e tag = some k) (hc : k.cancelled = true)
    (hr : k.reset = 0) : ∃ t, exec (.cancelTimeout e tag) s = .next t ∧ t.err.bPending = some 0x23 ∧ Logged 9 e 0x23 t ∧
      Frame [.ic, .err] s t := by
  have h := bEvent_fallsDue 9 e 0 (type := 0x23) (by decide) hin hlog
  refine ⟨_, ?_, h.pending, h.logged, h.foot.frame⟩
  show execCancelTimeout e tag s = _
  simp [execCancelTimeout, run_live _ hl, hk, hc, hr]

include hl hin hlog in
theorem exec_breset {val : W32} (hv : bit val.toNat 31 = true) : ∃ t, exec (.breset val) s = .next t ∧
    t.err.bPending = some 0x27 ∧ Logged 0 0 0x27 t := by
  have h := bEvent_fallsDue 0 0 0 (type := 0x27) (by decide) hin hlog
  refine ⟨_, ?_, h.pending, h.logged⟩
  show execBreset val s = _
  simp [execBreset, run_live _ hl, regsOn_of_inService hin, hv]

end

/-- Settles O13, event by event: each is `bEvent` after at most a change of pins, and `bEvent` makes a block reset due. -/
theorem bClassEvents : Obligations.BClassEvents := by
  intro s hl hin hlog
  refine ⟨plainEvents_due hl hin hlog, numberedEvents_due hl hin hlog, fun pins hup hdown => exec_hapLinkDown hl hin hlog pins hup hdown,
    fun hup => ?_, fun n hrun => exec_stewardHang hl hin hlog n hrun, fun e tag _ hk hc hr => exec_cancelTimeout hl hin hlog e tag hk hc hr,
    fun _ hv => exec_breset hl hin hlog hv⟩
  obtain ⟨-, -, -, -, hhost⟩ := exec_clockLoss hl hin
  obtain ⟨hp, -, hlg, -, hf⟩ := bEvent_blk hin hlog 0 0x020 0 { s.blk with hostOk := false } (type := 0x24) (by decide) rfl
  exact ⟨_, hhost hup, hp, hlg, hf⟩

end Sys2Proof.Proofs
end

section
/-!
Refreshes (chapter 1 and R261, R287): a bank's refresh waits for a reserved run time where one is dealt.
-/
namespace Sys2Proof.Proofs
open Sys2Proof Sys2Proof.Machine Sys2Proof.Laws

/-- In service, the refresh of a channel in service joins the queue of the reserved run times, and no message leaves. -/
theorem exec_refresh_queued {s : State} {c : Nat} (hl : Live s) (hc : c < 768) (hst : (stackAt s (c / 64)).state = 2)
    (hin : inService s = true) (hch : (chanAt s c).state = 0) :
    ∃ t, exec (.refresh c) s = .next t ∧ t.ports = s.ports := by
  obtain ⟨a, ha⟩ : ∃ a, a = c / 64 * stackSize + c % 64 * 4096 := ⟨_, rfl⟩
  refine ⟨queueReserved a true s, ?_, (queueReserved_foot (List.Subset.refl _) a true (Foot.refl _ s)).ports.resolve_left (by decide)⟩
  show execRefresh c s = _
  simp [execRefresh, run_live _ hl, startRefresh, hc, hst, hin, hch, ha]

/-- A block in service with stack 0 in service. -/
def refreshing : State := { blk := { coldLow := false, bootState := 6 }, mem := { stack := [(0, { state := 2 })] } }

/-- Refutes O14: its clause on REFRESH has the refresh leave at once in every state. In `refreshing` channel 0 is in service, so the
refresh waits for a reserved run time (R261, R287) and nothing leaves the block. -/
theorem not_physAndTelemetry : ¬ Obligations.PhysAndTelemetry := by
  unfold Obligations.PhysAndTelemetry
  rintro ⟨-, -, -, -, hrefresh, -⟩
  obtain ⟨t, ht, hsent, -⟩ := hrefresh refreshing 0 ⟨rfl, rfl⟩ (by decide) rfl
  obtain ⟨u, hu, hports⟩ := exec_refresh_queued (s := refreshing) (c := 0) ⟨rfl, rfl⟩ (by decide) rfl rfl rfl
  obtain rfl : u = t := Host.Outcome.next.inj (hu.symm.trans ht)
  rw [Sent, hports] at hsent
  simp at hsent

end Sys2Proof.Proofs
end

section
/-!
The engine attach ports (R51 to R60): the tag that an answer names, and a read in the context of its task.
-/
namespace Sys2Proof.Proofs
open Sys2Proof Sys2Proof.Machine Sys2Proof.Laws

/-! ## Tags -/

/-- With no task waiting for an engine there is none to issue. -/
theorem issueWaiting_none (fuel e : Nat) {s : State} (h : s.blk.eapWait = []) : issueWaiting fuel e s = s := by
  cases fuel with
  | zero => rfl
  | succ n => simp [issueWaiting, h, minBy]

theorem exec_eapDone_stray {s : State} {e : Nat} {tag : W64} (st : Byte) (cyc : W32) (hl : Live s) (hk : eapTagOf s e tag = none)
    (hlog : LogRoom s) : ∃ t, exec (.eapDone e tag st cyc) s = .next t ∧ Logged 9 e 0x07 t ∧ Frame [.ic, .err] s t := by
  refine ⟨reportCe 9 e 0x07 0 s, ?_, report_logged _ _ _ _ _ _ s hlog (by decide),
    (reportCe_foot (List.Subset.refl _) _ _ _ _ (Foot.refl _ s)).frame⟩
  show execEapDone e tag st cyc s = _
  simp only [execEapDone, run_live _ hl, hk]

/-- DONE of a tag in use frees it, and the task that it names ends with the status reported. -/
theorem exec_eapDone_ends {s : State} {e : Nat} {tag : W64} {st : Byte} {cyc : W32} {k : EapTag} {q : Task} (hl : Live s)
    (hk : eapTagOf s e tag = some k) (hr : k.reset = 0) (hg : k.gen = (queueAt s k.queue).gen) (hq : taskOf s k.seq = some q)
    (hw : s.blk.eapWait = []) (he : q.early = none) :
    exec (.eapDone e tag st cyc) s = .next (taskEnd q.seq (engineStatus st.toNat) cyc.toNat
      (if (engineStatus st.toNat).good then none else some (qType (engineStatus st.toNat), detailOf q.ctx 0))
      (outliveEap e tag.toNat q { s with blk := { s.blk with eapTags := s.blk.eapTags.erase k } })) := by
  have hfree : freeEapTag k s = { s with blk := { s.blk with eapTags := s.blk.eapTags.erase k } } := issueWaiting_none 64 k.eap hw
  have hgen : ¬ (k.reset = 2 ∨ k.gen ≠ (queueAt { s with blk := { s.blk with eapTags := s.blk.eapTags.erase k } } k.queue).gen) := by
    rintro (h2 | h2)
    · exact absurd (hr.symm.trans h2) (by decide)
    · exact h2 hg
  have htask : taskOf { s with blk := { s.blk with eapTags := s.blk.eapTags.erase k } } k.seq = some q := hq
  show execEapDone e tag st cyc s = _
  simp only [execEapDone, run_live _ hl, hk, hfree]
  rw [if_neg hgen]
  simp only [htask, endEngine, he]

/-- The acknowledgement of a CANCEL that a block reset raised settles the tag, with no task waiting for the engine. -/
theorem exec_cancelAck_reset {s : State} {e : Nat} {tag : W64} {k : EapTag} (hl : Live s) (hk : eapTagOf s e tag = some k)
    (hr : k.reset = 1) (hw : s.blk.eapWait = []) :
    exec (.cancelAck e tag) s = .next { s with blk := { s.blk with
      eapTags := s.blk.eapTags.map (fun x => if x = k then { x with reset := 2 } else x) } } := by
  show execCancelAck e tag s = _
  simp only [execCancelAck, run_live _ hl, hk, hr, if_true]
  exact congrArg Host.Outcome.next (issueWaiting_none 64 e hw)

theorem exec_cancelAck_stray {s : State} {e : Nat} {tag : W64} (hl : Live s) (hk : eapTagOf s e tag = none) :
    exec (.cancelAck e tag) s = .next s := by
  show execCancelAck e tag s = _
  simp only [execCancelAck, run_live _ hl, hk]

theorem exec_eapMreq_stray {s : State} {e : Nat} {tag : W64} (op : MreqOp) (va : W64) (n : Nat) (d : List Byte) (h : HostData)
    (mem : List MemError) (hc : Computing s) (hk : eapTagOf s e tag = none) :
    exec (.eapMreq e tag op va n d h mem) s = .next (emit (.eapRsp e tag.toNat .faultAddress []) s) := by
  show execEapMreq e tag op va n d h s mem = _
  simp only [execEapMreq, run_live _ hc.1, hc.2, guarded_true, hk, Option.bind_none]

/-! ## What an access in a context leaves alone -/

/-- From `s` to `t` only run queues, the near-tier cache and the front end may differ. -/
def Walked (s t : State) : Prop :=
  ∃ q c f, t = { s with rg := { s.rg with queue := q }, mem := { s.mem with cache := c }, fe := f }

theorem Walked.refl (s : State) : Walked s s := ⟨_, _, _, rfl⟩

theorem Walked.trans {s t u : State} (h : Walked s t) (k : Walked t u) : Walked s u := by
  obtain ⟨q, c, f, rfl⟩ := h
  obtain ⟨q', c', f', rfl⟩ := k
  exact ⟨q', c', f', rfl⟩

theorem each_walked {α : Type} (l : List α) (f : α → State → State) (hf : ∀ x s, Walked s (f x s)) (s : State) :
    Walked s (each l f s) := by
  induction l generalizing s with
  | nil => exact .refl s
  | cons x l ih => exact (hf x s).trans (ih (f x s))

theorem accessC_walked (o : RunOwner) (c : Nat) (alloc : Option Nat) (w : Bool) (a n : Nat) (s : State) :
    Walked s (accessC o c alloc w a n s) := by
  have hacc : ∀ (r : Nat) (u : State), Walked u (access o r alloc w a n u) := fun r u => by
    obtain ⟨q, k, h⟩ := access_cached o r alloc w a n u
    exact ⟨q, k, u.fe, h⟩
  unfold accessC
  dsimp only
  split
  · exact hacc _ s
  · exact Walked.trans ⟨s.rg.queue, s.mem.cache, _, rfl⟩ (hacc _ _)

theorem xlFill_walked (o : RunOwner) (c va : Nat) (s : State) : Walked s (xlFill o c va s) := by
  have hput : ∀ (leaf : Nat) (u : XlUnit) (t : State), Walked t (tlbPut c va leaf u t) := fun leaf u t => by
    unfold tlbPut
    split
    · exact .refl t
    · exact ⟨t.rg.queue, t.mem.cache, _, rfl⟩
  unfold xlFill
  split
  · exact (each_walked _ _ (fun a t => accessC_walked o c none false a 8 t) s).trans (each_walked _ _ (hput _) _)
  · exact .refl s

/-- Such a change leaves what every address reads as. -/
theorem Walked.reads {s t : State} (h : Walked s t) :
    (∀ x k, readMem t x k = readMem s x k) ∧ (∀ x k, poisonIn t x k = poisonIn s x k) ∧ t.ports = s.ports ∧ same .cells s t := by
  obtain ⟨q, c, f, rfl⟩ := h
  exact ⟨fun _ _ => rfl, fun _ _ => rfl, rfl, fun _ => rfl, rfl, rfl⟩

/-! ## Reads by an engine -/

/-- A range within one page that translates has no fault. -/
theorem xlRange_page {s : State} {o : RunOwner} {c va n k a : Nat} {acc : Acc} (hp : spansOf 4096 va n = [(va, n)])
    (hx : xl s o c va n acc = .ok k a) : xlRange s o c va n acc = none := by
  simp [xlRange, hp, hx]

theorem mreqRead_page {s : State} {e : Nat} {tag : W64} {q : Task} {va n a : Nat} (h : HostData) (mem : List MemError)
    (hp : spansOf 4096 va n = [(va, n)]) (hx : xl s (.eap e 0) q.ctx va n .read = .ok 0 a) :
    let u := accessC (.eap e s.rg.reqs) q.ctx (some (partOfCtx s q.ctx)) false a n (xlFill (.eap e s.rg.reqs) q.ctx va (memErrors a n mem s))
    mreqRead e tag q va n h mem s = answerWhen s.rg.reqs
      (.eap e tag.toNat (if poisonIn u a n then .donePoisoned else .done) (readMem u a n) false none) u := by
  simp only [mreqRead, hp, each, List.foldl_cons, List.foldl_nil, hx]

theorem mreqDo_read {s : State} {e : Nat} {tag : W64} {q : Task} {va n : Nat} (d : List Byte) (h : HostData) (mem : List MemError)
    (hx : xlRange s (.eap e 0) q.ctx va n .read = none) : mreqDo e tag q .read va n d h mem s = mreqRead e tag q va n h mem s := by
  delta mreqDo
  dsimp only
  rw [hx]

theorem exec_eapMreq_read {s : State} {e : Nat} {tag : W64} {k : EapTag} {q : Task} {va : W64} {n a : Nat} (h : HostData)
    (mem : List MemError) (hc : Computing s) (hk : eapTagOf s e tag = some k) (hcan : k.cancelled = false)
    (hq : taskOf s k.seq = some q) (h0 : 0 < n) (hn : n ≤ 256) (hp : spansOf 4096 va.toNat n = [(va.toNat, n)])
    (hx : xl s (.eap e 0) q.ctx va.toNat n .read = .ok 0 a) :
    let v := memErrors a n mem s
    let st := if poisonIn v a n then Status.donePoisoned else Status.done
    ∃ t, exec (.eapMreq e tag .read va n [] h mem) s = .next t ∧ same .cells v t ∧
      Answered s t (.eap e tag.toNat st (readMem v a n) false none) (.eapRsp e tag.toNat st (readMem v a n)) := by
  intro v st
  have hw : Walked v (accessC (.eap e s.rg.reqs) q.ctx (some (partOfCtx s q.ctx)) false a n (xlFill (.eap e s.rg.reqs) q.ctx va.toNat v)) :=
    (xlFill_walked _ _ _ _).trans (accessC_walked _ _ _ _ _ _ _)
  obtain ⟨u, hu⟩ : ∃ u, u = accessC (.eap e s.rg.reqs) q.ctx (some (partOfCtx s q.ctx)) false a n
    (xlFill (.eap e s.rg.reqs) q.ctx va.toNat v) := ⟨_, rfl⟩
  rw [← hu] at hw
  obtain ⟨hread, hpoison, hports, hcells⟩ := hw.reads
  have hshape : ¬ (n = 0 ∨ 256 < n ∨ ((MreqOp.read == .add || MreqOp.read == .fadd || MreqOp.read == .cas) = true ∧ va.toNat % 8 ≠ 0)) := by
    simp only [show (MreqOp.read == .add || MreqOp.read == .fadd || MreqOp.read == .cas) = false from rfl, Bool.false_eq_true, false_and, or_false]
    omega
  have hrun : exec (.eapMreq e tag .read va n [] h mem) s =
      .next (answerWhen s.rg.reqs (.eap e tag.toNat st (readMem v a n) false none) u) := by
    show execEapMreq e tag .read va n [] h s mem = _
    simp only [execEapMreq, run_live _ hc.1, hc.2, guarded_true, hk, Option.bind_some, hcan, Bool.false_eq_true, if_false, hq]
    rw [if_neg hshape]
    rw [mreqDo_read [] h mem (xlRange_page hp hx), mreqRead_page h mem hp hx, ← hu, hread, hpoison]
  have ho : ∀ w, release (.eap e tag.toNat st (readMem v a n) false none) w = emit (.eapRsp e tag.toNat st (readMem v a n)) w := fun _ => rfl
  have hcells' : Foot [.rg, .ports] u _ := answerWhen_emit_foot ho (List.Subset.refl _) s.rg.reqs (Foot.refl _ u)
  obtain ⟨hb, hpo, hre⟩ := hcells'.frame .cells (by decide)
  exact ⟨_, hrun, ⟨fun x => (hb x).trans (hcells.1 x), hpo.trans hcells.2.1, hre.trans hcells.2.2⟩,
    answerWhen_answered ho (hports.trans (memErrors_ports a n mem s))⟩

/-- Settles O15, clause by clause. -/
theorem enginePorts : Obligations.EnginePorts :=
  ⟨fun _ _ _ st cyc hl hk hlog => exec_eapDone_stray st cyc hl hk hlog,
   fun _ _ _ _ _ _ _ hl hk hr _ hg hq hw he => exec_eapDone_ends hl hk hr hg hq hw he,
   fun _ _ _ _ _ _ _ _ h mem hc hk hcan hq h0 hn hp hx => exec_eapMreq_read h mem hc hk hcan hq h0 hn hp hx,
   fun _ _ _ op va n d h mem hc hk => exec_eapMreq_stray op va n d h mem hc hk,
   fun _ _ _ _ hl hk hr hw => exec_cancelAck_reset hl hk hr hw,
   fun _ _ _ hl hk => exec_cancelAck_stray hl hk⟩

end Sys2Proof.Proofs
end

section
/-!
The link layer in fabric mode (R322 to R328, R377): delay messages, and what a port does with a flit.
-/
namespace Sys2Proof.Proofs
open Sys2Proof Sys2Proof.Machine Sys2Proof.Laws

/-! ## Ports -/

/-- A port that is not down after a change reads as changed. -/
theorem portAt_modPort {p : Nat} {f : Port → Port} {s : State} (h : (f (portAt s p)).state ≠ 0) :
    portAt (modPort p f s) p = f (portAt s p) := by
  simp only [portAt, modPort, tmod] at h ⊢
  exact tget_tset_eq _ _ _ _ fun e => h (congrArg Port.state e)

theorem portUp_state {s : State} {p : Nat} (h : portUp s p = true) : (portAt s p).state ≠ 0 := by
  intro h0
  simp [portUp, h0] at h

theorem pump_empty {s : State} {p : Nat} (h : (portAt s p).txq = []) : pump p s = s := by
  simp [pump, h, pumpN]

/-- Of the port it leaves by, a flit may change the credits to return, the count of flits, SEQ and the replay buffer. -/
theorem portAt_sendFlit {p : Nat} {s : State} (data nak : Bool) (units : List (List Byte)) (start : Nat) (h : (portAt s p).state ≠ 0) :
    ∃ g n q r, portAt (sendFlit p data nak units start s) p = { portAt s p with give := g, tx := n, txSeq := q, replay := r } := by
  cases data with
  | false => exact ⟨_, _, _, _, portAt_modPort h⟩
  | true => exact ⟨_, _, _, _, portAt_modPort h⟩

/-- An acknowledgement may change the replay buffer, the number acknowledged and the count of NAKs. -/
theorem takeAck_eq (ack : Nat) (x : Port) : ∃ r a n, takeAck ack x = { x with replay := r, acked := a, nakCount := n } := by
  unfold takeAck
  split
  · exact ⟨_, _, _, rfl⟩
  · exact ⟨_, _, _, rfl⟩

/-! ## What the block sends -/

/-- A flit made of a header and a body is whole and carries the code of its own bytes (R322). -/
theorem mkFlit_whole (h : W64) {units : List (List Byte)} (hn : units.length ≤ 15) :
    flitIntact (mkFlit h units) = true ∧ (mkFlit h units).units.length = 15 := by
  have hlt : ∀ l, crc32c l % 2 ^ 32 = crc32c l := fun l => Nat.mod_eq_of_lt (by unfold crc32c; exact BitVec.isLt _)
  constructor
  · have hcrc : (mkFlit h units).crc = w32 (crc32c (flitBytes (mkFlit h units))) := by simp only [mkFlit, flitBytes]
    rw [flitIntact, hcrc, w32, BitVec.toNat_ofNat, hlt, decide_eq_true rfl]
  · simp only [mkFlit, List.length_append, List.length_replicate]
    omega

theorem sendFlit_sends (p : Nat) (data nak : Bool) {units : List (List Byte)} (start : Nat) (s : State) (hn : units.length ≤ 15) :
    ∃ f, (sendFlit p data nak units start s).ports.out = s.ports.out ++ [.flit p f] ∧ flitIntact f = true ∧ f.units.length = 15 :=
  ⟨_, rfl, mkFlit_whole _ hn⟩

/-! ## Delay messages (R324, R377) -/

section
variable {s : State} {p : Nat} (hl : Live s) (hup : portUp s p = true) (hm : portMode s p = 1)
include hl hup hm

theorem exec_delayReqSend_due (t1 : Nat) (hd : delayDue s p = true) : exec (.delayReqSend p t1) s =
    .next (emit (.delayReq p (t1 + (portAt s p).txLat)) (modPort p (fun x => { x with reqAt := some (beat s) }) s)) := by
  show execDelayReqSend p t1 s = _
  simp only [execDelayReqSend, run_live _ hl, hup, hm, hd, BEq.rfl, Bool.and_self, guarded_true]

omit hup hm in
theorem exec_delayReqSend_early (t1 : Nat) (hd : delayDue s p = false) : exec (.delayReqSend p t1) s = .next s := by
  show execDelayReqSend p t1 s = _
  simp only [execDelayReqSend, run_live _ hl, hd, Bool.and_false, guarded_false]

theorem exec_delayReq (t1 t2 t3 : Nat) : exec (.delayReq p t1 t2 t3 true) s =
    .next (emit (.delayRsp p t1 (t2 - (portAt s p).rxLat) (t3 + (portAt s p).txLat)) s) := by
  show execDelayReq p t1 t2 t3 s true = _
  simp only [execDelayReq, run_live _ hl, hup, hm, BEq.rfl, Bool.and_self, guarded_true, setIn, if_true]

theorem exec_delayRsp (t1 t2 t3 t4 : Nat) : exec (.delayRsp p t1 t2 t3 t4 true) s =
    .next (modPort p (fun x => { x with delay := ((t4 - x.rxLat - t1) - (t3 - t2)) / 2 }) s) := by
  show execDelayRsp p t1 t2 t3 t4 s true = _
  simp only [execDelayRsp, run_live _ hl, hup, hm, BEq.rfl, Bool.and_self, guarded_true, setIn, if_true]

/-! ## Flits that arrive (R323, R326, R328) -/

variable (hpa : (portAt s p).paused = false)

/-- The port after a flit has arrived on it, before the flit is looked at. -/
def counted (x : Port) (cor unc : Nat) : Port :=
  { x with rxCnt := x.rxCnt + 1, fecCor := x.fecCor + cor, fecUnc := x.fecUnc + unc }

omit hl hm in
theorem portAt_countRx (cor unc : Nat) : portAt (countRx p cor unc s) p = counted (portAt s p) cor unc :=
  portAt_modPort (portUp_state hup)

/-- The state in which a flit that has arrived is taken or discarded: a wrong code has been counted. -/
def arrived (p cor unc : Nat) (f : Flit) (s : State) : State :=
  if flitIntact f then countRx p cor unc s else modPort p (fun x => { x with crcErr := x.crcErr + 1 }) (countRx p cor unc s)

omit hl hm in
theorem portAt_arrived (cor unc : Nat) (f : Flit) : portAt (arrived p cor unc f s) p =
    { counted (portAt s p) cor unc with crcErr := (portAt s p).crcErr + if flitIntact f then 0 else 1 } := by
  have hc := portAt_countRx hup cor unc
  unfold arrived
  cases flitIntact f with
  | true => exact hc
  | false =>
    rw [if_neg Bool.false_ne_true, portAt_modPort (by rw [hc]; exact portUp_state hup), hc]
    rfl

include hpa in
/-- A flit that FEC gave up on or whose code is wrong is discarded. -/
theorem exec_flitReceive_bad {f : Flit} {cor unc : Nat} (hbad : unc ≠ 0 ∨ ¬ flitIntact f = true) :
    exec (.flitReceive p f cor unc) s = .next (discardFlit p (arrived p cor unc f s)) := by
  show execFlitReceive p f s cor unc = _
  simp only [execFlitReceive, run_live _ hl, hup, hm, hpa, BEq.rfl, Bool.not_false, Bool.and_self, guarded_true]
  rw [if_pos hbad]
  rfl

include hpa in
theorem exec_flitReceive_again {f : Flit} {cor unc : Nat} (hf : flitIntact f = false) (hn : (portAt s p).nakSent = true) :
    ∃ u, exec (.flitReceive p f cor unc) s = .next u ∧
      portAt u p = { portAt s p with
        rxCnt := (portAt s p).rxCnt + 1, fecCor := (portAt s p).fecCor + cor, fecUnc := (portAt s p).fecUnc + unc, crcErr := (portAt s p).crcErr + 1 } ∧
      Frame [.fab] s u := by
  have hp := portAt_arrived hup cor unc f
  simp only [hf, Bool.false_eq_true, if_false] at hp
  have hstill : discardFlit p (arrived p cor unc f s) = arrived p cor unc f s := by
    rw [discardFlit, if_pos (by rw [hp]; exact hn)]
  refine ⟨_, exec_flitReceive_bad hl hup hm hpa (.inr (by simp [hf])), ?_⟩
  rw [hstill]
  refine ⟨hp, ?_⟩
  rw [arrived, if_neg (by simp [hf])]
  exact (modPort_foot (List.Subset.refl _) _ _ (modPort_foot (List.Subset.refl _) _ _ (Foot.refl _ s))).frame

include hpa in
theorem exec_flitReceive_nak {f : Flit} {cor unc : Nat} (hu : unc ≠ 0) (hn : (portAt s p).nakSent = false) :
    ∃ u, exec (.flitReceive p f cor unc) s = .next u ∧ (portAt u p).nakSent = true ∧
      (portAt u p).fecUnc = (portAt s p).fecUnc + unc ∧ (portAt u p).rx = (portAt s p).rx := by
  have hp := portAt_arrived hup cor unc f
  have hst : (portAt (arrived p cor unc f s) p).state ≠ 0 := by rw [hp]; exact portUp_state hup
  have hset : portAt (modPort p (fun x => { x with nakSent := true }) (arrived p cor unc f s)) p = _ := portAt_modPort hst
  have hdis : discardFlit p (arrived p cor unc f s) =
      sendFlit p false true [] 0 (modPort p (fun x => { x with nakSent := true }) (arrived p cor unc f s)) := by
    rw [discardFlit, if_neg (by rw [hp]; simpa [counted] using hn)]
  obtain ⟨g, n, q, r, hsend⟩ := portAt_sendFlit false true [] 0
    (s := modPort p (fun x => { x with nakSent := true }) (arrived p cor unc f s)) (p := p) (by rw [hset]; exact hst)
  refine ⟨_, exec_flitReceive_bad hl hup hm hpa (.inl hu), ?_⟩
  rw [hdis, hsend, hset, hp]
  exact ⟨rfl, rfl, rfl⟩

/-! ## Flits that are taken -/

omit hl hup hm in
/-- The header of a flit without a NAK returns credits, no more than are owed, and acknowledges. -/
theorem portAt_takeHeader {f : Flit} {u : State} (hnak : bit f.lhdr.toNat 39 = false) (hst : (portAt u p).state ≠ 0) :
    ∃ r a n, portAt (takeHeader p f u) p =
      takeCredit (field f.lhdr.toNat 34 3) (field f.lhdr.toNat 21 13) { portAt u p with replay := r, acked := a, nakCount := n } := by
  obtain ⟨r, a, n, hack⟩ := takeAck_eq (field f.lhdr.toNat 40 12) (portAt u p)
  refine ⟨r, a, n, ?_⟩
  rw [takeHeader, hnak, if_neg Bool.false_ne_true, portAt_modPort (by rw [hack]; exact hst), hack]

include hpa in
theorem exec_flitReceive_idle {f : Flit} {cor : Nat} (hf : flitIntact f = true) (hk : field f.lhdr.toNat 37 2 = 1)
    (hnak : bit f.lhdr.toNat 39 = false) (hq : (portAt s p).txq = []) :
    ∃ u, exec (.flitReceive p f cor 0) s = .next u ∧ (portAt u p).rxCnt = (portAt s p).rxCnt + 1 ∧ let v := field f.lhdr.toNat 34 3
      (portAt u p).credits = lset (portAt s p).credits v ((portAt s p).credits.getD v 0 +
        min (field f.lhdr.toNat 21 13) ((portAt s p).owed.getD v 0)) := by
  have hc := portAt_countRx hup cor 0
  obtain ⟨r, a, n, hh⟩ := portAt_takeHeader (p := p) (u := countRx p cor 0 s) hnak (by rw [hc]; exact portUp_state hup)
  have hpump : pump p (takeHeader p f (countRx p cor 0 s)) = takeHeader p f (countRx p cor 0 s) :=
    pump_empty (by rw [hh, hc]; exact hq)
  refine ⟨takeHeader p f (countRx p cor 0 s), ?_, ?_⟩
  · show execFlitReceive p f s cor 0 = _
    simp only [execFlitReceive, run_live _ hl, hup, hm, hpa, BEq.rfl, Bool.not_false, Bool.and_self, guarded_true, hf, if_true,
      ne_eq, not_true_eq_false, or_self, if_false, hk, hpump]
  · rw [hh, hc]
    exact ⟨rfl, rfl⟩

omit hl hm in
/-- Of the port, a data flit that is taken changes SEQ, the NAK mark and the receive buffer; its header and the answer to it change
nothing of these. -/
theorem portAt_acceptFlit {f : Flit} (hnak : bit f.lhdr.toNat 39 = false) :
    let x := portAt (acceptFlit p f s) p
    x.rxSeq = ((portAt s p).rxSeq + 1) % 4096 ∧ x.rx = (portAt s p).rx ++ (unitPackets (flitUnits f) (portAt s p).part).1 ∧
      x.nakSent = false ∧ x.txq = (portAt s p).txq := by
  let q := unitPackets (flitUnits f) (portAt s p).part
  let u := modPort p (fun x => { x with rxSeq := (x.rxSeq + 1) % 4096, nakSent := false, part := q.2, rx := x.rx ++ q.1 }) s
  have hu : portAt u p = _ := portAt_modPort (portUp_state hup)
  obtain ⟨r, a, n, hh⟩ := portAt_takeHeader (p := p) (u := u) hnak (by rw [hu]; exact portUp_state hup)
  have hst : (portAt (takeHeader p f u) p).state ≠ 0 := by rw [hh, hu]; exact portUp_state hup
  obtain ⟨g, n', q', r', hsend⟩ := portAt_sendFlit false false [] 0 hst
  have hacc : acceptFlit p f s = if portUp (takeHeader p f u) p then sendFlit p false false [] 0 (takeHeader p f u) else takeHeader p f u := rfl
  rw [hacc]
  cases portUp (takeHeader p f u) p with
  | true =>
    simp only [if_true]
    rw [hsend, hh, hu]
    exact ⟨rfl, rfl, rfl, rfl⟩
  | false =>
    simp only [Bool.false_eq_true, if_false]
    rw [hh, hu]
    exact ⟨rfl, rfl, rfl, rfl⟩

include hpa in
theorem exec_flitReceive_data {f : Flit} {cor : Nat} (hf : flitIntact f = true) (hk : field f.lhdr.toNat 37 2 = 0)
    (hseq : field f.lhdr.toNat 52 12 = (portAt s p).rxSeq) (hnak : bit f.lhdr.toNat 39 = false) (hq : (portAt s p).txq = []) :
    ∃ u, exec (.flitReceive p f cor 0) s = .next u ∧ (portAt u p).rxSeq = ((portAt s p).rxSeq + 1) % 4096 ∧
      (portAt u p).rx = (portAt s p).rx ++ (unitPackets (flitUnits f) (portAt s p).part).1 ∧ (portAt u p).nakSent = false := by
  have hc := portAt_countRx hup cor 0
  have hup' : portUp (countRx p cor 0 s) p = true := by rw [portUp, hc]; exact hup
  obtain ⟨hs, hr, hn, ht⟩ := portAt_acceptFlit hup' hnak
  rw [hc] at hs hr ht
  refine ⟨acceptFlit p f (countRx p cor 0 s), ?_, hs, hr, hn⟩
  have hpump := pump_empty (ht.trans hq)
  have htake : field f.lhdr.toNat 52 12 = (portAt (countRx p cor 0 s) p).rxSeq := by rw [hc]; exact hseq
  show execFlitReceive p f s cor 0 = _
  simp only [execFlitReceive, run_live _ hl, hup, hm, hpa, BEq.rfl, Bool.not_false, Bool.and_self, guarded_true, hf, if_true,
    ne_eq, not_true_eq_false, or_self, if_false, hk, Nat.zero_ne_one]
  rw [if_pos ⟨trivial, htake⟩, hpump]

end

/-- Settles O18, clause by clause. -/
theorem linkMessages : Obligations.LinkMessages :=
  ⟨fun _ _ hl hup hm => ⟨exec_delayReqSend_due hl hup hm, exec_delayReqSend_early hl, exec_delayReq hl hup hm, exec_delayRsp hl hup hm⟩,
   fun _ _ _ _ _ hl hup hm hpa hf hn => exec_flitReceive_again hl hup hm hpa hf hn,
   fun _ _ _ _ _ hl hup hm hpa hu hn => exec_flitReceive_nak hl hup hm hpa hu hn,
   fun _ _ _ _ hl hup hm hpa hf hk hnak hq => exec_flitReceive_idle hl hup hm hpa hf hk hnak hq,
   fun _ _ _ _ hl hup hm hpa hf hk hseq hnak hq => exec_flitReceive_data hl hup hm hpa hf hk hseq hnak hq,
   fun p data nak _ start s hn => sendFlit_sends p data nak start s hn⟩

end Sys2Proof.Proofs
end

section
/-!
Doing something for every element of a list, and reading a numbered thing after it has changed.
-/
namespace Sys2Proof.Proofs
open Sys2Proof Sys2Proof.Machine Sys2Proof.Laws

/-! ## `each` -/

/-- What every turn keeps holds at the end. -/
theorem each_keeps {α : Type} {P : State → Prop} {l : List α} {f : α → State → State} (hf : ∀ x ∈ l, ∀ s, P s → P (f x s)) {s : State}
    (h : P s) : P (each l f s) := by
  induction l generalizing s with
  | nil => exact h
  | cons x l ih => exact ih (fun y hy => hf y (List.mem_cons_of_mem x hy)) (hf x List.mem_cons_self s h)

/-- What the turn of `k` brings about and every turn keeps holds at the end, where `P` is what holds all along. -/
theorem each_reaches {α : Type} {P Q : State → Prop} {l : List α} {f : α → State → State} {k : α} (hk : k ∈ l)
    (hP : ∀ x ∈ l, ∀ s, P s → P (f x s)) (hmake : ∀ s, P s → Q (f k s)) (hQ : ∀ x ∈ l, ∀ s, P s → Q s → Q (f x s)) {s : State} (h : P s) :
    Q (each l f s) := by
  induction l generalizing s with
  | nil => exact absurd hk List.not_mem_nil
  | cons x l ih =>
    have hP' : ∀ y ∈ l, ∀ s, P s → P (f y s) := fun y hy => hP y (List.mem_cons_of_mem x hy)
    have hQ' : ∀ y ∈ l, ∀ s, P s → Q s → Q (f y s) := fun y hy => hQ y (List.mem_cons_of_mem x hy)
    have hx : P (f x s) := hP x List.mem_cons_self s h
    rcases List.mem_cons.1 hk with rfl | hk
    · have both : ∀ y ∈ l, ∀ s, P s ∧ Q s → P (f y s) ∧ Q (f y s) := fun y hy s hs => ⟨hP' y hy s hs.1, hQ' y hy s hs.1 hs.2⟩
      exact (each_keeps both ⟨hx, hmake s h⟩).2
    · exact ih hk hP' hQ' hx

/-- A part of the state that no turn changes. -/
theorem each_same {α β : Type} (g : State → β) {l : List α} {f : α → State → State} (hf : ∀ x ∈ l, ∀ s, g (f x s) = g s) (s : State) :
    g (each l f s) = g s :=
  each_keeps (P := fun t => g t = g s) (fun x hx t ht => (hf x hx t).trans ht) rfl

/-! ## Numbered things -/

theorem stackAt_modStack {n : Nat} {f : Stack → Stack} {s : State} (h : f (stackAt s n) ≠ {}) :
    stackAt (modStack n f s) n = f (stackAt s n) := by
  simp only [stackAt, modStack, tmod] at h ⊢
  exact tget_tset_eq _ _ _ _ h

theorem stackAt_modStack_ne {n k : Nat} (f : Stack → Stack) (s : State) (h : k ≠ n) : stackAt (modStack n f s) k = stackAt s k := by
  simp only [stackAt, modStack, tmod]
  exact tget_tset_ne _ _ _ _ _ _ h

theorem procAt_modProc {n : Nat} {f : Proc → Proc} {s : State} (h : f (procAt s n) ≠ {}) : procAt (modProc n f s) n = f (procAt s n) := by
  simp only [procAt, modProc, tmod] at h ⊢
  exact tget_tset_eq _ _ _ _ h

theorem procAt_modProc_ne {n k : Nat} (f : Proc → Proc) (s : State) (h : k ≠ n) : procAt (modProc n f s) k = procAt s k := by
  simp only [procAt, modProc, tmod]
  exact tget_tset_ne _ _ _ _ _ _ h

theorem lceAt_modLce {n : Nat} {f : Lce1 → Lce1} {s : State} (h : f (lceAt s n) ≠ {}) : lceAt (modLce n f s) n = f (lceAt s n) := by
  simp only [lceAt, modLce, tmod] at h ⊢
  exact tget_tset_eq _ _ _ _ h

theorem lceAt_modLce_ne {n k : Nat} (f : Lce1 → Lce1) (s : State) (h : k ≠ n) : lceAt (modLce n f s) k = lceAt s k := by
  simp only [lceAt, modLce, tmod]
  exact tget_tset_ne _ _ _ _ _ _ h

theorem regAt_modReg {n : Nat} {f : Reg → Reg} {s : State} (h : f (regAt s n) ≠ {}) : regAt (modReg n f s) n = f (regAt s n) := by
  simp only [regAt, modReg, tmod] at h ⊢
  exact tget_tset_eq _ _ _ _ h

theorem regAt_modReg_ne {n k : Nat} (f : Reg → Reg) (s : State) (h : k ≠ n) : regAt (modReg n f s) k = regAt s k := by
  simp only [regAt, modReg, tmod]
  exact tget_tset_ne _ _ _ _ _ _ h

theorem portAt_modPort_ne {p k : Nat} (f : Port → Port) (s : State) (h : k ≠ p) : portAt (modPort p f s) k = portAt s k := by
  simp only [portAt, modPort, tmod]
  exact tget_tset_ne _ _ _ _ _ _ h

/-- An arrival counts one on its source, up to 255. -/
theorem srcAt_arrive (n : Nat) (s : State) : (srcAt (arrive n s) n).count = sat 8 ((srcAt s n).count + 1) := by
  have h : ({ srcAt s n with count := sat 8 ((srcAt s n).count + 1) } : Src) ≠ {} := fun e => by
    have := congrArg Src.count e
    simp only [sat] at this
    omega
  have ha : srcAt (arrive n s) n = { srcAt s n with count := sat 8 ((srcAt s n).count + 1) } := by
    simp only [srcAt, arrive, modSrc, tmod] at h ⊢
    exact tget_tset_eq _ _ _ _ h
  rw [ha]

/-! ## Rising lists -/

theorem mem_sinsert {i x : Nat} {l : List Nat} : x ∈ sinsert i l ↔ x = i ∨ x ∈ l := by
  induction l with
  | nil => simp [sinsert]
  | cons k r ih =>
    unfold sinsert
    split
    · rw [List.mem_cons, ih, List.mem_cons, or_left_comm]
    · split
      · rename_i hk
        rw [List.mem_cons, hk]
        tauto
      · rw [List.mem_cons]

theorem mem_foldl_sinsert {x : Nat} (m : List Nat) (l : List Nat) : x ∈ m.foldl (fun l i => sinsert i l) l ↔ x ∈ l ∨ x ∈ m := by
  induction m generalizing l with
  | nil => simp
  | cons i m ih =>
    rw [List.foldl_cons, ih, mem_sinsert, List.mem_cons]
    tauto

end Sys2Proof.Proofs
end

section
/-!
The phases of start-up (R661 to R671), in their order.
-/
namespace Sys2Proof.Proofs
open Sys2Proof Sys2Proof.Machine Sys2Proof.Laws

/-! ## The image (R662) -/

/-- The two ends of the checks of an image: a header that is not well formed is the first, an SVN below the fuses' the fourth. -/
theorem imageCause_ends (img : List Byte) (s : State) : (headerOk img = false ↔ imageCause s img = some 2) ∧
    (headerOk img = true → Config.fwVerify (img.take 68) ((img.drop 68).take 96) = true →
      (img.drop 20).take 48 = Config.sha384 ((img.drop 512).take (imageLen img)) → imageSvn img < s.fw.fuses.svn →
      imageCause s img = some 5) := by
  constructor
  · cases hh : headerOk img with
    | false => simp [imageCause, hh]
    | true =>
      simp only [imageCause, hh, Bool.not_true, Bool.false_eq_true, if_false, Bool.true_eq_false, false_iff]
      split_ifs <;> simp
  · intro hh hv hs hsvn
    simp [imageCause, hh, hv, hs, hsvn]

theorem exec_csbImageCheck_bad {s : State} {c : Nat} (hl : Live s) (hb : s.blk.bootState = 1)
    (hc : imageCause s s.fw.flash.image = some c) : ∃ t, exec .csbImageCheck s = .next t ∧
      t.blk.bootState = 7 ∧ t.blk.cause = c ∧ t.fw.fuses = s.fw.fuses ∧ t.fw.running = s.fw.running ∧ Frame [.blk, .fw] s t := by
  let t : State := { s with blk := { s.blk with bootState := 7, cause := c }, fw := { s.fw with recovering := false } }
  have hf : Foot [.blk, .fw] s t :=
    { Foot.refl [.blk, .fw] s with blk := .inl (by decide), fw := .inl (by decide), svn := Nat.le_refl _ }
  refine ⟨t, ?_, rfl, rfl, rfl, rfl, hf.frame⟩
  show execCsbImageCheck s = _
  simp only [execCsbImageCheck, run_live _ hl, hb, if_true, checkImage, hc, t]

/-! ## The start of the stewards (R664, R665) -/

/-- Reading the boot parameters leaves the phase of start-up. -/
theorem loadParams_bootState (s : State) : (loadParams s).blk.bootState = s.blk.bootState := by
  unfold loadParams
  dsimp only
  split
  · have h : Foot [.regs, .fab, .ic, .err] s (each (List.range 8) (loadPort s.fw.flash.params)
        (each (List.range 4) (loadEap s.fw.flash.params) (regSet 0xC00000 (fieldAt s.fw.flash.params 8 2 % 4096) s))) :=
      each_foot _ _ (fun _ _ => loadPort_foot (by decide) _ _) (each_foot _ _ (fun _ _ => loadEap_foot (by decide) _ _)
        (regSet_foot (by decide) _ _ (Foot.refl _ s)))
    rw [h.blk.resolve_left (by decide)]
  · have h : Foot [.ic, .err] { s with blk := { s.blk with cause := 0x0C } } _ := reportCe_foot (List.Subset.refl _) 0 0 0x07 0 (Foot.refl _ _)
    rw [h.blk.resolve_left (by decide)]

theorem startStewards_starts (img : List Byte) (s : State) :
    let t := startStewards img s
    t.blk.bootState = 2 ∧ t.fw = { s.fw with running := img, recovering := false } ∧ ∀ k, k < 4 → (procAt t k).pstate = 1 := by
  let u : State := { s with blk := { s.blk with bootState := 2, cause := 0, phase := 4 }, fw := { s.fw with running := img, recovering := false } }
  let v := each (List.range 4) (fun k s => modProc k (fun x => { x with pstate := 1 }) s) u
  have hv : Foot [.mbx] u v := each_foot _ _ (fun _ _ => modProc_foot (by decide) _ _) (Foot.refl _ u)
  have ht : Foot [.blk, .regs, .fab, .ic, .err] v (loadParams v) := loadParams_foot (List.Subset.refl _) (Foot.refl _ v)
  refine ⟨(loadParams_bootState v).trans (congrArg Blk.bootState (hv.blk.resolve_left (by decide))),
    (ht.fw.resolve_left (by decide)).trans (hv.fw.resolve_left (by decide)), fun k hk => ?_⟩
  have hp : procAt (loadParams v) k = procAt v k := by rw [procAt, ht.mbx.resolve_left (by decide), procAt]
  have hset : ∀ w : State, (procAt (modProc k (fun x => { x with pstate := 1 }) w) k).pstate = 1 := fun w => by
    rw [procAt_modProc (fun e => Nat.one_ne_zero (congrArg Proc.pstate e))]
  show (procAt (loadParams v) k).pstate = 1
  rw [hp]
  refine each_reaches (P := fun _ => True) (Q := fun t => (procAt t k).pstate = 1) (List.mem_range.2 hk) (fun _ _ _ _ => trivial) (fun w _ => hset w) (fun n _ w _ hw => ?_) trivial
  by_cases hn : k = n
  · exact hn ▸ hset w
  · rw [procAt_modProc_ne _ _ hn]
    exact hw

theorem exec_csbImageCheck_good {s : State} (hl : Live s) (hb : s.blk.bootState = 1) (hc : imageCause s s.fw.flash.image = none) :
    ∃ t, exec .csbImageCheck s = .next t ∧ t.blk.bootState = 2 ∧ t.fw.running = s.fw.flash.image ∧
      (∀ k, k < 4 → (procAt t k).pstate = 1) ∧ t.fw.fuses.svn = max s.fw.fuses.svn (imageSvn s.fw.flash.image) ∧
      t.fw.flash = s.fw.flash := by
  obtain ⟨hboot, hfw, hproc⟩ := startStewards_starts s.fw.flash.image (raiseSvn s.fw.flash.image s)
  refine ⟨_, ?_, hboot, by rw [hfw], hproc, by rw [hfw]; rfl, by rw [hfw]; rfl⟩
  show execCsbImageCheck s = _
  simp only [execCsbImageCheck, run_live _ hl, hb, if_true, checkImage, hc, Bool.not_false]

/-! ## Recovery (R668, R669, R671) -/

theorem exec_csbImageCheck_recovery {s : State} (hl : Live s) (hb : s.blk.bootState = 7) (hr : s.fw.recovering = true)
    (hw : s.fw.writing = none) (ho : ∀ r ∈ s.ports.oreq, r.use ≠ .recovery) (hc : imageCause s s.fw.recovery = none) :
    exec .csbImageCheck s = .next (
      if bit (regGet s 0x30) 30 then { s with fw := { s.fw with writing := some 0 } } else startStewards s.fw.recovery s) := by
  have hdone : s.ports.oreq.any (fun r => r.use == .recovery) = false := List.any_eq_false.2 fun r hr => by simpa using ho r hr
  show execCsbImageCheck s = _
  rw [execCsbImageCheck, run_live _ hl, if_neg (by omega), if_pos ⟨hb, hr, hw, by simp [hdone]⟩]
  simp only [checkImage, hc, Bool.not_true, Bool.false_eq_true, if_false]

theorem exec_recoveryGo_fetches {s : State} {v : W32} (hl : Live s) (hi : s.blk.ireqReady = true) (hv : bit v.toNat 31 = true)
    (hb : s.blk.bootState = 7) (hr : s.fw.recovering = false) : ∃ t, exec (.recoveryGo v) s = .next t ∧
      t.fw.recovering = true ∧ t.fw.recovery = [] ∧ t.blk = s.blk ∧ same .cells s t := by
  have hw : Foot [.regs] s (regWrite 0x30 v.toNat s) := regWrite_foot (List.Subset.refl _) _ _ (Foot.refl _ s)
  have hblk := hw.blk.resolve_left (by decide)
  have hfw := hw.fw.resolve_left (by decide)
  let u : State := { regWrite 0x30 v.toNat s with fw := { (regWrite 0x30 v.toNat s).fw with recovering := true, recovery := [] } }
  have hu : Foot [.regs, .fw] s u := { hw.mono (by decide) with fw := .inl (by decide), svn := hw.svn }
  have hreads : ∃ (l : List Nat) (g : Nat → State → OreqRead), exec (.recoveryGo v) s = .next (each l (fun i w => askRead (g i w) w) u) := by
    show ∃ (l : List Nat) (g : Nat → State → OreqRead), execRecoveryGo v s = _
    simp only [execRecoveryGo, run_live _ hl, hi, hv, Bool.and_self, guarded_true]
    rw [if_neg (by simp [hblk, hfw, hb, hr])]
    exact ⟨_, _, rfl⟩
  obtain ⟨l, g, he⟩ := hreads
  obtain ⟨t, et⟩ : ∃ t, t = each l (fun i w => askRead (g i w) w) u := ⟨_, rfl⟩
  have ht : Foot [.ports] u t := et ▸ each_foot _ _ (fun i w => askRead_foot (by decide) (g i w)) (Foot.refl _ u)
  rw [← et] at he
  have htfw : t.fw = u.fw := ht.fw.resolve_left (by decide)
  have hcells : same .cells s u := hu.frame .cells (by decide)
  have hcells' : same .cells u t := ht.frame .cells (by decide)
  exact ⟨t, he, congrArg Fw.recovering htfw, congrArg Fw.recovery htfw, (ht.blk.resolve_left (by decide)).trans (hu.blk.resolve_left (by decide)),
    fun x => (hcells'.1 x).trans (hcells.1 x), hcells'.2.1.trans hcells.2.1, hcells'.2.2.trans hcells.2.2⟩

/-! ## The bond test (R50) -/

section
variable {s : State} (hl : Live s)
include hl

theorem exec_strataBondTest_bond (m n : Bool) (f g b : List Nat) (hb : s.blk.bootState = 2) :
    exec (.strataBondTest m n f g b) s = .next (bondTest m n f g s) := by
  show execStrataBondTest m n f g b s = _
  simp only [execStrataBondTest, run_live _ hl, hb, if_true]

theorem exec_strataBondTest_mismatch (m n : Bool) (f g b : List Nat) (hb : s.blk.bootState = 2) (hmn : (m && n) = false) :
    ∃ t, exec (.strataBondTest m n f g b) s = .next t ∧ t.blk.bootState = 8 ∧ t.blk.cause = 7 ∧
      t.mbx = (each (List.range 4) (fun k s => modProc k (fun x => { x with pstate := 0 }) s) s).mbx := by
  refine ⟨_, exec_strataBondTest_bond hl m n f g b hb, ?_⟩
  rw [bondTest, hmn, if_pos (by decide)]
  exact ⟨rfl, rfl, rfl⟩

theorem exec_strataBondTest_groups (f g b : List Nat) (hb : s.blk.bootState = 2) (h8 : 8 < (f.foldl (fun l i => sinsert i l) []).length) :
    ∃ t, exec (.strataBondTest true true f g b) s = .next t ∧ t.blk.bootState = 8 ∧ t.blk.cause = 8 := by
  refine ⟨_, exec_strataBondTest_bond hl true true f g b hb, ?_⟩
  rw [bondTest, if_neg (by decide), if_pos (.inl h8)]
  exact ⟨rfl, rfl⟩

theorem exec_strataBondTest_pass (f g b : List Nat) (hb : s.blk.bootState = 2) (hf : (f.foldl (fun l i => sinsert i l) []).length ≤ 8)
    (hg : (g.foldl (fun l i => sinsert i l) []).length ≤ 8) : ∃ t, exec (.strataBondTest true true f g b) s = .next t ∧
      t.blk.bootState = 3 ∧ t.blk.phase = 6 ∧ t.blk.strataOk = true ∧ t.blk.bgFailed0 = f.foldl (fun l i => sinsert i l) [] ∧
      t.blk.bgFailed1 = g.foldl (fun l i => sinsert i l) [] := by
  refine ⟨_, exec_strataBondTest_bond hl true true f g b hb, ?_⟩
  rw [bondTest, if_neg (by decide), if_neg (by omega)]
  exact ⟨rfl, rfl, rfl, rfl, rfl⟩

end

end Sys2Proof.Proofs
end

section
/-!
The later phases of start-up (R88, R315, R316, R319, R666, R670): the array map, the training of the stacks and ports, READY.
-/
namespace Sys2Proof.Proofs
open Sys2Proof Sys2Proof.Machine Sys2Proof.Laws

/-! ## The array map (R88) -/

/-- In a list numbered from 0, a number names one element. -/
theorem getElem?_of_mem_zip_range {α : Type} {l : List α} {m j : Nat} {a : α} (h : (a, j) ∈ l.zip (List.range m)) : l[j]? = some a := by
  obtain ⟨k, hk⟩ := List.mem_iff_getElem?.1 h
  obtain ⟨ha, hj⟩ := List.getElem?_zip_eq_some.1 hk
  obtain ⟨_, e⟩ := List.getElem?_eq_some_iff.1 hj
  rw [List.getElem_range] at e
  subst e
  exact ha

/-- The `i`-th of the arrays of a sector that work is logical array `i` of the sector. -/
theorem physOf_mapSector {s : State} {b : List Nat} {n i p : Nat} (hi : i < 72)
    (hp : (((List.range 76).map (fun i => 76 * n + i)).filter (fun p => !s.fw.fuses.failed.contains p && !b.contains p))[i]? = some p) :
    physOf (mapSector b n s) (72 * n + i) = some p := by
  have hmem : (p, i) ∈ ((((List.range 76).map (fun i => 76 * n + i)).filter
      (fun p => !s.fw.fuses.failed.contains p && !b.contains p)).take 72).zip (List.range 72) :=
    List.mem_iff_getElem?.2 ⟨i, List.getElem?_zip_eq_some.2 ⟨by rw [List.getElem?_take, if_pos hi, hp], List.getElem?_range hi⟩⟩
  have hmap : tget 0 (mapSector b n s).arr.lmap (72 * n + i) = p + 1 := by
    unfold mapSector
    refine each_reaches (P := fun _ => True) (Q := fun t => tget 0 t.arr.lmap (72 * n + i) = p + 1) hmem (fun _ _ _ _ => trivial)
      (fun t _ => tget_tset_eq _ _ _ _ (Nat.succ_ne_zero p)) (fun e he t _ ht => ?_) trivial
    by_cases hj : i = e.2
    · have hsame : some p = some e.1 := by
        have he' := getElem?_of_mem_zip_range (a := e.1) (j := e.2) he
        rw [← hj, List.getElem?_take, if_pos hi, hp] at he'
        exact he'
      obtain rfl : p = e.1 := Option.some.inj hsame
      subst hj
      exact tget_tset_eq _ _ _ _ (Nat.succ_ne_zero _)
    · exact (tget_tset_ne _ _ _ _ _ _ (by omega)).trans ht
  rw [physOf, hmap]

/-! ## Stacks -/

/-- Of memory, a stack that loses its storage changes its own state and channels. -/
theorem stackOut_mem (n st : Nat) (s : State) :
    ∃ c, (stackOut n st s).mem = { s.mem with stack := tmod {} s.mem.stack n (fun x => { x with state := st }), chan := c } := by
  unfold stackOut
  refine each_keeps (P := fun t => ∃ c, t.mem = { s.mem with stack := tmod {} s.mem.stack n (fun x => { x with state := st }), chan := c })
    (fun i _ t ht => ?_) ⟨s.mem.chan, rfl⟩
  obtain ⟨c, hc⟩ := ht
  exact ⟨_, by rw [modChan_mem, hc]⟩

theorem stackAt_stackOut {n st : Nat} (s : State) (h : st ≠ 0) : (stackAt (stackOut n st s) n).state = st := by
  obtain ⟨c, hc⟩ := stackOut_mem n st s
  rw [stackAt, hc, tmod, tget_tset_eq]
  exact fun e => h (congrArg Stack.state e)

theorem stackAt_stackOut_ne {n k st : Nat} (s : State) (h : k ≠ n) : stackAt (stackOut n st s) k = stackAt s k := by
  obtain ⟨c, hc⟩ := stackOut_mem n st s
  rw [stackAt, hc, tmod, tget_tset_ne _ _ _ _ _ _ h, stackAt]

/-- A stack is there exactly as its state says. -/
theorem stackGone_congr {s t : State} {k : Nat} (h : stackAt t k = stackAt s k) : stackGone t k = stackGone s k := by
  simp only [stackGone, h]

/-! ## What the phases do -/

/-- Phase 6 of start-up for one stack: it begins to train, or has no clock and is gone (R70). -/
def stackBegins (n : Nat) (w : State) : State :=
  if !w.blk.mcOk.contains n ∨ stackGone w n = true then stackOut n 4 w else modStack n (fun x => { x with state := 1 }) w

theorem stackBegins_blk (n : Nat) (w : State) : (stackBegins n w).blk = w.blk :=
  (Foot.ite (stackOut_foot (List.Subset.refl _) _ _ (Foot.refl _ w))
    (modStack_foot (List.Subset.refl _) _ _ (Foot.refl _ w))).blk.resolve_left (by decide)

theorem stackAt_stackBegins_ne {n k : Nat} (w : State) (h : k ≠ n) : stackAt (stackBegins n w) k = stackAt w k := by
  unfold stackBegins
  split
  · exact stackAt_stackOut_ne w h
  · exact stackAt_modStack_ne _ w h

theorem stackAt_stackBegins {k : Nat} {w : State} (hclk : k ∈ w.blk.mcOk) (hgone : stackGone w k = false) :
    (stackAt (stackBegins k w) k).state = 1 := by
  have hc : ¬ ((!w.blk.mcOk.contains k) = true ∨ stackGone w k = true) := by simp [hgone, hclk]
  rw [stackBegins, if_neg hc, stackAt_modStack (fun e => Nat.one_ne_zero (congrArg Stack.state e))]

/-- A stack that is there and has its clock trains when all have had their turn. -/
theorem stackBegins_all {v : State} {k : Nat} (hk : k < 12) (hclk : k ∈ v.blk.mcOk) (hgone : stackGone v k = false) :
    (stackAt (each (List.range 12) stackBegins v) k).state = 1 := by
  refine each_reaches (f := stackBegins) (P := fun w => k ∈ w.blk.mcOk ∧ stackGone w k = false) (Q := fun w => (stackAt w k).state = 1)
    (List.mem_range.2 hk) (fun n _ w hw => ?_) (fun w hw => stackAt_stackBegins hw.1 hw.2) (fun n _ w hw hq => ?_) ⟨hclk, hgone⟩
  · refine ⟨by rw [stackBegins_blk]; exact hw.1, ?_⟩
    by_cases hn : k = n
    · simp [stackGone, ← hn, stackAt_stackBegins hw.1 hw.2]
    · rw [stackGone_congr (stackAt_stackBegins_ne w hn), hw.2]
  · by_cases hn : k = n
    · exact hn ▸ stackAt_stackBegins hw.1 hw.2
    · rw [stackAt_stackBegins_ne w hn, hq]

/-- A stack that fails phase 1 or 2 of the training (R315, R316). -/
def stackFails (n : Nat) (w : State) : State := reportCe 3 (64 * n) 0x07 0 (stackOut n 5 w)

theorem stackFails_mem (n : Nat) (w : State) : (stackFails n w).mem = (stackOut n 5 w).mem :=
  (reportCe_foot (List.Subset.refl _) 3 (64 * n) 0x07 0 (Foot.refl _ _)).mem.resolve_left (by decide)

theorem stackAt_stackFails (n : Nat) (w : State) : (stackAt (stackFails n w) n).state = 5 := by
  rw [stackAt, stackFails_mem]
  exact stackAt_stackOut w (by decide)

theorem stackAt_stackFails_ne {n k : Nat} (w : State) (h : k ≠ n) : stackAt (stackFails n w) k = stackAt w k := by
  rw [stackAt, stackFails_mem]
  exact stackAt_stackOut_ne w h

/-- Phases 1 and 2: a stack that fails has state 5, the others stay in training. -/
theorem stackAt_trainInit {f : List Nat} {u : State} {x : Nat} (hx : x < 12) (hst : (stackAt u x).state = 1) :
    (stackAt (trainInit f u) x).state = if x ∈ f then 5 else 1 := by
  show (stackAt (each ((trainees u).filter (fun n => f.contains n)) stackFails u) x).state = _
  by_cases hf : x ∈ f
  · rw [if_pos hf]
    have hmem : x ∈ (trainees u).filter (fun n => f.contains n) := by simp [trainees, hx, hst, hf]
    refine each_reaches (f := stackFails) (P := fun _ => True) (Q := fun w => (stackAt w x).state = 5) hmem (fun _ _ _ _ => trivial)
      (fun w _ => stackAt_stackFails x w) (fun n _ w _ hw => ?_) trivial
    by_cases hn : x = n
    · exact hn ▸ stackAt_stackFails x w
    · rw [stackAt_stackFails_ne w hn, hw]
  · rw [if_neg hf]
    refine each_keeps (f := stackFails) (P := fun w => (stackAt w x).state = 1) (fun n hn w hw => ?_) hst
    have hne : x ≠ n := fun e => hf (e ▸ List.contains_iff_mem.1 (List.mem_filter.1 hn).2)
    rw [stackAt_stackFails_ne w hne, hw]

theorem trainInit_train (f : List Nat) (u : State) : (trainInit f u).mem.train = u.mem.train := by
  refine each_same (f := stackFails) (fun w => w.mem.train) (fun n _ w => ?_) u
  obtain ⟨c, hc⟩ := stackOut_mem n 5 w
  rw [stackFails_mem, hc]

/-- A pass over whole stacks changes their counters of runs and page groups. -/
theorem trainPasses_mem (k : Nat) (u : State) : ∃ r g, (trainPasses k u).mem = { u.mem with runs := r, groups := g } := by
  refine each_keeps (P := fun w => ∃ r g, w.mem = { u.mem with runs := r, groups := g }) (fun n _ w hw => ?_) ⟨u.mem.runs, u.mem.groups, rfl⟩
  obtain ⟨r, g, hw⟩ := hw
  exact ⟨_, _, by rw [countRuns, hw]⟩

/-- Phase 6 of the training ends in port training, or with every stack gone in FAILED. -/
theorem trainEnd_ends (u : State) :
    ((trainEnd u).blk.bootState = 5 ∧ (trainEnd u).blk.phase = 8) ∨
      ((trainEnd u).blk.bootState = 8 ∧ (trainEnd u).blk.cause = 9 ∧ ∀ n, n < 12 → stackGone (trainEnd u) n = true) := by
  unfold trainEnd
  dsimp only
  split
  · rename_i hall
    exact .inr ⟨rfl, rfl, fun n hn => List.all_eq_true.1 hall n (List.mem_range.2 hn)⟩
  · refine .inl ?_
    rw [each_same State.blk (fun p _ w => ?_)]
    · exact ⟨rfl, rfl⟩
    · exact (Foot.ite (trainFresh_foot (List.Subset.refl _) p (Foot.refl _ w)) (Foot.refl _ w)).blk.resolve_left (by decide)

/-- The end of the time for port training at one port: a port that still trains is logged once (R319). -/
def portTimesOut (p : Nat) (w : State) : State :=
  if portTrains w p ∧ (portAt w p).state = 1 ∧ (portAt w p).logged = false then laneCe p (modPort p (fun x => { x with logged := true }) w)
  else w

theorem portTimesOut_foot {r w : State} (p : Nat) (h : Foot [.fab, .ic, .err] r w) : Foot [.fab, .ic, .err] r (portTimesOut p w) :=
  Foot.ite (laneCe_foot (by decide) p (modPort_foot (by decide) _ _ h)) h

theorem portAt_laneCe (q p : Nat) (w : State) : portAt (laneCe q w) p = portAt w p := by
  rw [portAt, (laneCe_foot (List.Subset.refl _) q (Foot.refl _ w)).fab.resolve_left (by decide), portAt]

theorem portAt_portTimesOut_ne {p q : Nat} (w : State) (h : p ≠ q) : portAt (portTimesOut q w) p = portAt w p := by
  unfold portTimesOut
  split
  · rw [portAt_laneCe, portAt_modPort_ne _ _ h]
  · rfl

theorem portAt_portTimesOut {p : Nat} {w : State} (ht : portTrains w p = true) (hst : (portAt w p).state = 1) :
    (portAt (portTimesOut p w) p).logged = true ∧ (portAt (portTimesOut p w) p).state = 1 := by
  unfold portTimesOut
  cases hlog : (portAt w p).logged with
  | true => simp [hlog, hst]
  | false =>
    rw [if_pos ⟨ht, hst, rfl⟩, portAt_laneCe, portAt_modPort (by rw [hst]; exact Nat.one_ne_zero)]
    exact ⟨rfl, hst⟩

theorem portTrains_portTimesOut (p q : Nat) (w : State) : portTrains (portTimesOut q w) p = portTrains w p := by
  have h := portTimesOut_foot q (Foot.refl _ w)
  simp only [portTrains, portMode, regGet, h.regs.resolve_left (by decide), h.blk.resolve_left (by decide)]

/-- A port that still trains is logged when all have had their turn. -/
theorem portTimesOut_all {s : State} {p : Nat} (hp : p < 8) (ht : portTrains s p = true) (hst : (portAt s p).state = 1) :
    (portAt (each (List.range 8) portTimesOut s) p).logged = true := by
  refine each_reaches (f := portTimesOut) (P := fun w => portTrains w p = true ∧ (portAt w p).state = 1)
    (Q := fun w => (portAt w p).logged = true) (List.mem_range.2 hp)
    (fun q _ w hw => ⟨(portTrains_portTimesOut p q w).trans hw.1, ?_⟩) (fun w hw => (portAt_portTimesOut hw.1 hw.2).1)
    (fun q _ w hw hlog => ?_) ⟨ht, hst⟩
  · by_cases hq : p = q
    · exact hq ▸ (portAt_portTimesOut hw.1 hw.2).2
    · rw [portAt_portTimesOut_ne w hq, hw.2]
  · by_cases hq : p = q
    · exact hq ▸ (portAt_portTimesOut hw.1 hw.2).1
    · rw [portAt_portTimesOut_ne w hq, hlog]

/-- The regulators as READY leaves them: regulator 0 and the host's have their reset rates (R294). -/
theorem ready_rates (u : State) :
    let t := each (List.range 13) (fun r s => modReg r (fun x => { x with state := 1 }) s) (startRate 12 12 (startRate 0 112 u))
    (regAt t 0).rate = 112 ∧ (regAt t 12).rate = 12 := by
  have hkeep : ∀ (r k : Nat) (w : State), (regAt w k).rate ≠ 0 →
      (regAt (modReg r (fun x => { x with state := 1 }) w) k).rate = (regAt w k).rate := fun r k w h => by
    by_cases hr : k = r
    · subst hr
      rw [regAt_modReg (fun e => h (congrArg Reg.rate e))]
    · rw [regAt_modReg_ne _ _ hr]
  have hset : ∀ (r rate : Nat) (w : State), rate ≠ 0 → (regAt (startRate r rate w) r).rate = rate := fun r rate w h => by
    rw [startRate, regAt_modReg (fun e => h (congrArg Reg.rate e))]
  have hne : ∀ (r k rate : Nat) (w : State), k ≠ r → regAt (startRate r rate w) k = regAt w k := fun r k rate w h => by
    rw [startRate, regAt_modReg_ne _ _ h]
    rfl
  constructor
  · refine each_keeps (P := fun t => (regAt t 0).rate = 112) (fun r _ w hw => ?_) ?_
    · rw [hkeep r 0 w (by rw [hw]; decide), hw]
    · rw [hne 12 0 12 _ (by decide), hset 0 112 u (by decide)]
  · refine each_keeps (P := fun t => (regAt t 12).rate = 12) (fun r _ w hw => ?_) (hset 12 12 _ (by decide))
    rw [hkeep r 12 w (by rw [hw]; decide), hw]

/-- The lookup engines as READY leaves them. -/
theorem ready_engines (u : State) (k : Nat) (hk : k < 48) :
    (lceAt (each (List.range 48) (fun n s => modLce n (fun x => { x with state := 1 }) s) u) k).state = 1 := by
  have hset : ∀ w : State, (lceAt (modLce k (fun x => { x with state := 1 }) w) k).state = 1 := fun w => by
    rw [lceAt_modLce (fun e => Nat.one_ne_zero (congrArg Lce1.state e))]
  refine each_reaches (P := fun _ => True) (Q := fun w => (lceAt w k).state = 1) (List.mem_range.2 hk) (fun _ _ _ _ => trivial)
    (fun w _ => hset w) (fun n _ w _ hw => ?_) trivial
  by_cases hn : k = n
  · exact hn ▸ hset w
  · rw [lceAt_modLce_ne _ _ hn, hw]

section
variable {s : State} (hl : Live s)
include hl

/-! ## Phase 6 (R70, R88, R128) -/

theorem exec_strataBondTest_arrays (m n : Bool) (f g b : List Nat) (hb : s.blk.bootState = 3) :
    ∃ t, exec (.strataBondTest m n f g b) s = .next t ∧ t.blk.bootState = 4 ∧ t.blk.phase = 7 ∧
      (∀ k, k < 12 → k ∈ s.blk.mcOk → stackGone s k = false → (stackAt t k).state = 1) := by
  obtain ⟨v, hv⟩ : ∃ v, v = each (List.range 12) (mapSector b) { s with blk := { s.blk with bootState := 4, phase := 7 } } := ⟨_, rfl⟩
  have hrun : exec (.strataBondTest m n f g b) s = .next (each (List.range 12) stackBegins v) := by
    show execStrataBondTest m n f g b s = _
    rw [execStrataBondTest, run_live _ hl, if_neg (by omega), if_pos hb, hv]
    rfl
  have hf : Foot [.arr] { s with blk := { s.blk with bootState := 4, phase := 7 } } v :=
    hv ▸ each_foot _ _ (fun _ _ => mapSector_foot (List.Subset.refl _) _ _) (Foot.refl _ _)
  have hblk : v.blk = { s.blk with bootState := 4, phase := 7 } := hf.blk.resolve_left (by decide)
  have hend : (each (List.range 12) stackBegins v).blk = { s.blk with bootState := 4, phase := 7 } :=
    (each_same State.blk (fun n _ w => stackBegins_blk n w) v).trans hblk
  refine ⟨_, hrun, by rw [hend], by rw [hend], fun k hk hclk hgone => ?_⟩
  have hvk : stackAt v k = stackAt s k := by rw [stackAt, hf.mem.resolve_left (by decide), stackAt]
  exact stackBegins_all hk (by rw [hblk]; exact hclk) ((stackGone_congr hvk).trans hgone)

/-! ## The training of the stacks (R315, R316) -/

theorem exec_stackTraining_outOfTurn (k : Nat) (f : List Nat) (c : List (Nat × Nat)) (n : Nat) (hk : k ≠ s.mem.train + 1) :
    exec (.stackTraining f c k n) s = .next s := by
  show execStackTraining f c s k n = _
  have hne : (k == s.mem.train + 1) = false := by simp [hk]
  simp only [execStackTraining, run_live _ hl, hne, Bool.and_false, guarded_false]

theorem exec_stackTraining_init (f : List Nat) (c : List (Nat × Nat)) (n : Nat) (hb : s.blk.bootState = 4) (ht : s.mem.train = 0) :
    ∃ t, exec (.stackTraining f c 1 n) s = .next t ∧ t.mem.train = 1 ∧
      (∀ x, x < 12 → (stackAt s x).state = 1 → (stackAt t x).state = if x ∈ f then 5 else 1) := by
  let u : State := { s with mem := { s.mem with train := 1 } }
  let v := each (trainees u) (fun n s => emit (.dfiInit n) s) u
  have hrun : exec (.stackTraining f c 1 n) s = .next (trainInit f v) := by
    show execStackTraining f c s 1 n = _
    simp only [execStackTraining, run_live _ hl, hb, ht, Nat.zero_add, BEq.rfl, Bool.and_self, guarded_true]
    rfl
  have hv : v.mem = u.mem := each_same State.mem (f := fun n s => emit (.dfiInit n) s) (fun _ _ _ => rfl) u
  refine ⟨_, hrun, by rw [trainInit_train, hv], fun x hx hst => stackAt_trainInit hx ?_⟩
  rw [stackAt, hv]
  exact hst

theorem exec_stackTraining_granules (f : List Nat) (c : List (Nat × Nat)) (n : Nat) (hb : s.blk.bootState = 4) (ht : s.mem.train = 3) :
    ∃ t, exec (.stackTraining f c 4 n) s = .next t ∧ t.mem.train = 4 ∧
      (∀ x, x ∈ t.mem.trainBad ↔ x ∈ s.mem.trainBad ∨ (x < 768 ∧ ∃ m, 64 < m ∧ (x, m) ∈ c)) ∧ same .cells s t := by
  let u : State := { s with mem := { s.mem with train := 4 } }
  obtain ⟨r, g, hm⟩ := trainPasses_mem 4 u
  have hrun : exec (.stackTraining f c 4 n) s =
      .next (trainFails ((c.filter (fun c => decide (64 < c.2))).map (fun c => c.1)) (trainPasses 4 u)) := by
    show execStackTraining f c s 4 n = _
    simp only [execStackTraining, run_live _ hl, hb, ht, BEq.rfl, Bool.and_self, guarded_true]
    rfl
  refine ⟨_, hrun, ?_, fun x => ?_, fun x => ?_, ?_, ?_⟩
  case refine_2 =>
    have hbad : (x < 768 ∧ ∃ m, 64 < m ∧ (x, m) ∈ c) ↔
        x ∈ ((c.filter (fun c => decide (64 < c.2))).map (fun c => c.1)).filter (fun c => decide (c < 768)) := by
      simp only [List.mem_filter, List.mem_map, decide_eq_true_eq, Prod.exists, exists_and_right, exists_eq_right]
      exact ⟨fun ⟨h, m, hm, hc⟩ => ⟨⟨m, hc, hm⟩, h⟩, fun ⟨⟨m, hc, hm⟩, h⟩ => ⟨h, m, hm, hc⟩⟩
    rw [hbad, trainFails, hm, mem_foldl_sinsert]
  all_goals rw [trainFails, hm]

theorem exec_stackTraining_zeroes (f : List Nat) (c : List (Nat × Nat)) (n : Nat) (hb : s.blk.bootState = 4) (ht : s.mem.train = 4) :
    ∃ t, exec (.stackTraining f c 5 n) s = .next t ∧ t.mem.train = 5 ∧
      (∀ a, tget 0 t.mem.cells a = 0) ∧ t.mem.poison = [] ∧ t.mem.trainBad = s.mem.trainBad := by
  let u : State := { s with mem := { s.mem with train := 5, cells := [], poison := [] } }
  obtain ⟨r, g, hm⟩ := trainPasses_mem 1 u
  have hrun : exec (.stackTraining f c 5 n) s = .next (trainPasses 1 u) := by
    show execStackTraining f c s 5 n = _
    simp only [execStackTraining, run_live _ hl, hb, ht, BEq.rfl, Bool.and_self, guarded_true]
    rfl
  refine ⟨_, hrun, ?_, fun a => ?_, ?_, ?_⟩
  all_goals rw [hm]
  rfl

theorem exec_stackTraining_end (f : List Nat) (c : List (Nat × Nat)) (n : Nat) (hb : s.blk.bootState = 4) (ht : s.mem.train = 5) :
    ∃ t, exec (.stackTraining f c 6 n) s = .next t ∧ ((t.blk.bootState = 5 ∧ t.blk.phase = 8) ∨
      (t.blk.bootState = 8 ∧ t.blk.cause = 9 ∧ ∀ n, n < 12 → stackGone t n = true)) := by
  refine ⟨trainEnd { s with mem := { s.mem with train := 6 } }, ?_, trainEnd_ends _⟩
  show execStackTraining f c s 6 n = _
  simp only [execStackTraining, run_live _ hl, hb, ht, BEq.rfl, Bool.and_self, guarded_true]

/-! ## The ports, and READY (R319, R666, R670) -/

theorem exec_portTrainingTimeout_start (hb : s.blk.bootState = 5) : ∃ t, exec .portTrainingTimeout s = .next t ∧
    t.blk.phase = 9 ∧ t.blk.bootState = 5 ∧
    (∀ p, p < 8 → portTrains s p = true → (portAt s p).state = 1 → (portAt t p).logged = true) := by
  obtain ⟨v, hv⟩ : ∃ v, v = each (List.range 8) portTimesOut s := ⟨_, rfl⟩
  have hf : Foot [.fab, .ic, .err] s v := hv ▸ each_foot _ _ (fun p _ => portTimesOut_foot p) (Foot.refl _ s)
  have hboot : v.blk.bootState = 5 := by rw [hf.blk.resolve_left (by decide), hb]
  have hrun : exec .portTrainingTimeout s = .next { v with blk := { v.blk with phase := 9 } } := by
    show execPortTrainingTimeout s = _
    simp only [execPortTrainingTimeout, run_live _ hl, hb, BEq.rfl, Bool.true_or, guarded_true]
    rw [hv] at hboot ⊢
    exact congrArg Host.Outcome.next (if_pos hboot)
  exact ⟨_, hrun, rfl, hboot, fun p hp ht hst => hv ▸ portTimesOut_all hp ht hst⟩

theorem exec_reportReady_ready (n : Nat) (hb : s.blk.bootState = 5) (hp : portsReady s = true) :
    ∃ t, exec (.reportReady n) s = .next t ∧ t.blk.bootState = 6 ∧ t.blk.phase = 10 ∧ t.blk.readyMs = min n 0xFFF ∧
      (srcAt t 36).count = sat 8 ((srcAt s 36).count + 1) ∧ (∀ k, k < 48 → (lceAt t k).state = 1) ∧ (regAt t 0).rate = 112 ∧
      (regAt t 12).rate = 12 ∧ t.pm.listen = some 0 := by
  obtain ⟨u, hu⟩ : ∃ u, u = regSet 0xC00004 1 (regSet 0x10 1 s) := ⟨_, rfl⟩
  obtain ⟨v, hv⟩ : ∃ v, v = each (List.range 13) (fun r s => modReg r (fun x => { x with state := 1 }) s) (startRate 12 12 (startRate 0 112 u)) :=
    ⟨_, rfl⟩
  obtain ⟨w, hw⟩ : ∃ w, w = each (List.range 48) (fun n s => modLce n (fun x => { x with state := 1 }) s)
    { v with rg := { v.rg with deal := dealOf v } } := ⟨_, rfl⟩
  have hrun : exec (.reportReady n) s = .next (arrive 36 { w with
      blk := { w.blk with bootState := 6, phase := 10, readyMs := min n 0xFFF }, pm := { w.pm with listen := some 0 } }) := by
    show execReportReady n s = _
    simp only [execReportReady, run_live _ hl, hb, hp, BEq.rfl, Bool.and_self, guarded_true]
    rw [hw, hv, hu]
  have hfv : Foot [.regs, .rg] s v := hv ▸ each_foot _ _ (fun _ _ => modReg_foot (by decide) _ _)
    (startRate_foot (by decide) _ _ (startRate_foot (by decide) _ _ (hu ▸ regSet_foot (by decide) _ _ (regSet_foot (by decide) _ _ (Foot.refl _ s)))))
  have hfw : Foot [.lce] { v with rg := { v.rg with deal := dealOf v } } w :=
    hw ▸ each_foot _ _ (fun _ _ => modLce_foot (List.Subset.refl _) _ _) (Foot.refl _ _)
  have hic : w.ic = s.ic := (hfw.ic.resolve_left (by decide)).trans (hfv.ic.resolve_left (by decide))
  have hrg : ∀ k, regAt w k = regAt v k := fun k => by rw [regAt, hfw.rg.resolve_left (by decide), regAt]
  obtain ⟨hr0, hr12⟩ := hv ▸ ready_rates u
  refine ⟨_, hrun, rfl, rfl, rfl, ?_, fun k hk => ?_, (congrArg Reg.rate (hrg 0)).trans hr0, (congrArg Reg.rate (hrg 12)).trans hr12, rfl⟩
  · rw [srcAt_arrive, srcAt, hic, srcAt]
  · have h := ready_engines { v with rg := { v.rg with deal := dealOf v } } k hk
    rw [← hw] at h
    exact h

end

/-- Settles O43, phase by phase. -/
theorem startUp : Obligations.StartUp :=
  ⟨fun _ _ hl hb hc => exec_csbImageCheck_bad hl hb hc,
   fun _ hl hb hc => exec_csbImageCheck_good hl hb hc,
   fun _ hl hb hr hw ho hc => exec_csbImageCheck_recovery hl hb hr hw ho hc,
   imageCause_ends,
   fun _ _ hl hi hv hb hr => exec_recoveryGo_fetches hl hi hv hb hr,
   fun _ m n f g b hl hb hmn => exec_strataBondTest_mismatch hl m n f g b hb hmn,
   fun _ f g b hl hb h8 => exec_strataBondTest_groups hl f g b hb h8,
   fun _ f g b hl hb hf hg => exec_strataBondTest_pass hl f g b hb hf hg,
   fun _ m n f g b hl hb => exec_strataBondTest_arrays hl m n f g b hb,
   fun _ _ _ _ _ hi hp => physOf_mapSector hi hp,
   fun _ k f c n hl _ hk => exec_stackTraining_outOfTurn hl k f c n hk,
   fun _ f c n hl hb ht => exec_stackTraining_init hl f c n hb ht,
   fun _ f c n hl hb ht => exec_stackTraining_granules hl f c n hb ht,
   fun _ f c n hl hb ht => exec_stackTraining_zeroes hl f c n hb ht,
   fun _ f c n hl hb ht => exec_stackTraining_end hl f c n hb ht,
   fun _ hl hb => exec_portTrainingTimeout_start hl hb,
   fun _ n hl hb hp => exec_reportReady_ready hl n hb hp⟩

end Sys2Proof.Proofs
end

section
/-!
The rack beat (R376 to R380, R691 to R696): the counter, masters and followers, and PTP times.
-/
namespace Sys2Proof.Proofs
open Sys2Proof Sys2Proof.Machine Sys2Proof.Laws

/-! ## The counter (R691, R693) -/

/-- The beat counter, its count of jumps, the value that waits for it, and whether a jump has cut the round. -/
def counterOf (s : State) : Nat × Nat × Option Nat × Bool := (s.pm.beat, s.pm.jumps, s.pm.next, s.pm.skip)

theorem counterOf_of_foot {W : List Area} {s t : State} (h : Foot W s t) (hpm : Area.pm ∉ W) : counterOf t = counterOf s := by
  simp only [counterOf, h.pm.resolve_left hpm]

theorem counterOf_setLock (k : Nat) (s : State) : counterOf (setLock k s) = counterOf s := by
  unfold setLock
  split <;> rfl

theorem counterOf_countListen (s : State) : counterOf (countListen s) = counterOf s := by
  unfold countListen
  split <;> rfl

theorem counterOf_takeSource (s : State) : counterOf (takeSource s) = counterOf s := by
  unfold takeSource
  dsimp only
  split
  · split
    · exact counterOf_setLock 1 _
    · exact counterOf_setLock 2 _
  · rfl

/-- Of the counter a beat boundary changes what `countBeat` does; the rest of the beat leaves it alone. -/
theorem exec_beatBoundary {s : State} (hl : Live s) : ∃ t, exec .beatBoundary s = .next t ∧ counterOf t = counterOf (countBeat s) := by
  refine ⟨_, (show execBeatBoundary s = _ by rw [execBeatBoundary, run_live _ hl]), ?_⟩
  have hchecks : ∀ u, counterOf (firmwareChecks u) = counterOf u := fun u =>
    counterOf_of_foot (firmwareChecks_foot (List.Subset.refl _) (Foot.refl _ u)) (by decide)
  have hgates : ∀ u, counterOf (testGates u) = counterOf u := fun u =>
    counterOf_of_foot (testGates_foot (List.Subset.refl _) (Foot.refl _ u)) (by decide)
  have hround : ∀ u, counterOf (handoverRound u) = counterOf u := fun u =>
    counterOf_of_foot (handoverRound_foot (List.Subset.refl _) (Foot.refl _ u)) (by decide)
  have hsend : ∀ u, counterOf (sendBeats u) = counterOf u := fun u =>
    counterOf_of_foot (sendBeats_foot (List.Subset.refl _) (Foot.refl _ u)) (by decide)
  have htick : ∀ u, counterOf (tickTasks u) = counterOf u := fun u =>
    counterOf_of_foot (tickTasks_foot (List.Subset.refl _) (Foot.refl _ u)) (by decide)
  have hruns : ∀ u, counterOf (endBeatRuns u) = counterOf u := fun u =>
    counterOf_of_foot (endBeatRuns_foot (List.Subset.refl _) (Foot.refl _ u)) (by decide)
  simp only [hchecks, apply_ite counterOf, hgates, hround, ite_self, hsend, counterOf_takeSource, counterOf_countListen]
  exact (htick _).trans ((hruns _).trans rfl)

section
variable {s : State} (hl : Live s)
include hl

theorem exec_beatBoundary_counts (hn : s.pm.next = none) : ∃ t, exec .beatBoundary s = .next t ∧
    t.pm.beat = (s.pm.beat + 1) % 2 ^ 64 ∧ t.pm.jumps = s.pm.jumps ∧ t.pm.next = none := by
  obtain ⟨t, he, ht⟩ := exec_beatBoundary hl
  simp only [countBeat, hn, counterOf, Prod.mk.injEq] at ht
  obtain ⟨hbeat, hjumps, hnext, -⟩ := ht
  exact ⟨t, he, hbeat, hjumps, hnext⟩

theorem exec_beatBoundary_loads {v : Nat} (hn : s.pm.next = some v) (hj : s.pm.jump = false) : ∃ t, exec .beatBoundary s = .next t ∧
    t.pm.beat = v ∧ t.pm.jumps = s.pm.jumps ∧ t.pm.next = none := by
  obtain ⟨t, he, ht⟩ := exec_beatBoundary hl
  simp only [countBeat, hn, hj, Bool.false_eq_true, if_false, counterOf, Prod.mk.injEq] at ht
  obtain ⟨hbeat, hjumps, hnext, -⟩ := ht
  exact ⟨t, he, hbeat, hjumps, hnext⟩

theorem exec_beatBoundary_jumps {v : Nat} (hn : s.pm.next = some v) (hj : s.pm.jump = true) : ∃ t, exec .beatBoundary s = .next t ∧
    t.pm.beat = v ∧ t.pm.jumps = sat 16 (s.pm.jumps + 1) ∧ t.pm.next = none ∧ t.pm.skip = true := by
  have hce : ∀ u, (reportCe 0 0 0x07 0 u).pm = u.pm := fun u =>
    (reportCe_foot (List.Subset.refl _) 0 0 0x07 0 (Foot.refl _ u)).pm.resolve_left (by decide)
  obtain ⟨t, he, ht⟩ := exec_beatBoundary hl
  simp only [countBeat, hn, hj, if_true, counterOf, hce, Prod.mk.injEq] at ht
  obtain ⟨hbeat, hjumps, hnext, hskip⟩ := ht
  exact ⟨t, he, hbeat, hjumps, hnext, hskip⟩

/-! ## The source of a master (R82, R694, R696) -/

theorem exec_beatInEdge_master (hwired : bit (regGet s 0x8) 17 = true) (hm : s.pm.master = true) (hsrc : s.pm.src = 1 ∨ s.pm.src = 2) :
    exec .beatInEdge s = .next (setLock 1 { s with pm := { s.pm with missed := 0, pulses := (s.pm.pulses + 1) % 2 } }) := by
  have hs : (s.pm.src == 1 || s.pm.src == 2) = true := by simpa using hsrc
  show execBeatInEdge s = _
  simp only [execBeatInEdge, run_live _ hl, hwired, hm, hs, Bool.and_self, guarded_true]

theorem exec_beatInEdge_follower (hm : s.pm.master = false) : exec .beatInEdge s = .next s := by
  show execBeatInEdge s = _
  simp only [execBeatInEdge, run_live _ hl, hm, Bool.and_false, Bool.false_and, guarded_false]

omit hl in
theorem setLock_lock (k : Nat) (u : State) : (setLock k u).pm = { u.pm with lock := k } ∧ (setLock k u).err = u.err := by
  unfold setLock
  split
  · rename_i h
    exact ⟨by rw [← h], rfl⟩
  · exact ⟨rfl, rfl⟩

omit hl in
/-- A loss that is reported: the report is in the collector and the power unit is untouched. -/
theorem reportLoss {u : State} (he : u.err = s.err) (hlog : LogRoom s) :
    (reportCe 0 0 0x07 0 u).pm = u.pm ∧ Logged 0 0 0x07 (reportCe 0 0 0x07 0 u) := by
  refine ⟨(reportCe_foot (List.Subset.refl _) 0 0 0x07 0 (Foot.refl _ u)).pm.resolve_left (by decide),
    report_logged 0 0 0x07 0 false 0 u ?_ (by decide)⟩
  simpa only [LogRoom, openRecs, he] using hlog

theorem exec_beatSourceLoss (hm : s.pm.master = true) (hsrc : s.pm.src = 1 ∨ s.pm.src = 2) (hk : s.pm.lock = 1)
    (hmiss : missLimit s.pm.src ≤ s.pm.missed) (hlog : LogRoom s) : ∃ t, exec .beatSourceLoss s = .next t ∧
      t.pm.lock = 2 ∧ Logged 0 0 0x07 t := by
  have hs : (s.pm.src == 1 || s.pm.src == 2) = true := by simpa using hsrc
  obtain ⟨hlock, herr⟩ := setLock_lock 2 s
  obtain ⟨hpm, hlg⟩ := reportLoss herr hlog
  refine ⟨reportCe 0 0 0x07 0 (setLock 2 s), ?_, by rw [hpm, hlock], hlg⟩
  show execBeatSourceLoss s = _
  simp only [execBeatSourceLoss, run_live _ hl, hm, hs, hk, hmiss, BEq.rfl, decide_true, Bool.and_self, guarded_true]

/-! ## Masters and followers (R376, R378, R380, R692) -/

/-- The port after a BEAT set has arrived on it. -/
def heardBeat (p : Nat) (x : BeatSet) (s : State) : State := modPort p (fun y => { y with distance := x.distance, master := x.master }) s

omit hl in
theorem beatPort_state {u : State} {p : Nat} (h : beatPort u p = true) : (portAt u p).state ≠ 0 := fun h0 => by
  simp [beatPort, h0] at h

omit hl in
theorem portAt_heardBeat {p : Nat} (x : BeatSet) (hp : beatPort s p = true) :
    portAt (heardBeat p x s) p = { portAt s p with distance := x.distance, master := x.master } := portAt_modPort (beatPort_state hp)

theorem exec_beatOrderedSet_bad (p : Nat) (x : BeatSet) (hp : beatPort s p = true) :
    exec (.beatOrderedSet p x false) s = .next (modPort p (fun y => { y with crcErr := y.crcErr + 1 }) s) := by
  show execBeatOrderedSet p x s false = _
  simp only [execBeatOrderedSet, run_live _ hl, hp, guarded_true, setIn, Bool.false_eq_true, if_false]

theorem exec_beatOrderedSet_master (p : Nat) (x : BeatSet) (hp : beatPort s p = true) (hm : s.pm.master = true)
    (hid : nodeId s ≤ x.master) : ∃ t, exec (.beatOrderedSet p x true) s = .next t ∧ t.pm = s.pm ∧ (portAt t p).distance = x.distance := by
  refine ⟨heardBeat p x s, ?_, rfl, by rw [portAt_heardBeat x hp]⟩
  have hstay : (heardBeat p x s).pm.master = true ∧ ¬ x.master < nodeId (heardBeat p x s) := ⟨hm, Nat.not_lt.2 hid⟩
  show execBeatOrderedSet p x s true = _
  simp only [execBeatOrderedSet, run_live _ hl, hp, guarded_true, setIn, if_true]
  exact congrArg Host.Outcome.next (if_pos hstay)

omit hl in
/-- Following a best port makes it the upstream port, one further from the master; nothing else of the power unit changes. -/
theorem follow_best {u : State} {p : Nat} (h : bestPort u = some p) :
    (follow u).pm = { u.pm with upstream := p, distance := min 0xFF ((portAt u p).distance + 1) } := by
  unfold follow
  simp only [h]
  split
  · exact (reportCe_foot (List.Subset.refl _) 6 p 0x07 0 (Foot.refl _ _)).pm.resolve_left (by decide)
  · rfl

/-- What a block that follows takes from a set of its upstream port: the master and, at its first lock and when the master has changed,
the counter. -/
def takeBeat (x : BeatSet) (u : State) : State :=
  let o := fresh u
  let v : State := { o.2 with pm := { o.2.pm with node := x.master, offset := o.1 % 65536 } }
  setLock 1 (if o.2.pm.node = 0xFFF then loadBeat (x.value + 1) false v
    else if o.2.pm.node ≠ x.master then loadBeat (x.value + 1) true v else v)

/-- A set of a master that this block gives way to, on the best port: the block follows the port and takes the set. -/
theorem exec_beatOrderedSet_follows (p : Nat) (x : BeatSet) (hp : beatPort s p = true)
    (hm : s.pm.master = false ∨ x.master < nodeId s) (hbest : bestPort (heardBeat p x s) = some p) :
    ∃ u, exec (.beatOrderedSet p x true) s = .next (takeBeat x u) ∧
      u.pm = { s.pm with master := false, upstream := p, distance := min 0xFF (x.distance + 1) } := by
  have hgive : ¬ ((heardBeat p x s).pm.master = true ∧ ¬ x.master < nodeId (heardBeat p x s)) := by
    rintro ⟨h1, h2⟩
    rcases hm with hm | hm
    · exact Bool.false_ne_true (hm.symm.trans h1)
    · exact h2 hm
  obtain ⟨w, hw⟩ : ∃ w : State, w = { heardBeat p x s with pm := { (heardBeat p x s).pm with master := false } } := ⟨_, rfl⟩
  have hbest' : bestPort w = some p := by rw [hw]; exact hbest
  have hdist : (portAt w p).distance = x.distance := by
    rw [hw]
    exact congrArg Port.distance (portAt_heardBeat x hp)
  have hu := follow_best hbest'
  refine ⟨follow w, ?_, by rw [hu, hdist, hw]; rfl⟩
  have hup : ¬ (follow w).pm.upstream ≠ p := by rw [hu]; simp
  show execBeatOrderedSet p x s true = _
  simp only [execBeatOrderedSet, run_live _ hl, hp, guarded_true, setIn, if_true]
  refine congrArg Host.Outcome.next ((if_neg hgive).trans ?_)
  rw [hw] at hup ⊢
  exact if_neg hup

omit hl in
theorem takeBeat_first (x : BeatSet) {u : State} (hn : u.pm.node = 0xFFF) : ∃ o,
    (takeBeat x u).pm = { u.pm with node := x.master, offset := o, next := some ((x.value + 1) % 2 ^ 64), jump := false, lock := 1 } := by
  refine ⟨(fresh u).1 % 65536, ?_⟩
  unfold takeBeat
  dsimp only
  rw [(setLock_lock 1 _).1, if_pos (show (fresh u).2.pm.node = 0xFFF from hn)]
  rfl

omit hl in
theorem takeBeat_changed (x : BeatSet) {u : State} (hn : u.pm.node ≠ 0xFFF) (hx : u.pm.node ≠ x.master) : ∃ o,
    (takeBeat x u).pm = { u.pm with node := x.master, offset := o, next := some ((x.value + 1) % 2 ^ 64), jump := true, lock := 1 } := by
  refine ⟨(fresh u).1 % 65536, ?_⟩
  unfold takeBeat
  dsimp only
  rw [(setLock_lock 1 _).1, if_neg (show ¬ (fresh u).2.pm.node = 0xFFF from hn), if_pos (show (fresh u).2.pm.node ≠ x.master from hx)]
  rfl

theorem exec_beatOrderedSet_first (p : Nat) (x : BeatSet) (hp : beatPort s p = true)
    (hm : s.pm.master = false ∨ x.master < nodeId s) (hn : s.pm.node = 0xFFF) (hbest : bestPort (heardBeat p x s) = some p) :
    ∃ t, exec (.beatOrderedSet p x true) s = .next t ∧ t.pm.master = false ∧ t.pm.upstream = p ∧
      t.pm.distance = min 0xFF (x.distance + 1) ∧ t.pm.node = x.master ∧ t.pm.next = some ((x.value + 1) % 2 ^ 64) ∧
      t.pm.jump = false ∧ t.pm.lock = 1 := by
  obtain ⟨u, he, hu⟩ := exec_beatOrderedSet_follows hl p x hp hm hbest
  obtain ⟨o, ht⟩ := takeBeat_first x (u := u) (by rw [hu]; exact hn)
  exact ⟨_, he, by rw [ht, hu], by rw [ht, hu], by rw [ht, hu], by rw [ht], by rw [ht], by rw [ht], by rw [ht]⟩

theorem exec_beatOrderedSet_changed (p : Nat) (x : BeatSet) (hp : beatPort s p = true)
    (hm : s.pm.master = false ∨ x.master < nodeId s) (hn : s.pm.node ≠ 0xFFF) (hx : s.pm.node ≠ x.master)
    (hbest : bestPort (heardBeat p x s) = some p) : ∃ t, exec (.beatOrderedSet p x true) s = .next t ∧
      t.pm.node = x.master ∧ t.pm.next = some ((x.value + 1) % 2 ^ 64) ∧ t.pm.jump = true := by
  obtain ⟨u, he, hu⟩ := exec_beatOrderedSet_follows hl p x hp hm hbest
  obtain ⟨o, ht⟩ := takeBeat_changed x (u := u) (by rw [hu]; exact hn) (by rw [hu]; exact hx)
  exact ⟨_, he, by rw [ht], by rw [ht], by rw [ht]⟩

theorem exec_beatUpstreamLoss_holdover (hm : s.pm.master = false) (hup : s.pm.upstream < 8) (hp : beatPort s s.pm.upstream = false)
    (hlog : LogRoom s) (hbest : bestPort (modPort s.pm.upstream (fun x => { x with distance := 0xFF }) s) = none) :
    ∃ t, exec .beatUpstreamLoss s = .next t ∧ t.pm.upstream = 0xF ∧ t.pm.distance = 0xFF ∧ t.pm.lock = 2 ∧
      t.pm.beat = s.pm.beat ∧ Logged 0 0 0x07 t := by
  obtain ⟨u, hu⟩ : ∃ u, u = follow (modPort s.pm.upstream (fun x => { x with distance := 0xFF }) s) := ⟨_, rfl⟩
  have hfollow : u.pm = { s.pm with upstream := 0xF, distance := 0xFF } ∧ u.err = s.err := by
    rw [hu, follow, hbest]
    exact ⟨rfl, rfl⟩
  obtain ⟨hupm, huerr⟩ := hfollow
  obtain ⟨hlock, herr⟩ := setLock_lock 2 u
  obtain ⟨hpm, hlg⟩ := reportLoss (herr.trans huerr) hlog
  rw [hlock, hupm] at hpm
  refine ⟨reportCe 0 0 0x07 0 (setLock 2 u), ?_, by rw [hpm], by rw [hpm], by rw [hpm], by rw [hpm], hlg⟩
  show execBeatUpstreamLoss s = _
  simp only [execBeatUpstreamLoss, run_live _ hl, hm, hp, hup, decide_true, Bool.not_false, Bool.and_self, guarded_true, ← hu]
  rw [if_pos (by rw [hupm])]

theorem exec_masterElection (hc : s.pm.cand = true) (hm : s.pm.master = false) (hlis : s.pm.listen = some 32)
    (hbest : bestPort s = none) : ∃ t, exec .masterElection s = .next t ∧ t.pm.master = true ∧ t.pm.distance = 0 ∧
      t.pm.node = nodeId s ∧ t.pm.next = some 0 ∧ t.pm.jump = false := by
  obtain ⟨u, hu⟩ : ∃ u : State, u = { s with pm := { s.pm with master := true, upstream := 0xF, distance := 0, node := nodeId s, missed := 0 } } :=
    ⟨_, rfl⟩
  obtain ⟨v, hv⟩ : ∃ v, v = if sourceFree u.pm.src then setLock 1 u else u := ⟨_, rfl⟩
  have hpm : ∃ k, v.pm = { u.pm with lock := k } := by
    rw [hv]
    split
    · exact ⟨1, (setLock_lock 1 u).1⟩
    · exact ⟨u.pm.lock, rfl⟩
  obtain ⟨k, hpm⟩ := hpm
  have he : exec .masterElection s = .next (loadBeat 0 false v) := by
    show execMasterElection s = _
    rw [hv, hu]
    simp only [execMasterElection, run_live _ hl, hc, hm, hlis, hbest, BEq.rfl, Bool.not_false, Option.isNone_none, Bool.and_self, guarded_true]
  refine ⟨_, he, ?_⟩
  simp only [loadBeat, hpm, hu, Nat.zero_mod, and_self]

/-! ## PTP (R364) and BEAT_SET (R694) -/

theorem exec_ptpMessage_plain {p : Nat} (hplane : planeUp s = true) (hmode : 2 ≤ portMode s p) (hst : (portAt s p).state = 2)
    (hsrc : ¬ (s.pm.src = 3 ∧ s.pm.master = true)) (d : Bool) (n : Nat) :
    exec (.ptpMessage p false d n) s = .next (emit (.ptp p (portAt s p).ptpAt) s) := by
  show execPtpMessage p s false d n = _
  simp only [execPtpMessage, run_live _ hl, hplane, hmode, hst, BEq.rfl, decide_true, Bool.true_or, Bool.and_self, guarded_true,
    Bool.false_eq_true, if_false]
  exact congrArg Host.Outcome.next (if_neg hsrc)

theorem exec_ptpMessage_event {p : Nat} (hplane : planeUp s = true) (hmode : 2 ≤ portMode s p) (hst : (portAt s p).state = 2)
    (hsrc : ¬ (s.pm.src = 3 ∧ s.pm.master = true)) (d : Bool) (n : Nat) :
    let at1 := if d then n + (portAt s p).txLat else n - (portAt s p).rxLat
    exec (.ptpMessage p true d n) s = .next (emit (.ptp p at1) (modPort p (fun x => { x with ptpAt := at1 }) s)) := by
  intro at1
  have hport : (portAt (modPort p (fun x => { x with ptpAt := ptpStamp x d n }) s) p).ptpAt = at1 := by
    rw [portAt_modPort (by rw [hst]; decide)]
    rfl
  show execPtpMessage p s true d n = _
  simp only [execPtpMessage, run_live _ hl, hplane, hmode, hst, BEq.rfl, decide_true, Bool.true_or, Bool.and_self, guarded_true,
    if_true, hport]
  exact congrArg Host.Outcome.next (if_neg hsrc)

end

theorem exec_beatSet {s : State} (h : Taken s 256 0x0341) : exec .beatSet s = .next (
    if s.pm.master then replyBox 256 0 [] (loadBeat (boxPair s 256 1) true s) else replyBox 256 Status.denied.code [] s) := by
  obtain ⟨⟨hl, hplane⟩, herr, hbox⟩ := h
  show execBeatSet s = _
  simp only [execBeatSet, run_live _ hl, onBox, hbox, hplane, herr, Bool.and_self, guarded_true, replySt, Status.code]

/-! ## The ledger (R698 to R702) -/

theorem takeSnapshot_waiting {s : State} (h : s.pm.held ≠ []) : takeSnapshot s = s := by
  have hh : (!s.pm.held.isEmpty) = true := by simpa using h
  simp only [takeSnapshot, hh, true_or, or_true, if_true]

theorem takeSnapshot_counts {s : State} (hsize : ledSize s ≠ 0) (hh : s.pm.held = []) (hroom : (snapEntries (s.pm.snap + 1) s).length ≤ ledRoom s) :
    (takeSnapshot s).pm.snap = (s.pm.snap + 1) % 2 ^ 32 := by
  have hgo : ¬ (ledSize s = 0 ∨ (!s.pm.held.isEmpty) = true ∨ ledRoom s < (snapEntries (s.pm.snap + 1) s).length) := by
    simp [hsize, hh, hroom]
  unfold takeSnapshot
  dsimp only
  rw [if_neg hgo]

theorem exec_ledgerSnapshot_takes {s : State} (hl : Live s) (hr : regsOn s = true) (h0 : s.pm.done.contains 0 = true)
    (hn : field (regGet s 0x1100314) 16 16 ≠ 0) (hround : s.pm.rounds % field (regGet s 0x1100314) 16 16 = 0)
    (h2 : s.pm.done.contains 2 = false) (hcut : s.pm.cut = false) (hin : inReset s = false) :
    exec .ledgerSnapshot s = .next (takeSnapshot { s with pm := { s.pm with done := sinsert 2 s.pm.done } }) := by
  have hmax : max 1 (field (regGet s 0x1100314) 16 16) = field (regGet s 0x1100314) 16 16 := by omega
  have hne : (field (regGet s 0x1100314) 16 16 != 0) = true := by simpa using hn
  have hgo : ¬ (s.pm.cut = true ∨ inReset { s with pm := { s.pm with done := sinsert 2 s.pm.done } } = true) := by
    rintro (h | h)
    · exact Bool.false_ne_true (hcut.symm.trans h)
    · exact Bool.false_ne_true (hin.symm.trans h)
  show execLedgerSnapshot s = _
  simp only [execLedgerSnapshot, run_live _ hl, hr, h0, Bool.and_self, guarded_true, oncePerBeat, hmax, hne, hround, BEq.rfl, h2,
    Bool.not_false, if_true]
  exact congrArg Host.Outcome.next (if_neg hgo)

theorem exec_ledgerHeadWrite {s : State} (v : W32) (hl : Live s) (hr : regsOn s = true) :
    exec (.ledgerHeadWrite v) s = .next (ledFlush s.pm.held (regSet 0x110030C v.toNat s)) := by
  show execLedgerHeadWrite v s = _
  simp only [execLedgerHeadWrite, run_live _ hl, hr, guarded_true, regSet_pm]

/-- Settles O47, clause by clause. -/
theorem beatAndLedger : Obligations.BeatAndLedger :=
  ⟨fun _ hl hn => exec_beatBoundary_counts hl hn,
   fun _ _ hl hn hj => exec_beatBoundary_loads hl hn hj,
   fun _ _ hl hn hj => exec_beatBoundary_jumps hl hn hj,
   fun _ hl hw hm hs => exec_beatInEdge_master hl hw hm hs,
   fun _ hl hm => exec_beatInEdge_follower hl hm,
   fun _ p x hl hp hm hid => exec_beatOrderedSet_master hl p x hp hm hid,
   fun _ p x hl hp hm hn hbest => exec_beatOrderedSet_first hl p x hp hm hn hbest,
   fun _ p x hl hp hm hn hx hbest => exec_beatOrderedSet_changed hl p x hp hm hn hx hbest,
   fun _ p x hl hp => exec_beatOrderedSet_bad hl p x hp,
   fun _ hl hm hup hp hlog hbest => exec_beatUpstreamLoss_holdover hl hm hup hp hlog hbest,
   fun _ hl hc hm hlis hbest => exec_masterElection hl hc hm hlis hbest,
   fun _ hl hm hs hk hmiss hlog => exec_beatSourceLoss hl hm hs hk hmiss hlog,
   fun _ _ hs hmode hst hsrc => ⟨exec_ptpMessage_plain hs.1 hs.2 hmode hst hsrc, exec_ptpMessage_event hs.1 hs.2 hmode hst hsrc⟩,
   fun _ h => exec_beatSet h,
   fun _ hl hr h0 hn hround h2 hcut hin => exec_ledgerSnapshot_takes hl hr h0 hn hround h2 hcut hin,
   fun _ hsize hh hroom => takeSnapshot_counts hsize hh hroom,
   fun _ h => takeSnapshot_waiting h,
   fun _ v hl hr => exec_ledgerHeadWrite v hl hr⟩

end Sys2Proof.Proofs
end

section
/-!
Instructions of an array (chapter 2): how one that executes retires, does a part of its steps, or ends its task.
-/
namespace Sys2Proof.Proofs
open Sys2Proof Sys2Proof.Machine Sys2Proof.Laws

/-! ## The task of an array -/

/-- The array `y` has the task of `x` and waits for what `x` waits for. -/
def KeepsTask (x y : Arr) : Prop := y.task = x.task ∧ y.stall = x.stall

theorem KeepsTask.refl (x : Arr) : KeepsTask x x := ⟨rfl, rfl⟩

theorem KeepsTask.trans {x y z : Arr} (h : KeepsTask x y) (k : KeepsTask y z) : KeepsTask x z :=
  ⟨k.1.trans h.1, k.2.trans h.2⟩

theorem keepsTask_foldl {α : Type} {f : Arr → α → Arr} (hf : ∀ y a, KeepsTask y (f y a)) (l : List α) (x : Arr) :
    KeepsTask x (l.foldl f x) := by
  induction l generalizing x with
  | nil => exact .refl x
  | cons a l ih => exact (hf x a).trans (ih _)

theorem keepsTask_putV (n i : Nat) (v : W32) (x : Arr) : KeepsTask x (x.putV n i v) := ⟨rfl, rfl⟩

theorem keepsTask_raise (rs : List Res) (x : Arr) : KeepsTask x (rs.foldl (fun y r => y.raise r) x) :=
  keepsTask_foldl (fun y r => (⟨rfl, rfl⟩ : KeepsTask y (y.raise r))) rs x

theorem keepsTask_putP (n : Nat) (v : W64) (x : Arr) : KeepsTask x (x.putP n v) := by
  unfold Arr.putP
  split <;> exact ⟨rfl, rfl⟩

theorem keepsTask_lanes (dst p : Nat) (f : Nat → Res) (x : Arr) : KeepsTask x (x.lanes dst p f) :=
  keepsTask_foldl (fun y i => by split <;> exact ⟨rfl, rfl⟩) _ x

theorem keepsTask_markV (dst p : Nat) (srcs : List Nat) (x : Arr) : KeepsTask x (x.markV dst p srcs) := ⟨rfl, rfl⟩

theorem keepsTask_markPart (dst : Nat) (srcs : List Nat) (x : Arr) : KeepsTask x (x.markPart dst srcs) := by
  unfold Arr.markPart
  split <;> exact ⟨rfl, rfl⟩

theorem keepsTask_putBitsV (dst lo n v : Nat) (x : Arr) : KeepsTask x (x.putBitsV dst lo n v) := by
  unfold Arr.putBitsV
  exact keepsTask_foldl (fun _ _ => keepsTask_putV _ _ _ _) _ x

theorem keepsTask_putSlot (dst k bits src : Nat) (rs : List Res) (x : Arr) : KeepsTask x (x.putSlot dst k bits src rs) :=
  ((keepsTask_putBitsV _ _ _ _ x).trans (keepsTask_markPart _ _ _)).trans (keepsTask_raise rs _)

theorem keepsTask_putGranule (a : Nat) (data : List Byte) (bad : Bool) (x : Arr) : KeepsTask x (x.putGranule a data bad) := ⟨rfl, rfl⟩

theorem keepsTask_putLs (a : Nat) (data : List Byte) (bad : Nat → Bool) (x : Arr) : KeepsTask x (x.putLs a data bad) :=
  keepsTask_foldl (fun _ _ => keepsTask_putGranule _ _ _ _) _ x

/-! ## Arrays and states -/

theorem Frame.trans {W : List Area} {r s t : State} (h : Frame W r s) (k : Frame W s t) : Frame W r t := by
  intro a ha
  have hrs := h a ha
  have hst := k a ha
  cases a
  case cells => exact ⟨fun x => (hst.1 x).trans (hrs.1 x), hst.2.1.trans hrs.2.1, hst.2.2.trans hrs.2.2⟩
  all_goals exact Eq.trans hst hrs

/-- Two changes of one array are one. -/
theorem ArrayNow.trans {r s t : State} {p : Nat} {x y : Arr} (h : ArrayNow r s p x) (k : ArrayNow s t p y) : ArrayNow r t p y := by
  obtain ⟨-, hother, hframe⟩ := h
  obtain ⟨kself, kother, kframe⟩ := k
  exact ⟨kself, fun q hq => (kother q hq).trans (hother q hq), Frame.trans hframe kframe⟩

theorem retire_eq_stepped {x : Arr} (h : x.stall = .none) : x.retire = stepped x := by
  simp only [Arr.retire, stepped, ← h]

/-! ## What an instruction that executes does -/

section
variable {u s : State} {es : List LsError} {l p c o w : Nat} {t : Task} (h : Executes u es s l p t w c o)
  {mods : Nat → Bool} {f : Nat → Task → Nat → State → State}

include h

/-- The executing array changes and keeps its task. -/
theorem Executes.changes {g : Arr → Arr} {y : Arr} (hg : g (arrAt s p) = y) (hk : y.task = (arrAt s p).task) :
    ArrayNow s (modArr p g s) p y := by
  subst hg
  obtain ⟨q, hq⟩ := Executes.task h
  exact modArr_now p g s (by rw [hk, hq]; exact Option.some_ne_none q)

/-- An instruction of a defined MOD does what its class says. -/
theorem Executes.acts (hm : mods (opMod w) = true) : run u (arrayOp l es c o mods f) = .next (f p t w s) := by
  rw [arrayOp_run h, if_pos hm]

theorem Executes.arrayOp_eq (hm : mods (opMod w) = true) : arrayOp l es c o mods f u = f p t w s :=
  Host.Outcome.next.inj ((run_live _ h.1).symm.trans (Executes.acts h hm))

/-- The executing array changes, keeps its task and retires. -/
theorem Executes.retire_now {g : Arr → Arr} {y : Arr} (hg : g (arrAt s p) = y) (hk : KeepsTask (arrAt s p) y) :
    ArrayNow s (retireWith p g s) p (stepped y) :=
  Executes.changes h (by rw [hg, retire_eq_stepped (hk.2.trans (Executes.stall h))]) hk.1

/-- An instruction that is done up to step `hi` of `last` retires with the last step (R153). -/
theorem Executes.advance_now {g : Arr → Arr} {y : Arr} {hi last : Nat} (hg : g (arrAt s p) = { y with progress := hi })
    (hk : KeepsTask (arrAt s p) y) : ArrayNow s (if hi = last then retireOn p (modArr p g s) else modArr p g s) p
      (if hi = last then stepped y else { y with progress := hi }) := by
  have hnow : ArrayNow s (modArr p g s) p { y with progress := hi } := Executes.changes h hg hk.1
  by_cases hlast : hi = last
  · have e : (arrAt (modArr p g s) p).retire = stepped y := by
      rw [hnow.1]
      exact retire_eq_stepped (x := { y with progress := hi }) (hk.2.trans (Executes.stall h))
    obtain ⟨q, hq⟩ := Executes.task h
    have htask : (stepped y).task ≠ none := fun hn => Option.some_ne_none q (hq.symm.trans (hk.1.symm.trans hn))
    rw [if_pos hlast, if_pos hlast]
    exact ArrayNow.trans hnow (e ▸ modArr_now p Arr.retire _ (by rw [e]; exact htask))
  · rw [if_neg hlast, if_neg hlast]
    exact hnow

/-- An instruction of a defined MOD that only changes its array retires. -/
theorem Executes.retires {g : Arr → Arr} {y : Arr} (hm : mods (opMod w) = true) (hf : f p t w s = retireWith p g s)
    (hg : g (arrAt s p) = y) (hk : KeepsTask (arrAt s p) y) :
    ∃ t', run u (arrayOp l es c o mods f) = .next t' ∧ ArrayNow s t' p (stepped y) :=
  ⟨_, (Executes.acts h hm).trans (congrArg _ hf), Executes.retire_now h hg hk⟩

/-- An undefined MOD is malformed (R137). -/
theorem Executes.badMod (hm : mods (opMod w) = false) :
    run u (arrayOp l es c o mods f) = .next (faultOn p t.seq .faultFormat s) := by
  rw [arrayOp_run h, if_neg (by rw [hm]; exact Bool.false_ne_true)]
end

theorem mod0_of_eq {w : Nat} (h : opMod w = 0) : mod0 (opMod w) = true := decide_eq_true h

theorem modBits_of_lt {k w : Nat} (h : opMod w < 2 ^ k) : modBits k (opMod w) = true := decide_eq_true h

/-- MOD has four bits (R135). -/
theorem modBits_four (w : Nat) : modBits 4 (opMod w) = true := modBits_of_lt (Nat.mod_lt _ (by decide))

/-- A command of several VEC operations acts as the one that stands at the program counter. -/
theorem Executes.vecOpcode {u s : State} {es : List LsError} {l p w o lo hi : Nat} {t : Task} (h : Executes u es s l p t w 4 o)
    (hlo : lo ≤ o) (hhi : o ≤ hi) : Machine.vecOpcode u l lo hi = o := by
  obtain ⟨-, -, hw, -, -, -, hc, ho⟩ := h
  simp only [Machine.vecOpcode, hw, hc, ho, hlo, hhi, and_self, if_true]

end Sys2Proof.Proofs
end

section
/-!
The bits of a vector register (R106): registers as little-endian bit streams, and a bit after a range of bits is written.
-/
namespace Sys2Proof.Proofs
open Sys2Proof Sys2Proof.Machine Sys2Proof.Laws

/-! ## Fields and bytes -/

theorem field_one (x i : Nat) : field x i 1 = (x.testBit i).toNat := by
  rw [Nat.toNat_testBit, field, Nat.shiftRight_eq_div_pow, Nat.pow_one]

theorem testBit_field (x lo n i : Nat) : (field x lo n).testBit i = (decide (i < n) && x.testBit (lo + i)) := by
  rw [field, Nat.testBit_mod_two_pow, Nat.testBit_shiftRight]

theorem length_leBytes (n x : Nat) : (leBytes n x).length = n := by
  induction n generalizing x with
  | zero => rfl
  | succ n ih => simp only [leBytes, List.length_cons, ih]

theorem leNat_lt (l : List Byte) : leNat l < 256 ^ l.length := by
  induction l with
  | nil => decide
  | cons b r ih =>
    have hb : b.toNat < 256 := b.isLt
    simp only [leNat, List.length_cons, Nat.pow_succ]
    omega

theorem leNat_append (l m : List Byte) : leNat (l ++ m) = leNat l + 256 ^ l.length * leNat m := by
  induction l with
  | nil => simp only [List.nil_append, leNat, List.length_nil, Nat.pow_zero, Nat.one_mul, Nat.zero_add]
  | cons b r ih => simp only [List.cons_append, leNat, ih, List.length_cons, Nat.pow_succ]; ring

theorem leNat_leBytes (n x : Nat) : leNat (leBytes n x) = x % 256 ^ n := by
  induction n generalizing x with
  | zero => simp only [leBytes, leNat, Nat.pow_zero, Nat.mod_one]
  | succ n ih =>
    have hb : (BitVec.ofNat 8 (x % 256)).toNat = x % 256 := by
      rw [BitVec.toNat_ofNat]
      exact Nat.mod_mod x 256
    rw [leBytes, leNat, ih, hb, Nat.pow_succ', Nat.mod_mul]

/-! ## Lanes as one number -/

/-- The number that `n` lanes spell as a little-endian bit stream. -/
def lanesNat (g : Nat → W32) (n : Nat) : Nat := leNat ((List.range n).map (fun i => leBytes 4 (g i).toNat)).flatten

theorem length_lanes (g : Nat → W32) (n : Nat) : ((List.range n).map (fun i => leBytes 4 (g i).toNat)).flatten.length = 4 * n := by
  induction n with
  | zero => rfl
  | succ n ih =>
    rw [List.range_succ, List.map_append, List.flatten_append, List.length_append, ih]
    simp only [List.map_cons, List.map_nil, List.flatten_cons, List.flatten_nil, List.append_nil, length_leBytes]
    omega

theorem pow_256 (n : Nat) : 256 ^ (4 * n) = 2 ^ (32 * n) := by
  rw [show (256 : Nat) = 2 ^ 8 from rfl, ← Nat.pow_mul, ← Nat.mul_assoc]

theorem lanesNat_lt (g : Nat → W32) (n : Nat) : lanesNat g n < 2 ^ (32 * n) := by
  have h := leNat_lt ((List.range n).map (fun i => leBytes 4 (g i).toNat)).flatten
  rwa [length_lanes, pow_256] at h

theorem lanesNat_succ (g : Nat → W32) (n : Nat) : lanesNat g (n + 1) = 2 ^ (32 * n) * (g n).toNat + lanesNat g n := by
  have hlane : (g n).toNat % 256 ^ 4 = (g n).toNat := Nat.mod_eq_of_lt (g n).isLt
  rw [lanesNat, List.range_succ, List.map_append, List.flatten_append, leNat_append, length_lanes, pow_256]
  simp only [List.map_cons, List.map_nil, List.flatten_cons, List.flatten_nil, List.append_nil, leNat_leBytes, hlane]
  exact Nat.add_comm _ _

/-- Bit `i` of the stream is bit `i % 32` of lane `i / 32`. -/
theorem testBit_lanesNat (g : Nat → W32) {n i : Nat} (h : i < 32 * n) :
    (lanesNat g n).testBit i = (g (i / 32)).toNat.testBit (i % 32) := by
  induction n with
  | zero => omega
  | succ n ih =>
    rw [lanesNat_succ, Nat.testBit_two_pow_mul_add _ (lanesNat_lt g n)]
    by_cases hi : i < 32 * n
    · rw [if_pos hi, ih hi]
    · have hd : i / 32 = n := by omega
      have hm : i - 32 * n = i % 32 := by omega
      rw [if_neg hi, hd, hm]

/-! ## Registers -/

/-- Writing the lanes of a register: what each lane reads after it. -/
theorem getV_putV_range (dst : Nat) (g : Nat → W32) (m k : Nat) {x : Arr} (h : twf 0 x.v = true) :
    let y := (List.range m).foldl (fun y i => y.putV dst i (g i)) x
    twf 0 y.v = true ∧ y.getV dst k = if k < m then g k else x.getV dst k := by
  induction m with
  | zero => exact ⟨h, rfl⟩
  | succ m ih =>
    obtain ⟨hw, hk⟩ := ih
    simp only [List.range_succ, List.foldl_append, List.foldl_cons, List.foldl_nil]
    refine ⟨tset_twf 0 _ _ _ hw, ?_⟩
    rw [Arr.getV, Arr.putV, tget_tset 0 _ _ _ _ hw]
    by_cases e : k = m
    · subst e
      rw [if_pos rfl, if_pos (Nat.lt_succ_self k)]
    · rw [if_neg (by omega)]
      refine hk.trans ?_
      by_cases hlt : k < m
      · rw [if_pos hlt, if_pos (Nat.lt_succ_of_lt hlt)]
      · rw [if_neg hlt, if_neg (by omega)]

/-- Bit `i` of a register is bit `i % 32` of lane `i / 32`. -/
theorem packedV_one (x : Arr) (n i : Nat) : x.packedV n 1 i = ((x.getV n (i / 32)).toNat.testBit (i % 32)).toNat := by
  have hlow : (x.getV n (i / 32)).toNat < 2 ^ 32 := (x.getV n (i / 32)).isLt
  simp only [Arr.packedV, Nat.one_mul, field_one]
  rw [Nat.add_comm, Nat.testBit_two_pow_mul_add _ hlow, if_pos (Nat.mod_lt i (by decide))]

/-- The number `old` with bits [lo + n - 1 : lo] taken from `v`. -/
theorem testBit_splice (old v lo n i : Nat) :
    (old % 2 ^ lo + 2 ^ lo * (v % 2 ^ n) + 2 ^ (lo + n) * (old / 2 ^ (lo + n))).testBit i =
      if lo ≤ i ∧ i < lo + n then v.testBit (i - lo) else old.testBit i := by
  have hlow : old % 2 ^ lo < 2 ^ lo := Nat.mod_lt _ (Nat.two_pow_pos lo)
  have hmid : 2 ^ lo * (v % 2 ^ n) + old % 2 ^ lo < 2 ^ (lo + n) :=
    calc 2 ^ lo * (v % 2 ^ n) + old % 2 ^ lo < 2 ^ lo * (v % 2 ^ n + 1) := by rw [Nat.mul_succ]; exact Nat.add_lt_add_left hlow _
      _ ≤ 2 ^ lo * 2 ^ n := Nat.mul_le_mul_left _ (Nat.mod_lt _ (Nat.two_pow_pos n))
      _ = 2 ^ (lo + n) := (Nat.pow_add 2 lo n).symm
  rw [Nat.add_comm, Nat.add_comm (old % 2 ^ lo), Nat.testBit_two_pow_mul_add _ hmid, Nat.testBit_two_pow_mul_add _ hlow]
  by_cases hbelow : i < lo
  · rw [if_pos (by omega), if_pos hbelow, if_neg (by omega), Nat.testBit_mod_two_pow, decide_eq_true hbelow, Bool.true_and]
  by_cases hin : i < lo + n
  · rw [if_pos hin, if_neg hbelow, if_pos ⟨Nat.le_of_not_lt hbelow, hin⟩, Nat.testBit_mod_two_pow, decide_eq_true (by omega),
      Bool.true_and]
  · rw [if_neg hin, if_neg (by omega), Nat.testBit_div_two_pow, Nat.sub_add_cancel (Nat.le_of_not_lt hin)]

/-- Bits written to a register: a bit of the range is the bit that was put there, any other stays. -/
theorem packedV_putBitsV {x : Arr} (dst lo n v i : Nat) (h : twf 0 x.v = true) (hi : i < 2048) :
    (x.putBitsV dst lo n v).packedV dst 1 i = if lo ≤ i ∧ i < lo + n then field v (i - lo) 1 else x.packedV dst 1 i := by
  have hold : (lanesNat (x.getV dst) 64).testBit i = (x.getV dst (i / 32)).toNat.testBit (i % 32) := testBit_lanesNat _ hi
  have hlane : 32 * (i / 32) + i % 32 = i := Nat.div_add_mod i 32
  have hmod : i % 32 < 32 := Nat.mod_lt i (by decide)
  have hv := (getV_putV_range dst (fun k => w32 (field (lanesNat (x.getV dst) 64 % 2 ^ lo + 2 ^ lo * (v % 2 ^ n) +
    2 ^ (lo + n) * (lanesNat (x.getV dst) 64 / 2 ^ (lo + n))) (32 * k) 32)) 64 (i / 32) h).2
  rw [if_pos (by omega)] at hv
  rw [packedV_one, packedV_one, field_one]
  refine (congrArg (fun z : W32 => (z.toNat.testBit (i % 32)).toNat) hv).trans ?_
  simp only [w32, BitVec.toNat_ofNat, Nat.testBit_mod_two_pow, testBit_field, hmod, decide_true, Bool.true_and, hlane, testBit_splice, hold]
  split <;> rfl

end Sys2Proof.Proofs
end

section
/-!
GRID, DRAIN, VEC and CONV (R106 to R121, R136, R141): what each instruction does on well-formed operands.
-/
namespace Sys2Proof.Proofs
open Sys2Proof Sys2Proof.Machine Sys2Proof.Laws

section
variable {u s : State} {es : List LsError} {l p w : Nat} {t : Task}

/-! ## Grid and drain -/

theorem exec_gcfg (h : Executes u es s l p t w 2 0) (hm : opMod w = 0)
    (hpair : (gridClass (field (opImm w) 0 4) (field (opImm w) 4 4)).isSome = true) : ∃ t', exec (.gcfg l es) u = .next t' ∧
    ArrayNow s t' p (stepped { arrAt s p with fmtA := field (opImm w) 0 4, fmtB := field (opImm w) 4 4 }) :=
  Executes.retires h (mod0_of_eq hm) (if_pos hpair) rfl ⟨rfl, rfl⟩

theorem exec_gzero (h : Executes u es s l p t w 2 1) (hm : opMod w = 0) : ∃ t', exec (.gzero l es) u = .next t' ∧
    ArrayNow s t' p (stepped { arrAt s p with acc := [], tilePoison := false }) :=
  Executes.retires h (mod0_of_eq hm) rfl rfl ⟨rfl, rfl⟩

theorem exec_gload (h : Executes u es s l p t w 2 2) (hm : opMod w = 0) (ha : ((arrAt s p).getA (opSrc1 w)).toNat % 64 = 0)
    (hin : lsIn ((arrAt s p).getA (opSrc1 w)).toNat 25600 = true) : ∃ t', exec (.gload l es) u = .next t' ∧
    let a := ((arrAt s p).getA (opSrc1 w)).toNat
    ArrayNow s t' p (stepped { arrAt s p with acc := accOf (arrAt s p) a, tilePoison := (arrAt s p).lsBad a 25600 }) :=
  Executes.retires h (mod0_of_eq hm) ((if_neg (not_not.2 ha)).trans (if_pos hin)) rfl ⟨rfl, rfl⟩

/-- Where the next `n` steps from `lo` end. -/
theorem add_min_sub {lo last : Nat} (n : Nat) (h : lo ≤ last) : lo + min n (last - lo) = min last (lo + n) := by omega

theorem exec_gstep (n : Nat) {g : GridOp} (h : Executes u es s l p t w 2 3) (hm : opMod w < 2) (hg : gridOpOf (arrAt s p) w = some g)
    (ha : g.aligned = true) (hin : g.inStore = true) (hlo : (arrAt s p).progress ≤ g.k) : ∃ t', exec (.gstep l es n) u = .next t' ∧
    let m := if g.cls = .block then n / 32 * 32 else n
    let lo := (arrAt s p).progress
    let hi := min g.k (lo + m)
    let y := g.run (bit (opMod w) 0) lo hi (arrAt s p)
    ArrayNow s t' p (if hi = g.k then stepped y else { y with progress := hi }) := by
  have e : exec (.gstep l es n) u = _ := Executes.acts h (modBits_of_lt (k := 1) hm)
  simp only [hg, ha, hin, Bool.not_true, Bool.false_eq_true, if_false, if_true, add_min_sub _ hlo] at e
  exact ⟨_, e, Executes.advance_now h rfl ⟨rfl, rfl⟩⟩

theorem exec_drain (n : Nat) {e : Epilogue} (h : Executes u es s l p t w 3 0) (he : epilogueOf (arrAt s p) w = some e) :
    let x := arrAt s p
    let a := (x.getA (opSrc1 w)).toNat
    let b := (x.getA (opSrc2 w)).toNat
    let c := (x.getA (opDst w)).toNat
    a % 64 = 0 → lsIn a e.outBytes = true → (e.scaleBytes ≠ 0 → b % 64 = 0 ∧ lsIn b e.scaleBytes = true) →
    (e.bias = true → c % 64 = 0 ∧ lsIn c 320 = true) → x.progress ≤ 100 → ∃ t', exec (.drain l es n) u = .next t' ∧
    let hi := min 100 (x.progress + n)
    let rs := drainCells x e b c x.progress hi
    let bad := x.tilePoison || (e.scaleBytes != 0 && x.lsBad b e.scaleBytes) || (e.bias && x.lsBad c 320)
    let y := rs.foldl (fun y r => y.raise r) (x.putLs (a + 8 * e.fmt.bits * x.progress)
      (packBytes e.fmt.bits (rs.map (fun r => r.code))) (fun _ => bad))
    ArrayNow s t' p (if hi = 100 then stepped y else { y with progress := hi }) := by
  intro x a b c ha hout hscale hbias hlo
  have haligned : ¬ (a % 64 ≠ 0 ∨ (e.scaleBytes ≠ 0 ∧ b % 64 ≠ 0) ∨ (e.bias = true ∧ c % 64 ≠ 0)) := by
    rintro (hbad | ⟨hs, hbad⟩ | ⟨hs, hbad⟩)
    · exact hbad ha
    · exact hbad (hscale hs).1
    · exact hbad (hbias hs).1
  have hscaleIn : (e.scaleBytes == 0 || lsIn b e.scaleBytes) = true := by
    by_cases hs : e.scaleBytes = 0
    · rw [hs]; rfl
    · rw [(hscale hs).2, Bool.or_true]
  have hbiasIn : (!e.bias || lsIn c 320) = true := by
    by_cases hb : e.bias = true
    · rw [(hbias hb).2, Bool.or_true]
    · rw [Bool.eq_false_of_not_eq_true hb]; rfl
  have hin : (lsIn a e.outBytes && (e.scaleBytes == 0 || lsIn b e.scaleBytes) && (!e.bias || lsIn c 320)) = true := by
    rw [hout, hscaleIn, hbiasIn]; rfl
  have hexec : exec (.drain l es n) u = _ := Executes.acts h (modBits_four w)
  simp only [he] at hexec
  rw [if_neg haligned, if_pos hin, add_min_sub n hlo] at hexec
  exact ⟨_, hexec, Executes.advance_now h rfl ((keepsTask_putLs _ _ _ _).trans (keepsTask_raise _ _))⟩

/-! ## The vector unit -/

/-- VEC_FP32_OP is the operation at the program counter. -/
theorem exec_vecFp32Op {o : Nat} (h : Executes u es s l p t w 4 o) (ho : o ≤ 15) :
    exec (.vecFp32Op l es) u = run u (vecFp32 l es o) := by
  show execVecFp32Op l u es = _
  rw [execVecFp32Op, run_live _ h.1, run_live _ h.1, Executes.vecOpcode h (Nat.zero_le o) ho]

theorem exec_vecFp32Op_lanes {o : Nat} (h : Executes u es s l p t w 4 o) (ho : o < 16) (hcmp : o ≠ 5)
    (hdef : (vecFp o 0 0 0).isSome = true) : ∃ t', exec (.vecFp32Op l es) u = .next t' ∧
    let x := arrAt s p
    let d := opDst w
    let srcs := if o = 2 then [opSrc1 w, opSrc2 w, d] else if o ≥ 6 then [opSrc1 w] else [opSrc1 w, opSrc2 w]
    ArrayNow s t' p (stepped ((x.lanes d (opMod w) (fun i => (vecFp o (x.getV (opSrc1 w) i) (x.getV (opSrc2 w) i)
      (x.getV d i)).getD { code := 0 })).markV d (opMod w) srcs)) := by
  have hsome : ¬ (vecFp o 0 0 0).isNone = true := by
    rw [← Option.not_isSome, hdef]
    exact Bool.false_ne_true
  have e : exec (.vecFp32Op l es) u = _ :=
    (exec_vecFp32Op h (Nat.le_of_lt_succ ho)).trans (Executes.acts h (modBits_four w))
  rw [if_neg hcmp, if_neg hsome] at e
  exact ⟨_, e, Executes.retire_now h rfl ((keepsTask_lanes _ _ _ _).trans (keepsTask_markV _ _ _ _))⟩

theorem pPoison_putP (n : Nat) (v : W64) (x : Arr) : (x.putP n v).pPoison = x.pPoison := by
  unfold Arr.putP
  split <;> rfl

/-- Marks of predicate registers and flags belong to no task. -/
theorem keepsTask_raise_pPoison (r : Res) (l : List Nat) (x : Arr) : KeepsTask x { x.raise r with pPoison := l } := ⟨rfl, rfl⟩

theorem exec_vecFp32Op_compare (h : Executes u es s l p t w 4 5) (hkind : opImm w < 4) (hd : opDst w < 16) :
    ∃ t', exec (.vecFp32Op l es) u = .next t' ∧
    let x := arrAt s p
    let on := fun i => (x.getP (opMod w)).getLsbD i
    let v := (List.range 64).foldl (fun (v : Nat) i =>
      if on i && fcmp32 (opImm w) (x.getV (opSrc1 w) i) (x.getV (opSrc2 w) i) then v + 2 ^ i else v) 0
    let snan := (List.range 64).any (fun i => on i && ((f32 (x.getV (opSrc1 w) i)).snan || (f32 (x.getV (opSrc2 w) i)).snan))
    let bad := x.vPoison.contains (opSrc1 w) || x.vPoison.contains (opSrc2 w) || x.pPoison.contains (opMod w)
    let y := (x.putP (opDst w) (w64 v)).raise { code := 0, invalid := snan }
    ArrayNow s t' p (stepped { y with
      pPoison := if opDst w ≠ 0 ∧ bad = true then sinsert (opDst w) x.pPoison else sremove (opDst w) x.pPoison }) := by
  have e : exec (.vecFp32Op l es) u = _ := (exec_vecFp32Op h (by decide)).trans (Executes.acts h (modBits_four w))
  rw [if_pos rfl, if_pos ⟨hkind, hd⟩] at e
  refine ⟨_, e, Executes.retire_now h ?_ ((keepsTask_putP _ _ _).trans (keepsTask_raise_pPoison _ _ _))⟩
  simp only [Arr.raise, pPoison_putP]

theorem exec_vecInt32Op {o : Nat} (h : Executes u es s l p t w 4 o) (hlo : 0x10 ≤ o) (hhi : o ≤ 0x17) :
    ∃ t', exec (.vecInt32Op l es) u = .next t' ∧
    let x := arrAt s p
    ArrayNow s t' p (stepped ((x.lanes (opDst w) (opMod w) (fun i => { code :=
      (vecInt o (x.getV (opSrc1 w) i) (x.getV (opSrc2 w) i)).toNat })).markV (opDst w) (opMod w) [opSrc1 w, opSrc2 w])) := by
  have e : execVecInt32Op l u es = _ := run_live _ h.1
  simp only [Executes.vecOpcode h hlo hhi, Executes.arrayOp_eq h (modBits_four w)] at e
  exact ⟨_, e, Executes.retire_now h rfl ((keepsTask_lanes _ _ _ _).trans (keepsTask_markV _ _ _ _))⟩

theorem keepsTask_vPoison (l : List Nat) (x : Arr) : KeepsTask x { x with vPoison := l } := ⟨rfl, rfl⟩

theorem exec_vld (h : Executes u es s l p t w 4 0x20) (hm : opMod w = 0) (ha : ((arrAt s p).getA (opSrc1 w)).toNat % 256 = 0)
    (hin : lsIn ((arrAt s p).getA (opSrc1 w)).toNat 256 = true) : ∃ t', exec (.vld l es) u = .next t' ∧
    let x := arrAt s p
    let a := (x.getA (opSrc1 w)).toNat
    let y := (List.range 64).foldl (fun y i => y.putV (opDst w) i (lsWord x (a + 4 * i))) x
    ArrayNow s t' p (stepped { y with
      vPoison := if x.lsBad a 256 then sinsert (opDst w) x.vPoison else sremove (opDst w) x.vPoison }) := by
  have e : exec (.vld l es) u = _ := Executes.acts h (mod0_of_eq hm)
  rw [if_neg (not_not.2 ha), if_pos hin] at e
  exact ⟨_, e, Executes.retire_now h rfl
    ((keepsTask_foldl (fun _ _ => keepsTask_putV _ _ _ _) _ _).trans (keepsTask_vPoison _ _))⟩

theorem exec_vst (h : Executes u es s l p t w 4 0x21) (hm : opMod w = 0) (ha : ((arrAt s p).getA (opSrc1 w)).toNat % 256 = 0)
    (hin : lsIn ((arrAt s p).getA (opSrc1 w)).toNat 256 = true) : ∃ t', exec (.vst l es) u = .next t' ∧
    let x := arrAt s p
    ArrayNow s t' p (stepped (x.putLs (x.getA (opSrc1 w)).toNat
      ((List.range 64).map (fun i => leBytes 4 (x.getV (opSrc2 w) i).toNat)).flatten
      (fun _ => x.vPoison.contains (opSrc2 w)))) :=
  Executes.retires h (mod0_of_eq hm) ((if_neg (not_not.2 ha)).trans (if_pos hin)) rfl (keepsTask_putLs _ _ _ _)

/-! ## Conversion -/

theorem exec_cvt {f : Fmt} (h : Executes u es s l p t w 5 0) (hm : opMod w < 4) (hf : fmtOf (opImm w % 256) = some f) (ht2 : f ≠ .t2)
    (hslot : slotIn (immSlot w) 64 f.bits = true) (himm : opImm w < 65536) : ∃ t', exec (.cvt l es) u = .next t' ∧
    let x := arrAt s p
    ArrayNow s t' p (stepped (x.putSlot (opDst w) (immSlot w) f.bits (opSrc1 w) ((List.range 64).map (fun i =>
      convert f (bit (opMod w) 0) (bit (opMod w) 1) (f32 (x.getV (opSrc1 w) i)))))) := by
  have hgood : ¬ (f = .t2 ∨ slotIn (immSlot w) 64 f.bits = false ∨ 65536 ≤ opImm w) := by
    simp only [ht2, hslot, Nat.not_le.2 himm, Bool.true_eq_false, or_self, not_false_eq_true]
  have e : exec (.cvt l es) u = _ := Executes.acts h (modBits_of_lt (k := 2) hm)
  simp only [hf, if_neg hgood] at e
  exact ⟨_, e, Executes.retire_now h rfl (keepsTask_putSlot _ _ _ _ _ _)⟩

theorem exec_qblk {f : Fmt} (h : Executes u es s l p t w 5 1) (hm : opMod w < 8) (hf : fmtOf (opImm w % 256) = some f)
    (hblock : opImm w % 256 ≤ 5) (hslot : slotIn (immSlot w) 32 f.bits = true) (himm : opImm w < 2 ^ 24) :
    ∃ t', exec (.qblk l es) u = .next t' ∧
    let x := arrAt s p
    let o := if bit (opMod w) 1 then 32 else 0
    let q := quantBlock f (bit (opMod w) 0) (bit (opMod w) 2) ((List.range 32).map (fun i => x.getV (opSrc1 w) (o + i)))
    ArrayNow s t' p (stepped (((x.putSlot (opDst w) (immSlot w) f.bits (opSrc1 w) q.2).putBitsV (opSrc2 w) (8 * immScale w) 8
      q.1).markPart (opSrc2 w) [opSrc1 w])) := by
  have hgood : ¬ (5 < opImm w % 256 ∨ slotIn (immSlot w) 32 f.bits = false ∨ 2 ^ 24 ≤ opImm w) := by
    simp only [Nat.not_lt.2 hblock, hslot, Nat.not_le.2 himm, Bool.true_eq_false, or_self, not_false_eq_true]
  have e : exec (.qblk l es) u = _ := Executes.acts h (modBits_of_lt (k := 3) hm)
  simp only [hf, if_neg hgood] at e
  exact ⟨_, e, Executes.retire_now h rfl
    (((keepsTask_putSlot _ _ _ _ _ _).trans (keepsTask_putBitsV _ _ _ _ _)).trans (keepsTask_markPart _ _ _))⟩

theorem exec_qt2 (h : Executes u es s l p t w 5 2) : ∃ t', exec (.qt2 l es) u = .next t' ∧
    let x := arrAt s p
    ArrayNow s t' p (stepped (x.putSlot (opDst w) (opMod w) 2 (opSrc1 w) ((List.range 64).map (fun i =>
      { code := t2Of (w32 (opImm w)) (x.getV (opSrc1 w) i), invalid := (f32 (x.getV (opSrc1 w) i)).isNan })))) :=
  Executes.retires h (modBits_four w) rfl rfl (keepsTask_putSlot _ _ _ _ _ _)

theorem exec_deq {f : Fmt} (h : Executes u es s l p t w 5 3) (hm : opMod w = 0) (hf : fmtOf (opImm w % 256) = some f)
    (hslot : slotIn (immSlot w) 64 f.bits = true) (himm : opImm w < 2 ^ 24) :
    let mx := decide (opImm w % 256 ≤ 5 ∨ opImm w % 256 = 12)
    (mx = true → immScale w ≠ 255) → ∃ t', exec (.deq l es) u = .next t' ∧
    let x := arrAt s p
    ArrayNow s t' p (stepped ((x.lanes (opDst w) 0 (fun i => deqRes f mx (x.packedV (opSrc1 w) f.bits (64 * immSlot w + i))
      (x.packedV (opSrc2 w) 8 (immScale w + i / 32)))).markV (opDst w) 0 (if mx then [opSrc1 w, opSrc2 w] else [opSrc1 w]))) := by
  intro mx hscale
  have hgood : ¬ (slotIn (immSlot w) 64 f.bits = false ∨ 2 ^ 24 ≤ opImm w ∨ (mx = true ∧ immScale w = 255)) := by
    rintro (hbad | hbad | ⟨hmx, hbad⟩)
    · exact Bool.false_ne_true (hbad.symm.trans hslot)
    · exact Nat.not_le.2 himm hbad
    · exact hscale hmx hbad
  have e : exec (.deq l es) u = _ := Executes.acts h (mod0_of_eq hm)
  simp only [hf] at e
  rw [if_neg hgood] at e
  exact ⟨_, e, Executes.retire_now h rfl ((keepsTask_lanes _ _ _ _).trans (keepsTask_markV _ _ _ _))⟩

end

/-- Settles O3, instruction by instruction, and then the bits of a packed slot. -/
theorem gridAndVectorUnits : Obligations.GridAndVectorUnits :=
  ⟨fun _ _ _ _ _ _ _ h hm hpair => exec_gcfg h hm hpair,
   fun _ _ _ _ _ _ _ h hm => exec_gzero h hm,
   fun _ _ _ _ _ _ _ h hm ha hin => exec_gload h hm ha hin,
   fun n _ _ _ _ _ _ _ _ h hm hg ha hin hlo => exec_gstep n h hm hg ha hin hlo,
   fun n _ _ _ _ _ _ _ _ h _ he => exec_drain n h he,
   fun _ _ _ _ _ _ _ h ho hcmp hdef => exec_vecFp32Op_lanes h ho hcmp hdef,
   fun _ _ _ _ _ _ _ h hkind hd => exec_vecFp32Op_compare h hkind hd,
   fun _ _ _ _ _ _ _ h hlo hhi => exec_vecInt32Op h hlo hhi,
   fun _ _ _ _ _ _ _ h hm ha hin => exec_vld h hm ha hin,
   fun _ _ _ _ _ _ _ h hm ha hin => exec_vst h hm ha hin,
   fun _ _ _ _ _ _ _ _ h hm hf ht2 hslot himm => exec_cvt h hm hf ht2 hslot himm,
   fun _ _ _ _ _ _ _ _ h hm hf hblock hslot himm => exec_qblk h hm hf hblock hslot himm,
   fun _ _ _ _ _ _ _ h _ => exec_qt2 h,
   fun _ _ _ _ _ _ _ _ h hm hf hslot himm => exec_deq h hm hf hslot himm,
   fun _ dst lo n v i hwf _ hi => packedV_putBitsV dst lo n v i hwf hi⟩

end Sys2Proof.Proofs
end

section
/-!
Instructions that cannot be read or are not defined (R134, R137, R140), and errors of the local store (R98).
-/
namespace Sys2Proof.Proofs
open Sys2Proof Sys2Proof.Machine Sys2Proof.Laws

/-! ## The fetch (R137, R140) -/

theorem fetch_unknown {x : Arr} (hin : lsIn x.pc 8 = true)
    (hop : opKnown (opClass (leNat (x.lsBytes x.pc 8))) (opCode (leNat (x.lsBytes x.pc 8))) = false) :
    fetch x = .error .faultFormat := by
  simp only [fetch, hin, hop, Bool.not_true, Bool.false_eq_true, if_false, ite_self]

/-- Where the instruction cannot be read, its words are not looked up either. -/
theorem lsFound_of_fetch_error {s : State} {l p : Nat} {t : Task} {k : Status} (cls op : Nat) (es : List LsError)
    (he : executing s l = some (p, t)) (hf : fetch (arrAt s p) = .error k) : lsFound l cls op es s = s := by
  simp only [lsFound, he, hf]

/-- An instruction that cannot be fetched ends the task with the fault of the fetch. -/
theorem exec_nop_fetch_error {u : State} {l p : Nat} {t : Task} {k : Status} (es : List LsError) (hl : Live u)
    (hc : computeOn u = true) (he : executing (lsFound l 0 0 es u) l = some (p, t))
    (hf : fetch (arrAt (lsFound l 0 0 es u) p) = .error k) :
    exec (.nop l es) u = .next (faultOn p t.seq k (lsFound l 0 0 es u)) := by
  have e : exec (.nop l es) u = _ := run_live _ hl
  simp only [arrayOp, hc, guarded_true, he, hf] at e
  exact e

/-! ## Errors of the local store (R98) -/

theorem reportCe_arr (kind index type detail : Nat) (s : State) : (reportCe kind index type detail s).arr = s.arr :=
  (reportCe_foot (W := [.ic, .err]) (by decide) kind index type detail (Foot.refl _ s)).arr.resolve_left (by decide)

theorem lsError_corrected (p c : Nat) {e : LsError} (s : State) (h : e.two = false) : lsError p c e s =
    reportCe 1 (arrName s p) 0x01 (detailOf c 0) (modPhys p (fun x => { x with ce := sat 8 (x.ce + 1) }) s) :=
  if_neg (by rw [h]; exact Bool.false_ne_true)

theorem lsError_uncorrectable (p c : Nat) {e : LsError} (s : State) (h : e.two = true) : lsError p c e s =
    reportCe 1 (arrName s p) 0x02 (detailOf c 0) (modArr p (fun x => { x with lsPoison := sinsert (e.addr / 64) x.lsPoison }) s) :=
  if_pos h

theorem sinsert_ne_nil (i : Nat) (l : List Nat) : sinsert i l ≠ [] := by
  cases l with
  | nil => exact List.cons_ne_nil i []
  | cons k r =>
    unfold sinsert
    split
    · exact List.cons_ne_nil _ _
    · split <;> exact List.cons_ne_nil _ _

/-- An uncorrectable error marks its granule, of array `p` only. -/
theorem arrAt_lsError_uncorrectable (p c : Nat) {e : LsError} (s : State) (h : e.two = true) :
    arrAt (lsError p c e s) p = { arrAt s p with lsPoison := sinsert (e.addr / 64) (arrAt s p).lsPoison } := by
  rw [lsError_uncorrectable p c s h, arrAt, reportCe_arr]
  exact arrAt_modArr p _ s (fun hd => sinsert_ne_nil _ _ (congrArg Arr.lsPoison hd))

theorem arrAt_lsError_other {p q : Nat} (c : Nat) (e : LsError) (s : State) (h : q ≠ p) : arrAt (lsError p c e s) q = arrAt s q := by
  by_cases htwo : e.two = true
  · rw [lsError_uncorrectable p c s htwo, arrAt, reportCe_arr]
    exact arrAt_modArr_ne p q _ s h
  · rw [lsError_corrected p c s (Bool.eq_false_of_not_eq_true htwo), arrAt, reportCe_arr]
    rfl

/-- An array but for the marks of its local store. -/
def unmarked (s : State) (p : Nat) : Arr := { arrAt s p with lsPoison := [] }

theorem unmarked_lsError (p q c : Nat) (e : LsError) (s : State) : unmarked (lsError p c e s) q = unmarked s q := by
  by_cases hq : q = p
  · subst hq
    by_cases htwo : e.two = true
    · rw [unmarked, arrAt_lsError_uncorrectable q c s htwo, unmarked]
    · rw [lsError_corrected q c s (Bool.eq_false_of_not_eq_true htwo), unmarked, arrAt, reportCe_arr]
      rfl
  · rw [unmarked, arrAt_lsError_other c e s hq, unmarked]

/-- What the code finds changes nothing of an array but marks. -/
theorem unmarked_lsFound (l cls op q : Nat) (es : List LsError) (s : State) : unmarked (lsFound l cls op es s) q = unmarked s q := by
  unfold lsFound
  split
  · rfl
  · split
    · rfl
    · split
      · exact each_same (fun s => unmarked s q) (fun e _ s => unmarked_lsError _ q _ e s) s
      · rfl

theorem lsError_counts (p c : Nat) {e : LsError} {s : State} (hlog : LogRoom s) (h : e.two = false) :
    let t := lsError p c e s
    Logged 1 (arrName s p) 0x01 t ∧ (physAt t p).ce = sat 8 ((physAt s p).ce + 1) ∧ t.arr.st = s.arr.st := by
  have hce : sat 8 ((physAt s p).ce + 1) ≠ 0 := by unfold sat; omega
  rw [lsError_corrected p c s h]
  refine ⟨report_logged _ _ _ _ _ _ _ hlog (by decide), ?_, ?_⟩
  · rw [physAt, reportCe_arr]
    exact congrArg PhysArr.ce (tget_tset_eq {} s.arr.phys p { physAt s p with ce := sat 8 ((physAt s p).ce + 1) }
      (fun hd => hce (congrArg PhysArr.ce hd)))
  · rw [reportCe_arr]
    rfl

theorem lsError_marks (p c : Nat) {e : LsError} {s : State} (hlog : LogRoom s) (h : e.two = true) :
    let t := lsError p c e s
    Logged 1 (arrName s p) 0x02 t ∧ (arrAt t p).lsPoison = sinsert (e.addr / 64) (arrAt s p).lsPoison ∧ t.arr.phys = s.arr.phys := by
  refine ⟨?_, congrArg Arr.lsPoison (arrAt_lsError_uncorrectable p c s h), ?_⟩
  · rw [lsError_uncorrectable p c s h]
    exact report_logged _ _ _ _ _ _ _ hlog (by decide)
  · rw [lsError_uncorrectable p c s h, reportCe_arr]
    rfl

/-! ## Malformed operands (R134, R137, R141) -/

section
variable {u s : State} {es : List LsError} {l p w : Nat} {t : Task}

theorem exec_nop_badMod (h : Executes u es s l p t w 0 0) (hm : opMod w ≠ 0) :
    exec (.nop l es) u = .next (faultOn p t.seq .faultFormat s) :=
  Executes.badMod h (decide_eq_false hm)

theorem exec_call_full (h : Executes u es s l p t w 0 4) (hm : opMod w = 0) (hfull : 16 ≤ (arrAt s p).stack.length) :
    exec (.call l es) u = .next (faultOn p t.seq .faultFormat s) :=
  (Executes.acts h (mod0_of_eq hm)).trans (congrArg _ (if_neg (Nat.not_lt.2 hfull)))

theorem exec_ret_empty (h : Executes u es s l p t w 0 5) (hm : opMod w = 0) (hempty : (arrAt s p).stack = []) :
    exec (.ret l es) u = .next (faultOn p t.seq .faultFormat s) := by
  have e : exec (.ret l es) u = _ := Executes.acts h (mod0_of_eq hm)
  simp only [hempty] at e
  exact e

theorem exec_gload_misaligned (h : Executes u es s l p t w 2 2) (hm : opMod w = 0)
    (ha : ((arrAt s p).getA (opSrc1 w)).toNat % 64 ≠ 0) : exec (.gload l es) u = .next (faultOn p t.seq .faultFormat s) :=
  (Executes.acts h (mod0_of_eq hm)).trans (congrArg _ (if_pos ha))

theorem exec_vld_misaligned (h : Executes u es s l p t w 4 0x20) (hm : opMod w = 0)
    (ha : ((arrAt s p).getA (opSrc1 w)).toNat % 256 ≠ 0) : exec (.vld l es) u = .next (faultOn p t.seq .faultFormat s) :=
  (Executes.acts h (mod0_of_eq hm)).trans (congrArg _ (if_pos ha))

end

/-- An operation that is not defined ends the task. -/
theorem exec_nop_unknown {s : State} {l p : Nat} {t : Task} (es : List LsError) (hs : Computing s) (he : executing s l = some (p, t))
    (hf : fetch (arrAt s p) = .error .faultFormat) : exec (.nop l es) s = .next (faultOn p t.seq .faultFormat s) := by
  have hfound := lsFound_of_fetch_error 0 0 es he hf
  have e := exec_nop_fetch_error es hs.1 hs.2 (by rw [hfound]; exact he) (by rw [hfound]; exact hf)
  rwa [hfound] at e

/-- Settles O4, clause by clause. -/
theorem malformedInstructions : Obligations.MalformedInstructions :=
  ⟨fun es _ _ _ _ hs he _ hin hop => exec_nop_unknown es hs he (fetch_unknown hin hop),
   fun _ es _ _ _ _ hl hc he hf => exec_nop_fetch_error es hl hc he hf,
   fun u l cls op es => ⟨(lsFound_foot (by decide) l cls op es (Foot.refl _ u)).frame, fun p => unmarked_lsFound l cls op p es u⟩,
   fun _ p c _ hlog h => lsError_counts p c hlog h,
   fun _ p c _ hlog h => lsError_marks p c hlog h,
   fun _ _ _ _ _ _ _ h hm => exec_nop_badMod h hm,
   fun _ _ _ _ _ _ _ h hm hfull => exec_call_full h hm hfull,
   fun _ _ _ _ _ _ _ h hm hempty => exec_ret_empty h hm hempty,
   fun _ _ _ _ _ _ _ h hm ha => exec_gload_misaligned h hm ha,
   fun _ _ _ _ _ _ _ h hm ha => exec_vld_misaligned h hm ha⟩

end Sys2Proof.Proofs
end

section
/-!
SCAL (R136): what each scalar instruction does.
-/
namespace Sys2Proof.Proofs
open Sys2Proof Sys2Proof.Machine Sys2Proof.Laws

theorem keepsTask_putA (n : Nat) (v : W64) (x : Arr) : KeepsTask x (x.putA n v) := by
  unfold Arr.putA
  split <;> exact ⟨rfl, rfl⟩

theorem keepsTask_putS (n : Nat) (v : W64) (x : Arr) : KeepsTask x (x.putS n v) := ⟨rfl, rfl⟩

theorem keepsTask_putR (isA : Bool) (n : Nat) (v : W64) (x : Arr) : KeepsTask x (x.putR isA n v) := by
  cases isA
  case false => exact keepsTask_putS n v x
  case true => exact keepsTask_putA n v x

/-- Flags and the condition belong to no task. -/
theorem keepsTask_raise_cond (r : Res) (c : Bool) (x : Arr) : KeepsTask x { x.raise r with cond := c } := ⟨rfl, rfl⟩

section
variable {u s : State} {es : List LsError} {l p w : Nat} {t : Task}

/-- The operations of two registers share one meaning, `scalOp`. -/
theorem scalOp_retires {op : Nat} (f : W64 → W64 → W64) (h : Executes u es s l p t w 1 op) (hm : opMod w < 4) :
    ∃ t', run u (scalOp l es op f) = .next t' ∧
    let x := arrAt s p
    ArrayNow s t' p (stepped (x.putR (bit (opMod w) 0) (opDst w) (f (x.getR (bit (opMod w) 1) (opSrc1 w)) (x.getS (opSrc2 w))))) :=
  Executes.retires h (modBits_of_lt (k := 2) hm) rfl rfl (keepsTask_putR _ _ _ _)

theorem exec_scalarOps {o : (Nat → List LsError → Instr) × Nat × (W64 → W64 → W64)} (ho : o ∈ scalarOps)
    (h : Executes u es s l p t w 1 o.2.1) (hm : opMod w < 4) : ∃ t', exec (o.1 l es) u = .next t' ∧
    let x := arrAt s p
    let v := o.2.2 (x.getR (bit (opMod w) 1) (opSrc1 w)) (x.getS (opSrc2 w))
    ArrayNow s t' p (stepped (x.putR (bit (opMod w) 0) (opDst w) v)) := by
  have hexec : exec (o.1 l es) u = run u (scalOp l es o.2.1 o.2.2) := by
    simp only [scalarOps, List.mem_cons, List.not_mem_nil, or_false] at ho
    obtain rfl | rfl | rfl | rfl | rfl | rfl | rfl := ho <;> rfl
  rw [hexec]
  exact scalOp_retires _ h hm

theorem exec_addi (h : Executes u es s l p t w 1 0) (hm : opMod w < 4) : ∃ t', exec (.addi l es) u = .next t' ∧
    let x := arrAt s p
    ArrayNow s t' p (stepped (x.putR (bit (opMod w) 0) (opDst w) (x.getR (bit (opMod w) 1) (opSrc1 w) +
      BitVec.signExtend 64 (BitVec.ofNat 32 (opImm w))))) :=
  Executes.retires h (modBits_of_lt (k := 2) hm) rfl rfl (keepsTask_putR _ _ _ _)

theorem exec_movi (h : Executes u es s l p t w 1 8) (hm : opMod w < 2) : ∃ t', exec (.movi l es) u = .next t' ∧
    let x := arrAt s p
    ArrayNow s t' p (stepped (x.putR (bit (opMod w) 0) (opDst w) (BitVec.signExtend 64 (BitVec.ofNat 32 (opImm w))))) :=
  Executes.retires h (modBits_of_lt (k := 1) hm) rfl rfl (keepsTask_putR _ _ _ _)

theorem exec_movhi (h : Executes u es s l p t w 1 9) (hm : opMod w < 2) : ∃ t', exec (.movhi l es) u = .next t' ∧
    let x := arrAt s p
    let old := (x.getR (bit (opMod w) 0) (opDst w)).toNat
    ArrayNow s t' p (stepped (x.putR (bit (opMod w) 0) (opDst w) (BitVec.ofNat 64 (old % 2 ^ 32 + 2 ^ 32 * opImm w)))) :=
  Executes.retires h (modBits_of_lt (k := 1) hm) rfl rfl (keepsTask_putR _ _ _ _)

theorem exec_cmp (h : Executes u es s l p t w 1 10) (hm : opMod w < 6) : ∃ t', exec (.cmp l es) u = .next t' ∧
    let x := arrAt s p
    ArrayNow s t' p (stepped { x with cond := cmpHolds (opMod w) (x.getS (opSrc1 w)) (x.getS (opSrc2 w)) }) :=
  Executes.retires h (decide_eq_true hm) rfl rfl ⟨rfl, rfl⟩

theorem exec_fop {r : Res} (h : Executes u es s l p t w 1 11) (hm : opMod w < 10)
    (hr : fopRes (opMod w) (low32 ((arrAt s p).getS (opSrc1 w))) (low32 ((arrAt s p).getS (opSrc2 w)))
      (low32 ((arrAt s p).getS (opDst w))) = some r) : ∃ t', exec (.fop l es) u = .next t' ∧
    ArrayNow s t' p (stepped (((arrAt s p).putS (opDst w) (w64 r.code)).raise r)) :=
  Executes.retires h (decide_eq_true hm) rfl (by simp only [hr]) ⟨rfl, rfl⟩

/-- Kind 5 has no result of its own: it compares. -/
theorem exec_fop_compare (h : Executes u es s l p t w 1 11) (hm : opMod w = 5) : ∃ t', exec (.fop l es) u = .next t' ∧
    let x := arrAt s p
    let a := low32 (x.getS (opSrc1 w))
    let b := low32 (x.getS (opSrc2 w))
    let v := b2n (fcmp32 1 a b) + 2 * b2n (fcmp32 0 a b) + 4 * b2n (fcmp32 3 a b)
    ArrayNow s t' p (stepped { (x.putS (opDst w) (w64 v)).raise { code := 0, invalid := (f32 a).snan || (f32 b).snan } with
      cond := fcmp32 1 a b }) := by
  have hnone : ∀ a b c, fopRes (opMod w) a b c = none := fun a b c => by rw [hm]; rfl
  exact Executes.retires h (decide_eq_true (by omega)) rfl (by simp only [hnone])
    ((keepsTask_putS _ _ _).trans (keepsTask_raise_cond _ _ _))

end

/-- Settles O1, instruction by instruction. -/
theorem scalarResults : Obligations.ScalarResults :=
  ⟨fun _ ho _ _ _ _ _ _ _ h hm => exec_scalarOps ho h hm,
   fun _ _ _ _ _ _ _ h hm => exec_addi h hm,
   fun _ _ _ _ _ _ _ h hm => exec_movi h hm,
   fun _ _ _ _ _ _ _ h hm => exec_movhi h hm,
   fun _ _ _ _ _ _ _ h hm => exec_cmp h hm,
   fun _ _ _ _ _ _ _ _ h hm hr => exec_fop h hm hr,
   fun _ _ _ _ _ _ _ h hm => exec_fop_compare h hm⟩

end Sys2Proof.Proofs
end

section
/-!
Events of an array from outside its program (R130, R131, R133, R151 to R161, R498, R538): replies, task starts, saves and restores.
-/
namespace Sys2Proof.Proofs
open Sys2Proof Sys2Proof.Machine Sys2Proof.Laws

/-! ## Changes of one array -/

theorem arrAt_of_arr {s t : State} (h : t.arr = s.arr) (q : Nat) : arrAt t q = arrAt s q := by rw [arrAt, h, ← arrAt]

/-- An array that changes and does not become an empty one: all that the change does. -/
theorem modArr_now_of_ne (p : Nat) (f : Arr → Arr) (s : State) (h : f (arrAt s p) ≠ {}) : ArrayNow s (modArr p f s) p (f (arrAt s p)) :=
  ⟨arrAt_modArr p f s h, fun q hq => arrAt_modArr_ne p q f s hq, (modArr_foot (by decide) p f (Foot.refl _ s)).frame⟩

theorem modArr_congr {p : Nat} {f g : Arr → Arr} {s : State} (h : f (arrAt s p) = g (arrAt s p)) : modArr p f s = modArr p g s :=
  congrArg (fun x => { s with arr := { s.arr with st := tset {} s.arr.st p x } }) h

/-- The instruction that an array waits at retires. -/
theorem retireWith_now {s : State} {p : Nat} {g : Arr → Arr} {y : Arr} (hg : g (arrAt s p) = y) (htask : y.task ≠ none) :
    ArrayNow s (retireWith p g s) p { stepped y with stall := .none } := by
  subst hg
  exact modArr_now p (fun x => (g x).retire) s htask

/-- An event of a logical array that is backed, while the compute plane runs. -/
theorem arrayEvent_acts {s : State} {l p : Nat} (f : Nat → Arr → State → State) (hs : Computing s) (hp : physOf s l = some p) :
    run s (arrayEvent l f) = .next (f p (arrAt s p) s) := by
  rw [run_live _ hs.1, arrayEvent, hs.2, guarded_true, hp]

/-! ## Replies (R130, R131, R153, R538) -/

/-- FENCE and END go on waiting while a store is unacknowledged. -/
theorem fenceCheck_pending {p : Nat} {s : State} (h : (arrAt s p).stores ≠ 0) : fenceCheck p s = s := if_pos h

/-- A wait of an array that stands at a WAIT or TAKEWAIT ends: the wait is withdrawn and the instruction retires. -/
theorem wakeWait_waiting {w : TwWait} {d : Nat} {s : State} (v : W32) (cond : Bool) (h : (arrAt s w.phys).stall = .wait d) :
    wakeWait w v cond s = modArr w.phys (fun y => { stepped (y.putS d (w64 v.toNat)) with stall := .none, cond := cond })
      { s with tw := { s.tw with waits := s.tw.waits.filter (fun y => decide (y ≠ w)) } } := by
  have hwait : (arrAt { s with tw := { s.tw with waits := s.tw.waits.filter (fun y => decide (y ≠ w)) } } w.phys).stall = .wait d := h
  refine modArr_congr ?_
  dsimp only
  rw [hwait]
  rfl

section
variable {s : State} {l p : Nat} (hs : Computing s) (hp : physOf s l = some p)

include hs hp

theorem exec_loadComplete {q : Nat × Nat × Nat} {ecc : List MemError} (hstall : (arrAt s p).stall = .load [q])
    (htask : (arrAt s p).task ≠ none) (hdone : readsDone s l = true) : ∃ t', exec (.loadComplete l ecc) s = .next t' ∧
    let v := memErrors q.1 q.2.2 ecc s
    arrAt t' p = { stepped ((arrAt s p).putLs q.2.1 (readMem v q.1 q.2.2) (fun i => poisonedAt v (q.1 + 64 * i))) with
      stall := .none } ∧ (∀ q, q ≠ p → arrAt t' q = arrAt s q) ∧ Frame [.arr] v t' := by
  have e : exec (.loadComplete l ecc) s = _ := arrayEvent_acts _ hs hp
  simp only [hstall, hdone, if_true] at e
  change _ = Host.Outcome.next (retireOn p (landPiece p q (memErrors q.1 q.2.2 ecc s))) at e
  have hv : ∀ k, arrAt (memErrors q.1 q.2.2 ecc s) k = arrAt s k := arrAt_of_arr
    ((memErrors_foot (W := [.cells, .mem, .rg, .ic, .err, .freeCtr]) (by decide) _ _ ecc (Foot.refl _ s)).arr.resolve_left (by decide))
  generalize memErrors q.1 q.2.2 ecc s = v at hv e ⊢
  have hland : ArrayNow v (landPiece p q v) p _ := modArr_now p _ v (by rw [hv, (keepsTask_putLs _ _ _ _).1]; exact htask)
  have hretire := modArr_now p Arr.retire (landPiece p q v) (by
    rw [hland.1, hv]; exact fun h => htask ((keepsTask_putLs _ _ _ _).1.symm.trans h))
  rw [hland.1, hv] at hretire
  obtain ⟨hself, hother, hframe⟩ := ArrayNow.trans hland hretire
  exact ⟨_, e, hself, fun k hk => (hother k hk).trans (hv k), hframe⟩

theorem exec_storeAck (hdue : (arrAt s p).storesDue ≠ 0) (hstores : 1 < (arrAt s p).stores) (hruns : runsWait s (.array l) = false) :
    ∃ t', exec (.storeAck l) s = .next t' ∧
      ArrayNow s t' p { arrAt s p with stores := (arrAt s p).stores - 1, storesDue := (arrAt s p).storesDue - 1 } := by
  have e : exec (.storeAck l) s = _ := arrayEvent_acts _ hs hp
  have hleft : (arrAt s p).stores - 1 ≠ 0 := by omega
  have hnow := modArr_now_of_ne p (fun x => { x with stores := x.stores - 1, storesDue := x.storesDue - 1 }) s
    (fun h => hleft (congrArg Arr.stores h))
  rw [if_pos ⟨hdue, by rw [hruns]; exact Bool.false_ne_true⟩, fenceCheck_pending (by rw [hnow.1]; exact hleft)] at e
  exact ⟨_, e, hnow⟩

theorem exec_atomReply {d : Nat} {v : W64} (hstall : (arrAt s p).stall = .atom d (some v)) (htask : (arrAt s p).task ≠ none)
    (hruns : runsWait s (.array l) = false) : ∃ t', exec (.atomReply l) s = .next t' ∧
      ArrayNow s t' p { stepped ((arrAt s p).putS d v) with stall := .none } := by
  have e : exec (.atomReply l) s = _ := arrayEvent_acts _ hs hp
  simp only [hstall, hruns, Bool.false_eq_true, if_false] at e
  exact ⟨_, e, retireWith_now rfl htask⟩

theorem exec_systemCallReply {d : Nat} {v : W64} (hstall : (arrAt s p).stall = .sys d v) (htask : (arrAt s p).task ≠ none)
    (hdone : readsDone s l = true) : ∃ t', exec (.systemCallReply l) s = .next t' ∧
      ArrayNow s t' p { stepped ((arrAt s p).putS d v) with stall := .none } := by
  have e : exec (.systemCallReply l) s = _ := arrayEvent_acts _ hs hp
  simp only [hstall, hdone, if_true] at e
  exact ⟨_, e, retireWith_now rfl htask⟩

theorem exec_waitTimeout {d : Nat} {x : TwWait} (hstall : (arrAt s p).stall = .wait d)
    (hfind : s.tw.waits.find? (fun w => decide (w.phys = p)) = some x)
    (himm : opImm (leNat ((arrAt s p).lsBytes (arrAt s p).pc 8)) ≠ 0) :
    exec (.waitTimeout l) s = .next (modArr p (fun y => { stepped (y.putS d (w64 (twAt s x.idx).toNat)) with
      stall := .none, cond := false }) { s with tw := { s.tw with waits := s.tw.waits.filter (fun y => decide (y ≠ x)) } }) := by
  have e : exec (.waitTimeout l) s = _ := arrayEvent_acts _ hs hp
  have hphys : x.phys = p := by simpa using List.find?_some hfind
  subst hphys
  simp only [hstall, hfind, if_neg himm] at e
  rw [e, wakeWait_waiting _ _ hstall]

/-! ## The start of a task (R133, R498) -/

section
variable {t : Task} {h : HostData} (hidle : (arrAt s p).task = none) (hgate : (arrAt s p).gated = false)
  (hnext : ((arrAt s p).queue.find? (entryReady s)).bind (taskOf s) = some t)

include hidle hgate hnext

/-- TASK_START takes the next ready entry: a saved task at once, a new one through the reading of its control data. -/
theorem exec_taskStart : exec (.taskStart l h) s = .next (
    let go := fun s => stageQueue t.queue (fillSeq (l / 18) (startEntry l p t h s))
    if (saveOf s t.seq).isSome then go s
    else reading t.seq (.array l) (arrayCh l) t.seq t.ctx (fieldAt t.record 8 8) (fieldAt t.record 16 4) go s) := by
  have e : exec (.taskStart l h) s = _ := arrayEvent_acts _ hs hp
  simp only [hidle, hgate, Option.isSome_none, Bool.false_eq_true, or_self, if_false, hnext] at e
  exact e

theorem exec_taskStart_saved (hsaved : (saveOf s t.seq).isSome = true) :
    exec (.taskStart l h) s = .next (stageQueue t.queue (fillSeq (l / 18) (startEntry l p t h s))) :=
  (exec_taskStart hs hp hidle hgate hnext).trans (congrArg _ (if_pos hsaved))

theorem exec_taskStart_new (hsaved : saveOf s t.seq = none) (hwaits : fetchWaits s t.seq = false)
    (hdata : (remoteSpans s (.array l) t.ctx (fieldAt t.record 8 8) (fieldAt t.record 16 4)).all (hasFetch s t.seq t.ctx) = true) :
    exec (.taskStart l h) s = .next (endReading t.seq (stageQueue t.queue (fillSeq (l / 18) (startEntry l p t h s)))) :=
  (exec_taskStart hs hp hidle hgate hnext).trans (congrArg _
    ((if_neg (by rw [hsaved]; exact Bool.false_ne_true)).trans (reading_ready _ _ _ hwaits hdata)))
end
end

/-! ## A save begins (R151, R157, R164) -/

/-- What a save that begins makes of its array. -/
def savingArr (e : Option (List Byte)) (idx : Nat) (x : Arr) : Arr :=
  { x with saving := some e.isSome, preempt := none, liveIdx := idx, saveGen := (x.saveGen + 1) % 2 ^ 16 }

/-- Of the arrays a save that begins writes the array's own state, the list of records and the pool's peak. -/
theorem beginSave_arr {p : Nat} {s : State} {t : Task} (e : Option (List Byte)) (idx : Nat)
    (h : (arrAt s p).task.bind (taskOf s) = some t) : ∃ n, (beginSave p e idx s).arr =
      { (modArr p (savingArr e idx) s).arr with saves := s.arr.saves ++ [newRec s p t e], poolPeak := n } := by
  simp only [beginSave, h]
  split
  · exact ⟨_, rfl⟩
  · exact ⟨_, (accessC_foot (W := [.mem, .rg, .fe]) (by decide) _ _ _ _ _ _ (Foot.refl _ _)).arr.resolve_left (by decide)⟩

/-- A save at an instruction that has done no step and waits for nothing only begins. -/
theorem fullSave_fresh {p : Nat} {s : State} (hstall : (arrAt s p).stall = .none) (hprogress : (arrAt s p).progress = 0) :
    fullSave p s = beginSave p none 0 s := by
  simp only [fullSave, hstall, hprogress, ne_eq, not_true_eq_false, false_and, if_false]

/-- A full save takes 21 units of the pool where R164 and R242 let it lie there. -/
theorem newRec_pool_iff (s : State) (p : Nat) (t : Task) : (newRec s p t none).pool = true ↔
    farOnly s t = false ∧ poolUse s (newRec s p t none).part + 21 ≤ poolShare s := by
  simp only [newRec, Bool.and_eq_true, Bool.not_eq_true', decide_eq_true_eq]
  exact Iff.rfl

theorem exec_graceExpiry {s : State} {l p q : Nat} {t : Task} (hs : Computing s) (hp : physOf s l = some p)
    (hmay : maySave (arrAt s p) = true) (hpre : (arrAt s p).preempt ≠ none) (hstall : (arrAt s p).stall = .none)
    (hprogress : (arrAt s p).progress = 0) (htask : (arrAt s p).task = some q) (ht : taskOf s q = some t) :
    ∃ t', exec (.graceExpiry l) s = .next t' ∧ arrAt t' p = savingArr none 0 (arrAt s p) ∧
      (∀ q, q ≠ p → arrAt t' q = arrAt s q) ∧ t'.arr.saves = s.arr.saves ++ [newRec s p t none] := by
  have e : exec (.graceExpiry l) s = _ := arrayEvent_acts _ hs hp
  rw [if_pos (by rw [hmay, Bool.true_and, Option.isSome_iff_ne_none]; exact hpre), fullSave_fresh hstall hprogress] at e
  obtain ⟨n, harr⟩ := beginSave_arr (p := p) (s := s) (t := t) none 0 (by rw [htask]; exact ht)
  have hst : ∀ k, arrAt (beginSave p none 0 s) k = arrAt (modArr p (savingArr none 0) s) k :=
    fun k => by rw [arrAt, harr, arrAt]
  obtain ⟨hself, hother, -⟩ := modArr_now p (savingArr none 0) s (by rw [savingArr, htask]; exact Option.some_ne_none q)
  exact ⟨_, e, (hst p).trans hself, fun k hk => (hst k).trans (hother k hk), congrArg Arrs.saves harr⟩

/-! ## A save ends (R155 to R157)

What follows the save on its sequencer (requests, swaps, the filling of task queues) starts nothing on the freed array and leaves the
records alone. -/

/-- Array `p` has given up its task, and the records are `rs`. -/
def Freed (p : Nat) (rs : List SaveRec) (s : State) : Prop :=
  (arrAt s p).task = none ∧ (arrAt s p).lastCtx ≠ none ∧ s.arr.saves = rs

section
variable {p : Nat} {rs : List SaveRec} {s t : State}

theorem freed_of_arr (hst : t.arr.st = s.arr.st) (hsaves : t.arr.saves = s.arr.saves) (h : Freed p rs s) : Freed p rs t := by
  rwa [Freed, arrAt, hst, hsaves]

/-- A change of an array that gives an idle one no task. -/
theorem freed_modArr (k : Nat) {f : Arr → Arr} (hf : ∀ x, x.task = none → (f x).task = none ∧ (f x).lastCtx = x.lastCtx)
    (h : Freed p rs s) : Freed p rs (modArr k f s) := by
  obtain ⟨htask, hctx, hsaves⟩ := h
  by_cases hk : p = k
  · subst hk
    obtain ⟨ftask, fctx⟩ := hf _ htask
    have hnow : arrAt (modArr p f s) p = f (arrAt s p) :=
      arrAt_modArr p f s (fun e => hctx (fctx.symm.trans (congrArg Arr.lastCtx e)))
    exact ⟨by rw [hnow, ftask], by rw [hnow, fctx]; exact hctx, hsaves⟩
  · have hsame : arrAt (modArr k f s) p = arrAt s p := arrAt_modArr_ne k p f s hk
    exact ⟨by rw [hsame, htask], by rw [hsame]; exact hctx, hsaves⟩

theorem freed_refill (fuel k : Nat) (h : Freed p rs s) : Freed p rs (refill fuel k s) := by
  induction fuel generalizing s with
  | zero => exact h
  | succ n ih =>
    unfold refill
    split
    · exact h
    split
    · exact h
    split
    · exact h
    · exact ih (freed_modArr _ (fun _ hx => ⟨hx, rfl⟩) (freed_of_arr rfl rfl h))

theorem freed_fillSeq (k : Nat) (h : Freed p rs s) : Freed p rs (fillSeq k s) := freed_refill 72 k h

theorem freed_requestPre (k : Nat) (now : Bool) (h : Freed p rs s) : Freed p rs (requestPre k now s) := by
  refine freed_modArr k (fun x hx => ?_) h
  rw [if_pos (.inl (by rw [hx]; rfl))]
  exact ⟨hx, rfl⟩

theorem freed_requeueEntry (l k seq : Nat) (h : Freed p rs s) : Freed p rs (requeueEntry l k seq s) := by
  unfold requeueEntry
  split
  · exact h
  · split
    · exact h
    · exact freed_modArr k (fun _ hx => ⟨hx, rfl⟩) (freed_of_arr rfl rfl h)

theorem freed_requeue (k : Nat) (h : Freed p rs s) : Freed p rs (requeue k s) := by
  refine each_keeps (fun l _ s hs => ?_) h
  split
  · exact each_keeps (fun q _ s hs => freed_requeueEntry _ _ q hs) hs
  · exact hs

theorem freed_raisePre (k : Nat) (h : Freed p rs s) : Freed p rs (raisePre k s) := by
  unfold raisePre
  dsimp only
  split
  · exact h
  · split
    on_goal 2 => refine freed_fillSeq k (freed_requeue k ?_)
    all_goals
      refine each_keeps (fun l _ s hs => ?_) h
      split
      · exact freed_requestPre _ _ hs
      · exact hs

theorem freed_raiseInTurn (k : Nat) (h : Freed p rs s) : Freed p rs (raiseInTurn k s) := by
  unfold raiseInTurn
  split
  · exact h
  · exact freed_raisePre k h

theorem freed_remap (x : Swap) (h : Freed p rs s) : Freed p rs (remap x s) := by
  have hreply : ∀ v, (replyFor 256 0x0310 .done v).arr = v.arr := fun v =>
    (replyFor_foot (W := [.ic, .mbx]) (by decide) 256 0x0310 .done (Foot.refl _ v)).arr.resolve_left (by decide)
  have hend : ∀ v : State, v.arr.st = s.arr.st → v.arr.saves = s.arr.saves → Freed p rs
      (if x.own then fillSeq (x.l / 18) v else replyFor 256 0x0310 .done (fillSeq (x.l / 18) v)) := fun v hst hsaves => by
    have hfill := freed_fillSeq (x.l / 18) (freed_of_arr hst hsaves h)
    split
    · exact hfill
    · exact freed_of_arr (congrArg Arrs.st (hreply _)) (congrArg Arrs.saves (hreply _)) hfill
  obtain ⟨l, old, new, own⟩ := x
  cases new
  case none => exact hend _ rfl rfl
  case some n => exact hend _ rfl rfl

theorem freed_swapChecks (h : Freed p rs s) : Freed p rs (swapChecks s) :=
  each_keeps (fun x _ s hs => by
    unfold swapCheck
    split
    · exact freed_remap x hs
    · exact hs) h

theorem freed_idle (p c : Nat) {s v : State} (h : v.arr = s.arr) : Freed p s.arr.saves (modArr p (Arr.idle c) v) := by
  have hnow := arrAt_modArr p (Arr.idle c) v (fun e => Option.some_ne_none c (congrArg Arr.lastCtx e))
  refine ⟨congrArg Arr.task hnow, fun e => Option.some_ne_none c ((congrArg Arr.lastCtx hnow).symm.trans e), ?_⟩
  rw [modArr_arr, h]

/-- An array that its task leaves is free. -/
theorem freed_leaveArray (p : Nat) (s : State) : Freed p s.arr.saves (leaveArray p s) := by
  have harr : ∀ l v, (abandonArr l (dropRuns (.array l) v)).arr = v.arr := fun l v =>
    (abandonArr_foot (W := [.rg, .fab, .ports]) (by decide) l (dropRuns_foot (by decide) _ (Foot.refl _ v))).arr.resolve_left (by decide)
  exact freed_idle p _ (harr _ _)
end

/-! ### The record -/

theorem lsError_saves (p c : Nat) (e : LsError) (s : State) : (lsError p c e s).arr.saves = s.arr.saves := by
  unfold lsError
  split <;> rw [reportCe_arr] <;> rfl

theorem recStore_saves (r : SaveRec) (bytes : List (Nat × Byte)) (marks : List Nat) (s : State) :
    (recStore r bytes marks s).arr.saves = s.arr.saves := by
  unfold recStore
  split
  · rfl
  · dsimp only
    rw [each_same (fun s => s.arr.saves) (fun x _ s => by rw [reportCe_arr])]
    exact congrArg Arrs.saves ((logWrite_foot (W := [.cells, .mem, .fe]) (by decide) _ _ (zeroMem_foot (by decide) _ _
      (Foot.refl _ s))).arr.resolve_left (by decide))

theorem recPatch_saves (r : SaveRec) (off : Nat) (data : List Byte) (bad : Nat → Bool) (s : State) :
    (recPatch r off data bad s).arr.saves = s.arr.saves := by
  unfold recPatch
  split
  · refine each_same (fun s : State => s.arr.saves) (fun _ _ _ => ?_) s
    rfl
  · exact congrArg Arrs.saves ((writeMem_foot (W := [.cells, .mem, .fe, .ic, .err]) (by decide) _ _ _
      (Foot.refl _ s)).arr.resolve_left (by decide))

/-- The record of a save that ends: complete, and with the control state of its array. -/
def savedRec (st : Arr) (seq : Nat) (y : SaveRec) : SaveRec :=
  if y.seq = seq then { y with done := true, held := [], st := st } else y

theorem finishSave_saves (p : Nat) (t : Task) (r : SaveRec) (ecc : List LsError) (s : State) :
    ∃ st, (finishSave p t r ecc s).arr.saves = s.arr.saves.map (savedRec st r.seq) := by
  let k := layoutOf (arrAt s p) r.entry
  let v := each (ecc.filter (fun e => k.gs.contains (e.addr / 64))) (lsError p t.ctx) s
  let w := recStore r (recBytesOf (arrAt v p) (some t) k) (recMarks (arrAt v p) k) v
  let held := ((recOf w r.seq).map (fun y => y.held)).getD []
  have hpatch : (each held (fun h s => recPatch r h.off h.data (fun i => h.bad.getD i false) s) w).arr.saves = w.arr.saves :=
    each_same (fun s => s.arr.saves) (fun h _ s => recPatch_saves r h.off h.data _ s) w
  have hcode : v.arr.saves = s.arr.saves := each_same (fun s => s.arr.saves) (fun e _ s => lsError_saves p t.ctx e s) s
  exact ⟨(arrAt v p).control, congrArg (List.map (savedRec (arrAt v p).control r.seq))
    (hpatch.trans ((recStore_saves r _ _ v).trans hcode))⟩

/-- The array of a saved task is free, whatever place the task takes. -/
theorem freed_released (p : Nat) (t : Task) (place : Place) (cyc : Nat) (s : State) :
    Freed p s.arr.saves (modTask t.seq (fun t => { t with place := place }) (leaveArray p (useCycles t.queue cyc s))) := by
  have huse : (useCycles t.queue cyc s).arr = s.arr :=
    (useCycles_foot (W := [.fe]) (by decide) t.queue cyc (Foot.refl _ s)).arr.resolve_left (by decide)
  have hleft := freed_leaveArray p (useCycles t.queue cyc s)
  rw [huse] at hleft
  exact freed_of_arr rfl rfl hleft

/-- SAVE_COMPLETE frees the array and keeps the records, the one of its task complete. -/
theorem exec_saveComplete {s : State} {l p q : Nat} {t : Task} {c : Bool} {r : SaveRec} (es : List LsError) (hs : Computing s)
    (hp : physOf s l = some p) (hsaving : (arrAt s p).saving = some c) (htask : (arrAt s p).task = some q) (ht : taskOf s q = some t)
    (hr : recOf s q = some r) (hstores : (arrAt s p).stores = 0) (hstall : (arrAt s p).stall = .none)
    (hruns : runsWait s (.array l) = false) :
    ∃ t' st, exec (.saveComplete l es) s = .next t' ∧ Freed p (s.arr.saves.map (savedRec st r.seq)) t' := by
  have e : exec (.saveComplete l es) s = _ := arrayEvent_acts _ hs hp
  simp only [hsaving, htask, Option.bind_some, ht, hr, hstores, hstall, hruns, decide_true, Bool.not_false, Bool.and_true, if_true] at e
  obtain ⟨st, hst⟩ := finishSave_saves p t r es (fresh s).2
  refine ⟨_, st, e, freed_fillSeq _ (freed_swapChecks ?_)⟩
  have hplace := freed_released p t (.saved (l / 18)) ((fresh s).1 % 2 ^ 48) (finishSave p t r es (fresh s).2)
  rw [hst] at hplace
  split
  · exact freed_raiseInTurn _ hplace
  · exact hplace

/-- The record that a save keeps is the one that it began with, complete. -/
theorem savedRec_mem {s : State} {q : Nat} {r : SaveRec} (st : Arr) (hr : recOf s q = some r) :
    ∃ y ∈ s.arr.saves.map (savedRec st r.seq), y.seq = q ∧ y.done = true ∧ y.ctx = r.ctx ∧ y.phys = r.phys ∧ y.size = r.size ∧
      y.pool = r.pool := by
  have hseq : r.seq = q := by simpa using List.find?_some hr
  exact ⟨_, List.mem_map_of_mem (List.mem_of_find?_eq_some hr), by rw [savedRec, if_pos rfl]; exact ⟨hseq, rfl, rfl, rfl, rfl, rfl⟩⟩

/-! ## A restore ends (R159 to R161, R165) -/

theorem freeRec_saves (r : SaveRec) (s : State) : (freeRec r s).arr.saves = s.arr.saves.filter (fun y => decide (y.seq ≠ r.seq)) := by
  unfold freeRec
  dsimp only
  split <;> rfl

theorem arrAt_freeRec (r : SaveRec) (s : State) (q : Nat) : arrAt (freeRec r s) q = arrAt s q := by
  unfold freeRec
  dsimp only
  split <;> rfl

/-- A freed record is found no more. -/
theorem recOf_filter {s t : State} {q : Nat} (h : t.arr.saves = s.arr.saves.filter (fun y => decide (y.seq ≠ q))) : recOf t q = none := by
  rw [recOf, h, List.find?_eq_none]
  intro y hy hq
  exact of_decide_eq_true (List.mem_filter.1 hy).2 (of_decide_eq_true hq)

/-- A task that was saved at no wait has nothing to take up. -/
theorem resume_none {r : SaveRec} (l p : Nat) (t : Task) (s : State) (h : r.st.stall = .none) : resume l p t r s = s := by
  simp only [resume, h]

/-- What an array that is restored becomes: `st` is the state that the bytes of its record spell. -/
def restoredArr (st : Arr) (t : Task) (x : Arr) : Arr :=
  { st with task := some t.seq, lastCtx := some t.ctx, queue := x.queue, gated := x.gated, started := x.started,
            rank1 := x.rank1, restore := false, saving := none, preempt := x.heldPre, heldPre := none }

theorem exec_restoreComplete {s : State} {l p q : Nat} {t : Task} {r : SaveRec} (hs : Computing s) (hp : physOf s l = some p)
    (hrestore : (arrAt s p).restore = true) (htask : (arrAt s p).task = some q) (ht : taskOf s q = some t)
    (hr : saveOf s q = some r) (hstall : r.st.stall = .none) (hheld : (arrAt s p).heldPre = none)
    (hruns : runsWait s (.array l) = false) : let b := recLoad r s
    ∃ t', exec (.restoreComplete l []) s = .next t' ∧ recOf t' q = none ∧
      arrAt t' p = restoredArr (recState r.st (layoutOf r.st r.entry) b.1 b.2) t (arrAt s p) := by
  intro b
  have hseq : r.seq = q := by
    have h := List.find?_some hr
    simp only [Bool.and_eq_true, decide_eq_true_eq] at h
    exact h.1
  have herr : recErrors r [] s = s := by unfold recErrors; split <;> rfl
  have e : exec (.restoreComplete l []) s = _ := arrayEvent_acts _ hs hp
  simp only [hrestore, htask, Option.bind_some, ht, hr, hruns, Bool.false_eq_true, if_false, herr, resume_none _ _ _ _ hstall] at e
  let w := modTask t.seq (fun t => { t with place := .running l })
    (modArr p (restoredArr (recState r.st (layoutOf r.st r.entry) b.1 b.2) t) (freeRec r s))
  change _ = Host.Outcome.next (if (arrAt w p).preempt == some ⟨true⟩ && maySave (arrAt w p) then fullSave p w else w) at e
  have hself : arrAt w p = restoredArr (recState r.st (layoutOf r.st r.entry) b.1 b.2) t (arrAt (freeRec r s) p) :=
    (modArr_now p _ (freeRec r s) (Option.some_ne_none t.seq)).1
  rw [arrAt_freeRec] at hself
  have hpre : (arrAt w p).preempt = none := by rw [hself]; exact hheld
  rw [if_neg (by rw [hpre]; exact Bool.false_ne_true)] at e
  exact ⟨w, e, recOf_filter (hseq ▸ freeRec_saves r s), hself⟩

/-- Settles O8, event by event. -/
theorem arrayRepliesAndTasks : Obligations.ArrayRepliesAndTasks := by
  refine ⟨fun _ _ _ _ _ hs hp hstall htask hdone => exec_loadComplete hs hp hstall htask hdone,
    fun _ _ _ hs hp hdue hstores hruns => exec_storeAck hs hp hdue hstores hruns,
    fun _ _ _ _ _ hs hp hstall htask hruns => exec_atomReply hs hp hstall htask hruns,
    fun _ _ _ _ _ hs hp hstall htask hdone => exec_systemCallReply hs hp hstall htask hdone,
    fun _ _ _ _ _ hs hp hstall _ hfind himm => exec_waitTimeout hs hp hstall hfind himm,
    fun _ _ _ _ _ hs hp hidle hgate hnext hsaved => exec_taskStart_saved hs hp hidle hgate hnext hsaved,
    fun _ _ _ _ _ hs hp hidle hgate hnext hsaved hwaits hdata => exec_taskStart_new hs hp hidle hgate hnext hsaved hwaits hdata,
    fun s l p t q hs hp hmay hpre hstall hprogress htask ht hseq => ?graceExpiry,
    fun s l p t c q r es hs hp hsaving htask ht hr hstores hstall _ hruns => ?saveComplete,
    fun s l p t q r hs hp hrestore htask ht hseq hr hstall hheld hruns => ?restoreComplete⟩
  case graceExpiry =>
    obtain ⟨t', e, hself, hother, hsaves⟩ := exec_graceExpiry hs hp hmay hpre hstall hprogress htask ht
    exact ⟨t', _, e, hself, hother, hsaves, hseq, rfl, rfl, rfl, rfl, rfl, newRec_pool_iff s p t⟩
  case saveComplete =>
    obtain ⟨t', st, e, hfree, -, hsaves⟩ := exec_saveComplete es hs hp hsaving htask ht hr hstores hstall hruns
    exact ⟨t', e, hfree, hsaves ▸ savedRec_mem st hr⟩
  case restoreComplete =>
    obtain ⟨t', e, hrec, hself⟩ := exec_restoreComplete hs hp hrestore htask ht hr hstall hheld hruns
    refine ⟨t', e, hrec, hself.trans ?_⟩
    rw [restoredArr, hseq, hheld]

end Sys2Proof.Proofs
end

section
/-!
The bytes and marks of a full save, read back (R149, R156, R159, R162).
-/
namespace Sys2Proof.Proofs
open Sys2Proof Sys2Proof.Machine Sys2Proof.Laws

/-! ## Places in a list -/

theorem indexIn_some {l : List Nat} {x i : Nat} (h : indexIn l x = some i) : i < l.length ∧ l.getD i 0 = x := by
  obtain ⟨hi, hx, -⟩ := List.findIdx?_eq_some_iff_getElem.1 h
  exact ⟨hi, (List.getD_eq_getElem l 0 hi).trans (eq_of_beq hx)⟩

theorem indexIn_isSome {l : List Nat} {x : Nat} : (indexIn l x).isSome = true ↔ x ∈ l := by
  rw [indexIn, List.findIdx?_isSome, List.any_beq']
  exact List.contains_iff_mem

theorem indexIn_none {l : List Nat} {x : Nat} (h : x ∉ l) : indexIn l x = none :=
  Option.not_isSome_iff_eq_none.1 (fun e => h (indexIn_isSome.1 e))

theorem exists_indexIn {l : List Nat} {x : Nat} (h : x ∈ l) : ∃ i, indexIn l x = some i :=
  Option.isSome_iff_exists.1 (indexIn_isSome.2 h)

theorem indexIn_range {n i : Nat} (h : i < n) : indexIn (List.range n) i = some i := by
  obtain ⟨k, hk⟩ := exists_indexIn (List.mem_range.2 h)
  obtain ⟨hlt, hget⟩ := indexIn_some hk
  rw [List.length_range] at hlt
  rw [hk, ← hget, List.getD_eq_getElem _ 0 (by rwa [List.length_range]), List.getElem_range]

/-! ## A number of a table, as a list of writes goes by -/

section
variable {α : Type} [DecidableEq α]

omit [DecidableEq α] in
/-- Steps that change nothing. -/
theorem foldl_fixed {β γ : Type} {f : γ → β → γ} {l : List β} {v : γ} (h : ∀ c ∈ l, f v c = v) : l.foldl f v = v := by
  induction l with
  | nil => rfl
  | cons c l ih => rw [List.foldl_cons, h c List.mem_cons_self, ih (fun d hd => h d (List.mem_cons_of_mem c hd))]

/-- Of the entries of a table only that of number `j` counts for what gathers the values of `j`. -/
theorem foldl_entries {d : α} {g : α → α → α} (hg : ∀ w, g d w = w) {t : Tbl α} (j : Nat) (h : twf d t = true) :
    t.foldl (fun v c => if c.1 = j then g v c.2 else v) d = tget d t j := by
  induction t with
  | nil => rfl
  | cons c r ih =>
    obtain ⟨-, hk, hr⟩ := (twf_cons d c r).1 h
    rw [List.foldl_cons]
    by_cases hj : c.1 = j
    · rw [if_pos hj, hg, foldl_fixed (fun q hq => if_neg (Nat.ne_of_gt (hj ▸ hk q hq)))]
      exact (if_pos hj).symm
    · rw [if_neg hj, ih hr]
      exact (if_neg hj).symm

/-- Number `j` after writes to the numbers `key c`. -/
theorem tget_foldl_tset {β : Type} {d : α} (key : β → Nat) (val : β → α) (l : List β) {t : Tbl α} (j : Nat) (h : twf d t = true) :
    tget d (l.foldl (fun t c => tset d t (key c) (val c)) t) j = l.foldl (fun v c => if key c = j then val c else v) (tget d t j) := by
  induction l generalizing t with
  | nil => rfl
  | cons c l ih =>
    rw [List.foldl_cons, List.foldl_cons, ih (tset_twf d t _ _ h), tget_tset d t _ _ _ h]
    exact congrArg (fun v => l.foldl _ v) (if_congr eq_comm rfl rfl)
end

/-! ## Words from bytes -/

/-- What byte `c` of a record contributes to word `j` of the part [lo, hi), whose word `m` is number `f m`. -/
def orByte (lo hi : Nat) (f : Nat → Nat) (j : Nat) (v : W32) (c : Nat × Byte) : W32 :=
  if lo ≤ c.1 ∧ c.1 < hi ∧ f ((c.1 - lo) / 4) = j then v ||| w32 (c.2.toNat * 256 ^ ((c.1 - lo) % 4)) else v

/-- The words of the part [lo, hi) of a record. -/
def wordsOf (lo hi : Nat) (f : Nat → Nat) (bytes : List (Nat × Byte)) (t : Tbl W32) : Tbl W32 :=
  bytes.foldl (fun t c => if lo ≤ c.1 ∧ c.1 < hi then
    tmod 0 t (f ((c.1 - lo) / 4)) (fun v => v ||| w32 (c.2.toNat * 256 ^ ((c.1 - lo) % 4))) else t) t

theorem recState_v (st : Arr) (k : RecLayout) (bytes : List (Nat × Byte)) (marks : List Nat) :
    (recState st k bytes marks).v = wordsOf k.atV k.atA (fun i => 64 * k.vs.getD (i / 64) 0 + i % 64) bytes [] := rfl

theorem recState_acc (st : Arr) (k : RecLayout) (bytes : List (Nat × Byte)) (marks : List Nat) :
    (recState st k bytes marks).acc = wordsOf k.atA k.atC (fun i => i) bytes [] := rfl

section
variable {lo hi : Nat} {f : Nat → Nat} {j : Nat}

theorem tget_wordsOf (bytes : List (Nat × Byte)) {t : Tbl W32} (h : twf 0 t = true) :
    tget 0 (wordsOf lo hi f bytes t) j = bytes.foldl (orByte lo hi f j) (tget 0 t j) := by
  induction bytes generalizing t with
  | nil => rfl
  | cons c l ih =>
    rw [wordsOf, List.foldl_cons, List.foldl_cons, ← wordsOf]
    by_cases hin : lo ≤ c.1 ∧ c.1 < hi
    · rw [if_pos hin, ih (tmod_twf 0 t _ _ h), tmod, tget_tset 0 t _ _ _ h, orByte]
      by_cases hj : f ((c.1 - lo) / 4) = j
      · rw [if_pos hj.symm, if_pos ⟨hin.1, hin.2, hj⟩, hj]
      · rw [if_neg (Ne.symm hj), if_neg (fun e => hj e.2.2)]
    · rw [if_neg hin, ih h, orByte, if_neg (fun e => hin ⟨e.1, e.2.1⟩)]

/-- Bytes outside the part contribute nothing. -/
theorem orByte_outside {l : List (Nat × Byte)} (v : W32) (h : ∀ c ∈ l, c.1 < lo ∨ hi ≤ c.1) : l.foldl (orByte lo hi f j) v = v :=
  foldl_fixed (fun c hc => if_neg (fun e => by have := h c hc; omega))

/-- The `n` low bytes of a number, one after the other. -/
theorem or_leBytes (x n : Nat) : ∀ v : W32, (List.range n).foldl (fun v i => v ||| w32 (x / 256 ^ i % 256 * 256 ^ i)) v =
    v ||| w32 (x % 256 ^ n) := by
  induction n with
  | zero => intro v; rw [Nat.pow_zero, Nat.mod_one]; exact BitVec.or_zero.symm
  | succ n ih =>
    intro v
    have hlow : x % 256 ^ n < 2 ^ (8 * n) := by
      rw [Nat.pow_mul]
      exact Nat.mod_lt _ (Nat.pow_pos (by decide))
    have hsplit : x % 256 ^ (n + 1) = x % 256 ^ n ||| x / 256 ^ n % 256 * 256 ^ n := by
      rw [Nat.pow_succ, Nat.mod_mul, Nat.or_comm, Nat.mul_comm (x / 256 ^ n % 256), Nat.add_comm,
        show (256 : Nat) ^ n = 2 ^ (8 * n) from (Nat.pow_mul 2 8 n).symm]
      rw [Nat.pow_mul] at hlow
      exact Nat.two_pow_add_eq_or_of_lt (by rwa [Nat.pow_mul]) _
    rw [List.range_succ, List.foldl_append, ih, hsplit]
    simp only [List.foldl_cons, List.foldl_nil, w32, BitVec.ofNat_or, BitVec.or_assoc]

theorem leBytes_eq_map (n x : Nat) : leBytes n x = (List.range n).map (fun i => BitVec.ofNat 8 (x / 256 ^ i % 256)) := by
  induction n generalizing x with
  | zero => rfl
  | succ n ih =>
    rw [leBytes, ih, List.range_succ_eq_map, List.map_cons, List.map_map, Nat.pow_zero, Nat.div_one]
    refine congrArg _ (List.map_congr_left fun i _ => ?_)
    rw [Function.comp_apply, Nat.pow_succ', Nat.div_div_eq_div_mul]

/-- Every byte of a range that is not zero lies in the range. -/
theorem denseAt_range {o : Nat} {l : List Byte} {c : Nat × Byte} (h : c ∈ denseAt o l) : o ≤ c.1 ∧ c.1 < o + l.length := by
  obtain ⟨q, hq, hc⟩ := List.mem_filterMap.1 h
  have hlt := List.mem_range.1 (List.of_mem_zip hq).1
  split at hc
  · contradiction
  · cases hc
    dsimp only
    omega

/-- Zero bytes, which a record does not list, may be counted in where they change nothing. -/
theorem foldl_denseAt {β : Type} {g : β → Nat × Byte → β} (hg : ∀ v k, g v (k, 0) = v) (o : Nat) (l : List Byte) (v : β) :
    (denseAt o l).foldl g v = ((List.range l.length).zip l).foldl (fun v q => g v (o + q.1, q.2)) v := by
  rw [denseAt, List.foldl_filterMap]
  refine List.foldl_ext _ _ v (fun v q _ => ?_)
  by_cases hq : q.2 = 0
  · rw [if_pos hq, hq, hg]
  · rw [if_neg hq]

theorem orByte_zero (v : W32) (k : Nat) : orByte lo hi f j v (k, 0) = v := by
  unfold orByte
  split
  · rw [show (0 : Byte).toNat = 0 from rfl, Nat.zero_mul]
    exact BitVec.or_zero
  · rfl

/-- Byte `i` of word `m`. -/
theorem orByte_at {m i : Nat} (v : W32) (b : Byte) (hi' : i < 4) (hm : lo + 4 * m + 4 ≤ hi) (hj : f m = j) :
    orByte lo hi f j v (lo + 4 * m + i, b) = v ||| w32 (b.toNat * 256 ^ i) := by
  have hoff : lo + 4 * m + i - lo = 4 * m + i := by omega
  have hdiv : (4 * m + i) / 4 = m := by omega
  have hmod : (4 * m + i) % 4 = i := by omega
  rw [orByte, hoff, hdiv, hmod, if_pos ⟨by omega, by omega, hj⟩]

/-- The bytes of one word contribute that word, to its own number only. -/
theorem orByte_word {o : Nat} (m : Nat) (w v : W32) (ho : o = lo + 4 * m) (hm : lo + 4 * m + 4 ≤ hi) :
    (denseAt o (leBytes 4 w.toNat)).foldl (orByte lo hi f j) v = if f m = j then v ||| w else v := by
  subst ho
  by_cases hj : f m = j
  · have hsum := or_leBytes w.toNat 4 v
    rw [Nat.mod_eq_of_lt (show w.toNat < 256 ^ 4 from w.isLt), show w32 w.toNat = w from BitVec.ofNat_toNat 32 w] at hsum
    have hzip : (List.range 4).zip (leBytes 4 w.toNat) = (List.range 4).map (fun i => (i, BitVec.ofNat 8 (w.toNat / 256 ^ i % 256))) := by
      rw [leBytes_eq_map, ← List.zip_map', List.map_id']
    rw [if_pos hj, foldl_denseAt orByte_zero, length_leBytes, hzip, List.foldl_map, ← hsum]
    refine List.foldl_ext _ _ v (fun v i hi' => ?_)
    rw [orByte_at v _ (List.mem_range.1 hi') hm hj, BitVec.toNat_ofNat, Nat.mod_mod]
  · rw [if_neg hj]
    refine foldl_fixed (fun c hc => if_neg (fun e => hj ?_))
    have hc := denseAt_range hc
    rw [length_leBytes] at hc
    rw [show m = (c.1 - lo) / 4 by omega]
    exact e.2.2
end

/-! ## A full record -/

/-- The layout of a full record: every granule has its place, and so have the vector registers and the accumulators (R162). -/
structure FullLayout (k : RecLayout) : Prop where
  mem_gs : ∀ g, g ∈ k.gs ↔ g < 20480
  length_gs : k.gs.length = 20480
  vs : k.vs = List.range 64
  acc : k.acc = true
  atV : k.atV = 1310720
  atA : k.atA = 1327104
  atC : k.atC = 1352704

theorem layoutOf_full (x : Arr) : FullLayout (layoutOf x none) := by
  have hgs : (recGranules x none).Perm (List.range 20480) := by
    unfold recGranules
    rw [List.filter_true]
    exact List.filter_append_perm _ _
  have hlen : (layoutOf x none).gs.length = 20480 := hgs.length_eq.trans List.length_range
  have hvs : (layoutOf x none).vs = List.range 64 := List.filter_true _
  have hV : (layoutOf x none).atV = 1310720 := congrArg (64 * ·) hlen
  have hA : (layoutOf x none).atA = 1327104 := by
    show (layoutOf x none).atV + 256 * (layoutOf x none).vs.length = _
    rw [hV, hvs, List.length_range]
  refine ⟨fun g => hgs.mem_iff.trans List.mem_range, hlen, hvs, rfl, hV, hA, ?_⟩
  show (layoutOf x none).atA + 25600 = _
  rw [hA]

section
variable {k : RecLayout} (hk : FullLayout k)

include hk

theorem FullLayout.indexIn_gs {g : Nat} (hg : g < 20480) : ∃ i, indexIn k.gs g = some i ∧ i < 20480 ∧ k.gs.getD i 0 = g := by
  obtain ⟨i, hi⟩ := exists_indexIn ((hk.mem_gs g).2 hg)
  obtain ⟨hlt, hget⟩ := indexIn_some hi
  exact ⟨i, hi, hk.length_gs ▸ hlt, hget⟩

theorem FullLayout.indexIn_vs {n : Nat} (hn : n < 64) : indexIn k.vs n = some n := by rw [hk.vs]; exact indexIn_range hn

theorem FullLayout.of_indexIn_gs {g i : Nat} (h : indexIn k.gs g = some i) : g < 20480 ∧ i < 20480 ∧ k.gs.getD i 0 = g := by
  obtain ⟨hlt, hget⟩ := indexIn_some h
  exact ⟨(hk.mem_gs g).1 (indexIn_isSome.1 (h ▸ rfl)), hk.length_gs ▸ hlt, hget⟩

theorem FullLayout.of_indexIn_vs {n i : Nat} (h : indexIn k.vs n = some i) : n < 64 ∧ i = n := by
  have hn : n < 64 := List.mem_range.1 (hk.vs ▸ indexIn_isSome.1 (h ▸ rfl))
  exact ⟨hn, Option.some.inj (h.symm.trans (hk.indexIn_vs hn))⟩

/-! ### Bytes -/

/-- The bytes of the local store in a record. -/
def lsPart (x : Arr) (k : RecLayout) : List (Nat × Byte) :=
  x.ls.filterMap (fun c => (indexIn k.gs (c.1 / 64)).map (fun i => (64 * i + c.1 % 64, c.2)))

/-- The bytes of the vector registers in a record. -/
def vPart (x : Arr) (k : RecLayout) : List (Nat × Byte) :=
  (x.v.filterMap (fun c => (indexIn k.vs (c.1 / 64)).map (fun i =>
    denseAt (k.atV + 256 * i + 4 * (c.1 % 64)) (leBytes 4 c.2.toNat)))).flatten

/-- The bytes of the accumulators in a record. -/
def accPart (x : Arr) (k : RecLayout) : List (Nat × Byte) :=
  (x.acc.map (fun c => denseAt (k.atA + 4 * c.1) (leBytes 4 c.2.toNat))).flatten

theorem FullLayout.recBytesOf_eq (x : Arr) (t : Option Task) :
    recBytesOf x t k = lsPart x k ++ vPart x k ++ accPart x k ++ denseAt k.atC (ctrlState x t) := by
  unfold recBytesOf
  rw [if_pos hk.acc]
  rfl

theorem FullLayout.lsPart_lt {x : Arr} {c : Nat × Byte} (h : c ∈ lsPart x k) : c.1 < k.atV := by
  obtain ⟨q, -, hc⟩ := List.mem_filterMap.1 h
  obtain ⟨i, hi, rfl⟩ := Option.map_eq_some_iff.1 hc
  obtain ⟨-, hlt, -⟩ := hk.of_indexIn_gs hi
  rw [hk.atV]
  dsimp only
  omega

theorem FullLayout.vPart_range {x : Arr} {c : Nat × Byte} (h : c ∈ vPart x k) : k.atV ≤ c.1 ∧ c.1 < k.atA := by
  obtain ⟨l, hl, hc⟩ := List.mem_flatten.1 h
  obtain ⟨q, -, hq⟩ := List.mem_filterMap.1 hl
  obtain ⟨i, hi, rfl⟩ := Option.map_eq_some_iff.1 hq
  obtain ⟨hlt, rfl⟩ := hk.of_indexIn_vs hi
  have hrange := denseAt_range hc
  rw [length_leBytes, hk.atV] at hrange
  rw [hk.atV, hk.atA]
  omega

omit hk in
theorem accPart_ge {x : Arr} {c : Nat × Byte} (h : c ∈ accPart x k) : k.atA ≤ c.1 := by
  obtain ⟨l, hl, hc⟩ := List.mem_flatten.1 h
  obtain ⟨q, -, rfl⟩ := List.mem_map.1 hl
  have hrange := denseAt_range hc
  omega

theorem FullLayout.bounds : k.atV ≤ k.atA ∧ k.atA ≤ k.atC := by
  rw [hk.atV, hk.atA, hk.atC]
  decide

variable (x : Arr) (t : Option Task) (marks : List Nat)

/-- Below the vector registers a full record holds the local store. -/
theorem FullLayout.filter_lsPart : (recBytesOf x t k).filter (fun c => decide (c.1 < k.atV)) = lsPart x k := by
  obtain ⟨hVA, hAC⟩ := hk.bounds
  have hv : (vPart x k).filter (fun c => decide (c.1 < k.atV)) = [] :=
    List.filter_eq_nil_iff.2 (fun c hc => by have := hk.vPart_range hc; simp only [decide_eq_true_eq]; omega)
  have hacc : (accPart x k).filter (fun c => decide (c.1 < k.atV)) = [] :=
    List.filter_eq_nil_iff.2 (fun c hc => by have := accPart_ge hc; simp only [decide_eq_true_eq]; omega)
  have hctrl : (denseAt k.atC (ctrlState x t)).filter (fun c => decide (c.1 < k.atV)) = [] :=
    List.filter_eq_nil_iff.2 (fun c hc => by have := denseAt_range hc; simp only [decide_eq_true_eq]; omega)
  rw [hk.recBytesOf_eq, List.filter_append, List.filter_append, List.filter_append, hv, hacc, hctrl,
    List.filter_eq_self.2 (fun c hc => decide_eq_true (hk.lsPart_lt hc)), List.append_nil, List.append_nil, List.append_nil]

/-- The local store that a full record spells. -/
theorem FullLayout.tget_ls (h : twf 0 x.ls = true) {a : Nat} (ha : a < lsTop) :
    tget 0 (recState x.control k (recBytesOf x t k) marks).ls a = tget 0 x.ls a := by
  show tget 0 (((recBytesOf x t k).filter (fun c => decide (c.1 < k.atV))).foldl
    (fun t c => tset 0 t (64 * k.gs.getD (c.1 / 64) 0 + c.1 % 64) c.2) []) a = _
  rw [hk.filter_lsPart, tget_foldl_tset _ _ _ _ rfl, lsPart, List.foldl_filterMap]
  refine (List.foldl_ext _ (fun v c => if c.1 = a then c.2 else v) _ (fun v c _ => ?_)).trans
    (foldl_entries (g := fun _ w => w) (fun _ => rfl) a h)
  by_cases hc : c.1 / 64 < 20480
  · obtain ⟨i, hi, hlt, hget⟩ := hk.indexIn_gs hc
    have hdiv : (64 * i + c.1 % 64) / 64 = i := by omega
    have hmod : (64 * i + c.1 % 64) % 64 = c.1 % 64 := by omega
    simp only [hi, Option.map_some, hdiv, hmod, hget, Nat.div_add_mod]
  · have hne : c.1 ≠ a := by unfold lsTop at ha; omega
    rw [indexIn_none (fun hm => hc ((hk.mem_gs _).1 hm)), if_neg hne]
    rfl

/-- The vector registers that a full record spells. -/
theorem FullLayout.getV_eq (h : twf 0 x.v = true) {n i : Nat} (hn : n < 64) (hi : i < 64) :
    (recState x.control k (recBytesOf x t k) marks).getV n i = x.getV n i := by
  obtain ⟨hVA, hAC⟩ := hk.bounds
  rw [Arr.getV, recState_v, tget_wordsOf _ rfl, hk.recBytesOf_eq, List.foldl_append, List.foldl_append, List.foldl_append,
    orByte_outside (l := denseAt k.atC _) _ (fun c hc => by have := denseAt_range hc; omega),
    orByte_outside (l := accPart x k) _ (fun c hc => .inr (accPart_ge hc)),
    orByte_outside (l := lsPart x k) _ (fun c hc => .inl (hk.lsPart_lt hc)), vPart, List.foldl_flatten, List.foldl_filterMap]
  refine (List.foldl_ext _ (fun v c => if c.1 = 64 * n + i then v ||| c.2 else v) _ (fun v c _ => ?_)).trans
    (foldl_entries (fun _ => BitVec.zero_or) (64 * n + i) h)
  by_cases hc : c.1 / 64 < 64
  · have hget : k.vs.getD (c.1 / 64) 0 = c.1 / 64 := (indexIn_some (hk.indexIn_vs hc)).2
    have hA := hk.atA
    rw [hk.indexIn_vs hc, Option.map_some]
    dsimp only
    rw [orByte_word c.1 c.2 v (by omega) (by rw [hA, hk.atV]; omega), hget, Nat.div_add_mod]
  · rw [indexIn_none (fun hm => hc (by rw [hk.vs] at hm; exact List.mem_range.1 hm)), if_neg (by omega)]
    rfl

/-- The accumulators that a full record spells. -/
theorem FullLayout.getAcc_eq (h : twf 0 x.acc = true) {i j : Nat} (hi : i < 80) (hj : j < 80) :
    (recState x.control k (recBytesOf x t k) marks).getAcc i j = x.getAcc i j := by
  obtain ⟨hVA, hAC⟩ := hk.bounds
  have hA := hk.atA
  have hC := hk.atC
  rw [Arr.getAcc, recState_acc, tget_wordsOf _ rfl, hk.recBytesOf_eq, List.foldl_append, List.foldl_append, List.foldl_append,
    orByte_outside (l := denseAt k.atC _) _ (fun c hc => .inr (denseAt_range hc).1),
    orByte_outside (l := lsPart x k) _ (fun c hc => by have := hk.lsPart_lt hc; omega),
    orByte_outside (l := vPart x k) _ (fun c hc => .inl (hk.vPart_range hc).2), accPart, List.foldl_flatten, List.foldl_map]
  refine (List.foldl_ext _ (fun v c => if c.1 = 80 * i + j then v ||| c.2 else v) _ (fun v c _ => ?_)).trans
    (foldl_entries (fun _ => BitVec.zero_or) (80 * i + j) h)
  by_cases hc : c.1 < 6400
  · exact orByte_word c.1 c.2 v rfl (by omega)
  · rw [if_neg (by omega)]
    exact orByte_outside v (fun b hb => by have := denseAt_range hb; omega)

/-! ### Marks -/

/-- Which granules of a full record carry the mark. -/
theorem FullLayout.mem_recMarks {g : Nat} : g ∈ recMarks x k ↔ (∃ m ∈ x.lsPoison, indexIn k.gs m = some g) ∨
    (∃ n ∈ x.vPoison, n < 64 ∧ 20480 + 4 * n ≤ g ∧ g < 20480 + 4 * n + 4) ∨
    (x.tilePoison = true ∧ 20736 ≤ g ∧ g < 21136) := by
  have hV : k.atV / 64 = 20480 := by rw [hk.atV]
  have hA : k.atA / 64 = 20736 := by rw [hk.atA]
  rw [recMarks, List.mem_append, List.mem_append, or_assoc, hV, hA, hk.acc, Bool.true_and]
  refine or_congr List.mem_filterMap (or_congr ⟨fun h => ?_, fun h => ?_⟩ ?_)
  · obtain ⟨l, hl, hg⟩ := List.mem_flatten.1 h
    obtain ⟨i, hi, rfl⟩ := List.mem_map.1 hl
    obtain ⟨n, hn, hni⟩ := List.mem_filterMap.1 hi
    obtain ⟨hlt, rfl⟩ := hk.of_indexIn_vs hni
    obtain ⟨j, hj, rfl⟩ := List.mem_map.1 hg
    have hj4 : j < 4 := List.mem_range.1 hj
    exact ⟨i, hn, hlt, by omega, by omega⟩
  · obtain ⟨n, hn, hlt, hlo, hhi⟩ := h
    exact List.mem_flatten.2 ⟨_, List.mem_map.2 ⟨n, List.mem_filterMap.2 ⟨n, hn, hk.indexIn_vs hlt⟩, rfl⟩,
      List.mem_map.2 ⟨g - (20480 + 4 * n), List.mem_range.2 (by omega), by omega⟩⟩
  · by_cases htile : x.tilePoison = true
    · rw [if_pos htile, List.mem_map]
      refine ⟨fun h => ?_, fun h => ⟨g - 20736, List.mem_range.2 (by omega), by omega⟩⟩
      obtain ⟨j, hj, rfl⟩ := h
      have hj400 : j < 400 := List.mem_range.1 hj
      exact ⟨htile, by omega, by omega⟩
    · rw [if_neg htile]
      exact iff_of_false List.not_mem_nil (fun h => htile h.1)

variable (bytes : List (Nat × Byte))

/-- The marks of the local store that a full record spells. -/
theorem FullLayout.mem_lsPoison {g : Nat} (hg : g < 20480) :
    g ∈ (recState x.control k bytes (recMarks x k)).lsPoison ↔ g ∈ x.lsPoison := by
  show g ∈ ((recMarks x k).filter (fun g => decide (64 * g < k.atV))).foldl (fun l g => sinsert (k.gs.getD g 0) l) [] ↔ _
  rw [← List.foldl_map (f := fun g => k.gs.getD g 0) (g := fun l i => sinsert i l), mem_foldl_sinsert, List.mem_map]
  constructor
  · rintro (h | ⟨m, hm, rfl⟩)
    · exact absurd h List.not_mem_nil
    obtain ⟨hmark, hlt⟩ := List.mem_filter.1 hm
    have hbelow : m < 20480 := by rw [hk.atV, decide_eq_true_eq] at hlt; omega
    obtain ⟨q, hq, hi⟩ | ⟨n, -, -, hlo, -⟩ | ⟨-, hlo, -⟩ := (hk.mem_recMarks x).1 hmark
    · rwa [(hk.of_indexIn_gs hi).2.2]
    · omega
    · omega
  · intro h
    obtain ⟨i, hi, hlt, hget⟩ := hk.indexIn_gs hg
    exact .inr ⟨i, List.mem_filter.2 ⟨(hk.mem_recMarks x).2 (.inl ⟨g, h, hi⟩), decide_eq_true (by rw [hk.atV]; omega)⟩, hget⟩

/-- The marks of the vector registers that a full record spells. -/
theorem FullLayout.mem_vPoison {n : Nat} (hn : n < 64) :
    n ∈ (recState x.control k bytes (recMarks x k)).vPoison ↔ n ∈ x.vPoison := by
  have hV : k.atV / 64 = 20480 := by rw [hk.atV]
  show n ∈ k.vs.filter _ ↔ _
  rw [List.mem_filter, hk.vs, and_iff_right (List.mem_range.2 hn), List.any_eq_true, indexIn_range hn]
  simp only [hV, decide_eq_true_eq]
  constructor
  · rintro ⟨g, hmark, hlo, hhi⟩
    obtain ⟨q, -, hi⟩ | ⟨m, hm, -, hmlo, hmhi⟩ | ⟨-, htile, -⟩ := (hk.mem_recMarks x).1 hmark
    · have hbelow := (hk.of_indexIn_gs hi).2.1
      omega
    · rwa [show n = m by omega]
    · omega
  · intro h
    exact ⟨20480 + 4 * n, (hk.mem_recMarks x).2 (.inr (.inl ⟨n, h, hn, by omega, by omega⟩)), by omega, by omega⟩

/-- The mark of the accumulators that a full record spells. -/
theorem FullLayout.tilePoison_eq : (recState x.control k bytes (recMarks x k)).tilePoison = x.tilePoison := by
  have hA : k.atA / 64 = 20736 := by rw [hk.atA]
  show (k.acc && (recMarks x k).any _) = _
  rw [hk.acc, Bool.true_and, Bool.eq_iff_iff, List.any_eq_true]
  simp only [hA, hk.atC, decide_eq_true_eq]
  constructor
  · rintro ⟨g, hmark, hlo, hhi⟩
    obtain ⟨q, -, hi⟩ | ⟨n, -, hn, -, hnhi⟩ | ⟨htile, -, -⟩ := (hk.mem_recMarks x).1 hmark
    · have hbelow := (hk.of_indexIn_gs hi).2.1
      omega
    · omega
    · exact htile
  · intro h
    exact ⟨20736, (hk.mem_recMarks x).2 (.inr (.inr ⟨h, by omega, by omega⟩)), by omega, by omega⟩
end

/-- Settles O9, store by store. -/
theorem fullSaveRoundTrip : Obligations.FullSaveRoundTrip := by
  intro x t hls hv hacc k y
  have hk : FullLayout k := layoutOf_full x
  have htile : y.tilePoison = x.tilePoison := hk.tilePoison_eq x _
  refine ⟨fun a ha => hk.tget_ls x t _ hls ha, fun n i hn hi => hk.getV_eq x t _ hv hn hi,
    fun i j hi hj => hk.getAcc_eq x t _ hacc hi hj, fun g hg => hk.mem_lsPoison x _ hg, fun n hn => hk.mem_vPoison x _ hn, htile, ?_⟩
  rw [← htile]
  rfl

end Sys2Proof.Proofs
end

section
/-!
Packets that a port hands to the block (R326, R346, R373): what taking one leaves alone, and a request that is served.
-/
namespace Sys2Proof.Proofs
open Sys2Proof Sys2Proof.Machine Sys2Proof.Laws

section
variable (p : Nat) (k : Packet) (s : State)

/-- A packet that is taken changes its port, and what the port sends. -/
theorem takeRx_fab : Foot [.fab, .ports] s (takeRx p k s) := takeRx_foot (List.Subset.refl _) p k (Foot.refl _ s)

@[simp] theorem takeRx_lce : (takeRx p k s).lce = s.lce := (takeRx_fab p k s).lce.resolve_left (by decide)

@[simp] theorem beat_takeRx : beat (takeRx p k s) = beat s := by
  rw [beat, beat, (takeRx_fab p k s).pm.resolve_left (by decide)]

@[simp] theorem latePast_takeRx (d : Nat) : latePast (takeRx p k s) d = latePast s d := by
  rw [latePast, latePast, beat_takeRx]

@[simp] theorem regGet_takeRx (a : Nat) : regGet (takeRx p k s) a = regGet s a := by
  rw [regGet, regGet, (takeRx_fab p k s).regs.resolve_left (by decide)]

@[simp] theorem resetWindow_takeRx : resetWindow (takeRx p k s) = resetWindow s := by
  simp only [resetWindow, (takeRx_fab p k s).blk.resolve_left (by decide), (takeRx_fab p k s).err.resolve_left (by decide)]

@[simp] theorem routeValid_takeRx (n : Nat) : routeValid (takeRx p k s) n = routeValid s n := by
  rw [routeValid, routeValid, routeOf, routeOf, nodeId, nodeId, regGet_takeRx, regGet_takeRx]
end

section
variable {s : State} {p opc : Nat} {k : Packet} (f : Packet → State → State)

theorem onPacket_head (h : rxHead s p (fun k => decide (k.opc = opc ∧ k.dst = nodeId s)) = some k) :
    onPacket p opc f s = f k (takeRx p k s) := by
  simp only [onPacket, h]

/-- A request that arrives in service and before its deadline is served. -/
theorem serve_arrives (h : Arrives s p opc k) : serve p opc f s = f k (takeRx p k s) := by
  obtain ⟨-, hwin, hhead, hlate⟩ := h
  rw [serve, onPacket_head _ hhead, latePast_takeRx, resetWindow_takeRx, hlate, hwin]
  rfl
end

end Sys2Proof.Proofs
end

section
/-!
Lookup engines (R177, R199 to R208, R221, R228): the task at the head of a queue, fences, fetched data, and what pooling gives.
-/
namespace Sys2Proof.Proofs
open Sys2Proof Sys2Proof.Machine Sys2Proof.Laws

theorem run_computing {s : State} (f : State → State) (hs : Computing s) : run s (guarded (computeOn s) f) = .next (f s) := by
  rw [run_live _ hs.1, hs.2, guarded_true]

/-! ## The head of the queue (R177, R199) -/

section
variable {s : State} {n q : Nat} {r : List LceJob} {t : Task} (hq : (lceAt s n).queue = .task q :: r) (ht : taskOf s q = some t)
include hq ht

theorem startJob_lookup (h : HostData) (hroom : lceRoom s n = true) (hty : t.ty = 0x10) :
    startJob n h s = startLookup n t h (modTask q (fun t => { t with place := .lce n, start := beat s }) (popJob n s)) := by
  simp only [startJob, hroom, hq, ht, hty, Bool.not_true, Bool.false_eq_true, if_false, if_true]

theorem headTask_starts {ty : Nat} (f : Task → State → State) (hawake : lceAwake s n = true) (hty : t.ty = ty) :
    headTask n ty f s = f t (modTask q (fun t => { t with place := .lce n, start := beat s }) (popJob n s)) := by
  simp only [headTask, hawake, hq, ht, hty, Bool.not_true, Bool.false_eq_true, if_false, if_true]
end

/-! ## Fences (R228) -/

theorem taskEnd_lce (seq : Nat) (st : Status) (cycles : Nat) (guilt : Option (Nat × Nat)) (s : State) :
    (taskEnd seq st cycles guilt s).lce = s.lce :=
  (taskEnd_foot (List.Subset.refl _) seq st cycles guilt (Foot.refl _ s)).lce.resolve_left (by decide)

/-- A fence without RELOAD leaves the fences that wait and sets FENCED of its domain; of the engines nothing else changes. -/
theorem fenceDone_lce {w : EpochWait} (s : State) (h : w.reload = false) :
    (fenceDone w s).lce = { s.lce with
      fences := s.lce.fences.filter (fun x => decide (x ≠ w))
      domains := s.lce.domains.map (fun d => if d.id = w.domain then { d with
        fenced := if above32 w.epoch d.fenced then w.epoch else d.fenced } else d) } := by
  simp only [fenceDone, h, Bool.false_eq_true, if_false, taskEnd_lce, modDomain]

/-- A fence of the engine that nothing blocks completes. -/
theorem exec_epochFenceComplete {s : State} {n : Nat} {w : EpochWait} (hs : Computing s)
    (hw : s.lce.fences.find? (fun w => decide (w.lce = n) && !fenceBlocked s w) = some w) :
    exec (.epochFenceComplete n) s = .next (fenceDone w s) := by
  show execEpochFenceComplete n s = _
  rw [execEpochFenceComplete, run_computing _ hs]
  simp only [hw]

/-! ## Fetched data (R200, R202) -/

/-- Batch `x` waits for run or granule `k` no more. -/
def fetched (k : Nat) (x : Batch) : Batch := { x with rows := x.rows.map (fun r => { r with wait := sremove k r.wait }) }

/-- Nothing is pooled while every row of the window waits. -/
theorem poolReady_waiting {n : Nat} {x : Batch} (s : State) (h : ∀ r ∈ x.rows, r.wait ≠ []) : poolReady n x s = (x, s) := by
  have hnone : x.rows.filter (fun r => r.wait.isEmpty) = [] := List.filter_eq_nil_iff.2 fun r hr => by simpa using h r hr
  have hall : x.rows.filter (fun r => !r.wait.isEmpty) = x.rows := List.filter_eq_self.2 fun r hr => by simpa using h r hr
  simp only [poolReady, hnone, hall, List.foldl_nil]

/-- A batch whose window is not pooled yet goes no further. -/
theorem advance_waiting {x : Batch} (fuel n : Nat) (s : State) (hfail : x.fail = none) (hrows : x.rows ≠ []) :
    advance (fuel + 1) n x s = keepBatch n x s := by
  simp only [advance, hfail]
  rw [if_pos (by simpa using hrows)]

theorem active_keepBatch {n : Nat} {s : State} (x : Batch) (h : (lceAt s n).active ≠ []) :
    (lceAt (keepBatch n x s) n).active = (lceAt s n).active.map (fun z => if z.kind = x.kind then x else z) := by
  rw [keepBatch, lceAt_modLce]
  exact fun e => h (List.map_eq_nil_iff.1 (congrArg Lce1.active e))

/-- A batch that is put back twice stands as it does after once. -/
theorem active_keepBatch_keepBatch {n : Nat} {s : State} (x : Batch) (h : (lceAt s n).active ≠ []) :
    (lceAt (keepBatch n x (keepBatch n x s)) n).active = (lceAt s n).active.map (fun z => if z.kind = x.kind then x else z) := by
  have hidem : ∀ z : Batch, (if (if z.kind = x.kind then x else z).kind = x.kind then x else (if z.kind = x.kind then x else z)) =
      if z.kind = x.kind then x else z := fun z => by
    by_cases hz : z.kind = x.kind
    · rw [if_pos hz, if_pos rfl]
    · rw [if_neg hz, if_neg hz]
  have hne : (lceAt (keepBatch n x s) n).active ≠ [] := by
    rw [active_keepBatch x h]
    exact fun e => h (List.map_eq_nil_iff.1 e)
  rw [active_keepBatch x hne, active_keepBatch x h, List.map_map]
  exact List.map_congr_left fun z _ => hidem z

/-- Data comes for a batch of which every row still waits for more: the batch is put back without `k`. -/
theorem exec_runFetchData_waiting {s : State} {n k : Nat} {x : Batch} (hs : Computing s)
    (hrun : s.rg.queue.any (fun q => q.2.runs.any (fun r => decide (r.owner = .lce n ∧ r.page = k * 256 / 2048))) = false)
    (hx : (lceAt s n).active.find? (fun x => x.rows.any (fun r => r.wait.contains k)) = some x)
    (hwait : ∀ r ∈ x.rows, sremove k r.wait ≠ []) (hfail : x.fail = none) :
    exec (.runFetchData n k []) s = .next (keepBatch n (fetched k x) (keepBatch n (fetched k x) s)) := by
  have hwait' : ∀ r ∈ (fetched k x).rows, r.wait ≠ [] := fun r hr => by
    obtain ⟨y, hy, rfl⟩ := List.mem_map.1 hr
    exact hwait y hy
  have hrows : (fetched k x).rows ≠ [] := fun e => by
    have hany := List.find?_some hx
    rw [List.map_eq_nil_iff.1 e] at hany
    cases hany
  have hpool : poolReady n (fetched k x) s = (fetched k x, s) := poolReady_waiting s hwait'
  have hadv : advance (x.rest.length + 3) n (fetched k x) (keepBatch n (fetched k x) s) =
      keepBatch n (fetched k x) (keepBatch n (fetched k x) s) := advance_waiting _ n _ hfail hrows
  show execRunFetchData n k [] s = _
  rw [execRunFetchData, run_computing _ hs]
  simp only [hrun, Bool.false_eq_true, if_false, hx, memErrors_nil]
  rw [← fetched, hpool, ← hadv]

/-! ## Vectors (R195, R203 to R206) -/

/-- Elements of a bag without entries are zero, but for concatenation. -/
theorem bagVals_empty {x : Batch} {b : Nat} (hpool : x.pool ≠ 4) (hcount : tget 0 x.count b = 0) : ∀ r ∈ bagVals x b, r.code = 0 := by
  intro r hr
  obtain ⟨e, -, rfl⟩ := List.mem_map.1 hr
  simp only [if_neg hpool, if_pos hcount]

theorem length_padTo (l : List Byte) (n : Nat) : (padTo l n).length = n := by
  rw [padTo, List.length_append, List.length_take, List.length_replicate]
  omega

/-- A vector of a bag fills whole granules. -/
theorem length_bagBytes_mod (x : Batch) (b : Nat) : (bagBytes x b).1.length % 64 = 0 := by
  simp only [bagBytes, length_padTo, alignUp, Nat.mul_mod_left]

/-- One value pooled at element 0 of a bag: what the pooling operation gives stands in its accumulator. -/
theorem poolVals_acc (b : Nat) (w v : W32) (x : Batch) :
    (poolVals b 0 w [v] x).acc = tset (accInit x.pool) x.acc (accKey b 0)
      (w32 (poolOp x.pool w (tget (accInit x.pool) x.acc (accKey b 0)) v).code) := rfl

/-- Settles O26: starts at the head of the queue, then a fence, fetched data, and the vectors that pooling gives. -/
theorem lookupEngines : Obligations.LookupEngines := by
  refine ⟨fun s n q r t h hs hroom hq ht hty => ?_, fun s n q r t h hs hawake hq ht hty => ?_,
    fun s n q r t h hs hawake hq ht hty => ?_, fun s n w hs hw hreload => ?_,
    fun s n k x hs hrun hx hwait hfail => ?_, fun x b hpool hcount => bagVals_empty hpool hcount,
    length_bagBytes_mod, fun x b w v hpool => ?_, fun x b w v hpool => ?_⟩
  · show execLookup n h s = _
    rw [execLookup, run_computing _ hs, startJob_lookup hq ht h hroom hty]
  · show execUpdate n h s = _
    rw [execUpdate, run_computing _ hs, headTask_starts hq ht _ hawake hty]
  · show execEpochFence n h s = _
    rw [execEpochFence, run_computing _ hs, headTask_starts hq ht _ hawake hty]
  · have hlce := fenceDone_lce s hreload
    exact ⟨_, exec_epochFenceComplete hs hw, congrArg Lce.fences hlce, congrArg Lce.domains hlce⟩
  · have hactive : (lceAt s n).active ≠ [] := List.ne_nil_of_mem (List.mem_of_find?_eq_some hx)
    have hfoot : Foot [.lce] s (keepBatch n (fetched k x) (keepBatch n (fetched k x) s)) :=
      keepBatch_foot (by decide) n _ (keepBatch_foot (by decide) n _ (Foot.refl _ s))
    exact ⟨_, exec_runFetchData_waiting hs hrun hx hwait hfail, hfoot.frame, active_keepBatch_keepBatch _ hactive⟩
  · rw [poolVals_acc, hpool]
    rfl
  · rw [poolVals_acc, hpool]
    rfl

end Sys2Proof.Proofs
end

section
/-!
Lookups and updates of other nodes (R216 to R219, R223, R342, R371), and the hot-row cache (R211, R214, R237).
-/
namespace Sys2Proof.Proofs
open Sys2Proof Sys2Proof.Machine Sys2Proof.Laws

/-! ## Parts of a sub-batch (R216, R342) -/

section
variable {s : State} {p : Nat} {k : Packet} (ha : Arrives s p 0x08 k)
include ha

/-- A part joins its sub-batch, which waits while parts are missing. -/
theorem exec_lkpPart_kept {i : SubIn} (hroute : routeValid s k.src = true)
    (hi : subInOf (addPart k (takeRx p k s)) k.src k.tag = some i) (hless : i.parts.length < i.total) :
    exec (.lkpPart p) s = .next (addPart k (takeRx p k s)) := by
  show execLkpPart p s = _
  rw [execLkpPart, run_live _ ha.1.1, serve_arrives _ ha, routeValid_takeRx, hroute]
  simp only [Bool.not_true, Bool.false_eq_true, if_false, hi, if_pos hless]

/-- A part of a node without a route is dropped and counted. -/
theorem exec_lkpPart_unknown (hroute : routeValid s k.src = false) :
    exec (.lkpPart p) s = .next (countDrop p (takeRx p k s)) := by
  show execLkpPart p s = _
  rw [execLkpPart, run_live _ ha.1.1, serve_arrives _ ha, routeValid_takeRx, hroute]
  rfl
end

/-! ## Parts of a reply (R217, R219, R371) -/

theorem replyOf_done {k : Packet} (hlost : k.lost = false) (hst : k.status = 0) : replyOf k = .done k.pmask k.operand k.data := by
  simp [replyOf, hlost, hst]

section
variable {s : State} {p : Nat} {k : Packet} (hl : Live s)
  (hk : rxHead s p (fun k => decide (k.opc = 0x88 ∧ k.dst = nodeId s)) = some k)
include hl hk

/-- A reply to no request is dropped and counted. -/
theorem exec_lkpRsp_stale (hnone : answered (takeRx p k s) k = none) : exec (.lkpRsp p) s = .next (countDrop p (takeRx p k s)) := by
  show execLkpRsp p s = _
  rw [execLkpRsp, run_live _ hl, onPacket_head _ hk]
  simp only [hnone]

/-- The sub-batch that `b` becomes with part `k` of its reply. -/
def withReply (k : Packet) (b : SubOut) : SubOut :=
  { b with flags := b.flags ||| field k.operand 16 2, parts := tset [] b.parts (field k.arg 32 16) (BitVec.ofNat 8 k.pmask :: k.data) }

/-- A part of a reply is kept while others are missing. -/
theorem exec_lkpRsp_kept {r : Req} {b : SubOut} (hr : answered (takeRx p k s) k = some r) (hb : subOf (takeRx p k s) k.tag = some b)
    (hlost : k.lost = false) (hst : k.status = 0) (hless : (withReply k b).parts.length < field k.operand 0 16) :
    exec (.lkpRsp p) s = .next { takeRx p k s with lce := { (takeRx p k s).lce with
      subs := (takeRx p k s).lce.subs.map (fun x => if x.tag = (withReply k b).tag then withReply k b else x) } } := by
  show execLkpRsp p s = _
  rw [execLkpRsp, run_live _ hl, onPacket_head _ hk]
  simp only [hr, hb, replyOf_done hlost hst]
  exact congrArg _ (if_pos hless)
end

theorem exec_remoteLookupTimeout {s : State} {n : Nat} {b : SubOut} (hl : Live s) (hb : subOf s n = some b) :
    exec (.remoteLookupTimeout n) s =
      .next (subLost b { s with fab := { s.fab with reqs := s.fab.reqs.filter (fun r => decide (r.tag ≠ n)) } }) := by
  show execRemoteLookupTimeout n s = _
  rw [execRemoteLookupTimeout, run_live _ hl]
  simp only [hb]

/-! ## Forwarded records (R223) -/

/-- The first packet of a record, with others to come, is kept. -/
theorem updatePart_first {s : State} {k : Packet} (hnone : s.lce.updIn = []) (hmore : field k.arg 8 8 + 1 < field k.arg 16 8) :
    updatePart k s = { s with lce := { s.lce with updIn := [(k.src, k.tag, k.data)] } } := by
  simp only [updatePart, hnone, if_pos hmore, List.find?_nil, List.filter_nil, Option.map_none, Option.getD_none, List.nil_append]

theorem exec_remoteUpdateRecords {s : State} {p : Nat} {k : Packet} (ha : Arrives s p 0x09 k)
    (hk : rxHead s p (fun k => decide (k.opc = 0x09 ∧ k.dst = nodeId s) && bit k.arg 0) = some k) (hroute : routeValid s k.src = true) :
    exec (.remoteUpdateRecords p) s = .next (updatePart k (takeRx p k s)) := by
  show execRemoteUpdateRecords p s = _
  rw [execRemoteUpdateRecords, run_live _ ha.1.1]
  simp only [hk, serve_arrives _ ha, routeValid_takeRx, hroute, if_true]

/-! ## The hot-row cache (R211, R214, R237) -/

section
variable {s : State} (p : Nat) (hl : Live s)
include hl

theorem exec_sketchDecay_due (hd : field (hrcReg s p) 0 16 ≠ 0)
    (hdue : 1024 * field (hrcReg s p) 0 16 ≤ (beat s + 2 ^ 64 - (hrcAt s p).decayed) % 2 ^ 64) :
    exec (.sketchDecay p) s = .next (modHrc p (fun x => { x with
      decayed := beat s, sketch := (x.sketch.map (fun c => (c.1, c.2 / 2))).filter (fun c => decide (c.2 ≠ 0)) }) s) := by
  show execSketchDecay p s = _
  rw [execSketchDecay, run_live _ hl]
  exact congrArg _ (if_neg (not_or.2 ⟨hd, Nat.not_lt.2 hdue⟩))

theorem exec_sketchDecay_early (h : field (hrcReg s p) 0 16 = 0 ∨
    (beat s + 2 ^ 64 - (hrcAt s p).decayed) % 2 ^ 64 < 1024 * field (hrcReg s p) 0 16) : exec (.sketchDecay p) s = .next s := by
  show execSketchDecay p s = _
  rw [execSketchDecay, run_live _ hl]
  exact congrArg _ (if_pos h)

/-- A write of the register of a partition's cache: a change of size or slot starts the emptying. -/
theorem exec_hrcConfigWrite (v : W32) (hon : regsOn s = true) (hp : p < 12) :
    exec (.hrcConfigWrite p v) s = .next (if field (hrcReg s p) 24 8 = field (v.toNat &&& 0xFFF0FFFF) 24 8
      then regSet (0x801000 + 0x10 * p) (v.toNat &&& 0xFFF0FFFF) s
      else emptyHrc p (regSet (0x801000 + 0x10 * p) (v.toNat &&& 0xFFF0FFFF) s)) := by
  show execHrcConfigWrite p v s = _
  rw [execHrcConfigWrite, run_live _ hl, hon, decide_eq_true hp]
  rfl

theorem exec_hotRowCacheEmptied (he : (hrcAt s p).emptying = true) :
    exec (.hotRowCacheEmptied p) s = .next (modHrc p (fun x => { x with emptying := false, rows := [] }) s) := by
  show execHotRowCacheEmptied p s = _
  rw [execHotRowCacheEmptied, run_live _ hl]
  exact congrArg _ (if_pos he)
end

/-- Settles O27: parts of sub-batches, of replies and of forwarded records, then the hot-row cache. -/
theorem remoteLookups : Obligations.RemoteLookups := by
  refine ⟨fun s p k i ha hroute hi hless => exec_lkpPart_kept ha hroute hi hless, fun s p k ha hroute => exec_lkpPart_unknown ha hroute,
    fun s p k hl hk hnone => exec_lkpRsp_stale hl hk hnone,
    fun s p k r b hl hk hr hb hlost hst hless => exec_lkpRsp_kept hl hk hr hb hlost hst hless,
    fun s n b hl hb => exec_remoteLookupTimeout hl hb, fun s p k ha hk hroute hmore hnone => ?_,
    fun s p hl hd hdue => exec_sketchDecay_due p hl hd hdue, fun s p hl h => exec_sketchDecay_early p hl h,
    fun s p v hl hon hp hne => ?_, fun s p v hl hon hp heq => ?_, fun s p hl he => exec_hotRowCacheEmptied p hl he⟩
  · have hnone' : (takeRx p k s).lce.updIn = [] := (congrArg Lce.updIn (takeRx_lce p k s)).trans hnone
    rw [exec_remoteUpdateRecords ha hk hroute, updatePart_first hnone' hmore, takeRx_lce]
  · rw [exec_hrcConfigWrite p hl v hon hp, if_neg hne]
    rfl
  · rw [exec_hrcConfigWrite p hl v hon hp, if_pos heq]

end Sys2Proof.Proofs
end

section
/-!
The near-tier mode, patrol and moves (R246, R253 to R255, R273, R274, R277): what patrol does with a codeword that it cannot correct.
-/
namespace Sys2Proof.Proofs
open Sys2Proof Sys2Proof.Machine Sys2Proof.Laws

/-- An uncorrectable codeword of the near tier gets the mark, and nothing is retired for it. -/
theorem uncorrectable_near_poison {a : Nat} (s : State) (hfar : isFar a = false) :
    (uncorrectable a s).mem.poison = sinsert (a / 64) s.mem.poison := by
  have hreport (u : State) : (reportCe (memOrigin a).1 (memOrigin a).2 0x02 (a % 2 ^ 48) u).mem = u.mem :=
    (reportCe_foot (List.Subset.refl _) _ _ _ _ (Foot.refl _ u)).mem.resolve_left (by decide)
  simp only [uncorrectable, hfar, Bool.false_eq_true, if_false, hreport]

/-- Patrol marks a codeword of scratch that the code cannot correct (R273). -/
theorem exec_patrolRead_marks {s : State} {a k : Nat} (hl : Live s) (hon : field (regGet s 0xA00010) 24 8 ≠ 0)
    (hp : patrolled s a = true) (hfar : isFar a = false) (hk : correctable k = false) :
    ∃ t, exec (.patrolRead a (some k)) s = .next t ∧ t.mem.poison = sinsert (a / 64) s.mem.poison := by
  obtain ⟨u, hu, hpoison⟩ : ∃ u, exec (.patrolRead a (some k)) s = .next (uncorrectable a u) ∧ u.mem.poison = s.mem.poison := by
    refine ⟨if a % 4096 = 0 then { s with mem := { s.mem with granCe := tset 0 s.mem.granCe (a / 4096) 0 } } else s, ?_, ?_⟩
    · have hon' : (field (regGet s 0xA00010) 24 8 != 0) = true := bne_iff_ne.2 hon
      show execPatrolRead a (some k) s = _
      simp [execPatrolRead, run_live _ hl, hon', hp, hfar, memError, hk]
    · split <;> rfl
  exact ⟨_, hu, (uncorrectable_near_poison u hfar).trans (congrArg _ hpoison)⟩

/-- A block in service with one step of scratch, patrol on, and no mark anywhere. -/
def patrolling : State := { blk := { coldLow := false, bootState := 6 }, regs := [(0xA00010, 0x18000000)], mem := { steps := 1 } }

/-- Refutes O23: its clause on PATROL_READ of a bad codeword asks both that the granule gets its mark and that nothing but `mem`, `ic` and
`err` changes, but the marks are part of `cells`, which that frame does not except. In `patrolling` three bad symbols in the first
codeword of scratch leave a mark where there was none (R273). -/
theorem not_memoryTiers : ¬ Obligations.MemoryTiers := by
  unfold Obligations.MemoryTiers
  rintro ⟨-, -, -, -, -, -, hpatrol, -⟩
  have hl : Live patrolling := ⟨rfl, rfl⟩
  have hon : field (regGet patrolling 0xA00010) 24 8 ≠ 0 := by decide
  have hp : patrolled patrolling scratchBase = true := by decide
  obtain ⟨t, ht, -, hframe⟩ := hpatrol patrolling scratchBase 3 hl hon hp rfl
  obtain ⟨u, hu, hmarked⟩ := exec_patrolRead_marks (k := 3) hl hon hp rfl rfl
  obtain rfl : u = t := Host.Outcome.next.inj (hu.symm.trans ht)
  obtain ⟨-, hunmarked, -⟩ : same .cells patrolling u := hframe .cells (by decide)
  exact absurd (hmarked.symm.trans hunmarked) (by decide)

end Sys2Proof.Proofs
end

section
/-!
Memory regulation (R261, R287, R290 to R298, R301): run times, the answers that wait for them, rates, and the deal.
-/
namespace Sys2Proof.Proofs
open Sys2Proof Sys2Proof.Machine Sys2Proof.Laws

/-! ## Run times (R261, R287, R291, R305) -/

/-- The count of run times of pseudo-channel `c` goes on by one. -/
def slotTaken (c : Nat) (s : State) : State :=
  { s with rg := { s.rg with slot := tset 0 s.rg.slot c (tget 0 s.rg.slot c + 1) } }

theorem serves_of_issues {s : State} {c : Nat} (h : issues s c = true) : (chanAt s c).state = 0 := by
  simp only [issues, Bool.and_eq_true, beq_iff_eq] at h
  exact h.1.1

/-- A run time of a channel in service: nothing in a gap beat, a reserved one, or one dealt to a regulator. -/
theorem exec_runTime {s : State} {c : Nat} (hl : Live s) (hc : c < 768) (hin : inService s = true) (hn : tget 0 s.rg.slot c < 128)
    (hserves : (chanAt s c).state = 0) :
    exec (.runTime c) s = .next (releaseReady (
      if s.rg.gap = true then slotTaken c s
      else if tget 0 s.rg.slot c % 32 = 0 then
        if (!issues s c) = true then slotTaken c s
        else if (runQAt s c 13).runs.isEmpty = true then tgRunTime c (slotTaken c s)
        else reservedSlot c (slotTaken c s)
      else dealtSlot c (s.rg.deal.getD (tget 0 s.rg.slot c - tget 0 s.rg.slot c / 32 - 1) 13) (slotTaken c s))) := by
  show execRunTime c s = _
  simp only [chanAt] at hserves
  simp only [execRunTime, run_live _ hl, hc, hin, decide_true, Bool.and_self, guarded_true, Nat.not_le.2 hn, if_false, chanAt,
    hserves, beq_self_eq_true, if_true]
  rfl

section
variable {s : State} {c w : Nat}

/-- A regulator that has a run takes the run time dealt to it. -/
theorem dealtSlot_serves (hw : w < 13) (hi : issues s c = true) (hq : (runQAt s c w).runs ≠ []) :
    dealtSlot c w s = spendPip c w (modReg w (fun x => { x with spent := (x.spent + 1) % 2 ^ 64 })
      (modReg w (fun x => { x with dealt := (x.dealt + 1) % 2 ^ 64 }) s)) :=
  if_pos ⟨hw, hi, List.isEmpty_eq_false_iff.2 hq⟩

/-- Where nothing issues, no run time is lent. -/
theorem idleSlot_expires (w : Nat) (hi : issues s c = false) :
    idleSlot c w s = modReg w (fun x => { x with expired := (x.expired + 1) % 2 ^ 64 }) s := by
  simp [idleSlot, hi]

theorem dealtSlot_expires (w : Nat) (hi : issues s c = false) :
    dealtSlot c w s = modReg w (fun x => { x with expired := (x.expired + 1) % 2 ^ 64 })
      (modReg w (fun x => { x with dealt := (x.dealt + 1) % 2 ^ 64 }) s) := by
  have hi' : issues (modReg w (fun x => { x with dealt := (x.dealt + 1) % 2 ^ 64 }) s) c = false := hi
  rw [dealtSlot]
  simp only [hi', Bool.false_eq_true, false_and, and_false, if_false]
  exact idleSlot_expires w hi'

/-- The refresh that waits first goes out, if no page is open before it. -/
theorem reservedSlot_refresh {x : Run} {r : List Run} (hq : (runQAt s c 13).runs = x :: r) (hx : x.refresh = true)
    (hpage : (runQAt s c 13).page = 0) :
    reservedSlot c s = emit (.refresh c) (modRunQ c 13 (fun q => { q with runs := r }) s) := by
  simp [reservedSlot, hq, hx, hpage]
end

/-! ## Answers (R295) -/

theorem releaseReady_waiting {s : State} (h : ∀ e ∈ s.rg.held, idWaits s e.1 = true) : releaseReady s = s := by
  have hnone : s.rg.held.filter (fun e => !idWaits s e.1) = [] := List.filter_eq_nil_iff.2 (fun e he => by simp [h e he])
  rw [releaseReady, hnone]
  rfl

theorem releaseReady_single {s : State} {i : Nat} {a : Machine.Answer} (hheld : s.rg.held = [(i, a)]) (h : idWaits s i = false) :
    releaseReady s = release a { s with rg := { s.rg with held := [] } } := by
  simp [releaseReady, each, hheld, h]

/-! ## Rates (R293, R294, R298) -/

/-- The rates of the other regulators, as they are or will be from the next round on. -/
def otherRates (s : State) (r : Nat) : Nat :=
  (((List.range 13).filter (fun k => decide (k ≠ r))).map (rateSoon s)).foldl (fun a b => a + b) 0

section
variable {s : State} {r : Nat} {v : W32} (hl : Live s) (hon : regsOn s = true) (hr : r < 13)
include hl hon hr

theorem exec_rgCfgWrite_pending (hfits : otherRates s r + field v.toNat 16 7 ≤ 124) (hfirm : r = 12 → field v.toNat 16 7 ≠ 0)
    (hconf : bit v.toNat 31 = true → r = 12 ∨ confPart s r = false) :
    exec (.rgCfgWrite r v) s = .next (modReg r (fun x => { x with
      next := some (field v.toNat 16 7, bit v.toNat 31, field v.toNat 0 7), state := 2 })
      (regSet (0xA04000 + 0x40 * r) (v.toNat &&& 0x807F007F) s)) := by
  have hborrow : ¬ (bit v.toNat 31 = true ∧ r < 12 ∧ confPart s r = true) := by
    rintro ⟨hb, hlt, hp⟩
    rcases hconf hb with h | h
    · omega
    · simp [h] at hp
  show execRgCfgWrite r v s = _
  rw [execRgCfgWrite, run_live _ hl, hon, decide_eq_true hr, Bool.and_self, guarded_true]
  refine congrArg _ (if_neg ?_)
  rintro (h | ⟨h12, h0⟩ | h)
  · exact Nat.not_lt.2 hfits h
  · exact hfirm h12 h0
  · exact hborrow h

theorem exec_rgCfgWrite_denied (hover : 124 < otherRates s r + field v.toNat 16 7) :
    exec (.rgCfgWrite r v) s = .next (modReg r (fun x => { x with result := Status.denied.code }) s) := by
  show execRgCfgWrite r v s = _
  rw [execRgCfgWrite, run_live _ hl, hon, decide_eq_true hr, Bool.and_self, guarded_true]
  exact congrArg _ (if_pos (Or.inl hover))
end

/-! ## The deal (R290) -/

theorem length_dealSlots (n : Nat) (rates : List Nat) (cur : List Int) : (dealSlots n rates cur).length = n := by
  induction n generalizing cur with
  | zero => rfl
  | succ n ih => simp [dealSlots, ih]

/-- While only u has a rate it is owed every run time, and after each nobody is owed any. -/
theorem dealSlots_unregulated (n : Nat) :
    dealSlots n (List.replicate 13 0 ++ [124]) (List.replicate 14 0) = List.replicate n 13 := by
  induction n with
  | zero => rfl
  | succ n ih => exact congrArg (13 :: ·) ih

theorem dealOf_unregulated {s : State} (h : ∀ r, r < 13 → (regAt s r).rate = 0) : dealOf s = List.replicate 124 13 := by
  have hrates : (List.range 13).map (fun r => (regAt s r).rate) = List.replicate 13 0 :=
    List.eq_replicate_iff.2 ⟨by simp, fun x hx => by
      obtain ⟨r, hr, rfl⟩ := List.mem_map.1 hx
      exact h r (List.mem_range.1 hr)⟩
  rw [dealOf, hrates]
  exact dealSlots_unregulated 124

/-- Settles O24, clause by clause: run times, answers, rates, and the deal. -/
theorem memoryRegulation : Obligations.MemoryRegulation := by
  refine ⟨fun s c hl hc hin hn hgap hserves => ?_, fun s c w hl hc hin hgap hn hd hw hw13 hi hq => ?_,
    fun s c w hl hc hin hgap hserves hn hd hw _ hi => ?_, fun s c x r hl hc hin hgap hn hr hi hq hx hpage => ?_,
    fun s h => releaseReady_waiting h, fun s i tag d ep hheld h => releaseReady_single hheld h,
    fun s r v hl hon hr hfits hfirm hconf => exec_rgCfgWrite_pending hl hon hr hfits hfirm hconf,
    fun s r v hl hon hr hover => exec_rgCfgWrite_denied hl hon hr hover, length_dealSlots, fun s h => dealOf_unregulated h⟩
  · rw [exec_runTime hl hc hin hn hserves, if_pos hgap]
    rfl
  · rw [exec_runTime hl hc hin hn (serves_of_issues hi), hgap, if_neg Bool.false_ne_true, if_neg hd, hw,
      dealtSlot_serves (s := slotTaken c s) hw13 hi hq]
    rfl
  · rw [exec_runTime hl hc hin hn hserves, hgap, if_neg Bool.false_ne_true, if_neg hd, hw,
      dealtSlot_expires (s := slotTaken c s) w hi]
    rfl
  · rw [exec_runTime hl hc hin hn (serves_of_issues hi), hgap, if_neg Bool.false_ne_true, if_pos hr, hi, hq,
      Bool.not_true, if_neg Bool.false_ne_true, List.isEmpty_cons, if_neg Bool.false_ne_true,
      reservedSlot_refresh (s := slotTaken c s) hq hx hpage]
    rfl

end Sys2Proof.Proofs
end

section
/-!
Traffic generators (R306 to R312): the data of a pattern, one codeword, a start, and a run from where it has come to its end.
-/
namespace Sys2Proof.Proofs
open Sys2Proof Sys2Proof.Machine Sys2Proof.Laws

/-! ## The data of a codeword (R307) -/

theorem length_prbsBits (n x : Nat) : (prbsBits n x).length = n := by
  induction n generalizing x with
  | zero => rfl
  | succ n ih => simp only [prbsBits, List.length_cons, ih]

/-- Data of a whole number of pieces is cut into that number. -/
theorem length_chunks {α : Type} {k m n : Nat} {l : List α} (hk : 0 < k) (hmn : m ≤ n) (hl : l.length = k * m) :
    (chunks k n l).length = m := by
  induction n generalizing m l with
  | zero => exact (Nat.le_zero.1 hmn).symm
  | succ n ih =>
    cases l with
    | nil =>
      have hm : m = 0 := (Nat.mul_eq_zero.1 hl.symm).resolve_left (Nat.ne_of_gt hk)
      exact hm.symm
    | cons x l =>
      obtain _ | m := m
      · exact absurd hl (Nat.succ_ne_zero _)
      · have hdrop : ((x :: l).drop k).length = k * m := by
          rw [List.length_drop, hl, Nat.mul_succ, Nat.add_sub_cancel]
        exact congrArg (· + 1) (ih (Nat.le_of_succ_le_succ hmn) hdrop)

theorem length_prbs31 (seed : Nat) : (prbs31 seed).length = 64 := by
  rw [prbs31, List.length_map]
  exact length_chunks (by decide) (by decide) (length_prbsBits 512 _)

theorem length_tgData (p seed c j k : Nat) : (tgData p seed c j k).length = 64 := by
  unfold tgData
  split
  · exact List.length_replicate
  · exact List.length_replicate
  · exact List.length_replicate
  · exact length_leBytes 64 _
  · simp only [List.length_flatten, List.map_map, Function.comp_def, length_leBytes]
    rfl
  · exact length_prbs31 _

/-! ## A generator after a change -/

section
variable {s : State} {c : Nat}

theorem tgAt_modTg {f : Tg → Tg} (h : f (tgAt s c) ≠ {}) : tgAt (modTg c f s) c = f (tgAt s c) := by
  simp only [tgAt, modTg, tmod] at h ⊢
  exact tget_tset_eq _ _ _ _ h

/-- How far generator `c` has come: its state, the codewords of the run that are done, and the granules that it reports. -/
def tgCourse (s : State) (c : Nat) : Nat × Nat × Nat := ((tgAt s c).state, (tgAt s c).pos, (tgAt s c).done)

theorem tgCourse_congr {t : State} (h : t.mem.tg = s.mem.tg) : tgCourse t c = tgCourse s c := by
  simp only [tgCourse, tgAt, h]

theorem tgAt_tgError (i : Nat) : tgAt (tgError c i s) c = { tgAt s c with
    errors := sat 16 ((tgAt s c).errors + 1), first := some (min i ((tgAt s c).first.getD i)) } :=
  tgAt_modTg fun h => nomatch congrArg Tg.first h

theorem tgCourse_tgError (i : Nat) : tgCourse (tgError c i s) c = tgCourse s c := by
  simp only [tgCourse, tgAt_tgError]

/-- Latching the first error changes MC_TG_ERR alone (R311). -/
theorem tgAt_tgLatch : ∃ e, tgAt (tgLatch c s) c = { tgAt s c with err := e } := by
  unfold tgLatch
  split
  · rename_i i hfirst
    refine ⟨_, tgAt_modTg fun h => ?_⟩
    have hnone : (tgAt s c).first = none := congrArg Tg.first h
    exact nomatch hfirst.symm.trans hnone
  · exact ⟨_, rfl⟩

/-! ## One codeword (R308, R311) -/

theorem tgStep_compares (i : Nat) (h : tgOp s c = 1) :
    tgStep c i s = if tgDiffers s c i = true then tgError c i s else s := if_pos h

theorem tgStep_writes (i : Nat) (h : tgOp s c ≠ 1) :
    (tgStep c i s).mem.tg = s.mem.tg ∧ (tgStep c i s).mem.cells = putBytes s.mem.cells (tgWord s c i).2.2
      (tgData (tgPattern s c) (tgSeed s c) c (tgWord s c i).1 (tgWord s c i).2.1) := by
  have hstep : tgStep c i s = _ := if_neg h
  rw [hstep]
  exact ⟨rfl, rfl⟩

/-- Bytes read back as they were written. -/
theorem getBytes_putBytes {t : Tbl Byte} {a n : Nat} {l : List Byte} (hwf : Memory.wf t = true) (hl : l.length = n) :
    getBytes (putBytes t a l) a n = l := by
  refine List.ext_getElem (by simp [getBytes, hl]) fun i _ hi => ?_
  simp only [getBytes, List.getElem_map, List.getElem_range, (tget_written hwf).1 i hi, List.getD_eq_getElem _ _ hi]

theorem tgStep_reads_back (i : Nat) (h : tgOp s c ≠ 1) (hwf : Memory.wf s.mem.cells = true) :
    getBytes (tgStep c i s).mem.cells (tgWord s c i).2.2 64 =
      tgData (tgPattern s c) (tgSeed s c) c (tgWord s c i).1 (tgWord s c i).2.1 := by
  rw [(tgStep_writes i h).2]
  exact getBytes_putBytes hwf (length_tgData ..)

theorem tgStep_compares_cells (i : Nat) (h : tgOp s c = 1) : same .cells s (tgStep c i s) := by
  rw [tgStep_compares i h]
  split <;> exact ⟨fun _ => rfl, rfl, rfl⟩

theorem tgStep_compares_errors (i : Nat) (h : tgOp s c = 1) : (tgAt (tgStep c i s) c).errors =
    if tgDiffers s c i = true then sat 16 ((tgAt s c).errors + 1) else (tgAt s c).errors := by
  rw [tgStep_compares i h]
  split
  · rw [tgAt_tgError]
  · rfl

theorem tgCourse_tgStep (i : Nat) : tgCourse (tgStep c i s) c = tgCourse s c := by
  by_cases h : tgOp s c = 1
  · rw [tgStep_compares i h]
    split
    · exact tgCourse_tgError i
    · rfl
  · exact tgCourse_congr (tgStep_writes i h).1
end

/-! ## A run goes on (R308) -/

theorem tgCourse_tgSteps (c n i : Nat) (s : State) : tgCourse (tgSteps c n i s) c = tgCourse s c := by
  induction n generalizing i s with
  | zero => rfl
  | succ n ih => exact (ih (i + 1) _).trans (tgCourse_tgStep i)

theorem tgAdvance_scan_cells {s : State} {c : Nat} (n g : Nat) (h : tgOp s c = 3) : same .cells s (tgAdvance c n g s) := by
  have hop : tgOp (countRuns (c / 64) (tgRuns s c n) g s) c = 3 := h
  simp only [tgAdvance, if_pos hop]
  exact ⟨fun _ => rfl, rfl, rfl⟩

/-- A run under way has done `n` codewords more. -/
theorem tgCourse_tgAdvance {s : State} {c : Nat} (n g : Nat) (h : (tgAt s c).state = 1) :
    tgCourse (tgAdvance c n g s) c = (1, (tgAt s c).pos + n, ((tgAt s c).pos + n) / 64) := by
  have hcourse (op : Nat) (t : State) : tgCourse (if op = 3 then t else tgSteps c n (tgAt s c).pos t) c = tgCourse t c := by
    split
    · rfl
    · exact tgCourse_tgSteps ..
  have hstate := (congrArg Prod.fst (hcourse (tgOp s c) (countRuns (c / 64) (tgRuns s c n) g s))).trans h
  have hset : tgAt (tgAdvance c n g s) c = _ := tgAt_modTg fun e => Nat.one_ne_zero (hstate.symm.trans (congrArg Tg.state e))
  rw [tgCourse, hset]
  exact congrArg (·, _, _) hstate

/-! ## What retirement leaves to the generators (R275 to R278) -/

theorem Cached.tg {s t : State} (h : Cached s t) : t.mem.tg = s.mem.tg := by
  obtain ⟨_, _, rfl⟩ := h
  rfl

theorem tg_access (o : RunOwner) (r : Nat) (alloc : Option Nat) (w : Bool) (a n : Nat) (s : State) :
    (access o r alloc w a n s).mem.tg = s.mem.tg := (access_cached o r alloc w a n s).tg

theorem tg_reportCe (kind index type detail : Nat) (s : State) : (reportCe kind index type detail s).mem.tg = s.mem.tg :=
  congrArg Mem.tg ((reportCe_foot (List.Subset.refl _) _ _ _ _ (Foot.refl _ s)).mem.resolve_left (by decide))

theorem tg_chooseGranule {v k : Nat} {s t : State} (h : chooseGranule v s = some (k, t)) : t.mem.tg = s.mem.tg :=
  congrArg Mem.tg ((chooseGranule_foot (List.Subset.refl _) v h (Foot.refl _ s)).mem.resolve_left (by decide))

theorem tg_startMove (g : Nat) (s : State) : (startMove g s).2.mem.tg = s.mem.tg := by
  unfold startMove
  split
  · rfl
  · split
    · rfl
    · rename_i hchosen
      have hkept := tg_chooseGranule hchosen
      exact (tg_access ..).trans hkept

theorem tg_retarget (m : Nat × Nat) (s : State) : (retarget m s).mem.tg = s.mem.tg := by
  unfold retarget
  dsimp only
  split
  · rfl
  · split
    · rfl
    · rename_i hchosen
      have hkept := tg_chooseGranule hchosen
      exact hkept

theorem tg_mapOutCheck (c : Nat) (s : State) : (mapOutCheck c s).mem.tg = s.mem.tg := by
  unfold mapOutCheck
  split <;> rfl

theorem tg_mapOut (c : Nat) (s : State) : (mapOut c s).mem.tg = s.mem.tg := by
  unfold mapOut
  split
  · rfl
  · have hmove (g : Nat) (u : State) :
        (if u.mem.retired.contains g || moving u g then u else (startMove g u).2).mem.tg = u.mem.tg := by
      split
      · rfl
      · exact tg_startMove g u
    exact (tg_mapOutCheck ..).trans ((each_same (fun u => u.mem.tg) (fun g _ => hmove g) _).trans
      (each_same (fun u => u.mem.tg) (fun m _ => tg_retarget m) _))

theorem tg_retireGranule (g : Nat) (s : State) : (retireGranule g s).mem.tg = s.mem.tg := by
  unfold retireGranule
  dsimp only
  split
  · rfl
  · split
    · rfl
    · split
      · exact tg_mapOut ..
      · rfl

theorem tg_failGranule (a : Nat) (s : State) : (failGranule a s).mem.tg = s.mem.tg := by
  unfold failGranule
  dsimp only
  split
  · rfl
  · split
    · exact (tg_access ..).trans (tg_access ..)
    · split
      · exact tg_startMove _ s
      · exact tg_retireGranule _ s

theorem tg_uncorrectable (a : Nat) (s : State) : (uncorrectable a s).mem.tg = s.mem.tg := by
  unfold uncorrectable
  dsimp only
  split
  · exact (tg_failGranule ..).trans (tg_reportCe ..)
  · exact tg_reportCe ..

/-! ## The end of a run (R310, R311) -/

/-- What the code found in a codeword changes neither the state of a run nor how far it has come. -/
theorem tgCourse_tgFault (c : Nat) (f : Nat × Nat) (s : State) : tgCourse (tgFault c f s) c = tgCourse s c := by
  unfold tgFault
  split
  · rfl
  · rename_i i _
    split
    · rfl
    · split
      · rfl
      · have herror : tgCourse (if (decide (tgOp s c = 1) && tgDiffers s c i) = true then s else tgError c i s) c = tgCourse s c := by
          split
          · rfl
          · exact tgCourse_tgError i
        have htier (t : State) :
            tgCourse (if (chanAt t c).state = 0 then uncorrectable (tgWord t c i).2.2 t else t) c = tgCourse t c := by
          split
          · exact tgCourse_congr (tg_uncorrectable ..)
          · rfl
        exact (htier _).trans herror

theorem tgCourse_faults (c : Nat) (l : List (Nat × Nat)) (s : State) : tgCourse (each l (tgFault c) s) c = tgCourse s c :=
  each_same (fun t => tgCourse t c) (fun f _ => tgCourse_tgFault c f) s

/-- The end of a run: `n` codewords more are done, with what the code found in `l`, and `f` sets the outcome. -/
def tgEnd (c n : Nat) (l : List (Nat × Nat)) (f : Tg → Tg) (s : State) : State :=
  tgLatch c (modTg c f (each (oneEach l) (tgFault c) (tgAdvance c n (ceilDiv n 32) s)))

/-- A run ends with the outcome set and its last `n` codewords done. -/
theorem tgAt_tgEnd {s : State} {c : Nat} {f : Tg → Tg} (n : Nat) (l : List (Nat × Nat)) (h : (tgAt s c).state = 1)
    (hf : ∀ x, f x ≠ {}) : ∃ x e, tgAt (tgEnd c n l f s) c = { f x with err := e } ∧
      x.pos = (tgAt s c).pos + n ∧ x.done = ((tgAt s c).pos + n) / 64 := by
  have hcourse := (tgCourse_faults c (oneEach l) _).trans (tgCourse_tgAdvance n (ceilDiv n 32) h)
  simp only [tgCourse, Prod.mk.injEq] at hcourse
  obtain ⟨-, hpos, hdone⟩ := hcourse
  obtain ⟨e, hlatch⟩ := tgAt_tgLatch (c := c) (s := modTg c f (each (oneEach l) (tgFault c) (tgAdvance c n (ceilDiv n 32) s)))
  rw [tgAt_modTg (hf _)] at hlatch
  exact ⟨_, e, hlatch, hpos, hdone⟩

section
variable {s : State} {c : Nat} (hl : Live s) (hc : c < 768)
include hl hc

/-- R309, R312: what answers a start. -/
theorem exec_tgStart (hon : regsOn s = true) : exec (.tgStart c) s = .next (
    if 6 ≤ tgPattern s c then modTg c (fun x => { x with result := Status.faultFormat.code }) s
    else if (chanAt s c).state = 3 ∨ stackGone s (c / 64) = true ∨ ((chanAt s c).state = 0 ∧ tgOp s c ≠ 3) then
      modTg c (fun x => { x with result := Status.denied.code }) s
    else if (tgAt s c).state = 1 then modTg c (fun x => { x with result := Status.busy.code }) s
    else modTg c (fun x => { x with state := 1, result := 0, err := 0, done := 0, pos := 0, opened := false, first := none }) s) := by
  show execTgStart c s = _
  rw [execTgStart, run_live _ hl, hon, decide_eq_true hc, Bool.and_self, guarded_true]

/-- A run that is stopped ends between where it had come and its end. -/
theorem exec_tgStop (l : List (Nat × Nat)) (hon : regsOn s = true) (hrun : (tgAt s c).state = 1)
    (hpos : (tgAt s c).pos ≤ tgLen s c) : ∃ t, exec (.tgStop c l) s = .next t ∧ (tgAt t c).state = 3 ∧
      (tgAt s c).pos ≤ (tgAt t c).pos ∧ (tgAt t c).pos ≤ tgLen s c ∧ (tgAt t c).done = (tgAt t c).pos / 64 := by
  obtain ⟨n, hn, hexec⟩ : ∃ n, n ≤ tgLen s c - (tgAt s c).pos ∧ exec (.tgStop c l) s = .next (
      tgEnd c n l (fun x => { x with state := 3, opened := false }) (fresh s).2) := by
    refine ⟨(fresh s).1 % (tgLen s c - (tgAt s c).pos + 1), Nat.le_of_lt_succ (Nat.mod_lt _ (Nat.succ_pos _)), ?_⟩
    show execTgStop c s l = _
    rw [execTgStop, run_live _ hl, hon, decide_eq_true hc, hrun, Bool.and_self, Bool.true_and, beq_self_eq_true, guarded_true]
    rfl
  obtain ⟨x, e, hend, hx, hdone⟩ := tgAt_tgEnd (s := (fresh s).2) n l hrun (f := fun x => { x with state := 3, opened := false })
    (fun x h => nomatch congrArg Tg.state h)
  change x.pos = (tgAt s c).pos + n at hx
  refine ⟨_, hexec, ?_⟩
  rw [hend]
  exact ⟨rfl, by simp only; omega, by simp only; omega, hdone.trans (congrArg (· / 64) hx.symm)⟩

/-- A run that is done has done its whole range. -/
theorem exec_tgRunDone (l : List (Nat × Nat)) (hrun : (tgAt s c).state = 1) (hpos : (tgAt s c).pos ≤ tgLen s c) :
    ∃ t, exec (.tgRunDone c l) s = .next t ∧ (tgAt t c).state = 2 ∧ (tgAt t c).result = 0 ∧ (tgAt t c).done = tgReg s c 0xC := by
  obtain ⟨t, hexec, htg⟩ : ∃ t, exec (.tgRunDone c l) s = .next t ∧ t.mem.tg =
      (tgEnd c (tgLen s c - (tgAt s c).pos) l (fun x => { x with state := 2, result := 0, opened := false }) s).mem.tg := by
    refine ⟨_, (show execTgRunDone c l s = _ by
      rw [execTgRunDone, run_live _ hl, decide_eq_true hc, hrun, Bool.true_and, beq_self_eq_true, guarded_true]), ?_⟩
    dsimp only
    split
    · exact tg_mapOut ..
    · rfl
  obtain ⟨x, e, hend, -, hdone⟩ := tgAt_tgEnd (tgLen s c - (tgAt s c).pos) l hrun
    (f := fun x => { x with state := 2, result := 0, opened := false }) (fun x h => nomatch congrArg Tg.state h)
  have hat : tgAt t c = _ := (congrArg (tget ({} : Tg) · c) htg).trans hend
  refine ⟨t, hexec, ?_⟩
  rw [hat]
  refine ⟨rfl, rfl, hdone.trans ?_⟩
  rw [Nat.add_sub_cancel' hpos, tgLen, Nat.mul_div_cancel_left _ (by decide)]
end

/-- Settles O25, clause by clause: starts and refusals, one codeword, a scan, the data, and the two ends of a run. -/
theorem trafficGenerators : Obligations.TrafficGenerators := by
  refine ⟨fun s c hl hon hc hpattern hchan hstack hscan hidle => ?_, fun s c hl hon hc hpattern => ?_,
    fun s c hl hon hc hpattern hchan hop => ?_, fun s c i hop hwf => tgStep_reads_back i ?_ hwf,
    fun s c i hop => ⟨tgStep_compares_cells i hop, tgStep_compares_errors i hop⟩,
    fun s c n g hop => tgAdvance_scan_cells n g hop, length_tgData,
    fun s c l hl hon hc hrun hpos => exec_tgStop hl hc l hon hrun hpos,
    fun s c l hl hc hrun hpos => exec_tgRunDone hl hc l hrun hpos⟩
  · have hallowed : ¬ ((chanAt s c).state = 3 ∨ stackGone s (c / 64) = true ∨ ((chanAt s c).state = 0 ∧ tgOp s c ≠ 3)) := by
      rintro (h | h | ⟨h0, hop⟩)
      · exact hchan h
      · exact Bool.false_ne_true (hstack.symm.trans h)
      · exact hop (hscan h0)
    rw [exec_tgStart hl hc hon, if_neg (Nat.not_le.2 hpattern), if_neg hallowed, if_neg hidle]
  · rw [exec_tgStart hl hc hon, if_pos hpattern]
  · rw [exec_tgStart hl hc hon, if_neg (Nat.not_le.2 hpattern), if_pos (Or.inr (Or.inr ⟨hchan, hop⟩))]
  · rcases hop with h | h <;> simp [h]

end Sys2Proof.Proofs
end

section
/-!
Requests served from memory (R335, R338, R339): what taking a packet, an access and an answer leave alone, and READ.
-/
namespace Sys2Proof.Proofs
open Sys2Proof Sys2Proof.Machine Sys2Proof.Laws

/-! ## What a served request is checked against -/

section
variable (p : Nat) (k : Packet) (s : State)

@[simp] theorem takeRx_mem : (takeRx p k s).mem = s.mem := (takeRx_fab p k s).mem.resolve_left (by decide)

@[simp] theorem takeRx_rg : (takeRx p k s).rg = s.rg := (takeRx_fab p k s).rg.resolve_left (by decide)

@[simp] theorem takeRx_fe : (takeRx p k s).fe = s.fe := (takeRx_fab p k s).fe.resolve_left (by decide)

/-- The windows that let an operation in are those before its packet was taken. -/
@[simp] theorem winOpen_takeRx (kind perm src a n : Nat) : winOpen (takeRx p k s) kind perm src a n = winOpen s kind perm src a n := by
  unfold winOpen winLets winWord scrubbing touching
  simp only [regGet_takeRx, takeRx_fe]

theorem stepsWanted_takeRx : stepsWanted (takeRx p k s) = stepsWanted s := by
  rw [stepsWanted, stepsWanted, takeRx_mem]

@[simp] theorem localOk_takeRx (a n : Nat) : localOk (takeRx p k s) a n = localOk s a n := by
  simp only [localOk, stackGone, stackAt, scratchServes, stepsWanted_takeRx, takeRx_mem]

@[simp] theorem retiredAt_takeRx (a : Nat) : retiredAt (takeRx p k s) a = retiredAt s a := by
  simp only [retiredAt, chanAt, moving, takeRx_mem]
end

/-! ## Accesses and answers -/

/-- An access leaves what every address reads as, and its marks. -/
theorem access_reads (o : RunOwner) (r : Nat) (alloc : Option Nat) (w : Bool) (a n : Nat) (s : State) :
    let t := access o r alloc w a n s
    (∀ x k, readMem t x k = readMem s x k) ∧ (∀ x k, readMask t x k = readMask s x k) ∧
      (∀ x, retiredAt t x = retiredAt s x) ∧ t.mem.cells = s.mem.cells := by
  obtain ⟨q, c, h⟩ := access_cached o r alloc w a n s
  dsimp only
  rw [h]
  exact ⟨fun _ _ => rfl, fun _ _ => rfl, fun _ => rfl, rfl⟩

/-- An answer to another node changes the ports and their queues, or waits among the held answers. -/
theorem answerWhen_fab_foot {W : List Area} {r s : State} (hW : [.rg, .fab, .ports] ⊆ W) (i : Nat) (q : Packet)
    (status mask operand : Nat) (data : List Byte) (h : Foot W r s) :
    Foot W r (answerWhen i (.fab q status mask operand data) s) := by
  cases hw : idWaits s i with
  | true =>
    rw [answerWhen_held _ hw]
    exact { h with rg := .inl (hW (by decide)) }
  | false =>
    rw [answerWhen_now _ hw]
    exact answer_foot (less hW) q status mask operand data h

@[simp] theorem answerWhen_fab_mem (i : Nat) (q : Packet) (status mask operand : Nat) (data : List Byte) (s : State) :
    (answerWhen i (.fab q status mask operand data) s).mem = s.mem :=
  (answerWhen_fab_foot (List.Subset.refl _) i q status mask operand data (Foot.refl _ s)).mem.resolve_left (by decide)

/-! ## READ (R338) -/

/-- What is done with a READ once its packet has been taken. -/
def readServed (k : Packet) (ecc : List MemError) (s : State) : State :=
  let a := k.arg % 2 ^ 48
  if !shapeOk a k.len then answer k 0x11 0 0 [] s
  else if !inMemory a k.len then answer k 0x10 0 0 [] s
  else if !winOpen s 0 28 k.src a k.len then answer k 0x30 0 0 [] s
  else if !localOk s a k.len then answer k 0x10 0 0 [] s
  else
    let v := memErrors a k.len ecc s
    answerWhen s.rg.reqs (.fab k (if readMask v a k.len = 0 then 0 else 1) (readMask v a k.len) 0 (readMem v a k.len))
      (access (.fabric s.rg.reqs) 12 none false a k.len v)

theorem exec_readRequest {s : State} {p : Nat} {k : Packet} (ecc : List MemError) (h : Arrives s p 0x01 k) :
    exec (.readRequest p ecc) s = .next (readServed k ecc (takeRx p k s)) := by
  obtain ⟨hread, hmask, -, -⟩ := access_reads (.fabric (takeRx p k s).rg.reqs) 12 none false (k.arg % 2 ^ 48) k.len
    (memErrors (k.arg % 2 ^ 48) k.len ecc (takeRx p k s))
  show execReadRequest p s ecc = _
  rw [execReadRequest, run_live _ h.1.1, serve_arrives _ h]
  simp only [hread, hmask]
  rfl

/-- Without errors found in the codewords a READ leaves the bytes of memory and their marks. -/
theorem readServed_cells (k : Packet) (s : State) : same .cells s (readServed k [] s) := by
  have hans : ∀ status, same .cells s (answer k status 0 0 [] s) := fun status =>
    (answer_foot (List.Subset.refl _) k status 0 0 [] (Foot.refl _ s)).frame .cells (by decide)
  simp only [readServed, memErrors_nil]
  split
  · exact hans _
  split
  · exact hans _
  split
  · exact hans _
  split
  · exact hans _
  · obtain ⟨q, c, h⟩ := access_cached (.fabric s.rg.reqs) 12 none false (k.arg % 2 ^ 48) k.len s
    rw [same, answerWhen_fab_mem, h]
    exact ⟨fun _ => rfl, rfl, rfl⟩

/-- Settles O19: what `readServed` does, branch by branch. -/
theorem servedReads : Obligations.ServedReads := by
  intro s p k ecc h
  have hserved : ∀ ecc, exec (.readRequest p ecc) s = .next (readServed k ecc (takeRx p k s)) := fun ecc => exec_readRequest ecc h
  simp only [hserved, readServed, winOpen_takeRx, localOk_takeRx, takeRx_rg]
  refine ⟨fun hshape hmem hwin hloc => ?_, fun hshape => ?_, fun hshape hmem => ?_, fun hshape hmem hwin => ?_,
    fun hshape hmem hwin hloc => ?_, _, rfl, ?_⟩
  · simp only [hshape, hmem, hwin, hloc, Bool.not_true, Bool.false_eq_true, if_false]
  · simp only [hshape, Bool.not_false, if_true]
  · simp only [hshape, hmem, Bool.not_true, Bool.not_false, Bool.false_eq_true, if_false, if_true]
  · simp only [hshape, hmem, hwin, Bool.not_true, Bool.not_false, Bool.false_eq_true, if_false, if_true]
  · simp only [hshape, hmem, hwin, hloc, Bool.not_true, Bool.not_false, Bool.false_eq_true, if_false, if_true]
  · have hc := readServed_cells k (takeRx p k s)
    simpa only [same, takeRx_mem, readServed, winOpen_takeRx, localOk_takeRx, takeRx_rg] using hc

end Sys2Proof.Proofs
end

section
/-!
Requests that change what they name (R338 to R341): WRITE, WRITE_LS, the atomics, TSIG and FWMSG at their destination.
-/
namespace Sys2Proof.Proofs
open Sys2Proof Sys2Proof.Machine Sys2Proof.Laws

/-! ## WRITE and the atomics (R338, R339) -/

/-- A write of a range with storage, made with an access and answered to another node, writes its bytes and nothing else. -/
theorem written_answered {v : State} {a : Nat} {l : List Byte} (n : Nat) (o : RunOwner) (bad : Nat → Bool) (q : Packet)
    (status mask operand : Nat) (data : List Byte) (hr : ∀ x, a ≤ x → x < a + l.length → retiredAt v x = false)
    (hwf : Memory.wf v.mem.cells = true) :
    let t := answerWhen n (.fab q status mask operand data) (writeMem a l bad (access o 12 none true a l.length v))
    (∀ i, i < l.length → tget 0 t.mem.cells (a + i) = l.getD i 0) ∧
      ∀ x, (x < a ∨ a + l.length ≤ x) → tget 0 t.mem.cells x = tget 0 v.mem.cells x := by
  obtain ⟨-, -, hret, hcells⟩ := access_reads o 12 none true a l.length v
  intro t
  have ht : t.mem.cells = putBytes v.mem.cells a l := by
    rw [answerWhen_fab_mem, writeMem_cells bad (fun x h1 h2 => (hret x).trans (hr x h1 h2)), hcells]
  rw [ht]
  exact tget_written hwf

section
variable {s : State} {p : Nat} {k : Packet}

theorem exec_writeRequest (h : Arrives s p 0x02 k) (hshape : shapeOk (k.arg % 2 ^ 48) k.data.length = true)
    (hmem : inMemory (k.arg % 2 ^ 48) k.data.length = true)
    (hwin : winOpen s 0 27 k.src (k.arg % 2 ^ 48) k.data.length = true) (hloc : localOk s (k.arg % 2 ^ 48) k.data.length = true) :
    exec (.writeRequest p) s = .next (answerWhen s.rg.reqs (.fab k 0 0 0 [])
      (writeMem (k.arg % 2 ^ 48) k.data (pieceBad k.pmask (k.arg % 2 ^ 48))
        (access (.fabric s.rg.reqs) 12 none true (k.arg % 2 ^ 48) k.data.length (takeRx p k s)))) := by
  show execWriteRequest p s = _
  rw [execWriteRequest, run_live _ h.1.1, serve_arrives _ h]
  simp only [hshape, hmem, winOpen_takeRx, hwin, localOk_takeRx, hloc, takeRx_rg, Bool.not_true, Bool.false_eq_true, if_false]

/-- A WRITE that no window lets in is refused. -/
theorem exec_writeRequest_denied (h : Arrives s p 0x02 k) (hshape : shapeOk (k.arg % 2 ^ 48) k.data.length = true)
    (hmem : inMemory (k.arg % 2 ^ 48) k.data.length = true)
    (hwin : winOpen s 0 27 k.src (k.arg % 2 ^ 48) k.data.length = false) :
    exec (.writeRequest p) s = .next (answer k 0x30 0 0 [] (takeRx p k s)) := by
  show execWriteRequest p s = _
  rw [execWriteRequest, run_live _ h.1.1, serve_arrives _ h]
  simp only [hshape, hmem, winOpen_takeRx, hwin, Bool.not_true, Bool.not_false, Bool.false_eq_true, if_false, if_true]

/-- An atomic that may be performed: its new value is written and its answer carries the old one. -/
theorem serveAtomic_performed {opc kind : Nat} (ecc : List MemError) (h : Arrives s p opc k) (ha : k.arg % 2 ^ 48 % 8 = 0)
    (hd : k.data.length = (if kind = 2 then 8 else 0)) (hmem : inMemory (k.arg % 2 ^ 48) 8 = true)
    (hwin : winOpen s 0 26 k.src (k.arg % 2 ^ 48) 8 = true) (hloc : localOk s (k.arg % 2 ^ 48) 8 = true) :
    let a := k.arg % 2 ^ 48
    let v := memErrors a 8 ecc (takeRx p k s)
    let r := atomicResult kind (leNat (readMem v a 8)) (if kind = 2 then leNat k.data else k.operand) k.operand
    serveAtomic p opc kind ecc s = answerWhen s.rg.reqs (.fab k 0 0 r.2 [])
      (writeMem a (leBytes 8 r.1) (fun _ => false) (access (.fabric s.rg.reqs) 12 none true a 8 v)) := by
  intro a v r
  obtain ⟨hread, -, -, -⟩ := access_reads (.fabric s.rg.reqs) 12 none true a 8 v
  have hform : ¬ (a % 8 ≠ 0 ∨ (kind = 2 ∧ k.data.length ≠ 8) ∨ (kind ≠ 2 ∧ ¬ k.data.isEmpty)) := by
    by_cases hk : kind = 2
    · simp only [a, ha, hd, hk, ne_eq, not_true_eq_false, if_true, false_and, and_false, or_self, not_false_eq_true]
    · simp only [a, ha, hk, List.length_eq_zero_iff.1 (hd.trans (if_neg hk)), ne_eq, not_true_eq_false, false_and, List.isEmpty_nil,
        and_false, or_self, not_false_eq_true]
  rw [serveAtomic, serve_arrives _ h]
  simp only [winOpen_takeRx, localOk_takeRx, takeRx_rg, atomicAt]
  rw [if_neg hform]
  simp only [hmem, hwin, hloc, Bool.not_true, Bool.false_eq_true, if_false]
  rw [hread]

/-- A command that is an atomic of `kind` writes its eight bytes and nothing else, and answers. -/
theorem exec_atomic {c : Instr} {opc kind : Nat} {ecc : List MemError} (hc : exec c s = run s (serveAtomic p opc kind ecc))
    (h : Arrives s p opc k) (ha : k.arg % 2 ^ 48 % 8 = 0) (hd : k.data.length = (if kind = 2 then 8 else 0))
    (hmem : inMemory (k.arg % 2 ^ 48) 8 = true) (hwin : winOpen s 0 26 k.src (k.arg % 2 ^ 48) 8 = true)
    (hloc : localOk s (k.arg % 2 ^ 48) 8 = true) :
    let a := k.arg % 2 ^ 48
    let v := memErrors a 8 ecc (takeRx p k s)
    let r := atomicResult kind (leNat (readMem v a 8)) (if kind = 2 then leNat k.data else k.operand) k.operand
    retiredAt v a = false → Memory.wf v.mem.cells = true →
    ∃ t u, exec c s = .next t ∧ t = answerWhen s.rg.reqs (.fab k 0 0 r.2 []) u ∧
      (∀ i, i < 8 → tget 0 t.mem.cells (a + i) = (leBytes 8 r.1).getD i 0) ∧
      (∀ x, (x < a ∨ a + 8 ≤ x) → tget 0 t.mem.cells x = tget 0 v.mem.cells x) := by
  intro a v r hr hwf
  have hw := written_answered (a := a) (l := leBytes 8 r.1) s.rg.reqs (.fabric s.rg.reqs) (fun _ => false) k 0 0 r.2 []
    (fun x h1 h2 => (retiredAt_granule v (by rw [length_leBytes] at h2; omega)).trans hr) hwf
  rw [length_leBytes] at hw
  obtain ⟨hin, hout⟩ := hw
  refine ⟨_, _, ?_, rfl, hin, hout⟩
  rw [hc, run_live _ h.1.1, serveAtomic_performed ecc h ha hd hmem hwin hloc]

/-! ## WRITE_LS and FWMSG (R337, R341) -/

theorem exec_writeLs {u : State} (h : Arrives s p 0x03 k) (hne : k.data ≠ []) (hlen : k.data.length ≤ 512)
    (hwin : winOpen s 2 27 k.src (field k.arg 0 10) 1 = true)
    (hw : windowWrite (field k.arg 10 37) (field k.arg 0 10) (field k.operand 0 20) k.data
      (pieceBad k.pmask (field k.operand 0 20)) (takeRx p k s) = some u) :
    exec (.writeLs p) s = .next (answer k 0 0 0 [] u) := by
  have hform : ¬ (k.data.isEmpty = true ∨ 512 < k.data.length) := by
    rw [List.isEmpty_iff]
    exact not_or.2 ⟨hne, Nat.not_lt.2 hlen⟩
  show execWriteLs p s = _
  rw [execWriteLs, run_live _ h.1.1, serve_arrives _ h]
  dsimp only
  rw [if_neg hform, winOpen_takeRx, hwin, hw]
  rfl

theorem exec_fwmsg (h : Arrives s p 0x09 k) (hroute : routeValid s k.src = true)
    (hk : rxHead s p (fun k => decide (k.opc = 0x09 ∧ k.dst = nodeId s) && !isUpdate k) = some k) :
    exec (.fwmsg p) s = .next (answer k 0 0 0 [] (takeRx p k s)) := by
  show execFwmsg p s = _
  rw [execFwmsg, run_live _ h.1.1]
  simp only [hk, serve_arrives _ h, fromValid, routeValid_takeRx, hroute, if_true]
end

/-! ## Tally words (R340, R537) -/

/-- A word that no wait names releases none. -/
theorem tallyRelease_quiet {s : State} {i : Nat} (h : ∀ x ∈ s.tw.waits, x.idx ≠ i) : tallyRelease i s = s := by
  have hnone : ∀ ok : TwWait → Bool, (s.tw.waits.filter (fun w => decide (w.idx = i ∧ w.take = false) && ok w)) = [] := fun ok =>
    List.filter_eq_nil_iff.2 fun w hw => by simp [h w hw]
  have htake : s.tw.waits.filter (fun w => decide (w.idx = i ∧ w.take = true)) = [] :=
    List.filter_eq_nil_iff.2 fun w hw => by simp [h w hw]
  have hrel : releaseWaits i s = s := by rw [releaseWaits, hnone]; rfl
  have hgrant : grantTakes i s = s := by rw [grantTakes, htake]; rfl
  simp only [tallyRelease, hrel, hgrant, if_true]

/-- A change of a word that neither a wait nor a gate names is its write alone. -/
theorem tallyAdd_quiet {s : State} {i : Nat} (d : W32) (kind id : Nat) (h : Quiet s i) :
    tallyAdd i d kind id s = twWrite i (twAt s i + d) kind id s := by
  have hgates : (twWrite i (twAt s i + d) kind id s).sg.gates.filter (fun g => gateNames g.desc i) = [] :=
    List.filter_eq_nil_iff.2 fun g hg => by simp [h.2 g hg]
  have hrel : tallyRelease i (twWrite i (twAt s i + d) kind id s) = twWrite i (twAt s i + d) kind id s := tallyRelease_quiet h.1
  rw [tallyAdd, tallySet, tallyPut, hrel, hgates]
  rfl

theorem exec_tsig {s : State} {p : Nat} {k : Packet} (h : Arrives s p 0x07 k) (hd : k.data = [])
    (hwin : winOpen s 1 26 k.src (field k.arg 0 14) 1 = true) (hq : Quiet s (field k.arg 0 14)) :
    exec (.tsig p) s = .next (answer k 0 0 0 [] (twWrite (field k.arg 0 14) (twAt s (field k.arg 0 14) +
      w32 (k.operand % 2 ^ 32)) 0x2 k.src (takeRx p k s))) := by
  have htw : (takeRx p k s).tw = s.tw := (takeRx_fab p k s).tw.resolve_left (by decide)
  have hsg : (takeRx p k s).sg = s.sg := (takeRx_fab p k s).sg.resolve_left (by decide)
  have hq' : Quiet (takeRx p k s) (field k.arg 0 14) := by rw [Quiet, htw, hsg]; exact hq
  show execTsig p s = _
  rw [execTsig, run_live _ h.1.1, serve_arrives _ h]
  simp only [hd, List.isEmpty_nil, winOpen_takeRx, hwin, Bool.not_true, Bool.false_eq_true, if_false, tallyAdd_quiet _ _ _ hq', twAt, htw]

/-- Settles O20, request by request. -/
theorem servedWrites : Obligations.ServedWrites := by
  refine ⟨fun s p k h hshape hmem hwin hloc hr hwf => ?_,
    fun s p k h hshape hmem hwin => exec_writeRequest_denied h hshape hmem hwin,
    fun s p k u h hne hlen hwin hw => exec_writeLs h hne hlen hwin hw, ?_, fun s p k h hd hwin hq => exec_tsig h hd hwin hq,
    fun s p k hs hreset hlate hroute _ hk hhead => exec_fwmsg ⟨hs, hreset, hhead, hlate⟩ hroute hk⟩
  · obtain ⟨hin, hout⟩ := written_answered s.rg.reqs (.fabric s.rg.reqs) (pieceBad k.pmask (k.arg % 2 ^ 48)) k 0 0 0 []
      (fun x h1 h2 => (retiredAt_takeRx p k s x).trans (hr x h1 h2)) ((takeRx_mem p k s).symm ▸ hwf)
    rw [takeRx_mem] at hout
    exact ⟨_, _, exec_writeRequest h hshape hmem hwin hloc, rfl, hin, hout⟩
  · simp only [List.forall_mem_cons, List.not_mem_nil, false_implies, implies_true, and_true]
    exact ⟨fun s p k ecc h => exec_atomic (c := .addRequest p ecc) rfl h, fun s p k ecc h => exec_atomic (c := .fadd p ecc) rfl h,
      fun s p k ecc h => exec_atomic (c := .cas p ecc) rfl h⟩

end Sys2Proof.Proofs
end

section
/-!
Responses, unknown operations, lost requests, forwarding and flows (R330, R344, R345, R350, R353, R371), and control data at another
node (R343, R347).
-/
namespace Sys2Proof.Proofs
open Sys2Proof Sys2Proof.Machine Sys2Proof.Laws

/-! ## Responses (R344, R371) -/

section
variable {s : State} {p opc : Nat} {k : Packet} {fits : Req → Bool} {c : Instr} (hc : exec c s = run s (respondTo p opc fits))
  (hl : Live s) (hk : rxHead s p (fun k => decide (k.opc = opc ∧ k.dst = nodeId s)) = some k)
include hc hl hk

/-- A response of operation `opc` that arrives: what it settles, and when it is dropped and counted. -/
theorem exec_response {l : List Nat} (hfits : ∀ r, fits r = true ↔ r.opc ∈ l) :
    (∀ r, answered (takeRx p k s) k = some r → r.opc ∈ l → exec c s = .next (settleReq r (replyOf k) (takeRx p k s))) ∧
    (∀ r, answered (takeRx p k s) k = some r → r.opc ∉ l → exec c s = .next (countDrop p (takeRx p k s))) ∧
    (answered (takeRx p k s) k = none → exec c s = .next (countDrop p (takeRx p k s))) := by
  rw [hc, run_live _ hl, respondTo, onPacket_head _ hk]
  refine ⟨fun r hr hin => ?_, fun r hr hout => ?_, fun hnone => ?_⟩
  · simp only [hr, (hfits r).2 hin, if_true]
  · simp only [hr, if_neg (fun h => hout ((hfits r).1 h))]
  · simp only [hnone]
end

/-! ## Operations that no rule names (R330) -/

theorem exec_reservedOpcDiscard {s : State} {p : Nat} {k : Packet} (hl : Live s)
    (hk : rxHead s p (fun k => !opcKnown k.opc) = some k) (hlog : LogRoom s) :
    ∃ t, exec (.reservedOpcDiscard p) s = .next t ∧ Logged 6 p 0x07 t ∧ same .cells s t := by
  have hf : Foot [.fab, .ic, .err, .ports] s (reportCe 6 p 0x07 0 (takeRx p k s)) :=
    reportCe_foot (by decide) _ _ _ _ (takeRx_foot (by decide) p k (Foot.refl _ s))
  have herr : (takeRx p k s).err = s.err := (takeRx_fab p k s).err.resolve_left (by decide)
  have hroom : LogRoom (takeRx p k s) := by
    rw [LogRoom, openRecs, herr]
    exact hlog
  refine ⟨_, ?_, report_logged 6 p 0x07 0 false 0 _ hroom (by decide), hf.frame .cells (by decide)⟩
  show execReservedOpcDiscard p s = _
  rw [execReservedOpcDiscard, run_live _ hl]
  simp only [hk]
  rfl

/-! ## Requests that are lost (R345) -/

section
variable {s : State} {n : Nat} {r : Req} (hl : Live s) (hr : s.fab.reqs.find? (fun r => decide (r.tag = n)) = some r)
include hl hr

theorem exec_requestTimeout : exec (.requestTimeout n) s = .next (settleReq r .lost s) := by
  show execRequestTimeout n s = _
  rw [execRequestTimeout, run_live _ hl]
  simp only [hr]

/-- A request that its owner has abandoned is forgotten when it is lost. -/
theorem exec_requestTimeout_dropped {late : Bool} {q : Nat} (hu : r.use = .dropped late q) :
    exec (.requestTimeout n) s = .next { s with fab := { s.fab with reqs := s.fab.reqs.erase r } } := by
  rw [exec_requestTimeout hl hr]
  simp only [settleReq, hu]
end

/-! ## Forwarding (R350) -/

/-- A packet of a fabric port for another node, with a fabric route and levels left, goes on one level higher. -/
theorem exec_packetForward {s : State} {p : Nat} {k : Packet} (hl : Live s)
    (hk : rxHead s p (fun k => opcKnown k.opc && decide (k.dst ≠ nodeId s)) = some k)
    (htime : (isRequest k && latePast s k.deadline) = false) (hroute : routeValid s k.dst = true)
    (hkind : field (routeOf s k.dst) 29 2 = 0) (hmode : portMode s p = 1) (hlevel : k.level % 4 ≠ 3) :
    exec (.packetForward p) s = .next (putOn (choosePort s k.dst k.ch) { pkt := { k with level := k.level + 1 }, src := some (p, vcOf k) }
      (modPort p (fun x => { x with rx := x.rx.erase k }) s)) := by
  have heth : isEth s p = false := by rw [isEth, hmode]; rfl
  show execPacketForward p s = _
  rw [execPacketForward, run_live _ hl]
  simp only [hk, forward, htime, hroute, hkind, heth, hlevel, Bool.not_true, Bool.false_eq_true, if_false, if_true]

/-! ## Flows that change their port (R353) -/

theorem exec_flowPortChange {s : State} {n : Nat} {k : Packet} (hl : Live s) (hheld : s.fab.heldTx = [(n, k)])
    (hold : ∀ r ∈ s.fab.reqs, onOldPath s k.dst k.ch r = false) :
    let p := choosePort s k.dst k.ch
    exec (.flowPortChange k.dst k.ch) s = .next (putOn p { pkt := { k with gen := (portAt s p).gen }, own := true }
      { s with fab := { s.fab with heldTx := [], reqs := s.fab.reqs.map (fun r =>
        if r.tag = n then { r with port := p, link := linkOf s p k.ch, gen := (portAt s p).gen } else r) } }) := by
  have hnone : s.fab.reqs.any (onOldPath s k.dst k.ch) = false := List.any_eq_false.2 fun r hr => by rw [hold r hr]; exact Bool.false_ne_true
  show execFlowPortChange k.dst k.ch s = _
  rw [execFlowPortChange, run_live _ hl, releaseFlow]
  simp only [hnone, hheld, and_self, decide_true, Bool.not_true, Bool.false_eq_true, if_false, List.filter_cons, if_true, List.filter_nil]
  rfl

/-! ## Control data at another node (R343, R347) -/

/-- A command that lacks a piece asks for it and does nothing else. -/
theorem reading_asks_frame {s : State} {o : RunOwner} {key c va n : Nat} (ch seq : Nat) (f : State → State)
    (hx : xlRange s o c va n .read = none) (hlack : (remoteSpans s o c va n).all (hasFetch s key c) = false) :
    Frame [.fab, .ports] s (reading key o ch seq c va n f s) := by
  obtain ⟨x, hx1, hx2⟩ := List.all_eq_false.1 hlack
  have hne : (remoteSpans s o c va n).filter (fun p => !hasFetch s key c p) ≠ [] :=
    List.ne_nil_of_mem (List.mem_filter.2 ⟨hx1, by simpa using hx2⟩)
  rw [reading_asks ch seq f hx hne]
  exact (askReads_foot (List.Subset.refl _) key ch seq c _ (Foot.refl _ s)).frame

/-- A command that has asked for every piece and lacks an answer does nothing. -/
theorem reading_waits {s : State} {o : RunOwner} {key c va n : Nat} (ch seq : Nat) (f : State → State)
    (hx : xlRange s o c va n .read = none) (hasked : (remoteSpans s o c va n).all (hasFetch s key c) = true)
    (hwait : fetchWaits s key = true) : reading key o ch seq c va n f s = s := by
  have hnone : (remoteSpans s o c va n).filter (fun p => !hasFetch s key c p) = [] :=
    List.filter_eq_nil_iff.2 fun x hx => by simp [List.all_eq_true.1 hasked x hx]
  simp only [reading, hx, hnone, hwait, Option.isSome_none, Bool.false_eq_true, if_false, List.isEmpty_nil, Bool.not_true, if_true]

/-- The reply to a READ of control data is kept with the piece that waits for it. -/
theorem settleReq_ctl_kept {r : Req} {x : Fetch} {s : State} (mask v : Nat) (data : List Byte) (hu : r.use = .ctl)
    (hx : x ∈ s.fab.fetches) (htag : x.tag = r.tag) (hwait : x.res = .waiting) :
    { x with res := .data (padTo data r.len) mask } ∈ (settleReq r (.done mask v data) s).fab.fetches := by
  simp only [settleReq, hu, ctlReply]
  exact List.mem_map.2 ⟨x, hx, if_pos ⟨htag, hwait⟩⟩

/-- Settles O21, clause by clause. -/
theorem responsesAndForwarding : Obligations.ResponsesAndForwarding := by
  refine ⟨?_, fun s p k hl hk hlog => exec_reservedOpcDiscard hl hk hlog, fun s n r hl hr => exec_requestTimeout hl hr,
    fun s n r hl hr hu => exec_requestTimeout_dropped hl hr hu,
    fun s p k hl hk htime hroute hkind hmode hlevel => exec_packetForward hl hk htime hroute hkind hmode hlevel,
    fun s n k hl hheld hold => exec_flowPortChange hl hheld hold,
    fun key o ch seq c va n f s hx => ⟨reading_asks_frame ch seq f hx, reading_waits ch seq f hx⟩,
    fun r mask v data s hu x hx htag hwait => settleReq_ctl_kept mask v data hu hx htag hwait⟩
  simp only [List.forall_mem_cons, List.not_mem_nil, false_implies, implies_true, and_true]
  exact ⟨fun s p k hl hk => exec_response (c := .readRsp p) rfl hl hk (fun r => by simp),
    fun s p k hl hk => exec_response (c := .ackResponse p) rfl hl hk (fun r => by simp),
    fun s p k hl hk => exec_response (c := .atomRsp p) rfl hl hk (fun r => by simp)⟩

end Sys2Proof.Proofs
end

section
/-!
The Ethernet transport (R357 to R360): a connection that the table of peers lists twice.
-/
namespace Sys2Proof.Proofs
open Sys2Proof Sys2Proof.Machine Sys2Proof.Laws

/-- Port 0 is up in an Ethernet mode and peer entry 0 is VALID. The table of peers lists connection 0 twice, which no command brings
about: the one that reads first is down and expects PSN 0, the other expects PSN 5. -/
def twoPeers : State :=
  { blk := { coldLow := false }
    regs := [(0xC01000, 0x80000000), (0xC3001C, 0x80000000)]
    fab := { port := [(0, { state := 2 })], peer := [(0, { down := true }), (0, { expected := 5 })] } }

/-- A frame of the global space from peer 0 with PSN 0 and one packet. -/
def firstFrame : EthFrame :=
  { dmac := 0, smac := 0, etype := 0x86DD, tagged := false, tclass := 0, next := 17, hop := 64, ip := 0, dstIp := 0, sport := 0,
    dport := 0xD805, sumOk := true, psn := 0, ackPsn := 0, ackOnly := false, ceEcho := false, nak := false, packets := [[]] }

/-- The frame shows that peer 0 is no longer down, which makes its connection the one of a peer never heard of. Its pair leaves the
table, the other pair is read from then on, and PSN 0 is a duplicate there. -/
theorem exec_ethernetFrame_twoPeers : ∃ t, exec (.ethernetFrame 0 firstFrame 0 0) twoPeers = .next t ∧ (peerAt t 0).expected = 5 :=
  ⟨_, rfl, by decide +kernel⟩

/-- Refutes O22: its clause on a frame in order does not ask that the table of peers is in canonical form. `twoPeers` meets its
conditions, and the number expected stays 5 where the clause has 1. -/
theorem not_ethernetTransport : ¬ Obligations.EthernetTransport := by
  unfold Obligations.EthernetTransport
  rintro ⟨-, -, htaken, -⟩
  obtain ⟨t, ht, hone, -⟩ := htaken twoPeers 0 firstFrame 0 0 ⟨rfl, rfl⟩ (by decide +kernel) (by decide +kernel) (by decide +kernel)
    (by decide +kernel) rfl rfl (by decide +kernel) (by decide +kernel) (by decide) (by decide +kernel) (by decide +kernel)
  obtain ⟨u, hu, hfive⟩ := exec_ethernetFrame_twoPeers
  obtain rfl : u = t := Host.Outcome.next.inj (hu.symm.trans ht)
  exact absurd (hfive.symm.trans hone) (by decide)

end Sys2Proof.Proofs
end

section
/-!
The states of a port (R317 to R319, R366 to R371, R385): a failed lane where the collector lists one slot twice.
-/
namespace Sys2Proof.Proofs
open Sys2Proof Sys2Proof.Machine Sys2Proof.Laws

/-- A record of port 0 with this type. -/
def portRec (type : Nat) : ErrRec :=
  { kind := 6, index := 0, type := type, cls := 0, conf := false, suppressed := 0, first := 0, last := 0, detail := 0 }

/-- Port 0 is up in fabric mode with lanes 0 to 4 good, and the split that FAB_PORT_CRD asks for is not allowed (R387). The collector
lists its one open slot twice, which no command brings about: with a record of type 0x06 and with one of type 0x07. -/
def twoRecs : State :=
  { blk := { coldLow := false }
    regs := [(0xC01000, 0x40000000), (0xC01008, 0)]
    fab := { port := [(0, { state := 2, lanes := 0x1F, active := 0x0F })] }
    err := { recs := [(0, portRec 0x06), (0, portRec 0x07)], tail := 1 } }

/-- The failure of lane 4 folds into the record of type 0x06, and the refused split of the TRAIN set into that of type 0x07, which is
written in the place of the first. -/
theorem exec_laneFailure_twoRecs : ∃ t, exec (.laneFailure 0 4) twoRecs = .next t ∧ ∀ e ∈ t.err.recs, e.2.type = 0x07 :=
  ⟨_, rfl, by decide +kernel⟩

/-- Refutes O17: its clause on a failed lane does not ask that the collector's log is in canonical form. `twoRecs` meets its conditions,
and no record of type 0x06 is left. -/
theorem not_portStates : ¬ Obligations.PortStates := by
  unfold Obligations.PortStates
  rintro ⟨-, -, -, hlane, -⟩
  obtain ⟨t, ht, -, -, -, -, e, he, -, -, -, hsix⟩ := hlane twoRecs 0 4 ⟨rfl, rfl⟩ (by decide +kernel) (by decide +kernel)
    (by decide +kernel) (by decide +kernel) (by decide +kernel) (by simp only [LogRoom]; decide +kernel)
  obtain ⟨u, hu, hseven⟩ := exec_laneFailure_twoRecs
  obtain rfl : u = t := Host.Outcome.next.inj (hu.symm.trans ht)
  exact absurd (hsix.symm.trans (hseven e he)) (by decide)

end Sys2Proof.Proofs
end

section
/-!
Sequence groups (R395 to R399, R424) and the records of a batch edit (R411 to R414, R421).
-/
namespace Sys2Proof.Proofs
open Sys2Proof Sys2Proof.Machine Sys2Proof.Laws

/-! ## Commands of a mailbox, and control data that is at hand (R347, R650) -/

/-- A processor that has taken the command of a mailbox runs it. -/
theorem run_onBox {s : State} {b code : Nat} (f : State → State) (h : Taken s b code) : run s (onBox b code f) = .next (f s) := by
  obtain ⟨⟨hlive, hplane⟩, herr, hbox⟩ := h
  rw [run_live _ hlive, onBox, hbox, hplane, herr, Bool.and_self, Bool.and_self, guarded_true]

/-- A reader that has its control data goes on, and then ends its reading. -/
theorem reading_reads {s : State} {key c va n : Nat} {o : RunOwner} {h : HostData} {l : List Byte} (ch seq : Nat) (f : State → State)
    (hr : Reads s key o c va n h l) : reading key o ch seq c va n f s = endReading key (f s) := by
  obtain ⟨-, hwaits, hasked⟩ := hr
  exact reading_ready ch seq f hwaits hasked

/-- A task whose descriptor is at hand goes on with it, in the state that reading it leaves. -/
theorem readDesc_reads {s : State} {o : RunOwner} {t : Task} {size : Nat} {h : HostData} {d : List Byte} (source : Nat)
    (f : List Byte → HostData → State → State) (hr : Reads s t.seq o t.ctx (fieldAt t.record 8 8) size h d) :
    readDesc o source t size h f s = endReading t.seq (f d (hostRest h (hostUsed s o t.ctx (fieldAt t.record 8 8) size))
      (touchCtl o t.ctx (fieldAt t.record 8 8) size h s)) := by
  rw [readDesc, reading_reads _ _ _ hr, hr.1]
  rfl

/-- The task that a number finds has that number. -/
theorem seq_of_taskOf {s : State} {q : Nat} {t : Task} (ht : taskOf s q = some t) : t.seq = q := by
  simpa using List.find?_some ht

/-! ## Groups (R395 to R399, R424) -/

/-- A mailbox command whose group descriptor and member list are well formed goes on with both. -/
theorem withGroup_reads {s u : State} {v c : Nat} {h : HostData} {d l : List Byte} (f : List Byte → List Byte → State → State)
    (hr : ReadsGroup s v c h d l u) : withGroup v c h f s = endReading (boxKey v) (f d l u) := by
  obtain ⟨hdesc, halign, hgroup, hlist, rfl, hmembers⟩ := hr
  rw [withGroup, reading_reads _ _ _ hdesc, hdesc.1]
  simp only [halign, hgroup, Bool.false_eq_true, ne_eq, not_true_eq_false, or_self, if_false]
  rw [reading_reads _ _ _ hlist, endReading_endReading, hlist.1]
  simp only [hmembers, Bool.false_eq_true, not_true_eq_false, or_self, if_false]

section
variable {s u : State} {v c : Nat} {h : HostData} {d l : List Byte} (hctx : boxCtx s v 1 = .ok c)
include hctx

/-- SG_CREATE of a GROUP_ID that the context does not use, with room for one more group. -/
theorem exec_sgCreate_takes {g : Nat} {t : State} (hbox : Taken s v 0x0250) (hr : ReadsGroup s v c h d l u)
    (hnew : groupNamed u c (fieldAt d 0 2) = none) (hroom : (groupsOf u c).length < 16)
    (hfree : chooseFree (fun g => !(groupAt u g).live) 64 u = some (g, t)) :
    exec (.sgCreate v h) s = .next (endReading (boxKey v) (replyBox v 0 [g] (zeroTable v d (ctxTake c
      (modGroup g (fun _ => { live := true, ctx := c, vai := v, desc := d, members := l }) t))))) := by
  show execSgCreate v h s = _
  rw [execSgCreate, run_onBox _ hbox]
  simp only [hctx, withGroup_reads _ hr, hnew, Nat.not_le.2 hroom, hfree, Option.isSome_none, Bool.false_eq_true, if_false]

/-- SG_RESTART of a group of the context that no KV_PASS is still using. -/
theorem exec_sgRestart_takes {g : Nat} (hbox : Taken s v 0x0251) (hr : ReadsGroup s v c h d l u)
    (hnamed : groupNamed u c (fieldAt d 0 2) = some g) (hkv : kvOutstanding u g = false) :
    exec (.sgRestart v h) s = .next (endReading (boxKey v) (replyBox v 0 [g] (zeroTable v d (modGroup g
      (fun x => { x with desc := d, members := l, gen := (x.gen + 1) % 256, broken := false, step := 0 }) u)))) := by
  show execSgRestart v h s = _
  rw [execSgRestart, run_onBox _ hbox]
  simp only [hctx, withGroup_reads _ hr, hnamed, hkv, Bool.false_eq_true, if_false]

/-- SG_DESTROY of a group of the context, with no gate waiting. -/
theorem exec_sgDestroy_removes (hbox : Taken s v 0x0252) (hg : boxWord s v 2 < 64) (hlive : (groupAt s (boxWord s v 2)).live = true)
    (hown : (groupAt s (boxWord s v 2)).ctx = c) (hgates : s.sg.gates = []) :
    exec (.sgDestroy v) s = .next (replyBox v 0 [] (removeGroup (boxWord s v 2) s)) := by
  have hsame : { s with sg := { s.sg with gates := [] } } = s := by rw [← hgates]
  show execSgDestroy v s = _
  rw [execSgDestroy, run_onBox _ hbox]
  simp only [hctx, Nat.not_le.2 hg, hlive, hown, hgates, List.filter_nil, hsame, each, Bool.true_eq_false, ne_eq, not_true_eq_false, or_self,
    if_false]
  rfl

/-- SG_DESTROY of a handle that names no group. -/
theorem exec_sgDestroy_refuses (hbox : Taken s v 0x0252) (hg : 64 ≤ boxWord s v 2 ∨ (groupAt s (boxWord s v 2)).live = false) :
    exec (.sgDestroy v) s = .next (replyBox v Status.faultFormat.code [] s) := by
  show execSgDestroy v s = _
  rw [execSgDestroy, run_onBox _ hbox]
  simp only [hctx, hg, if_true, replySt]

end

/-! ## The running batch (R411 to R414, R421) -/

/-- A BATCH_EDIT in its turn, whose descriptor and records are well formed, applies them to a group that its context leads. -/
theorem exec_batchEdit_applies {s u w : State} {q g : Nat} {t : Task} {h rest : HostData} {d l : List Byte} (hs : Computing s)
    (ht : taskOf s q = some t) (hty : t.ty = 0x1A) (hplace : t.place = .ready) (hwrap : t.wrap = none) (hfirst : editBefore s t = false)
    (hdesc : Reads s q .front t.ctx (fieldAt t.record 8 8) 32 h d) (hok : editOk d = true)
    (hled : ledGroup t.ctx (touchCtl .front t.ctx (fieldAt t.record 8 8) 32 h s) = some (g, u))
    (hrest : hostRest h (hostUsed s .front t.ctx (fieldAt t.record 8 8) 32) = rest)
    (hrecs : Reads u q .front t.ctx (fieldAt d 0 8) (16 * (byteAt d 8 + 1)) rest l)
    (hw : touchCtl .front t.ctx (fieldAt d 0 8) (16 * (byteAt d 8 + 1)) rest u = w)
    (hall : (chunks 16 (byteAt d 8 + 1) l).all (batchRecOk (bit (byteAt (groupAt w g).desc 21) 0)) = true) :
    exec (.batchEdit q h) s = .next (endReading q (editBatch t g d l w)) := by
  obtain rfl := seq_of_taskOf ht
  show execBatchEdit t.seq h s = _
  rw [execBatchEdit, run_computing _ hs]
  simp only [ht, hty, hplace, hwrap, hfirst, Option.isSome_none, Bool.false_eq_true, ne_eq, not_true_eq_false, or_self, if_false]
  rw [readDesc_reads _ _ hdesc, hrest]
  simp only [hok, hled, Bool.not_true, Bool.false_eq_true, if_false]
  rw [reading_reads _ _ _ hrecs, endReading_endReading, hrecs.1]
  simp only [hw, hall, Bool.false_eq_true, not_true_eq_false, or_self, if_false]

section
variable {r : List Byte} {x : Group} {i : Nat}

/-- A JOIN takes the first free entry. -/
theorem applyRec_join (hjoin : byteAt r 0 = 1) (hnew : entryOfSeq x (fieldAt r 4 4) = none)
    (hfree : (List.range (maxSeq x.desc)).find? (fun i => (tget {} x.batch i).state == 0) = some i) :
    applyRec r x = (.done, i, { x with
      batch := tset {} x.batch i { seqId := fieldAt r 4 4, state := 2, param := fieldAt r 8 8, order := x.joins }, joins := x.joins + 1 }) := by
  simp only [applyRec, hjoin, hnew, hfree, if_true]

/-- A JOIN of a sequence that has an entry is refused. -/
theorem applyRec_join_denied (hjoin : byteAt r 0 = 1) (hheld : entryOfSeq x (fieldAt r 4 4) = some i) :
    applyRec r x = (.denied, 0xFF, x) := by
  simp only [applyRec, hjoin, hheld, if_true]

/-- A LEAVE quarantines the entry of a sequence that has joined. -/
theorem applyRec_leave (hleave : byteAt r 0 = 2) (hheld : entryOfSeq x (fieldAt r 4 4) = some i) (hstate : (tget {} x.batch i).state = 1) :
    applyRec r x = (.done, i, { x with batch := tset {} x.batch i { tget {} x.batch i with state := 3, age := 0 } }) := by
  have hjoin : byteAt r 0 ≠ 1 := by rw [hleave]; decide
  have hnew : (tget {} x.batch i).state ≠ 2 := by rw [hstate]; decide
  simp only [applyRec, hjoin, hheld, hnew, if_false]

end

/-- Settles O29: the three commands of a group, then a BATCH_EDIT and its records one by one. -/
theorem sequenceGroups : Obligations.SequenceGroups :=
  ⟨fun _ _ _ _ _ _ _ _ _ hbox hctx hr hnew hroom hfree => exec_sgCreate_takes hctx hbox hr hnew hroom hfree,
    fun _ _ _ _ _ _ _ _ hbox hctx hr hnamed hkv => exec_sgRestart_takes hctx hbox hr hnamed hkv,
    fun _ _ _ hbox hctx hg hlive hown hgates => exec_sgDestroy_removes hctx hbox hg hlive hown hgates,
    fun _ _ _ hbox hctx hg => exec_sgDestroy_refuses hctx hbox hg,
    fun _ _ _ _ _ _ _ _ hs ht hty hplace hwrap hfirst hdesc hok hled hrecs hall =>
      exec_batchEdit_applies hs ht hty hplace hwrap hfirst hdesc hok hled rfl hrecs rfl hall,
    fun _ _ _ hjoin hnew hfree => applyRec_join hjoin hnew hfree,
    fun _ _ _ hjoin hheld => applyRec_join_denied hjoin hheld,
    fun _ _ _ hleave hheld hstate => applyRec_leave hleave hheld hstate⟩

end Sys2Proof.Proofs
end

section
/-!
System instructions of a task program: ENQ, ALLOC, FREE, HPUSH, HPOP and PTEST (R464, R482, R483, R485, R575).
-/
namespace Sys2Proof.Proofs
open Sys2Proof Sys2Proof.Machine Sys2Proof.Laws

section
variable {u s : State} {es : List LsError} {l p w : Nat} {t : Task}

/-- An array that waits for the reply of its call has changed in nothing else. -/
theorem Executes.sysWait_now {c o : Nat} (h : Executes u es s l p t w c o) (d v : Nat) :
    ArrayNow s (sysWait p d v s) p { arrAt s p with stall := .sys d (w64 v) } :=
  Executes.changes h rfl rfl

/-- ENQ of an aligned record in local store, with a page index that there can be (R464, R465). -/
theorem exec_enq (h : Executes u es s l p t w 8 0) (hm : opMod w < 2) (ha : ((arrAt s p).getA (opSrc1 w)).toNat % 64 = 0)
    (hpage : ((arrAt s p).getS (opSrc2 w)).toNat < 64) (hin : lsIn ((arrAt s p).getA (opSrc1 w)).toNat 64 = true) :
    let a := ((arrAt s p).getA (opSrc1 w)).toNat
    let r := enqueue t ((arrAt s p).lsBytes a 64) ((arrAt s p).lsBad a 64) ((arrAt s p).getS (opSrc2 w)).toNat (bit (opMod w) 0) s
    exec (.enq l es) u = .next (sysWait p (opDst w) (r.1.code + (if r.1 = .done then r.2.1 * 256 else 0)) r.2.2) := by
  have hexec : exec (.enq l es) u = _ := Executes.acts h (modBits_of_lt (k := 1) hm)
  simpa only [ha, hin, Nat.not_le.2 hpage, ne_eq, not_true_eq_false, or_self, if_false, Bool.not_true, Bool.false_eq_true] using hexec

/-- ALLOC of a level that there is, with no reserved bit set (R574, R575). -/
theorem exec_alloc (h : Executes u es s l p t w 8 1) (hm : opMod w = 0) (himm : opImm w = 0)
    (hlevel : ((arrAt s p).getS (opSrc2 w)).toNat < 3) :
    let r := heapAlloc t.ctx ((arrAt s p).getS (opSrc1 w)).toNat ((arrAt s p).getS (opSrc2 w)).toNat false s
    exec (.alloc l es) u = .next (sysWait p (opDst w) (r.1.code + (if r.1 = .done then r.2.2.1 else 0)) r.2.2.2) := by
  have hrsvd : ¬ (4 ≤ ((arrAt s p).getS (opSrc2 w)).toNat ∨ opImm w ≠ 0) := by omega
  have hexec : exec (.alloc l es) u = _ := Executes.acts h (mod0_of_eq hm)
  simpa only [Nat.mod_eq_of_lt (Nat.lt_succ_of_lt hlevel), decide_eq_false hrsvd] using hexec

/-- FREE gives the reply of the allocator (R575). -/
theorem exec_free (h : Executes u es s l p t w 8 2) (hm : opMod w = 0) :
    let r := heapFree t.ctx ((arrAt s p).getS (opSrc1 w)).toNat s
    exec (.free l es) u = .next (sysWait p (opDst w) r.1.code r.2) :=
  Executes.acts h (mod0_of_eq hm)

/-- A push of a handle that the task holds, into a bound queue that has room beside what it keeps for its own pool (R482). -/
theorem hqPush_pushes {h b : Nat} (hbound : hqBound s h t.ctx = true) (hmem : b ∈ t.handles)
    (hroom : (hqAt s h).items.length + hqKept s h < 4096) (htw : (hqAt s h).tw = none) :
    hqPush t h b s = (.done, modHq h (fun x => { x with items := x.items ++ [b] })
      (modTask t.seq (fun t => { t with handles := t.handles.erase b }) s)) := by
  have hkept : ¬ (4096 ≤ (hqAt s h).items.length + if b / 2 ^ 24 = h then hqKept s h - 1 else hqKept s h) := by
    split <;> omega
  have hheld : t.handles.contains b = true := List.contains_iff_mem.2 hmem
  simp only [hqPush, hbound, hheld, hkept, htw, Bool.not_true, Bool.false_eq_true, if_false]

/-- HPUSH gives the reply of the queue. -/
theorem exec_hpush (h : Executes u es s l p t w 8 3) (hm : opMod w = 0) :
    let r := hqPush t ((arrAt s p).getS (opSrc1 w)).toNat (((arrAt s p).getS (opSrc2 w)).toNat % 2 ^ 32) s
    exec (.hpush l es) u = .next (sysWait p (opDst w) r.1.code r.2) :=
  Executes.acts h (mod0_of_eq hm)

section
variable (h : Executes u es s l p t w 8 4) (hm : opMod w = 0) (hbound : hqBound s ((arrAt s p).getS (opSrc1 w)).toNat t.ctx = true)
include h hm hbound

/-- HPOP without delivery gives the oldest handle of a bound queue (R483). -/
theorem exec_hpop_takes {b : Nat} {r : List Nat} (hitems : (hqAt s ((arrAt s p).getS (opSrc1 w)).toNat).items = b :: r) :
    exec (.hpop l es) u = .next (sysWait p (opDst w) (b * 256) (hqTake t.seq ((arrAt s p).getS (opSrc1 w)).toNat b s)) := by
  have hexec : exec (.hpop l es) u = _ := Executes.acts h (modBits_of_lt (k := 1) (by rw [hm]; decide))
  have hplain : bit (opMod w) 0 = false := by rw [hm]; rfl
  simpa only [hplain, hbound, hitems, Bool.not_true, Bool.false_eq_true, false_and, if_false] using hexec

/-- HPOP of an empty queue answers BUSY. -/
theorem exec_hpop_empty (hitems : (hqAt s ((arrAt s p).getS (opSrc1 w)).toNat).items = []) :
    exec (.hpop l es) u = .next (sysWait p (opDst w) Status.busy.code s) := by
  have hexec : exec (.hpop l es) u = _ := Executes.acts h (modBits_of_lt (k := 1) (by rw [hm]; decide))
  have hplain : bit (opMod w) 0 = false := by rw [hm]; rfl
  simpa only [hplain, hbound, hitems, Bool.not_true, Bool.false_eq_true, false_and, if_false, Status.code] using hexec

end

/-- PTEST of an address in local store retires with the mark of its granule (R485). -/
theorem exec_ptest (h : Executes u es s l p t w 8 5) (hm : opMod w = 0) (hin : lsIn ((arrAt s p).getA (opSrc1 w)).toNat 1 = true) :
    ∃ t', exec (.ptest l es) u = .next t' ∧ ArrayNow s t' p (stepped ((arrAt s p).putS (opDst w)
      (w64 (b2n ((arrAt s p).lsPoison.contains (((arrAt s p).getA (opSrc1 w)).toNat / 64)))))) :=
  Executes.retires h (mod0_of_eq hm) (if_pos hin) rfl ⟨rfl, rfl⟩

end

/-- Settles O7, instruction by instruction. -/
theorem systemInstructions : Obligations.SystemInstructions := by
  refine ⟨fun _ _ _ _ _ _ _ h hm ha hpage hin => exec_enq h hm ha hpage hin,
    fun _ _ _ _ _ _ _ h hm himm hlevel => exec_alloc h hm himm hlevel,
    fun _ _ _ _ _ _ _ h hm => ⟨fun _ hmap => ?mapped, fun hmap => ⟨_, exec_free h hm, ?unmapped⟩⟩,
    fun _ _ _ _ _ _ _ h hm hbound hmem hroom htw => ?pushed,
    fun _ _ _ _ _ _ _ _ _ h hm hbound hitems => exec_hpop_takes h hm hbound hitems,
    fun _ _ _ _ _ _ _ h hm hbound hitems => ⟨_, exec_hpop_empty h hm hbound hitems, Executes.sysWait_now h _ _⟩,
    fun _ _ _ _ _ _ _ h hm hin => exec_ptest h hm hin⟩
  case mapped =>
    rw [exec_free h hm, heapFree, hmap]
    rfl
  case unmapped =>
    rw [heapFree, hmap]
    exact Executes.sysWait_now h _ _
  case pushed =>
    rw [exec_hpush h hm, hqPush_pushes hbound hmem hroom htw]
    rfl

end Sys2Proof.Proofs
end

section
/-!
Doorbells (R434, R439 to R442), and queues that are created, destroyed and resumed (R436 to R438, R442).
-/
namespace Sys2Proof.Proofs
open Sys2Proof Sys2Proof.Machine Sys2Proof.Laws

/-! ## Doorbells -/

theorem queueAt_modQueue {q : Nat} {f : Queue → Queue} {s : State} (h : f (queueAt s q) ≠ {}) :
    queueAt (modQueue q f s) q = f (queueAt s q) :=
  tget_tset_eq _ _ _ _ h

section
variable {s : State} {v i q : Nat} {x : W32}

/-- A doorbell that reaches a queue acts on it. -/
theorem run_doorbell (f : Nat → State → State) (h : Bell s v i q) : run s (doorbell v i f) = .next (f q s) := by
  obtain ⟨hlive, hin, hwin, hv, hi, hpage, hvai, hrest, hstate⟩ := h
  have htakes : ¬ ((vaiAt s v).state = 2 ∨ (vaiAt s v).restoring = true ∨ (queueAt s q).state = .resetting ∨
      (queueAt s q).state = .fenced ∨ (queueAt s q).state = .busy) := by
    rcases hstate with hstate | hstate <;> simp [hvai, hrest, hstate]
  rw [run_live _ hlive, doorbell, hin, decide_eq_true hv, decide_eq_true hi, Bool.and_self, Bool.and_self, guarded_true]
  simp only [hwin, hpage, htakes, Bool.false_eq_true, if_false]

/-- A doorbell at a page index without a queue counts a drop of its VAI (R434). -/
theorem run_doorbell_nobody (f : Nat → State → State) (hlive : Live s) (hin : inService s = true) (hwin : resetWindow s = false)
    (hv : v < 256) (hi : i < 64) (hpage : queueOfPage s v i = none) :
    run s (doorbell v i f) = .next (modVai v (fun y => { y with drops := sat 32 (y.drops + 1) }) s) := by
  rw [run_live _ hlive, doorbell, hin, decide_eq_true hv, decide_eq_true hi, Bool.and_self, Bool.and_self, guarded_true]
  simp only [hwin, hpage, Bool.false_eq_true, if_false]

/-- A queue that takes doorbells is a queue. -/
theorem Bell.used (h : Bell s v i q) : (queueAt s q).state ≠ .unused := by
  obtain ⟨-, -, -, -, -, -, -, -, hstate⟩ := h
  rcases hstate with hstate | hstate <;> rw [hstate] <;> decide

/-- A discarded doorbell keeps the tail of its queue. -/
theorem sqTail_strayBell (h : (queueAt s q).state ≠ .unused) : (queueAt (strayBell q s) q).sqTail = (queueAt s q).sqTail := by
  have hfe : (strayBell q s).fe = (dropBell q s).fe :=
    (reportCe_foot (List.Subset.refl _) 7 q 0x05 0 (Foot.refl _ _)).fe.resolve_left (by decide)
  have hdrop : queueAt (dropBell q s) q = _ := queueAt_modQueue (fun e => h (congrArg Queue.state e))
  rw [queueAt, hfe]
  exact (congrArg Queue.sqTail hdrop :)

theorem exec_dbSqTail_publishes (h : Bell s v i q) (hahead : (x.toNat + 2 ^ 32 - (queueAt s q).sqTail) % 2 ^ 32 < 2 ^ 31)
    (hmoves : x.toNat ≠ (queueAt s q).sqTail) (hring : (x.toNat + 2 ^ 32 - (queueAt s q).sqHead) % 2 ^ 32 ≤ 2 ^ (queueAt s q).sqLog) :
    exec (.dbSqTail v i x) s = .next (modQueue q (fun y => { y with
      sqTail := x.toNat, published := y.published ++ [(x.toNat, beat s)] }) s) := by
  show execDbSqTail v i x s = _
  rw [execDbSqTail, run_doorbell _ h]
  simp only [Nat.not_le.2 hahead, Nat.not_lt.2 hring, hmoves, or_self, if_false]

/-- A tail beyond the ring is discarded with a CE (R439). -/
theorem exec_dbSqTail_beyond (h : Bell s v i q) (hring : 2 ^ (queueAt s q).sqLog < (x.toNat + 2 ^ 32 - (queueAt s q).sqHead) % 2 ^ 32) :
    exec (.dbSqTail v i x) s = .next (strayBell q s) := by
  show execDbSqTail v i x s = _
  rw [execDbSqTail, run_doorbell _ h]
  simp only [hring, or_true, if_true]

theorem exec_dbCqHead_consumes (h : Bell s v i q) (hfull : (queueAt s q).cqFull = false)
    (hthere : (x.toNat + 2 ^ 32 - (queueAt s q).cqHead) % 2 ^ 32 ≤ ((queueAt s q).cqTail + 2 ^ 32 - (queueAt s q).cqHead) % 2 ^ 32) :
    exec (.dbCqHead v i x) s = .next (modQueue q (fun y => { y with cqHead := x.toNat }) s) := by
  show execDbCqHead v i x s = _
  rw [execDbCqHead, run_doorbell _ h]
  simp only [Nat.not_lt.2 hthere, hfull, Bool.false_eq_true, if_false]

/-- ARM fires at once when an entry is there, and arms the queue when there is none (R441). -/
theorem exec_dbArm (h : Bell s v i q) : exec (.dbArm v i 1) s = .next (
    if (queueAt s q).cqTail ≠ (queueAt s q).cqHead then arrive (64 + q) s else modQueue q (fun y => { y with armed := true }) s) :=
  run_doorbell _ h

end

/-! ## Queues -/

section
variable {s : State} {v : Nat}

/-- A command on a queue of the VAI acts on that queue. -/
theorem run_onQueue {code : Nat} (f : Nat → State → State) (hbox : Taken s v code) (hq : boxWord s v 1 < 768)
    (hstate : (queueAt s (boxWord s v 1)).state ≠ .unused) (hvai : (queueAt s (boxWord s v 1)).vai = v) :
    run s (onBox v code (onQueue v f)) = .next (f (boxWord s v 1) s) := by
  rw [run_onBox _ hbox, onQueue, if_pos ⟨hq, hstate, hvai⟩]

/-- QUEUE_CREATE of a well-formed descriptor whose rings lie where they may, at a free page index, within the VAI's count (R438). -/
theorem exec_queueCreate_takes {c q : Nat} {h : HostData} {d : List Byte} {t u : State} (hbox : Taken s v 0x0200) (hctx : boxCtx s v 1 = .ok c)
    (hread : Reads s (boxKey v) .front c (boxPair s v 2) 64 h d) (hu : touchCtl .front c (boxPair s v 2) 64 h s = u)
    (halign : boxPair s v 2 % 64 = 0) (hok : queueOk c d = true)
    (hsq : ringOk u c (fieldAt d 0 8) (64 * 2 ^ byteAt d 16) .read = true)
    (hcq : ringOk u c (fieldAt d 8 8) (32 * 2 ^ byteAt d 17) .write = true) (hpage : queueOfPage u v (byteAt d 22) = none)
    (hroom : (queuesOf u v).length < (vaiAt u v).queues)
    (hfree : chooseFree (fun q => (queueAt u q).state == .unused) 768 u = some (q, t)) :
    exec (.queueCreate v h) s = .next (endReading (boxKey v) (replyBox v 0 [q] (ctxTake c (modSrc (64 + q) (fun x => { x with mask := false })
      (modQueue q (fun _ => {
        state := .ready, vai := v, ctx := c, idx := byteAt d 22, sqVa := fieldAt d 0 8, cqVa := fieldAt d 8 8, sqLog := byteAt d 16,
        cqLog := byteAt d 17, depth := byteAt d 18 % 16, global := bit (byteAt d 18) 4, cls := byteAt d 19, created := true }) t))))) := by
  show execQueueCreate v h s = _
  rw [execQueueCreate, run_onBox _ hbox]
  simp only [hctx, queueCreate, reading_reads _ _ _ hread, hread.1, hu, halign, hok, hsq, hcq, hpage, Nat.not_le.2 hroom, hfree,
    Option.isSome_none, Bool.false_eq_true, ne_eq, not_true_eq_false, or_self, and_self, if_false]

theorem exec_queueDestroy_ends (hbox : Taken s v 0x0201) (hq : boxWord s v 1 < 768) (hvai : (queueAt s (boxWord s v 1)).vai = v)
    (hstate : (queueAt s (boxWord s v 1)).state = .ready ∨ (queueAt s (boxWord s v 1)).state = .stopped) :
    exec (.queueDestroy v) s = .next (replyBox v 0 []
      (refillAll (reissueAll (destroyQueue (boxWord s v 1) (abandonQueue false 0x3FF (boxWord s v 1) s))))) := by
  have hused : (queueAt s (boxWord s v 1)).state ≠ .unused ∧ (queueAt s (boxWord s v 1)).state ≠ .fenced := by
    rcases hstate with e | e <;> rw [e] <;> decide
  show execQueueDestroy v s = _
  rw [execQueueDestroy, run_onQueue _ hbox hq hused.1 hvai, if_neg hused.2]
  rfl

/-- QUEUE_RESUME without SKIP of a STOPPED queue that holds no command (R442). -/
theorem exec_queueResume_stopped (hbox : Taken s v 0x0202) (hq : boxWord s v 1 < 768) (hvai : (queueAt s (boxWord s v 1)).vai = v)
    (hstate : (queueAt s (boxWord s v 1)).state = .stopped) (hheld : (queueAt s (boxWord s v 1)).held = none)
    (hskip : bit (boxWord s v 2) 0 = false) :
    exec (.queueResume v) s = .next (replyBox v 0 [] (modQueue (boxWord s v 1) (fun x => { x with state := .ready }) s)) := by
  show execQueueResume v s = _
  rw [execQueueResume, run_onQueue _ hbox hq (by rw [hstate]; decide) hvai, if_neg (by rw [hstate]; decide), if_neg (not_not.2 hstate), hskip]
  simp only [queueResume, hheld, Bool.false_eq_true, false_and, if_false]
  rfl

/-- QUEUE_RESUME of a queue that is not STOPPED. -/
theorem exec_queueResume_ready (hbox : Taken s v 0x0202) (hq : boxWord s v 1 < 768) (hvai : (queueAt s (boxWord s v 1)).vai = v)
    (hstate : (queueAt s (boxWord s v 1)).state = .ready) :
    exec (.queueResume v) s = .next (replyBox v Status.denied.code [] s) := by
  show execQueueResume v s = _
  rw [execQueueResume, run_onQueue _ hbox hq (by rw [hstate]; decide) hvai, if_neg (by rw [hstate]; decide),
    if_pos (by rw [hstate]; decide)]
  rfl

end

/-- Settles O30: the doorbells, then the three commands of a queue. -/
theorem queuesAndDoorbells : Obligations.QueuesAndDoorbells :=
  ⟨fun _ _ _ _ _ h hahead hmoves hring => exec_dbSqTail_publishes h hahead hmoves hring,
    fun _ _ _ q _ h hring hlog => ⟨_, exec_dbSqTail_beyond h hring, report_logged 7 q 0x05 0 false 0 _ hlog (by decide),
      sqTail_strayBell (Bell.used h)⟩,
    fun _ _ _ _ _ h hfull hthere => exec_dbCqHead_consumes h hfull hthere,
    fun _ _ _ _ h hempty => (exec_dbArm h).trans (congrArg _ (if_neg (not_not.2 hempty))),
    fun _ _ _ _ h hentry => (exec_dbArm h).trans (congrArg _ (if_pos hentry)),
    fun _ _ _ _ hlive hin hwin hv hi hpage => run_doorbell_nobody _ hlive hin hwin hv hi hpage,
    fun _ _ _ _ _ _ _ hbox hctx hread halign hok hsq hcq hpage hroom hfree =>
      exec_queueCreate_takes hbox hctx hread rfl halign hok hsq hcq hpage hroom hfree,
    fun _ _ hbox hq hvai hstate => exec_queueDestroy_ends hbox hq hvai hstate,
    fun _ _ hbox hq hvai hstate hheld hskip => exec_queueResume_stopped hbox hq hvai hstate hheld hskip,
    fun _ _ hbox hq hvai hstate => exec_queueResume_ready hbox hq hvai hstate⟩

end Sys2Proof.Proofs
end

section
/-!
The completion of a SIGNAL, and completion entries (R440, R470, R473 to R476).
-/
namespace Sys2Proof.Proofs
open Sys2Proof Sys2Proof.Machine Sys2Proof.Laws

section
variable {s : State} {q : Nat}

/-- SIGNAL_PERFORM of a SIGNAL at the front of its queue whose earlier entries have gone (R470). -/
theorem exec_signalPerform_ready {e : CmdEnt} {r : List CmdEnt} (hs : Computing s) (hfront : (queueAt s q).cmds = e :: r) (hcode : e.code = 5)
    (hown : e.own = none) (hready : signalReady s q e = true) (hstate : (queueAt s q).state ≠ .resetting) :
    exec (.signalPerform q) s = .next (completeCmd q e .done (fenceSignal (handleIdx e.fence) e.value s)) := by
  show execSignalPerform q s = _
  rw [execSignalPerform, run_computing _ hs, hfront]
  exact congrArg _ (if_pos ⟨hcode, hown, hready, hstate⟩)

/-- COMPLETION_ENTRY_WRITE tries the oldest entry of a queue that is not held up. -/
theorem exec_completionEntryWrite (hs : Computing s) (hfull : (queueAt s q).cqFull = false) :
    exec (.completionEntryWrite q) s = .next (writeEntry q s) := by
  show execCompletionEntryWrite q s = _
  rw [execCompletionEntryWrite, run_live _ hs.1, hfull, hs.2]
  rfl

section
variable {c : Cqe} {r : List Cqe} (hdue : (queueAt s q).due = c :: r) (hclear : entryClear s q c = true)
include hdue hclear

/-- With a full ring the entry waits (R440). -/
theorem writeEntry_waits (hring : 2 ^ (queueAt s q).cqLog ≤ ((queueAt s q).cqTail + 2 ^ 32 - (queueAt s q).cqHead) % 2 ^ 32) :
    writeEntry q s = modQueue q (fun x => { x with cqFull := true }) s := by
  simp only [writeEntry, hdue, hclear, hring, Bool.not_true, Bool.false_eq_true, if_false, if_true]

/-- With room, and a slot that translates, the entry of an unarmed queue is written at the tail (R473). -/
theorem writeEntry_writes (hring : ((queueAt s q).cqTail + 2 ^ 32 - (queueAt s q).cqHead) % 2 ^ 32 < 2 ^ (queueAt s q).cqLog)
    (hslot : xlRange s .front (queueAt s q).ctx
      ((queueAt s q).cqVa + 32 * ((queueAt s q).cqTail % 2 ^ (queueAt s q).cqLog)) 32 .write = none)
    (harmed : (queueAt s q).armed = false) :
    writeEntry q s = modQueue q (fun x => { x with
      due := r, cqTail := (x.cqTail + 1) % 2 ^ 32, cqFull := false, armed := false,
      lastStatus := if c.status = .done then x.lastStatus else c.status.code % 256,
      faultPos := if c.status = .done then x.faultPos else c.ring % 2 ^ 32 })
      (writeCtl .front (queueAt s q).ctx ((queueAt s q).cqVa + 32 * ((queueAt s q).cqTail % 2 ^ (queueAt s q).cqLog))
        (cqeBytes s (queueAt s q) c) s) := by
  simp only [writeEntry, hdue, hclear, Nat.not_le.2 hring, hslot, harmed, Bool.not_true, Bool.false_eq_true, if_false]

end
end

/-- Settles O32: the SIGNAL, then the two ways of a due entry. -/
theorem completionEntries : Obligations.CompletionEntries :=
  ⟨fun _ _ _ _ hs hfront hcode hown hready hstate => exec_signalPerform_ready hs hfront hcode hown hready hstate,
    fun _ _ _ _ hs hfull hdue hclear hring =>
      (exec_completionEntryWrite hs hfull).trans (congrArg _ (writeEntry_waits hdue hclear hring)),
    fun _ _ _ _ hs hfull hdue hclear hring hslot harmed =>
      (exec_completionEntryWrite hs hfull).trans (congrArg _ (writeEntry_writes hdue hclear hring hslot harmed))⟩

end Sys2Proof.Proofs
end

section
/-!
Graphs, fences, handoff queues, tally words and barrier channels under the commands of a VAI (R451 to R455, R467 to R472, R480, R542, R547,
R578).
-/
namespace Sys2Proof.Proofs
open Sys2Proof Sys2Proof.Machine Sys2Proof.Laws

section
variable {s : State} {v : Nat}

/-! ## Graphs -/

/-- GRAPH_REGISTER of a well-formed image that its context has room for (R455). -/
theorem exec_graphRegister_stores {c g : Nat} {h : HostData} {l l' : List Byte} {x : Image} {t : State} (hbox : Taken s v 0x0210)
    (hctx : boxCtx s v 1 = .ok c) (hread : Reads s (boxKey v) .front c (boxPair s v 2) 64 h l) (hhead : imageHead l = true)
    (hall : Reads s (boxKey v) .front c (boxPair s v 2) (fieldAt l 12 4) h l') (himage : imageOf l' = some x)
    (hstore : storeGraph c x (fieldAt l 12 4) (touchCtl .front c (boxPair s v 2) (fieldAt l 12 4) h s) = some (g, t)) :
    exec (.graphRegister v h) s = .next (endReading (boxKey v) (replyBox v 0 [handle (graphAt t g).gen g] t)) := by
  show execGraphRegister v h s = _
  rw [execGraphRegister, run_onBox _ hbox]
  simp only [hctx, graphRegister, reading_reads _ _ _ hread, hread.1, hhead, Bool.false_eq_true, not_true_eq_false, or_self, if_false]
  simp only [reading_reads _ _ _ hall, endReading_endReading, hall.1, himage, hstore, Bool.false_eq_true, if_false]

theorem exec_graphRelease_drops {g : Nat} (hbox : Taken s v 0x0211) (hg : graphOf s (boxWord s v 1) = some g)
    (hvai : (ctxAt s (graphAt s g).ctx).vai = v) (hcreated : (graphAt s g).created = true) :
    exec (.graphRelease v) s = .next (replyBox v 0 [] (graphDrop g (modGraph g (fun x => { x with created := false }) s))) := by
  show execGraphRelease v s = _
  rw [execGraphRelease, run_onBox _ hbox]
  simp only [hg, hvai, hcreated, ne_eq, not_true_eq_false, Bool.true_eq_false, or_self, if_false]
  rfl

/-! ## Fences -/

/-- A command on a fence of the VAI acts on that fence. -/
theorem run_onFence {code i : Nat} (f : Nat → State → State) (hbox : Taken s v code) (hi : fenceOf s (boxWord s v 1) = some i)
    (hvai : (fenceAt s i).vai = v) : run s (onBox v code (onFence v f)) = .next (f i s) := by
  rw [run_onBox _ hbox, onFence, hi]
  exact congrArg _ (if_neg (not_not.2 hvai))

/-- FENCE_CREATE with no mirror, or with an aligned one outside every seal window, within the VAI's count (R467, R747). -/
theorem exec_fenceCreate_takes {c f : Nat} {t : State} (hbox : Taken s v 0x0220) (hctx : boxCtx s v 1 = .ok c)
    (halign : boxPair s v 4 % 16 = 0) (hmirror : boxPair s v 4 = 0 ∨ sealCovers s v (boxPair s v 4) = false)
    (hroom : (fencesOf s v).length < (vaiAt s v).fences)
    (hfree : chooseFree (fun f => !(fenceAt s f).live) 65536 s = some (f, t)) :
    let u := modFence f (fun x => {
      live := true, gen := x.gen, vai := v, ctx := c, value := w64 (boxPair s v 2), mirror := boxPair s v 4,
      event := bit (boxWord s v 6) 0, refs := 1, created := true }) t
    exec (.fenceCreate v) s = .next (replyBox v 0 [handle (fenceAt u f).gen f] u) := by
  have hopen : ¬ (boxPair s v 4 ≠ 0 ∧ sealCovers s v (boxPair s v 4) = true) := by
    rintro ⟨hsome, hcovers⟩
    rcases hmirror with hnone | hfar
    · exact hsome hnone
    · exact Bool.false_ne_true (hfar.symm.trans hcovers)
  show execFenceCreate v s = _
  rw [execFenceCreate, run_onBox _ hbox]
  simp only [hctx, halign, hopen, Nat.not_le.2 hroom, hfree, ne_eq, not_true_eq_false, if_false]

theorem exec_fenceDestroy_drops {f : Nat} (hbox : Taken s v 0x0221) (hf : fenceOf s (boxWord s v 1) = some f)
    (hvai : (fenceAt s f).vai = v) (hcreated : (fenceAt s f).created = true) :
    exec (.fenceDestroy v) s = .next (replyBox v 0 [] (fenceDrop f (modFence f (fun x => { x with created := false }) s))) := by
  show execFenceDestroy v s = _
  rw [execFenceDestroy, run_onFence _ hbox hf hvai, if_neg (by rw [hcreated]; decide)]
  rfl

/-- A signal above the value of a fence without an error raises it (R470). -/
theorem fenceSignal_raises {f : Nat} {x : W64} (herr : (fenceAt s f).err = 0) (habove : above x (fenceAt s f).value = true) :
    Machine.fenceSignal f x s = fenceWake f (fenceChanged f (modFence f (fun y => { y with value := x }) s)) :=
  if_pos ⟨herr, habove⟩

/-- Every other signal is ignored and counted (R470, R552). -/
theorem fenceSignal_ignored {f : Nat} {x : W64} (h : (fenceAt s f).err ≠ 0 ∨ above x (fenceAt s f).value = false) :
    Machine.fenceSignal f x s = fenceChanged f (modFence f (fun y => { y with ignored := y.ignored + 1 }) s) := by
  refine if_neg (fun hboth => ?_)
  rcases h with herr | hbelow
  · exact herr hboth.1
  · exact Bool.false_ne_true (hbelow.symm.trans hboth.2)

/-! ## Handoff queues -/

/-- HQ_CREATE without a tally word, on a granted queue that is not bound (R480). -/
theorem exec_hqCreate_binds {c : Nat} (hbox : Taken s v 0x0234) (hctx : boxCtx s v 2 = .ok c) (hpool : boxPair s v 3 % 65536 = 0)
    (hlow : 6 ≤ field (boxWord s v 5) 0 5) (hhigh : field (boxWord s v 5) 0 5 ≤ 20) (hcount : field (boxWord s v 5) 16 13 ≤ 4096)
    (hgranted : (hqAt s (boxWord s v 1)).granted = true) (hvai : (hqAt s (boxWord s v 1)).vai = v)
    (hfree : (hqAt s (boxWord s v 1)).bound = false) (htw : bit (boxWord s v 6) 31 = false) :
    exec (.hqCreate v) s = .next (replyBox v 0 [] (ctxTake c (modHq (boxWord s v 1) (fun x => { x with
      bound := true, ctx := c, pool := boxPair s v 3, bufLog := field (boxWord s v 5) 0 5, count := field (boxWord s v 5) 16 13, tw := none,
      items := (List.range (field (boxWord s v 5) 16 13)).map (fun i => boxWord s v 1 * 2 ^ 24 + i) }) s))) := by
  show execHqCreate v s = _
  rw [execHqCreate, run_onBox _ hbox]
  simp only [hctx, hpool, Nat.not_lt.2 hlow, Nat.not_lt.2 hhigh, Nat.not_lt.2 hcount, hgranted, hvai, hfree, htw, Option.all_none,
    Bool.not_true, Bool.false_eq_true, ne_eq, not_true_eq_false, or_self, if_false]
  rfl

/-- HQ_DESTROY of a bound queue without a tally word whose own handles all lie in it (R657). -/
theorem exec_hqDestroy_unbinds (hbox : Taken s v 0x0235) (hgranted : (hqAt s (boxWord s v 1)).granted = true)
    (hvai : (hqAt s (boxWord s v 1)).vai = v) (hbound : (hqAt s (boxWord s v 1)).bound = true)
    (hhome : handlesOut s (boxWord s v 1) = false) (htw : (hqAt s (boxWord s v 1)).tw = none) :
    exec (.hqDestroy v) s = .next (replyBox v 0 [] (each ((hqAt s (boxWord s v 1)).items.filter
      (fun i => decide (i / 2 ^ 24 ≠ boxWord s v 1))) (fun i s => hqReturn i s) (unbindHq (boxWord s v 1) s))) := by
  show execHqDestroy v s = _
  rw [execHqDestroy, run_onBox _ hbox]
  simp only [hgranted, hvai, hbound, hhome, htw, Option.any_none, Bool.not_true, Bool.true_eq_false, Bool.false_eq_true, ne_eq,
    not_true_eq_false, or_self, if_false]
  rfl

/-! ## Tally words -/

theorem exec_twSet_granted (hbox : Taken s v 0x0230) (hgrant : twGranted s v (boxWord s v 1) = true) :
    exec (.twSet v) s = .next (replyBox v 0 [] (tallySet (boxWord s v 1) (w32 (boxWord s v 2)) 0x6 v s)) :=
  (run_onBox _ hbox).trans (congrArg _ (if_pos hgrant))

/-- TW_GET gives the value of a word that the VAI has been granted, and is refused for any other (R656). -/
theorem exec_twGet (hbox : Taken s v 0x0231) : exec (.twGet v) s = .next (
    if twGranted s v (boxWord s v 1) = true then replyBox v 0 [(twAt s (boxWord s v 1)).toNat] s
    else replyBox v Status.denied.code [] s) :=
  run_onBox _ hbox

/-! ## Barrier channels -/

/-- A command on a channel of the VAI acts on it when no task waits there, and is BUSY otherwise (R547). -/
theorem run_onBar {code : Nat} (f : Nat → State → State) (hbox : Taken s v code) (hgranted : (barAt s (boxWord s v 1)).granted = true)
    (hvai : (barAt s (boxWord s v 1)).vai = v) : run s (onBox v code (onBar v f)) = .next (
      if (barAt s (boxWord s v 1)).waiters = [] then f (boxWord s v 1) s else replyBox v Status.busy.code [] s) := by
  rw [run_onBox _ hbox, onBar]
  simp only [hgranted, hvai, Bool.not_true, Bool.false_eq_true, ne_eq, not_true_eq_false, or_self, if_false]
  cases (barAt s (boxWord s v 1)).waiters <;> rfl

/-- BARRIER_BIND of a channel that is not bound (R547). -/
theorem exec_barrierBind_binds {c : Nat} (hbox : Taken s v 0x0232) (hctx : boxCtx s v 2 = .ok c)
    (hgranted : (barAt s (boxWord s v 1)).granted = true) (hvai : (barAt s (boxWord s v 1)).vai = v)
    (hnone : (barAt s (boxWord s v 1)).waiters = []) (hstate : (barAt s (boxWord s v 1)).state = 0) :
    exec (.barrierBind v) s = .next (replyBox v 0 [] (ctxTake c (modBar (boxWord s v 1) (fun b => { b with
      state := 1, ctx := c, countM1 := boxWord s v 3, arrived := 0, waiters := [] }) s))) := by
  show execBarrierBind v s = _
  rw [execBarrierBind, run_onBox _ hbox]
  simp only [hctx, onBar, hgranted, hvai, hnone, hstate, List.isEmpty_nil, Bool.not_true, Bool.false_eq_true, ne_eq, not_true_eq_false,
    or_self, if_false, if_true]
  rfl

theorem exec_barrierUnbind_idle (hbox : Taken s v 0x0233) (hgranted : (barAt s (boxWord s v 1)).granted = true)
    (hvai : (barAt s (boxWord s v 1)).vai = v) (hnone : (barAt s (boxWord s v 1)).waiters = [])
    (hstate : (barAt s (boxWord s v 1)).state ≠ 0) :
    exec (.barrierUnbind v) s = .next (replyBox v 0 [] (unbindBar (boxWord s v 1) s)) := by
  show execBarrierUnbind v s = _
  rw [execBarrierUnbind, run_onBar _ hbox hgranted hvai, if_pos hnone, if_neg hstate]
  rfl

theorem exec_barrierUnbind_busy (hbox : Taken s v 0x0233) (hgranted : (barAt s (boxWord s v 1)).granted = true)
    (hvai : (barAt s (boxWord s v 1)).vai = v) (hwait : (barAt s (boxWord s v 1)).waiters ≠ []) :
    exec (.barrierUnbind v) s = .next (replyBox v Status.busy.code [] s) :=
  (run_onBar _ hbox hgranted hvai).trans (congrArg _ (if_neg hwait))

end

/-- Settles O35, object by object. -/
theorem synchronizationObjects : Obligations.SynchronizationObjects :=
  ⟨fun _ _ _ _ _ _ _ _ _ hbox hctx hread hhead hall himage hstore =>
      exec_graphRegister_stores hbox hctx hread hhead hall himage hstore,
    fun _ _ _ hbox hg hvai hcreated => exec_graphRelease_drops hbox hg hvai hcreated,
    fun _ _ _ _ _ hbox hctx halign hmirror hroom hfree => exec_fenceCreate_takes hbox hctx halign hmirror hroom hfree,
    fun _ _ _ hbox hf hvai hcreated => exec_fenceDestroy_drops hbox hf hvai hcreated,
    fun _ _ _ hbox hf hvai => run_onFence _ hbox hf hvai,
    fun _ _ _ herr habove => fenceSignal_raises herr habove,
    fun _ _ _ h => fenceSignal_ignored h,
    fun _ _ _ hbox hf hvai => run_onFence _ hbox hf hvai,
    fun _ _ _ hbox hctx hpool hlow hhigh hcount hgranted hvai hfree htw =>
      exec_hqCreate_binds hbox hctx hpool hlow hhigh hcount hgranted hvai hfree htw,
    fun _ _ hbox hgranted hvai hbound hhome htw => exec_hqDestroy_unbinds hbox hgranted hvai hbound hhome htw,
    fun _ _ hbox hgrant => exec_twSet_granted hbox hgrant,
    fun _ _ hbox hgrant => (exec_twGet hbox).trans (congrArg _ (if_pos hgrant)),
    fun _ _ hbox hgrant => (exec_twGet hbox).trans (congrArg _ (if_neg (by rw [hgrant]; decide))),
    fun _ _ _ hbox hctx hgranted hvai hnone hstate => exec_barrierBind_binds hbox hctx hgranted hvai hnone hstate,
    fun _ _ hbox hgranted hvai hnone hstate => exec_barrierUnbind_idle hbox hgranted hvai hnone hstate,
    fun _ _ hbox hgranted hvai hwait => exec_barrierUnbind_busy hbox hgranted hvai hwait⟩

end Sys2Proof.Proofs
end

section
/-!
Slots, walkers, dispatch and steals (R488 to R499): what each command does when it may act, and what a choice of a unit gives.
-/
namespace Sys2Proof.Proofs
open Sys2Proof Sys2Proof.Machine Sys2Proof.Laws

theorem run_guarded {s : State} {c : Bool} (f : State → State) (hl : Live s) (hc : c = true) : run s (guarded c f) = .next (f s) := by
  rw [run_live _ hl, hc, guarded_true]

/-! ## The least element under a key -/

theorem minBy_none {α : Type} {key : α → Nat} {l : List α} (h : minBy key l = none) : l = [] := by
  cases l with
  | nil => rfl
  | cons a r =>
    rw [minBy] at h
    split at h
    · cases h
    · split at h <;> cases h

/-- What `minBy` answers is an element, and none has a lesser key. -/
theorem minBy_least {α : Type} {key : α → Nat} {l : List α} {x : α} (h : minBy key l = some x) : x ∈ l ∧ ∀ y ∈ l, key x ≤ key y := by
  induction l generalizing x with
  | nil => cases h
  | cons a r ih =>
    rw [minBy] at h
    cases hr : minBy key r with
    | none =>
      obtain rfl : a = x := by simpa [hr] using h
      simp [minBy_none hr]
    | some y =>
      obtain ⟨hy, hle⟩ := ih hr
      simp only [hr] at h
      split at h
      · rename_i hay
        obtain rfl : a = x := by simpa using h
        exact ⟨List.mem_cons_self, List.forall_mem_cons.2 ⟨Nat.le_refl _, fun z hz => hay.trans (hle z hz)⟩⟩
      · rename_i hay
        obtain rfl : y = x := by simpa using h
        exact ⟨List.mem_cons_of_mem _ hy, List.forall_mem_cons.2 ⟨(Nat.lt_of_not_le hay).le, hle⟩⟩

section
variable {s : State}

/-! ## Slots and walkers (R488 to R494) -/

/-- QUEUE_LOAD of the queue that goes first in its partition, into a free slot that is reserved to the partition or is its turn
(R488 to R492). -/
theorem exec_queueLoad_takes {q i : Nat} (hs : Computing s) (hi : i < 32) (hfirst : nextWaiter s (queuePart s q) = some q)
    (hfree : slotBusy s i = false) (hup : stewardUp s (queueAt s q).vai = true) (hmay : reservedFor s 32 (queuePart s q) i = true ∨
      (floats s 32 i = true ∧ roundRobin s (slotQualifies s) s.fe.rrSlot = some (queuePart s q))) :
    exec (.queueLoad q i) s = .next { s with fe := { s.fe with
      slot := tset {} s.fe.slot i ⟨true, q, queuePart s q, beat s⟩,
      rrSlot := if floats s 32 i then queuePart s q else s.fe.rrSlot } } := by
  have hslot : (reservedFor s 32 (queuePart s q) i ||
      (floats s 32 i && roundRobin s (slotQualifies s) s.fe.rrSlot == some (queuePart s q))) = true := by
    rcases hmay with h | ⟨hfloat, hturn⟩
    · rw [h, Bool.true_or]
    · rw [hfloat, hturn, BEq.rfl, Bool.and_self, Bool.or_true]
  show execQueueLoad q i s = _
  rw [execQueueLoad, run_guarded _ hs.1 (by rw [hs.2, decide_eq_true hi, Bool.and_self])]
  exact congrArg _ (if_pos ⟨hfirst, hslot, by rw [hfree]; decide, hup⟩)

/-- A queue whose head command waits for no slot may be unloaded (R492). -/
theorem exec_queueUnload_frees {q : Nat} {e : Nat × Slot} (hs : Computing s) (hup : stewardUp s (queueAt s q).vai = true)
    (hslot : s.fe.slot.find? (fun e => decide (e.2.valid = true ∧ e.2.queue = q)) = some e) (hidle : wantsSlot s q = false)
    (hq : e.2.queue = q) : exec (.queueUnload q) s = .next (freeSlot q s) := by
  have hmay : mayUnload s e.2 = true := by simp only [mayUnload, hq, hidle, Bool.not_false, Bool.true_or]
  show execQueueUnload q s = _
  rw [execQueueUnload, run_guarded _ hs.1 (by rw [hs.2, hup, Bool.and_self])]
  simp only [hslot, hmay, if_true]

/-- WALKER_BIND of a launch that may start to a walker that is reserved to its partition (R494). -/
theorem exec_walkerBind_reserved {l w : Nat} {x : Launch} (hs : Computing s) (hw : w < 16) (hl : launchOf s l = some x)
    (hwaits : launchWaits s x = true) (hfits : walkerFits s (launchPart s x) w = true) (hroom : dispatchFull s (launchPart s x) = false)
    (hfloat : floats s 16 w = false) :
    exec (.walkerBind l w) s = .next (settle x.queue (issueRoots x (modCmd x.queue x.cmd (fun e => { e with start := beat s })
      (modLaunch l (fun x => { x with walker := some w }) s)))) := by
  show execWalkerBind l w s = _
  rw [execWalkerBind, run_guarded _ hs.1 (by rw [hs.2, decide_eq_true hw, Bool.and_self])]
  simp only [hl, hwaits, hfits, hroom, hfloat, Bool.false_and, Bool.false_eq_true, not_false_eq_true, and_self, if_true, if_false]

/-! ## Dispatch (R496, R497) -/

/-- DISPATCH of a well-formed task that has become ready: its unit takes it, and the walkers issue what waited for room. -/
theorem exec_dispatch_places {q : Nat} {t : Task} (hs : Computing s) (ht : taskOf s q = some t) (hfront : t.place = .front)
    (hready : orderedWaits s t = false) (hrun : mayRun s t.queue = true) (hok : recordOk t.record = true) :
    exec (.dispatch q) s = .next (issueHeld (partOfCtx s t.ctx) (if isOrdered s t then
      Machine.place { t with ready := s.fe.readyCtr } (readyLate q s) else Machine.place t s)) := by
  show execDispatch q s = _
  rw [execDispatch, run_computing _ hs]
  simp only [ht, hfront, hready, hrun, hok, ne_eq, not_true_eq_false, Bool.false_eq_true, Bool.not_true, or_self, if_false]

theorem place_array {t : Task} {k : Nat} (hty : t.ty = 0) (hk : pickSeq s (partOfCtx s t.ctx) = some k) :
    Machine.place t s = toSeq k t s := by
  rw [Machine.place, if_pos hty, hk]

theorem place_lce {t : Task} {n : Nat} (hty : t.ty = 0x10 ∨ t.ty = 0x11 ∨ t.ty = 0x12) (hn : pickLce s (partOfCtx s t.ctx) = some n)
    (hroom : (lceAt s n).queue.length < 64) : Machine.place t s = modTask t.seq (fun t => { t with place := .lceQueue n })
      (modLce n (fun x => { x with queue := x.queue ++ [.task t.seq] }) s) := by
  rw [Machine.place, if_neg (by omega), if_pos hty, hn]
  exact if_pos hroom

theorem place_mover {t : Task} {m : Nat} (hty : t.ty = 0x19) (hm : pickMover s (partOfCtx s t.ctx) = some m) :
    Machine.place t s = modTask t.seq (fun t => { t with place := .mover m }) s := by
  rw [Machine.place, if_neg (by omega), if_neg (by omega), if_pos hty, hm]

/-- The sequencer that an array task joins has room, stands in a sector of its partition that is in service, and none of these holds fewer
ready tasks: one that is no candidate for want of room holds more (R497). -/
theorem pickSeq_fewest {p k : Nat} (hk : pickSeq s p = some k) : (readyAt s k).length < 1024 ∧ sectorOn s (k / 4) = true ∧ k ∈ lsqsOf s p ∧
    ∀ j ∈ lsqsOf s p, sectorOn s (j / 4) = true → (readyAt s k).length ≤ (readyAt s j).length := by
  obtain ⟨hmem, hleast⟩ := minBy_least hk
  simp only [List.mem_filter, Bool.and_eq_true, decide_eq_true_eq] at hmem hleast
  obtain ⟨hp, hroom, hon⟩ := hmem
  refine ⟨hroom, hon, hp, fun j hj hjon => ?_⟩
  rcases Nat.lt_or_ge (readyAt s j).length 1024 with hfits | hfull
  · exact hleast j ⟨hj, hfits, hjon⟩
  · exact (hroom.trans_le hfull).le

/-! ## Steals (R499) -/

/-- TASK_STEAL by a sequencer with an idle array and nothing of its own to run. -/
theorem exec_taskSteal_takes {k l a j : Nat} {t : Task} (hs : Computing s) (hk : k < 48) (hl : l ∈ arraysOf s k) (ha : physOf s l = some a)
    (hidle : (arrAt s a).queue = []) (hnone : fillable s k = [])
    (hj : minBy (fun j => 2 ^ 20 - (stealable s j).length) ((lsqsOf s (partOfArray s (18 * k))).filter (fun j =>
      decide (j ≠ k) && !(stealable s j).isEmpty)) = some j)
    (ht : minBy (fun t => taskRank s t * 2 ^ 64 + t.ready) (stealable s j) = some t) :
    exec (.taskSteal k) s = .next (fillSeq k (modTask t.seq (fun t => { t with place := stolen k t.place }) s)) := by
  show execTaskSteal k s = _
  rw [execTaskSteal, run_guarded _ hs.1 (by rw [hs.2, decide_eq_true hk, Bool.and_self])]
  refine congrArg _ ((if_neg ?hungry).trans ?taken)
  case hungry =>
    rintro (hbusy | hown)
    · rw [Bool.not_eq_true', List.any_eq_false] at hbusy
      exact hbusy l hl (by simp only [ha, hidle, List.isEmpty_nil])
    · exact hown (List.isEmpty_iff.2 hnone)
  case taken => simp only [hj, ht]

end

/-- Settles O33, command by command, and then the choices of a unit. -/
theorem slotsAndDispatch : Obligations.SlotsAndDispatch :=
  ⟨fun s q i hs hi hfirst hfree hup hmay =>
      have he := exec_queueLoad_takes hs hi hfirst hfree hup hmay
      ⟨_, he, tget_tset_eq {} s.fe.slot i ⟨true, q, queuePart s q, beat s⟩ nofun,
        fun _ hj => tget_tset_ne _ _ _ _ _ _ hj, rfl, rfl, (exec_foot (.queueLoad q i) nofun he).frame⟩,
    fun _ _ _ hs hup hslot hidle hq => exec_queueUnload_frees hs hup hslot hidle hq,
    fun _ _ _ _ hs hw hl hwaits hfits hroom hown => exec_walkerBind_reserved hs hw hl hwaits hfits hroom hown.2,
    fun _ _ _ hs ht hfront hready hrun hok => exec_dispatch_places hs ht hfront hready hrun hok,
    fun _ _ _ hty hk => place_array hty hk,
    fun _ _ _ hty hn hroom => place_lce hty hn hroom,
    fun _ _ _ hty hm => place_mover hty hm,
    fun _ _ _ hk => pickSeq_fewest hk,
    fun _ _ _ _ _ _ hs hk hl ha hidle hnone hj ht => exec_taskSteal_takes hs hk hl ha hidle hnone hj ht⟩

end Sys2Proof.Proofs
end

section
/-!
Turns and rounds (R501, R502, R509), the schedule registers (R506, R507, R524, R768), the watchdog (R512 to R514) and the deadlock scan
(R515 to R517).
-/
namespace Sys2Proof.Proofs
open Sys2Proof Sys2Proof.Machine Sys2Proof.Laws

/-! ## What a new round keeps -/

/-- The length of the round, and the one that waits for the next round. -/
def roundLength (s : State) : Nat × Option Nat := (s.fe.round, s.fe.roundNext)

theorem roundLength_of_foot {W : List Area} {s t : State} (h : Foot W s t) (hfe : Area.fe ∉ W) : roundLength t = roundLength s := by
  simp only [roundLength, h.fe.resolve_left hfe]

theorem roundLength_pm (s : State) (m : Pm) : roundLength { s with pm := m } = roundLength s := rfl

theorem roundLength_refill (n k : Nat) (s : State) : roundLength (refill n k s) = roundLength s := by
  induction n generalizing s with
  | zero => rfl
  | succ n ih =>
    unfold refill
    split
    · rfl
    · split
      · rfl
      · split
        · rfl
        · exact ih _

theorem roundLength_fillSeq (k : Nat) (s : State) : roundLength (fillSeq k s) = roundLength s := roundLength_refill 72 k s

theorem roundLength_requeueEntry (l p q : Nat) (s : State) : roundLength (requeueEntry l p q s) = roundLength s := by
  unfold requeueEntry
  split
  · rfl
  · split <;> rfl

theorem roundLength_requeue (k : Nat) (s : State) : roundLength (requeue k s) = roundLength s := by
  refine each_same roundLength (fun l _ w => ?_) s
  split
  · exact each_same roundLength (fun _ _ _ => roundLength_requeueEntry _ _ _ _) w
  · rfl

theorem roundLength_refilled (k : Nat) (s : State) : roundLength (fillSeq k (requeue k s)) = roundLength s :=
  (roundLength_fillSeq k _).trans (roundLength_requeue k s)

/-- Requests reach arrays only; then entries go back and others take their places. -/
theorem roundLength_raisePre (k : Nat) (s : State) : roundLength (raisePre k s) = roundLength s := by
  unfold raisePre
  dsimp only
  split
  · rfl
  · rw [apply_ite roundLength, roundLength_refilled, ite_self]
    refine each_same roundLength (fun l _ w => ?_) s
    split <;> rfl

/-- The arrays start the turn afresh, entries go back and others take their places, and requests are raised. -/
theorem roundLength_turnBegins (p k old : Nat) (s : State) : roundLength (turnBegins p k old s) = roundLength s := by
  unfold turnBegins
  dsimp only
  rw [apply_ite roundLength, each_same roundLength (fun k _ w => roundLength_raisePre k w), ite_self,
    each_same roundLength (fun k _ w => roundLength_refilled k w)]
  refine each_same roundLength (fun l _ w => ?_) (modPart p (fun x => { x with turn := k, turnAt := beat s }) s)
  split
  · split <;> rfl
  · rfl

theorem roundLength_applyPart (p : Nat) (s : State) : roundLength (applyPart p s) = roundLength s := by
  unfold applyPart
  dsimp only
  cases (partAt s p).commit with
  | none => rfl
  | some l =>
    show roundLength (each _ _ s) = _
    exact each_same roundLength (by intros; rfl) s

/-- A new round takes the length that waits; latching and the first turns leave the length alone (R502, R507). -/
theorem roundLength_newRound (s : State) : roundLength (newRound s) = (s.fe.roundNext.getD s.fe.round, none) := by
  have hrates : (applyRates s).fe = s.fe := (applyRates_foot (List.Subset.refl _) (Foot.refl _ s)).fe.resolve_left (by decide)
  have henergy : ∀ u, roundLength (latchEnergy u) = roundLength u := fun u =>
    roundLength_of_foot (latchEnergy_foot (List.Subset.refl _) (Foot.refl _ u)) (by decide)
  unfold newRound
  dsimp only
  rw [each_same roundLength (fun e _ w => roundLength_turnBegins e.1 0 e.2 w)]
  rw [roundLength_pm, henergy, each_same roundLength (f := latchVai) (fun _ _ _ => rfl),
    each_same roundLength (fun p _ w => roundLength_applyPart p w)]
  simp only [roundLength, hrates]

theorem newRound_fe (s : State) : (newRound s).fe.round = s.fe.roundNext.getD s.fe.round ∧ (newRound s).fe.roundNext = none :=
  Prod.mk.inj (roundLength_newRound s)

theorem latchEnergy_rounds (s : State) : (latchEnergy s).pm.rounds = s.pm.rounds :=
  each_same (f := fun p s => addEnergy (some p) s) (fun s => s.pm.rounds) (fun _ _ _ => rfl) s

theorem latchEnergy_beat (s : State) : (latchEnergy s).pm.beat = s.pm.beat :=
  each_same (f := fun p s => addEnergy (some p) s) (fun s => s.pm.beat) (fun _ _ _ => rfl) s

/-- A new round counts one, at the same beat. -/
theorem newRound_pm (s : State) : (newRound s).pm.rounds = s.pm.rounds + 1 ∧ (newRound s).pm.beat = s.pm.beat := by
  have hturn : ∀ p old u, (turnBegins p 0 old u).pm = u.pm := fun p old u =>
    (turnBegins_foot (List.Subset.refl _) p 0 old (Foot.refl _ u)).pm.resolve_left (by decide)
  have hpart : ∀ p u, (applyPart p u).pm = u.pm := fun p u =>
    (applyPart_foot (List.Subset.refl _) p (Foot.refl _ u)).pm.resolve_left (by decide)
  have hrates : (applyRates s).pm = s.pm := (applyRates_foot (List.Subset.refl _) (Foot.refl _ s)).pm.resolve_left (by decide)
  unfold newRound
  dsimp only
  rw [each_same State.pm (fun e _ w => hturn e.1 e.2 w), latchEnergy_rounds, latchEnergy_beat,
    each_same State.pm (f := latchVai) (fun _ _ _ => rfl), each_same State.pm (fun p _ w => hpart p w), hrates]
  exact ⟨rfl, rfl⟩

section
variable {s : State}

/-! ## Turns and rounds (R501, R502, R509) -/

theorem exec_turnBoundary_begins {p : Nat} (hs : Computing s) (hp : p < s.fe.parts)
    (hturn : turnHolding s p (roundOffset s) ≠ (partAt s p).turn) :
    exec (.turnBoundary p) s = .next (turnBegins p (turnHolding s p (roundOffset s)) (turnOwner s p) s) := by
  show execTurnBoundary p s = _
  rw [execTurnBoundary, run_guarded _ hs.1 (by rw [hs.2, decide_eq_true hp, Bool.and_self])]
  exact congrArg _ (if_neg hturn)

/-- ROUND_BOUNDARY at a beat of a round that has not begun one: what waits for the round comes into force, and rounds are counted
(R502). -/
theorem exec_roundBoundary_begins (hl : Live s) (hon : regsOn s = true) (hdue : beat s % roundBeats s = 0)
    (hfirst : s.pm.done.contains 0 = false) : ∃ t, exec .roundBoundary s = .next t ∧
    t.fe.round = s.fe.roundNext.getD s.fe.round ∧ t.fe.roundNext = none ∧ t.pm.rounds = s.pm.rounds + 1 ∧ t.pm.beat = s.pm.beat := by
  have he : exec .roundBoundary s = .next (newRound { s with pm := { s.pm with done := sinsert 0 s.pm.done } }) := by
    show execRoundBoundary s = _
    rw [execRoundBoundary, run_guarded _ hl hon, oncePerBeat, hdue, hfirst, BEq.rfl, Bool.not_false, Bool.and_self, if_pos rfl]
  obtain ⟨hround, hnone⟩ := newRound_fe { s with pm := { s.pm with done := sinsert 0 s.pm.done } }
  exact ⟨_, he, hround, hnone, newRound_pm _⟩

theorem exec_roundBoundary_again (hl : Live s) (hon : regsOn s = true) (hdone : s.pm.done.contains 0 = true) :
    exec .roundBoundary s = .next s := by
  show execRoundBoundary s = _
  rw [execRoundBoundary, run_guarded _ hl hon, oncePerBeat, hdone, Bool.not_true, Bool.and_false, if_neg Bool.false_ne_true]

/-! ## Schedule registers (R506, R507, R524, R768) -/

/-- A write of FE_TT_CTRL with COMMIT: a bad table is DENIED, one on top of a pending commit is BUSY, else the table is taken as it
stands (R506). -/
theorem exec_turnTableCommit_commits {p : Nat} {v : W32} {u : State} {l : List Nat} (hl : Live s) (hon : regsOn s = true) (hp : p < 12)
    (hcommit : bit v.toNat 31 = true) (hu : regSet (0x101008 + 0x400 * p) (field v.toNat 0 6) s = u)
    (htable : (List.range (shadowCount u p)).map (fun k => regGet u (0x101100 + 0x400 * p + 4 * k)) = l) :
    exec (.turnTableCommit p v) s = .next (
      if turnsOk u p l = false then modPart p (fun x => { x with result := Status.code .denied }) u
      else if (partAt u p).commit.isSome then modPart p (fun x => { x with result := Status.code .busy }) u
      else modPart p (fun x => { x with commit := some l }) u) := by
  show execTurnTableCommit p v s = _
  rw [execTurnTableCommit, run_guarded _ hl (by rw [hon, decide_eq_true hp, Bool.and_self])]
  simp only [hu, htable, hcommit, Bool.not_true, Bool.false_eq_true, Bool.not_eq_true', if_false]

/-- A round length that no turn starts beyond waits for the next round (R507). -/
theorem exec_roundLengthWrite_takes {v : W32} (hl : Live s) (hon : regsOn s = true) (hpending : ∀ p, p < 12 → pendingTurns s p = [])
    (hstarts : ∀ p, p < 12 → ∀ k, k < (partAt s p).countM1 + 1 → turnStart s p k ≤ field v.toNat 0 12) :
    exec (.roundLengthWrite v) s = .next { regSet 0x100000 (field v.toNat 0 12) s with fe := { s.fe with
      roundNext := some (field v.toNat 0 12), roundRes := 0 } } := by
  show execRoundLengthWrite v s = _
  rw [execRoundLengthWrite, run_guarded _ hl hon]
  refine congrArg _ (if_neg fun hbeyond => ?_)
  obtain ⟨p, hp, hpast⟩ := List.any_eq_true.1 hbeyond
  rw [List.mem_range] at hp
  rw [hpending p hp, List.any_nil, Bool.or_false] at hpast
  obtain ⟨k, hk, hlate⟩ := List.any_eq_true.1 hpast
  exact absurd (hstarts p hp k (List.mem_range.1 hk)) (Nat.not_le.2 (of_decide_eq_true hlate))

/-- A round length that an active turn starts beyond is DENIED (R507). -/
theorem exec_roundLengthWrite_denied {v : W32} {p k : Nat} (hl : Live s) (hon : regsOn s = true) (hp : p < 12)
    (hk : k < (partAt s p).countM1 + 1) (hlate : field v.toNat 0 12 < turnStart s p k) :
    exec (.roundLengthWrite v) s = .next { s with fe := { s.fe with roundRes := Status.code .denied } } := by
  show execRoundLengthWrite v s = _
  rw [execRoundLengthWrite, run_guarded _ hl hon]
  have hpast : ((List.range ((partAt s p).countM1 + 1)).any fun k => decide (field v.toNat 0 12 + 1 ≤ turnStart s p k)) = true :=
    List.any_eq_true.2 ⟨k, List.mem_range.2 hk, decide_eq_true hlate⟩
  exact congrArg _ (if_pos (List.any_eq_true.2 ⟨p, List.mem_range.2 hp, by rw [hpast, Bool.true_or]⟩))

/-- A write of FE_PART_CFG: DENIED when it marks best-effort a class that owns a turn, else it waits for the next round (R524, R768). -/
theorem exec_partSchedWrite {p : Nat} {v : W32} (hl : Live s) (hon : regsOn s = true) (hp : p < 12) :
    exec (.partSchedWrite p v) s = .next (
      if ownsTurn s p (field v.toNat 0 16) then modPart p (fun x => { x with result := Status.code .denied }) s
      else modPart p (fun x => { x with cfgNext := some (bit v.toNat 31, field v.toNat 0 16) })
        (regSet (0x101000 + 0x400 * p) (field v.toNat 0 16 + 2 ^ 31 * b2n (bit v.toNat 31)) s)) := by
  show execPartSchedWrite p v s = _
  rw [execPartSchedWrite, run_guarded _ hl (by rw [hon, decide_eq_true hp, Bool.and_self])]

/-! ## The watchdog (R512 to R514) -/

theorem exec_watchdogExpiry_ends {q : Nat} {t : Task} {r : Nat × State} (hs : Computing s) (ht : taskOf s q = some t)
    (htimed : timed s t = true) (hover : expired s t = true) (hr : leavePlace false 0x3FF t (abandonSeq false 0x3FF q s) = r) :
    exec (.watchdogExpiry q) s = .next (refillAll (reissueAll (taskEnd q .faultTimeout r.1 (some (0x13, detailOf t.ctx 0))
      (freeRecs (fun x => decide (x.seq = q)) (leaveBars q r.2))))) := by
  show execWatchdogExpiry q s = _
  rw [execWatchdogExpiry, run_computing _ hs]
  simp only [ht, htimed, hover, hr, Bool.and_self, Bool.not_true, Bool.false_eq_true, if_false]

/-- A task within its limit goes on, whatever the block does. -/
theorem exec_watchdogExpiry_within {q : Nat} {t : Task} (hl : Live s) (ht : taskOf s q = some t) (hin : expired s t = false) :
    exec (.watchdogExpiry q) s = .next s := by
  show execWatchdogExpiry q s = _
  rw [execWatchdogExpiry, run_live _ hl]
  cases computeOn s with
  | false => rfl
  | true => simp only [guarded_true, ht, hin, Bool.and_false, Bool.not_false, if_true]

/-! ## The deadlock scan (R515 to R517) -/

/-- A scan at a beat of its period, the first of the beat, breaks cycles; with a period of 0 there is none (R515). -/
theorem exec_deadlockScan_breaks {r : List (Nat × HostData)} (hs : Serving s) (hon : field (regGet s 0x10000C) 16 16 ≠ 0)
    (hdue : beat s % field (regGet s 0x10000C) 16 16 = 0) (hfirst : s.pm.done.contains 1 = false) :
    exec (.deadlockScan r) s = .next (breakCycles 768 r { s with pm := { s.pm with done := sinsert 1 s.pm.done } }) := by
  show execDeadlockScan r s = _
  rw [execDeadlockScan, run_live _ hs.1]
  simp only [oncePerBeat, hs.2, hon, hdue, hfirst, ne_eq, not_false_eq_true, and_self, decide_true, Bool.not_false, Bool.and_self, if_true]

theorem exec_deadlockScan_off {r : List (Nat × HostData)} (hl : Live s) (hoff : field (regGet s 0x10000C) 16 16 = 0) :
    exec (.deadlockScan r) s = .next s := by
  show execDeadlockScan r s = _
  rw [execDeadlockScan, run_live _ hl]
  simp only [oncePerBeat, hoff, ne_eq, not_true_eq_false, false_and, decide_false, Bool.and_false, Bool.false_and, Bool.false_eq_true,
    if_false]

theorem breakCycles_none {n : Nat} {r : List (Nat × HostData)} (h : newestWait s (cycleQueues (waitGraph s r)) = none) :
    breakCycles n r s = s := by
  cases n with
  | zero => rfl
  | succ n => rw [breakCycles, h]

theorem breakCycles_some {n q : Nat} {r : List (Nat × HostData)} (h : newestWait s (cycleQueues (waitGraph s r)) = some q) :
    breakCycles (n + 1) r s = breakCycles n r (breakWait q s) := by
  rw [breakCycles, h]

/-- The queues of a cycle: each reaches, and is reached from, one queue of the graph that reaches itself (R516). -/
theorem mem_cycleQueues {g : List (Nat × List Nat)} {q : Nat} (h : q ∈ cycleQueues g) :
    ∃ c, c ∈ g.map (fun e => e.1) ∧ c ∈ reachedFrom g c ∧ q ∈ reachedFrom g c ∧ c ∈ reachedFrom g q := by
  unfold cycleQueues at h
  split at h
  · exact absurd h List.not_mem_nil
  · rename_i c hc
    obtain ⟨hreached, hback⟩ := List.mem_filter.1 h
    have hself := List.find?_some hc
    exact ⟨c, List.mem_of_find?_eq_some hc, List.contains_iff_mem.1 hself, hreached, List.contains_iff_mem.1 hback⟩

theorem completeWait_broken (q : Nat) (e : CmdEnt) (st : Status) (stop : Bool) (s : State) :
    (completeWait q e st stop s).fe.broken = s.fe.broken := by
  unfold completeWait
  split <;> rfl

/-- Breaking a held WAIT counts it, names its queue and reports a CE of type 0x07 (R517). -/
theorem breakWait_counts {q : Nat} {e : CmdEnt} (he : (queueAt s q).held = some e) (hlog : LogRoom s) :
    (breakWait q s).fe.broken = sat 16 (s.fe.broken + 1) ∧ (breakWait q s).fe.lastBroken = q ∧ Logged 7 q 0x07 (breakWait q s) := by
  have herr : (completeWait q e .stalemate (!bit e.flags 2) s).err = s.err :=
    (completeWait_foot (List.Subset.refl _) q e .stalemate (!bit e.flags 2) (Foot.refl _ s)).err.resolve_left (by decide)
  have hfe : ∀ d u, (reportCe 7 q 0x07 d u).fe = u.fe := fun d u =>
    (reportCe_foot (List.Subset.refl _) 7 q 0x07 d (Foot.refl _ u)).fe.resolve_left (by decide)
  simp only [breakWait, he, hfe, completeWait_broken, true_and]
  refine report_logged 7 q 0x07 0 false _ _ ?_ (by decide)
  simpa only [LogRoom, openRecs, herr] using hlog

end

/-- Settles O34: turns and rounds, the schedule registers, the watchdog, the deadlock scan. -/
theorem turnsAndLimits : Obligations.TurnsAndLimits :=
  ⟨fun _ _ hs hp hturn => exec_turnBoundary_begins hs hp hturn,
    fun _ hl hon hdue hfirst => exec_roundBoundary_begins hl hon hdue hfirst,
    fun _ hl hon hdone => exec_roundBoundary_again hl hon hdone,
    fun _ _ _ hl hon hp hcommit => exec_turnTableCommit_commits hl hon hp hcommit rfl rfl,
    fun _ _ hl hon hpending hstarts => ⟨_, exec_roundLengthWrite_takes hl hon hpending hstarts, rfl, rfl, rfl⟩,
    fun _ _ _ _ hl hon hp hk hlate => ⟨_, exec_roundLengthWrite_denied hl hon hp hk hlate, rfl, rfl, rfl⟩,
    fun _ _ _ hl hon hp howns => (exec_partSchedWrite hl hon hp).trans (congrArg _ (if_neg (by rw [howns]; decide))),
    fun _ _ _ hl hon hp howns => (exec_partSchedWrite hl hon hp).trans (congrArg _ (if_pos howns)),
    fun _ _ _ hs ht htimed hover => exec_watchdogExpiry_ends hs ht htimed hover rfl,
    fun _ _ _ hl ht hin => exec_watchdogExpiry_within hl ht hin,
    fun _ _ hs hon hdue hfirst => exec_deadlockScan_breaks hs hon hdue hfirst,
    fun _ _ hl hoff => exec_deadlockScan_off hl hoff,
    fun _ _ _ h => breakCycles_none h,
    fun _ _ _ _ h => breakCycles_some h,
    fun _ _ h => mem_cycleQueues h,
    fun _ _ _ he hlog => breakWait_counts he hlog⟩

end Sys2Proof.Proofs
end

section
/-!
What holds of every command: it answers, it keeps to its footprint, and what it may not undo.
-/
namespace Sys2Proof.Proofs
open Sys2Proof Sys2Proof.Machine Sys2Proof.Laws

/-- Every command answers a next state: its meaning is `run` of an effect, or a pin's effect outright. -/
theorem exec_answers (c : Instr) (s : State) : ∃ t, exec c s = .next t := by
  unfold exec
  cases c
  all_goals exact ⟨_, rfl⟩

/-- The assertion of COLD_RST_N may write every unit. -/
theorem mem_footprint_coldResetAssert (a : Area) : a ∈ footprint .coldResetAssert := by
  cases a <;> decide

/-- Settles O55: the assertion of COLD_RST_N names every unit and keeps the queue; every other command has its footprint by
`exec_foot`. -/
theorem everyCommandKeepsItsFrame : Obligations.EveryCommandKeepsItsFrame := by
  intro c s
  by_cases hc : c = .coldResetAssert
  · subst hc
    exact ⟨_, rfl, rfl, fun a ha => absurd (mem_footprint_coldResetAssert a) ha⟩
  · obtain ⟨t, ht⟩ := exec_answers c s
    have hfoot := exec_foot c hc ht
    exact ⟨t, ht, hfoot.pending, hfoot.frame⟩

/-- Settles O54: both clauses are what `step` says of the queue. -/
theorem stepRunsTheFrontCommand : Obligations.StepRunsTheFrontCommand :=
  ⟨fun _ _ _ => rfl, fun _ => rfl⟩

/-- Settles O58: every command but one keeps the count by its footprint, and the assertion of COLD_RST_N keeps the fuses. -/
theorem rollbackCountNeverFalls : Obligations.RollbackCountNeverFalls := by
  intro c s t h
  by_cases hc : c = .coldResetAssert
  · subst hc
    cases h
    exact Nat.le_refl _
  · exact (exec_foot c hc h).svn

end Sys2Proof.Proofs
end

section
/-!
The attestation report and the scrub receipt (R741, R760): their lengths, and the word that shows DEBUG_USED.
-/
namespace Sys2Proof.Proofs
open Sys2Proof Sys2Proof.Machine Sys2Proof.Laws

@[simp] theorem length_digest (l : List Byte) : (digest l).length = 48 := length_padTo _ 48

@[simp] theorem length_imageDigest (img : List Byte) : (imageDigest img).length = 48 := length_padTo _ 48

@[simp] theorem length_identitySign (l : List Byte) : (identitySign l).length = 96 := length_padTo _ 96

/-- Pieces of one length, put one after the other. -/
theorem length_pieces {k : Nat} (f : Nat → List Byte) (n : Nat) (h : ∀ i, (f i).length = k) :
    ((List.range n).map f).flatten.length = n * k := by
  simp [List.length_flatten, Function.comp_def, h]

/-- A field that lies in the first part of a record. -/
theorem fieldAt_append_left {l m : List Byte} {lo n : Nat} (h : lo + n ≤ l.length) : fieldAt (l ++ m) lo n = fieldAt l lo n := by
  rw [fieldAt, fieldAt, List.drop_append_of_le_length (by omega), List.take_append_of_le_length (by rw [List.length_drop]; omega)]

/-- A field that ends a record. -/
theorem fieldAt_append_word {l : List Byte} {lo : Nat} (n x : Nat) (h : l.length = lo) : fieldAt (l ++ leBytes n x) lo n = x % 256 ^ n := by
  subst h
  rw [fieldAt, List.drop_left, List.take_of_length_le (by rw [length_leBytes]), leNat_leBytes]

theorem length_reportBody (s : State) (n : List Byte) : (reportBody s n).length = 704 := by
  unfold reportBody
  simp only [List.length_append, List.length_replicate, length_leBytes, length_padTo, length_digest, length_imageDigest, length_pieces,
    apply_ite List.length, ite_self]

theorem length_receiptBody (p : Nat) (r : Receipt) (n : List Byte) : (receiptBody p r n).length = 64 := by
  simp [receiptBody, length_leBytes, length_padTo]

theorem reportBody_debug (s : State) (n : List Byte) : fieldAt (reportBody s n) 524 4 =
    b2n (bit (regGet s 0x8) 16) + 2 * b2n s.csb.debugUsed + 4 * b2n (confMode s) := by
  unfold reportBody
  dsimp only
  iterate 7 rw [fieldAt_append_left (by
    simp only [List.length_append, List.length_replicate, length_leBytes, length_padTo, length_digest, length_imageDigest, length_pieces,
      apply_ite List.length, ite_self, Nat.reduceAdd, Nat.reduceMul, Nat.reduceLeDiff])]
  rw [fieldAt_append_word]
  · cases bit (regGet s 0x8) 16 <;> cases s.csb.debugUsed <;> cases confMode s <;> rfl
  · simp only [List.length_append, List.length_replicate, length_leBytes, length_padTo, length_digest, length_imageDigest, length_pieces,
      apply_ite List.length, ite_self]

theorem bit_one (a b c : Bool) : bit (b2n a + 2 * b2n b + 4 * b2n c) 1 = b := by
  revert a b c; decide

theorem regWrite_csb (off v : Nat) (s : State) : (regWrite off v s).csb = s.csb :=
  (regWrite_foot (List.Subset.refl [Area.regs]) off v (Foot.refl _ s)).csb.resolve_left (by decide)

theorem exec_debugPortAccess_used {s : State} (r : DebugReq) (hl : Live s) (hopen : debugOpen s = true) : ∃ t, exec (.debugPortAccess r) s = .next t ∧
    t.csb.debugUsed = true := by
  refine ⟨_, run_guarded _ hl hopen, ?_⟩
  dsimp only
  cases r with
  | read a n => dsimp only; split <;> rfl
  | preempt p =>
    dsimp only
    split
    · exact (requestNow_foot (List.Subset.refl _) p (Foot.refl _ { s with csb := { s.csb with debugUsed := true } })).debug rfl
    · rfl

/-- A debug register has no write of its own. -/
theorem ownWrite_debug {off : Nat} (s : State) (val : W32) (hlo : 0x1400000 ≤ off) : ownWrite s off val = false := by
  simp only [ownWrite]
  simp
  omega

theorem exec_registerWrite_debug {s : State} {off : Nat} (val : W32) (hl : Live s) (hready : s.blk.ireqReady = true) (hon : regsOn s = true)
    (hconf : confMode s = false) (hlo : 0x1400000 ≤ off) (hhi : off < 0x1500000) (hword : off % 4 = 0) :
    exec (.registerWrite .bar0 off val false) s = .next (regWrite off val.toNat { s with csb := { s.csb with debugUsed := true } }) := by
  have h0 : ¬ (0xF00000 ≤ off ∧ off < 0xF00020) := by omega
  have h1 : ¬ (0xF00100 ≤ off ∧ off < 0xF00120) := by omega
  refine (run_guarded _ hl (by simp [hready, hword])).trans ?_
  simp only [hon, if_true, write0, ownWrite_debug s val hlo, Bool.false_eq_true, if_false, h0, h1, hlo, hhi, and_self, hconf]

theorem placeSaves_csb (s : State) (x : Csb) (v n : Nat) (used : List (Nat × Nat)) (l : List Nat) :
    placeSaves { s with csb := x } v n used l = placeSaves s v n used l := by
  induction l generalizing used with
  | nil => rfl
  | cons c r ih =>
    simp only [placeSaves, ih]
    rfl

theorem reconfBusy_csb (s : State) (x : Csb) (parts conf touched : Nat) :
    reconfBusy { s with csb := x } parts conf touched = reconfBusy s parts conf touched := by
  simp only [reconfBusy, newSaves, placeSaves_csb]
  rfl

/-- Settles O59: the footprint of every command but the assertion of COLD_RST_N keeps DEBUG_USED; what sets it, what clears it, and the
word of the report that shows it. -/
theorem debugUsedIsRemembered : Obligations.DebugUsedIsRemembered := by
  refine ⟨fun s r hl hopen => exec_debugPortAccess_used r hl hopen, fun s off val hl hready hon hconf hlo hhi hword => ?_,
    fun c s t hc hused h => (exec_foot c hc h).debug hused,
    fun s => ⟨_, rfl, rfl⟩, fun s b n c tch => ⟨rfl, rfl, reconfBusy_csb s _ n c tch⟩, fun s n => ?_⟩
  · exact ⟨_, exec_registerWrite_debug val hl hready hon hconf hlo hhi hword, by rw [regWrite_csb]⟩
  · rw [reportBody_debug, bit_one]

end Sys2Proof.Proofs
end

section
/-!
The SPDM responder, sessions and seal bindings (chapter 18).
-/
namespace Sys2Proof.Proofs
open Sys2Proof Sys2Proof.Machine Sys2Proof.Laws

/-! ## Requests on the DOE pipe (R736) -/

/-- A request on the open DOE pipe is handled and answered there. -/
theorem run_doe {s : State} (f : State → List Byte × State) (h : DoeOpen s) :
    run s (onSpdm .doe f) = .next (emit (.doe (f s).1) (f s).2) := by
  obtain ⟨hlive, hruns, habort⟩ := h
  have hopen : pathOpen s .doe = true := by simp [pathOpen, doeBusy, hruns, habort]
  exact run_guarded _ hlive hopen

/-- While the abort input is asserted the DOE pipe delivers nothing. -/
theorem run_doe_aborted {s : State} (f : State → List Byte × State) (hlive : Live s) (habort : s.blk.doeAbort = true) :
    run s (onSpdm .doe f) = .next s := by
  have hopen : pathOpen s .doe = false := by simp [pathOpen, habort]
  rw [run_live _ hlive, onSpdm, hopen, guarded_false]

theorem inSession_open {s : State} {k : Nat} (f : State → List Byte × State) (h : k ∈ s.csb.sessions) : inSession k f s = f s :=
  if_pos (List.contains_iff_mem.2 h)

theorem inSession_unknown {s : State} {k : Nat} (f : State → List Byte × State) (h : k ∉ s.csb.sessions) :
    inSession k f s = (spdmError 0x02, s) :=
  if_neg (fun e => h (List.contains_iff_mem.1 e))

/-- A request in an open session, on the open DOE pipe. -/
theorem run_doe_session {s : State} {k : Nat} (f : State → List Byte × State) (h : DoeOpen s) (hk : k ∈ s.csb.sessions) :
    run s (onSpdm .doe (inSession k f)) = .next (emit (.doe (f s).1) (f s).2) := by
  rw [run_doe _ h, inSession_open f hk]

/-- One measurement with a signature: its block, and a free value that no other field holds. -/
theorem spdmMeasure_signed {m : List Byte} {i : Nat} (s : State) (hi : byteAt m 3 = i) (hlo : 1 ≤ i) (hhi : i ≤ 8)
    (hsigned : bit (byteAt m 2) 0 = true) :
    let b := measureBlock s (padTo ((m.drop 4).take 32) 32) i
    let r := [0x13, 0x60, 0, 0] ++ leBytes 1 1 ++ leBytes 3 b.length ++ b ++ leBytes 32 (Config.freeNat s.freeCtr) ++ [0, 0]
    spdmMeasure m s = (r ++ identitySign (m ++ r), { s with freeCtr := s.freeCtr + 1 }) := by
  have h0 : i ≠ 0 := by omega
  have hall : i ≠ 0xFF := by omega
  have hrange : ¬ (8 < i ∧ i ≠ 0xFF) := by omega
  simp only [spdmMeasure, hi, hsigned, h0, hall, hrange, if_true, if_false, fresh, List.map_cons, List.map_nil, List.flatten_cons,
    List.flatten_nil, List.append_nil, List.length_cons, List.length_nil]

theorem spdmKeyExchange_full {s : State} (m : List Byte) (h : 16 ≤ s.csb.sessions.length) : spdmKeyExchange m s = (spdmError 3, s) :=
  if_pos h

/-- A key exchange with room opens the next session. -/
theorem spdmKeyExchange_opens {s : State} (m : List Byte) (h : s.csb.sessions.length < 16) : ∃ r, spdmKeyExchange m s =
    (r, { s with csb := { s.csb with sessions := s.csb.sessions ++ [s.csb.next], next := s.csb.next + 1 }, freeCtr := s.freeCtr + 1 }) := by
  rw [spdmKeyExchange, if_neg (by omega)]
  exact ⟨_, rfl⟩

/-! ## The end of a session (R738, R753) -/

/-- Erasing the keys of some partitions leaves the bindings and the windows of the others. -/
theorem each_unbindPart (ps : List Nat) (s : State) : each ps unbindPart s = { s with csb := { s.csb with
    bindings := s.csb.bindings.filter (fun b => decide (b.part ∉ ps))
    windows := s.csb.windows.filter (fun w => decide (partOfCtx s w.ctx ∉ ps)) } } := by
  induction ps generalizing s with
  | nil => simp [each]
  | cons p ps ih =>
    have hparts : ∀ c, partOfCtx (unbindPart p s) c = partOfCtx s c := fun _ => rfl
    refine (ih (unbindPart p s)).trans ?_
    simp only [hparts]
    simp only [unbindPart, List.filter_filter, List.mem_cons, not_or, decide_not, Bool.decide_and, Bool.and_comm]

theorem mem_sessions_dropSession {s : State} {k x : Nat} : x ∈ (dropSession k s).csb.sessions ↔ x ∈ s.csb.sessions ∧ x ≠ k := by
  simp [dropSession, each_unbindPart]

/-- A binding outlives a session when that session binds none of its partition. -/
theorem mem_bindings_dropSession {s : State} {k : Nat} {b : Binding} : b ∈ (dropSession k s).csb.bindings ↔
    b ∈ s.csb.bindings ∧ ∀ c ∈ s.csb.bindings, c.session = k → c.part ≠ b.part := by
  simp [dropSession, each_unbindPart]

theorem mem_windows_dropSession {s : State} {k : Nat} {w : Window} : w ∈ (dropSession k s).csb.windows ↔
    w ∈ s.csb.windows ∧ ∀ c ∈ s.csb.bindings, c.session = k → c.part ≠ partOfCtx s w.ctx := by
  simp [dropSession, each_unbindPart]

theorem exec_keyExchange_opens {s : State} (m : List Byte) (h : DoeOpen s) (hroom : s.csb.sessions.length < 16) :
    ∃ t, exec (.keyExchange .doe m) s = .next t ∧ t.csb.sessions = s.csb.sessions ++ [s.csb.next] ∧ t.csb.next = s.csb.next + 1 ∧
      Frame [.csb, .ports, .freeCtr] s t := by
  obtain ⟨r, hr⟩ := spdmKeyExchange_opens m hroom
  refine ⟨_, run_doe _ h, by rw [hr, emit_csb], by rw [hr, emit_csb], ?_⟩
  exact (emit_foot (by decide) _ (spdmKeyExchange_foot (by decide) m (Foot.refl _ s))).frame

/-- Settles O51: the DOE pipe delivers a request to the responder, whose answers `spdmMeasure_signed` and the key exchange give; what a
session leaves behind is what `each_unbindPart` leaves. -/
theorem spdmResponder : Obligations.SpdmResponder := by
  refine ⟨fun s m h => run_doe _ h, fun s m hl habort => run_doe_aborted _ hl habort, fun s m h => run_doe _ h,
    fun s m i h hi hlo hhi hsigned => ⟨Config.freeNat s.freeCtr, ?_⟩, fun s m h hroom => exec_keyExchange_opens m h hroom,
    fun s m h hfull => (run_doe _ h).trans (by rw [spdmKeyExchange_full m hfull]), fun s k h hk => run_doe_session _ h hk,
    fun s k hl hk => (run_live _ hl).trans (by rw [if_pos (List.contains_iff_mem.2 hk)]), fun s k => ⟨?_, ?_, ?_⟩⟩
  · exact (run_doe _ h).trans (by rw [spdmMeasure_signed s hi hlo hhi hsigned])
  · exact fun hk => (mem_sessions_dropSession.1 hk).2 rfl
  · intro b hb hk
    obtain ⟨hmem, hother⟩ := mem_bindings_dropSession.1 hb
    exact hother b hmem hk rfl
  · intro b hb hk w hw hpart
    exact (mem_windows_dropSession.1 hw).2 b hb hk hpart.symm

/-! ## Seal bindings (R745 to R759) -/

/-- Where a list without an entry that fits takes a new one, a search finds that one if it fits. -/
theorem find?_filter_append {α : Type} {keep fits : α → Bool} (l : List α) (x : α) (h : ∀ y, keep y = true → fits y = false)
    (hx : fits x = true) : (l.filter keep ++ [x]).find? fits = some x := by
  have hgone : (l.filter keep).find? fits = none := by
    rw [List.find?_eq_none]
    intro y hy
    simp [h y (List.mem_filter.1 hy).2]
  rw [List.find?_append, hgone, Option.none_or, List.find?_cons_of_pos hx]

/-- Entries that do not fit come and go without a search seeing it. -/
theorem find?_filter_append_ne {α : Type} {keep fits : α → Bool} (l : List α) (x : α) (h : ∀ y, fits y = true → keep y = true)
    (hx : fits x = false) : (l.filter keep ++ [x]).find? fits = l.find? fits := by
  have hkept : (fun y => keep y && fits y) = fits := by
    funext y
    cases hy : fits y with
    | false => rw [Bool.and_false]
    | true => rw [h y hy, Bool.and_true]
  rw [List.find?_append, List.find?_filter, List.find?_cons_of_neg (by simp [hx]), List.find?_nil, Option.or_none]
  simpa using congrArg (fun f => l.find? f) hkept

theorem bindingOf_useGen (s : State) (k p g : Nat) :
    bindingOf (useGen k p g s) p = some { session := k, part := p, gen := g, counter := 1 } :=
  find?_filter_append _ _ (fun y hy => by simpa using hy) (decide_eq_true rfl)

theorem bindingOf_useGen_ne {q p : Nat} (s : State) (k g : Nat) (h : q ≠ p) : bindingOf (useGen k p g s) q = bindingOf s q :=
  find?_filter_append_ne _ _ (fun y hy => by simp only [decide_eq_true_eq] at hy ⊢; exact hy ▸ h) (decide_eq_false (Ne.symm h))

theorem lastGen_useGen (s : State) (k p g : Nat) : lastGen (useGen k p g s) k p = some g := by
  have hfound : (useGen k p g s).csb.gens.find? (fun g => decide (g.1 = k ∧ g.2.1 = p)) = some (k, p, g) :=
    find?_filter_append _ _ (fun y hy => by rw [Bool.not_eq_true'] at hy; exact hy) (decide_eq_true ⟨rfl, rfl⟩)
  rw [lastGen, hfound, Option.map_some]

theorem bindingOf_unbindPart (s : State) (p : Nat) : bindingOf (unbindPart p s) p = none := by
  simp [bindingOf, unbindPart, List.find?_eq_none]

theorem sealBind_busy {s : State} {l : List W32} (k : Nat) (h : scrubbing s (field (reqWord l 0) 0 4) = true) :
    sealBind k l s = sealStatus .busy s :=
  if_pos h

theorem sealBind_binds {s : State} {k g : Nat} {l : List W32} (hscrub : scrubbing s (field (reqWord l 0) 0 4) = false)
    (hconf : confPart s (field (reqWord l 0) 0 4) = true)
    (hpasid : s.fe.vai.any (fun e => e.2.state != 0 && e.2.part == field (reqWord l 0) 0 4 && e.2.pasid == field (reqWord l 1) 0 20) = true)
    (hother : boundToOther s k (field (reqWord l 0) 0 4) = false) (hgen : nextGen s k (field (reqWord l 0) 0 4) = some g) :
    sealBind k l s = sealStatus .done (useGen k (field (reqWord l 0) 0 4) g s) := by
  simp only [sealBind, hscrub, hconf, hpasid, hother, hgen, Bool.false_eq_true, if_false, Bool.not_true, Bool.or_self]

theorem sealRotate_rotates {s : State} {k g : Nat} {l : List W32} (hbinds : binds s k (field (reqWord l 0) 0 4) = true)
    (hgen : nextGen s k (field (reqWord l 0) 0 4) = some g) (hfree : sealBusy s (field (reqWord l 0) 0 4) = false) :
    sealRotate k l s = sealStatus .done (useGen k (field (reqWord l 0) 0 4) g s) := by
  simp only [sealRotate, hbinds, hgen, hfree, Bool.true_eq_false, Bool.false_eq_true, if_false]

theorem sealUnbind_unbinds {s : State} {k : Nat} {l : List W32} (h : binds s k (field (reqWord l 0) 0 4) = true) :
    sealUnbind k l s = sealStatus .done (unbindPart (field (reqWord l 0) 0 4) s) :=
  if_neg (by rw [h]; decide)

theorem sealUnbind_denied {s : State} {k : Nat} {l : List W32} (h : binds s k (field (reqWord l 0) 0 4) = false) :
    sealUnbind k l s = sealStatus .denied s :=
  if_pos h

theorem mem_windows_unbindPart {s : State} {p : Nat} {w : Window} (h : w ∈ (unbindPart p s).csb.windows) : partOfCtx s w.ctx ≠ p := by
  simpa using (List.mem_filter.1 h).2

theorem nextGen_some {s : State} {k p g : Nat} (h : lastGen s k p = some g) : nextGen s k p = if g < 255 then some (g + 1) else none := by
  rw [nextGen, h]

/-- Settles O52: what each request answers in a session, and that a generation in use becomes the binding and the last one used. -/
theorem sealBindings : Obligations.SealBindings := by
  refine ⟨fun s k l h hk => run_doe_session _ h hk, fun s k l h hk => run_doe_session _ h hk, fun s k l h hk => run_doe_session _ h hk,
    fun s k l h hk => run_doe_session _ h hk, fun s k l h hk => (run_doe _ h).trans (by rw [inSession_unknown _ hk]), ?binds,
    fun s k l h => sealBind_busy k h, fun s k p h => by rw [nextGen, h], fun s k p g h => nextGen_some h, ?rotates, ?unbinds,
    fun s k l h => sealUnbind_denied h, ?window⟩
  case binds =>
    intro s k l g p hscrub hconf hpasid hother hgen
    exact ⟨_, sealBind_binds hscrub hconf hpasid hother hgen, bindingOf_useGen s k p g, lastGen_useGen s k p g,
      fun q hq => bindingOf_useGen_ne s k g hq, (useGen_foot (by decide) k p g (Foot.refl _ s)).frame⟩
  case rotates =>
    intro s k l g p hbinds hgen hfree
    exact ⟨_, sealRotate_rotates hbinds hgen hfree, bindingOf_useGen s k p g⟩
  case unbinds =>
    intro s k l p hbinds
    exact ⟨_, sealUnbind_unbinds hbinds, bindingOf_unbindPart s p, fun w hw => mem_windows_unbindPart hw⟩
  case window =>
    intro s k l c pair h1 h3 h5 hlive hbinds
    have hwords : ¬ (pair 1 % 4096 ≠ 0 ∨ pair 3 % 4096 ≠ 0 ∨ pair 5 % 64 ≠ 0) := by simp [h1, h3, h5]
    have hctx : ¬ ((ctxAt s c).state ≠ 1 ∨ binds s k (partOfCtx s c) = false) := by simp [hlive, hbinds]
    obtain ⟨t, ht, hmem⟩ : ∃ t, sealWindow k l s = ([0], t) ∧
        { ctx := c, base := pair 1, size := pair 3, metaAt := pair 5 : Window } ∈ t.csb.windows :=
      ⟨_, (if_neg hwords).trans (if_neg hctx), List.mem_append_right _ (List.mem_singleton.2 rfl)⟩
    exact ⟨t, ht, hmem, (Foot.snd ht (sealWindow_foot (by decide) k l (Foot.refl _ s))).frame⟩

/-! ## The security mailbox (R740) -/

/-- The CSB runs the taken command of the security mailbox. -/
theorem run_onSec {s : State} {code : Nat} (f : State → State) (h : Secured s code) : run s (onSec code f) = .next (f s) :=
  run_guarded _ h.1 h.2

theorem secPoison_clean {h : HostData} (s : State) (hp : h.poison = false) : secPoison h s = s := by
  rw [secPoison, hp, if_neg Bool.false_ne_true]

theorem exec_spdmXfer_aligned {s : State} {h : HostData} (hs : Secured s 0x0400) (h1 : boxPair s 257 1 % 64 = 0)
    (h4 : boxPair s 257 4 % 64 = 0) (hp : h.poison = false) :
    exec (.spdmXfer h) s = .next (sendSpdm .mailbox (spdmAnswer (padTo h.bytes (boxWord s 257 3))) s) := by
  refine (run_onSec _ hs).trans ?_
  rw [if_neg (by omega), secPoison_clean s hp]

theorem exec_attestReport_aligned {s : State} {h : HostData} (hs : Secured s 0x0401) (h1 : boxPair s 257 1 % 64 = 0)
    (hp : h.poison = false) : exec (.attestReport h) s = .next (replyBox 257 0 [] (hostWriteM (boxPair s 257 1)
      (reportBody s (padTo h.bytes 32) ++ identitySign (reportBody s (padTo h.bytes 32))) s)) := by
  refine (run_onSec _ hs).trans ?_
  dsimp only
  rw [if_neg (by omega), secPoison_clean s hp]
  rfl

theorem exec_attestReport_misaligned {s : State} (h : HostData) (hs : Secured s 0x0401) (h1 : boxPair s 257 1 % 64 ≠ 0) :
    exec (.attestReport h) s = .next (replyBox 257 Status.faultFormat.code [] s) :=
  (run_onSec _ hs).trans (congrArg _ (if_pos h1))

theorem exec_scrubReceipt_known {s : State} {h : HostData} {r : Receipt} (hs : Secured s 0x0402) (hpart : boxWord s 257 1 < 12)
    (h2 : boxPair s 257 2 % 64 = 0) (hp : h.poison = false) (hr : (scrubAt s (boxWord s 257 1)).receipt = some r) :
    let b := receiptBody (boxWord s 257 1) r (padTo h.bytes 32)
    exec (.scrubReceipt h) s = .next (replyBox 257 0 [] (hostWriteM (boxPair s 257 2) (b ++ identitySign b) s)) := by
  change (tget ({} : Scrub) s.csb.scrub (boxWord s 257 1)).receipt = some r at hr
  refine (run_onSec _ hs).trans ?_
  dsimp only
  rw [if_neg (by omega), hr]
  dsimp only
  rw [secPoison_clean s hp]
  rfl

theorem exec_scrubReceipt_none {s : State} (h : HostData) (hs : Secured s 0x0402) (hpart : boxWord s 257 1 < 12)
    (h2 : boxPair s 257 2 % 64 = 0) (hr : (scrubAt s (boxWord s 257 1)).receipt = none) :
    exec (.scrubReceipt h) s = .next (replyBox 257 Status.denied.code [] s) := by
  change (tget ({} : Scrub) s.csb.scrub (boxWord s 257 1)).receipt = none at hr
  refine (run_onSec _ hs).trans ?_
  dsimp only
  rw [if_neg (by omega), hr]
  rfl

/-- Settles O53: the three commands of the mailbox, case by case, and the lengths of what they write. -/
theorem securityMailbox : Obligations.SecurityMailbox :=
  ⟨fun _ _ hs h1 h4 hp => exec_spdmXfer_aligned hs h1 h4 hp, fun _ _ hs h1 hp => exec_attestReport_aligned hs h1 hp,
    fun _ h hs h1 => exec_attestReport_misaligned h hs h1, length_reportBody, length_receiptBody,
    fun _ _ _ hs hpart h2 hp hr => exec_scrubReceipt_known hs hpart h2 hp hr,
    fun _ h hs hpart h2 hr => exec_scrubReceipt_none h hs hpart h2 hr⟩

end Sys2Proof.Proofs
end

section
/-!
Mailboxes and the interrupt controller (chapter 14).
-/
namespace Sys2Proof.Proofs
open Sys2Proof Sys2Proof.Machine Sys2Proof.Laws

/-! ## Mailboxes (R647 to R655) -/

theorem boxAt_modBox {b : Nat} {f : Box → Box} {s : State} (h : f (boxAt s b) ≠ {}) : boxAt (modBox b f s) b = f (boxAt s b) := by
  simp only [boxAt, modBox, tmod] at h ⊢
  exact tget_tset_eq _ _ _ _ h

theorem boxAt_modBox_ne {b c : Nat} (f : Box → Box) (s : State) (h : c ≠ b) : boxAt (modBox b f s) c = boxAt s c := by
  simp only [boxAt, modBox, tmod]
  exact tget_tset_ne _ _ _ _ _ _ h

/-- What a reply leaves in its mailbox (R650). -/
def replied (s : State) (b code : Nat) (ws : List Nat) (x : Box) : Box :=
  let h := boxWord s b 0
  { x with
    reply := ((ws.length * 2 ^ 28 + field h 16 8 * 2 ^ 16 + cmdCode h) :: ws ++ List.replicate (7 - ws.length) 0).map w32
    state := .done, valid := true, replyLen := ws.length, token := field h 16 8, ret := code % 65536 }

/-- A notice leaves every mailbox alone. -/
@[simp] theorem boxAt_notice (q code detail b : Nat) (s : State) : boxAt (notice q code detail s) b = boxAt s b := by
  have h : (notice q code detail s).mbx = s.mbx :=
    (notice_foot (List.Subset.refl [Area.ic]) q code detail (Foot.refl _ s)).mbx.resolve_left (by decide)
  rw [boxAt, h, ← boxAt]

theorem boxAt_replyBox (b code : Nat) (ws : List Nat) (s : State) :
    boxAt (replyBox b code ws s) b = replied s b code ws (boxAt s b) := by
  rw [replyBox, boxAt_notice]
  exact boxAt_modBox (fun e => BoxState.noConfusion (congrArg Box.state e))

theorem boxAt_replyBox_ne {b c : Nat} (code : Nat) (ws : List Nat) (s : State) (h : c ≠ b) :
    boxAt (replyBox b code ws s) c = boxAt s c := by
  rw [replyBox, boxAt_notice]
  exact boxAt_modBox_ne _ s h

/-- Word 1 + i of a reply is word i of what it answers. -/
theorem replied_word {ws : List Nat} {i : Nat} (s : State) (b code : Nat) (x : Box) (h : i < ws.length) :
    (replied s b code ws x).reply.getD (i + 1) 0 = w32 (ws.getD i 0) := by
  simp [replied, List.getD, List.getElem?_append_left, h]

section
variable {s : State} {b : Nat} {v : W32}

/-- A mailbox that can be reached, and no block reset in the way of a VAI's. -/
theorem not_boxShut (h : 256 ≤ b ∨ resetWindow s = false) : ¬ (b < 256 ∧ resetWindow s = true) := by
  rintro ⟨hlt, hwin⟩
  rcases h with h | h
  · omega
  · rw [h] at hwin; cases hwin

theorem exec_mbPost_open (hl : Live s) (hopen : boxOpen s b = true) (hb : b < 258) (hv : bit v.toNat 0 = true)
    (hwin : 256 ≤ b ∨ resetWindow s = false) : exec (.mbPost b v) s = .next (
      if (boxAt s b).state = .idle then arrive (boxSource b) (modBox b (fun x => { x with state := .posted }) s)
      else modBox b (fun x => { x with discards := sat 8 (x.discards + 1) }) s) :=
  (run_guarded _ hl (by simp [hopen, hb, hv])).trans (congrArg _ (if_neg (not_boxShut hwin)))

theorem exec_mbAckRelease_open (hl : Live s) (hopen : boxOpen s b = true) (hb : b < 258) (hv : bit v.toNat 31 = true)
    (hwin : 256 ≤ b ∨ resetWindow s = false) : exec (.mbAckRelease b v) s = .next (
      if (boxAt s b).state = .done then modBox b (fun x => { x with state := .idle, valid := false }) s else s) :=
  (run_guarded _ hl (by simp [hopen, hb, hv])).trans (congrArg _ (if_neg (not_boxShut hwin)))

/-- The processor has copied the words of a posted mailbox. -/
def tookBox (s : State) (b : Nat) : State :=
  handled (boxProc b) (boxSource b) (modBox b (fun x => { x with state := .taken, taken := x.words }) s)

theorem handled_ic (p n : Nat) : Foot [.ic] s (handled p n s) := handled_foot (List.Subset.refl _) p n (Foot.refl _ s)

theorem taken_tookBox : (boxAt (tookBox s b) b).taken = (boxAt s b).words := by
  have hmbx := (handled_ic (s := modBox b (fun x => { x with state := .taken, taken := x.words }) s) (boxProc b)
    (boxSource b)).mbx.resolve_left (by decide)
  rw [tookBox, boxAt, hmbx, ← boxAt, boxAt_modBox (fun e => BoxState.noConfusion (congrArg Box.state e))]

theorem answeredNow_tookBox (code : Nat) : answeredNow (tookBox s b) b code = answeredNow s b code := by
  have hfoot := handled_ic (s := modBox b (fun x => { x with state := .taken, taken := x.words }) s) (boxProc b) (boxSource b)
  have hblk : (tookBox s b).blk = s.blk := hfoot.blk.resolve_left (by decide)
  have hfe : (tookBox s b).fe = s.fe := hfoot.fe.resolve_left (by decide)
  rw [answeredNow, answeredNow, vaiAt, vaiAt, hblk, hfe]

/-- Taking a posted command: what must be answered at once is answered, and otherwise the command runs as a step of its own. -/
theorem exec_mailboxTake_posted (hl : Live s) (hposted : (boxAt s b).state = .posted) (htakes : takesNow s b = true) :
    exec (.mailboxTake b) s = .next (
      match answeredNow s b (cmdCode (((boxAt s b).words.getD 0 0).toNat)) with
      | some k => replyBox b k [] (tookBox s b)
      | none => match malformed b (boxAt s b).words with
        | some k => replyBox b k [] (tookBox s b)
        | none => tookBox s b) := by
  refine (run_guarded _ hl (by simp [hposted, htakes])).trans ?_
  have htaken : (boxAt (handled (boxProc b) (boxSource b) (modBox b (fun x => { x with state := .taken, taken := x.words }) s)) b).taken =
      (boxAt s b).words := taken_tookBox
  dsimp only
  rw [htaken, ← tookBox, answeredNow_tookBox] <;> rfl
end

theorem malformed_unknown {b : Nat} {l : List W32} (h : shapeOf b (cmdCode ((l.getD 0 0).toNat)) = none) : malformed b l = some 0x0100 := by
  simp only [malformed, h]

theorem malformed_length {b : Nat} {l : List W32} {c : CmdShape} (h : shapeOf b (cmdCode ((l.getD 0 0).toNat)) = some c)
    (hrsvd : field (l.getD 0 0).toNat 24 4 = 0) (hlen : cmdLen (l.getD 0 0).toNat ≠ c.masks.length) : malformed b l = some 0x0101 := by
  simp only [malformed, h, hrsvd, ne_eq, not_true_eq_false, if_false]
  rw [if_pos hlen]

theorem exec_heartbeat_due {s : State} {p : Nat} (hl : Live s) (hrun : (procAt s p).pstate = 1) (hbeat : beat s % 64 = 0)
    (honce : s.pm.done.contains (32 + p) = false) : exec (.heartbeat p) s =
      .next (modProc p (fun x => { x with heart := (x.heart + 1) % 2 ^ 28 }) { s with
        pm := { s.pm with done := sinsert (32 + p) s.pm.done } }) := by
  refine (run_guarded _ hl (by simp [hrun])).trans ?_
  rw [oncePerBeat, honce, hbeat]
  rfl

/-- Settles O41: what a reply leaves is `replied`, and each register write and step of a processor is its equation above. -/
theorem mailboxes : Obligations.Mailboxes := by
  refine ⟨fun s b code ws hws => ?reply, fun s b v hl hopen hb hv hwin => exec_mbPost_open hl hopen hb hv hwin,
    fun s b hl hposted htakes => ?take, fun b l h => malformed_unknown h, fun b l c h hrsvd hlen => malformed_length h hrsvd hlen,
    fun s b v hl hopen hb hv hwin hdone => ?_, fun s b v hl hopen hb hv hwin hdone => ?_,
    fun s p hl hrun hbeat honce => exec_heartbeat_due hl hrun hbeat honce⟩
  case reply =>
    intro t
    rw [boxAt_replyBox]
    exact ⟨rfl, rfl, rfl, rfl, rfl, rfl, fun i hi => replied_word s b code _ hi, fun c hc => boxAt_replyBox_ne code ws s hc,
      (replyBox_foot (List.Subset.refl _) b code ws (Foot.refl _ s)).frame⟩
  case take =>
    intro l u
    rw [exec_mailboxTake_posted hl hposted htakes]
    refine ⟨fun k hk => by rw [hk]; rfl, fun hnone => ⟨fun k hk => by rw [hnone, hk]; rfl, fun hk => by rw [hnone, hk]; rfl⟩⟩
  · rw [exec_mbAckRelease_open hl hopen hb hv hwin, if_pos hdone]
  · rw [exec_mbAckRelease_open hl hopen hb hv hwin, if_neg hdone]

/-! ## Selection and records (R624 to R637) -/

theorem selectSource_least {s : State} {t n : Nat} (h : selectSource s t = some n) : selectable s t n = true ∧
    ∀ m, m ∈ pendingSources s → selectable s t m = true → (srcAt s n).level * 2048 + n ≤ (srcAt s m).level * 2048 + m := by
  obtain ⟨hmem, hleast⟩ := minBy_least h
  exact ⟨(List.mem_filter.1 hmem).2, fun m hm hsel => hleast m (List.mem_filter.2 ⟨hm, hsel⟩)⟩

theorem level_of_selectable {s : State} {t n : Nat} (h : selectable s t n = true) : (srcAt s n).level ≠ 0xFF := by
  simp only [selectable, Bool.and_eq_true, bne_iff_ne] at h
  obtain ⟨⟨⟨⟨-, hlevel⟩, -⟩, -⟩, -⟩ := h
  exact hlevel

/-- In a table in canonical form a pair is what its number reads as. -/
theorem tget_of_mem {α : Type} [DecidableEq α] {d : α} {t : Tbl α} {q : Nat × α} (hwf : twf d t = true) (h : q ∈ t) : tget d t q.1 = q.2 := by
  induction t with
  | nil => exact absurd h List.not_mem_nil
  | cons p r ih =>
    obtain ⟨-, hbelow, hr⟩ := (twf_cons d p r).1 hwf
    rcases List.mem_cons.1 h with rfl | h
    · exact if_pos rfl
    · exact (if_neg (Nat.ne_of_lt (hbelow q h))).trans (ih hr h)

/-- A number that does not read as an unlisted one is listed with what it reads as. -/
theorem mem_of_tget_ne {α : Type} {d : α} {t : Tbl α} {i : Nat} (h : tget d t i ≠ d) : (i, tget d t i) ∈ t := by
  induction t with
  | nil => exact absurd rfl h
  | cons p r ih =>
    obtain ⟨k, w⟩ := p
    by_cases hk : k = i
    · subst hk
      simp [tget]
    · rw [tget, if_neg hk] at h ⊢
      exact List.mem_cons_of_mem _ (ih h)

theorem mem_pendingSources {s : State} {n : Nat} (hwf : twf {} s.ic.src = true) : n ∈ pendingSources s ↔ 0 < (srcAt s n).count := by
  simp only [pendingSources, List.mem_map, List.mem_filter, decide_eq_true_eq]
  constructor
  · rintro ⟨q, ⟨hq, hcount⟩, rfl⟩
    rw [srcAt, tget_of_mem hwf hq]
    exact Nat.pos_of_ne_zero hcount
  · intro hcount
    have hne : tget ({} : Src) s.ic.src n ≠ {} := fun e => absurd (congrArg Src.count e) (Nat.pos_iff_ne_zero.1 hcount)
    exact ⟨_, ⟨mem_of_tget_ne hne, Nat.pos_iff_ne_zero.1 hcount⟩, rfl⟩

/-- A message whose vector is not masked leaves. -/
theorem sendMsix_unmasked {s : State} {v : Nat} (h : bit (regGet s (0xE80000 + 0x10 * v + 12)) 0 = false) : sendMsix v s =
    emit (.msix v (regGet s (0xE80000 + 0x10 * v) + 2 ^ 32 * regGet s (0xE80000 + 0x10 * v + 4)) (w32 (regGet s (0xE80000 + 0x10 * v + 8)))) s :=
  if_neg (by rw [h]; decide)

/-- A record written to the manager queue, when that was empty, is followed by the message of its vector. -/
theorem writeRecord_empty {s : State} (n : Nat) (h : evHead s 0 = evTail s 0) : ∃ u, writeRecord 0 n s = sendMsix 0 u ∧ u.regs = s.regs := by
  refine ⟨_, if_pos (beq_iff_eq.2 h), ?_⟩
  have hhold := (holdOff_foot (List.Subset.refl [Area.ic]) n (takeArrivals_foot (List.Subset.refl _) 0 n (Foot.refl _ s))).regs
  refine Eq.trans ?_ (hhold.resolve_left (by decide))
  exact (hostWriteM_foot (List.Subset.refl [Area.ports]) _ _ (Foot.refl _ _)).regs.resolve_left (by decide)

theorem regGet_of_regs {s t : State} (h : t.regs = s.regs) (o : Nat) : regGet t o = regGet s o := by rw [regGet, regGet, h]

theorem writeRecord_empty_message {s : State} (n : Nat) (h : evHead s 0 = evTail s 0) (hmask : bit (regGet s (0xE80000 + 12)) 0 = false) :
    (writeRecord 0 n s).ports.out.getLast? =
      some (.msix 0 (regGet s 0xE80000 + 2 ^ 32 * regGet s (0xE80000 + 4)) (w32 (regGet s (0xE80000 + 8)))) := by
  obtain ⟨u, hu, hregs⟩ := writeRecord_empty n h
  rw [hu, sendMsix_unmasked (by rw [regGet_of_regs hregs]; exact hmask), emit_ports, List.getLast?_concat]
  simp only [regGet_of_regs hregs, Nat.mul_zero, Nat.add_zero]

section
variable {s : State} {t n : Nat}

theorem exec_eventRecordWrite_host (hl : Live s) (hsel : selectSource s t = some n) (ht : t < 257) :
    exec (.eventRecordWrite t) s = .next (if evFull s t then s else writeRecord t n s) := by
  show execEventRecordWrite t s = _
  rw [execEventRecordWrite, run_live _ hl, hsel]
  exact congrArg _ (if_pos ht)

theorem exec_eventRecordWrite_proc (hl : Live s) (hsel : selectSource s t = some n) (ht : 257 ≤ t) :
    exec (.eventRecordWrite t) s = .next (writeProc (t - 257) n s) := by
  show execEventRecordWrite t s = _
  rw [execEventRecordWrite, run_live _ hl, hsel]
  exact congrArg _ (if_neg (Nat.not_lt.2 ht))

/-- A step on the registers of a source of a host queue. -/
theorem run_hostSource (f : State → State) (hl : Live s) (hon : icOn s = true) (hn : hostSource s n = true) :
    run s (guarded (icOn s && hostSource s n) f) = .next (f s) :=
  run_guarded f hl (by rw [hon, hn]; rfl)

theorem exec_icSync_on (r : Nat) (hl : Live s) (hready : s.blk.ireqReady = true) (hon : icOn s = true) :
    exec (.icSync r) s = .next (emit (.regRead r (w32 s.ic.written)) s) := by
  refine (run_guarded _ hl hready).trans ?_
  rw [if_pos hon]

/-- A write of HEAD that reaches its queue: one beyond TAIL is reported, any other frees room (R636). -/
theorem exec_eventQueueHeadWrite_open {v : W32} (hl : Live s) (ht : t < 257) (hopen : headOpen s t = true)
    (hwin : t = 0 ∨ resetWindow s = false) : exec (.eventQueueHeadWrite t v) s = .next (
      if (evTail s t + 2 ^ 32 - evHead s t) % 2 ^ 32 < (v.toNat + 2 ^ 32 - evHead s t) % 2 ^ 32 then reportCe 0 0 0x05 0 s
      else if v.toNat = evTail s t then regSet (evHeadReg t) v.toNat s else sendMsix t (regSet (evHeadReg t) v.toNat s)) := by
  have hshut : ¬ (t ≠ 0 ∧ resetWindow s = true) := by
    rintro ⟨h0, hw⟩
    rcases hwin with h | h
    · exact h0 h
    · rw [h] at hw; cases hw
  exact (run_guarded _ hl (by simp [ht, hopen])).trans (congrArg _ (if_neg hshut))

theorem exec_msixVectorUnmask_on {v : Nat} {x : W32} (hl : Live s) (hon : icOn s = true) (hv : v < 257) (hx : bit x.toNat 0 = false) :
    let u := regSet (0xE80000 + 0x10 * v + 12) 0 s
    exec (.msixVectorUnmask v x) s = .next (
      if s.ic.pba.contains v then sendMsix v { u with ic := { u.ic with pba := sremove v s.ic.pba } } else u) :=
  run_guarded _ hl (by simp [hon, hv, hx])
end

theorem reportCe_regs (kind index type detail : Nat) (s : State) : (reportCe kind index type detail s).regs = s.regs :=
  (reportCe_foot (List.Subset.refl [Area.ic, Area.err]) kind index type detail (Foot.refl _ s)).regs.resolve_left (by decide)

/-- Settles O42: selection is the least of the selectable pending sources; each register and step is its equation above. -/
theorem interruptController : Obligations.InterruptController := by
  refine ⟨fun s t n hl hsel ht hfull => ?_, fun s t n hl hsel ht hfull => ?_, fun s t n hl hsel ht => exec_eventRecordWrite_proc hl hsel ht,
    fun s n => (srcAt_arrive n s).trans (Nat.min_comm _ _), fun s n hwf => mem_pendingSources hwf,
    fun s t n hsel => level_of_selectable (selectSource_least hsel).1, fun s t n hsel => selectSource_least hsel,
    fun s n _ hempty hmask => writeRecord_empty_message n hempty hmask,
    fun s g hl => run_live (fun s => { s with ic := { s.ic with held := sremove g s.ic.held } }) hl,
    fun s n hl hon hn => run_hostSource _ hl hon hn, fun s n hl hon hn => run_hostSource _ hl hon hn,
    fun s r hl hready hon => exec_icSync_on r hl hready hon, fun s n v hl hon hn => run_hostSource _ hl hon hn,
    fun s t v hl ht hopen hwin hle => ?_, fun s t v hl ht hopen hwin hlog hlt => ?_,
    fun s v x hl hon hv hx => exec_msixVectorUnmask_on hl hon hv hx⟩
  · rw [exec_eventRecordWrite_host hl hsel ht, hfull, if_neg Bool.false_ne_true]
  · rw [exec_eventRecordWrite_host hl hsel ht, hfull, if_pos rfl]
  · rw [exec_eventQueueHeadWrite_open hl ht hopen hwin, if_neg (Nat.not_lt.2 hle)]
  · refine ⟨_, exec_eventQueueHeadWrite_open hl ht hopen hwin, ?_⟩
    rw [if_pos hlt]
    exact ⟨report_logged 0 0 0x05 0 false 0 s hlog (by decide), reportCe_regs 0 0 0x05 0 s⟩

end Sys2Proof.Proofs
end

section
/-!
Firmware update in service (R672 to R675).
-/
namespace Sys2Proof.Proofs
open Sys2Proof Sys2Proof.Machine Sys2Proof.Laws

/-- A command that the block does not take yet answers, and no processor changes. -/
theorem proc_replyFor (b code : Nat) (st : Status) (s : State) : (replyFor b code st s).mbx.proc = s.mbx.proc := by
  have hnotice : ∀ q k d u, (notice q k d u).mbx = u.mbx := fun q k d u =>
    (notice_foot (List.Subset.refl [Area.ic]) q k d (Foot.refl _ u)).mbx.resolve_left (by decide)
  unfold replyFor
  split
  · rw [replySt, replyBox, hnotice]
    rfl
  · rfl

theorem fw_replyFor (b code : Nat) (st : Status) (s : State) : (replyFor b code st s).fw = s.fw :=
  (replyFor_foot (List.Subset.refl _) b code st (Foot.refl _ s)).fw.resolve_left (by decide)

section
variable {s : State}

/-- A firmware-update command that the manager mailbox holds runs while the block is in service. -/
theorem run_onFwBox {code : Nat} (f : State → State) (h : Taken s 256 code) : run s (onFwBox code f) = .next (f s) := by
  obtain ⟨⟨hlive, hplane⟩, herr, hbox⟩ := h
  exact run_guarded _ hlive (by rw [hbox, hplane, herr]; rfl)

/-- FW_STAGE with operands and an image in the form that R673 asks for. -/
theorem exec_fwStage_wellFormed {h : HostData} (hbox : Taken s 256 0x0300) (hk : field (boxWord s 256 1) 0 10 < 960)
    (ha : boxPair s 256 2 % 4096 = 0) (hn : boxWord s 256 4 ≤ chunkSize) (hhdr : headerOk (padTo h.bytes (boxWord s 256 4)) = true)
    (hlen : boxWord s 256 4 = 512 + imageLen (padTo h.bytes (boxWord s 256 4))) :
    let k := field (boxWord s 256 1) 0 10
    let img := padTo h.bytes (boxWord s 256 4)
    exec (.fwStage h) s = .next (if stageDenied s img h.poison k then replyBox 256 Status.denied.code [] s
      else if s.fw.upd ≠ 0 ∨ tget .free s.fe.ftOwn k ≠ .free then replyBox 256 Status.busy.code [] s
      else let u := writeMem (k * chunkSize) img (fun _ => false) s
        replyBox 256 0 [] { u with fw := { u.fw with upd := 2, chunk := k, staged := img, newOn := 0 } }) := by
  have hform : ¬ (960 ≤ field (boxWord s 256 1) 0 10 ∨ boxPair s 256 2 % 4096 ≠ 0 ∨ chunkSize < boxWord s 256 4 ∨
      headerOk (padTo h.bytes (boxWord s 256 4)) = false ∨ boxWord s 256 4 ≠ 512 + imageLen (padTo h.bytes (boxWord s 256 4))) := by
    rintro (h | h | h | h | h)
    · omega
    · exact h ha
    · omega
    · rw [hhdr] at h; cases h
    · exact h hlen
  exact (run_onFwBox _ hbox).trans (congrArg _ (if_neg hform))

theorem exec_fwHandover_waits (hbox : Taken s 256 0x0301) (hhand : s.fw.hand = none) (hpending : s.err.bPending = none)
    (hstate : s.err.state ≠ 1) (hupd : s.fw.upd ≠ 0) (hnew : bit s.fw.newOn (field (boxWord s 256 1) 0 2) = false)
    (hreconf : s.fe.reconf = none) (hscrub : s.fe.scrubbing = []) :
    exec .fwHandover s = .next { s with fw := { s.fw with hand := some (field (boxWord s 256 1) 0 2, 0) } } := by
  obtain ⟨⟨hlive, hplane⟩, herr, hruns⟩ := hbox
  show execFwHandover s = _
  rw [execFwHandover, run_live _ hlive, onFwBox]
  simp [hhand, hpending, hstate, hruns, hplane, herr, hupd, hnew, hreconf, hscrub]

theorem exec_fwHandover_busy (hl : Live s) (hruns : boxRuns s 256 0x0301 = true) (hhand : s.fw.hand = none)
    (hreset : s.err.bPending.isSome = true ∨ s.err.state = 1) :
    exec .fwHandover s = .next (replyBox 256 Status.busy.code [] s) := by
  show execFwHandover s = _
  rw [execFwHandover, run_live _ hl, if_pos]
  · rfl
  · simpa [hruns, hhand] using hreset

theorem exec_handoverStart_loads {k : Nat} (hl : Live s) (hhand : s.fw.hand = some (k, 1)) :
    exec .handoverStart s = .next (bankArrive k (modProc k (fun x => { x with pstate := 2 })
      { s with fw := { s.fw with hand := some (k, 2), upd := 3 } })) := by
  show execHandoverStart s = _
  rw [execHandoverStart, run_live _ hl, hhand]
  rfl

/-- What the end of a handover leaves in the firmware and the steward (R674, R675). -/
theorem endHandover_leaves (k : Nat) (ok : Bool) (s : State) : (endHandover k ok s).fw.hand = none ∧
    (endHandover k ok s).fw.newOn = (if ok then s.fw.newOn ||| 2 ^ k else s.fw.newOn) ∧ (procAt (endHandover k ok s) k).pstate = 1 ∧
    (endHandover k ok s).fw.upd = 2 := by
  have hnotice : ∀ q c d u, Foot [.ic] u (notice q c d u) := fun q c d u => notice_foot (List.Subset.refl _) q c d (Foot.refl _ u)
  have hfw : (endHandover k ok s).fw = { s.fw with hand := none, upd := 2, newOn := if ok then s.fw.newOn ||| 2 ^ k else s.fw.newOn } :=
    (fw_replyFor _ _ _ _).trans ((hnotice _ _ _ _).fw.resolve_left (by decide))
  have hproc : (procAt (endHandover k ok s) k).pstate = 1 := by
    rw [procAt, endHandover, proc_replyFor, (hnotice _ _ _ _).mbx.resolve_left (by decide)]
    refine congrArg Proc.pstate (procAt_modProc (f := fun x => { x with pstate := 1 }) (s := s) fun e => ?_)
    exact absurd (congrArg Proc.pstate e) (by decide : (1 : Nat) ≠ 0)
  rw [hfw]
  exact ⟨rfl, rfl, hproc, rfl⟩

theorem exec_handoverComplete_ends {k : Nat} (hl : Live s) (hhand : s.fw.hand = some (k, 2)) :
    exec .handoverComplete s = .next (endHandover k true s) := by
  show execHandoverComplete s = _
  rw [execHandoverComplete, run_live _ hl, hhand]
  rfl

theorem exec_handoverTimeout_ends {k : Nat} (hl : Live s) (hhand : s.fw.hand = some (k, 2)) :
    exec .handoverTimeout s = .next (endHandover k false s) := by
  show execHandoverTimeout s = _
  rw [execHandoverTimeout, run_live _ hl, hhand]
  rfl

theorem exec_fwCommit_idle (hbox : Taken s 256 0x0302) (hwriting : s.fw.writing = none) : exec .fwCommit s = .next (
    if s.fw.newOn ≠ 0xF then replyBox 256 Status.denied.code [] s else { s with fw := { s.fw with writing := some 1, upd := 4 } }) :=
  (run_onFwBox _ hbox).trans (congrArg _ (if_neg (by rw [hwriting]; decide)))

/-- The end of the write of FW_COMMIT: the staged image is that of the flash and of every steward (R675). -/
theorem exec_flashWriteDone_commits (hs : Serving s) (herr : (s.err.state != 2) = true) (hwriting : s.fw.writing = some 1) :
    exec .flashWriteDone s = .next (replyFor 256 0x0302 .done { flashImage s.fw.staged s with
      fw := { (flashImage s.fw.staged s).fw with running := s.fw.staged, staged := [], upd := 0, newOn := 0 } }) := by
  show execFlashWriteDone s = _
  rw [execFlashWriteDone, run_live _ hs.1, hwriting]
  exact congrArg _ (if_pos (by rw [hs.2, herr]; rfl))

theorem exec_fwAbort_taken (hbox : Taken s 256 0x0303) : exec .fwAbort s = .next (
    if s.fw.newOn ≠ 0 then replyBox 256 Status.denied.code [] s
    else replyBox 256 0 [] { s with fw := { s.fw with upd := 0, staged := [] } }) :=
  run_onFwBox _ hbox
end

/-- Settles O44, each command by its equation above. -/
theorem firmwareUpdate : Obligations.FirmwareUpdate := by
  refine ⟨fun s h hbox hk ha hn hhdr hlen hok hupd hfree => ?_, fun s h hbox hk ha hn hhdr hlen hdenied => ?_,
    fun s hbox hhand hpending hstate hupd hnew hreconf hscrub =>
      exec_fwHandover_waits hbox hhand hpending hstate hupd hnew hreconf hscrub,
    fun s hl hruns hhand hreset => exec_fwHandover_busy hl hruns hhand hreset, fun s k hl hhand => exec_handoverStart_loads hl hhand,
    fun s k hl hhand => ⟨_, exec_handoverComplete_ends hl hhand, endHandover_leaves k true s⟩,
    fun s k hl hhand => ⟨_, exec_handoverTimeout_ends hl hhand, endHandover_leaves k false s⟩,
    fun s hbox hwriting hnew => ?_, fun s hbox hwriting hnew => ?_, fun s hs herr hwriting => ?_, fun s hbox hnew => ?_,
    fun s hbox hnew => ?_⟩
  · rw [exec_fwStage_wellFormed hbox hk ha hn hhdr hlen, if_neg (by rw [hok]; decide), if_neg (by simp [hupd, hfree])]
  · rw [exec_fwStage_wellFormed hbox hk ha hn hhdr hlen, if_pos hdenied]
  · rw [exec_fwCommit_idle hbox hwriting, if_neg (not_not.2 hnew)]
  · rw [exec_fwCommit_idle hbox hwriting, if_pos hnew]
  · refine ⟨_, exec_flashWriteDone_commits hs herr hwriting, ?_⟩
    rw [fw_replyFor]
    exact ⟨rfl, rfl, rfl, rfl, rfl⟩
  · rw [exec_fwAbort_taken hbox, if_neg (not_not.2 hnew)]
  · rw [exec_fwAbort_taken hbox, if_pos hnew]

end Sys2Proof.Proofs
end

section
/-!
In-service repair (R676 to R680): reserve arrays, sectors offline and online, self-tests.
-/
namespace Sys2Proof.Proofs
open Sys2Proof Sys2Proof.Machine Sys2Proof.Laws

section
variable {s : State}

/-- ARRAY_SWAP of the manager, of an array that is backed and that no swap of the manager's own waits for. -/
theorem exec_arraySwap_asked {p : Nat} (hbox : Taken s 256 0x0310) (hp : physOf s (field (boxWord s 256 1) 0 10) = some p)
    (hnone : s.arr.swaps.any (fun x => x.l == field (boxWord s 256 1) 0 10 && !x.own) = false) :
    let l := field (boxWord s 256 1) 0 10
    let n := sectorOfArray l
    exec (.arraySwap none) s = .next (if (reserveOf s n).isNone ∧ ¬ swapping s n then replyBox 256 Status.denied.code [] s
      else if sectorOn s n = false ∨ swapping s n = true then replyBox 256 Status.busy.code [] s
      else beginSwap l p false s) := by
  refine (run_onBox _ hbox).trans ?_
  dsimp only
  rw [hp]
  dsimp only
  rw [hnone, if_neg Bool.false_ne_true]
  rfl

theorem exec_arraySwap_own {l p : Nat} (hs : Serving s) (hp : physOf s l = some p) (hce : 16 < (physAt s p).ce) (hrole : (physAt s p).role = 2)
    (hon : sectorOn s (sectorOfArray l) = true) (hswap : swapping s (sectorOfArray l) = false) :
    exec (.arraySwap (some l)) s = .next (beginSwap l p true s) := by
  refine (run_guarded _ hs.1 hs.2).trans ?_
  rw [hp]
  exact congrArg _ (if_neg (by simp [Nat.not_le.2 hce, hrole, hon, hswap]))

/-- The last sector that its partition has in service stays. -/
theorem exec_sectorOffline_last (hbox : Taken s 256 0x0311) (hn : field (boxWord s 256 1) 0 4 < 12)
    (hstate : (sectorAt s (field (boxWord s 256 1) 0 4)).state ≠ 1) (hon : sectorOn s (field (boxWord s 256 1) 0 4) = true)
    (hlast : ((sectorsOf s (partOfSector s (field (boxWord s 256 1) 0 4))).filter (sectorOn s)).length ≤ 1) :
    exec .sectorOffline s = .next (replyBox 256 Status.denied.code [] s) := by
  refine (run_onBox _ hbox).trans ?_
  dsimp only
  rw [if_neg (Nat.not_le.2 hn), if_neg hstate, if_pos ⟨hon, hlast⟩]
  rfl

/-- The array behind a logical number gives its entries back and is asked to save its task (R679). -/
def emptyArray (l : Nat) (s : State) : State :=
  match physOf s l with
  | some p => requestPre p false (returnEntries l p s)
  | none => s

/-- SECTOR_OFFLINE begins: the sector's LCEs and arrays take nothing more, and its tasks leave it. `f` empties an array. -/
theorem exec_sectorOffline_begins {f : Nat → State → State} (hf : ∀ l u, f l u = emptyArray l u) (hbox : Taken s 256 0x0311)
    (hn : field (boxWord s 256 1) 0 4 < 12) (hon : sectorOn s (field (boxWord s 256 1) 0 4) = true)
    (hstate : (sectorAt s (field (boxWord s 256 1) 0 4)).state ≠ 1)
    (hmore : 1 < ((sectorsOf s (partOfSector s (field (boxWord s 256 1) 0 4))).filter (sectorOn s)).length)
    (hreconf : s.fe.reconf = none) (hscrub : s.fe.scrubbing = []) (hswap : swapping s (field (boxWord s 256 1) 0 4) = false) :
    let n := field (boxWord s 256 1) 0 4
    exec .sectorOffline s = .next (
      let u := each (List.range 4) (fun i s => refuseQueued (4 * n + i) (modLce (4 * n + i) (fun x => { x with state := 3 }) s))
        (modSector n (fun x => { x with state := 1 }) s)
      let w := each ((List.range 72).map (fun i => 72 * n + i)) f u
      sectorStep n (each w.fe.tasks (leaveSector n) w)) := by
  have hleaves : ∀ {n : Nat} {g : Nat → State → State} {l : List Nat} {u : State}, (∀ l u, g l u = emptyArray l u) →
      sectorStep n (each (each l g u).fe.tasks (leaveSector n) (each l g u)) =
        sectorStep n (each (each l f u).fe.tasks (leaveSector n) (each l f u)) := by
    intro n g l u hg
    rw [show g = f from funext fun l => funext fun u => (hg l u).trans (hf l u).symm]
  refine (run_onBox _ hbox).trans ?_
  dsimp only
  rw [if_neg (Nat.not_le.2 hn), if_neg hstate, if_neg (fun h => absurd h.2 (Nat.not_le.2 hmore)),
    if_neg (by simp [hreconf, hscrub, hswap]), if_neg (by simp [hon])]
  generalize List.map _ (List.range 72) = l
  generalize each (List.range 4) _ _ = u
  exact congrArg Host.Outcome.next (hleaves fun _ _ => rfl)

theorem exec_sectorOnline_tests (hbox : Taken s 256 0x0312) (hn : field (boxWord s 256 1) 0 4 < 12)
    (hstate : (sectorAt s (field (boxWord s 256 1) 0 4)).state = 2) :
    let n := field (boxWord s 256 1) 0 4
    let l := (physOfSector n).filter (fun p => (physAt s p).role == 6)
    exec .sectorOnline s = .next (sectorTested n (modSector n (fun _ => { state := 3, tests := l, bad := [] })
      (each l (fun p s => modArr p (fun x => { x with gated := false }) (modPhys p (fun x => { x with testing := true }) s))
        { s with pm := { s.pm with sector := tset 0 s.pm.sector n 0 } }))) := by
  refine (run_onBox _ hbox).trans ?_
  dsimp only
  rw [if_neg (Nat.not_le.2 hn), hstate]
  rfl

/-- A sector with a test that has not ended goes on waiting. -/
theorem sectorTested_waits {n : Nat} (h : (sectorAt s n).tests ≠ []) : sectorTested n s = s :=
  if_neg (fun e => h e.2)

/-- A self-test ends in a block in service: what its array's swap, or else its sector, does with the result. -/
theorem exec_arraySelfTestDone_serving {p : Nat} (b : Bool) (hs : Serving s) (herr : (s.err.state != 2) = true)
    (htest : (physAt s p).testing = true) : exec (.arraySelfTestDone p b) s = .next (
      let u := modPhys p (fun x => { x with testing := false }) s
      match s.arr.swaps.find? (fun x => x.new == some p) with
      | some x => if b then drainOld x u else beginSwap x.l x.old x.own (modPhys p (fun y => { y with role := 5 }) u)
      | none => sectorTested (sectorOfPhys p) (modSector (sectorOfPhys p) (fun x => { x with
          tests := x.tests.erase p, bad := if b then x.bad else x.bad ++ [p] }) u)) :=
  run_guarded _ hs.1 (by rw [htest, hs.2, herr]; rfl)
end

/-- Settles O45, each command and step by its equation above. -/
theorem repair : Obligations.Repair := by
  refine ⟨fun s p hbox hp hnone hreserve hon hswap => ?_, fun s p hbox hp hnone hreserve hswap => ?_,
    fun s l p hs hp hce hrole hon hswap => exec_arraySwap_own hs hp hce hrole hon hswap,
    fun s hbox hn hon hstate hmore hreconf hscrub hswap => ?_, fun s hbox hn hstate hon hlast => exec_sectorOffline_last hbox hn hstate hon hlast,
    fun s hbox hn hstate => ?_, fun s n _ htests => sectorTested_waits htests,
    fun s p b hs herr htest hnone => ?_, fun s p x hs herr htest hfind => ?_⟩
  · rw [exec_arraySwap_asked hbox hp hnone, if_neg (by simp [hreserve]), if_neg (by simp [hon, hswap])]
  · rw [exec_arraySwap_asked hbox hp hnone, if_pos (by simp [hreserve, hswap])]
  · exact exec_sectorOffline_begins (fun _ _ => rfl) hbox hn hon hstate hmore hreconf hscrub hswap
  · exact exec_sectorOnline_tests hbox hn hstate
  · have hfind : s.arr.swaps.find? (fun x => x.new == some p) = none := by simpa [List.find?_eq_none] using hnone
    rw [exec_arraySelfTestDone_serving b hs herr htest, hfind]
  · rw [exec_arraySelfTestDone_serving true hs herr htest, hfind]
    exact congrArg _ (if_pos rfl)

end Sys2Proof.Proofs
end

section

/-! ## Queue resets (O48) -/

namespace Sys2Proof.Proofs
open Sys2Proof Sys2Proof.Machine Sys2Proof.Laws

/-- A queue of a VAI that no transaction and no pause holds comes out of its reset stopped. -/
theorem stoppedQueue_stopped {s : State} {x : Queue} (h2 : (vaiAt s x.vai).state ≠ 2) (h3 : (vaiAt s x.vai).state ≠ 3) :
    (stoppedQueue s x).state = .stopped := by
  unfold stoppedQueue
  dsimp only
  rw [if_neg (not_or.2 ⟨h2, h3⟩)]

/-- Settles O48, by the guard of each command and the state of the guilty queue. -/
theorem queueResets : Obligations.QueueResets := by
  unfold Obligations.QueueResets
  refine ⟨?_, ?_, ?_, fun s x h2 h3 => stoppedQueue_stopped h2 h3⟩
  · intro s q g hs hg hready
    refine (run_computing _ hs).trans ?_
    dsimp only
    rw [hg, hready, if_pos ⟨rfl, by decide, by decide, by decide⟩]
    rfl
  · intro s q hs hg
    refine (run_computing _ hs).trans ?_
    dsimp only
    rw [hg, if_neg (fun h => Bool.false_ne_true h.1)]
  · intro s q g hs hst hg
    refine (run_guarded _ hs.1 (by rw [hs.2, hst]; rfl)).trans ?_
    dsimp only
    rw [hg]

end Sys2Proof.Proofs
end

section

/-! ## The log and the crash dump (O50) -/

namespace Sys2Proof.Proofs
open Sys2Proof Sys2Proof.Machine Sys2Proof.Laws

theorem length_recBytes (r : ErrRec) : (recBytes r).length = 32 := by
  simp [recBytes, length_leBytes]

/-- The copy of the log in flash: 4,096 records (R728). -/
def recordsCopy (recs : Tbl ErrRec) : List Byte := ((List.range 4096).map (fun i => recBytes (tget noRec recs i))).flatten

theorem length_recordsCopy (recs : Tbl ErrRec) : (recordsCopy recs).length = 131072 :=
  (length_pieces _ 4096 (fun _ => length_recBytes _)).trans (by decide)

theorem regWrite_err (off v : Nat) (s : State) : (regWrite off v s).err = s.err :=
  (regWrite_foot (List.Subset.refl [Area.regs]) off v (Foot.refl _ s)).err.resolve_left (by decide)

theorem reportCe_head (kind index type detail : Nat) (s : State) : (reportCe kind index type detail s).err.head = s.err.head := by
  obtain ⟨r, n, l, h⟩ := report_err kind index type 0 false detail s
  rw [reportCe, h]

/-- A HEAD beyond TAIL is reported and discarded (R731). -/
theorem exec_errLogHeadWrite_beyond {s : State} {v : W32} (hs : Live s) (hr : regsOn s = true)
    (hv : openRecs s < (v.toNat + 2 ^ 32 - s.err.head) % 2 ^ 32) :
    exec (.errLogHeadWrite v) s = .next (reportCe 0 0 0x05 0 s) :=
  (run_guarded _ hs hr).trans (congrArg _ (if_pos hv))

/-- The copy of the selected dump starts when none runs (R732). -/
theorem exec_dumpCopy_starts {s : State} {v : W32} (hs : Live s) (hr : regsOn s = true) (hv : bit v.toNat 31 = true)
    (hc : s.err.copying = false) :
    exec (.dumpCopy v) s = .next { regWrite 0x1200028 v.toNat s with
      err := { s.err with copying := true, copyFailed := false, fromFlash := bit v.toNat 30 } } := by
  refine (run_guarded _ hs (by rw [hr, hv]; rfl)).trans ?_
  dsimp only
  rw [regWrite_err, hc, if_neg Bool.false_ne_true]

/-- A dump is offered to a flash that keeps none (R728). -/
theorem exec_dumpFlashCopy_starts {s : State} (hs : Serving s) (hst : s.err.state = 0) (ho : s.err.offer = true)
    (hd : s.fw.flash.dumpDone = false) (hc : s.err.flashCopying = false) (hn : s.err.dump ≠ []) :
    exec .dumpFlashCopy s = .next { s with
      fw := { s.fw with flash := { s.fw.flash with
        dump := s.err.dump, log := recordsCopy s.err.recs } },
      err := { s.err with offer := false, flashCopying := true } } := by
  refine (run_guarded _ hs.1 (by rw [hs.2, hst, ho]; rfl)).trans ?_
  dsimp only
  rw [if_neg]
  · rfl
  · simp only [hd, hc, hn, Bool.false_eq_true, or_self, not_false_eq_true]

/-- Settles O50, command by command; the log's copy is 4,096 records of 32 bytes. -/
theorem logAndDump : Obligations.LogAndDump := by
  unfold Obligations.LogAndDump
  refine ⟨?_, ?_, ?_, ?_, ?_, ?_, ?_, fun s hs hc => run_guarded _ hs hc⟩
  · intro s v hs hr hv
    exact (run_guarded _ hs hr).trans (congrArg _ (if_neg (Nat.not_lt.2 hv)))
  · intro s v hs hr hlog hv
    exact ⟨_, exec_errLogHeadWrite_beyond hs hr hv, report_logged _ _ _ _ _ _ s hlog (by decide), reportCe_head _ _ _ _ s⟩
  · intro s v hs hr hv
    have he : exec (.dumpClr v) s = _ := run_guarded _ hs (by rw [hr, hv]; rfl)
    exact ⟨_, he, rfl, rfl, rfl, rfl, rfl, (execDumpClr_foot (List.Subset.refl _) v he).frame⟩
  · intro s v hs hr hv hc
    have he := exec_dumpCopy_starts hs hr hv hc
    exact ⟨_, he, rfl, rfl, rfl, (execDumpCopy_foot (List.Subset.refl _) v he).frame⟩
  · intro s hs hc hd
    refine (run_guarded _ hs hc).trans ?_
    have hbad : (false || (dumpOf s s.err.fromFlash).isEmpty) = false := by simpa using hd
    dsimp only
    rw [hbad, if_neg Bool.false_ne_true]
    rfl
  · intro s hs hc
    exact run_guarded _ hs hc
  · intro s hs hst ho hd hc hn
    have he := exec_dumpFlashCopy_starts hs hst ho hd hc hn
    refine ⟨_, he, rfl, ?_, hd, rfl, (execDumpFlashCopy_foot (List.Subset.refl _) he).frame⟩
    dsimp only
    exact length_recordsCopy s.err.recs

end Sys2Proof.Proofs
end

section
/-!
What a block reset spares (R709): memory, the tally words, the beat, the boot state and the collector, while all work of the queues
ends. A queue under reset stays so until it is restored, and none of its SIGNALs is pending once each has its status.
-/
namespace Sys2Proof.Proofs
open Sys2Proof Sys2Proof.Machine Sys2Proof.Laws

/-! ## Queues under reset -/

/-- A pending SIGNAL: the command whose end sets the error word of its fence (R471). -/
def Pends (e : CmdEnt) : Prop := e.code = 5 ∧ e.own = none

/-- A queue under reset, none of whose SIGNALs is pending. -/
def Settled (x : Queue) : Prop := x.state = .resetting ∧ ∀ e ∈ x.cmds, ¬ Pends e

/-- What a queue that is never of the initial value satisfies and `f` keeps, it satisfies after `f` on any queue. -/
theorem queueAt_modQueue_keeps {P : Queue → Prop} {f : Queue → Queue} {k q : Nat} {s : State} (h0 : ¬ P {}) (hf : ∀ x, P x → P (f x))
    (h : P (queueAt s q)) : P (queueAt (modQueue k f s) q) := by
  by_cases hq : q = k
  · subst hq
    have hp := hf _ h
    rw [queueAt_modQueue fun e => h0 (e ▸ hp)]
    exact hp
  · rwa [queueAt, modQueue, tmod, tget_tset_ne _ _ _ _ _ _ hq]

theorem not_resetting_default : ¬ ({} : Queue).state = .resetting := by decide

/-- Without a pending SIGNAL no fence is set. -/
theorem failSignals_settled {e : CmdEnt} (code : Nat) (s : State) (h : ¬ Pends e) : failSignals [e] code s = s := by
  have hnil : [e].filter (fun e => decide (e.code = 5 ∧ e.own = none)) = [] :=
    List.filter_eq_nil_iff.2 fun d hd => by rw [List.mem_singleton.1 hd]; simpa [Pends] using h
  rw [failSignals, hnil]
  rfl

/-! ## What is spared -/

/-- From `r` to `s` the things that outlive a block reset are the same; queues under reset stay under reset, settled ones settled. -/
structure Spared (r s : State) : Prop where
  boot : s.blk.bootState = r.blk.bootState
  config : regGet s 0x1200000 = regGet r 0x1200000
  cells : (s.mem.cells, s.mem.poison, s.mem.retired) = (r.mem.cells, r.mem.poison, r.mem.retired)
  val : s.tw.val = r.tw.val
  beat : s.pm.beat = r.pm.beat
  err : s.err = r.err
  resetting : ∀ q, (queueAt r q).state = .resetting → (queueAt s q).state = .resetting
  settled : ∀ q, Settled (queueAt r q) → Settled (queueAt s q)

theorem Spared.refl (s : State) : Spared s s := ⟨rfl, rfl, rfl, rfl, rfl, rfl, fun _ h => h, fun _ h => h⟩

theorem Spared.trans {r s t : State} (h : Spared r s) (k : Spared s t) : Spared r t :=
  ⟨k.boot.trans h.boot, k.config.trans h.config, k.cells.trans h.cells, k.val.trans h.val, k.beat.trans h.beat, k.err.trans h.err,
    fun q x => k.resetting q (h.resetting q x), fun q x => k.settled q (h.settled q x)⟩

/-- What is spared, part by part. -/
theorem Spared.of_parts {r s : State} (hboot : s.blk.bootState = r.blk.bootState := by rfl) (hregs : s.regs = r.regs := by rfl)
    (hcells : (s.mem.cells, s.mem.poison, s.mem.retired) = (r.mem.cells, r.mem.poison, r.mem.retired) := by rfl)
    (hval : s.tw.val = r.tw.val := by rfl) (hbeat : s.pm.beat = r.pm.beat := by rfl) (herr : s.err = r.err := by rfl)
    (hq : s.fe.q = r.fe.q := by rfl) : Spared r s where
  boot := hboot
  config := by rw [regGet, hregs, regGet]
  cells := hcells
  val := hval
  beat := hbeat
  err := herr
  resetting := fun q hx => by rwa [queueAt, hq]
  settled := fun q hx => by rwa [queueAt, hq]

/-- The units that ending work may write, but for the collector and the bytes of memory. -/
def endUnits : List Area := [.blk, .mem, .rg, .arr, .lce, .fab, .sg, .fe, .tw, .ic, .mbx, .fw, .pm, .csb, .cmb, .ports, .freeCtr]

theorem Spared.of_foot {r s : State} (h : Foot endUnits r s) (hboot : s.blk.bootState = r.blk.bootState) (hval : s.tw.val = r.tw.val)
    (hbeat : s.pm.beat = r.pm.beat) (hq : s.fe.q = r.fe.q) : Spared r s :=
  .of_parts hboot (h.regs.resolve_left (by decide)) (h.cells.resolve_left (by decide)) hval hbeat (h.err.resolve_left (by decide)) hq

/-- The units whose change never harms what is spared. -/
def freeUnits : List Area := [.mem, .rg, .arr, .lce, .fab, .sg, .ic, .mbx, .fw, .csb, .cmb, .ports, .freeCtr]

theorem Spared.of_free {r s : State} (h : Foot freeUnits r s) : Spared r s :=
  .of_foot (h.mono (by decide)) (congrArg Blk.bootState (h.blk.resolve_left (by decide))) (congrArg Tw.val (h.tw.resolve_left (by decide)))
    (congrArg Pm.beat (h.pm.resolve_left (by decide))) (congrArg Fe.q (h.fe.resolve_left (by decide)))

/-- Within the front end, only the queues matter. -/
theorem Spared.of_front {r s : State} (h : Foot (.fe :: freeUnits) r s) (hq : s.fe.q = r.fe.q) : Spared r s :=
  .of_foot (h.mono (by decide)) (congrArg Blk.bootState (h.blk.resolve_left (by decide))) (congrArg Tw.val (h.tw.resolve_left (by decide)))
    (congrArg Pm.beat (h.pm.resolve_left (by decide))) hq

theorem Spared.each {α : Type} {l : List α} {f : α → State → State} (hf : ∀ x ∈ l, ∀ s, Spared s (f x s)) (s : State) :
    Spared s (each l f s) :=
  each_keeps (P := Spared s) (fun x hx t ht => ht.trans (hf x hx t)) (.refl s)

/-- A change of a queue that leaves no reset and makes no SIGNAL pending. -/
theorem Spared.modQueue {f : Queue → Queue} (q : Nat) (s : State) (hstate : ∀ x, x.state = .resetting → (f x).state = .resetting)
    (hcmds : ∀ x, ∀ e ∈ (f x).cmds, Pends e → ∃ d ∈ x.cmds, Pends d) : Spared s (modQueue q f s) where
  boot := rfl
  config := rfl
  cells := rfl
  val := rfl
  beat := rfl
  err := rfl
  resetting := fun k hk => queueAt_modQueue_keeps (P := fun x => x.state = .resetting) not_resetting_default hstate hk
  settled := fun k hk => queueAt_modQueue_keeps (fun h => not_resetting_default h.1)
    (fun x hx => ⟨hstate x hx.1, fun e he hp => by obtain ⟨d, hd, hpd⟩ := hcmds x e he hp; exact hx.2 d hd hpd⟩) hk

/-- A change of a queue that keeps its state and its commands. -/
theorem Spared.modQueue_same {f : Queue → Queue} (q : Nat) (s : State) (hstate : ∀ x, (f x).state = x.state)
    (hcmds : ∀ x, (f x).cmds = x.cmds) : Spared s (Machine.modQueue q f s) :=
  .modQueue q s (fun x hx => (hstate x).trans hx) (fun x e he hp => ⟨e, hcmds x ▸ he, hp⟩)

/-! ## A task that stops -/

theorem modArr_spared (p : Nat) (f : Arr → Arr) (s : State) : Spared s (modArr p f s) :=
  .of_free (modArr_foot (by decide) p f (Foot.refl _ s))

theorem dropReads_spared (late : Bool) (q : Nat) (f : OreqRead → Bool) (s : State) : Spared s (dropReads late q f s) :=
  .of_free (dropReads_foot (by decide) late q f (Foot.refl _ s))

theorem emit_spared (m : Out) (s : State) : Spared s (emit m s) := .of_free (emit_foot (by decide) m (Foot.refl _ s))

theorem fresh_spared (s : State) : Spared s (fresh s).2 := .of_free (fresh_foot (by decide) (Foot.refl _ s))

/-- An array that gives up its task leaves the waits, never the words. -/
theorem leaveArray_spared (p : Nat) (s : State) : Spared s (leaveArray p s) := by
  unfold leaveArray
  refine Spared.trans (s := { s with tw := { s.tw with waits := s.tw.waits.filter (fun w => decide (w.phys ≠ p)) } })
    .of_parts (.of_free ?_)
  exact modArr_foot (by decide) _ _ (abandonArr_foot (by decide) _ (dropRuns_foot (by decide) _ (Foot.refl _ _)))

theorem useCycles_spared (q cyc : Nat) (s : State) : Spared s (useCycles q cyc s) :=
  .of_front (useCycles_foot (by decide) q cyc (Foot.refl _ s)) rfl

theorem stopArray_spared (late : Bool) (q p : Nat) (t : Task) (s : State) : Spared s (stopArray late q p t s).2 := by
  have hreads := dropReads_spared late q (fun r => r.use == .load (physAt s p).logical) s
  unfold stopArray
  dsimp only
  split
  · exact hreads.trans (leaveArray_spared p _)
  · exact ((hreads.trans (fresh_spared _)).trans (useCycles_spared _ _ _)).trans (leaveArray_spared p _)

theorem cancelTag_spared (t : EapTag) (s : State) : Spared s (cancelTag t s) :=
  Spared.trans .of_parts (emit_spared _ _)

theorem leavePlace_spared (late : Bool) (q : Nat) (t : Task) (s : State) : Spared s (leavePlace late q t s).2 := by
  have hoff : ∀ l, Spared s (match physOf s l with | some p => stopArray late q p t s | none => (0, s)).2 := fun l => by
    split
    · exact stopArray_spared late q _ t s
    · exact .refl s
  unfold leavePlace
  dsimp only
  split
  case h_1 => exact .of_parts
  case h_2 => exact .each (fun x _ u => cancelTag_spared x u) s
  case h_3 =>
    dsimp only
    split
    · exact modArr_spared _ _ s
    · exact .refl s
  case h_4 l _ => exact hoff l
  case h_5 l _ => exact hoff l
  case h_6 l _ => exact hoff l
  case h_7 n _ => exact .of_free (stopLce_foot (by decide) n t.seq (Foot.refl _ s))
  case h_8 n _ => exact .of_free (stopLce_foot (by decide) n t.seq (Foot.refl _ s))
  case h_9 => exact .of_parts
  case h_10 => exact .of_parts
  case h_11 => exact .refl s

theorem leaveBars_spared (seq : Nat) (s : State) : Spared s (leaveBars seq s) := by
  unfold leaveBars
  exact .each (fun _ _ _ => .of_parts) s

theorem freeRecs_spared (f : SaveRec → Bool) (s : State) : Spared s (freeRecs f s) :=
  .of_free (freeRecs_foot (by decide) f (Foot.refl _ s))

theorem stopTask_spared (late : Bool) (q : Nat) (t : Task) (s : State) : Spared s (stopTask late q t s).2 := by
  have habandon : Spared s (abandonSeq late q t.seq s) := .of_free (abandonSeq_foot (by decide) late q t.seq (Foot.refl _ s))
  have hplace := habandon.trans (leavePlace_spared late q t _)
  have hrecs := (hplace.trans (leaveBars_spared t.seq _)).trans (freeRecs_spared (fun x => decide (x.seq = t.seq)) _)
  exact hrecs.trans .of_parts

/-! ## Commands that end -/

theorem owe_spared (q : Nat) (c : Cqe) (s : State) : Spared s (owe q c s) :=
  .modQueue_same q s (fun x => by split <;> rfl) (fun x => by split <;> rfl)

theorem modCmd_spared {f : CmdEnt → CmdEnt} (q id : Nat) (s : State) (hf : ∀ e, Pends (f e) → Pends e) : Spared s (modCmd q id f s) := by
  refine .modQueue q s (fun _ h => h) fun x e he hp => ?_
  obtain ⟨d, hd, rfl⟩ := List.mem_map.1 he
  refine ⟨d, hd, ?_⟩
  split at hp
  · exact hf d hp
  · exact hp

theorem endStopped_spared (q : Nat) (t : Task) (st : Status) (cyc : Nat) (s : State) : Spared s (endStopped q t st cyc s) := by
  unfold endStopped
  split
  · split
    · exact Spared.trans (.of_front (modLaunch_foot (by decide) _ _ (Foot.refl _ s)) rfl) (owe_spared _ _ _)
    · exact .refl s
  · split
    · exact owe_spared _ _ s
    · exact modCmd_spared _ _ s (fun _ h => h)

theorem endTask_spared (late : Bool) (dq q : Nat) (st : Status) (t : Task) (s : State) : Spared s (endTask late false dq q st t s) := by
  have hhome : Spared s (modQueue q (fun x => { x with homing := x.homing ++ t.handles.map (fun h => (t.queue, h)) }) s) :=
    .modQueue_same q s (fun _ => rfl) (fun _ => rfl)
  unfold endTask
  dsimp only
  split
  · exact (hhome.trans (stopTask_spared late dq t _)).trans (endStopped_spared q t st _ _)
  · exact (hhome.trans (stopTask_spared late dq t _)).trans (endStopped_spared q t st _ _)

theorem endNodes_spared (x : Launch) (s : State) : Spared s (endNodes x s) := by
  unfold endNodes
  refine .each (fun n _ u => ?_) s
  split
  · exact owe_spared _ _ u
  · exact .refl u

theorem graphDrop_q (g : Nat) (s : State) : (graphDrop g s).fe.q = s.fe.q := by
  unfold graphDrop ctxDrop
  dsimp only
  split
  · split <;> rfl
  · rfl

theorem endLaunch_spared (e : CmdEnt) (s : State) : Spared s (endLaunch e s) := by
  refine .of_front (endLaunch_foot (by decide) e (Foot.refl _ s)) ?_
  unfold endLaunch
  split
  · exact graphDrop_q _ _
  · rfl

theorem endCmd_spared (q : Nat) (st : Status) {e : CmdEnt} (s : State) (he : ¬ Pends e) : Spared s (endCmd q st e s) := by
  unfold endCmd
  dsimp only
  rw [failSignals_settled _ _ he]
  have hnodes : Spared s (match cmdLaunch s e with | some x => endNodes x s | none => s) := by
    split
    · exact endNodes_spared _ s
    · exact .refl s
  refine (hnodes.trans (endLaunch_spared e _)).trans (.modQueue q _ (fun _ h => h) fun x d hd hp => ?_)
  exact ⟨d, (List.mem_filter.1 hd).1, hp⟩

theorem fenceDrop_spared (f : Nat) (s : State) : Spared s (fenceDrop f s) :=
  .of_front (fenceDrop_foot (by decide) f (Foot.refl _ s)) rfl

theorem endHeld_spared (q : Nat) (st : Status) (s : State) : Spared s (endHeld q st s) := by
  unfold endHeld
  dsimp only
  refine Spared.trans ?_ (.modQueue_same q _ (fun _ => rfl) (fun _ => rfl))
  split
  · split
    · exact .refl s
    · have hended : ∀ c, Spared s (modQueue q (fun x => { x with ended := x.ended ++ [c] }) s) := fun c =>
        .modQueue_same q s (fun _ => rfl) (fun _ => rfl)
      split
      · exact (hended _).trans (fenceDrop_spared _ _)
      · exact hended _
  · exact .refl s

/-- The work of a settled queue ends without a fence being set. -/
theorem endQueueWork_spared (late : Bool) (dq q : Nat) (st : Status) (s : State) (h : Settled (queueAt s q)) :
    Spared s (endQueueWork late false dq q st s) := by
  have htasks : Spared s (each (tasksUnder s q) (fun t s => endTask late false dq q st t s) s) :=
    .each (fun t _ u => endTask_spared late dq q st t u) s
  unfold endQueueWork
  dsimp only
  refine (htasks.trans (.each (fun e he u => endCmd_spared q st u ?_) _)).trans (endHeld_spared q st _)
  exact (htasks.settled q h).2 e he

/-! ## The front end -/

theorem fenceDrop_q (f : Nat) (s : State) : (fenceDrop f s).fe.q = s.fe.q := rfl

theorem fe_notice (queue code detail : Nat) (s : State) : (notice queue code detail s).fe = s.fe :=
  (notice_foot (List.Subset.refl [Area.ic]) queue code detail (Foot.refl _ s)).fe.resolve_left (by decide)

theorem loseSignal_spared (e : CmdEnt) (s : State) : Spared s (loseSignal e s) := by
  refine .of_front (loseSignal_foot (by decide) e (Foot.refl _ s)) ?_
  unfold loseSignal
  dsimp only
  rw [fenceDrop_q]
  split
  · rfl
  · split
    · rw [fe_notice]
      rfl
    · rfl

/-- A SIGNAL that pends has BLOCK_RESET as its status from now on (R710). -/
def settleSignal (e : CmdEnt) : CmdEnt := if e.code == 5 && e.own.isNone then { e with own := some .blockReset } else e

theorem not_pends_settleSignal (e : CmdEnt) : ¬ Pends (settleSignal e) := by
  unfold settleSignal
  split
  · exact fun h => nomatch h.2
  next h => simpa [Pends] using h

/-- Every SIGNAL of a queue under reset has a status before its work ends. -/
theorem loseQueue_spared (q : Nat) (s : State) (h : (queueAt s q).state = .resetting) : Spared s (loseQueue q s) := by
  have hlost : Spared s (each ((queueAt s q).cmds.filter (fun e => e.code == 5 && e.own.isNone)) loseSignal s) :=
    .each (fun e _ u => loseSignal_spared e u) s
  have hset : ∀ u, Spared u (modQueue q (fun x => { x with cmds := x.cmds.map settleSignal }) u) := fun u => by
    refine .modQueue q u (fun _ h => h) fun x e he hp => ?_
    obtain ⟨d, -, rfl⟩ := List.mem_map.1 he
    exact absurd hp (not_pends_settleSignal d)
  have hq : ∀ u, (queueAt u q).state = .resetting →
      Settled (queueAt (modQueue q (fun x => { x with cmds := x.cmds.map settleSignal }) u) q) := fun u hu => by
    rw [queueAt_modQueue fun e => not_resetting_default (e ▸ hu)]
    refine ⟨hu, fun e he => ?_⟩
    obtain ⟨d, -, rfl⟩ := List.mem_map.1 he
    exact not_pends_settleSignal d
  unfold loseQueue
  dsimp only
  refine ((hlost.trans (hset _)).trans (endQueueWork_spared false 0x3FF q .blockReset _ (hq _ (hlost.resetting q h)))).trans ?_
  exact .modQueue_same q _ (fun _ => rfl) (fun _ => rfl)

theorem homeHandles_spared (q : Nat) (s : State) : Spared s (homeHandles false q s) := by
  have hhome : Spared s (modQueue q (fun x => { x with homing := [] }) s) := .modQueue_same q s (fun _ => rfl) (fun _ => rfl)
  have hback : ∀ h u, Spared u (hqReturn h u) := fun h u => .of_front (hqReturn_foot (by decide) h (Foot.refl _ u)) rfl
  unfold homeHandles
  refine hhome.trans (Spared.each (fun h _ u => ?_) _)
  rw [if_neg Bool.false_ne_true]
  exact hback h.2 u

theorem hostWriteM_spared (a : Nat) (data : List Byte) (s : State) : Spared s (hostWriteM a data s) :=
  .of_free (hostWriteM_foot (by decide) a data (Foot.refl _ s))

/-- The ledger keeps no time of its own (R702). -/
theorem ledEvent_spared (kind index : Nat) (payload : List Byte) (s : State) : Spared s (ledEvent kind index payload s) := by
  unfold ledEvent
  dsimp only
  split
  · exact .refl s
  · split
    · exact .of_parts
    · split
      · exact Spared.trans .of_parts (hostWriteM_spared _ _ _)
      · split <;> exact .of_parts

theorem cancelAll_spared (s : State) : Spared s (cancelAll s) := by
  unfold cancelAll
  exact Spared.trans (.each (fun t _ u => emit_spared _ u) s) .of_parts

theorem homeAll_spared (s : State) : Spared s (homeAll s) := by
  unfold homeAll
  exact .each (fun e _ u => ledEvent_spared _ _ _ u) s

theorem setResetting_spared (q : Nat) (s : State) : Spared s (modQueue q (fun x => { x with state := .resetting }) s) :=
  .modQueue q s (fun _ _ => rfl) (fun _ e he hp => ⟨e, he, hp⟩)

theorem each_setResetting (qs : List Nat) (s : State) :
    ∀ q ∈ qs, (queueAt (each qs (fun q s => modQueue q (fun x => { x with state := .resetting }) s) s) q).state = .resetting := by
  intro q hq
  refine each_reaches (P := fun _ => True) hq (fun _ _ _ _ => trivial) (fun u _ => ?_) (fun k _ u _ h => (setResetting_spared k u).resetting q h)
    trivial
  rw [queueAt_modQueue fun e => not_resetting_default (e ▸ rfl)]

/-- The front end loses its work, and nothing that is to be spared (R710). -/
theorem resetFront_spared (s : State) : Spared s (resetFront s) := by
  have hled := fun n => ((cancelAll_spared s).trans (homeAll_spared _)).trans (ledEvent_spared 0x13 0 (leBytes 1 n) _)
  have hset : ∀ u, Spared u (each (liveQueues s) (fun q s => modQueue q (fun x => { x with state := .resetting }) s) u) :=
    fun u => .each (fun q _ u => setResetting_spared q u) u
  have hlose : ∀ u, (∀ q ∈ liveQueues s, (queueAt u q).state = .resetting) → Spared u (each (liveQueues s) loseQueue u) := fun u hu =>
    each_keeps (P := Spared u) (fun q hq v hv => hv.trans (loseQueue_spared q v (hv.resetting q (hu q hq)))) (.refl u)
  have hhome : ∀ u, Spared u (each (liveQueues s) (homeHandles false) u) := fun u => .each (fun q _ u => homeHandles_spared q u) u
  unfold resetFront
  exact ((((hled _).trans (hset _)).trans (hlose _ (each_setResetting _ _))).trans (hhome _)).trans .of_parts

/-! ## The plane -/

theorem regGet_regSet_ne {off k : Nat} (v : Nat) (s : State) (h : k ≠ off) : regGet (regSet off v s) k = regGet s k :=
  congrArg BitVec.toNat (tget_tset_ne _ _ _ _ _ _ h)

theorem regSet_spared {off : Nat} (v : Nat) (s : State) (h : 0x1200000 ≠ off) : Spared s (regSet off v s) :=
  ⟨rfl, regGet_regSet_ne v s h, rfl, rfl, rfl, rfl, fun _ h => h, fun _ h => h⟩

theorem resetUnits_spared (s : State) : Spared s (resetUnits s) := by
  have hans : Spared s (resetAnswers (freeRecs (fun _ => true) s)) :=
    (freeRecs_spared _ s).trans (.of_free (resetAnswers_foot (by decide) (Foot.refl _ _)))
  unfold resetUnits
  exact (hans.trans .of_parts).trans (regSet_spared _ _ (by decide))

theorem fe_replyFor (b code : Nat) (st : Status) (s : State) : (replyFor b code st s).fe = s.fe :=
  (replyFor_foot (List.Subset.refl [Area.ic, Area.mbx]) b code st (Foot.refl _ s)).fe.resolve_left (by decide)

theorem each_modVai_q (l : List Nat) (f : Vai → Vai) (s : State) : (each l (fun v s => modVai v f s) s).fe.q = s.fe.q :=
  each_same (fun u => u.fe.q) (fun v _ u => show (modVai v f u).fe.q = u.fe.q from rfl) s

theorem loseReconf_spared (s : State) : Spared s (loseReconf s) := by
  refine .of_front (loseReconf_foot (by decide) (Foot.refl _ s)) ?_
  unfold loseReconf
  split
  · split
    · rw [fe_replyFor]
      exact each_modVai_q _ _ s
    · rfl
  · rfl

theorem stopPlane_spared (s : State) : Spared (captureDump s) (stopPlane s) := by
  have hfront := fun u => (loseReconf_spared u).trans (resetFront_spared _)
  have hreq := fun u => (hfront u).trans (.of_free (loseRequests_foot (by decide) (Foot.refl _ _)))
  unfold stopPlane
  exact ((hreq _).trans (resetUnits_spared _)).trans (.of_free (stacksDown_foot (by decide) (Foot.refl _ _)))

end Sys2Proof.Proofs
end

section
/-!
Block resets (R709 to R718): what is left of the plane, the collector's counts, going out of service, restore.
-/
namespace Sys2Proof.Proofs
open Sys2Proof Sys2Proof.Machine Sys2Proof.Laws

/-! ## The crash dump (R725, R726) -/

theorem take_dumpHeader (s : State) (n len : Nat) : (dumpHeader s n len).take 4 = [0x50, 0x4D, 0x44, 0x53] := by
  have hmagic : leBytes 4 0x53444D50 = [0x50, 0x4D, 0x44, 0x53] := by decide
  unfold dumpHeader padTo
  simp [hmagic]

theorem captureDump_err (s : State) : (captureDump s).err = { s.err with dump := (captureDump s).err.dump, offer := false } := rfl

theorem length_dumpHeader (s : State) (n len : Nat) : (dumpHeader s n len).length = 64 := length_padTo _ 64

theorem take_captureDump (s : State) : (captureDump s).err.dump.take 4 = [0x50, 0x4D, 0x44, 0x53] := by
  unfold captureDump
  dsimp only
  rw [List.take_append_of_le_length (by rw [length_dumpHeader]; decide), take_dumpHeader]

/-! ## What is left of the plane -/

/-- Every save record is freed. -/
theorem freeRecs_all (s : State) : (freeRecs (fun _ => true) s).arr.saves = [] := by
  refine List.eq_nil_iff_forall_not_mem.2 fun y hy => ?_
  have hleft : ∀ r u, y ∈ (freeRec r u).arr.saves → y ∈ u.arr.saves ∧ y.seq ≠ r.seq := fun r u h => by
    rw [freeRec_saves] at h
    exact (List.mem_filter.1 h).imp_right of_decide_eq_true
  have hin : y ∈ s.arr.saves := Classical.byContradiction fun hn =>
    each_keeps (P := fun u => y ∉ u.arr.saves) (fun r _ u hu h => hu (hleft r u h).1) hn hy
  exact each_reaches (P := fun _ => True) (Q := fun u => y ∉ u.arr.saves) (k := y) (List.mem_filter.2 ⟨hin, rfl⟩) (fun _ _ _ _ => trivial)
    (fun u _ h => (hleft y u h).2 rfl) (fun r _ u _ hu h => hu (hleft r u h).1) trivial hy

/-- No task, launch or queue is at work. -/
def NoWork (s : State) : Prop := s.fe.tasks = [] ∧ s.fe.launches = [] ∧ s.fe.slot = []

theorem NoWork.of_fe {s t : State} (h : NoWork s) (e : t.fe = s.fe) : NoWork t := by rwa [NoWork, e]

theorem noWork_cleared (s : State) : NoWork { s with fe := { s.fe with tasks := [], launches := [], slot := [], tlb := [] } } :=
  ⟨rfl, rfl, rfl⟩

theorem resetFront_noWork (s : State) : NoWork (resetFront s) := by
  unfold resetFront
  exact noWork_cleared _

theorem stopPlane_noWork (s : State) : NoWork (stopPlane s) := by
  unfold stopPlane
  dsimp only
  generalize loseReconf (captureDump s) = u
  have hf := stacksDown_foot (W := [.regs, .mem, .rg, .arr, .lce, .fab, .sg, .tw, .pm, .csb, .ports]) (by decide)
    (resetUnits_foot (by decide) (loseRequests_foot (by decide) (Foot.refl _ (resetFront u))))
  exact (resetFront_noWork u).of_fe (hf.fe.resolve_left (by decide))

theorem resetUnits_saves (s : State) : (resetUnits s).arr.saves = [] := by
  have hans : (resetAnswers (freeRecs (fun _ => true) s)).arr = (freeRecs (fun _ => true) s).arr :=
    (resetAnswers_foot (List.Subset.refl [Area.rg, Area.fab, Area.ports]) (Foot.refl _ _)).arr.resolve_left (by decide)
  exact (congrArg Arrs.saves hans).trans (freeRecs_all s)

theorem resetUnits_waits (s : State) : (resetUnits s).tw.waits = [] := rfl

theorem stopPlane_saves (s : State) : (stopPlane s).arr.saves = [] := by
  unfold stopPlane
  dsimp only
  generalize loseRequests _ = u
  have hf := stacksDown_foot (List.Subset.refl [Area.mem, Area.ports]) (Foot.refl _ (resetUnits u))
  rw [hf.arr.resolve_left (by decide), resetUnits_saves]

theorem stopPlane_waits (s : State) : (stopPlane s).tw.waits = [] := by
  unfold stopPlane
  dsimp only
  generalize loseRequests _ = u
  have hf := stacksDown_foot (List.Subset.refl [Area.mem, Area.ports]) (Foot.refl _ (resetUnits u))
  rw [hf.tw.resolve_left (by decide), resetUnits_waits]

theorem captureDump_same (s : State) : Foot [.err, .freeCtr] s (captureDump s) := captureDump_foot (List.Subset.refl _) (Foot.refl _ s)

/-- What the end of all work leaves as it was (R709). -/
structure Outlives (s t : State) : Prop where
  boot : t.blk.bootState = s.blk.bootState
  config : regGet t 0x1200000 = regGet s 0x1200000
  cells : same .cells s t
  val : t.tw.val = s.tw.val
  beat : t.pm.beat = s.pm.beat

theorem stopPlane_outlives (s : State) : Outlives s (stopPlane s) := by
  have h := stopPlane_spared s
  have hc := captureDump_same s
  obtain ⟨hcells, hmarks, hgone⟩ : _ ∧ _ ∧ _ := by simpa only [Prod.mk.injEq] using h.cells.trans (hc.cells.resolve_left (by decide))
  exact ⟨h.boot.trans (congrArg Blk.bootState (hc.blk.resolve_left (by decide))), h.config.trans rfl,
    ⟨fun x => by rw [hcells], hmarks, hgone⟩, h.val.trans (congrArg Tw.val (hc.tw.resolve_left (by decide))),
    h.beat.trans (congrArg Pm.beat (hc.pm.resolve_left (by decide)))⟩

theorem stopPlane_err (s : State) : (stopPlane s).err = { s.err with dump := (captureDump s).err.dump, offer := false } :=
  (stopPlane_spared s).err.trans (captureDump_err s)

/-! ## The reset (R709, R716) -/

/-- The state of a reset before its counts are written. -/
def resetPlane (s : State) : State :=
  let s := reloadHung (loseHandover (raiseGens (stopPlane s)))
  each (keysOf s.fe.vai (fun x => x.state != 0)) (fun v s => modVai v (fun x => { x with restoring := true }) s) s

theorem beginReset_eq (counts : Bool) (s : State) : beginReset counts s = { resetPlane s with err := { (resetPlane s).err with
      state := 1, bPending := none, resets := sat 16 ((resetPlane s).err.resets + 1), lastBr := beat (resetPlane s), reinstating := !counts,
      drained := false, recentAt := if counts then recentResets (resetPlane s) ++ [beat (resetPlane s)] else (resetPlane s).err.recentAt,
      toRestore := [] } } := by
  unfold beginReset resetPlane
  dsimp only

theorem resetPlane_foot (s : State) : Foot [.fab, .fe, .ic, .mbx, .fw, .err] (stopPlane s) (resetPlane s) := by
  unfold resetPlane
  refine each_foot _ _ (fun v u hu => modVai_foot (by decide) _ _ hu)
    (reloadHung_foot (by decide) (loseHandover_foot (by decide) (raiseGens_foot (by decide) (Foot.refl _ _))))

theorem reloadHung_err (s : State) : ∃ k, (reloadHung s).err = { s.err with hungSteward := k } := by
  unfold reloadHung
  split
  next h => exact ⟨s.err.hungSteward, rfl⟩
  · exact ⟨none, rfl⟩

theorem resetPlane_err (s : State) : ∃ k, (resetPlane s).err = { s.err with
    dump := (captureDump s).err.dump, offer := false, hungSteward := k } := by
  obtain ⟨k, hk⟩ := reloadHung_err (loseHandover (raiseGens (stopPlane s)))
  have hraise : (loseHandover (raiseGens (stopPlane s))).err = (stopPlane s).err :=
    (loseHandover_foot (W := [.fab, .fe, .ic, .mbx, .fw]) (by decide) (raiseGens_foot (by decide) (Foot.refl _ (stopPlane s)))).err.resolve_left
      (by decide)
  refine ⟨k, ?_⟩
  unfold resetPlane
  dsimp only
  rw [each_same (fun u => u.err) (fun v _ u => by rfl), hk, hraise, stopPlane_err]

theorem raiseGens_noWork {s : State} (h : NoWork s) : NoWork (raiseGens s) := h

theorem modVai_noWork {v : Nat} {f : Vai → Vai} {s : State} (h : NoWork s) : NoWork (modVai v f s) := h

theorem resetPlane_noWork (s : State) : NoWork (resetPlane s) := by
  have hfe : (reloadHung (loseHandover (raiseGens (stopPlane s)))).fe = (raiseGens (stopPlane s)).fe :=
    (reloadHung_foot (W := [.ic, .mbx, .fw, .err]) (by decide) (loseHandover_foot (by decide) (Foot.refl _ _))).fe.resolve_left (by decide)
  unfold resetPlane
  exact each_keeps (fun v _ u hu => modVai_noWork hu) ((raiseGens_noWork (stopPlane_noWork s)).of_fe hfe)

theorem resetPlane_outlives (s : State) : Outlives s (resetPlane s) := by
  have h := stopPlane_outlives s
  have hf := resetPlane_foot s
  have hregs : (resetPlane s).regs = (stopPlane s).regs := hf.regs.resolve_left (by decide)
  obtain ⟨hcells, hmarks, hgone⟩ : _ ∧ _ ∧ _ := by simpa only [Prod.mk.injEq] using hf.cells.resolve_left (by decide)
  obtain ⟨hbytes, hpoison, hretired⟩ := h.cells
  exact ⟨(congrArg Blk.bootState (hf.blk.resolve_left (by decide))).trans h.boot, by rw [regGet, hregs, ← regGet, h.config],
    ⟨fun x => by rw [hcells, hbytes], hmarks.trans hpoison, hgone.trans hretired⟩,
    (congrArg Tw.val (hf.tw.resolve_left (by decide))).trans h.val, (congrArg Pm.beat (hf.pm.resolve_left (by decide))).trans h.beat⟩

/-- The window is read from what a reset keeps. -/
theorem recentResets_of_outlives {s t : State} (h : Outlives s t) (hr : t.err.recentAt = s.err.recentAt) : recentResets t = recentResets s := by
  rw [recentResets, recentResets, hr, beat, beat, h.beat, resetWindowS, resetWindowS, h.config]

theorem beginReset_err (counts : Bool) (s : State) : ∃ k, (beginReset counts s).err = { s.err with
    dump := (captureDump s).err.dump, offer := false, hungSteward := k, state := 1, bPending := none, resets := sat 16 (s.err.resets + 1),
    lastBr := beat s, reinstating := !counts, drained := false,
    recentAt := if counts then recentResets s ++ [beat s] else s.err.recentAt, toRestore := [] } := by
  obtain ⟨k, hk⟩ := resetPlane_err s
  have hout := resetPlane_outlives s
  have hrecent := recentResets_of_outlives hout (by rw [hk])
  refine ⟨k, ?_⟩
  rw [beginReset_eq]
  dsimp only
  rw [hrecent, beat, hout.beat, hk, ← beat]

/-- A reset ends all work, and what R709 keeps stays. -/
theorem beginReset_leaves (counts : Bool) (s : State) : Outlives s (beginReset counts s) ∧ NoWork (beginReset counts s) ∧
    (beginReset counts s).arr.saves = [] ∧ (beginReset counts s).tw.waits = [] := by
  have hout := resetPlane_outlives s
  have hwork := resetPlane_noWork s
  have hf := resetPlane_foot s
  have hsaves := (congrArg Arrs.saves (hf.arr.resolve_left (by decide))).trans (stopPlane_saves s)
  have hwaits := (congrArg Tw.waits (hf.tw.resolve_left (by decide))).trans (stopPlane_waits s)
  rw [beginReset_eq]
  generalize resetPlane s = p at *
  exact ⟨⟨hout.boot, hout.config, hout.cells, hout.val, hout.beat⟩, hwork, hsaves, hwaits⟩

/-! ## Out of service (R717) -/

/-- The state at the entry to out of service, before the block is marked so. -/
def outPlane (s : State) : State :=
  let u := stopPlane s
  let boxes := keysOf u.mbx.box (fun b => b.state == .taken && !updateCode (cmdCode (b.taken.getD 0 0).toNat))
  let v := each u.fe.pausing (fun v s => modVai v (fun x => { x with state := 1 }) s) u
  each boxes (fun b s => replySt b .blockReset s) { v with fe := { v.fe with pausing := [] } }

theorem goOut_eq (s : State) : goOut s = arrive 35 { outPlane s with
    blk := { (outPlane s).blk with bootState := 9 }, err := { (outPlane s).err with state := 3, bPending := none, toRestore := [] } } := by
  unfold goOut outPlane
  dsimp only

theorem pausing_foot {W : List Area} {r s : State} (hW : [.fe] ⊆ W) (l : List Nat) (h : Foot W r s) :
    Foot W r { s with fe := { s.fe with pausing := l } } :=
  { h with fe := .inl (hW (by decide)) }

theorem outPlane_foot (s : State) : Foot [.fe, .ic, .mbx] (stopPlane s) (outPlane s) := by
  unfold outPlane
  refine each_foot _ _ (fun b u hu => replySt_foot (by decide) _ _ hu) (pausing_foot (by decide) _ ?_)
  exact each_foot _ _ (fun v u hu => modVai_foot (by decide) _ _ hu) (Foot.refl _ _)

theorem fe_replySt (b : Nat) (st : Status) (s : State) : (replySt b st s).fe = s.fe :=
  (replySt_foot (List.Subset.refl [Area.ic, Area.mbx]) b st (Foot.refl _ s)).fe.resolve_left (by decide)

theorem pausing_noWork {s : State} (l : List Nat) (h : NoWork s) : NoWork { s with fe := { s.fe with pausing := l } } := h

theorem outPlane_noWork (s : State) : NoWork (outPlane s) := by
  unfold outPlane
  refine each_keeps (fun b _ u hu => hu.of_fe (fe_replySt b _ u)) (pausing_noWork _ ?_)
  exact each_keeps (fun v _ u hu => modVai_noWork hu) (stopPlane_noWork s)

theorem count_arrive_pos (n : Nat) (s : State) : 0 < (srcAt (arrive n s) n).count := by
  rw [srcAt_arrive, sat]
  omega

theorem goOut_leaves (s : State) : let t := goOut s
    t.blk.bootState = 9 ∧ t.err = { s.err with
      dump := (captureDump s).err.dump, offer := false, state := 3, bPending := none, toRestore := [] } ∧
    0 < (srcAt t 35).count ∧ NoWork t ∧ same .cells s t := by
  intro t
  have hf := outPlane_foot s
  have herr : (outPlane s).err = _ := (hf.err.resolve_left (by decide)).trans (stopPlane_err s)
  obtain ⟨hbytes, hpoison, hretired⟩ := (stopPlane_outlives s).cells
  obtain ⟨hcells, hmarks, hgone⟩ : _ ∧ _ ∧ _ := by simpa only [Prod.mk.injEq] using hf.cells.resolve_left (by decide)
  have hwork := outPlane_noWork s
  have ht : t = _ := goOut_eq s
  rw [ht]
  generalize outPlane s = o at *
  refine ⟨rfl, ?_, count_arrive_pos 35 _, hwork, fun x => ?_, hmarks.trans hpoison, hgone.trans hretired⟩
  · show ({ o.err with state := 3, bPending := none, toRestore := [] } : Err) = _
    rw [herr]
  · show tget 0 o.mem.cells x = _
    rw [hcells, hbytes]

/-! ## The end of a reset, and restore (R711, R714) -/

theorem endRestore_done {s : State} (h : s.err.toRestore = []) : endRestore s = arrive 36 { s with
    err := { s.err with state := 0, reinstating := false, offer := true } } := by
  unfold endRestore
  rw [if_pos (by rw [h]; rfl)]

theorem endRestore_waits {s : State} (h : s.err.toRestore ≠ []) : endRestore s = s := by
  unfold endRestore
  rw [if_neg (by simpa using h)]

/-- After BR_DRAIN_US no read is waited for. -/
theorem resetReads_expired (s : State) (l : List OreqRead) (b : Bool) :
    resetReads { s with err := { s.err with drained := b }, ports := { s.ports with
      oreq := l.map (fun r => if r.use = .dropped false 0x3FE then { r with use := .dropped false 0x3FF } else r) } } = false := by
  refine List.any_eq_false.2 fun r hr => ?_
  obtain ⟨d, -, rfl⟩ := List.mem_map.1 hr
  split
  · simp
  next h => simp [h]

/-- The block at the end of the reset sequence, before its contexts are looked at. -/
def sequenceEnd (s : State) : State :=
  let u := stacksUp s
  let v := ledEvent 0x11 0 (leBytes 8 (beat u + 1 + 2 ^ 64 - u.rg.gapBeats) ++ leBytes 8 (beat u)) u
  { v with rg := { v.rg with gapBeats := 0 }, err := { v.err with state := 2, toRestore := keysOf v.fe.ctx (fun c => c.state == 1) } }

theorem exec_resetSequenceEnd_ready {s : State} (hs : Live s) (hb : s.blk.bootState = 6) (hst : s.err.state = 1)
    (hp : s.err.bPending = none) (hr : resetReads s = false) :
    exec .resetSequenceEnd s = .next (endRestore (vaisBack (sequenceEnd s))) :=
  run_guarded _ hs (by rw [hb, hst, hp, hr]; rfl)

theorem sequenceEnd_toRestore (s : State) : (sequenceEnd s).err.toRestore = keysOf s.fe.ctx (fun c => c.state == 1) := by
  have hf := fun p => ledEvent_foot (W := [.mem, .pm, .ports]) (by decide) 0x11 0 p (stacksUp_foot (by decide) (Foot.refl _ s))
  unfold sequenceEnd
  dsimp only
  rw [(hf _).fe.resolve_left (by decide)]

theorem vaisBack_foot_fe (s : State) : Foot [.fe] s (vaisBack s) := vaisBack_foot (List.Subset.refl _) (Foot.refl _ s)

/-- Settles O49: all work ends and only what R709 keeps is left, and the collector counts the reset. -/
theorem blockResets : Obligations.BlockResets := by
  unfold Obligations.BlockResets
  refine ⟨?_, ?_, ?_, ?_, ?_, ?_, ?_, ?_⟩
  · intro s b hs hboot hp hlim
    have he : exec .blockReset s = .next (beginReset true s) :=
      (run_guarded _ hs (by rw [hboot, hp]; rfl)).trans (congrArg _ (if_neg (Nat.not_le.2 hlim)))
    obtain ⟨k, hk⟩ := beginReset_err true s
    obtain ⟨hout, ⟨htasks, hlaunches, hslot⟩, hsaves, hwaits⟩ := beginReset_leaves true s
    refine ⟨_, he, ?_⟩
    rw [hk]
    exact ⟨rfl, rfl, rfl, rfl, rfl, hout.boot.trans hboot, htasks, hlaunches, hslot, hsaves, hwaits, hout.val, hout.beat,
      take_captureDump s, hout.cells⟩
  · intro s b hs hboot hp hlim
    have he : exec .blockReset s = .next (goOut s) :=
      (run_guarded _ hs (by rw [hboot, hp]; rfl)).trans (congrArg _ (if_pos hlim))
    obtain ⟨hout, herr, hsrc, hwork, hcells⟩ := goOut_leaves s
    refine ⟨_, he, hout, ?_⟩
    rw [herr]
    exact ⟨rfl, rfl, rfl, hsrc, hwork.1, take_captureDump s, hcells⟩
  · intro s hs hp
    refine (run_live _ hs).trans ?_
    rw [hp, Option.isSome_none, Bool.and_false, guarded_false]
  · intro s hs hst
    have he : exec .blockResetDrainExpiry s = _ := run_guarded _ hs (by rw [hst]; rfl)
    exact ⟨_, he, rfl, resetReads_expired s s.ports.oreq true, (execBlockResetDrainExpiry_foot (List.Subset.refl _) he).frame⟩
  · intro s hs hboot hst hp hr
    have hv := vaisBack_foot_fe (sequenceEnd s)
    have herr := hv.err.resolve_left (by decide)
    have hrg : (vaisBack (sequenceEnd s)).rg.gapBeats = 0 := congrArg Rg.gapBeats (hv.rg.resolve_left (by decide))
    have hto : (vaisBack (sequenceEnd s)).err.toRestore = _ := (congrArg Err.toRestore herr).trans (sequenceEnd_toRestore s)
    refine ⟨_, exec_resetSequenceEnd_ready hs hboot hst hp hr, ?_⟩
    by_cases hnone : keysOf s.fe.ctx (fun c => c.state == 1) = []
    · rw [endRestore_done (hto.trans hnone)]
      exact ⟨hrg, .inl ⟨hnone, rfl, count_arrive_pos 36 _⟩⟩
    · rw [endRestore_waits (hto ▸ hnone)]
      exact ⟨hrg, .inr ⟨hnone, congrArg Err.state herr, hto⟩⟩
  · intro s w c hs hst hfind
    refine (run_guarded _ hs.1 (by rw [hs.2, hst]; rfl)).trans ?_
    rw [hfind]
  · intro s h
    rw [endRestore_done h]
    exact ⟨rfl, count_arrive_pos 36 _⟩
  · intro s v hs hboot hv
    have he : exec (.reinstate v) s = .next (beginReset false { s with
        blk := { s.blk with bootState := 6 }, err := { s.err with recentAt := [] } }) := run_guarded _ hs (by rw [hboot, hv]; rfl)
    obtain ⟨k, hk⟩ := beginReset_err false { s with blk := { s.blk with bootState := 6 }, err := { s.err with recentAt := [] } }
    refine ⟨_, he, (beginReset_leaves false _).1.boot, ?_⟩
    rw [hk]
    exact ⟨rfl, rfl, rfl⟩

end Sys2Proof.Proofs
end

section
/-!
Power states (R681 to R690, R764): entry within the limits, exit, foreseen events, and the choice of the ARRAY rate.
-/
namespace Sys2Proof.Proofs
open Sys2Proof Sys2Proof.Machine Sys2Proof.Laws

/-! ## The greatest of a list -/

theorem foldl_max_mem (l : List Nat) (a : Nat) : l.foldl max a = a ∨ l.foldl max a ∈ l := by
  induction l generalizing a with
  | nil => exact .inl rfl
  | cons x l ih =>
    rcases ih (max a x) with h | h
    · rcases Nat.le_total a x with hax | hxa
      · exact .inr (List.mem_cons.2 (.inl (h.trans (Nat.max_eq_right hax))))
      · exact .inl (h.trans (Nat.max_eq_left hxa))
    · exact .inr (List.mem_cons_of_mem _ h)

theorem le_foldl_max (l : List Nat) (a : Nat) : a ≤ l.foldl max a ∧ ∀ x ∈ l, x ≤ l.foldl max a := by
  induction l generalizing a with
  | nil => exact ⟨Nat.le_refl a, fun x hx => absurd hx List.not_mem_nil⟩
  | cons x l ih =>
    obtain ⟨hmax, hall⟩ := ih (max a x)
    refine ⟨Nat.le_trans (Nat.le_max_left a x) hmax, fun y hy => ?_⟩
    rcases List.mem_cons.1 hy with rfl | hy
    · exact Nat.le_trans (Nat.le_max_right a y) hmax
    · exact hall y hy

/-! ## The ARRAY rate (R688 to R690) -/

section
variable (load : Nat) (s : State)

/-- A step that the CPB may choose: within RATE_MAX, its predicted power within CAP_W. -/
def RateFits (r : Nat) : Prop := 10 ≤ r ∧ r ≤ rateMax s ∧ Config.ratePower load s.pm.power r ≤ field (regGet s 0x1100004) 10 12

theorem mem_rateSteps {r : Nat} : r ∈ (List.range (rateMax s + 1)).filter (fun r => decide (10 ≤ r ∧
    Config.ratePower load s.pm.power r ≤ field (regGet s 0x1100004) 10 12)) ↔ RateFits load s r := by
  rw [List.mem_filter, List.mem_range, Nat.lt_succ_iff, decide_eq_true_iff, RateFits, and_left_comm]

theorem chosenRate_fits : chosenRate load s = 10 ∨ RateFits load s (chosenRate load s) := by
  unfold chosenRate
  exact (foldl_max_mem _ 10).imp_right (mem_rateSteps load s).1

theorem le_chosenRate : 10 ≤ chosenRate load s ∧ ∀ r, RateFits load s r → r ≤ chosenRate load s := by
  unfold chosenRate
  obtain ⟨hlow, hall⟩ := le_foldl_max ((List.range (rateMax s + 1)).filter (fun r => decide (10 ≤ r ∧
    Config.ratePower load s.pm.power r ≤ field (regGet s 0x1100004) 10 12))) 10
  exact ⟨hlow, fun r hr => hall r ((mem_rateSteps load s).2 hr)⟩

theorem ten_le_rateMax : 10 ≤ rateMax s := Nat.le_max_left 10 _

/-- Source 37 fires exactly when the cap begins or ends to hold the rate. -/
theorem exec_cpbRateChoice (hs : Live s) : ∃ t, exec (.cpbRateChoice load) s = .next t ∧ t.pm.rate = chosenRate load s ∧
    t.pm.thrCap = decide (chosenRate load s < rateMax s) ∧ (srcAt t 37).count =
      if decide (chosenRate load s < rateMax s) = s.pm.thrCap then (srcAt s 37).count else sat 8 ((srcAt s 37).count + 1) := by
  have he : execCpbRateChoice load s = _ := run_live _ hs
  refine ⟨_, he, ?_⟩
  dsimp only
  split
  · exact ⟨rfl, rfl, rfl⟩
  · exact ⟨rfl, rfl, srcAt_arrive 37 _⟩

end

/-! ## Limits (R683) -/

theorem latencyOk_active {s : State} {p ns : Nat} (h : latencyOk s (some p) ns = true) {e : Nat × Vai} (he : e ∈ s.fe.vai)
    (ha : wakeActive s e.1 = true) (hp : e.2.part = p) : ns ≤ e.2.wakeTol := by
  have := List.all_eq_true.1 h e he
  simpa [ha, hp] using this

/-- Settles O46, unit by unit; the rate by the greatest step that fits. -/
theorem powerStates : Obligations.PowerStates := by
  unfold Obligations.PowerStates
  refine ⟨?_, ?_, ?_, ?_, ?_, ?_, ?_, ?_, ?_, ?_, ?_, ?_, fun s load hs => exec_cpbRateChoice load s hs⟩
  · intro s p hs hp hrest htask hqueue htest
    refine (run_guarded _ hs.1 (by rw [hs.2, hrest, decide_eq_true hp]; rfl)).trans (congrArg _ (if_pos ⟨?_, hqueue, htest⟩))
    rw [htask]
    rfl
  · intro s p hs hrest
    refine (run_live _ hs).trans ?_
    rw [hrest, Bool.and_false, Bool.false_and, guarded_false]
  · intro s p hrest
    obtain ⟨hmax, hlat⟩ := Bool.and_eq_true_iff.1 hrest
    exact ⟨of_decide_eq_true hmax, fun e he ha hp => latencyOk_active hlat he ha hp⟩
  · intro s n hs hrest hidle hst
    exact run_guarded _ hs.1 (by rw [hs.2, hrest, hidle, hst]; rfl)
  · intro s n hs hn hrest hbusy hst
    exact (run_guarded _ hs.1 (by rw [hs.2, hrest, hbusy, decide_eq_true hn]; rfl)).trans (congrArg _ (if_pos (.inl hst)))
  · intro s hs hrest hneed hsec hstack
    refine (run_guarded _ hs.1 (by rw [hs.2, hrest, hneed]; rfl)).trans (congrArg _ (if_pos ?_))
    refine Bool.and_eq_true_iff.2 ⟨List.all_eq_true.2 fun n hn => ?_, List.all_eq_true.2 fun n hn => ?_⟩
    · cases hon : sectorOn s n with
      | false => rfl
      | true => exact hsec n (List.mem_range.1 hn) hon
    · cases hgone : stackGone s n with
      | true => rfl
      | false => exact hstack n (List.mem_range.1 hn) hgone
  · intro s u hs hrest hwant
    refine run_guarded _ hs.1 ?_
    rw [hs.2, hrest]
    rcases hwant with h | h
    · rw [h]; rfl
    · rw [h, Bool.or_true]; rfl
  · intro s n hs hrest hneed hwake
    refine (run_live _ hs.1).trans ?_
    rw [hneed, hwake, Bool.or_false, Bool.and_false, guarded_false]
  · intro s p hs hrest hwake hev
    refine (run_guarded _ hs.1 (by rw [hs.2, hrest, hwake]; rfl)).trans (congrArg _ (if_pos ?_))
    exact Bool.or_eq_true_iff.2 (.inl hev)
  · intro s hbox v hst
    exact (run_onBox _ hbox).trans (congrArg _ (if_neg hst))
  · intro s v hs hr
    exact run_guarded _ hs hr
  · intro s load r fits
    obtain ⟨hlow, hall⟩ := le_chosenRate load s
    refine ⟨hlow, ?_, fun hne => ?_, fun x hx hmax hfit => hall x ⟨hx, hmax, of_decide_eq_true hfit⟩⟩
    · rcases chosenRate_fits load s with h | h
      · exact (Nat.le_of_eq h).trans (ten_le_rateMax s)
      · exact h.2.1
    · exact decide_eq_true ((chosenRate_fits load s).resolve_left hne).2.2

end Sys2Proof.Proofs
end

section
/-!
Migration (R612 to R618): the logs, the harvest, the image of a paused VAI and its loading.
-/
namespace Sys2Proof.Proofs
open Sys2Proof Sys2Proof.Machine Sys2Proof.Laws

theorem vaiAt_modVai {v : Nat} {f : Vai → Vai} {s : State} (h : f (vaiAt s v) ≠ {}) : vaiAt (modVai v f s) v = f (vaiAt s v) :=
  tget_tset_eq _ _ _ _ h

theorem fe_replyBox (b code : Nat) (ws : List Nat) (s : State) : (replyBox b code ws s).fe = s.fe :=
  (replyBox_foot (List.Subset.refl [Area.ic, Area.mbx]) b code ws (Foot.refl _ s)).fe.resolve_left (by decide)

/-- The only VAI that the end of a VAI changes is that one (R595). -/
theorem endVai_vai (v : Nat) (s : State) : (endVai v s).fe.vai = tmod {} s.fe.vai v (fun x => { evTail := x.evTail, drops := x.drops }) := by
  have hfences : ∀ l u, (each l (fun f s => modFence f (fun x => { gen := (x.gen + 1) % 256 }) s) u).fe.vai = u.fe.vai :=
    fun l u => each_same (fun w => w.fe.vai) (fun f _ w => show (modFence f _ w).fe.vai = w.fe.vai from rfl) u
  have htallies : ∀ l u, (each l (fun g s => dropTally g s) u).fe.vai = u.fe.vai :=
    fun l u => each_same (fun w => w.fe.vai) (fun g _ w => show (dropTally g w).fe.vai = w.fe.vai from rfl) u
  have hbars : ∀ l u, (each l (fun k s => modBar k (fun b => { gen := b.gen }) s) u).fe.vai = u.fe.vai :=
    fun l u => each_same (fun w => w.fe.vai) (fun k _ w => show (modBar k _ w).fe.vai = w.fe.vai from rfl) u
  have hqs : ∀ l u, (each l (fun h s => modHq h (fun _ => {}) s) u).fe.vai = u.fe.vai :=
    fun l u => each_same (fun w => w.fe.vai) (fun h _ w => show (modHq h _ w).fe.vai = w.fe.vai from rfl) u
  have hsrc : ∀ n f u, (modSrc n f u).fe = u.fe := fun n f u => rfl
  have hvai : ∀ f u, (modVai v f u).fe.vai = tmod {} u.fe.vai v f := fun f u => rfl
  unfold endVai
  dsimp only
  rw [hsrc, hsrc, hvai, hqs, hbars, htallies, hfences]

section
variable {s : State}

theorem exec_vaiDestroy_ends (hbox : Taken s 256 0x0102) (hst : (vaiAt s (boxWord s 256 1)).state ≠ 0)
    (hscrub : scrubbing s (vaiAt s (boxWord s 256 1)).part = false) (htouch : touching s (vaiAt s (boxWord s 256 1)).part = false)
    (hctx : ctxsOf s (boxWord s 256 1) = []) (hconf : confPart s (vaiAt s (boxWord s 256 1)).part = false) :
    let v := boxWord s 256 1
    exec .vaiDestroy s = .next (replyBox 256 0 [] (endVai v { s with fe := { s.fe with
      ftOwn := reown v .zeroing s.fe.ftOwn, scrOwn := reown v .zeroing s.fe.scrOwn } })) := by
  refine (run_onBox _ hbox).trans ?_
  dsimp only
  rw [if_neg hst, if_neg (by simp [hscrub, htouch]), if_neg (by simp [hctx]), if_neg (by simp [hconf])]
  rfl

/-- A buffer is in order when its address and its size are multiples of 64 (R614, R617). -/
theorem not_misaligned {a n : Nat} (ha : a % 64 = 0) (hn : n % 64 = 0) : ¬ (a % 64 ≠ 0 ∨ n % 64 ≠ 0) := by
  rw [not_or, not_not, not_not]
  exact ⟨ha, hn⟩

/-- An image that fits is put in place, and its VAI is paused. -/
theorem exec_migStateLoad_loads {h : HostData} {m : MigImage} (hbox : Taken s 256 0x0126) (hp : h.poison = false)
    (hm : Config.migDecode h.bytes = some m) (ha : boxPair s 256 2 % 64 = 0) (hn : boxWord s 256 4 % 64 = 0)
    (hst : (vaiAt s (boxWord s 256 1)).state = 1) (hctx : ctxsOf s (boxWord s 256 1) = []) (hfits : imageFits s (boxWord s 256 1) m = true)
    (hfree : numbersFree s m = true) :
    ∃ u, exec (.migStateLoad h) s = .next (replyBox 256 0 [] (modVai (boxWord s 256 1) (fun y => { y with state := 3 }) u)) := by
  have he : exec (.migStateLoad h) s = _ := run_onBox _ hbox
  rw [hp, if_neg Bool.false_ne_true, hm] at he
  dsimp only at he
  rw [if_neg (not_misaligned ha hn), if_neg (by simp [hst, hctx, hfits, hfree])] at he
  exact ⟨_, he⟩

end

/-- Settles O40, command by command. -/
theorem migration : Obligations.Migration := by
  unfold Obligations.Migration
  refine ⟨?_, ?_, ?_, ?_, ?_, ?_, ?_, ?_, ?_, ?_⟩
  · intro s hbox v hst hconf hlog
    refine (run_onBox _ hbox).trans ?_
    dsimp only
    rw [if_neg (not_or.2 ⟨hst, hconf ▸ Bool.false_ne_true⟩), if_neg (hlog ▸ Bool.false_ne_true)]
    rfl
  · intro s hbox hconf
    exact (run_onBox _ hbox).trans (congrArg _ (if_pos (.inr hconf)))
  · intro s hbox hst
    exact (run_onBox _ hbox).trans (congrArg _ (if_pos (.inl hst)))
  · intro s hbox hst hconf hlog
    refine (run_onBox _ hbox).trans ?_
    dsimp only
    rw [if_neg (not_or.2 ⟨hst, hconf ▸ Bool.false_ne_true⟩), if_pos hlog]
    rfl
  · intro s hbox v p hst hscrub htouch hctx hconf
    refine ⟨_, exec_vaiDestroy_ends hbox hst hscrub htouch hctx hconf, ?_⟩
    rw [fe_replyBox, endVai_vai]
  · intro s hbox hst
    exact (run_onBox _ hbox).trans (congrArg _ (if_neg hst))
  · intro s hbox v x n ha hn hst hhost
    refine (run_onBox _ hbox).trans ?_
    dsimp only
    rw [if_neg (not_misaligned ha hn), if_neg hst, if_pos hhost]
  · intro s hbox v x l ha hn hst hhost
    refine (run_onBox _ hbox).trans ?_
    dsimp only
    rw [if_neg (not_misaligned ha hn), if_neg hst, hhost, if_neg Bool.false_ne_true]
  · intro s hbox v d ha hn hst
    refine (run_onBox _ hbox).trans ?_
    dsimp only
    rw [if_neg (not_misaligned ha hn), if_neg (hst ▸ (by decide)), if_neg (not_not.2 hst)]
  · intro s h m hbox v hp hm ha hn hst hctx hfits hfree
    obtain ⟨u, he⟩ := exec_migStateLoad_loads hbox hp hm ha hn hst hctx hfits hfree
    refine ⟨_, he, ?_, ?_, ?_⟩
    · rw [vaiAt, fe_replyBox, ← vaiAt, vaiAt_modVai fun e => by simpa using congrArg Vai.state e]
    · rw [boxAt_replyBox]; rfl
    · rw [boxAt_replyBox]; rfl

end Sys2Proof.Proofs
end

section
/-!
The allocator's commands (R571, R574 to R576, R776).
-/
namespace Sys2Proof.Proofs
open Sys2Proof Sys2Proof.Machine Sys2Proof.Laws

section
variable {s : State} {v i c a code : Nat}

/-- A command about a context that its word names runs on that context. -/
theorem run_onCtx (f : Nat → State → State) (hbox : Taken s v code) (h : boxCtx s v i = .ok c) :
    run s (onBox v code (onCtx v i f)) = .next (f c s) := by
  rw [run_onBox _ hbox, onCtx, h]

/-- A command about an allocation of its VAI that its handle names runs on that allocation. -/
theorem run_onAlloc (f : Nat → State → State) (hbox : Taken s v code) (h : allocOf s (boxWord s v 1) = some a)
    (hv : (allocAt s a).vai = v) : run s (onBox v code (onAlloc v f)) = .next (f a s) := by
  rw [run_onBox _ hbox, onAlloc, h]
  exact congrArg _ (if_neg (not_not.2 hv))

end

/-- The malformed requests of an allocation (R574). -/
theorem heapAlloc_faultFormat (s : State) (c n l : Nat) (r : Bool) : (heapAlloc c n l r s).1 = .faultFormat ↔
    (n = 0 ∨ r = true ∨ l = 3 ∨ (l = 1 ∧ chunkSize ≤ n) ∨ ((ctxAt s c).heapGib ≠ 0 ∧ (ctxAt s c).heapGib * chunkSize < n)) := by
  unfold heapAlloc
  dsimp only
  by_cases hbad : n = 0 ∨ r = true ∨ l = 3 ∨ (l = 1 ∧ chunkSize ≤ n)
  · rw [if_pos hbad]
    exact iff_of_true rfl (by tauto)
  · rw [if_neg hbad]
    by_cases hheap : (ctxAt s c).heapGib = 0
    · rw [if_pos hheap]
      exact iff_of_false (fun h => nomatch h) (by tauto)
    · rw [if_neg hheap]
      by_cases hsize : (ctxAt s c).heapGib * chunkSize < n
      · rw [if_pos hsize]
        exact iff_of_true rfl (by tauto)
      · rw [if_neg hsize]
        refine iff_of_false (fun h => ?_) (by tauto)
        split at h
        · exact nomatch h
        · split at h
          · exact nomatch h
          · split at h
            · exact nomatch h
            · exact nomatch h

/-- Settles O37, command by command. -/
theorem allocatorCommands : Obligations.AllocatorCommands := by
  unfold Obligations.AllocatorCommands
  refine ⟨?_, ?_, ?_, fun s c n l r => heapAlloc_faultFormat s c n l r, ?_, ?_, ?_, ?_, ?_, ?_⟩
  · intro s v c hbox hc halign hloads
    refine (run_onCtx _ hbox hc).trans ?_
    rw [if_neg (not_not.2 halign), hloads, if_neg Bool.false_ne_true]
    rfl
  · intro s v c a va t hbox hc hr
    refine (run_onCtx _ hbox hc).trans ?_
    dsimp only
    rw [hr]
  · intro s v c st a va t hbox hc hr hst
    refine (run_onCtx _ hbox hc).trans ?_
    dsimp only
    rw [hr]
    dsimp only
    split
    · exact absurd rfl hst
    · rfl
  · intro s v c a hbox hc ha
    refine (run_onCtx _ hbox hc).trans ?_
    rw [ha]
  · intro s v a c va t hbox ha hv hc hheap hdying hmap
    refine (run_onAlloc _ hbox ha hv).trans ?_
    rw [hc]
    dsimp only
    rw [if_neg (not_or.2 ⟨hheap, hdying ▸ Bool.false_ne_true⟩), hmap]
  · intro s v c a hbox hc hloads ha
    refine (run_onCtx _ hbox hc).trans ?_
    rw [hloads, if_neg Bool.false_ne_true, heapFree, ha]
    rfl
  · intro s v a hbox ha hv hdying hroom
    refine (run_onAlloc _ hbox ha hv).trans ?_
    dsimp only
    rw [hdying, if_neg Bool.false_ne_true, if_neg (Nat.ne_of_lt hroom)]
    rfl
  · intro s v a hbox ha hv hhost
    exact (run_onAlloc _ hbox ha hv).trans (congrArg _ (if_neg hhost))
  · intro s v a hbox ha hv hhost
    exact (run_onAlloc _ hbox ha hv).trans (congrArg _ (if_pos hhost))

end Sys2Proof.Proofs
end

section
/-!
Contexts that are created, torn down and destroyed, and dead allocations (R560 to R583).
-/
namespace Sys2Proof.Proofs
open Sys2Proof Sys2Proof.Machine Sys2Proof.Laws

/-! ## Memory of zeros -/

/-- Taking out numbers leaves the others as they read. -/
theorem tget_filter_key {α : Type} (d : α) (t : Tbl α) (P : Nat → Bool) (i : Nat) :
    tget d (t.filter (fun c => P c.1)) i = if P i then tget d t i else d := by
  induction t with
  | nil => simp [tget]
  | cons e r ih =>
    obtain ⟨k, w⟩ := e
    by_cases hk : k = i
    · subst hk
      cases hp : P k with
      | true => simp [hp, tget]
      | false => simpa [List.filter_cons, hp] using ih
    · cases hp : P k with
      | true => simpa [List.filter_cons, hp, tget, hk] using ih
      | false => simpa [List.filter_cons, hp, tget, hk] using ih

theorem tget_zeroMem (a n : Nat) (s : State) (x : Nat) :
    tget 0 (zeroMem a n s).mem.cells x = if x < a ∨ a + n ≤ x then tget 0 s.mem.cells x else 0 := by
  refine (tget_filter_key 0 s.mem.cells (fun k => decide (k < a ∨ a + n ≤ k)) x).trans ?_
  simp only [decide_eq_true_eq]

theorem zeroMem_zero {a n x : Nat} (s : State) (h : a ≤ x ∧ x < a + n) : tget 0 (zeroMem a n s).mem.cells x = 0 := by
  rw [tget_zeroMem, if_neg (by omega)]

theorem zeroMem_keeps_zero {s : State} {x : Nat} (a n : Nat) (h : tget 0 s.mem.cells x = 0) : tget 0 (zeroMem a n s).mem.cells x = 0 := by
  rw [tget_zeroMem, h, ite_self]

/-- An access moves runs, not bytes. -/
theorem cells_access (o : RunOwner) (r : Nat) (al : Option Nat) (w : Bool) (a n : Nat) (s : State) :
    (access o r al w a n s).mem.cells = s.mem.cells := by
  have h := (access_foot (List.Subset.refl [Area.mem, Area.rg]) o r al w a n (Foot.refl _ s)).cells.resolve_left (by decide)
  exact congrArg Prod.fst h

theorem logWrite_mem (a n : Nat) (s : State) : (logWrite a n s).mem = s.mem :=
  (logWrite_foot (List.Subset.refl [Area.fe]) a n (Foot.refl _ s)).mem.resolve_left (by decide)

theorem logWrite_allocs (a n : Nat) (s : State) : (logWrite a n s).fe.allocs = s.fe.allocs := by
  unfold logWrite
  split
  · refine each_same (fun u => u.fe.allocs) (fun p _ u => ?_) s
    split
    · split <;> rfl
    · rfl
  · rfl

/-! ## A dead allocation (R579) -/

/-- Firmware writes zeros over a range. -/
def zeroRange (b n : Nat) (s : State) : State := zeroMem b n (access .firmware 12 none true b n s)

theorem fe_zeroRange (b n : Nat) (s : State) : (zeroRange b n s).fe = s.fe :=
  (zeroMem_foot (W := [.cells, .mem, .rg]) (by decide) b n (access_foot (by decide) _ _ _ _ _ _ (Foot.refl _ s))).fe.resolve_left (by decide)

theorem zeroRange_keeps_zero {s : State} {x : Nat} (b n : Nat) (h : tget 0 s.mem.cells x = 0) :
    tget 0 (zeroRange b n s).mem.cells x = 0 :=
  zeroMem_keeps_zero b n (by rwa [cells_access])

/-- The memory of an allocation and of the granules moved for it holds zeros. -/
def zeroAlloc (x : Alloc) (s : State) : State :=
  each x.moved (fun m s => zeroRange (m.2 * 4096) 4096 s) (logWrite x.base x.size (zeroRange x.base x.size s))

theorem zeroAlloc_allocs (x : Alloc) (s : State) : (zeroAlloc x s).fe.allocs = s.fe.allocs := by
  unfold zeroAlloc
  rw [each_same (fun u => u.fe.allocs) (fun m _ u => congrArg Fe.allocs (fe_zeroRange (m.2 * 4096) 4096 u)), logWrite_allocs, fe_zeroRange]

theorem zeroAlloc_zero {x : Alloc} {i : Nat} (s : State) (h : x.base ≤ i ∧ i < x.base + x.size) :
    tget 0 (zeroAlloc x s).mem.cells i = 0 := by
  have hbase : tget 0 (logWrite x.base x.size (zeroRange x.base x.size s)).mem.cells i = 0 := by
    rw [logWrite_mem]
    exact zeroMem_zero _ h
  exact each_keeps (P := fun u => tget 0 u.mem.cells i = 0) (fun m _ u hu => zeroRange_keeps_zero _ _ hu) hbase

theorem exec_allocationZeroed {s : State} {a : Nat} (hs : Live s) (hz : (allocAt s a).zeroing = true)
    (hl : loadsLeft s (loadsFrom (allocAt s a)) = false) :
    exec (.allocationZeroed a) s = .next (modAlloc a (fun y => { gen := y.gen }) (zeroAlloc (allocAt s a) s)) :=
  run_guarded _ hs (by rw [hz, hl]; rfl)

theorem allocAt_modAlloc_ne {a b : Nat} (f : Alloc → Alloc) (s : State) (h : b ≠ a) : allocAt (modAlloc a f s) b = allocAt s b :=
  tget_tset_ne _ _ _ _ _ _ h

/-! ## A context is destroyed (R579, R580) -/

/-- The fences of a context lose their owner. -/
def orphanFences (c : Nat) (s : State) : State :=
  each (keysOf s.fe.fences (fun f => f.live && f.ctx == c && !f.orphan)) (fun f s => modFence f (fun y => { y with orphan := true }) s) s

/-- The domain of a context is unbound. -/
def unbindDomain (x : Ctx) (c : Nat) (s : State) : State :=
  match x.domain with
  | some d => dropTabs d (emptyHrc x.part { s with lce := { s.lce with domains := s.lce.domains.filter (fun d => decide (d.ctx ≠ c)) } })
  | none => s

/-- No array remembers a context. -/
def forgetCtx (c : Nat) (s : State) : State :=
  each (keysOf s.arr.st (fun x => x.lastCtx == some c)) (fun p s => modArr p (fun x => { x with lastCtx := none }) s) s

/-- The windows of a context go. -/
def dropWindows (c : Nat) (s : State) : State :=
  { s with csb := { s.csb with windows := s.csb.windows.filter (fun w => decide (w.ctx ≠ c)) },
           ports := { s.ports with hostCe := sremove c s.ports.hostCe } }

/-- A context's number is free; what R580 keeps of it stays. -/
def freeCtx (x : Ctx) : Ctx :=
  { gen := x.gen, hgen := (x.hgen + 1) % 256, fva := x.fva, kind := x.kind, source := x.source, count := x.count, late := x.late }

theorem destroyCtx_eq (c : Nat) (s : State) : destroyCtx c s =
    notice 0 0x03 (handle (ctxAt s c).hgen c) (notice (1 + (ctxAt s c).vai) 0x03 (handle (ctxAt s c).hgen c)
      (forgetCtx c (dropWindows c (unbindDomain (ctxAt s c) c (orphanFences c (modCtx c freeCtx s)))))) := rfl

theorem orphanFences_foot (c : Nat) (s : State) : Foot [.fe] s (orphanFences c s) := by
  unfold orphanFences
  exact each_foot _ _ (fun f u hu => modFence_foot (by decide) _ _ hu) (Foot.refl _ s)

theorem orphanFences_ctx (c : Nat) (s : State) : (orphanFences c s).fe.ctx = s.fe.ctx :=
  each_same (fun u => u.fe.ctx) (fun f _ u => show (modFence f _ u).fe.ctx = u.fe.ctx from rfl) s

theorem orphanFences_dying (c : Nat) (s : State) : (orphanFences c s).fe.dying = s.fe.dying :=
  each_same (fun u => u.fe.dying) (fun f _ u => show (modFence f _ u).fe.dying = u.fe.dying from rfl) s

theorem domains_foot {W : List Area} {r s : State} (hW : [.lce] ⊆ W) (l : List Domain) (h : Foot W r s) :
    Foot W r { s with lce := { s.lce with domains := l } } :=
  { h with lce := .inl (hW (by decide)) }

theorem unbindDomain_foot (x : Ctx) (c : Nat) (s : State) : Foot [.lce] s (unbindDomain x c s) := by
  unfold unbindDomain
  split
  · exact dropTabs_foot (by decide) _ (emptyHrc_foot (by decide) _ (domains_foot (by decide) _ (Foot.refl _ s)))
  · exact Foot.refl _ s

theorem dropTabs_domains (d : Nat) (s : State) : (dropTabs d s).lce.domains = s.lce.domains :=
  each_same (fun u => u.lce.domains) (fun n _ u => show (modLce n _ u).lce.domains = u.lce.domains from rfl) s

theorem unbindDomain_domains {x : Ctx} (c : Nat) (s : State) (hx : x.domain.isSome = true) :
    (unbindDomain x c s).lce.domains = s.lce.domains.filter (fun d => decide (d.ctx ≠ c)) := by
  obtain ⟨d, hd⟩ := Option.isSome_iff_exists.1 hx
  rw [unbindDomain, hd]
  exact dropTabs_domains d _

theorem forgetCtx_foot (c : Nat) (s : State) : Foot [.arr] s (forgetCtx c s) := by
  unfold forgetCtx
  exact each_foot _ _ (fun p u hu => modArr_foot (by decide) _ _ hu) (Foot.refl _ s)

theorem each_modArr {f : Arr → Arr} (hf : ∀ x, f (f x) = f x) (l : List Nat) {s : State} (hwf : twf {} s.arr.st = true) (p : Nat) :
    arrAt (each l (modArr · f) s) p = if p ∈ l then f (arrAt s p) else arrAt s p := by
  induction l generalizing s with
  | nil => rfl
  | cons k l ih =>
    have hk : arrAt (modArr k f s) p = if p = k then f (arrAt s k) else arrAt s p := by
      simp only [arrAt, modArr, tmod]
      exact tget_tset {} s.arr.st k p _ hwf
    have hl : arrAt (each (k :: l) (modArr · f) s) p = _ := ih (s := modArr k f s) (tmod_twf {} s.arr.st k f hwf)
    rw [hl, hk]
    by_cases hp : p = k
    · subst hp
      simp [hf]
    · simp [hp]

theorem mem_keysOf {α : Type} [DecidableEq α] {d : α} {t : Tbl α} {P : α → Bool} (hwf : twf d t = true) (hd : P d = false) {i : Nat} :
    i ∈ keysOf t P ↔ P (tget d t i) = true := by
  simp only [keysOf, List.mem_map, List.mem_filter]
  constructor
  · rintro ⟨e, ⟨he, hP⟩, rfl⟩
    rwa [tget_of_mem hwf he]
  · intro h
    exact ⟨(i, tget d t i), ⟨mem_of_tget_ne fun e => Bool.false_ne_true (by rw [← hd, ← e, h]), h⟩, rfl⟩

/-- After it no array remembers the context, and that is all. -/
theorem arrAt_forgetCtx (c : Nat) {s : State} (hwf : twf {} s.arr.st = true) (p : Nat) : arrAt (forgetCtx c s) p =
    { arrAt s p with lastCtx := if (arrAt s p).lastCtx = some c then none else (arrAt s p).lastCtx } := by
  refine (each_modArr (f := fun x => { x with lastCtx := none }) (fun _ => rfl) _ hwf p).trans ?_
  have hmem : p ∈ keysOf s.arr.st (fun x => x.lastCtx == some c) ↔ (arrAt s p).lastCtx = some c :=
    (mem_keysOf hwf rfl).trans beq_iff_eq
  by_cases h : (arrAt s p).lastCtx = some c
  · rw [if_pos (hmem.2 h), if_pos h]
  · rw [if_neg (fun hp => h (hmem.1 hp)), if_neg h]

theorem ctxAt_modCtx_ne {c b : Nat} (f : Ctx → Ctx) (s : State) (h : b ≠ c) : ctxAt (modCtx c f s) b = ctxAt s b :=
  tget_tset_ne _ _ _ _ _ _ h

/-- What the destruction of a context changes, and what it leaves (R580). -/
theorem destroyCtx_leaves (c : Nat) (s : State) : let t := destroyCtx c s
    t.fe.dying = s.fe.dying ∧ (∀ d ∈ t.lce.domains, (ctxAt s c).domain.isSome = true → d.ctx ≠ c) ∧ (∀ w ∈ t.csb.windows, w.ctx ≠ c) ∧
    (∀ b, b ≠ c → ctxAt t b = ctxAt s b) ∧ same .cells s t ∧ (twf {} s.arr.st = true → ∀ p, arrAt t p =
      { arrAt s p with lastCtx := if (arrAt s p).lastCtx = some c then none else (arrAt s p).lastCtx }) := by
  intro t
  have ht : t = _ := destroyCtx_eq c s
  have hnotice := fun (u : State) => notice_foot (W := [.ic]) (List.Subset.refl _) 0 0x03 (handle (ctxAt s c).hgen c)
    (notice_foot (List.Subset.refl _) (1 + (ctxAt s c).vai) 0x03 (handle (ctxAt s c).hgen c) (Foot.refl _ u))
  have horphan := orphanFences_foot c (modCtx c freeCtx s)
  have hbind := unbindDomain_foot (ctxAt s c) c (orphanFences c (modCtx c freeCtx s))
  have hforget := forgetCtx_foot c (dropWindows c (unbindDomain (ctxAt s c) c (orphanFences c (modCtx c freeCtx s))))
  have hn := hnotice (forgetCtx c (dropWindows c (unbindDomain (ctxAt s c) c (orphanFences c (modCtx c freeCtx s)))))
  rw [← ht] at hn
  have hfe : t.fe = (orphanFences c (modCtx c freeCtx s)).fe :=
    (hn.fe.resolve_left (by decide)).trans ((hforget.fe.resolve_left (by decide)).trans (hbind.fe.resolve_left (by decide)))
  have hctx : t.fe.ctx = (modCtx c freeCtx s).fe.ctx := (congrArg Fe.ctx hfe).trans (orphanFences_ctx c _)
  refine ⟨(congrArg Fe.dying hfe).trans (orphanFences_dying c _), ?_, ?_, ?_, ?_, ?_⟩
  · intro d hd hsome
    rw [hn.lce.resolve_left (by decide), hforget.lce.resolve_left (by decide)] at hd
    have hd : d ∈ (unbindDomain (ctxAt s c) c (orphanFences c (modCtx c freeCtx s))).lce.domains := hd
    rw [unbindDomain_domains c _ hsome] at hd
    exact of_decide_eq_true (List.mem_filter.1 hd).2
  · intro w hw
    rw [hn.csb.resolve_left (by decide), hforget.csb.resolve_left (by decide)] at hw
    exact of_decide_eq_true (List.mem_filter.1 hw).2
  · intro b hb
    rw [ctxAt, hctx]
    exact ctxAt_modCtx_ne freeCtx s hb
  · have hcells : (t.mem.cells, t.mem.poison, t.mem.retired) = (s.mem.cells, s.mem.poison, s.mem.retired) :=
      (hn.cells.resolve_left (by decide)).trans ((hforget.cells.resolve_left (by decide)).trans ((hbind.cells.resolve_left (by decide)).trans
        (horphan.cells.resolve_left (by decide))))
    obtain ⟨hbytes, hmarks, hgone⟩ : _ ∧ _ ∧ _ := by simpa only [Prod.mk.injEq] using hcells
    exact ⟨fun x => by rw [hbytes], hmarks, hgone⟩
  · intro hwf p
    have harr : (dropWindows c (unbindDomain (ctxAt s c) c (orphanFences c (modCtx c freeCtx s)))).arr = s.arr :=
      (hbind.arr.resolve_left (by decide)).trans (horphan.arr.resolve_left (by decide))
    rw [arrAt_of_arr (hn.arr.resolve_left (by decide)), arrAt_forgetCtx c (by rw [harr]; exact hwf), arrAt_of_arr harr]

/-! ## A context is made (R561 to R563) -/

section
variable {s : State}

theorem exec_ctxDestroy_named {b c : Nat} (hbox : Taken s b 0x0111) (hc : ctxNamed s (boxWord s b 1) = some c) :
    exec (.ctxDestroy b) s = .next (if (ctxAt s c).state ≠ 1 ∨ (b < 256 ∧ (ctxAt s c).vai ≠ b) then replySt b .denied s
      else replySt b .done (teardown c s)) := by
  show execCtxDestroy b s = _
  rw [execCtxDestroy, run_onBox _ hbox, hc]

/-- Without a domain only the context itself is written. -/
theorem makeCtx_plain (v c save root heapVa gib : Nat) (s : State) : makeCtx v c save 0xFFFF root heapVa gib s = modCtx c (fun x => {
      gen := x.gen, hgen := x.hgen, state := 1, vai := v, part := (vaiAt s v).part, root := root, heapVa := heapVa, heapGib := gib,
      domain := none, saveAt := save, refs := 1, created := true }) s := rfl

/-- A request that passes the checks of R562 has its context. -/
theorem ctxCreate_makes {t u : State} {save c : Nat} (hheap : heapFits (boxPair s 256 4) (boxWord s 256 6) = true)
    (hgib : boxWord s 256 6 ≤ 256) (hroot : boxPair s 256 2 % 4096 = 0) (hvai : (vaiAt s (field (boxWord s 256 1) 0 8)).state ≠ 0)
    (hfar : isFar (boxPair s 256 2) = true) (hgrant : grantedAll s (field (boxWord s 256 1) 0 8) (boxPair s 256 2) 4096 = true)
    (hscrub : scrubbing s (vaiAt s (field (boxWord s 256 1) 0 8)).part = false) (hdom : field (boxWord s 256 1) 16 16 = 0xFFFF)
    (hroom : (ctxsOf s (field (boxWord s 256 1) 0 8)).length < (vaiAt s (field (boxWord s 256 1) 0 8)).contexts)
    (hplace : placeAt true (field (boxWord s 256 1) 0 8) (saveBytes s (vaiAt s (field (boxWord s 256 1) 0 8)).part) 65536
      ((boxPair s 256 2, 4096) :: placedRanges s true) s = some (save, t))
    (hfree : chooseFree (fun c => (ctxAt t c).state == 0) 512 t = some (c, u)) :
    ctxCreate s = (let w := makeCtx (field (boxWord s 256 1) 0 8) c save 0xFFFF (boxPair s 256 2) (boxPair s 256 4) (boxWord s 256 6) u
      replyBox 256 0 [handle (ctxAt w c).hgen c] w) := by
  rw [ctxCreate]
  dsimp only
  rw [if_neg (by simp [hheap, hgib, hroot]), if_neg (by simp [hfar, hgrant]), if_neg (by simp [hvai, hscrub, hdom]),
    if_neg (Nat.not_le.2 hroom), hplace]
  dsimp only
  rw [hfree, hdom]

end

/-- Settles O36: what creation makes, what teardown and destruction end, and that memory is zeroed before it is free. -/
theorem contextsLiveAndDie : Obligations.ContextsLiveAndDie := by
  unfold Obligations.ContextsLiveAndDie
  refine ⟨?_, ?_, ?_, ?_, ?_, ?_, ?_⟩
  · intro s save c t u hbox v d root heap gib hheap hgib hroot hvai hfar hgrant hscrub hdom hroom hplace hfree w
    exact (run_onBox _ hbox).trans (congrArg _ (ctxCreate_makes hheap hgib hroot hvai hfar hgrant hscrub hdom hroom hplace hfree))
  · intro s b c hbox hc hst hwho
    rw [exec_ctxDestroy_named hbox hc, if_neg (not_or.2 ⟨not_not.2 hst, fun h => hwho.elim (Nat.not_le.2 h.1) h.2⟩)]
    rfl
  · intro s b c hbox hc hst
    rw [exec_ctxDestroy_named hbox hc, if_pos (.inl hst)]
    rfl
  · intro s c hs hset
    exact run_guarded _ hs hset
  · intro s i r hs hd
    refine (run_computing _ hs).trans ?_
    rw [hd]
    rfl
  · intro s c r hs hd
    have he : exec .objectDestroy s = .next (destroyCtx c { s with fe := { s.fe with dying := r } }) := by
      refine (run_computing _ hs).trans ?_
      rw [hd]
      rfl
    exact ⟨_, he, destroyCtx_leaves c _⟩
  · intro s a hs hz hl
    have hallocs := zeroAlloc_allocs (allocAt s a) s
    refine ⟨_, exec_allocationZeroed hs hz hl, ?_, fun b hb => ?_, fun x hlo hhi => zeroAlloc_zero s ⟨hlo, hhi⟩⟩
    · simp only [modAlloc, hallocs]
    · rw [allocAt_modAlloc_ne _ _ hb, allocAt, hallocs, ← allocAt]

end Sys2Proof.Proofs
end

section
/-!
Virtual instances, their grants, and partition scratch (R592 to R602).
-/
namespace Sys2Proof.Proofs
open Sys2Proof Sys2Proof.Machine Sys2Proof.Laws

section
variable {s : State}

/-- A VAI is made when its number, its PASID and its classes are free (R592, R593). -/
theorem exec_vaiCreate_makes (hbox : Taken s 256 0x0101) (hp : field (boxWord s 256 1) 8 4 < s.fe.parts)
    (hm : field (boxWord s 256 1) 16 16 ≠ 0) (hst : (vaiAt s (field (boxWord s 256 1) 0 8)).state = 0)
    (hpasid : pasidTaken s (boxWord s 256 2) = false)
    (hcls : classTaken s (field (boxWord s 256 1) 0 8) (field (boxWord s 256 1) 8 4) (field (boxWord s 256 1) 16 16) = false)
    (hconf : confPart s (field (boxWord s 256 1) 8 4) = false ∨ vaisIn s (field (boxWord s 256 1) 8 4) = [])
    (htouch : touching s (field (boxWord s 256 1) 8 4) = false) (hscrub : scrubbing s (field (boxWord s 256 1) 8 4) = false) :
    let v := field (boxWord s 256 1) 0 8
    exec .vaiCreate s = .next (replyBox 256 0 [] (modSrc (832 + v) (fun x => { x with mask := false })
      (modSrc (1088 + v) (fun x => { x with mask := false }) (modVai v (fun x => {
        evTail := x.evTail, drops := x.drops, state := 1, part := field (boxWord s 256 1) 8 4, pasid := boxWord s 256 2,
        classes := field (boxWord s 256 1) 16 16, wakeTol := boxWord s 256 3 }) s)))) := by
  have hfree : ¬ (confPart s (field (boxWord s 256 1) 8 4) = true ∧ ¬ (vaisIn s (field (boxWord s 256 1) 8 4)).isEmpty = true) := by
    rintro ⟨hc, hv⟩
    rcases hconf with h | h
    · exact Bool.false_ne_true (h ▸ hc)
    · exact hv (by rw [h]; rfl)
  refine (run_onBox _ hbox).trans ?_
  dsimp only
  rw [if_neg (not_or.2 ⟨Nat.not_le.2 hp, hm⟩), if_neg, if_neg (by simp [htouch, hscrub])]
  · rfl
  · rw [hpasid, hcls]
    rintro (h | h | h | h)
    · exact h hst
    · exact Bool.false_ne_true h
    · exact Bool.false_ne_true h
    · exact hfree h

/-- The VAI of a confidential partition goes with a scrub (R756). -/
theorem exec_vaiDestroy_scrubs (hbox : Taken s 256 0x0102) (hst : (vaiAt s (boxWord s 256 1)).state ≠ 0)
    (hscrub : scrubbing s (vaiAt s (boxWord s 256 1)).part = false) (htouch : touching s (vaiAt s (boxWord s 256 1)).part = false)
    (hctx : ctxsOf s (boxWord s 256 1) = []) (hconf : confPart s (vaiAt s (boxWord s 256 1)).part = true) :
    exec .vaiDestroy s = .next (startScrub (vaiAt s (boxWord s 256 1)).part 2 (modVai (boxWord s 256 1) (fun x => { x with log := false }) s)) := by
  refine (run_onBox _ hbox).trans ?_
  dsimp only
  rw [if_neg hst, if_neg (by simp [hscrub, htouch]), if_neg (by simp [hctx]), if_pos hconf]

/-- What passes the checks of R598 to R600 is granted. -/
theorem exec_vaiGrant_gives (hbox : Taken s 256 0x0103)
    (hmal : grantMalformed (vaiAt s (field (boxWord s 256 1) 0 8)) (field (boxWord s 256 1) 8 4) (boxWord s 256 2) (boxWord s 256 3) false = false)
    (hden : grantDenied s (field (boxWord s 256 1) 0 8) (field (boxWord s 256 1) 8 4) (boxWord s 256 2) (boxWord s 256 3) false = false)
    (hbusy : grantBusy s (field (boxWord s 256 1) 0 8) (field (boxWord s 256 1) 8 4) (boxWord s 256 2) (boxWord s 256 3) false = false)
    (hgive : bit (boxWord s 256 1) 12 = false) (hk : field (boxWord s 256 1) 8 4 ≠ 2) :
    let v := field (boxWord s 256 1) 0 8
    let k := field (boxWord s 256 1) 8 4
    let a := boxWord s 256 2
    let n := boxWord s 256 3
    exec .vaiGrant s = .next (replyBox 256 0 [] (
      if k = 9 then modVai v (fun x => { x with classesNext := some a }) s
      else if Machine.counted k then modVai v (putCount k (countOf (vaiAt s v) k + n)) s
      else each (itemsFrom a n) (fun i s => giveItem v k i s) s)) := by
  refine (run_onBox _ hbox).trans ?_
  dsimp only
  rw [hgive, hmal, hden, hbusy, if_neg Bool.false_ne_true, if_neg Bool.false_ne_true, if_neg Bool.false_ne_true,
    if_neg (fun h => Bool.false_ne_true h.1), if_neg hk]
  rfl

/-- What passes the checks, and that no load reads, is revoked (R601). -/
theorem exec_vaiGrant_takes (hbox : Taken s 256 0x0103)
    (hmal : grantMalformed (vaiAt s (field (boxWord s 256 1) 0 8)) (field (boxWord s 256 1) 8 4) (boxWord s 256 2) (boxWord s 256 3) true = false)
    (hden : grantDenied s (field (boxWord s 256 1) 0 8) (field (boxWord s 256 1) 8 4) (boxWord s 256 2) (boxWord s 256 3) true = false)
    (hbusy : grantBusy s (field (boxWord s 256 1) 0 8) (field (boxWord s 256 1) 8 4) (boxWord s 256 2) (boxWord s 256 3) true = false)
    (htake : bit (boxWord s 256 1) 12 = true) (hcount : Machine.counted (field (boxWord s 256 1) 8 4) = false)
    (hk9 : field (boxWord s 256 1) 8 4 ≠ 9) (hk2 : field (boxWord s 256 1) 8 4 ≠ 2)
    (hread : field (boxWord s 256 1) 8 4 = 1 → itemsRead s 1 (itemsFrom (boxWord s 256 2) (boxWord s 256 3)) = false) :
    let v := field (boxWord s 256 1) 0 8
    let k := field (boxWord s 256 1) 8 4
    exec .vaiGrant s = .next (replyBox 256 0 [] (each (itemsFrom (boxWord s 256 2) (boxWord s 256 3)) (fun i s => takeItem v k i s) s)) := by
  have hread : ¬ (true = true ∧ (field (boxWord s 256 1) 8 4 = 1 ∨ field (boxWord s 256 1) 8 4 = 2) ∧
      itemsRead s (field (boxWord s 256 1) 8 4) (itemsFrom (boxWord s 256 2) (boxWord s 256 3)) = true) := by
    rintro ⟨-, h1 | h2, h⟩
    · rw [h1, hread h1] at h
      exact Bool.false_ne_true h
    · exact hk2 h2
  refine (run_onBox _ hbox).trans ?_
  dsimp only
  rw [htake, hmal, hden, hbusy, if_neg Bool.false_ne_true, if_neg Bool.false_ne_true, if_neg Bool.false_ne_true, if_neg hread,
    if_neg hk9, hcount, if_neg Bool.false_ne_true, if_neg hk2]
  rfl

/-- A chunk that is revoked is written with zeros and is free; the rest of memory stays (R601). -/
theorem exec_revokeZeroed_chunk {k : Nat} (hs : Live s) (hr : regsOn s = true) (hz : tget .free s.fe.ftOwn k = .zeroing) :
    exec (.revokeZeroed false k) s = .next { zeroMem (k * chunkSize) chunkSize s with
      fe := { s.fe with ftOwn := tset .free s.fe.ftOwn k .free } } := by
  refine (run_guarded _ hs hr).trans ?_
  rw [if_neg Bool.false_ne_true, if_pos hz]
  rfl

/-- A partition's scratch grant is replaced when no other partition holds a unit of it and no unit it loses is a VAI's (R596). -/
theorem exec_partScratch_replaces (hbox : Taken s 256 0x0104) (hp : boxWord s 256 1 < s.fe.parts)
    (hn : field (boxWord s 256 2) 0 6 + field (boxWord s 256 2) 8 6 ≤ 56)
    (hothers : ∀ q, q < s.fe.parts → q ≠ boxWord s 256 1 → ∀ u ∈ unitsOf s q,
      u ∉ itemsFrom (field (boxWord s 256 2) 0 6) (field (boxWord s 256 2) 8 6))
    (hsteps : ∀ u ∈ itemsFrom (field (boxWord s 256 2) 0 6) (field (boxWord s 256 2) 8 6), u < 8 * scratchSteps s)
    (htouch : touching s (boxWord s 256 1) = false) (hscrub : scrubbing s (boxWord s 256 1) = false)
    (hheld : ∀ u ∈ unitsOf s (boxWord s 256 1), u ∉ itemsFrom (field (boxWord s 256 2) 0 6) (field (boxWord s 256 2) 8 6) →
      ∀ v, tget .free s.fe.scrOwn u ≠ .vai v) :
    exec .partScratch s = .next (replyBox 256 0 [] (emptyHrc (boxWord s 256 1) (modPart (boxWord s 256 1) (fun x => { x with
      scrFirst := field (boxWord s 256 2) 0 6, scrCount := field (boxWord s 256 2) 8 6 }) s))) := by
  refine (run_onBox _ hbox).trans ?_
  dsimp only
  rw [if_neg (not_or.2 ⟨Nat.not_le.2 hp, Nat.not_lt.2 hn⟩), if_neg, if_neg]
  · rfl
  · rw [htouch, hscrub]
    rintro (h | h | h)
    · exact nomatch h
    · exact nomatch h
    · obtain ⟨u, hu, hown⟩ := List.any_eq_true.1 h
      obtain ⟨hin, hout⟩ := List.mem_filter.1 hu
      cases ho : tget .free s.fe.scrOwn u with
      | vai v => exact hheld u hin (by simpa using hout) v ho
      | _ => simp [ho] at hown
  · rintro (h | h)
    · obtain ⟨l, hl, hany⟩ := List.any_eq_true.1 h
      obtain ⟨q, hq, rfl⟩ := List.mem_map.1 hl
      obtain ⟨hqp, hne⟩ := List.mem_filter.1 hq
      obtain ⟨u, hu, hin⟩ := List.any_eq_true.1 hany
      exact hothers q (List.mem_range.1 hqp) (of_decide_eq_true hne) u hu (by simpa using hin)
    · obtain ⟨u, hu, hle⟩ := List.any_eq_true.1 h
      exact absurd (hsteps u hu) (Nat.not_lt.2 (of_decide_eq_true hle))

end

/-- Settles O38, command by command. -/
theorem virtualInstances : Obligations.VirtualInstances := by
  unfold Obligations.VirtualInstances
  refine ⟨?_, ?_, ?_, ?_, ?_, ?_, ?_⟩
  · intro s hbox v p m hp hm hst hpasid hcls hconf htouch hscrub
    exact exec_vaiCreate_makes hbox hp hm hst hpasid hcls hconf htouch hscrub
  · intro s hbox hst hp hm
    refine (run_onBox _ hbox).trans ?_
    dsimp only
    rw [if_neg (not_or.2 ⟨Nat.not_le.2 hp, hm⟩), if_pos (.inl hst)]
    rfl
  · intro s hbox v p hst hscrub htouch hctx
    by_cases hconf : confPart s p = true
    · rw [if_pos hconf]
      exact exec_vaiDestroy_scrubs hbox hst hscrub htouch hctx hconf
    · rw [if_neg hconf]
      exact exec_vaiDestroy_ends hbox hst hscrub htouch hctx (Bool.eq_false_iff.2 hconf)
  · intro s hbox v k a n hmal hden hbusy hgive hk
    exact exec_vaiGrant_gives hbox hmal hden hbusy hgive hk
  · intro s hbox v k a n hmal hden hbusy htake hcount hk9 hk2 hread
    exact exec_vaiGrant_takes hbox hmal hden hbusy htake hcount hk9 hk2 hread
  · intro s k hs hr hz
    refine ⟨_, exec_revokeZeroed_chunk hs hr hz, fun a hlo hhi => ?_, fun a hout => ?_, rfl⟩
    · exact zeroMem_zero s ⟨hlo, by rw [Nat.succ_mul] at hhi; exact hhi⟩
    · exact (tget_zeroMem _ _ s a).trans (if_pos (by rw [Nat.succ_mul] at hout; exact hout))
  · intro s hbox p a n hp hn hothers hsteps htouch hscrub hheld
    exact exec_partScratch_replaces hbox hp hn hothers hsteps htouch hscrub hheld

end Sys2Proof.Proofs
end

section
/-!
The SYNC class of array instructions (R531 to R540, R547, R548) on words and channels that nothing else waits for.
-/
namespace Sys2Proof.Proofs
open Sys2Proof Sys2Proof.Machine Sys2Proof.Laws

/-! ## The class -/

/-- A SYNC instruction of a defined MOD and IMM does what it says. -/
theorem Executes.syncs {u s : State} {es : List LsError} {l p op w : Nat} {t : Task} (h : Executes u es s l p t w 7 op)
    {mods imm : Nat → Bool} {f : Nat → Task → Nat → State → State} (hm : mods (opMod w) = true) (hi : imm (opImm w) = true) :
    run u (syncOp l es op mods imm f) = .next (f p t w s) :=
  (Executes.acts h hm).trans (congrArg _ (if_pos hi))

theorem Executes.opCode_eq {u s : State} {es : List LsError} {l p cls op w : Nat} {t : Task} (h : Executes u es s l p t w cls op) :
    opCode w = op := by
  obtain ⟨-, -, -, -, -, -, -, hop⟩ := h
  exact hop

theorem twGranted_lt {s : State} {v i : Nat} (h : twGranted s v i = true) : i < 16384 :=
  of_decide_eq_true (Bool.and_eq_true_iff.1 h).1

theorem field_of_lt {x n : Nat} (h : x < 2 ^ n) : field x 0 n = x := by
  rw [field, Nat.shiftRight_zero, Nat.mod_eq_of_lt h]

section
variable {u s : State} {es : List LsError} {l p w : Nat} {t : Task}

/-! ## Tally words (R533 to R537) -/

/-- A SIGNAL to a quiet word of this block: the word takes the sum, the array what it was. -/
theorem signalHere_quiet {op : Nat} (h : Executes u es s l p t w 7 op) {i : Nat} (d : W32) (dst : Nat)
    (hg : twGranted s (ctxAt s t.ctx).vai i = true) (hq : Quiet s i) :
    signalHere l p t i d dst false s =
      twWrite i (twAt s i + d) 0x1 l (modArr p (fun x => stepped (x.putS dst (w64 (twAt s i).toNat))) s) := by
  have hret : retireWith p (fun x => x.putS dst (w64 (twAt s i).toNat)) s =
      modArr p (fun x => stepped (x.putS dst (w64 (twAt s i).toNat))) s :=
    modArr_congr (retire_eq_stepped (x := (arrAt s p).putS dst (w64 (twAt s i).toNat)) (Executes.stall h))
  unfold signalHere
  rw [if_pos hg, if_neg Bool.false_ne_true]
  dsimp only
  rw [hret]
  exact tallyAdd_quiet d 0x1 l hq

/-- A wait on a word of the array's VAI is armed and tested. -/
theorem doWait_arms (hg : twGranted s (ctxAt s t.ctx).vai ((arrAt s p).getS (opSrc1 w)).toNat = true)
    (hn : opCode w = 3 → 0 < ((arrAt s p).getS (opSrc2 w)).toNat ∧ ((arrAt s p).getS (opSrc2 w)).toNat < 2 ^ 31) :
    doWait l p t w s = armWait l p (decide (opCode w = 3)) ((arrAt s p).getS (opSrc1 w)).toNat (opMod w % 4) (opDst w)
      (w32 (((arrAt s p).getS (opSrc2 w)).toNat % 2 ^ 32)) s := by
  have hform : ¬ (16384 ≤ ((arrAt s p).getS (opSrc1 w)).toNat ∨ (opCode w = 3 ∧
      (((arrAt s p).getS (opSrc2 w)).toNat = 0 ∨ 2 ^ 31 ≤ ((arrAt s p).getS (opSrc2 w)).toNat))) := by
    rintro (hi | ⟨ho, hr⟩)
    · exact absurd (twGranted_lt hg) (Nat.not_lt.2 hi)
    · have := hn ho
      omega
  unfold doWait
  dsimp only
  rw [if_neg hform, hg]
  rfl

/-- A word that no wait names releases none. -/
theorem releaseWaits_quiet {s : State} {i : Nat} (h : ∀ x ∈ s.tw.waits, x.idx ≠ i) : releaseWaits i s = s := by
  have hnone : (s.tw.waits.filter (fun w => decide (w.idx = i ∧ w.take = false) && waitHolds w.cond (twAt s i) w.arg)) = [] :=
    List.filter_eq_nil_iff.2 fun w hw => by simp [h w hw]
  rw [releaseWaits, hnone]
  rfl

/-- SIGNAL to a quiet word of this block. -/
theorem exec_signal_quiet (h : Executes u es s l p t w 7 1) (hmod : opMod w = 0) (himm : opImm w = 0)
    (hg : twGranted s (ctxAt s t.ctx).vai ((arrAt s p).getS (opSrc1 w)).toNat = true)
    (hq : Quiet s ((arrAt s p).getS (opSrc1 w)).toNat) :
    let i := ((arrAt s p).getS (opSrc1 w)).toNat
    exec (.signal l es) u = .next (twWrite i (twAt s i + w32 (((arrAt s p).getS (opSrc2 w)).toNat % 2 ^ 32)) 0x1 l
      (modArr p (fun x => stepped (x.putS (opDst w) (w64 (twAt s i).toNat))) s)) := by
  have hi : field ((arrAt s p).getS (opSrc1 w)).toNat 0 14 = ((arrAt s p).getS (opSrc1 w)).toNat := field_of_lt (twGranted_lt hg)
  refine (Executes.syncs h (by rw [hmod]; rfl) (by rw [himm]; rfl)).trans ?_
  dsimp only
  have hlocal : bit (opMod w) 0 = false := by rw [hmod]; rfl
  rw [hi, hlocal, if_neg (by simp), if_pos (.inl rfl)]
  exact congrArg _ (signalHere_quiet h _ _ hg hq)

/-- WAIT that holds. -/
theorem exec_wait_holds (h : Executes u es s l p t w 7 2) (hmod : opMod w < 4)
    (hg : twGranted s (ctxAt s t.ctx).vai ((arrAt s p).getS (opSrc1 w)).toNat = true)
    (hw : waitHolds (opMod w) (twAt s ((arrAt s p).getS (opSrc1 w)).toNat) (w32 (((arrAt s p).getS (opSrc2 w)).toNat % 2 ^ 32)) = true) :
    exec (.wait l es) u = .next (modArr p (fun x => { (x.putS (opDst w)
      (w64 (twAt s ((arrAt s p).getS (opSrc1 w)).toNat).toNat)).retire with cond := true }) s) := by
  have hop : opCode w ≠ 3 := Executes.opCode_eq h ▸ (by decide)
  refine (Executes.syncs h (decide_eq_true hmod) rfl).trans ?_
  rw [doWait_arms hg fun ho => absurd ho hop, armWait, decide_eq_false hop]
  dsimp only
  rw [if_neg Bool.false_ne_true, Nat.mod_eq_of_lt hmod, if_pos hw]

/-- WAIT that does not hold is armed. -/
theorem exec_wait_armed (h : Executes u es s l p t w 7 2) (hmod : opMod w < 4)
    (hg : twGranted s (ctxAt s t.ctx).vai ((arrAt s p).getS (opSrc1 w)).toNat = true)
    (hw : waitHolds (opMod w) (twAt s ((arrAt s p).getS (opSrc1 w)).toNat) (w32 (((arrAt s p).getS (opSrc2 w)).toNat % 2 ^ 32)) = false) :
    exec (.wait l es) u = .next (modArr p (fun x => { x with stall := .wait (opDst w) }) { s with tw := { s.tw with
      waits := s.tw.waits ++ [{ l := l, phys := p, idx := ((arrAt s p).getS (opSrc1 w)).toNat, take := false,
                                cond := opMod w, arg := w32 (((arrAt s p).getS (opSrc2 w)).toNat % 2 ^ 32) }] } }) := by
  have hop : opCode w ≠ 3 := Executes.opCode_eq h ▸ (by decide)
  refine (Executes.syncs h (decide_eq_true hmod) rfl).trans ?_
  rw [doWait_arms hg fun ho => absurd ho hop, armWait, decide_eq_false hop]
  dsimp only
  rw [if_neg Bool.false_ne_true, Nat.mod_eq_of_lt hmod, if_neg (by rw [hw]; exact Bool.false_ne_true)]

/-- TAKEWAIT that holds takes its amount. -/
theorem exec_takewait_holds (h : Executes u es s l p t w 7 3) (hmod : opMod w = 0)
    (hg : twGranted s (ctxAt s t.ctx).vai ((arrAt s p).getS (opSrc1 w)).toNat = true)
    (hpos : 0 < ((arrAt s p).getS (opSrc2 w)).toNat) (hlt : ((arrAt s p).getS (opSrc2 w)).toNat < 2 ^ 31)
    (hw : takeHolds (twAt s ((arrAt s p).getS (opSrc1 w)).toNat) (w32 ((arrAt s p).getS (opSrc2 w)).toNat) = true)
    (hq : Quiet s ((arrAt s p).getS (opSrc1 w)).toNat) :
    let i := ((arrAt s p).getS (opSrc1 w)).toNat
    let n := w32 ((arrAt s p).getS (opSrc2 w)).toNat
    exec (.takewait l es) u = .next (twWrite i (twAt s i - n) 0x7 l
      (modArr p (fun x => stepped { x.putS (opDst w) (w64 (twAt s i - n).toNat) with cond := true }) s)) := by
  intro i n
  have hret : modArr p (fun x => { (x.putS (opDst w) (w64 (twAt s i - n).toNat)).retire with cond := true }) s =
      modArr p (fun x => stepped { x.putS (opDst w) (w64 (twAt s i - n).toNat) with cond := true }) s :=
    modArr_congr (congrArg (fun y : Arr => { y with cond := true })
      (retire_eq_stepped (x := (arrAt s p).putS (opDst w) (w64 (twAt s i - n).toNat)) (Executes.stall h)))
  refine (Executes.syncs h (by rw [hmod]; rfl) rfl).trans ?_
  rw [doWait_arms hg fun _ => ⟨hpos, hlt⟩, armWait, decide_eq_true (Executes.opCode_eq h), Nat.mod_eq_of_lt (Nat.lt_trans hlt (by decide))]
  dsimp only
  rw [if_pos rfl, if_pos hw, hret]
  exact congrArg _ (releaseWaits_quiet hq.1)

/-- TAKEWAIT that does not hold is armed. -/
theorem exec_takewait_armed (h : Executes u es s l p t w 7 3) (hmod : opMod w = 0)
    (hg : twGranted s (ctxAt s t.ctx).vai ((arrAt s p).getS (opSrc1 w)).toNat = true)
    (hpos : 0 < ((arrAt s p).getS (opSrc2 w)).toNat) (hlt : ((arrAt s p).getS (opSrc2 w)).toNat < 2 ^ 31)
    (hw : takeHolds (twAt s ((arrAt s p).getS (opSrc1 w)).toNat) (w32 ((arrAt s p).getS (opSrc2 w)).toNat) = false) :
    exec (.takewait l es) u = .next (modArr p (fun x => { x with stall := .wait (opDst w) }) { s with tw := { s.tw with
      waits := s.tw.waits ++ [{ l := l, phys := p, idx := ((arrAt s p).getS (opSrc1 w)).toNat, take := true, cond := 0,
                                arg := w32 ((arrAt s p).getS (opSrc2 w)).toNat }] } }) := by
  refine (Executes.syncs h (by rw [hmod]; rfl) rfl).trans ?_
  rw [doWait_arms hg fun _ => ⟨hpos, hlt⟩, armWait, decide_eq_true (Executes.opCode_eq h), Nat.mod_eq_of_lt (Nat.lt_trans hlt (by decide))]
  dsimp only
  rw [if_pos rfl, if_neg (by rw [hw]; exact Bool.false_ne_true)]

/-! ## Barriers (R547, R548) -/

/-- An arrival that does not complete the count waits. -/
theorem exec_barrier_waits (h : Executes u es s l p t w 7 4) (hmod : opMod w = 0) (himm : opImm w < 32)
    (hst : (barAt s (opImm w)).state = 1) (hctx : (barAt s (opImm w)).ctx = t.ctx)
    (hcount : (barAt s (opImm w)).arrived ≠ (barAt s (opImm w)).countM1) :
    exec (.barrier l es) u = .next (modBar (opImm w) (fun b => { b with arrived := b.arrived + 1, waiters := b.waiters ++ [t.seq] })
      (modArr p (fun x => { x with stall := .barrier (opDst w) (opImm w) }) s)) := by
  refine (Executes.syncs h (by rw [hmod]; rfl) (decide_eq_true himm)).trans ?_
  dsimp only
  rw [if_neg (not_or.2 ⟨hst ▸ (by decide), not_not.2 hctx⟩), if_neg (hst ▸ (by decide)), barArrive]
  dsimp only
  exact congrArg _ (if_neg fun e => hcount (Nat.succ.inj e))

/-! ## Atomics (R540, R266) -/

theorem Walked.retiredAt {a b : State} (h : Walked a b) (x : Nat) : retiredAt b x = retiredAt a x := by
  obtain ⟨q, c, f, rfl⟩ := h
  rfl

theorem Walked.cells {a b : State} (h : Walked a b) : b.mem.cells = a.mem.cells := by
  obtain ⟨q, c, f, rfl⟩ := h
  rfl

theorem Walked.arr {a b : State} (h : Walked a b) : b.arr = a.arr := by
  obtain ⟨q, c, f, rfl⟩ := h
  rfl

theorem taskPoisons_walked (seq : Nat) (bad : Bool) (a : State) : Walked a (taskPoisons seq bad a) := by
  unfold taskPoisons
  split
  · exact ⟨a.rg.queue, a.mem.cache, _, rfl⟩
  · exact .refl a

/-- An atomic after a walk reads what was there before it. -/
theorem atomicAt_walked (kind a arg cmp : Nat) (bad : Bool) {v z : State} (h : Walked v z) : atomicAt kind a arg cmp bad z =
    ((atomicResult kind (leNat (readMem v a 8)) arg cmp).2,
      writeMem a (leBytes 8 (atomicResult kind (leNat (readMem v a 8)) arg cmp).1) (fun _ => bad) z) := by
  rw [atomicAt, h.reads.1 a 8]

/-- The array waits for the reply of its atomic. -/
theorem atomic_waits (p dst : Nat) {r x : Nat × State} (h : r = x) :
    modArr p (fun y => { y with stall := .atom dst (some (w64 r.1)) }) r.2 =
      modArr p (fun y => { y with stall := .atom dst (some (w64 x.1)) }) x.2 := by
  rw [h]

/-- ATOM on memory of this block, at the point of coherence: the eight bytes take the new value, the array the old one with the reply. -/
theorem exec_atom_here {a : Nat} {mem : List MemError} (h : Executes u es s l p t w 7 5) (hmod : opMod w < 3) (himm : opImm w = 0)
    (hal : ((arrAt s p).getA (opSrc1 w)).toNat % 8 = 0)
    (hxl : xl s (.array l) t.ctx ((arrAt s p).getA (opSrc1 w)).toNat 8 .atomic = .ok 0 a) :
    let v := memErrors a 8 mem s
    let r := atomicResult (opMod w) (leNat (readMem v a 8)) ((arrAt s p).getS (opSrc2 w)).toNat ((arrAt s p).getS (opDst w)).toNat
    ∃ z, Walked v z ∧ exec (.atom l es mem) u = .next (modArr p (fun x => { x with stall := .atom (opDst w) (some (w64 r.2)) })
      (writeMem a (leBytes 8 r.1) (fun _ => t.taint) z)) := by
  intro v r
  have hwalk : Walked v (accessC (.array l) t.ctx none true a 8 (xlFill (.array l) t.ctx ((arrAt s p).getA (opSrc1 w)).toNat v)) :=
    (xlFill_walked _ _ _ v).trans (accessC_walked _ _ _ _ _ _ _)
  generalize hy : accessC (.array l) t.ctx none true a 8 (xlFill (.array l) t.ctx ((arrAt s p).getA (opSrc1 w)).toNat v) = y at hwalk
  have hz := hwalk.trans (taskPoisons_walked t.seq (t.taint || poisonIn y a 8) y)
  refine ⟨_, hz, (Executes.syncs h (decide_eq_true hmod) (by rw [himm]; rfl)).trans ?_⟩
  dsimp only
  rw [if_neg (not_not.2 hal), hxl]
  subst hy
  exact congrArg Host.Outcome.next (atomic_waits p (opDst w) (atomicAt_walked (opMod w) a _ _ t.taint hz))

/-- What ATOM leaves in memory and in its array. -/
theorem atom_leaves {op a : Nat} {mem : List MemError} (h : Executes u es s l p t w 7 op) (k arg cmp : Nat) (bad : Bool) {z : State}
    (hz : Walked (memErrors a 8 mem s) z) (hr : ∀ x, a ≤ x → x < a + 8 → retiredAt (memErrors a 8 mem s) x = false)
    (hwf : Memory.wf (memErrors a 8 mem s).mem.cells = true) :
    let v := memErrors a 8 mem s
    let r := atomicResult k (leNat (readMem v a 8)) arg cmp
    let t' := modArr p (fun x => { x with stall := .atom (opDst w) (some (w64 r.2)) }) (writeMem a (leBytes 8 r.1) (fun _ => bad) z)
    (∀ i, i < 8 → tget 0 t'.mem.cells (a + i) = (leBytes 8 r.1).getD i 0) ∧
    (∀ x, (x < a ∨ a + 8 ≤ x) → tget 0 t'.mem.cells x = tget 0 v.mem.cells x) ∧
    arrAt t' p = { arrAt s p with stall := .atom (opDst w) (some (w64 r.2)) } := by
  intro v r t'
  have hcells : t'.mem.cells = putBytes v.mem.cells a (leBytes 8 r.1) := by
    rw [← hz.cells]
    exact writeMem_cells _ fun x hlo hhi => (hz.retiredAt x).trans (hr x hlo (by rwa [length_leBytes] at hhi))
  obtain ⟨hin, hout⟩ := tget_written (a := a) (l := leBytes 8 r.1) hwf
  rw [length_leBytes] at hin hout
  have hv : v.arr = s.arr :=
    (memErrors_foot (List.Subset.refl _) a 8 mem (Foot.refl _ s)).arr.resolve_left (by decide)
  have hw : (writeMem a (leBytes 8 r.1) (fun _ => bad) z).arr = z.arr :=
    (writeMem_foot (List.Subset.refl _) a _ _ (Foot.refl _ z)).arr.resolve_left (by decide)
  have harr : arrAt (writeMem a (leBytes 8 r.1) (fun _ => bad) z) p = arrAt s p := arrAt_of_arr (hw.trans (hz.arr.trans hv)) p
  obtain ⟨q, hq⟩ := Executes.task h
  refine ⟨fun i hi => by rw [hcells, hin i hi], fun x hx => by rw [hcells, hout x hx], ?_⟩
  rw [arrAt_modArr p _ _ fun e => by simpa [harr, hq] using congrArg Arr.task e, harr]

end

/-- Settles O6, instruction by instruction; a quiet word's change is its write alone. -/
theorem syncInstructions : Obligations.SyncInstructions := by
  unfold Obligations.SyncInstructions
  refine ⟨?_, ?_, ?_, ?_, ?_⟩
  · intro u es s l p t w h hmod himm hg hq i
    exact exec_signal_quiet h hmod himm hg hq
  · intro u es s l p t w h hmod hg i c
    refine ⟨fun hw => ⟨_, exec_wait_holds h hmod hg hw, ?_⟩, fun hw => exec_wait_armed h hmod hg hw⟩
    exact Executes.changes h (congrArg (fun y : Arr => { y with cond := true })
      (retire_eq_stepped (x := (arrAt s p).putS (opDst w) (w64 (twAt s i).toNat)) (Executes.stall h))) rfl
  · intro u es s l p t w h hmod hg hpos hlt i n
    exact ⟨fun hw hq => exec_takewait_holds h hmod hg hpos hlt hw hq, fun hw => exec_takewait_armed h hmod hg hpos hlt hw⟩
  · intro u es s l p t w h hmod himm hst hctx hcount
    exact exec_barrier_waits h hmod himm hst hctx hcount
  · intro u es s l p t w a mem h hmod himm hal hxl v hr _ hwf
    obtain ⟨z, hz, he⟩ := exec_atom_here (mem := mem) h hmod himm hal hxl
    exact ⟨_, he, atom_leaves h _ _ _ _ hz hr hwf⟩

end Sys2Proof.Proofs
end
